-- ==== Sys2Proof/Word.lean ====
section
/-! DEFINITION. The word types of the Z8 (R4) and the names of its register fields (R114). -/

namespace Sys2Proof

/-- A 64-bit register or queue word. -/
abbrev Word := BitVec 64
/-- The smallest addressable unit. -/
abbrev Byte := BitVec 8
/-- An x register number, x0 to x15. -/
abbrev XReg := BitVec 4
/-- A v register number, v0 to v31. -/
abbrev VReg := BitVec 5
/-- A guard register number, g0 to g7. -/
abbrev GReg := BitVec 3
/-- A mask register number, k0 to k7. -/
abbrev KReg := BitVec 3

end Sys2Proof
end

