-- ==== Sys2Proof/Config.lean ====
section
/-! DEFINITION. What an implementation fixes and the values the spec leaves open: constants with no body, so nothing
can be proved of their values (log 1, 4 to 8, 11). -/

namespace Sys2Proof.Config

/-- Which of several permitted steps is taken next, by a counter in State (R76: any sequence of permitted steps). -/
opaque pick : Nat → Nat
/-- Which line a full L1 view drops, by the request that fills it (R83; log 1). -/
opaque victim : Nat → Nat
/-- What a host byte that no request of the package has written reads as: host memory is the host's (R338). -/
opaque hostByte : Nat → BitVec 8
/-- AES-256-XTS of one 16-byte block of a sealed line under a key, a tweak and a block number, as a permutation of
blocks: what it does to a block is left open, and its inverse undoes it (R355, R357; log 5). -/
opaque xts : Nat → Nat → Nat → Equiv.Perm (BitVec 128)
/-- Ciphertext of a block (R357). -/
def xtsEnc (k t j : Nat) (b : BitVec 128) : BitVec 128 := xts k t j b
/-- Plaintext of a block (R357). -/
def xtsDec (k t j : Nat) (b : BitVec 128) : BitVec 128 := (xts k t j).symm b
/-- The set of a slice, of 2,048, that a physical line falls in (R71, R337: the machine's own). -/
opaque sliceSet : Nat → Fin 2048
/-- SHA-384 of a byte string, named by its standard alone (R325, R351). -/
opaque sha384 : List (BitVec 8) → BitVec 384
/-- A signature by the identity key over a transcript (R350). -/
opaque signed : Nat → BitVec 384 → List (BitVec 8)
/-- Whether the four dwords of a PKGT entry name a valid peer, and whether they admit its requests (R368: the spec names the
fields and no bits; log 7). -/
opaque pkgValid : List (BitVec 64) → Bool
opaque pkgImport : List (BitVec 64) → Bool
/-- The VF under which a peer's requests are translated here, from its PKGT entry (R369; log 7). -/
opaque importVf : List (BitVec 64) → Nat
/-- A byte another package answers a get with, by request and remote address (R369). -/
opaque remoteByte : Nat → Nat → BitVec 8
/-- The bytes of the package's flash, with the configuration block at offset 0 (R378). -/
opaque flash : Nat → BitVec 8
/-- Whether an ECDSA P-384 signature over a byte string holds under Abvar's configuration key (R378). -/
opaque signs : List (BitVec 8) → List (BitVec 8) → Bool
/-- AES-256-GCM under a partition key: ciphertext and tag of a chunk, by key, nonce and plaintext, and the tag of a ciphertext (R360). -/
opaque gcmText : Nat → Nat → List (BitVec 8) → List (BitVec 8)
opaque gcmTag : Nat → Nat → List (BitVec 8) → BitVec 128
/-- A value the spec does not state, fresh for each count (log 7). -/
opaque freeWord : Nat → BitVec 64

/-- Whether a fused operation of an infinity times a zero plus a quiet NaN raises NV: IEEE 754 leaves it to each
implementation (R99; log 8). -/
opaque fmaNv : Bool

end Sys2Proof.Config
end

