-- ==== Sys2Proof/Syntax.lean ====
section
/-! DEFINITION. The rows of the opcode table as ONE inductive: instructions (the operands each encoding carries) and the
machine's own steps, "each whole and indivisible" (spec/95), with the place each acts on. -/

namespace Sys2Proof

/-- A home performs accesses in arrival order (R9, R82): a core for its window words, a slice of a partition for
its global lines, the host interface for host pages. -/
inductive Home where
  | core (n : Nat)
  | slice (p i : Nat)
  | host
deriving DecidableEq, Repr

/-- The engines that read sources (R84): the copy engine of a core, the ICE and the Grout unit of a cluster. -/
inductive Engine where
  | copy (c : Nat)
  | ice (cl : Nat)
  | grout (cl : Nat)
deriving DecidableEq, Repr

/-- The register spaces a register write reaches: the map of FEP f (R306), a VF's BAR0 (R362), the PF's BAR0 (R379). -/
inductive RegSpace where
  | fep (f : Nat)
  | bar (v : Nat)
  | pf
deriving DecidableEq, Repr

/-- What a storage code finds on one read (R371). -/
inductive ReadCheck where
  | good
  | corrected
  | uncorrectable
deriving DecidableEq, Repr

/-- A package transfer as the remote side sees it (R369): a put carries bytes, a get asks for some. -/
inductive Remote where
  | put (addr : Nat) (bytes : List Byte)
  | get (addr n : Nat)
deriving DecidableEq, Repr

/-- QORDER's array: n ring positions of 4 bytes from an address (R307). -/
structure Positions where
  arr : BitVec 64
  n : Nat
  deriving DecidableEq, Repr

/-- A GET_VERSION of a VF and the versions its requester speaks (R350, R367). -/
structure VersionAsk where
  vf : Nat
  theirs : List (BitVec 8)
  deriving DecidableEq, Repr

/-- Packet i, received at die d (R365, R374). -/
structure Packet where
  d : Nat
  i : Nat
  deriving DecidableEq, Repr

/-- One constructor per row of spec/opcode_table.json. A guard field g of a CV or CM instruction is part of it (R132);
a guard prefix belongs to the unit (R130), not to the instruction. -/
inductive Instr where
  /-- LB (R152): Loads a sign-extended byte from xs1 plus the immediate. -/
  | lb (d a : XReg) (i : BitVec 12)
  /-- LH (R152): Loads a sign-extended half from xs1 plus the immediate. -/
  | lh (d a : XReg) (i : BitVec 12)
  /-- LW (R152): Loads a sign-extended word from xs1 plus the immediate. -/
  | lw (d a : XReg) (i : BitVec 12)
  /-- LD (R152): Loads a dword from xs1 plus the immediate. -/
  | ld (d a : XReg) (i : BitVec 12)
  /-- LBU (R152): Loads a zero-extended byte. -/
  | lbu (d a : XReg) (i : BitVec 12)
  /-- LHU (R152): Loads a zero-extended half. -/
  | lhu (d a : XReg) (i : BitVec 12)
  /-- LWU (R152): Loads a zero-extended word. -/
  | lwu (d a : XReg) (i : BitVec 12)
  /-- SB (R152): Stores the low byte of xs2 at xs1 plus the immediate. -/
  | sb (b a : XReg) (i : BitVec 12)
  /-- SH (R152): Stores the low half of xs2. -/
  | sh (b a : XReg) (i : BitVec 12)
  /-- SW (R152): Stores the low word of xs2. -/
  | sw (b a : XReg) (i : BitVec 12)
  /-- SD (R152): Stores the dword xs2. -/
  | sd (b a : XReg) (i : BitVec 12)
  /-- ADD (R150): Adds two registers modulo 2^64. -/
  | add (d a b : XReg)
  /-- SUB (R150): Subtracts two registers modulo 2^64. -/
  | sub (d a b : XReg)
  /-- SLL (R150): Shifts left by xs2[5:0]. -/
  | sll (d a b : XReg)
  /-- SLT (R150): Sets 1 if xs1 < xs2 signed. -/
  | slt (d a b : XReg)
  /-- SLTU (R150): Sets 1 if xs1 < xs2 unsigned. -/
  | sltu (d a b : XReg)
  /-- XOR (R150): Bitwise exclusive or. -/
  | xor (d a b : XReg)
  /-- SRL (R150): Logical right shift by xs2[5:0]. -/
  | srl (d a b : XReg)
  /-- SRA (R150): Arithmetic right shift by xs2[5:0]. -/
  | sra (d a b : XReg)
  /-- OR (R150): Bitwise or. -/
  | or (d a b : XReg)
  /-- AND (R150): Bitwise and. -/
  | and (d a b : XReg)
  /-- ANDN (R150): xs1 and not xs2. -/
  | andn (d a b : XReg)
  /-- ORN (R150): xs1 or not xs2. -/
  | orn (d a b : XReg)
  /-- MIN (R150): Signed minimum. -/
  | min (d a b : XReg)
  /-- MINU (R150): Unsigned minimum. -/
  | minu (d a b : XReg)
  /-- MAX (R150): Signed maximum. -/
  | max (d a b : XReg)
  /-- MAXU (R150): Unsigned maximum. -/
  | maxu (d a b : XReg)
  /-- SH1ADD (R150): (xs1 << 1) + xs2. -/
  | sh1add (d a b : XReg)
  /-- SH2ADD (R150): (xs1 << 2) + xs2. -/
  | sh2add (d a b : XReg)
  /-- SH3ADD (R150): (xs1 << 3) + xs2. -/
  | sh3add (d a b : XReg)
  /-- MUL (R150): Low 64 bits of the product. -/
  | mul (d a b : XReg)
  /-- MULH (R150): High 64 bits of the signed product. -/
  | mulh (d a b : XReg)
  /-- MULHU (R150): High 64 bits of the unsigned product. -/
  | mulhu (d a b : XReg)
  /-- DIV (R151): Signed division rounding toward zero, never trapping. -/
  | div (d a b : XReg)
  /-- DIVU (R151): Unsigned division. -/
  | divu (d a b : XReg)
  /-- REM (R151): Signed remainder. -/
  | rem (d a b : XReg)
  /-- REMU (R151): Unsigned remainder. -/
  | remu (d a b : XReg)
  /-- ADDI (R150): Adds a sign-extended immediate. -/
  | addi (d a : XReg) (i : BitVec 12)
  /-- SLTI (R150): Signed compare with immediate. -/
  | slti (d a : XReg) (i : BitVec 12)
  /-- SLTIU (R150): Unsigned compare with immediate. -/
  | sltiu (d a : XReg) (i : BitVec 12)
  /-- XORI (R150): Exclusive or with immediate. -/
  | xori (d a : XReg) (i : BitVec 12)
  /-- ORI (R150): Or with immediate. -/
  | ori (d a : XReg) (i : BitVec 12)
  /-- ANDI (R150): And with immediate. -/
  | andi (d a : XReg) (i : BitVec 12)
  /-- SLLI (R150): Left shift by imm[5:0]. -/
  | slli (d a : XReg) (s : BitVec 6)
  /-- SRLI (R150): Logical right shift by imm[5:0]. -/
  | srli (d a : XReg) (s : BitVec 6)
  /-- SRAI (R150): Arithmetic right shift by imm[5:0]. -/
  | srai (d a : XReg) (s : BitVec 6)
  /-- CLZ (R150): Counts leading zeros of xs1. -/
  | clz (d a : XReg)
  /-- CTZ (R150): Counts trailing zeros of xs1. -/
  | ctz (d a : XReg)
  /-- CPOP (R150): Population count of xs1. -/
  | cpop (d a : XReg)
  /-- ADDW (R150): 32-bit add, sign-extended. -/
  | addw (d a b : XReg)
  /-- SUBW (R150): 32-bit subtract, sign-extended. -/
  | subw (d a b : XReg)
  /-- ADDIW (R150): 32-bit add of immediate, sign-extended. -/
  | addiw (d a : XReg) (i : BitVec 12)
  /-- SLLIW (R150): 32-bit left shift by imm[4:0]. -/
  | slliw (d a : XReg) (s : BitVec 5)
  /-- SRLIW (R150): 32-bit logical right shift. -/
  | srliw (d a : XReg) (s : BitVec 5)
  /-- SRAIW (R150): 32-bit arithmetic right shift. -/
  | sraiw (d a : XReg) (s : BitVec 5)
  /-- LUI (R150): Loads an upper immediate. -/
  | lui (d : XReg) (i : BitVec 20)
  /-- AUIPC (R150): Adds an upper immediate to the PC. -/
  | auipc (d : XReg) (i : BitVec 20)
  /-- BEQ (R153): Branches if equal. -/
  | beq (a b : XReg) (i : BitVec 12)
  /-- BNE (R153): Branches if not equal. -/
  | bne (a b : XReg) (i : BitVec 12)
  /-- BLT (R153): Branches if less, signed. -/
  | blt (a b : XReg) (i : BitVec 12)
  /-- BGE (R153): Branches if greater or equal, signed. -/
  | bge (a b : XReg) (i : BitVec 12)
  /-- BLTU (R153): Branches if less, unsigned. -/
  | bltu (a b : XReg) (i : BitVec 12)
  /-- BGEU (R153): Branches if greater or equal, unsigned. -/
  | bgeu (a b : XReg) (i : BitVec 12)
  /-- JAL (R153): Jumps PC-relative and writes the link. -/
  | jal (d : XReg) (i : BitVec 20)
  /-- JALR (R153): Jumps to a register plus offset and writes the link. -/
  | jalr (d a : XReg) (i : BitVec 12)
  /-- C_ADDI4SPN (R154): Compressed form expanding to ADDI rd', sp, nzuimm. -/
  | cAddi4spn (d : BitVec 3) (i : BitVec 8)
  /-- C_LW (R154): Compressed LW. -/
  | cLw (d a : BitVec 3) (i : BitVec 5)
  /-- C_LD (R154): Compressed LD. -/
  | cLd (d a : BitVec 3) (i : BitVec 5)
  /-- C_SW (R154): Compressed SW. -/
  | cSw (b a : BitVec 3) (i : BitVec 5)
  /-- C_SD (R154): Compressed SD. -/
  | cSd (b a : BitVec 3) (i : BitVec 5)
  /-- C_NOP (R154): Compressed no-op. -/
  | cNop
  /-- C_ADDI (R154): Compressed ADDI rd, rd, nzimm. -/
  | cAddi (d : XReg) (i : BitVec 6)
  /-- C_ADDIW (R154): Compressed ADDIW. -/
  | cAddiw (d : XReg) (i : BitVec 6)
  /-- C_LI (R154): Compressed load immediate. -/
  | cLi (d : XReg) (i : BitVec 6)
  /-- C_ADDI16SP (R154): Compressed stack-pointer adjust. -/
  | cAddi16sp (i : BitVec 6)
  /-- C_LUI (R154): Compressed LUI. -/
  | cLui (d : XReg) (i : BitVec 6)
  /-- C_SRLI (R154): Compressed SRLI. -/
  | cSrli (d : BitVec 3) (i : BitVec 6)
  /-- C_SRAI (R154): Compressed SRAI. -/
  | cSrai (d : BitVec 3) (i : BitVec 6)
  /-- C_ANDI (R154): Compressed ANDI. -/
  | cAndi (d : BitVec 3) (i : BitVec 6)
  /-- C_SUB (R154): Compressed SUB. -/
  | cSub (d b : BitVec 3)
  /-- C_XOR (R154): Compressed XOR. -/
  | cXor (d b : BitVec 3)
  /-- C_OR (R154): Compressed OR. -/
  | cOr (d b : BitVec 3)
  /-- C_AND (R154): Compressed AND. -/
  | cAnd (d b : BitVec 3)
  /-- C_SUBW (R154): Compressed SUBW. -/
  | cSubw (d b : BitVec 3)
  /-- C_ADDW (R154): Compressed ADDW. -/
  | cAddw (d b : BitVec 3)
  /-- C_J (R154): Compressed jump. -/
  | cJ (i : BitVec 11)
  /-- C_BEQZ (R154): Compressed branch if zero. -/
  | cBeqz (a : BitVec 3) (i : BitVec 8)
  /-- C_BNEZ (R154): Compressed branch if not zero. -/
  | cBnez (a : BitVec 3) (i : BitVec 8)
  /-- C_SLLI (R154): Compressed SLLI. -/
  | cSlli (d : XReg) (i : BitVec 6)
  /-- C_LWSP (R154): Compressed LW from sp. -/
  | cLwsp (d : XReg) (i : BitVec 6)
  /-- C_LDSP (R154): Compressed LD from sp. -/
  | cLdsp (d : XReg) (i : BitVec 6)
  /-- C_SWSP (R154): Compressed SW to sp. -/
  | cSwsp (b : XReg) (i : BitVec 6)
  /-- C_SDSP (R154): Compressed SD to sp. -/
  | cSdsp (b : XReg) (i : BitVec 6)
  /-- C_JR (R154): Compressed jump to register. -/
  | cJr (a : XReg)
  /-- C_JALR (R154): Compressed jump to register with link. -/
  | cJalr (a : XReg)
  /-- C_MV (R154): Compressed move. -/
  | cMv (d b : XReg)
  /-- C_ADD (R154): Compressed ADD. -/
  | cAdd (d b : XReg)
  /-- C_EBREAK (R165): Compressed breakpoint, raising team fault 0x10. -/
  | cEbreak
  /-- FADD_S (R155): f32 addition in x registers. -/
  | faddS (d a b : XReg) (r : BitVec 3)
  /-- FSUB_S (R155): f32 subtraction. -/
  | fsubS (d a b : XReg) (r : BitVec 3)
  /-- FMUL_S (R155): f32 multiplication. -/
  | fmulS (d a b : XReg) (r : BitVec 3)
  /-- FDIV_S (R155): f32 division on the divide unit. -/
  | fdivS (d a b : XReg) (r : BitVec 3)
  /-- FSQRT_S (R155): f32 square root. -/
  | fsqrtS (d a : XReg) (r : BitVec 3)
  /-- FMADD_S (R155): Fused f32 multiply-add with one rounding. -/
  | fmaddS (d a b c : XReg) (r : BitVec 3)
  /-- FSGNJ_S (R155): Sign injection. -/
  | fsgnjS (d a b : XReg)
  /-- FSGNJN_S (R155): Inverted sign injection. -/
  | fsgnjnS (d a b : XReg)
  /-- FMIN_S (R156): f32 minimum. -/
  | fminS (d a b : XReg)
  /-- FMAX_S (R156): f32 maximum. -/
  | fmaxS (d a b : XReg)
  /-- FLE_S (R156): f32 less-or-equal compare. -/
  | fleS (d a b : XReg)
  /-- FLT_S (R156): f32 less-than compare. -/
  | fltS (d a b : XReg)
  /-- FEQ_S (R156): f32 equality compare. -/
  | feqS (d a b : XReg)
  /-- FCVT_W_S (R155): f32 to i32. -/
  | fcvtWS (d a : XReg) (r : BitVec 3)
  /-- FCVT_L_S (R155): f32 to i64. -/
  | fcvtLS (d a : XReg) (r : BitVec 3)
  /-- FCVT_S_W (R155): i32 to f32. -/
  | fcvtSW (d a : XReg) (r : BitVec 3)
  /-- FCVT_S_L (R155): i64 to f32. -/
  | fcvtSL (d a : XReg) (r : BitVec 3)
  /-- LI32 (R157): 48-bit long form writing a sign-extended 32-bit literal. -/
  | li32 (d : XReg) (i : BitVec 32)
  /-- LIH (R157): 48-bit long form replacing bits 63:32 of xd. -/
  | lih (d : XReg) (i : BitVec 32)
  /-- ADDL (R157): 48-bit long form adding a literal to xd. -/
  | addl (d : XReg) (i : BitVec 32)
  /-- ANDL (R157): 48-bit long form anding xd with a literal. -/
  | andl (d : XReg) (i : BitVec 32)
  /-- FLI (R157): 48-bit long form loading an f32 literal. -/
  | fli (d : XReg) (i : BitVec 32)
  /-- GCMP_EQ (R159): Writes a guard with xs1 = xs2. -/
  | gcmpEq (d : GReg) (a b : XReg)
  /-- GCMP_NE (R159): Writes a guard with xs1 ≠ xs2. -/
  | gcmpNe (d : GReg) (a b : XReg)
  /-- GCMP_LT (R159): Writes a guard with signed xs1 < xs2. -/
  | gcmpLt (d : GReg) (a b : XReg)
  /-- GCMP_GE (R159): Writes a guard with signed xs1 ≥ xs2. -/
  | gcmpGe (d : GReg) (a b : XReg)
  /-- GCMP_LTU (R159): Writes a guard with unsigned xs1 < xs2. -/
  | gcmpLtu (d : GReg) (a b : XReg)
  /-- GCMP_GEU (R159): Writes a guard with unsigned xs1 ≥ xs2. -/
  | gcmpGeu (d : GReg) (a b : XReg)
  /-- GAND (R160): Guard and. -/
  | gand (d a b : GReg)
  /-- GOR (R160): Guard or. -/
  | gor (d a b : GReg)
  /-- GXOR (R160): Guard exclusive or. -/
  | gxor (d a b : GReg)
  /-- GANDN (R160): Guard and-not. -/
  | gandn (d a b : GReg)
  /-- GTOX (R161): Copies g7 to g0 into an x register. -/
  | gtox (d : XReg)
  /-- GFROMX (R161): Sets g1 to g7 from an x register. -/
  | gfromx (a : XReg)
  /-- ECALL (R164): Raises cause 0x11 and parks the thread for a Dyore service. -/
  | ecall
  /-- EBREAK (R165): Raises breakpoint team fault 0x10 and drives the common trigger. -/
  | ebreak
  /-- WFI (R166): Retires with no effect. -/
  | wfi
  /-- CSRRW (R167): Swaps a CSR with a register. -/
  | csrrw (d a : XReg) (c : BitVec 12)
  /-- CSRRS (R167): Reads a CSR and sets bits. -/
  | csrrs (d a : XReg) (c : BitVec 12)
  /-- CSRRC (R167): Reads a CSR and clears bits. -/
  | csrrc (d a : XReg) (c : BitVec 12)
  /-- CSRRWI (R167): Swaps a CSR with an immediate. -/
  | csrrwi (d : XReg) (u : BitVec 5) (c : BitVec 12)
  /-- CSRRSI (R167): Sets CSR bits from an immediate. -/
  | csrrsi (d : XReg) (u : BitVec 5) (c : BitVec 12)
  /-- CSRRCI (R167): Clears CSR bits from an immediate. -/
  | csrrci (d : XReg) (u : BitVec 5) (c : BitVec 12)
  /-- UNDEFINED_UNIT (R144): A unit with an undefined or reserved encoding raises its decode trap. -/
  | undefinedUnit (code : BitVec 8) (bytes : Word)
  /-- TRET (R314): Leaves the emulation handler and resumes at emepc. -/
  | tret
  /-- FCREATE (R173): Reads a family descriptor and makes a family, writing its handle. -/
  | fcreate (d a : XReg)
  /-- FSYNC (R175): Waits for a family to finish, running members inline if permitted. -/
  | fsync (d a : XReg)
  /-- FBREAK (R176): Ends the member, kills higher members and fills the parent target. -/
  | fbreak (a : XReg)
  /-- FKILL (R177): Applies kill effects to every unended member of a family. -/
  | fkill (a : XReg)
  /-- LSEND (R178): Sends a value along linked register k to the next member. -/
  | lsend (k : BitVec 2) (a : XReg)
  /-- TSELF (R179): Writes an identity value chosen by a selector. -/
  | tself (d : XReg) (s : BitVec 5)
  /-- THALT (R180): Ends the issuing thread. -/
  | thalt
  /-- BJOIN (R181): Joins a barrier. -/
  | bjoin (n : BitVec 10)
  /-- BLEAVE (R181): Leaves a barrier, possibly completing its phase. -/
  | bleave (n : BitVec 10)
  /-- BARW (R181): Arrives at a barrier and waits for the phase. -/
  | barw (n : BitVec 10)
  /-- BARA (R181): Arrives at a barrier and continues. -/
  | bara (n : BitVec 10)
  /-- BWAIT (R181): Waits for the phase of the last arrival. -/
  | bwait (n : BitVec 10)
  /-- LDC (R195): Waits until a word is full, reads it and empties it. -/
  | ldc (d a : XReg)
  /-- LDP (R195): Waits until a word is full and reads it. -/
  | ldp (d a : XReg)
  /-- STF (R195): Writes a word, sets it full and serves waiters. -/
  | stf (a b : XReg)
  /-- SETE (R195): Sets a word empty. -/
  | sete (a : XReg)
  /-- FEST (R196): Reads a word's full, poison and held status. -/
  | fest (d a : XReg)
  /-- MBSEND (R183): Sends a word to a team core's mailbox. -/
  | mbsend (a b : XReg)
  /-- MBRECV (R184): Pops the oldest mailbox word, waiting if empty. -/
  | mbrecv (d : XReg)
  /-- MBPOLL (R184): Pops a mailbox word if present and sets a guard. -/
  | mbpoll (d : XReg) (g : GReg)
  /-- QMAP (R186): Maps a neighbour queue onto x5 to x8. -/
  | qmap (q e : BitVec 2)
  /-- QUNMAP (R186): Unmaps a neighbour queue. -/
  | qunmap (q : BitVec 2)
  /-- QCTL (R187): Pushes a control word on an outbound queue. -/
  | qctl (q : BitVec 2) (a : XReg)
  /-- QSTAT (R187): Reports a queue's count and head tag. -/
  | qstat (d : XReg) (q : BitVec 2)
  /-- HSET (R188): Sets hvec and the mailbox enable. -/
  | hset (a : XReg) (e : BitVec 1)
  /-- HRET (R189): Leaves the light handler and resumes at hepc. -/
  | hret
  /-- HMASK (R190): Sets hmask.m. -/
  | hmask (v : BitVec 1)
  /-- WFE (R185): Waits for an event line signal. -/
  | wfe (l : BitVec 4)
  /-- EVSIG (R185): Signals an event line of a team core. -/
  | evsig (a : XReg) (l : BitVec 4)
  /-- FENCE_O (R87): Waits for earlier local and ordered requests at a scope. -/
  | fenceO (s : BitVec 5)
  /-- FENCE_A (R87): Waits for earlier local, ordered and adaptive requests. -/
  | fenceA (s : BitVec 5)
  /-- FENCE_X (R87): Holds later engine commands until earlier requests are performed. -/
  | fenceX (s : BitVec 5)
  /-- FENCE_ALL (R87): Waits for all earlier request classes. -/
  | fenceAll (s : BitVec 5)
  /-- LDAQ (R199): Acquire load of a dword at a scope. -/
  | ldaq (d a : XReg) (s : BitVec 5)
  /-- STRL (R199): Release store of a dword at a scope. -/
  | strl (a b : XReg) (s : BitVec 5)
  /-- LDMIG (R200): Loads a remote word, migrating the thread to its home when permitted. -/
  | ldmig (d a : XReg)
  /-- CINV (R201): Invalidates L1 view lines over a range. -/
  | cinv (a b : XReg)
  /-- PREF (R202): Requests a line into the L1 view or slice. -/
  | pref (a : XReg) (l : BitVec 1)
  /-- AADD (R204): Atomic add. -/
  | aadd (w : BitVec 1) (s : BitVec 2) (d a b : XReg)
  /-- AAND (R204): Atomic and. -/
  | aand (w : BitVec 1) (s : BitVec 2) (d a b : XReg)
  /-- AOR (R204): Atomic or. -/
  | aor (w : BitVec 1) (s : BitVec 2) (d a b : XReg)
  /-- AXOR (R204): Atomic exclusive or. -/
  | axor (w : BitVec 1) (s : BitVec 2) (d a b : XReg)
  /-- ASMIN (R204): Atomic signed minimum. -/
  | asmin (w : BitVec 1) (s : BitVec 2) (d a b : XReg)
  /-- ASMAX (R204): Atomic signed maximum. -/
  | asmax (w : BitVec 1) (s : BitVec 2) (d a b : XReg)
  /-- AUMIN (R204): Atomic unsigned minimum. -/
  | aumin (w : BitVec 1) (s : BitVec 2) (d a b : XReg)
  /-- AUMAX (R204): Atomic unsigned maximum. -/
  | aumax (w : BitVec 1) (s : BitVec 2) (d a b : XReg)
  /-- ASWAP (R204): Atomic swap. -/
  | aswap (w : BitVec 1) (s : BitVec 2) (d a b : XReg)
  /-- ACAS (R204): Atomic compare and swap against xd. -/
  | acas (w : BitVec 1) (s : BitVec 2) (d a b : XReg)
  /-- AFADD (R204): Atomic f32 add. -/
  | afadd (s : BitVec 2) (d a b : XReg)
  /-- AFADDB (R204): Atomic add of two bf16 lanes. -/
  | afaddb (s : BitVec 2) (d a b : XReg)
  /-- LRLN (R206): Reads up to four lines at one slice and records a reservation. -/
  | lrln (d a : XReg)
  /-- SCLN (R207): Commits masked dwords of up to four lines in one step if the reservation holds. -/
  | scln (d a : XReg)
  /-- CQPUSH (R256): Posts a copy command, stalling on a full queue. -/
  | cqpush (d a : XReg)
  /-- CQPUSHN (R256): Posts a copy command, returning 1 on a full queue. -/
  | cqpushn (d a : XReg)
  /-- CQSTAT (R258): Reports copy engine state. -/
  | cqstat (d : XReg)
  /-- GPOST (R257): Posts an indirect command to the cluster ICE and returns a ticket. -/
  | gpost (d a : XReg)
  /-- GSTAT (R258): Reports ICE state. -/
  | gstat (d : XReg)
  /-- MBIND (R280): Installs the thread's mask program binding. -/
  | mbind (d a : XReg)
  /-- MCLASS (R282): Classifies up to 32 tiles of one tile row. -/
  | mclass (d a b : XReg)
  /-- MROW (R284): Writes exact mask bits for 32 keys of one query. -/
  | mrow (d : KReg) (a b : XReg)
  /-- MCNT (R285): Reads and optionally clears the thread's AMU counters. -/
  | mcnt (d : XReg) (c : BitVec 1)
  /-- AMU_SERVE (R287): The AMU serves one request in order and sends its reply. -/
  | amuServe (cl : Nat)
  /-- PLOAD (R302): Loads a Bellows context from a block. -/
  | pload (a : XReg) (n : BitVec 3)
  /-- PSAVE (R302): Stores a Bellows context to a block. -/
  | psave (a : XReg) (n : BitVec 3)
  /-- PSTAT (R303): Reads a Bellows context's status. -/
  | pstat (d : XReg) (n : BitVec 3)
  /-- VADD (R216): Lane-wise float add. -/
  | vadd (g : GReg) (d a b : VReg)
  /-- VSUB (R216): Lane-wise float subtract. -/
  | vsub (g : GReg) (d a b : VReg)
  /-- VMUL (R216): Lane-wise float multiply. -/
  | vmul (g : GReg) (d a b : VReg)
  /-- VFMA (R216): Lane-wise fused multiply-add into vd. -/
  | vfma (g : GReg) (d a b : VReg)
  /-- VFMS (R216): Lane-wise fused multiply-subtract of vd. -/
  | vfms (g : GReg) (d a b : VReg)
  /-- VMIN (R216): Lane-wise float minimum. -/
  | vmin (g : GReg) (d a b : VReg)
  /-- VMAX (R216): Lane-wise float maximum. -/
  | vmax (g : GReg) (d a b : VReg)
  /-- VABS (R216): Clears each lane's sign bit. -/
  | vabs (g : GReg) (d a : VReg)
  /-- VNEG (R216): Inverts each lane's sign bit. -/
  | vneg (g : GReg) (d a : VReg)
  /-- VIADD (R217): Lane-wise i32 add. -/
  | viadd (g : GReg) (d a b : VReg)
  /-- VISUB (R217): Lane-wise i32 subtract. -/
  | visub (g : GReg) (d a b : VReg)
  /-- VIMUL (R217): Lane-wise i32 multiply, low bits. -/
  | vimul (g : GReg) (d a b : VReg)
  /-- VAND (R217): Bitwise and of rows. -/
  | vand (g : GReg) (d a b : VReg)
  /-- VOR (R217): Bitwise or of rows. -/
  | vor (g : GReg) (d a b : VReg)
  /-- VXOR (R217): Bitwise exclusive or of rows. -/
  | vxor (g : GReg) (d a b : VReg)
  /-- VSHL (R217): Lane-wise left shift. -/
  | vshl (g : GReg) (d a b : VReg)
  /-- VSHRL (R217): Lane-wise logical right shift. -/
  | vshrl (g : GReg) (d a b : VReg)
  /-- VSHRA (R217): Lane-wise arithmetic right shift. -/
  | vshra (g : GReg) (d a b : VReg)
  /-- VIMIN (R217): Lane-wise signed minimum. -/
  | vimin (g : GReg) (d a b : VReg)
  /-- VIMAX (R217): Lane-wise signed maximum. -/
  | vimax (g : GReg) (d a b : VReg)
  /-- VCMP_FEQ (R218): Float equality compare into a mask. -/
  | vcmpFeq (g : GReg) (d : KReg) (a b : VReg)
  /-- VCMP_FNE (R218): Float inequality compare into a mask. -/
  | vcmpFne (g : GReg) (d : KReg) (a b : VReg)
  /-- VCMP_FLT (R218): Float less-than compare into a mask. -/
  | vcmpFlt (g : GReg) (d : KReg) (a b : VReg)
  /-- VCMP_FLE (R218): Float less-or-equal compare into a mask. -/
  | vcmpFle (g : GReg) (d : KReg) (a b : VReg)
  /-- VCMP_IEQ (R218): Integer equality compare into a mask. -/
  | vcmpIeq (g : GReg) (d : KReg) (a b : VReg)
  /-- VCMP_INE (R218): Integer inequality compare into a mask. -/
  | vcmpIne (g : GReg) (d : KReg) (a b : VReg)
  /-- VCMP_ILT (R218): Signed less-than compare into a mask. -/
  | vcmpIlt (g : GReg) (d : KReg) (a b : VReg)
  /-- VCMP_ILE (R218): Signed less-or-equal compare into a mask. -/
  | vcmpIle (g : GReg) (d : KReg) (a b : VReg)
  /-- VSEL (R219): Selects lanes of va or vb by a mask, unguarded. -/
  | vsel (k : KReg) (d a b : VReg)
  /-- KAND (R219): Mask and. -/
  | kand (g : GReg) (d a b : KReg)
  /-- KOR (R219): Mask or. -/
  | kor (g : GReg) (d a b : KReg)
  /-- KXOR (R219): Mask exclusive or. -/
  | kxor (g : GReg) (d a b : KReg)
  /-- KANDN (R219): Mask and-not. -/
  | kandn (g : GReg) (d a b : KReg)
  /-- KFROMX (R219): Loads a mask from an x register. -/
  | kfromx (g : GReg) (d : KReg) (a : XReg)
  /-- KTOX (R219): Copies a mask into an x register. -/
  | ktox (g : GReg) (d : XReg) (a : KReg)
  /-- KPOP (R219): Population count of a mask. -/
  | kpop (g : GReg) (d : XReg) (a : KReg)
  /-- KFIRST (R219): Index of a mask's lowest set bit. -/
  | kfirst (g : GReg) (d : XReg) (a : KReg)
  /-- VLD (R220): Loads one row, converting from the bank format. -/
  | vld (g : GReg) (d : VReg) (a : XReg)
  /-- VST (R220): Stores one row. -/
  | vst (g : GReg) (d : VReg) (a : XReg)
  /-- VSTB (R220): Stores one row through the adaptive pool. -/
  | vstb (g : GReg) (d : VReg) (a : XReg)
  /-- VLDS (R221): Strided element load. -/
  | vlds (g : GReg) (d : VReg) (a b : XReg)
  /-- VSTS (R221): Strided element store. -/
  | vsts (g : GReg) (d : VReg) (a b : XReg)
  /-- VGATH (R222): Gathers scratchpad elements by i32 offsets. -/
  | vgath (g : GReg) (d : VReg) (a : XReg) (b : VReg)
  /-- VSCAT (R222): Scatters elements to scratchpad by i32 offsets. -/
  | vscat (g : GReg) (d : VReg) (a : XReg) (b : VReg)
  /-- VBCX (R223): Broadcasts an x register into every lane. -/
  | vbcx (g : GReg) (d : VReg) (a : XReg)
  /-- VMVX (R223): Moves one lane into an x register. -/
  | vmvx (g : GReg) (d : XReg) (v : VReg) (l : BitVec 5)
  /-- VMXV (R223): Moves an x register into one lane. -/
  | vmxv (g : GReg) (d : VReg) (a : XReg) (l : BitVec 5)
  /-- VCVT (R224): Converts every lane to a target format, packed densely. -/
  | vcvt (g : GReg) (d a : VReg) (s : BitVec 1) (t : BitVec 4)
  /-- VPACK (R225): Packs the low halves of two rows. -/
  | vpack (g : GReg) (d a b : VReg)
  /-- VUNPACK (R225): Widens packed elements into lanes. -/
  | vunpack (g : GReg) (d a : VReg) (p : BitVec 2) (t : BitVec 3)
  /-- VRSUM (R226): Tree sum of lanes into lane 0. -/
  | vrsum (g : GReg) (d a : VReg)
  /-- VRMAX (R226): Largest lane into lane 0. -/
  | vrmax (g : GReg) (d a : VReg)
  /-- VPERM (R227): Permutes lanes by an index row. -/
  | vperm (g : GReg) (d a b : VReg)
  /-- VSLIDE (R227): Slides lanes by n. -/
  | vslide (g : GReg) (d a : VReg) (l : BitVec 5)
  /-- VBCAST (R227): Broadcasts one lane. -/
  | vbcast (g : GReg) (d a : VReg) (l : BitVec 5)
  /-- VSCAN (R228): Serial fused recurrence along 16 f32 lanes. -/
  | vscan (g : GReg) (d a : VReg) (k : KReg)
  /-- VSCAN_L1 (R147): VSCAN as encoded at ISA level 1. -/
  | vscanL1 (g : GReg) (d a : VReg) (k : KReg)
  /-- VSCANC (R228): Compensated recurrence with an hi/lo pair. -/
  | vscanc (g : GReg) (d a : VReg) (k : KReg)
  /-- VEXP2 (R229): Queues exp2 of a row on the SFU. -/
  | vexp2 (g : GReg) (d a : VReg)
  /-- VLOG2 (R229): Queues log2 of a row on the SFU. -/
  | vlog2 (g : GReg) (d a : VReg)
  /-- VRCP (R229): Queues reciprocal of a row on the SFU. -/
  | vrcp (g : GReg) (d a : VReg)
  /-- VRSQ (R229): Queues reciprocal square root on the SFU. -/
  | vrsq (g : GReg) (d a : VReg)
  /-- VSQRT (R229): Queues square root on the SFU. -/
  | vsqrt (g : GReg) (d a : VReg)
  /-- VTANH (R229): Queues tanh on the SFU. -/
  | vtanh (g : GReg) (d a : VReg)
  /-- SFU_SERVICE (R230): The SFU serves the oldest queued row, one every 4 cycles. -/
  | sfuService (c : Nat)
  /-- SFU_RESULT_WRITE (R230): A function result becomes ready and is written to vd or held as a pending write. -/
  | sfuResultWrite (c i : Nat)
  /-- REPV (R231): Replays the following L CV or CM units count times with staggered fields. -/
  | repv (g : GReg) (l c s : BitVec 5)
  /-- TCFG (R214): Sets the type of a lease tile. -/
  | tcfg (g : GReg) (t : BitVec 1) (y : BitVec 5)
  /-- MMA (R242): One 16-deep matrix operation into a lease tile. -/
  | mma (g : GReg) (t : BitVec 1) (a b : XReg) (k : KReg) (m : BitVec 4)
  /-- GMMA (R244): Course gang matrix operation, numbered in issue order. -/
  | gmma (g : GReg) (t : BitVec 1) (a b : XReg) (k : KReg) (m : BitVec 4)
  /-- WLD (R239): Loads and aligns B into CIM slots. -/
  | wld (g : GReg) (t : BitVec 1) (a b : XReg) (m : BitVec 4)
  /-- WLDS (R240): Loads a sparsely stored B into CIM slots. -/
  | wlds (g : GReg) (t : BitVec 1) (a b : XReg) (m : BitVec 4)
  /-- ACCZ (R246): Clears masked elements of a tile and its staging state. -/
  | accz (g : GReg) (t : BitVec 1) (k : KReg)
  /-- ACCLD (R247): Loads masked tile elements from scratchpad. -/
  | accld (g : GReg) (t : BitVec 1) (a b : XReg) (k : KReg)
  /-- ACCST (R247): Stores masked tile elements with conversion. -/
  | accst (g : GReg) (t : BitVec 1) (a b : XReg) (k : KReg)
  /-- GANG_OPERATION (R244): Once all four GMMA of a number have issued and been accepted, the gang operation checks and begins. -/
  | gangOperation (q : Nat)
  /-- TILE_WRITE (R248): A matrix operation's occupancy ends and its tile is written 6 cycles later. -/
  | tileWrite (c : Nat)
  /-- MEMBER_START (R34): The family unit starts the next member in a free slot with its lease. -/
  | memberStart (c x e : Nat)
  /-- INLINE_MEMBER_TAKE (R38): A creator idle at FSYNC saves a frame and runs the lowest unstarted member inline. -/
  | inlineMemberTake (c x : Nat)
  /-- FAMILY_FINISH (R37): A finished family releases its entry and fills the FSYNC status. -/
  | familyFinish (c x e : Nat)
  /-- REGISTER_FILL (R28): A reply, linked value, window write or completion fills a register and wakes its thread. -/
  | registerFill (i : Nat)
  /-- MIGRATION_INSTALL (R48): The receiving core installs a migrating thread's packets and resumes it. -/
  | migrationInstall (i : Nat)
  /-- QUEUE_WORD_TRANSFER (R187): An outbound queue passes a word to the peer's inbound queue as space allows. -/
  | queueWordTransfer (c dir : Nat)
  /-- LIGHT_HANDLER_ENTRY (R50): A pending trigger enters the light handler at a boundary, swapping x5 to x8. -/
  | lightHandlerEntry (c x : Nat)
  /-- MAILBOX_DELIVERY (R184): An arriving mailbox word goes to a waiting MBRECV, the enabled handler, or stays. -/
  | mailboxDelivery (c : Nat)
  /-- EVENT_SIGNAL_ARRIVAL (R185): A signal reaches an event line, waking waiters or being held. -/
  | eventSignalArrival (c : Nat)
  /-- LOCAL_PORT_PASS (R79): The local port passes its oldest request to the home or the L1 view. -/
  | localPortPass (c : Nat)
  /-- LANE_DELIVER (R80): An ordered lane delivers its oldest request to its home. -/
  | laneDeliver (i : Nat)
  /-- POOL_DELIVER (R81): The adaptive pool delivers any one of its requests to its home. -/
  | poolDeliver (c i : Nat)
  /-- HOME_PERFORM (R82): A home performs its oldest performable request or holds it. -/
  | homePerform (h : Home) (i j : Nat)
  /-- L1_VIEW_SERVE (R83): The L1 view serves a load from its copy. -/
  | l1ViewServe (c : Nat)
  /-- ENGINE_READ (R84): An engine reads a source granule at its home. -/
  | engineRead (e : Engine) (i : Nat)
  /-- COPY (R262): Copy engine op 1 begins, taking destination ownership and converting elements. -/
  | copy (c : Nat)
  /-- COPY_ACCUMULATE (R262): Op 2 accumulates source elements into destination elements. -/
  | copyAccumulate (c : Nat)
  /-- FILL (R262): Op 3 fills the destination with a pattern. -/
  | fill (c : Nat)
  /-- MULTICAST_READ (R268): Op 4 streams a global source to the same offset of many cluster cores. -/
  | multicastRead (c : Nat)
  /-- MULTICAST_CATCH_UP (R268): A joiner's engine reads the lines it missed after the stream ends. -/
  | multicastCatchUp (c : Nat)
  /-- STRIDED_COPY (R262): Op 5 copies rows with source and destination strides. -/
  | stridedCopy (c : Nat)
  /-- PACKAGE_PUT (R262): Op 6 writes local bytes to a remote package. -/
  | packagePut (c : Nat)
  /-- PACKAGE_GET (R262): Op 7 reads remote bytes into local memory. -/
  | packageGet (c : Nat)
  /-- COMPLETION_FE_FILL (R263): Mode 1 completion writes the completion word full, as an STF. -/
  | completionFeFill (c : Nat)
  /-- COMPLETION_MAILBOX (R263): Mode 2 completion sends the word to a mailbox. -/
  | completionMailbox (c : Nat)
  /-- COMPLETION_HANDLER_TRIGGER (R263): Mode 3 completion raises a light-handler trigger in the posting context. -/
  | completionHandlerTrigger (c : Nat)
  /-- COMPLETION_REGISTER_FILL (R263): Mode 4 completion fills a register through region 2. -/
  | completionRegisterFill (c : Nat)
  /-- GATHER (R265): ICE op 1 gathers global rows into local rows by index. -/
  | gather (cl : Nat)
  /-- SCATTER (R265): ICE op 2 scatters local rows to global rows by index. -/
  | scatter (cl : Nat)
  /-- SCATTER_ADD (R265): ICE op 3 accumulates local rows into global rows. -/
  | scatterAdd (cl : Nat)
  /-- ICE_CHUNK_BEGIN (R266): A 64-element chunk begins after its reads, rechecking local format and taking ownership. -/
  | iceChunkBegin (cl : Nat)
  /-- ICE_EVENT_SIGNAL (R266): After all writes the ICE signals the event line and raises done. -/
  | iceEventSignal (cl : Nat)
  /-- GROUT (R294): Grout interpolates and writes the skipped outputs of a finished perforated family. -/
  | grout (cl : Nat)
  /-- BELLOWS_LATCH (R290): Bellows serves an FCREATE's coverage latch in its order. -/
  | bellowsLatch (cl : Nat)
  /-- BELLOWS_UPDATE (R300): Bellows updates mean, probes, done and moves cur. -/
  | bellowsUpdate (cl : Nat)
  /-- TRANSLATION_WALK (R339): A walker reads page-table entries and completes a translation or a fault. -/
  | translationWalk (i : Nat)
  /-- TEAM_COSTART (R44): Every core of a loaded team clears stop in one cycle and starts its control thread. -/
  | teamCostart (t : Nat)
  /-- QUIESCENCE_WAVE (R52): Every 256 cycles the barrier network sums message counters and tests quiescence. -/
  | quiescenceWave (t : Nat)
  /-- STOP_ARRIVAL (R319): The propagated stop of a team fault reaches another team core. -/
  | stopArrival (c : Nat)
  /-- NOP (R318): ECALL service 0 returns 0. -/
  | nop (c x : Nat)
  /-- DEBUG (R318): ECALL service 1 copies bytes to the debug ring. -/
  | debug (c x : Nat)
  /-- SIGNAL (R318): ECALL service 2 adds to a signal object. -/
  | signal (c x : Nat)
  /-- TIME (R318): ECALL service 3 returns microseconds since the launch's first co-start. -/
  | time (c x : Nat)
  /-- QLIST (R307): Plug-in call listing the tenant's pending launch records. -/
  | qlist (v : Nat) (buf : Word)
  /-- QORDER (R307): Plug-in call ordering the tenant's launches. -/
  | qorder (v : Nat) (ps : Positions)
  /-- YIELD (R307): Plug-in call ending the invocation. -/
  | yield (v : Nat)
  /-- PLUGIN_TIME (R307): Plug-in call returning microseconds since package reset. -/
  | pluginTime (v : Nat)
  /-- PLUGIN_TIMEOUT (R307): An invocation running 50 µs without YIELD is stopped and its QORDERs dropped. -/
  | pluginTimeout (v : Nat)
  /-- CCTL_WRITE (R309): A write of CCTL.stop stops the core at the next unit boundary. -/
  | cctlWrite (c : Nat) (val : Word)
  /-- FLATCH_CLEAR (R308): A write to FLATCH offset 0x040 clears the fault latch. -/
  | flatchClear (c : Nat)
  /-- DOORBELL (R323): A doorbell write submits records up to the index. -/
  | doorbell (v r idx : Nat)
  /-- LAUNCH_RECORD_CHECK (R327): A record at the head of its ring is checked with its image. -/
  | launchRecordCheck (v r : Nat)
  /-- LAUNCH_READY (R326): A launch's waits are seen satisfied together and it becomes ready. -/
  | launchReady (l : Nat)
  /-- TEAM_DISPATCH (R330): A distributor places a block's team on a free unit and loads it. -/
  | teamDispatch (l d : Nat)
  /-- BLOCK_STEAL (R329): An idle distributor steals the upper half of another die's range. -/
  | blockSteal (l d : Nat)
  /-- PREEMPTION_REQUEST (R331): A launch finding no free unit chooses a victim and the estimator picks drain, discard or save. -/
  | preemptionRequest (l : Nat)
  /-- SAVE_IMAGE_WRITE (R334): After the drain, the team's encrypted save image is written. -/
  | saveImageWrite (t : Nat)
  /-- TEAM_DISCARD (R332): A drained discarded team is released and its block returns to the range. -/
  | teamDiscard (t : Nat)
  /-- TEAM_RESUME (R335): A saved team is restored on its cores, slots reloaded, and stop cleared. -/
  | teamResume (t : Nat)
  /-- LAUNCH_COMPLETION (R336): The scheduler writes the completion entry and adds cval to csig. -/
  | launchCompletion (l : Nat)
  /-- SVAL_WRITE (R362): A host write to SVAL adds to a signal's value. -/
  | svalWrite (v s : Nat) (val : Word)
  /-- HFVER_NEGOTIATE (R366): A write of min and max makes Dyore answer the chosen version within 100 µs. -/
  | hfverNegotiate (v : Nat) (lo hi : BitVec 8)
  /-- KREL (R72): Writing 1 clears keep marks and priorities on a partition's lines. -/
  | krel (p : Nat) (val : Word)
  /-- IMGR_WRITE (R325): Sets a partition's image region and maps it for bound VFs. -/
  | imgrWrite (p : Nat) (val : Word)
  /-- PART_CREATE (R347): A write of valid 0 to 1 creates a ready partition or sets err. -/
  | partCreate (p : Nat) (val : Word)
  /-- PART_DESTROY (R347): A write of valid 1 to 0 starts the scrub of a partition. -/
  | partDestroy (p : Nat)
  /-- PART_SCRUB_COMPLETE (R347): The destroy scrub ends and state returns to none. -/
  | partScrubComplete (p : Nat)
  /-- VBIND_WRITE (R348): Binds a VF to a partition and clears its root enable. -/
  | vbindWrite (p : Nat) (val : Word)
  /-- TINV_PAGE (R343): TINV mode 1 invalidates the page holding an address. -/
  | tinvPage (v page : Nat)
  /-- TINV_VF (R343): TINV mode 2 invalidates every entry of a VF. -/
  | tinvVf (v : Nat)
  /-- TINV_COMPLETE (R343): Busy clears once no covered entry or request remains. -/
  | tinvComplete
  /-- FRES_REPLAY (R342): FRES act 1 invalidates the page, frees the entry and replays waiters in order. -/
  | fresReplay (d e : Nat)
  /-- FRES_FAIL (R342): FRES act 2 makes every waiter raise 0x05 as a team fault. -/
  | fresFail (d e : Nat)
  /-- REGISTER_WRITE (R6): A write to a register with no behaviour of its own updates its RW fields. -/
  | registerWrite (sp : RegSpace) (addr : Nat) (val : Word)
  /-- SNAP_ARM (R376): Writing SNAPSTAT arms the trigger network and clears src. -/
  | snapArm
  /-- SNAP_HOST_FIRE (R376): Writing SNAPCTL.host fires the host trigger source. -/
  | snapHostFire
  /-- SNAP_COUNTER_TRIGGER (R376): The counter source fires when cycle[63:32] equals cmp. -/
  | snapCounterTrigger
  /-- SNAP_PIN_TRIGGER (R376): SNAP_IN asserted low fires the pin source. -/
  | snapPinTrigger
  /-- POWER_CONTROL_TICK (R380): Every 1 ms the controller compares meas with lim and moves step. -/
  | powerControlTick (meas : BitVec 16)
  /-- PATROL_SCRUB (R374): Patrol scrub reads and corrects HBM bursts once per 24 hours. -/
  | patrolScrub (p frame burst : Nat) (res : ReadCheck)
  /-- BOOT (R379): At power good the boot sequence runs through its steps. -/
  | boot (failAt : Nat)
  /-- GET_VERSION (R350): SPDM version negotiation. -/
  | getVersion (v : VersionAsk)
  /-- GET_MEASUREMENTS (R350): SPDM request returning measurement blocks. -/
  | getMeasurements (v idx : Nat)
  /-- KEY_SLOT_INSTALL (R354): Installs a key slot in every slice of the partition. -/
  | keySlotInstall (v : Nat) (pl : List Word)
  /-- KEY_SLOT_REVOKE (R354): Invalidates a key slot at every slice and writes back its lines. -/
  | keySlotRevoke (v : Nat) (pl : List Word)
  /-- LINTEL_PACKET_RECEIVE (R365): A link packet is checked by CRC and retried or poisoned. -/
  | lintelPacketReceive (i6 : Packet) (crcOk : Bool)
  /-- HELLO (R368): Package peers exchange versions and numbers. -/
  | hello (n ver : Nat)
  /-- REMOTE_TRANSFER_REQUEST (R369): A remote I/O die checks, translates and performs a put or get and reports once. -/
  | remoteTransferRequest (n : Nat) (rq : Option Remote)
  /-- RETRANSMIT_TIMEOUT (R368): The 10 µs go-back-N retry timer expires and packets are resent. -/
  | retransmitTimeout (n : Nat)
  /-- ACK_TIMEOUT (R369): No acknowledgement within 10 ms refuses the transfer with status 1. -/
  | ackTimeout (c : Nat)
  /-- CHEAD_WRITE (R363): A host write to CHEAD frees completion-ring entries, so a completion entry the scheduler was holding is written and its signal addition proceeds. -/
  | cheadWrite (v : Nat) (val : Word)
  /-- HOLDING_SCRUB_COMPLETE (R359): The scrub of a holding team's cores, about 70 µs long, ends, and only then are its cores offered to another team. -/
  | holdingScrubComplete (t : Nat)
  /-- REVOKE_COMPLETE (R354): Every slice reports its write-back and drop for a revoked slot, the SEP answers done, and the slot leaves the manifest. -/
  | revokeComplete (p s : Nat)
  /-- PLUGIN_FAULT (R307): A plug-in that takes an access fault, an illegal instruction or a misaligned access is stopped for good, and its tenant falls back to the default order. -/
  | pluginFault (v : Nat)
  /-- GET_CERTIFICATE (R350): An SPDM GET_CERTIFICATE request returns the device certificate chain. -/
  | getCertificate (v : Nat)
  /-- CHALLENGE (R350): An SPDM CHALLENGE request is answered with a response signed by the identity key. -/
  | challenge (v nonce : Nat)
  /-- KEY_EXCHANGE (R350): An SPDM KEY_EXCHANGE opens a secure session on a VF, bound to that VF's partition. -/
  | keyExchange (v nonce : Nat)
deriving DecidableEq, Repr

end Sys2Proof
end

