-- ==== Sys2Proof/Machine/State.lean ====
section
/-! DEFINITION. The state of a package as plain data: contexts, cores, cluster units, families, requests on their way,
memory, translation, teams and launches, the host's registers. INVENTORY.md lists every field with its rule. -/

namespace Sys2Proof.Machine

/-- A sparse table: entries by rising key; an absent key has the table's default. -/
abbrev Tab (β : Type) := List (Nat × β)
/-- A row of a tile (R212): byte i at bits 8i. -/
abbrev Row := BitVec 512

/-! ## Contexts -/

/-- A neighbour queue word: control or data (R49), the value, and the failed CRC checks of its packet: more than 8 have poisoned it
(R365). -/
abbrev QWord := Bool × Word × Nat

/-- What a context does when it does not issue (R29, R46, R175, R184, R185, R310, R340, R342). -/
inductive Run where
  | run
  /-- The unit waits for a translation walk and is attempted again after it (R340). -/
  | walk
  /-- BARW or BWAIT: phase `ph` of barrier `b` must complete, then the thread goes on. -/
  | bar (b ph : Nat)
  /-- A second arrival: it is made again once phase `ph` of `b` completes (R46). -/
  | barAgain (b ph : Nat)
  | fsync
  | mbrecv
  | wfe (line : Nat)
  /-- Parked by cause 0x05 (R342). -/
  | parked
  /-- Parked by ECALL (R164): the context's pc is the unit's address, `wnpc` the next unit's. -/
  | ecall
  /-- FCREATE waiting for an inbound linked register it must copy (R173). -/
  | linked
  /-- FCREATE waiting for the granules of its descriptor (R173). -/
  | desc
  /-- The thread has issued an FBREAK or a unit that raises a team fault; the end of the cycle acts on it (R43, R312). -/
  | ending
  /-- An inline member has ended; the frame below it is restored once earlier stores to it are performed (R38, R79). -/
  | restore
deriving DecidableEq, Repr

/-- A replay frame in progress (R232). -/
structure RFrame where
  start : Word
  len : Nat
  count : Nat
  stag : Nat
  r : Nat
  pos : Nat
deriving DecidableEq, Repr

/-- A family-table entry, named by its place (R172). -/
structure FamRef where
  core : Nat
  ctx : Nat
  entry : Nat
deriving DecidableEq, Repr

/-- An FSYNC that waits (R175): its family, its unit and the next, the register its status fills. -/
structure SyncWait where
  fam : FamRef
  upc : Word
  npc : Word
  dst : Nat
deriving DecidableEq, Repr

/-- A linked value of LSEND on its way (R36): its family, named with its creation order, the member it goes to, the link. -/
structure Link where
  fam : FamRef
  ord : Nat
  member : Nat
  k : Nat
deriving DecidableEq, Repr

/-- A value on its way to a register of the thread `uid` (R28), or to where `link` names: the register as Ctx indexes it; `acq` is 0, or 1 + the
scope of an acquire it completes (R88), and `counted` says that its thread issued that acquire; `err` is a trap cause raised at delivery, 0 for none (R74), at `addr` by the unit
`upc`; `src` is the core a counted message comes from (R52). -/
structure RegFill where
  uid : Nat
  reg : Nat
  val : Word
  acq : Nat
  counted : Bool
  err : Nat
  addr : Word
  upc : Word
  src : Option Nat
  /-- Failed CRC checks of its packet on a link (R365). -/
  tries : Nat
  link : Option Link
deriving DecidableEq, Repr

/-- A descriptor that an FCREATE has asked for (R171, R173): the unit, the handler level it stands at, its eight dwords as
they come, each with its poison. -/
structure DescRead where
  upc : Word
  level : Nat
  words : List (Option (Word × Bool))
deriving DecidableEq, Repr

/-- A condition of a FENCE.X (R87): thread, the request number before it, scope. -/
abbrev FenceX := Nat × Nat × Nat

/-- A result held for a parked or saved thread (R230). -/
structure SfuRes where
  uid : Nat
  row : Nat
  data : Row
  flags : BitVec 5
deriving DecidableEq, Repr

/-- What the family unit keeps of a creator that runs a member inline (R38, R158, R168, R213): the depth's identity,
guards, masks, fcsr and the fills held for it, oldest first. -/
structure Saved where
  uid : Nat
  g : BitVec 8
  k : Vector Word 8
  fcsr : BitVec 8
  kind : Nat
  member : Nat
  fam : Option FamRef
  probe : Bool
  held : List (Nat × Word)
  sync : SyncWait
  /-- Of the outer thread: its scoreboard, acquires, fence and arrivals. -/
  pend : BitVec 48
  acq : Nat
  xfence : List FenceX
  marks : List (Nat × Nat)
  /-- The handlers the outer thread stands in, and whether it holds the mailbox enable (R180, R188, R316). -/
  inLh : Bool
  inEm : Bool
  mben : Bool
  /-- What its light handler left: a barrier unit, an FSYNC (R181, R189). -/
  bwait : Option (Word × Nat × Nat)
  left : Option SyncWait
deriving DecidableEq, Repr

/-- The AMU binding of a thread (R280): its program words and its document starts. -/
structure Binding where
  prog : List Nat
  docs : List Nat
deriving DecidableEq, Repr

/-- A hardware context (R13). `uid` is the serial number of its thread, 0 for none (the model's own identity).
Registers, full/empty bits and the scoreboard are indexed by r for the thread's own x registers, by 16 + r for the
light-handler shadow bank and by 32 + r for the emulation shadow bank (r from 5 to 8; R50, R313): a swap of x5 to x8 with a
bank is a change of the bank that x5 to x8 name. -/
structure Ctx where
  uid : Nat
  x : Vector Word 48
  fe : BitVec 48
  /-- Registers whose parity fails (R371, R373). -/
  bad : BitVec 48
  pend : BitVec 48
  pendV : List Nat
  pendK : BitVec 8
  pc : Word
  st : Run
  g : BitVec 8
  k : Vector Word 8
  fcsr : BitVec 8
  hvec : Word
  hepc : Word
  hcause : Word
  hm : Bool
  /-- Pending triggers (R50): cause, value, and the thread that stood in the context when each came (R180). -/
  trig : List (Word × Word × Nat)
  inLh : Bool
  mben : Bool
  inEm : Bool
  emepc : Word
  emcause : Word
  emval : Word
  istk : Word
  qcfg : BitVec 16
  instret : Word
  frame : Option RFrame
  lease : List Nat
  kind : Nat
  member : Nat
  fam : Option FamRef
  probe : Bool
  frames : List Saved
  /-- Pushes that a full queue holds, oldest first: direction and word (R187). -/
  heldPush : List (Nat × QWord)
  /-- Acquires issued and not yet delivered (R88). -/
  acq : Nat
  /-- The conditions of its FENCE.X, for later engine commands (R87). -/
  xfence : List FenceX
  bind : Option Binding
  cnt : Vector Nat 3
  /-- Barriers with an arrival of this thread, and the phase it was made in (R46). -/
  marks : List (Nat × Nat)
  /-- A barrier unit suspended before a light handler was entered: its unit, barrier and phase (R181). -/
  bwait : Option (Word × Nat × Nat)
  sfuHeld : List SfuRes
  /-- The FSYNC the thread waits at (R175), and one it left for a light handler (R189). -/
  sync : Option SyncWait
  syncLeft : Option SyncWait
  /-- Of a suspended unit: the next unit's address, and the register it fills (R29). -/
  wnpc : Word
  wdst : Nat
  /-- Units of a CQPUSH or GPOST whose checks have passed and that stall on a full queue, each with its handler level (R256). -/
  posting : List (Word × Nat)
  /-- Descriptors asked for by an FCREATE that has not retired (R173). -/
  desc : List DescRead
deriving DecidableEq, Repr

/-- A context with no thread. -/
def Ctx.empty : Ctx :=
  { uid := 0, x := Vector.replicate 48 0, fe := BitVec.allOnes 48, bad := 0, pend := 0, pendV := [], pendK := 0, pc := 0, st := .run,
    g := 1, k := Vector.replicate 8 0, fcsr := 0, hvec := 0, hepc := 0, hcause := 0, hm := false, trig := [], inLh := false,
    mben := false, inEm := false,
    emepc := 0, emcause := 0, emval := 0, istk := 0, qcfg := 0, instret := 0, frame := none, lease := [], kind := 0,
    member := 0, fam := none, probe := false, frames := [], heldPush := [], acq := 0, xfence := [], bind := none,
    cnt := Vector.replicate 3 0, marks := [], bwait := none, sfuHeld := [], sync := none, syncLeft := none,
    wnpc := 0, wdst := 0, posting := [], desc := [] }

/-! ## Cores -/

/-- A barrier (R46): its members and this phase's arrivals by thread, and how many phases have completed. -/
structure Barrier where
  members : List Nat
  arrived : List Nat
  phase : Nat
deriving DecidableEq, Repr

/-- An entry of the SFU queue (R230): the function, the row read at issue, where the result goes. -/
structure SfuEntry where
  uid : Nat
  fn : Nat
  ty : Nat
  row : Nat
  data : Row
deriving DecidableEq, Repr

/-- An element of B in a CIM slot (R103): its class (0 zero, 1 finite, 2 infinite, 3 NaN), sign and aligned magnitude. -/
structure BElem where
  cls : Nat
  neg : Bool
  mag : Nat
deriving DecidableEq, Repr

/-- A CIM slot with its record (R238); `els` holds 16 columns of 16 depths, `raw` the bytes a front end has stored since the load
(R58), nothing when it has stored none. -/
structure Slot where
  sparse : Bool
  size : Nat
  mode : Nat
  fmt : Nat
  scale : Nat
  stride : Nat
  src : Nat
  els : List (List BElem)
  exps : List Int
  zq : List Bool
  raw : List Byte
deriving DecidableEq, Repr

def Slot.empty : Slot :=
  { sparse := false, size := 0, mode := 0, fmt := 0, scale := 0, stride := 0, src := 0, els := [], exps := [], zq := [], raw := [] }

/-- A tile's state beside its bytes (R106, R214): type, staging partial, period counter, the period's mode, the elements
touched in it and the latched scales. -/
structure Tile where
  ty : Nat
  part : List (BitVec 32)
  count : Nat
  mode : Nat
  touched : List Bool
  sA : List Nat
  sB : List Nat
deriving DecidableEq, Repr

def Tile.fresh : Tile :=
  { ty := 1, part := [], count := 0, mode := 0, touched := [], sA := [], sB := [] }

/-- What a matrix operation will do to its tile when its occupancy has ended (R248). -/
inductive TileOp where
  /-- Add p(i,j) to C(i,j), or to S(i,j) in modes 1 and 2; an absent entry is an element that is off. -/
  | mac (mode : Nat) (int : Bool) (p : List (Option Nat)) (sA sB : List Nat)
  /-- A GMMA whose gang operation has not begun (R244): masks, mode, A's format and rows on the lead, the scale area, slot. -/
  | gang (k : Word) (mode aFmt : Nat) (rows : List (Option (List Nat))) (sc : List Nat) (slot : Nat)
  | zero (on : List Bool)
  | load (v : List (Option Nat))
  /-- Store with conversion: the elements' keys, the tile's type at issue, the destination format, rounding mode and saturation
  (R247). -/
  | store (els : List (Option Nat)) (ty fmt rm : Nat) (sat : Bool)
deriving DecidableEq, Repr

/-- A matrix operation the engine holds, in engine order (R248). -/
structure MatOp where
  id : Nat
  uid : Nat
  ctx : Nat
  upc : Word
  /-- The thread's identity for a fault record (R320): ident, member, kind, depth, lh, emu. -/
  who : List Nat
  tile : Nat
  fam : Option FamRef
  /-- A GMMA whose gang operation has not begun carries its gang number (R244). -/
  gang : Option Nat
  op : TileOp
deriving DecidableEq, Repr

/-- A GMMA that has issued or was guarded off (R245): its gang number, its position in the course, its thread and unit. -/
structure GangEntry where
  no : Nat
  pos : Nat
  who : List Nat
  upc : Word
deriving DecidableEq, Repr

/-- A translation a TLB holds (R341): VF, level of the leaf, virtual page of that level, the entry. -/
structure TlbEntry where
  vf : Nat
  level : Nat
  page : Nat
  entry : Word
deriving DecidableEq, Repr

/-- A granule an engine reads at its home (R84), for the source row `tag`: its address and place, and what the read found, with its
poison. -/
structure Gran where
  tag : Nat
  va : Nat
  key : Nat
  home : Home
  slot : Nat
  stream : Bool
  got : Option (List Byte × Bool)
  /-- Failed CRC checks of its reply's packet: more than 8 poison it (R365). -/
  tries : Nat
deriving DecidableEq, Repr

/-- A granule an engine writes: where it goes, its k elements from number `idx` on, and the row and address where each source of them
begins. -/
structure Piece where
  srcs : List (Nat × Nat)
  dst : Nat
  k : Nat
  idx : Nat
  key : Nat
  home : Home
  slot : Nat
  stream : Bool
  done : Bool
deriving DecidableEq, Repr

/-- A copy or ICE command (R255 to R268): its four words, the posting thread with its identity (R312), the fence it waits
for (R87), and where it stands. `units` are the destination units it waits to own; `join` is the leader's core and command
and the first line of a joined multicast (R268); `chunk` and `xs` are the ICE's; `phase` counts the steps of its chunk (0 indices, 1 rows,
2 signalled), and is 1 of a copy that has written its counter back (R264); `status` is the remote report. -/
structure Command where
  id : Nat
  op : Nat
  words : List Word
  uid : Nat
  core : Nat
  ctx : Nat
  upc : Word
  who : List Nat
  fence : List FenceX
  ticket : Nat
  parked : Bool
  begun : Bool
  units : List Nat
  srcFmt : Nat
  dstFmt : Nat
  grans : List Gran
  pieces : List Piece
  join : Option (Nat × Nat × Nat)
  seed : Word
  counter : Nat
  chunk : Nat
  phase : Nat
  xs : List Int
  status : Option Nat
  /-- The thread in the context that a mode 4 target names, as the command was posted (R263). -/
  bound : Nat
  /-- The remote package of a put or get, as its parameter block names it at begin (R264). -/
  pkg : Nat
  /-- Translations of its pages it has found so far (R260). -/
  maps : List TlbEntry
deriving DecidableEq, Repr

/-- A fault record (R320) as its eight dwords. -/
abbrev FRecord := List Word

/-- A line of an L1 view (R83), by its physical line: the virtual line it entered under, its bytes and poisoned words. -/
structure L1Line where
  va : Nat
  bytes : List Byte
  poison : List Nat
deriving DecidableEq, Repr

/-- A core (R13). -/
structure Core where
  ctxs : Tab Ctx
  stop : Bool
  cstate : Nat
  abase : Word
  abound : Word
  flatch : FRecord
  faulted : Bool
  level : Nat
  compat : Nat
  hoff : Word
  donor : Nat
  bfmt : BitVec 32
  bars : Tab Barrier
  /-- Mailbox words, each with its poison (R51, R74). -/
  mbox : List (Word × Bool)
  /-- MBRECV waiters in issue order: context, thread (R184). -/
  mbwait : List (Nat × Nat)
  events : BitVec 16
  /-- Signals that have arrived and not yet reached their line, oldest first (R185). -/
  sigq : List Nat
  inq : Tab (List QWord)
  outq : Tab (List QWord)
  sfuq : List SfuEntry
  sfuPipe : List SfuRes
  copyq : List Command
  copyRun : Option Command
  copyDone : Nat
  mat : List MatOp
  slots : Tab Slot
  tiles : Tab Tile
  empties : List Nat
  l1 : Tab L1Line
  icache : Tab (List (BitVec 8) × List Bool)
  sent : Nat
  recv : Nat
  issued : Nat
  gangNo : Nat
  team : Option Nat
  /-- The wheel position a saved team left, from which a resumed one counts (R25, R53). -/
  wheel : Nat
  /-- Contexts that could not issue at the core's latest turn (R29, R310). -/
  stalled : BitVec 16
deriving DecidableEq, Repr

def Core.reset : Core :=
  { ctxs := [], stop := true, cstate := 0, abase := 0, abound := 0, flatch := [], faulted := false, level := 3, compat := 0,
    hoff := 0, donor := 15, bfmt := 0, bars := [], mbox := [], mbwait := [], events := 0, sigq := [], inq := [], outq := [],
    sfuq := [], sfuPipe := [], copyq := [], copyRun := none, copyDone := 0, mat := [], slots := [],
    tiles := [], empties := [], l1 := [], icache := [], sent := 0, recv := 0, issued := 0,
    gangNo := 0, team := none, wheel := 0, stalled := 0 }

/-! ## Requests (R76 to R92) -/

/-- One granule of a row or element access (R90): bytes at an address, the row offset or the first lane they belong to,
and the bank format they are converted by (0: moved unchanged). -/
structure Part where
  addr : Nat
  n : Nat
  off : Nat
  fmt : Nat
deriving DecidableEq, Repr

/-- What a request does at its home. Destinations are registers as Ctx indexes them. -/
inductive ReqOp where
  | load (n : Nat) (sext : Bool) (d : Nat)
  | store (bytes : List Byte)
  /-- An element of ACCST; `whole`: with it those of its ACCST have overwritten its 8-byte word whole (R247). -/
  | elem (bytes : List Byte) (whole : Bool)
  | ldc (d : Nat)
  | ldp (d : Nat)
  | stf (v : Word)
  | sete
  | fest (d : Nat)
  | amo (op n : Nat) (d : Nat) (v cmp : Word)
  | mail (v : Word)
  | event (line : Nat)
  /-- LRLN: destination, the block's scratchpad key, the lines' keys, and those among them that are stream accesses (R206, R340). -/
  | lrln (d : Nat) (block : Nat) (lines streams : List Nat)
  /-- The lines of an LRLN on their way into its block: destination, its value, dwords with their poison still to write (R206). -/
  | block (d : Nat) (v : Word) (words : List (Nat × Word × Bool))
  /-- SCLN: destination, unconditional, the lines' keys, those among them that are stream accesses, and dwords to write with their poison
  (R207, R340). -/
  | scln (d : Nat) (uncond : Bool) (lines streams : List Nat) (writes : List (Nat × Word × Bool))
  /-- Elements of a row load or store: (lane, key) of each, or one whole row; the granules left once it has begun. -/
  | rowLd (join : Nat) (ty : Nat) (els : List (Nat × Nat)) (whole : Bool) (parts : Option (List Part))
  | rowSt (ty : Nat) (data : Row) (els : List (Nat × Nat)) (whole : Bool) (parts : Option (List Part))
  /-- A granule of engine `eng` (R84): allocation priority and hint (R71), bytes, poison. -/
  | engWrite (eng prio hint : Nat) (bytes : List Byte) (poison : Bool)
  | prefetch (l1 : Bool)
  /-- FCREATE's read of its descriptor: the unit and its handler level, the dwords still to read (R173). -/
  | desc (upc : Word) (level : Nat) (left : List Nat)
  /-- The load of a thread that migrates (R47). -/
  | mig
  /-- A mode 4 completion: a register of the thread that stood in the context it names when the command was posted, 0 for none (R263). -/
  | fill (uid : Nat) (v : Word)
  /-- A store of a front end to a CIM slot or to the control region (R58, R308): region, offset, value. -/
  | control (region off : Nat) (v : Word)
  /-- A load of a front end (R306): n bytes, extended by sign or with zeros, for a register of it, at an offset of a core's region or in
  device memory. -/
  | look (n : Nat) (sext : Bool) (d : Nat) (region off : Nat)
  /-- A mode 1 completion: the word is written and full, as an STF (R263). -/
  | complete (v : Word)
deriving DecidableEq, Repr

/-- A request: its issue number, thread, class (0 local, 1 ordered, 2 adaptive; 3 an engine's own), the scope of an atomic, whether
it counts in its thread's counters (R85, R93), the cycle it issued in, source core (`ioDie` for the I/O die) and context, home, key, virtual address and unit (for traps), the family its thread is a member of, the key slot of a
sealed page, whether a slice allocates for it, its team (R336), failed CRC checks of its packet and whether its data words
are poisoned by them (`rtries`, `rbad`: the same of the reply it will send that no register waits for; R365). `st`: 0 on its way, 1 arrived, 2 on a word's wait list (R67), 3 held by an
owned unit (R70), 4 at the L1 view. `came` is the cycle it arrived in and `arr` its place in the home's arrival order; `acq` is 0 or 1 + the scope of an
acquire; `noFill` marks a load a CINV has covered (R201), or an LDC or LDP of a killed thread,
which will not wait (R67). -/
structure Req where
  id : Nat
  uid : Nat
  cls : Nat
  scope : Nat
  counted : Bool
  born : Nat
  core : Nat
  ctx : Nat
  home : Home
  addr : Nat
  va : Word
  upc : Word
  fam : Option FamRef
  slot : Nat
  stream : Bool
  st : Nat
  came : Nat
  arr : Nat
  acq : Nat
  noFill : Bool
  begun : Bool
  team : Option Nat
  tries : Nat
  bad : Bool
  rtries : Nat
  rbad : Bool
  op : ReqOp
deriving DecidableEq, Repr

/-- A row load collecting its granules (R74: it writes no lane if one is poisoned). -/
structure Join where
  id : Nat
  uid : Nat
  row : Nat
  ty : Nat
  left : Nat
  data : Row
  mask : Row
  /-- The trap its first bad granule raises: cause and value (R74, R354, R373). -/
  poison : Option (Nat × Word)
  flags : BitVec 5
  upc : Word
deriving DecidableEq, Repr

/-- A unit an engine owns (R70), by its 128-byte key and the engine's number. -/
structure Owned where
  key : Nat
  eng : Nat
deriving DecidableEq, Repr

/-- A reservation of LRLN at a slice (R206, R208). -/
structure Reservation where
  slice : Nat × Nat
  uid : Nat
  lines : List Nat
deriving DecidableEq, Repr

/-! ## Families (R31 to R43, R171) -/

/-- A family descriptor (R171). -/
structure Desc where
  addr : Word
  twod : Bool
  perf : Bool
  mig : Bool
  gang : Bool
  inl : Bool
  place : Nat
  vclass : Nat
  links : Nat
  entry : Nat
  start : Int
  limit : Int
  step : Int
  cmask : Nat
  window : Nat
  block : Nat
  bctx : Nat
  lattice : Nat
  cov : Nat
  ni : Nat
  pts : List Nat
  arg : Word
  count : Nat
deriving DecidableEq, Repr

/-- A family in the creator's table (R32, R172). `coverage` is the Bellows latch of a perforated family (R290); `who` and `upc` name
its creator and the FCREATE, for a fault raised on Grout's behalf (R296, R312). -/
structure Fam where
  live : Bool
  seq : Nat
  ord : Nat
  uid : Nat
  depth : Nat
  desc : Desc
  next : Nat
  ended : Nat
  running : List (Nat × Nat × Nat × Nat)
  held : List (Nat × Nat × Word)
  /-- Held values whose packet's data words are poisoned (R365). -/
  heldBad : List (Nat × Nat)
  brk : Option Nat
  killed : Bool
  marked : Bool
  finished : Bool
  coverage : Option Nat
  grouted : Bool
  who : List Nat
  upc : Word
deriving DecidableEq, Repr

/-- A thread on its way between cores (R47, R48). -/
structure Migration where
  uid : Nat
  fromCore : Nat
  fromCtx : Nat
  toCore : Nat
  toCtx : Nat
  reg : Nat
  addr : Nat
  ctx : Ctx
  /-- What its load has found, with poison. -/
  got : Option (Word × Bool)
  /-- The LDMIG's own address, and failed CRC checks of its packets (R365). -/
  upc : Word
  tries : Nat
deriving DecidableEq, Repr

/-- What happens at a barrier in one cycle (R182). -/
inductive BarEvent where
  | arrive
  | leave
  | join
deriving DecidableEq, Repr

/-- An FBREAK on its way to the family unit (R42, R43): its family with its creation order, the member, the value, the thread. -/
structure Break where
  fam : FamRef
  ord : Nat
  member : Nat
  value : Word
  uid : Nat
deriving DecidableEq, Repr

/-- A team fault that a thread has raised in this cycle (R312): its core, thread and identity, the cause with its value, the unit. -/
structure Raised where
  core : Nat
  uid : Nat
  who : List Nat
  cause : Nat
  value : Word
  upc : Word
deriving DecidableEq, Repr

/-- An event on its way to a barrier (R182): the barrier's place, the core and the thread. -/
structure BarItem where
  what : BarEvent
  key : Nat
  core : Nat
  uid : Nat
deriving DecidableEq, Repr

/-! ## Cluster units -/

/-- A request of an AMU (R286), with the thread whose context it was issued in (R281): op 0 MBIND, 1 MCLASS, 2 MROW, 3 MCNT; MBIND carries its block's bytes. -/
structure AmuReq where
  uid : Nat
  /-- The thread's identity for a record (R312, R320). -/
  who : List Nat
  base : Nat
  core : Nat
  op : Nat
  dst : Nat
  a : Word
  b : Word
  upc : Word
  block : List Byte
  /-- The thread's binding as the request was issued (R288). -/
  bind : Option Binding
deriving DecidableEq, Repr

/-- A Bellows context (R298): the fields of its block; thresholds and mean are f32 bits, `fmt` 0 means not loaded. -/
structure Bellows where
  hi : Nat
  lo : Nat
  out : Word
  ptpitch : Nat
  rowpitch : Nat
  streak : Nat
  adapt : Bool
  ceil : Nat
  cur : Nat
  fmt : Nat
  em1 : Nat
  salt : Nat
  probes : Nat
  mean : Nat
  done : Nat
deriving DecidableEq, Repr

def Bellows.fresh : Bellows :=
  { hi := 0, lo := 0, out := 0, ptpitch := 0, rowpitch := 0, streak := 0, adapt := false, ceil := 0, cur := 0, fmt := 0,
    em1 := 0, salt := 0, probes := 0, mean := 0, done := 0 }

/-- A request Bellows serves in arrival order (R300): a latch, or an update with each probe's outputs and interpolations. -/
structure BellowsReq where
  fam : FamRef
  ord : Nat
  ctx : Nat
  probes : Option (List (List (Nat × Nat)))
deriving DecidableEq, Repr

/-- A perforated family that has reached Grout (R294), by its creation order, with its place in the order in which engines were asked,
the units it waits to own (R70) and the
translations found so far (R296). -/
structure GroutEntry where
  fam : FamRef
  ord : Nat
  id : Nat
  units : List Nat
  maps : List TlbEntry
deriving DecidableEq, Repr

/-- A family Grout has begun (R294): its lattice, coverage and output array as they stood then, the granules it reads, and the pieces
it writes; a piece belongs to the point whose number among the skipped ones `srcs` names, and `idx` is its first element. -/
structure GroutJob where
  fam : FamRef
  ord : Nat
  desc : Desc
  cov : Nat
  bell : Bellows
  grans : List Gran
  pieces : List Piece
deriving DecidableEq, Repr

/-- The source core of accesses by the front-end processors: their lane is the I/O die's (R82, R306). -/
def ioDie : Nat := 8192

/-- A cluster (R11). -/
structure Cluster where
  amuq : List AmuReq
  iceq : List Command
  iceRun : Option Command
  /-- The next chunk of the running command, whose reads may come first (R266). -/
  iceAhead : Option Command
  groutq : List GroutEntry
  groutRun : Option GroutJob
  /-- Grout's head family waits for a translation (R296). -/
  groutWalk : Bool
  bellowsq : List BellowsReq
  bellows : Tab Bellows
  tlb : List TlbEntry
deriving DecidableEq, Repr

def Cluster.reset : Cluster :=
  { amuq := [], iceq := [], iceRun := none, iceAhead := none, groutq := [], groutRun := none, groutWalk := false, bellowsq := [],
    bellows := [], tlb := [] }

/-! ## Teams -/

/-- The states of a team (R322); `none` marks a team that never was. -/
inductive Phase where
  | none
  | loading
  | running
  | stopping
  | saved
  | discarded
  | faulted
  | complete
deriving DecidableEq, Repr

/-- A team (R24, R44, R46, R52, R322): its launch, launch index and block, the die whose range the block came from, its
shape, its cores by rank, team barriers, waves; `saving` tells a save from a discard while it stops (R332). -/
structure Team where
  phase : Phase
  faulted : Bool
  saving : Bool
  launch : Nat
  block : Word
  number : Nat
  die : Nat
  vf : Nat
  part : Nat
  shape : Nat
  cores : List Nat
  bars : Tab Barrier
  /-- Cycle of the latest co-start, and of the latest wave (R52). -/
  costart : Nat
  lastWave : Nat
  /-- Totals sent and received of the latest wave. -/
  totals : Option (Nat × Nat)
  /-- Two successive waves agreed (R52, R333). -/
  agreed : Bool
  /-- Time of the first and of the latest co-start, and time run before that (R332). -/
  born : Nat
  began : Nat
  ran : Nat
  /-- The image's digest (R352), 0 when its partition held no slot, and whether the team has read a sealed page (R359). -/
  digest : Nat
  holding : Bool
  /-- The scrub of a holding team's cores has not ended (R359). -/
  scrub : Bool
  /-- The save sequence the SEP keeps of a saved team (R360). -/
  seq : Nat
  /-- Per cluster, the posts to its ICE and the ticket of the latest completion (R257, R258, R269). -/
  icePost : Tab Nat
  iceDone : Tab Nat
deriving DecidableEq, Repr

/-- A save image (R334): the sequence it was sealed under, the team's cores with their memories, poison and held requests,
family table, Bellows contexts by cluster and gang records by course. -/
structure Image where
  seq : Nat
  cores : List (Nat × Core)
  mem : List (Nat × Byte)
  poison : List Nat
  /-- Tile words whose parity fails (R373). -/
  parity : List Nat
  reqs : List Req
  fams : Tab Fam
  bellows : Tab (Tab Bellows)
  gangs : Tab (List GangEntry)
  /-- The families that waited for Grout, by cluster, in their order (R304). -/
  grout : Tab (List GroutEntry)
  /-- By cluster of the team, in rank order: the sealed chunks of that cluster's part, each with its tag (R334, R360). -/
  chunks : List (List (List Byte × BitVec 128))
deriving DecidableEq, Repr

/-- A launch (R323 to R336): its record, kernel header, digest and submission time; whether it is ready, the place it has among
the eligible launches, each die's blocks still to dispatch as half-open ranges in dispatch order (R329, R332); blocks
completed with the units they issued (R332); how it ended; fault records; the completion entry once formed. -/
structure Launch where
  live : Bool
  vf : Nat
  ring : Nat
  pos : Nat
  words : List Word
  header : List Word
  digest : Nat
  time : Nat
  ready : Bool
  stamp : Option Nat
  ranges : Tab (List (Nat × Nat))
  done : Nat
  issued : Nat
  /-- Status and detail once it is known to end as faulted or as a load error (R336). -/
  result : Option (Nat × Nat)
  dropped : Nat
  written : Nat
  entry : List Word
  firstCo : Option Nat
  /-- The team whose pre-emption for this launch is in progress, and its cores not yet offered to this launch first (R331). -/
  pre : Option Nat
  preLeft : List Nat
deriving DecidableEq, Repr

/-! ## What a VF has in the I/O die (R307, R323, R350, R362) -/

/-- A submission ring: base, configuration, the last doorbell index, the next record to read, submission times by index. -/
structure Ring where
  base : Word
  cfg : Word
  bell : Nat
  head : Nat
  times : Tab Nat
deriving DecidableEq, Repr

/-- A ring the scheduler writes: base, configuration, tail and head. -/
structure OutRing where
  base : Word
  cfg : Word
  tail : Nat
  head : Nat
deriving DecidableEq, Repr

/-- The modes of a front-end processor (R305). -/
inductive FepMode where
  | user
  | supervisor
  | machine
deriving DecidableEq, Repr

/-- A front-end processor (R305, R306): its RV64GC registers (x, f and pc), its mode, the one its latest trap came from, its PMP entries as
the RISC-V privileged specification defines them (configuration bytes and address registers), cause and value of its latest trap, its
other control and status registers by number, whether a load of it is under way, the tenant whose plug-in it runs (R307). -/
structure Fep where
  x : Tab Word
  f : Tab Word
  pc : Word
  csr : Tab Word
  waits : Bool
  mode : FepMode
  prior : FepMode
  cfg : List Byte
  addr : List Word
  mcause : Word
  mtval : Word
  tenant : Option Nat
deriving DecidableEq, Repr

/-- A front end before boot: machine mode and no entry on, as that specification resets a hart (log 15). -/
def Fep.reset : Fep :=
  { x := [], f := [], pc := 0, csr := [], waits := false, mode := .machine, prior := .machine, cfg := List.replicate 16 0, addr := List.replicate 16 0, mcause := 0, mtval := 0, tenant := none }

/-- A tenant's plug-in (R307): a0 as its latest call left it, what its PMP grant covers as base and
size (code, data, ring heads), when its invocation began, the order of this invocation and the order in force, whether it is
stopped for good. -/
structure Plugin where
  a0 : Word
  code : Nat × Nat
  data : Nat × Nat
  heads : Nat × Nat
  start : Option Nat
  staged : List Nat
  order : List Nat
  stopped : Bool
deriving DecidableEq, Repr

/-- The SPDM responder towards one function (R350): the version GET_VERSION has found (R367), the partition of an open session, the
latest answer as (tag, bytes) pairs. -/
structure Spdm where
  version : Option Nat
  session : Option Nat
  answer : List (Nat × List Byte)
deriving DecidableEq, Repr

/-- A virtual function; number 256 stands for the physical function's responder. `held` lists the launches whose completion
entries wait for room (R363). -/
structure Vf where
  rings : Tab Ring
  comp : OutRing
  fault : OutRing
  dbg : OutRing
  hfver : Word
  imgva : Word
  held : List Nat
  plug : Plugin
  spdm : Spdm
deriving DecidableEq, Repr

def Ring.reset : Ring := { base := 0, cfg := 0, bell := 0, head := 0, times := [] }
def OutRing.reset : OutRing := { base := 0, cfg := 0, tail := 0, head := 0 }
def Vf.reset : Vf :=
  { rings := [], comp := OutRing.reset, fault := OutRing.reset, dbg := OutRing.reset, hfver := 0, imgva := 0, held := [],
    plug := { a0 := 0, code := (0, 0), data := (0, 2 ^ 24), heads := (0, 0), start := none, staged := [], order := [], stopped := false },
    spdm := { version := none, session := none, answer := [] } }

/-- What radiation or wear does to a stage and its code finds (R371): the stage's place, and whether the code corrects it. -/
inductive Upset where
  | burst (part ppa : Nat) (corrected : Bool)
  | slice (part ppa : Nat) (corrected : Bool)
  | scratch (core off : Nat) (corrected : Bool)
  | reg (core ctx r : Nat)
  | tile (core off : Nat)
  | cim (core slot : Nat)
  | icache (core line : Nat)
  | l1 (core line : Nat)
deriving DecidableEq, Repr

/-- What the program of a front end does next, as far as it concerns the package: the results of an RV64GC unit are the program's own
(R305; log 43). Registers below 32 are x registers, from 32 on f registers. -/
inductive FepAct where
  /-- A unit that touches no memory: the register it writes, and the next unit. -/
  | unit (d : Nat) (v npc : Word)
  | load (n : Nat) (sext : Bool) (d a : Nat) (npc : Word)
  | store (n a : Nat) (v npc : Word)
  /-- A CSR unit: the register that takes its old value, its number, and a value it writes. -/
  | csr (d no : Nat) (v : Option Word) (npc : Word)
  /-- An exception or an interrupt of its own: taken in machine mode, or in supervisor mode where delegated. -/
  | trap (cause v : Word)
  | mret
  | sret
deriving DecidableEq, Repr

/-- What the outside world does beside the rows of the opcode table: a front end's next unit, the grant of a plug-in and its calls (R307),
a save image that is not the one its team last wrote (R360), the retirement of a frame by Dyore (R375). -/
inductive Input where
  | fep (f : Nat) (a : FepAct)
  | grant (v : Nat) (code data heads : Nat × Nat)
  | call (v : Nat) (no : Word)
  /-- The image presented for a team is an older one, of that sequence. -/
  | imageOld (t seq : Nat)
  /-- Chunk i of the k-th cluster part of a team's image has these bytes and this tag. -/
  | imageChunk (t k i : Nat) (bytes : List Byte) (tag : BitVec 128)
  /-- The page of a level that holds a frame of a partition moves to the page of a new frame. -/
  | retire (part level frame new : Nat)
  /-- Dyore's next write of TINV, mode 1, made once busy is clear (R343). -/
  | invalidate (v page : Nat)
deriving DecidableEq, Repr

/-- A snapshot (R377): its cycle, and dwords 1 to 11 of every core that differs from one at rest. -/
structure Snap where
  cycle : Nat
  cores : Tab (List Word)
deriving DecidableEq, Repr

/-- A transfer another package asked for (R369): its number, the VF it is translated under, whether a page of it is parked, the translations found so far, and, once it has them
all, its granules with what has become of each. -/
structure Inbound where
  id : Nat
  pkg : Nat
  vf : Nat
  rq : Remote
  parked : Bool
  maps : List TlbEntry
  grans : Option (List Gran)
deriving DecidableEq, Repr

/-! ## Translation (R338 to R343) -/

/-- Who waits for a translation: a context, the copy engine of a core, the ICE or Grout of a cluster, ECALL DEBUG. -/
inductive Waiter where
  | ctx (core ctx uid : Nat)
  | copy (core : Nat)
  | ice (cl : Nat)
  | grout (cl : Nat)
  /-- The next chunk of an ICE: it parks nothing before its turn comes. -/
  | ahead (cl : Nat)
  | debug (core ctx uid : Nat)
  /-- A transfer of another package (R369), by its number. -/
  | remote (id : Nat)
  /-- A prefetch (R202) of a core's context and thread, its level and unit: it never parks. -/
  | pref (core ctx uid level : Nat) (upc : Word)
deriving DecidableEq, Repr

/-- A walk in progress: VF, address, need of write, cluster, the level to read next and its table. -/
structure Walk where
  vf : Nat
  va : Nat
  write : Bool
  cl : Nat
  level : Nat
  table : Nat
  who : Waiter
deriving DecidableEq, Repr

/-- A fault-queue entry (R342) with its waiters in parking order, each with the address that stopped it; `slot` is its index, or none while it is held at its
walker because the queue is full. -/
structure FqEntry where
  die : Nat
  index : Option Nat
  vf : Nat
  page : Nat
  level : Nat
  bad : Bool
  wr : Bool
  waiters : List (Waiter × Nat)
deriving DecidableEq, Repr

/-- A replay in progress (R342): the waiter released last, the instret of its thread or the number of its command then, and the waiters
still to be released, in parking order. -/
structure Replay where
  head : Waiter
  mark : Nat
  rest : List Waiter
deriving DecidableEq, Repr

/-! ## Slices and key slots (R71, R353 to R357) -/

/-- A line a slice holds: its physical line, its marks, the key slot it was filled under (0: unsealed), the virtual line,
and for a sealed line its plaintext and whether it is dirty; `used` orders by recency. -/
structure SLine where
  line : Nat
  prio : Nat
  keep : Bool
  slot : Nat
  vline : Nat
  plain : List Byte
  dirty : Bool
  used : Nat
deriving DecidableEq, Repr

/-- A key slot (R353): valid, being revoked, model, sealed range, keys, digests. -/
structure KeySlot where
  valid : Bool
  revoking : Bool
  model : Word
  base : Nat
  size : Nat
  key1 : Nat
  key2 : Nat
  digs : List Nat
deriving DecidableEq, Repr

/-- What the pipeline knows of the unit being performed: its context, the unit's and the instruction's address, the
next unit's address and the unit's bytes (R130, R145, R153). -/
structure Issue where
  core : Nat
  ctx : Nat
  upc : Word
  ipc : Word
  npc : Word
  bits : Word
deriving DecidableEq, Repr

/-- The package. -/
structure State where
  cores : Tab Core
  clusters : Tab Cluster
  mem : List (Nat × Byte)
  poison : List Nat
  /-- Tile words, by key / 8, whose parity fails (R371, R373). -/
  parity : List Nat
  /-- Upsets to come, the next first: an input of the outside world (R371). -/
  upsets : List Upset
  /-- What else the outside world does, the next first. -/
  inputs : List Input
  reqs : List Req
  joins : List Join
  owned : List Owned
  resv : List Reservation
  fills : List RegFill
  migs : List Migration
  /-- Barrier events of this cycle, taken at its end (R182). -/
  barq : List BarItem
  /-- FBREAKs and thread faults of this cycle, acted on at its end (R43, R312). -/
  breaks : List Break
  raised : List Raised
  fams : Tab Fam
  teams : Tab Team
  launches : Tab Launch
  /-- Save images, by team (R334). -/
  images : Tab Image
  /-- The VF served last at each priority, plus 1 (R328). -/
  served : Tab Nat
  vfs : Tab Vf
  /-- Signal s of VF v at 4,096 v + s: value and threshold (R326). -/
  signals : Tab (Word × Word)
  imgr : Tab Word
  /-- The serial number of each partition's key in the SEP (R360). -/
  partKeys : Tab Nat
  snapctl : Word
  armed : Bool
  /-- The sources that have fired in this cycle, for the snapshot at its end (R376). -/
  due : BitVec 4
  snap : Option Snap
  /-- ERRS(d, k) at 8 d + k (R374), RROW(d) (R375), and when a row gave its first corrected event. -/
  errs : Tab Word
  rrow : Tab (List (Word × Word))
  rows : Tab Nat
  /-- Frames that Dyore allocates no more, by partition and number (R375). -/
  retired : List (Nat × Nat)
  pwr : Word
  bootst : Word
  /-- The port of the package transport, from the configuration block (R368, R378). -/
  udp : BitVec 16
  /-- Transfers held for other packages, reports sent to them as (package, status, bytes), rounds resent to each (R368, R369). -/
  transfers : List Inbound
  reports : List (Nat × Nat × List Byte)
  resent : Tab Nat
  /-- Time since reset in units of 1 / (940 × 720,720) µs. -/
  time : Nat
  /-- What the wired barrier of a course keeps: the GMMA whose gang operation has not begun (R244, R251). -/
  gangs : Tab (List GangEntry)
  troot : Tab Word
  /-- The front-end processors by number (R305). -/
  feps : Tab Fep
  fepsel : Tab Word
  tinv : Word
  parts : Tab Word
  l2 : Tab (List SLine)
  keySlots : Tab KeySlot
  clock : Nat
  vbind : Tab Word
  pkgt : Tab (List Word)
  /-- HELLO with package n: 0 none yet, 1 a common version, 2 none (R368). -/
  pkgVer : Tab Nat
  dieTlb : Tab (List TlbEntry)
  walks : List Walk
  fq : List FqEntry
  fqTail : Tab Nat
  fqHead : Tab Nat
  replays : List Replay
  iss : Issue
  cycle : Nat
  agenda : List Instr
  nextReq : Nat
  nextUid : Nat
  nextOrd : Nat
  nextTeam : Nat
  nextLaunch : Nat
  choice : Nat
  fresh : Nat
  turn : Nat
  arrivals : Nat
  /-- Contexts of the core whose turn it is that a latency of the pipeline keeps from being ready (R7, R25; log 61). -/
  lag : BitVec 16
deriving DecidableEq, Repr

/-- The package at reset: nothing runs, memory lists nothing, the boot of R379 is still to come. -/
def State.reset : State :=
  { cores := [], clusters := [], mem := [], poison := [], parity := [], upsets := [], inputs := [], reqs := [], joins := [], owned := [], resv := [],
    fills := [], migs := [], barq := [], breaks := [], raised := [], fams := [], teams := [], launches := [], images := [], served := [], vfs := [], signals := [],
    imgr := [], partKeys := [], snapctl := 0, armed := false, due := 0, snap := none, errs := [], rrow := [], rows := [], retired := [], pwr := 2200,
    bootst := 0, udp := 0, transfers := [], reports := [], resent := [], time := 0, gangs := [], troot := [],
    feps := [], fepsel := [], tinv := 0, parts := [], l2 := [], keySlots := [], clock := 0, vbind := [], pkgt := [], pkgVer := [], dieTlb := [], walks := [], fq := [], fqTail := [], fqHead := [], replays := [],
    iss := { core := 0, ctx := 0, upc := 0, ipc := 0, npc := 0, bits := 0 }, cycle := 0, agenda := [], nextReq := 1,
    nextUid := 1, nextOrd := 1, nextTeam := 1, nextLaunch := 1, choice := 0, fresh := 0, turn := 0, arrivals := 0, lag := 0 }

/-- No trap of the spec stops this machine (each is a next state), so no meaning raises a fault. The one constructor
stands for a step that no rule describes; nothing raises it, and raising it would be safe (the machine stops). -/
inductive Fault where
  | noRule
deriving DecidableEq, Repr

/-- The machine has no meaning for an instruction: `exec` raises it for an arm without one; it is safe. -/
inductive Refusal where
  | notModelled (mnemonic : String)
deriving DecidableEq, Repr

/-- The outcome of a step. -/
abbrev Out := Host.Outcome State Fault Refusal

end Sys2Proof.Machine
end

