-- ==== Sys2Proof/Machine/Memory.lean ====
section
/-! DEFINITION. Memory as one canonical list of bytes, its keys, and the address formats of R55 to R60. -/

namespace Sys2Proof.Machine

/-! ## Tables -/

/-- The entry of a key, or the default. -/
def tabGet {β : Type} (d : β) : Tab β → Nat → β
  | [], _ => d
  | (k, v) :: t, n => if k = n then v else tabGet d t n

/-- The table with one entry changed. -/
def tabSet {β : Type} : Tab β → Nat → β → Tab β
  | [], n, v => [(n, v)]
  | (k, w) :: t, n, v => if n = k then (n, v) :: t else if n < k then (n, v) :: (k, w) :: t else (k, w) :: tabSet t n v

/-! ## Bytes -/

/-- Keys at or above this one are host bus addresses. -/
def hostBase : Nat := 2 ^ 64

/-- What an unlisted key reads as: host memory is the host's (log 4), all other memory reads zero (R347, R379). -/
def memDefault (a : Nat) : Byte := if hostBase ≤ a then Config.hostByte (a - hostBase) else 0

/-- The byte at a key. -/
def memGet : List (Nat × Byte) → Nat → Byte
  | [], a => memDefault a
  | (k, v) :: t, a => if k = a then v else memGet t a

/-- Memory with one byte changed; the canonical form lists no default. -/
def memSet : List (Nat × Byte) → Nat → Byte → List (Nat × Byte)
  | [], a, b => if b = memDefault a then [] else [(a, b)]
  | (k, v) :: t, a, b =>
    if a < k then (if b = memDefault a then (k, v) :: t else (a, b) :: (k, v) :: t)
    else if a = k then (if b = memDefault a then t else (a, b) :: t)
    else (k, v) :: memSet t a b

/-- Addresses rise strictly from above `lo`, and no entry equals its default. -/
def memWfFrom : Option Nat → List (Nat × Byte) → Bool
  | _, [] => true
  | lo, (k, v) :: t => (match lo with | none => true | some l => decide (l < k)) && decide (v ≠ memDefault k) && memWfFrom (some k) t

/-- The canonical form of memory. -/
def memWf (m : List (Nat × Byte)) : Bool := memWfFrom none m

/-- n bytes from a, as a little-endian number (R4). -/
def memNat (m : List (Nat × Byte)) (a : Nat) : Nat → Nat
  | 0 => 0
  | n + 1 => (memGet m a).toNat + 256 * memNat m (a + 1) n

/-- n bytes from a. -/
def memBytes (m : List (Nat × Byte)) (a : Nat) : Nat → List Byte
  | 0 => []
  | n + 1 => memGet m a :: memBytes m (a + 1) n

/-- Stores bytes from a upward. -/
def memPut (m : List (Nat × Byte)) (a : Nat) : List Byte → List (Nat × Byte)
  | [] => m
  | b :: t => memPut (memSet m a b) (a + 1) t

/-- The n low bytes of a number, little-endian. -/
def leBytes : Nat → Nat → List Byte
  | 0, _ => []
  | n + 1, v => BitVec.ofNat 8 v :: leBytes n (v / 256)

/-- A little-endian number from bytes. -/
def leNat : List Byte → Nat
  | [] => 0
  | b :: t => b.toNat + 256 * leNat t

/-! ## Window addresses (R57) and physical keys -/

/-- The window address of an offset in a region of core n, where n is die × 2,048 + cluster × 16 + core. -/
def winKey (n region off : Nat) : Nat :=
  0xFFFFF * 2 ^ 44 + n / 2048 * 2 ^ 42 + n % 2048 * 2 ^ 30 + region * 2 ^ 27 + off

/-- The key of a partition's physical address (R337). -/
def partKey (p ppa : Nat) : Nat := p * 2 ^ 48 + ppa

/-- The key of tile t, row r of core n (R58). -/
def tileKey (n t r : Nat) : Nat := winKey n 1 (t * 1024 + r * 64)

/-- The core that is a home, if it is one. -/
def coreOf : Home → Option Nat
  | .core n => some n
  | _ => none

/-- Where an address stands (R55). -/
inductive Place where
  | global (a : Nat)
  | window (core region off : Nat)
  | none
deriving DecidableEq, Repr

/-- Classification with the aliases resolved for the core `me` (R55, R57); a row field of 8 or more names no cluster. -/
def classify (me : Nat) (a : Word) : Place :=
  let v := a.toNat
  let top := v / 2 ^ 44
  let region := v / 2 ^ 27 % 8
  let off := v % 2 ^ 27
  if v < 2 ^ 49 then .global v
  else if top = 0xFFFFF then
    if v / 2 ^ 41 % 2 = 0 then .window (v / 2 ^ 42 % 4 * 2048 + v / 2 ^ 34 % 128 * 16 + v / 2 ^ 30 % 16) region off
    else .none
  else if top = 0xFFFFE then .window me region off
  else if top = 0xFFFFD then .window (me / 16 * 16 + v / 2 ^ 30 % 16) region off
  else .none

end Sys2Proof.Machine
end

