-- ==== Sys2Proof/Machine/Operands.lean ====
section
/-! DEFINITION. The state's accessors and every operand form: x registers with their shadow banks and mapped queues
(R49, R149, R187), guards (R158), masks (R213), v registers (R212), immediates (R131). -/

namespace Sys2Proof.Machine

open Sys2Proof

/-! ## Cores and contexts -/

def State.core (s : State) (n : Nat) : Core := tabGet Core.reset s.cores n
def State.setCore (s : State) (n : Nat) (c : Core) : State := { s with cores := tabSet s.cores n c }
def State.onCore (s : State) (n : Nat) (f : Core → Core) : State := s.setCore n (f (s.core n))
def State.cluster (s : State) (n : Nat) : Cluster := tabGet Cluster.reset s.clusters n
def State.onCluster (s : State) (n : Nat) (f : Cluster → Cluster) : State :=
  { s with clusters := tabSet s.clusters n (f (s.cluster n)) }
def Core.ctx (c : Core) (x : Nat) : Ctx := tabGet Ctx.empty c.ctxs x
def Core.setCtx (c : Core) (x : Nat) (v : Ctx) : Core := { c with ctxs := tabSet c.ctxs x v }
/-- Context x of core n. -/
def State.ctxAt (s : State) (n x : Nat) : Ctx := (s.core n).ctx x
def State.onCtx (s : State) (n x : Nat) (f : Ctx → Ctx) : State := s.onCore n fun c => c.setCtx x (f (c.ctx x))
/-- The context whose unit is being performed. -/
def State.cur (s : State) : Ctx := s.ctxAt s.iss.core s.iss.ctx
/-- The core whose unit is being performed. -/
def State.here (s : State) : Core := s.core s.iss.core
def State.onCur (s : State) (f : Ctx → Ctx) : State := s.onCtx s.iss.core s.iss.ctx f
def State.onHere (s : State) (f : Core → Core) : State := s.onCore s.iss.core f

/-! ## x registers -/

/-- What x5 to x8, the light-handler bank and the emulation bank are held in, after the swaps of a light handler and of an emulation
handler entered within it (R50, R313, R315). -/
def swapBanks (lh em : Bool) (b : Nat × Nat × Nat) : Nat × Nat × Nat :=
  let b := if lh then (b.2.1, b.1, b.2.2) else b
  if em then (b.2.2, b.2.1, b.1) else b
/-- Those of a thread outside its own handlers: the threads whose frames lie below it keep the swaps they stand in. -/
def Ctx.outer (c : Ctx) : Nat × Nat × Nat := c.frames.foldl (fun b g => swapBanks g.inLh g.inEm b) (0, 16, 32)
/-- The bank that x5 to x8 name (R50, R313). -/
def Ctx.bank (c : Ctx) : Nat := (swapBanks c.inLh c.inEm c.outer).1
/-- x5 to x8: the registers that banks and queues concern. -/
def banked (r : XReg) : Bool := 5 ≤ r.toNat && r.toNat ≤ 8
/-- The register of the file that a name reaches now. -/
def Ctx.tag (c : Ctx) (r : XReg) : Nat := if banked r then c.bank + r.toNat else r.toNat
/-- The register of the file that holds the thread's own register r, in a handler or not (R59, R313). -/
def Ctx.ownTag (c : Ctx) (r : Nat) : Nat := if 5 ≤ r ∧ r ≤ 8 then c.outer.1 + r else r
/-- The direction of the queue mapped on a register; none in a handler (R49, R187). -/
def Ctx.mapped (c : Ctx) (r : XReg) : Option Nat :=
  let n := c.qcfg.toNat / 16 ^ (r.toNat - 5) % 16
  if banked r && !c.inLh && !c.inEm && 8 ≤ n then some (n % 4) else none
/-- The handler a unit stands in, and the depth (R38, R315): units at two levels are never mistaken for each other. -/
def Ctx.level (c : Ctx) : Nat := c.frames.length * 4 + (if c.inEm then 2 else 0) + (if c.inLh then 1 else 0)
/-- The direction queue q maps for the units of the context; none in a light handler (R187). -/
def Ctx.queueOf (c : Ctx) (q : Nat) : Option Nat :=
  let n := c.qcfg.toNat / 16 ^ q % 16
  if 8 ≤ n && !c.inLh then some (n % 4) else none
/-- x5 and x6 are inbound (R186). -/
def inbound (r : XReg) : Bool := r.toNat == 5 || r.toNat == 6

def Ctx.regAt (c : Ctx) (t : Nat) : Word := c.x.toList.getD t 0
/-- A write of a register regenerates its parity (R373). -/
def Ctx.setRegAt (c : Ctx) (t : Nat) (v : Word) : Ctx := { c with x := c.x.set! t v, bad := c.bad &&& ~~~ (1#48 <<< t) }
def Ctx.markFull (c : Ctx) (t : Nat) : Ctx := { c with fe := c.fe ||| (1#48 <<< t) }
def Ctx.markEmpty (c : Ctx) (t : Nat) : Ctx := { c with fe := c.fe &&& ~~~ (1#48 <<< t) }

/-- A register without its queue: x0 reads zero (R149). -/
def Ctx.reg (c : Ctx) (r : XReg) : Word := if r = 0 then 0 else c.regAt (c.tag r)
/-- A write of a register without its queue: x0 discards it; the register becomes full (R28). -/
def Ctx.setReg (c : Ctx) (r : XReg) (v : Word) : Ctx :=
  if r = 0 then c else (c.setRegAt (c.tag r) v).markFull (c.tag r)

/-- The queue of a direction. -/
def Core.inbound (c : Core) (d : Nat) : List QWord := tabGet [] c.inq d
def Core.outbound (c : Core) (d : Nat) : List QWord := tabGet [] c.outq d

/-- What a source register gives: the head word of a mapped inbound queue, or the register (R49). -/
def State.rd (s : State) (r : XReg) : Word :=
  match s.cur.mapped r with
  | some d => if inbound r then (match s.here.inbound d with | w :: _ => w.2.1 | [] => 0) else s.cur.reg r
  | none => s.cur.reg r

/-- A push on an outbound queue; a full queue holds the push (R187). -/
def State.push (s : State) (d : Nat) (w : QWord) : State :=
  if (s.here.outbound d).length < 8 then s.onHere fun c => { c with outq := tabSet c.outq d (c.outbound d ++ [w]) }
  else s.onCur fun c => { c with heldPush := c.heldPush ++ [(d, w)] }

/-- A result: pushed on a mapped outbound queue, or written to the register (R49, R187). -/
def State.wr (s : State) (r : XReg) (v : Word) : State :=
  match s.cur.mapped r with
  | some d => if inbound r then s else s.push d (false, v, 0)
  | none => s.onCur (·.setReg r v)

/-- One word popped from the queue a source register maps, if it does. -/
def State.popOne (s : State) (r : XReg) : State :=
  match s.cur.mapped r with
  | some d => if inbound r then s.onHere fun c => { c with inq := tabSet c.inq d (c.inbound d).tail } else s
  | none => s

/-- Each mapped inbound register among the sources pops one word, even if named twice (R187). -/
def State.pops (s : State) (srcs : List XReg) : State :=
  let s := if srcs.contains 5 then s.popOne 5 else s
  if srcs.contains 6 then s.popOne 6 else s

/-- Reading a mapped outbound register or writing a mapped inbound one (R187). -/
def State.misuse (s : State) (srcs dsts : List XReg) : Bool :=
  srcs.any (fun r => (s.cur.mapped r).isSome && !inbound r) || dsts.any (fun r => (s.cur.mapped r).isSome && inbound r)

/-! ## Guards and masks -/

/-- g0 reads true (R158). -/
def Ctx.guard (c : Ctx) (n : GReg) : Bool := if n = 0 then true else c.g.getLsbD n.toNat
/-- A write of g0 is discarded. -/
def Ctx.setGuard (c : Ctx) (n : GReg) (b : Bool) : Ctx :=
  if n = 0 then c
  else { c with g := if b then c.g ||| (1#8 <<< n.toNat) else c.g &&& ~~~ (1#8 <<< n.toNat) }
/-- g7 to g0 as a byte; bit 0 is 1 (R161). -/
def Ctx.guards (c : Ctx) : BitVec 8 := c.g ||| 1#8

/-- k0 reads all ones (R213). -/
def Ctx.mask (c : Ctx) (n : KReg) : Word := if n = 0 then BitVec.allOnes 64 else c.k.toList.getD n.toNat 0
/-- A write of k0 is discarded. -/
def Ctx.setMask (c : Ctx) (n : KReg) (v : Word) : Ctx := if n = 0 then c else { c with k := c.k.set! n.toNat v }

/-! ## v registers -/

/-- The stepped number of a v field on the current replay (R231); compat E1-03 steps it mod 16 within its tile (R148). -/
def State.vr (s : State) (f : VReg) : Nat :=
  match s.cur.frame with
  | none => f.toNat
  | some fr =>
    let t := s.cur.lease.length
    if s.here.level = 1 ∧ s.here.compat.testBit 0 then f.toNat / 16 * 16 + (f.toNat + fr.r * fr.stag) % 16
    else if t = 0 then f.toNat else (f.toNat + fr.r * fr.stag) % (16 * t)

/-- The physical row (tile × 16 + row) of v number n, if the lease has it (R20, R212). -/
def Ctx.phys (c : Ctx) (n : Nat) : Option Nat := (c.lease[n / 16]?).map fun t => t * 16 + n % 16

/-- The 64 bytes of a physical row of core n. -/
def State.rowAt (s : State) (n p : Nat) : Row := BitVec.ofNat 512 (memNat s.mem (tileKey n (p / 16) (p % 16)) 64)
/-- A row is written, with the parity of what is written (R373). -/
def State.setRowAt (s : State) (n p : Nat) (v : Row) : State :=
  { s with mem := memPut s.mem (tileKey n (p / 16) (p % 16)) (leBytes 64 v.toNat),
           parity := s.parity.filter fun w => w / 8 != tileKey n (p / 16) (p % 16) / 64 }
/-- Dword i of a row is written whole under a mask. -/
def wholeWord (m : Row) (i : Nat) : Bool := m.toNat / 2 ^ (64 * i) % 2 ^ 64 == 2 ^ 64 - 1
/-- The bits of a row that a mask names are written; parity is regenerated for the 8-byte units written whole (R373). -/
def State.setLanes (s : State) (n p : Nat) (v m : Row) : State :=
  { s with mem := memPut s.mem (tileKey n (p / 16) (p % 16)) (leBytes 64 ((s.rowAt n p &&& ~~~ m) ||| (v &&& m)).toNat),
           parity := s.parity.filter fun w => !(w / 8 == tileKey n (p / 16) (p % 16) / 64 && wholeWord m (w % 8)) }
/-- Some word of n bytes from a key has failed its parity. -/
def State.parityFails (s : State) (key n : Nat) : Bool :=
  s.parity.any fun w => decide (key / 8 ≤ w) && decide (w ≤ (key + n - 1) / 8)
def Core.tile (c : Core) (t : Nat) : Tile := tabGet Tile.fresh c.tiles t
def Core.setTile (c : Core) (t : Nat) (v : Tile) : Core := { c with tiles := tabSet c.tiles t v }
/-- The type code of the tile that holds physical row p of core n (R214). -/
def State.rowTy (s : State) (n p : Nat) : Nat := ((s.core n).tile (p / 16)).ty

/-! ## Identities and immediates -/

/-- The identity of a context (R15), but for its probe bit. -/
def ident (n x : Nat) : Nat := n * 16 + x
/-- tp and TSELF 0 (R15). -/
def State.identity (s : State) : Word :=
  BitVec.ofNat 64 (ident s.iss.core s.iss.ctx + if s.cur.probe then 2 ^ 63 else 0)

/-- A sign-extended 12-bit immediate. -/
def immI (i : BitVec 12) : Word := i.signExtend 64
/-- An upper immediate, sign-extended (R150). -/
def immU (i : BitVec 20) : Word := (i ++ 0#12).signExtend 64
/-- A branch offset from its bits 12 to 1. -/
def immB (i : BitVec 12) : Word := (i ++ 0#1).signExtend 64
/-- A jump offset from its bits 20 to 1. -/
def immJ (i : BitVec 20) : Word := (i ++ 0#1).signExtend 64

/-- The address of the emulation handler, 0 when there is none (R168). -/
def Core.emvec (c : Core) : Word := if c.hoff = 0 then 0 else c.abase + c.hoff

end Sys2Proof.Machine
end

