-- ==== Sys2Proof/Machine/Flags.lean ====
section
/-! DEFINITION. fcsr and its flags (R98, R99), the rounding modes, and the flag computations that instructions share. -/

namespace Sys2Proof.Machine

open Sys2Proof

/-- The five sticky flags: NV, DZ, OF, UF, NX from bit 4 down (R98). -/
abbrev Flags := BitVec 5

def flNX : Flags := 1
def flUF : Flags := 2
def flOF : Flags := 4
def flDZ : Flags := 8
def flNV : Flags := 16

/-- The dynamic rounding mode (R98). -/
def Ctx.frm (c : Ctx) : Nat := c.fcsr.toNat / 32
/-- A result write ORs its flags into fcsr (R99). -/
def Ctx.orFlags (c : Ctx) (f : Flags) : Ctx := { c with fcsr := c.fcsr ||| f.zeroExtend 8 }
def State.orFlags (s : State) (f : Flags) : State := s.onCur (·.orFlags f)

/-- The mode of a rounding-mode field: 0 RNE, 1 RTZ, 2 RDN, 3 RUP; 7 takes frm (R98). -/
def State.mode (s : State) (r : BitVec 3) : Nat := if r = 7 then s.cur.frm else r.toNat

/-- A unit that rounds by frm raises 0x01 while frm holds 4 to 7 (R98). -/
def frmBroken (c : Ctx) : Bool := 4 ≤ c.frm

/-- Instructions that round by frm without a field (R98), and those whose field is dynamic. -/
def readsFrm : Instr → Bool
  | .faddS _ _ _ r | .fsubS _ _ _ r | .fmulS _ _ _ r | .fdivS _ _ _ r | .fmaddS _ _ _ _ r => r == 7
  | .fsqrtS _ _ r | .fcvtWS _ _ r | .fcvtLS _ _ r | .fcvtSW _ _ r | .fcvtSL _ _ r => r == 7
  | .vadd _ _ _ _ | .vsub _ _ _ _ | .vmul _ _ _ _ | .vfma _ _ _ _ | .vfms _ _ _ _ | .vcvt _ _ _ _ _ => true
  | _ => false

end Sys2Proof.Machine
end

