-- ==== Sys2Proof/Machine/Float.lean ====
section
/-! DEFINITION. Floating arithmetic on exact values (R95 to R102, R108): a format's values as integers times powers of two,
one rounding at the end, and the flags of R99. -/

namespace Sys2Proof.Machine

/-- A floating format (R95): exponent and fraction widths, bias, whether the top exponent is reserved for infinities and
NaNs, and the bit pattern of the largest finite magnitude and of the canonical NaN. -/
structure Fmt where
  ew : Nat
  fw : Nat
  bias : Nat
  ieee : Bool
  maxFin : Nat
  nan : Nat
deriving DecidableEq, Repr

def f32 : Fmt := ⟨8, 23, 127, true, 0x7F7FFFFF, 0x7FC00000⟩
def f16 : Fmt := ⟨5, 10, 15, true, 0x7BFF, 0x7E00⟩
def bf16 : Fmt := ⟨8, 7, 127, true, 0x7F7F, 0x7FC0⟩
def f8e4 : Fmt := ⟨4, 3, 7, false, 0x7E, 0x7F⟩
def f8e5 : Fmt := ⟨5, 2, 15, true, 0x7B, 0x7E⟩
def f4 : Fmt := ⟨2, 1, 1, false, 0x7, 0x7⟩

/-- The format of a code (R62); codes of no float give f32. -/
def fmtOf (c : Nat) : Fmt :=
  if c = 2 then f16 else if c = 3 then bf16 else if c = 4 then f8e4 else if c = 5 then f8e5 else f32
/-- The code names a float format. -/
def isFloat (c : Nat) : Bool := 1 ≤ c && c ≤ 5
/-- Bytes of an element (R62). -/
def elemBytes (c : Nat) : Nat := if c = 1 ∨ c = 8 then 4 else if c = 2 ∨ c = 3 then 2 else 1

/-- Width of a format in bits. -/
def Fmt.width (f : Fmt) : Nat := 1 + f.ew + f.fw
/-- The sign bit set on a magnitude. -/
def Fmt.sgn (f : Fmt) (neg : Bool) (mag : Nat) : Nat := if neg then 2 ^ (f.ew + f.fw) + mag else mag
/-- The infinity's magnitude. -/
def Fmt.infMag (f : Fmt) : Nat := (2 ^ f.ew - 1) * 2 ^ f.fw

/-- A value: NaN (signalling or quiet), an infinity, or (−1)^neg × m × 2^e. -/
inductive FVal where
  | nan (sig : Bool)
  | inf (neg : Bool)
  | fin (neg : Bool) (m : Nat) (e : Int)
deriving DecidableEq, Repr

/-- The value of a bit pattern (R95). Only f32, f16 and bf16 have signalling NaNs (R99). -/
def Fmt.decode (f : Fmt) (bits : Nat) : FVal :=
  let neg := bits / 2 ^ (f.ew + f.fw) % 2 == 1
  let e := bits / 2 ^ f.fw % 2 ^ f.ew
  let m := bits % 2 ^ f.fw
  if f.ieee && e == 2 ^ f.ew - 1 then
    if m = 0 then .inf neg else .nan (decide (7 ≤ f.fw) && decide (m < 2 ^ (f.fw - 1)))
  else if f.ew == 4 && bits % 128 == 127 then .nan false
  else if e = 0 then .fin neg m (1 - (f.bias : Int) - f.fw)
  else .fin neg (2 ^ f.fw + m) ((e : Int) - f.bias - f.fw)

/-- Bits of a number. -/
def bitLen (n : Nat) : Nat := if n = 0 then 0 else n.log2 + 1

/-- Whether a remainder rounds the magnitude up: modes 0 RNE, 1 RTZ, 2 RDN, 3 RUP (R98). -/
def roundsUp (mode : Nat) (neg odd : Bool) (rem half : Nat) : Bool :=
  if mode = 0 then decide (half < rem) || (rem == half && odd && rem != 0)
  else if mode = 1 then false
  else if mode = 2 then neg && rem != 0
  else !neg && rem != 0

/-- m × 2^e rounded to a multiple of 2^q: the multiple, and whether it is inexact. -/
def roundAt (mode : Nat) (neg : Bool) (m : Nat) (e q : Int) : Nat × Bool :=
  if q ≤ e then (m * 2 ^ (e - q).toNat, false)
  else
    let k := (q - e).toNat
    let t := m / 2 ^ k
    let r := m % 2 ^ k
    (if roundsUp mode neg (t % 2 == 1) r (2 ^ (k - 1)) then t + 1 else t, r != 0)

/-- The overflow result of a mode, and of a saturating conversion (R102): a magnitude. In f8e4 an infinity is the
canonical NaN. -/
def Fmt.overflow (f : Fmt) (mode : Nat) (sat neg : Bool) : Nat :=
  let toMax := sat || mode == 1 || (mode == 2 && !neg) || (mode == 3 && neg)
  if toMax then f.sgn neg f.maxFin else if f.ieee then f.sgn neg f.infMag else f.nan

/-- (−1)^neg × m × 2^e rounded once to a format, with flags (R99): OF when the result rounded with unbounded exponent
exceeds the largest finite, UF when it is tiny after rounding and inexact. -/
def Fmt.round (f : Fmt) (mode : Nat) (sat neg : Bool) (m : Nat) (e : Int) : Nat × Flags :=
  if m = 0 then (f.sgn neg 0, 0)
  else
    let top := e + bitLen m - 1
    let emin : Int := 1 - f.bias
    let q := max top emin - f.fw
    let r := roundAt mode neg m e q
    let sub := q == emin - f.fw
    let mag : Nat := if sub then r.1 else (q + f.fw + f.bias).toNat * 2 ^ f.fw + r.1 - 2 ^ f.fw
    if f.maxFin < mag then (f.overflow mode sat neg, flOF ||| flNX)
    else
      let u := roundAt mode neg m e (top - f.fw)
      let tiny := decide (top < emin) && decide ((u.1 : Int) * 2 ^ ((top + 1 - emin).toNat) < 2 ^ (f.fw + 1) ∨ top + 1 < emin)
      (f.sgn neg mag, (if r.2 then flNX else 0) ||| (if r.2 && tiny then flUF else 0))

/-- NV when an operand is a signalling NaN. -/
def nvIf (b : Bool) : Flags := if b then flNV else 0
def FVal.sig : FVal → Bool
  | .nan s => s
  | _ => false
def FVal.isNan : FVal → Bool
  | .nan _ => true
  | _ => false
def FVal.neg : FVal → Bool
  | .nan _ => false
  | .inf n => n
  | .fin n _ _ => n
def FVal.isZero : FVal → Bool
  | .fin _ 0 _ => true
  | _ => false

/-- A signed integer times 2^e. -/
def FVal.int (neg : Bool) (m : Nat) : Int := if neg then -(m : Int) else m

/-- The sum of two exact values, rounded once; `z` is the sign of an exact zero sum of unlike signs under the mode. -/
def Fmt.sum (f : Fmt) (mode : Nat) (an : Bool) (am : Nat) (ae : Int) (bn : Bool) (bm : Nat) (be : Int) : Nat × Flags :=
  let e := min ae be
  let v := FVal.int an (am * 2 ^ (ae - e).toNat) + FVal.int bn (bm * 2 ^ (be - e).toNat)
  if v = 0 then
    let neg := if am = 0 ∧ bm = 0 ∧ an = bn then an else mode == 2
    (f.sgn neg 0, 0)
  else f.round mode false (decide (v < 0)) v.natAbs e

/-- a + b (R99, R100). -/
def Fmt.add (f : Fmt) (mode : Nat) (a b : FVal) : Nat × Flags :=
  match a, b with
  | .nan _, _ | _, .nan _ => (f.nan, nvIf (a.sig || b.sig))
  | .inf x, .inf y => if x = y then (f.sgn x f.infMag, 0) else (f.nan, flNV)
  | .inf x, .fin _ _ _ => (f.sgn x f.infMag, 0)
  | .fin _ _ _, .inf y => (f.sgn y f.infMag, 0)
  | .fin x m e, .fin y n d => f.sum mode x m e y n d

def FVal.negate : FVal → FVal
  | .nan s => .nan s
  | .inf n => .inf (!n)
  | .fin n m e => .fin (!n) m e

/-- a × b. -/
def Fmt.mul (f : Fmt) (mode : Nat) (a b : FVal) : Nat × Flags :=
  match a, b with
  | .nan _, _ | _, .nan _ => (f.nan, nvIf (a.sig || b.sig))
  | .inf x, .inf y => (f.sgn (x != y) f.infMag, 0)
  | .inf x, .fin y m _ => if m = 0 then (f.nan, flNV) else (f.sgn (x != y) f.infMag, 0)
  | .fin x m _, .inf y => if m = 0 then (f.nan, flNV) else (f.sgn (x != y) f.infMag, 0)
  | .fin x m e, .fin y n d => f.round mode false (x != y) (m * n) (e + d)

/-- a × b + c with one rounding. -/
def Fmt.fma (f : Fmt) (mode : Nat) (a b c : FVal) : Nat × Flags :=
  let sig := a.sig || b.sig || c.sig
  let bad := match a, b with
    | .inf _, .fin _ 0 _ | .fin _ 0 _, .inf _ => true
    | _, _ => false
  let pn := a.neg != b.neg
  if a.isNan || b.isNan then (f.nan, nvIf sig)
  else if bad then (f.nan, if c.isNan then nvIf (sig || Config.fmaNv) else flNV)
  else if c.isNan then (f.nan, nvIf sig)
  else match a, b, c with
    | .fin x m e, .fin y n d, .fin z k g => f.sum mode (x != y) (m * n) (e + d) z k g
    | .fin _ _ _, .fin _ _ _, .inf z => (f.sgn z f.infMag, 0)
    | _, _, .inf z => if pn = z then (f.sgn z f.infMag, 0) else (f.nan, flNV)
    | _, _, _ => (f.sgn pn f.infMag, 0)

/-- a ÷ b: an exact quotient with enough bits, and a sticky bit below. -/
def Fmt.div (f : Fmt) (mode : Nat) (a b : FVal) : Nat × Flags :=
  match a, b with
  | .nan _, _ | _, .nan _ => (f.nan, nvIf (a.sig || b.sig))
  | .inf _, .inf _ => (f.nan, flNV)
  | .inf x, .fin y _ _ => (f.sgn (x != y) f.infMag, 0)
  | .fin x _ _, .inf y => (f.sgn (x != y) 0, 0)
  | .fin x m e, .fin y n d =>
    if n = 0 then (if m = 0 then (f.nan, flNV) else (f.sgn (x != y) f.infMag, flDZ))
    else if m = 0 then (f.sgn (x != y) 0, 0)
    else
      let t := m * 2 ^ 64
      f.round mode false (x != y) (t / n * 4 + (if t % n = 0 then 0 else 1)) (e - d - 66)

/-- The integer square root of n, by its bits from 2^k down. -/
def isqrt (n : Nat) : Nat → Nat → Nat
  | 0, r => if (r + 1) * (r + 1) ≤ n then r + 1 else r
  | k + 1, r => isqrt n k (if (r + 2 ^ (k + 1)) * (r + 2 ^ (k + 1)) ≤ n then r + 2 ^ (k + 1) else r)

/-- √a. -/
def Fmt.sqrt (f : Fmt) (mode : Nat) (a : FVal) : Nat × Flags :=
  match a with
  | .nan s => (f.nan, nvIf s)
  | .inf n => if n then (f.nan, flNV) else (f.infMag, 0)
  | .fin n m e =>
    if m = 0 then (f.sgn n 0, 0)
    else if n then (f.nan, flNV)
    else
      let k : Nat := if e % 2 = 0 then 96 else 97
      let t := m * 2 ^ k
      let r := isqrt t 62 0
      f.round mode false false (r * 4 + (if r * r = t then 0 else 1)) ((e - k) / 2 - 2)

/-! ## Comparisons (R156, R218) -/

/-- a < b and a = b of two values that are not NaN. -/
def FVal.lt (a b : FVal) : Bool :=
  match a, b with
  | .inf x, .inf y => x && !y
  | .inf x, _ => x
  | _, .inf y => !y
  | .fin x m e, .fin y n d =>
    let g := min e d
    decide (FVal.int x (m * 2 ^ (e - g).toNat) < FVal.int y (n * 2 ^ (d - g).toNat))
  | _, _ => false
def FVal.eq (a b : FVal) : Bool := !a.isNan && !b.isNan && !a.lt b && !b.lt a

/-- The smaller (or larger) of two values: −0 is below +0, a NaN gives way to the other operand (R156). -/
def Fmt.minMax (f : Fmt) (isMax : Bool) (x y : Nat) : Nat × Flags :=
  let a := f.decode x
  let b := f.decode y
  let fl := nvIf (a.sig || b.sig)
  if a.isNan && b.isNan then (f.nan, fl)
  else if a.isNan then (y, fl)
  else if b.isNan then (x, fl)
  else
    let less := a.lt b || (!b.lt a && a.neg && !b.neg)
    (if less != isMax then x else y, fl)

/-! ## Conversions (R65, R102) -/

/-- Float to float: `quirk` is compat flag E2-07's NaN (R148). Formats of one width, neither of which holds the other's values, round
and flag as a narrowing conversion does (log 52). -/
def cvtFF (src dst : Fmt) (mode : Nat) (sat quirk : Bool) (bits : Nat) : Nat × Flags :=
  match src.decode bits with
  | .nan s => (if quirk then 0x7E else dst.nan, nvIf s)
  | .inf n =>
    if dst.ieee then (dst.sgn n dst.infMag, 0)
    else if sat then (dst.sgn n dst.maxFin, flNX) else (dst.nan, flNV)
  | .fin n m e => dst.round mode sat n m e

/-- A value rounded to an integer. -/
def roundInt (mode : Nat) (neg : Bool) (m : Nat) (e : Int) : Int × Bool :=
  let r := roundAt mode neg m e 0
  (FVal.int neg r.1, r.2)

/-- Float to a signed integer of w bits, saturating; `nanVal` is what a NaN gives. -/
def cvtFI (src : Fmt) (w : Nat) (mode : Nat) (nanVal : Int) (bits : Nat) : Int × Flags :=
  let hi : Int := 2 ^ (w - 1) - 1
  let lo : Int := -(2 ^ (w - 1))
  match src.decode bits with
  | .nan _ => (nanVal, flNV)
  | .inf n => (if n then lo else hi, flNV)
  | .fin n m e =>
    let r := roundInt mode n m e
    if hi < r.1 then (hi, flNV) else if r.1 < lo then (lo, flNV) else (r.1, if r.2 then flNX else 0)

/-- Integer to float. -/
def cvtIF (dst : Fmt) (mode : Nat) (sat : Bool) (v : Int) : Nat × Flags :=
  dst.round mode sat (decide (v < 0)) v.natAbs 0

/-- Integer to a narrower integer: wraps or saturates; no flag (R94). -/
def cvtII (w : Nat) (sat : Bool) (v : Int) : Int :=
  if sat then max (-(2 ^ (w - 1))) (min (2 ^ (w - 1) - 1) v) else v

/-- The integer of w low bits. -/
def sInt (w bits : Nat) : Int := (BitVec.ofNat w bits).toInt
/-- The w low bits of an integer. -/
def uBits (w : Nat) (v : Int) : Nat := (BitVec.ofInt w v).toNat

/-- One element from format code a to format code b (R65, R102): rounding mode, saturation, the E2-07 quirk. An integer beyond the
largest finite value of a float obeys `sat` as a float does (log 53). -/
def cvtElem (a b mode : Nat) (sat quirk : Bool) (bits : Nat) : Nat × Flags :=
  let wa := elemBytes a * 8
  let wb := elemBytes b * 8
  if a = 0 ∨ b = 0 then (bits, 0)
  else if isFloat a && isFloat b then cvtFF (fmtOf a) (fmtOf b) mode sat quirk bits
  else if isFloat a then
    let r := cvtFI (fmtOf a) wb mode 0 bits
    (uBits wb r.1, r.2)
  else if isFloat b then cvtIF (fmtOf b) mode sat (sInt wa bits)
  else (uBits wb (cvtII wb sat (sInt wa bits)), 0)

/-- A conversion of R65: RNE, saturating. -/
def cvtRow (a b : Nat) (bits : Nat) : Nat × Flags := cvtElem a b 0 true false bits

/-! ## Special functions (R108): fixed point with 240 fraction bits -/

/-- ⌊ln 2 × 2^240⌋. -/
def ln2Fix : Nat :=
  0xb17217f7d1cf79abc9e3b39803f2f6af40f343267298b62d8a0d175b8baa

/-- Σ t^k / k! for k from i on, with term `u`. -/
def expSeries (t : Nat) : Nat → Nat → Nat → Nat
  | 0, _, _ => 0
  | n + 1, k, u => u + expSeries t n (k + 1) (u * t / 2 ^ 240 / k)

/-- 2^fr × 2^240 for a fraction fr of 240 bits. -/
def exp2Fix (fr : Nat) : Nat := expSeries (fr * ln2Fix / 2 ^ 240) 64 1 (2 ^ 240)

/-- Σ y^(2k+1) / (2k+1), with power `u` of y. -/
def atanhSeries (y2 : Int) : Nat → Nat → Int → Int
  | 0, _, _ => 0
  | n + 1, k, u => u / (2 * k + 1) + atanhSeries y2 n (k + 1) (u * y2 / 2 ^ 240)

/-- log2(m × 2^e) × 2^240 for m > 0: the mantissa is scaled into [3/4, 3/2). -/
def log2Fix (m : Nat) (e : Int) : Int :=
  let l := bitLen m
  let v : Nat := if 240 ≤ l - 1 then m / 2 ^ (l - 1 - 240) else m * 2 ^ (240 - (l - 1))
  let big := 3 * 2 ^ 239 ≤ v
  let w : Nat := if big then v / 2 else v
  let ex : Int := e + l - 1 + (if big then 1 else 0)
  let y : Int := ((w : Int) - 2 ^ 240) * 2 ^ 240 / ((w : Int) + 2 ^ 240)
  ex * 2 ^ 240 + 2 * atanhSeries (y * y / 2 ^ 240) 60 0 y * 2 ^ 240 / (ln2Fix : Int)

/-- exp2, correctly rounded under RNE. -/
def sfExp2 (a : FVal) : Nat × Flags :=
  match a with
  | .nan s => (f32.nan, nvIf s)
  | .inf n => (if n then 0 else f32.infMag, 0)
  | .fin n m e =>
    let v : Int := FVal.int n (m * 2 ^ (e + 240).toNat)
    if m = 0 then (0x3F800000, 0)
    else if 128 * 2 ^ 240 ≤ v then (f32.infMag, flOF ||| flNX)
    else if v < -(200 * 2 ^ 240) then (0, flUF ||| flNX)
    else
      let i := v / 2 ^ 240
      let fr := (v % 2 ^ 240).toNat
      if fr = 0 then f32.round 0 false false 1 i
      else f32.round 0 false false (exp2Fix fr * 4 + 1) (i - 242)

/-- log2, correctly rounded under RNE. -/
def sfLog2 (a : FVal) : Nat × Flags :=
  match a with
  | .nan s => (f32.nan, nvIf s)
  | .inf n => if n then (f32.nan, flNV) else (f32.infMag, 0)
  | .fin n m e =>
    if m = 0 then (f32.sgn true f32.infMag, flDZ)
    else if n then (f32.nan, flNV)
    else
      let l := bitLen m - 1
      if m = 2 ^ l then
        let v : Int := e + l
        f32.round 0 false (decide (v < 0)) v.natAbs 0
      else
        let v := log2Fix m e
        f32.round 0 false (decide (v < 0)) (v.natAbs * 4 + 1) (-242)

/-- 1 / a. -/
def sfRcp (a : FVal) : Nat × Flags := f32.div 0 (.fin false 1 0) a

/-- 1 / √a: a zero keeps its sign in the infinity (R108). -/
def sfRsqrt (a : FVal) : Nat × Flags :=
  match a with
  | .nan s => (f32.nan, nvIf s)
  | .inf n => if n then (f32.nan, flNV) else (0, 0)
  | .fin n m e =>
    if m = 0 then (f32.sgn n f32.infMag, flDZ)
    else if n then (f32.nan, flNV)
    else
      let odd := e % 2 != 0
      let m2 := if odd then m * 2 else m
      let e2 := if odd then e - 1 else e
      let t := 2 ^ 160 / m2
      let r := isqrt t 80 0
      f32.round 0 false false (r * 4 + (if r * r * m2 = 2 ^ 160 then 0 else 1)) (-(e2 / 2) - 82)

/-- √a under RNE. -/
def sfSqrt (a : FVal) : Nat × Flags := f32.sqrt 0 a

/-- tanh: the fixed composition of R108, each step rounded. -/
def sfTanh (x : Nat) : Nat × Flags :=
  match f32.decode x with
  | .nan s => (f32.nan, nvIf s)
  | .inf n => (f32.sgn n 0x3F800000, 0)
  | .fin n _ _ =>
    let ax := x % 2 ^ 31
    if (f32.decode ax).lt (.fin false 1 (-12)) then (x, 0)
    else
      let a := f32.mul 0 (f32.decode 0xC038AA3B) (f32.decode ax)
      let e := sfExp2 (f32.decode a.1)
      let one : FVal := .fin false 1 0
      let p := f32.add 0 one (f32.decode e.1).negate
      let d := f32.add 0 one (f32.decode e.1)
      let r := sfRcp (f32.decode d.1)
      let y := f32.mul 0 (f32.decode p.1) (f32.decode r.1)
      (f32.sgn n (y.1 % 2 ^ 31), a.2 ||| e.2 ||| p.2 ||| d.2 ||| r.2 ||| y.2 ||| flNX)

/-- An SFU function on an f32 pattern: 0 exp2, 1 log2, 2 rcp, 3 rsqrt, 4 sqrt, 5 tanh. -/
def sfuFn (fn : Nat) (x : Nat) : Nat × Flags :=
  let a := f32.decode x
  if fn = 0 then sfExp2 a else if fn = 1 then sfLog2 a else if fn = 2 then sfRcp a
  else if fn = 3 then sfRsqrt a else if fn = 4 then sfSqrt a else sfTanh x

end Sys2Proof.Machine
end

