-- ==== Sys2Proof/Machine/Ops.lean ====
section
/-! DEFINITION. Retiring a unit, taking a trap (R311 to R320), returning from a handler (R189, R314), and the small
operations every meaning shares. -/

namespace Sys2Proof.Machine

open Sys2Proof

/-! ## Retiring -/

/-- The pc and frame after a unit: the next replay step of a frame in progress, else the next unit (R231, R232). -/
def Ctx.advance (c : Ctx) (npc : Word) : Ctx :=
  match c.frame with
  | none => { c with pc := npc }
  | some f =>
    if f.pos + 1 < f.len then { c with pc := npc, frame := some { f with pos := f.pos + 1 } }
    else if f.r + 1 < f.count then { c with pc := f.start, frame := some { f with pos := 0, r := f.r + 1 } }
    else { c with pc := npc, frame := none }

/-- What is kept of a unit of this level that has not retired is kept no more. -/
def Ctx.forget (c : Ctx) : Ctx :=
  { c with posting := c.posting.filter (·.2 != c.level), desc := c.desc.filter (·.level != c.level) }

/-- A unit retires and counts in instret (R168). -/
def Ctx.retire (c : Ctx) (npc : Word) : Ctx :=
  { c.forget.advance npc with instret := c.instret + 1, bwait := if c.inLh || c.inEm then c.bwait else none }

/-- The performed unit retires at the next unit. -/
def State.retire (s : State) : State := s.onCur (·.retire s.iss.npc)
/-- The performed unit retires and continues elsewhere. -/
def State.retireTo (s : State) (pc : Word) : State := s.onCur (·.retire pc)

/-! ## SFU results (R230) -/

/-- A result is written with its flags; the row is pending no more. -/
def State.sfuLand (s : State) (n x : Nat) (r : SfuRes) : State :=
  (s.setRowAt n r.row r.data).onCtx n x fun c =>
    let c := { c with pendV := c.pendV.erase r.row }
    if c.uid = r.uid then c.orFlags r.flags
    else { c with frames := c.frames.map fun g => if g.uid = r.uid then { g with fcsr := g.fcsr ||| r.flags.zeroExtend 8 } else g }
/-- Results held while a thread was parked or saved are written as it goes on. -/
def State.sfuFlush (s : State) (n x : Nat) : State :=
  let l := (s.ctxAt n x).sfuHeld
  (l.foldl (fun s r => s.sfuLand n x r) s).onCtx n x fun c => { c with sfuHeld := [] }

/-! ## Team faults -/

/-- A fault record (R320): the thread's identity [tp, member, kind, depth], flags lh and emu, cause, unit offset, value. -/
def faultRecord (idn member kind depth : Nat) (eng lh emu : Bool) (cause : Nat) (off : Word) (value index : Word)
    (cycle : Nat) : FRecord :=
  [BitVec.ofNat 64 (member * 2 ^ 32 + idn % 2 ^ 17 * 256 + cause), off &&& 0xFFFFFFFF, value, index, BitVec.ofNat 64 cycle,
   BitVec.ofNat 64 (kind * 4096 + depth * 256 + (if eng then 4 else 0) + (if lh then 2 else 0) + (if emu then 1 else 0)),
   0, 0]

/-- One more fault on a core whose latch is full (R319): the count in dword5[63:32] rises, saturating. -/
def bumpRecord (r : FRecord) : FRecord :=
  r.modify 5 fun d => if d.toNat / 2 ^ 32 = 2 ^ 32 - 1 then d else d + 0x100000000

/-- A thread's identity as a record names it (R320): ident, member, kind, depth, and the handlers its unit stands in. -/
def Ctx.who (c : Ctx) (n x : Nat) : List Nat :=
  [ident n x, c.member, c.kind, c.frames.length, if c.inLh then 1 else 0, if c.inEm then 1 else 0]
/-- The identity of the issuing thread. -/
def State.whoNow (s : State) : List Nat := s.cur.who s.iss.core s.iss.ctx
/-- The record of an identity. -/
def recordOf (who : List Nat) (eng : Bool) (cause : Nat) (off : Word) (value index : Word) (cycle : Nat) : FRecord :=
  faultRecord (who.getD 0 0) (who.getD 1 0) (who.getD 2 0) (who.getD 3 0) eng (who.getD 4 0 == 1) (who.getD 5 0 == 1)
    cause off value index cycle

/-- A core that faults stops at once and latches its first record (R319). -/
def Core.latch (c : Core) (r : FRecord) : Core :=
  { c with stop := true, cstate := 3, faulted := true, flatch := if c.flatch = [] then r else bumpRecord c.flatch }

def Team.empty : Team :=
  { phase := .none, faulted := false, saving := false, launch := 0, block := 0, number := 0, die := 0, vf := 0, part := 0, shape := 0,
    cores := [], bars := [], costart := 0, lastWave := 0, totals := none, agreed := false, born := 0, began := 0, ran := 0,
    digest := 0, holding := false, scrub := false, seq := 0, icePost := [], iceDone := [] }
/-- What the team has queued and not begun is discarded, and every completion with it (R319); so it is while a discard stops the team
(R332). -/
def Team.ending (m : Team) : Bool := m.faulted || (m.phase == .stopping && !m.saving)
def State.team (s : State) (t : Nat) : Team := tabGet Team.empty s.teams t
def State.onTeam (s : State) (t : Nat) (f : Team → Team) : State := { s with teams := tabSet s.teams t (f (s.team t)) }
/-- The team a core belongs to, or an empty one. -/
def State.teamOf (s : State) (n : Nat) : Team := match (s.core n).team with | some t => s.team t | none => Team.empty

/-- The command at the head of a copy engine that has not begun: it counts as queued (R258). One that a translation has
parked has begun, and begins again (R260, R342). -/
def Core.copyWaits (c : Core) : Option Command :=
  match c.copyRun with
  | some r => if r.begun || r.parked then none else some r
  | none => none

/-- Commands not begun leave a faulted team's core; each counts as received (R52, R319). SFU entries are discarded. -/
def Core.discard (c : Core) : Core :=
  { c with copyq := [], copyRun := if c.copyWaits.isSome then none else c.copyRun,
           recv := c.recv + c.copyq.length + (if c.copyWaits.isSome then 1 else 0), sfuq := [], sfuPipe := [],
           ctxs := c.ctxs.map fun p => (p.1, { p.2 with trig := [], sfuHeld := [] }) }

/-- The commands of the team's cores that wait in a cluster unit (R319). -/
def Cluster.discard (k : Cluster) (cores : List Nat) : Cluster :=
  { k with amuq := k.amuq.filter (fun r => !cores.contains r.core),
           iceq := k.iceq.filter (fun r => !cores.contains r.core) }

/-- ICE commands of a core that a discard removes count as received at that core (R52). -/
def State.recvIce (s : State) (cores : List Nat) (cl : Nat) : State :=
  ((s.cluster cl).iceq.filter fun r => cores.contains r.core).foldl (fun s r => s.onCore r.core fun c => { c with recv := c.recv + 1 }) s

/-- What the team has queued and not begun leaves its cores and the units of their clusters (R319). -/
def State.discardAll (s : State) (cores : List Nat) : State :=
  let s := cores.foldl (fun s c => s.onCore c Core.discard) s
  (cores.map (· / 16)).dedup.foldl (fun s cl => (s.recvIce cores cl).onCluster cl fun k => k.discard cores) s

/-- The team of a faulting core is faulted: the stop travels to its other cores, and what it queued is discarded. -/
def State.faultTeam (s : State) (n : Nat) : State :=
  match (s.core n).team with
  | none => s
  | some t =>
    let cores := (s.team t).cores
    (s.onTeam t fun m => { m with faulted := true, phase := .stopping, agreed := false }).discardAll cores

/-- A team fault on core n (R319, R320): the core latches the record of an identity, and its team stops. `eng` marks one raised
on behalf of an engine command (R312). -/
def State.whoFault (s : State) (n : Nat) (who : List Nat) (eng : Bool) (cause : Nat) (value upc : Word) : State :=
  (s.onCore n (·.latch (recordOf who eng cause (upc - (s.core n).abase) value (s.teamOf n).block s.cycle))).faultTeam n

/-- A team fault that a thread raises, for the end of the cycle: a kill that reaches the thread in this cycle goes first (R312). -/
def State.raise (s : State) (n uid : Nat) (who : List Nat) (cause : Nat) (value upc : Word) : State :=
  { s with raised := s.raised ++ [{ core := n, uid := uid, who := who, cause := cause, value := value, upc := upc }] }
/-- A team fault raised by the thread of a context at a unit: it issues no more. -/
def State.threadFault (s : State) (n x : Nat) (cause : Nat) (value upc : Word) : State :=
  (s.raise n (s.ctxAt n x).uid ((s.ctxAt n x).who n x) cause value upc).onCtx n x fun c => { c with st := .ending }

/-- A team fault raised for an engine command, against the thread that posted it (R75, R312): its identity as posted. -/
def State.engineFault (s : State) (n : Nat) (who : List Nat) (cause : Nat) (value upc : Word) : State :=
  s.whoFault n who true cause value upc

/-! ## Threads by their number -/

/-- The context a thread runs in now, as core and context (R28: a fill goes where the thread stands). -/
def State.whereIs (s : State) (uid : Nat) : Option (Nat × Nat) :=
  (s.cores.findSome? fun c => (c.2.ctxs.find? fun x => x.2.uid == uid).map fun x => (c.1, x.1))
/-- The context that keeps a frame of a thread (R38). -/
def State.keptBy (s : State) (uid : Nat) : Option (Nat × Nat) :=
  (s.cores.findSome? fun c => (c.2.ctxs.find? fun x => x.2.frames.any (·.uid == uid)).map fun x => (c.1, x.1))
/-- The context a thread stands in, running or in a saved frame. -/
def State.holder (s : State) (uid : Nat) : Option (Nat × Nat) := (s.whereIs uid).orElse fun _ => s.keptBy uid
/-- A change of the saved frame of a thread. -/
def Ctx.onFrame (c : Ctx) (uid : Nat) (f : Saved → Saved) : Ctx :=
  { c with frames := c.frames.map fun g => if g.uid = uid then f g else g }
/-- The thread on its way between cores, if it is one (R47). -/
def State.moving (s : State) (uid : Nat) : Option Migration := s.migs.find? (·.uid == uid)
/-- A change of the context of a thread that runs or is on its way between cores. -/
def State.onThread (s : State) (uid : Nat) (f : Ctx → Ctx) : State :=
  match s.whereIs uid with
  | some (n, x) => s.onCtx n x f
  | none => { s with migs := s.migs.map fun m => if m.uid = uid then { m with ctx := f m.ctx } else m }
/-- The context of a thread that runs or is on its way between cores, and its core. -/
def State.threadOf (s : State) (uid : Nat) : Option (Nat × Ctx) :=
  match s.whereIs uid with
  | some (n, x) => some (n, s.ctxAt n x)
  | none => (s.moving uid).map fun m => (m.fromCore, m.ctx)
/-- The identity of a saved frame: the depth is the frame's own (R320). -/
def Saved.who (g : Saved) (n x d : Nat) : List Nat :=
  [ident n x, g.member, g.kind, d, if g.inLh then 1 else 0, if g.inEm then 1 else 0]
/-- A team fault of a thread, running, in a saved frame or on its way (R319, R320); a thread that is no more raises none. -/
def State.uidFault (s : State) (uid cause : Nat) (value upc : Word) : State :=
  match s.whereIs uid, s.keptBy uid, s.moving uid with
  | some (n, x), _, _ => s.threadFault n x cause value upc
  | none, some (n, x), _ =>
    let l := (s.ctxAt n x).frames
    match l.find? (·.uid == uid) with
    | some g => s.raise n uid (g.who n x (l.findIdx (·.uid == uid))) cause value upc
    | none => s
  | none, none, some m => s.raise m.fromCore uid (m.ctx.who m.fromCore m.fromCtx) cause value upc
  | none, none, none => s

/-- The team faults raised in a cycle are latched at its end, in the order they came; that of a thread that is no more is discarded
(R312, R319). -/
def State.latchRaised (s : State) : State :=
  s.raised.foldl (fun s r => if (s.holder r.uid).isSome || (s.moving r.uid).isSome then s.whoFault r.core r.who false r.cause r.value r.upc else s)
    { s with raised := [] }

/-! ## Taking a trap -/

/-- Entering the emulation handler (R313): the saved registers, the bank of x5 to x8, the handler's pc; a frame in
progress is abandoned (R232). -/
def Ctx.enterEmulation (c : Ctx) (cause : Nat) (upc bits vec : Word) : Ctx :=
  let c := { c.forget with emepc := upc, emcause := BitVec.ofNat 64 cause, emval := bits, inEm := true, frame := none }
  let c := ((c.setReg 5 c.emcause).setReg 6 bits).setReg 7 upc
  { c.markFull (c.tag 8) with pc := vec }

/-- ONE operation for every trap a unit raises (R311, R315): 0x01 and 0x02 enter the emulation handler when there is one,
are 0x12 inside it, and are team faults without one; 0x11 parks the thread for Dyore; every other cause here is a team
fault that carries `value`. (0x05 parks by the translation's own operation, which files the fault.) -/
def State.trap (s : State) (cause : Nat) (value : Word) : State :=
  if cause = 1 ∨ cause = 2 then
    if s.cur.inEm then s.threadFault s.iss.core s.iss.ctx 0x12 s.iss.bits s.iss.upc
    else if s.here.emvec = 0 then s.threadFault s.iss.core s.iss.ctx cause s.iss.bits s.iss.upc
    else s.onCur fun c => c.enterEmulation cause s.iss.upc s.iss.bits s.here.emvec
  else if cause = 0x11 then s.onCur fun c => { c with st := .ecall, pc := s.iss.upc, wnpc := s.iss.npc }
  else s.threadFault s.iss.core s.iss.ctx cause value s.iss.upc

/-- The outcome of a unit that raises a trap. -/
def State.trapOut (s : State) (cause : Nat) (value : Word) : Out := .next (s.trap cause value)

/-! ## Shapes shared by the meanings -/

/-- A unit that reads x registers and writes one: queue misuse is trap 0x0E, else the sources pop, the result is written
and the unit retires (R187). -/
def State.put (s : State) (srcs : List XReg) (d : XReg) (v : Word) : Out :=
  if s.misuse srcs [d] then s.trapOut 0x0E 0 else .next ((s.pops srcs).wr d v).retire

/-- As `put`, for the instructions whose forms with destination x0 are RISC-V HINTs: those are no-ops (R139). -/
def State.alu (s : State) (srcs : List XReg) (d : XReg) (v : Word) : Out := if d = 0 then .next s.retire else s.put srcs d v

/-- As `put`, with flags (R99). -/
def State.putF (s : State) (srcs : List XReg) (d : XReg) (v : Word) (f : Flags) : Out :=
  if s.misuse srcs [d] then s.trapOut 0x0E 0 else .next (((s.pops srcs).wr d v).orFlags f).retire

/-- A transfer: taken or not, with an optional link (R153). -/
def State.jump (s : State) (srcs : List XReg) (d : XReg) (taken : Bool) (target : Word) : Out :=
  if s.misuse srcs [d] then s.trapOut 0x0E 0
  else .next (((s.pops srcs).wr d s.iss.npc).retireTo (if taken then target else s.iss.npc))

/-- A unit that only changes its context, and retires. -/
def State.alter (s : State) (srcs : List XReg) (f : Ctx → Ctx) : Out :=
  if s.misuse srcs [] then s.trapOut 0x0E 0 else .next ((s.pops srcs).onCur f).retire

/-- Leaving the light handler (R50, R189): x5 to x8 name the thread's own again, and it resumes at hepc. -/
def Ctx.leaveLight (c : Ctx) : Ctx := { c with inLh := false, pc := c.hepc, instret := c.instret + 1 }

/-- Leaving the emulation handler (R314). -/
def Ctx.leaveEmulation (c : Ctx) : Ctx := { c with inEm := false, pc := c.emepc, frame := none, instret := c.instret + 1 }

/-- Entering the light handler (R50): t0 the cause, t1 the value, t2 the interrupted pc. -/
def Ctx.enterLight (c : Ctx) (cause value : Word) : Ctx :=
  let c := { c with inLh := true, hepc := c.pc, hcause := cause }
  let c := ((c.setReg 5 cause).setReg 6 value).setReg 7 c.pc
  { c with pc := c.hvec }

end Sys2Proof.Machine
end

