-- ==== Sys2Proof/Machine/Translate.lean ====
section
/-! DEFINITION. Partition physical space, homes, translation, faults and their service (R69, R337 to R343, R347). -/

namespace Sys2Proof.Machine

open Sys2Proof

/-- Bits hi to lo of a word, as a number. -/
def bitsOf (w : Word) (hi lo : Nat) : Nat := w.toNat / 2 ^ lo % 2 ^ (hi - lo + 1)

/-! ## Partitions -/

/-- Width, height, column and row of a partition's rectangle (R347); nothing while it does not exist. -/
def State.partRect (s : State) (p : Nat) : Nat × Nat × Nat × Nat :=
  let w := tabGet 0 s.parts p
  if w.getLsbD 63 || bitsOf w 61 60 != 0 then (bitsOf w 21 16, bitsOf w 15 11, bitsOf w 8 4, bitsOf w 3 0) else (0, 0, 0, 0)
/-- The number of slices of a partition (R69). -/
def State.slices (s : State) (p : Nat) : Nat := (s.partRect p).1 * (s.partRect p).2.1
/-- The cluster (die × 128 + cluster) at a global router row and column (R10). -/
def clusterAt (row col : Nat) : Nat := (row / 8 * 2 + col / 16) * 128 + row % 8 * 16 + col % 16
/-- The global router row and column of a cluster (R10). -/
def routerOf (cl : Nat) : Nat × Nat := (cl / 256 * 8 + cl % 128 / 16, cl / 128 % 2 * 16 + cl % 16)
/-- The clusters of a partition in the order of its slices (R69). -/
def State.partClusters (s : State) (p : Nat) : List Nat :=
  let (w, h, c, r) := s.partRect p
  (List.range (w * h)).map fun i => clusterAt (r + i / w) (c + i % w)
/-- The bytes a partition has (R337). -/
def State.capacity (s : State) (p : Nat) : Nat := s.slices p * (768 * 2 ^ 20)
/-- The home slice of a physical line (R69, R337). -/
def State.homeSlice (s : State) (p ppa : Nat) : Home :=
  let l := ppa % 2 ^ 49 / 128
  let h := (l ^^^ (l / 2 ^ 16) ^^^ (l / 2 ^ 32)) % 2 ^ 16
  .slice p (h * s.slices p / 2 ^ 16)

/-! ## Entries (R339, R340) -/

/-- Bits of an address below a leaf of a level. -/
def levelBits (l : Nat) : Nat := if l = 1 then 38 else if l = 2 then 27 else 16
/-- The partition of a VF (R338, R348). -/
def State.vfPart (s : State) (v : Nat) : Nat := bitsOf (tabGet 0 s.troot v) 5 0

/-- A valid entry at a level breaks a rule of R340. -/
def State.malformed (s : State) (p l : Nat) (e : Word) : Bool :=
  let leaf := e.getLsbD 1
  let sealedBit := e.getLsbD 3
  let host := e.getLsbD 4
  let key := bitsOf e 15 8
  let frame := bitsOf e 59 16 * 2 ^ 16
  bitsOf e 63 60 != 0 || bitsOf e 7 6 != 0 || (!leaf && l == 3) || (!leaf && bitsOf e 15 2 != 0) ||
    (leaf && frame % 2 ^ levelBits l != 0) || (sealedBit && (host || key == 0)) || (!sealedBit && key != 0) ||
    (!host && s.capacity p ≤ frame)

/-- A translation the cluster's TLB holds. -/
def State.tlbFind (s : State) (cl vf va : Nat) : Option TlbEntry :=
  (s.cluster cl).tlb.find? fun t => t.vf == vf && t.page == va / 2 ^ levelBits t.level

/-- A translation the die's TLB holds; the cluster takes it over without a walk. -/
def State.dieFind (s : State) (cl vf va : Nat) : Option TlbEntry :=
  (tabGet [] s.dieTlb (cl / 128)).find? fun t => t.vf == vf && t.page == va / 2 ^ levelBits t.level

/-- Where a translated access goes: key, home, key slot (0 unsealed), stream access, PTE write. -/
structure Phys where
  key : Nat
  home : Home
  slot : Nat
  stream : Bool
  write : Bool
deriving DecidableEq, Repr

/-- The place of a virtual address under a leaf (R340). -/
def State.leafPhys (s : State) (vf va : Nat) (t : TlbEntry) : Phys :=
  let b := levelBits t.level
  let pa := bitsOf t.entry 59 16 * 2 ^ 16 / 2 ^ b * 2 ^ b + va % 2 ^ b
  let p := s.vfPart vf
  let host := t.entry.getLsbD 4
  { key := if host then hostBase + pa else partKey p pa, home := if host then .host else s.homeSlice p pa,
    slot := if t.entry.getLsbD 3 then bitsOf t.entry 15 8 else 0, stream := t.entry.getLsbD 5, write := t.entry.getLsbD 2 }

/-- A translation from either TLB (R341). -/
def State.translate (s : State) (cl vf va : Nat) : Option Phys :=
  match s.tlbFind cl vf va with
  | some t => some (s.leafPhys vf va t)
  | none => (s.dieFind cl vf va).map (s.leafPhys vf va)

/-! ## Walks and faults -/

/-- A walk from the root of the VF (R338). -/
def State.startWalk (s : State) (cl vf va : Nat) (write : Bool) (who : Waiter) : State :=
  { s with walks := s.walks ++ [{ vf := vf, va := va, write := write, cl := cl, level := 1,
                                  table := bitsOf (tabGet 0 s.troot vf) 48 16 * 2 ^ 16, who := who }] }

/-- The issuing context waits for a walk; its unit does not issue (R340, R342), and a frame it stands in goes on with it (log 70). -/
def State.walkCur (s : State) (va : Nat) (write : Bool) : State :=
  let s := s.startWalk (s.iss.core / 16) (s.teamOf s.iss.core).vf va write (.ctx s.iss.core s.iss.ctx s.cur.uid)
  s.onCur fun c => { c with st := .walk }

/-- At most n entries, the oldest leaving first (R341: eviction is the machine's own). -/
def tlbInsert (n : Nat) (l : List TlbEntry) (t : TlbEntry) : List TlbEntry :=
  let k := l.filter (· ≠ t)
  (if n ≤ k.length then k.tail else k) ++ [t]

/-- Pages held at their walkers because the fault queue of a die is full, and walks of the die (R341, R342). -/
def State.walkersHeld (s : State) (d : Nat) : Nat := (s.fq.filter fun e => e.die == d && e.index.isNone).length
/-- The walks of a die in arrival order; the first 128, less the held ones, have a walker (R341). -/
def State.walking (s : State) (i : Nat) : Bool :=
  match s.walks[i]? with
  | none => false
  | some w => decide (((s.walks.take i).filter fun v => v.cl / 128 == w.cl / 128).length + s.walkersHeld (w.cl / 128) < 128)
/-- A die has an idle walker. -/
def State.walkerIdle (s : State) (d : Nat) : Bool :=
  decide ((s.walks.filter fun w => w.cl / 128 == d).length + s.walkersHeld d < 128)

/-- Marks of a command that a translation has stopped or released. -/
def Command.setParked (c : Command) (b : Bool) : Command := { c with parked := b }

/-- The context holds this thread, stopped at a translation. -/
def Ctx.stoppedAt (c : Ctx) (u : Nat) : Bool := c.uid == u && (c.st == .walk || c.st == .parked)

/-- A waiter leaves every walk and every fault-queue entry. -/
def State.unqueue (s : State) (w : Waiter) : State :=
  { s with walks := s.walks.filter (·.who != w), fq := s.fq.map fun e => { e with waiters := e.waiters.filter (·.1 != w) } }

/-- A waiter goes on: a context attempts its unit again, an engine begins its command again. -/
def State.release (s : State) : Waiter → State
  | .ctx n x u => if (s.ctxAt n x).stoppedAt u then (s.sfuFlush n x).onCtx n x fun c => { c with st := .run } else s
  | .copy n => s.onCore n fun c => { c with copyRun := c.copyRun.map (·.setParked false) }
  | .ice cl => s.onCluster cl fun k => { k with iceRun := k.iceRun.map (·.setParked false) }
  | .grout cl => s.onCluster cl fun k => { k with groutWalk := false }
  | .ahead cl => s.onCluster cl fun k => { k with iceAhead := k.iceAhead.map (·.setParked false) }
  | .debug n x u => s.onCtx n x fun c => if c.uid = u then { c with st := .ecall } else c
  | .remote p => { s with transfers := s.transfers.map fun q => if q.id = p then { q with parked := false } else q }
  | .pref _ _ _ _ _ => s

/-- A waiter parks (R342). -/
def State.parkWaiter (s : State) : Waiter → State
  | .ctx n x u => s.onCtx n x fun c => if c.stoppedAt u then { c with st := .parked } else c
  | _ => s

/-- The first of k indexes from i on, modulo 4,096, that no entry of a die has. -/
def State.fqFree (s : State) (d : Nat) : Nat → Nat → Option Nat
  | 0, _ => none
  | k + 1, i => if s.fq.any fun e => e.die == d && e.index == some i then State.fqFree s d k ((i + 1) % 4096) else some i
/-- The index the die fills next (R338, R342): the first free one from its tail on; none while the queue is full. -/
def State.fqIndex (s : State) (d : Nat) : Option Nat := s.fqFree d 4096 (tabGet 0 s.fqTail d)

/-- One more waiter on an entry. -/
def FqEntry.add (e : FqEntry) (w : Walk) : FqEntry := { e with waiters := e.waiters ++ [(w.who, w.va)], wr := e.wr || w.write }

/-- A prefetch is dropped where another access would park (R202), and an ICE looks up its next chunk's pages again at its turn (R266). -/
def Waiter.drops : Waiter → Bool
  | .pref _ _ _ _ _ | .ahead _ => true
  | _ => false

/-- The die of a walk finds or makes the entry of (VF, page) (R342). -/
def State.fileFault (s : State) (w : Walk) (bad : Bool) : State :=
  if w.who.drops then s else
  let d := w.cl / 128
  let page := w.va / 2 ^ 16
  let same := fun e : FqEntry => e.die == d && e.vf == w.vf && e.page == page
  let s := s.parkWaiter w.who
  if s.fq.any same then { s with fq := s.fq.map fun e => if same e then e.add w else e }
  else
    let i := s.fqIndex d
    let s := { s with fq := s.fq ++ [{ die := d, index := i, vf := w.vf, page := page, level := w.level, bad := bad,
                                       wr := w.write, waiters := [(w.who, w.va)] }] }
    match i with
    | some k => { s with fqTail := tabSet s.fqTail d ((k + 1) % 4096) }
    | none => s

/-- The clusters of the partition of a VF. -/
def State.vfClusters (s : State) (v : Nat) : List Nat := s.partClusters (s.vfPart v)

/-- An entry of a VF, any of them or one that holds an address (R343). -/
def TlbEntry.covered (t : TlbEntry) (v : Nat) (va : Option Nat) : Bool :=
  t.vf == v && (match va with | none => true | some a => t.page == a / 2 ^ levelBits t.level)
/-- A command that has not begun gives up the covered translations it has found. -/
def Command.unmap (c : Command) (v : Nat) (va : Option Nat) : Command := { c with maps := c.maps.filter (!·.covered v va) }
/-- Engines that wait to begin look the covered pages up again (R343). -/
def State.unmap (s : State) (v : Nat) (va : Option Nat) : State :=
  { s with cores := s.cores.map fun c => (c.1, { c.2 with copyRun := c.2.copyRun.map (·.unmap v va) }),
           clusters := s.clusters.map fun k => (k.1, { k.2 with
             iceRun := k.2.iceRun.map (·.unmap v va), iceAhead := k.2.iceAhead.map (·.unmap v va),
             groutq := k.2.groutq.map fun e => { e with maps := e.maps.filter (!·.covered v va) } }),
           transfers := s.transfers.map fun q => { q with maps := q.maps.filter (!·.covered v va) } }
/-- The covered entries leave every TLB of the partition (R343). -/
def State.tlbDrop (s : State) (v : Nat) (va : Option Nat) : State :=
  let cls := s.vfClusters v
  let s := s.unmap v va
  let s := cls.foldl (fun s cl => s.onCluster cl fun k => { k with tlb := k.tlb.filter (!·.covered v va) }) s
  { s with dieTlb := s.dieTlb.map fun d => if cls.any (fun cl => cl / 128 == d.1) then (d.1, d.2.filter (!·.covered v va)) else d }

/-- A page held at its walker takes a freed place in the queue, in arrival order (R342). -/
def State.fqAdmit (s : State) (d : Nat) : State :=
  match s.fq.find? (fun e => e.die == d && e.index.isNone), s.fqIndex d with
  | some e, some i =>
    { s with fq := s.fq.map (fun f => if f = e then { f with index := some i } else f),
             fqTail := tabSet s.fqTail d ((i + 1) % 4096) }
  | _, _ => s

end Sys2Proof.Machine
end

