-- ==== Sys2Proof/Machine/Slice.lean ====
section
/-! DEFINITION. Slices: line marks and victims (R71, R72), sealed lines and their key slots (R352 to R359), poison (R74). -/

namespace Sys2Proof.Machine

open Sys2Proof

/-! ## Poison, per aligned 8-byte word of a key -/

def State.poisoned (s : State) (key : Nat) : Bool := s.poison.contains (key / 8)
/-- Some word of n bytes from a key is poisoned. -/
def State.poisonedAny (s : State) (key n : Nat) : Bool :=
  (List.range ((key % 8 + n + 7) / 8)).any fun i => s.poison.contains (key / 8 + i)
def State.setPoison (s : State) (key : Nat) (b : Bool) : State :=
  if b then { s with poison := s.poison.insert (key / 8) } else { s with poison := s.poison.filter (· != key / 8) }

/-- A store at a key: bytes change, and a store of all 8 bytes of a word clears its poison and regenerates its parity (R74, R373). -/
def State.putBytes (s : State) (key : Nat) (bytes : List Byte) : State :=
  let s := { s with mem := memPut s.mem key bytes }
  if bytes.length = 8 ∧ key % 8 = 0 then
    State.setPoison { s with parity := s.parity.filter (· != key / 8) } key false
  else s

/-- Every word that lies whole in n bytes from a key loses its poison (R74). -/
def State.clearWhole (s : State) (key n : Nat) : State :=
  (List.range (n / 8 + 1)).foldl (fun s i =>
    let w := (key + 7) / 8 + i
    if 8 * w + 8 ≤ key + n then s.setPoison (8 * w) false else s) s

/-! ## Key slots -/

def KeySlot.empty : KeySlot :=
  { valid := false, revoking := false, model := 0, base := 0, size := 0, key1 := 0, key2 := 0, digs := [] }
def State.keySlot (s : State) (p k : Nat) : KeySlot := tabGet KeySlot.empty s.keySlots (p * 256 + k)
def State.onSlot (s : State) (p k : Nat) (f : KeySlot → KeySlot) : State :=
  { s with keySlots := tabSet s.keySlots (p * 256 + k) (f (s.keySlot p k)) }

/-- A team is bound to a slot when its digest is one of the slot's (R352). -/
def State.boundTo (s : State) (t : Team) (k : Nat) : Bool :=
  t.digest != 0 && (s.keySlot t.part k).valid && (s.keySlot t.part k).digs.contains t.digest

/-- A sealed access is permitted to a team at an address (R354, R356, R358): bound, slot valid, inside its range. -/
def State.sealedOk (s : State) (t : Team) (k va : Nat) : Bool :=
  let ks := s.keySlot t.part k
  s.boundTo t k && !ks.revoking && ks.base ≤ va && va < ks.base + ks.size

/-! ## Sealed lines: one AES-XTS data unit of 8 blocks (R356) -/

def tweakOf (k : KeySlot) (vline : Nat) : Nat := k.model.toNat * 2 ^ 64 + (vline * 128 - k.base) / 128

/-- The 8 blocks of a line under a block function. -/
def xtsBlocks (f : Nat → BitVec 128 → BitVec 128) (b : List Byte) : List Byte :=
  (List.range 8).flatMap fun j => leBytes 16 (f j (BitVec.ofNat 128 (leNat ((b.drop (16 * j)).take 16)))).toNat

def cipherOf (k : KeySlot) (vline : Nat) (b : List Byte) : List Byte :=
  xtsBlocks (Config.xtsEnc (k.key1 * 2 ^ 256 + k.key2) (tweakOf k vline)) b
def plainOf (k : KeySlot) (vline : Nat) (b : List Byte) : List Byte :=
  xtsBlocks (Config.xtsDec (k.key1 * 2 ^ 256 + k.key2) (tweakOf k vline)) b

/-- A line leaves the slice: a dirty sealed line is written back encrypted (R357); what an unsealed one holds stands in `mem`. -/
def State.writeBack (s : State) (p : Nat) (l : SLine) : State :=
  if l.slot ≠ 0 ∧ l.dirty then { s with mem := memPut s.mem (l.line * 128) (cipherOf (s.keySlot p l.slot) l.vline l.plain) } else s

/-! ## Line marks (R71, R72) -/

/-- A partition physical address at or beyond its partition's capacity names nothing (R337). -/
def State.named (s : State) (p key : Nat) : Bool := decide (partKey p 0 ≤ key) && decide (key < partKey p 0 + s.capacity p)
/-- Bytes that nothing holds: free values (R337; log 44). -/
def State.nowhere (s : State) (key n : Nat) : List Byte :=
  (List.range n).map fun i => (Config.freeWord (s.arrivals * 2 ^ 64 + key + i)).truncate 8
/-- n bytes of partition storage from a key. -/
def State.cells (s : State) (p key n : Nat) : List Byte := if s.named p key then memBytes s.mem key n else s.nowhere key n

/-- The slice that homes something: a table key. -/
def sliceNo (p i : Nat) : Nat := p * 512 + i
def State.slice (s : State) (p i : Nat) : List SLine := tabGet [] s.l2 (sliceNo p i)
def State.setSlice (s : State) (p i : Nat) (l : List SLine) : State := { s with l2 := tabSet s.l2 (sliceNo p i) l }

/-- The victim among lines that qualify: lowest priority, then least recently used. -/
def victim : List SLine → Option SLine
  | [] => none
  | l :: t =>
    match victim t with
    | none => some l
    | some m => if l.prio < m.prio ∨ (l.prio = m.prio ∧ l.used < m.used) then some l else some m

/-- The lines of one set; a slice that holds fewer than a set's ways needs no look at sets. -/
def setOf (l : List SLine) (line : Nat) : List SLine :=
  if l.length < 12 then l else l.filter fun m => Config.sliceSet m.line = Config.sliceSet line

/-- A line under another key slot is written back and dropped before an access (R357). -/
def State.dropOther (s : State) (p i line slot : Nat) : State :=
  match (s.slice p i).find? (fun l => l.line == line && l.slot != slot) with
  | some l => (s.writeBack p l).setSlice p i ((s.slice p i).filter (·.line != line))
  | none => s
/-- A kept line more is left room for among lines of a set: at most 12 are kept (R72). -/
def keepRoom (set : List SLine) : Bool := decide ((set.filter (·.keep)).length < 12)
/-- A line as it comes into a slice. -/
def State.newLine (s : State) (p line slot vline prio : Nat) (keep : Bool) : SLine :=
  { line := line, prio := prio, keep := keep, slot := slot, vline := vline,
    plain := if slot = 0 then [] else plainOf (s.keySlot p slot) vline (memBytes s.mem (line * 128) 128), dirty := false, used := s.clock }
/-- A missed line is allocated, in place of a victim when its set is full (R71); the marks of R72 count the lines that stay. -/
def State.allocate (s : State) (p i line slot vline prio hint : Nat) : State :=
  let ls := s.slice p i
  let set := setOf ls line
  if set.length < 16 then s.setSlice p i (ls ++ [s.newLine p line slot vline prio (hint == 2 && keepRoom set)])
  else
    match victim (set.filter fun m => decide (m.prio ≤ prio) && (!m.keep || hint == 2)) with
    | none => s
    | some v =>
      (s.writeBack p v).setSlice p i (ls.filter (· ≠ v) ++
        [s.newLine p line slot vline prio (hint == 2 && keepRoom (set.filter (· ≠ v)))])
/-- An access at its home slice: priority, hint (0 normal, 1 stream, 2 keep). A line under another key slot is written back
and dropped first (R357); a hit may raise marks, a miss may allocate (R71), with at most 12 kept lines a set (R72). -/
def State.touch (s : State) (p i line slot vline prio hint : Nat) : State :=
  let s := State.dropOther { s with clock := s.clock + 1 } p i line slot
  match (s.slice p i).find? (·.line == line) with
  | some l =>
    let l := { l with used := s.clock, prio := if hint = 1 then l.prio else max l.prio prio,
                      keep := l.keep || (hint == 2 && keepRoom (setOf (s.slice p i) line)) }
    s.setSlice p i ((s.slice p i).map fun m => if m.line = line then l else m)
  | none => if hint = 1 then s else s.allocate p i line slot vline prio hint

/-- The plaintext a sealed access finds: in the slice's line, or straight from memory when none was allocated. -/
def State.sealedLine (s : State) (p i line slot vline : Nat) : List Byte :=
  match (s.slice p i).find? (fun l => l.line == line && l.slot == slot) with
  | some l => l.plain
  | none => plainOf (s.keySlot p slot) vline (memBytes s.mem (line * 128) 128)

/-- n bytes at a key of a slice, under a key slot (0: as they stand in memory). -/
def State.sliceBytes (s : State) (p i key slot va n : Nat) : List Byte :=
  if !s.named p key then s.nowhere key n
  else if slot = 0 then memBytes s.mem key n
  else ((s.sealedLine p i (key / 128) slot (va / 128)).drop (key % 128)).take n

/-- Bytes written at a key of a slice under a key slot; without a line they are encrypted into memory at once. A word written
whole is not poisoned any more (R74). -/
def State.sliceWrite (s : State) (p i key slot va : Nat) (bytes : List Byte) : State :=
  if !s.named p key then s
  else if slot = 0 then
    let ls := s.slice p i
    (if ls.any (fun l => l.line == key / 128 && !l.dirty) then
      s.setSlice p i (ls.map fun l => if l.line = key / 128 then { l with dirty := true } else l)
    else s).putBytes key bytes
  else
    let s := s.clearWhole key bytes.length
    let line := key / 128
    let old := s.sealedLine p i line slot (va / 128)
    let new := old.take (key % 128) ++ bytes ++ old.drop (key % 128 + bytes.length)
    let ls := s.slice p i
    if ls.any (fun l => l.line == line && l.slot == slot) then
      s.setSlice p i (ls.map fun l => if l.line = line then { l with plain := new, dirty := true } else l)
    else { s with mem := memPut s.mem (line * 128) (cipherOf (s.keySlot p slot) (va / 128) new) }

/-- A write performed at a slice ends every reservation over a line it writes (R208); a reservation holds the lines' addresses,
`lines` their numbers. -/
def State.breakResv (s : State) (p i : Nat) (lines : List Nat) : State :=
  { s with resv := s.resv.filter fun r => !(r.slice == (p, i) && r.lines.any (fun l => lines.contains (l / 128))) }

/-- The team of a core has read a sealed page: it is holding from now on (R359). -/
def State.hold (s : State) (n slot : Nat) : State :=
  match (s.core n).team with
  | some t => if slot = 0 then s else s.onTeam t fun m => { m with holding := true }
  | none => s

end Sys2Proof.Machine
end

