-- ==== Sys2Proof/Machine/Rows.lean ====
section
/-! DEFINITION. Rows as they travel: lanes, bank formats, granules (R62 to R65, R90), and the words a request stands at. -/

namespace Sys2Proof.Machine

open Sys2Proof

/-! ## Lanes and formats -/

/-- Lane width in bits of a tile type (R212). -/
def laneBits (ty : Nat) : Nat := if ty = 2 ∨ ty = 3 then 16 else 32
/-- Lanes of a tile type. -/
def laneCount (ty : Nat) : Nat := if ty = 2 ∨ ty = 3 then 32 else 16
/-- Bits lo to lo + w − 1 of a row. -/
def rowField (r : Row) (lo w : Nat) : Nat := r.toNat / 2 ^ lo % 2 ^ w
/-- A row with w bits at lo replaced. -/
def rowWith (r : Row) (lo w v : Nat) : Row :=
  BitVec.ofNat 512 (r.toNat - rowField r lo w * 2 ^ lo + v % 2 ^ w * 2 ^ lo)

/-- The bank format that governs a key of core n's scratchpad (R62, R63); 0 for anything that moves unchanged. -/
def Core.bankFmt (c : Core) (off : Nat) : Nat := c.bfmt.toNat / 16 ^ (off / 2 ^ 15) % 16
def State.keyFmt (s : State) (h : Home) (key : Nat) : Nat :=
  match h with
  | .core n =>
    if key / 2 ^ 27 % 8 = 0 then
      let f := (s.core n).bankFmt (key % 2 ^ 18)
      if f = 6 then 0 else f
    else 0
  | _ => 0

/-- Granules of n bytes from an address whose rows begin at `off`; each granule holds `step` lanes or bytes. -/
def granules (addr off step fmt : Nat) : Nat → List Part
  | 0 => []
  | n + 1 => { addr := addr, n := 8, off := off, fmt := fmt } :: granules (addr + 8) (off + step) step fmt n

/-- The granules of a row or element access, with the formats of this moment (R63, R64, R90, R221). -/
def State.expand (s : State) (h : Home) (addr ty : Nat) (els : List (Nat × Nat)) (whole : Bool) : List Part :=
  if whole then
    let f := s.keyFmt h addr
    if f = 0 then granules addr 0 8 0 8
    else granules addr 0 (8 / elemBytes f) f (laneCount ty * elemBytes f / 8)
  else els.map fun p =>
    let f := s.keyFmt h p.2
    if f = 0 then { addr := p.2, n := laneBits ty / 8, off := p.1 * (laneBits ty / 8), fmt := 0 }
    else { addr := p.2, n := elemBytes f, off := p.1, fmt := f }

/-- The bytes of a granule land in a row, converted when it has a format (R65). -/
def landPart (ty : Nat) (p : Part) (bytes : List Byte) (row : Row) : Row × Flags :=
  if p.fmt = 0 then (rowWith row (p.off * 8) (p.n * 8) (leNat bytes), 0)
  else
    let e := elemBytes p.fmt
    (List.range (p.n / e)).foldl (fun a k =>
      let v := cvtRow p.fmt ty (leNat ((bytes.drop (k * e)).take e))
      (rowWith a.1 ((p.off + k) * laneBits ty) (laneBits ty) v.1, a.2 ||| v.2)) (row, 0)

/-- The bytes a granule of a row store writes, converted when it has a format (R65). -/
def leavePart (ty : Nat) (p : Part) (row : Row) : List Byte × Flags :=
  if p.fmt = 0 then (leBytes p.n (rowField row (p.off * 8) (p.n * 8)), 0)
  else
    let e := elemBytes p.fmt
    (List.range (p.n / e)).foldl (fun a k =>
      let v := cvtRow ty p.fmt (rowField row ((p.off + k) * laneBits ty) (laneBits ty))
      (a.1 ++ leBytes e v.1, a.2 ||| v.2)) ([], 0)

/-! ## Where requests stand -/

/-- A unit of 128 bytes that an engine owns (R70). -/
def State.ownedUnit (s : State) (key : Nat) : Bool := s.owned.any (·.key == key / 128)
/-- Some unit of n bytes from a key is owned. -/
def State.ownedAny (s : State) (key n : Nat) : Bool := s.owned.any fun o => decide (key / 128 ≤ o.key) && decide (o.key ≤ (key + n - 1) / 128)

/-- Where a request's granules stand: (key, bytes) each. A row access that has not begun stands where the formats of this moment
put it (R63, R64). -/
def State.spots (s : State) (r : Req) : List (Nat × Nat) :=
  match r.op with
  | .load n _ _ => [(r.addr, n)]
  | .store b => [(r.addr, b.length)]
  | .elem b _ => [(r.addr, b.length)]
  | .amo _ n _ _ _ => [(r.addr, n)]
  | .lrln _ _ ls _ => ls.map fun l => (l, 128)
  | .scln _ _ ls _ _ => ls.map fun l => (l, 128)
  | .block _ _ ws => ws.map fun w => (w.1, 8)
  | .desc _ _ ls => ls.map fun i => (r.addr + 8 * i, 8)
  | .rowLd _ _ _ _ (some ps) => ps.map fun p => (p.addr, p.n)
  | .rowSt _ _ _ _ (some ps) => ps.map fun p => (p.addr, p.n)
  | .rowLd _ ty els w none => (s.expand r.home r.addr ty els w).map fun p => (p.addr, p.n)
  | .rowSt ty _ els w none => (s.expand r.home r.addr ty els w).map fun p => (p.addr, p.n)
  | .engWrite _ _ _ b _ => [(r.addr, b.length)]
  | .mail _ | .event _ | .prefetch _ => []
  | .look n _ _ _ _ => [(r.addr, n)]
  | _ => [(r.addr, 8)]

/-- Two ranges of bytes have an aligned block of n bytes in common. -/
def meet (n : Nat) (p q : Nat × Nat) : Bool :=
  decide (p.1 / n ≤ (q.1 + q.2 - 1) / n) && decide (q.1 / n ≤ (p.1 + p.2 - 1) / n)

/-- Two accesses share an 8-byte word. -/
def State.overlaps (s : State) (a b : Req) : Bool := (s.spots a).any fun p => (s.spots b).any fun q => meet 8 p q

/-- The request writes memory at its home. -/
def Req.writes (r : Req) : Bool :=
  match r.op with
  | .store _ | .elem _ _ | .stf _ | .amo _ _ _ _ _ | .rowSt _ _ _ _ _ | .block _ _ _ | .scln _ _ _ _ _ | .complete _ => true
  | _ => false

end Sys2Proof.Machine
end

