-- ==== Sys2Proof/Machine/Access.lean ====
section
/-! DEFINITION. How a thread's accesses are checked, routed and issued (R55 to R60, R75, R77, R78, R152), and the scalar
loads and stores. -/

namespace Sys2Proof.Machine

open Sys2Proof

/-! ## Checks -/

/-- The outcome of checking an address: where it goes, a trap, or a translation to walk for. -/
inductive Acc where
  | ok (p : Phys) (region : Nat) (glob : Bool)
  | trap (cause : Nat)
  | miss (va : Nat)
deriving DecidableEq, Repr

/-- Bytes of a region (R58). -/
def regionSize (r : Nat) : Nat := if r = 0 then 2 ^ 18 else if r = 1 then 2 ^ 13 else if r = 2 then 2 ^ 11 else if r = 4 then 8 else 0
/-- Bytes of a region as a front end reaches it (R58, R308). -/
def fepExtent (r : Nat) : Nat := if r = 3 then 2 ^ 16 else if r = 5 then 2 ^ 12 else regionSize r

/-- An access by a thread of core `me` to n bytes at va: 0x03, 0x04, 0x05 (a miss first), 0x06, 0x13 in that order (R152).
`align` is the alignment it needs, `regions` the window regions it may name, `sealedOk` whether it may read a sealed page. -/
def State.access (s : State) (me : Nat) (va : Word) (n align : Nat) (write : Bool) (regions : List Nat) (glob sealedOk : Bool) : Acc :=
  let t := s.teamOf me
  if va.toNat % align ≠ 0 then .trap 3
  else match classify me va with
    | .none => .trap 4
    | .window c r off =>
      if !t.cores.contains c || !regions.contains r || regionSize r < off + n then .trap 4
      else .ok { key := winKey c r off, home := .core c, slot := 0, stream := false, write := true } r false
    | .global a =>
      if !glob then .trap 4
      else match s.translate (me / 16) t.vf a with
        | none => .miss a
        | some p =>
          if write && !p.write then .trap 6
          else if p.slot ≠ 0 ∧ (!sealedOk || !s.sealedOk t p.slot a) then .trap 0x13
          else .ok p 0 true

/-! ## Issuing a request -/

/-- The core's L1 view has the line of a key, entered under this virtual line (R83). -/
def Core.l1Has (c : Core) (key va : Nat) : Bool :=
  c.l1.any fun l => l.1 == key / 128 && l.2.va == va / 128

/-- A store issued by the core updates the view's copy if the line is present (R83). -/
def Core.l1Store (c : Core) (key : Nat) (bytes : List Byte) : Core :=
  { c with l1 := c.l1.map fun l =>
      if l.1 = key / 128 then
        (l.1, { l.2 with bytes := l.2.bytes.take (key % 128) ++ bytes ++ l.2.bytes.drop (key % 128 + bytes.length),
                         poison := if bytes.length = 8 then l.2.poison.filter (· != key % 128 / 8) else l.2.poison })
      else l }

/-- The line of a key leaves the view. -/
def Core.l1Drop (c : Core) (key : Nat) : Core := { c with l1 := c.l1.filter (·.1 != key / 128) }

/-- An earlier request of the thread to one of the 64-byte blocks of n bytes from a key waits in the adaptive pool (R78). -/
def State.poolHolds (s : State) (uid key n : Nat) : Bool :=
  s.reqs.any fun r => r.uid == uid && r.cls == 2 && (s.spots r).any (meet 64 (key, n))

/-- An ACCST of the thread that the matrix engine holds will write one of n bytes from a key: its writes stand, in program order, before
what the thread does later (R78, R247). -/
def State.accstHolds (s : State) (key n : Nat) : Bool :=
  s.here.mat.any fun m => m.uid == s.cur.uid && match m.op with
    | .store els _ _ _ _ => els.any fun e => e.any fun a => meet 8 (key, n) (a, 4)
    | _ => false
/-- An access of the issuing thread to n bytes from a key does not issue yet (R78). -/
def State.holdsBack (s : State) (key n : Nat) : Bool := s.poolHolds s.cur.uid key n || s.accstHolds key n

/-- A request enters its path; one of a core to another core's window is a message sent (R52). -/
def State.addReq (s : State) (r : Req) : State :=
  let s := { s with reqs := s.reqs ++ [r], nextReq := s.nextReq + 1 }
  if (coreOf r.home).isSome && coreOf r.home != some r.core && decide (r.core < ioDie) then
    s.onCore r.core fun c => { c with sent := c.sent + 1 }
  else s

/-- The next request of the issuing thread, on its way. -/
def State.nextOf (s : State) (cls : Nat) (home : Home) (key : Nat) (va : Word) (slot : Nat) (stream : Bool) (acq : Nat)
    (op : ReqOp) : Req :=
  { id := s.nextReq, uid := s.cur.uid, cls := cls, scope := 0, counted := true, born := s.cycle, core := s.iss.core, ctx := s.iss.ctx,
    home := home, addr := key, va := va, upc := s.iss.upc, fam := s.cur.fam, slot := slot, stream := stream, st := 0, came := 0,
    arr := 0, acq := acq, noFill := false, begun := false, team := s.here.team, tries := 0, bad := false, rtries := 0, rbad := false, op := op }
/-- It issues. -/
def State.issueReq (s : State) (cls : Nat) (home : Home) (key : Nat) (va : Word) (slot : Nat) (stream : Bool) (acq : Nat)
    (op : ReqOp) : State := s.addReq (s.nextOf cls home key va slot stream acq op)

/-- Reads at issue through the local port come after what the port has taken before, of every context of the core, and after the thread's
own earlier writes (R78, R79, R82): a write of one of n bytes from a key is unperformed, or an engine owns a unit of them (R70). -/
def State.spadWaits (s : State) (key n : Nat) : Bool :=
  s.ownedAny key n || s.accstHolds key n ||
    s.reqs.any fun r => (r.uid == s.cur.uid && decide (r.cls ≤ 1) || r.core == s.iss.core && r.cls == 0) && r.writes &&
      (s.spots r).any (meet 8 (key, n))

/-- The register code of a destination: 0 discards, 48 + r pushes on the queue mapped on r, else the register (R187). -/
def Ctx.dest (c : Ctx) (d : XReg) : Nat := if d = 0 then 0 else if (c.mapped d).isSome then 48 + d.toNat else c.tag d
/-- The scoreboard bit of a destination code. -/
def pendBit (t : Nat) : Nat := if 48 ≤ t then t - 48 else t
/-- A destination waits for its result; `empty` when a reply over Mortar fills it (R28). -/
def Ctx.await (c : Ctx) (t : Nat) (empty : Bool) : Ctx :=
  if t = 0 then c
  else
    let c := { c with pend := c.pend ||| (1#48 <<< pendBit t) }
    if empty && t < 48 then c.markEmpty t else c

/-- The path of an access to a place (R77): 0 the local port, 1 an ordered lane. A load of the own core's region 2, which R77 does
not list, takes the local port: the model's choice (log 45). -/
def State.pathOf (s : State) (p : Phys) (load : Bool) (va : Nat) : Nat :=
  if p.home = .core s.iss.core then 0
  else match p.home with
    | .core _ => 1
    | _ => if load && s.here.l1Has p.key va then 0 else 1

/-- An access of the issuing thread: its outcome once the checks pass, or the trap, or the wait for a walk. An access that
R78 keeps from issuing leaves the state as it is; the unit is attempted again. -/
def State.withAccess (s : State) (va : Word) (n align : Nat) (write : Bool) (regions : List Nat) (glob sealedOk : Bool)
    (k : Phys → Nat → Bool → State) : Out :=
  match s.access s.iss.core va n align write regions glob sealedOk with
  | .trap c => s.trapOut c va
  | .miss a => .next (s.walkCur a write)
  | .ok p r g => if s.holdsBack p.key n then .next s else .next (k p r g)

/-- A scalar load (R152): regions 0 and 1 at any size, region 2 at 8 bytes. `waits` empties the destination on every path, as LDMIG
does (R28, R200). -/
def State.loadAs (s : State) (d a : XReg) (va : Word) (n : Nat) (sext waits : Bool) : Out :=
  if s.misuse [a] [d] then s.trapOut 0x0E 0
  else s.withAccess va n n false (if n = 8 then [0, 1, 2] else [0, 1]) true false fun p _ _ =>
    let cls := s.pathOf p true va.toNat
    let t := s.cur.dest d
    (((s.pops [a]).issueReq cls p.home p.key va p.slot p.stream 0 (.load n sext t)).onCur (·.await t (waits || cls == 1))).retire
def State.scalarLoad (s : State) (d a : XReg) (va : Word) (n : Nat) (sext : Bool) : Out := s.loadAs d a va n sext false

/-- A scalar store (R152): region 4 takes 8 bytes; a global store updates the core's L1 copy at issue (R83). -/
def State.scalarStore (s : State) (b a : XReg) (va : Word) (n : Nat) : Out :=
  if s.misuse [a, b] [] then s.trapOut 0x0E 0
  else s.withAccess va n n true (if n = 8 then [0, 1, 2, 4] else [0, 1]) true false fun p r g =>
    let bytes := leBytes n (s.rd b).toNat
    let cls := if r = 2 ∨ r = 4 then 1 else s.pathOf p false va.toNat
    let op : ReqOp := if r = 4 then .mail (s.rd b) else .store bytes
    let s := (s.pops [a, b]).issueReq cls p.home p.key va p.slot p.stream 0 op
    (if g then s.onHere fun c => c.l1Store p.key bytes else s).retire

def execLb (d a : XReg) (i : BitVec 12) (s : State) : Out := s.scalarLoad d a (s.rd a + immI i) 1 true
def execLh (d a : XReg) (i : BitVec 12) (s : State) : Out := s.scalarLoad d a (s.rd a + immI i) 2 true
def execLw (d a : XReg) (i : BitVec 12) (s : State) : Out := s.scalarLoad d a (s.rd a + immI i) 4 true
def execLd (d a : XReg) (i : BitVec 12) (s : State) : Out := s.scalarLoad d a (s.rd a + immI i) 8 true
def execLbu (d a : XReg) (i : BitVec 12) (s : State) : Out := s.scalarLoad d a (s.rd a + immI i) 1 false
def execLhu (d a : XReg) (i : BitVec 12) (s : State) : Out := s.scalarLoad d a (s.rd a + immI i) 2 false
def execLwu (d a : XReg) (i : BitVec 12) (s : State) : Out := s.scalarLoad d a (s.rd a + immI i) 4 false
def execSb (b a : XReg) (i : BitVec 12) (s : State) : Out := s.scalarStore b a (s.rd a + immI i) 1
def execSh (b a : XReg) (i : BitVec 12) (s : State) : Out := s.scalarStore b a (s.rd a + immI i) 2
def execSw (b a : XReg) (i : BitVec 12) (s : State) : Out := s.scalarStore b a (s.rd a + immI i) 4
def execSd (b a : XReg) (i : BitVec 12) (s : State) : Out := s.scalarStore b a (s.rd a + immI i) 8

/-! ## Compressed loads and stores (R154) -/

/-- x8 to x15 of a 3-bit field (R131). -/
def cField (r : BitVec 3) : XReg := 1#1 ++ r
/-- Offsets scaled by 4 and by 8. -/
def off4 {w : Nat} (i : BitVec w) : BitVec 12 := i.zeroExtend 12 <<< 2
def off8 {w : Nat} (i : BitVec w) : BitVec 12 := i.zeroExtend 12 <<< 3

def execCLw (d a : BitVec 3) (i : BitVec 5) (s : State) : Out := execLw (cField d) (cField a) (off4 i) s
def execCLd (d a : BitVec 3) (i : BitVec 5) (s : State) : Out := execLd (cField d) (cField a) (off8 i) s
def execCSw (b a : BitVec 3) (i : BitVec 5) (s : State) : Out := execSw (cField b) (cField a) (off4 i) s
def execCSd (b a : BitVec 3) (i : BitVec 5) (s : State) : Out := execSd (cField b) (cField a) (off8 i) s
def execCLwsp (d : XReg) (i : BitVec 6) (s : State) : Out := execLw d 2 (off4 i) s
def execCLdsp (d : XReg) (i : BitVec 6) (s : State) : Out := execLd d 2 (off8 i) s
def execCSwsp (b : XReg) (i : BitVec 6) (s : State) : Out := execSw b 2 (off4 i) s
def execCSdsp (b : XReg) (i : BitVec 6) (s : State) : Out := execSd b 2 (off8 i) s

end Sys2Proof.Machine
end

