-- ==== Sys2Proof/Machine/FloatScalar.lean ====
section
/-! DEFINITION. Single precision in x registers (R155, R156). -/

namespace Sys2Proof.Machine

open Sys2Proof

/-- An f32 operand: bits 31 to 0 of its register (R149). -/
def fbits (v : Word) : Nat := (v.extractLsb' 0 32).toNat
def fval (v : Word) : FVal := f32.decode (fbits v)
/-- An f32 result, sign-extended from bit 31 (R149). -/
def fword (n : Nat) : Word := (BitVec.ofNat 32 n).signExtend 64

/-- An instruction that rounds by a field: the dynamic mode is trap 0x01 while frm holds 4 to 7 (R98). -/
def State.rounded (s : State) (r : BitVec 3) (k : Nat → Out) : Out :=
  if r == 7 && frmBroken s.cur then s.trapOut 1 0 else k (s.mode r)
/-- A rounded result of f32 with its flags. -/
def State.putFp (s : State) (srcs : List XReg) (d : XReg) (r : Nat × Flags) : Out := s.putF srcs d (fword r.1) r.2

def execFaddS (d a b : XReg) (r : BitVec 3) (s : State) : Out :=
  s.rounded r fun m => s.putFp [a, b] d (f32.add m (fval (s.rd a)) (fval (s.rd b)))
def execFsubS (d a b : XReg) (r : BitVec 3) (s : State) : Out :=
  s.rounded r fun m => s.putFp [a, b] d (f32.add m (fval (s.rd a)) (fval (s.rd b)).negate)
def execFmulS (d a b : XReg) (r : BitVec 3) (s : State) : Out :=
  s.rounded r fun m => s.putFp [a, b] d (f32.mul m (fval (s.rd a)) (fval (s.rd b)))
def execFdivS (d a b : XReg) (r : BitVec 3) (s : State) : Out :=
  s.rounded r fun m => s.putFp [a, b] d (f32.div m (fval (s.rd a)) (fval (s.rd b)))
def execFsqrtS (d a : XReg) (r : BitVec 3) (s : State) : Out :=
  s.rounded r fun m => s.putFp [a] d (f32.sqrt m (fval (s.rd a)))
def execFmaddS (d a b c : XReg) (r : BitVec 3) (s : State) : Out :=
  s.rounded r fun m => s.putFp [a, b, c] d (f32.fma m (fval (s.rd a)) (fval (s.rd b)) (fval (s.rd c)))
/-- The first operand with bit 31 of the second, or its inverse; no flags (R100). -/
def execFsgnjS (d a b : XReg) (s : State) : Out :=
  s.put [a, b] d (fword (fbits (s.rd a) % 2 ^ 31 + fbits (s.rd b) / 2 ^ 31 * 2 ^ 31))
def execFsgnjnS (d a b : XReg) (s : State) : Out :=
  s.put [a, b] d (fword (fbits (s.rd a) % 2 ^ 31 + (1 - fbits (s.rd b) / 2 ^ 31) * 2 ^ 31))
def execFminS (d a b : XReg) (s : State) : Out := s.putFp [a, b] d (f32.minMax false (fbits (s.rd a)) (fbits (s.rd b)))
def execFmaxS (d a b : XReg) (s : State) : Out := s.putFp [a, b] d (f32.minMax true (fbits (s.rd a)) (fbits (s.rd b)))
/-- FLE and FLT raise NV for any NaN; a NaN compares false (R156). -/
def execFleS (d a b : XReg) (s : State) : Out :=
  let x := fval (s.rd a)
  let y := fval (s.rd b)
  s.putF [a, b] d (if (x.isNan || y.isNan || y.lt x) then 0 else 1) (nvIf (x.isNan || y.isNan))
def execFltS (d a b : XReg) (s : State) : Out :=
  let x := fval (s.rd a)
  let y := fval (s.rd b)
  s.putF [a, b] d (if (!x.isNan && !y.isNan && x.lt y) then 1 else 0) (nvIf (x.isNan || y.isNan))
/-- FEQ raises NV only for a signalling NaN. -/
def execFeqS (d a b : XReg) (s : State) : Out :=
  let x := fval (s.rd a)
  let y := fval (s.rd b)
  s.putF [a, b] d (if x.eq y then 1 else 0) (nvIf (x.sig || y.sig))
/-- RISC-V rules: a NaN gives the largest positive value (R102). -/
def execFcvtWS (d a : XReg) (r : BitVec 3) (s : State) : Out :=
  s.rounded r fun m =>
    let v := cvtFI f32 32 m (2 ^ 31 - 1) (fbits (s.rd a))
    s.putF [a] d (BitVec.ofInt 64 v.1) v.2
def execFcvtLS (d a : XReg) (r : BitVec 3) (s : State) : Out :=
  s.rounded r fun m =>
    let v := cvtFI f32 64 m (2 ^ 63 - 1) (fbits (s.rd a))
    s.putF [a] d (BitVec.ofInt 64 v.1) v.2
def execFcvtSW (d a : XReg) (r : BitVec 3) (s : State) : Out :=
  s.rounded r fun m => s.putFp [a] d (cvtIF f32 m false ((s.rd a).extractLsb' 0 32).toInt)
def execFcvtSL (d a : XReg) (r : BitVec 3) (s : State) : Out :=
  s.rounded r fun m => s.putFp [a] d (cvtIF f32 m false (s.rd a).toInt)

end Sys2Proof.Machine
end

