-- ==== Sys2Proof/Machine/Views.lean ====
section
/-! DEFINITION. What a front end finds of a core: CIM slots, core and context states, the control region (R58, R238, R308 to R310). -/

namespace Sys2Proof.Machine

open Sys2Proof

def Core.slot (c : Core) (n : Nat) : Slot := tabGet Slot.empty c.slots n

/-! ## Views (R309, R310) -/

/-- CSTAT (R309). -/
def Core.cstat (c : Core) : Word :=
  BitVec.ofNat 64 (c.cstate * 2 ^ 17 + (if c.flatch = [] then 0 else 2 ^ 16) +
    (List.range 16).foldl (fun a x => a + if (c.ctx x).uid = 0 then 0 else 2 ^ x) 0)
/-- XSTAT.st (R310). -/
def Core.xst (c : Core) (x : Nat) : Nat :=
  let k := c.ctx x
  if k.uid = 0 then 0
  else if c.faulted then 4
  else match k.st with
    | .run => if c.stalled.getLsbD x then 2 else 1
    | .parked | .ecall => 3
    | _ => 2
/-- XSTAT.pc: the low 32 bits of the code-arena offset (R310, R344). -/
def Core.xpc (c : Core) (x : Nat) : Nat := if (c.ctx x).uid = 0 then 0 else ((c.ctx x).pc - c.abase).toNat % 2 ^ 32
/-- XSTAT(x) (R310). -/
def Core.xstat (c : Core) (x : Nat) : Word :=
  let k := c.ctx x
  BitVec.ofNat 64 (c.xpc x * 2 ^ 32 + k.kind * 2 ^ 12 + k.frames.length * 2 ^ 8 + (if k.inEm then 32 else 0) + (if k.inLh then 16 else 0) + c.xst x)
/-- SREC(i): the record of a CIM slot (R238). -/
def Core.srec (c : Core) (i : Nat) : Word :=
  let r := c.slot i
  BitVec.ofNat 64 ((if r.sparse then 2 ^ 58 else 0) + r.size * 2 ^ 56 + r.mode * 2 ^ 54 + r.fmt * 2 ^ 50 + r.scale * 2 ^ 34 + r.stride * 2 ^ 18 + r.src)

/-- A control region's dword (R308). -/
def State.controlRead (s : State) (c off : Nat) : Word :=
  let k := s.core c
  if off = 0 then k.cstat
  else if off = 8 then (if k.stop then 1 else 0)
  else if off = 0x10 then k.abase
  else if off = 0x18 then k.abound
  else if 0x40 ≤ off ∧ off < 0x80 then k.flatch.getD ((off - 0x40) / 8) 0
  else if 0x100 ≤ off ∧ off < 0x180 then k.xstat ((off - 0x100) / 8)
  else if 0x800 ≤ off then k.srec ((off - 0x800) / 8)
  else 0

end Sys2Proof.Machine
end

