-- ==== Sys2Proof/Machine/Home.lean ====
section
/-! DEFINITION. The ordering machine's own steps: ports, lanes and pools deliver, homes perform, the L1 view serves,
replies fill registers (R28, R30, R67, R76 to R92). -/

namespace Sys2Proof.Machine

open Sys2Proof

/-! ## Requests in the list -/

def State.req (s : State) (id : Nat) : Option Req := s.reqs.find? (·.id == id)
def State.onReq (s : State) (id : Nat) (f : Req → Req) : State := { s with reqs := s.reqs.map fun r => if r.id = id then f r else r }
def State.dropReq (s : State) (id : Nat) : State := { s with reqs := s.reqs.filter (·.id != id) }

/-! ## What stands at a home -/

/-- n bytes at a home, under the request's key slot. -/
def State.bytesAt (s : State) (r : Req) (key n : Nat) : List Byte :=
  match r.home with
  | .slice p i => s.sliceBytes p i key r.slot (r.va.toNat + key - r.addr) n
  | _ => memBytes s.mem key n

/-- A register read through region 2 (R59): the thread's own register, zero where no thread stands. -/
def State.regWindow (s : State) (n off : Nat) : Word :=
  let c := s.ctxAt n (off / 128 % 16)
  if c.uid = 0 ∨ off / 8 % 16 = 0 then 0 else c.regAt (c.ownTag (off / 8 % 16))

/-- A register filled through region 2 (R59): never x0, never a context with no thread. -/
def State.regFill (s : State) (n off : Nat) (v : Word) : State :=
  let x := off / 128 % 16
  let r := off / 8 % 16
  if (s.ctxAt n x).uid = 0 ∨ r = 0 then s
  else s.onCtx n x fun c => { (c.setRegAt (c.ownTag r) v).markFull (c.ownTag r) with st := if c.st = .linked then .run else c.st }
/-- A value for a register whose packet's data words are poisoned is trap 0x0F of the thread there, at the address given (R365; log 65). -/
def State.regPoison (s : State) (n off : Nat) (a : Word) : State :=
  let x := off / 128 % 16
  if (s.ctxAt n x).uid = 0 ∨ off / 8 % 16 = 0 then s else s.threadFault n x 0x0F a (s.ctxAt n x).pc

/-- A write at a home: region 2 fills a register, a slice write ends reservations and may be sealed. -/
def State.storeAt (s : State) (r : Req) (key : Nat) (bytes : List Byte) : State :=
  match r.home with
  | .core n =>
    if key / 2 ^ 27 % 8 = 2 then
      (if r.bad then s.regPoison n (key % 2 ^ 11) r.va else s.regFill n (key % 2 ^ 11) (BitVec.ofNat 64 (leNat bytes)))
    else s.putBytes key bytes
  | .slice p i => (s.sliceWrite p i key r.slot (r.va.toNat + key - r.addr) bytes).breakResv p i [key / 128]
  | .host => s.putBytes key bytes

/-- The access marks its line at a slice: a thread's access is normal with priority 0, or a stream (R71, R340). -/
def State.visitAs (s : State) (r : Req) (key : Nat) (stream : Bool) : State :=
  match r.home with
  | .slice p i => s.touch p i (key / 128) r.slot ((r.va.toNat + key - r.addr) / 128) 0 (if stream then 1 else 0)
  | _ => s
def State.visit (s : State) (r : Req) (key : Nat) : State := s.visitAs r key r.stream

/-- The bytes that unperformed global stores of a core write, in issue order (R83): key and bytes. -/
def State.ownStores (s : State) (n : Nat) : List (Nat × List Byte) :=
  (s.reqs.filter fun r => r.core == n && decide (r.cls ≤ 2) && coreOf r.home == none).flatMap fun r =>
    match r.op with
    | .store b => [(r.addr, b)]
    | .rowSt ty d els w ps => (ps.getD (s.expand r.home r.addr ty els w)).map fun p => (p.addr, (leavePart ty p d).1)
    | _ => []

/-- An atomic or SCLN of the core on a line is on its way: what it will write shows in no copy of the line yet (R68, R204, R207). -/
def State.ownAtomic (s : State) (n k : Nat) : Bool :=
  s.reqs.any fun r => r.core == n && coreOf r.home == none && match r.op with
    | .amo _ _ _ _ _ => r.addr / 128 == k
    | .scln _ _ ls _ _ => ls.any (· / 128 == k)
    | _ => false

/-- The line of a key as it stands at its slice, for the L1 view. -/
def State.lineOf (s : State) (p key va : Nat) : L1Line :=
  { va := va / 128, bytes := s.cells p (key / 128 * 128) 128,
    poison := (List.range 16).filter fun i => s.poison.contains (key / 128 * 16 + i) }

/-- The line enters the L1 view of the requester as a load that missed is performed at its slice (R68, R83, R201): never a
sealed line, at most 256 lines; a line that enters a full view takes the place of one that the configuration picks, the only eviction
(log 1). Stores its core has issued and that are still on their way show in it, and it does not enter while an atomic or SCLN of the core on it
is on its way: every thread reads its own writes (R68, R78; log 46). -/
def State.enterL1 (s : State) (r : Req) : State :=
  match r.home with
  | .slice p _ =>
    if r.slot ≠ 0 ∨ r.noFill ∨ s.ownAtomic r.core (r.addr / 128) then s
    else
      let k := r.addr / 128
      let l := s.lineOf p r.addr r.va.toNat
      let own := (s.ownStores r.core).filter fun w => w.1 / 128 == k
      s.onCore r.core fun c =>
        let o := c.l1.filter (·.1 != k)
        let c := { c with l1 := (if 256 ≤ o.length then o.eraseIdx (Config.victim (2 * r.id) % o.length) else o) ++ [(k, l)] }
        own.foldl (fun c w => c.l1Store w.1 w.2) c
  | _ => s

/-! ## Replies -/

/-- A reply on its way to a register; one from another core is a message (R52). -/
def State.reply (s : State) (r : Req) (d : Nat) (v : Word) (err : Nat) : State :=
  let src := match coreOf r.home with
    | some n => if n = r.core then none else some n
    | none => none
  let s := match src with
    | some n => s.onCore n fun c => { c with sent := c.sent + 1 }
    | none => s
  { s with fills := s.fills ++ [({ uid := r.uid, reg := d, val := v, acq := r.acq, counted := true, err := err, addr := r.va,
                                   upc := r.upc, src := src, tries := 0, link := none } : RegFill)] }

/-- A request has been performed: it leaves its class (R85). -/
def State.performed (s : State) (r : Req) : State := s.dropReq r.id

/-- 0x0F when a value that is delivered comes from a poisoned word (R74). -/
def State.poisonErr (s : State) (r : Req) (n : Nat) : Nat := if s.poisonedAny r.addr n then 0x0F else 0

/-- The register or tile bytes a load reads at a core have failed their parity (R373). -/
def State.parityBad (s : State) (r : Req) (n : Nat) : Bool :=
  match r.home with
  | .core c =>
    if r.addr / 2 ^ 27 % 8 = 2 then
      (let k := s.ctxAt c (r.addr % 2 ^ 11 / 128)
       k.bad.getLsbD (k.ownTag (r.addr / 8 % 16)))
    else s.parityFails r.addr n
  | _ => false

/-! ## Full/empty words (R66, R67, R195, R196) -/

/-- The word of a key is full. -/
def State.isFull (s : State) (key : Nat) : Bool :=
  !((s.core (key / 2 ^ 42 % 4 * 2048 + key / 2 ^ 30 % 2048)).empties.contains (key % 2 ^ 18 / 8))
def State.setFull (s : State) (n key : Nat) (b : Bool) : State :=
  s.onCore n fun c => { c with empties := if b then c.empties.filter (· != key % 2 ^ 18 / 8) else c.empties.insert (key % 2 ^ 18 / 8) }
/-- LDC and LDP requests on the wait list of a word, in arrival order. -/
def State.waiters (s : State) (key : Nat) : List Req :=
  (s.reqs.filter fun r => r.st == 2 && r.addr == key).insertionSort fun a b => a.arr ≤ b.arr

/-- The held requests of a word are served in order: each LDP reads, the first LDC reads, empties and ends the service. -/
def State.serve (s : State) (n key : Nat) : List Req → State
  | [] => s
  | r :: t =>
    let v : Word := BitVec.ofNat 64 (memNat s.mem key 8)
    match r.op with
    | .ldp d => State.serve ((s.reply r d v (s.poisonErr r 8)).performed r) n key t
    | .ldc d => ((s.setFull n key false).reply r d v (s.poisonErr r 8)).performed r
    | _ => State.serve s n key t

/-- The word takes a value, poisoned if its packet failed a check (R365), and is full; its waiters are served within the same step. -/
def State.fillWord (s : State) (n key : Nat) (v : Word) (bad : Bool) : State :=
  let s := ((s.putBytes key (leBytes 8 v.toNat)).setPoison key bad).setFull n key true
  s.serve n key (s.waiters key)

/-! ## Atomics (R203, R204) -/

/-- The new value of an atomic over w bits: old m, operand v, compare value c. -/
def amoNew (op w m v c : Nat) : Nat :=
  if op = 0 then (m + v) % 2 ^ w
  else if op = 1 then m &&& v
  else if op = 2 then m ||| v
  else if op = 3 then m ^^^ v
  else if op = 4 then (if sInt w v < sInt w m then v else m)
  else if op = 5 then (if sInt w m < sInt w v then v else m)
  else if op = 6 then Nat.min m v
  else if op = 7 then Nat.max m v
  else if op = 8 then v
  else if op = 9 then (if m = c then v else m)
  else if op = 10 then (f32.add 0 (f32.decode m) (f32.decode v)).1
  else (bf16.add 0 (bf16.decode (m / 2 ^ 16)) (bf16.decode (v / 2 ^ 16))).1 * 2 ^ 16 +
    (bf16.add 0 (bf16.decode (m % 2 ^ 16)) (bf16.decode (v % 2 ^ 16))).1

/-- A number of n bytes, sign- or zero-extended. -/
def extended (n : Nat) (sext : Bool) (v : Nat) : Word := if sext then BitVec.ofInt 64 (sInt (8 * n) v) else BitVec.ofNat 64 v

/-! ## Reservations (R206 to R208) -/

/-- At most 64 reservations a slice, the oldest leaving first; one a thread. -/
def State.reserve (s : State) (p i uid : Nat) (lines : List Nat) : State :=
  let o := s.resv.filter (·.uid != uid)
  let here := o.filter (·.slice == (p, i))
  let o := if 64 ≤ here.length then o.erase (here.headD { slice := (p, i), uid := 0, lines := [] }) else o
  { s with resv := o ++ [{ slice := (p, i), uid := uid, lines := lines }] }

/-! ## Arrival (R82) -/

/-- The place of a request that arrives now in its home's order: by cycle, then the local port, the lanes by source core with the
I/O die's after all, the adaptive pool. -/
def State.arrivalKey (s : State) (cls core : Nat) : Nat :=
  (s.cycle * (ioDie + 3) + (if cls = 0 then 0 else if cls = 1 then 1 + core else ioDie + 2)) * 2 ^ 64 + s.arrivals

/-! ## Performing -/

/-- The granule j of a request, or its whole access, meets an owned unit (R70); an engine's own granules do not wait. -/
def State.meetsOwned (s : State) (r : Req) (j : Nat) : Bool :=
  match r.op with
  | .engWrite _ _ _ _ _ => false
  | .rowLd _ _ _ _ (some ps) | .rowSt _ _ _ _ (some ps) => (ps[j]?).any fun p => s.ownedUnit p.addr
  | .desc _ _ ls => (ls[j]?).any fun i => s.ownedUnit (r.addr + 8 * i)
  | .block _ _ ws => (ws[j]?).any fun w => s.ownedUnit w.1
  | _ => (s.spots r).any fun p => s.ownedAny p.1 p.2

/-- LDC and LDP join the wait list of their word behind those held there (R195). -/
def Req.joins (r q : Req) : Bool :=
  q.st == 2 && r.addr == q.addr && match r.op with
    | .ldc _ | .ldp _ => true
    | _ => false

/-- A held earlier request of the same lane or port to the same word or owned unit keeps this one waiting (R82); so does an
earlier unfinished access of the same thread to the same word (R27; log 9). -/
def State.behind (s : State) (r : Req) : Bool :=
  s.reqs.any fun q => decide (q.arr < r.arr) && q.home == r.home && decide (1 ≤ q.st) && decide (q.st ≤ 3) && q.id != r.id &&
    ((decide (2 ≤ q.st) && q.core == r.core && q.cls == r.cls && !r.joins q) || (q.begun && q.uid == r.uid)) && s.overlaps q r

/-- The request is performable now at its home (R82): it has arrived in an earlier cycle, so that all that came with it stand in
their order, and nothing older that could be performed stands before it. -/
def State.turnOf (s : State) (r : Req) : Bool :=
  r.begun || r.st == 3 ||
    (r.st == 1 && decide (r.came < s.cycle) &&
      !(s.reqs.any fun q => q.home == r.home && q.st == 1 && !q.begun && decide (q.arr < r.arr) && !s.behind q))

/-- A request of several granules takes them from now on; a row has the formats of this moment (R63, R90). -/
def State.begin (s : State) (r : Req) : Req :=
  match r.op with
  | .rowLd j ty els w ps => { r with op := .rowLd j ty els w (some (ps.getD (s.expand r.home r.addr ty els w))), begun := true }
  | .rowSt ty d els w ps => { r with op := .rowSt ty d els w (some (ps.getD (s.expand r.home r.addr ty els w))), begun := true }
  | .desc _ _ _ | .block _ _ _ => { r with begun := true }
  | _ => r

/-- Flags of a row access reach the thread that issued it (R65, R99), also in its saved frame. -/
def State.flagsTo (s : State) (uid : Nat) (f : Flags) : State :=
  if f = 0 then s
  else match s.whereIs uid, s.keptBy uid with
    | some (n, x), _ => s.onCtx n x (·.orFlags f)
    | none, some (n, x) => s.onCtx n x fun c => c.onFrame uid fun g => { g with fcsr := g.fcsr ||| f.zeroExtend 8 }
    | none, none => s

/-- One request of a join is done; with the last one the row is written, or trap 0x0F is raised and no lane is (R74). -/
def State.joinDone (s : State) (id : Nat) : State :=
  match s.joins.find? (·.id == id) with
  | none => s
  | some j =>
    if 1 < j.left then { s with joins := s.joins.map fun k => if k.id = id then { k with left := k.left - 1 } else k }
    else
      let s := { s with joins := s.joins.filter (·.id != id) }
      match s.holder j.uid with
      | none => s
      | some (n, x) =>
        let s := s.onCtx n x fun c => { c with pendV := c.pendV.erase j.row }
        match j.poison with
        | some a => s.uidFault j.uid a.1 a.2 j.upc
        | none => (s.setLanes n j.row j.data j.mask).flagsTo j.uid j.flags

/-- A granule's bytes reach the join, with the trap they raise, if any. -/
def State.joinPart (s : State) (id ty : Nat) (p : Part) (bytes : List Byte) (bad : Option (Nat × Word)) : State :=
  { s with joins := s.joins.map fun j =>
      if j.id = id then
        let v := landPart ty p bytes j.data
        let m := (landPart ty { p with fmt := 0, off := if p.fmt = 0 then p.off else p.off * (laneBits ty / 8),
                                       n := if p.fmt = 0 then p.n else p.n / elemBytes p.fmt * (laneBits ty / 8) }
                    (List.replicate 64 0xFF) j.mask).1
        { j with data := v.1, flags := j.flags ||| v.2, mask := m, poison := j.poison.orElse fun _ => bad }
      else j }

/-- The Grout unit of a cluster, as an engine. -/
def groutEng (cl : Nat) : Nat := 2 * (ioDie + cl) + 1
/-- A write of an engine to a unit is still to come: one under way, or a granule its command has not sent. Engine 2 n is the
copy engine of core n, engine 2 n + 1 the ICE of cluster n, and after the cores' numbers the Grout units follow. -/
def State.unitBusy (s : State) (eng unit : Nat) : Bool :=
  s.reqs.any (fun r => match r.op with | .engWrite e _ _ _ _ => e == eng && r.addr / 128 == unit | _ => false) ||
    (eng % 2 == 0 && match (s.core (eng / 2)).copyRun with
      | some c => c.pieces.any fun p => !p.done && p.key / 128 == unit
      | none => false) ||
    (eng % 2 == 1 && decide (ioDie ≤ eng / 2) && match (s.cluster (eng / 2 - ioDie)).groutRun with
      | some g => g.pieces.any fun p => !p.done && p.key / 128 == unit
      | none => false)

/-- A unit is released once its last write is performed (R70); requests held on it may be performed again. -/
def State.releaseUnits (s : State) (eng : Nat) (still : Nat → Bool) : State :=
  let s := { s with owned := s.owned.filter fun o => o.eng != eng || still o.key }
  { s with reqs := s.reqs.map fun r =>
      if r.st = 3 ∧ !((s.spots r).any fun p => s.ownedAny p.1 p.2) then { r with st := 1 } else r }

/-! ## Families' table (R32, R172) -/

def Desc.empty : Desc :=
  { addr := 0, twod := false, perf := false, mig := false, gang := false, inl := false, place := 0, vclass := 0, links := 0,
    entry := 0, start := 0, limit := 0, step := 1, cmask := 0, window := 0, block := 1, bctx := 0, lattice := 0, cov := 0,
    ni := 0, pts := [0, 0, 0, 0], arg := 0, count := 0 }
def Fam.empty : Fam :=
  { live := false, seq := 0, ord := 0, uid := 0, depth := 0, desc := Desc.empty, next := 0, ended := 0, running := [], held := [],
    heldBad := [], brk := none, killed := false, marked := false, finished := false, coverage := none, grouted := false, who := [], upc := 0 }
/-- The table key of a family entry. -/
def FamRef.key (f : FamRef) : Nat := (f.core * 16 + f.ctx) * 16 + f.entry
def State.fam (s : State) (f : FamRef) : Fam := tabGet Fam.empty s.fams f.key
def State.onFam (s : State) (f : FamRef) (g : Fam → Fam) : State := { s with fams := tabSet s.fams f.key (g (s.fam f)) }

/-! ## Values that reach their registers (R28, R30) -/

/-- The core's L1 view is invalidated by an acquire at cluster scope or wider (R83, R88). -/
def Core.l1Clear (c : Core) : Core := { c with l1 := [] }

/-- A word pushed on an outbound queue of a context's core; a full queue holds it (R187). -/
def State.pushAt (s : State) (n x d : Nat) (w : QWord) : State :=
  if ((s.core n).outbound d).length < 8 then s.onCore n fun c => { c with outq := tabSet c.outq d (c.outbound d ++ [w]) }
  else s.onCtx n x fun c => { c with heldPush := c.heldPush ++ [(d, w)] }

/-- A value lands in a register of its thread: it is written and full; an FCREATE that waits for a linked value goes on. A reply still
outstanding on the register stands: only its own arrival clears the scoreboard (R27, R30). -/
def Ctx.land (c : Ctx) (t : Nat) (v : Word) : Ctx :=
  let c := { c with st := if c.st = .linked then .run else c.st }
  if t = 0 then c else (c.setRegAt t v).markFull t
/-- The reply that a destination code waits for has come. -/
def Ctx.came (c : Ctx) (t : Nat) : Ctx := { c with pend := c.pend &&& ~~~ (1#48 <<< pendBit t) }

/-- The field of a register that maps a queue (R49). -/
def Ctx.mapField (c : Ctx) (r : Nat) : Nat := c.qcfg.toNat / 16 ^ (r - 5) % 16
/-- A value that a destination code names reaches context x of core n: pushed on the queue the register maps, or landed (R187); where the
mapping is gone meanwhile, it lands in the thread's own register (log 63). -/
def State.landAt (s : State) (n x t : Nat) (v : Word) : State :=
  let c := s.ctxAt n x
  if t < 48 then s.onCtx n x (·.land t v)
  else if 8 ≤ c.mapField (t - 48) then s.pushAt n x (c.mapField (t - 48) % 4) (false, v, 0)
  else s.onCtx n x fun c => c.land (c.ownTag (t - 48)) v

/-- A value reaches a register of a thread: where it runs, in the frame that is saved of it (held, R38), or in the state it takes
along between cores; of a thread that is no more it is discarded (R30). -/
def State.landIn (s : State) (uid t : Nat) (v : Word) : State :=
  match s.whereIs uid, s.keptBy uid with
  | some (n, x), _ => s.landAt n x t v
  | none, some (n, x) => s.onCtx n x fun c => c.onFrame uid fun g => { g with held := g.held ++ [(t, v)] }
  | none, none => s.onThread uid (·.land t v)
/-- The reply that a register of a thread waits for has come: where it runs, in its saved frame, or on its way between cores. -/
def State.replyCame (s : State) (uid t : Nat) : State :=
  match s.whereIs uid, s.keptBy uid with
  | none, some (n, x) => s.onCtx n x fun c => c.onFrame uid fun g => { g with pend := g.pend &&& ~~~ (1#48 <<< pendBit t) }
  | _, _ => s.onThread uid (·.came t)
/-- The register of the file that is the thread's own register r (R59), running, in a saved frame or on its way. -/
def State.ownReg (s : State) (uid r : Nat) : Nat :=
  match s.whereIs uid, s.keptBy uid, s.moving uid with
  | some (n, x), _, _ => (s.ctxAt n x).ownTag r
  | none, some (n, x), _ =>
    let c := s.ctxAt n x
    Ctx.ownTag { c with frames := c.frames.take (c.frames.findIdx fun g => g.uid == uid) } r
  | none, none, some m => m.ctx.ownTag r
  | none, none, none => r
/-- The unit a thread stands at. -/
def State.pcOf (s : State) (uid : Nat) : Word :=
  match s.whereIs uid, s.keptBy uid, s.moving uid with
  | some (n, x), _, _ => (s.ctxAt n x).pc
  | none, some (n, x), _ => (((s.ctxAt n x).frames.find? (·.uid == uid)).map (·.sync.upc)).getD 0
  | none, none, some m => m.ctx.pc
  | none, none, none => 0

/-- The core a thread stands on, running, in a saved frame or on its way. -/
def State.homeOf (s : State) (uid : Nat) : Option Nat :=
  match s.holder uid with
  | some (n, _) => some n
  | none => (s.moving uid).map (·.fromCore)
/-- The L1 view of the core a thread stands on is invalidated. -/
def State.acquireFor (s : State) (uid : Nat) : State :=
  match s.homeOf uid with
  | some n => s.onCore n Core.l1Clear
  | none => s
/-- One acquire of a thread has been delivered (R88). -/
def State.acquired (s : State) (uid : Nat) : State :=
  match s.keptBy uid with
  | some (n, x) => s.onCtx n x fun c => c.onFrame uid fun g => { g with acq := g.acq - 1 }
  | none => s.onThread uid fun c => { c with acq := c.acq - 1 }

/-- A value on its way to a register of a thread. -/
def State.fillReg (s : State) (uid reg acq : Nat) (v : Word) : State :=
  if reg = 0 ∨ uid = 0 then s
  else { s with fills := s.fills ++ [({ uid := uid, reg := reg, val := v, acq := acq, counted := false, err := 0, addr := 0,
                                         upc := 0, src := none, tries := 0, link := none } : RegFill)] }

/-- A linked value arrives (R36): at a running member's register a(k + 1), in the family table when the member has not started,
at the creator's parent target past the last member; a killed member's value is discarded. It is an acquire for the receiver (R88). One whose
packet's data words are poisoned is trap 0x0F of the thread whose register takes it (R365; log 65). -/
def State.linkTo (s : State) (l : Link) (v : Word) (bad : Bool) : State :=
  let g := s.fam l.fam
  let land := fun (u t : Nat) => if bad then s.uidFault u 0x0F v (s.pcOf u) else s.landIn u t v
  if !g.live || g.ord != l.ord || g.desc.links ≤ l.k then s
  else if g.desc.count ≤ l.member then
    let t := g.desc.pts.getD l.k 0
    if t = 0 then s else (land g.uid t).acquireFor g.uid
  else match g.running.find? (·.1 == l.member) with
    | some r => (land r.2.2.2 (11 + l.k)).acquireFor r.2.2.2
    | none =>
      if g.next ≤ l.member && !g.killed && (match g.brk with | some m => decide (l.member ≤ m) | none => true) then
        s.onFam l.fam fun g =>
          { g with held := g.held.filter (fun h => !(h.1 == l.member && h.2.1 == l.k)) ++ [(l.member, l.k, v)],
                   heldBad := g.heldBad.filter (· != (l.member, l.k)) ++ (if bad then [(l.member, l.k)] else []) }
      else s

/-! ## The control region and CIM slots, as a front end writes them (R58, R308, R309) -/

/-- A value of the model's own for contents that an access leaves open. -/
def freeElem (i : Nat) : BElem :=
  { cls := (Config.freeWord (2 * i)).toNat % 4, neg := (Config.freeWord (2 * i)).getLsbD 8, mag := (Config.freeWord (2 * i + 1)).toNat }
/-- The bytes of a slot as a front end reads them: those it has stored, else free values (log 35). -/
def Slot.bytes (sl : Slot) (fresh : Nat) : List Byte :=
  if sl.raw = [] then (List.range 256).map fun i => (Config.freeWord (fresh + i)).truncate 8 else sl.raw
/-- A front end stores 8 bytes of a slot: what B the slot holds then is left open (R58, R238; log 35). -/
def Slot.store (sl : Slot) (fresh off : Nat) (v : Word) : Slot :=
  let b := sl.bytes fresh
  { sl with raw := b.take off ++ leBytes 8 v.toNat ++ b.drop (off + 8),
            els := (List.range 16).map fun j => (List.range 16).map fun k => freeElem (fresh + 256 + 16 * j + k) }

/-- Stop is set or cleared (R309). -/
def Core.setStop (k : Core) (b : Bool) : Core :=
  { k with stop := b, cstate := if k.team.isNone then k.cstate else if b then 3 else 2 }
/-- A store to the control region (R308): CCTL, ABASE and ABOUND while the core is stopped, the clearing of FLATCH. -/
def Core.controlWrite (k : Core) (off : Nat) (v : Word) : Core :=
  if off = 8 then k.setStop (v.getLsbD 0)
  else if off = 0x10 ∧ k.stop then { k with abase := v &&& 0xFFFFFFFFFFC0#64 }
  else if off = 0x18 ∧ k.stop then { k with abound := v &&& 0xFFFFFFFFFFC0#64 }
  else if off = 0x40 then { k with flatch := [] }
  else k
/-- A store of a front end is performed at a core (R58, R308). -/
def State.control (s : State) (n region off : Nat) (v : Word) : State :=
  if region = 5 then s.onCore n (·.controlWrite off v)
  else
    let i := off / 256 % 256
    (State.onCore { s with fresh := s.fresh + 1024 } n fun c =>
      { c with slots := tabSet c.slots i ((tabGet Slot.empty c.slots i).store s.fresh (off % 256) v) })

/-! ## Descriptors in the making (R173) -/

/-- A dword of a descriptor reaches the FCREATE that asked for it. -/
def Ctx.descPut (c : Ctx) (upc : Word) (level i : Nat) (w : Word × Bool) : Ctx :=
  { c with desc := c.desc.map fun d => if d.upc = upc ∧ d.level = level then { d with words := d.words.set i (some w) } else d }
/-- The descriptor is there: the FCREATE goes on. -/
def Ctx.descDone (c : Ctx) (uid : Nat) : Ctx := if c.uid = uid ∧ c.st = .desc then { c with st := .run } else c
/-- Dword i of a descriptor has been read; with the last one its request is performed, and its line enters the view (R83). -/
def State.descGot (s : State) (r : Req) (upc : Word) (level : Nat) (left : List Nat) (i : Nat) (w : Word × Bool) (enters : Bool) : State :=
  let at_ := fun (s : State) (f : Ctx → Ctx) => match s.holder r.uid with
    | some (n, x) => s.onCtx n x f
    | none => s
  let s := at_ s (·.descPut upc level i w)
  let rest := left.filter (· != i)
  if rest = [] then at_ ((if enters then s.enterL1 r else s).performed r) (·.descDone r.uid)
  else s.onReq r.id fun q => { q with op := .desc upc level rest }

/-- The front ends' window does not reach a holding team's cores, nor cores whose scrub has not ended (R359). -/
def State.shut (s : State) (n : Nat) : Bool :=
  s.teams.any fun t => t.2.holding && t.2.cores.contains n && (t.2.scrub || match t.2.phase with
    | .loading | .running | .stopping => true
    | _ => false)
/-- A store of a front end that the core it names does not admit when it is performed: regions 0 to 4 of a core that is shut (R359). -/
def State.refused (s : State) (r : Req) : Bool :=
  r.core == ioDie && match r.home, r.op with
    | _, .look _ _ _ _ _ => false
    | .core n, _ => s.shut n && r.addr / 2 ^ 27 % 8 != 5
    | _, _ => false

/-! ## Front ends as they read (R306) -/

def State.fep (s : State) (f : Nat) : Fep := tabGet Fep.reset s.feps f
def State.onFep (s : State) (f : Nat) (g : Fep → Fep) : State := { s with feps := tabSet s.feps f (g (s.fep f)) }
/-- A write of a register of a front end: x0 discards it, from 32 on f registers. -/
def Fep.put (q : Fep) (d : Nat) (v : Word) : Fep :=
  if d = 0 then q else if d < 32 then { q with x := tabSet q.x d v } else { q with f := tabSet q.f (d - 32) v }
/-- The dword of a core's region at an offset, as a front end finds it: zero of a core that is shut, and beyond an extent (R58, R359). -/
def State.coreDword (s : State) (c r off : Nat) : Word :=
  if fepExtent r < off + 8 ∨ (s.shut c ∧ r ≠ 5) then 0
  else if r = 5 then s.controlRead c off
  else if r = 2 then s.regWindow c off
  else if r = 3 then BitVec.ofNat 64 (leNat (((((s.core c).slot (off / 256)).bytes s.fresh).drop (off % 256)).take 8))
  else if r = 4 then 0
  else BitVec.ofNat 64 (memNat s.mem (winKey c r off) 8)
/-- n bytes of it. -/
def State.coreLook (s : State) (c r off n : Nat) : Nat := (s.coreDword c r (off / 8 * 8)).toNat / 256 ^ (off % 8) % 256 ^ n

/-! ## Steps at a home -/

/-- The key slot a sealed access names is not valid at its slice any more, or the line lies outside it (R354, R356). -/
def State.unsealable (s : State) (r : Req) (key : Nat) : Bool :=
  let va := r.va.toNat + key - r.addr
  match r.home with
  | .slice p _ =>
    let k := s.keySlot p r.slot
    r.slot != 0 && !(k.valid && !k.revoking && decide (k.base ≤ va) && decide (va < k.base + k.size))
  | _ => false
/-- The trap that a granule of a row load raises: 0x13, 0x0F of a poisoned word with its address, or 0x0F of tile bytes whose parity
fails, with 0 (R74, R354, R373). -/
def State.rowTrap (s : State) (r : Req) (p : Part) : Option (Nat × Word) :=
  let va := r.va + BitVec.ofNat 64 (p.addr - r.addr)
  if s.unsealable r p.addr then some (0x13, va)
  else if (coreOf r.home).isSome && r.addr / 2 ^ 27 % 8 == 1 && s.parityFails p.addr p.n then some (0x0F, 0)
  else if s.poisonedAny p.addr p.n || r.rbad then some (0x0F, va)
  else none
/-- The command that an engine number writes for: core, identity and unit. -/
def State.commandOf (s : State) (eng : Nat) : Option (Nat × List Nat × Word) :=
  let run := if eng % 2 = 0 then (s.core (eng / 2)).copyRun else (s.cluster (eng / 2)).iceRun
  run.map fun c => (c.core, c.who, c.upc)

/-- One step of a home: a whole single request, or granule j of a wider one. -/
def State.performAt (s : State) (r : Req) (j : Nat) : State :=
  match r.op with
  | .load n sext d =>
    let s := s.visit r r.addr
    let bytes := s.bytesAt r r.addr n
    let v := if coreOf r.home ≠ none ∧ r.addr / 2 ^ 27 % 8 = 2 then s.regWindow ((coreOf r.home).getD 0) (r.addr % 2 ^ 11)
             else extended n sext (leNat bytes)
    let s := if s.parityBad r n then s.reply { r with va := 0 } d v 0x0F else s.reply r d v (s.poisonErr r n)
    (s.enterL1 r).performed r
  | .store bytes => ((s.visit r r.addr).storeAt r r.addr bytes).performed r
  | .elem bytes whole =>
    let s := s.putBytes r.addr bytes
    (if whole then s.setPoison r.addr false else s).performed r
  | .look n sext d region off =>
    let s := s.visit r r.addr
    let v := match r.home with
      | .core c => s.coreLook c region off n
      | _ => leNat (s.bytesAt r r.addr n)
    (s.onFep r.ctx fun q => { q.put d (extended n sext v) with waits := false }).performed r
  | .ldc d =>
    if s.isFull r.addr && (s.waiters r.addr).isEmpty then
      let n := (coreOf r.home).getD 0
      let v : Word := BitVec.ofNat 64 (memNat s.mem r.addr 8)
      ((s.setFull n r.addr false).reply r d v (s.poisonErr r 8)).performed r
    else if r.noFill then s.performed r else s.onReq r.id fun q => { q with st := 2 }
  | .ldp d =>
    if s.isFull r.addr && (s.waiters r.addr).isEmpty then
      (s.reply r d (BitVec.ofNat 64 (memNat s.mem r.addr 8)) (s.poisonErr r 8)).performed r
    else if r.noFill then s.performed r else s.onReq r.id fun q => { q with st := 2 }
  | .stf v | .complete v => (s.fillWord ((coreOf r.home).getD 0) r.addr v r.bad).performed r
  | .sete => (s.setFull ((coreOf r.home).getD 0) r.addr false).performed r
  | .fest d =>
    let v := (if (s.waiters r.addr).isEmpty then 0 else 4) + (if s.poisoned r.addr then 2 else 0) + (if s.isFull r.addr then 1 else 0)
    (s.reply r d (BitVec.ofNat 64 v) 0).performed r
  | .amo op n d v c =>
    let s := s.visit r r.addr
    let m := leNat (s.bytesAt r r.addr n)
    if s.poisonedAny r.addr n then (s.reply r d 0 0x0F).performed r
    else
      let w := amoNew op (8 * n) m (v.toNat % 2 ^ (8 * n)) (c.toNat % 2 ^ (8 * n))
      let s := if w ≠ m ∨ op ≠ 9 then (let t := s.storeAt r r.addr (leBytes n w); if r.bad then t.setPoison r.addr true else t) else s
      (s.reply r d (extended n (n == 4) m) 0).performed r
  | .mail v => (s.onCore ((coreOf r.home).getD 0) fun c => { c with mbox := c.mbox ++ [(v, r.bad)] }).performed r
  | .event l =>
    (s.onCore ((coreOf r.home).getD 0) fun c => { c with sigq := c.sigq ++ [l] }).performed r
  | .lrln d block lines streams =>
    match r.home with
    | .slice p i =>
      let s := lines.foldl (fun s l => s.visitAs r l (streams.contains l)) s
      let words := (List.range lines.length).flatMap fun k => (List.range 16).map fun w =>
        let l := lines.getD k 0 + 8 * w
        (block + 64 + 128 * k + 8 * w, (BitVec.ofNat 64 (leNat (s.cells p l 8)) : Word), s.poisoned l || r.rbad)
      let s := if (s.holder r.uid).isSome then s.reserve p i r.uid lines else s
      (s.performed r).addReq { r with id := s.nextReq, cls := 3, counted := false, home := .core r.core, addr := block + 64, st := 1,
                                      came := s.cycle, arr := s.arrivalKey 0 r.core, begun := true,
                                      rtries := 0, rbad := false, op := .block d (BitVec.ofNat 64 lines.length) words }
    | _ => s.performed r
  | .block d v words =>
    match words[j]? with
    | none => s
    | some w =>
      let s := (s.putBytes w.1 (leBytes 8 w.2.1.toNat)).setPoison w.1 w.2.2
      if 1 < words.length then s.onReq r.id fun q => { q with op := .block d v (words.eraseIdx j) }
      else ((if d = 0 then s else s.reply r d v 0).performed r)
  | .desc upc level left =>
    match left[j]? with
    | none => s
    | some i =>
      let key := r.addr + 8 * i
      let s := s.visit r key
      s.descGot r upc level left i (BitVec.ofNat 64 (leNat (s.bytesAt r key 8)), s.poisoned key || r.rbad) true
  | .mig =>
    let v : Word := BitVec.ofNat 64 (memNat s.mem r.addr 8)
    let bad := s.poisoned r.addr
    State.performed { s with migs := s.migs.map fun m => if m.uid = r.uid then { m with got := some (v, bad) } else m } r
  | .fill uid v =>
    let n := (coreOf r.home).getD 0
    let x := r.addr % 2 ^ 11 / 128
    let c := s.ctxAt n x
    (if uid = 0 then (if r.bad then s.regPoison n (r.addr % 2 ^ 11) r.va else s.regFill n (r.addr % 2 ^ 11) v)
     else if r.addr / 8 % 16 ≠ 0 ∧ (c.uid = uid ∨ c.frames.any (·.uid == uid)) then
       (if r.bad then s.uidFault uid 0x0F r.va (s.pcOf uid) else s.landIn uid (s.ownReg uid (r.addr / 8 % 16)) v)
     else s).performed r
  | .control region off v => (if r.bad then s else s.control ((coreOf r.home).getD 0) region off v).performed r
  | .scln d uncond lines streams writes =>
    match r.home with
    | .slice p i =>
      let s := lines.foldl (fun s l => s.visitAs r l (streams.contains l)) s
      let ok := uncond || s.resv.any fun q => q.uid == r.uid && q.slice == (p, i) && q.lines == lines
      let s := if ok then
          (writes.foldl (fun s w => (s.sliceWrite p i w.1 0 0 (leBytes 8 w.2.1.toNat)).setPoison w.1 (w.2.2 || r.bad)) s).breakResv p i
            (writes.map (·.1 / 128))
        else s
      let s := { s with resv := s.resv.filter (·.uid != r.uid) }
      (s.reply r d (if ok then 0 else 1) 0).performed r
    | _ => s.performed r
  | .rowLd id ty els w ps =>
    let ps := ps.getD []
    match ps[j]? with
    | none => s
    | some p =>
      let e := s.rowTrap r p
      let s := if s.unsealable r p.addr then s else (s.visit r p.addr).hold r.core r.slot
      let s := s.joinPart id ty p (if s.unsealable r p.addr then [] else s.bytesAt r p.addr p.n) e
      if 1 < ps.length then s.onReq r.id fun q => { q with op := .rowLd id ty els w (some (ps.eraseIdx j)) }
      else ((s.enterL1 r).performed r).joinDone id
  | .rowSt ty d els w ps =>
    let ps := ps.getD []
    match ps[j]? with
    | none => s
    | some p =>
      let v := leavePart ty p d
      let s := ((s.visit r p.addr).storeAt r p.addr v.1).flagsTo r.uid v.2
      if 1 < ps.length then s.onReq r.id fun q => { q with op := .rowSt ty d els w (some (ps.eraseIdx j)) }
      else s.performed r
  | .engWrite eng prio hint bytes bad =>
    let s := if s.unsealable r r.addr then (match s.commandOf eng with
        | some c => s.engineFault c.1 c.2.1 0x13 r.va c.2.2
        | none => s)
      else
        let s := match r.home with
          | .slice p i => s.touch p i (r.addr / 128) r.slot (r.va.toNat / 128) prio hint
          | _ => s
        let s := s.storeAt r r.addr bytes
        if bad then s.setPoison r.addr true else s
    State.releaseUnits (s.dropReq r.id) eng fun k => (s.dropReq r.id).unitBusy eng k
  | .prefetch l1 =>
    (if s.unsealable r r.addr then s else if l1 then (s.visit r r.addr).enterL1 r else s.visit r r.addr).dropReq r.id

/-- The memory words that a step of a plain store writes: its granule j, or all of them; STF and SCLN poison their own (R195, R207). -/
def Req.written (r : Req) (j : Nat) : List Nat :=
  if (coreOf r.home).isSome && 2 ≤ r.addr / 2 ^ 27 % 8 then []
  else match r.op with
    | .store _ | .elem _ _ | .engWrite _ _ _ _ _ => [r.addr]
    | .rowSt _ _ _ _ (some ps) => (ps[j]?).toList.map (·.addr)
    | _ => []
/-- The words a packet with failed data words has written are poisoned (R365, R371). -/
def State.taint (s : State) (r : Req) (j : Nat) : State :=
  if r.bad then (r.written j).foldl (fun s k => s.setPoison k true) s else s

/-- HOME_PERFORM (R82): the home h performs request i, or its granule j; a request that meets an owned unit is held, and
one whose turn has not come stays. -/
def execHomePerform (h : Home) (i j : Nat) (s : State) : Out :=
  match s.req i with
  | none => .next s
  | some r =>
    if r.home ≠ h ∨ !(r.st = 1 ∨ r.st = 3) ∨ s.behind r ∨ !s.turnOf r then .next s
    else
      let r := s.begin r
      let s := s.onReq i fun _ => r
      if s.meetsOwned r j then .next (s.onReq i fun q => { q with st := 3 })
      else if s.refused r then .next (s.performed r)
      else .next ((s.performAt r j).taint r j)

/-! ## Delivery -/

/-- A request reaches its home; one from another core is a message received, but for an engine's write, which is part of its
command, a migration's load, which is received with its packets (R48), and a front end's (R52). -/
def State.arrive (s : State) (id : Nat) : State :=
  match s.req id with
  | none => s
  | some r =>
    let t := { s.onReq id (fun q => { q with st := 1, came := s.cycle, arr := s.arrivalKey r.cls r.core }) with arrivals := s.arrivals + 1 }
    match coreOf r.home with
    | some n => if n = r.core ∨ r.cls = 3 ∨ ioDie ≤ r.core ∨ r.op = .mig then t else t.onCore n fun c => { c with recv := c.recv + 1 }
    | none => t

/-- LOCAL_PORT_PASS (R79): in the cycle after it has issued, the oldest local request of the core passes to the home, or to the view
if the line is still there; a global load whose line has left the view takes its ordered lane, its destination as its issue left it: full,
and pending on the scoreboard (log 62). -/
def execLocalPortPass (c : Nat) (s : State) : Out :=
  match s.reqs.find? (fun r => r.cls == 0 && r.core == c && r.st == 0) with
  | none => .next s
  | some r =>
    if s.cycle ≤ r.born then .next s
    else match r.home with
      | .core _ => .next (s.arrive r.id)
      | _ => if (s.core c).l1Has r.addr r.va.toNat then .next (s.onReq r.id fun q => { q with st := 4 })
             else .next (s.onReq r.id fun q => { q with cls := 1 })

/-- A local request has stayed past the cycle after its issue: its port passes it before that cycle ends (R79). -/
def State.portsLate (s : State) : List Nat :=
  (s.reqs.filter fun r => r.cls == 0 && r.st == 0 && decide (r.born < s.cycle)).map (·.core)

/-- The oldest request of its lane that has not arrived. -/
def State.laneHead (s : State) (r : Req) : Bool :=
  r.cls == 1 && r.st == 0 && !(s.reqs.any fun q => q.cls == 1 && q.st == 0 && q.core == r.core && q.home == r.home && q.id < r.id)

/-- A full mailbox holds a word in its lane (R51). -/
def State.mailFull (s : State) (r : Req) : Bool :=
  match r.op, r.home with
  | .mail _, .core n => 16 ≤ (s.core n).mbox.length + (s.reqs.filter fun q => q.home == r.home && q.st == 1 && (match q.op with | .mail _ => true | _ => false)).length
  | _, _ => false

/-- The request stands in its lane at or behind mail for a full mailbox: only a receiver that runs can let it on. -/
def State.behindMail (s : State) (r : Req) : Bool :=
  r.cls == 1 && r.st == 0 &&
    s.reqs.any fun q => q.cls == 1 && q.st == 0 && q.core == r.core && q.home == r.home && decide (q.id ≤ r.id) && s.mailFull q

/-- LANE_DELIVER (R80): request i, the oldest of its lane, reaches its home. -/
def execLaneDeliver (i : Nat) (s : State) : Out :=
  match s.req i with
  | none => .next s
  | some r => if s.laneHead r && !s.mailFull r then .next (s.arrive i) else .next s

/-- POOL_DELIVER (R81): any request of the pool of core c reaches its home. -/
def execPoolDeliver (c i : Nat) (s : State) : Out :=
  match s.req i with
  | none => .next s
  | some r => if (r.cls = 2 ∨ r.cls = 3) ∧ r.core = c ∧ r.st = 0 then .next (s.arrive i) else .next s

/-- The view's bytes of a global key. -/
def Core.l1Bytes (c : Core) (key n : Nat) : List Byte :=
  match c.l1.find? (·.1 == key / 128) with
  | some l => (l.2.bytes.drop (key % 128)).take n
  | none => []
def Core.l1Bad (c : Core) (key n : Nat) : Bool :=
  match c.l1.find? (·.1 == key / 128) with
  | some l => (List.range ((n + 7) / 8)).any fun i => l.2.poison.contains (key % 128 / 8 + i)
  | none => false

/-- A number below n, 0 when there is no other, that the spec leaves open (R90: granules in any order). -/
def State.anyOf (s : State) (n : Nat) : Nat := if n ≤ 1 then 0 else (Config.freeWord s.fresh).toNat % n

/-- L1_VIEW_SERVE (R83): the view performs its oldest load, or a granule of it (R90); a line gone meanwhile sends what is left of
the load to its lane, its destination as its issue left it (log 62). -/
def execL1ViewServe (c : Nat) (s : State) : Out :=
  match s.reqs.find? (fun r => r.core == c && r.st == 4) with
  | none => .next s
  | some r =>
    let k := s.core c
    if !k.l1Has r.addr r.va.toNat then .next (s.onReq r.id fun q => { q with cls := 1, st := 0, begun := false })
    else
      let u := { s with fresh := s.fresh + 1 }
      match (s.begin r).op with
      | .load n sext d =>
        .next ((s.reply r d (extended n sext (leNat (k.l1Bytes r.addr n))) (if k.l1Bad r.addr n then 0x0F else 0)).dropReq r.id)
      | .rowLd id ty els w (some ps) =>
        let j := s.anyOf ps.length
        match ps[j]? with
        | none => .next (u.dropReq r.id)
        | some p =>
          let t := u.joinPart id ty p (k.l1Bytes p.addr p.n)
            (if k.l1Bad p.addr p.n then some (0x0F, r.va + BitVec.ofNat 64 (p.addr - r.addr)) else none)
          .next (if 1 < ps.length then t.onReq r.id fun q => { q with op := .rowLd id ty els w (some (ps.eraseIdx j)) }
                 else (t.dropReq r.id).joinDone id)
      | .desc upc level left =>
        match left[s.anyOf left.length]? with
        | none => .next (u.dropReq r.id)
        | some i =>
          let key := r.addr + 8 * i
          .next (u.descGot r upc level left i (BitVec.ofNat 64 (leNat (k.l1Bytes key 8)), k.l1Bad key 8) false)
      | _ => .next (s.dropReq r.id)

/-! ## Register fills (R28, R30) -/

/-- Earlier fills of the same register of the same thread, or of the same link, stand before this one. -/
def State.fillFirst (s : State) (i : Nat) : Bool :=
  match s.fills[i]? with
  | none => false
  | some f => !((s.fills.take i).any fun g => g.uid == f.uid && g.reg == f.reg && g.link == f.link)

/-- A message of core `src` has been received at core n, or at its own when its thread is no more (R52). -/
def State.received (s : State) (src : Option Nat) (n : Option Nat) : State :=
  match src with
  | some c => s.onCore (n.getD c) fun k => { k with recv := k.recv + 1 }
  | none => s

/-- A value under way reaches its thread, and its register waits for it no more: a trap that goes with it is raised, or it lands, with the
acquire it completes (R74, R88). -/
def State.fillLands (s : State) (f : RegFill) : State :=
  let s := (s.received f.src (s.homeOf f.uid)).replyCame f.uid f.reg
  if f.err ≠ 0 then s.uidFault f.uid f.err f.addr f.upc
  else
    let s := s.landIn f.uid f.reg f.val
    let s := if f.counted && f.acq != 0 then s.acquired f.uid else s
    if 2 ≤ f.acq then s.acquireFor f.uid else s

/-- REGISTER_FILL (R28, R36): the i-th value under way reaches its register or the family table, is held for a saved frame, or is
discarded. -/
def execRegisterFill (i : Nat) (s : State) : Out :=
  match s.fills[i]? with
  | none => .next s
  | some f =>
    if !s.fillFirst i then .next s
    else
      let s := { s with fills := s.fills.eraseIdx i }
      match f.link with
      | some l => .next ((s.received f.src (some l.fam.core)).linkTo l f.val (f.err != 0))
      | none => .next (s.fillLands f)

end Sys2Proof.Machine
end

