-- ==== Sys2Proof/Machine/Walk.lean ====
section
/-! DEFINITION. Translation walks (R339 to R341), the service of faults (R342) and invalidation (R343). -/

namespace Sys2Proof.Machine

open Sys2Proof

/-! ## Prefetches (R202) -/

/-- A prefetch of a context goes out by its thread's ordered lane, as a load that missed would; level 1, and a sealed page, fill the
home slice alone. It orders nothing. -/
def State.sendPref (s : State) (n x uid level va : Nat) (upc : Word) (p : Phys) : State :=
  let t := s.teamOf n
  if p.slot ≠ 0 ∧ !s.sealedOk t p.slot va then s
  else
    let r := s.nextOf 1 p.home p.key (BitVec.ofNat 64 va) p.slot p.stream 0 (.prefetch (level == 0 && p.slot == 0))
    s.addReq { r with uid := uid, core := n, ctx := x, upc := upc, fam := (s.ctxAt n x).fam, team := (s.core n).team, counted := false }

/-! ## Walks (R339, R341) -/

/-- What follows a walk that has found its leaf: its waiter goes on. -/
def State.walkEnds (s : State) (w : Walk) (t : TlbEntry) : State :=
  match w.who with
  | .pref n x u level upc => s.sendPref n x u level w.va upc (s.leafPhys w.vf w.va t)
  | q => s.release q

/-- One step of a walk that has a walker: a normal read of the entry at its home slice (R71, R339), then the next level, a
translation or a fault. -/
def State.walkStep (s : State) (i : Nat) : State :=
  match s.walks[i]? with
  | none => s
  | some w =>
    if !s.walking i then s
    else
      let p := s.vfPart w.vf
      let pa := w.table + 8 * (w.va % 2 ^ 49 / 2 ^ levelBits w.level % 2048)
      let s := match s.homeSlice p pa with
        | .slice _ j => s.touch p j (partKey p pa / 128) 0 0 0 0
        | _ => s
      let e : Word := BitVec.ofNat 64 (leNat (s.cells p (partKey p pa) 8))
      if !e.getLsbD 0 then State.fileFault { s with walks := s.walks.eraseIdx i } w false
      else if s.malformed p w.level e then State.fileFault { s with walks := s.walks.eraseIdx i } w true
      else if e.getLsbD 1 then
        let t : TlbEntry := { vf := w.vf, level := w.level, page := w.va / 2 ^ levelBits w.level, entry := e }
        let s := { s with walks := s.walks.eraseIdx i,
                          dieTlb := tabSet s.dieTlb (w.cl / 128) (tlbInsert 32768 (tabGet [] s.dieTlb (w.cl / 128)) t) }
        (s.onCluster w.cl fun k => { k with tlb := tlbInsert 512 k.tlb t }).walkEnds w t
      else { s with walks := s.walks.modify i fun w => { w with level := w.level + 1, table := bitsOf e 59 16 * 2 ^ 16 } }

/-- TRANSLATION_WALK (R339). -/
def execTranslationWalk (i : Nat) (s : State) : Out := .next (s.walkStep i)

/-! ## Replay and failure (R342) -/

/-- What tells a waiter's next attempt from this one: its thread's count of units, its command's number. -/
def State.markOf (s : State) : Waiter → Nat
  | .ctx n x _ => (s.ctxAt n x).instret.toNat
  | .copy n => ((s.core n).copyRun.map (·.id)).getD 0
  | .ice cl => ((s.cluster cl).iceRun.map fun c => c.id * 2 ^ 32 + c.chunk).getD 0
  | .grout cl => ((s.cluster cl).groutq.head?.map (·.id)).getD 0
  | _ => 0
/-- The command, or its chunk, has not begun again and does not stand at a fault. -/
def Command.standing (c : Command) (mark : Nat) : Bool := c.id == mark && !c.begun && !c.parked
def Command.chunkStanding (c : Command) (mark : Nat) : Bool := c.id * 2 ^ 32 + c.chunk == mark && c.phase == 0 && !c.parked
/-- A waiter that has been released is still to make its attempt. -/
def State.toTry (s : State) (mark : Nat) : Waiter → Bool
  | .ctx n x u => (s.ctxAt n x).uid == u && !(s.core n).stop && (s.ctxAt n x).instret.toNat == mark &&
      ((s.ctxAt n x).st == .run || (s.ctxAt n x).st == .walk)
  | .copy n => (s.core n).copyRun.any (·.standing mark)
  | .ice cl => (s.cluster cl).iceRun.any (·.chunkStanding mark)
  | .grout cl => (s.cluster cl).groutRun.isNone && !(s.cluster cl).groutWalk && (s.cluster cl).groutq.head?.any (·.id == mark)
  | .debug n x u => (s.ctxAt n x).uid == u && (s.ctxAt n x).st == .ecall && !(s.fq.any fun e => e.waiters.any (·.1 == .debug n x u))
  | .remote p => s.transfers.any fun q => q.id == p && !q.parked && q.grans.isNone
  | .pref _ _ _ _ _ | .ahead _ => false
/-- The next waiter of a replay is released once the one before it has made its attempt: parking order is the order of the
attempts. -/
def State.replayNext (s : State) (r : Replay) : State × Option Replay :=
  if s.toTry r.mark r.head then (s, some r)
  else match r.rest with
    | [] => (s, none)
    | w :: t => (s.release w, some { head := w, mark := s.markOf w, rest := t })
/-- The thread of a context has been released by a replay and is to make its parked unit again before anything else (R342). -/
def State.reissues (s : State) (n x : Nat) : Bool :=
  s.replays.any fun r => match r.head with
    | .ctx m y _ => m == n && y == x && s.toTry r.mark r.head
    | _ => false
/-- Every replay goes on as far as it can. -/
def State.replayOn (s : State) : State :=
  let q := s.replays.foldl (fun a r =>
    let b := a.1.replayNext r
    (b.1, a.2 ++ b.2.toList)) (s, [])
  { q.1 with replays := q.2 }

/-- An FEP's write to TINV or FRES waits for its stores to device memory (R338). -/
def State.fepQuiet (s : State) : Bool := !(s.reqs.any (·.core == ioDie))

/-- FRES act 1 (R342): the page is invalidated as TINV mode 1 would, the entry freed, and the waiters go on in parking order. -/
def execFresReplay (d e : Nat) (s : State) : Out :=
  match s.fq.find? (fun f => f.die == d && f.index == some e) with
  | none => .next s
  | some f =>
    if !s.fepQuiet then .next s
    else
      let s := s.tlbDrop f.vf (some (f.page * 2 ^ 16))
      let s := State.fqAdmit { s with fq := s.fq.filter (· ≠ f) } d
      match f.waiters.map (·.1) with
      | [] => .next s
      | w :: t => .next { s.release w with replays := s.replays ++ [{ head := w, mark := s.markOf w, rest := t }] }

/-- The thread or command that fails raises 0x05 as a team fault (R311, R342), with the address. -/
def State.failWaiter (s : State) (va : Nat) : Waiter → State
  | .ctx n x u =>
    if (s.ctxAt n x).stoppedAt u then s.threadFault n x 5 (BitVec.ofNat 64 va) (s.ctxAt n x).pc else s
  | .debug n x u =>
    if (s.ctxAt n x).uid = u ∧ (s.ctxAt n x).st = .ecall then s.threadFault n x 5 (BitVec.ofNat 64 va) (s.ctxAt n x).pc else s
  | .remote p =>
    { s with transfers := s.transfers.filter (·.id != p), reports := s.reports ++ (s.transfers.filter (·.id == p)).map fun q => (q.pkg, 1, []) }
  | .copy n =>
    match (s.core n).copyRun with
    | none => s
    | some c => (s.onCore n fun k => { k with copyRun := none, recv := k.recv + 1 }).engineFault c.core c.who 5
                  (BitVec.ofNat 64 va) c.upc
  | .ice cl =>
    match (s.cluster cl).iceRun with
    | none => s
    | some c => ((s.onCluster cl fun k => { k with iceRun := none, iceAhead := none }).onCore c.core fun k =>
        { k with recv := k.recv + 1 }).engineFault c.core c.who 5 (BitVec.ofNat 64 va) c.upc
  | .grout cl =>
    match (s.cluster cl).groutq with
    | [] => s
    | e :: t =>
      let s := s.onCluster cl fun k => { k with groutq := t, groutWalk := false }
      s.engineFault e.fam.core (s.fam e.fam).who 5 (BitVec.ofNat 64 va) (s.fam e.fam).upc
  | .pref _ _ _ _ _ | .ahead _ => s

/-- FRES act 2 (R342): every waiter raises 0x05 as a team fault, and the entry is freed. -/
def execFresFail (d e : Nat) (s : State) : Out :=
  match s.fq.find? (fun f => f.die == d && f.index == some e) with
  | none => .next s
  | some f =>
    if !s.fepQuiet then .next s
    else .next (f.waiters.foldl (fun s w => s.failWaiter w.2 w.1) (State.fqAdmit { s with fq := s.fq.filter (· ≠ f) } d))

/-! ## Invalidation (R343) -/

/-- The fields a write of TINV sets: mode, VF, page. -/
def tinvMask : Word := 0x0001FFFFFFFFFF03#64
/-- What TINV covers: the VF, and the page's address in mode 1. -/
def State.tinvPage (s : State) : Option Nat := if bitsOf s.tinv 1 0 = 1 then some (bitsOf s.tinv 48 16 * 2 ^ 16) else none
/-- The covered entries leave the TLBs of the partition. -/
def State.tinvDrop (s : State) : State :=
  if bitsOf s.tinv 1 0 = 0 then s else s.tlbDrop (bitsOf s.tinv 15 8) s.tinvPage
/-- A write of TINV: ignored while busy and in mode 3; busy stands until TINV_COMPLETE. -/
def State.tinvWrite (s : State) (val : Word) : State :=
  if s.tinv.getLsbD 63 ∨ bitsOf val 1 0 = 3 ∨ !s.fepQuiet then s
  else State.tinvDrop { s with tinv := (1#64 <<< 63) ||| (val &&& tinvMask) }

/-- TINV mode 1 (R343). -/
def execTinvPage (v page : Nat) (s : State) : Out :=
  .next (s.tinvWrite (BitVec.ofNat 64 (page % 2 ^ 33 * 2 ^ 16 + v % 256 * 256 + 1)))

/-- TINV mode 2 (R343): the page that the write holds beside it is anything (log 7). -/
def execTinvVf (v : Nat) (s : State) : Out :=
  .next ({ s with fresh := s.fresh + 1 }.tinvWrite
    (BitVec.ofNat 64 (bitsOf (Config.freeWord s.fresh) 48 16 * 2 ^ 16 + v % 256 * 256 + 2)))

/-- The VF of the team of a core. -/
def State.vfOf (s : State) (n : Nat) : Nat := (s.teamOf n).vf
/-- A command that has begun has reads or writes to make. -/
def Command.underWay (c : Command) : Bool := c.begun && (c.grans.any (·.got.isNone) || c.pieces.any (!·.done))
/-- Requests of a VF's teams that are not performed, its engines' included, and its walks. -/
def State.vfPending (s : State) (v : Nat) : Bool :=
  s.reqs.any (fun r => decide (r.core < ioDie) && s.vfOf r.core == v && (match r.home with | .core _ => false | _ => true)) ||
    s.walks.any (fun w => w.vf == v) || s.transfers.any (fun q => q.vf == v && q.grans.any fun l => l.any (·.got.isNone)) ||
    s.cores.any (fun c => s.vfOf c.1 == v && c.2.copyRun.any (·.underWay)) ||
    s.clusters.any (fun k => (k.2.iceRun.toList ++ k.2.iceAhead.toList).any (fun c => c.underWay && s.vfOf c.core == v) ||
      k.2.groutRun.any fun g => s.vfOf g.fam.core == v)
/-- A TLB of the partition holds a covered entry. -/
def State.tinvHeld (s : State) : Bool :=
  let v := bitsOf s.tinv 15 8
  let cls := s.vfClusters v
  bitsOf s.tinv 1 0 != 0 && (cls.any (fun cl => (s.cluster cl).tlb.any (·.covered v s.tinvPage)) ||
    s.dieTlb.any fun d => cls.any (fun cl => cl / 128 == d.1) && d.2.any (·.covered v s.tinvPage))

/-- TINV_COMPLETE (R343): busy clears once no TLB holds a covered entry and no request translated under one is under way (requests
of the VF; log 12). An entry that a walk has brought in meanwhile is invalidated too. -/
def execTinvComplete (s : State) : Out :=
  if !s.tinv.getLsbD 63 then .next s
  else if s.tinvHeld then .next s.tinvDrop
  else if bitsOf s.tinv 1 0 ≠ 0 ∧ s.vfPending (bitsOf s.tinv 15 8) then .next s
  else .next { s with tinv := s.tinv &&& ~~~ (1#64 <<< 63) }

end Sys2Proof.Machine
end

