-- ==== Sys2Proof/Machine/Sync.lean ====
section
/-! DEFINITION. Full/empty instructions, fences, acquire and release accesses, the migrating load, cache maintenance,
atomics, multi-line loads and commits (R192 to R209). -/

namespace Sys2Proof.Machine

open Sys2Proof

/-! ## Scopes and outstanding requests (R85 to R88) -/

/-- The scope of a code: at levels 1 and 2 code 2 is package and 3 is system (R86, R147). -/
def scopeOf (level : Nat) (s : BitVec 5) : Nat := if level < 3 ∧ 2 ≤ s.toNat then s.toNat + 1 else s.toNat

/-- A request counts as unperformed at a scope: at a host page, below system scope, until the I/O die accepts it (R86). -/
def Req.open (r : Req) (scope : Nat) : Bool := !(r.home == .host && scope < 4 && r.st != 0)

/-- Earlier requests of a thread in classes up to `cls` (0 local, 1 and ordered, 2 and adaptive) are unperformed at a scope, or at the
wider one an atomic carries (R86, R204; log 48); a matrix operation counts in the local class (R249). -/
def State.pending (s : State) (uid cls scope before : Nat) : Bool :=
  s.reqs.any (fun r => r.uid == uid && r.counted && r.cls ≤ cls && decide (r.id < before) && r.open (max scope r.scope)) ||
    s.cores.any (fun c => c.2.mat.any fun m => m.uid == uid && decide (m.id < before))

/-- The scope of STF and LDC: cluster in the own cluster, die in the own die, else package (R88). -/
def meetScope (me n : Nat) : Nat := if me / 16 = n / 16 then 1 else if me / 2048 = n / 2048 then 2 else 3

/-- A unit that must wait for earlier requests of classes up to `cls` issues only when none is left (R87, R88). -/
def State.afterAll (s : State) (cls scope : Nat) (k : Out) : Out :=
  if s.pending s.cur.uid cls scope s.nextReq then .next s else k

/-! ## Full/empty instructions (R194, R195) -/

/-- A full/empty request: the local port at the own core, an ordered lane to another (R77). -/
def State.feIssue (s : State) (p : Phys) (va : Word) (acq : Nat) (op : ReqOp) : State :=
  s.issueReq (if p.home = .core s.iss.core then 0 else 1) p.home p.key va 0 false acq op

/-- LDC, LDP, FEST: the destination is empty until the fill, wherever the word stands (R28). -/
def State.feLoad (s : State) (d a : XReg) (acquire : Bool) (op : Nat → ReqOp) : Out :=
  if s.misuse [a] [d] then s.trapOut 0x0E 0
  else
    let va := s.rd a
    s.withAccess va 8 8 false [0] false false fun p _ _ =>
      let t := s.cur.dest d
      let acq := if acquire then 1 + meetScope s.iss.core ((coreOf p.home).getD 0) else 0
      (((s.pops [a]).feIssue p va acq (op t)).onCur fun c =>
        { (c.await t true) with acq := c.acq + (if acquire then 1 else 0) }).retire

def execLdc (d a : XReg) (s : State) : Out := s.feLoad d a true .ldc
def execLdp (d a : XReg) (s : State) : Out := s.feLoad d a false .ldp
def execFest (d a : XReg) (s : State) : Out := s.feLoad d a false .fest
/-- STF is a release over the local and ordered classes (R88). -/
def execStf (a b : XReg) (s : State) : Out :=
  if s.misuse [a, b] [] then s.trapOut 0x0E 0
  else
    let va := s.rd a
    let scope := match classify s.iss.core va with
      | .window n _ _ => meetScope s.iss.core n
      | _ => 3
    match s.access s.iss.core va 8 8 true [0] false false with
    | .ok _ _ _ =>
      s.afterAll 1 scope (s.withAccess va 8 8 true [0] false false fun p _ _ =>
        ((s.pops [a, b]).feIssue p va 0 (.stf (s.rd b))).retire)
    | _ => s.withAccess va 8 8 true [0] false false fun _ _ _ => s
def execSete (a : XReg) (s : State) : Out :=
  if s.misuse [a] [] then s.trapOut 0x0E 0
  else
    let va := s.rd a
    s.withAccess va 8 8 true [0] false false fun p _ _ => ((s.pops [a]).feIssue p va 0 .sete).retire

/-! ## Fences (R87, R198) -/

/-- A fence that stalls until earlier requests up to a class are performed at its scope. -/
def State.fence (s : State) (cls : Nat) (sc : BitVec 5) : Out := s.afterAll cls (scopeOf s.here.level sc) (.next s.retire)

def execFenceO (sc : BitVec 5) (s : State) : Out := s.fence 1 sc
def execFenceA (sc : BitVec 5) (s : State) : Out := s.fence 2 sc
/-- FENCE.ALL: later commands are released at issue, as the fence itself has waited. -/
def execFenceAll (sc : BitVec 5) (s : State) : Out :=
  s.afterAll 2 (scopeOf s.here.level sc) (.next (s.onCur fun c => { c with xfence := [] }).retire)
/-- The condition of a FENCE.X does not hold yet. -/
def State.fenceOpen (s : State) (f : FenceX) : Bool := s.pending f.1 2 f.2.2 f.2.1
/-- FENCE.X marks later commands with its condition, beside those of earlier ones that do not hold yet (R87). -/
def execFenceX (sc : BitVec 5) (s : State) : Out :=
  .next (s.onCur fun c => { c with xfence := c.xfence.filter s.fenceOpen ++ [(c.uid, s.nextReq, scopeOf s.here.level sc)] }).retire

/-! ## LDAQ and STRL (R199) -/

/-- LDAQ is performed at the home, never by the view, and its acquire ends at its delivery; its line does not enter the view (R83;
log 47). Its destination is empty until the reply (R28). -/
def execLdaq (d a : XReg) (sc : BitVec 5) (s : State) : Out :=
  if s.misuse [a] [d] then s.trapOut 0x0E 0
  else
    let va := s.rd a
    s.withAccess va 8 8 false [0, 1, 2] true false fun p _ _ =>
      let t := s.cur.dest d
      let cls := if p.home = .core s.iss.core then 0 else 1
      let q := s.pops [a]
      let r := q.nextOf cls p.home p.key va p.slot p.stream (1 + scopeOf s.here.level sc) (.load 8 true t)
      ((q.addReq { r with noFill := true }).onCur fun c => { (c.await t true) with acq := c.acq + 1 }).retire

/-- STRL is a release over all three classes. -/
def execStrl (a b : XReg) (sc : BitVec 5) (s : State) : Out :=
  match s.access s.iss.core (s.rd a) 8 8 true [0, 1, 2, 4] true false with
  | .ok _ _ _ => s.afterAll 2 (scopeOf s.here.level sc) (s.scalarStore b a (s.rd a) 8)
  | _ => s.scalarStore b a (s.rd a) 8

/-! ## LDMIG (R47, R200) -/

/-- The lowest member slot of a core that holds no thread and expects none (R14, R47); a member that starts takes the lowest too, which
R34 leaves open, and the slot a migrating thread leaves is free once its load has found its word (log 49). -/
def State.freeSlot (s : State) (n : Nat) : Option Nat :=
  (List.range 15).findSome? fun i =>
    if (s.ctxAt n (i + 1)).uid = 0 ∧ !(s.migs.any fun m => m.toCore == n && m.toCtx == i + 1 ||
        m.fromCore == n && m.fromCtx == i + 1 && m.got.all (·.2)) then some (i + 1) else none

/-- All registers but the destination are full (R47). -/
def Ctx.fullBut (c : Ctx) (t : Nat) : Bool := (List.range 15).all fun i => i + 1 == t || c.fe.getLsbD (i + 1)

/-- The conditions of R47 and R200 for a load of a word of core n. -/
def State.migrates (s : State) (t n region : Nat) : Option Nat :=
  let c := s.cur
  let fam := c.fam.any fun f => (s.fam f).desc.mig
  let here := region == 0 && n != s.iss.core && n / 16 == s.iss.core / 16
  let member := c.kind == 1 && c.frames.isEmpty && fam && c.lease.isEmpty && c.fullBut t
  let plain := c.qcfg &&& 0x8888 == 0 && !c.inLh && !c.inEm && !c.mben && !(s.here.level == 2 && s.here.compat.testBit 9)
  if here && member && plain then s.freeSlot n
  else none

/-- LDMIG: the thread leaves in two packets for the home core, its load by the ordered lane; or the load is an ordinary one, with
its destination empty until the reply (R28, R200). -/
def execLdmig (d a : XReg) (s : State) : Out :=
  let va := s.rd a
  match s.access s.iss.core va 8 8 false [0, 1, 2] true false with
  | .ok p r _ =>
    let t := s.cur.dest d
    match s.migrates t ((coreOf p.home).getD s.iss.core) (if (coreOf p.home).isSome then r else 8) with
    | some x =>
      if s.misuse [a] [d] then s.trapOut 0x0E 0
      else
        s.afterAll 2 1
          (let q := s.addReq { s.nextOf 1 p.home p.key va 0 false 0 .mig with counted := false }
           .next (State.onCur { q with
             migs := q.migs ++ [{ uid := s.cur.uid, fromCore := s.iss.core, fromCtx := s.iss.ctx, toCore := (coreOf p.home).getD 0,
                                  toCtx := x, reg := t, addr := va.toNat, ctx := { s.cur.retire s.iss.npc with qcfg := 0 }, got := none,
                                  upc := s.iss.upc, tries := 0 }],
             resv := q.resv.filter (·.uid != s.cur.uid) } fun _ => Ctx.empty))
    | none => s.loadAs d a va 8 true true
  | _ => s.loadAs d a va 8 true true

/-- MIGRATION_INSTALL (R48): once its load has been performed at the home core, the thread resumes in its slot there, with tp's low
byte rewritten (R15). A poisoned word is a fault of the LDMIG on the core the thread stood on, and the thread does not move (R200). -/
def execMigrationInstall (i : Nat) (s : State) : Out :=
  match s.migs[i]? with
  | none => .next s
  | some m =>
    match m.got with
    | none => .next s
    | some (v, bad) =>
      let s := State.onCore { s with migs := s.migs.eraseIdx i } m.toCore fun c => { c with recv := c.recv + 1 }
      if bad then
        .next ((s.onCtx m.fromCore m.fromCtx fun _ => { m.ctx with pc := m.upc, instret := m.ctx.instret - 1 }).threadFault m.fromCore
          m.fromCtx 0x0F (BitVec.ofNat 64 m.addr) m.upc)
      else
        let c := if m.reg = 0 then m.ctx else (m.ctx.setRegAt m.reg v).markFull m.reg
        let tp := c.regAt 4
        let c := c.setRegAt 4 ((tp >>> 8 <<< 8) ||| BitVec.ofNat 64 (ident m.toCore m.toCtx % 256))
        let s := s.onCtx m.toCore m.toCtx fun _ => c
        .next (match c.fam with
          | some f => s.onFam f fun g => { g with running := g.running.map fun r =>
              if r.2.2.2 = m.uid then (r.1, m.toCore, m.toCtx, m.uid) else r }
          | none => s)

/-! ## CINV and PREF (R201, R202) -/

/-- A virtual line overlaps the bytes a CINV names. -/
def covers (a n line : Nat) : Bool := n == 0 || decide (2 ^ 49 < a + n) || (decide (a / 128 ≤ line) && decide (line ≤ (a + n - 1) / 128))

def execCinv (a b : XReg) (s : State) : Out :=
  if s.misuse [a, b] [] then s.trapOut 0x0E 0
  else
    let x := (s.rd a).toNat
    let n := (s.rd b).toNat
    let me := s.iss.core
    let s := s.pops [a, b]
    let s := s.onHere fun c => { c with l1 := c.l1.filter fun l => !covers x n l.2.va }
    let hit := fun r : Req => r.core == me && coreOf r.home == none && covers x n (r.va.toNat / 128)
    .next (State.retire { s with reqs := s.reqs.map fun r => if hit r then { r with noFill := true } else r })

/-- PREF (R202): dropped at any time, and always for an address that is not global, a page that is not permitted, and while no
walker is idle; a page that no TLB holds is walked for. -/
def execPref (a : XReg) (l : BitVec 1) (s : State) : Out :=
  if s.misuse [a] [] then s.trapOut 0x0E 0
  else
    let va := s.rd a &&& ~~~ 127#64
    let t := { s.pops [a] with fresh := s.fresh + 1 }
    let c := s.cur
    if (Config.freeWord s.fresh).getLsbD 0 then .next t.retire
    else match s.access s.iss.core va 128 1 false [] true true with
      | .ok p _ _ => .next (t.sendPref s.iss.core s.iss.ctx c.uid l.toNat va.toNat s.iss.upc p).retire
      | .miss m =>
        .next (if s.walkerIdle (s.iss.core / 2048) then
          t.startWalk (s.iss.core / 16) (s.vfOf s.iss.core) m false (.pref s.iss.core s.iss.ctx c.uid l.toNat s.iss.upc)
        else t).retire
      | .trap _ => .next t.retire

/-! ## Atomics (R203, R204) -/

/-- An atomic: operation, bytes, scope, destination, address and operand registers; acas compares with the destination. -/
def State.atomic (s : State) (op : Nat) (w : BitVec 1) (sc : BitVec 2) (d a b : XReg) : Out :=
  let n := if w = 1 then 8 else 4
  let srcs := if op = 9 then [a, b, d] else [a, b]
  if s.misuse srcs [d] then s.trapOut 0x0E 0
  else
    let va := s.rd a
    s.withAccess va n n true [0] true false fun p _ g =>
      let t := s.cur.dest d
      let cls := if p.home = .core s.iss.core then 0 else 1
      let v := s.rd b
      let c := s.rd d
      let q := s.pops srcs
      let s := q.addReq { q.nextOf cls p.home p.key va p.slot p.stream 0 (.amo op n t v c) with scope := sc.toNat + 1 }
      ((if g then s.onHere (·.l1Drop p.key) else s).onCur (·.await t true)).retire

def execAadd (w : BitVec 1) (sc : BitVec 2) (d a b : XReg) (s : State) : Out := s.atomic 0 w sc d a b
def execAand (w : BitVec 1) (sc : BitVec 2) (d a b : XReg) (s : State) : Out := s.atomic 1 w sc d a b
def execAor (w : BitVec 1) (sc : BitVec 2) (d a b : XReg) (s : State) : Out := s.atomic 2 w sc d a b
def execAxor (w : BitVec 1) (sc : BitVec 2) (d a b : XReg) (s : State) : Out := s.atomic 3 w sc d a b
def execAsmin (w : BitVec 1) (sc : BitVec 2) (d a b : XReg) (s : State) : Out := s.atomic 4 w sc d a b
def execAsmax (w : BitVec 1) (sc : BitVec 2) (d a b : XReg) (s : State) : Out := s.atomic 5 w sc d a b
def execAumin (w : BitVec 1) (sc : BitVec 2) (d a b : XReg) (s : State) : Out := s.atomic 6 w sc d a b
def execAumax (w : BitVec 1) (sc : BitVec 2) (d a b : XReg) (s : State) : Out := s.atomic 7 w sc d a b
def execAswap (w : BitVec 1) (sc : BitVec 2) (d a b : XReg) (s : State) : Out := s.atomic 8 w sc d a b
def execAcas (w : BitVec 1) (sc : BitVec 2) (d a b : XReg) (s : State) : Out := s.atomic 9 w sc d a b
def execAfadd (sc : BitVec 2) (d a b : XReg) (s : State) : Out := s.atomic 10 0 sc d a b
def execAfaddb (sc : BitVec 2) (d a b : XReg) (s : State) : Out := s.atomic 11 0 sc d a b

/-! ## LRLN and SCLN (R205 to R207) -/

/-- Dword i of the block at a key. -/
def State.dword (s : State) (key i : Nat) : Word := BitVec.ofNat 64 (memNat s.mem (key + 8 * i) 8)

/-- Whether a block's header breaks a rule that needs no translation (R205). -/
def State.blockBad (s : State) (key : Nat) (commit : Bool) : Bool :=
  let d0 := s.dword key 0
  let n := bitsOf d0 2 0
  let lines := (List.range n).map fun k => (s.dword key (k + 1)).toNat
  n == 0 || 4 < n || bitsOf d0 63 9 != 0 || bitsOf d0 7 3 != 0 || (!commit && d0.getLsbD 8) ||
    lines.any (fun l => 2 ^ 49 ≤ l || l % 128 != 0) || decide (¬ lines.Nodup) ||
    ((List.range 4).any fun k => n ≤ k && ((s.dword key (k + 1)).toNat != 0 || (commit && bitsOf (s.dword key 5) (16 * k + 15) (16 * k) != 0))) ||
    s.dword key 6 != 0 || s.dword key 7 != 0

/-- The tables, as they stand, have a leaf for an address: at most k more levels are read. -/
def State.present (s : State) (vf va : Nat) : Nat → Nat → Nat → Bool
  | 0, _, _ => false
  | k + 1, level, table =>
    let p := s.vfPart vf
    let e : Word := BitVec.ofNat 64 (leNat (s.cells p (partKey p (table + 8 * (va % 2 ^ 49 / 2 ^ levelBits level % 2048))) 8))
    e.getLsbD 0 && !s.malformed p level e && (e.getLsbD 1 || State.present s vf va k (level + 1) (bitsOf e 59 16 * 2 ^ 16))
/-- The page of an address is present in the tables of a VF (R339). -/
def State.mapped (s : State) (vf va : Nat) : Bool := s.present vf va 3 1 (bitsOf (tabGet 0 s.troot vf) 48 16 * 2 ^ 16)
/-- Two of the lines whose places are known have different homes, or one lies in host memory (R205). -/
def homesDiffer (ps : List Phys) : Bool := ps.any fun p => p.home == .host || some p.home != (ps.head?.map (·.home))

/-- The checks of a commit block in the order of R205, then what the instruction does with the lines' places. What it reads of the
block, and the lines, must show the thread's own earlier writes (R78). Pages that are present are looked up before one that is not parks the
unit: a home apart, or a host page, is trap 0x0B whatever the other lines' pages. -/
def State.withBlock (s : State) (a : XReg) (commit : Bool) (k : Nat → List Nat → List Phys → State) : Out :=
  let va := s.rd a
  let t := s.teamOf s.iss.core
  if va.toNat % 64 ≠ 0 then s.trapOut 3 va
  else match classify s.iss.core va with
    | .window n 0 off =>
      if n ≠ s.iss.core ∨ 2 ^ 18 < off + 576 then s.trapOut 4 va
      else
        let key := winKey n 0 off
        if s.spadWaits key 64 then .next s
        else if s.blockBad key commit then s.trapOut 0x0B va
        else
          let lines := (List.range (bitsOf (s.dword key 0) 2 0)).map fun k => (s.dword key (k + 1)).toNat
          let ps := lines.map fun l => s.translate (s.iss.core / 16) t.vf l
          if commit && s.spadWaits (key + 64) (128 * lines.length) then .next s
          else if homesDiffer (ps.filterMap id) then s.trapOut 0x0B va
          else
            let away := (lines.zip ps).filter fun q => q.2.isNone
            match (away.filter fun q => s.mapped t.vf q.1) ++ away with
            | q :: _ => .next (s.walkCur q.1 commit)
            | [] =>
              let ps := ps.filterMap id
              match (lines.zip ps).find? (fun q => commit && !q.2.write) with
              | some q => s.trapOut 6 (BitVec.ofNat 64 q.1)
              | none =>
                match (lines.zip ps).find? (fun q => q.2.slot != 0) with
                | some q => s.trapOut 0x13 (BitVec.ofNat 64 q.1)
                | none => if ps.any fun p => s.poolHolds s.cur.uid p.key 128 then .next s else .next (k key lines ps)
    | _ => s.trapOut 4 va

/-- The lines leave the core's L1 view, and one ordered request goes to their home (R206, R207). -/
def State.multiLine (s : State) (a d : XReg) (ps : List Phys) (lines : List Nat) (op : ReqOp) : State :=
  let t := s.cur.dest d
  match ps.head? with
  | none => s
  | some p =>
    let s := (s.pops [a]).issueReq 1 p.home p.key (BitVec.ofNat 64 (lines.headD 0)) 0 p.stream 0 op
    ((ps.foldl (fun s q => s.onHere (·.l1Drop q.key)) s).onCur (·.await t true)).retire

/-- Issuing it ends the thread's earlier reservation (R208). -/
def execLrln (d a : XReg) (s : State) : Out :=
  if s.misuse [a] [d] then s.trapOut 0x0E 0
  else s.withBlock a false fun key lines ps =>
    State.multiLine { s with resv := s.resv.filter (·.uid != s.cur.uid) } a d ps lines (.lrln (s.cur.dest d) key (ps.map (·.key))
      ((ps.filter (·.stream)).map (·.key)))

def execScln (d a : XReg) (s : State) : Out :=
  if s.misuse [a] [d] then s.trapOut 0x0E 0
  else s.withBlock a true fun key lines ps =>
    let masks := s.dword key 5
    let writes := (List.range ps.length).flatMap fun k => (List.range 16).filterMap fun w =>
      if masks.getLsbD (16 * k + w) then
        let src := key + 64 + 128 * k + 8 * w
        some (((ps.map (·.key)).getD k 0) + 8 * w, s.dword src 0, s.poisoned src)
      else none
    s.multiLine a d ps lines (.scln (s.cur.dest d) ((s.dword key 0).getLsbD 8) (ps.map (·.key))
      ((ps.filter (·.stream)).map (·.key)) writes)

end Sys2Proof.Machine
end

