-- ==== Sys2Proof/Machine/Queue.lean ====
section
/-! DEFINITION. Neighbour queues (R49, R186, R187) and light handlers (R50, R188 to R190). -/

namespace Sys2Proof.Machine

open Sys2Proof

/-! ## Mapping -/

/-- The core beyond a direction on the 4 × 4 grid: 0 N, 1 E, 2 S, 3 W (R186). -/
def peerOf (n d : Nat) : Option Nat :=
  let c := n % 16
  if d = 0 then (if 4 ≤ c then some (n - 4) else none)
  else if d = 1 then (if c % 4 ≠ 3 then some (n + 1) else none)
  else if d = 2 then (if c < 12 then some (n + 4) else none)
  else (if c % 4 ≠ 0 then some (n - 1) else none)

/-- Field q of qcfg. -/
def qField (v : BitVec 16) (q : Nat) : Nat := v.toNat / 16 ^ q % 16
/-- qcfg with field q replaced. -/
def setQField (v : BitVec 16) (q f : Nat) : BitVec 16 := BitVec.ofNat 16 (v.toNat - qField v q * 16 ^ q + f % 16 * 16 ^ q)
/-- Queue q of a context is mapped. -/
def Ctx.isMapped (c : Ctx) (q : Nat) : Bool := 8 ≤ qField c.qcfg q
/-- Some context of the core maps the physical queue of a direction: inbound by q0 or q1, outbound by q2 or q3. -/
def Core.queueTaken (c : Core) (q d : Nat) : Bool :=
  c.ctxs.any fun x =>
    [q / 2 * 2, q / 2 * 2 + 1].any fun i => x.2.isMapped i && qField x.2.qcfg i % 4 == d

/-- A result pends on the register a queue maps, as its own or as a push on the queue (R27, R186). -/
def Ctx.queuePends (c : Ctx) (r : Nat) : Bool := c.pend.getLsbD r || c.pend.getLsbD (c.ownTag r)

/-- QMAP of the issuing context, or none where it raises 0x0E. -/
def State.qmap (s : State) (q d : Nat) : Option State :=
  match peerOf s.iss.core d with
  | none => none
  | some p =>
    if !(s.teamOf s.iss.core).cores.contains p || s.cur.isMapped q || s.here.queueTaken q d || s.cur.inLh then none
    else some (s.onCur fun c => { c with qcfg := setQField c.qcfg q (8 + d) })

/-- QUNMAP: the register reads 0 and is full; words stay in the queue. -/
def State.qunmap (s : State) (q : Nat) : Option State :=
  if s.cur.isMapped q then
    some (s.onCur fun c => { ((c.setRegAt (c.ownTag (5 + q)) 0).markFull (c.ownTag (5 + q))) with qcfg := setQField c.qcfg q 0 })
  else none

/-- A chain of mappings that stops at the first trap. -/
def State.qsteps (s : State) (f : State → Nat → Option State) : List Nat → Option State
  | [] => some s
  | q :: t => match f s q with
    | none => none
    | some s' => State.qsteps s' f t

/-- A write of qcfg (R168): QUNMAP of each mapped queue whose field changes, then QMAP of each field newly mapped; the
direction bits of an unmapped field are stored (log 14). -/
def State.qcfgWrite (s : State) (v : Word) : Option State :=
  let new : BitVec 16 := v.truncate 16 &&& 0xBBBB
  let old := s.cur.qcfg
  let moved := (List.range 4).filter fun q => qField new q != qField old q
  match s.qsteps (fun s q => if s.cur.isMapped q then s.qunmap q else some s) moved with
  | none => none
  | some s =>
    match s.qsteps (fun s q => if 8 ≤ qField new q then s.qmap q (qField new q % 4) else some s) moved with
    | none => none
    | some s => some (s.onCur fun c => { c with qcfg := new })

def execQmap (q e : BitVec 2) (s : State) : Out :=
  match s.qmap q.toNat e.toNat with
  | none => s.trapOut 0x0E 0
  | some t => .next t.retire

/-- QUNMAP acts on the mapping inside a light handler too, where QCTL and QSTAT see none (log 20). -/
def execQunmap (q : BitVec 2) (s : State) : Out :=
  match s.qunmap q.toNat with
  | none => s.trapOut 0x0E 0
  | some t => .next t.retire

/-- QCTL pushes a control word on the queue that q2 or q3 maps (R187); other numbers are trap 0x02. -/
def execQctl (q : BitVec 2) (a : XReg) (s : State) : Out :=
  if q.toNat < 2 then s.trapOut 2 0
  else match s.cur.queueOf q.toNat with
    | none => s.trapOut 0x0E 0
    | some d => if s.misuse [a] [] then s.trapOut 0x0E 0 else .next ((s.pops [a]).push d (true, s.rd a, 0)).retire

/-- QSTAT: words, whether the head is a control word, whether it is mapped; 0 if it is not (R187). -/
def execQstat (d : XReg) (q : BitVec 2) (s : State) : Out :=
  s.put [] d (match s.cur.queueOf q.toNat with
    | none => 0
    | some e =>
      let w := if q.toNat < 2 then s.here.inbound e else s.here.outbound e
      BitVec.ofNat 64 (w.length + (match w with | (true, _) :: _ => 256 | _ => 0) + 512))

/-- The oldest push a context holds for a direction takes its place in the queue. -/
def State.acceptPush (s : State) (n x dir : Nat) : State :=
  match (s.ctxAt n x).heldPush.find? (·.1 == dir) with
  | none => s
  | some w =>
    (s.onCore n fun c => { c with outq := tabSet c.outq dir (c.outbound dir ++ [w.2]) }).onCtx n x fun c =>
      { c with heldPush := c.heldPush.erase w }

/-- QUEUE_WORD_TRANSFER (R49, R187): the head of an outbound queue passes to the peer's inbound queue of the opposite
direction while that has room for it, poisoned if its packet has failed more than 8 checks (R365); a push that was held takes the place
that came free. -/
def execQueueWordTransfer (c dir : Nat) (s : State) : Out :=
  match (s.core c).outbound dir, peerOf c dir with
  | w :: t, some p =>
    let o := (dir + 2) % 4
    if 8 ≤ ((s.core p).inbound o).length then .next s
    else
      let held := (s.core c).ctxs.find? fun x => x.2.heldPush.any (·.1 == dir)
      let s := s.onCore c fun k => { k with outq := tabSet k.outq dir t, sent := k.sent + 1 }
      let s := match held with
        | some x => s.acceptPush c x.1 dir
        | none => s
      .next (s.onCore p fun k => { k with inq := tabSet k.inq o (k.inbound o ++ [(w.1, w.2.1, if 8 < w.2.2 then 9 else 0)]), recv := k.recv + 1 })
  | _, _ => .next s

/-! ## Light handlers -/

/-- The context can enter its light handler (R29, R50, R315): a thread, no handler, no mask, no frame
in progress (R232), not parked, not inside a unit, not at its end. -/
def Ctx.canLight (c : Ctx) : Bool :=
  c.uid != 0 && !c.inLh && !c.inEm && !c.hm && c.frame.isNone && c.st != .parked && c.st != .ecall && c.st != .walk &&
    c.st != .ending && c.st != .restore

/-- Another trigger can pend (R50): four at most. -/
def Ctx.roomTrig (c : Ctx) : Bool := c.uid != 0 && decide (c.trig.length < 4)

/-- LIGHT_HANDLER_ENTRY (R50, R189): the oldest pending trigger enters the handler; a suspended unit is left to be executed
again after HRET; of a barrier unit its phase is kept (R181), of an FSYNC the family it waits for (R175). A thread that a replay has released
makes its parked unit first (R342). -/
def execLightHandlerEntry (c x : Nat) (s : State) : Out :=
  let k := s.ctxAt c x
  match k.trig with
  | [] => .next s
  | (cause, v, _) :: t =>
    if !k.canLight || s.reissues c x then .next s
    else
      let s := s.onCore c fun k => { k with mbwait := k.mbwait.filter (·.2 != (k.ctx x).uid) }
      .next (s.onCtx c x fun k =>
        let bw := match k.st with
          | .bar b ph => some (k.pc, b, ph)
          | _ => k.bwait
        let k := if k.st = .fsync then { k with syncLeft := k.sync, sync := none } else k
        { (Ctx.enterLight { k with trig := t, bwait := bw } cause v) with st := .run })

/-- A control word at the head of a queue that the next unit reads is popped and becomes a trigger (R49). -/
def State.takeControl (s : State) (n x d : Nat) : State :=
  match (s.core n).inbound d with
  | (true, v, _) :: t =>
    (s.onCore n fun c => { c with inq := tabSet c.inq d t }).onCtx n x fun c => { c with trig := c.trig ++ [(2, v, c.uid)] }
  | _ => s

/-- HSET (R188): hvec and the mailbox enable, held by at most one context of a core. -/
def execHset (a : XReg) (e : BitVec 1) (s : State) : Out :=
  let other := s.here.ctxs.any fun x => x.1 != s.iss.ctx && x.2.mben
  if s.misuse [a] [] || (e == 1 && other) then s.trapOut 0x0E 0
  else
    let v := s.rd a &&& ~~~ 1#64
    s.alter [a] fun c => { c with hvec := v, mben := e == 1 }

/-- HRET (R189, R315): outside a light handler, or inside the emulation handler, it is trap 0x0E. -/
def execHret (s : State) : Out :=
  if s.cur.inEm || !s.cur.inLh then s.trapOut 0x0E 0 else .next (s.onCur Ctx.leaveLight)

/-- HMASK (R190). -/
def execHmask (v : BitVec 1) (s : State) : Out := s.alter [] fun c => { c with hm := v == 1 }

/-- TRET (R314): outside the emulation handler it is trap 0x0E. -/
def execTret (s : State) : Out :=
  if s.cur.inEm then .next (s.onCur Ctx.leaveEmulation) else s.trapOut 0x0E 0

end Sys2Proof.Machine
end

