-- ==== Sys2Proof/WellFormed.lean ====
section
/-! DEFINITION. Well-formed instructions: the field ranges of R137 and of the instruction chapters that a constructor's
type does not already carry. An event is well formed when the part it names exists. -/

namespace Sys2Proof

/-- The user CSRs (R167). -/
def csrNumbers : List (BitVec 12) :=
  [0x001, 0x002, 0x003, 0x800, 0x801, 0x802, 0x803, 0x804, 0x805, 0x806, 0x807, 0x808, 0x809, 0xC00, 0xC02,
   0xCC0, 0xCC1, 0xCC2]

/-- A CSR number above 0xBFF names a read-only CSR (R167's Access column). -/
def csrReadOnly (c : BitVec 12) : Bool := c.extractLsb' 10 2 == 3#2

/-- The CSR exists, and a write does not name a read-only one (R139). -/
def csrAllowed (writes : Bool) (c : BitVec 12) : Bool := csrNumbers.contains c && !(writes && csrReadOnly c)

/-- Rounding-mode fields that name a mode or the dynamic mode (R98). -/
def rmAllowed (r : BitVec 3) : Bool := r.toNat ≤ 3 || r == 7#3

/-- Type codes of TCFG (R214). -/
def tileTypeAllowed (y : BitVec 5) : Bool := y == 1 || y == 2 || y == 3 || y == 8

/-- Target codes of VCVT (R224). -/
def cvtTargetAllowed (t : BitVec 4) : Bool := t == 1 || t == 2 || t == 3 || t == 4 || t == 5 || t == 7 || t == 8

/-- Source codes of VUNPACK (R225). -/
def unpackSourceAllowed (t : BitVec 3) : Bool := t == 2 || t == 3 || t == 4 || t == 5 || t == 7

/-- Homes that exist: 8,192 cores (R10); 64 partitions (R338), at most 512 slices each (R10). -/
def Home.wf : Home → Bool
  | .core n => n < 8192
  | .slice p i => p < 64 && i < 512
  | .host => true

/-- Engines that exist: one copy engine a core, one ICE and one Grout unit a cluster (R10). -/
def Engine.wf : Engine → Bool
  | .copy c => c < 8192
  | .ice cl => cl < 512
  | .grout cl => cl < 512

/-- Field ranges of every instruction; the places an event names (R10, R11). -/
def Instr.wf : Instr → Bool
  | .csrrw _ _ c => csrAllowed true c
  | .csrrs _ a c => csrAllowed (a != 0) c
  | .csrrc _ a c => csrAllowed (a != 0) c
  | .csrrwi _ _ c => csrAllowed true c
  | .csrrsi _ u c => csrAllowed (u != 0) c
  | .csrrci _ u c => csrAllowed (u != 0) c
  | .faddS _ _ _ r | .fsubS _ _ _ r | .fmulS _ _ _ r | .fdivS _ _ _ r => rmAllowed r
  | .fsqrtS _ _ r | .fcvtWS _ _ r | .fcvtLS _ _ r | .fcvtSW _ _ r | .fcvtSL _ _ r => rmAllowed r
  | .fmaddS _ _ _ _ r => rmAllowed r
  | .cAddi4spn _ i => i != 0
  | .cAddi d i => d != 0 || i != 0
  | .cAddiw d _ => d != 0
  | .cAddi16sp i => i != 0
  | .cLui d i => d != 2 && i != 0
  | .cLwsp d _ | .cLdsp d _ => d != 0
  | .cJr a | .cJalr a => a != 0
  | .cMv _ b | .cAdd _ b => b != 0
  | .tself _ s => s.toNat ≤ 6
  | .bjoin n | .bleave n | .barw n | .bara n | .bwait n => n.toNat < 48
  | .qctl q _ => q.toNat ≥ 2
  | .fenceO s | .fenceA s | .fenceX s | .fenceAll s => s.toNat ≤ 4
  | .ldaq _ _ s | .strl _ _ s => s.toNat ≤ 4
  | .cqpush _ a | .cqpushn _ a | .gpost _ a => a == 8 || a == 12
  | .vcvt _ _ _ _ t => cvtTargetAllowed t
  | .vunpack _ _ _ _ t => unpackSourceAllowed t
  | .vscan _ _ a _ | .vscanL1 _ _ a _ => a != 31
  | .vscanc _ d a _ => a != 31 && d.getLsbD 0 == false
  | .repv _ l _ _ => 1 ≤ l.toNat && l.toNat ≤ 16
  | .tcfg _ _ y => tileTypeAllowed y
  | .mma _ _ _ _ _ m | .gmma _ _ _ _ _ m | .wld _ _ _ _ m | .wlds _ _ _ _ m => m.toNat ≤ 2
  | .homePerform h _ _ => h.wf
  | .engineRead e _ => e.wf
  | .sfuService c | .sfuResultWrite c _ | .tileWrite c => c < 8192
  | .memberStart c x e | .familyFinish c x e => c < 8192 && x < 16 && e < 16
  | .inlineMemberTake c x | .lightHandlerEntry c x => c < 8192 && x < 16
  | .queueWordTransfer c d => c < 8192 && d < 4
  | .mailboxDelivery c | .eventSignalArrival c | .localPortPass c | .poolDeliver c _ | .l1ViewServe c => c < 8192
  | .copy c | .copyAccumulate c | .fill c | .multicastRead c | .multicastCatchUp c | .stridedCopy c => c < 8192
  | .packagePut c | .packageGet c | .completionFeFill c | .completionMailbox c => c < 8192
  | .completionHandlerTrigger c | .completionRegisterFill c | .stopArrival c | .cctlWrite c _ | .flatchClear c => c < 8192
  | .ackTimeout c => c < 8192
  | .nop c x | .debug c x | .signal c x | .time c x => c < 8192 && x < 16
  | .amuServe cl | .gather cl | .scatter cl | .scatterAdd cl | .iceChunkBegin cl | .iceEventSignal cl => cl < 512
  | .grout cl | .bellowsLatch cl | .bellowsUpdate cl => cl < 512
  | .gangOperation q => q < 2048
  | .qlist v _ | .qorder v _ | .yield v | .pluginTime v | .pluginTimeout v | .pluginFault v => v < 256
  | .doorbell v _ _ | .launchRecordCheck v _ | .svalWrite v _ _ | .hfverNegotiate v _ _ | .cheadWrite v _ => v < 256
  | .tinvPage v _ | .tinvVf v | .getMeasurements v _ | .keySlotInstall v _ | .keySlotRevoke v _ => v < 256
  | .getVersion v => v.vf < 256
  | .getCertificate v | .challenge v _ | .keyExchange v _ => v < 256
  | .krel p _ | .imgrWrite p _ | .partCreate p _ | .partDestroy p | .partScrubComplete p | .vbindWrite p _ => p < 64
  | .revokeComplete p _ | .patrolScrub p _ _ _ => p < 64
  | _ => true

/-- A well-formed instruction. -/
abbrev Instr.WellFormed (i : Instr) : Prop := i.wf = true

end Sys2Proof
end

