-- ==== Sys2Proof/Machine/Csr.lean ====
section
/-! DEFINITION. Control and status registers (R39, R62, R98, R167, R168). -/

namespace Sys2Proof.Machine

open Sys2Proof

/-- tid of a context (R168). -/
def Ctx.tid (c : Ctx) : Word := BitVec.ofNat 64 (c.member * 2 ^ 32 + c.frames.length * 256 + c.kind)

/-- famh of a context: 0 when it holds no member (R168). -/
def Ctx.famh (c : Ctx) : Word :=
  match c.fam with
  | none => 0
  | some f => BitVec.ofNat 64 (2 ^ 31 + f.core % 16 * 256 + f.ctx * 16 + f.entry)

/-- The value a CSR reads as. -/
def State.csr (s : State) (n : BitVec 12) : Word :=
  let c := s.cur
  match n.toNat with
  | 0x001 => BitVec.ofNat 64 (c.fcsr.toNat % 32)
  | 0x002 => BitVec.ofNat 64 (c.fcsr.toNat / 32)
  | 0x003 => c.fcsr.zeroExtend 64
  | 0x800 => c.hvec
  | 0x801 => c.hepc
  | 0x802 => c.hcause
  | 0x803 => BitVec.ofNat 64 (c.trig.length * 16 + if c.hm then 1 else 0)
  | 0x804 => c.istk
  | 0x805 => c.qcfg.zeroExtend 64
  | 0x806 => c.emepc
  | 0x807 => c.emcause
  | 0x808 => c.emval
  | 0x809 => s.here.bfmt.zeroExtend 64
  | 0xC00 => BitVec.ofNat 64 s.cycle
  | 0xC02 => c.instret
  | 0xCC0 => s.here.emvec
  | 0xCC1 => c.tid
  | 0xCC2 => c.famh
  | _ => 0

/-- bfmt after a write: a field written with 9 to 15 keeps its value (R62). -/
def bfmtNew (old : BitVec 32) (v : Word) : BitVec 32 :=
  BitVec.ofNat 32 ((List.range 8).foldl (fun a i =>
    let f := v.toNat / 16 ^ i % 16
    a + (if 9 ≤ f then old.toNat / 16 ^ i % 16 else f) * 16 ^ i) 0)

/-- istk keeps its base and enable bits (R39). -/
def istkMask : Word := 0x3F801

/-- A write of a CSR: reserved bits are ignored (R5); none where the write traps (qcfg; R168). -/
def State.csrWrite (s : State) (n : BitVec 12) (v : Word) : Option State :=
  match n.toNat with
  | 0x001 => some (s.onCur fun c => { c with fcsr := BitVec.ofNat 8 (c.fcsr.toNat / 32 * 32 + v.toNat % 32) })
  | 0x002 => some (s.onCur fun c => { c with fcsr := BitVec.ofNat 8 (v.toNat % 8 * 32 + c.fcsr.toNat % 32) })
  | 0x003 => some (s.onCur fun c => { c with fcsr := v.truncate 8 })
  | 0x800 => some (s.onCur fun c => { c with hvec := v &&& ~~~ 1#64 })
  | 0x801 => some (s.onCur fun c => { c with hepc := v &&& ~~~ 1#64 })
  | 0x802 => some (s.onCur fun c => { c with hcause := v &&& 3 })
  | 0x803 => some (s.onCur fun c => { c with hm := v.getLsbD 0 })
  | 0x804 => some (s.onCur fun c => { c with istk := v &&& istkMask })
  | 0x805 => s.qcfgWrite v
  | 0x806 => some (s.onCur fun c => { c with emepc := v &&& ~~~ 1#64 })
  | 0x807 => some (s.onCur fun c => { c with emcause := v &&& 0xFF })
  | 0x808 => some (s.onCur fun c => { c with emval := v })
  | 0x809 => some (s.onHere fun c => { c with bfmt := bfmtNew c.bfmt v })
  | _ => some s

/-- The context's own earlier accesses that bank formats govern, of its scratchpad, are not all performed (R63): those of the threads
whose frames it keeps are its own too. -/
def State.rowsWait (s : State) : Bool :=
  s.reqs.any fun r => (r.uid == s.cur.uid || s.cur.frames.any (·.uid == r.uid)) && r.cls == 0 && match r.op with
    | .rowLd _ _ _ _ _ | .rowSt _ _ _ _ _ => coreOf r.home == some s.iss.core
    | _ => false

/-- A write of this CSR waits: bfmt for the context's own earlier row accesses (R63), qcfg while a result pends on one of the
registers it maps (R27, R186). -/
def State.csrWaits (s : State) (n : BitVec 12) : Bool :=
  (n == 0x809 && s.rowsWait) || (n == 0x805 && [5, 6, 7, 8].any s.cur.queuePends)

/-- A CSR instruction: the old value goes to xd, the new one is written if it writes (R167). A write of qcfg that unmaps the queue of
its own xd pushes the old value first, in the order in which R167 lists the effects (log 50). -/
def State.csrOp (s : State) (srcs : List XReg) (d : XReg) (writes : Bool) (n : BitVec 12) (new : Word → Word) : Out :=
  if !csrAllowed writes n then s.trapOut 1 0
  else if s.misuse srcs [d] then s.trapOut 0x0E 0
  else if writes && s.csrWaits n then .next s
  else
    let t := s.csr n
    if writes then
      match s.csrWrite n (new t) with
      | none => s.trapOut 0x0E 0
      | some _ =>
        match ((s.pops srcs).wr d t).csrWrite n (new t) with
        | none => s.trapOut 0x0E 0
        | some u => .next u.retire
    else .next ((s.pops srcs).wr d t).retire

def execCsrrw (d a : XReg) (c : BitVec 12) (s : State) : Out := s.csrOp [a] d true c fun _ => s.rd a
def execCsrrs (d a : XReg) (c : BitVec 12) (s : State) : Out := s.csrOp [a] d (a != 0) c fun t => t ||| s.rd a
def execCsrrc (d a : XReg) (c : BitVec 12) (s : State) : Out := s.csrOp [a] d (a != 0) c fun t => t &&& ~~~ s.rd a
def execCsrrwi (d : XReg) (u : BitVec 5) (c : BitVec 12) (s : State) : Out := s.csrOp [] d true c fun _ => u.zeroExtend 64
def execCsrrsi (d : XReg) (u : BitVec 5) (c : BitVec 12) (s : State) : Out :=
  s.csrOp [] d (u != 0) c fun t => t ||| u.zeroExtend 64
def execCsrrci (d : XReg) (u : BitVec 5) (c : BitVec 12) (s : State) : Out :=
  s.csrOp [] d (u != 0) c fun t => t &&& ~~~ (u.zeroExtend 64)

end Sys2Proof.Machine
end

