-- ==== Sys2Proof/Machine/Lattice.lean ====
section
/-! DEFINITION. Which points of a perforated family run, the stencils of those that do not, and the probe hash
(R289 to R293). -/

namespace Sys2Proof.Machine

/-- A point is kept by the lattice alone under coverage c (R290). -/
def latticeKept (c lattice i j : Nat) : Bool :=
  let x := i + lattice % 2
  let y := j + lattice / 2 % 2
  if c = 0 then true
  else if c = 1 then !(x % 2 == 1 && y % 2 == 1)
  else if c = 2 then (x + y) % 2 == 0
  else if c = 3 then x % 2 == 0
  else x % 2 == 0 && y % 2 == 0

/-- Whether the stencil of a skipped point uses the column axis and the row axis, and whether it uses corners (R292). -/
def stencilAxes (c lattice i j : Nat) : Bool × Bool × Bool :=
  let x := (i + lattice % 2) % 2
  let y := (j + lattice / 2 % 2) % 2
  if c = 1 ∨ c = 2 then (true, true, false)
  else if c = 3 then (true, false, false)
  else if x = 1 ∧ y = 0 then (true, false, false)
  else if x = 0 ∧ y = 1 then (false, true, false)
  else (true, true, true)

/-- A point is kept (R290, R292): by the lattice, or since both sides of an axis its stencil uses lie outside the grid of
columns 0 to ni − 1 and rows j0 to j1. -/
def pointKept (c lattice ni j0 j1 i j : Nat) : Bool :=
  latticeKept c lattice i j ||
    (let a := stencilAxes c lattice i j
     (a.1 && decide (i = 0) && decide (ni ≤ i + 1)) || (a.2.1 && decide (j ≤ j0) && decide (j1 ≤ j)))

/-- The two neighbours of x on an axis from lo to hi, each outside one replaced by the other side's (R292). -/
def sides (lo hi x : Nat) : Nat × Nat :=
  if x ≤ lo then (x + 1, x + 1) else if hi ≤ x then (x - 1, x - 1) else (x - 1, x + 1)

/-- The stencil of a skipped point (R292). -/
def stencil (c lattice ni j0 j1 i j : Nat) : List (Nat × Nat) :=
  let a := stencilAxes c lattice i j
  let h := sides 0 (ni - 1) i
  let v := sides j0 j1 j
  if a.2.2 then [(h.1, v.1), (h.2, v.1), (h.1, v.2), (h.2, v.2)]
  else (if a.1 then [(h.1, j), (h.2, j)] else []) ++ (if a.2.1 then [(i, v.1), (i, v.2)] else [])

/-- The probe hash (R293). -/
def probeHash (salt i j : Nat) : Nat := (j * 2 ^ 16 + i + salt) * 0x9E3779B1 % 2 ^ 32 / 2 ^ 27

end Sys2Proof.Machine
end

