-- ==== Sys2Proof/Machine/Family.lean ====
section
/-! DEFINITION. Families (R31 to R45, R171 to R178), barriers' state (R46), how threads start, end and are killed. -/

namespace Sys2Proof.Machine

open Sys2Proof

/-! ## Teams and their scopes -/

/-- The widest scope of a list of cores: 0 core, 1 cluster, 2 die, 3 package (R86). -/
def widest (l : List Nat) : Nat :=
  let h := l.headD 0
  if l.length ≤ 1 then 0
  else if l.all (· / 16 == h / 16) then 1
  else if l.all (· / 2048 == h / 2048) then 2
  else 3

/-- An acquire at a scope on a core: from cluster on, the L1 view is invalidated (R86, R88). -/
def State.acquire (s : State) (n scope : Nat) : State := if scope = 0 then s else s.onCore n Core.l1Clear

/-! ## Barriers (R46, R181, R182): b0 to b31 belong to a core, b32 to b47 to the team -/

def Barrier.none : Barrier := { members := [], arrived := [], phase := 0 }

/-- The place of a barrier: a team barrier's number, or 64 (n + 1) + b for barrier b of core n. A thread keeps the core
barriers it joined before it migrated (R47). -/
def State.barKey (s : State) (n uid b : Nat) : Nat :=
  if 32 ≤ b then b
  else
    let has := fun c : Nat => ((tabGet Barrier.none (s.core c).bars b).members.contains uid)
    let home := if has n then n else (((s.teamOf n).cores.find? has).getD n)
    64 * (home + 1) + b

def State.bar (s : State) (n key : Nat) : Barrier :=
  if key < 64 then tabGet Barrier.none (s.teamOf n).bars key else tabGet Barrier.none (s.core (key / 64 - 1)).bars (key % 64)
def State.setBar (s : State) (n key : Nat) (b : Barrier) : State :=
  if key < 64 then
    (match (s.core n).team with
     | some t => s.onTeam t fun m => { m with bars := tabSet m.bars key b }
     | none => s)
  else s.onCore (key / 64 - 1) fun c => { c with bars := tabSet c.bars (key % 64) b }
/-- The scope of a barrier (R46). -/
def State.barScope (s : State) (n key : Nat) : Nat := if key < 64 then widest (s.teamOf n).cores else 0

/-- A context that waits for a phase of a barrier goes on; one that must arrive again attempts its unit again. -/
def Ctx.barWake (c : Ctx) (key ph : Nat) : Ctx :=
  if c.st = .bar key ph then { c.retire c.wnpc with st := .run }
  else if c.st = .barAgain key ph then { c with st := .run }
  else c

/-- The completion test (R46): enough arrivals end the phase and wake those that wait for it; the completion is an acquire for every
thread that has arrived. -/
def State.barTest (s : State) (n key : Nat) : State :=
  let b := s.bar n key
  if b.arrived.isEmpty || b.arrived.length < b.members.length then s
  else
    let s := if s.barScope n key = 0 then s else b.arrived.foldl State.acquireFor s
    let s := s.setBar n key { b with arrived := [], phase := b.phase + 1 }
    (n :: (s.teamOf n).cores.filter (· ≠ n)).foldl
      (fun s c => s.onCore c fun k => { k with ctxs := k.ctxs.map fun x => (x.1, x.2.barWake key b.phase) }) s

/-- An event is on its way to a barrier: the barrier takes it at the end of the cycle (R182). -/
def State.barSend (s : State) (what : BarEvent) (n uid key : Nat) : State :=
  { s with barq := s.barq ++ [{ what := what, key := key, core := n, uid := uid }] }
/-- The barrier takes an event: the arrival of a member that has not arrived, a member's leave (its arrival stands), a join. -/
def State.barTake (s : State) (q : BarItem) : State :=
  let b := s.bar q.core q.key
  let isIn := b.members.contains q.uid
  match q.what with
  | .arrive => if isIn && !b.arrived.contains q.uid then s.setBar q.core q.key { b with arrived := b.arrived ++ [q.uid] } else s
  | .leave => if isIn then s.setBar q.core q.key { b with members := b.members.erase q.uid } else s
  | .join => if isIn then s else s.setBar q.core q.key { b with members := b.members ++ [q.uid] }
/-- The place of a core in its team (R179). -/
def State.rankOf (s : State) (n : Nat) : Nat := (s.teamOf n).cores.findIdx (· == n)
/-- The events of a cycle reach their barriers (R182): arrivals, then leaves, then the completion test, then joins; events of several
cores in the order of their ranks. -/
def State.barEnd (s : State) : State :=
  let l := s.barq.insertionSort fun a b => s.rankOf a.core ≤ s.rankOf b.core
  let of := fun w : BarEvent => l.filter (·.what == w)
  let s : State := { s with barq := [] }
  let s := (of .leave).foldl State.barTake ((of .arrive).foldl State.barTake s)
  let s := ((l.filter (·.what != .join)).map fun q => (q.core, q.key)).dedup.foldl (fun s q => s.barTest q.1 q.2) s
  (of .join).foldl State.barTake s

/-- A thread that ends or is killed leaves every barrier (R46). -/
def State.leaveAll (s : State) (n uid : Nat) : State :=
  (List.range 48).foldl (fun s b =>
    let key := s.barKey n uid b
    if (s.bar n key).members.contains uid then s.barSend .leave n uid key else s) s

/-! ## Threads end -/

/-- The family entries a thread has made and not synced. -/
def State.famsOf (s : State) (uid : Nat) : List FamRef :=
  (s.fams.filter fun f => f.2.live && f.2.uid == uid).map fun f => { core := f.1 / 256, ctx := f.1 / 16 % 16, entry := f.1 % 16 }

/-- What a thread has under way and a thread that ends gives up (R42, R180): SFU entries, row loads, its place among mailbox
waiters, its reservation (R208), its barriers. -/
def State.dropThread (s : State) (n x uid : Nat) : State :=
  let k := s.core n
  let rows := (s.joins.filter (·.uid == uid)).map (·.row) ++ (k.sfuq.filter (·.uid == uid)).map (·.row) ++
    (k.sfuPipe.filter (·.uid == uid)).map (·.row) ++ ((s.ctxAt n x).sfuHeld.filter (·.uid == uid)).map (·.row)
  let s := { s with joins := s.joins.filter (·.uid != uid), resv := s.resv.filter (·.uid != uid) }
  let s := s.onCore n fun c =>
    { c with sfuq := c.sfuq.filter (·.uid != uid), sfuPipe := c.sfuPipe.filter (·.uid != uid),
             mbwait := c.mbwait.filter (·.2 != uid) }
  (s.onCtx n x fun c => { c with pendV := rows.foldl List.erase c.pendV }).leaveAll n uid

/-- The context of a slot or control thread that ends is empty; pushes it still held stand in their queues. -/
def State.vacate (s : State) (n x : Nat) : State :=
  ((s.ctxAt n x).heldPush.foldl (fun s w => s.onCore n fun c => { c with outq := tabSet c.outq w.1 (c.outbound w.1 ++ [w.2]) }) s).onCtx
    n x fun _ => Ctx.empty

/-- The scratchpad address of an inline frame (R39). -/
def frameKey (n : Nat) (istk : Word) (d : Nat) : Nat := winKey n 0 (bitsOf istk 17 11 * 2048 + 256 * d)

/-- A restored register file: the sixteen dwords of a frame, by their current names. -/
def Ctx.reload (c : Ctx) (v : Nat → Word) (fe : Nat) : Ctx :=
  (List.range 15).foldl (fun c i =>
    let r : XReg := BitVec.ofNat 4 (i + 1)
    let c := c.setRegAt (c.tag r) (v (i + 1))
    if fe.testBit (i + 1) then c.markFull (c.tag r) else c.markEmpty (c.tag r)) c

/-- What the end of an inline member leaves of its context for the frame g below it (R38, R180): the creator's identity, guards and
masks; the handlers it stood in with what they left, and the mailbox enable if it held it and still does; no trigger, mask, SFU result or
left wait of the member that ended, nothing of a unit it had not retired. Context CSRs stand as the member left them (R168); so do the
queues it mapped (log 63). -/
def Ctx.restored (c : Ctx) (g : Saved) : Ctx :=
  { c with uid := g.uid, g := g.g, k := g.k, fcsr := g.fcsr, kind := g.kind, member := g.member, fam := g.fam, probe := g.probe,
           frames := c.frames.dropLast, pend := g.pend, pendK := 0, acq := g.acq, xfence := g.xfence, marks := g.marks, sync := some g.sync,
           st := .fsync, frame := none, bwait := g.bwait, syncLeft := g.left, wnpc := g.sync.npc, wdst := g.sync.dst,
           inLh := g.inLh, inEm := g.inEm, mben := g.mben && c.mben, trig := c.trig.filter (·.2.2 != c.uid),
           sfuHeld := c.sfuHeld.filter (·.uid != c.uid), posting := c.posting.filter (·.2 / 4 < c.frames.length),
           desc := c.desc.filter (·.level / 4 < c.frames.length) }

/-- The window address of a key of a core. -/
def winAddr (key : Nat) : Word := BitVec.ofNat 64 (0xFFFFF * 2 ^ 44 + key % 2 ^ 44)
/-- The creator's frame is restored (R38): registers and pc from the scratchpad, the rest from the family unit, then the
fills that were held, which a mapped queue takes; it stands at its FSYNC again. A poisoned word of the frame is trap 0x0F of the creator
there (R74, R372; log 64). -/
def State.restoreFrame (s : State) (n x : Nat) : State :=
  let c := s.ctxAt n x
  match c.frames.getLast? with
  | none => s
  | some g =>
    let k := frameKey n c.istk (c.frames.length - 1)
    let bad := (List.range 18).find? fun i => s.poisoned (k + 8 * i)
    let c := { (c.restored g).reload (s.dword k) (bitsOf (s.dword k 17) 15 0) with pc := s.dword k 16 }
    let s := g.held.foldl (fun s h => s.landAt n x h.1 h.2) (s.onCtx n x fun _ => c)
    match bad with
    | some i => s.threadFault n x 0x0F (winAddr (k + 8 * i)) g.sync.upc
    | none => s

/-- Earlier stores of the core to a frame are on their way, or an engine owns a unit of it (R70, R79). -/
def State.frameBusy (s : State) (n key : Nat) : Bool :=
  s.ownedAny key 256 ||
    s.reqs.any fun r => r.core == n && r.cls == 0 && r.home == .core n && r.writes && (s.spots r).any (meet 8 (key, 256))
/-- An inline member has ended: the frame below it is restored, at once or when the port has passed what comes before. -/
def State.endInline (s : State) (n x : Nat) : State :=
  let c := s.ctxAt n x
  if s.frameBusy n (frameKey n c.istk (c.frames.length - 1)) then
    State.onCtx { s with nextUid := s.nextUid + 1 } n x fun c => { c with uid := s.nextUid, st := .restore, sync := none, trig := c.trig.filter (·.2.2 != c.uid),
                                                                          sfuHeld := c.sfuHeld.filter (·.uid != c.uid) }
  else s.restoreFrame n x
/-- At the end of a cycle: frames whose earlier stores are performed are restored. -/
def State.restores (s : State) : State :=
  (s.cores.flatMap fun c => (c.2.ctxs.filter fun x => x.2.st == .restore).map fun x => (c.1, x.1)).foldl (fun s q =>
    let c := s.ctxAt q.1 q.2
    if s.frameBusy q.1 (frameKey q.1 c.istk (c.frames.length - 1)) then s else s.restoreFrame q.1 q.2) s
/-- A creator that is killed while its frame waits to be restored waits no more. -/
def State.settle (s : State) (uid : Nat) : State :=
  match s.keptBy uid with
  | some (n, x) =>
    if (s.ctxAt n x).st = .restore ∧ (s.ctxAt n x).frames.getLast?.any (·.uid == uid) then s.restoreFrame n x else s
  | none => s

/-- Nothing of a family is left to start. -/
def Fam.started (g : Fam) : Bool := g.killed || g.brk.isSome || decide (g.desc.count ≤ g.next)
/-- Every member has ended or been killed. -/
def Fam.over (g : Fam) : Bool := g.started && g.running.isEmpty

/-- A perforated family whose members have all ended reaches the Grout unit of its creator's cluster (R294). -/
def State.toGrout (s : State) (f : FamRef) : State :=
  let g := s.fam f
  let k := s.cluster (f.core / 16)
  if g.live && g.desc.perf && g.over && !g.grouted && !k.groutq.any (·.ord == g.ord) && !k.groutRun.any (·.ord == g.ord) then
    if g.killed || g.brk.isSome || g.marked then s.onFam f fun g => { g with grouted := true }
    else State.onCluster { s with nextReq := s.nextReq + 1 } (f.core / 16) fun k =>
      { k with groutq := k.groutq ++ [{ fam := f, ord := g.ord, id := s.nextReq, units := [], maps := [] }] }
  else s
/-- A family that is no more leaves Grout's queue; one that Grout has begun is finished there. -/
def State.ungrout (s : State) (f : FamRef) : State :=
  let cl := f.core / 16
  let head := (s.cluster cl).groutq.head?.any (·.ord == (s.fam f).ord)
  if (s.cluster cl).groutq.any (·.ord == (s.fam f).ord) then
    (s.onCluster cl fun k => { k with groutq := k.groutq.filter (·.ord != (s.fam f).ord), groutWalk := k.groutWalk && !head }) |> fun s =>
      if head then s.unqueue (.grout cl) else s
  else s

/-- A member leaves its family's list of running members. -/
def State.memberGone (s : State) (fam : Option FamRef) (uid : Nat) : State :=
  match fam with
  | none => s
  | some f => (s.onFam f fun g => { g with running := g.running.filter (·.2.2.2 != uid), ended := g.ended + 1 }).toGrout f

/-- Gang operation n of a course lacks a GMMA (R245). -/
def State.gangShort (s : State) (q n : Nat) : Bool := ((tabGet [] s.gangs q).filter (·.no == n)).length < 4
/-- A gang family is over on its course (R245): a gang operation short of four GMMA is trap 0x0A against the creator, and never
forms; the numbering starts again at 0. Operations of four whose engines still hold a GMMA keep their place under numbers that no
later family gives. -/
def State.gangClose (s : State) (f : FamRef) : State :=
  let g := s.fam f
  if !g.desc.gang || g.finished then s
  else
    let q := f.core / 4
    let es := tabGet [] s.gangs q
    let short := es.filter fun e => s.gangShort q e.no
    let held := fun no : Nat => (List.range 4).any fun i => (s.core (4 * q + i)).mat.any (·.gang == some no)
    let late := fun no : Nat => no + (g.ord + 1) * 2 ^ 32
    let rest := (es.filter fun e => !short.contains e && held e.no).map fun e => { e with no := late e.no }
    let s := (List.range 4).foldl (fun s i => s.onCore (4 * q + i) fun c =>
      { c with gangNo := 0, mat := (c.mat.filter fun m => !(match m.gang with | some n => short.any (·.no == n) | none => false)).map
                             fun m => { m with gang := m.gang.map late } }) s
    let s : State := { s with gangs := tabSet s.gangs q rest }
    match short with
    | [] => s
    | e :: _ =>
      let v : Word := BitVec.ofNat 64 (e.no % 2 ^ 32)
      match s.holder g.uid with
      | some (n, x) => s.uidFault g.uid 0x0A v (s.ctxAt n x).pc
      | none => s.whoFault f.core g.who false 0x0A v g.upc

/-- Of a thread that is killed: a held LDC or LDP leaves its wait list, and one on its way will not wait (R67, R197). -/
def State.unwait (s : State) (uid : Nat) : State :=
  let mine := fun r : Req => r.uid == uid && (match r.op with
    | .ldc _ | .ldp _ => true
    | _ => false)
  let s := (s.reqs.filter fun r => mine r && (r.st == 2 || r.st == 3)).foldl (fun s r => s.performed r) s
  { s with reqs := s.reqs.map fun r => if mine r then { r with noFill := true } else r }

/-- A thread ends or is killed (R42, R180): families it has not synced are killed, inner inline members first, then it
gives up what it holds. A family whose members have all ended is not changed by that (R177): Grout and Bellows serve it. The first argument
bounds the nesting. -/
def State.endUid : Nat → State → Nat → State
  | 0, s, _ => s
  | k + 1, s, uid =>
    let s := ((s.famsOf uid).filter fun f => !(s.fam f).over).foldl (fun s f =>
      let s := (s.fam f).running.foldl (fun s r => (State.endUid k s r.2.2.2).unwait r.2.2.2) s
      ((s.gangClose f).ungrout f).onFam f fun g => { g with live := false, killed := true, held := [] }) s
    let s := s.settle uid
    match s.whereIs uid with
    | some (n, x) =>
      let c := s.ctxAt n x
      let s := (s.dropThread n x uid).memberGone c.fam uid
      if c.frames.isEmpty then s.vacate n x else s.endInline n x
    | none =>
      match s.migs.find? (·.uid == uid) with
      | some m =>
        let s := { s with migs := s.migs.erase m, reqs := s.reqs.filter fun r : Req => !(r.uid == uid && decide (r.op = ReqOp.mig)) }
        ((s.onCore m.toCore fun c => { c with recv := c.recv + 1 }).dropThread m.fromCore m.fromCtx uid).memberGone m.ctx.fam uid
      | none => s

/-- A bound on the nesting of families. -/
def State.nest (s : State) : Nat := s.fams.length + 1

/-- FKILL's effects on a family whose creator goes on (R42, R177): nothing if every member has ended. -/
def State.killFam (s : State) (f : FamRef) : State :=
  let g := s.fam f
  if g.over then s
  else
    let s := s.onFam f fun g => { g with killed := true, held := [] }
    (g.running.foldl (fun s r => (s.endUid s.nest r.2.2.2).unwait r.2.2.2) s).toGrout f

/-! ## Descriptors (R171, R32) -/

/-- The place list of a family of a creator on core n (R33). -/
def placeList (n place cmask : Nat) : List Nat :=
  if place = 0 then [n]
  else if place = 1 then (List.range 4).map (n / 4 * 4 + ·)
  else if place = 2 then (List.range 16).map (n / 16 * 16 + ·)
  else ((List.range 16).filter cmask.testBit).map (n / 16 * 16 + ·)

/-- Members of a family: index values below limit, or above it when step is negative (R31). -/
def memberCount (start limit step : Int) : Nat :=
  if 0 < step then ((limit - start + step - 1) / step).toNat
  else if step < 0 then ((start - limit - step - 1) / (-step)).toNat
  else 0

/-- The fields of a descriptor from its eight dwords (R171). -/
def readDesc (addr : Word) (w : Nat → Word) : Desc :=
  let b := fun i => (w 0).getLsbD i
  { addr := addr, twod := b 45, perf := b 44, mig := b 43, gang := b 42, inl := b 41, place := bitsOf (w 0) 40 38,
    vclass := bitsOf (w 0) 37 36, links := bitsOf (w 0) 35 32, entry := bitsOf (w 0) 31 0,
    start := (w 1).toInt, limit := (w 2).toInt, step := (w 3).toInt,
    cmask := bitsOf (w 4) 35 20, window := if bitsOf (w 4) 19 16 = 0 then 15 else bitsOf (w 4) 19 16, block := bitsOf (w 4) 15 0,
    bctx := bitsOf (w 5) 42 40, lattice := bitsOf (w 5) 39 36, cov := bitsOf (w 5) 35 32, ni := bitsOf (w 5) 31 0,
    pts := [bitsOf (w 6) 3 0, bitsOf (w 6) 7 4, bitsOf (w 6) 11 8, bitsOf (w 6) 15 12],
    arg := w 7, count := memberCount (w 1).toInt (w 2).toInt (w 3).toInt }

/-- A reserved field is nonzero (R32, R171). -/
def descReserved (w : Nat → Word) (d : Desc) : Bool :=
  bitsOf (w 0) 63 46 != 0 || bitsOf (w 4) 63 36 != 0 || (d.place != 3 && d.cmask != 0) || bitsOf (w 5) 63 43 != 0 ||
    (!d.perf && (d.bctx != 0 || d.lattice != 0 || d.cov != 0)) || (!d.twod && d.ni != 0) || bitsOf (w 6) 63 16 != 0

/-- The Bellows context of a family. -/
def State.bellows (s : State) (n b : Nat) : Bellows := tabGet Bellows.fresh (s.cluster (n / 16)).bellows b
/-- The team of core n holds Bellows context b: both cores 2b and 2b + 1 of the cluster (R297). -/
def State.holdsBellows (s : State) (n b : Nat) : Bool :=
  let t := (s.teamOf n).cores
  t.contains (n / 16 * 16 + 2 * b) && t.contains (n / 16 * 16 + 2 * b + 1)

/-- The first row and the last row of the grid of a perforated family (R289). -/
def Desc.rows (d : Desc) : Nat × Nat := (d.start.toNat / d.ni, d.limit.toNat / d.ni - 1)

/-- The whole output of the points of a range lies where R296 allows: global space, or region 0 of a team core. -/
def State.outFits (s : State) (n : Nat) (b : Bellows) (rows : Nat × Nat) (ni : Nat) : Bool :=
  let e := elemBytes b.fmt
  let top := rows.2 * b.rowpitch + (ni - 1) * b.ptpitch + (b.em1 + 1) * e
  match classify n b.out with
  | .global a => a + top ≤ 2 ^ 49
  | .window c 0 off => (s.teamOf n).cores.contains c && decide (off + top ≤ 2 ^ 18)
  | _ => false

/-- The causes of R32, R45, R147, R171 and R289 by which FCREATE refuses a descriptor. -/
def State.descBad (s : State) (w : Nat → Word) (d : Desc) : Bool :=
  let n := s.iss.core
  let cores := (s.teamOf n).cores
  let bl := s.bellows n d.bctx
  descReserved w d || 4 ≤ d.place || d.vclass == 3 || 4 < d.links || s.here.abound.toNat ≤ s.here.abase.toNat + d.entry ||
    d.step == 0 || d.block == 0 || 2 ^ 32 ≤ d.count || (placeList n d.place d.cmask).isEmpty ||
    (placeList n d.place d.cmask).any (fun c => !cores.contains c) ||
    (d.twod && (d.ni == 0 || decide (d.start < 0) || d.step != 1)) || (d.perf && !d.twod) || d.pts.contains 4 ||
    (d.perf && 4 < d.cov) ||
    (d.gang && (d.place != 1 || d.vclass == 0 || d.count % 4 != 0 || d.block != 1 ||
      s.fams.any fun f => f.2.live && f.2.desc.gang && f.1 / 256 / 4 == n / 4)) ||
    decide (16 ≤ ((List.range 16).filter fun e => (s.fam { core := n, ctx := s.iss.ctx, entry := e }).live).length) ||
    (d.perf && (s.here.level < 3 || d.start % (d.ni : Int) != 0 || d.limit % (d.ni : Int) != 0 || d.links != 0 || d.gang || 4 ≤ d.lattice ||
      !s.holdsBellows n d.bctx || bl.fmt == 0 || (d.count != 0 && !s.outFits n bl d.rows d.ni)))

/-- The index value of member n, as a0 holds it (R31). -/
def Desc.index (d : Desc) (n : Nat) : Word :=
  let v := d.start + n * d.step
  if d.twod then BitVec.ofNat 64 (v.toNat / d.ni * 2 ^ 32 + v.toNat % d.ni) else BitVec.ofInt 64 v

/-- The core of member n: blocks go round-robin over the place (R33). -/
def Desc.coreOf (d : Desc) (n m : Nat) : Nat :=
  let l := placeList n d.place d.cmask
  l.getD (m / d.block % l.length) n

/-! ## Handles (R172) -/

def handleOf (f : FamRef) (seq : Nat) : Word :=
  BitVec.ofNat 64 (2 ^ 31 + seq % 256 * 2 ^ 12 + f.core % 16 * 256 + f.ctx * 16 + f.entry)

/-- The family a handle names, if the handle is valid for the issuing thread. -/
def State.handle (s : State) (h : Word) : Option FamRef :=
  let f : FamRef := { core := s.iss.core / 16 * 16 + bitsOf h 11 8, ctx := bitsOf h 7 4, entry := bitsOf h 3 0 }
  let g := s.fam f
  if h.getLsbD 31 && g.live && g.seq % 256 == bitsOf h 19 12 && g.uid == s.cur.uid && g.depth == s.cur.frames.length then some f
  else none

/-! ## FCREATE (R173) -/

/-- Words by number from bytes. -/
def wordsOf (b : List Byte) (i : Nat) : Word := BitVec.ofNat 64 (leNat ((b.drop (8 * i)).take 8))

/-- The read of its descriptor that the unit has asked for. -/
def State.descNow (s : State) : Option DescRead := s.cur.desc.find? fun d => d.upc == s.iss.upc && d.level == s.cur.level
/-- Every dword of a descriptor has come. -/
def DescRead.done (d : DescRead) : Bool := d.words.all (·.isSome)
/-- A dword of a descriptor that has come, and some poisoned one. -/
def DescRead.word (d : DescRead) (i : Nat) : Word := ((d.words.getD i none).map (·.1)).getD 0
def DescRead.bad (d : DescRead) : Bool := d.words.any fun w => w.any (·.2)
/-- FCREATE asks for its descriptor: one 64-byte load of the thread, on its path (R77, R173). -/
def State.descAsk (s : State) (p : Phys) (va : Word) : State :=
  (s.issueReq (s.pathOf p true va.toNat) p.home p.key va p.slot p.stream 0 (.desc s.iss.upc s.cur.level (List.range 8))).onCur fun c =>
    { c with desc := c.desc ++ [{ upc := s.iss.upc, level := c.level, words := List.replicate 8 none }], st := .desc }

/-- Values written to registers, by their codes. -/
def Ctx.setAll (c : Ctx) (l : List (Nat × Word)) : Ctx := l.foldl (fun c p => (c.setRegAt p.1 p.2).markFull p.1) c

/-- MakeFamily and FinishAtCreate (R31 to R37, R173): the entry, its inbound values, the parent targets; the handle goes to xd. -/
def State.makeFamily (s : State) (a d : XReg) (w : Desc) : State :=
  let c := s.cur
  let e := ((List.range 16).find? fun e => !(s.fam { core := s.iss.core, ctx := s.iss.ctx, entry := e }).live).getD 0
  let f : FamRef := { core := s.iss.core, ctx := s.iss.ctx, entry := e }
  let seq := ((s.fam f).seq + 1) % 256
  let ins := (List.range w.links).map fun k => (0, k, c.regAt (11 + k))
  let pts := w.pts.map fun p => if p = 0 then 0 else c.tag (BitVec.ofNat 4 p)
  let g := { Fam.empty with live := true, seq := seq, ord := s.nextOrd, uid := c.uid, depth := c.frames.length,
                            desc := { w with pts := pts }, held := ins, finished := w.count == 0, grouted := !w.perf || w.count == 0,
                            who := s.whoNow, upc := s.iss.upc }
  let s := { (s.pops [a]) with nextOrd := s.nextOrd + 1, fams := tabSet s.fams f.key g }
  let s := s.onCur fun c => pts.foldl (fun c t => if t = 0 then c else c.markEmpty t) c
  let s := if w.count = 0 then
      s.onCur fun c => c.setAll ((List.range 4).filterMap fun k =>
        let t := pts.getD k 0
        if t = 0 ∨ (w.links ≤ k ∧ (pts.take w.links).contains t) then none
        else some (t, if k < w.links then (ins.getD k (0, 0, 0)).2.2 else 0))
    else s
  let s := if w.perf && w.count != 0 then
      s.onCluster (f.core / 16) fun k => { k with bellowsq := k.bellowsq ++ [{ fam := f, ord := g.ord, ctx := w.bctx, probes := none }] }
    else s
  (s.wr d (handleOf f seq)).retire

/-- A reply is outstanding on a parent target that a descriptor names: FCREATE, which empties it, is held (R27, R30). -/
def State.targetPends (s : State) (w : Desc) : Bool := w.pts.any fun p => p != 0 && s.cur.pend.getLsbD (s.cur.tag (BitVec.ofNat 4 p))

/-- What FCREATE does once it has its descriptor (R173). -/
def State.create (s : State) (a d : XReg) (va : Word) (q : DescRead) : Out :=
  let w := readDesc va q.word
  if q.bad then s.trapOut 0x0F va
  else if s.descBad q.word w then s.trapOut 9 va
  else if s.targetPends w then .next s
  else if (List.range w.links).any fun k => s.cur.pend.getLsbD (11 + k) && s.cur.fe.getLsbD (11 + k) then .next s
  else if (List.range w.links).any fun k => !s.cur.fe.getLsbD (11 + k) then .next (s.onCur fun c => { c with st := .linked })
  else .next (s.makeFamily a d w)

/-- FCREATE (R173): checks, then one read of the descriptor, then the family. -/
def execFcreate (d a : XReg) (s : State) : Out :=
  let va := s.rd a
  if s.misuse [a] [d] then s.trapOut 0x0E 0
  else match s.descNow with
    | some q => if q.done then s.create a d va q else .next (s.onCur fun c => { c with st := .desc })
    | none =>
      match s.access s.iss.core va 64 64 false [0] true false with
      | .trap c => s.trapOut c va
      | .miss m => .next (s.walkCur m false)
      | .ok p _ _ =>
        if p.home ≠ .core s.iss.core ∧ (coreOf p.home).isSome then s.trapOut 4 va
        else if s.holdsBack p.key 64 then .next s
        else .next (s.descAsk p va)

/-! ## FSYNC, FBREAK, FKILL, LSEND (R175 to R178) -/

/-- A new FSYNC waits for its family with its destination empty. -/
def State.syncNew (s : State) (d a : XReg) : Out :=
  if s.misuse [a] [d] then s.trapOut 0x0E 0
  else match s.handle (s.rd a) with
    | none => s.trapOut 9 (s.rd a)
    | some f =>
      let t := s.cur.dest d
      let w : SyncWait := { fam := f, upc := s.iss.upc, npc := s.iss.npc, dst := t }
      .next ((s.pops [a]).onCur fun c =>
        { (if t = 0 ∨ 48 ≤ t then c else c.markEmpty t) with st := .fsync, sync := some w, wnpc := s.iss.npc, wdst := t })

/-- FSYNC suspends until FAMILY_FINISH; one that was left for a light handler waits on as it did (R189), without a new check of its handle
even if the handler has synced the family (log 72), and is given up if the thread goes on at another unit. -/
def execFsync (d a : XReg) (s : State) : Out :=
  match s.cur.syncLeft with
  | none => s.syncNew d a
  | some w =>
    if s.cur.inLh then s.syncNew d a
    else if w.upc = s.iss.upc then
      .next (s.onCur fun c => { c with st := .fsync, sync := some w, syncLeft := none, wnpc := w.npc, wdst := w.dst })
    else State.syncNew (s.onCur fun c => { c with syncLeft := none }) d a

/-- A trap whose record value the spec does not state carries a free value (log 7). -/
def State.trapFree (s : State) (cause : Nat) : Out :=
  .next (State.trap { s with fresh := s.fresh + 1 } cause (Config.freeWord s.fresh))

/-- A team fault of the thread of a context whose record's value is left open (log 7). -/
def State.faultFree (s : State) (n x cause : Nat) (upc : Word) : State :=
  State.threadFault { s with fresh := s.fresh + 1 } n x cause (Config.freeWord s.fresh) upc

/-- FBREAK (R42, R43, R176): the member ends; the family unit acts at the end of the cycle, behind the normal ends of the cycle. -/
def execFbreak (a : XReg) (s : State) : Out :=
  if s.misuse [a] [] then s.trapOut 0x0E 0
  else match s.cur.fam with
    | none => s.trapFree 9
    | some f =>
      let b : Break := { fam := f, ord := (s.fam f).ord, member := s.cur.member, value := s.rd a, uid := s.cur.uid }
      let s := (s.pops [a]).retire
      .next (State.onCur { s with breaks := s.breaks ++ [b] } fun c => { c with st := .ending })

/-- The family unit acts on an FBREAK (R42, R43): the break index becomes the member's if it is the lowest, the value fills the parent
target, the member ends and members above it are killed. That of a member that has been killed has no effect. -/
def State.takeBreak (s : State) (b : Break) : State :=
  let g := s.fam b.fam
  if (s.whereIs b.uid).isNone || !g.live || g.ord != b.ord then s
  else
    let m := b.member
    let s := s.onFam b.fam fun g =>
      { g with brk := some (match g.brk with | some i => min i m | none => m), held := g.held.filter (·.1 ≤ m) }
    let t := g.desc.pts.getD 0 0
    let s := if t = 0 then s else s.landIn g.uid t b.value
    let s := s.endUid s.nest b.uid
    ((g.running.filter fun r => m < r.1).foldl (fun s r => (s.endUid s.nest r.2.2.2).unwait r.2.2.2) s).toGrout b.fam
/-- The family unit acts on the FBREAKs of a cycle in the order they reach it. -/
def State.takeBreaks (s : State) : State := s.breaks.foldl State.takeBreak { s with breaks := [] }

def execFkill (a : XReg) (s : State) : Out :=
  if s.misuse [a] [] then s.trapOut 0x0E 0
  else match s.handle (s.rd a) with
    | none => s.trapOut 9 (s.rd a)
    | some f => .next (((s.pops [a]).killFam f).retire)

/-- LSEND (R36, R178): a release over local and ordered requests at cluster scope, then the value on its way, a message when it leaves
the core (R52). -/
def execLsend (k : BitVec 2) (a : XReg) (s : State) : Out :=
  if s.misuse [a] [] then s.trapOut 0x0E 0
  else match s.cur.fam with
    | none => s.trapFree 9
    | some f =>
      let g := s.fam f
      let m := s.cur.member + 1
      let far := (if g.desc.count ≤ m then f.core else g.desc.coreOf f.core m) != s.iss.core
      let v : RegFill := { uid := s.cur.uid, reg := 0, val := s.rd a, acq := 2, counted := false, err := 0, addr := 0, upc := s.iss.upc,
                           src := if far then some s.iss.core else none, tries := 0,
                           link := some { fam := f, ord := g.ord, member := m, k := k.toNat } }
      s.afterAll 1 1
        (let s := s.pops [a]
         let s := if far then s.onHere fun c => { c with sent := c.sent + 1 } else s
         .next (State.retire { s with fills := s.fills ++ [v] }))

/-! ## Members start (R34, R35, R291) -/

/-- Member n of a perforated family is a point that is passed over, a probe, or starts plainly. -/
def Fam.skips (g : Fam) (salt n : Nat) : Bool × Bool :=
  match g.coverage with
  | none => (false, false)
  | some c =>
    let v := (g.desc.start + n).toNat
    let i := v % g.desc.ni
    let j := v / g.desc.ni
    let r := g.desc.rows
    if pointKept c g.desc.lattice g.desc.ni r.1 r.2 i j then (false, false)
    else if probeHash salt i j = 0 then (false, true)
    else (true, false)

/-- The next member from n on that is not passed over, looking at k members. -/
def Fam.nextFrom (g : Fam) (salt : Nat) : Nat → Nat → Nat
  | 0, n => n
  | k + 1, n => if (g.skips salt n).1 then Fam.nextFrom g salt k (n + 1) else n

/-- A member that starts with a value whose packet's data words are poisoned raises trap 0x0F at its first unit (R365; log 65). -/
def State.badLinks (s : State) (g : Fam) (m n x : Nat) : State :=
  if g.heldBad.any (·.1 == m) then s.faultFree n x 0x0F (s.ctxAt n x).pc else s

/-- The next member to start. -/
def State.nextMember (s : State) (f : FamRef) : Nat :=
  let g := s.fam f
  if g.desc.perf then g.nextFrom (s.bellows f.core g.desc.bctx).salt (g.desc.count - g.next) g.next else g.next

/-- The state a member starts with (R35), keeping its slot's own: the caller gives what differs. -/
def memberRegs (g : Fam) (n idn : Nat) : Vector Word 48 :=
  let held := fun k => ((g.held.find? fun h => h.1 == n && h.2.1 == k).map (·.2.2)).getD 0
  let x := (Vector.replicate 48 (0 : Word)).set! 10 (g.desc.index n)
  let x := (List.range 4).foldl (fun x k => x.set! (11 + k) (if k < g.desc.links then held k else 0)) x
  (x.set! 15 g.desc.arg).set! 4 (BitVec.ofNat 64 idn)
/-- Inbound linked registers that no value is held for are empty (R28). -/
def memberFe (g : Fam) (n : Nat) : BitVec 48 :=
  (List.range 4).foldl (fun fe k =>
    if k < g.desc.links && !(g.held.any fun h => h.1 == n && h.2.1 == k) then fe &&& ~~~ (1#48 <<< (11 + k)) else fe) (BitVec.allOnes 48)

/-- A member that starts with values LSEND has sent it is their receiver: an acquire on its core (R88, R178). -/
def State.takesLinks (s : State) (g : Fam) (m n : Nat) : State := if m != 0 && g.held.any (·.1 == m) then s.onCore n Core.l1Clear else s

/-- Tiles of a core that no context leases. -/
def Core.freeTiles (c : Core) : List Nat := (List.range 8).filter fun t => !(c.ctxs.any fun x => x.2.lease.contains t)

/-- The slot, lease and member a family could start now (R34). -/
def State.canStart (s : State) (f : FamRef) : Option (Nat × Nat × Nat × List Nat) :=
  let g := s.fam f
  if !g.live || g.started || (g.desc.perf && g.coverage.isNone) then none
  else
    let n := s.nextMember f
    if g.desc.count ≤ n then none
    else
      let c := g.desc.coreOf f.core n
      let tiles := (s.core c).freeTiles
      if g.desc.window ≤ (g.running.filter fun r => r.2.1 == c && r.2.2.1 != 16).length || tiles.length < g.desc.vclass ||
          (s.teamOf c).faulted then none
      else (s.freeSlot c).map fun x => (n, c, x, tiles.take g.desc.vclass)

/-- A family made earlier that could start a member on the same core comes first (R34). -/
def State.outranked (s : State) (f : FamRef) (c : Nat) : Bool :=
  s.fams.any fun p =>
    let e : FamRef := { core := p.1 / 256, ctx := p.1 / 16 % 16, entry := p.1 % 16 }
    p.2.live && decide (p.2.ord < (s.fam f).ord) && ((s.canStart e).any fun q => q.2.1 == c)

/-- The points a perforated family passes over at once; the last ones end its walk (R291). -/
def State.walked (s : State) (f : FamRef) : State :=
  let n := s.nextMember f
  (s.onFam f fun g => { g with next := n }).toGrout f

/-- MEMBER_START (R34): the family in entry e of context x of core c starts its next member in a slot. -/
def execMemberStart (c x e : Nat) (s : State) : Out :=
  let f : FamRef := { core := c, ctx := x, entry := e }
  match s.canStart f with
  | none =>
    let g := s.fam f
    if g.live && g.desc.perf && g.coverage.isSome && !g.started then .next (s.walked f) else .next s
  | some (n, tgt, slot, lease) =>
    if s.outranked f tgt then .next s
    else
      let g := s.fam f
      let salt := (s.bellows c g.desc.bctx).salt
      let probe := (g.skips salt n).2
      let uid := s.nextUid
      let idn := ident tgt slot + if probe then 2 ^ 63 else 0
      let k := { Ctx.empty with uid := uid, x := memberRegs g n idn, fe := memberFe g n,
                                pc := (s.core tgt).abase + BitVec.ofNat 64 g.desc.entry, kind := 1, member := n, fam := some f,
                                probe := probe, lease := lease }
      let s := { s with nextUid := uid + 1 }
      let s := s.onCtx tgt slot fun _ => k
      let s := s.onCore tgt fun q => lease.foldl (fun q t => q.setTile t { q.tile t with ty := 1 }) q
      .next ((((s.takesLinks g n tgt).badLinks g n tgt slot).onFam f fun g => { g with next := n + 1, running := g.running ++ [(n, tgt, slot, uid)],
                                                                                       held := g.held.filter (·.1 != n) }).walked f)

/-! ## Inline run (R38, R39) -/

/-- A creator at its FSYNC may take a member inline now. -/
def State.canInline (s : State) (c x : Nat) : Option FamRef :=
  let k := s.ctxAt c x
  match k.st, k.sync with
  | .fsync, some w =>
    let g := s.fam w.fam
    if g.desc.inl && !g.started && k.istk.getLsbD 0 && g.desc.vclass ≤ k.lease.length && k.uid != 0 && k.pendK == 0 &&
        !(g.desc.perf && g.coverage.isNone) && decide (s.nextMember w.fam < g.desc.count) then some w.fam else none
  | _, _ => none

/-- The frame of a depth as it is written to the scratchpad (R39). -/
def frameWords (c : Ctx) (upc : Word) (d : Nat) : List Word :=
  (List.range 16).map (fun i => c.reg (BitVec.ofNat 4 i)) ++ [upc,
    BitVec.ofNat 64 (d * 2 ^ 16 + ((List.range 16).foldl (fun a i =>
      a + if i = 0 ∨ c.fe.getLsbD (c.tag (BitVec.ofNat 4 i)) then 2 ^ i else 0) 0))] ++ List.replicate 14 0

/-- The frame goes out as 32 ordinary stores of the creator, through the local port (R39, R77). -/
def State.storeFrame (s : State) (c x key : Nat) (upc : Word) (words : List Word) : State :=
  let k := s.ctxAt c x
  words.zipIdx.foldl (fun s w =>
    s.addReq { s.nextOf 0 (.core c) (key + 8 * w.2) (winAddr (key + 8 * w.2)) 0 false 0 (.store (leBytes 8 w.1.toNat)) with
      uid := k.uid, core := c, ctx := x, upc := upc, fam := k.fam, team := (s.core c).team }) s

/-- INLINE_MEMBER_TAKE (R38): a ninth frame is trap 0x14, with the istk value. The member stands in no handler and holds what x5 to x8
name; what the creator's handlers have left stays with the frame (R313, R316; log 64). -/
def execInlineMemberTake (c x : Nat) (s : State) : Out :=
  match s.canInline c x, (s.ctxAt c x).sync with
  | some f, some w =>
    let k := s.ctxAt c x
    let d := k.frames.length
    let key := frameKey c k.istk d
    if 8 ≤ d then .next (s.threadFault c x 0x14 k.istk w.upc)
    else if (s.core c).mat.any (fun m => m.uid == k.uid && match m.op with
        | .store els _ _ _ _ => els.any fun e => e.any fun a => meet 8 (key, 256) (a, 4)
        | _ => false) then .next s
    else
      let g := s.fam f
      let n := s.nextMember f
      let probe := (g.skips (s.bellows f.core g.desc.bctx).salt n).2
      let uid := s.nextUid
      let s := s.storeFrame c x key w.upc (frameWords k w.upc d)
      let saved : Saved := { uid := k.uid, g := k.g, k := k.k, fcsr := k.fcsr, kind := k.kind, member := k.member, fam := k.fam,
                             probe := k.probe, held := [], sync := w, pend := k.pend, acq := k.acq, xfence := k.xfence,
                             marks := k.marks, inLh := k.inLh, inEm := k.inEm, mben := k.mben, bwait := k.bwait, left := k.syncLeft }
      let regs := memberRegs g n (ident c x + if probe then 2 ^ 63 else 0)
      let fe := memberFe g n
      let k := { k with uid := uid, g := 1, k := Vector.replicate 8 0, fcsr := 0, kind := 2, member := n, fam := some f, probe := probe,
                        frames := k.frames ++ [saved], pend := 0, acq := 0, xfence := [], marks := [], sync := none, st := .run,
                        inLh := false, inEm := false, bwait := none, syncLeft := none,
                        pc := (s.core c).abase + BitVec.ofNat 64 g.desc.entry }
      let k := k.reload (fun i => regs.toList.getD i 0) (fe.toNat % 2 ^ 16)
      let s := { s with nextUid := uid + 1 }
      let s := s.onCtx c x fun _ => k
      .next ((((s.takesLinks g n c).badLinks g n c x).onFam f fun g => { g with next := n + 1, running := g.running ++ [(n, c, 16, uid)],
                                                                                held := g.held.filter (·.1 != n) }).walked f)
  | _, _ => .next s

/-! ## Finishing (R37) -/

/-- A request of a member, over the local and ordered classes and at the widest scope of the place, or a linked value of the family, is
still on its way (R37, R88). -/
def State.famBusy (s : State) (f : FamRef) : Bool :=
  let g := s.fam f
  let scope := widest (placeList f.core g.desc.place g.desc.cmask)
  s.reqs.any (fun r => r.fam == some f && r.counted && r.cls ≤ 1 && r.open (max scope r.scope)) ||
    s.fills.any (fun q => match q.link with | some l => l.fam == f && l.ord == g.ord | none => false) ||
    s.cores.any fun c => c.2.mat.any fun m => m.fam == some f && !(match m.gang with
      | some n => s.gangShort (c.1 / 4) n
      | none => false)

/-- The full/empty dword of a frame as its stores leave it: a store still on its way stands for the word (R78, R79). -/
def frameFe (s : State) (n x d : Nat) : Word :=
  let key := frameKey n (s.ctxAt n x).istk d + 136
  match (s.reqs.filter fun r => r.home == .core n && r.cls == 0 && r.addr == key).getLast? with
  | some r => match r.op with
    | .store b => BitVec.ofNat 64 (leNat b)
    | _ => s.dword key 0
  | none => s.dword key 0

/-- A parent target still empty when the family finishes is filled with 0; in a saved frame the fill is held (R30, R37). -/
def State.zeroTarget (s : State) (uid t : Nat) : State :=
  match s.whereIs uid, s.keptBy uid with
  | some (n, x), _ => s.onCtx n x fun c => if t = 0 ∨ c.fe.getLsbD t then c else { c.land t 0 with st := if c.st = .linked then .run else c.st }
  | none, some (n, x) =>
    let c := s.ctxAt n x
    let d := c.frames.findIdx (·.uid == uid)
    let k : Ctx := match c.frames[d]? with
      | some g => { c with frames := c.frames.take d, inLh := g.inLh, inEm := g.inEm }
      | none => c
    let full : Bool := match (List.range 16).find? fun i => k.tag (BitVec.ofNat 4 i) == t with
      | some i => (frameFe s n x d).getLsbD i
      | none => c.fe.getLsbD t
    if t = 0 || full then s
    else s.onCtx n x fun c => c.onFrame uid fun g =>
      if g.held.any (·.1 == t) then g else { g with held := g.held ++ [(t, 0)] }
  | none, none => s

/-- The status word (R37). -/
def Fam.status (g : Fam) : Word :=
  let st := if g.marked then 3 else if g.killed then 2 else if g.brk.isSome then 1 else 0
  BitVec.ofNat 64 (match g.brk with | some m => m * 2 ^ 32 + 4 + st | none => st)

/-- The FSYNC of a context that waits for a family, and whether it has been left for a light handler. -/
def Ctx.waitsFor (c : Ctx) (f : FamRef) : Option (SyncWait × Bool) :=
  match c.sync.filter (·.fam == f) with
  | some w => some (w, false)
  | none => (c.syncLeft.filter (·.fam == f)).map fun w => (w, true)
/-- An FSYNC ends: its register is filled and it retires, in the thread's place or behind its light handler. -/
def Ctx.syncDone (c : Ctx) (w : SyncWait) (left : Bool) (v : Word) : Ctx :=
  let c := if w.dst = 0 ∨ 48 ≤ w.dst then c else (c.setRegAt w.dst v).markFull w.dst
  if !left then { c.retire w.npc with st := .run, sync := none }
  else
    let c := { c with syncLeft := none, instret := c.instret + 1 }
    if c.inLh then { c with hepc := if c.hepc = w.upc then w.npc else c.hepc } else { c with pc := if c.pc = w.upc then w.npc else c.pc }

/-- The family has finished: every parent target still empty is filled. -/
def State.famFinish (s : State) (f : FamRef) : State :=
  let g := s.fam f
  let s := g.desc.pts.foldl (fun s t => s.zeroTarget g.uid t) s
  (s.gangClose f).onFam f fun g => { g with finished := true }

/-- FAMILY_FINISH (R37): the finished family fills its parent targets and, once its FSYNC waits, that register, and leaves
the table; that of a member that has ended leaves it by itself. FSYNC acquires at the widest scope of the place, and what Grout has written wherever it stands (R89, R294). -/
def execFamilyFinish (c x e : Nat) (s : State) : Out :=
  let f : FamRef := { core := c, ctx := x, entry := e }
  let g := s.fam f
  if !g.live || !g.over || !g.grouted || s.famBusy f then .next s
  else
    let s := if g.finished then s else s.famFinish f
    match s.whereIs g.uid with
    | none =>
      if (s.homeOf g.uid).isNone && g.who.getD 2 0 != 0 && !(s.cluster (c / 16)).bellowsq.any (·.ord == g.ord) then
        .next (s.onFam f fun g => { g with live := false })
      else .next s
    | some (n, y) =>
      match (s.ctxAt n y).waitsFor f with
      | none => .next s
      | some (w, left) =>
        let v := g.status
        let s := if 48 ≤ w.dst then s.pushAt n y (qField (s.ctxAt n y).qcfg (w.dst - 53) % 4) (false, v, 0) else s
        let s := s.onCtx n y fun k => k.syncDone w left v
        .next ((s.acquire n (if g.desc.perf then 3 else widest (placeList c g.desc.place g.desc.cmask))).onFam f fun g => { g with live := false })

end Sys2Proof.Machine
end

