-- ==== Sys2Proof/Machine/Thread.lean ====
section
/-! DEFINITION. Thread, barrier, mailbox and event instructions (R46, R51, R179 to R185, R316). -/

namespace Sys2Proof.Machine

open Sys2Proof

/-! ## TSELF and THALT -/

/-- The place of an element in a list. -/
def placeOf (l : List Nat) (n : Nat) : Nat := l.findIdx (· == n)

/-- The values of TSELF (R179); selector 3 of a member gives the place R33 gives its number (log 16). -/
def State.selfValue (s : State) (sel : Nat) : Word :=
  let c := s.cur
  let n := s.iss.core
  let t := s.teamOf n
  if sel = 0 then s.identity
  else if sel = 1 then c.tid
  else if sel = 2 then c.famh
  else if sel = 3 then
    match c.fam with
    | none => 0
    | some f =>
      let d := (s.fam f).desc
      let p := placeList f.core d.place d.cmask
      BitVec.ofNat 64 (p.length * 2 ^ 32 + c.member / d.block % p.length)
  else if sel = 4 then BitVec.ofNat 64 ((routerOf (n / 16)).1 * 256 + (routerOf (n / 16)).2)
  else if sel = 5 then BitVec.ofNat 64 (t.cores.length * 2 ^ 32 + placeOf t.cores n)
  else t.block

def execTself (d : XReg) (sel : BitVec 5) (s : State) : Out :=
  if 6 < sel.toNat then s.trapOut 2 0 else s.put [] d (s.selfValue sel.toNat)

/-- THALT (R180). Inside the emulation handler it refuses the emulation (R316). -/
def execThalt (s : State) : Out :=
  let c := s.cur
  if c.inEm && c.kind == 0 then
    .next (s.threadFault s.iss.core s.iss.ctx c.emcause.toNat c.emval s.iss.upc)
  else
    let s := if c.inEm then (match c.fam with
      | some f => s.onFam f fun g => { g with marked := true }
      | none => s) else s
    let s := s.retire
    if c.kind = 0 then .next ((s.dropThread s.iss.core s.iss.ctx c.uid).vacate s.iss.core s.iss.ctx)
    else .next (s.endUid s.nest c.uid)

/-! ## Barriers (R46, R181) -/

/-- Checks shared by the five instructions: a number above 47 is trap 0x02. -/
def State.barrier (s : State) (n : BitVec 10) (k : Nat → Out) : Out :=
  if 48 ≤ n.toNat then s.trapOut 2 0 else k (s.barKey s.iss.core s.cur.uid n.toNat)

/-- The thread waits for a phase, or goes on with an acquire if it has completed. -/
def State.barWait (s : State) (key ph : Nat) : State :=
  if (s.bar s.iss.core key).phase ≤ ph then s.onCur fun c => { c with st := .bar key ph, wnpc := s.iss.npc }
  else (s.acquire s.iss.core (s.barScope s.iss.core key)).retire

/-- The phase of a barrier unit that was suspended before a light handler ran (R181). -/
def State.barKept (s : State) : Option (Nat × Nat) :=
  match s.cur.bwait with
  | some (upc, key, ph) => if upc = s.iss.upc then some (key, ph) else none
  | none => none

/-- An arrival in the current phase, recorded with the thread, is on its way. -/
def State.barArrive (s : State) (key : Nat) : State :=
  (s.barSend .arrive s.iss.core s.cur.uid key).onCur fun c =>
    { c with marks := c.marks.filter (·.1 != key) ++ [(key, (s.bar s.iss.core key).phase)] }

/-- An arrival (R46): a release; a thread that has arrived already waits for the phase and arrives again; one that is no
member arrives nowhere. `waits` tells BARW from BARA. -/
def State.arriveAt (s : State) (key : Nat) (waits : Bool) : Out :=
  let b := s.bar s.iss.core key
  let uid := s.cur.uid
  if !b.members.contains uid then .next s.retire
  else s.afterAll 1 (s.barScope s.iss.core key)
    (if b.arrived.contains uid then .next (s.onCur fun c => { c with st := .barAgain key b.phase })
     else if waits then .next ((s.barArrive key).onCur fun c => { c with st := .bar key b.phase, wnpc := s.iss.npc })
     else .next (s.barArrive key).retire)

/-- BJOIN and BLEAVE (R46, R182): of a member BJOIN, and of another thread BLEAVE, has no effect. -/
def execBjoin (n : BitVec 10) (s : State) : Out :=
  s.barrier n fun key =>
    if (s.bar s.iss.core key).members.contains s.cur.uid then .next s.retire
    else .next (s.barSend .join s.iss.core s.cur.uid key).retire

def execBleave (n : BitVec 10) (s : State) : Out :=
  s.barrier n fun key =>
    if (s.bar s.iss.core key).members.contains s.cur.uid then .next (s.barSend .leave s.iss.core s.cur.uid key).retire
    else .next s.retire

def execBarw (n : BitVec 10) (s : State) : Out :=
  s.barrier n fun key =>
    match s.barKept with
    | some (k, ph) => .next (s.barWait k ph)
    | none => s.arriveAt key true

def execBara (n : BitVec 10) (s : State) : Out := s.barrier n fun key => s.arriveAt key false

def execBwait (n : BitVec 10) (s : State) : Out :=
  s.barrier n fun key =>
    match s.barKept with
    | some (k, ph) => .next (s.barWait k ph)
    | none =>
      if !(s.bar s.iss.core key).members.contains s.cur.uid then .next s.retire
      else match s.cur.marks.find? (·.1 == key) with
        | some m => .next (s.barWait key m.2)
        | none => .next s.retire

/-! ## Mailboxes (R51, R183, R184) -/

/-- The core that X(xs1)[16:4] names. -/
def targetCore (v : Word) : Nat := bitsOf v 16 4

def execMbsend (a b : XReg) (s : State) : Out :=
  if s.misuse [a, b] [] then s.trapOut 0x0E 0
  else
    let t := s.teamOf s.iss.core
    let n := targetCore (s.rd a)
    if !t.cores.contains n then s.trapOut 4 (s.rd a)
    else s.afterAll 1 (widest t.cores)
      (.next ((s.pops [a, b]).issueReq 1 (.core n) (winKey n 4 0) 0 0 false 0 (.mail (s.rd b))).retire)

/-- The context of a core that holds the mailbox enable and can take one more trigger (R50, R184). -/
def Core.mailHolder (c : Core) : Option Nat := (c.ctxs.find? fun x => x.2.mben && x.2.roomTrig).map (·.1)

/-- The words of a mailbox that neither a waiting MBRECV nor the enabled handler takes first (R184). -/
def Core.mailOpen (c : Core) : List (Word × Bool) :=
  c.mbox.drop (c.mbwait.length + match c.mailHolder with | some x => 4 - (c.ctx x).trig.length | none => 0)
/-- One word taken from those. -/
def Core.mailTake (c : Core) : Core := { c with mbox := c.mbox.eraseIdx (c.mbox.length - c.mailOpen.length) }

/-- MBRECV: the oldest word at once, with an acquire at the widest scope of the team, or a wait. A poisoned word is trap 0x0F (R74), here
and wherever a mailbox word reaches a register; its record's value is left open (log 65). -/
def execMbrecv (d : XReg) (s : State) : Out :=
  if s.misuse [] [d] then s.trapOut 0x0E 0
  else match s.here.mbwait, s.here.mbox with
    | [], (_, true) :: _ => s.trapFree 0x0F
    | [], (w, false) :: t =>
      let s := s.onHere fun c => { c with mbox := t }
      .next ((s.acquire s.iss.core (widest (s.teamOf s.iss.core).cores)).wr d w).retire
    | _, _ =>
      let t := s.cur.dest d
      let s := s.onHere fun c => { c with mbwait := c.mbwait ++ [(s.iss.ctx, s.cur.uid)] }
      .next (s.onCur fun c => { (if t = 0 ∨ 48 ≤ t then c else c.markEmpty t) with st := .mbrecv, wnpc := s.iss.npc, wdst := t })

def execMbpoll (d : XReg) (g : GReg) (s : State) : Out :=
  if s.misuse [] [d] then s.trapOut 0x0E 0
  else match s.here.mailOpen with
    | [] => .next ((s.wr d 0).onCur (·.setGuard g false)).retire
    | (_, true) :: _ => s.trapFree 0x0F
    | (w, false) :: _ => .next (((s.onHere Core.mailTake).wr d w).onCur (·.setGuard g true)).retire

/-- A word fills the register of a waiting unit, which retires. -/
def State.landWaiting (s : State) (n x : Nat) (w : Word) : State :=
  let c := s.ctxAt n x
  let s := if 48 ≤ c.wdst then s.pushAt n x (qField c.qcfg (c.wdst - 53) % 4) (false, w, 0)
    else if c.wdst = 0 then s else s.onCtx n x fun c => (c.setRegAt c.wdst w).markFull c.wdst
  s.onCtx n x fun c => { c.retire c.wnpc with st := .run }

/-- MAILBOX_DELIVERY (R184): the oldest word goes to the earliest waiting MBRECV, with an acquire, or becomes a trigger of
the enabled context; else it stays. -/
def execMailboxDelivery (c : Nat) (s : State) : Out :=
  match (s.core c).mbox with
  | [] => .next s
  | w :: t =>
    let pop := fun (s : State) => s.onCore c fun k => { k with mbox := t }
    match (s.core c).mbwait with
    | (x, _) :: r =>
      let s := (pop s).onCore c fun k => { k with mbwait := r }
      if w.2 then .next (s.faultFree c x 0x0F (s.ctxAt c x).pc)
      else .next ((s.acquire c (widest (s.teamOf c).cores)).landWaiting c x w.1)
    | [] =>
      match (s.core c).mailHolder with
      | some x =>
        .next (if (s.teamOf c).ending then pop s
          else if w.2 then (pop s).faultFree c x 0x0F (s.ctxAt c x).pc
          else (pop s).onCtx c x fun k => { k with trig := k.trig ++ [(3, w.1, k.uid)] })
      | none => .next s

/-! ## Event lines (R185) -/

def execWfe (l : BitVec 4) (s : State) : Out :=
  if s.here.events.getLsbD l.toNat then
    .next (s.onHere fun c => { c with events := c.events &&& ~~~ (1#16 <<< l.toNat) }).retire
  else .next (s.onCur fun c => { c with st := .wfe l.toNat, wnpc := s.iss.npc })

def execEvsig (a : XReg) (l : BitVec 4) (s : State) : Out :=
  if s.misuse [a] [] then s.trapOut 0x0E 0
  else
    let n := targetCore (s.rd a)
    if !(s.teamOf s.iss.core).cores.contains n then s.trapOut 4 (s.rd a)
    else .next ((s.pops [a]).issueReq 1 (.core n) (winKey n 5 l.toNat) 0 0 false 0 (.event l.toNat)).retire

/-- A context that waits for a line goes on. -/
def Ctx.eventWake (c : Ctx) (l : Nat) : Ctx := if c.st = .wfe l then { c.retire c.wnpc with st := .run } else c

/-- A signal reaches its line: it wakes every waiter and is consumed, or is held (R185). -/
def Core.signal (c : Core) (l : Nat) : Core :=
  if c.ctxs.any fun x => x.2.st == .wfe l then { c with ctxs := c.ctxs.map fun x => (x.1, x.2.eventWake l) }
  else { c with events := c.events ||| (1#16 <<< l) }

/-- EVENT_SIGNAL_ARRIVAL (R185): the oldest signal at core c reaches its line. -/
def execEventSignalArrival (c : Nat) (s : State) : Out :=
  match (s.core c).sigq with
  | [] => .next s
  | l :: t => .next (s.onCore c fun k => { k with sigq := t }.signal l)

end Sys2Proof.Machine
end

