-- ==== Sys2Proof/Machine/Vector.lean ====
section
/-! DEFINITION. Vector instructions on rows: arithmetic, compares, masks, moves, conversion, reductions, permutes, scans,
replay frames and tile types (R212 to R219, R223 to R228, R231). -/

namespace Sys2Proof.Machine

open Sys2Proof

/-! ## Lanes -/

/-- The lanes of a row at a lane width in bits (R212). -/
def lanes (w : Nat) (r : Row) : List Nat := (List.range (512 / w)).map fun l => rowField r (l * w) w
/-- A row from its lanes, lane 0 lowest; lanes not given are 0. -/
def packLanes (w : Nat) (l : List Nat) : Row := BitVec.ofNat 512 (l.foldr (fun v a => a * 2 ^ w + v % 2 ^ w) 0)
/-- The tile type is a float format. -/
def floatTy (ty : Nat) : Bool := ty != 8

/-- The physical row a v field names now, or trap 0x08 outside the lease (R20, R215). -/
def State.withRow (s : State) (f : VReg) (k : Nat → Out) : Out :=
  match s.cur.phys (s.vr f) with
  | some p => k p
  | none => s.trapOut 8 0

/-- The contents and the tile type of a physical row of the issuing core. -/
def State.row (s : State) (p : Nat) : Row := s.rowAt s.iss.core p
def State.ty (s : State) (p : Nat) : Nat := s.rowTy s.iss.core p

/-- Row p of the issuing core is written and the unit retires, with its flags. -/
def State.putRow (s : State) (p : Nat) (v : Row) (f : Flags) : Out := .next ((s.setRowAt s.iss.core p v).orFlags f).retire

/-- An instruction that rounds by frm: trap 0x01 while frm holds 4 to 7 (R98). -/
def State.byFrm (s : State) (k : Out) : Out := if frmBroken s.cur then s.trapOut 1 0 else k

/-- Two sources and a destination of one type that `ok` takes; each lane by `f` of type, destination and sources. -/
def State.lanewise3 (s : State) (d a b : VReg) (ok : Nat → Bool) (f : Nat → Nat → Nat → Nat → Nat × Flags) : Out :=
  s.withRow d fun pd => s.withRow a fun pa => s.withRow b fun pb =>
    let ty := s.ty pd
    if s.ty pa ≠ ty ∨ s.ty pb ≠ ty ∨ !ok ty then s.trapOut 8 0
    else
      let w := laneBits ty
      let r := (List.range (laneCount ty)).map fun l =>
        f ty (rowField (s.row pd) (l * w) w) (rowField (s.row pa) (l * w) w) (rowField (s.row pb) (l * w) w)
      s.putRow pd (packLanes w (r.map (·.1))) (r.foldl (fun g x => g ||| x.2) 0)

/-- One source and a destination of one type. -/
def State.lanewise2 (s : State) (d a : VReg) (ok : Nat → Bool) (f : Nat → Nat → Nat × Flags) : Out :=
  s.lanewise3 d a a ok fun ty _ x _ => f ty x

/-! ## Float group (R216) -/

/-- A rounded operation of two lanes. -/
def State.vfloat (s : State) (d a b : VReg) (f : Fmt → Nat → FVal → FVal → FVal → Nat × Flags) : Out :=
  s.byFrm (s.lanewise3 d a b floatTy fun ty z x y =>
    let m := fmtOf ty
    f m s.cur.frm (m.decode z) (m.decode x) (m.decode y))

def execVadd (_g : GReg) (d a b : VReg) (s : State) : Out := s.vfloat d a b fun f m _ x y => f.add m x y
def execVsub (_g : GReg) (d a b : VReg) (s : State) : Out := s.vfloat d a b fun f m _ x y => f.add m x y.negate
def execVmul (_g : GReg) (d a b : VReg) (s : State) : Out := s.vfloat d a b fun f m _ x y => f.mul m x y
def execVfma (_g : GReg) (d a b : VReg) (s : State) : Out := s.vfloat d a b fun f m z x y => f.fma m x y z
def execVfms (_g : GReg) (d a b : VReg) (s : State) : Out := s.vfloat d a b fun f m z x y => f.fma m x y z.negate
def execVmin (_g : GReg) (d a b : VReg) (s : State) : Out :=
  s.lanewise3 d a b floatTy fun ty _ x y => (fmtOf ty).minMax false x y
def execVmax (_g : GReg) (d a b : VReg) (s : State) : Out :=
  s.lanewise3 d a b floatTy fun ty _ x y => (fmtOf ty).minMax true x y
def execVabs (_g : GReg) (d a : VReg) (s : State) : Out :=
  s.lanewise2 d a floatTy fun ty x => (x % 2 ^ (laneBits ty - 1), 0)
def execVneg (_g : GReg) (d a : VReg) (s : State) : Out :=
  s.lanewise2 d a floatTy fun ty x => (x ^^^ 2 ^ (laneBits ty - 1), 0)

/-! ## Integer group (R217) -/

/-- A lane operation on i32 tiles; no flags. -/
def State.vint (s : State) (d a b : VReg) (f : BitVec 32 → BitVec 32 → BitVec 32) : Out :=
  s.lanewise3 d a b (· == 8) fun _ _ x y => ((f (BitVec.ofNat 32 x) (BitVec.ofNat 32 y)).toNat, 0)
/-- A bitwise operation over all 64 bytes, whatever the types. -/
def State.vbits (s : State) (d a b : VReg) (f : Row → Row → Row) : Out :=
  s.withRow d fun pd => s.withRow a fun pa => s.withRow b fun pb => s.putRow pd (f (s.row pa) (s.row pb)) 0

def execViadd (_g : GReg) (d a b : VReg) (s : State) : Out := s.vint d a b (· + ·)
def execVisub (_g : GReg) (d a b : VReg) (s : State) : Out := s.vint d a b (· - ·)
def execVimul (_g : GReg) (d a b : VReg) (s : State) : Out := s.vint d a b (· * ·)
def execVand (_g : GReg) (d a b : VReg) (s : State) : Out := s.vbits d a b (· &&& ·)
def execVor (_g : GReg) (d a b : VReg) (s : State) : Out := s.vbits d a b (· ||| ·)
def execVxor (_g : GReg) (d a b : VReg) (s : State) : Out := s.vbits d a b (· ^^^ ·)
def execVshl (_g : GReg) (d a b : VReg) (s : State) : Out := s.vint d a b fun x y => x <<< (y.toNat % 32)
def execVshrl (_g : GReg) (d a b : VReg) (s : State) : Out := s.vint d a b fun x y => x >>> (y.toNat % 32)
def execVshra (_g : GReg) (d a b : VReg) (s : State) : Out := s.vint d a b fun x y => x.sshiftRight (y.toNat % 32)
def execVimin (_g : GReg) (d a b : VReg) (s : State) : Out := s.vint d a b fun x y => if y.slt x then y else x
def execVimax (_g : GReg) (d a b : VReg) (s : State) : Out := s.vint d a b fun x y => if x.slt y then y else x

/-! ## Compares (R218) -/

/-- A compare of lanes into a mask; bits at and above the lane count are 0. -/
def State.vcmp (s : State) (d : KReg) (a b : VReg) (ok : Nat → Bool) (f : Nat → Nat → Nat → Bool × Flags) : Out :=
  s.withRow a fun pa => s.withRow b fun pb =>
    let ty := s.ty pa
    if s.ty pb ≠ ty ∨ !ok ty then s.trapOut 8 0
    else
      let w := laneBits ty
      let r := (List.range (laneCount ty)).map fun l => f ty (rowField (s.row pa) (l * w) w) (rowField (s.row pb) (l * w) w)
      let m := r.foldr (fun x n => n * 2 + if x.1 then 1 else 0) 0
      .next ((s.onCur (·.setMask d (BitVec.ofNat 64 m))).orFlags (r.foldl (fun g x => g ||| x.2) 0)).retire

/-- Float compares: NV for a signalling NaN, or for any NaN in the ordered ones. -/
def State.vcmpF (s : State) (d : KReg) (a b : VReg) (ordered : Bool) (f : FVal → FVal → Bool) : Out :=
  s.vcmp d a b floatTy fun ty x y =>
    let u := (fmtOf ty).decode x
    let v := (fmtOf ty).decode y
    (f u v, nvIf (if ordered then u.isNan || v.isNan else u.sig || v.sig))
def State.vcmpI (s : State) (d : KReg) (a b : VReg) (f : BitVec 32 → BitVec 32 → Bool) : Out :=
  s.vcmp d a b (· == 8) fun _ x y => (f (BitVec.ofNat 32 x) (BitVec.ofNat 32 y), 0)

def execVcmpFeq (_g : GReg) (d : KReg) (a b : VReg) (s : State) : Out := s.vcmpF d a b false FVal.eq
def execVcmpFne (_g : GReg) (d : KReg) (a b : VReg) (s : State) : Out := s.vcmpF d a b false fun x y => !x.eq y
def execVcmpFlt (_g : GReg) (d : KReg) (a b : VReg) (s : State) : Out :=
  s.vcmpF d a b true fun x y => !x.isNan && !y.isNan && x.lt y
def execVcmpFle (_g : GReg) (d : KReg) (a b : VReg) (s : State) : Out :=
  s.vcmpF d a b true fun x y => !x.isNan && !y.isNan && !y.lt x
def execVcmpIeq (_g : GReg) (d : KReg) (a b : VReg) (s : State) : Out := s.vcmpI d a b (· == ·)
def execVcmpIne (_g : GReg) (d : KReg) (a b : VReg) (s : State) : Out := s.vcmpI d a b (· != ·)
def execVcmpIlt (_g : GReg) (d : KReg) (a b : VReg) (s : State) : Out := s.vcmpI d a b (·.slt ·)
def execVcmpIle (_g : GReg) (d : KReg) (a b : VReg) (s : State) : Out := s.vcmpI d a b fun x y => !y.slt x

/-! ## Masks (R219) -/

/-- VSEL: lane by lane from va or vb, under k. -/
def execVsel (k : KReg) (d a b : VReg) (s : State) : Out :=
  s.withRow d fun pd => s.withRow a fun pa => s.withRow b fun pb =>
    let ty := s.ty pd
    if s.ty pa ≠ ty ∨ s.ty pb ≠ ty then s.trapOut 8 0
    else
      let w := laneBits ty
      s.putRow pd (packLanes w ((List.range (laneCount ty)).map fun l =>
        rowField (s.row (if (s.cur.mask k).getLsbD l then pa else pb)) (l * w) w)) 0

/-- A mask from two masks. -/
def State.klog (s : State) (d a b : KReg) (f : Word → Word → Word) : Out :=
  s.alter [] fun c => c.setMask d (f (c.mask a) (c.mask b))

def execKand (_g : GReg) (d a b : KReg) (s : State) : Out := s.klog d a b (· &&& ·)
def execKor (_g : GReg) (d a b : KReg) (s : State) : Out := s.klog d a b (· ||| ·)
def execKxor (_g : GReg) (d a b : KReg) (s : State) : Out := s.klog d a b (· ^^^ ·)
def execKandn (_g : GReg) (d a b : KReg) (s : State) : Out := s.klog d a b fun x y => x &&& ~~~ y
def execKfromx (_g : GReg) (d : KReg) (a : XReg) (s : State) : Out :=
  let v := s.rd a
  s.alter [a] (·.setMask d v)
def execKtox (_g : GReg) (d : XReg) (a : KReg) (s : State) : Out := s.put [] d (s.cur.mask a)
/-- Set bits of a word, and the place of the lowest, or 64. -/
def popCount (v : Word) : Nat := ((List.range 64).filter v.getLsbD).length
def firstSet (v : Word) : Nat := ((List.range 64).find? v.getLsbD).getD 64
def execKpop (_g : GReg) (d : XReg) (a : KReg) (s : State) : Out := s.put [] d (BitVec.ofNat 64 (popCount (s.cur.mask a)))
def execKfirst (_g : GReg) (d : XReg) (a : KReg) (s : State) : Out := s.put [] d (BitVec.ofNat 64 (firstSet (s.cur.mask a)))

/-! ## Moves between lanes and x registers (R223) -/

def execVbcx (_g : GReg) (d : VReg) (a : XReg) (s : State) : Out :=
  s.withRow d fun pd =>
    if s.misuse [a] [] then s.trapOut 0x0E 0
    else
      let w := laneBits (s.ty pd)
      (s.pops [a]).putRow pd (packLanes w (List.replicate (512 / w) (s.rd a).toNat)) 0

def execVmvx (_g : GReg) (d : XReg) (v : VReg) (l : BitVec 5) (s : State) : Out :=
  s.withRow v fun p =>
    let w := laneBits (s.ty p)
    if laneCount (s.ty p) ≤ l.toNat then s.trapOut 8 0
    else s.put [] d (BitVec.ofInt 64 (sInt w (rowField (s.row p) (l.toNat * w) w)))

def execVmxv (_g : GReg) (d : VReg) (a : XReg) (l : BitVec 5) (s : State) : Out :=
  s.withRow d fun p =>
    let w := laneBits (s.ty p)
    if laneCount (s.ty p) ≤ l.toNat then s.trapOut 8 0
    else if s.misuse [a] [] then s.trapOut 0x0E 0
    else .next (((s.pops [a]).setLanes s.iss.core p (rowWith 0 (l.toNat * w) w (s.rd a).toNat) (rowWith 0 (l.toNat * w) w (2 ^ w - 1))).retire)

/-! ## Conversion and packing (R224, R225) -/

/-- VCVT: results packed from byte 0, the rest 0; E2-07 is a flag of level 2 (R148). -/
def execVcvt (_g : GReg) (d a : VReg) (sat : BitVec 1) (t : BitVec 4) (s : State) : Out :=
  s.byFrm (s.withRow d fun pd => s.withRow a fun pa =>
    let ty := s.ty pa
    let tgt := t.toNat
    let w := elemBytes tgt * 8
    if laneBits ty < w then s.trapOut 8 0
    else
      let quirk := s.here.level == 2 && s.here.compat.testBit 8 && ty == 1 && tgt == 4 && sat == 1
      let r := (lanes (laneBits ty) (s.row pa)).map fun x => cvtElem ty tgt s.cur.frm (sat == 1) quirk x
      s.putRow pd (packLanes w (r.map (·.1))) (r.foldl (fun g x => g ||| x.2) 0))

def execVpack (_g : GReg) (d a b : VReg) (s : State) : Out :=
  s.withRow d fun pd => s.withRow a fun pa => s.withRow b fun pb =>
    s.putRow pd (packLanes 256 [rowField (s.row pa) 0 256, rowField (s.row pb) 0 256]) 0

def execVunpack (_g : GReg) (d a : VReg) (p : BitVec 2) (t : BitVec 3) (s : State) : Out :=
  s.withRow d fun pd => s.withRow a fun pa =>
    let ty := s.ty pd
    let src := t.toNat
    let e := elemBytes src
    let n := laneCount ty
    if 64 < (p.toNat + 1) * n * e ∨ isFloat src = (ty == 8) ∨ laneBits ty < 8 * e then s.trapOut 8 0
    else
      let r := (List.range n).map fun l =>
        cvtElem src ty 0 false false (rowField (s.row pa) ((p.toNat * n + l) * e * 8) (e * 8))
      s.putRow pd (packLanes (laneBits ty) (r.map (·.1))) (r.foldl (fun g x => g ||| x.2) 0)

/-! ## Reductions (R226) -/

/-- One level of the tree: neighbours are added, the lower on the left. -/
def sumPairs (f : Nat → Nat → Nat × Flags) : List Nat → List Nat × Flags
  | x :: y :: t =>
    let r := f x y
    let u := sumPairs f t
    (r.1 :: u.1, r.2 ||| u.2)
  | l => (l, 0)
/-- k levels of the tree. -/
def sumTree (f : Nat → Nat → Nat × Flags) : Nat → List Nat → Nat × Flags
  | 0, l => (l.headD 0, 0)
  | k + 1, l =>
    let r := sumPairs f l
    let u := sumTree f k r.1
    (u.1, r.2 ||| u.2)

/-- Lane 0 of a row, the others 0. -/
def lane0 (w v : Nat) : Row := packLanes w [v]

def execVrsum (_g : GReg) (d a : VReg) (s : State) : Out :=
  s.withRow a fun pa =>
    let ty := s.ty pa
    let w := laneBits ty
    if floatTy ty && frmBroken s.cur then s.trapOut 1 0
    else s.withRow d fun pd =>
      if s.ty pd ≠ ty then s.trapOut 8 0
      else
        let f := fun x y => if ty = 8 then ((x + y) % 2 ^ 32, 0) else (fmtOf ty).add s.cur.frm ((fmtOf ty).decode x) ((fmtOf ty).decode y)
        let r := sumTree f (if w = 16 then 5 else 4) (lanes w (s.row pa))
        s.putRow pd (lane0 w r.1) r.2

/-- The largest of float lanes; E1-11 leaves NaN lanes out (R148). -/
def maxLane (f : Fmt) (skipNan : Bool) (l : List Nat) : Nat × Flags :=
  let fl := nvIf (l.any fun x => (f.decode x).sig)
  let good := l.filter fun x => !(f.decode x).isNan
  if good.isEmpty || (!skipNan && good.length < l.length) then (f.nan, fl)
  else (good.tail.foldl (fun a x => (f.minMax true a x).1) (good.headD 0), fl)

def execVrmax (_g : GReg) (d a : VReg) (s : State) : Out :=
  s.withRow d fun pd => s.withRow a fun pa =>
    let ty := s.ty pa
    let w := laneBits ty
    let l := lanes w (s.row pa)
    if s.ty pd ≠ ty then s.trapOut 8 0
    else
      let r := if ty = 8 then (l.tail.foldl (fun a x => if sInt 32 a < sInt 32 x then x else a) (l.headD 0), 0)
        else maxLane (fmtOf ty) (s.here.level == 1 && s.here.compat.testBit 1) l
      s.putRow pd (lane0 w r.1) r.2

/-! ## Permutes (R227) -/

/-- A lane rearrangement: vd[l] from the lanes of va, and 0 for none. -/
def State.permute (s : State) (pd pa : Nat) (f : Nat → Option Nat) : Out :=
  let ty := s.ty pa
  let w := laneBits ty
  if s.ty pd ≠ ty then s.trapOut 8 0
  else s.putRow pd (packLanes w ((List.range (laneCount ty)).map fun l =>
    match f l with
    | some k => rowField (s.row pa) (k * w) w
    | none => 0)) 0

def execVperm (_g : GReg) (d a b : VReg) (s : State) : Out :=
  s.withRow d fun pd => s.withRow a fun pa => s.withRow b fun pb =>
    s.permute pd pa fun l => some (rowField (s.row pb) (8 * l) 8 % laneCount (s.ty pa))

def execVslide (_g : GReg) (d a : VReg) (n : BitVec 5) (s : State) : Out :=
  s.withRow d fun pd => s.withRow a fun pa => s.permute pd pa fun l =>
    let k : Int := l + n.toInt
    if 0 ≤ k ∧ k < laneCount (s.ty pa) then some k.toNat else none

def execVbcast (_g : GReg) (d a : VReg) (l : BitVec 5) (s : State) : Out :=
  s.withRow d fun pd => s.withRow a fun pa =>
    if laneCount (s.ty pa) ≤ l.toNat then s.trapOut 8 0 else s.permute pd pa fun _ => some l.toNat

/-! ## Scans (R109, R228) -/

/-- The recurrence of VSCAN over the lanes from l on: previous value h, then (a, b) pairs. -/
def scanLanes (m : Word) : Nat → Nat → List (Nat × Nat) → List Nat × Flags
  | _, _, [] => ([], 0)
  | l, h, (a, b) :: t =>
    let h := if m.getLsbD l then 0 else h
    let r := f32.fma 0 (f32.decode a) (f32.decode h) (f32.decode b)
    let u := scanLanes m (l + 1) r.1 t
    (r.1 :: u.1, r.2 ||| u.2)

/-- A value is an infinity. -/
def FVal.isInf : FVal → Bool
  | .inf _ => true
  | _ => false

/-- A step of VSCANC that follows IEEE 754 since an operand is a NaN or an infinity (R109); whether an infinity times a zero raises NV
beside a quiet NaN is left open, as for every fused operation (log 8). -/
def pairSpecial (a h k b : FVal) : Nat × Flags :=
  let bad := fun x y : FVal => (x.isInf && y.isZero) || (x.isZero && y.isInf)
  let signs := (if a.isInf || h.isInf then [a.neg != h.neg] else []) ++ (if a.isInf || k.isInf then [a.neg != k.neg] else []) ++
    (if b.isInf then [b.neg] else [])
  if a.isNan || h.isNan || k.isNan || b.isNan then (f32.nan, nvIf (a.sig || h.sig || k.sig || b.sig || ((bad a h || bad a k) && Config.fmaNv)))
  else if bad a h || bad a k || (signs.contains true && signs.contains false) then (f32.nan, flNV)
  else (f32.sgn (signs.contains true) f32.infMag, 0)

/-- The exact a × h + a × k + b of finite values, as an integer times a power of two. -/
def pairExact (a h k b : FVal) : Int × Int :=
  match a, h, k, b with
  | .fin x m e, .fin y n d, .fin z p g, .fin w q c =>
    let f := min (min (e + d) (e + g)) c
    (FVal.int (x != y) (m * n * 2 ^ (e + d - f).toNat) + FVal.int (x != z) (m * p * 2 ^ (e + g - f).toNat) +
      FVal.int w (q * 2 ^ (c - f).toNat), f)
  | _, _, _, _ => (0, 0)

/-- A finite value is none of NaN and infinity. -/
def FVal.isFin : FVal → Bool
  | .fin _ _ _ => true
  | _ => false

/-- One step of VSCANC: the new pair and its flags; both roundings set flags (log 17). An exact v of zero gives hi = +0, whose sign the
spec does not state (log 51). -/
def pairStep (a hi lo b : Nat) : Nat × Nat × Flags :=
  let x := f32.decode a
  let h := f32.decode hi
  let k := f32.decode lo
  let y := f32.decode b
  if x.isFin && h.isFin && k.isFin && y.isFin then
    let v := pairExact x h k y
    let r := f32.round 0 false (decide (v.1 < 0)) v.1.natAbs v.2
    match f32.decode r.1 with
    | .fin z p g =>
      if v.1 = 0 then (0, 0, 0)
      else
        let f := min g v.2
        let w := v.1 * 2 ^ (v.2 - f).toNat - FVal.int z (p * 2 ^ (g - f).toNat)
        let t := f32.round 0 false (decide (w < 0)) w.natAbs f
        (r.1, if w = 0 then 0 else t.1, r.2 ||| t.2)
    | _ => (r.1, 0, r.2)
  else
    let r := pairSpecial x h k y
    (r.1, 0, r.2)

/-- The recurrence of VSCANC. -/
def scanPairs (m : Word) : Nat → Nat → Nat → List (Nat × Nat) → List (Nat × Nat) × Flags
  | _, _, _, [] => ([], 0)
  | l, hi, lo, (a, b) :: t =>
    let z := m.getLsbD l
    let r := pairStep a (if z then 0 else hi) (if z then 0 else lo) b
    let u := scanPairs m (l + 1) r.1 r.2.1 t
    ((r.1, r.2.1) :: u.1, r.2.2 ||| u.2)

/-- Lane 15 of an f32 row. -/
def State.last (s : State) (p : Nat) : Nat := rowField (s.row p) 480 32

/-- A row number near a field's, in the lease or trap 0x08. -/
def State.withNum (s : State) (n : Nat) (k : Nat → Out) : Out :=
  match s.cur.phys n with
  | some p => k p
  | none => s.trapOut 8 0

/-- The v numbers of the rows from which a scan takes its carry: the row, or the pair of rows, before n in its tile (R228). -/
def carryRows (n : Nat) (pair : Bool) : List Nat := (if pair then [n / 16 * 16 + (n + 14) % 16] else []) ++ [n / 16 * 16 + (n + 15) % 16]
/-- The v numbers of the rows that a scan reads on the current replay. -/
def State.scanRows (s : State) (d a : VReg) (pair : Bool) : List Nat := s.vr a :: (s.vr a + 1) :: carryRows (s.vr d) pair

/-- VSCAN (R228): the carry-in comes from the row before vd in its tile. The limit on va is one of the field: a number stepped by a frame is
checked as a row alone (log 67). -/
def State.scan (s : State) (d a : VReg) (m : KReg) : Out :=
  let n := s.vr d
  let v := s.vr a
  s.withNum n fun pd => s.withNum v fun pa => s.withNum (v + 1) fun pb => s.withNum (n / 16 * 16 + (n + 15) % 16) fun pr =>
    if [pd, pa, pb, pr].any fun p => s.ty p != 1 then s.trapOut 8 0
    else
      let r := scanLanes (s.cur.mask m) 0 (s.last pr) ((lanes 32 (s.row pa)).zip (lanes 32 (s.row pb)))
      s.putRow pd (packLanes 32 r.1) r.2

def execVscan (_g : GReg) (d a : VReg) (k : KReg) (s : State) : Out := s.scan d a k
/-- VSCAN as level 1 encodes it (R147). -/
def execVscanL1 (_g : GReg) (d a : VReg) (k : KReg) (s : State) : Out := s.scan d a k
/-- VSCANC: the pair before vd in its tile carries in; hi goes to vd, lo to the row after it. The limits on va and vd are ones of the
fields, as for VSCAN (log 67). -/
def execVscanc (_g : GReg) (d a : VReg) (k : KReg) (s : State) : Out :=
  let n := s.vr d
  let v := s.vr a
  let t := n / 16 * 16
  s.withNum n fun pd => s.withNum (n + 1) fun pe => s.withNum v fun pa => s.withNum (v + 1) fun pb =>
    s.withNum (t + (n + 14) % 16) fun ph => s.withNum (t + (n + 15) % 16) fun pl =>
      if [pd, pe, pa, pb, ph, pl].any fun p => s.ty p != 1 then s.trapOut 8 0
      else
        let r := scanPairs (s.cur.mask k) 0 (s.last ph) (s.last pl) ((lanes 32 (s.row pa)).zip (lanes 32 (s.row pb)))
        (s.setRowAt s.iss.core pd (packLanes 32 (r.1.map (·.1)))).putRow pe (packLanes 32 (r.1.map (·.2))) r.2

/-! ## Replay frames and tile types (R214, R231) -/

/-- REPV: trap 0x02 for a length outside 1 to 16 (8 at level 1) or inside a frame, 0x08 with no lease. -/
def execRepv (_g : GReg) (l c g : BitVec 5) (s : State) : Out :=
  if l = 0 ∨ 16 < l.toNat ∨ (s.here.level = 1 ∧ 8 < l.toNat) ∨ s.cur.frame.isSome then s.trapOut 2 0
  else if s.cur.lease.isEmpty then s.trapOut 8 0
  else .next (s.retire.onCur fun k =>
    { k with frame := some { start := s.iss.npc, len := l.toNat, count := c.toNat + 1, stag := g.toNat, r := 0, pos := 0 } })

def execTcfg (_g : GReg) (t : BitVec 1) (y : BitVec 5) (s : State) : Out :=
  match s.cur.lease[t.toNat]? with
  | none => s.trapOut 8 0
  | some n => .next (s.onHere fun c => c.setTile n { c.tile n with ty := y.toNat }).retire

end Sys2Proof.Machine
end

