-- ==== Sys2Proof/Machine/RowMem.lean ====
section
/-! DEFINITION. Rows and memory (R64, R65, R220 to R222), and the special function unit (R108, R229, R230). -/

namespace Sys2Proof.Machine

open Sys2Proof

/-! ## Whole rows (R220) -/

/-- The replay a frame unit is on (R231). -/
def State.replay (s : State) : Nat := match s.cur.frame with | some f => f.r | none => 0

/-- Bytes of a row access at an address, for a tile type: N × e in a formatted bank, else 64 (R64), by the format of the moment of its
issue; its conversion uses the format of the moment it begins at its home (log 54). -/
def State.rowBytes (s : State) (ty : Nat) (va : Word) : Nat :=
  match classify s.iss.core va with
  | .window c 0 off => if s.keyFmt (.core c) (winKey c 0 off) = 0 then 64 else laneCount ty * elemBytes (s.keyFmt (.core c) (winKey c 0 off))
  | _ => 64

/-- The address of a row access on a replay: X(xa) plus as many times what an access at X(xa) moves (R220, R231). -/
def State.stepped (s : State) (ty : Nat) (a : Word) : Word := a + BitVec.ofNat 64 (s.replay * s.rowBytes ty a)

/-- A row load waits for its parts under a join (R74). -/
def State.addJoin (s : State) (row ty left : Nat) : State :=
  (State.onCur { s with joins := s.joins ++ [({ id := s.nextReq, uid := s.cur.uid, row := row, ty := ty, left := left, data := 0,
                                                 mask := 0, poison := none, flags := 0, upc := s.iss.upc } : Join)] } fun c =>
    { c with pendV := c.pendV ++ [row] })

/-- A global store updates the issuing core's L1 copy, word by word (R83). -/
def Core.l1StoreAll (c : Core) (key : Nat) : List Byte → Nat → Core
  | _, 0 => c
  | b, k + 1 => Core.l1StoreAll (c.l1Store key (b.take 8)) (key + 8) (b.drop 8) k

def execVld (_g : GReg) (d : VReg) (a : XReg) (s : State) : Out :=
  s.withRow d fun pd =>
    if s.misuse [a] [] then s.trapOut 0x0E 0
    else
      let ty := s.ty pd
      let va := s.stepped ty (s.rd a)
      let n := s.rowBytes ty va
      s.withAccess va n n false [0, 1] true true fun p _ _ =>
        let op : ReqOp := .rowLd s.nextReq ty [] true none
        (((s.pops [a]).addJoin pd ty 1).issueReq (s.pathOf p true va.toNat) p.home p.key va p.slot p.stream 0 op).retire

/-- A row store: `bulk` sends it through the adaptive pool to any home but the own core (R77). -/
def State.rowStore (s : State) (d : VReg) (a : XReg) (bulk : Bool) : Out :=
  s.withRow d fun pd =>
    if s.misuse [a] [] then s.trapOut 0x0E 0
    else
      let ty := s.ty pd
      let va := s.stepped ty (s.rd a)
      let n := s.rowBytes ty va
      let data := s.row pd
      s.withAccess va n n true [0, 1] true false fun p _ g =>
        let cls := if p.home = .core s.iss.core then 0 else if bulk then 2 else 1
        let s := (s.pops [a]).issueReq cls p.home p.key va p.slot p.stream 0 (.rowSt ty data [] true none)
        (if g then s.onHere fun c => c.l1StoreAll p.key (leBytes 64 data.toNat) 8 else s).retire

def execVst (_g : GReg) (d : VReg) (a : XReg) (s : State) : Out := s.rowStore d a false
def execVstb (_g : GReg) (d : VReg) (a : XReg) (s : State) : Out := s.rowStore d a true

/-! ## Elements (R221, R222) -/

/-- Bytes of one element of a strided access at an address. -/
def State.elemAt (s : State) (ty : Nat) (va : Word) : Nat :=
  match classify s.iss.core va with
  | .window c 0 off => if s.keyFmt (.core c) (winKey c 0 off) = 0 then laneBits ty / 8 else elemBytes (s.keyFmt (.core c) (winKey c 0 off))
  | _ => laneBits ty / 8

/-- Two addresses lie in one bank, one tile or one page (R221); the page is the 64 KiB of R55, also within a larger leaf (log 69). -/
def sameUnit (me : Nat) (a b : Word) : Bool :=
  match classify me a, classify me b with
  | .global x, .global y => x / 2 ^ 16 == y / 2 ^ 16
  | .window c r o, .window d q p =>
    c == d && r == q && (if r = 0 then o / 2 ^ 15 == p / 2 ^ 15 else if r = 1 then o / 1024 == p / 1024 else true)
  | .none, .none => true
  | _, _ => false

/-- The key of a lane's own address (R55, R57), from the base access that the checks have passed. -/
def laneKey (me : Nat) (p : Phys) (va v : Word) : Nat :=
  match classify me v with
  | .window c r o => winKey c r o
  | _ => ((p.key : Int) + (v - va).toInt).toNat

/-- Lanes whose element a higher lane names too give way to it. -/
def topLanes : List (Nat × Nat) → List (Nat × Nat)
  | [] => []
  | p :: t => if t.any (·.2 == p.2) then topLanes t else p :: topLanes t

/-- The requests of an element access: (home, key, address, elements); a window's elements travel together, global ones by
their 128-byte line. -/
def State.elemGroups (s : State) (p : Phys) (va : Word) (glob : Bool) (els : List (Nat × Nat)) : List (Home × Nat × Word × List (Nat × Nat)) :=
  if glob then
    ((els.map fun e => e.2 / 128).dedup).map fun l =>
      let home := match p.home with
        | .slice q _ => s.homeSlice q (l * 128 % 2 ^ 48)
        | h => h
      (home, l * 128, va - BitVec.ofInt 64 ((p.key : Int) - (l * 128 : Nat)), els.filter fun e => e.2 / 128 = l)
  else
    let k := els.foldl (fun m e => min m e.2) p.key
    [(p.home, k, va - BitVec.ofNat 64 (p.key - k), els)]

/-- The elements of a strided access with their keys, once all checks pass; `write` for a store. -/
def State.strided (s : State) (ty : Nat) (base stride : Word) (write : Bool)
    (k : Phys → Word → Bool → List (Nat × Nat) → State) : Out :=
  let va := base + BitVec.ofNat 64 (s.replay * s.elemAt ty base)
  let e := s.elemAt ty va
  let vas := (List.range (laneCount ty)).map fun l => va + BitVec.ofNat 64 l * stride
  if vas.any fun v => v.toNat % e != 0 || !sameUnit s.iss.core va v then s.trapOut 3 va
  else s.withAccess va e 1 write [0, 1] true (!write) fun p _ g =>
    let els := (List.range (laneCount ty)).map fun l => (l, laneKey s.iss.core p va (vas.getD l 0))
    if els.any fun x => s.holdsBack x.2 e then s else k p va g els

/-- The requests of a row load by elements, joined. -/
def State.loadGroups (s : State) (pd ty : Nat) (p : Phys) (gs : List (Home × Nat × Word × List (Nat × Nat))) : State :=
  let j := s.nextReq
  let s := s.addJoin pd ty gs.length
  gs.foldl (fun s g =>
    s.issueReq (s.pathOf { p with home := g.1, key := g.2.1 } true g.2.2.1.toNat) g.1 g.2.1 g.2.2.1 p.slot p.stream 0
      (.rowLd j ty g.2.2.2 false none)) s

/-- The requests of a row store by elements. -/
def State.storeGroups (s : State) (data : Row) (ty : Nat) (p : Phys) (gs : List (Home × Nat × Word × List (Nat × Nat))) : State :=
  gs.foldl (fun s g =>
    s.issueReq (s.pathOf { p with home := g.1, key := g.2.1 } false 0) g.1 g.2.1 g.2.2.1 p.slot p.stream 0
      (.rowSt ty data g.2.2.2 false none)) s

def execVlds (_g : GReg) (d : VReg) (a b : XReg) (s : State) : Out :=
  s.withRow d fun pd =>
    if s.misuse [a, b] [] then s.trapOut 0x0E 0
    else
      let ty := s.ty pd
      s.strided ty (s.rd a) (s.rd b) false fun p va g els =>
        ((s.pops [a, b]).loadGroups pd ty p (s.elemGroups p va g els)).retire

def execVsts (_g : GReg) (d : VReg) (a b : XReg) (s : State) : Out :=
  s.withRow d fun pd =>
    if s.misuse [a, b] [] then s.trapOut 0x0E 0
    else
      let ty := s.ty pd
      let data := s.row pd
      s.strided ty (s.rd a) (s.rd b) true fun p va g els =>
        let els := topLanes els
        let w := laneBits ty
        let s' := (s.pops [a, b]).storeGroups data ty p (s.elemGroups p va g els)
        (if g then els.foldl (fun s e => s.onHere fun c => c.l1Store e.2 (leBytes (w / 8) (rowField data (e.1 * w) w))) s' else s').retire

/-- The elements of a gather or scatter in region 0 of a team core, after the checks of R222 in their order. An X(xa) whose own offset
lies past the region does not resolve to it, whatever the lanes' sums (log 68). -/
def State.indexed (s : State) (d b : VReg) (a : XReg) (k : Nat → Nat → Nat → Word → List (Nat × Nat) → State) : Out :=
  s.withRow d fun pd => s.withRow b fun pb =>
    if s.ty pb ≠ 8 ∨ laneCount (s.ty pd) ≠ 16 then s.trapOut 8 0
    else if s.misuse [a] [] then s.trapOut 0x0E 0
    else
      let va := s.rd a
      match classify s.iss.core va with
      | .window c 0 off =>
        if !(s.teamOf s.iss.core).cores.contains c ∨ 2 ^ 18 ≤ off then s.trapOut 4 va
        else
          let offs := (lanes 32 (s.row pb)).map fun x => (off : Int) + sInt 32 x
          let inside := fun o : Int => decide (0 ≤ o) && decide (o < 2 ^ 18)
          let size := fun o : Nat => let f := s.keyFmt (.core c) (winKey c 0 o); if f = 0 then 4 else elemBytes f
          if offs.any fun o => inside o && o.toNat % size o.toNat != 0 then s.trapOut 3 va
          else if offs.any fun o => !inside o then s.trapOut 4 va
          else
            let els := (List.range 16).map fun l => (l, winKey c 0 (offs.getD l 0).toNat)
            if els.any fun x => s.holdsBack x.2 4 then .next s
            else .next (k pd c off (va - BitVec.ofNat 64 off) els)
      | _ => s.trapOut 4 va

def execVgath (_g : GReg) (d : VReg) (a : XReg) (b : VReg) (s : State) : Out :=
  s.indexed d b a fun pd c _ va els =>
    let p : Phys := { key := winKey c 0 0, home := .core c, slot := 0, stream := false, write := true }
    ((s.pops [a]).loadGroups pd (s.ty pd) p [(.core c, winKey c 0 0, va, els)]).retire

def execVscat (_g : GReg) (d : VReg) (a : XReg) (b : VReg) (s : State) : Out :=
  s.indexed d b a fun pd c _ va els =>
    let p : Phys := { key := winKey c 0 0, home := .core c, slot := 0, stream := false, write := true }
    ((s.pops [a]).storeGroups (s.row pd) (s.ty pd) p [(.core c, winKey c 0 0, va, topLanes els)]).retire

/-! ## Special functions (R229, R230) -/

/-- A function of one lane of a tile type: f32 in between, rounded to the lane (R108; log 18). -/
def sfuLane (fn ty x : Nat) : Nat × Flags :=
  if ty = 1 then sfuFn fn x
  else
    let a := cvtFF (fmtOf ty) f32 0 false false x
    let r := sfuFn fn a.1
    let b := cvtFF f32 (fmtOf ty) 0 false false r.1
    (b.1, a.2 ||| r.2 ||| b.2)

/-- An SFU instruction takes one of the 8 entries, reads va into it, and leaves vd pending. -/
def State.sfu (s : State) (fn : Nat) (d a : VReg) : Out :=
  s.withRow d fun pd => s.withRow a fun pa =>
    let ty := s.ty pd
    if s.ty pa ≠ ty ∨ !floatTy ty then s.trapOut 8 0
    else if 8 ≤ s.here.sfuq.length then .next s
    else
      let e : SfuEntry := { uid := s.cur.uid, fn := fn, ty := ty, row := pd, data := s.row pa }
      .next ((s.onHere fun c => { c with sfuq := c.sfuq ++ [e] }).onCur fun c => { c with pendV := c.pendV ++ [pd] }).retire

def execVexp2 (_g : GReg) (d a : VReg) (s : State) : Out := s.sfu 0 d a
def execVlog2 (_g : GReg) (d a : VReg) (s : State) : Out := s.sfu 1 d a
def execVrcp (_g : GReg) (d a : VReg) (s : State) : Out := s.sfu 2 d a
def execVrsq (_g : GReg) (d a : VReg) (s : State) : Out := s.sfu 3 d a
def execVsqrt (_g : GReg) (d a : VReg) (s : State) : Out := s.sfu 4 d a
def execVtanh (_g : GReg) (d a : VReg) (s : State) : Out := s.sfu 5 d a

/-- SFU_SERVICE (R230): the oldest entry of core c leaves the queue; its result travels the pipeline. -/
def execSfuService (c : Nat) (s : State) : Out :=
  match (s.core c).sfuq with
  | [] => .next s
  | e :: t =>
    let r := (lanes (laneBits e.ty) e.data).map (sfuLane e.fn e.ty)
    let res : SfuRes := { uid := e.uid, row := e.row, data := packLanes (laneBits e.ty) (r.map (·.1)), flags := r.foldl (fun g x => g ||| x.2) 0 }
    .next (s.onCore c fun k => { k with sfuq := t, sfuPipe := k.sfuPipe ++ [res] })

/-- SFU_RESULT_WRITE (R230): result i of core c is written, or held while its thread is parked or its team is being saved. -/
def execSfuResultWrite (c i : Nat) (s : State) : Out :=
  match (s.core c).sfuPipe[i]? with
  | none => .next s
  | some r =>
    let s := s.onCore c fun k => { k with sfuPipe := k.sfuPipe.eraseIdx i }
    match s.holder r.uid with
    | none => .next s
    | some (n, x) =>
      let k := s.ctxAt n x
      let t := s.teamOf n
      if (k.uid = r.uid ∧ (k.st = .parked ∨ k.st = .ecall)) ∨ (t.phase = .stopping ∧ t.saving) then .next (s.onCtx n x fun k => { k with sfuHeld := k.sfuHeld ++ [r] })
      else .next (s.sfuLand n x r)

end Sys2Proof.Machine
end

