-- ==== Sys2Proof/Machine/Matrix.lean ====
section
/-! DEFINITION. Matrix instructions and the course array (R97, R103 to R106, R234 to R251). -/

namespace Sys2Proof.Machine

open Sys2Proof

/-! ## Operands (R235, R236) -/

/-- Bytes of a row of A or B in a format, 0 for a format that neither takes. -/
def matRow (f : Nat) : Nat := if f = 2 ∨ f = 3 then 32 else if f = 4 ∨ f = 5 ∨ f = 7 then 16 else if f = 6 then 8 else 0
/-- Aligned magnitude width of a float operand format (R103). -/
def alignWidth (f : Nat) : Nat := if f = 6 then 10 else if f = 4 ∨ f = 5 then 8 else 16
/-- The offset of an address in the own core's region 0, if it names that region (R236). -/
def ownOff (me : Nat) (a : Word) : Option Nat :=
  match classify me a with
  | .window c 0 off => if c = me then some off else none
  | _ => none
/-- A range ends within region 0. -/
def fitsSpad (r : Nat × Nat) : Bool := r.1 + r.2 ≤ 2 ^ 18
/-- Every byte of the ranges lies in banks of one format (R236). -/
def Core.oneFmt (c : Core) (f : Nat) (rs : List (Nat × Nat)) : Bool :=
  rs.all fun r => r.2 == 0 || (List.range ((r.1 + r.2 - 1) / 2 ^ 15 - r.1 / 2 ^ 15 + 1)).all fun i =>
    8 ≤ r.1 / 2 ^ 15 + i || c.bankFmt ((r.1 / 2 ^ 15 + i) * 2 ^ 15) == f
/-- Rows of n bytes from an offset. -/
def rowsAt (off stride n : Nat) (rows : List Nat) : List (Nat × Nat) := rows.map fun i => (off + i * stride, n)
/-- Bytes of the own scratchpad, as numbers. -/
def State.spadAt (s : State) (off n : Nat) : List Nat := (memBytes s.mem (winKey s.iss.core 0 off) n).map (·.toNat)
/-- A range of the own scratchpad holds a poisoned word. -/
def State.spadBad (s : State) (r : Nat × Nat) : Bool := r.2 != 0 && s.poisonedAny (winKey s.iss.core 0 r.1) r.2
/-- The elements of an ACCST of the core still to be written meet n bytes from a key of its scratchpad. -/
def State.accstMeets (s : State) (key n : Nat) : Bool :=
  (s.here.mat.any fun m => match m.op with
      | .store els _ _ _ _ => els.any fun e => e.any fun a => meet 8 (key, n) (a, 4)
      | _ => false) ||
    s.reqs.any fun r => r.core == s.iss.core && match r.op with
      | .elem _ _ => (s.spots r).any (meet 8 (key, n))
      | _ => false
/-- A CM unit waits for the thread's own writes of the bytes it reads (R78, R239), for an engine that owns a unit of them (R70), and,
unless it is a GMMA, which the engine accepts at issue, for a gang operation that has not begun and an ACCST that writes them (R244,
R248). -/
def State.cmWaits (s : State) (gang : Bool) (rs : List (Nat × Nat)) : Bool :=
  (!gang && s.here.mat.any (·.gang.isSome)) ||
    rs.any fun r => r.2 != 0 && (s.spadWaits (winKey s.iss.core 0 r.1) r.2 || (!gang && s.accstMeets (winKey s.iss.core 0 r.1) r.2))

/-- The elements of 16 in a row's bytes (R97: the low nibble of a q4 byte comes first). -/
def rawElems (f : Nat) (b : List Nat) : List Nat :=
  (List.range 16).map fun k =>
    if f = 6 then b.getD (k / 2) 0 / 16 ^ (k % 2) % 16
    else if elemBytes f = 2 then b.getD (2 * k) 0 + 256 * b.getD (2 * k + 1) 0 else b.getD k 0
/-- An e3m5 block scale: magnitude and exponent (R96). -/
def e3m5 (b : Nat) : Nat × Int := if b / 32 = 0 then (b % 32, -7) else (32 + b % 32, (b / 32 : Int) - 8)
/-- An e8m0 scale (R96). -/
def e8m0 (b : Nat) : FVal := if b = 255 then .nan false else .fin false 1 ((b : Int) - 127)
/-- The value of an element: an f4 times its block scale in q4, an integer in i8. -/
def elemVal (f raw scale : Nat) : FVal :=
  if f = 6 then
    match f4.decode raw with
    | .fin n m e => .fin n (m * (e3m5 scale).1) (e + (e3m5 scale).2)
    | v => v
  else if f = 7 then .fin (decide (sInt 8 raw < 0)) (sInt 8 raw).natAbs 0
  else (fmtOf f).decode raw

/-- floor(log2 |v|) of the largest nonzero finite value (R103 step 2). -/
def alignTop : List FVal → Option Int
  | [] => none
  | v :: t =>
    let r := alignTop t
    match v with
    | .fin _ m e => if m = 0 then r else some (match r with | some q => max q (e + bitLen m - 1) | none => e + bitLen m - 1)
    | _ => r
/-- An element at an alignment (R103 steps 1, 3, 4). -/
def alignElem (w : Nat) (top : Int) (v : FVal) : BElem :=
  match v with
  | .nan _ => { cls := 3, neg := false, mag := 0 }
  | .inf n => { cls := 2, neg := n, mag := 0 }
  | .fin n m e =>
    let sh : Int := (w : Int) - 1 - top + e
    { cls := if m = 0 then 0 else 1, neg := n, mag := if 0 ≤ sh then m * 2 ^ sh.toNat else m / 2 ^ (-sh).toNat }
/-- The aligned set and its exponent; integers are not aligned (R105). -/
def alignSet (f : Nat) (l : List FVal) : List BElem × Int :=
  if f = 7 then (l.map (alignElem 1 0), 0)
  else
    let top := (alignTop l).getD 0
    (l.map (alignElem (alignWidth f) top), top)

/-! ## The operand word (R235) -/

def wScale (w : Word) : Nat := bitsOf w 63 48
def wStride (w : Word) : Nat := bitsOf w 31 16
def wSlot (w : Word) : Nat := bitsOf w 8 0
/-- A reserved or unused field is nonzero, a slot or a scale is out of range. -/
def opWordBad (w : Word) (scaled strided slotted store : Bool) : Bool :=
  bitsOf w 47 40 != 0 || bitsOf w 15 9 != 0 || (if scaled then wScale w % 8 != 0 else wScale w != 0) ||
    (!strided && wStride w != 0) || (if slotted then 256 ≤ wSlot w else wSlot w != 0) || (!store && bitsOf w 39 32 != 0)

/-! ## Slots (R237 to R240) -/

/-- Slot n becomes empty with the rest of its load. -/
def Core.clearSlot (c : Core) (n : Nat) : Core :=
  let k := (c.slot n).size
  let drop := fun (c : Core) (i : Nat) => { c with slots := tabSet c.slots i Slot.empty }
  if k = 2 then drop (drop c n) (n + 1) else if k = 3 then drop (drop c n) (n - 1) else drop c n
/-- A load takes slot n, or n and n + 1. -/
def Core.setSlot (c : Core) (n : Nat) (v : Slot) : Core :=
  let c := c.clearSlot n
  if v.size = 2 then
    let c := c.clearSlot (n + 1)
    { c with slots := tabSet (tabSet c.slots n v) (n + 1) { v with size := 3 } }
  else { c with slots := tabSet c.slots n v }

/-- The B block a record describes, from 16 rows or from a header and its blocks: depth by depth, column by column. -/
def blockRaw (fmt stride src : Nat) (sparse : Bool) (rd : Nat → Nat → List Nat) : List (List Nat) :=
  let n := matRow fmt
  if sparse then
    let map := leNat ((rd src 2).map (BitVec.ofNat 8))
    (List.range 16).map fun k => (List.range 16).map fun j =>
      let b := 4 * (k / 4) + j / 4
      if map.testBit b then
        let i := ((List.range b).filter map.testBit).length
        (rawElems fmt (rd (src + 8 + i * n) n)).getD (4 * (k % 4) + j % 4) 0
      else 0
  else (List.range 16).map fun k => rawElems fmt (rd (src + k * stride) n)

/-- The slot a record gives over a scratchpad (R238 to R240, R251). -/
def loadSlot (r : Slot) (rd : Nat → Nat → List Nat) : Slot :=
  let raw := blockRaw r.fmt r.stride r.src r.sparse rd
  let sc := if r.mode = 2 then rd (r.scale * 4) 32 else []
  let val := fun k j => elemVal r.fmt ((raw.getD k []).getD j 0) (sc.getD (2 * j + k / 8) 0)
  let cols := (List.range 16).map fun j => alignSet r.fmt ((List.range 16).map fun k => val k j)
  { r with els := cols.map (·.1), exps := cols.map (·.2),
           zq := (List.range 4).map fun q => (List.range 4).all fun d => (List.range 16).all fun j => (val (4 * q + d) j).isZero }

/-- The ranges a load reads: rows, or the header and its blocks, and the block scales of mode 2. -/
def loadRanges (fmt stride off : Nat) (sparse : Bool) (mode scale blocks : Nat) : List (Nat × Nat) :=
  (if sparse then [(off, 8), (off + 8, blocks * matRow fmt)] else rowsAt off stride (matRow fmt) (List.range 16)) ++
    (if mode = 2 then [(scale * 4, 32)] else [])

/-- A lease tile of a CM unit, or trap 0x08 (R20, R250). -/
def State.withTile (s : State) (t : BitVec 1) (k : Nat → Out) : Out :=
  match s.cur.lease[t.toNat]? with
  | some p => k p
  | none => s.trapOut 8 0

/-- WLD and WLDS (R239, R240), with the checks of R250. -/
def State.loadB (s : State) (t : BitVec 1) (a b : XReg) (mode : Nat) (sparse : Bool) : Out :=
  s.withTile t fun _ =>
    if s.misuse [a, b] [] then s.trapOut 0x0E 0
    else
      let va := s.rd a
      let w := s.rd b
      let off := (ownOff s.iss.core va).getD (2 ^ 18)
      let own := decide (off < 2 ^ 18)
      let fmt := if own then s.here.bankFmt off else 0
      let n := matRow fmt
      let head := if sparse && own then leNat ((s.spadAt off 8).map (BitVec.ofNat 8)) else 0
      let blocks := ((List.range 16).filter head.testBit).length
      let rs := loadRanges fmt (wStride w) off sparse mode (wScale w) blocks
      if s.cmWaits false rs then .next s
      else if own && (n == 0 || !s.here.oneFmt fmt (if sparse then rs.take 2 else rs.take 16) || (mode == 2) != (fmt == 6) ||
          (mode == 1 && fmt != 4 && fmt != 5)) then s.trapOut 8 0
      else if opWordBad w (mode == 2) (!sparse) true false || (n == 32 && wSlot w % 2 == 1) || (sparse && 2 ^ 16 ≤ head) then
        s.trapOut 2 0
      else if (if sparse then va.toNat % 8 != 0 else own && (va.toNat % n != 0 || wStride w % n != 0)) then s.trapOut 3 va
      else if !own || !rs.all fitsSpad then s.trapOut 4 va
      else if rs.any s.spadBad then s.trapOut 0x0F va
      else
        let r : Slot := { Slot.empty with sparse := sparse, size := if n = 32 then 2 else 1, mode := mode, fmt := fmt,
                                          scale := wScale w, stride := if sparse then 0 else wStride w, src := off }
        .next (((s.pops [a, b]).onHere fun c => c.setSlot (wSlot w) (loadSlot r s.spadAt)).retire)

def execWld (_g : GReg) (t : BitVec 1) (a b : XReg) (m : BitVec 4) (s : State) : Out := s.loadB t a b m.toNat false
def execWlds (_g : GReg) (t : BitVec 1) (a b : XReg) (m : BitVec 4) (s : State) : Out := s.loadB t a b m.toNat true

/-! ## The dot product (R104, R105) -/

/-- p of R104 as an f32 pattern, over the included depths. -/
def dotFloat (l : List (BElem × BElem)) (e : Int) : Nat :=
  let infs := (l.filter fun p => p.1.cls == 2 || p.2.cls == 2).map fun p => p.1.neg != p.2.neg
  if l.any fun p => p.1.cls == 3 || p.2.cls == 3 then f32.nan
  else if l.any fun p => (p.1.cls == 2 && p.2.cls == 0) || (p.1.cls == 0 && p.2.cls == 2) then f32.nan
  else match infs with
    | n :: _ => if infs.all (· == n) then f32.sgn n f32.infMag else f32.nan
    | [] =>
      let d := l.foldl (fun (acc : Int) p => acc + FVal.int (p.1.neg != p.2.neg) (p.1.mag * p.2.mag)) 0
      if d = 0 then 0 else (f32.round 0 false (decide (d < 0)) d.natAbs e).1
/-- The sum of R105, modulo 2^32. -/
def dotInt (l : List (BElem × BElem)) : Nat :=
  uBits 32 (l.foldl (fun (acc : Int) p => acc + FVal.int (p.1.neg != p.2.neg) (p.1.mag * p.2.mag)) 0)

/-- What one engine does to its tile: rows of A as read on the lead with its scale area, the own slot and scale area. -/
def macOf (mode aFmt : Nat) (rows : List (Option (List Nat))) (scA : List Nat) (k : Word) (sl : Slot) (scB : List Nat) : TileOp :=
  let kin := (List.range 16).filter fun d => k.getLsbD (32 + d)
  let w := (alignWidth aFmt : Int) - 1 + ((alignWidth sl.fmt : Int) - 1)
  let p := (List.range 16).flatMap fun i =>
    match rows.getD i none with
    | none => List.replicate 16 none
    | some raw =>
      let a := alignSet aFmt (kin.map fun d => elemVal aFmt (raw.getD d 0) (scA.getD (2 * i + d / 8) 0))
      (List.range 16).map fun j =>
        if k.getLsbD (16 + j) then
          let col := sl.els.getD j []
          let l := a.1.zip (kin.map fun d => col.getD d { cls := 0, neg := false, mag := 0 })
          some (if aFmt = 7 then dotInt l else dotFloat l (a.2 + sl.exps.getD j 0 - w))
        else none
  let band := fun (on : Bool) (l : List Nat) (o i : Nat) => if on then l.getD (o + 2 * i) 0 + 256 * l.getD (o + 2 * i + 1) 0 else 0x3F80
  .mac mode (aFmt == 7) p
    ((List.range 16).map fun i => if mode = 1 then scA.getD i 0 else band (aFmt == 6) scA 32 i)
    ((List.range 16).map fun j => if mode = 1 then scB.getD (16 + j) 0 else band (sl.fmt == 6) scB 64 j)

/-! ## MMA and GMMA (R241 to R245) -/

/-- The pairings of R241: mode, A format, B format and the mode of its load, tile type. -/
def pairOk (mode a b bMode ty : Nat) : Bool :=
  let wide := fun f : Nat => 2 ≤ f && f ≤ 5
  if mode = 0 then (wide a && wide b && ty == 1) || (a == 7 && b == 7 && ty == 8)
  else if mode = 1 then (a == 4 || a == 5) && (b == 4 || b == 5) && bMode == 1 && ty == 1
  else (wide a || a == 6) && (wide b || b == 6) && (a == 6 || b == 6) && ty == 1

/-- A slot's load, or some load where the operand word names no slot, goes with a format of A and a tile type (R241, R250). -/
def pairsWith (mode a ty : Nat) (sl : Option Slot) : Bool :=
  match sl with
  | some b => pairOk mode a b.fmt b.mode ty
  | none => (List.range 9).any fun f => (List.range 3).any fun m => pairOk mode a f m ty
/-- The thread is a member of a live gang family (R244). -/
def State.inGang (s : State) : Bool :=
  match s.cur.fam with
  | some f => (s.fam f).live && !(s.fam f).finished && (s.fam f).desc.gang
  | none => false

/-- A CM operation enters the engine; its number stands among the thread's requests (R248, R249). -/
def State.engage (s : State) (tile : Nat) (gang : Option Nat) (op : TileOp) : State :=
  let m : MatOp := { id := s.nextReq, uid := s.cur.uid, ctx := s.iss.ctx, upc := s.iss.upc, who := s.whoNow, tile := tile,
                     fam := s.cur.fam, gang := gang, op := op }
  State.onHere { s with nextReq := s.nextReq + 257 } fun c => { c with mat := c.mat ++ [m] }

/-- The thread's GMMA takes the next number of its core and is recorded on the wired barrier (R244, R245). -/
def State.gangTake (s : State) : State :=
  let q := s.iss.core / 4
  let e : GangEntry := { no := s.here.gangNo, pos := s.iss.core % 4, who := s.whoNow, upc := s.iss.upc }
  State.onHere { s with gangs := tabSet s.gangs q (tabGet [] s.gangs q ++ [e]) } fun c => { c with gangNo := c.gangNo + 1 }

/-- A guarded-off GMMA keeps its number (R163, R245). -/
def State.gangOff (s : State) : State := if s.inGang then s.gangTake else s

/-- The issue checks and reads of MMA and GMMA in the order of R250; `lead` reads A. Rows that are off take no part in the area check
(log 71). -/
def State.multiply (s : State) (t : BitVec 1) (a b : XReg) (kr : KReg) (mode : Nat) (gang : Bool) : Out :=
  s.withTile t fun tile =>
    if s.misuse [a, b] [] then s.trapOut 0x0E 0
    else
      let lead := !gang || s.iss.core % 4 == 0
      let k := s.cur.mask kr
      let va := s.rd a
      let w := s.rd b
      let off := if lead then (ownOff s.iss.core va).getD (2 ^ 18) else 0
      let own := decide (off < 2 ^ 18)
      let on := (List.range 16).filter k.getLsbD
      let first := off + on.headD 0 * wStride w
      let known := lead && own && decide (first < 2 ^ 18)
      let fmt := if known then s.here.bankFmt first else 0
      let n := matRow fmt
      let rs := if known then rowsAt off (wStride w) n on else []
      let scs := if mode = 0 then [] else [(wScale w * 4, if mode = 1 then 32 else 96)]
      let sl := s.here.slot (wSlot w)
      let ty := (s.here.tile tile).ty
      let poor := fun i => (List.range 16).any fun d =>
        k.getLsbD (32 + d) && s.spadBad (off + i * wStride w + (if fmt = 6 then d / 2 else d * elemBytes fmt), 1)
      if s.cmWaits gang (rs ++ scs) then .next s
      else if wSlot w < 256 && (sl.size == 0 || sl.size == 3) then s.trapOut 8 0
      else if known && (n == 0 || !s.here.oneFmt fmt rs) then s.trapOut 8 0
      else if !((if known then [fmt] else List.range 9).any fun f => pairsWith mode f ty (if wSlot w < 256 then some sl else none)) then
        s.trapOut 8 0
      else if gang && !s.inGang then s.trapFree 0x0A
      else if opWordBad w (mode != 0) true true false then s.trapOut 2 0
      else if known && (va.toNat % n != 0 || wStride w % n != 0) then s.trapOut 3 va
      else if !own || (lead && !known) || !rs.all fitsSpad || !scs.all fitsSpad then s.trapOut 4 va
      else if known && on.any poor then s.trapOut 0x0F va
      else
        let rows := (List.range 16).map fun i =>
          if known && k.getLsbD i then some (rawElems fmt (s.spadAt (off + i * wStride w) n)) else none
        let sc := match scs with | r :: _ => s.spadAt r.1 r.2 | [] => []
        let s := s.pops [a, b]
        if gang then
          let no := s.here.gangNo
          .next ((s.engage tile (some no) (.gang k mode fmt rows sc (wSlot w))).gangTake.retire)
        else .next ((s.engage tile none (macOf mode fmt rows sc k sl sc)).retire)

def execMma (_g : GReg) (t : BitVec 1) (a b : XReg) (k : KReg) (m : BitVec 4) (s : State) : Out := s.multiply t a b k m.toNat false
def execGmma (_g : GReg) (t : BitVec 1) (a b : XReg) (k : KReg) (m : BitVec 4) (s : State) : Out := s.multiply t a b k m.toNat true

/-- The un-begun GMMA of a number on a core. -/
def Core.gangOp (c : Core) (no : Nat) : Option MatOp := c.mat.find? (·.gang == some no)
/-- Mode and masks of an un-begun GMMA, as R245 compares them. -/
def MatOp.accord (m : MatOp) : Nat × Nat :=
  match m.op with
  | .gang k mode _ _ _ _ => (mode, k.toNat % 2 ^ 48)
  | _ => (0, 0)
/-- A GMMA begins with A of the lead and the own B; without a lead it changes no tile. -/
def Core.gangBegin (c : Core) (lead : Option MatOp) (m : MatOp) : Core :=
  match lead, m.op with
  | some l, .gang k mode _ _ sc slot =>
    match l.op with
    | .gang _ _ aFmt rows scA _ =>
      let op := macOf mode aFmt rows scA k (c.slot slot) sc
      { c with mat := c.mat.map fun q => if q.id = m.id then { q with gang := none, op := op } else q }
    | _ => c
  | _, _ => { c with mat := c.mat.filter (·.id != m.id) }
/-- The pairing of a core with the lead's A holds (R241, R245). -/
def Core.gangPair (c : Core) (lead : Option MatOp) (m : MatOp) : Bool :=
  match lead, m.op with
  | some l, .gang _ mode _ _ _ slot =>
    match l.op with
    | .gang _ _ aFmt _ _ _ => pairOk mode aFmt (c.slot slot).fmt (c.slot slot).mode (c.tile m.tile).ty
    | _ => true
  | _, _ => true

/-- GANG_OPERATION (R244, R245): the lowest number of course q of which all four GMMA have issued or are off. -/
def execGangOperation (q : Nat) (s : State) : Out :=
  let l := tabGet [] s.gangs q
  match (l.filter fun e => !s.gangShort q e.no).map (·.no) with
  | [] => .next s
  | n :: t =>
    let no := t.foldl min n
    let es := l.filter (·.no == no)
    let s : State := { s with gangs := tabSet s.gangs q (l.filter (·.no != no)) }
    let live := (List.range 4).filterMap fun i => ((s.core (4 * q + i)).gangOp no).map fun m => (4 * q + i, m)
    let lead := (s.core (4 * q)).gangOp no
    let drop := fun (s : State) => live.foldl (fun s p => s.onCore p.1 fun c => c.gangBegin none p.2) s
    let agree := match live with
      | [] => true
      | p :: t => t.all fun r => r.2.accord == p.2.accord
    let poor := live.filter fun p => !(s.core p.1).gangPair lead p.2
    if !agree then .next (es.foldl (fun s e => s.whoFault (4 * q + e.pos) e.who false 0x0A (BitVec.ofNat 64 (no % 2 ^ 32)) e.upc) (drop s))
    else if !poor.isEmpty then .next (poor.foldl (fun s p => s.whoFault p.1 p.2.who false 8 0 p.2.upc) (drop s))
    else .next (live.foldl (fun s p => s.onCore p.1 fun c => c.gangBegin lead p.2) s)

/-! ## ACCZ, ACCLD, ACCST (R246, R247) -/

/-- Row and column bits of element (i, j) are on. -/
def elemOn (k : Word) (p : Nat) : Bool := k.getLsbD (p / 16) && k.getLsbD (16 + p % 16)
/-- ACCST's rounding mode as it stands at issue. -/
def storeMode (w : Word) (frm : Nat) : Nat := if bitsOf w 38 36 = 7 then frm else bitsOf w 38 36

def execAccz (_g : GReg) (t : BitVec 1) (kr : KReg) (s : State) : Out :=
  s.withTile t fun tile =>
    if s.cmWaits false [] then .next s
    else .next (s.engage tile none (.zero ((List.range 256).map (elemOn (s.cur.mask kr))))).retire

def execAccld (_g : GReg) (t : BitVec 1) (a b : XReg) (kr : KReg) (s : State) : Out :=
  s.withTile t fun tile =>
    if s.misuse [a, b] [] then s.trapOut 0x0E 0
    else
      let k := s.cur.mask kr
      let va := s.rd a
      let w := s.rd b
      let off := (ownOff s.iss.core va).getD (2 ^ 18)
      let own := decide (off < 2 ^ 18)
      let fmt := if own then s.here.bankFmt off else 0
      let e := if fmt = 0 then 4 else elemBytes fmt
      let ty := (s.here.tile tile).ty
      let spot := fun p => off + p / 16 * wStride w + p % 16 * e
      let rs := ((List.range 256).filter (elemOn k)).map fun p => (spot p, e)
      if s.cmWaits false (if own then rs else []) then .next s
      else if (ty != 1 && ty != 8) || (own && (fmt == 6 || 8 < fmt || !s.here.oneFmt fmt rs)) then s.trapOut 8 0
      else if opWordBad w false true false false then s.trapOut 2 0
      else if own && (va.toNat % e != 0 || wStride w % e != 0) then s.trapOut 3 va
      else if !own || !rs.all fitsSpad then s.trapOut 4 va
      else if rs.any s.spadBad then s.trapOut 0x0F va
      else
        let v := (List.range 256).map fun p =>
          if elemOn k p then
            let raw := leNat ((s.spadAt (spot p) e).map (BitVec.ofNat 8))
            some (if fmt = 0 then raw else (cvtRow fmt ty raw).1)
          else none
        .next ((s.pops [a, b]).engage tile none (.load v)).retire

def execAccst (_g : GReg) (t : BitVec 1) (a b : XReg) (kr : KReg) (s : State) : Out :=
  s.withTile t fun tile =>
    if s.misuse [a, b] [] then s.trapOut 0x0E 0
    else
      let k := s.cur.mask kr
      let va := s.rd a
      let w := s.rd b
      let off := (ownOff s.iss.core va).getD (2 ^ 18)
      let fmt := bitsOf w 35 32
      let e := elemBytes fmt
      let ty := (s.here.tile tile).ty
      let rm := storeMode w s.cur.frm
      let spot := fun p => off + p / 16 * wStride w + p % 16 * e
      if s.cmWaits false [] then .next s
      else if ty != 1 && ty != 8 then s.trapOut 8 0
      else if opWordBad w false true false true || !([1, 2, 3, 4, 5, 7, 8].contains fmt) || 4 ≤ rm then s.trapOut 2 0
      else if va.toNat % e != 0 || wStride w % e != 0 then s.trapOut 3 va
      else if 2 ^ 18 ≤ off || !((List.range 256).all fun p => !elemOn k p || fitsSpad (spot p, e)) then s.trapOut 4 va
      else
        let els := (List.range 256).map fun p => if elemOn k p then some (winKey s.iss.core 0 (spot p)) else none
        .next ((s.pops [a, b]).engage tile none (.store els ty fmt rm (w.getLsbD 39))).retire

/-! ## The tile's step (R106, R248) -/

/-- C(i, j) of tile t of core n, as 32 bits; p is 16 i + j. -/
def State.acc (s : State) (n t p : Nat) : Nat := memNat s.mem (tileKey n t (p / 16) + 4 * (p % 16)) 4
def State.setAcc (s : State) (n t p v : Nat) : State :=
  { s with mem := memPut s.mem (tileKey n t (p / 16) + 4 * (p % 16)) (leBytes 4 v) }

/-- a × b, exact. -/
def FVal.times (a b : FVal) : FVal :=
  match a, b with
  | .nan _, _ | _, .nan _ => .nan false
  | .inf x, .inf y => .inf (x != y)
  | .inf x, .fin y m _ => if m = 0 then .nan false else .inf (x != y)
  | .fin x m _, .inf y => if m = 0 then .nan false else .inf (x != y)
  | .fin x m e, .fin y n d => .fin (x != y) (m * n) (e + d)
/-- A value rounded to f32 under RNE. -/
def roundF32 (v : FVal) : Nat :=
  match v with
  | .nan _ => f32.nan
  | .inf n => f32.sgn n f32.infMag
  | .fin n m e => (f32.round 0 false n m e).1

/-- The closed value of an element (R106): one rounding in mode 1, two in mode 2. -/
def closed (mode c sv a b : Nat) : Nat :=
  let v := f32.decode c
  if mode = 1 then (f32.add 0 v ((f32.decode sv).times ((e8m0 a).times (e8m0 b)))).1
  else (f32.add 0 v (f32.decode (roundF32 ((f32.decode sv).times ((bf16.decode a).times (bf16.decode b)))))).1

/-- An open period of a tile closes (R106). -/
def State.closePeriod (s : State) (n t : Nat) : State :=
  let k := (s.core n).tile t
  if k.count = 0 then s
  else
    let s := (List.range 256).foldl (fun s p =>
      if k.touched.getD p false then
        s.setAcc n t p (closed k.mode (s.acc n t p) (k.part.getD p 0).toNat (k.sA.getD (p / 16) 0) (k.sB.getD (p % 16) 0))
      else s) s
    s.onCore n fun c => c.setTile t { Tile.fresh with ty := k.ty }
/-- S and the counter of a tile are cleared without a close. -/
def State.clearPeriod (s : State) (n t : Nat) : State := s.onCore n fun c => c.setTile t { Tile.fresh with ty := (c.tile t).ty }

/-- A scaled operation's products go to S; a period opens with the first and closes with the last. -/
def State.stage (s : State) (n t mode : Nat) (p : List (Option Nat)) (sA sB : List Nat) : State :=
  let s := s.onCore n fun c =>
    let k := c.tile t
    let k := if k.count = 0 then { k with mode := mode, sA := sA, sB := sB, part := List.replicate 256 0, touched := List.replicate 256 false } else k
    c.setTile t { k with count := k.count + 1, touched := (k.touched.zip p).map fun q => q.1 || q.2.isSome,
                         part := (k.part.zip p).map fun q => match q.2 with
                           | some v => BitVec.ofNat 32 (f32.add 0 (f32.decode q.1.toNat) (f32.decode v)).1
                           | none => q.1 }
  if (if mode = 1 then 8 else 4) ≤ ((s.core n).tile t).count then s.closePeriod n t else s

/-- Whole words of tile t that an operation has written have good parity (R373); `on` is by element. -/
def State.regenerate (s : State) (n t : Nat) (on : Nat → Bool) : State :=
  { s with parity := s.parity.filter fun w =>
      !((List.range 128).any fun i => on (2 * i) && on (2 * i + 1) && w == tileKey n t (i / 8) / 8 + i % 8) }

/-- Elements of e bytes at the keys cover the 8-byte word of a key whole. -/
def wordCovered (keys : List Nat) (e key : Nat) : Bool :=
  (List.range 8).all fun b => keys.any fun k => decide (k ≤ key / 8 * 8 + b) && decide (key / 8 * 8 + b < k + e)

/-- One step on a tile (R248). -/
def State.tileStep (s : State) (n : Nat) (m : MatOp) : State :=
  match m.op with
  | .gang _ _ _ _ _ _ => s
  | .zero on =>
    let s := s.clearPeriod n m.tile
    ((List.range 256).foldl (fun s p => if on.getD p false then s.setAcc n m.tile p 0 else s) s).regenerate n m.tile fun p => on.getD p false
  | .load v =>
    let s := s.clearPeriod n m.tile
    ((List.range 256).foldl (fun s p => match v.getD p none with | some x => s.setAcc n m.tile p x | none => s) s).regenerate n m.tile
      fun p => (v.getD p none).isSome
  | .mac mode int p sA sB =>
    let s := if ((s.core n).tile m.tile).mode = mode then s else s.closePeriod n m.tile
    if mode = 0 then
      (List.range 256).foldl (fun s i => match p.getD i none with
        | some x => s.setAcc n m.tile i (if int then (s.acc n m.tile i + x) % 2 ^ 32
                                         else (f32.add 0 (f32.decode (s.acc n m.tile i)) (f32.decode x)).1)
        | none => s) s
    else s.stage n m.tile mode p sA sB
  | .store els ty fmt rm sat =>
    let s := s.closePeriod n m.tile
    let e := elemBytes fmt
    let keys := els.filterMap id
    (List.range 256).foldl (fun s p => match els.getD p none with
      | some key =>
        let v := (cvtElem ty fmt rm sat false (s.acc n m.tile p)).1
        let r : Req := { id := m.id + 1 + p, uid := m.uid, cls := 0, scope := 0, counted := true, born := s.cycle, core := n, ctx := m.ctx,
                         home := .core n, addr := key, va := BitVec.ofNat 64 key, upc := m.upc, fam := m.fam, slot := 0, stream := false,
                         st := 0, came := 0, arr := 0, acq := 0, noFill := false, begun := false, team := (s.core n).team, tries := 0,
                         bad := false, rtries := 0, rbad := false, op := .elem (leBytes e v) (wordCovered keys e key && !((els.drop (p + 1)).any fun q => q.any (· / 8 == key / 8))) }
        { s with reqs := s.reqs ++ [r] }
      | none => s) s

/-- An access through the window is between two granules of it, and one is in tile t of core n (R58, R248). -/
def State.tileAmid (s : State) (n t : Nat) : Bool :=
  s.reqs.any fun r => r.begun && r.home == .core n && (s.spots r).any (meet 1024 (tileKey n t 0, 1024))

/-- TILE_WRITE (R248): the oldest operation of the core's engine acts on its tile, unless its gang operation has not begun or an
access through the window is under way there. -/
def execTileWrite (c : Nat) (s : State) : Out :=
  match (s.core c).mat with
  | [] => .next s
  | m :: t => if m.gang.isSome || s.tileAmid c m.tile then .next s else .next (State.tileStep (s.onCore c fun k => { k with mat := t }) c m)

/-- A row of tile t of context x is still to be written or read by the engine (R27, R248). -/
def Core.matPends (c : Core) (x t : Nat) : Bool := c.mat.any fun m => m.ctx == x && m.tile == t

end Sys2Proof.Machine
end

