-- ==== Sys2Proof/Machine/Amu.lean ====
section
/-! DEFINITION. The attention mask unit (R274 to R288). -/

namespace Sys2Proof.Machine

open Sys2Proof

/-! ## Mask programs (R274 to R277) -/

/-- A word's op and its signed immediate. -/
def maskOp (w : Nat) : Nat := w / 2048 % 32
def maskImm (w : Nat) : Int := sInt 11 w

/-- The steps of a program, END left out: an EXT, its literal and its atom are one step; none where a word is illegal or END
stands elsewhere than last. The first argument bounds the words. -/
def maskParse : Nat → List Nat → Option (List (Nat × Int))
  | 0, _ => none
  | _ + 1, [] => none
  | _ + 1, [w] => if w = 14 * 2048 then some [] else none
  | k + 1, w :: v :: t =>
    let op := maskOp w
    if op = 31 then
      match t with
      | a :: b :: r =>
        if w % 2048 = 0 ∧ 2 ≤ maskOp a ∧ maskOp a ≤ 7 then
          (maskParse k (b :: r)).map fun l => (maskOp a, sInt 27 (v * 2048 + a % 2048)) :: l
        else none
      | _ => none
    else if op ≤ 12 ∧ (w % 2048 = 0 ∨ (2 ≤ op ∧ op ≤ 7)) then (maskParse k (v :: t)).map fun l => (op, maskImm w) :: l
    else none

/-- The greatest depth of the stack, if it never passes 8, never runs short and ends at one value. -/
def maskDepth : List (Nat × Int) → Nat → Nat → Option Nat
  | [], d, m => if d = 1 then some m else none
  | (op, _) :: t, d, m =>
    if op = 12 then (if d = 0 then none else maskDepth t d m)
    else if 10 ≤ op then (if d < 2 then none else maskDepth t (d - 1) m)
    else if 8 ≤ d then none else maskDepth t (d + 1) (max m (d + 1))

/-- Doc(p) (R276). -/
def docOf (docs : List Nat) (p : Int) : Nat := (docs.filter fun (s : Nat) => decide ((s : Int) ≤ p)).length

/-- An atom over a box (R283): 2 true, 0 false, 1 at some points only. -/
def maskAtom (docs : List Nat) (qa qb ka kb : Int) (op : Nat) (c : Int) : Nat :=
  let v := fun (t f : Bool) => if t then 2 else if f then 0 else 1
  let da := docOf docs qa
  let db := docOf docs qb
  let ea := docOf docs ka
  let eb := docOf docs kb
  if op = 0 then 2
  else if op = 1 then 0
  else if op = 2 then v (decide (kb - qa ≤ c)) (decide (c < ka - qb))
  else if op = 3 then v (decide (c ≤ ka - qb)) (decide (kb - qa < c))
  else if op = 4 then v (decide (kb < c)) (decide (c ≤ ka))
  else if op = 5 then v (decide (c ≤ ka)) (decide (kb < c))
  else if op = 6 then v (decide (qb < c)) (decide (c ≤ qa))
  else if op = 7 then v (decide (c ≤ qa)) (decide (qb < c))
  else if op = 8 then v (da == db && db == ea && ea == eb) (decide (eb < da) || decide (db < ea))
  else v (decide (eb ≤ da)) (decide (db < ea))

/-- Three-valued evaluation (R283): AND is the lesser, OR the greater, NOT the mirror. -/
def maskEval (atom : Nat → Int → Nat) : List (Nat × Int) → List Nat → Nat
  | [], st => st.headD 0
  | (op, c) :: t, st =>
    maskEval atom t
      (if op = 12 then (2 - st.headD 0) :: st.drop 1
       else if op = 10 then Nat.min (st.headD 0) ((st.drop 1).headD 0) :: st.drop 2
       else if op = 11 then Nat.max (st.headD 0) ((st.drop 1).headD 0) :: st.drop 2
       else atom op c :: st)

def Binding.steps (b : Binding) : List (Nat × Int) := (maskParse (b.prog.length + 1) b.prog).getD []
/-- The class of a box under a binding. -/
def Binding.over (b : Binding) (qa qb ka kb : Int) : Nat := maskEval (maskAtom b.docs qa qb ka kb) b.steps []

/-- Starts ascend strictly and stay below 2^31. -/
def startsOk : List Nat → Bool
  | [] => true
  | [a] => decide (a < 2 ^ 31)
  | a :: b :: t => decide (a < b) && startsOk (b :: t)

/-- The mask block (R278): its binding and MaxDepth, if the program is legal (R277). -/
def readBlock (b : List Byte) : Option (Binding × Nat) :=
  let w0 := wordsOf b 0
  let nw := bitsOf w0 5 0
  let nd := bitsOf w0 14 8
  let prog := (List.range nw).map fun i => leNat ((b.drop (64 + 2 * i)).take 2)
  let docs := (List.range nd).map fun i => leNat ((b.drop (128 + 4 * i)).take 4)
  if bitsOf w0 63 15 ≠ 0 ∨ bitsOf w0 7 6 ≠ 0 ∨ (List.range 7).any (fun i => wordsOf b (i + 1) != 0) ∨ nw = 0 ∨ 32 < nw ∨ 64 < nd ∨
      !startsOk docs then none
  else match maskParse (nw + 1) prog with
    | none => none
    | some l => (maskDepth l 0 0).map fun m => ({ prog := prog, docs := docs }, m)

/-! ## Requests (R279 to R286) -/

/-- A request on its way to the cluster's AMU, in arrival order. -/
def State.amuSend (s : State) (op dst : Nat) (a b : Word) (block : List Byte) : State :=
  let c := s.cur
  let r : AmuReq := { uid := c.uid, who := s.whoNow, base := (c.frames.head?.map (·.uid)).getD c.uid, core := s.iss.core, op := op, dst := dst, a := a, b := b,
                      upc := s.iss.upc, block := block, bind := c.bind }
  s.onCluster (s.iss.core / 16) fun k => { k with amuq := k.amuq ++ [r] }

/-- MBIND (R280, R288). -/
def execMbind (d a : XReg) (s : State) : Out :=
  if s.misuse [a] [d] then s.trapOut 0x0E 0
  else
    let va := s.rd a
    let off := (ownOff s.iss.core va).getD (2 ^ 18)
    if va.toNat % 64 ≠ 0 then s.trapOut 3 va
    else if !fitsSpad (off, 384) then s.trapOut 4 va
    else if s.spadWaits (winKey s.iss.core 0 off) 384 then .next s
    else if s.spadBad (off, 384) then s.trapOut 0x0F va
    else
      let t := s.cur.dest d
      let b := memBytes s.mem (winKey s.iss.core 0 off) 384
      .next ((((s.pops [a]).amuSend 0 t va 0 b).onCur (·.await t true)).retire)

/-- MCLASS (R282). -/
def execMclass (d a b : XReg) (s : State) : Out :=
  if s.misuse [a, b] [d] then s.trapOut 0x0E 0
  else
    let t := s.cur.dest d
    .next (((s.pops [a, b]).amuSend 1 t (s.rd a) (s.rd b) []).onCur (·.await t true)).retire

/-- MROW (R284): the mask register waits for the reply; k0 discards it. -/
def execMrow (d : KReg) (a b : XReg) (s : State) : Out :=
  if s.misuse [a, b] [] then s.trapOut 0x0E 0
  else .next (((s.pops [a, b]).amuSend 2 d.toNat (s.rd a) (s.rd b) []).onCur fun c =>
    { c with pendK := if d = 0 then c.pendK else c.pendK ||| (1#8 <<< d.toNat) }).retire

/-- MCNT (R285). -/
def execMcnt (d : XReg) (clr : BitVec 1) (s : State) : Out :=
  if s.misuse [] [d] then s.trapOut 0x0E 0
  else
    let t := s.cur.dest d
    .next ((s.amuSend 3 t (BitVec.ofNat 64 clr.toNat) 0 []).onCur (·.await t true)).retire

/-! ## Serving (R281 to R286) -/

/-- The context that holds the binding a request acts on: where the thread stands, or on its way between cores (R281). Of a thread that is no
more the request itself has kept it: the AMU performs it, and only its reply is dropped (R288). -/
def State.amuCtx (s : State) (r : AmuReq) : Ctx :=
  match s.holder r.base with
  | some (n, x) => s.ctxAt n x
  | none => ((s.moving r.base).map (·.ctx)).getD { Ctx.empty with bind := r.bind }
def State.onAmuCtx (s : State) (r : AmuReq) (f : Ctx → Ctx) : State :=
  match s.holder r.base with
  | some (n, x) => s.onCtx n x f
  | none => s.onThread r.base f

/-- A new binding holds for the requests of the thread that come after its MBIND (R280). -/
def State.rebind (s : State) (base : Nat) (b : Binding) : State :=
  { s with clusters := s.clusters.map fun k =>
      (k.1, { k.2 with amuq := k.2.amuq.map fun q => if q.base = base then { q with bind := some b } else q }) }

/-- A mask reply: written where the thread stands or on its way, or in its saved frame. -/
def State.maskReply (s : State) (uid k : Nat) (v : Word) : State :=
  match s.keptBy uid with
  | some (n, x) => s.onCtx n x fun c => c.onFrame uid fun g => { g with k := if k = 0 then g.k else g.k.set! k v }
  | none => s.onThread uid fun c => { c with pendK := c.pendK &&& ~~~ (1#8 <<< k) }.setMask (BitVec.ofNat 3 k) v

/-- The counters' word (R285). -/
def countsWord (c : Vector Nat 3) : Word :=
  let l := c.toList
  BitVec.ofNat 64 (l.getD 0 0 % 2 ^ 21 * 2 ^ 42 + l.getD 1 0 % 2 ^ 21 * 2 ^ 21 + l.getD 2 0 % 2 ^ 21)

/-- The classes of a row of tiles (R282). -/
def tileClasses (b : Binding) (a n : Word) : List Nat :=
  (List.range n.toNat).map fun (t : Nat) =>
    let q : Int := bitsOf a 31 0
    let k : Int := bitsOf a 63 32 + 16 * t
    b.over q (q + 15) k (k + 15)

/-- 0x0D against the thread that made a request, also one that is no more (R288, R312). -/
def State.amuFault (s : State) (r : AmuReq) (value : Word) : State := s.whoFault r.core r.who false 0x0D value r.upc
/-- One request is answered; an illegal one is trap 0x0D against its thread (R288). -/
def State.amuAnswer (s : State) (r : AmuReq) : State :=
  let c := s.amuCtx r
  if r.op = 0 then
    match readBlock r.block with
    | none => s.amuFault r r.a
    | some (b, m) =>
      ((s.rebind r.base b).onAmuCtx r fun c => { c with bind := some b }).fillReg r.uid r.dst 0
        (BitVec.ofNat 64 (b.prog.length + b.docs.length * 256 + m * 65536))
  else if r.op = 1 then
    match c.bind with
    | none => s.amuFault r 0
    | some b =>
      if r.a.getLsbD 31 || r.a.getLsbD 63 || r.b.toNat == 0 || decide (32 < r.b.toNat) then s.amuFault r 0
      else
        let l := tileClasses b r.a r.b
        let n := fun i : Nat => (l.filter (· == i)).length
        let s := s.onAmuCtx r fun c => { c with cnt := Vector.ofFn fun i => (c.cnt.get i + n i.val) % 2 ^ 21 }
        s.fillReg r.uid r.dst 0 (BitVec.ofNat 64 (l.foldr (fun v acc => acc * 4 + v) 0))
  else if r.op = 2 then
    match c.bind with
    | none => s.amuFault r 0
    | some b =>
      if 2 ^ 31 ≤ r.a.toNat ∨ 2 ^ 31 ≤ r.b.toNat then s.amuFault r 0
      else
        let bit := fun l : Nat => if b.over r.a.toNat r.a.toNat (r.b.toNat + l : Nat) (r.b.toNat + l : Nat) = 2 then 2 ^ l else 0
        s.maskReply r.uid r.dst (BitVec.ofNat 64 (((List.range 32).map bit).foldl (· + ·) 0))
  else
    let s := s.fillReg r.uid r.dst 0 (countsWord c.cnt)
    if r.a = 0 then s else s.onAmuCtx r fun c => { c with cnt := Vector.replicate 3 0 }

/-- AMU_SERVE (R286): the AMU of a cluster serves its oldest request; one of a faulted team is discarded (R319). -/
def execAmuServe (cl : Nat) (s : State) : Out :=
  match (s.cluster cl).amuq with
  | [] => .next s
  | r :: t =>
    let s := s.onCluster cl fun k => { k with amuq := t }
    .next (if (s.teamOf r.core).ending then s else s.amuAnswer r)

end Sys2Proof.Machine
end

