-- ==== Sys2Proof/Machine/Board.lean ====
section
/-! DEFINITION. The I/O die's common parts: boot state, time, rings and signals of a VF (R323, R326, R362, R363), the views a
control region and a snapshot show (R309, R310, R377), snapshots (R376), breakpoints (R165), power (R380). -/

namespace Sys2Proof.Machine

open Sys2Proof

/-! ## Boot and time -/

/-- Boot is complete, so the FEPs run (R379). -/
def State.up (s : State) : Bool := s.bootst == 0x80
/-- What Dyore or a host register does: nothing while the FEPs stay in reset. -/
def State.dyore (s t : State) : Out := .next (if s.up then t else s)

/-- Units of `time` in a microsecond: a cycle takes 16 / ((16 − step) × 940) µs (R380). -/
def microsecond : Nat := 940 * 720720
/-- The length of a cycle at the present clock step. -/
def State.cycleTime (s : State) : Nat := 16 * 720720 / (16 - bitsOf s.pwr 35 32)

/-! ## A VF's rings -/

def State.vf (s : State) (v : Nat) : Vf := tabGet Vf.reset s.vfs v
def State.onVf (s : State) (v : Nat) (f : Vf → Vf) : State := { s with vfs := tabSet s.vfs v (f (s.vf v)) }
def State.bound (s : State) (v : Nat) : Bool := (tabGet 0 s.vbind v).getLsbD 63

/-- Fields of a ring configuration (R363). -/
def cfgEn (c : Word) : Bool := c.getLsbD 63
def cfgLg (c : Word) : Nat := bitsOf c 3 0
/-- A configuration after a write: a write that would enable with lg out of range is ignored; lg stays while en = 1. -/
def cfgWrite (old v : Word) (lo hi : Nat) : Word :=
  let lg := if cfgEn old then cfgLg old else cfgLg v
  if cfgEn v && !(lo ≤ lg && lg ≤ hi) then old
  else BitVec.ofNat 64 ((if cfgEn v then 2 ^ 63 else 0) + lg)

/-- Entries the host has not read; indices count modulo 2^32. -/
def OutRing.used (r : OutRing) : Nat := (r.tail + 2 ^ 32 - r.head) % 2 ^ 32
/-- An enabled ring takes n more entries. -/
def OutRing.room (r : OutRing) (n : Nat) : Bool := cfgEn r.cfg && decide (r.used + n ≤ 2 ^ cfgLg r.cfg)
/-- The host address of entry i of a ring with entries of k bytes. -/
def OutRing.place (r : OutRing) (i k : Nat) : Nat := r.base.toNat + i % 2 ^ cfgLg r.cfg * k
def OutRing.step (r : OutRing) (n : Nat) : OutRing := { r with tail := (r.tail + n) % 2 ^ 32 }

/-- Bytes of the package written to host memory. -/
def State.hostPut (s : State) (a : Nat) (b : List Byte) : State := { s with mem := memPut s.mem (hostBase + a) b }
/-- Dwords as bytes. -/
def wordBytes (w : List Word) : List Byte := w.flatMap fun v => leBytes 8 v.toNat

/-! ## Signals (R326) -/

def State.signal (s : State) (v k : Nat) : Word × Word := tabGet (0, 0) s.signals (v * 4096 + k)
def State.setSignal (s : State) (v k : Nat) (p : Word × Word) : State := { s with signals := tabSet s.signals (v * 4096 + k) p }
/-- Every change of a value is an addition modulo 2^64. -/
def State.signalAdd (s : State) (v k : Nat) (x : Word) : State := s.setSignal v k ((s.signal v k).1 + x, (s.signal v k).2)

/-- SVAL_WRITE (R326, R362): a host write adds. -/
def execSvalWrite (v k : Nat) (val : Word) (s : State) : Out := s.dyore (if k = 0 ∨ 4095 < k then s else s.signalAdd v k val)

/-- HFVER_NEGOTIATE (R366): the Z8 speaks version 1. -/
def execHfverNegotiate (v : Nat) (lo hi : BitVec 8) (s : State) : Out :=
  let ok := decide (lo.toNat ≤ 1) && decide (1 ≤ hi.toNat)
  s.dyore (s.onVf v fun f =>
    { f with hfver := BitVec.ofNat 64 ((if ok then 2 ^ 16 else 2 ^ 24) + hi.toNat * 256 + lo.toNat) })

/-! ## Snapshots (R376, R377) -/

/-- Dwords 1 to 11 of a core's snapshot; a core of a holding team latches no data values until the scrub that ends its release is done
(R359). -/
def State.snapWords (s : State) (n : Nat) : List Word :=
  let c := s.core n
  if s.shut n then c.cstat :: List.replicate 10 0
  else [c.cstat] ++ (List.range 8).map (fun i => BitVec.ofNat 64 (c.xpc (2 * i + 1) * 2 ^ 32 + c.xpc (2 * i))) ++
    [BitVec.ofNat 64 ((List.range 16).foldl (fun a x => a + c.xst x * 16 ^ x) 0), BitVec.ofNat 64 c.issued]
/-- Every snapshot register latches. -/
def State.latchAll (s : State) : State :=
  { s with snap := some { cycle := s.cycle, cores := s.cores.map fun c => (c.1, s.snapWords c.1) } }

/-- SNAPCTL with source bit i set, or with one more missed trigger. -/
def srcSet (w : Word) (i : Nat) : Word := w ||| (1#64 <<< (8 + i))
def missedUp (w : Word) : Word := if bitsOf w 31 24 = 255 then w else w + 0x1000000

/-- A source fires: 0 breakpoint, 1 counter, 2 host, 3 pin. Not enabled, it does nothing; it is noted for the end of the cycle, once a
cycle, and counted as missed while the network is not armed (log 34). -/
def State.fire (s : State) (i : Nat) : State :=
  if !s.snapctl.getLsbD i || s.due.getLsbD i then s
  else { s with due := s.due ||| (1#4 <<< i), snapctl := if s.armed then s.snapctl else missedUp s.snapctl }
/-- At the end of a cycle in which sources have fired while armed, one snapshot is made with every one of them in src, and the network
disarms. -/
def State.snapEnd (s : State) : State :=
  if s.due = 0 then s
  else if !s.armed then { s with due := 0 }
  else { s.latchAll with armed := false, due := 0,
                         snapctl := (List.range 4).foldl (fun w i => if s.due.getLsbD i then srcSet w i else w) s.snapctl }

/-- A write of SNAPSTAT (R376): 1 arms, and any write clears src; sources that fired before the network was armed stay missed. -/
def State.arm (s : State) (on : Bool) : State :=
  { s with armed := s.armed || on, due := if s.armed then s.due else 0, snapctl := s.snapctl &&& ~~~ 0xF00#64 }
/-- SNAP_ARM (R376): arms and clears src. -/
def execSnapArm (s : State) : Out := s.dyore (s.arm true)
def execSnapHostFire (s : State) : Out := s.dyore (s.fire 2)
/-- SNAP_COUNTER_TRIGGER: fires when cycle[63:32] equals cmp. -/
def execSnapCounterTrigger (s : State) : Out := .next (if s.cycle / 2 ^ 32 % 2 ^ 32 = bitsOf s.snapctl 63 32 then s.fire 1 else s)
def execSnapPinTrigger (s : State) : Out := .next (s.fire 3)

/-- A breakpoint: team fault 0x10 with value 0, and the common trigger in the same cycle (R165, R376). -/
def State.breakpoint (s : State) : State := (s.trap 0x10 0).fire 0
def execEbreak (s : State) : Out := .next s.breakpoint
def execCEbreak (s : State) : Out := .next s.breakpoint

/-! ## Power (R380) -/

/-- POWER_CONTROL_TICK: meas against lim moves step within 0 to 12. -/
def execPowerControlTick (meas : BitVec 16) (s : State) : Out :=
  let lim := bitsOf s.pwr 15 0
  let k := bitsOf s.pwr 35 32
  let k := if lim < meas.toNat then Nat.min 12 (k + 1) else if meas.toNat + 50 < lim then k - 1 else k
  .next { s with pwr := BitVec.ofNat 64 (k * 2 ^ 32 + meas.toNat * 2 ^ 16 + lim) }

end Sys2Proof.Machine
end

