-- ==== Sys2Proof/Machine/Engine.lean ====
section
/-! DEFINITION. Copy engines, the indirect engine and multicast (R70, R84, R87, R89, R107, R255 to R269). -/

namespace Sys2Proof.Machine

open Sys2Proof

/-! ## Endpoints and sizes (R259, R261) -/

/-- An endpoint: global or a window, its address (a window's own key), the bounds of its region, its format (0: raw). -/
structure Endp where
  glob : Bool
  pos : Nat
  lo : Nat
  hi : Nat
  fmt : Nat
deriving DecidableEq, Repr

/-- Format code q4 and the reserved codes behave as raw. -/
def plainFmt (f : Nat) : Nat := if f = 6 ∨ 8 < f then 0 else f

/-- The endpoint of an address, for a thread of core `me`: a global one takes the format field, a window one its bank's format;
none where R260 refuses it. -/
def State.endp (s : State) (me : Nat) (a : Word) (field : Nat) : Option Endp :=
  match classify me a with
  | .global v => some { glob := true, pos := v, lo := 0, hi := 2 ^ 49, fmt := plainFmt field }
  | .window c r off =>
    if 2 ≤ r ∨ field ≠ 0 ∨ !(s.teamOf me).cores.contains c ∨ regionSize r < off then none
    else some { glob := false, pos := winKey c r off, lo := winKey c r 0, hi := winKey c r 0 + regionSize r,
                fmt := if r = 0 then plainFmt ((s.core c).bankFmt off) else 0 }
  | .none => none

/-- n bytes at a signed distance from an endpoint lie in its region. -/
def Endp.fits (e : Endp) (d : Int) (n : Nat) : Bool :=
  decide ((e.lo : Int) ≤ e.pos + d) && decide (e.pos + d + n ≤ (e.hi : Int))
/-- An address at a signed distance. -/
def atDelta (p : Nat) (d : Int) : Nat := ((p : Int) + d).toNat
/-- Element sizes of source and destination, and whether elements are converted (R261). -/
def sizesOf (a b : Nat) : Nat × Nat × Bool := if a ≠ 0 ∧ b ≠ 0 then (elemBytes a, elemBytes b, true) else (1, 1, false)
/-- The core of a window key. -/
def winCore (a : Nat) : Nat := a / 2 ^ 42 % 4 * 2048 + a / 2 ^ 30 % 2048

def Command.w (c : Command) (i : Nat) : Word := c.words.getD i 0
def cOp (w0 : Word) : Nat := bitsOf w0 7 0
def cLen (w0 : Word) : Nat := bitsOf w0 63 32
def cMode (w0 : Word) : Nat := bitsOf w0 22 20
def cSr (w0 : Word) : Bool := w0.getLsbD 23
def cSlot (w0 : Word) : Nat := bitsOf w0 31 24
/-- Ops that read a parameter block (R264). -/
def readsBlock (w0 : Word) : Bool := cOp w0 == 5 || cOp w0 == 6 || cOp w0 == 7 || cSr w0

/-- The completion target of R263. -/
def State.targetOk (s : State) (me mode : Nat) (w3 : Word) : Bool :=
  let cores := (s.teamOf me).cores
  if mode = 0 then w3 == 0
  else if mode = 1 then (match classify me w3 with | .window c 0 off => off % 8 == 0 && decide (off + 8 ≤ 2 ^ 18) && cores.contains c | _ => false)
  else if mode = 2 then cores.contains (bitsOf w3 16 4)
  else if mode = 3 then bitsOf w3 63 16 == 0
  else match classify me w3 with | .window c 2 off => off % 8 == 0 && decide (off < 2 ^ 11) && cores.contains c | _ => false

/-- What a command does, once checked. -/
structure Plan where
  src : Option Endp
  dst : Option Endp
  sf : Nat
  df : Nat
  es : Nat
  ed : Nat
  targets : List Nat
deriving DecidableEq, Repr

/-- Both endpoints of ops 1, 2 and 5. -/
def State.planPair (s : State) (me : Nat) (w0 w1 w2 : Word) : Option Plan :=
  match s.endp me w1 (bitsOf w0 11 8), s.endp me w2 (bitsOf w0 15 12) with
  | some a, some b =>
    let (es, ed, conv) := sizesOf a.fmt b.fmt
    if cLen w0 % es ≠ 0 ∨ w1.toNat % es ≠ 0 ∨ w2.toNat % ed ≠ 0 ∨
        (cOp w0 = 2 ∧ !(conv && isFloat a.fmt == isFloat b.fmt)) ∨ (cSr w0 ∧ !(b.fmt == 3 || b.fmt == 4 || b.fmt == 5)) ∨
        !a.fits 0 (cLen w0) ∨ !b.fits 0 (cLen w0 / es * ed) then none
    else some { src := some a, dst := some b, sf := if conv then a.fmt else 0, df := if conv then b.fmt else 0, es := es, ed := ed, targets := [] }
  | _, _ => none

/-- The checks of R260 on a command of a thread of core `me`, with the formats as they stand: none refuses it. -/
def State.copyPlan (s : State) (me : Nat) (w : List Word) : Option Plan :=
  let w0 := w.getD 0 0
  let w1 := w.getD 1 0
  let w2 := w.getD 2 0
  let op := cOp w0
  let len := cLen w0
  let one := fun (a b : Option Endp) (t : List Nat) => some { src := a, dst := b, sf := 0, df := 0, es := 1, ed := 1, targets := t }
  if op = 0 ∨ 7 < op ∨ 4 < cMode w0 ∨ bitsOf w0 17 16 = 3 ∨ 8 < bitsOf w0 11 8 ∨ 8 < bitsOf w0 15 12 ∨ (cSr w0 ∧ op ≠ 2) ∨
      (cSlot w0 ≠ 0 ∧ !readsBlock w0) ∨ !s.targetOk me (cMode w0) (w.getD 3 0) then none
  else if op = 1 ∨ op = 2 ∨ op = 5 then s.planPair me w0 w1 w2
  else if bitsOf w0 15 8 ≠ 0 then none
  else if op = 3 then
    match s.endp me w2 0 with
    | some b => if len % 8 ≠ 0 ∨ w2.toNat % 8 ≠ 0 ∨ !b.fits 0 len then none else one none (some { b with fmt := 0 }) []
    | none => none
  else if op = 4 then
    let t := ((List.range 16).filter w2.getLsbD).map (me / 16 * 16 + ·)
    let off := bitsOf w2 47 16
    match classify me w1 with
    | .global v =>
      if bitsOf w2 63 48 ≠ 0 ∨ t.isEmpty ∨ t.any (fun c => !(s.teamOf me).cores.contains c) ∨ v % 128 ≠ 0 ∨ len % 128 ≠ 0 ∨
          off % 64 ≠ 0 ∨ 2 ^ 18 < off + len ∨ 2 ^ 49 < v + len then none
      else one (some { glob := true, pos := v, lo := 0, hi := 2 ^ 49, fmt := 0 }) none t
    | _ => none
  else if op = 6 then
    match s.endp me w1 0 with
    | some a => if a.fits 0 len then one (some { a with fmt := 0 }) none [] else none
    | none => none
  else
    match s.endp me w2 0 with
    | some b => if b.fits 0 len then one none (some { b with fmt := 0 }) [] else none
    | none => none

/-! ## Posting (R255 to R258) -/

/-- The registers a post reads. -/
def blockRegs (a : XReg) : List XReg := [a, a + 1, a + 2, a + 3]

/-- A command as it is posted; it counts as sent (R52). `bound` is the thread a mode 4 completion is for. -/
def State.newCommand (s : State) (words : List Word) (ticket bound : Nat) : Command :=
  { id := s.nextReq, op := cOp (words.getD 0 0), words := words, uid := s.cur.uid, core := s.iss.core, ctx := s.iss.ctx, upc := s.iss.upc,
    who := s.whoNow, fence := s.cur.xfence.filter s.fenceOpen, ticket := ticket, parked := false, begun := false, units := [], srcFmt := 0,
    dstFmt := 0, grans := [], pieces := [], join := none, seed := 0, counter := 0, chunk := 0, phase := 0, xs := [], status := none,
    bound := bound, pkg := 0, maps := [] }

/-- The thread that stands where a mode 4 target points, 0 for none or another mode (R263; log 55). -/
def State.boundOf (s : State) (me : Nat) (w : List Word) : Nat :=
  if cMode (w.getD 0 0) ≠ 4 then 0
  else match classify me (w.getD 3 0) with
    | .window c 2 off => (s.ctxAt c (off / 128)).uid
    | _ => 0

/-- The command enters the core's queue. -/
def State.enqueue (s : State) (r : Command) : State :=
  State.onHere { s with nextReq := s.nextReq + 1 } fun c => { c with copyq := c.copyq ++ [r], sent := c.sent + 1 }
/-- Commands of the copy engine that have not begun (R258). -/
def Core.copyQueued (c : Core) : Nat := c.copyq.length + (if c.copyWaits.isSome then 1 else 0)
/-- The unit has passed its checks and stalls on a full queue (R256). -/
def Ctx.posted (c : Ctx) (upc : Word) : Bool := c.posting.contains (upc, c.level)
def Ctx.post (c : Ctx) (upc : Word) : Ctx := { c with posting := c.posting.insert (upc, c.level) }

/-- CQPUSH and CQPUSHN (R256): a stalled CQPUSH rechecks nothing. -/
def State.postCopy (s : State) (d a : XReg) (nb : Bool) : Out :=
  if s.misuse (blockRegs a) [d] then s.trapOut 0x0E 0
  else
    let words := (blockRegs a).map s.rd
    if !s.cur.posted s.iss.upc && (s.copyPlan s.iss.core words).isNone then s.trapOut 0x0C (words.getD 0 0)
    else if 4 ≤ s.here.copyQueued then
      if nb then .next ((s.pops (blockRegs a)).wr d 1).retire else .next (s.onCur (·.post s.iss.upc))
    else .next (((s.enqueue (s.newCommand words 0 (s.boundOf s.iss.core words))).pops (blockRegs a)).wr d 0).retire

def execCqpush (d a : XReg) (s : State) : Out := s.postCopy d a false
def execCqpushn (d a : XReg) (s : State) : Out := s.postCopy d a true

/-- The state word of R258. -/
def engineStat (done : Nat) (busy : Bool) (queued : Nat) : Word :=
  BitVec.ofNat 64 (done % 2 ^ 32 * 256 + (if busy then 32 else 0) + queued % 32)

def execCqstat (d : XReg) (s : State) : Out :=
  s.put [] d (engineStat s.here.copyDone (s.here.copyRun.any fun r => r.begun || r.parked) s.here.copyQueued)

/-! ## The ICE's commands (R257, R265) -/

/-- An ICE command once checked: index list, local rows, row bytes on each side, sizes. -/
structure IcePlan where
  list : Nat
  isz : Nat
  loc : Endp
  lrb : Nat
  gf : Nat
  lf : Nat
  gs : Nat
  ls : Nat
deriving DecidableEq, Repr

def iCount (w0 : Word) : Nat := bitsOf w0 63 40
def iRowb (w0 : Word) : Nat := bitsOf w0 39 24

/-- The issue checks of GPOST (R265), made again as each chunk begins. -/
def State.icePlan (s : State) (me : Nat) (w : List Word) : Option IcePlan :=
  let w0 := w.getD 0 0
  let near := fun a : Word => match classify me a with | .window c 0 off => if c / 16 = me / 16 then some off else none | _ => none
  match near (w.getD 1 0), near (w.getD 3 0), s.endp me (w.getD 1 0) 0, s.endp me (w.getD 3 0) 0, classify me (w.getD 2 0) with
  | some _, some _, some l, some e, .global base =>
    let gf := plainFmt (bitsOf w0 15 12)
    let isz := if w0.getLsbD 8 then 8 else 4
    let (gs, ls, conv) := sizesOf gf e.fmt
    let lrb := iRowb w0 / gs * ls
    if cOp w0 = 0 ∨ 3 < cOp w0 ∨ bitsOf w0 17 16 = 3 ∨ 8 < bitsOf w0 15 12 ∨ bitsOf w0 11 9 ≠ 0 ∨ iRowb w0 = 0 ∨
        iRowb w0 % gs ≠ 0 ∨ base % gs ≠ 0 ∨ e.pos % ls ≠ 0 ∨ l.pos % isz ≠ 0 ∨ !l.fits 0 (iCount w0 * isz) ∨
        !e.fits 0 (iCount w0 * lrb) ∨ (cOp w0 = 3 ∧ !(conv && isFloat gf == isFloat e.fmt)) then none
    else some { list := l.pos, isz := isz, loc := e, lrb := lrb, gf := if conv then gf else 0, lf := if conv then e.fmt else 0,
                gs := gs, ls := ls }
  | _, _, _, _, _ => none

def Team.posts (t : Team) (cl : Nat) : Nat := tabGet 0 t.icePost cl
/-- A change of the team of a core. -/
def State.onTeamOf (s : State) (n : Nat) (f : Team → Team) : State :=
  match (s.core n).team with
  | some t => s.onTeam t f
  | none => s

/-- GPOST (R257): the ticket is the team's post counter at this ICE after the post. -/
def execGpost (d a : XReg) (s : State) : Out :=
  if s.misuse (blockRegs a) [d] then s.trapOut 0x0E 0
  else
    let words := (blockRegs a).map s.rd
    let cl := s.iss.core / 16
    if !s.cur.posted s.iss.upc && (s.icePlan s.iss.core words).isNone then s.trapOut 0x0C (words.getD 0 0)
    else if 16 ≤ (s.cluster cl).iceq.length then .next (s.onCur (·.post s.iss.upc))
    else
      let t := ((s.teamOf s.iss.core).posts cl + 1) % 2 ^ 32
      let r := s.newCommand words t 0
      let s := State.onHere { s with nextReq := s.nextReq + 1 } fun c => { c with sent := c.sent + 1 }
      let s := (s.onCluster cl fun k => { k with iceq := k.iceq ++ [r] }).onTeamOf s.iss.core fun m => { m with icePost := tabSet m.icePost cl t }
      .next ((s.pops (blockRegs a)).wr d (BitVec.ofNat 64 t)).retire

def execGstat (d : XReg) (s : State) : Out :=
  let cl := s.iss.core / 16
  s.put [] d (engineStat (tabGet 0 (s.teamOf s.iss.core).iceDone cl) (s.cluster cl).iceRun.isSome (s.cluster cl).iceq.length)

/-! ## Places, granules, pieces -/

/-- A translation of a VF that an engine has found. -/
def mapFind (maps : List TlbEntry) (vf a : Nat) : Option TlbEntry := maps.find? fun t => t.vf == vf && t.page == a / 2 ^ levelBits t.level
/-- Where an engine, working for a VF with the translations it has found, finds an address. -/
def State.spot (s : State) (maps : List TlbEntry) (vf : Nat) (glob : Bool) (a : Nat) : Option Phys :=
  if glob then (mapFind maps vf a).map (s.leafPhys vf a)
  else some { key := a, home := .core (winCore a), slot := 0, stream := false, write := true }

/-- The granules of n bytes from an address, for the source row `tag`. -/
def State.gransOf (s : State) (maps : List TlbEntry) (vf : Nat) (glob : Bool) (a n tag : Nat) : List Gran :=
  if n = 0 then []
  else (List.range ((a + n - 1) / 8 - a / 8 + 1)).filterMap fun i =>
    (s.spot maps vf glob ((a / 8 + i) * 8)).map fun p =>
      { tag := tag, va := (a / 8 + i) * 8, key := p.key, home := p.home, slot := p.slot, stream := p.stream, got := none, tries := 0 }

/-- The pieces of n elements of sizes es and ed from `srcs` to an address, one per 8-byte word of the destination. -/
def State.piecesOf (s : State) (maps : List TlbEntry) (vf : Nat) (glob : Bool) (srcs : List (Nat × Nat)) (d n es ed idx : Nat) : List Piece :=
  if n = 0 then []
  else (List.range ((d + n * ed - 1) / 8 - d / 8 + 1)).filterMap fun i =>
    let lo := (d / 8 + i) * 8
    let e0 := if lo ≤ d then 0 else (lo - d) / ed
    let e1 := Nat.min n ((lo + 8 - d) / ed)
    (s.spot maps vf glob (d + e0 * ed)).map fun p =>
      { srcs := srcs.map fun q => (q.1, q.2 + e0 * es), dst := d + e0 * ed, k := e1 - e0, idx := idx + e0, key := p.key, home := p.home,
        slot := p.slot, stream := p.stream, done := false }

/-- The granule of a source row that holds a byte. -/
def granAt (grans : List Gran) (tag a : Nat) : Option Gran := grans.find? fun g => g.tag == tag && g.va == a / 8 * 8
/-- n source bytes of a row that have been read, and whether one of their words was poisoned. -/
def granBytes (grans : List Gran) (tag a n : Nat) : List Byte × Bool :=
  ((List.range n).map fun i => (((granAt grans tag (a + i)).bind (·.got)).map fun b => b.1.getD ((a + i) % 8) 0).getD 0,
   (List.range n).any fun i => ((granAt grans tag (a + i)).bind (·.got)).any (·.2))
/-- Every granule of n bytes of a row has been read. -/
def granReady (grans : List Gran) (tag a n : Nat) : Bool :=
  grans.all fun g => g.got.isSome || g.tag != tag || decide (g.va + 8 ≤ a) || decide (a + n ≤ g.va)

/-- Bytes at a home, as an engine reads them. -/
def State.homeBytes (s : State) (h : Home) (key slot va n : Nat) : List Byte :=
  match h with
  | .slice p i => s.sliceBytes p i key slot va n
  | _ => memBytes s.mem key n

/-! ## Elements (R65, R107, R262) -/

/-- Mix of R107. -/
def mix (seed : Word) (counter idx : Nat) : Word :=
  let z := seed + 0x9E3779B97F4A7C15 * BitVec.ofNat 64 (counter * 2 ^ 32 + idx)
  let z := (z ^^^ (z >>> 30)) * 0xBF58476D1CE4E5B9
  let z := (z ^^^ (z >>> 27)) * 0x94D049BB133111EB
  z ^^^ (z >>> 31)

/-- A sum s rounded stochastically to a format, by the random word of R107. -/
def stochastic (f : Fmt) (z : Word) (s : FVal) : Nat :=
  match s with
  | .nan _ => f.nan
  | .inf n => if f.ieee then f.sgn n f.infMag else f.sgn n f.maxFin
  | .fin n m q =>
    if m = 0 then f.sgn n 0
    else
      let w := (max (q + bitLen m - 1) (1 - (f.bias : Int)) - f.fw - q).toNat
      let d := m % 2 ^ w
      let v := Nat.min w 32
      let up := 2 ^ v ≤ d / 2 ^ (w - v) + z.toNat % 2 ^ v
      (f.round 1 true n (if d ≠ 0 ∧ up then m / 2 ^ w + 1 else m / 2 ^ w) (q + w)).1

/-- Accumulate (R262): destination format df, source format sf. -/
def accumulate (sf df : Nat) (sr : Bool) (seed : Word) (counter idx d x : Nat) : Nat :=
  if !isFloat df then
    uBits (elemBytes df * 8) (cvtII (elemBytes df * 8) true (sInt (elemBytes df * 8) d + sInt (elemBytes sf * 8) x))
  else
    let t := (f32.add 0 ((fmtOf df).decode d) ((fmtOf sf).decode x)).1
    if sr then stochastic (fmtOf df) (mix seed counter idx) (f32.decode t) else (cvtRow 1 df t).1

/-- The bytes a piece writes, and its poison. `old` is what stands at the destination. -/
def Command.pieceBytes (r : Command) (acc sr : Bool) (p : Piece) (old : List Byte) (oldBad : Bool) : List Byte × Bool :=
  let last := p.srcs.getLastD (0, 0)
  if r.srcFmt = 0 ∨ r.dstFmt = 0 then granBytes r.grans last.1 last.2 p.k
  else
    let es := elemBytes r.srcFmt
    let ed := elemBytes r.dstFmt
    let src := fun q : Nat × Nat => granBytes r.grans q.1 q.2 (p.k * es)
    let el := fun (l : List Byte) (n i : Nat) => leNat ((l.drop (i * n)).take n)
    ((List.range p.k).flatMap fun i =>
      leBytes ed (if acc then p.srcs.foldl (fun v a => accumulate r.srcFmt r.dstFmt sr r.seed r.counter (p.idx + i) v (el (src a).1 es i)) (el old ed i)
                  else (cvtRow r.srcFmt r.dstFmt (el (src last).1 es i)).1),
     (acc && oldBad) || (if acc then p.srcs else [last]).any fun a => (src a).2)

/-- A granule's write enters the adaptive pool of a core (R77, R84). -/
def State.engineWrite (s : State) (core eng : Nat) (w0 : Word) (p : Piece) (b : List Byte) (bad : Bool) : State :=
  let r : Req := { id := s.nextReq, uid := 0, cls := 3, scope := 0, counted := false, born := s.cycle, core := core, ctx := 0, home := p.home,
                   addr := p.key, va := BitVec.ofNat 64 p.dst, upc := 0, fam := none, slot := p.slot, stream := p.stream, st := 0, came := 0,
                   arr := 0, acq := 0, noFill := false, begun := false,
                   team := (s.core core).team, tries := 0, bad := false, rtries := 0, rbad := false, op := .engWrite eng (bitsOf w0 19 18) (if p.stream then 1 else bitsOf w0 17 16) b bad }
  { s with reqs := s.reqs ++ [r], nextReq := s.nextReq + 1 }

/-- One piece of a command is written; accumulation reads what stands there at its home. -/
def State.sendPiece (s : State) (core eng : Nat) (r : Command) (acc sr : Bool) (p : Piece) : State :=
  let n := if r.srcFmt = 0 ∨ r.dstFmt = 0 then p.k else p.k * elemBytes r.dstFmt
  let s := match acc, p.home with
    | true, .slice q i => s.touch q i (p.key / 128) p.slot (p.dst / 128) (bitsOf (r.w 0) 19 18) (if p.stream then 1 else bitsOf (r.w 0) 17 16)
    | _, _ => s
  let v := r.pieceBytes acc sr p (s.homeBytes p.home p.key p.slot p.dst n) (s.poisonedAny p.key n)
  s.engineWrite core eng (r.w 0) p v.1 v.2

/-- A write of the engine is under way. -/
def State.engineBusy (s : State) (eng : Nat) : Bool :=
  s.reqs.any fun r => match r.op with | .engWrite e _ _ _ _ => e == eng | _ => false

/-! ## The copy engine begins a command (R84, R260 to R264, R267, R268) -/

/-- The fences a command waits for hold (R87). -/
def State.released (s : State) (r : Command) : Bool := r.fence.all fun f => !s.fenceOpen f

/-- Dword i of the parameter block of a slot of core c (R264). -/
def State.blockWord (s : State) (c slot i : Nat) : Word := BitVec.ofNat 64 (memNat s.mem (winKey c 0 (0x3C000 + 64 * slot + 8 * i)) 8)

/-- A command leaves its engine refused: a team fault against its poster, no write, no completion (R260, R52). -/
def State.copyRefuse (s : State) (c : Nat) (r : Command) (cause : Nat) (value : Word) : State :=
  (s.onCore c fun k => { k with copyRun := none, recv := k.recv + 1 }).engineFault c r.who cause value r.upc

/-- Rows of a command: source and destination distances (R262 op 5). -/
def rowDeltas (rows : Nat) (ss ds : Int) : List (Int × Int) := (List.range rows).map fun (i : Nat) => ((i : Int) * ss, (i : Int) * ds)

/-- An address in each page of a list of ranges, with whether it is written. -/
def pageStarts (l : List (Nat × Nat × Bool)) : List (Nat × Bool) :=
  l.flatMap fun r =>
    if r.2.1 = 0 then []
    else (List.range ((r.1 + r.2.1 - 1) / 2 ^ 16 - r.1 / 2 ^ 16 + 1)).map fun i => (if i = 0 then r.1 else (r.1 / 2 ^ 16 + i) * 2 ^ 16, r.2.2)
/-- The translations an engine has found, with those the TLBs hold now: it keeps each until it has found all (R260). -/
def State.gathered (s : State) (cl vf : Nat) (maps : List TlbEntry) (pages : List (Nat × Bool)) : List TlbEntry :=
  pages.foldl (fun m q =>
    if (mapFind m vf q.1).isSome then m
    else match (s.tlbFind cl vf q.1).orElse fun _ => s.dieFind cl vf q.1 with
      | some t => m ++ [t]
      | none => m) maps
/-- The first page still without a translation. -/
def missing (maps : List TlbEntry) (vf : Nat) (pages : List (Nat × Bool)) : Option (Nat × Bool) :=
  pages.find? fun q => (mapFind maps vf q.1).isNone
/-- The pages with their translations. -/
def State.pagesOf (s : State) (vf : Nat) (maps : List TlbEntry) (pages : List (Nat × Bool)) : List (Nat × Bool × Phys) :=
  pages.filterMap fun q => (s.spot maps vf true q.1).map fun p => (q.1, q.2, p)

/-- The page whose use R358 forbids: one of a slot the team may not use, or sealed data that flows elsewhere than into a team
scratchpad by ops 1, 4 and 5 or a gather (`inward`), or into pages of its own slot. -/
def State.sealBroken (s : State) (n : Nat) (inward window : Bool) (l : List (Nat × Bool × Phys)) : Option Nat :=
  let t := s.teamOf n
  match l.find? fun p => p.2.2.slot != 0 && !s.sealedOk t p.2.2.slot p.1 with
  | some p => some p.1
  | none =>
    match l.find? fun p => !p.2.1 && p.2.2.slot != 0 with
    | none => none
    | some p =>
      if window then (if inward then none else some p.1)
      else if (l.all fun q => if q.2.1 then q.2.2.slot == p.2.2.slot else q.2.2.slot == p.2.2.slot || q.2.2.slot == 0) &&
          l.any (fun q => q.2.1) then none
      else some p.1

/-- Another engine's waiting command, or a family that waits for Grout, with an older number wants one of these units (R70). -/
def State.olderWaits (s : State) (id : Nat) (units : List Nat) : Bool :=
  let older := fun r : Command => !r.begun && decide (r.id < id) && r.units.any units.contains
  s.cores.any (fun c => c.2.copyRun.any older) ||
    s.clusters.any fun c => (c.2.iceRun.any fun r => decide (r.id < id) && r.units.any units.contains) ||
      c.2.groutq.any fun e => decide (e.id < id) && e.units.any units.contains
/-- Units that a command numbered `id` may take now: none is owned, and no older command waits for one (R70). -/
def State.mayOwn (s : State) (id : Nat) (units : List Nat) : Bool :=
  !(units.any fun u => s.owned.any fun o => o.key == u) && !s.olderWaits id units
/-- An engine takes units, in one step (R70). -/
def State.own (s : State) (eng : Nat) (units : List Nat) : State :=
  { s with owned := s.owned ++ units.map fun u => ({ key := u, eng := eng } : Owned) }

/-- The stream a multicast may join (R268): the leader's core, its command and the first line it has not read. -/
def State.joinable (s : State) (c : Nat) (r : Command) : Option (Nat × Nat × Nat) :=
  (List.range 16).findSome? fun i =>
    let n := c / 16 * 16 + i
    match (s.core n).copyRun with
    | some q =>
      if n ≠ c ∧ q.begun ∧ q.op = 4 ∧ q.join.isNone ∧ q.w 1 = r.w 1 ∧ cLen (q.w 0) = cLen (r.w 0) ∧
          bitsOf (q.w 2) 47 16 = bitsOf (r.w 2) 47 16 ∧ (s.teamOf n).vf = (s.teamOf c).vf then
        ((List.range (cLen (r.w 0) / 128)).find? fun j =>
          q.grans.all fun g => g.got.isNone || decide (g.va < (r.w 1).toNat + 128 * j)).map fun j => (n, q.id, j)
      else none
    | none => none

/-- The scratchpad bytes of an endpoint's rows lie in banks of different formats (R63, R260). -/
def State.mixedBanks (s : State) (e : Endp) (rows : List (Nat × Nat)) : Bool :=
  if e.glob ∨ e.hi - e.lo ≠ 2 ^ 18 then false
  else
    let k := s.core (winCore e.pos)
    let fs := rows.flatMap fun r => if r.2 = 0 then [] else (List.range ((r.1 % 2 ^ 18 + r.2 - 1) / 2 ^ 15 - r.1 % 2 ^ 18 / 2 ^ 15 + 1)).map fun i =>
      k.bankFmt ((r.1 % 2 ^ 18 / 2 ^ 15 + i) * 2 ^ 15)
    fs.any fun f => f != fs.headD 0

/-- Pieces of a checked command: fill bytes have no source. -/
def State.commandPieces (s : State) (vf : Nat) (r : Command) (p : Plan) (rows : List (Int × Int)) : List Piece :=
  let len := cLen (r.w 0)
  if r.op = 4 then
    p.targets.flatMap fun t => s.piecesOf r.maps vf false [(0, (r.w 1).toNat)] (winKey t 0 (bitsOf (r.w 2) 47 16)) len 1 1 0
  else match p.dst with
    | none => []
    | some b => (rows.zipIdx).flatMap fun q =>
      s.piecesOf r.maps vf b.glob (match p.src with | some a => [(q.2, atDelta a.pos q.1.1)] | none => []) (atDelta b.pos q.1.2)
        (len / p.es) p.es p.ed (q.2 * (len / p.es))

/-- A stochastic command whose last write has gone out writes its counter back, by the same path (R77, R107, R264). -/
def State.countUp (s : State) (c : Nat) (r : Command) : State :=
  if cSr (r.w 0) && r.phase == 0 && r.pieces.all (·.done) then
    let key := winKey c 0 (0x3C000 + 64 * cSlot (r.w 0) + 8)
    let p : Piece := { srcs := [], dst := key, k := 4, idx := 0, key := key, home := .core c, slot := 0, stream := false, done := true }
    (s.engineWrite c (2 * c) (r.w 0) p (leBytes 4 (r.counter + 1)) false).onCore c fun k => { k with copyRun := some { r with phase := 1 } }
  else s
/-- The pieces of core c's command that have their sources are written (R84). -/
def State.emit (s : State) (c : Nat) : State :=
  match (s.core c).copyRun with
  | none => s
  | some r =>
    let es := if r.srcFmt = 0 ∨ r.dstFmt = 0 then 1 else elemBytes r.srcFmt
    let go := fun p : Piece => !p.done && p.srcs.all fun a => granReady r.grans a.1 a.2 (p.k * es)
    let now := r.pieces.filter go
    let s := now.foldl (fun s p => s.sendPiece c (2 * c) r (r.op == 2) (cSr (r.w 0)) p) s
    let r := { r with pieces := r.pieces.map fun p => if go p then { p with done := true } else p }
    (s.onCore c fun k => { k with copyRun := some r }).countUp c r

/-- A command begins: it owns its destination, and its reads and writes are laid out; a fill writes at once. -/
def State.copyStart (s : State) (c vf : Nat) (r : Command) (p : Plan) (rows : List (Int × Int)) (pieces : List Piece) : State :=
  let len := cLen (r.w 0)
  let grans := match p.src with
    | some a => (rows.zipIdx).flatMap fun q => s.gransOf r.maps vf a.glob (atDelta a.pos q.1.1) len q.2
    | none => []
  let join := if r.op = 4 then s.joinable c r else none
  let fill := r.op == 3
  let sent := pieces.map fun q : Piece => { q with done := fill }
  let r := { r with begun := true, units := [], srcFmt := p.sf, dstFmt := p.df, grans := grans, join := join, pieces := sent }
  let s := s.own (2 * c) (pieces.map (·.key / 128)).dedup
  let s := s.onCore c fun k => { k with copyRun := some r }
  if fill then
    pieces.foldl (fun s q =>
      s.engineWrite c (2 * c) (r.w 0) q ((leBytes 8 (r.w 1).toNat).take q.k) false) s
  else s.countUp c r

/-- Stores of the poster to the parameter block that its own port has still to perform (R264). -/
def State.blockWaits (s : State) (c : Nat) (r : Command) : Bool :=
  s.reqs.any fun q => q.uid == r.uid && q.cls == 0 && decide (q.id < r.id) && q.writes &&
    (s.spots q).any (meet 8 (winKey c 0 (0x3C000 + 64 * cSlot (r.w 0)), 64))

/-- The command at the head of the engine tries to begin: checks, parameter block, translation, ownership. -/
def State.copyBegin (s : State) (c : Nat) (r : Command) : State :=
  let w0 := r.w 0
  let blk := fun i => s.blockWord c (cSlot w0) i
  let needs := readsBlock w0
  if needs && s.blockWaits c r then s
  else match s.copyPlan c r.words with
    | none => s.copyRefuse c r 0x0C w0
    | some p =>
      let rows := if r.op = 5 then rowDeltas (bitsOf (blk 2) 31 0) (blk 3).toInt (blk 4).toInt else [((0 : Int), (0 : Int))]
      if needs && s.poisonedAny (winKey c 0 (0x3C000 + 64 * cSlot w0)) 64 then
        s.copyRefuse c r 0x0F (BitVec.ofNat 64 (winKey c 0 (0x3C000 + 64 * cSlot w0)))
      else
        let n := cLen w0 / p.es * p.ed
        let at_ := fun (e : Option Endp) (d : Int) => match e with | some e => atDelta e.pos d | none => 0
        let bad := needs && (bitsOf (blk 1) 63 32 != 0 || bitsOf (blk 2) 63 32 != 0 || bitsOf (blk 5) 63 16 != 0 || blk 6 != 0 || blk 7 != 0 ||
          (r.op == 5 && (rows.isEmpty || (blk 3).toInt % p.es != 0 || (blk 4).toInt % p.ed != 0)))
        let off := rows.any fun q => p.src.any (fun e => !e.fits q.1 (cLen w0)) || p.dst.any (fun e => !e.fits q.2 n)
        let mixed := (p.src.any fun e => s.mixedBanks e (rows.map fun q => (at_ p.src q.1, cLen w0))) ||
          (p.dst.any fun e => s.mixedBanks e (rows.map fun q => (at_ p.dst q.2, n)))
        if bad || off || mixed then s.copyRefuse c r 0x0C w0
        else
          let vf := (s.teamOf c).vf
          let ranges := (if p.src.any (·.glob) then rows.map fun q => (at_ p.src q.1, cLen w0, false) else []) ++
            (if p.dst.any (·.glob) then rows.map fun q => (at_ p.dst q.2, n, true) else [])
          let starts := pageStarts ranges
          let r := { r with maps := s.gathered (c / 16) vf r.maps starts }
          match missing r.maps vf starts with
          | some (a, w) =>
            (s.onCore c fun k => { k with copyRun := some { r with parked := true } }).startWalk (c / 16) vf a w (.copy c)
          | none =>
            let pages := s.pagesOf vf r.maps starts
            if pages.any fun q => q.2.1 && !q.2.2.write then s.copyRefuse c r 0x0C w0
            else match s.sealBroken c (r.op == 1 || r.op == 4 || r.op == 5) (r.op == 4 || p.dst.any fun e => !e.glob && e.lo / 2 ^ 27 % 8 == 0) pages with
              | some a => s.copyRefuse c r 0x13 (BitVec.ofNat 64 a)
              | none =>
                let pieces := s.commandPieces vf r p rows
                let units := (pieces.map (·.key / 128)).dedup
                if !s.mayOwn r.id units then s.onCore c fun k => { k with copyRun := some { r with units := units } }
                else
                  let r := if needs then { r with seed := blk 0, counter := bitsOf (blk 1) 31 0, pkg := bitsOf (blk 5) 15 0 } else r
                  (pages.foldl (fun s q => s.hold c q.2.2.slot) s).copyStart c vf r p rows pieces

/-- Reads done, writes performed, remote report in: the command can complete (R89). -/
def State.copyOver (s : State) (c : Nat) (r : Command) : Bool :=
  r.begun && r.pieces.all (·.done) && (!cSr (r.w 0) || r.phase == 1) && r.grans.all (·.got.isSome) && !s.engineBusy (2 * c) && (r.op != 6 && r.op != 7 || r.status.isSome)

/-- The command leaves its engine complete. -/
def State.copyDone (s : State) (c : Nat) : State :=
  s.onCore c fun k => { k with copyRun := none, copyDone := (k.copyDone + 1) % 2 ^ 32, recv := k.recv + 1 }

/-- A command leaves the queue of a faulted team's engine before it begins (R319); it counts as received (R52). -/
def Core.copyDrop (k : Core) : Core := { k with copyq := k.copyq.tail, recv := k.recv + 1 }

/-- An operation of the engine of core c: the oldest released command of this op begins, or one without a completion form ends. -/
def State.copyOp (s : State) (c op : Nat) : State :=
  match (s.core c).copyRun with
  | some r =>
    if r.op ≠ op ∨ r.parked then s
    else if !r.begun then s.copyBegin c r
    else if s.copyOver c r && cMode (r.w 0) == 0 then s.copyDone c
    else s
  | none =>
    match (s.core c).copyq with
    | [] => s
    | r :: t =>
      if r.op ≠ op then s
      else if (s.teamOf c).ending then s.onCore c Core.copyDrop
      else if !s.released r then s
      else (s.onCore c fun k => { k with copyq := t, copyRun := some r }).copyBegin c r

def execCopy (c : Nat) (s : State) : Out := .next (s.copyOp c 1)
def execCopyAccumulate (c : Nat) (s : State) : Out := .next (s.copyOp c 2)
def execFill (c : Nat) (s : State) : Out := .next (s.copyOp c 3)
def execMulticastRead (c : Nat) (s : State) : Out := .next (s.copyOp c 4)
def execStridedCopy (c : Nat) (s : State) : Out := .next (s.copyOp c 5)

/-! ## Reading and writing (R84) -/

/-- What one granule's read finds, with the marks it leaves at a slice (R71); a reply whose packet has failed too often is poisoned (R365). -/
def State.readGran (s : State) (prio hint : Nat) (g : Gran) : State × Gran :=
  let s' := match g.home with
    | .slice p i => s.touch p i (g.key / 128) g.slot (g.va / 128) prio (if g.stream then 1 else hint)
    | _ => s
  (s', { g with got := some (s'.homeBytes g.home g.key g.slot g.va 8, s'.poisoned g.key || decide (8 < g.tries)) })

/-- A granule read for core c's command, and for the commands that have joined its stream from that line on (R268). -/
def State.copyRead (s : State) (c : Nat) (r : Command) (g : Gran) : State :=
  if g.slot ≠ 0 ∧ !s.sealedOk (s.teamOf c) g.slot g.va then
    let s := s.copyRefuse c r 0x13 (BitVec.ofNat 64 g.va)
    s.releaseUnits (2 * c) fun k => s.unitBusy (2 * c) k
  else
    let (s, h) := s.readGran (bitsOf (r.w 0) 19 18) (bitsOf (r.w 0) 17 16) g
    let take := fun q : Command => { q with grans := q.grans.map fun x => if x = g then h else x }
    let s := s.onCore c fun k => { k with copyRun := k.copyRun.map take }
    let joiners := (List.range 16).filter fun i => match (s.core (c / 16 * 16 + i)).copyRun with
      | some q => (match q.join with
        | some (lc, lid, j) => lc == c && lid == r.id && decide ((r.w 1).toNat + 128 * j ≤ g.va)
        | none => false)
      | none => false
    let s := joiners.foldl (fun s i => (s.onCore (c / 16 * 16 + i) fun k => { k with copyRun := k.copyRun.map take }).emit (c / 16 * 16 + i)) s
    s.emit c

/-- What a stream reads next: the granules of its first line that are still to be read, in any order (R82, R268). -/
def nextLine (grans : List Gran) : List Gran :=
  let l := grans.filter (·.got.isNone)
  match l with
  | [] => []
  | g :: _ => l.filter fun h => h.va / 128 == g.va / 128

/-- MULTICAST_CATCH_UP (R268): the joiner's own engine reads the lines it missed, in order, once the stream has ended. -/
def execMulticastCatchUp (c : Nat) (s : State) : Out :=
  match (s.core c).copyRun with
  | none => .next s
  | some r =>
    match r.join with
    | none => .next s
    | some (lc, lid, _) =>
      let ended := match (s.core lc).copyRun with
        | some q => q.id != lid || q.grans.all (·.got.isSome)
        | none => true
      match nextLine r.grans with
      | [] => .next s
      | l => match l[s.anyOf l.length]? with
        | some g => if ended then .next (State.copyRead { s with fresh := s.fresh + 1 } c r g) else .next s
        | none => .next s

/-! ## Packages (R264, R369) -/

/-- Entry n of PKGT as its four dwords; a package whose entry is not valid, or with which HELLO has found no common version yet, refuses
(R368). -/
def State.pkgEntry (s : State) (n : Nat) : List Word := tabGet [0, 0, 0, 0] s.pkgt n
def State.pkgRefuses (s : State) (n : Nat) : Bool := !Config.pkgValid (s.pkgEntry n) || tabGet 0 s.pkgVer n != 1

/-- The remote report of a put arrives once its sources have been read and sent (R369): refused where the tables refuse it,
else as the remote package answers, which this package cannot know (log 1). The units of a get that is refused are released (R89). -/
def State.remoteReport (s : State) (c : Nat) (r : Command) (bytes : Bool) : State :=
  let bad := s.pkgRefuses r.pkg || (Config.freeWord s.fresh).getLsbD 0
  let s := { s with fresh := s.fresh + 1 }
  let s := s.onCore c fun k => { k with copyRun := some { r with status := some (if bad then 1 else 0), pieces := r.pieces.map fun p => { p with done := true } } }
  if bytes && !bad then
    r.pieces.foldl (fun s p =>
      s.engineWrite c (2 * c) (r.w 0) p ((List.range p.k).map fun i => Config.remoteByte s.fresh ((r.w 1).toNat + p.idx + i)) false) s
  else s.releaseUnits (2 * c) (s.unitBusy (2 * c))

/-- An op with a remote end: begins as the others do, takes its report, or ends. -/
def State.remoteOp (s : State) (c op : Nat) : State :=
  match (s.core c).copyRun with
  | some r =>
    if r.op = op ∧ r.begun ∧ r.status.isNone ∧ r.grans.all (·.got.isSome) then s.remoteReport c r (op == 7) else s.copyOp c op
  | none => s.copyOp c op

def execPackagePut (c : Nat) (s : State) : Out := .next (s.remoteOp c 6)
def execPackageGet (c : Nat) (s : State) : Out := .next (s.remoteOp c 7)

/-! ## Completion (R89, R263) -/

/-- The completion word. -/
def Command.word (r : Command) : Word := BitVec.ofNat 64 (cLen (r.w 0) * 2 ^ 32 + r.status.getD 0)

/-- A completion on the ordered lane of the engine's core; one to another core is a message (R52). -/
def State.completeTo (s : State) (c tgt key : Nat) (op : ReqOp) : State :=
  let r : Req := { id := s.nextReq, uid := 0, cls := 1, scope := 0, counted := false, born := s.cycle, core := c, ctx := 0, home := .core tgt,
                   addr := key, va := 0, upc := 0, fam := none, slot := 0, stream := false, st := 0, came := 0, arr := 0, acq := 0,
                   noFill := false, begun := false,
                   team := (s.core c).team, tries := 0, bad := false, rtries := 0, rbad := false, op := op }
  let s := { s with reqs := s.reqs ++ [r], nextReq := s.nextReq + 1 }
  if tgt = c then s else s.onCore c fun k => { k with sent := k.sent + 1 }

/-- The command of core c that ends with a completion of a mode, if it can; a faulted team gets none (R319). -/
def State.completing (s : State) (c mode : Nat) (k : Command → State → Option State) : Out :=
  match (s.core c).copyRun with
  | none => .next s
  | some r =>
    if !s.copyOver c r || cMode (r.w 0) != mode then .next s
    else if (s.teamOf c).ending then .next (s.copyDone c)
    else match k r (s.copyDone c) with
      | some t => .next t
      | none => .next s

/-- Window target of a completion: its core and key. -/
def State.targetKey (c : Nat) (w3 : Word) : Nat × Nat :=
  match classify c w3 with
  | .window n r off => (n, winKey n r off)
  | _ => (c, 0)

def execCompletionFeFill (c : Nat) (s : State) : Out :=
  s.completing c 1 fun r s => some (s.completeTo c (State.targetKey c (r.w 3)).1 (State.targetKey c (r.w 3)).2 (.complete r.word))
def execCompletionMailbox (c : Nat) (s : State) : Out :=
  s.completing c 2 fun r s => some (s.completeTo c (bitsOf (r.w 3) 16 4) (winKey (bitsOf (r.w 3) 16 4) 4 0) (.mail r.word))
/-- Mode 3: held while four triggers pend (R50); discarded when the posting thread stands there no more. -/
def execCompletionHandlerTrigger (c : Nat) (s : State) : Out :=
  s.completing c 3 fun r s =>
    let k := s.ctxAt c r.ctx
    if k.uid = r.uid ∨ k.frames.any (·.uid == r.uid) then
      if k.roomTrig then some (s.onCtx c r.ctx fun k => { k with trig := k.trig ++ [(1, BitVec.ofNat 64 (bitsOf (r.w 3) 15 0), k.uid)] }) else none
    else some s
/-- Mode 4: a fill of the thread that stood in the context as the command was posted (R263; log 55). -/
def execCompletionRegisterFill (c : Nat) (s : State) : Out :=
  s.completing c 4 fun r s => some (s.completeTo c (State.targetKey c (r.w 3)).1 (State.targetKey c (r.w 3)).2 (.fill r.bound r.word))

/-! ## The ICE (R265, R266) -/

/-- Elements of chunk c of a command. -/
def chunkLen (w0 : Word) (c : Nat) : Nat := Nat.min 64 (iCount w0 - 64 * c)

/-- A command at chunk c: its index granules are to be read; past the last chunk nothing is. -/
def State.chunkAt (s : State) (r : Command) (c : Nat) : Command :=
  let isz := if (r.w 0).getLsbD 8 then 8 else 4
  let list := match classify r.core (r.w 1) with | .window n g off => winKey n g off | _ => 0
  { r with begun := true, parked := false, chunk := c, phase := 0, xs := [], pieces := [], units := [], maps := [],
           grans := s.gransOf [] 0 false (list + 64 * c * isz) (chunkLen (r.w 0) c * isz) 0 }
/-- The chunk after c, whose reads may come before c's writes (R266 item 3), if there is one. -/
def State.chunkAfter (s : State) (r : Command) (c : Nat) : Option Command :=
  if 64 * (c + 1) < iCount (r.w 0) then some (s.chunkAt r (c + 1)) else none
/-- The command starts its first chunk. -/
def State.iceStart (s : State) (cl : Nat) (r : Command) : State :=
  s.onCluster cl fun k => { k with iceRun := some (s.chunkAt r 0), iceAhead := s.chunkAfter r 0 }
/-- It goes on to the chunk after the one whose writes have gone out, with what it has read of it. -/
def State.chunkNext (s : State) (cl : Nat) (r : Command) : State :=
  s.onCluster cl fun k => { k with iceRun := some ((k.iceAhead.map (·.setParked false)).getD (s.chunkAt r (r.chunk + 1))),
                                   iceAhead := s.chunkAfter r (r.chunk + 1) }

/-- A failure ends the command: chunks below stand, this one writes nothing (R266 item 5). -/
def State.iceFail (s : State) (cl : Nat) (r : Command) (cause : Nat) (value : Word) : State :=
  ((s.onCluster cl fun k => { k with iceRun := none, iceAhead := none }).onCore r.core fun k => { k with recv := k.recv + 1 }).engineFault r.core
    r.who cause value r.upc

/-- The global row of an index (R265). -/
def globalRow (r : Command) (x : Int) : Int := ((r.w 2).toNat : Int) + x * iRowb (r.w 0)

/-- What the rows of a chunk come to once its indices are known: a failure, pages to walk for, or the chunk as it reads them. -/
inductive RowsOut where
  | fail (cause : Nat) (v : Word)
  | walk (r : Command) (va : Nat) (write : Bool)
  | go (r : Command) (slots : List Nat)
deriving DecidableEq, Repr

/-- The indices of a chunk are known: its rows are checked, translated and to be read. -/
def State.chunkRows (s : State) (cl : Nat) (r : Command) : RowsOut :=
  let w0 := r.w 0
  let isz := if w0.getLsbD 8 then 8 else 4
  let list := match classify r.core (r.w 1) with | .window n g off => winKey n g off | _ => 0
  let xs := (List.range (chunkLen w0 r.chunk)).map fun e =>
    sInt (isz * 8) (leNat (granBytes r.grans 0 (list + (64 * r.chunk + e) * isz) isz).1)
  let rows := xs.map (globalRow r)
  let vf := (s.teamOf r.core).vf
  if rows.any fun a => decide (a < 0) || decide (2 ^ 49 < a + iRowb w0) then .fail 0x0C w0
  else match s.icePlan r.core r.words with
    | none => .fail 0x0C w0
    | some p =>
      let starts := pageStarts (rows.map fun a => (a.toNat, iRowb w0, r.op != 1))
      let r : Command := { r with maps := s.gathered cl vf r.maps starts }
      match missing r.maps vf starts with
      | some (a, w) => .walk { r with parked := true } a w
      | none =>
        let pages := s.pagesOf vf r.maps starts
        if pages.any fun q => q.2.1 && !q.2.2.write then .fail 0x0C w0
        else match s.sealBroken r.core (r.op == 1) (r.op == 1) pages with
          | some a => .fail 0x13 (BitVec.ofNat 64 a)
          | none =>
            let grans := if r.op = 1 then (rows.zipIdx).flatMap fun a => s.gransOf r.maps vf true a.1.toNat (iRowb w0) a.2
              else (List.range xs.length).flatMap fun e => s.gransOf [] vf false (p.loc.pos + (64 * r.chunk + e) * p.lrb) p.lrb e
            .go { r with phase := 1, xs := xs, grans := grans, srcFmt := if r.op = 1 then p.gf else p.lf,
                         dstFmt := if r.op = 1 then p.lf else p.gf } (pages.map (·.2.2.slot))

/-- A chunk's indices are read and its rows are not yet asked for. -/
def Command.indexed (r : Command) : Bool := !r.parked && r.phase == 0 && decide (64 * r.chunk < iCount (r.w 0)) && r.grans.all (·.got.isSome)
/-- The current chunk goes on to its rows; a failure ends the command (R266 item 5). -/
def State.rowsNow (s : State) (cl : Nat) (r : Command) : State :=
  match s.chunkRows cl r with
  | .fail c v => s.iceFail cl r c v
  | .walk q a w => (s.onCluster cl fun k => { k with iceRun := some q }).startWalk cl (s.teamOf r.core).vf a w (.ice cl)
  | .go q l => (l.foldl (fun s x => s.hold r.core x) s).onCluster cl fun k => { k with iceRun := some q }
/-- The next chunk goes on to its rows; what fails there is met again when its turn comes. -/
def State.rowsAhead (s : State) (cl : Nat) (r : Command) : State :=
  match s.chunkRows cl r with
  | .fail _ _ => s.onCluster cl fun k => { k with iceAhead := some (r.setParked true) }
  | .walk q a w => (s.onCluster cl fun k => { k with iceAhead := some q }).startWalk cl (s.teamOf r.core).vf a w (.ahead cl)
  | .go q l => (l.foldl (fun s x => s.hold r.core x) s).onCluster cl fun k => { k with iceAhead := some q }

/-- An ICE operation: the oldest released command starts, or a chunk whose indices are read goes on to its rows. -/
def State.iceOp (s : State) (cl op : Nat) : State :=
  match (s.cluster cl).iceRun with
  | some r =>
    if r.op ≠ op then s
    else if r.indexed then s.rowsNow cl r
    else match (s.cluster cl).iceAhead.filter (·.indexed) with
      | some q => s.rowsAhead cl q
      | none => s
  | none =>
    match (s.cluster cl).iceq with
    | [] => s
    | r :: t =>
      let gone := s.onCluster cl fun k => { k with iceq := t }
      if r.op ≠ op then s
      else if (s.teamOf r.core).ending then gone.onCore r.core fun k => { k with recv := k.recv + 1 }
      else if !s.released r then s
      else gone.iceStart cl r

def execGather (cl : Nat) (s : State) : Out := .next (s.iceOp cl 1)
def execScatter (cl : Nat) (s : State) : Out := .next (s.iceOp cl 2)
def execScatterAdd (cl : Nat) (s : State) : Out := .next (s.iceOp cl 3)

/-- The pieces of a chunk: elements that name one global row are one row of several sources, in ascending order. -/
def State.chunkPieces (s : State) (r : Command) (p : IcePlan) : List Piece :=
  let vf := (s.teamOf r.core).vf
  let n := iRowb (r.w 0) / p.gs
  let loc := fun e => p.loc.pos + (64 * r.chunk + e) * p.lrb
  let es := List.range r.xs.length
  if r.op = 1 then
    es.flatMap fun e => s.piecesOf [] vf false [(e, (globalRow r (r.xs.getD e 0)).toNat)] (loc e) n p.gs p.ls 0
  else r.xs.dedup.flatMap fun x =>
    s.piecesOf r.maps vf true ((es.filter fun e => r.xs.getD e 0 == x).map fun e => (e, loc e)) (globalRow r x).toNat n p.ls p.gs 0

/-- The pages of a chunk's global rows. -/
def Command.rowPages (r : Command) : List (Nat × Bool) :=
  pageStarts (r.xs.map fun x => ((globalRow r x).toNat, iRowb (r.w 0), r.op != 1))

/-- ICE_CHUNK_BEGIN (R266): the chunk's reads are done and the last chunk's writes performed; the local format is sampled again,
the destination owned, the rows written. A changed format, or a page invalidated meanwhile, makes the chunk read its rows again. -/
def execIceChunkBegin (cl : Nat) (s : State) : Out :=
  match (s.cluster cl).iceRun with
  | none => .next s
  | some r =>
    if r.phase ≠ 1 ∨ r.parked ∨ r.grans.any (·.got.isNone) ∨ s.engineBusy (2 * cl + 1) then .next s
    else match s.icePlan r.core r.words with
      | none => .next (s.iceFail cl r 0x0C (r.w 0))
      | some p =>
        if s.mixedBanks p.loc [(p.loc.pos, iCount (r.w 0) * p.lrb)] then .next (s.iceFail cl r 0x0C (r.w 0))
        else if (if r.op = 1 then r.dstFmt else r.srcFmt) ≠ p.lf ∨ (missing r.maps (s.teamOf r.core).vf (r.rowPages)).isSome then
          .next (s.onCluster cl fun k => { k with iceRun := some (s.chunkAt r r.chunk) })
        else
          let pieces := s.chunkPieces r p
          let units := (pieces.map (·.key / 128)).dedup
          if !s.mayOwn r.id units then
            .next (s.onCluster cl fun k => { k with iceRun := some { r with units := units } })
          else
            let s := s.own (2 * cl + 1) units
            let s := pieces.foldl (fun s q => s.sendPiece r.core (2 * cl + 1) r (r.op == 3) false q) s
            .next (s.chunkNext cl r)

/-- A granule that the ICE of a cluster may read now, with whether it is one of the next chunk: those come while no write of the chunk
before the current one is under way (R266 item 3). -/
def State.iceReads (s : State) (cl : Nat) : List (Bool × Gran) :=
  let of := fun (c : Option Command) => (c.map fun r => r.grans.filter (·.got.isNone)).getD []
  (of (s.cluster cl).iceRun).map (false, ·) ++ (if s.engineBusy (2 * cl + 1) then [] else (of (s.cluster cl).iceAhead).map (true, ·))
/-- The ICE reads a granule. A sealed page its team may not use any more ends the command, if it is the current chunk's (R266). -/
def State.iceRead (s : State) (cl : Nat) (ahead : Bool) (g : Gran) : State :=
  let k := s.cluster cl
  match if ahead then k.iceAhead else k.iceRun with
  | none => s
  | some r =>
    if g.slot ≠ 0 ∧ !s.sealedOk (s.teamOf r.core) g.slot g.va then
      if ahead then s.onCluster cl fun k => { k with iceAhead := some ((s.chunkAt r r.chunk).setParked true) }
      else s.iceFail cl r 0x13 (BitVec.ofNat 64 g.va)
    else
      let q := s.readGran (bitsOf (r.w 0) 19 18) (bitsOf (r.w 0) 17 16) g
      let r := { r with grans := r.grans.map fun x => if x = g then q.2 else x }
      q.1.onCluster cl fun k => if ahead then { k with iceAhead := some r } else { k with iceRun := some r }

/-- ICE_EVENT_SIGNAL (R266, R265): every chunk is written; the poster's line is signalled, and after that done rises to the ticket. -/
def execIceEventSignal (cl : Nat) (s : State) : Out :=
  match (s.cluster cl).iceRun with
  | none => .next s
  | some r =>
    if 64 * r.chunk < iCount (r.w 0) ∨ s.engineBusy (2 * cl + 1) then .next s
    else if r.phase = 0 ∧ !(s.teamOf r.core).ending then
      .next ((s.onCore r.core (·.signal (bitsOf (r.w 0) 23 20))).onCluster cl fun k => { k with iceRun := some { r with phase := 2 } })
    else .next (((s.onCluster cl fun k => { k with iceRun := none, iceAhead := none }).onTeamOf r.core fun m =>
      { m with iceDone := tabSet m.iceDone cl r.ticket }).onCore r.core fun k => { k with recv := k.recv + 1 })

end Sys2Proof.Machine
end

