-- ==== Sys2Proof/Machine/Fep.lean ====
section
/-! DEFINITION. The front-end processors (R305, R306): their modes, their PMP entries as the RISC-V privileged specification defines them,
their traps, and the grant of a plug-in (R307). -/

namespace Sys2Proof.Machine

open Sys2Proof

def State.onPlug (s : State) (v : Nat) (f : Plugin → Plugin) : State := s.onVf v fun g => { g with plug := f g.plug }

/-! ## PMP -/

/-- The kinds of access, by the permission bit of an entry. -/
inductive FepUse where
  | read
  | write
  | exec
deriving DecidableEq, Repr
def FepUse.bit : FepUse → Nat
  | .read => 0
  | .write => 1
  | .exec => 2
/-- How many low bits of a number are ones, at most k. -/
def lowOnes : Nat → Nat → Nat
  | 0, _ => 0
  | k + 1, n => if n % 2 = 1 then 1 + lowOnes k (n / 2) else 0
/-- The bytes entry i covers, from the first to one past the last: off, top of range, four bytes, a naturally aligned power of two. -/
def Fep.range (q : Fep) (i : Nat) : Nat × Nat :=
  let a := (q.addr.getD i 0).toNat % 2 ^ 54
  let m := (q.cfg.getD i 0).toNat / 8 % 4
  if m = 0 then (0, 0)
  else if m = 1 then (if i = 0 then 0 else (q.addr.getD (i - 1) 0).toNat % 2 ^ 54 * 4, a * 4)
  else if m = 2 then (a * 4, a * 4 + 4)
  else
    let t := lowOnes 54 a
    ((a + 1 - 2 ^ t) * 4, (a + 1 - 2 ^ t) * 4 + 2 ^ (t + 3))
/-- The entry that decides an access to n bytes: the lowest that covers one of them. -/
def Fep.entry (q : Fep) (a n : Nat) : Option Nat := (List.range 16).find? fun i => decide ((q.range i).1 < a + n) && decide (a < (q.range i).2)
/-- PMP lets an access through: the entry covers all of it and permits it, or does not bind machine mode; without an entry, in machine
mode only. -/
def Fep.allows (q : Fep) (a n : Nat) (u : FepUse) : Bool :=
  match q.entry a n with
  | none => q.mode == .machine
  | some i =>
    let c := q.cfg.getD i 0
    decide ((q.range i).1 ≤ a) && decide (a + n ≤ (q.range i).2) && (c.getLsbD u.bit || (q.mode == .machine && !c.getLsbD 7))

/-! ## The address map (R306) -/

/-- What stands at an FEP's physical address. -/
inductive FepPlace where
  | sram (off : Nat)
  | register (a : Nat)
  | window (a : Nat)
  | memory (pa : Nat)
deriving DecidableEq, Repr
def fepPlace (a : Nat) : Option FepPlace :=
  if a < 0x1000000 then some (.sram a)
  else if a < 0x2000000 then some (.register a)
  else if 0x100000000000 ≤ a ∧ a < 0x200000000000 then some (.window (a - 0x100000000000))
  else if 0x200000000000 ≤ a ∧ a < 0x208000000000 then some (.memory (a - 0x200000000000))
  else none
/-- User mode reaches the SRAM only. -/
def FepPlace.open (p : FepPlace) (m : FepMode) : Bool :=
  m != .user || match p with
    | .sram _ => true
    | _ => false
/-- A place takes an access of n bytes: a register, and the regions 2 to 5 of the window, in whole dwords (log 43). -/
def FepPlace.takes (p : FepPlace) (n : Nat) : Bool :=
  n == 8 || match p with
    | .register _ => false
    | .window w => decide (w / 2 ^ 27 % 8 < 2)
    | _ => true
/-- The trap that an access to n bytes raises in the FEP's own scheme, if it does: misaligned (4, 6), access fault (1, 5, 7). -/
def Fep.fault (q : Fep) (a n : Nat) (u : FepUse) : Option Nat :=
  let k := match u with
    | .read => 5
    | .write => 7
    | .exec => 1
  if a % n ≠ 0 then some (k - 1)
  else match fepPlace a with
    | none => some k
    | some p => if p.open q.mode && p.takes n && q.allows a n u then none else some k

/-! ## Control and status registers, traps and returns, as the RISC-V privileged specification defines them (R305; log 43) -/

/-- A mode's number, and back. -/
def FepMode.code : FepMode → Nat
  | .user => 0
  | .supervisor => 1
  | .machine => 3
def FepMode.of (n : Nat) : FepMode := if n = 0 then .user else if n = 1 then .supervisor else .machine
/-- A bit of a word set or cleared. -/
def bitTo (w : Word) (i : Nat) (b : Bool) : Word := if b then w ||| (1#64 <<< i) else w &&& ~~~ (1#64 <<< i)
/-- The fields of mstatus that sstatus shows. -/
def sstatusMask : Word := 0x80000003000DE762#64
/-- mstatus, with MPP as the mode its latest machine trap came from. -/
def Fep.status (q : Fep) : Word := (tabGet 0 q.csr 0x300 &&& ~~~ 0x1800#64) ||| BitVec.ofNat 64 (q.prior.code * 2 ^ 11)
/-- A CSR as it reads. -/
def Fep.get (q : Fep) (no : Nat) : Word :=
  if no = 0x300 then q.status
  else if no = 0x100 then q.status &&& sstatusMask
  else if no = 0x342 then q.mcause
  else if no = 0x343 then q.mtval
  else if no = 0x3A0 ∨ no = 0x3A2 then BitVec.ofNat 64 (leNat ((q.cfg.drop ((no - 0x3A0) * 4)).take 8))
  else if 0x3B0 ≤ no ∧ no < 0x3C0 then q.addr.getD (no - 0x3B0) 0
  else tabGet 0 q.csr no
/-- PMP entry i is locked, and so is its address register, also as the foot of a locked top-of-range entry. -/
def Fep.locked (q : Fep) (i : Nat) : Bool := (q.cfg.getD i 0).getLsbD 7
def Fep.footed (q : Fep) (i : Nat) : Bool := q.locked i || (q.locked (i + 1) && (q.cfg.getD (i + 1) 0).toNat / 8 % 4 == 1)
/-- A CSR is written. -/
def Fep.set (q : Fep) (no : Nat) (v : Word) : Fep :=
  if no = 0x300 then { q with csr := tabSet q.csr 0x300 v, prior := if bitsOf v 12 11 = 2 then q.prior else FepMode.of (bitsOf v 12 11) }
  else if no = 0x100 then { q with csr := tabSet q.csr 0x300 ((q.status &&& ~~~ sstatusMask) ||| (v &&& sstatusMask)) }
  else if no = 0x342 then { q with mcause := v }
  else if no = 0x343 then { q with mtval := v }
  else if no = 0x3A0 ∨ no = 0x3A2 then
    { q with cfg := q.cfg.zipIdx.map fun e =>
        if e.2 / 8 * 2 = no - 0x3A0 ∧ !q.locked e.2 then BitVec.ofNat 8 (v.toNat / 256 ^ (e.2 % 8)) else e.1 }
  else if 0x3B0 ≤ no ∧ no < 0x3C0 then (if q.footed (no - 0x3B0) then q else { q with addr := q.addr.set (no - 0x3B0) v })
  else { q with csr := tabSet q.csr no v }
/-- The mode reaches the CSR, and a write does not meet a read-only one. -/
def Fep.mayCsr (q : Fep) (no : Nat) (write : Bool) : Bool := decide (no / 256 % 4 ≤ q.mode.code) && !(write && no / 1024 == 3)

/-- Where a trap goes: the base, and beyond it by cause for an interrupt in vectored mode. -/
def trapPc (tvec cause : Word) : Word :=
  (tvec &&& ~~~ 3#64) + if cause.getLsbD 63 && tvec.getLsbD 0 then 4 * (cause &&& 0x7FFFFFFFFFFFFFFF#64) else 0
/-- A trap is taken: in supervisor mode where it is delegated from a lower mode than machine, else in machine mode. -/
def Fep.take (q : Fep) (cause v : Word) : Fep :=
  let w := q.status
  let d := tabGet 0 q.csr (if cause.getLsbD 63 then 0x303 else 0x302)
  if q.mode != .machine && d.getLsbD (cause.toNat % 64) then
    { ((q.set 0x141 q.pc).set 0x142 cause).set 0x143 v with
      csr := tabSet (((q.set 0x141 q.pc).set 0x142 cause).set 0x143 v).csr 0x300 (bitTo (bitTo (bitTo w 5 (w.getLsbD 1)) 1 false) 8 (q.mode != .user)),
      mode := .supervisor, pc := trapPc (tabGet 0 q.csr 0x105) cause }
  else
    { q.set 0x341 q.pc with
      csr := tabSet (q.set 0x341 q.pc).csr 0x300 (bitTo (bitTo w 7 (w.getLsbD 3)) 3 false), prior := q.mode, mode := .machine,
      mcause := cause, mtval := v, pc := trapPc (tabGet 0 q.csr 0x305) cause }
/-- MRET and SRET. -/
def Fep.mret (q : Fep) : Fep :=
  let w := q.status
  { q with csr := tabSet q.csr 0x300 (bitTo (bitTo w 3 (w.getLsbD 7)) 7 true), mode := q.prior, prior := .user, pc := tabGet 0 q.csr 0x341 }
def Fep.sret (q : Fep) : Fep :=
  let w := q.status
  { q with csr := tabSet q.csr 0x300 (bitTo (bitTo (bitTo w 1 (w.getLsbD 5)) 5 true) 8 false),
           mode := if w.getLsbD 8 then .supervisor else .user, pc := tabGet 0 q.csr 0x141 }

/-! ## Boot, plug-ins and traps -/

/-- FEP-local SRAM stands at these keys. -/
def fepBase : Nat := 2 ^ 56

/-- A naturally aligned range of 64 KiB as an address register. -/
def pmpBlock (base : Nat) : Word := BitVec.ofNat 64 (base / 4 + 8191)
/-- An FEP as boot leaves it: entries 0 to 3 locked by the monitor, over ranges and with permissions that are free, in the SRAM and among
the registers; entry 15 lets the scheduler reach everything else (R305; log 57). -/
def Fep.booted (k : Nat) : Fep :=
  let w := fun i => Config.freeWord (k + i)
  { Fep.reset with
    mode := .supervisor
    cfg := (List.range 4).map (fun i => 0x98#8 ||| ((w i).truncate 3).zeroExtend 8) ++ List.replicate 11 0 ++ [0x1F]
    addr := [pmpBlock ((w 4).toNat % 256 * 2 ^ 16), pmpBlock ((w 5).toNat % 256 * 2 ^ 16), pmpBlock (0x1800000 + (w 6).toNat % 128 * 2 ^ 16),
             pmpBlock (0x1800000 + (w 7).toNat % 128 * 2 ^ 16)] ++ List.replicate 11 0 ++ [BitVec.ofNat 64 (2 ^ 54 - 1)] }

/-- The FEP that runs the plug-in of a tenant (log 57). -/
def fepOf (v : Nat) : Nat := v % 8
/-- A range of the SRAM as the two address registers of a top-of-range pair. -/
def pmpPair (r : Nat × Nat) : List Word := [BitVec.ofNat 64 (r.1 / 4), BitVec.ofNat 64 ((r.1 + r.2) / 4)]
/-- The switch to a plug-in: the scheduler has the monitor program entries 4 to 15 with its grant: code to execute, data to read and
write, its tenant's ring heads to read. -/
def Fep.enter (q : Fep) (v : Nat) (p : Plugin) : Fep :=
  { q with mode := .user, prior := .supervisor, tenant := some v
           cfg := q.cfg.take 4 ++ [0, 0x0C, 0, 0x0B, 0, 0x09] ++ List.replicate 6 0
           addr := q.addr.take 4 ++ pmpPair p.code ++ pmpPair p.data ++ pmpPair p.heads ++ List.replicate 6 0 }
/-- The switch back to the scheduler. -/
def Fep.leave (q : Fep) : Fep :=
  { q with mode := .supervisor, tenant := none
           cfg := q.cfg.take 4 ++ List.replicate 11 0 ++ [0x1F]
           addr := q.addr.take 4 ++ List.replicate 11 0 ++ [BitVec.ofNat 64 (2 ^ 54 - 1)] }
/-- The tenant's plug-in runs no more. -/
def State.plugLeave (s : State) (v : Nat) : State := if (s.fep (fepOf v)).tenant = some v then s.onFep (fepOf v) Fep.leave else s
/-- A plug-in is stopped for good; its tenant's launches are taken in the default order (R307). -/
def State.plugStop (s : State) (v : Nat) : State :=
  (s.onPlug v fun p => { p with stopped := true, start := none, staged := [], order := [] }).plugLeave v
/-- The FEP takes a trap. An access fault, an illegal instruction or a misaligned access of a plug-in stops it for good (R307). -/
def State.fepTrap (s : State) (f : Nat) (cause v : Word) : State :=
  let q := s.fep f
  let s := s.onFep f (·.take cause v)
  match q.tenant with
  | some t => if q.mode = .user ∧ [0, 1, 2, 4, 5, 6, 7].contains cause.toNat then s.plugStop t else s
  | none => s

/-- A call of a plug-in that has not been stopped: an environment call from user mode, served by the scheduler, and back. The first call
of a tenant begins an invocation. -/
def State.plugCall (s : State) (v : Nat) (k : Plugin → State → State) : Out :=
  let p := (s.vf v).plug
  s.dyore (if p.stopped then s
    else k p ((s.onVf v fun f => { f with plug := { f.plug with start := some (f.plug.start.getD s.time) } }).onFep (fepOf v) fun q =>
      { q.enter v p with prior := .user, mcause := 8, mtval := 0 }))
/-- A range lies in the plug-in's data and the SRAM. -/
def Plugin.owns (p : Plugin) (a n : Nat) : Bool := decide (p.data.1 ≤ a) && decide (a + n ≤ p.data.1 + p.data.2) && decide (a + n ≤ 2 ^ 24)
/-- A call is answered in a0, a register of the FEP that runs the plug-in. -/
def State.plugAnswer (s : State) (v : Nat) (w : Word) : State :=
  let s := s.onPlug v fun p => { p with a0 := w }
  if (s.fep (fepOf v)).tenant = some v then s.onFep (fepOf v) (·.put 10 w) else s
/-- A call that none of the four numbers answers: −1 in a0 (R307). -/
def State.callOther (s : State) (v : Nat) (no : Word) : State :=
  if !s.up || no.toNat ≤ 3 || (s.vf v).plug.stopped then s else s.plugAnswer v (BitVec.allOnes 64)
/-- The scheduler grants a tenant's plug-in its code, its data and a view of its ring heads (R307). -/
def State.grantPlug (s : State) (v : Nat) (code data heads : Nat × Nat) : State :=
  if s.up then s.onPlug v fun p => { p with code := code, data := data, heads := heads } else s

end Sys2Proof.Machine
end

