-- ==== Sys2Proof/Machine/Perforated.lean ====
section
/-! DEFINITION. Grout and Bellows (R289 to R304). -/

namespace Sys2Proof.Machine

open Sys2Proof

/-! ## Interpolation (R295) -/

/-- The mean of two or four values, exact and rounded once: a NaN or infinities of both signs give the canonical NaN. -/
def meanFloat (f : Fmt) (l : List FVal) : Nat :=
  let infs := (l.filter fun v => match v with | .inf _ => true | _ => false).map FVal.neg
  if l.any (·.isNan) || (infs.contains true && infs.contains false) then f.nan
  else match infs with
    | n :: _ => f.sgn n f.infMag
    | [] =>
      let e := l.foldl (fun (a : Int) v => match v with | .fin _ _ e => min a e | _ => a) 0
      let sum := l.foldl (fun (a : Int) v => match v with | .fin n m d => a + FVal.int n (m * 2 ^ (d - e).toNat) | _ => a) 0
      (f.round 0 false (decide (sum < 0)) sum.natAbs (e - (if l.length = 4 then 2 else 1))).1
/-- Integers: exact sum, division, half away from zero. -/
def meanInt (w : Nat) (l : List Int) : Nat :=
  let sum := l.foldl (· + ·) 0
  let q := (sum.natAbs * 2 + l.length) / (2 * l.length)
  uBits w (if sum < 0 then -(q : Int) else q)
/-- One interpolated element of a format. -/
def meanElem (fmt : Nat) (l : List Nat) : Nat :=
  if isFloat fmt then meanFloat (fmtOf fmt) (l.map (fmtOf fmt).decode) else meanInt (elemBytes fmt * 8) (l.map (sInt (elemBytes fmt * 8)))

/-! ## The output array (R296) -/

/-- Element e of point (i, j), as an address of the array's own space. -/
def Bellows.elemAddr (b : Bellows) (base i j e : Nat) : Nat := base + j * b.rowpitch + i * b.ptpitch + e * elemBytes b.fmt
/-- Whether the array is global, and its base: an address or a window key; an own-core alias is the creator's. -/
def Bellows.base (b : Bellows) (n : Nat) : Bool × Nat :=
  match classify n b.out with
  | .global a => (true, a)
  | .window c r off => (false, winKey c r off)
  | .none => (false, 0)

/-! ## Grout (R294) -/

/-- The points of a family that its coverage skips, with their columns and rows, in member order. -/
def Desc.skipped (d : Desc) (cov : Nat) : List (Nat × Nat) :=
  let r := d.rows
  ((List.range d.count).map fun (n : Nat) => ((d.start + n).toNat % d.ni, (d.start + n).toNat / d.ni)).filter fun p =>
    !pointKept cov d.lattice d.ni r.1 r.2 p.1 p.2
/-- The stencil of a skipped point. -/
def Desc.stencilOf (d : Desc) (cov : Nat) (p : Nat × Nat) : List (Nat × Nat) :=
  stencil cov d.lattice d.ni d.rows.1 d.rows.2 p.1 p.2
/-- A point is a probe (R293). -/
def Bellows.isProbe (b : Bellows) (p : Nat × Nat) : Bool := probeHash b.salt p.1 p.2 == 0
/-- Bytes of a point's elements. -/
def Bellows.span (b : Bellows) : Nat := (b.em1 + 1) * elemBytes b.fmt
/-- The ranges of points, read or written. -/
def Bellows.ranges (b : Bellows) (base : Nat) (w : Bool) (l : List (Nat × Nat)) : List (Nat × Nat × Bool) :=
  l.map fun p => (b.elemAddr base p.1 p.2 0, b.span, w)

/-- The points Grout reads for the skipped points, each with its tag: 8 i + k for the k-th stencil point of skipped point i, and 8 i + 7
for the output of a probe. -/
def groutReads (d : Desc) (cov : Nat) (b : Bellows) : List (Nat × Nat × Nat) :=
  (d.skipped cov).zipIdx.flatMap fun q =>
    ((d.stencilOf cov q.1).zipIdx.map fun r => (8 * q.2 + r.2, r.1)) ++ (if b.isProbe q.1 then [(8 * q.2 + 7, q.1)] else [])

/-- What Grout has read of element e of a point, under a tag, and its poison. -/
def GroutJob.elem (g : GroutJob) (base tag : Nat) (p : Nat × Nat) (e : Nat) : Nat × Bool :=
  let v := granBytes g.grans tag (g.bell.elemAddr base p.1 p.2 e) (elemBytes g.bell.fmt)
  (leNat v.1, v.2)
/-- The interpolation of element e of skipped point i (R295), and whether a poisoned word feeds it. -/
def GroutJob.interpolate (g : GroutJob) (base i : Nat) (p : Nat × Nat) (e : Nat) : Nat × Bool :=
  let l := (g.desc.stencilOf g.cov p).zipIdx.map fun q => g.elem base (8 * i + q.2) q.1 e
  (meanElem g.bell.fmt (l.map (·.1)), l.any (·.2))
/-- Every granule of the stencil of skipped point i has been read. -/
def GroutJob.ready (g : GroutJob) (i : Nat) : Bool := g.grans.all fun q => q.got.isSome || q.tag / 8 != i || q.tag % 8 == 7

/-- Grout refuses the family: a team fault against the creator, no write (R296). -/
def State.groutFault (s : State) (f : FamRef) (cause : Nat) (value : Word) : State :=
  s.engineFault f.core (s.fam f).who cause value (s.fam f).upc

/-- Grout begins a family (R294): it owns its destination, and its reads and writes are laid out. -/
def State.groutStart (s : State) (cl vf : Nat) (e : GroutEntry) (b : Bellows) : State :=
  let g := s.fam e.fam
  let cov := g.coverage.getD 0
  let o := b.base e.fam.core
  let es := elemBytes b.fmt
  let grans := (groutReads g.desc cov b).flatMap fun q => s.gransOf e.maps vf o.1 (b.elemAddr o.2 q.2.1 q.2.2 0) b.span q.1
  let pieces := (g.desc.skipped cov).zipIdx.flatMap fun q =>
    if b.isProbe q.1 then [] else s.piecesOf e.maps vf o.1 [(q.2, 0)] (b.elemAddr o.2 q.1.1 q.1.2 0) (b.em1 + 1) es es 0
  (s.own (groutEng cl) (pieces.map (·.key / 128)).dedup).onCluster cl fun k =>
    { k with groutq := k.groutq.tail,
             groutRun := some { fam := e.fam, ord := e.ord, desc := g.desc, cov := cov, bell := b, grans := grans, pieces := pieces } }

/-- The family at the head of Grout's queue tries to begin: its members' requests performed, its pages there, its units free (R294,
R296). The context's fields are those of this moment (log 56). -/
def State.groutBegin (s : State) (cl : Nat) (e : GroutEntry) : State :=
  let f := e.fam
  let g := s.fam f
  if s.famBusy f || (s.cluster cl).groutWalk then s
  else
    let b := s.bellows f.core g.desc.bctx
    let cov := g.coverage.getD 0
    let o := b.base f.core
    let vf := (s.teamOf f.core).vf
    let writes := (g.desc.skipped cov).filter (!b.isProbe ·)
    let starts := if o.1 then pageStarts (b.ranges o.2 false ((groutReads g.desc cov b).map (·.2)) ++ b.ranges o.2 true writes) else []
    let e := { e with maps := s.gathered cl vf e.maps starts }
    let put := fun (s : State) (e : GroutEntry) => s.onCluster cl fun k => { k with groutq := e :: k.groutq.tail }
    let drop := s.onCluster cl fun k => { k with groutq := k.groutq.tail }
    match missing e.maps vf starts with
    | some (a, w) => ((put s e).onCluster cl fun k => { k with groutWalk := true }).startWalk cl vf a w (.grout cl)
    | none =>
      let pages := s.pagesOf vf e.maps starts
      match pages.find? fun q => q.2.1 && !q.2.2.write, pages.find? fun q => q.2.2.slot != 0 with
      | some q, _ => drop.groutFault f 6 (BitVec.ofNat 64 q.1)
      | none, some q => drop.groutFault f 0x13 (BitVec.ofNat 64 q.1)
      | none, none =>
        let units := ((writes.flatMap fun p => s.gransOf e.maps vf o.1 (b.elemAddr o.2 p.1 p.2 0) b.span 0).map (·.key / 128)).dedup
        if s.mayOwn e.id units then s.groutStart cl vf e b else put s { e with units := units }

/-- Grout is through with its family (R294 step 5): each probe's output and interpolation go to Bellows. -/
def State.groutDone (s : State) (cl : Nat) (g : GroutJob) : State :=
  let o := g.bell.base g.fam.core
  let probes := ((g.desc.skipped g.cov).zipIdx.filter fun q => g.bell.isProbe q.1).map fun q =>
    (List.range (g.bell.em1 + 1)).map fun e => ((g.elem o.2 (8 * q.2 + 7) q.1 e).1, (g.interpolate o.2 q.2 q.1 e).1)
  s.onCluster cl fun k =>
    { k with groutRun := none,
             bellowsq := k.bellowsq ++ [({ fam := g.fam, ord := g.ord, ctx := g.desc.bctx, probes := some probes } : BellowsReq)] }

/-- GROUT (R294, R296): the unit of a cluster begins the family that reached it first, or ends the one it has begun once its reads are
done and its writes performed. A family that is no more, or of a team that ends, is not begun (R319, R332). -/
def execGrout (cl : Nat) (s : State) : Out :=
  let k := s.cluster cl
  match k.groutRun, k.groutq with
  | some g, _ =>
    .next (if g.grans.all (·.got.isSome) && g.pieces.all (·.done) && !s.engineBusy (groutEng cl) then s.groutDone cl g else s)
  | none, [] => .next s
  | none, e :: t =>
    let g := s.fam e.fam
    let gone := s.onCluster cl fun k => { k with groutq := t }
    if !g.live || g.ord != e.ord then .next gone
    else if g.marked || (s.teamOf e.fam.core).ending then .next (gone.onFam e.fam fun g => { g with grouted := true })
    else .next (s.groutBegin cl e)

/-- The bytes a piece of Grout's writes, and whether it is poisoned. -/
def GroutJob.pieceBytes (g : GroutJob) (p : Piece) : List Byte × Bool :=
  let o := g.bell.base g.fam.core
  let i := (p.srcs.headD (0, 0)).1
  let pt := (g.desc.skipped g.cov).getD i (0, 0)
  let l := (List.range p.k).map fun j => g.interpolate o.2 i pt (p.idx + j)
  (l.flatMap fun v => leBytes (elemBytes g.bell.fmt) v.1, l.any (·.2))

/-- A granule read by Grout; the pieces whose stencils are complete are written to the adaptive pool (R77, R84). -/
def State.groutRead (s : State) (cl : Nat) (g : GroutJob) (q : Gran) : State :=
  let r := s.readGran 0 0 q
  let g := { g with grans := g.grans.map fun x => if x = q then r.2 else x }
  let go := fun p : Piece => !p.done && g.ready (p.srcs.headD (0, 0)).1
  let s := (g.pieces.filter go).foldl (fun s p => s.engineWrite g.fam.core (groutEng cl) 0 p (g.pieceBytes p).1 (g.pieceBytes p).2) r.1
  s.onCluster cl fun k => { k with groutRun := some { g with pieces := g.pieces.map fun p => if go p then { p with done := true } else p } }

/-! ## Reading (R84) -/

/-- ENGINE_READ (R84): the i-th granule that an engine has still to read; a multicast reads line by line (R268). -/
def execEngineRead (e : Engine) (i : Nat) (s : State) : Out :=
  match e with
  | .copy c =>
    match (s.core c).copyRun with
    | none => .next s
    | some r =>
      match (if r.op = 4 then nextLine r.grans else r.grans.filter (·.got.isNone))[i]? with
      | some g => if r.begun ∧ r.join.isNone then .next (s.copyRead c r g) else .next s
      | none => .next s
  | .ice cl =>
    match (s.iceReads cl)[i]? with
    | some g => .next (s.iceRead cl g.1 g.2)
    | none => .next s
  | .grout cl =>
    match (s.cluster cl).groutRun with
    | none => .next s
    | some g =>
      match (g.grans.filter (·.got.isNone))[i]? with
      | none => .next s
      | some q => .next (s.groutRead cl g q)

/-! ## Bellows (R290, R297 to R300) -/

def State.onBellows (s : State) (cl b : Nat) (f : Bellows → Bellows) : State :=
  s.onCluster cl fun k => { k with bellows := tabSet k.bellows b (f (tabGet Bellows.fresh k.bellows b)) }

/-- BELLOWS_LATCH (R290): the oldest request of a cluster's Bellows is an FCREATE's: the family takes its coverage. -/
def execBellowsLatch (cl : Nat) (s : State) : Out :=
  match (s.cluster cl).bellowsq with
  | [] => .next s
  | r :: t =>
    match r.probes with
    | some _ => .next s
    | none =>
      let s := s.onCluster cl fun k => { k with bellowsq := t }
      let g := s.fam r.fam
      if !g.live || g.ord != r.ord then .next s
      else
        let b := tabGet Bellows.fresh (s.cluster cl).bellows r.ctx
        .next (s.onFam r.fam fun g => { g with coverage := some (if b.adapt then b.cur else g.desc.cov) })

/-- An output as an f32 pattern (R299). -/
def outF32 (fmt v : Nat) : Nat := (cvtElem fmt 1 0 false false v).1
/-- The relative error of one element (R299). -/
def elemError (fmt : Nat) (y g : Nat) : Nat :=
  let a := f32.decode (outF32 fmt y)
  let b := f32.decode (outF32 fmt g)
  match a, b with
  | .fin _ _ _, .fin _ _ _ =>
    let d := (f32.add 0 b a.negate).1 % 2 ^ 31
    (f32.div 0 (f32.decode d) (f32.decode (Nat.max (outF32 fmt y % 2 ^ 31) 0x33800000))).1
  | _, _ => f32.infMag
/-- The mean error of the probes (R299). -/
def meanError (fmt : Nat) (probes : List (List (Nat × Nat))) : Nat :=
  let sum := probes.foldl (fun acc p => (f32.add 0 (f32.decode acc)
    (f32.decode (p.foldl (fun r q => Nat.max r (elemError fmt q.1 q.2)) 0))).1) 0
  if probes.isEmpty then 0 else (f32.div 0 (f32.decode sum) (.fin false probes.length 0)).1

/-- A completion moves an adaptive context (R300). -/
def Bellows.update (b : Bellows) (probes : List (List (Nat × Nat))) : Bellows :=
  let m := meanError b.fmt probes
  let b := { b with mean := m, probes := probes.length, done := (b.done + 1) % 2 ^ 32 }
  if !b.adapt then b
  else if b.hi < m then { b with cur := b.cur - 1, streak := 0 }
  else if m < b.lo ∧ b.streak = 1 then { b with cur := Nat.min (b.cur + 1) b.ceil, streak := 0 }
  else if m < b.lo ∧ b.streak = 0 then { b with streak := 1 }
  else { b with streak := 0 }

/-- BELLOWS_UPDATE (R300): the oldest request is a family's update; the family may finish after it. -/
def execBellowsUpdate (cl : Nat) (s : State) : Out :=
  match (s.cluster cl).bellowsq with
  | [] => .next s
  | r :: t =>
    match r.probes with
    | none => .next s
    | some p =>
      let s := s.onCluster cl fun k => { k with bellowsq := t }
      let g := s.fam r.fam
      .next (if g.live && g.ord == r.ord then (s.onBellows cl r.ctx (·.update p)).onFam r.fam fun g => { g with grouted := true } else s)

/-! ## PLOAD, PSAVE, PSTAT (R301 to R303) -/

/-- A request of the context stands before this one in the Bellows order (R300). -/
def State.bellowsWaits (s : State) (b : Nat) : Bool := (s.cluster (s.iss.core / 16)).bellowsq.any fun r => r.ctx == b

/-- A block as a context, if it is well formed (R302 item 5). -/
def State.readBellows (s : State) (w : Nat → Word) : Option Bellows :=
  let b : Bellows :=
    { hi := bitsOf (w 0) 63 32, lo := bitsOf (w 0) 31 0, out := w 1, ptpitch := bitsOf (w 2) 63 32, rowpitch := bitsOf (w 2) 31 0,
      streak := bitsOf (w 3) 21 20, adapt := (w 3).getLsbD 19, ceil := bitsOf (w 3) 18 16, cur := bitsOf (w 3) 14 12, fmt := bitsOf (w 3) 11 8,
      em1 := bitsOf (w 3) 5 0, salt := bitsOf (w 4) 31 0, probes := 0, mean := 0, done := 0 }
  let es := elemBytes b.fmt
  let place := match classify s.iss.core b.out with
    | .global _ => true
    | .window c 0 off => (s.teamOf s.iss.core).cores.contains c && decide (off < 2 ^ 18)
    | _ => false
  if bitsOf (w 3) 63 22 ≠ 0 ∨ (w 3).getLsbD 15 ∨ bitsOf (w 3) 7 6 ≠ 0 ∨ bitsOf (w 4) 63 32 ≠ 0 ∨ bitsOf (w 6) 63 32 ≠ 0 ∨ w 7 ≠ 0 ∨
      f32.infMag ≤ b.hi ∨ b.hi < b.lo ∨ !([1, 2, 3, 4, 5, 7, 8].contains b.fmt) ∨ 4 < b.ceil ∨ b.ceil < b.cur ∨ !place ∨
      b.out.toNat % es ≠ 0 ∨ b.ptpitch % es ≠ 0 ∨ b.rowpitch % es ≠ 0 then none
  else some b

/-- A context as its block (R298). -/
def Bellows.words (b : Bellows) : List Word :=
  [BitVec.ofNat 64 (b.hi * 2 ^ 32 + b.lo), b.out, BitVec.ofNat 64 (b.ptpitch * 2 ^ 32 + b.rowpitch),
   BitVec.ofNat 64 (b.streak * 2 ^ 20 + (if b.adapt then 2 ^ 19 else 0) + b.ceil * 2 ^ 16 + b.cur * 2 ^ 12 + b.fmt * 2 ^ 8 + b.em1),
   BitVec.ofNat 64 b.salt, BitVec.ofNat 64 (b.probes % 2 ^ 32 * 2 ^ 32 + b.mean), BitVec.ofNat 64 b.done, 0]

/-- PLOAD and PSAVE up to their own work: alignment, place, context (R302), then the Bellows order. -/
def State.withBlock64 (s : State) (a : XReg) (b : Nat) (k : Nat → Out) : Out :=
  if s.misuse [a] [] then s.trapOut 0x0E 0
  else
    let va := s.rd a
    let off := (ownOff s.iss.core va).getD (2 ^ 18)
    if va.toNat % 64 ≠ 0 then s.trapOut 3 va
    else if !fitsSpad (off, 64) || !s.holdsBellows s.iss.core b then s.trapOut 4 va
    else if s.bellowsWaits b then .next s
    else k off

def execPload (a : XReg) (n : BitVec 3) (s : State) : Out :=
  s.withBlock64 a n.toNat fun off =>
    if s.spadWaits (winKey s.iss.core 0 off) 64 then .next s
    else if s.spadBad (off, 64) then s.trapOut 0x0F (s.rd a)
    else match s.readBellows (wordsOf (memBytes s.mem (winKey s.iss.core 0 off) 64)) with
      | none => s.trapOut 9 (s.rd a)
      | some b => .next ((s.pops [a]).onBellows (s.iss.core / 16) n.toNat fun _ => b).retire

/-- PSAVE's words go through the local port, and count until they are written (R302). -/
def execPsave (a : XReg) (n : BitVec 3) (s : State) : Out :=
  s.withBlock64 a n.toNat fun off =>
    let key := winKey s.iss.core 0 off
    let words := (s.bellows s.iss.core n.toNat).words.zipIdx.map fun w => (key + 8 * w.2, w.1, false)
    .next ((s.pops [a]).issueReq 0 (.core s.iss.core) key (s.rd a) 0 false 0 (.block 0 0 words)).retire

/-- The status word (R303). -/
def Bellows.status (b : Bellows) : Word :=
  BitVec.ofNat 64 (b.mean * 2 ^ 32 + b.probes % 2 ^ 16 * 2 ^ 16 + b.streak % 2 * 16 + (if b.adapt then 8 else 0) + b.cur)

def execPstat (d : XReg) (n : BitVec 3) (s : State) : Out :=
  if s.misuse [] [d] then s.trapOut 0x0E 0
  else if !s.holdsBellows s.iss.core n.toNat then s.trapFree 4
  else if s.bellowsWaits n.toNat then .next s
  else
    let t := s.cur.dest d
    .next ((s.onCur (·.await t true)).fillReg s.cur.uid t 0 (s.bellows s.iss.core n.toNat).status).retire

end Sys2Proof.Machine
end

