-- ==== Sys2Proof/Machine/Launch.lean ====
section
/-! DEFINITION. Launches (R323 to R331, R336): doorbells, checks at the head of a ring, waits, the order among eligible launches
and saved teams, block ranges, dispatch, completion; the plug-in calls (R307). -/

namespace Sys2Proof.Machine

open Sys2Proof

/-! ## Launch records (R324) and kernel headers (R119) -/

def Launch.empty : Launch :=
  { live := false, vf := 0, ring := 0, pos := 0, words := [], header := [], digest := 0, time := 0, ready := false, stamp := none,
    ranges := [], done := 0, issued := 0, result := none, dropped := 0, written := 0, entry := [], firstCo := none, pre := none, preLeft := [] }
def State.launch (s : State) (l : Nat) : Launch := tabGet Launch.empty s.launches l
def State.onLaunch (s : State) (l : Nat) (f : Launch → Launch) : State := { s with launches := tabSet s.launches l (f (s.launch l)) }

def Launch.d (l : Launch) (i : Nat) : Word := l.words.getD i 0
def Launch.restart (l : Launch) : Bool := (l.d 0).getLsbD 36
def Launch.prio (l : Launch) : Nat := bitsOf (l.d 0) 35 32
def Launch.high (l : Launch) : Nat := bitsOf (l.d 0) 31 28
def Launch.wide (l : Launch) : Nat := bitsOf (l.d 0) 27 24
def Launch.shape (l : Launch) : Nat := bitsOf (l.d 0) 23 16
def Launch.start (l : Launch) : Word := l.d 2
def Launch.count (l : Launch) : Nat := bitsOf (l.d 3) 31 0
def Launch.deadline (l : Launch) : Nat := (l.d 5).toNat
def Launch.waits (l : Launch) : List Nat := (List.range 4).map fun i => bitsOf (l.d 6) (16 * i + 15) (16 * i)
def Launch.csig (l : Launch) : Nat := bitsOf (l.d 7) 15 0
def Launch.cval (l : Launch) : Nat := bitsOf (l.d 7) 63 16

def Launch.h (l : Launch) (i : Nat) : Word := l.header.getD i 0
/-- C, S, the entry and the handler offset of a header. -/
def Launch.code (l : Launch) : Nat := bitsOf (l.h 3) 31 0
def Launch.scratch (l : Launch) : Nat := bitsOf (l.h 3) 63 32
def Launch.entryOff (l : Launch) : Nat := bitsOf (l.h 2) 31 0
def Launch.handler (l : Launch) : Nat := bitsOf (l.h 2) 63 32
def Launch.level (l : Launch) : Nat := bitsOf (l.h 0) 55 48

/-- The ring position of a completion entry (R336), by which QORDER names a launch too (log 19). -/
def Launch.position (l : Launch) : Nat := l.pos % 2 ^ 29 * 8 + l.ring

/-! ## The image region (R325) -/

/-- Base and size in bytes of the image region of a partition. -/
def State.imageBase (s : State) (p : Nat) : Nat := bitsOf (tabGet 0 s.imgr p) 38 16 * 2 ^ 16
def State.imageSize (s : State) (p : Nat) : Nat := bitsOf (tabGet 0 s.imgr p) 63 40 * 2 ^ 16

/-! ## Units of a shape (R271, R329, R330) -/

/-- The units of a shape in a partition, by the position of their origin, each with its cores by rank (R179). -/
def State.unitsOf (s : State) (p shape w h : Nat) : List (List Nat) :=
  let cls := s.partClusters p
  let full := fun cl : Nat => (List.range 16).map (cl * 16 + ·)
  if shape = 0 then cls.flatMap fun cl => (full cl).map ([·])
  else if shape = 1 then cls.flatMap fun cl => (List.range 4).map fun c => (List.range 4).map (cl * 16 + c * 4 + ·)
  else if shape = 2 then cls.map full
  else
    let (pw, ph, _, _) := s.partRect p
    (List.range (pw * ph)).filterMap fun i =>
      if i % pw + w ≤ pw ∧ i / pw + h ≤ ph then
        some ((List.range (w * h)).flatMap fun j => full (cls.getD (i + j / w * pw + j % w) 0))
      else none
def State.unitsFor (s : State) (l : Launch) : List (List Nat) := s.unitsOf (s.vfPart l.vf) l.shape l.wide l.high
/-- The die of a unit's origin. -/
def unitDie (u : List Nat) : Nat := u.headD 0 / 2048

/-- A team in this state holds its cores (R330). -/
def Phase.holds (p : Phase) : Bool := p == .loading || p == .running || p == .stopping
/-- A core is held by a team, or its scrub has not ended (R359). -/
def State.coreBusy (s : State) (c : Nat) : Bool := s.teams.any fun t => (t.2.phase.holds || t.2.scrub) && t.2.cores.contains c
def State.unitFree (s : State) (u : List Nat) : Bool := u.all fun c => !s.coreBusy c

/-! ## Doorbells (R323) -/

def Vf.ring (f : Vf) (r : Nat) : Ring := tabGet Ring.reset f.rings r
def Vf.onRing (f : Vf) (r : Nat) (g : Ring → Ring) : Vf := { f with rings := tabSet f.rings r (g (f.ring r)) }

/-- DOORBELL: ignored on an unbound VF, before a version is chosen, on a disabled ring, or past the ring's size (R323, R348,
R363, R366). Each record submitted takes its submission time. -/
def execDoorbell (v r idx : Nat) (s : State) : Out :=
  let q := (s.vf v).ring r
  let n := (idx + 2 ^ 32 - q.bell % 2 ^ 32) % 2 ^ 32
  s.dyore (if !s.bound v || bitsOf (s.vf v).hfver 23 16 = 0 || !cfgEn q.cfg || 2 ^ cfgLg q.cfg < n || 7 < r then s
    else s.onVf v fun f => f.onRing r fun q =>
      { q with bell := (q.bell + n) % 2 ^ 32,
               times := (List.range n).foldl (fun t i => tabSet t ((q.bell + i) % 2 ^ 32) s.time) q.times })

/-! ## Checks (R120, R148, R327) -/

/-- Compat flags the Z8 knows for a level. -/
def compatOk (level : Nat) (w : Word) : Bool :=
  if level = 1 then w &&& ~~~ 3#64 == 0 else if level = 2 then w &&& ~~~ 0x300#64 == 0 else w == 0

/-- The failures of R327 in the order of its table; `region` tells whether the image lies in its region, `units` whether the
partition holds a unit of the shape; the header's dwords 4 to 7 are passed apart. -/
def Launch.failure (l : Launch) (en region units : Bool) (rest : List Word) : Option Nat :=
  let int := fun v : Int => decide (-(2 ^ 63) ≤ v) && decide (v < 2 ^ 63)
  ([(!en, 14), (bitsOf (l.d 0) 15 0 != 3, 1),
    (bitsOf (l.d 0) 63 37 != 0 || bitsOf (l.d 3) 63 32 != 0 || (l.words.drop 8).any (· != 0) || 3 < l.shape ||
      (if l.shape = 3 then l.wide == 0 || 4 < l.wide || l.high == 0 || 4 < l.high else l.wide != 0 || l.high != 0), 2),
    (l.waits.any (4095 < ·) || 4095 < l.csig, 3), (!region, 4), (bitsOf (l.h 0) 31 0 != 0x464C4543, 5),
    (bitsOf (l.h 0) 47 32 != 1, 6), (l.level == 0 || 3 < l.level, 7), (!compatOk l.level (l.h 1), 8),
    (bitsOf (l.h 0) 63 56 != 0 || rest.any (· != 0), 9), (l.code ≤ l.entryOff || l.code ≤ l.handler, 10), (262144 < l.scratch, 11),
    (!int (l.start.toInt + l.count - 1), 12), (!units, 13)] : List (Bool × Nat)).findSome? fun c => if c.1 then some c.2 else none

/-- The digest of an image whose partition holds a valid key slot (R352). -/
def State.imageDigest (s : State) (p image n : Nat) : Nat :=
  if s.keySlots.any fun k => k.1 / 256 == p && k.2.valid then
    (Config.sha384 (memBytes s.mem (partKey p (s.imageBase p + image)) n)).toNat
  else 0

/-- LAUNCH_RECORD_CHECK (R323, R327): the record at the head of ring r is read once and checked with its image; a failure gives
the launch its result. -/
def State.recordCheck (s : State) (v r : Nat) : State :=
  let q := (s.vf v).ring r
  if !s.bound v || !cfgEn q.cfg || q.head = q.bell then s
  else
    let p := s.vfPart v
    let words := (List.range 16).map fun i => s.dword (hostBase + q.base.toNat + q.head % 2 ^ cfgLg q.cfg * 128) i
    let image := (words.getD 1 0).toNat
    let inside := fun n : Nat => image % 64 = 0 ∧ image + n ≤ s.imageSize p
    let key := partKey p (s.imageBase p + image)
    let header := if inside 64 then (List.range 8).map (s.dword key) else List.replicate 8 0
    let l : Launch := { Launch.empty with live := true, vf := v, ring := r, pos := q.head, words := words, header := header.take 4,
                                          time := tabGet 0 q.times q.head }
    let size := 128 + l.code + l.scratch
    let fail := l.failure ((tabGet 0 s.troot v).getLsbD 63) (decide (inside 64) && decide (inside size))
      (!(s.unitsFor l).isEmpty) (header.drop 4)
    let l := { l with result := fail.map fun d => (2, d), digest := if fail.isSome then 0 else s.imageDigest p image size }
    { s.onVf v (fun f => f.onRing r fun q => { q with head := (q.head + 1) % 2 ^ 32, times := q.times.filter (·.1 != q.head) }) with
      launches := tabSet s.launches s.nextLaunch l, nextLaunch := s.nextLaunch + 1 }
def execLaunchRecordCheck (v r : Nat) (s : State) : Out := s.dyore (s.recordCheck v r)

/-! ## Waits and eligibility (R326, R328, R329) -/

/-- Every wait is satisfied now. -/
def State.waitsMet (s : State) (l : Launch) : Bool :=
  l.waits.all fun k => k == 0 || decide ((s.signal l.vf k).2.toNat ≤ (s.signal l.vf k).1.toNat)
/-- The place of a launch in the order its VF's plug-in has set. -/
def State.ordered (s : State) (l : Launch) : Option Nat :=
  let o := (s.vf l.vf).plug.order
  if !(s.vf l.vf).plug.stopped && o.contains l.position then some (o.findIdx (· == l.position)) else none
/-- Every launch before it in its ring is ready or complete. -/
def State.ringClear (s : State) (id : Nat) (l : Launch) : Bool :=
  s.launches.all fun m => !m.2.live || m.2.vf != l.vf || m.2.ring != l.ring || id ≤ m.1 || m.2.ready || m.2.result.isSome

/-- The shares of a launch's blocks by die (R329), as half-open ranges. -/
def shares (count : Nat) (units : List (List Nat)) : Tab (List (Nat × Nat)) :=
  let u := fun d => (units.filter fun q => unitDie q == d).length
  let cut := fun d => count * ((List.range d).map u).sum / units.length
  (List.range 4).map fun d => (d, if cut d < cut (d + 1) then [(cut d, cut (d + 1))] else [])

/-- Launches that have become eligible take their places and are split among the dies. -/
def State.enlist (s : State) : State :=
  s.launches.foldl (fun s q =>
    let l := s.launch q.1
    if l.live && l.result.isNone && l.ready && l.stamp.isNone && ((s.ordered l).isSome || s.ringClear q.1 l) then
      State.onLaunch { s with nextOrd := s.nextOrd + 1 } q.1 fun l =>
        { l with stamp := some s.nextOrd, ranges := shares l.count (s.unitsFor l) }
    else s) s

/-- LAUNCH_READY (R326): the waits are seen satisfied together, once. -/
def execLaunchReady (l : Nat) (s : State) : Out :=
  let m := s.launch l
  s.dyore (if m.live && m.result.isNone && !m.ready && s.waitsMet m then (s.onLaunch l fun m => { m with ready := true }).enlist else s)

/-! ## Ranges (R329) -/

def blocksIn (r : List (Nat × Nat)) : Nat := (r.map fun q => q.2 - q.1).sum
/-- The first n blocks of a range, and the rest. -/
def cutBlocks : Nat → List (Nat × Nat) → List (Nat × Nat) × List (Nat × Nat)
  | _, [] => ([], [])
  | n, q :: t =>
    if q.2 - q.1 ≤ n then
      let (a, b) := cutBlocks (n - (q.2 - q.1)) t
      (q :: a, b)
    else ((if n = 0 then [] else [(q.1, q.1 + n)]), (q.1 + n, q.2) :: t)
def Launch.range (l : Launch) (d : Nat) : List (Nat × Nat) := tabGet [] l.ranges d
def Launch.blocksLeft (l : Launch) : Nat := ((List.range 4).map fun d => blocksIn (l.range d)).sum

/-- BLOCK_STEAL (R329): die d, whose range is empty while one of its units is free, takes the upper half of the largest. -/
def execBlockSteal (l d : Nat) (s : State) : Out :=
  let m := s.launch l
  let n := fun e => blocksIn (m.range e)
  let v := (List.range 4).foldl (fun b e => if n b < n e then e else b) 0
  s.dyore (if m.live && m.stamp.isSome && m.result.isNone && n d == 0 && 2 ≤ n v &&
      (s.unitsFor m).any (fun u => unitDie u == d && s.unitFree u) then
    s.onLaunch l fun m => { m with ranges := tabSet (tabSet m.ranges v (cutBlocks (n v - n v / 2) (m.range v)).1) d
                                                    (cutBlocks (n v - n v / 2) (m.range v)).2 }
  else s)

/-! ## Who is offered a unit (R328) -/

/-- Cores of the unit are ones that a pre-emption for this launch frees, and that it is still to be offered first (R331). -/
def Launch.preFor (l : Launch) (u : List Nat) : Bool := l.preLeft.any u.contains
/-- The launch could use free cores of the unit now. -/
def State.canUse (s : State) (l : Launch) (u : List Nat) : Bool :=
  l.live && l.stamp.isSome && l.result.isNone &&
    (s.unitsFor l).any fun w => s.unitFree w && w.any u.contains && blocksIn (l.range (unitDie w)) != 0
/-- The place of a launch among its VF's eligible ones: named by QORDER first, then by stamp. -/
def State.place (s : State) (l : Launch) : Nat :=
  match s.ordered l with
  | some i => i
  | none => 2 ^ 16 + l.stamp.getD 0
/-- The distance of a VF in the round-robin of a priority. -/
def State.robin (s : State) (prio v : Nat) : Nat := (v + 256 - tabGet 0 s.served prio % 256) % 256
/-- Launch m is offered the unit before launch l. -/
def State.precedes (s : State) (u : List Nat) (m l : Launch) : Bool :=
  if m.preFor u ≠ l.preFor u then m.preFor u
  else if m.prio ≠ l.prio then l.prio < m.prio
  else if m.vf ≠ l.vf then s.robin l.prio m.vf < s.robin l.prio l.vf
  else s.place m < s.place l
/-- A saved team waits for exactly its cores, which are free. -/
def State.waiting (s : State) (t : Team) : Bool := t.phase == .saved && s.unitFree t.cores
/-- A saved team is offered cores of the unit before the launch. -/
def State.savedFirst (s : State) (u : List Nat) (l : Launch) : Bool :=
  !l.preFor u && s.teams.any fun t => s.waiting t.2 && t.2.cores.any u.contains && decide (l.prio ≤ (s.launch t.2.launch).prio)

/-- The unit of die d that the launch takes next: the free one of the lowest position, if it is offered to this launch (R330). -/
def State.chosen (s : State) (l : Launch) (d : Nat) : Option (List Nat) :=
  match (s.unitsFor l).find? fun u => unitDie u == d && s.unitFree u with
  | none => none
  | some u =>
    if s.savedFirst u l || s.launches.any (fun m => s.canUse m.2 u && s.precedes u m.2 l) then none else some u

/-- A core as a dispatched team finds it: stopped and loading, with the arena, level and handler of its image (R118, R308, R322). A C that is
no multiple of 64 stands in ABOUND as it is, and the preamble begins where the code ends (log 66). -/
def Core.loaded (c : Core) (t : Nat) (abase : Nat) (l : Launch) : Core :=
  { Core.reset with cstate := 1, abase := BitVec.ofNat 64 abase, abound := BitVec.ofNat 64 (abase + l.code), flatch := c.flatch,
                    level := l.level, compat := (l.h 1).toNat, hoff := BitVec.ofNat 64 l.handler, tiles := c.tiles, team := some t }

/-- Cores are taken: a launch whose pre-emption freed them has been offered them (R331). -/
def State.preEnds (s : State) (u : List Nat) : State :=
  { s with launches := s.launches.map fun l => (l.1, { l.2 with preLeft := l.2.preLeft.filter (!u.contains ·) }) }
/-- A victim has freed its cores, or has completed: the pre-emption is over (R331, R332). -/
def State.preOver (s : State) (t : Nat) : State :=
  { s with launches := s.launches.map fun l => (l.1, { l.2 with pre := l.2.pre.filter (· != t) }) }

/-- TEAM_DISPATCH (R330): the next block of die d's range becomes a team, loading, on that unit. -/
def State.dispatch (s : State) (l d : Nat) : State :=
  let m := s.launch l
  if !(m.live && m.stamp.isSome && m.result.isNone) then s
  else match m.range d, s.chosen m d with
    | q :: r, some u =>
      let t := s.nextTeam
      let p := s.vfPart m.vf
      let team : Team := { Team.empty with phase := .loading, launch := l, block := m.start + BitVec.ofNat 64 q.1, number := q.1, die := d,
                                           vf := m.vf, part := p, shape := m.shape, cores := u, digest := m.digest }
      let abase := s.imageBase p + (m.d 1).toNat + 64
      let s := s.preEnds u
      let s := { s with nextTeam := t + 1, teams := tabSet s.teams t team, served := tabSet s.served m.prio (m.vf + 1) }
      let s := s.onLaunch l fun m =>
        { m with ranges := tabSet m.ranges d (if q.1 + 1 < q.2 then (q.1 + 1, q.2) :: r else r) }
      u.foldl (fun s c => s.onCore c fun k => k.loaded t abase m) s
    | _, _ => s
def execTeamDispatch (l d : Nat) (s : State) : Out := s.dyore (s.dispatch l d)

/-! ## Completion (R336) -/

/-- Every request of every team of a launch has been performed. -/
def State.launchQuiet (s : State) (l : Nat) : Bool :=
  s.reqs.all fun r => match r.team with
    | some t => (s.team t).launch != l
    | none => true
/-- The launch has ended: its blocks are done, or it has faulted and its teams are gone, or it met a load error. -/
def State.ended (s : State) (l : Nat) : Bool :=
  let m := s.launch l
  m.live && s.launchQuiet l && (match m.result with
    | some r => r.1 == 2 || s.teams.all fun t => t.2.launch != l || !t.2.phase.holds
    | none => m.ready && m.done == m.count)
/-- The completion entry. -/
def Launch.completion (l : Launch) (cycle : Nat) : List Word :=
  let r := l.result.getD (0, 0)
  [BitVec.ofNat 64 (r.2 * 2 ^ 48 + Nat.min l.dropped 255 * 2 ^ 40 + r.1 * 2 ^ 32 + l.position), BitVec.ofNat 64 cycle,
   BitVec.ofNat 64 l.done, 0]
/-- The entry of a launch is written, then its signal is raised, whatever its status but for detail 1; others may follow. -/
def State.post (s : State) (l : Nat) : State :=
  let m := s.launch l
  let r := (s.vf m.vf).comp
  let s := s.hostPut (r.place r.tail 32) (wordBytes m.entry)
  let s := s.onVf m.vf fun f => { f with comp := f.comp.step 1 }
  let s := if m.result ≠ some (2, 1) ∧ m.csig ≠ 0 ∧ m.csig ≤ 4095 then s.signalAdd m.vf m.csig (BitVec.ofNat 64 m.cval) else s
  (s.onLaunch l fun m => { m with live := false }).enlist

/-- LAUNCH_COMPLETION: the entry is formed, and written if the ring has room and none waits before it; else it is held (R363). -/
def State.finishLaunch (s : State) (l : Nat) : State :=
  if !s.ended l || (s.launch l).entry != [] then s
  else
    let v := (s.launch l).vf
    let s := s.onLaunch l fun m => { m with entry := m.completion s.cycle }
    if (s.vf v).held = [] ∧ (s.vf v).comp.room 1 then s.post l else s.onVf v fun f => { f with held := f.held ++ [l] }
def execLaunchCompletion (l : Nat) (s : State) : Out := s.dyore (s.finishLaunch l)

/-- Held entries are written while the ring has room. -/
def State.drainHeld (v : Nat) : List Nat → State → State
  | [], s => s
  | l :: t, s =>
    if (s.vf v).comp.room 1 then State.drainHeld v t ((s.onVf v fun f => { f with held := t }).post l) else s
/-- CHEAD_WRITE (R362, R363). -/
def execCheadWrite (v : Nat) (val : Word) (s : State) : Out :=
  let t := s.onVf v fun f => { f with comp := { f.comp with head := bitsOf val 31 0 } }
  s.dyore (State.drainHeld v (t.vf v).held t)

/-! ## Plug-ins (R307): a tenant's first call begins an invocation -/

/-- A tenant's pending launches, in the order they were read. -/
def State.pendingOf (s : State) (v : Nat) : List Launch :=
  (s.launches.filter fun l => l.2.live && l.2.vf == v && l.2.result.isNone && (l.2.stamp.isNone || l.2.blocksLeft != 0)).map (·.2)

/-- QLIST: up to 64 pending records, and their number in a0. A buffer that the grant of the plug-in's data does not hold is an access
fault: stopped for good. -/
def execQlist (v : Nat) (buf : Word) (s : State) : Out :=
  s.plugCall v fun p s =>
    let l := (s.pendingOf v).take 64
    if !p.owns buf.toNat (128 * l.length) then s.plugStop v
    else
      let s := { s with mem := memPut s.mem (fepBase + buf.toNat) (l.flatMap fun m : Launch => wordBytes m.words) }
      s.plugAnswer v (BitVec.ofNat 64 l.length)

/-- QORDER: the array of n ring positions, 4 bytes each (log 57), is read in the plug-in's data; 0, or −1 if a position is not pending or
there are more than 64; the order stands for the invocation until YIELD. An array outside the data is an access fault, as for QLIST. -/
def execQorder (v : Nat) (ps : Positions) (s : State) : Out :=
  s.plugCall v fun p s =>
    if 64 < ps.n then s.plugAnswer v (BitVec.allOnes 64)
    else if !p.owns ps.arr.toNat (4 * ps.n) then s.plugStop v
    else
      let qs := (List.range ps.n).map fun i => memNat s.mem (fepBase + ps.arr.toNat + 4 * i) 4
      if qs.all fun q => (s.pendingOf v).any fun l => l.position == q then
        (s.onPlug v fun p => { p with staged := p.staged ++ qs.filter fun q => !p.staged.contains q }).plugAnswer v 0
      else s.plugAnswer v (BitVec.allOnes 64)

/-- YIELD ends the invocation; its orders are in force ahead of earlier ones. -/
def execYield (v : Nat) (s : State) : Out :=
  s.plugCall v fun _ s =>
    ((s.onPlug v fun p => { p with start := none, staged := [], order := p.staged ++ p.order.filter fun q => !p.staged.contains q }).plugLeave
      v).enlist

/-- PLUGIN_TIME: microseconds since package reset. -/
def execPluginTime (v : Nat) (s : State) : Out :=
  s.plugCall v fun _ s => s.plugAnswer v (BitVec.ofNat 64 (s.time / microsecond))

/-- PLUGIN_TIMEOUT: an invocation of more than 50 µs is stopped and its orders are dropped. -/
def execPluginTimeout (v : Nat) (s : State) : Out :=
  s.dyore (match (s.vf v).plug.start with
    | some t => if 50 * microsecond < s.time - t then (s.onPlug v fun p => { p with start := none, staged := [] }).plugLeave v else s
    | none => s)

/-- PLUGIN_FAULT: stopped for good; the tenant's launches are taken in the default order. -/
def execPluginFault (v : Nat) (s : State) : Out :=
  s.dyore (s.plugStop v)

end Sys2Proof.Machine
end

