-- ==== Sys2Proof/Machine/Teams.lean ====
section
/-! DEFINITION. Teams' lives (R44, R52, R308, R309, R319, R321, R322, R331 to R335, R359, R360): co-start, waves, fault collection, stops,
pre-emption, save, discard, resume, scrub. -/

namespace Sys2Proof.Machine

open Sys2Proof

/-! ## Co-start (R24, R44, R118) -/

/-- Keys of the scratchpad and of the tiles of a core (R58). -/
def isScratch (c k : Nat) : Bool := decide (winKey c 0 0 ≤ k) && decide (k < winKey c 0 (2 ^ 18))
def isTile (c k : Nat) : Bool := decide (winKey c 1 0 ≤ k) && decide (k < winKey c 1 (2 ^ 13))
/-- Memory words leave the list: they read zero and are not poisoned. -/
def State.forget (s : State) (f : Nat → Bool) : State :=
  { s with mem := s.mem.filter fun p => !f p.1, poison := s.poison.filter fun w => !f (8 * w),
           parity := s.parity.filter fun w => !f (8 * w) }

/-- The firmware's load of a core (R118): scratch image, zeros behind it, bfmt; every word is full. Poison travels. A bank whose field of
the preamble is a reserved format of 9 to 15 gets that field as it stands (R62; log 58). -/
def State.loadScratch (s : State) (c : Nat) (m : Launch) : State :=
  let pre := partKey (s.vfPart m.vf) ((s.core c).abase.toNat + m.code)
  let img := pre + 64
  let bad := (List.range (m.scratch / 8)).filter fun i => s.poisoned (img + 8 * i)
  let b := s.cells (s.vfPart m.vf) img m.scratch
  let s := s.forget (isScratch c)
  let s := { s with mem := memPut s.mem (winKey c 0 0) b }
  let s := bad.foldl (fun s i => s.setPoison (winKey c 0 (8 * i)) true) s
  s.onCore c fun k => { k with bfmt := BitVec.ofNat 32 (leNat (s.cells (s.vfPart m.vf) pre 4)), empties := [] }

/-- A control thread as it starts (R44): a0 the launch index, a5 the argument block, tp, the block's entry. -/
def controlThread (uid n : Nat) (block arg pc : Word) : Ctx :=
  { Ctx.empty with uid := uid, pc := pc,
                   x := (((Vector.replicate 48 (0 : Word)).set! 10 block).set! 15 arg).set! 4 (BitVec.ofNat 64 (ident n 0)) }

/-- Bellows contexts a team holds: those whose two cores are its own (R297), as (cluster, context). -/
def Team.bellows (t : Team) : List (Nat × Nat) :=
  (t.cores.map (· / 16)).dedup.flatMap fun cl =>
    ((List.range 8).filter fun b => t.cores.contains (cl * 16 + 2 * b) && t.cores.contains (cl * 16 + 2 * b + 1)).map fun b => (cl, b)
def State.setBellows (s : State) (cl b : Nat) (v : Bellows) : State := s.onCluster cl fun k => { k with bellows := tabSet k.bellows b v }

/-- A team that begins starts with its control threads, its Bellows contexts at reset (R24, R44, R118, R297). -/
def State.startTeam (s : State) (t : Nat) : State :=
  let m := s.team t
  let l := s.launch m.launch
  let s := m.cores.foldl (fun s c => s.loadScratch c l) s
  let u := s.nextUid
  let s := (m.cores.zipIdx).foldl (fun s q => s.onCore q.1 fun k =>
    { k with ctxs := [(0, controlThread (u + q.2) q.1 m.block (l.d 4) (k.abase + BitVec.ofNat 64 l.entryOff))] }) s
  let s := m.bellows.foldl (fun s q => s.setBellows q.1 q.2 Bellows.fresh) s
  let s := { s with nextUid := u + m.cores.length, fams := s.fams.filter fun f => !m.cores.contains (f.1 / 256),
                    gangs := s.gangs.filter fun g => !m.cores.contains (4 * g.1) }
  let ids := (List.range m.cores.length).map (u + ·)
  let s := s.onTeam t fun m =>
    { m with born := s.time, bars := (List.range 16).map fun b => (32 + b, { members := ids, arrived := [], phase := 0 }) }
  s.onLaunch m.launch fun l => { l with firstCo := some (l.firstCo.getD s.time) }
/-- The threads of a resumed team take the SFU results that were held for them, but for one that an ECALL keeps parked (R230). -/
def State.flushTeam (s : State) (m : Team) : State :=
  m.cores.foldl (fun s c => (s.core c).ctxs.foldl (fun s (x : Nat × Ctx) =>
    let stays := fun r : SfuRes => x.2.st == .ecall && r.uid == x.2.uid
    ((x.2.sfuHeld.filter (!stays ·)).foldl (fun s r => s.sfuLand c x.1 r) s).onCtx c x.1 fun k => { k with sfuHeld := k.sfuHeld.filter stays }) s) s
/-- A team has been saved before: what is loaded is its image (R335). -/
def Team.resumes (m : Team) : Bool := m.seq != 0

/-- TEAM_COSTART: every core of a loading team clears stop in this one cycle; one that begins is loaded and starts its control
threads, one that resumes goes on (R24, R322, R335). -/
def State.costart (s : State) (t : Nat) : State :=
  let m := s.team t
  if m.phase ≠ .loading then s
  else
    let s := if m.resumes then s.flushTeam m else s.startTeam t
    let s := m.cores.foldl (fun s c => s.onCore c fun k => { k with stop := false, cstate := 2 }) s
    s.onTeam t fun m => { m with phase := .running, costart := s.cycle, lastWave := s.cycle, began := s.time, agreed := false }
def execTeamCostart (t : Nat) (s : State) : Out := s.dyore (s.costart t)

/-! ## Release (R322, R359) -/

/-- A core that no team holds any more: its threads and what they waited for are gone; its memories, slots, bank formats,
queues, counters and stop stand until a team is dispatched onto it (R309, R322). -/
def Core.released (c : Core) : Core :=
  { c with ctxs := [], bars := [], mbwait := [], sigq := [], copyq := [], copyRun := none, mat := [], sfuq := [], sfuPipe := [],
           cstate := 0, faulted := false, team := none, stalled := 0 }

/-- A request that stays with the saved state: on a word's wait list or behind one there, or at or behind mail for a full
mailbox (R93, R191). -/
def State.stays (s : State) (r : Req) : Bool := r.st == 2 || s.behindMail r || (r.st == 1 && s.behind r)

/-- What Grout, Bellows and the wired barriers of the team's clusters and courses hold for it goes (R251, R297). -/
def State.freeUnits (s : State) (m : Team) : State :=
  let mine := fun c => m.cores.contains c
  (m.cores.map (· / 16)).dedup.foldl (fun s cl =>
    let away := (s.cluster cl).groutq.head?.any fun e => mine e.fam.core
    (if away then s.unqueue (.grout cl) else s).onCluster cl fun k =>
      { k with groutq := k.groutq.filter (!mine ·.fam.core), groutWalk := k.groutWalk && !away,
               bellowsq := k.bellowsq.filter (!mine ·.fam.core) })
    { s with gangs := s.gangs.filter fun g => !mine (4 * g.1) }

/-- The team's cores are released; what its cores' wait lists still hold goes with them, and a holding team is scrubbed. -/
def State.freeTeam (s : State) (t : Nat) (ph : Phase) : State :=
  let m := s.team t
  let s := { s with reqs := s.reqs.filter fun r => !(r.team == some t && s.stays r),
                    resv := s.resv.filter fun r => !((s.holder r.uid).any fun h : Nat × Nat => m.cores.contains h.1) }
  let s := ((m.cores.foldl (fun s c => s.onCore c Core.released) s).freeUnits m).onTeam t fun m => { m with phase := ph, scrub := m.holding }
  if m.holding then s else s.preOver t

/-- HOLDING_SCRUB_COMPLETE (R359): a saved team holds again once it is resumed (log 59); scratchpads, tiles, CIM slots, registers, queues and mailboxes are zeros now. -/
def State.scrubbed (s : State) (cores : List Nat) : State :=
  let s := s.forget fun k => cores.any fun c => isScratch c k || isTile c k
  cores.foldl (fun s c => s.onCore c fun k => { Core.reset with flatch := k.flatch }) s
def execHoldingScrubComplete (t : Nat) (s : State) : Out :=
  s.dyore (if (s.team t).scrub then ((s.scrubbed (s.team t).cores).preOver t).onTeam t fun m => { m with scrub := false, holding := m.holding && m.phase == .saved } else s)

/-! ## Stops (R309, R319) -/

/-- CCTL_WRITE (R309): a write of stop. -/
def execCctlWrite (c : Nat) (val : Word) (s : State) : Out :=
  s.dyore (s.onCore c (·.setStop (val.getLsbD 0)))
/-- FLATCH_CLEAR (R308). -/
def execFlatchClear (c : Nat) (s : State) : Out := s.dyore (s.onCore c fun k => { k with flatch := [] })
/-- The stop of a fault reaches a core. -/
def Core.faultStop (c : Core) : Core := { c with stop := true, cstate := 3, faulted := true }
/-- STOP_ARRIVAL (R319): the barrier network carries a team's fault to another of its cores; what the core has queued meanwhile is
discarded. -/
def execStopArrival (c : Nat) (s : State) : Out :=
  .next (if (s.teamOf c).faulted then (s.onCore c Core.faultStop).discardAll [c] else s)

/-- Every request of the team is performed, every engine of it idle and every family that can be served by Grout served (R93, R269, R288,
R304, R333). -/
def State.drained (s : State) (t : Nat) : Bool :=
  let m := s.team t
  let mine := fun c => m.cores.contains c
  s.reqs.all (fun r => r.team != some t || s.stays r) &&
  s.fills.all (fun f => !((s.homeOf f.uid).any mine) && !(f.link.any fun l => mine l.fam.core)) &&
  s.migs.all (fun g => !mine g.toCore) && s.barq.all (fun b => !mine b.core) &&
  m.cores.all (fun c =>
    let k := s.core c
    k.copyq.isEmpty && k.copyRun.isNone && k.sfuq.isEmpty && k.sfuPipe.isEmpty && k.sigq.isEmpty &&
      k.mat.all (fun o => match o.gang with | some n => s.gangShort (c / 4) n | none => false) &&
      (List.range 4).all fun d => (k.outbound d).isEmpty || match peerOf c d with
        | some p => decide (8 ≤ ((s.core p).inbound ((d + 2) % 4)).length)
        | none => true) &&
  (m.cores.map (· / 16)).dedup.all fun cl =>
    let k := s.cluster cl
    k.amuq.all (fun r => !mine r.core) && k.iceq.all (fun r => !mine r.core) && !(k.iceRun.any fun r => mine r.core) &&
      k.bellowsq.all (fun b => !mine b.fam.core) && !(k.groutRun.any fun g => mine g.fam.core) &&
      k.groutq.all fun e => !mine e.fam.core || (s.famBusy e.fam && !m.ending)

/-! ## Waves (R52) -/

/-- Every thread of the team has halted, and none is still to start; Grout has served its families. -/
def State.allHalted (s : State) (m : Team) : Bool :=
  m.cores.all (fun c => (s.core c).ctxs.all fun x => x.2.uid == 0) && s.migs.all (fun g => !m.cores.contains g.toCore) &&
    s.fams.all fun f => !m.cores.contains (f.1 / 256) || !f.2.live || (f.2.over && f.2.grouted)
/-- Sent and received totals of a team. Mail held for a full mailbox of a team that is stopping, and what stands behind it in
its lane, counts as received: nothing pops that mailbox any more (log 33). -/
def State.totals (s : State) (t : Nat) : Nat × Nat :=
  let m := s.team t
  let held := if m.phase = .stopping then
      s.reqs.filter fun r => r.team == some t && (coreOf r.home).isSome && coreOf r.home != some r.core && s.behindMail r
    else []
  ((m.cores.map fun c => (s.core c).sent).sum, (m.cores.map fun c => (s.core c).recv).sum + held.length)

/-- Records of the team's cores by cycle, then by rank (R321). -/
def State.records (s : State) (m : Team) : List FRecord :=
  ((m.cores.map fun c => (s.core c).flatch).filter (· != [])).insertionSort fun a b => (a.getD 4 0).toNat ≤ (b.getD 4 0).toNat
/-- One record goes to the VF's fault ring, or is counted as dropped (R321, R363). -/
def State.putRecord (s : State) (l : Nat) (r : FRecord) : State :=
  let m := s.launch l
  let q := (s.vf m.vf).fault
  if m.written < 16 ∧ q.room 1 then
    ((s.hostPut (q.place q.tail 64) (wordBytes r)).onVf m.vf fun f => { f with fault := f.fault.step 1 }).onLaunch l fun m => { m with written := m.written + 1 }
  else s.onLaunch l fun m => { m with dropped := m.dropped + 1 }

/-- A team of a launch that has faulted elsewhere ends too (R321): one that runs is stopped as by a fault, with no record. -/
def State.endTeam (s : State) (t : Nat) : State :=
  let m := s.team t
  match m.phase with
  | .running | .stopping =>
    let s := m.cores.foldl (fun s c => s.onCore c Core.faultStop) s
    match m.cores with
    | c :: _ => s.faultTeam c
    | [] => s
  | .loading => s.freeTeam t .faulted
  | .saved => s.onTeam t fun m => { m with phase := .faulted }
  | _ => s
/-- A launch faults (R321): no further block, its other teams end, its records are written. -/
def State.faultLaunch (s : State) (l t : Nat) (rs : List FRecord) : State :=
  if (s.launch l).result.isSome then s
  else
    let s := s.onLaunch l fun m => { m with result := some (1, 0), ranges := [] }
    let s := rs.foldl (fun s r => s.putRecord l r) s
    s.teams.foldl (fun s q => if q.2.launch = l ∧ q.1 ≠ t then s.endTeam q.1 else s) s
/-- FAULT_COLLECT (R319, R321): Dyore collects the latches and releases the team. -/
def State.collect (s : State) (t : Nat) : State :=
  let m := s.team t
  let s := s.faultLaunch m.launch t (s.records m)
  (m.cores.foldl (fun s c => s.onCore c fun k => { k with flatch := [] }) s).freeTeam t .faulted

/-- A complete team: its block counts, its cores are released. -/
def State.complete (s : State) (t : Nat) : State :=
  let m := s.team t
  let n := (m.cores.map fun c => (s.core c).issued).sum
  (s.onLaunch m.launch fun l => { l with done := l.done + 1, issued := l.issued + n }).freeTeam t .complete

/-- QUIESCENCE_WAVE (R52): every 256 cycles from co-start the counters are summed; two waves that agree make a team quiescent
when its threads have halted or it has faulted. A team goes once none of its requests is unperformed (R93). -/
def State.wave (s : State) (t : Nat) : State :=
  let m := s.team t
  if !(m.phase == .running || m.phase == .stopping) || s.cycle < m.lastWave + 256 then s
  else
    let n := s.totals t
    let same := n.1 == n.2 && m.totals == some n
    let s := s.onTeam t fun m => { m with lastWave := m.lastWave + 256, totals := some n, agreed := same }
    if !same then s
    else if m.faulted then (if m.cores.all (fun c => (s.core c).stop) && s.drained t then s.collect t else s)
    else if s.allHalted m && s.drained t then s.complete t
    else s
def execQuiescenceWave (t : Nat) (s : State) : Out := s.dyore (s.wave t)

/-! ## Pre-emption (R331 to R333) -/

/-- Image bytes of a team's largest cluster part (R334). -/
def Team.imageBytes (m : Team) : Nat := 1024 + 320512 * (if m.shape = 0 then 1 else if m.shape = 1 then 4 else 16)
/-- A unit of the launch's shape would be free without the team. -/
def State.wouldFree (s : State) (l : Launch) (t : Nat) : Bool :=
  (s.unitsFor l).any fun u => u.any (s.team t).cores.contains &&
    u.all fun c => (s.team t).cores.contains c || !s.coreBusy c
/-- The global position of a team's origin (R330). -/
def Team.origin (m : Team) : Nat := (routerOf (m.cores.headD 0 / 16)).1 * 2 ^ 10 + (routerOf (m.cores.headD 0 / 16)).2 * 2 ^ 4 + m.cores.headD 0 % 16
/-- Team a is a better victim than team b: lower priority, started later, higher origin (R331). -/
def State.victimBefore (s : State) (a b : Nat) : Bool :=
  let pa := (s.launch (s.team a).launch).prio
  let pb := (s.launch (s.team b).launch).prio
  if pa ≠ pb then pa < pb
  else if (s.team a).born ≠ (s.team b).born then (s.team b).born < (s.team a).born
  else (s.team b).origin < (s.team a).origin
/-- The victim of a launch that finds no free unit. -/
def State.victimOf (s : State) (l : Launch) : Option Nat :=
  ((s.teams.filter fun t => t.2.phase == .running && !t.2.faulted && t.2.part == s.vfPart l.vf && decide ((s.launch t.2.launch).prio < l.prio) &&
    s.wouldFree l t.1).map (·.1)).foldl (fun b t => match b with
      | none => some t
      | some v => if s.victimBefore t v then some t else some v) none

/-- What the estimator decides. -/
inductive Verdict where
  | drain
  | discard
  | save
deriving DecidableEq, Repr

/-- The estimator of R332 in exact fractions: remaining units of the mean per block (`left` over `done`, none while no block is
complete), cores, image bytes, slack and E in units of `microsecond` (no slack: infinite). -/
def estimate (left : Option (Nat × Nat)) (cores bytes : Nat) (slack : Option Int) (restart : Bool) (e : Nat) : Verdict :=
  let unit := microsecond / 940
  let drains := match left with
    | none => false
    | some (n, k) => decide (n * 50000 ≤ bytes * 940 * cores * k) &&
        (match slack with | none => true | some x => decide ((n * unit : Int) ≤ x * (cores * k)))
  let saveLate := match slack with | none => false | some x => decide (x * 50000 < (bytes * microsecond : Int))
  if drains then .drain
  else if restart && (decide (e * 50000 ≤ bytes * microsecond) || saveLate) then .discard
  else .save

def State.verdict (s : State) (l : Launch) (t : Nat) : Verdict :=
  let m := s.team t
  let v := s.launch m.launch
  let i := (m.cores.map fun c => (s.core c).issued).sum
  let slack := if l.deadline = 0 then none else some ((l.deadline * microsecond + l.time : Nat) - (s.time : Int))
  estimate (if v.done = 0 then none else some (v.issued - i * v.done, v.done)) m.cores.length m.imageBytes slack v.restart
    (m.ran + (s.time - m.began))

/-- Stop is set on every core of a victim (R333); a discard drops what has not begun, as a fault does (R332). -/
def State.stopTeam (s : State) (t : Nat) (saving : Bool) : State :=
  let m := s.team t
  let s := m.cores.foldl (fun s c => s.onCore c fun k => { k with stop := true, cstate := 3 }) s
  let s := s.onTeam t fun m => { m with phase := .stopping, saving := saving, agreed := false }
  if saving then s else s.discardAll m.cores

/-- A pre-emption for the launch is in progress: its victim has not freed its cores (R331). -/
def Launch.preempting (l : Launch) : Bool := l.pre.isSome

/-- PREEMPTION_REQUEST (R331, R332). A victim quiescent by now is complete at its wave, and never saved (R322). -/
def State.preempt (s : State) (l : Nat) : State :=
  let m := s.launch l
  if !(m.live && m.stamp.isSome && m.result.isNone) || m.blocksLeft = 0 || m.preempting || (s.unitsFor m).any s.unitFree then s
  else match s.victimOf m with
    | none => s
    | some t =>
      let v := s.verdict m t
      let s := s.onLaunch l fun m => { m with pre := some t, preLeft := (m.preLeft ++ (s.team t).cores).dedup }
      match v with
      | .drain => s
      | .discard => s.stopTeam t false
      | .save => s.stopTeam t true
def execPreemptionRequest (l : Nat) (s : State) : Out := s.dyore (s.preempt l)

/-! ## Drain, save, discard (R93, R333, R334) -/

/-- A core as the image holds it: its views are empty, its slots are their records (R93, R251). -/
def State.imageCore (s : State) (m : Team) (c : Nat) : Core :=
  let k := s.core c
  { k with l1 := [], icache := [], wheel := (k.wheel + s.cycle - m.costart) % 16, team := none,
           slots := k.slots.map fun q => (q.1, { q.2 with els := [], exps := [], zq := [] }) }
/-- Byte i of a core's record (R334): scratchpad, full/empty map, poison map, tiles, and behind them the cells whose layout the spec does not
give, as free bytes (log 33). -/
def State.recordByte (s : State) (fresh c i : Nat) : Byte :=
  let map := fun (f : Nat → Bool) (k : Nat) => BitVec.ofNat 8 (((List.range 8).filter fun b => f (8 * k + b)).map (2 ^ ·)).sum
  if i < 262144 then memGet s.mem (winKey c 0 i)
  else if i < 266240 then map (fun n => s.isFull (winKey c 0 (8 * n))) (i - 262144)
  else if i < 270336 then map (fun n => s.poisoned (winKey c 0 (8 * n))) (i - 266240)
  else if i < 278528 then memGet s.mem (winKey c 1 (i - 270336))
  else (Config.freeWord (fresh + i)).truncate 8
/-- The part of an image for one cluster: its record of 1 KiB, then those of the team's cores in it by rank (R334). -/
def State.partBytes (s : State) (fresh : Nat) (cores : List Nat) : List Byte :=
  (List.range 1024).map (fun i => (Config.freeWord (fresh + i)).truncate 8) ++
    cores.flatMap fun c => (List.range 320512).map (s.recordByte fresh c)
/-- Pieces of n bytes; at most k. -/
def pieces (n : Nat) : Nat → List Byte → List (List Byte)
  | 0, _ => []
  | _ + 1, [] => []
  | k + 1, b => b.take n :: pieces n k (b.drop n)
/-- The nonce of a chunk: the save sequence, then the chunk's number (R360). -/
def nonceOf (seq i : Nat) : Nat := seq * 2 ^ 32 + i
/-- Chunks as they are sealed under a partition key, each with its tag (R360). -/
def sealChunks (key seq : Nat) (parts : List (List (List Byte))) : List (List (List Byte × BitVec 128)) :=
  let first := fun k => ((parts.take k).map List.length).sum
  parts.zipIdx.map fun p => p.1.zipIdx.map fun c =>
    let text := Config.gcmText key (nonceOf seq (first p.2 + c.2)) c.1
    (text, Config.gcmTag key (nonceOf seq (first p.2 + c.2)) text)
/-- Every tag of an image holds. -/
def chunksHold (key seq : Nat) (parts : List (List (List Byte × BitVec 128))) : Bool :=
  let first := fun k => ((parts.take k).map List.length).sum
  parts.zipIdx.all fun p => p.1.zipIdx.all fun c => c.1.2 == Config.gcmTag key (nonceOf seq (first p.2 + c.2)) c.1.1

/-- The image of a team (R334, R360): what a resume restores, and the sealed chunks in the pseudo-channels of its clusters. -/
def State.image (s : State) (t seq : Nat) : Image :=
  let m := s.team t
  let held := fun k => m.cores.any fun c => isScratch c k || isTile c k
  let cls := (m.cores.map (· / 16)).dedup
  { seq := seq, cores := m.cores.map fun c => (c, s.imageCore m c), mem := s.mem.filter fun p => held p.1,
    poison := s.poison.filter fun w => held (8 * w), parity := s.parity.filter fun w => held (8 * w),
    reqs := s.reqs.filter fun r => r.team == some t,
    fams := s.fams.filter fun f => m.cores.contains (f.1 / 256),
    bellows := (m.bellows.map (·.1)).dedup.map fun cl =>
      (cl, (m.bellows.filter (·.1 == cl)).map fun q => (q.2, s.bellows (cl * 16) q.2)),
    gangs := s.gangs.filter fun g => m.cores.contains (4 * g.1),
    grout := cls.map fun cl => (cl, (s.cluster cl).groutq.filter fun e => m.cores.contains e.fam.core),
    chunks := sealChunks (tabGet 0 s.partKeys m.part) seq (cls.map fun cl =>
      pieces 4096 2048 (s.partBytes s.fresh (m.cores.filter (· / 16 == cl)))) }

/-- SAVE_IMAGE_WRITE (R322, R334): the drained team's image is written under its save sequence, and its cores are released. -/
def State.saveImage (s : State) (t : Nat) : State :=
  let m := s.team t
  if !(m.phase == .stopping && m.saving && !m.faulted && m.agreed && s.drained t) then s
  else
    let seq := s.nextOrd
    let img := s.image t seq
    let s := { s with nextOrd := seq + 1, fresh := s.fresh + 320512, images := tabSet s.images t img, reqs := s.reqs.filter fun r => r.team != some t,
                      fams := s.fams.filter fun f => !m.cores.contains (f.1 / 256) }
    (s.onTeam t fun m => { m with seq := seq, ran := m.ran + (s.time - m.began) }).freeTeam t .saved
def execSaveImageWrite (t : Nat) (s : State) : Out := s.dyore (s.saveImage t)

/-- TEAM_DISCARD (R322, R332): the drained team is released; its block returns to the lowest end of its die's range. -/
def State.discardTeam (s : State) (t : Nat) : State :=
  let m := s.team t
  if !(m.phase == .stopping && !m.saving && !m.faulted && m.agreed && s.drained t) then s
  else
    let s := s.onLaunch m.launch fun l => { l with ranges := tabSet l.ranges m.die ((m.number, m.number + 1) :: l.range m.die) }
    s.freeTeam t .discarded
def execTeamDiscard (t : Nat) (s : State) : Out := s.dyore (s.discardTeam t)

/-! ## Resume (R251, R335, R360) -/

/-- Slot i of a core as its record loads it from the scratchpad (R238, R251). -/
def State.slotAgain (s : State) (c : Nat) (k : Core) (i : Nat) : Slot :=
  let rd := fun off n => (memBytes s.mem (winKey c 0 off) n).map (·.toNat)
  let q := k.slot i
  if q.size = 1 ∨ q.size = 2 then loadSlot q rd
  else if q.size = 3 then { loadSlot (k.slot (i - 1)) rd with size := 3 } else q
/-- Every non-empty slot is loaded again from its record, out of the restored scratchpad (R251). -/
def State.reloadSlots (s : State) (c : Nat) : State :=
  s.onCore c fun k => { k with slots := k.slots.map fun q => (q.1, s.slotAgain c k q.1) }
/-- No image. -/
def Image.none : Image := { seq := 0, cores := [], mem := [], poison := [], parity := [], reqs := [], fams := [], bellows := [], gangs := [], grout := [], chunks := [] }
/-- A saved thread goes on: one that was parked or walked attempts its unit again, and a service that was reading starts again (R164,
R333). -/
def Ctx.resumed (c : Ctx) : Ctx :=
  { c with st := if c.st = .parked ∨ c.st = .walk then .run else c.st, desc := if c.st = .ecall then c.desc.filter (·.upc != c.pc) else c.desc }

/-- No launch of higher priority, and no saved team before it, is offered its cores (R328, R335). -/
def State.mayResume (s : State) (t : Nat) : Bool :=
  let m := s.team t
  let p := (s.launch m.launch).prio
  s.waiting m &&
    !(s.launches.any fun l => s.canUse l.2 m.cores && (l.2.preFor m.cores || decide (p < l.2.prio))) &&
    !(s.teams.any fun q => q.1 != t && s.waiting q.2 && q.2.cores.any m.cores.contains &&
        (decide (p < (s.launch q.2.launch).prio) || ((s.launch q.2.launch).prio == p && decide (q.2.seq < m.seq))))

/-- The record of a save image that does not verify (R360): cause 0x13, value 0; the thread it names is free (log 7). -/
def State.imageRecord (s : State) (m : Team) : FRecord :=
  let w := Config.freeWord s.fresh
  faultRecord (bitsOf w 16 0) (bitsOf w 63 32) 0 0 false false false 0x13 0 0 m.block s.cycle

/-- Families that waited for Grout wait again, in their order (R304). -/
def State.regrout (s : State) (cl : Nat) (l : List GroutEntry) : State :=
  l.foldl (fun s e => State.onCluster { s with nextReq := s.nextReq + 1 } cl fun k =>
    { k with groutq := k.groutq ++ [{ e with id := s.nextReq, units := [], maps := [] }] }) s

/-- The image that stands for a team is one of an older save (R360). -/
def State.imageOld (s : State) (t seq : Nat) : State :=
  { s with images := s.images.map fun q => if q.1 = t ∧ seq < q.2.seq then (q.1, { q.2 with seq := seq }) else q }
/-- A chunk of an image in its pseudo-channel, and its tag, are others. -/
def State.imageChunk (s : State) (t k i : Nat) (b : List Byte) (tag : BitVec 128) : State :=
  { s with images := s.images.map fun q => if q.1 = t then (q.1, { q.2 with chunks := q.2.chunks.modify k (·.set i (b, tag)) }) else q }

/-- TEAM_RESUME (R335, R360): the team loads on its cores; the image is verified by its sequence and its tags, every record restored and the slots reloaded. TEAM_COSTART
clears stop. What its threads have outstanding counts no more (R93). -/
def State.resume (s : State) (t : Nat) : State :=
  let m := s.team t
  if !s.mayResume t then s
  else
    let g := tabGet Image.none s.images t
    if g.seq ≠ m.seq ∨ !chunksHold (tabGet 0 s.partKeys m.part) m.seq g.chunks then
      let s := State.faultLaunch { s with fresh := s.fresh + 1 } m.launch t [s.imageRecord m]
      s.onTeam t fun m => { m with phase := .faulted }
    else
      let s := (s.preEnds m.cores).forget fun k => m.cores.any fun c => isScratch c k || isTile c k
      let s := { s with mem := g.mem.foldl (fun a (p : Nat × Byte) => memSet a p.1 p.2) s.mem, poison := s.poison ++ g.poison, parity := s.parity ++ g.parity,
                        reqs := s.reqs ++ g.reqs.map (fun r : Req => { r with counted := false }),
                        fams := g.fams.foldl (fun a (f : Nat × Fam) => tabSet a f.1 f.2) s.fams,
                        gangs := g.gangs.foldl (fun a (f : Nat × List GangEntry) => tabSet a f.1 f.2) s.gangs, images := s.images.filter (·.1 != t) }
      let s := g.bellows.foldl (fun s q => q.2.foldl (fun s b => s.setBellows q.1 b.1 b.2) s) s
      let s := g.cores.foldl (fun s q => s.onCore q.1 fun _ =>
        { q.2 with team := some t, stop := true, cstate := 1, ctxs := q.2.ctxs.map fun (x : Nat × Ctx) => (x.1, x.2.resumed) }) s
      let s := m.cores.foldl (fun s c => s.reloadSlots c) s
      let s := g.grout.foldl (fun s (q : Nat × List GroutEntry) => s.regrout q.1 q.2) s
      s.onTeam t fun m => { m with phase := .loading }
def execTeamResume (t : Nat) (s : State) : Out := s.dyore (s.resume t)

end Sys2Proof.Machine
end

