-- ==== Sys2Proof/Machine/Services.lean ====
section
/-! DEFINITION. Dyore's services to a kernel (R164, R318), error counters, row reports and patrol scrub (R374, R375), and what the codes of
R371 find. -/

namespace Sys2Proof.Machine

open Sys2Proof

/-! ## Environment calls -/

/-- The service goes back to its thread: results in a0, the next unit (R164). A register the handler banks hold is none of these. -/
def State.answer (s : State) (n x : Nat) (v : Word) : State :=
  (s.sfuFlush n x).onCtx n x fun c => { (c.setReg 10 v) with st := .run, pc := c.wnpc }
/-- A service of a thread parked by ECALL whose a0 names it. -/
def State.service (s : State) (n x number : Nat) (k : Ctx → State) : Out :=
  let c := s.ctxAt n x
  s.dyore (if c.uid ≠ 0 ∧ c.st = .ecall ∧ (c.reg 10).toNat = number then k c else s)

/-- NOP: 0. A number that names no service is answered here too, with −1 (R318). -/
def execNop (n x : Nat) (s : State) : Out :=
  s.service n x (if 3 < ((s.ctxAt n x).reg 10).toNat then ((s.ctxAt n x).reg 10).toNat else 0) fun c =>
    s.answer n x (if 3 < (c.reg 10).toNat then BitVec.allOnes 64 else 0)

/-- SIGNAL: adds a2 to signal a1 of the VF; −1 for 0 and above 4,095. -/
def execSignal (n x : Nat) (s : State) : Out :=
  s.service n x 2 fun c =>
    let k := (c.reg 11).toNat
    if k = 0 ∨ 4095 < k then s.answer n x (BitVec.allOnes 64)
    else (s.signalAdd (s.teamOf n).vf k (c.reg 12)).answer n x 0

/-- TIME: microseconds since the first co-start of any team of the launch. -/
def execTime (n x : Nat) (s : State) : Out :=
  s.service n x 3 fun _ =>
    let t := (s.launch (s.teamOf n).launch).firstCo.getD s.time
    s.answer n x (BitVec.ofNat 64 ((s.time - t) / microsecond))

/-- The dwords that hold n bytes from an address. -/
def wordsOver (a n : Nat) : List Nat := if n = 0 then [] else (List.range ((a % 8 + n + 7) / 8)).map fun i => a / 8 * 8 + 8 * i
/-- What DEBUG has read so far for the thread of a context. -/
def Ctx.debugRead (c : Ctx) : Option DescRead := c.desc.find? fun d => d.upc == c.pc && d.level == c.level
def Ctx.setDebug (c : Ctx) (d : DescRead) : Ctx := { c with desc := c.desc.map fun e => if e.upc = c.pc ∧ e.level = c.level then d else e }
def Ctx.dropDebug (c : Ctx) : Ctx := { c with desc := c.desc.filter fun d => !(d.upc == c.pc && d.level == c.level) }
/-- Dword i of the range is read at its home, as a load would (R90, R318); a poisoned one is trap 0x0F with its address. -/
def State.debugWord (s : State) (n x : Nat) (c : Ctx) (d : DescRead) (i w : Nat) (p : Phys) : State :=
  let s := match p.home with
    | .slice q j => s.touch q j (p.key / 128) 0 0 0 (if p.stream then 1 else 0)
    | _ => s
  if s.poisoned p.key then s.threadFault n x 0x0F (BitVec.ofNat 64 w) c.pc
  else s.onCtx n x fun c => c.setDebug { d with words := d.words.set i (some (BitVec.ofNat 64 (leNat (s.homeBytes p.home p.key 0 w 8)), false)) }

/-- DEBUG: copies a2 bytes from global address a1 to the debug ring, once the thread's requests are performed (R318, R363). Each step of the
service reads one more dword, in any order; the copy follows the last. -/
def State.debugCopy (s : State) (n x : Nat) (c : Ctx) : State :=
  let a := (c.reg 11).toNat
  let len := (c.reg 12).toNat
  let vf := (s.teamOf n).vf
  let cl := n / 16
  let ws := wordsOver a len
  if 256 < len ∨ 2 ^ 49 ≤ a ∨ 2 ^ 49 < a + len then s.answer n x (BitVec.allOnes 64)
  else if s.pending c.uid 2 4 s.nextReq then s
  else match missing (s.gathered cl vf [] (pageStarts [(a, len, false)])) vf (pageStarts [(a, len, false)]) with
    | some (m, _) => if s.walks.any (fun w => w.who == .debug n x c.uid) ∨ s.fq.any (fun e => e.waiters.any (·.1 == .debug n x c.uid)) then s
        else s.startWalk cl vf m false (.debug n x c.uid)
    | none =>
      match ws.find? fun w => (s.translate cl vf w).any (·.slot != 0), c.debugRead with
      | some w, _ => s.threadFault n x 0x13 (BitVec.ofNat 64 w) c.pc
      | none, none =>
        s.onCtx n x fun c => { c with desc := c.desc ++ [{ upc := c.pc, level := c.level, words := List.replicate ws.length none }] }
      | none, some d =>
        let left := (List.range ws.length).filter fun i => (d.words.getD i none).isNone
        match left[s.anyOf left.length]? with
        | some i =>
          match s.translate cl vf (ws.getD i 0) with
          | some p => State.debugWord { s with fresh := s.fresh + 1 } n x c d i (ws.getD i 0) p
          | none => s
        | none =>
          let s := s.onCtx n x Ctx.dropDebug
          let r := (s.vf vf).dbg
          if !r.room len then s.answer n x 0
          else
            let b := ((wordBytes ((List.range ws.length).map d.word)).drop (a % 8)).take len
            let s := (b.zipIdx).foldl (fun s q => s.hostPut (r.place (r.tail + q.2) 1) [q.1]) s
            (s.onVf vf fun f => { f with dbg := f.dbg.step len }).answer n x (BitVec.ofNat 64 len)
def execDebug (n x : Nat) (s : State) : Out := s.service n x 1 fun c => s.debugCopy n x c

/-! ## Row reports and patrol scrub -/

/-- ERRS(d, k) counts one more event: the high half for an uncorrectable one; each half saturates (R374). -/
def State.countErr (s : State) (d k : Nat) (unc : Bool) : State :=
  let w := tabGet 0 s.errs (8 * d + k)
  let w := if unc then (if bitsOf w 63 32 = 2 ^ 32 - 1 then w else w + 0x100000000)
           else (if bitsOf w 31 0 = 2 ^ 32 - 1 then w else w + 1)
  { s with errs := tabSet s.errs (8 * d + k) w }

/-- A row meeting the condition of R375 enters the report queue of its die; a full queue drops and counts it. -/
def State.reportRow (s : State) (d p frame : Nat) (unc : Bool) : State :=
  let q := tabGet [] s.rrow d
  if q.length < 64 then
    { s with rrow := tabSet s.rrow d (q ++ [(BitVec.ofNat 64 (frame * 2 ^ 16 + p * 16 + if unc then 1 else 0), BitVec.ofNat 64 s.cycle)]) }
  else s.countErr d 0 true

/-- The die of a frame's burst: that of its home slice. -/
def State.burstDie (s : State) (p ppa : Nat) : Nat :=
  match s.homeSlice p ppa with
  | .slice _ i => (s.partClusters p).getD i 0 / 128
  | _ => 0
/-- An HBM read event at burst b of a frame: a row is reported for an uncorrectable one, or for a second corrected one within
24 hours of its first; a frame outside every partition is not. -/
def State.rowEvent (s : State) (p frame b : Nat) (unc : Bool) : State :=
  let ppa := frame * 2 ^ 16 + 64 * b
  let d := s.burstDie p ppa
  let s := s.countErr d 0 unc
  let inPart := (tabGet 0 s.parts p).getLsbD 63 && decide (ppa < s.capacity p)
  let row := (p * 2 ^ 33 + frame) * 64 + b / 16
  if !inPart then s
  else if unc then s.reportRow d p frame true
  else match s.rows.find? (·.1 == row) with
    | some t =>
      if s.time - t.2 ≤ 24 * 3600 * 1000000 * microsecond then s.reportRow d p frame false
      else { s with rows := tabSet s.rows row s.time }
    | none => { s with rows := tabSet s.rows row s.time }

/-- What a read of one burst finds: a corrected one is written back, an uncorrectable one leaves its 8 words poisoned (R371, R372). -/
def State.burstRead (s : State) (p frame b : Nat) (res : ReadCheck) : State :=
  match res with
  | .good => s
  | .corrected => s.rowEvent p frame b false
  | .uncorrectable =>
    (List.range 8).foldl (fun s i => s.setPoison (partKey p (frame * 2 ^ 16 + 64 * b) + 8 * i) true) (s.rowEvent p frame b true)
/-- PATROL_SCRUB (R374): reads one burst. It raises no trap. -/
def execPatrolScrub (p frame b : Nat) (res : ReadCheck) (s : State) : Out := s.dyore (s.burstRead p frame b res)

/-! ## What the codes of R371 find: an event counts as it occurs (log 37) -/

/-- A word under SECDED: corrected, or poisoned. -/
def State.secded (s : State) (d k key : Nat) (ok : Bool) : State := if ok then s.countErr d k false else (s.setPoison key true).countErr d k true
/-- A word of a slice: a clean line is dropped and refetched, a dirty one is under SECDED. -/
def State.sliceUpset (s : State) (p ppa : Nat) (ok : Bool) : State :=
  let d := s.burstDie p ppa
  match s.homeSlice p ppa with
  | .slice _ i =>
    match (s.slice p i).find? (·.line == partKey p ppa / 128) with
    | none => s
    | some l =>
      if !l.dirty then (s.setSlice p i ((s.slice p i).filter (· ≠ l))).countErr d 1 false else s.secded d 1 (partKey p ppa) ok
  | _ => s
/-- An upset reaches its stage (R371): its outcome, and its count at index k of the die (R374). -/
def State.upset (s : State) : Upset → State
  | .burst p ppa ok => s.burstRead p (ppa / 2 ^ 16) (ppa % 2 ^ 16 / 64) (if ok then .corrected else .uncorrectable)
  | .slice p ppa ok => s.sliceUpset p ppa ok
  | .scratch c off ok => if off < 2 ^ 18 then s.secded (c / 2048) 3 (winKey c 0 off) ok else s
  | .reg c x r => (s.onCtx c x fun k => { k with bad := k.bad ||| (1#48 <<< r) }).countErr (c / 2048) 4 true
  | .tile c off =>
    if off < 2 ^ 13 then State.countErr { s with parity := s.parity.insert (winKey c 1 off / 8) } (c / 2048) 4 true else s
  | .cim c i => (s.onCore c fun k => { k with slots := tabSet k.slots i (s.slotAgain c k i) }).countErr (c / 2048) 5 false
  | .icache c l => (s.onCore c fun k => { k with icache := k.icache.filter (·.1 != l) }).countErr (c / 2048) 6 false
  | .l1 c l => (s.onCore c fun k => { k with l1 := k.l1.filter (·.1 != l) }).countErr (c / 2048) 6 false

end Sys2Proof.Machine
end

