-- ==== Sys2Proof/Machine/Registers.lean ====
section
/-! DEFINITION. Registers of the I/O die and of control regions (R306, R308, R325, R338, R347, R348, R355, R362, R374 to R380), partitions,
binding, the image region, marks (R72), boot (R379). -/

namespace Sys2Proof.Machine

open Sys2Proof

/-! ## KREL (R72) -/

/-- Every line of every slice of a partition loses its keep mark and its priority. -/
def State.dropMarks (s : State) (p : Nat) : State :=
  { s with l2 := s.l2.map fun q => if q.1 / 512 = p then (q.1, q.2.map fun l => { l with keep := false, prio := 0 }) else q }
def execKrel (p : Nat) (val : Word) (s : State) : Out := s.dyore (if val.getLsbD 0 then s.dropMarks p else s)

/-! ## The image region (R325) -/

/-- VFs bound to a partition. -/
def State.vfsOf (s : State) (p : Nat) : List Nat := (List.range 256).filter fun v => s.bound v && s.vfPart v == p
/-- A VF has a launch that has not completed; a record that a doorbell has submitted is one, read or not (R323). -/
def State.vfBusy (s : State) (v : Nat) : Bool :=
  s.launches.any (fun l => l.2.live && l.2.vf == v) || (s.vf v).rings.any fun r => r.2.head != r.2.bell

/-- A frame that Dyore may allocate, from a wished one on: it allocates no retired one (R375). -/
def State.frameFor (s : State) (p f : Nat) : Nat → Nat
  | 0 => f
  | k + 1 => if s.retired.contains (p, f) then State.frameFor s p ((f + 1) % (s.capacity p / 2 ^ 16)) k else f
/-- The table an entry points to, or a new one: Dyore takes a frame for it and clears it (the frame is its choice; log 7). -/
def State.tableAt (s : State) (p key : Nat) : State × Nat :=
  let e : Word := BitVec.ofNat 64 (memNat s.mem key 8)
  if e.getLsbD 0 && !e.getLsbD 1 then (s, bitsOf e 59 16 * 2 ^ 16)
  else
    let f := s.frameFor p ((Config.freeWord s.fresh).toNat % (s.capacity p / 2 ^ 16)) s.retired.length
    let s := { s with fresh := s.fresh + 1 }
    let s := s.forget fun k => decide (partKey p (f * 2 ^ 16) ≤ k) && decide (k < partKey p (f * 2 ^ 16 + 2 ^ 14))
    (s.putBytes key (leBytes 8 (f * 2 ^ 16 + 1)), f * 2 ^ 16)
/-- A page is mapped, readable and writable, in the tables of a VF (R339, R340). -/
def State.mapPage (s : State) (v va frame : Nat) : State :=
  let p := s.vfPart v
  let key := fun (table l : Nat) => partKey p (table + 8 * (va / 2 ^ levelBits l % 2048))
  let (s, t2) := s.tableAt p (key (bitsOf (tabGet 0 s.troot v) 48 16 * 2 ^ 16) 1)
  let (s, t3) := s.tableAt p (key t2 2)
  s.putBytes (key t3 3) (leBytes 8 (frame * 2 ^ 16 + 7))
/-- The region of its partition is mapped for a VF, at an address the scheduler chooses and IMGVA reports (R325, R362), in the tables its
root names once the root is enabled. -/
def State.mapRegion (s : State) (v : Nat) : State :=
  let p := s.vfPart v
  let n := s.imageSize p / 2 ^ 16
  if n = 0 then s.onVf v fun f => { f with imgva := 0 }
  else
    let old := bitsOf (s.vf v).imgva 48 16
    let page := if old = 0 ∨ 2 ^ 33 < old + n then 1 + (Config.freeWord s.fresh).toNat % (2 ^ 33 - 1 - n) else old
    let s := State.onVf { s with fresh := s.fresh + 1 } v fun f => { f with imgva := BitVec.ofNat 64 (page * 2 ^ 16) }
    if !(tabGet 0 s.troot v).getLsbD 63 then s
    else (List.range n).foldl (fun s i => s.mapPage v ((page + i) * 2 ^ 16) (s.imageBase p / 2 ^ 16 + i)) s

/-- IMGR_WRITE: ignored past the capacity, or while a launch of a bound VF has not completed. -/
def State.imgrWrite (s : State) (p : Nat) (val : Word) : State :=
  let w := val &&& 0xFFFFFF7FFFFF0000#64
  if s.capacity p < bitsOf w 38 16 * 2 ^ 16 + bitsOf w 63 40 * 2 ^ 16 ∨ (s.vfsOf p).any s.vfBusy then s
  else (s.vfsOf p).foldl State.mapRegion { s with imgr := tabSet s.imgr p w }
def execImgrWrite (p : Nat) (val : Word) (s : State) : Out := s.dyore (s.imgrWrite p val)

/-! ## Partitions (R345, R347) -/

/-- PART fields: valid, err and state beside the rectangle. -/
def partWord (valid err : Bool) (st rect : Nat) : Word :=
  BitVec.ofNat 64 ((if valid then 2 ^ 63 else 0) + (if err then 2 ^ 62 else 0) + st * 2 ^ 60 + rect % 2 ^ 22)
def State.partState (s : State) (p : Nat) : Nat := bitsOf (tabGet 0 s.parts p) 61 60
/-- The rectangle fields of PART without the reserved bits. -/
def rectOf (w : Word) : Nat := bitsOf w 21 11 * 2 ^ 11 + bitsOf w 8 0
def State.setPart (s : State) (p : Nat) (w : Word) : State := { s with parts := tabSet s.parts p w }
/-- A refused write changes nothing and sets err. -/
def State.refusePart (s : State) (p : Nat) : State := s.setPart p (tabGet 0 s.parts p ||| (1#64 <<< 62))
/-- The rectangle of a PART word lies in the mesh. -/
def rectFits (w : Word) : Bool :=
  let a := bitsOf w 21 16
  let b := bitsOf w 15 11
  decide (1 ≤ a) && decide (1 ≤ b) && decide (b ≤ 16) && decide (bitsOf w 8 4 + a ≤ 32) && decide (bitsOf w 3 0 + b ≤ 16)
/-- Two rectangles share a cluster. -/
def rectsMeet (u w : Word) : Bool :=
  decide (bitsOf u 8 4 < bitsOf w 8 4 + bitsOf w 21 16) && decide (bitsOf w 8 4 < bitsOf u 8 4 + bitsOf u 21 16) &&
    decide (bitsOf u 3 0 < bitsOf w 3 0 + bitsOf w 15 11) && decide (bitsOf w 3 0 < bitsOf u 3 0 + bitsOf u 15 11)
/-- A partition's physical space, line marks and key slots are gone: its memory reads zero. -/
def State.zeroPart (s : State) (p : Nat) : State :=
  { s.forget (fun k => k / 2 ^ 48 == p) with
    l2 := s.l2.filter fun q => q.1 / 512 != p, keySlots := s.keySlots.filter fun q => q.1 / 256 != p }

/-- PART_CREATE: accepted when state is 0 and the rectangle lies in the mesh and meets no valid or scrubbing partition. The SEP
makes the partition key (R360). -/
def State.createPart (s : State) (p : Nat) (val : Word) : State :=
  let clash := s.parts.any fun q => (q.2.getLsbD 63 || bitsOf q.2 61 60 == 1) && rectsMeet val q.2
  if !val.getLsbD 63 || (tabGet 0 s.parts p).getLsbD 63 || s.partState p ≠ 0 || !rectFits val || clash || 63 < p then s.refusePart p
  else
    { (s.zeroPart p).setPart p (partWord true false 2 (rectOf val)) with
      imgr := tabSet s.imgr p 0, fresh := s.fresh + 1, partKeys := tabSet s.partKeys p s.fresh }
def execPartCreate (p : Nat) (val : Word) (s : State) : Out := s.dyore (s.createPart p val)

/-- PART_DESTROY: the rectangle stays as it was written (log 60). Accepted when no VF is bound; the SEP erases the key slots and the partition key, and the scrub begins. -/
def State.destroyPart (s : State) (p : Nat) : State :=
  let w := tabGet 0 s.parts p
  if !w.getLsbD 63 || !(s.vfsOf p).isEmpty then s.refusePart p
  else
    { s.setPart p (partWord false false 1 (rectOf w)) with
      keySlots := s.keySlots.filter fun q => q.1 / 256 != p, partKeys := s.partKeys.filter fun q => q.1 != p }
def execPartDestroy (p : Nat) (s : State) : Out := s.dyore (s.destroyPart p)

/-- PART_SCRUB_COMPLETE: channels, slices, scratchpads, tiles, slots, registers, queues and mailboxes are zeros; state returns to 0. The
rectangle's fields and err stand as they were (log 60). -/
def State.scrubPart (s : State) (p : Nat) : State :=
  if s.partState p ≠ 1 then s
  else
    let cls := s.partClusters p
    let s := (s.zeroPart p).scrubbed (cls.flatMap fun cl => (List.range 16).map (cl * 16 + ·))
    let s := cls.foldl (fun s cl => s.onCluster cl fun _ => Cluster.reset) s
    s.setPart p (tabGet 0 s.parts p &&& ~~~ (3#64 <<< 60))
def execPartScrubComplete (p : Nat) (s : State) : Out := s.dyore (s.scrubPart p)

/-! ## Binding (R348) -/

/-- VBIND_WRITE: ignored while the VF has a launch, or for a partition that is not ready. It clears the VF's root enable; the
last VF unbound from a partition releases its marks (R72). -/
def State.bindVf (s : State) (v : Nat) (val : Word) : State :=
  let b := val.getLsbD 63
  let p := bitsOf val 5 0
  let old := s.vfPart v
  if s.vfBusy v ∨ (b ∧ s.partState p ≠ 2) ∨ 255 < v then s
  else
    let was := s.bound v
    let s := { s with vbind := tabSet s.vbind v (BitVec.ofNat 64 ((if b then 2 ^ 63 else 0) + p)),
                      troot := tabSet s.troot v (BitVec.ofNat 64 (bitsOf (tabGet 0 s.troot v) 48 16 * 2 ^ 16 + p)) }
    let s := if was && (s.vfsOf old).isEmpty then s.dropMarks old else s
    if b then s.mapRegion v else s.onVf v fun f => { f with imgva := 0 }
def execVbindWrite (v : Nat) (val : Word) (s : State) : Out := s.dyore (s.bindVf v val)

/-! ## Register writes (R6): fields that are RW or W1C take the value; addresses not listed ignore it -/

/-- An access that an FEP sends: an ordered request on the I/O die's lane (R306). -/
def State.fepSend (s : State) (f : Nat) (h : Home) (key : Nat) (op : ReqOp) : State :=
  s.addReq { id := s.nextReq, uid := 0, cls := 1, scope := 0, counted := false, born := s.cycle, core := ioDie, ctx := f, home := h, addr := key,
             va := 0, upc := 0, fam := none, slot := 0, stream := false, st := 0, came := 0, arr := 0, acq := 0, noFill := false, begun := false,
             team := none, tries := 0, bad := false, rtries := 0, rbad := false, op := op }
/-- Where an FEP's window aperture leads: every region of every core, with no team check (R58, R60, R306, R308). -/
def fepWindow (a n : Nat) : Option (Nat × Nat × Nat) :=
  match classify 0 (BitVec.ofNat 64 (0xFFFFF * 2 ^ 44 + a)) with
  | .window c r off => if fepExtent r < off + n then none else some (c, r, off)
  | _ => none
/-- A store of n bytes by an FEP through its window aperture. -/
def State.windowWrite (s : State) (f a n : Nat) (val : Word) : State :=
  match fepWindow a n with
  | some (c, r, off) =>
    s.fepSend f (.core c) (winKey c r off) (if r = 3 ∨ r = 5 then .control r off val else if r = 4 then .mail val else .store (leBytes n val.toNat))
  | none => s
/-- The partition that FEP f's physical aperture addresses (R338). -/
def State.fepPart (s : State) (f : Nat) : Nat := bitsOf (tabGet 0 s.fepsel f) 5 0
/-- A store of FEP f through its physical aperture: raw bytes of the partition FEPSEL names (R306, R337, R357). -/
def State.physWrite (s : State) (f pa n : Nat) (val : Word) : State :=
  if s.capacity (s.fepPart f) ≤ pa then s
  else s.fepSend f (s.homeSlice (s.fepPart f) pa) (partKey (s.fepPart f) pa) (.store (leBytes n val.toNat))

/-- A write of FRES (R342): act 1 replays an entry of a die's queue, 2 fails it; held while a store of an FEP to device memory is not
performed (R338). -/
def State.fresWrite (s : State) (val : Word) : State :=
  let d := bitsOf val 3 2
  let e := bitsOf val 15 4
  match (if bitsOf val 1 0 = 1 then execFresReplay d e s else if bitsOf val 1 0 = 2 then execFresFail d e s else .next s) with
  | .next t => t
  | _ => s

/-- A register of the FEP map. -/
def State.fepWrite (s : State) (a : Nat) (val : Word) : State :=
  let at_ := fun (lo n stride : Nat) => if lo ≤ a ∧ a < lo + n * stride then some ((a - lo) / stride, (a - lo) % stride / 8) else none
  match at_ 0x1200000 256 8, at_ 0x1201000 8 8, at_ 0x1340000 4 16, at_ 0x1240000 4 64, at_ 0x1700000 4096 32 with
    | some (v, _), _, _, _, _ =>
      let s := { s with troot := tabSet s.troot v ((val &&& 0x8001FFFFFFFF0000#64) ||| (tabGet 0 s.troot v &&& 0x3F#64)) }
      if s.bound v then s.mapRegion v else s
    | none, some (g, _), _, _, _ => { s with fepsel := tabSet s.fepsel g (val &&& 0x3F#64) }
    | none, none, some (d, 1), _, _ => { s with fqHead := tabSet s.fqHead d (bitsOf val 11 0) }
    | none, none, none, some (d, k), _ => { s with errs := tabSet s.errs (8 * d + k) (tabGet 0 s.errs (8 * d + k) &&& ~~~ val) }
    | none, none, none, none, some (n, i) => { s with pkgt := tabSet s.pkgt n ((tabGet [0, 0, 0, 0] s.pkgt n).set i val) }
    | _, _, _, _, _ =>
      if a = 0x1250000 then
        let s := { s with snapctl := (s.snapctl &&& ~~~ 0xFFFFFFFF0000000F#64) ||| (val &&& 0xFFFFFFFF0000000F#64) }
        if val.getLsbD 4 then s.fire 2 else s
      else if a = 0x1202000 then s.tinvWrite val
      else if a = 0x1340100 then s.fresWrite val
      else if a = 0x1250008 then s.arm (val.getLsbD 0)
      else s

/-- A store of n bytes by FEP f (R305, R306): its own trap, or the effect at the place. -/
def State.fepStore (s : State) (f a n : Nat) (val : Word) : State :=
  match (s.fep f).fault a n .write, fepPlace a with
  | some c, _ => s.fepTrap f (BitVec.ofNat 64 c) (BitVec.ofNat 64 a)
  | none, some (.sram o) => s.putBytes (fepBase + o) (leBytes n val.toNat)
  | none, some (.register r) => s.fepWrite r val
  | none, some (.window w) => s.windowWrite f w n val
  | none, some (.memory pa) => s.physWrite f pa n val
  | none, none => s

/-- A ring of BAR0 that the scheduler writes: base, configuration and head (CHEAD has its own step). -/
def OutRing.write (r : OutRing) (i : Nat) (val : Word) (lo hi : Nat) : OutRing :=
  if i = 0 then (if cfgEn r.cfg then r else { r with base := val })
  else if i = 1 then { r with cfg := cfgWrite r.cfg val lo hi }
  else if i = 3 then { r with head := bitsOf val 31 0 }
  else r
/-- A register of VF v's BAR0 (R362, R363). A completion ring that a write enables or enlarges takes the entries held for it. -/
def State.barWrite (s : State) (v a : Nat) (val : Word) : State :=
  if a % 8 ≠ 0 then s
  else if 0x100 ≤ a ∧ a < 0x180 then
    s.onVf v fun f => f.onRing ((a - 0x100) / 16) fun q =>
      if a % 16 = 0 then (if cfgEn q.cfg then q else { q with base := val &&& ~~~ 127#64 }) else { q with cfg := cfgWrite q.cfg val 4 12 }
  else if 0x200 ≤ a ∧ a < 0x218 then
    let t := s.onVf v fun f => { f with comp := f.comp.write ((a - 0x200) / 8) val 4 12 }
    State.drainHeld v (t.vf v).held t
  else if 0x220 ≤ a ∧ a < 0x240 then s.onVf v fun f => { f with fault := f.fault.write ((a - 0x220) / 8) val 4 8 }
  else if 0x240 ≤ a ∧ a < 0x260 then s.onVf v fun f => { f with dbg := f.dbg.write ((a - 0x240) / 8) val 8 15 }
  else if 0x8010 ≤ a ∧ a < 0x18000 ∧ a % 16 = 8 then
    s.setSignal v ((a - 0x8000) / 16) ((s.signal v ((a - 0x8000) / 16)).1, val)
  else s
/-- A register of the PF's BAR0: PWR.lim takes 400 to 2,200 (R380). -/
def State.pfWrite (s : State) (a : Nat) (val : Word) : State :=
  let lim := bitsOf val 15 0
  if a = 0x10 ∧ 400 ≤ lim ∧ lim ≤ 2200 then { s with pwr := (s.pwr &&& ~~~ 0xFFFF#64) ||| BitVec.ofNat 64 lim } else s

/-- REGISTER_WRITE. -/
def execRegisterWrite (sp : RegSpace) (addr : Nat) (val : Word) (s : State) : Out :=
  s.dyore (match sp with
    | .fep f => s.fepStore f addr 8 val
    | .bar v => s.barWrite v addr val
    | .pf => s.pfWrite addr val)

/-! ## What the registers read as -/

/-- The dwords of a fault-queue entry (R342). -/
def FqEntry.words (e : FqEntry) : List Word :=
  [BitVec.ofNat 64 (e.page * 2 ^ 16 + e.vf * 256 + e.level * 64 + (if e.bad then 32 else 0) + if e.wr then 16 else 0),
   BitVec.ofNat 64 (Nat.min e.waiters.length (2 ^ 32 - 1) * 2 ^ 32 + 1)]
/-- KSLOT(p, k) (R355). -/
def KeySlot.words (k : KeySlot) : List Word :=
  if k.valid && !k.revoking then
    [k.model, BitVec.ofNat 64 (2 ^ 63 + k.digs.length * 2 ^ 49 + k.base)]
  else [0, 0]
/-- The snapshot of core n as its 16 dwords (R377). -/
def State.snapshot (s : State) (n : Nat) : List Word :=
  match s.snap with
  | none => List.replicate 16 0
  | some p => BitVec.ofNat 64 p.cycle :: (tabGet (List.replicate 11 0) p.cores n ++ List.replicate 4 0)

/-- A slice as an access under no key slot finds it: a line under one has been written back and dropped (R357). -/
def State.plainAt (s : State) (p pa : Nat) : State :=
  match s.homeSlice p pa with
  | .slice q i => s.dropOther q i (partKey p pa / 128) 0
  | _ => s
/-- What FEP f reads through its physical aperture: bytes of the partition FEPSEL names (R337). -/
def State.physRead (s : State) (f pa : Nat) : Word :=
  let p := s.fepPart f
  if s.capacity p ≤ pa then 0 else BitVec.ofNat 64 (leNat ((s.plainAt p pa).cells p (partKey p pa) 8))
/-- What it reads through its window aperture. -/
def State.windowRead (s : State) (a : Nat) : Word :=
  match fepWindow a 8 with
  | some (c, r, off) => s.coreDword c r off
  | none => 0

/-- A register of the FEP map as it reads. -/
def State.fepRegister (s : State) (a : Nat) : Word :=
  let at_ := fun (lo n stride : Nat) => if lo ≤ a ∧ a < lo + n * stride then some ((a - lo) / stride, (a - lo) % stride / 8) else none
  ([(at_ 0x1200000 256 8).map fun q => tabGet 0 s.troot q.1, (at_ 0x1201000 8 8).map fun q => tabGet 0 s.fepsel q.1,
      (at_ 0x1202000 1 8).map fun _ => s.tinv, (at_ 0x1203000 256 8).map fun q => tabGet 0 s.vbind q.1,
      (at_ 0x1210000 64 8).map fun q => tabGet 0 s.parts q.1, (at_ 0x1211000 64 8).map fun q => tabGet 0 s.imgr q.1,
      (at_ 0x1240000 4 64).map fun q => tabGet 0 s.errs (8 * q.1 + q.2),
      (at_ 0x1241000 4 0x400).map fun q => match (tabGet [] s.rrow q.1)[q.2 / 2]? with
        | some r => if q.2 % 2 = 0 then r.1 else r.2
        | none => 0,
      (at_ 0x1250000 1 8).map fun _ => s.snapctl, (at_ 0x1250008 1 8).map fun _ => if s.armed then 1 else 0,
      (at_ 0x1300000 4 0x10000).map fun q => match s.fq.find? fun e => e.die == q.1 && e.index == some (q.2 / 2) with
        | some e => e.words.getD (q.2 % 2) 0
        | none => 0,
      (at_ 0x1340000 4 16).map fun q => BitVec.ofNat 64 (if q.2 = 0 then (s.fqIndex q.1).getD (tabGet 0 s.fqTail q.1) else tabGet 0 s.fqHead q.1),
      (at_ 0x1400000 8192 128).map fun q => (s.snapshot q.1).getD q.2 0,
      (at_ 0x1600000 64 0x1000).map fun q => (s.keySlot q.1 (q.2 / 2)).words.getD (q.2 % 2) 0,
      (at_ 0x1700000 4096 32).map fun q => (tabGet [0, 0, 0, 0] s.pkgt q.1).getD q.2 0] : List (Option Word)).findSome? id |>.getD 0

/-- A dword of a register space as an aligned read gives it at the moment it is performed; WO registers and addresses not listed read 0, and so does the place of a
load that raises a trap of the FEP instead. -/
def State.regRead (s : State) (sp : RegSpace) (a : Nat) : Word :=
  match sp with
  | .fep f =>
    match (s.fep f).fault a 8 .read, fepPlace a with
    | none, some (.sram o) => BitVec.ofNat 64 (memNat s.mem (fepBase + o) 8)
    | none, some (.register r) => s.fepRegister r
    | none, some (.window w) => s.windowRead w
    | none, some (.memory pa) => s.physRead f pa
    | _, _ => 0
  | .bar v =>
    let f := s.vf v
    let out := fun (r : OutRing) (i : Nat) => if i = 0 then r.base else if i = 1 then r.cfg else BitVec.ofNat 64 (if i = 2 then r.tail else r.head)
    if 0x100 ≤ a ∧ a < 0x180 then (if a % 16 = 0 then (f.ring ((a - 0x100) / 16)).base else (f.ring ((a - 0x100) / 16)).cfg)
    else if 0x200 ≤ a ∧ a < 0x220 then out f.comp ((a - 0x200) / 8)
    else if 0x220 ≤ a ∧ a < 0x240 then out f.fault ((a - 0x220) / 8)
    else if 0x240 ≤ a ∧ a < 0x260 then out f.dbg ((a - 0x240) / 8)
    else if a = 0x300 then f.hfver
    else if a = 0x308 then f.imgva
    else if 0x8010 ≤ a ∧ a < 0x18000 then
      (if a % 16 = 0 then (s.signal v ((a - 0x8000) / 16)).1 else (s.signal v ((a - 0x8000) / 16)).2)
    else 0
  | .pf => if a = 0 then s.bootst else if a = 0x10 ∧ s.up then s.pwr else 0

/-! ## Boot (R378, R379) -/

/-- n bytes of a flash, and a number of them. -/
def bytesOf (fl : Nat → Byte) (a n : Nat) : List Byte := (List.range n).map fun i => fl (a + i)
def natOf (fl : Nat → Byte) (a n : Nat) : Nat := leNat (bytesOf fl a n)
/-- The image that an entry of the configuration block names: 16 SEP firmware, 32 Dyore, 48 certificate chain. -/
def imageOf (fl : Nat → Byte) (e : Nat) : List Byte := bytesOf fl (natOf fl e 8) (natOf fl (e + 8) 8)
/-- The configuration block of a flash verifies (R378): magic, version, reserved bytes, the signature over bytes 0 to 127 and the images it
names. -/
def blockOk (fl : Nat → Byte) (signs : List Byte → List Byte → Bool) : Bool :=
  natOf fl 0 8 == 0x47464E4352415642 && natOf fl 8 4 == 1 && natOf fl 68 60 == 0 &&
    signs (bytesOf fl 0 128 ++ imageOf fl 16 ++ imageOf fl 32 ++ imageOf fl 48) (bytesOf fl 128 96)
/-- The package's own flash. -/
def flashBytes (a n : Nat) : List Byte := bytesOf Config.flash a n
def flashNat (a n : Nat) : Nat := natOf Config.flash a n
def flashImage (e : Nat) : List Byte := imageOf Config.flash e
def blockGood : Bool := blockOk Config.flash Config.signs
/-- What the block sets: the power limit at boot, and the port of the package transport, each with its default. -/
def bootLimit : Nat := if flashNat 66 2 = 0 then 2200 else flashNat 66 2
def bootPort : Nat := if flashNat 64 2 = 0 then 19290 else flashNat 64 2
/-- The BOOTST code of the first step that fails, 0 for none: 1, 4, 5 and 6 as the rails, the trainings and the memories do (`failAt`), 2 if
the block does not verify, 3 if Dyore does not fit the SRAM or `failAt` says so. -/
def bootCode (failAt : Nat) : Nat :=
  if failAt = 1 then 1
  else if !blockGood then 2
  else if failAt = 3 ∨ 2 ^ 24 < (flashImage 32).length then 3
  else if 4 ≤ failAt ∧ failAt ≤ 6 then failAt else 0

/-- A key of host memory or of the front ends' SRAM, which step 6 does not clear. -/
def stands (k : Nat) : Bool := decide (hostBase ≤ k) || (decide (fepBase ≤ k) && decide (k < fepBase + 2 ^ 24))

/-- BOOT: at power good the steps run up to the first that fails. Step 2 reads the block, step 4 loads Dyore into the SRAM (at 0: log 73),
step 5 stops every core, step 6 writes zeros everywhere but in host memory and the SRAM; at the end the front ends run (R305). -/
def State.boot (s : State) (failAt : Nat) : State :=
  let k := bootCode failAt
  let past := fun n => k == 0 || decide (n < k)
  let s : State := if past 2 then { s with pwr := BitVec.ofNat 64 bootLimit, udp := BitVec.ofNat 16 bootPort } else s
  let s := if past 3 then { s with mem := memPut s.mem fepBase (flashImage 32) } else s
  let s := if past 4 then { s with cores := s.cores.map fun c => (c.1, { c.2 with stop := true }) } else s
  let s := if past 5 then
      { s with mem := s.mem.filter fun p => stands p.1, poison := s.poison.filter fun w => stands (8 * w), parity := [],
               cores := [], clusters := [], l2 := [], parts := [], vbind := [], keySlots := [] }
    else s
  if k ≠ 0 then { s with bootst := BitVec.ofNat 64 k }
  else { s with bootst := 0x80, feps := (List.range 8).map fun f => (f, Fep.booted (s.fresh + 8 * f)), fresh := s.fresh + 64 }
def execBoot (failAt : Nat) (s : State) : Out := .next (if s.bootst = 0 then s.boot failAt else s)

/-! ## A front end's next unit (R305, R306; log 43) -/

/-- A load of n bytes: the SRAM and the registers answer at once, a window or device memory by a request on the I/O die's lane. -/
def State.fepLoad (s : State) (f n : Nat) (sext : Bool) (d a : Nat) : State :=
  let give := fun (v : Nat) => s.onFep f (·.put d (extended n sext v))
  let ask := fun (h : Home) (key r off : Nat) => (s.fepSend f h key (.look n sext d r off)).onFep f fun q => { q with waits := true }
  match fepPlace a with
  | some (.sram o) => give (memNat s.mem (fepBase + o) n)
  | some (.register r) => give (s.fepRegister r).toNat
  | some (.window w) =>
    match fepWindow w n with
    | some (c, r, off) => ask (.core c) (winKey c r off) r off
    | none => give 0
  | some (.memory pa) =>
    if s.capacity (s.fepPart f) ≤ pa then give 0 else ask (s.homeSlice (s.fepPart f) pa) (partKey (s.fepPart f) pa) 0 0
  | none => s
/-- FEP f goes on by one unit, as its program has it; none while a load of it is under way. -/
def State.fepAct (s : State) (f : Nat) (a : FepAct) : Option State :=
  let q := s.fep f
  let goto_ := fun (s : State) (pc : Word) => s.onFep f fun q => { q with pc := pc }
  if !s.up then some s
  else if q.waits then none
  else match q.fault q.pc.toNat 2 .exec, a with
    | _, .trap c v => some (s.fepTrap f c v)
    | some c, _ => some (s.fepTrap f (BitVec.ofNat 64 c) q.pc)
    | none, .unit d v pc => some (goto_ (s.onFep f (·.put d v)) pc)
    | none, .load n sext d a pc =>
      match q.fault a n .read with
      | some c => some (s.fepTrap f (BitVec.ofNat 64 c) (BitVec.ofNat 64 a))
      | none => some (goto_ (s.fepLoad f n sext d a) pc)
    | none, .store n a v pc =>
      match q.fault a n .write with
      | some c => some (s.fepTrap f (BitVec.ofNat 64 c) (BitVec.ofNat 64 a))
      | none => some (goto_ (s.fepStore f a n v) pc)
    | none, .csr d no v pc =>
      if q.mayCsr no v.isSome then
        some (s.onFep f fun q => { ((match v with | some w => q.set no w | none => q).put d (q.get no)) with pc := pc })
      else some (s.fepTrap f 2 0)
    | none, .mret => some (if q.mode = .machine then s.onFep f Fep.mret else s.fepTrap f 2 0)
    | none, .sret => some (if q.mode = .user then s.fepTrap f 2 0 else s.onFep f Fep.sret)

/-! ## Retirement of a frame (R375) -/

/-- Every line of a partition's slices in a range of physical addresses is written back where it is dirty and sealed, and dropped. -/
def State.flushLines (s : State) (p lo n : Nat) : State :=
  let inside := fun l : SLine => decide (partKey p lo ≤ l.line * 128) && decide (l.line * 128 < partKey p (lo + n))
  let s := s.l2.foldl (fun s q => if q.1 / 512 = p then (q.2.filter inside).foldl (fun s l => s.writeBack p l) s else s) s
  { s with l2 := s.l2.map fun q => if q.1 / 512 = p then (q.1, q.2.filter (!inside ·)) else q }
/-- n bytes of a partition are copied to another place of it; poisoned words stay poisoned (R74, R375). -/
def State.copyFrame (s : State) (p src dst n : Nat) : State :=
  let s := (s.flushLines p src n).flushLines p dst n
  let from_ := fun k => decide (partKey p src ≤ k) && decide (k < partKey p (src + n))
  let cells := s.mem.filter fun c => from_ c.1
  let bad := s.poison.filter fun w => from_ (8 * w)
  let s := s.forget fun k => decide (partKey p dst ≤ k) && decide (k < partKey p (dst + n))
  { s with mem := cells.foldl (fun m c => memSet m (c.1 - partKey p src + partKey p dst) c.2) s.mem,
           poison := s.poison ++ bad.map fun w => (8 * w - partKey p src + partKey p dst) / 8 }
/-- The leaves of a level that map a frame, below a table at a level of at most k more: each leaf's place and its virtual address. -/
def State.leavesOf (s : State) (p level frame : Nat) : Nat → Nat → Nat → Nat → List (Nat × Nat)
  | 0, _, _, _ => []
  | k + 1, l, table, va =>
    (List.range 2048).flatMap fun i =>
      let key := partKey p (table + 8 * i)
      let e : Word := BitVec.ofNat 64 (memNat s.mem key 8)
      let a := va + i * 2 ^ levelBits l
      if !e.getLsbD 0 || s.malformed p l e then []
      else if e.getLsbD 1 then (if l = level ∧ bitsOf e 59 16 = frame ∧ !e.getLsbD 4 then [(key, a)] else [])
      else State.leavesOf s p level frame k (l + 1) (bitsOf e 59 16 * 2 ^ 16) a
/-- Dyore retires the page of a level that begins at a frame: it allocates it no more, copies it to a new one, rewrites the entries that map
it for the VFs of the partition, and invalidates them one by one. -/
def State.retireFrame (s : State) (p level frame new : Nat) : State :=
  let n := 2 ^ levelBits level
  let fs := (List.range (n / 2 ^ 16)).map fun i => (p, frame + i)
  let s := State.copyFrame { s with retired := s.retired ++ fs } p (frame * 2 ^ 16) (new * 2 ^ 16) n
  let maps := (s.vfsOf p).flatMap fun v =>
    (s.leavesOf p level frame 3 1 (bitsOf (tabGet 0 s.troot v) 48 16 * 2 ^ 16) 0).map fun q => (v, q)
  let s := maps.foldl (fun s q =>
    let e := memNat s.mem q.2.1 8
    s.putBytes q.2.1 (leBytes 8 (e - frame * 2 ^ 16 + new * 2 ^ 16))) s
  { s with inputs := maps.map (fun q => .invalidate q.1 (q.2.2 / 2 ^ 16)) ++ s.inputs }

/-! ## What else the outside world does -/

/-- The next of it, if it need not wait. -/
def State.takeInput (s : State) : Option State :=
  match s.inputs with
  | [] => none
  | i :: t =>
    let r : State := { s with inputs := t }
    match i with
    | .fep f a => r.fepAct f a
    | .grant v code data heads => some (r.grantPlug v code data heads)
    | .call v no => some (r.callOther v no)
    | .imageOld t seq => some (r.imageOld t seq)
    | .imageChunk t k i b tag => some (r.imageChunk t k i b tag)
    | .retire p l f n => some (if r.up then r.retireFrame p l f n else r)
    | .invalidate v page =>
      if r.tinv.getLsbD 63 || !r.fepQuiet then none else some (r.tinvWrite (BitVec.ofNat 64 (page % 2 ^ 33 * 2 ^ 16 + v % 256 * 256 + 1)))

end Sys2Proof.Machine
end

