-- ==== Sys2Proof/Machine/Scalar.lean ====
section
/-! DEFINITION. Integer instructions, branches and jumps, compressed and long forms, guards, ECALL, EBREAK, WFI
(R149 to R166). Loads and stores stand in Access.lean. -/

namespace Sys2Proof.Machine

open Sys2Proof

/-- 1 or 0. -/
def flag (b : Bool) : Word := if b then 1 else 0
/-- The low 32 bits, sign-extended (R149). -/
def sext32 (v : Word) : Word := (v.extractLsb' 0 32).signExtend 64
/-- A shift amount of 0 to 63. -/
def sh6 (v : Word) : Nat := (v.extractLsb' 0 6).toNat

/-! ## Register forms (R150) -/

def execAdd (d a b : XReg) (s : State) : Out := s.alu [a, b] d (s.rd a + s.rd b)
def execSub (d a b : XReg) (s : State) : Out := s.alu [a, b] d (s.rd a - s.rd b)
def execSll (d a b : XReg) (s : State) : Out := s.alu [a, b] d (s.rd a <<< sh6 (s.rd b))
def execSlt (d a b : XReg) (s : State) : Out := s.alu [a, b] d (flag ((s.rd a).slt (s.rd b)))
def execSltu (d a b : XReg) (s : State) : Out := s.alu [a, b] d (flag ((s.rd a).ult (s.rd b)))
def execXor (d a b : XReg) (s : State) : Out := s.alu [a, b] d (s.rd a ^^^ s.rd b)
def execSrl (d a b : XReg) (s : State) : Out := s.alu [a, b] d (s.rd a >>> sh6 (s.rd b))
def execSra (d a b : XReg) (s : State) : Out := s.alu [a, b] d ((s.rd a).sshiftRight (sh6 (s.rd b)))
def execOr (d a b : XReg) (s : State) : Out := s.alu [a, b] d (s.rd a ||| s.rd b)
def execAnd (d a b : XReg) (s : State) : Out := s.alu [a, b] d (s.rd a &&& s.rd b)
def execAndn (d a b : XReg) (s : State) : Out := s.put [a, b] d (s.rd a &&& ~~~ s.rd b)
def execOrn (d a b : XReg) (s : State) : Out := s.put [a, b] d (s.rd a ||| ~~~ s.rd b)
def execMin (d a b : XReg) (s : State) : Out := s.put [a, b] d (if (s.rd b).slt (s.rd a) then s.rd b else s.rd a)
def execMinu (d a b : XReg) (s : State) : Out := s.put [a, b] d (if (s.rd b).ult (s.rd a) then s.rd b else s.rd a)
def execMax (d a b : XReg) (s : State) : Out := s.put [a, b] d (if (s.rd a).slt (s.rd b) then s.rd b else s.rd a)
def execMaxu (d a b : XReg) (s : State) : Out := s.put [a, b] d (if (s.rd a).ult (s.rd b) then s.rd b else s.rd a)
def execSh1add (d a b : XReg) (s : State) : Out := s.put [a, b] d ((s.rd a <<< 1) + s.rd b)
def execSh2add (d a b : XReg) (s : State) : Out := s.put [a, b] d ((s.rd a <<< 2) + s.rd b)
def execSh3add (d a b : XReg) (s : State) : Out := s.put [a, b] d ((s.rd a <<< 3) + s.rd b)
def execMul (d a b : XReg) (s : State) : Out := s.put [a, b] d (s.rd a * s.rd b)
/-- The high half of the signed product. -/
def execMulh (d a b : XReg) (s : State) : Out :=
  s.put [a, b] d (BitVec.ofInt 64 ((s.rd a).toInt * (s.rd b).toInt / 2 ^ 64))
/-- The high half of the unsigned product. -/
def execMulhu (d a b : XReg) (s : State) : Out :=
  s.put [a, b] d (BitVec.ofNat 64 ((s.rd a).toNat * (s.rd b).toNat / 2 ^ 64))

/-! ## Division (R151) -/

/-- Signed division rounding toward zero. -/
def divS (a b : Word) : Word := if b = 0 then BitVec.allOnes 64 else a.sdiv b
def divU (a b : Word) : Word := if b = 0 then BitVec.allOnes 64 else a / b
def remS (a b : Word) : Word := if b = 0 then a else a.srem b
def remU (a b : Word) : Word := if b = 0 then a else a % b

def execDiv (d a b : XReg) (s : State) : Out := s.put [a, b] d (divS (s.rd a) (s.rd b))
def execDivu (d a b : XReg) (s : State) : Out := s.put [a, b] d (divU (s.rd a) (s.rd b))
def execRem (d a b : XReg) (s : State) : Out := s.put [a, b] d (remS (s.rd a) (s.rd b))
def execRemu (d a b : XReg) (s : State) : Out := s.put [a, b] d (remU (s.rd a) (s.rd b))

/-! ## Immediate forms (R150) -/

def execAddi (d a : XReg) (i : BitVec 12) (s : State) : Out := s.alu [a] d (s.rd a + immI i)
def execSlti (d a : XReg) (i : BitVec 12) (s : State) : Out := s.alu [a] d (flag ((s.rd a).slt (immI i)))
def execSltiu (d a : XReg) (i : BitVec 12) (s : State) : Out := s.alu [a] d (flag ((s.rd a).ult (immI i)))
def execXori (d a : XReg) (i : BitVec 12) (s : State) : Out := s.alu [a] d (s.rd a ^^^ immI i)
def execOri (d a : XReg) (i : BitVec 12) (s : State) : Out := s.alu [a] d (s.rd a ||| immI i)
def execAndi (d a : XReg) (i : BitVec 12) (s : State) : Out := s.alu [a] d (s.rd a &&& immI i)
def execSlli (d a : XReg) (n : BitVec 6) (s : State) : Out := s.alu [a] d (s.rd a <<< n.toNat)
def execSrli (d a : XReg) (n : BitVec 6) (s : State) : Out := s.alu [a] d (s.rd a >>> n.toNat)
def execSrai (d a : XReg) (n : BitVec 6) (s : State) : Out := s.alu [a] d ((s.rd a).sshiftRight n.toNat)

/-- Leading zeros among the n low bits. -/
def leadZeros (v : Word) : Nat → Nat
  | 0 => 0
  | n + 1 => if v.getLsbD n then 0 else 1 + leadZeros v n
/-- Trailing zeros from bit 64 − n upward. -/
def trailZeros (v : Word) : Nat → Nat
  | 0 => 0
  | n + 1 => if v.getLsbD (63 - n) then 0 else 1 + trailZeros v n
/-- Ones among the n low bits. -/
def ones (v : Word) : Nat → Nat
  | 0 => 0
  | n + 1 => (if v.getLsbD n then 1 else 0) + ones v n

def execClz (d a : XReg) (s : State) : Out := s.put [a] d (BitVec.ofNat 64 (leadZeros (s.rd a) 64))
def execCtz (d a : XReg) (s : State) : Out := s.put [a] d (BitVec.ofNat 64 (trailZeros (s.rd a) 64))
def execCpop (d a : XReg) (s : State) : Out := s.put [a] d (BitVec.ofNat 64 (ones (s.rd a) 64))
def execAddw (d a b : XReg) (s : State) : Out := s.alu [a, b] d (sext32 (s.rd a + s.rd b))
def execSubw (d a b : XReg) (s : State) : Out := s.alu [a, b] d (sext32 (s.rd a - s.rd b))
def execAddiw (d a : XReg) (i : BitVec 12) (s : State) : Out := s.alu [a] d (sext32 (s.rd a + immI i))
def execSlliw (d a : XReg) (n : BitVec 5) (s : State) : Out := s.alu [a] d (sext32 (s.rd a <<< n.toNat))
def execSrliw (d a : XReg) (n : BitVec 5) (s : State) : Out :=
  s.alu [a] d (((s.rd a).extractLsb' 0 32 >>> n.toNat).signExtend 64)
def execSraiw (d a : XReg) (n : BitVec 5) (s : State) : Out :=
  s.alu [a] d ((((s.rd a).extractLsb' 0 32).sshiftRight n.toNat).signExtend 64)
def execLui (d : XReg) (i : BitVec 20) (s : State) : Out := s.alu [] d (immU i)
/-- The PC is the address of the instruction itself, after a prefix (R153). -/
def execAuipc (d : XReg) (i : BitVec 20) (s : State) : Out := s.alu [] d (s.iss.ipc + immU i)

/-! ## Branches and jumps (R153) -/

/-- A branch writes no register: x0 takes its link. -/
def State.branch (s : State) (a b : XReg) (taken : Bool) (off : Word) : Out :=
  s.jump [a, b] 0 taken (s.iss.ipc + off)

def execBeq (a b : XReg) (i : BitVec 12) (s : State) : Out := s.branch a b (s.rd a == s.rd b) (immB i)
def execBne (a b : XReg) (i : BitVec 12) (s : State) : Out := s.branch a b (s.rd a != s.rd b) (immB i)
def execBlt (a b : XReg) (i : BitVec 12) (s : State) : Out := s.branch a b ((s.rd a).slt (s.rd b)) (immB i)
def execBge (a b : XReg) (i : BitVec 12) (s : State) : Out := s.branch a b (!(s.rd a).slt (s.rd b)) (immB i)
def execBltu (a b : XReg) (i : BitVec 12) (s : State) : Out := s.branch a b ((s.rd a).ult (s.rd b)) (immB i)
def execBgeu (a b : XReg) (i : BitVec 12) (s : State) : Out := s.branch a b (!(s.rd a).ult (s.rd b)) (immB i)
def execJal (d : XReg) (i : BitVec 20) (s : State) : Out := s.jump [] d true (s.iss.ipc + immJ i)
def execJalr (d a : XReg) (i : BitVec 12) (s : State) : Out := s.jump [a] d true ((s.rd a + immI i) &&& ~~~ 1#64)

/-! ## Compressed forms (R154): each executes as its expansion; a zero immediate or shift amount is a HINT where RV64C makes it one
(R139) -/

/-- x8 to x15 of a 3-bit field (R131). -/
def cReg (r : BitVec 3) : XReg := 1#1 ++ r
/-- A sign-extended 6-bit immediate as the 12-bit immediate of the expansion. -/
def cImm (i : BitVec 6) : BitVec 12 := i.signExtend 12

def execCAddi4spn (d : BitVec 3) (i : BitVec 8) (s : State) : Out := execAddi (cReg d) 2 (0#2 ++ i ++ 0#2) s
def execCNop (s : State) : Out := execAddi 0 0 0 s
def execCAddi (d : XReg) (i : BitVec 6) (s : State) : Out := if i = 0 then .next s.retire else execAddi d d (cImm i) s
def execCAddiw (d : XReg) (i : BitVec 6) (s : State) : Out := execAddiw d d (cImm i) s
def execCLi (d : XReg) (i : BitVec 6) (s : State) : Out := execAddi d 0 (cImm i) s
def execCAddi16sp (i : BitVec 6) (s : State) : Out := execAddi 2 2 ((i ++ 0#4).signExtend 12) s
def execCLui (d : XReg) (i : BitVec 6) (s : State) : Out := execLui d (i.signExtend 20) s
def execCSrli (d : BitVec 3) (i : BitVec 6) (s : State) : Out := if i = 0 then .next s.retire else execSrli (cReg d) (cReg d) i s
def execCSrai (d : BitVec 3) (i : BitVec 6) (s : State) : Out := if i = 0 then .next s.retire else execSrai (cReg d) (cReg d) i s
def execCAndi (d : BitVec 3) (i : BitVec 6) (s : State) : Out := execAndi (cReg d) (cReg d) (cImm i) s
def execCSub (d b : BitVec 3) (s : State) : Out := execSub (cReg d) (cReg d) (cReg b) s
def execCXor (d b : BitVec 3) (s : State) : Out := execXor (cReg d) (cReg d) (cReg b) s
def execCOr (d b : BitVec 3) (s : State) : Out := execOr (cReg d) (cReg d) (cReg b) s
def execCAnd (d b : BitVec 3) (s : State) : Out := execAnd (cReg d) (cReg d) (cReg b) s
def execCSubw (d b : BitVec 3) (s : State) : Out := execSubw (cReg d) (cReg d) (cReg b) s
def execCAddw (d b : BitVec 3) (s : State) : Out := execAddw (cReg d) (cReg d) (cReg b) s
def execCJ (i : BitVec 11) (s : State) : Out := execJal 0 (i.signExtend 20) s
def execCBeqz (a : BitVec 3) (i : BitVec 8) (s : State) : Out := execBeq (cReg a) 0 (i.signExtend 12) s
def execCBnez (a : BitVec 3) (i : BitVec 8) (s : State) : Out := execBne (cReg a) 0 (i.signExtend 12) s
def execCSlli (d : XReg) (i : BitVec 6) (s : State) : Out := if i = 0 then .next s.retire else execSlli d d i s
def execCJr (a : XReg) (s : State) : Out := execJalr 0 a 0 s
def execCJalr (a : XReg) (s : State) : Out := execJalr 1 a 0 s
def execCMv (d b : XReg) (s : State) : Out := execAdd d 0 b s
def execCAdd (d b : XReg) (s : State) : Out := execAdd d d b s

/-! ## Long literal forms (R157) -/

def execLi32 (d : XReg) (i : BitVec 32) (s : State) : Out := s.put [] d (i.signExtend 64)
def execLih (d : XReg) (i : BitVec 32) (s : State) : Out := s.put [d] d (i ++ (s.rd d).extractLsb' 0 32)
def execAddl (d : XReg) (i : BitVec 32) (s : State) : Out := s.put [d] d (s.rd d + i.signExtend 64)
def execAndl (d : XReg) (i : BitVec 32) (s : State) : Out := s.put [d] d (s.rd d &&& i.signExtend 64)
def execFli (d : XReg) (i : BitVec 32) (s : State) : Out := s.put [] d (i.signExtend 64)

/-! ## Guards (R159 to R161) -/

def execGcmpEq (d : GReg) (a b : XReg) (s : State) : Out := s.alter [a, b] (·.setGuard d (s.rd a == s.rd b))
def execGcmpNe (d : GReg) (a b : XReg) (s : State) : Out := s.alter [a, b] (·.setGuard d (s.rd a != s.rd b))
def execGcmpLt (d : GReg) (a b : XReg) (s : State) : Out := s.alter [a, b] (·.setGuard d ((s.rd a).slt (s.rd b)))
def execGcmpGe (d : GReg) (a b : XReg) (s : State) : Out := s.alter [a, b] (·.setGuard d (!(s.rd a).slt (s.rd b)))
def execGcmpLtu (d : GReg) (a b : XReg) (s : State) : Out := s.alter [a, b] (·.setGuard d ((s.rd a).ult (s.rd b)))
def execGcmpGeu (d : GReg) (a b : XReg) (s : State) : Out := s.alter [a, b] (·.setGuard d (!(s.rd a).ult (s.rd b)))
def execGand (d a b : GReg) (s : State) : Out := s.alter [] (·.setGuard d (s.cur.guard a && s.cur.guard b))
def execGor (d a b : GReg) (s : State) : Out := s.alter [] (·.setGuard d (s.cur.guard a || s.cur.guard b))
def execGxor (d a b : GReg) (s : State) : Out := s.alter [] (·.setGuard d (s.cur.guard a != s.cur.guard b))
def execGandn (d a b : GReg) (s : State) : Out := s.alter [] (·.setGuard d (s.cur.guard a && !s.cur.guard b))
def execGtox (d : XReg) (s : State) : Out := s.put [] d (s.cur.guards.zeroExtend 64)
def execGfromx (a : XReg) (s : State) : Out := s.alter [a] fun c => { c with g := (s.rd a).extractLsb' 0 8 ||| 1#8 }

/-! ## Environment, breakpoint, wait (R144, R164 to R166) -/

/-- ECALL parks its thread (cause 0x11) whatever its a-registers name; Dyore serves it and resumes it (R164, R318). -/
def execEcall (s : State) : Out := s.trapOut 0x11 0
/-- WFI retires with no effect. -/
def execWfi (s : State) : Out := .next s.retire
/-- A unit that does not decode raises its decode trap (R144); `bytes` is the record value: the unit's bytes, or for 0x07
its code-arena offset (R311). -/
def execUndefinedUnit (code : BitVec 8) (bytes : Word) (s : State) : Out :=
  State.trapOut { s with iss := { s.iss with bits := bytes } } code.toNat bytes

end Sys2Proof.Machine
end

