-- ==== Sys2Proof/Machine/Security.lean ====
section
/-! DEFINITION. The SEP's SPDM responder (R350, R351), key slots (R353, R354), lintel packets (R365) and the package transport
(R368, R369). -/

namespace Sys2Proof.Machine

open Sys2Proof

/-! ## SPDM (R350): answers are (tag, bytes) pairs; number 256 is the physical function -/

def State.onSpdm (s : State) (v : Nat) (f : Spdm → Spdm) : State := s.onVf v fun g => { g with spdm := f g.spdm }
/-- The tag of an error answer. -/
def spdmError : Nat := 0x7F
/-- The tag of the signature over measurement blocks (R350). -/
def signatureTag : Nat := 0x100
/-- An answer is recorded; before boot is complete every request but GET_VERSION fails (R379). -/
def State.respond (s : State) (v : Nat) (f : Spdm → Spdm) : Out :=
  .next (s.onSpdm v fun p => if s.up then f p else { p with answer := [(spdmError, [])] })

/-- GET_VERSION: 1.2 and 1.3; the highest that the requester speaks too is the one of the session, and without one there is none (R350,
R367). -/
def execGetVersion (v : VersionAsk) (s : State) : Out :=
  .next (s.onSpdm v.vf fun p => { p with version := ([0x13, 0x12].find? v.theirs.contains).map (·.toNat), answer := [(0, [0x12, 0x13])] })

/-- The key-slot manifest of a partition (R351): a slot is listed until its revoke completes. -/
def State.manifest (s : State) (p : Nat) : List Byte :=
  let es := (List.range 256).flatMap fun k =>
    let q := s.keySlot p k
    if k ≠ 0 ∧ q.valid then
      (q.digs.zipIdx).map fun d => [BitVec.ofNat 8 k, BitVec.ofNat 8 d.2] ++ List.replicate 6 0 ++ leBytes 8 q.model.toNat ++ leBytes 48 d.1
    else []
  leBytes 2 es.length ++ List.replicate 6 0 ++ es.flatten
/-- Measurement blocks 1 to 3: SHA-384 digests of the SEP firmware and the Dyore image, and the signed configuration block itself, security
version included (R350, R378; log 6). -/
def measured (i : Nat) : List Byte :=
  if i = 3 then flashBytes 0 224 else leBytes 48 (Config.sha384 (flashImage (if i = 1 then 16 else 32))).toNat
/-- A measurement block of a function (R350): an unbound one, and the physical function, have no partition to measure. -/
def State.block (s : State) (v i : Nat) : Option (Nat × List Byte) :=
  if 1 ≤ i ∧ i ≤ 3 then some (i, measured i)
  else if i = 4 ∧ s.bound v then some (4, leBytes 8 (rectOf (tabGet 0 s.parts (s.vfPart v))))
  else if i = 16 ∧ s.bound v then some (16, s.manifest (s.vfPart v))
  else none
/-- GET_MEASUREMENTS: one block, or with index 255 blocks 1 to 4 and 16, and their signature; an index that names none returns none. -/
def execGetMeasurements (v i : Nat) (s : State) : Out :=
  let l := (if i = 255 then [1, 2, 3, 4, 16] else [i]).filterMap (s.block v)
  s.respond v fun p => { p with answer := if l = [] then [] else l ++ [(signatureTag, Config.signed 2 (Config.sha384 (l.flatMap (·.2))))] }

def execGetCertificate (v : Nat) (s : State) : Out := s.respond v fun p => { p with answer := [(0, flashImage 48)] }

/-- CHALLENGE: a response signed over the nonce by the identity key. -/
def execChallenge (v nonce : Nat) (s : State) : Out :=
  s.respond v fun p => { p with answer := [(0, leBytes 32 nonce), (1, Config.signed 0 (Config.sha384 (leBytes 32 nonce)))] }

/-- KEY_EXCHANGE: a secure session of VF v, bound to its partition; without a common version, or a partition, there is none (R350, R367). -/
def execKeyExchange (v nonce : Nat) (s : State) : Out :=
  s.respond v fun p =>
    if p.version.isSome && s.bound v then
      { p with session := some (s.vfPart v), answer := [(0, leBytes 32 nonce), (1, Config.signed 1 (Config.sha384 (leBytes 32 nonce)))] }
    else { p with answer := [(spdmError, [])] }

/-! ## Key slots -/

/-- A request inside the secure session of a VF; the status byte is the answer. None without a session; one whose partition is the VF's no
more acts on nothing (R350). -/
def State.inSession (s : State) (v : Nat) (k : Nat → State × Nat) : Out :=
  match (s.vf v).spdm.session with
  | none => s.respond v fun p => { p with answer := [(spdmError, [])] }
  | some p =>
    if !s.bound v ∨ s.vfPart v ≠ p then s.respond v fun q => { q with answer := [(spdmError, [])] }
    else if s.up then .next ((k p).1.onSpdm v fun q => { q with answer := [(0, [BitVec.ofNat 8 (k p).2])] }) else .next s

/-- A 384-bit digest or a 256-bit key from dwords. -/
def wide (l : List Word) (i n : Nat) : Nat := (List.range n).foldl (fun a j => a + (l.getD (i + j) 0).toNat * 2 ^ (64 * j)) 0
/-- An install payload that breaks a rule of R353. -/
def installBad (l : List Word) : Bool :=
  let d := fun i => l.getD i 0
  let n := bitsOf (d 0) 19 16
  l.length != 36 || bitsOf (d 0) 63 20 != 0 || bitsOf (d 0) 7 0 != 1 || bitsOf (d 0) 15 8 == 0 || n == 0 || 4 < n ||
    bitsOf (d 2) 63 49 != 0 || (d 2).toNat % 65536 != 0 || (d 3).toNat % 65536 != 0 || decide (2 ^ 49 < (d 2).toNat + (d 3).toNat) ||
    wide l 4 4 == wide l 8 4 || (l.drop (12 + 6 * n)).any (· != 0)
/-- KEY_SLOT_INSTALL (R353, R354): every slice of the partition holds the entry when the SEP answers. -/
def execKeySlotInstall (v : Nat) (pl : List Word) (s : State) : Out :=
  s.inSession v fun p =>
    let k := bitsOf (pl.getD 0 0) 15 8
    if installBad pl then (s, 2)
    else if (s.keySlot p k).valid then (s, 1)
    else (s.onSlot p k fun _ =>
      { valid := true, revoking := false, model := pl.getD 1 0, base := (pl.getD 2 0).toNat, size := (pl.getD 3 0).toNat,
        key1 := wide pl 4 4, key2 := wide pl 8 4,
        digs := (List.range (bitsOf (pl.getD 0 0) 19 16)).map fun i => wide pl (12 + 6 * i) 6 }, 0)

/-- Every slice of a partition writes its dirty lines of a slot back encrypted and drops its lines of the slot (R354). -/
def State.dropSlot (s : State) (p k : Nat) : State :=
  let s := s.l2.foldl (fun s q => if q.1 / 512 = p then (q.2.filter (·.slot == k)).foldl (fun s l => s.writeBack p l) s else s) s
  { s with l2 := s.l2.map fun q => if q.1 / 512 = p then (q.1, q.2.filter (·.slot != k)) else q }
/-- KEY_SLOT_REVOKE (R353, R354): the slot is invalid at every slice from now on; the answer comes with REVOKE_COMPLETE. -/
def execKeySlotRevoke (v : Nat) (pl : List Word) (s : State) : Out :=
  s.inSession v fun p =>
    let d := pl.getD 0 0
    let k := bitsOf d 15 8
    if pl.length != 1 || bitsOf d 63 16 != 0 || bitsOf d 7 0 != 2 || k == 0 then (s, 2)
    else if !(s.keySlot p k).valid then (s, 3)
    else ((s.dropSlot p k).onSlot p k fun q => { q with revoking := true }, 0xFF)
/-- REVOKE_COMPLETE (R354): every slice has reported; the sessions of the partition get status 0 and the slot leaves the manifest. -/
def execRevokeComplete (p k : Nat) (s : State) : Out :=
  s.dyore (if (s.keySlot p k).revoking then
    let s := s.onSlot p k fun _ => KeySlot.empty
    { s with vfs := s.vfs.map fun f =>
        if f.2.spdm.session = some p ∧ f.2.spdm.answer = [(0, [0xFF])] then
          (f.1, { f.2 with spdm := { f.2.spdm with answer := [(0, [0])] } })
        else f }
  else s)

/-! ## Lintel packets (R365, R371) -/

/-- One more failed CRC of a packet: retried up to 8 times, after that its data words arrive poisoned. -/
def Req.crcFail (r : Req) : Req := if r.tries < 8 then { r with tries := r.tries + 1 } else { r with bad := true }
/-- Of the reply that a request will send. -/
def Req.replyFail (r : Req) : Req := if r.rtries < 8 then { r with rtries := r.rtries + 1 } else { r with rbad := true }
def RegFill.crcFail (f : RegFill) : RegFill :=
  if f.tries < 8 then { f with tries := f.tries + 1 } else { f with err := if f.err = 0 then 0x0F else f.err }
/-- Of a granule that an engine is still to read; more than 8 failures poison it. -/
def granFail (j : Nat) (g : List Gran) : List Gran := g.modify j fun q => if q.got.isNone then { q with tries := q.tries + 1 } else q
def Command.granFail (j : Nat) (c : Command) : Command := { c with grans := Machine.granFail j c.grans }
/-- Of a queue word; more than 8 failures poison it. -/
def QWord.crcFail (w : QWord) : QWord := (w.1, w.2.1, w.2.2 + 1)
/-- A packet fails its CRC at die `d`; number i names it by what it carries: 8 j a request j on its way, 8 j + 1 a fill of a register, 8 j + 2
the reply of request j, 8 j + 3 the first word of direction j mod 4 of core j / 4, 8 j + 4 a migration, and with j = 2^20 u + k granule k of
the copy engine of core u (5), of the ICE (6) or of Grout (7) of cluster u. -/
def State.packetFail (s : State) (i : Nat) : State :=
  let j := i / 8
  let u := j / 2 ^ 20
  let k := j % 2 ^ 20
  match i % 8 with
  | 0 => { s with reqs := s.reqs.map fun r => if r.id = j ∧ r.st = 0 then r.crcFail else r }
  | 1 => { s with fills := s.fills.modify j RegFill.crcFail }
  | 2 => { s with reqs := s.reqs.map fun r => if r.id = j then r.replyFail else r }
  | 3 => s.onCore (j / 4) fun c => { c with outq := tabSet c.outq (j % 4) ((c.outbound (j % 4)).modify 0 QWord.crcFail) }
  | 4 => { s with migs := s.migs.modify j fun m => { m with tries := m.tries + 1 } }
  | 5 => s.onCore u fun c => { c with copyRun := c.copyRun.map (Command.granFail k) }
  | 6 => s.onCluster u fun c => { c with iceRun := c.iceRun.map (Command.granFail k) }
  | _ => s.onCluster u fun c => { c with groutRun := c.groutRun.map fun g => { g with grans := Machine.granFail k g.grans } }
/-- How often the packet of a number has failed. -/
def State.packetTries (s : State) (i : Nat) : Nat :=
  let j := i / 8
  let u := j / 2 ^ 20
  let k := j % 2 ^ 20
  let of := fun (l : List Gran) => ((l[k]?).map (·.tries)).getD 0
  match i % 8 with
  | 0 => ((s.reqs.find? (·.id == j)).map (·.tries)).getD 0
  | 1 => ((s.fills[j]?).map (·.tries)).getD 0
  | 2 => ((s.reqs.find? (·.id == j)).map (·.rtries)).getD 0
  | 3 => (((s.core (j / 4)).outbound (j % 4)).head?.map (·.2.2)).getD 0
  | 4 => ((s.migs[j]?).map (·.tries)).getD 0
  | 5 => ((s.core u).copyRun.map fun c => of c.grans).getD 0
  | 6 => ((s.cluster u).iceRun.map fun c => of c.grans).getD 0
  | _ => ((s.cluster u).groutRun.map fun c => of c.grans).getD 0
/-- LINTEL_PACKET_RECEIVE: Retries keep a lane's order and lose nothing, so a good packet changes no state; a failed one counts under
Mortar, as uncorrectable once its retries are used up (R365, R371, R374). -/
def execLintelPacketReceive (q : Packet) (crcOk : Bool) (s : State) : Out :=
  .next (if crcOk then s else (s.packetFail q.i).countErr q.d 2 (decide (8 ≤ s.packetTries q.i)))

/-! ## Packages (R368, R369) -/

/-- HELLO: peer n speaks a version; the Z8 speaks version 1 (R367). -/
def execHello (n ver : Nat) (s : State) : Out := s.dyore { s with pkgVer := tabSet s.pkgVer n (if ver = 1 then 1 else 2) }

/-- RETRANSMIT_TIMEOUT: the packets to peer n that are not acknowledged are sent again; rounds are counted. -/
def execRetransmitTimeout (n : Nat) (s : State) : Out := .next { s with resent := tabSet s.resent n (tabGet 0 s.resent n + 1) }

/-- ACK_TIMEOUT: core c's put or get, sent and without a report, is refused with status 1; what was written remotely stands, and the
units it owned are free (R70). -/
def execAckTimeout (c : Nat) (s : State) : Out :=
  .next (match (s.core c).copyRun with
    | none => s
    | some r =>
      if r.begun ∧ (r.op = 6 ∨ r.op = 7) ∧ r.status.isNone ∧ r.grans.all (·.got.isSome) then
        (s.onCore c fun k => { k with copyRun := k.copyRun.map fun r =>
          { r with status := some 1, pieces := r.pieces.map fun p => { p with done := true } } }).releaseUnits (2 * c) fun _ => false
      else s)

/-- The address and bytes of a remote transfer. -/
def remoteAddr : Remote → Nat
  | .put a _ => a
  | .get a _ => a
def remoteLen : Remote → Nat
  | .put _ b => b.length
  | .get _ n => n
def remoteWrites : Remote → Bool
  | .put _ _ => true
  | .get _ _ => false

/-- A transfer ends with a report to its package: status and bytes. -/
def State.report (s : State) (q : Inbound) (status : Nat) (b : List Byte) : State :=
  { s with transfers := s.transfers.filter (·.id != q.id), reports := s.reports ++ [(q.pkg, status, b)] }
/-- A transfer as it now stands. -/
def State.holdTransfer (s : State) (q : Inbound) : State :=
  { s with transfers := s.transfers.map fun r => if r.id = q.id then q else r }

/-- One granule of a transfer is written or read at its home. -/
def State.remoteGran (s : State) (rq : Remote) (g : Gran) : State × Gran :=
  let a := remoteAddr rq
  let s := match g.home with
    | .slice p i => s.touch p i (g.key / 128) 0 (g.va / 128) 0 (if g.stream then 1 else 0)
    | _ => s
  match rq with
  | .put _ b =>
    let lo := if g.va < a then a - g.va else 0
    let bytes := (b.drop (g.va + lo - a)).take (8 - lo)
    (match g.home with
      | .slice p i => ((s.sliceWrite p i (g.key + lo) 0 (g.va + lo) bytes).breakResv p i [g.key / 128])
      | _ => s.putBytes (g.key + lo) bytes, { g with got := some ([], false) })
  | .get _ _ => (s, { g with got := some (s.homeBytes g.home g.key g.slot g.va 8, s.poisoned g.key) })
/-- A transfer whose pages are found goes on by one granule, in any order, past units that engines own (R70, R369); after the last one
report goes back. -/
def State.remoteOn (s : State) (q : Inbound) (gs : List Gran) : State :=
  match gs.filter fun g => g.got.isNone && !s.ownedUnit g.key with
  | [] =>
    if gs.any (·.got.isNone) then s
    else s.report q 0 (match q.rq with
      | .put _ _ => []
      | .get a n => (granBytes gs 0 a n).1)
  | g :: l =>
    let g := (g :: l).getD (s.anyOf (l.length + 1)) g
    let r := State.remoteGran { s with fresh := s.fresh + 1 } q.rq g
    r.1.holdTransfer { q with grans := some (gs.map fun h => if h.va = g.va then r.2 else h) }
/-- A transfer goes on: checked and translated under the VF of its package's import, parked by a page that is not present, then granule by
granule. -/
def State.remoteStep (s : State) (q : Inbound) : State :=
  let cl := (s.vfClusters q.vf).headD 0
  match q.grans with
  | some gs => s.remoteOn q gs
  | none =>
    if q.parked then s
    else
      let pages := pageStarts [(remoteAddr q.rq, remoteLen q.rq, remoteWrites q.rq)]
      let maps := s.gathered cl q.vf q.maps pages
      match missing maps q.vf pages with
      | some (a, w) => (s.holdTransfer { q with parked := true, maps := maps }).startWalk cl q.vf a w (.remote q.id)
      | none =>
        if (s.pagesOf q.vf maps pages).any fun p => p.2.2.slot != 0 || (p.2.1 && !p.2.2.write) then s.report q 1 []
        else s.holdTransfer { q with maps := maps, grans := some (s.gransOf maps q.vf true (remoteAddr q.rq) (remoteLen q.rq) 0) }
/-- Package n asks for a put or a get: refused as its PKGT entry and HELLO say, else held beside what other packages, and it, have asked
for (R369). -/
def State.remoteAsk (s : State) (n : Nat) (rq : Remote) : State :=
  let e := s.pkgEntry n
  let q : Inbound := { id := s.nextReq, pkg := n, vf := Config.importVf e, rq := rq, parked := false, maps := [], grans := none }
  if !Config.pkgValid e || !Config.pkgImport e || tabGet 0 s.pkgVer n ≠ 1 || decide (2 ^ 49 < remoteAddr rq + remoteLen rq) then s.report q 1 []
  else { s with nextReq := s.nextReq + 1, transfers := s.transfers ++ [q] }

/-- REMOTE_TRANSFER_REQUEST (R369): a package asks for a transfer, or a transfer under way goes on by a step. -/
def execRemoteTransferRequest (n : Nat) (rq : Option Remote) (s : State) : Out :=
  s.dyore (match rq with
    | some q => s.remoteAsk n q
    | none => match s.transfers.find? (·.id == n) with
      | some q => s.remoteStep q
      | none => s)

end Sys2Proof.Machine
end

