-- ==== Sys2Proof/Machine/Dispatch.lean ====
section
/-! DEFINITION. One arm per row of the opcode table. -/

namespace Sys2Proof.Machine

open Sys2Proof

def exec (i : Instr) (s : State) : Host.Outcome State Fault Refusal :=
  match i with
  | .lb d a i6 => Sys2Proof.Machine.execLb d a i6 s
  | .lh d a i6 => Sys2Proof.Machine.execLh d a i6 s
  | .lw d a i6 => Sys2Proof.Machine.execLw d a i6 s
  | .ld d a i6 => Sys2Proof.Machine.execLd d a i6 s
  | .lbu d a i6 => Sys2Proof.Machine.execLbu d a i6 s
  | .lhu d a i6 => Sys2Proof.Machine.execLhu d a i6 s
  | .lwu d a i6 => Sys2Proof.Machine.execLwu d a i6 s
  | .sb b a i6 => Sys2Proof.Machine.execSb b a i6 s
  | .sh b a i6 => Sys2Proof.Machine.execSh b a i6 s
  | .sw b a i6 => Sys2Proof.Machine.execSw b a i6 s
  | .sd b a i6 => Sys2Proof.Machine.execSd b a i6 s
  | .add d a b => Sys2Proof.Machine.execAdd d a b s
  | .sub d a b => Sys2Proof.Machine.execSub d a b s
  | .sll d a b => Sys2Proof.Machine.execSll d a b s
  | .slt d a b => Sys2Proof.Machine.execSlt d a b s
  | .sltu d a b => Sys2Proof.Machine.execSltu d a b s
  | .xor d a b => Sys2Proof.Machine.execXor d a b s
  | .srl d a b => Sys2Proof.Machine.execSrl d a b s
  | .sra d a b => Sys2Proof.Machine.execSra d a b s
  | .or d a b => Sys2Proof.Machine.execOr d a b s
  | .and d a b => Sys2Proof.Machine.execAnd d a b s
  | .andn d a b => Sys2Proof.Machine.execAndn d a b s
  | .orn d a b => Sys2Proof.Machine.execOrn d a b s
  | .min d a b => Sys2Proof.Machine.execMin d a b s
  | .minu d a b => Sys2Proof.Machine.execMinu d a b s
  | .max d a b => Sys2Proof.Machine.execMax d a b s
  | .maxu d a b => Sys2Proof.Machine.execMaxu d a b s
  | .sh1add d a b => Sys2Proof.Machine.execSh1add d a b s
  | .sh2add d a b => Sys2Proof.Machine.execSh2add d a b s
  | .sh3add d a b => Sys2Proof.Machine.execSh3add d a b s
  | .mul d a b => Sys2Proof.Machine.execMul d a b s
  | .mulh d a b => Sys2Proof.Machine.execMulh d a b s
  | .mulhu d a b => Sys2Proof.Machine.execMulhu d a b s
  | .div d a b => Sys2Proof.Machine.execDiv d a b s
  | .divu d a b => Sys2Proof.Machine.execDivu d a b s
  | .rem d a b => Sys2Proof.Machine.execRem d a b s
  | .remu d a b => Sys2Proof.Machine.execRemu d a b s
  | .addi d a i6 => Sys2Proof.Machine.execAddi d a i6 s
  | .slti d a i6 => Sys2Proof.Machine.execSlti d a i6 s
  | .sltiu d a i6 => Sys2Proof.Machine.execSltiu d a i6 s
  | .xori d a i6 => Sys2Proof.Machine.execXori d a i6 s
  | .ori d a i6 => Sys2Proof.Machine.execOri d a i6 s
  | .andi d a i6 => Sys2Proof.Machine.execAndi d a i6 s
  | .slli d a s6 => Sys2Proof.Machine.execSlli d a s6 s
  | .srli d a s6 => Sys2Proof.Machine.execSrli d a s6 s
  | .srai d a s6 => Sys2Proof.Machine.execSrai d a s6 s
  | .clz d a => Sys2Proof.Machine.execClz d a s
  | .ctz d a => Sys2Proof.Machine.execCtz d a s
  | .cpop d a => Sys2Proof.Machine.execCpop d a s
  | .addw d a b => Sys2Proof.Machine.execAddw d a b s
  | .subw d a b => Sys2Proof.Machine.execSubw d a b s
  | .addiw d a i6 => Sys2Proof.Machine.execAddiw d a i6 s
  | .slliw d a s6 => Sys2Proof.Machine.execSlliw d a s6 s
  | .srliw d a s6 => Sys2Proof.Machine.execSrliw d a s6 s
  | .sraiw d a s6 => Sys2Proof.Machine.execSraiw d a s6 s
  | .lui d i6 => Sys2Proof.Machine.execLui d i6 s
  | .auipc d i6 => Sys2Proof.Machine.execAuipc d i6 s
  | .beq a b i6 => Sys2Proof.Machine.execBeq a b i6 s
  | .bne a b i6 => Sys2Proof.Machine.execBne a b i6 s
  | .blt a b i6 => Sys2Proof.Machine.execBlt a b i6 s
  | .bge a b i6 => Sys2Proof.Machine.execBge a b i6 s
  | .bltu a b i6 => Sys2Proof.Machine.execBltu a b i6 s
  | .bgeu a b i6 => Sys2Proof.Machine.execBgeu a b i6 s
  | .jal d i6 => Sys2Proof.Machine.execJal d i6 s
  | .jalr d a i6 => Sys2Proof.Machine.execJalr d a i6 s
  | .cAddi4spn d i6 => Sys2Proof.Machine.execCAddi4spn d i6 s
  | .cLw d a i6 => Sys2Proof.Machine.execCLw d a i6 s
  | .cLd d a i6 => Sys2Proof.Machine.execCLd d a i6 s
  | .cSw b a i6 => Sys2Proof.Machine.execCSw b a i6 s
  | .cSd b a i6 => Sys2Proof.Machine.execCSd b a i6 s
  | .cNop => Sys2Proof.Machine.execCNop s
  | .cAddi d i6 => Sys2Proof.Machine.execCAddi d i6 s
  | .cAddiw d i6 => Sys2Proof.Machine.execCAddiw d i6 s
  | .cLi d i6 => Sys2Proof.Machine.execCLi d i6 s
  | .cAddi16sp i6 => Sys2Proof.Machine.execCAddi16sp i6 s
  | .cLui d i6 => Sys2Proof.Machine.execCLui d i6 s
  | .cSrli d i6 => Sys2Proof.Machine.execCSrli d i6 s
  | .cSrai d i6 => Sys2Proof.Machine.execCSrai d i6 s
  | .cAndi d i6 => Sys2Proof.Machine.execCAndi d i6 s
  | .cSub d b => Sys2Proof.Machine.execCSub d b s
  | .cXor d b => Sys2Proof.Machine.execCXor d b s
  | .cOr d b => Sys2Proof.Machine.execCOr d b s
  | .cAnd d b => Sys2Proof.Machine.execCAnd d b s
  | .cSubw d b => Sys2Proof.Machine.execCSubw d b s
  | .cAddw d b => Sys2Proof.Machine.execCAddw d b s
  | .cJ i6 => Sys2Proof.Machine.execCJ i6 s
  | .cBeqz a i6 => Sys2Proof.Machine.execCBeqz a i6 s
  | .cBnez a i6 => Sys2Proof.Machine.execCBnez a i6 s
  | .cSlli d i6 => Sys2Proof.Machine.execCSlli d i6 s
  | .cLwsp d i6 => Sys2Proof.Machine.execCLwsp d i6 s
  | .cLdsp d i6 => Sys2Proof.Machine.execCLdsp d i6 s
  | .cSwsp b i6 => Sys2Proof.Machine.execCSwsp b i6 s
  | .cSdsp b i6 => Sys2Proof.Machine.execCSdsp b i6 s
  | .cJr a => Sys2Proof.Machine.execCJr a s
  | .cJalr a => Sys2Proof.Machine.execCJalr a s
  | .cMv d b => Sys2Proof.Machine.execCMv d b s
  | .cAdd d b => Sys2Proof.Machine.execCAdd d b s
  | .cEbreak => Sys2Proof.Machine.execCEbreak s
  | .faddS d a b r => Sys2Proof.Machine.execFaddS d a b r s
  | .fsubS d a b r => Sys2Proof.Machine.execFsubS d a b r s
  | .fmulS d a b r => Sys2Proof.Machine.execFmulS d a b r s
  | .fdivS d a b r => Sys2Proof.Machine.execFdivS d a b r s
  | .fsqrtS d a r => Sys2Proof.Machine.execFsqrtS d a r s
  | .fmaddS d a b c r => Sys2Proof.Machine.execFmaddS d a b c r s
  | .fsgnjS d a b => Sys2Proof.Machine.execFsgnjS d a b s
  | .fsgnjnS d a b => Sys2Proof.Machine.execFsgnjnS d a b s
  | .fminS d a b => Sys2Proof.Machine.execFminS d a b s
  | .fmaxS d a b => Sys2Proof.Machine.execFmaxS d a b s
  | .fleS d a b => Sys2Proof.Machine.execFleS d a b s
  | .fltS d a b => Sys2Proof.Machine.execFltS d a b s
  | .feqS d a b => Sys2Proof.Machine.execFeqS d a b s
  | .fcvtWS d a r => Sys2Proof.Machine.execFcvtWS d a r s
  | .fcvtLS d a r => Sys2Proof.Machine.execFcvtLS d a r s
  | .fcvtSW d a r => Sys2Proof.Machine.execFcvtSW d a r s
  | .fcvtSL d a r => Sys2Proof.Machine.execFcvtSL d a r s
  | .li32 d i6 => Sys2Proof.Machine.execLi32 d i6 s
  | .lih d i6 => Sys2Proof.Machine.execLih d i6 s
  | .addl d i6 => Sys2Proof.Machine.execAddl d i6 s
  | .andl d i6 => Sys2Proof.Machine.execAndl d i6 s
  | .fli d i6 => Sys2Proof.Machine.execFli d i6 s
  | .gcmpEq d a b => Sys2Proof.Machine.execGcmpEq d a b s
  | .gcmpNe d a b => Sys2Proof.Machine.execGcmpNe d a b s
  | .gcmpLt d a b => Sys2Proof.Machine.execGcmpLt d a b s
  | .gcmpGe d a b => Sys2Proof.Machine.execGcmpGe d a b s
  | .gcmpLtu d a b => Sys2Proof.Machine.execGcmpLtu d a b s
  | .gcmpGeu d a b => Sys2Proof.Machine.execGcmpGeu d a b s
  | .gand d a b => Sys2Proof.Machine.execGand d a b s
  | .gor d a b => Sys2Proof.Machine.execGor d a b s
  | .gxor d a b => Sys2Proof.Machine.execGxor d a b s
  | .gandn d a b => Sys2Proof.Machine.execGandn d a b s
  | .gtox d => Sys2Proof.Machine.execGtox d s
  | .gfromx a => Sys2Proof.Machine.execGfromx a s
  | .ecall => Sys2Proof.Machine.execEcall s
  | .ebreak => Sys2Proof.Machine.execEbreak s
  | .wfi => Sys2Proof.Machine.execWfi s
  | .csrrw d a c => Sys2Proof.Machine.execCsrrw d a c s
  | .csrrs d a c => Sys2Proof.Machine.execCsrrs d a c s
  | .csrrc d a c => Sys2Proof.Machine.execCsrrc d a c s
  | .csrrwi d u c => Sys2Proof.Machine.execCsrrwi d u c s
  | .csrrsi d u c => Sys2Proof.Machine.execCsrrsi d u c s
  | .csrrci d u c => Sys2Proof.Machine.execCsrrci d u c s
  | .undefinedUnit code bytes => Sys2Proof.Machine.execUndefinedUnit code bytes s
  | .tret => Sys2Proof.Machine.execTret s
  | .fcreate d a => Sys2Proof.Machine.execFcreate d a s
  | .fsync d a => Sys2Proof.Machine.execFsync d a s
  | .fbreak a => Sys2Proof.Machine.execFbreak a s
  | .fkill a => Sys2Proof.Machine.execFkill a s
  | .lsend k a => Sys2Proof.Machine.execLsend k a s
  | .tself d s6 => Sys2Proof.Machine.execTself d s6 s
  | .thalt => Sys2Proof.Machine.execThalt s
  | .bjoin n => Sys2Proof.Machine.execBjoin n s
  | .bleave n => Sys2Proof.Machine.execBleave n s
  | .barw n => Sys2Proof.Machine.execBarw n s
  | .bara n => Sys2Proof.Machine.execBara n s
  | .bwait n => Sys2Proof.Machine.execBwait n s
  | .ldc d a => Sys2Proof.Machine.execLdc d a s
  | .ldp d a => Sys2Proof.Machine.execLdp d a s
  | .stf a b => Sys2Proof.Machine.execStf a b s
  | .sete a => Sys2Proof.Machine.execSete a s
  | .fest d a => Sys2Proof.Machine.execFest d a s
  | .mbsend a b => Sys2Proof.Machine.execMbsend a b s
  | .mbrecv d => Sys2Proof.Machine.execMbrecv d s
  | .mbpoll d g => Sys2Proof.Machine.execMbpoll d g s
  | .qmap q e => Sys2Proof.Machine.execQmap q e s
  | .qunmap q => Sys2Proof.Machine.execQunmap q s
  | .qctl q a => Sys2Proof.Machine.execQctl q a s
  | .qstat d q => Sys2Proof.Machine.execQstat d q s
  | .hset a e => Sys2Proof.Machine.execHset a e s
  | .hret => Sys2Proof.Machine.execHret s
  | .hmask v => Sys2Proof.Machine.execHmask v s
  | .wfe l => Sys2Proof.Machine.execWfe l s
  | .evsig a l => Sys2Proof.Machine.execEvsig a l s
  | .fenceO s6 => Sys2Proof.Machine.execFenceO s6 s
  | .fenceA s6 => Sys2Proof.Machine.execFenceA s6 s
  | .fenceX s6 => Sys2Proof.Machine.execFenceX s6 s
  | .fenceAll s6 => Sys2Proof.Machine.execFenceAll s6 s
  | .ldaq d a s6 => Sys2Proof.Machine.execLdaq d a s6 s
  | .strl a b s6 => Sys2Proof.Machine.execStrl a b s6 s
  | .ldmig d a => Sys2Proof.Machine.execLdmig d a s
  | .cinv a b => Sys2Proof.Machine.execCinv a b s
  | .pref a l => Sys2Proof.Machine.execPref a l s
  | .aadd w s6 d a b => Sys2Proof.Machine.execAadd w s6 d a b s
  | .aand w s6 d a b => Sys2Proof.Machine.execAand w s6 d a b s
  | .aor w s6 d a b => Sys2Proof.Machine.execAor w s6 d a b s
  | .axor w s6 d a b => Sys2Proof.Machine.execAxor w s6 d a b s
  | .asmin w s6 d a b => Sys2Proof.Machine.execAsmin w s6 d a b s
  | .asmax w s6 d a b => Sys2Proof.Machine.execAsmax w s6 d a b s
  | .aumin w s6 d a b => Sys2Proof.Machine.execAumin w s6 d a b s
  | .aumax w s6 d a b => Sys2Proof.Machine.execAumax w s6 d a b s
  | .aswap w s6 d a b => Sys2Proof.Machine.execAswap w s6 d a b s
  | .acas w s6 d a b => Sys2Proof.Machine.execAcas w s6 d a b s
  | .afadd s6 d a b => Sys2Proof.Machine.execAfadd s6 d a b s
  | .afaddb s6 d a b => Sys2Proof.Machine.execAfaddb s6 d a b s
  | .lrln d a => Sys2Proof.Machine.execLrln d a s
  | .scln d a => Sys2Proof.Machine.execScln d a s
  | .cqpush d a => Sys2Proof.Machine.execCqpush d a s
  | .cqpushn d a => Sys2Proof.Machine.execCqpushn d a s
  | .cqstat d => Sys2Proof.Machine.execCqstat d s
  | .gpost d a => Sys2Proof.Machine.execGpost d a s
  | .gstat d => Sys2Proof.Machine.execGstat d s
  | .mbind d a => Sys2Proof.Machine.execMbind d a s
  | .mclass d a b => Sys2Proof.Machine.execMclass d a b s
  | .mrow d a b => Sys2Proof.Machine.execMrow d a b s
  | .mcnt d c => Sys2Proof.Machine.execMcnt d c s
  | .amuServe cl => Sys2Proof.Machine.execAmuServe cl s
  | .pload a n => Sys2Proof.Machine.execPload a n s
  | .psave a n => Sys2Proof.Machine.execPsave a n s
  | .pstat d n => Sys2Proof.Machine.execPstat d n s
  | .vadd g d a b => Sys2Proof.Machine.execVadd g d a b s
  | .vsub g d a b => Sys2Proof.Machine.execVsub g d a b s
  | .vmul g d a b => Sys2Proof.Machine.execVmul g d a b s
  | .vfma g d a b => Sys2Proof.Machine.execVfma g d a b s
  | .vfms g d a b => Sys2Proof.Machine.execVfms g d a b s
  | .vmin g d a b => Sys2Proof.Machine.execVmin g d a b s
  | .vmax g d a b => Sys2Proof.Machine.execVmax g d a b s
  | .vabs g d a => Sys2Proof.Machine.execVabs g d a s
  | .vneg g d a => Sys2Proof.Machine.execVneg g d a s
  | .viadd g d a b => Sys2Proof.Machine.execViadd g d a b s
  | .visub g d a b => Sys2Proof.Machine.execVisub g d a b s
  | .vimul g d a b => Sys2Proof.Machine.execVimul g d a b s
  | .vand g d a b => Sys2Proof.Machine.execVand g d a b s
  | .vor g d a b => Sys2Proof.Machine.execVor g d a b s
  | .vxor g d a b => Sys2Proof.Machine.execVxor g d a b s
  | .vshl g d a b => Sys2Proof.Machine.execVshl g d a b s
  | .vshrl g d a b => Sys2Proof.Machine.execVshrl g d a b s
  | .vshra g d a b => Sys2Proof.Machine.execVshra g d a b s
  | .vimin g d a b => Sys2Proof.Machine.execVimin g d a b s
  | .vimax g d a b => Sys2Proof.Machine.execVimax g d a b s
  | .vcmpFeq g d a b => Sys2Proof.Machine.execVcmpFeq g d a b s
  | .vcmpFne g d a b => Sys2Proof.Machine.execVcmpFne g d a b s
  | .vcmpFlt g d a b => Sys2Proof.Machine.execVcmpFlt g d a b s
  | .vcmpFle g d a b => Sys2Proof.Machine.execVcmpFle g d a b s
  | .vcmpIeq g d a b => Sys2Proof.Machine.execVcmpIeq g d a b s
  | .vcmpIne g d a b => Sys2Proof.Machine.execVcmpIne g d a b s
  | .vcmpIlt g d a b => Sys2Proof.Machine.execVcmpIlt g d a b s
  | .vcmpIle g d a b => Sys2Proof.Machine.execVcmpIle g d a b s
  | .vsel k d a b => Sys2Proof.Machine.execVsel k d a b s
  | .kand g d a b => Sys2Proof.Machine.execKand g d a b s
  | .kor g d a b => Sys2Proof.Machine.execKor g d a b s
  | .kxor g d a b => Sys2Proof.Machine.execKxor g d a b s
  | .kandn g d a b => Sys2Proof.Machine.execKandn g d a b s
  | .kfromx g d a => Sys2Proof.Machine.execKfromx g d a s
  | .ktox g d a => Sys2Proof.Machine.execKtox g d a s
  | .kpop g d a => Sys2Proof.Machine.execKpop g d a s
  | .kfirst g d a => Sys2Proof.Machine.execKfirst g d a s
  | .vld g d a => Sys2Proof.Machine.execVld g d a s
  | .vst g d a => Sys2Proof.Machine.execVst g d a s
  | .vstb g d a => Sys2Proof.Machine.execVstb g d a s
  | .vlds g d a b => Sys2Proof.Machine.execVlds g d a b s
  | .vsts g d a b => Sys2Proof.Machine.execVsts g d a b s
  | .vgath g d a b => Sys2Proof.Machine.execVgath g d a b s
  | .vscat g d a b => Sys2Proof.Machine.execVscat g d a b s
  | .vbcx g d a => Sys2Proof.Machine.execVbcx g d a s
  | .vmvx g d v l => Sys2Proof.Machine.execVmvx g d v l s
  | .vmxv g d a l => Sys2Proof.Machine.execVmxv g d a l s
  | .vcvt g d a s6 t => Sys2Proof.Machine.execVcvt g d a s6 t s
  | .vpack g d a b => Sys2Proof.Machine.execVpack g d a b s
  | .vunpack g d a p t => Sys2Proof.Machine.execVunpack g d a p t s
  | .vrsum g d a => Sys2Proof.Machine.execVrsum g d a s
  | .vrmax g d a => Sys2Proof.Machine.execVrmax g d a s
  | .vperm g d a b => Sys2Proof.Machine.execVperm g d a b s
  | .vslide g d a l => Sys2Proof.Machine.execVslide g d a l s
  | .vbcast g d a l => Sys2Proof.Machine.execVbcast g d a l s
  | .vscan g d a k => Sys2Proof.Machine.execVscan g d a k s
  | .vscanL1 g d a k => Sys2Proof.Machine.execVscanL1 g d a k s
  | .vscanc g d a k => Sys2Proof.Machine.execVscanc g d a k s
  | .vexp2 g d a => Sys2Proof.Machine.execVexp2 g d a s
  | .vlog2 g d a => Sys2Proof.Machine.execVlog2 g d a s
  | .vrcp g d a => Sys2Proof.Machine.execVrcp g d a s
  | .vrsq g d a => Sys2Proof.Machine.execVrsq g d a s
  | .vsqrt g d a => Sys2Proof.Machine.execVsqrt g d a s
  | .vtanh g d a => Sys2Proof.Machine.execVtanh g d a s
  | .sfuService c => Sys2Proof.Machine.execSfuService c s
  | .sfuResultWrite c i6 => Sys2Proof.Machine.execSfuResultWrite c i6 s
  | .repv g l c s6 => Sys2Proof.Machine.execRepv g l c s6 s
  | .tcfg g t y => Sys2Proof.Machine.execTcfg g t y s
  | .mma g t a b k m => Sys2Proof.Machine.execMma g t a b k m s
  | .gmma g t a b k m => Sys2Proof.Machine.execGmma g t a b k m s
  | .wld g t a b m => Sys2Proof.Machine.execWld g t a b m s
  | .wlds g t a b m => Sys2Proof.Machine.execWlds g t a b m s
  | .accz g t k => Sys2Proof.Machine.execAccz g t k s
  | .accld g t a b k => Sys2Proof.Machine.execAccld g t a b k s
  | .accst g t a b k => Sys2Proof.Machine.execAccst g t a b k s
  | .gangOperation q => Sys2Proof.Machine.execGangOperation q s
  | .tileWrite c => Sys2Proof.Machine.execTileWrite c s
  | .memberStart c x e => Sys2Proof.Machine.execMemberStart c x e s
  | .inlineMemberTake c x => Sys2Proof.Machine.execInlineMemberTake c x s
  | .familyFinish c x e => Sys2Proof.Machine.execFamilyFinish c x e s
  | .registerFill i6 => Sys2Proof.Machine.execRegisterFill i6 s
  | .migrationInstall i6 => Sys2Proof.Machine.execMigrationInstall i6 s
  | .queueWordTransfer c dir => Sys2Proof.Machine.execQueueWordTransfer c dir s
  | .lightHandlerEntry c x => Sys2Proof.Machine.execLightHandlerEntry c x s
  | .mailboxDelivery c => Sys2Proof.Machine.execMailboxDelivery c s
  | .eventSignalArrival c => Sys2Proof.Machine.execEventSignalArrival c s
  | .localPortPass c => Sys2Proof.Machine.execLocalPortPass c s
  | .laneDeliver i6 => Sys2Proof.Machine.execLaneDeliver i6 s
  | .poolDeliver c i6 => Sys2Proof.Machine.execPoolDeliver c i6 s
  | .homePerform h i6 j => Sys2Proof.Machine.execHomePerform h i6 j s
  | .l1ViewServe c => Sys2Proof.Machine.execL1ViewServe c s
  | .engineRead e i6 => Sys2Proof.Machine.execEngineRead e i6 s
  | .copy c => Sys2Proof.Machine.execCopy c s
  | .copyAccumulate c => Sys2Proof.Machine.execCopyAccumulate c s
  | .fill c => Sys2Proof.Machine.execFill c s
  | .multicastRead c => Sys2Proof.Machine.execMulticastRead c s
  | .multicastCatchUp c => Sys2Proof.Machine.execMulticastCatchUp c s
  | .stridedCopy c => Sys2Proof.Machine.execStridedCopy c s
  | .packagePut c => Sys2Proof.Machine.execPackagePut c s
  | .packageGet c => Sys2Proof.Machine.execPackageGet c s
  | .completionFeFill c => Sys2Proof.Machine.execCompletionFeFill c s
  | .completionMailbox c => Sys2Proof.Machine.execCompletionMailbox c s
  | .completionHandlerTrigger c => Sys2Proof.Machine.execCompletionHandlerTrigger c s
  | .completionRegisterFill c => Sys2Proof.Machine.execCompletionRegisterFill c s
  | .gather cl => Sys2Proof.Machine.execGather cl s
  | .scatter cl => Sys2Proof.Machine.execScatter cl s
  | .scatterAdd cl => Sys2Proof.Machine.execScatterAdd cl s
  | .iceChunkBegin cl => Sys2Proof.Machine.execIceChunkBegin cl s
  | .iceEventSignal cl => Sys2Proof.Machine.execIceEventSignal cl s
  | .grout cl => Sys2Proof.Machine.execGrout cl s
  | .bellowsLatch cl => Sys2Proof.Machine.execBellowsLatch cl s
  | .bellowsUpdate cl => Sys2Proof.Machine.execBellowsUpdate cl s
  | .translationWalk i6 => Sys2Proof.Machine.execTranslationWalk i6 s
  | .teamCostart t => Sys2Proof.Machine.execTeamCostart t s
  | .quiescenceWave t => Sys2Proof.Machine.execQuiescenceWave t s
  | .stopArrival c => Sys2Proof.Machine.execStopArrival c s
  | .nop c x => Sys2Proof.Machine.execNop c x s
  | .debug c x => Sys2Proof.Machine.execDebug c x s
  | .signal c x => Sys2Proof.Machine.execSignal c x s
  | .time c x => Sys2Proof.Machine.execTime c x s
  | .qlist v buf => Sys2Proof.Machine.execQlist v buf s
  | .qorder v ps => Sys2Proof.Machine.execQorder v ps s
  | .yield v => Sys2Proof.Machine.execYield v s
  | .pluginTime v => Sys2Proof.Machine.execPluginTime v s
  | .pluginTimeout v => Sys2Proof.Machine.execPluginTimeout v s
  | .cctlWrite c val => Sys2Proof.Machine.execCctlWrite c val s
  | .flatchClear c => Sys2Proof.Machine.execFlatchClear c s
  | .doorbell v r idx => Sys2Proof.Machine.execDoorbell v r idx s
  | .launchRecordCheck v r => Sys2Proof.Machine.execLaunchRecordCheck v r s
  | .launchReady l => Sys2Proof.Machine.execLaunchReady l s
  | .teamDispatch l d => Sys2Proof.Machine.execTeamDispatch l d s
  | .blockSteal l d => Sys2Proof.Machine.execBlockSteal l d s
  | .preemptionRequest l => Sys2Proof.Machine.execPreemptionRequest l s
  | .saveImageWrite t => Sys2Proof.Machine.execSaveImageWrite t s
  | .teamDiscard t => Sys2Proof.Machine.execTeamDiscard t s
  | .teamResume t => Sys2Proof.Machine.execTeamResume t s
  | .launchCompletion l => Sys2Proof.Machine.execLaunchCompletion l s
  | .svalWrite v s6 val => Sys2Proof.Machine.execSvalWrite v s6 val s
  | .hfverNegotiate v lo hi => Sys2Proof.Machine.execHfverNegotiate v lo hi s
  | .krel p val => Sys2Proof.Machine.execKrel p val s
  | .imgrWrite p val => Sys2Proof.Machine.execImgrWrite p val s
  | .partCreate p val => Sys2Proof.Machine.execPartCreate p val s
  | .partDestroy p => Sys2Proof.Machine.execPartDestroy p s
  | .partScrubComplete p => Sys2Proof.Machine.execPartScrubComplete p s
  | .vbindWrite p val => Sys2Proof.Machine.execVbindWrite p val s
  | .tinvPage v page => Sys2Proof.Machine.execTinvPage v page s
  | .tinvVf v => Sys2Proof.Machine.execTinvVf v s
  | .tinvComplete => Sys2Proof.Machine.execTinvComplete s
  | .fresReplay d e => Sys2Proof.Machine.execFresReplay d e s
  | .fresFail d e => Sys2Proof.Machine.execFresFail d e s
  | .registerWrite sp addr val => Sys2Proof.Machine.execRegisterWrite sp addr val s
  | .snapArm => Sys2Proof.Machine.execSnapArm s
  | .snapHostFire => Sys2Proof.Machine.execSnapHostFire s
  | .snapCounterTrigger => Sys2Proof.Machine.execSnapCounterTrigger s
  | .snapPinTrigger => Sys2Proof.Machine.execSnapPinTrigger s
  | .powerControlTick meas => Sys2Proof.Machine.execPowerControlTick meas s
  | .patrolScrub p frame burst res => Sys2Proof.Machine.execPatrolScrub p frame burst res s
  | .boot failAt => Sys2Proof.Machine.execBoot failAt s
  | .getVersion v => Sys2Proof.Machine.execGetVersion v s
  | .getMeasurements v idx => Sys2Proof.Machine.execGetMeasurements v idx s
  | .keySlotInstall v pl => Sys2Proof.Machine.execKeySlotInstall v pl s
  | .keySlotRevoke v pl => Sys2Proof.Machine.execKeySlotRevoke v pl s
  | .lintelPacketReceive i6 crcOk => Sys2Proof.Machine.execLintelPacketReceive i6 crcOk s
  | .hello n ver => Sys2Proof.Machine.execHello n ver s
  | .remoteTransferRequest n rq => Sys2Proof.Machine.execRemoteTransferRequest n rq s
  | .retransmitTimeout n => Sys2Proof.Machine.execRetransmitTimeout n s
  | .ackTimeout c => Sys2Proof.Machine.execAckTimeout c s
  | .cheadWrite v val => Sys2Proof.Machine.execCheadWrite v val s
  | .holdingScrubComplete t => Sys2Proof.Machine.execHoldingScrubComplete t s
  | .revokeComplete p s6 => Sys2Proof.Machine.execRevokeComplete p s6 s
  | .pluginFault v => Sys2Proof.Machine.execPluginFault v s
  | .getCertificate v => Sys2Proof.Machine.execGetCertificate v s
  | .challenge v nonce => Sys2Proof.Machine.execChallenge v nonce s
  | .keyExchange v nonce => Sys2Proof.Machine.execKeyExchange v nonce s

end Sys2Proof.Machine
end

