-- ==== Sys2Proof/Decode.lean ====
section
/-! DEFINITION. The decoder (R129 to R147), total on any bytes, and the encoder written from the same tables.
The decoder is marked noncomputable only because Lean's runtime has no tag for more than 244 constructors; the kernel
evaluates it. A refusal carries its decode trap: 1 where the encoding is not an instruction at the level, 2 where a reserved field is
nonzero or a limit of R137 is broken; 1 is found before 2 (R144). -/

namespace Sys2Proof

/-- What a decoder answers: an instruction, or the number of the decode trap (R144). -/
abbrev Dec := Except (BitVec 8) Instr

/-- An encoding that is not an instruction (trap 0x01). -/
def undef : Dec := .error 1
/-- An instruction when no limit is broken, else trap 0x02. -/
def rsv (broken : Bool) (i : Instr) : Dec := if broken then .error 2 else .ok i

/-- The x register of a 5-bit field. -/
def lo (r : BitVec 5) : XReg := r.extractLsb' 0 4
/-- The field holds 16 to 31 (R137). -/
def hi (r : BitVec 5) : Bool := r.getLsbD 4
/-- The guard or mask register of a 5-bit field. -/
def lo3 (r : BitVec 5) : BitVec 3 := r.extractLsb' 0 3
/-- The field holds 8 to 31 (R137). -/
def hi3 (r : BitVec 5) : Bool := r.extractLsb' 3 2 != 0#2
/-- A 5-bit field that names an x register. -/
def z5 (r : XReg) : BitVec 5 := 0#1 ++ r
/-- A 5-bit field that names a guard or mask register. -/
def z53 (r : BitVec 3) : BitVec 5 := 0#2 ++ r
/-- The x register of a 3-bit compressed field: x8 to x15 (R131). -/
def c3 (r : BitVec 3) : XReg := 1#1 ++ r

/-! ## 32-bit instructions -/

/-- LOAD (R152). -/
def decLoad (f3 : BitVec 3) (d a : BitVec 5) (i : BitVec 12) : Dec :=
  let b := hi d || hi a
  if f3 = 0#3 then rsv b (.lb (lo d) (lo a) i)
  else if f3 = 1#3 then rsv b (.lh (lo d) (lo a) i)
  else if f3 = 2#3 then rsv b (.lw (lo d) (lo a) i)
  else if f3 = 3#3 then rsv b (.ld (lo d) (lo a) i)
  else if f3 = 4#3 then rsv b (.lbu (lo d) (lo a) i)
  else if f3 = 5#3 then rsv b (.lhu (lo d) (lo a) i)
  else if f3 = 6#3 then rsv b (.lwu (lo d) (lo a) i)
  else undef

/-- STORE (R152). -/
def decStore (f3 : BitVec 3) (b a : BitVec 5) (i : BitVec 12) : Dec :=
  let r := hi b || hi a
  if f3 = 0#3 then rsv r (.sb (lo b) (lo a) i)
  else if f3 = 1#3 then rsv r (.sh (lo b) (lo a) i)
  else if f3 = 2#3 then rsv r (.sw (lo b) (lo a) i)
  else if f3 = 3#3 then rsv r (.sd (lo b) (lo a) i)
  else undef

/-- OP (R150). -/
def decOp (f7 : BitVec 7) (f3 : BitVec 3) (d a b : BitVec 5) : Dec :=
  let r := hi d || hi a || hi b
  if f7 = 0#7 then
    if f3 = 0#3 then rsv r (.add (lo d) (lo a) (lo b))
    else if f3 = 1#3 then rsv r (.sll (lo d) (lo a) (lo b))
    else if f3 = 2#3 then rsv r (.slt (lo d) (lo a) (lo b))
    else if f3 = 3#3 then rsv r (.sltu (lo d) (lo a) (lo b))
    else if f3 = 4#3 then rsv r (.xor (lo d) (lo a) (lo b))
    else if f3 = 5#3 then rsv r (.srl (lo d) (lo a) (lo b))
    else if f3 = 6#3 then rsv r (.or (lo d) (lo a) (lo b))
    else if f3 = 7#3 then rsv r (.and (lo d) (lo a) (lo b))
    else undef
  else if f7 = 32#7 then
    if f3 = 0#3 then rsv r (.sub (lo d) (lo a) (lo b))
    else if f3 = 5#3 then rsv r (.sra (lo d) (lo a) (lo b))
    else if f3 = 7#3 then rsv r (.andn (lo d) (lo a) (lo b))
    else if f3 = 6#3 then rsv r (.orn (lo d) (lo a) (lo b))
    else undef
  else if f7 = 5#7 then
    if f3 = 4#3 then rsv r (.min (lo d) (lo a) (lo b))
    else if f3 = 5#3 then rsv r (.minu (lo d) (lo a) (lo b))
    else if f3 = 6#3 then rsv r (.max (lo d) (lo a) (lo b))
    else if f3 = 7#3 then rsv r (.maxu (lo d) (lo a) (lo b))
    else undef
  else if f7 = 16#7 then
    if f3 = 2#3 then rsv r (.sh1add (lo d) (lo a) (lo b))
    else if f3 = 4#3 then rsv r (.sh2add (lo d) (lo a) (lo b))
    else if f3 = 6#3 then rsv r (.sh3add (lo d) (lo a) (lo b))
    else undef
  else if f7 = 1#7 then
    if f3 = 0#3 then rsv r (.mul (lo d) (lo a) (lo b))
    else if f3 = 1#3 then rsv r (.mulh (lo d) (lo a) (lo b))
    else if f3 = 3#3 then rsv r (.mulhu (lo d) (lo a) (lo b))
    else if f3 = 4#3 then rsv r (.div (lo d) (lo a) (lo b))
    else if f3 = 5#3 then rsv r (.divu (lo d) (lo a) (lo b))
    else if f3 = 6#3 then rsv r (.rem (lo d) (lo a) (lo b))
    else if f3 = 7#3 then rsv r (.remu (lo d) (lo a) (lo b))
    else undef
  else undef

/-- OP-32 (R150). -/
def decOp32 (f7 : BitVec 7) (f3 : BitVec 3) (d a b : BitVec 5) : Dec :=
  let r := hi d || hi a || hi b
  if f7 = 0#7 then
    if f3 = 0#3 then rsv r (.addw (lo d) (lo a) (lo b))
    else undef
  else if f7 = 32#7 then
    if f3 = 0#3 then rsv r (.subw (lo d) (lo a) (lo b))
    else undef
  else undef

/-- OP-IMM (R150). -/
def decOpImm (f3 : BitVec 3) (d a : BitVec 5) (i : BitVec 12) : Dec :=
  let r := hi d || hi a
  if f3 = 0#3 then rsv r (.addi (lo d) (lo a) i)
  else if f3 = 2#3 then rsv r (.slti (lo d) (lo a) i)
  else if f3 = 3#3 then rsv r (.sltiu (lo d) (lo a) i)
  else if f3 = 4#3 then rsv r (.xori (lo d) (lo a) i)
  else if f3 = 6#3 then rsv r (.ori (lo d) (lo a) i)
  else if f3 = 7#3 then rsv r (.andi (lo d) (lo a) i)
  else if f3 = 1#3 then
    if i.extractLsb' 6 6 = 0#6 then rsv r (.slli (lo d) (lo a) (i.extractLsb' 0 6))
    else if i = 0x600#12 then rsv r (.clz (lo d) (lo a))
    else if i = 0x601#12 then rsv r (.ctz (lo d) (lo a))
    else if i = 0x602#12 then rsv r (.cpop (lo d) (lo a))
    else undef
  else
    if i.extractLsb' 6 6 = 0#6 then rsv r (.srli (lo d) (lo a) (i.extractLsb' 0 6))
    else if i.extractLsb' 6 6 = 0x10#6 then rsv r (.srai (lo d) (lo a) (i.extractLsb' 0 6))
    else undef

/-- OP-IMM-32 (R150): imm[5] = 1 of a shift is trap 0x02. -/
def decOpImm32 (f3 : BitVec 3) (d a : BitVec 5) (i : BitVec 12) : Dec :=
  let r := hi d || hi a
  let r5 := r || i.getLsbD 5
  if f3 = 0#3 then rsv r (.addiw (lo d) (lo a) i)
  else if f3 = 1#3 then
    if i.extractLsb' 6 6 = 0#6 then rsv r5 (.slliw (lo d) (lo a) (i.extractLsb' 0 5)) else undef
  else if f3 = 5#3 then
    if i.extractLsb' 6 6 = 0#6 then rsv r5 (.srliw (lo d) (lo a) (i.extractLsb' 0 5))
    else if i.extractLsb' 6 6 = 0x10#6 then rsv r5 (.sraiw (lo d) (lo a) (i.extractLsb' 0 5))
    else undef
  else undef

/-- BRANCH (R153); i holds offset bits 12 to 1. -/
def decBranch (f3 : BitVec 3) (a b : BitVec 5) (i : BitVec 12) : Dec :=
  let r := hi a || hi b
  if f3 = 0#3 then rsv r (.beq (lo a) (lo b) i)
  else if f3 = 1#3 then rsv r (.bne (lo a) (lo b) i)
  else if f3 = 4#3 then rsv r (.blt (lo a) (lo b) i)
  else if f3 = 5#3 then rsv r (.bge (lo a) (lo b) i)
  else if f3 = 6#3 then rsv r (.bltu (lo a) (lo b) i)
  else if f3 = 7#3 then rsv r (.bgeu (lo a) (lo b) i)
  else undef

/-- SYSTEM (R138, R167): an unknown CSR and a write of a read-only one are trap 0x01 (R139). -/
def decSystem (f3 : BitVec 3) (d a : BitVec 5) (i : BitVec 12) : Dec :=
  if f3 = 0#3 then
    let r := d != 0#5 || a != 0#5
    if i = 0#12 then rsv r .ecall
    else if i = 1#12 then rsv r .ebreak
    else if i = 0x105#12 then rsv r .wfi
    else undef
  else if f3 = 1#3 then (if csrAllowed true i then rsv (hi d || hi a) (.csrrw (lo d) (lo a) i) else undef)
  else if f3 = 2#3 then (if csrAllowed (a != 0#5) i then rsv (hi d || hi a) (.csrrs (lo d) (lo a) i) else undef)
  else if f3 = 3#3 then (if csrAllowed (a != 0#5) i then rsv (hi d || hi a) (.csrrc (lo d) (lo a) i) else undef)
  else if f3 = 5#3 then (if csrAllowed true i then rsv (hi d) (.csrrwi (lo d) a i) else undef)
  else if f3 = 6#3 then (if csrAllowed (a != 0#5) i then rsv (hi d) (.csrrsi (lo d) a i) else undef)
  else if f3 = 7#3 then (if csrAllowed (a != 0#5) i then rsv (hi d) (.csrrci (lo d) a i) else undef)
  else undef

/-- OP-FP (R155); the rounding-mode field is funct3 (R131), and its values 4 to 6 are trap 0x01 (R98). -/
def decFp (f7 : BitVec 7) (f3 : BitVec 3) (d a b : BitVec 5) : Dec :=
  let r2 := hi d || hi a
  let r3 := r2 || hi b
  let rm := rmAllowed f3
  if f7 = 0#7 then (if rm then rsv r3 (.faddS (lo d) (lo a) (lo b) f3) else undef)
  else if f7 = 4#7 then (if rm then rsv r3 (.fsubS (lo d) (lo a) (lo b) f3) else undef)
  else if f7 = 8#7 then (if rm then rsv r3 (.fmulS (lo d) (lo a) (lo b) f3) else undef)
  else if f7 = 0xC#7 then (if rm then rsv r3 (.fdivS (lo d) (lo a) (lo b) f3) else undef)
  else if f7 = 0x2C#7 then (if rm then rsv (r2 || b != 0#5) (.fsqrtS (lo d) (lo a) f3) else undef)
  else if f7 = 0x10#7 then
    if f3 = 0#3 then rsv r3 (.fsgnjS (lo d) (lo a) (lo b))
    else if f3 = 1#3 then rsv r3 (.fsgnjnS (lo d) (lo a) (lo b)) else undef
  else if f7 = 0x14#7 then
    if f3 = 0#3 then rsv r3 (.fminS (lo d) (lo a) (lo b))
    else if f3 = 1#3 then rsv r3 (.fmaxS (lo d) (lo a) (lo b)) else undef
  else if f7 = 0x50#7 then
    if f3 = 0#3 then rsv r3 (.fleS (lo d) (lo a) (lo b))
    else if f3 = 1#3 then rsv r3 (.fltS (lo d) (lo a) (lo b))
    else if f3 = 2#3 then rsv r3 (.feqS (lo d) (lo a) (lo b)) else undef
  else if f7 = 0x60#7 then
    if b = 0#5 then (if rm then rsv r2 (.fcvtWS (lo d) (lo a) f3) else undef)
    else if b = 2#5 then (if rm then rsv r2 (.fcvtLS (lo d) (lo a) f3) else undef) else undef
  else if f7 = 0x68#7 then
    if b = 0#5 then (if rm then rsv r2 (.fcvtSW (lo d) (lo a) f3) else undef)
    else if b = 2#5 then (if rm then rsv r2 (.fcvtSL (lo d) (lo a) f3) else undef) else undef
  else undef

/-- The scope code of a fence, LDAQ or STRL is out of range at the level (R137, R147). -/
def scopeBroken (lvl : Nat) (s : BitVec 5) : Bool := if lvl ≥ 3 then 4 < s.toNat else 3 < s.toNat

/-- Fields that hold one or two bits (R137). -/
def lo1 (r : BitVec 5) : BitVec 1 := r.extractLsb' 0 1
def hi1 (r : BitVec 5) : Bool := r.extractLsb' 1 4 != 0#4
def lo2 (r : BitVec 5) : BitVec 2 := r.extractLsb' 0 2
def hi2 (r : BitVec 5) : Bool := r.extractLsb' 2 3 != 0#3
def z51 (r : BitVec 1) : BitVec 5 := 0#4 ++ r
def z52 (r : BitVec 2) : BitVec 5 := 0#3 ++ r

/-- GLOG (R160): bit 3 of each source field holds one bit of the operation. -/
def decGlog (d a b : BitVec 5) : Dec :=
  let r := hi3 d || hi a || hi b
  if a.getLsbD 3 = false then
    if b.getLsbD 3 = false then rsv r (.gand (lo3 d) (lo3 a) (lo3 b)) else rsv r (.gor (lo3 d) (lo3 a) (lo3 b))
  else if b.getLsbD 3 = false then rsv r (.gxor (lo3 d) (lo3 a) (lo3 b)) else rsv r (.gandn (lo3 d) (lo3 a) (lo3 b))

/-- CX, funct3 = 0 (R140). -/
def decCx0 (f7 : BitVec 7) (d a b : BitVec 5) : Dec :=
  if f7 = 0x0#7 then rsv (hi d || hi a || b != 0#5) (.fcreate (lo d) (lo a))
  else if f7 = 0x1#7 then rsv (hi d || hi a || b != 0#5) (.fsync (lo d) (lo a))
  else if f7 = 0x2#7 then rsv (d != 0#5 || hi a || b != 0#5) (.fbreak (lo a))
  else if f7 = 0x3#7 then rsv (d != 0#5 || hi a || b != 0#5) (.fkill (lo a))
  else if f7 = 0x4#7 then rsv (d != 0#5 || hi a || b != 0#5) (.lsend 0#2 (lo a))
  else if f7 = 0x5#7 then rsv (d != 0#5 || hi a || b != 0#5) (.lsend 1#2 (lo a))
  else if f7 = 0x6#7 then rsv (d != 0#5 || hi a || b != 0#5) (.lsend 2#2 (lo a))
  else if f7 = 0x7#7 then rsv (d != 0#5 || hi a || b != 0#5) (.lsend 3#2 (lo a))
  else if f7 = 0x8#7 then rsv (hi d || 6 < a.toNat || b != 0#5) (.tself (lo d) a)
  else if f7 = 0x9#7 then rsv (d != 0#5 || a != 0#5 || b != 0#5) (.thalt)
  else undef

/-- CX, funct3 = 1 (R140). -/
def decCx1 (f7 : BitVec 7) (d a b : BitVec 5) : Dec :=
  if f7 = 0x0#7 then rsv (d != 0#5 || 47 < (b ++ a).toNat) (.bjoin (b ++ a))
  else if f7 = 0x1#7 then rsv (d != 0#5 || 47 < (b ++ a).toNat) (.bleave (b ++ a))
  else if f7 = 0x2#7 then rsv (d != 0#5 || 47 < (b ++ a).toNat) (.barw (b ++ a))
  else if f7 = 0x3#7 then rsv (d != 0#5 || 47 < (b ++ a).toNat) (.bara (b ++ a))
  else if f7 = 0x4#7 then rsv (d != 0#5 || 47 < (b ++ a).toNat) (.bwait (b ++ a))
  else undef

/-- CX, funct3 = 2 (R140). -/
def decCx2 (f7 : BitVec 7) (d a b : BitVec 5) : Dec :=
  if f7 = 0x0#7 then rsv (hi d || hi a || b != 0#5) (.ldc (lo d) (lo a))
  else if f7 = 0x1#7 then rsv (hi d || hi a || b != 0#5) (.ldp (lo d) (lo a))
  else if f7 = 0x2#7 then rsv (d != 0#5 || hi a || hi b) (.stf (lo a) (lo b))
  else if f7 = 0x3#7 then rsv (d != 0#5 || hi a || b != 0#5) (.sete (lo a))
  else if f7 = 0x4#7 then rsv (hi d || hi a || b != 0#5) (.fest (lo d) (lo a))
  else if f7 = 0x8#7 then rsv (d != 0#5 || hi a || hi b) (.mbsend (lo a) (lo b))
  else if f7 = 0x9#7 then rsv (hi d || a != 0#5 || b != 0#5) (.mbrecv (lo d))
  else if f7 = 0xA#7 then rsv (hi d || hi3 a || b != 0#5) (.mbpoll (lo d) (lo3 a))
  else undef

/-- CX, funct3 = 3 (R140). -/
def decCx3 (f7 : BitVec 7) (d a b : BitVec 5) : Dec :=
  if f7 = 0x0#7 then rsv (d != 0#5 || hi2 a || hi2 b) (.qmap (lo2 a) (lo2 b))
  else if f7 = 0x1#7 then rsv (d != 0#5 || hi2 a || b != 0#5) (.qunmap (lo2 a))
  else if f7 = 0x2#7 then rsv (d != 0#5 || hi a || hi2 b || b.toNat < 2) (.qctl (lo2 b) (lo a))
  else if f7 = 0x3#7 then rsv (hi d || hi2 a || b != 0#5) (.qstat (lo d) (lo2 a))
  else if f7 = 0x8#7 then rsv (d != 0#5 || hi a || hi1 b) (.hset (lo a) (lo1 b))
  else if f7 = 0x9#7 then rsv (d != 0#5 || a != 0#5 || b != 0#5) (.hret)
  else if f7 = 0xA#7 then rsv (d != 0#5 || hi1 a || b != 0#5) (.hmask (lo1 a))
  else if f7 = 0xC#7 then rsv (d != 0#5 || hi a || b != 0#5) (.wfe (lo a))
  else if f7 = 0xD#7 then rsv (d != 0#5 || hi a || hi b) (.evsig (lo a) (lo b))
  else if f7 = 0x10#7 then rsv (hi3 d || hi a || hi b) (.gcmpEq (lo3 d) (lo a) (lo b))
  else if f7 = 0x11#7 then rsv (hi3 d || hi a || hi b) (.gcmpNe (lo3 d) (lo a) (lo b))
  else if f7 = 0x12#7 then rsv (hi3 d || hi a || hi b) (.gcmpLt (lo3 d) (lo a) (lo b))
  else if f7 = 0x13#7 then rsv (hi3 d || hi a || hi b) (.gcmpGe (lo3 d) (lo a) (lo b))
  else if f7 = 0x14#7 then rsv (hi3 d || hi a || hi b) (.gcmpLtu (lo3 d) (lo a) (lo b))
  else if f7 = 0x15#7 then rsv (hi3 d || hi a || hi b) (.gcmpGeu (lo3 d) (lo a) (lo b))
  else if f7 = 0x18#7 then decGlog d a b
  else if f7 = 0x19#7 then rsv (hi d || a != 0#5 || b != 0#5) (.gtox (lo d))
  else if f7 = 0x1A#7 then rsv (d != 0#5 || hi a || b != 0#5) (.gfromx (lo a))
  else undef

/-- CX, funct3 = 4 (R140). -/
def decCx4 (lvl : Nat) (f7 : BitVec 7) (d a b : BitVec 5) : Dec :=
  if f7 = 0x0#7 then rsv (scopeBroken lvl d || a != 0#5 || b != 0#5) (.fenceO d)
  else if f7 = 0x1#7 then rsv (scopeBroken lvl d || a != 0#5 || b != 0#5) (.fenceA d)
  else if f7 = 0x2#7 then rsv (scopeBroken lvl d || a != 0#5 || b != 0#5) (.fenceX d)
  else if f7 = 0x3#7 then rsv (scopeBroken lvl d || a != 0#5 || b != 0#5) (.fenceAll d)
  else if f7 = 0x8#7 then rsv (scopeBroken lvl d || hi a || hi b) (.ldaq (lo b) (lo a) d)
  else if f7 = 0x9#7 then rsv (scopeBroken lvl d || hi a || hi b) (.strl (lo a) (lo b) d)
  else if f7 = 0xA#7 then rsv (hi d || hi a || b != 0#5) (.ldmig (lo d) (lo a))
  else if f7 = 0xC#7 then rsv (d != 0#5 || hi a || hi b) (.cinv (lo a) (lo b))
  else if f7 = 0xD#7 then rsv (d != 0#5 || hi a || hi1 b) (.pref (lo a) (lo1 b))
  else undef

/-- CX, funct3 = 6 (R140). -/
def decCx6 (f7 : BitVec 7) (d a b : BitVec 5) : Dec :=
  if f7 = 0x0#7 then rsv (hi d || hi a || b != 0#5) (.lrln (lo d) (lo a))
  else if f7 = 0x1#7 then rsv (hi d || hi a || b != 0#5) (.scln (lo d) (lo a))
  else undef

/-- CX, funct3 = 7 (R140). -/
def decCx7 (f7 : BitVec 7) (d a b : BitVec 5) : Dec :=
  if f7 = 0x0#7 then rsv (d != 0#5 || a != 0#5 || b != 0#5) (.tret)
  else undef

/-- Atomics (R140): op [6:3], width [2], scope [1:0] of funct7; op 11 from level 3 on (R147). -/
def decAtomic (lvl : Nat) (f7 : BitVec 7) (d a b : BitVec 5) : Dec :=
  let r := hi d || hi a || hi b
  let o := f7.extractLsb' 3 4
  let w := f7.extractLsb' 2 1
  let s := f7.extractLsb' 0 2
  if o = 0#4 then rsv r (.aadd w s (lo d) (lo a) (lo b))
  else if o = 1#4 then rsv r (.aand w s (lo d) (lo a) (lo b))
  else if o = 2#4 then rsv r (.aor w s (lo d) (lo a) (lo b))
  else if o = 3#4 then rsv r (.axor w s (lo d) (lo a) (lo b))
  else if o = 4#4 then rsv r (.asmin w s (lo d) (lo a) (lo b))
  else if o = 5#4 then rsv r (.asmax w s (lo d) (lo a) (lo b))
  else if o = 6#4 then rsv r (.aumin w s (lo d) (lo a) (lo b))
  else if o = 7#4 then rsv r (.aumax w s (lo d) (lo a) (lo b))
  else if o = 8#4 then rsv r (.aswap w s (lo d) (lo a) (lo b))
  else if o = 9#4 then rsv r (.acas w s (lo d) (lo a) (lo b))
  else if o = 10#4 then (if w = 0#1 then rsv r (.afadd s (lo d) (lo a) (lo b)) else undef)
  else if o = 11#4 then (if w = 0#1 ∧ 3 ≤ lvl then rsv r (.afaddb s (lo d) (lo a) (lo b)) else undef)
  else undef

/-- CX (R140). -/
def decCx (lvl : Nat) (f7 : BitVec 7) (f3 : BitVec 3) (d a b : BitVec 5) : Dec :=
  if f3 = 0#3 then decCx0 f7 d a b
  else if f3 = 1#3 then decCx1 f7 d a b
  else if f3 = 2#3 then decCx2 f7 d a b
  else if f3 = 3#3 then decCx3 f7 d a b
  else if f3 = 4#3 then decCx4 lvl f7 d a b
  else if f3 = 5#3 then decAtomic lvl f7 d a b
  else if f3 = 6#3 then decCx6 f7 d a b
  else decCx7 f7 d a b

/-- The block register of an engine command is x8 or x12 (R137, R255). -/
def notBlock (a : BitVec 5) : Bool := a != 8#5 && a != 12#5

/-- CE (R141); funct3 3 and 4 from level 3 on (R147). -/
def decCe (lvl : Nat) (f7 : BitVec 7) (f3 : BitVec 3) (d a b : BitVec 5) : Dec :=
  if f3 = 0#3 then
    let r := f7.extractLsb' 1 6 != 0#6 || hi d || notBlock a || b != 0#5
    if f7.getLsbD 0 then rsv r (.cqpushn (lo d) (lo a)) else rsv r (.cqpush (lo d) (lo a))
  else if f3 = 1#3 then
    if f7 = 0#7 then rsv (hi d || a != 0#5 || b != 0#5) (.cqstat (lo d)) else undef
  else if f3 = 2#3 then
    if f7 = 0#7 then rsv (hi d || notBlock a || b != 0#5) (.gpost (lo d) (lo a))
    else if f7 = 1#7 then rsv (hi d || a != 0#5 || b != 0#5) (.gstat (lo d)) else undef
  else if f3 = 3#3 then
    if lvl < 3 then undef
    else if f7 = 0#7 then rsv (hi d || hi a || b != 0#5) (.mbind (lo d) (lo a))
    else if f7 = 1#7 then rsv (hi d || hi a || hi b) (.mclass (lo d) (lo a) (lo b))
    else if f7 = 2#7 then rsv (hi3 d || hi a || hi b) (.mrow (lo3 d) (lo a) (lo b))
    else if f7 = 3#7 then rsv (hi d || hi1 a || b != 0#5) (.mcnt (lo d) (lo1 a)) else undef
  else if f3 = 4#3 then
    if lvl < 3 then undef
    else if f7 = 0#7 then rsv (d != 0#5 || hi a || hi3 b) (.pload (lo a) (lo3 b))
    else if f7 = 1#7 then rsv (d != 0#5 || hi a || hi3 b) (.psave (lo a) (lo3 b))
    else if f7 = 2#7 then rsv (hi d || a != 0#5 || hi3 b) (.pstat (lo d) (lo3 b)) else undef
  else undef

/-- KLOG (R219): the vb field holds the operation above the mask number. -/
def decKlog (g : GReg) (d a b : BitVec 5) : Dec :=
  let r := hi3 d || hi3 a
  let o := b.extractLsb' 3 2
  if o = 0#2 then rsv r (.kand g (lo3 d) (lo3 a) (lo3 b))
  else if o = 1#2 then rsv r (.kor g (lo3 d) (lo3 a) (lo3 b))
  else if o = 2#2 then rsv r (.kxor g (lo3 d) (lo3 a) (lo3 b))
  else rsv r (.kandn g (lo3 d) (lo3 a) (lo3 b))

/-- CV, funct3 = 0 (R142). -/
def decCv0 (f4 : BitVec 4) (g : GReg) (d a b : BitVec 5) : Dec :=
  if f4 = 0#4 then .ok (.vadd g d a b)
  else if f4 = 1#4 then .ok (.vsub g d a b)
  else if f4 = 2#4 then .ok (.vmul g d a b)
  else if f4 = 3#4 then .ok (.vfma g d a b)
  else if f4 = 4#4 then .ok (.vfms g d a b)
  else if f4 = 5#4 then .ok (.vmin g d a b)
  else if f4 = 6#4 then .ok (.vmax g d a b)
  else if f4 = 7#4 then rsv (b != 0#5) (.vabs g d a)
  else if f4 = 8#4 then rsv (b != 0#5) (.vneg g d a)
  else undef

/-- CV, funct3 = 1 (R142). -/
def decCv1 (f4 : BitVec 4) (g : GReg) (d a b : BitVec 5) : Dec :=
  if f4 = 0#4 then .ok (.viadd g d a b)
  else if f4 = 1#4 then .ok (.visub g d a b)
  else if f4 = 2#4 then .ok (.vimul g d a b)
  else if f4 = 3#4 then .ok (.vand g d a b)
  else if f4 = 4#4 then .ok (.vor g d a b)
  else if f4 = 5#4 then .ok (.vxor g d a b)
  else if f4 = 6#4 then .ok (.vshl g d a b)
  else if f4 = 7#4 then .ok (.vshrl g d a b)
  else if f4 = 8#4 then .ok (.vshra g d a b)
  else if f4 = 9#4 then .ok (.vimin g d a b)
  else if f4 = 10#4 then .ok (.vimax g d a b)
  else undef

/-- CV, funct3 = 2 (R142). -/
noncomputable def decCv2 (f4 : BitVec 4) (g : GReg) (d a b : BitVec 5) : Dec :=
  if f4 = 0#4 then rsv (hi3 d) (.vcmpFeq g (lo3 d) a b)
  else if f4 = 1#4 then rsv (hi3 d) (.vcmpFne g (lo3 d) a b)
  else if f4 = 2#4 then rsv (hi3 d) (.vcmpFlt g (lo3 d) a b)
  else if f4 = 3#4 then rsv (hi3 d) (.vcmpFle g (lo3 d) a b)
  else if f4 = 4#4 then rsv (hi3 d) (.vcmpIeq g (lo3 d) a b)
  else if f4 = 5#4 then rsv (hi3 d) (.vcmpIne g (lo3 d) a b)
  else if f4 = 6#4 then rsv (hi3 d) (.vcmpIlt g (lo3 d) a b)
  else if f4 = 7#4 then rsv (hi3 d) (.vcmpIle g (lo3 d) a b)
  else if f4 = 8#4 then .ok (.vsel g d a b)
  else if f4 = 9#4 then decKlog g d a b
  else if f4 = 10#4 then rsv (hi3 d || hi a || b != 0#5) (.kfromx g (lo3 d) (lo a))
  else if f4 = 11#4 then rsv (hi d || hi3 a || b != 0#5) (.ktox g (lo d) (lo3 a))
  else if f4 = 12#4 then rsv (hi d || hi3 a || b != 0#5) (.kpop g (lo d) (lo3 a))
  else if f4 = 13#4 then rsv (hi d || hi3 a || b != 0#5) (.kfirst g (lo d) (lo3 a))
  else undef

/-- CV, funct3 = 3 (R142). -/
noncomputable def decCv3 (f4 : BitVec 4) (g : GReg) (d a b : BitVec 5) : Dec :=
  if f4 = 0#4 then rsv (hi a || b != 0#5) (.vld g d (lo a))
  else if f4 = 1#4 then rsv (hi a || b != 0#5) (.vst g d (lo a))
  else if f4 = 2#4 then rsv (hi a || b != 0#5) (.vstb g d (lo a))
  else if f4 = 3#4 then rsv (hi a || hi b) (.vlds g d (lo a) (lo b))
  else if f4 = 4#4 then rsv (hi a || hi b) (.vsts g d (lo a) (lo b))
  else if f4 = 5#4 then rsv (hi a) (.vgath g d (lo a) b)
  else if f4 = 6#4 then rsv (hi a) (.vscat g d (lo a) b)
  else if f4 = 7#4 then rsv (hi a || b != 0#5) (.vbcx g d (lo a))
  else if f4 = 8#4 then rsv (hi a) (.vmvx g (lo a) b d)
  else if f4 = 9#4 then rsv (hi a) (.vmxv g d (lo a) b)
  else undef

/-- CV, funct3 = 4 (R142). -/
noncomputable def decCv4 (f4 : BitVec 4) (g : GReg) (d a b : BitVec 5) : Dec :=
  if f4 = 0#4 then rsv (!cvtTargetAllowed (b.extractLsb' 0 4)) (.vcvt g d a (b.extractLsb' 4 1) (b.extractLsb' 0 4))
  else if f4 = 1#4 then .ok (.vpack g d a b)
  else if f4 = 2#4 then rsv (!unpackSourceAllowed (b.extractLsb' 0 3)) (.vunpack g d a (b.extractLsb' 3 2) (b.extractLsb' 0 3))
  else undef

/-- CV, funct3 = 5 (R142). -/
noncomputable def decCv5 (lvl : Nat) (f4 : BitVec 4) (g : GReg) (d a b : BitVec 5) : Dec :=
  if f4 = 0#4 then rsv (b != 0#5) (.vrsum g d a)
  else if f4 = 1#4 then rsv (b != 0#5) (.vrmax g d a)
  else if f4 = 2#4 then .ok (.vperm g d a b)
  else if f4 = 3#4 then .ok (.vslide g d a b)
  else if f4 = 4#4 then .ok (.vbcast g d a b)
  else if f4 = 5#4 then (if 2 ≤ lvl then rsv (hi3 b || a == 31#5) (.vscan g d a (lo3 b)) else undef)
  else if f4 = 6#4 then rsv (hi3 b || a == 31#5 || d.getLsbD 0) (.vscanc g d a (lo3 b))
  else if f4 = 7#4 then (if 2 ≤ lvl then undef else rsv (hi3 b || a == 31#5) (.vscanL1 g d a (lo3 b)))
  else undef

/-- CV, funct3 = 6 (R142). -/
noncomputable def decCv6 (f4 : BitVec 4) (g : GReg) (d a b : BitVec 5) : Dec :=
  if f4 = 0#4 then rsv (b != 0#5) (.vexp2 g d a)
  else if f4 = 1#4 then rsv (b != 0#5) (.vlog2 g d a)
  else if f4 = 2#4 then rsv (b != 0#5) (.vrcp g d a)
  else if f4 = 3#4 then rsv (b != 0#5) (.vrsq g d a)
  else if f4 = 4#4 then rsv (b != 0#5) (.vsqrt g d a)
  else if f4 = 5#4 then rsv (b != 0#5) (.vtanh g d a)
  else undef

/-- CV, funct3 = 7 (R142). -/
noncomputable def decCv7 (lvl : Nat) (f4 : BitVec 4) (g : GReg) (d a b : BitVec 5) : Dec :=
  if f4 = 0#4 then rsv (!(1 ≤ d.toNat && d.toNat ≤ 16) || (lvl < 2 && 8 < d.toNat)) (.repv g d a b)
  else if f4 = 1#4 then rsv (hi1 d || !tileTypeAllowed a || b != 0#5) (.tcfg g (lo1 d) a)
  else undef

/-- CV (R142). -/
noncomputable def decCv (lvl : Nat) (f4 : BitVec 4) (g : GReg) (f3 : BitVec 3) (d a b : BitVec 5) : Dec :=
  if f3 = 0#3 then decCv0 f4 g d a b
  else if f3 = 1#3 then decCv1 f4 g d a b
  else if f3 = 2#3 then decCv2 f4 g d a b
  else if f3 = 3#3 then decCv3 f4 g d a b
  else if f3 = 4#3 then decCv4 f4 g d a b
  else if f3 = 5#3 then decCv5 lvl f4 g d a b
  else if f3 = 6#3 then decCv6 f4 g d a b
  else decCv7 lvl f4 g d a b

/-- CM (R143): modes 3 to 15 are trap 0x01 on every CM instruction, and mode 2 is from level 3 on (R147). -/
noncomputable def decCm (lvl : Nat) (f5 : BitVec 5) (g : GReg) (k : KReg) (b a : XReg) (m : BitVec 4) (s t : BitVec 1) : Dec :=
  let r := s != 0#1
  if 6 < f5.toNat || 2 < m.toNat || (m == 2#4 && lvl < 3) then undef
  else if f5 = 0#5 then rsv r (.mma g t a b k m)
  else if f5 = 1#5 then rsv r (.gmma g t a b k m)
  else if f5 = 2#5 then rsv (r || k != 0#3) (.wld g t a b m)
  else if f5 = 3#5 then rsv (r || k != 0#3) (.wlds g t a b m)
  else if f5 = 4#5 then rsv (r || m != 0#4 || a != 0#4 || b != 0#4) (.accz g t k)
  else if f5 = 5#5 then rsv (r || m != 0#4) (.accld g t a b k)
  else rsv (r || m != 0#4) (.accst g t a b k)

/-- A 32-bit instruction (R138). -/
noncomputable def decode32 (lvl : Nat) (w : BitVec 32) : Dec :=
  let op := w.extractLsb' 0 7
  let d := w.extractLsb' 7 5
  let f3 := w.extractLsb' 12 3
  let a := w.extractLsb' 15 5
  let b := w.extractLsb' 20 5
  let f7 := w.extractLsb' 25 7
  let i := w.extractLsb' 20 12
  if op = 0x03#7 then decLoad f3 d a i
  else if op = 0x0B#7 then decCx lvl f7 f3 d a b
  else if op = 0x13#7 then decOpImm f3 d a i
  else if op = 0x17#7 then rsv (hi d) (.auipc (lo d) (w.extractLsb' 12 20))
  else if op = 0x1B#7 then decOpImm32 f3 d a i
  else if op = 0x23#7 then decStore f3 b a (f7 ++ d)
  else if op = 0x2B#7 then decCe lvl f7 f3 d a b
  else if op = 0x33#7 then decOp f7 f3 d a b
  else if op = 0x37#7 then rsv (hi d) (.lui (lo d) (w.extractLsb' 12 20))
  else if op = 0x3B#7 then decOp32 f7 f3 d a b
  else if op = 0x43#7 then
    if w.extractLsb' 25 2 = 0#2 ∧ rmAllowed f3 then
      rsv (hi d || hi a || hi b || hi (w.extractLsb' 27 5)) (.fmaddS (lo d) (lo a) (lo b) (lo (w.extractLsb' 27 5)) f3)
    else undef
  else if op = 0x53#7 then decFp f7 f3 d a b
  else if op = 0x5B#7 then decCv lvl (w.extractLsb' 28 4) (w.extractLsb' 25 3) f3 d a b
  else if op = 0x63#7 then
    decBranch f3 a b (w.extractLsb' 31 1 ++ w.extractLsb' 7 1 ++ w.extractLsb' 25 6 ++ w.extractLsb' 8 4)
  else if op = 0x67#7 then (if f3 = 0#3 then rsv (hi d || hi a) (.jalr (lo d) (lo a) i) else undef)
  else if op = 0x6F#7 then
    rsv (hi d) (.jal (lo d) (w.extractLsb' 31 1 ++ w.extractLsb' 12 8 ++ w.extractLsb' 20 1 ++ w.extractLsb' 21 10))
  else if op = 0x73#7 then decSystem f3 d a i
  else if op = 0x7B#7 then
    decCm lvl (w.extractLsb' 27 5) (w.extractLsb' 24 3) (w.extractLsb' 21 3) (w.extractLsb' 17 4) (w.extractLsb' 13 4)
      (w.extractLsb' 9 4) (w.extractLsb' 8 1) (w.extractLsb' 7 1)
  else undef

/-! ## Compressed instructions (R131, R139, R154) -/

/-- Quadrant 0; funct3 4 is the guard prefix and is no instruction. -/
def decodeC0 (w : BitVec 16) : Dec :=
  let f := w.extractLsb' 13 3
  let a := w.extractLsb' 7 3
  let d := w.extractLsb' 2 3
  let offD := w.extractLsb' 5 2 ++ w.extractLsb' 10 3
  let offW := w.extractLsb' 5 1 ++ w.extractLsb' 10 3 ++ w.extractLsb' 6 1
  if f = 0#3 then
    let i := w.extractLsb' 7 4 ++ w.extractLsb' 11 2 ++ w.extractLsb' 5 1 ++ w.extractLsb' 6 1
    if i = 0#8 then undef else .ok (.cAddi4spn d i)
  else if f = 2#3 then .ok (.cLw d a offW)
  else if f = 3#3 then .ok (.cLd d a offD)
  else if f = 6#3 then .ok (.cSw d a offW)
  else if f = 7#3 then .ok (.cSd d a offD)
  else undef

/-- Quadrant 1. -/
def decodeC1 (w : BitVec 16) : Dec :=
  let f := w.extractLsb' 13 3
  let d := w.extractLsb' 7 5
  let i := w.extractLsb' 12 1 ++ w.extractLsb' 2 5
  let d3 := w.extractLsb' 7 3
  let b3 := w.extractLsb' 2 3
  if f = 0#3 then
    if d = 0#5 ∧ i = 0#6 then .ok .cNop else rsv (hi d) (.cAddi (lo d) i)
  else if f = 1#3 then (if d = 0#5 then undef else rsv (hi d) (.cAddiw (lo d) i))
  else if f = 2#3 then rsv (hi d) (.cLi (lo d) i)
  else if f = 3#3 then
    if i = 0#6 then undef
    else if d = 2#5 then
      .ok (.cAddi16sp (w.extractLsb' 12 1 ++ w.extractLsb' 3 2 ++ w.extractLsb' 5 1 ++ w.extractLsb' 2 1 ++ w.extractLsb' 6 1))
    else rsv (hi d) (.cLui (lo d) i)
  else if f = 4#3 then
    let k := w.extractLsb' 10 2
    if k = 0#2 then .ok (.cSrli d3 i)
    else if k = 1#2 then .ok (.cSrai d3 i)
    else if k = 2#2 then .ok (.cAndi d3 i)
    else
      let m := w.extractLsb' 12 1 ++ w.extractLsb' 5 2
      if m = 0#3 then .ok (.cSub d3 b3)
      else if m = 1#3 then .ok (.cXor d3 b3)
      else if m = 2#3 then .ok (.cOr d3 b3)
      else if m = 3#3 then .ok (.cAnd d3 b3)
      else if m = 4#3 then .ok (.cSubw d3 b3)
      else if m = 5#3 then .ok (.cAddw d3 b3)
      else undef
  else if f = 5#3 then
    .ok (.cJ (w.extractLsb' 12 1 ++ w.extractLsb' 8 1 ++ w.extractLsb' 9 2 ++ w.extractLsb' 6 1 ++ w.extractLsb' 7 1 ++
      w.extractLsb' 2 1 ++ w.extractLsb' 11 1 ++ w.extractLsb' 3 3))
  else
    let o := w.extractLsb' 12 1 ++ w.extractLsb' 5 2 ++ w.extractLsb' 2 1 ++ w.extractLsb' 10 2 ++ w.extractLsb' 3 2
    if f = 6#3 then .ok (.cBeqz d3 o) else .ok (.cBnez d3 o)

/-- Quadrant 2. -/
def decodeC2 (w : BitVec 16) : Dec :=
  let f := w.extractLsb' 13 3
  let d := w.extractLsb' 7 5
  let b := w.extractLsb' 2 5
  let i := w.extractLsb' 12 1 ++ w.extractLsb' 2 5
  if f = 0#3 then rsv (hi d) (.cSlli (lo d) i)
  else if f = 2#3 then
    if d = 0#5 then undef else rsv (hi d) (.cLwsp (lo d) (w.extractLsb' 2 2 ++ w.extractLsb' 12 1 ++ w.extractLsb' 4 3))
  else if f = 3#3 then
    if d = 0#5 then undef else rsv (hi d) (.cLdsp (lo d) (w.extractLsb' 2 3 ++ w.extractLsb' 12 1 ++ w.extractLsb' 5 2))
  else if f = 4#3 then
    if w.getLsbD 12 = false then
      if b = 0#5 then (if d = 0#5 then undef else rsv (hi d) (.cJr (lo d)))
      else rsv (hi d || hi b) (.cMv (lo d) (lo b))
    else if b = 0#5 then (if d = 0#5 then .ok .cEbreak else rsv (hi d) (.cJalr (lo d)))
    else rsv (hi d || hi b) (.cAdd (lo d) (lo b))
  else if f = 6#3 then rsv (hi b) (.cSwsp (lo b) (w.extractLsb' 7 2 ++ w.extractLsb' 9 4))
  else if f = 7#3 then rsv (hi b) (.cSdsp (lo b) (w.extractLsb' 7 3 ++ w.extractLsb' 10 3))
  else undef

/-- A 16-bit instruction by its quadrant. -/
def decode16 (w : BitVec 16) : Dec :=
  if w.extractLsb' 0 2 = 0#2 then decodeC0 w
  else if w.extractLsb' 0 2 = 1#2 then decodeC1 w
  else if w.extractLsb' 0 2 = 2#2 then decodeC2 w
  else undef

/-- A long form (R133); not at level 1 (R147). -/
def decode48 (lvl : Nat) (w : BitVec 48) : Dec :=
  let f := w.extractLsb' 12 4
  let d := w.extractLsb' 8 4
  let i := w.extractLsb' 16 32
  let r := w.getLsbD 7
  if lvl < 2 then undef
  else if f = 0#4 then rsv r (.li32 d i)
  else if f = 1#4 then rsv r (.lih d i)
  else if f = 2#4 then rsv r (.addl d i)
  else if f = 3#4 then rsv r (.andl d i)
  else if f = 4#4 then rsv r (.fli d i)
  else undef

/-! ## Units (R129, R130, R134, R135) -/

/-- The length in bytes that the first parcel gives, and whether it is a length the machine has (R129). -/
def parcelLength (p : BitVec 16) : Nat × Bool :=
  if p.extractLsb' 0 2 ≠ 3#2 then (2, true)
  else if p.extractLsb' 2 3 ≠ 7#3 then (4, true)
  else if p.extractLsb' 0 7 = 0x1F#7 then (6, true)
  else if p.extractLsb' 0 7 = 0x5F#7 then (6, false)
  else (8, false)

/-- One instruction at the low end of a 64-bit little-endian window: its length and what the decoder reads. -/
noncomputable def decodeInstr (lvl : Nat) (w : BitVec 64) : Nat × Dec :=
  let p := parcelLength (w.extractLsb' 0 16)
  if p.2 then
    if p.1 = 2 then (2, decode16 (w.extractLsb' 0 16))
    else if p.1 = 4 then (4, decode32 lvl (w.extractLsb' 0 32))
    else (6, decode48 lvl (w.extractLsb' 0 48))
  else (p.1, undef)

/-- A guard prefix parcel (R134), which level 1 does not have (R147). -/
def isPrefix (lvl : Nat) (p : BitVec 16) : Bool := p.extractLsb' 0 2 == 0#2 && p.extractLsb' 13 3 == 4#3 && 2 ≤ lvl

/-- The guard of a unit: which guard register, and whether the unit is on when it is false (R134, R162). -/
structure Guard where
  reg : GReg
  inv : Bool
deriving DecidableEq, Repr

/-- A decoded unit: its whole length, the address of its instruction after the prefix, its guard, the instruction or
the decode trap (R130). -/
structure DUnit where
  len : Nat
  off : Nat
  guard : Guard
  ins : Dec
deriving DecidableEq, Repr

/-- The guard field of a CV or CM instruction (R132); VSEL's field names a mask. -/
def Instr.gField : Instr → GReg
  | .vadd g _ _ _ => g
  | .vsub g _ _ _ => g
  | .vmul g _ _ _ => g
  | .vfma g _ _ _ => g
  | .vfms g _ _ _ => g
  | .vmin g _ _ _ => g
  | .vmax g _ _ _ => g
  | .vabs g _ _ => g
  | .vneg g _ _ => g
  | .viadd g _ _ _ => g
  | .visub g _ _ _ => g
  | .vimul g _ _ _ => g
  | .vand g _ _ _ => g
  | .vor g _ _ _ => g
  | .vxor g _ _ _ => g
  | .vshl g _ _ _ => g
  | .vshrl g _ _ _ => g
  | .vshra g _ _ _ => g
  | .vimin g _ _ _ => g
  | .vimax g _ _ _ => g
  | .vcmpFeq g _ _ _ => g
  | .vcmpFne g _ _ _ => g
  | .vcmpFlt g _ _ _ => g
  | .vcmpFle g _ _ _ => g
  | .vcmpIeq g _ _ _ => g
  | .vcmpIne g _ _ _ => g
  | .vcmpIlt g _ _ _ => g
  | .vcmpIle g _ _ _ => g
  | .kand g _ _ _ => g
  | .kor g _ _ _ => g
  | .kxor g _ _ _ => g
  | .kandn g _ _ _ => g
  | .kfromx g _ _ => g
  | .ktox g _ _ => g
  | .kpop g _ _ => g
  | .kfirst g _ _ => g
  | .vld g _ _ => g
  | .vst g _ _ => g
  | .vstb g _ _ => g
  | .vlds g _ _ _ => g
  | .vsts g _ _ _ => g
  | .vgath g _ _ _ => g
  | .vscat g _ _ _ => g
  | .vbcx g _ _ => g
  | .vmvx g _ _ _ => g
  | .vmxv g _ _ _ => g
  | .vcvt g _ _ _ _ => g
  | .vpack g _ _ _ => g
  | .vunpack g _ _ _ _ => g
  | .vrsum g _ _ => g
  | .vrmax g _ _ => g
  | .vperm g _ _ _ => g
  | .vslide g _ _ _ => g
  | .vbcast g _ _ _ => g
  | .vscan g _ _ _ => g
  | .vscanL1 g _ _ _ => g
  | .vscanc g _ _ _ => g
  | .vexp2 g _ _ => g
  | .vlog2 g _ _ => g
  | .vrcp g _ _ => g
  | .vrsq g _ _ => g
  | .vsqrt g _ _ => g
  | .vtanh g _ _ => g
  | .repv g _ _ _ => g
  | .tcfg g _ _ => g
  | .mma g _ _ _ _ _ => g
  | .gmma g _ _ _ _ _ => g
  | .wld g _ _ _ _ => g
  | .wlds g _ _ _ _ => g
  | .accz g _ _ => g
  | .accld g _ _ _ _ => g
  | .accst g _ _ _ _ => g
  | _ => 0

/-- CV and CM instructions: those a REPV frame may hold (R231). -/
def Instr.isVector : Instr → Bool
  | .vadd _ _ _ _ | .vsub _ _ _ _ | .vmul _ _ _ _ | .vfma _ _ _ _ | .vfms _ _ _ _
  | .vmin _ _ _ _ | .vmax _ _ _ _ | .vabs _ _ _ | .vneg _ _ _ | .viadd _ _ _ _
  | .visub _ _ _ _ | .vimul _ _ _ _ | .vand _ _ _ _ | .vor _ _ _ _ | .vxor _ _ _ _
  | .vshl _ _ _ _ | .vshrl _ _ _ _ | .vshra _ _ _ _ | .vimin _ _ _ _ | .vimax _ _ _ _
  | .vcmpFeq _ _ _ _ | .vcmpFne _ _ _ _ | .vcmpFlt _ _ _ _ | .vcmpFle _ _ _ _ | .vcmpIeq _ _ _ _
  | .vcmpIne _ _ _ _ | .vcmpIlt _ _ _ _ | .vcmpIle _ _ _ _ | .kand _ _ _ _ | .kor _ _ _ _
  | .kxor _ _ _ _ | .kandn _ _ _ _ | .kfromx _ _ _ | .ktox _ _ _ | .kpop _ _ _
  | .kfirst _ _ _ | .vld _ _ _ | .vst _ _ _ | .vstb _ _ _ | .vlds _ _ _ _
  | .vsts _ _ _ _ | .vgath _ _ _ _ | .vscat _ _ _ _ | .vbcx _ _ _ | .vmvx _ _ _ _
  | .vmxv _ _ _ _ | .vcvt _ _ _ _ _ | .vpack _ _ _ _ | .vunpack _ _ _ _ _ | .vrsum _ _ _
  | .vrmax _ _ _ | .vperm _ _ _ _ | .vslide _ _ _ _ | .vbcast _ _ _ _ | .vscan _ _ _ _
  | .vscanL1 _ _ _ _ | .vscanc _ _ _ _ | .vexp2 _ _ _ | .vlog2 _ _ _ | .vrcp _ _ _
  | .vrsq _ _ _ | .vsqrt _ _ _ | .vtanh _ _ _ | .repv _ _ _ _ | .tcfg _ _ _
  | .mma _ _ _ _ _ _ | .gmma _ _ _ _ _ _ | .wld _ _ _ _ _ | .wlds _ _ _ _ _ | .accz _ _ _
  | .accld _ _ _ _ _ | .accst _ _ _ _ _ => true
  | .vsel _ _ _ _ => true
  | _ => false

/-- The result of a prefix before an instruction (R135): no prefix before VSEL or before a nonzero g field. -/
def prefixed (bits : BitVec 16) (d : Dec) : Dec :=
  match d with
  | .error e => .error e
  | .ok i =>
    let vselOrG := match i with
      | .vsel _ _ _ _ => true
      | _ => i.gField != 0
    rsv (bits.extractLsb' 5 7 != 0#7 || vselOrG) i

/-- One unit from a window of ten bytes (R130, R135, R144). A second prefix is trap 0x02. -/
noncomputable def decodeUnit (lvl : Nat) (w : BitVec 80) : DUnit :=
  let p := w.extractLsb' 0 16
  if isPrefix lvl p then
    let g : Guard := ⟨p.extractLsb' 2 3, p.getLsbD 12⟩
    if isPrefix lvl (w.extractLsb' 16 16) then ⟨4, 2, g, .error 2⟩
    else
      let r := decodeInstr lvl (w.extractLsb' 16 64)
      ⟨2 + r.1, 2, g, prefixed p r.2⟩
  else
    let r := decodeInstr lvl (w.extractLsb' 0 64)
    let g := match r.2 with
      | .ok i => i.gField
      | .error _ => 0
    ⟨r.1, 0, ⟨g, false⟩, r.2⟩

/-- A word that may round by frm, with the fields that a trap 0x02 could lie in put right; none for any other word. What it rounds by shows
in it whatever those fields hold, since the trap of R98 ranks before 0x02 (R144). -/
def modeWord (w : BitVec 32) : Option (BitVec 32) :=
  let op := w.extractLsb' 0 7
  let f3 := w.extractLsb' 12 3
  if op = 0x43#7 then some (w &&& 0x7EF7F7FF#32)
  else if op = 0x53#7 then some ((w &&& 0xFEF7F7FF#32) &&& (if w.extractLsb' 25 7 = 0x2C#7 then 0xFE0FFFFF#32 else 0xFFFFFFFF#32))
  else if op = 0x5B#7 ∧ w.extractLsb' 28 4 = 0#4 ∧ f3 = 4#3 then some ((w &&& 0xFF0FFFFF#32) ||| 0x00100000#32)
  else if op = 0x5B#7 ∧ w.extractLsb' 28 4 = 0#4 ∧ f3 = 5#3 then some (w &&& 0xFE0FFFFF#32)
  else if op = 0x5B#7 then some w
  else none
/-- The instruction whose rounding mode decides between traps 0x01 and 0x02 of a unit (R98, R144). -/
noncomputable def decodeMode (lvl : Nat) (w : BitVec 80) : Option Instr :=
  match (modeWord (if isPrefix lvl (w.extractLsb' 0 16) then w.extractLsb' 16 32 else w.extractLsb' 0 32)).map (decode32 lvl) with
  | some (.ok i) => some i
  | _ => none

/-! ## The encoder -/

/-- The words of an instruction: 16, 32 or 48 bits; an event has none. -/
inductive Enc where
  | none
  | w16 (w : BitVec 16)
  | w32 (w : BitVec 32)
  | w48 (w : BitVec 48)
deriving DecidableEq, Repr

/-- Base, CX and CE fields from the high bit down (R131, R132). -/
def encR (f7 : BitVec 7) (b a : BitVec 5) (f3 : BitVec 3) (d : BitVec 5) (op : BitVec 7) : BitVec 32 :=
  f7 ++ b ++ a ++ f3 ++ d ++ op
/-- An I-format word. -/
def encI (i : BitVec 12) (a : BitVec 5) (f3 : BitVec 3) (d : BitVec 5) (op : BitVec 7) : BitVec 32 := i ++ a ++ f3 ++ d ++ op
/-- A U-format word. -/
def encU (i : BitVec 20) (d : BitVec 5) (op : BitVec 7) : BitVec 32 := i ++ d ++ op
/-- A CV word (R132). -/
def encV (f4 : BitVec 4) (g : GReg) (b a : BitVec 5) (f3 : BitVec 3) (d : BitVec 5) : BitVec 32 :=
  f4 ++ g ++ b ++ a ++ f3 ++ d ++ 0x5B#7
/-- A CM word (R132). -/
def encM (f5 : BitVec 5) (g : GReg) (k : KReg) (b a : XReg) (m : BitVec 4) (t : BitVec 1) : BitVec 32 :=
  f5 ++ g ++ k ++ b ++ a ++ m ++ 0#1 ++ t ++ 0x7B#7
/-- A branch word; i holds offset bits 12 to 1. -/
def encB (i : BitVec 12) (b a : XReg) (f3 : BitVec 3) : BitVec 32 :=
  i.extractLsb' 11 1 ++ i.extractLsb' 4 6 ++ z5 b ++ z5 a ++ f3 ++ i.extractLsb' 0 4 ++ i.extractLsb' 10 1 ++ 0x63#7
/-- A store word. -/
def encS (i : BitVec 12) (b a : XReg) (f3 : BitVec 3) : BitVec 32 :=
  i.extractLsb' 5 7 ++ z5 b ++ z5 a ++ f3 ++ i.extractLsb' 0 5 ++ 0x23#7
/-- A long form (R133). -/
def encL (f : BitVec 4) (d : XReg) (i : BitVec 32) : BitVec 48 := i ++ f ++ d ++ 0x1F#8
/-- A CI word with its 6-bit immediate split. -/
def encCI (f : BitVec 3) (d : BitVec 5) (i : BitVec 6) (q : BitVec 2) : BitVec 16 :=
  f ++ i.extractLsb' 5 1 ++ d ++ i.extractLsb' 0 5 ++ q

/-- The encoding of every instruction that has one. -/
def encode : Instr → Enc
  | .lb d a i => .w32 (encI i (z5 a) 0#3 (z5 d) 0x03#7)
  | .lh d a i => .w32 (encI i (z5 a) 1#3 (z5 d) 0x03#7)
  | .lw d a i => .w32 (encI i (z5 a) 2#3 (z5 d) 0x03#7)
  | .ld d a i => .w32 (encI i (z5 a) 3#3 (z5 d) 0x03#7)
  | .lbu d a i => .w32 (encI i (z5 a) 4#3 (z5 d) 0x03#7)
  | .lhu d a i => .w32 (encI i (z5 a) 5#3 (z5 d) 0x03#7)
  | .lwu d a i => .w32 (encI i (z5 a) 6#3 (z5 d) 0x03#7)
  | .sb b a i => .w32 (encS i b a 0#3)
  | .sh b a i => .w32 (encS i b a 1#3)
  | .sw b a i => .w32 (encS i b a 2#3)
  | .sd b a i => .w32 (encS i b a 3#3)
  | .add d a b => .w32 (encR 0x0#7 (z5 b) (z5 a) 0#3 (z5 d) 0x33#7)
  | .sub d a b => .w32 (encR 0x20#7 (z5 b) (z5 a) 0#3 (z5 d) 0x33#7)
  | .sll d a b => .w32 (encR 0x0#7 (z5 b) (z5 a) 1#3 (z5 d) 0x33#7)
  | .slt d a b => .w32 (encR 0x0#7 (z5 b) (z5 a) 2#3 (z5 d) 0x33#7)
  | .sltu d a b => .w32 (encR 0x0#7 (z5 b) (z5 a) 3#3 (z5 d) 0x33#7)
  | .xor d a b => .w32 (encR 0x0#7 (z5 b) (z5 a) 4#3 (z5 d) 0x33#7)
  | .srl d a b => .w32 (encR 0x0#7 (z5 b) (z5 a) 5#3 (z5 d) 0x33#7)
  | .sra d a b => .w32 (encR 0x20#7 (z5 b) (z5 a) 5#3 (z5 d) 0x33#7)
  | .or d a b => .w32 (encR 0x0#7 (z5 b) (z5 a) 6#3 (z5 d) 0x33#7)
  | .and d a b => .w32 (encR 0x0#7 (z5 b) (z5 a) 7#3 (z5 d) 0x33#7)
  | .andn d a b => .w32 (encR 0x20#7 (z5 b) (z5 a) 7#3 (z5 d) 0x33#7)
  | .orn d a b => .w32 (encR 0x20#7 (z5 b) (z5 a) 6#3 (z5 d) 0x33#7)
  | .min d a b => .w32 (encR 0x5#7 (z5 b) (z5 a) 4#3 (z5 d) 0x33#7)
  | .minu d a b => .w32 (encR 0x5#7 (z5 b) (z5 a) 5#3 (z5 d) 0x33#7)
  | .max d a b => .w32 (encR 0x5#7 (z5 b) (z5 a) 6#3 (z5 d) 0x33#7)
  | .maxu d a b => .w32 (encR 0x5#7 (z5 b) (z5 a) 7#3 (z5 d) 0x33#7)
  | .sh1add d a b => .w32 (encR 0x10#7 (z5 b) (z5 a) 2#3 (z5 d) 0x33#7)
  | .sh2add d a b => .w32 (encR 0x10#7 (z5 b) (z5 a) 4#3 (z5 d) 0x33#7)
  | .sh3add d a b => .w32 (encR 0x10#7 (z5 b) (z5 a) 6#3 (z5 d) 0x33#7)
  | .mul d a b => .w32 (encR 0x1#7 (z5 b) (z5 a) 0#3 (z5 d) 0x33#7)
  | .mulh d a b => .w32 (encR 0x1#7 (z5 b) (z5 a) 1#3 (z5 d) 0x33#7)
  | .mulhu d a b => .w32 (encR 0x1#7 (z5 b) (z5 a) 3#3 (z5 d) 0x33#7)
  | .div d a b => .w32 (encR 0x1#7 (z5 b) (z5 a) 4#3 (z5 d) 0x33#7)
  | .divu d a b => .w32 (encR 0x1#7 (z5 b) (z5 a) 5#3 (z5 d) 0x33#7)
  | .rem d a b => .w32 (encR 0x1#7 (z5 b) (z5 a) 6#3 (z5 d) 0x33#7)
  | .remu d a b => .w32 (encR 0x1#7 (z5 b) (z5 a) 7#3 (z5 d) 0x33#7)
  | .addw d a b => .w32 (encR 0x0#7 (z5 b) (z5 a) 0#3 (z5 d) 0x3B#7)
  | .subw d a b => .w32 (encR 0x20#7 (z5 b) (z5 a) 0#3 (z5 d) 0x3B#7)
  | .addi d a i => .w32 (encI i (z5 a) 0#3 (z5 d) 0x13#7)
  | .slti d a i => .w32 (encI i (z5 a) 2#3 (z5 d) 0x13#7)
  | .sltiu d a i => .w32 (encI i (z5 a) 3#3 (z5 d) 0x13#7)
  | .xori d a i => .w32 (encI i (z5 a) 4#3 (z5 d) 0x13#7)
  | .ori d a i => .w32 (encI i (z5 a) 6#3 (z5 d) 0x13#7)
  | .andi d a i => .w32 (encI i (z5 a) 7#3 (z5 d) 0x13#7)
  | .slli d a s => .w32 (encI (0x0#6 ++ s) (z5 a) 1#3 (z5 d) 0x13#7)
  | .srli d a s => .w32 (encI (0x0#6 ++ s) (z5 a) 5#3 (z5 d) 0x13#7)
  | .srai d a s => .w32 (encI (0x10#6 ++ s) (z5 a) 5#3 (z5 d) 0x13#7)
  | .clz d a => .w32 (encI 0x600#12 (z5 a) 1#3 (z5 d) 0x13#7)
  | .ctz d a => .w32 (encI 0x601#12 (z5 a) 1#3 (z5 d) 0x13#7)
  | .cpop d a => .w32 (encI 0x602#12 (z5 a) 1#3 (z5 d) 0x13#7)
  | .addiw d a i => .w32 (encI i (z5 a) 0#3 (z5 d) 0x1B#7)
  | .slliw d a s => .w32 (encI (0x0#7 ++ s) (z5 a) 1#3 (z5 d) 0x1B#7)
  | .srliw d a s => .w32 (encI (0x0#7 ++ s) (z5 a) 5#3 (z5 d) 0x1B#7)
  | .sraiw d a s => .w32 (encI (0x20#7 ++ s) (z5 a) 5#3 (z5 d) 0x1B#7)
  | .lui d i => .w32 (encU i (z5 d) 0x37#7)
  | .auipc d i => .w32 (encU i (z5 d) 0x17#7)
  | .beq a b i => .w32 (encB i b a 0#3)
  | .bne a b i => .w32 (encB i b a 1#3)
  | .blt a b i => .w32 (encB i b a 4#3)
  | .bge a b i => .w32 (encB i b a 5#3)
  | .bltu a b i => .w32 (encB i b a 6#3)
  | .bgeu a b i => .w32 (encB i b a 7#3)
  | .jal d i => .w32 (encU (i.extractLsb' 19 1 ++ i.extractLsb' 0 10 ++ i.extractLsb' 10 1 ++ i.extractLsb' 11 8) (z5 d) 0x6F#7)
  | .jalr d a i => .w32 (encI i (z5 a) 0#3 (z5 d) 0x67#7)
  | .cAddi4spn d i => .w16 (0#3 ++ i.extractLsb' 2 2 ++ i.extractLsb' 4 4 ++ i.extractLsb' 0 1 ++ i.extractLsb' 1 1 ++ d ++ 0#2)
  | .cLw d a i => .w16 (2#3 ++ i.extractLsb' 1 3 ++ a ++ i.extractLsb' 0 1 ++ i.extractLsb' 4 1 ++ d ++ 0#2)
  | .cSw d a i => .w16 (6#3 ++ i.extractLsb' 1 3 ++ a ++ i.extractLsb' 0 1 ++ i.extractLsb' 4 1 ++ d ++ 0#2)
  | .cLd d a i => .w16 (3#3 ++ i.extractLsb' 0 3 ++ a ++ i.extractLsb' 3 2 ++ d ++ 0#2)
  | .cSd d a i => .w16 (7#3 ++ i.extractLsb' 0 3 ++ a ++ i.extractLsb' 3 2 ++ d ++ 0#2)
  | .cNop => .w16 1#16
  | .cAddi d i => .w16 (encCI 0#3 (z5 d) i 1#2)
  | .cAddiw d i => .w16 (encCI 1#3 (z5 d) i 1#2)
  | .cLi d i => .w16 (encCI 2#3 (z5 d) i 1#2)
  | .cLui d i => .w16 (encCI 3#3 (z5 d) i 1#2)
  | .cSlli d i => .w16 (encCI 0#3 (z5 d) i 2#2)
  | .cAddi16sp i => .w16 (3#3 ++ i.extractLsb' 5 1 ++ 2#5 ++ i.extractLsb' 0 1 ++ i.extractLsb' 2 1 ++ i.extractLsb' 3 2 ++ i.extractLsb' 1 1 ++ 1#2)
  | .cSrli d i => .w16 (encCI 4#3 (0#2 ++ d) i 1#2)
  | .cSrai d i => .w16 (encCI 4#3 (1#2 ++ d) i 1#2)
  | .cAndi d i => .w16 (encCI 4#3 (2#2 ++ d) i 1#2)
  | .cSub d b => .w16 (4#3 ++ 0#1 ++ 3#2 ++ d ++ 0#2 ++ b ++ 1#2)
  | .cXor d b => .w16 (4#3 ++ 0#1 ++ 3#2 ++ d ++ 1#2 ++ b ++ 1#2)
  | .cOr d b => .w16 (4#3 ++ 0#1 ++ 3#2 ++ d ++ 2#2 ++ b ++ 1#2)
  | .cAnd d b => .w16 (4#3 ++ 0#1 ++ 3#2 ++ d ++ 3#2 ++ b ++ 1#2)
  | .cSubw d b => .w16 (4#3 ++ 1#1 ++ 3#2 ++ d ++ 0#2 ++ b ++ 1#2)
  | .cAddw d b => .w16 (4#3 ++ 1#1 ++ 3#2 ++ d ++ 1#2 ++ b ++ 1#2)
  | .cJ i => .w16 (5#3 ++ i.extractLsb' 10 1 ++ i.extractLsb' 3 1 ++ i.extractLsb' 7 2 ++ i.extractLsb' 9 1 ++ i.extractLsb' 5 1 ++ i.extractLsb' 6 1 ++
      i.extractLsb' 0 3 ++ i.extractLsb' 4 1 ++ 1#2)
  | .cBeqz a i => .w16 (6#3 ++ i.extractLsb' 7 1 ++ i.extractLsb' 2 2 ++ a ++ i.extractLsb' 5 2 ++ i.extractLsb' 0 2 ++ i.extractLsb' 4 1 ++ 1#2)
  | .cBnez a i => .w16 (7#3 ++ i.extractLsb' 7 1 ++ i.extractLsb' 2 2 ++ a ++ i.extractLsb' 5 2 ++ i.extractLsb' 0 2 ++ i.extractLsb' 4 1 ++ 1#2)
  | .cLwsp d i => .w16 (2#3 ++ i.extractLsb' 3 1 ++ z5 d ++ i.extractLsb' 0 3 ++ i.extractLsb' 4 2 ++ 2#2)
  | .cLdsp d i => .w16 (3#3 ++ i.extractLsb' 2 1 ++ z5 d ++ i.extractLsb' 0 2 ++ i.extractLsb' 3 3 ++ 2#2)
  | .cSwsp b i => .w16 (6#3 ++ i.extractLsb' 0 4 ++ i.extractLsb' 4 2 ++ z5 b ++ 2#2)
  | .cSdsp b i => .w16 (7#3 ++ i.extractLsb' 0 3 ++ i.extractLsb' 3 3 ++ z5 b ++ 2#2)
  | .cJr a => .w16 (8#4 ++ z5 a ++ 2#7)
  | .cJalr a => .w16 (9#4 ++ z5 a ++ 2#7)
  | .cMv d b => .w16 (8#4 ++ z5 d ++ z5 b ++ 2#2)
  | .cAdd d b => .w16 (9#4 ++ z5 d ++ z5 b ++ 2#2)
  | .cEbreak => .w16 0x9002#16
  | .faddS d a b r => .w32 (encR 0x0#7 (z5 b) (z5 a) r (z5 d) 0x53#7)
  | .fsubS d a b r => .w32 (encR 0x4#7 (z5 b) (z5 a) r (z5 d) 0x53#7)
  | .fmulS d a b r => .w32 (encR 0x8#7 (z5 b) (z5 a) r (z5 d) 0x53#7)
  | .fdivS d a b r => .w32 (encR 0xC#7 (z5 b) (z5 a) r (z5 d) 0x53#7)
  | .fsqrtS d a r => .w32 (encR 0x2C#7 0#5 (z5 a) r (z5 d) 0x53#7)
  | .fmaddS d a b c r => .w32 (encR (z5 c ++ 0#2) (z5 b) (z5 a) r (z5 d) 0x43#7)
  | .fsgnjS d a b => .w32 (encR 0x10#7 (z5 b) (z5 a) 0#3 (z5 d) 0x53#7)
  | .fsgnjnS d a b => .w32 (encR 0x10#7 (z5 b) (z5 a) 1#3 (z5 d) 0x53#7)
  | .fminS d a b => .w32 (encR 0x14#7 (z5 b) (z5 a) 0#3 (z5 d) 0x53#7)
  | .fmaxS d a b => .w32 (encR 0x14#7 (z5 b) (z5 a) 1#3 (z5 d) 0x53#7)
  | .fleS d a b => .w32 (encR 0x50#7 (z5 b) (z5 a) 0#3 (z5 d) 0x53#7)
  | .fltS d a b => .w32 (encR 0x50#7 (z5 b) (z5 a) 1#3 (z5 d) 0x53#7)
  | .feqS d a b => .w32 (encR 0x50#7 (z5 b) (z5 a) 2#3 (z5 d) 0x53#7)
  | .fcvtWS d a r => .w32 (encR 0x60#7 0#5 (z5 a) r (z5 d) 0x53#7)
  | .fcvtLS d a r => .w32 (encR 0x60#7 2#5 (z5 a) r (z5 d) 0x53#7)
  | .fcvtSW d a r => .w32 (encR 0x68#7 0#5 (z5 a) r (z5 d) 0x53#7)
  | .fcvtSL d a r => .w32 (encR 0x68#7 2#5 (z5 a) r (z5 d) 0x53#7)
  | .li32 d i => .w48 (encL 0#4 d i)
  | .lih d i => .w48 (encL 1#4 d i)
  | .addl d i => .w48 (encL 2#4 d i)
  | .andl d i => .w48 (encL 3#4 d i)
  | .fli d i => .w48 (encL 4#4 d i)
  | .gcmpEq d a b => .w32 (encR 0x10#7 (z5 b) (z5 a) 3#3 (z53 d) 0x0B#7)
  | .gcmpNe d a b => .w32 (encR 0x11#7 (z5 b) (z5 a) 3#3 (z53 d) 0x0B#7)
  | .gcmpLt d a b => .w32 (encR 0x12#7 (z5 b) (z5 a) 3#3 (z53 d) 0x0B#7)
  | .gcmpGe d a b => .w32 (encR 0x13#7 (z5 b) (z5 a) 3#3 (z53 d) 0x0B#7)
  | .gcmpLtu d a b => .w32 (encR 0x14#7 (z5 b) (z5 a) 3#3 (z53 d) 0x0B#7)
  | .gcmpGeu d a b => .w32 (encR 0x15#7 (z5 b) (z5 a) 3#3 (z53 d) 0x0B#7)
  | .gand d a b => .w32 (encR 0x18#7 (0#2 ++ b) (0#2 ++ a) 3#3 (z53 d) 0x0B#7)
  | .gor d a b => .w32 (encR 0x18#7 (1#2 ++ b) (0#2 ++ a) 3#3 (z53 d) 0x0B#7)
  | .gxor d a b => .w32 (encR 0x18#7 (0#2 ++ b) (1#2 ++ a) 3#3 (z53 d) 0x0B#7)
  | .gandn d a b => .w32 (encR 0x18#7 (1#2 ++ b) (1#2 ++ a) 3#3 (z53 d) 0x0B#7)
  | .gtox d => .w32 (encR 0x19#7 0#5 0#5 3#3 (z5 d) 0x0B#7)
  | .gfromx a => .w32 (encR 0x1A#7 0#5 (z5 a) 3#3 0#5 0x0B#7)
  | .ecall => .w32 0x73#32
  | .ebreak => .w32 0x00100073#32
  | .wfi => .w32 0x10500073#32
  | .csrrw d a c => .w32 (encI c (z5 a) 1#3 (z5 d) 0x73#7)
  | .csrrs d a c => .w32 (encI c (z5 a) 2#3 (z5 d) 0x73#7)
  | .csrrc d a c => .w32 (encI c (z5 a) 3#3 (z5 d) 0x73#7)
  | .csrrwi d u c => .w32 (encI c u 5#3 (z5 d) 0x73#7)
  | .csrrsi d u c => .w32 (encI c u 6#3 (z5 d) 0x73#7)
  | .csrrci d u c => .w32 (encI c u 7#3 (z5 d) 0x73#7)
  | .tret => .w32 (encR 0#7 0#5 0#5 7#3 0#5 0x0B#7)
  | .fcreate d a => .w32 (encR 0#7 0#5 (z5 a) 0#3 (z5 d) 0x0B#7)
  | .fsync d a => .w32 (encR 1#7 0#5 (z5 a) 0#3 (z5 d) 0x0B#7)
  | .fbreak a => .w32 (encR 2#7 0#5 (z5 a) 0#3 0#5 0x0B#7)
  | .fkill a => .w32 (encR 3#7 0#5 (z5 a) 0#3 0#5 0x0B#7)
  | .lsend k a => .w32 (encR (1#5 ++ k) 0#5 (z5 a) 0#3 0#5 0x0B#7)
  | .tself d s => .w32 (encR 8#7 0#5 s 0#3 (z5 d) 0x0B#7)
  | .thalt => .w32 (encR 9#7 0#5 0#5 0#3 0#5 0x0B#7)
  | .bjoin n => .w32 (encR 0#7 (n.extractLsb' 5 5) (n.extractLsb' 0 5) 1#3 0#5 0x0B#7)
  | .bleave n => .w32 (encR 1#7 (n.extractLsb' 5 5) (n.extractLsb' 0 5) 1#3 0#5 0x0B#7)
  | .barw n => .w32 (encR 2#7 (n.extractLsb' 5 5) (n.extractLsb' 0 5) 1#3 0#5 0x0B#7)
  | .bara n => .w32 (encR 3#7 (n.extractLsb' 5 5) (n.extractLsb' 0 5) 1#3 0#5 0x0B#7)
  | .bwait n => .w32 (encR 4#7 (n.extractLsb' 5 5) (n.extractLsb' 0 5) 1#3 0#5 0x0B#7)
  | .ldc d a => .w32 (encR 0#7 0#5 (z5 a) 2#3 (z5 d) 0x0B#7)
  | .ldp d a => .w32 (encR 1#7 0#5 (z5 a) 2#3 (z5 d) 0x0B#7)
  | .stf a b => .w32 (encR 2#7 (z5 b) (z5 a) 2#3 0#5 0x0B#7)
  | .sete a => .w32 (encR 3#7 0#5 (z5 a) 2#3 0#5 0x0B#7)
  | .fest d a => .w32 (encR 4#7 0#5 (z5 a) 2#3 (z5 d) 0x0B#7)
  | .mbsend a b => .w32 (encR 8#7 (z5 b) (z5 a) 2#3 0#5 0x0B#7)
  | .mbrecv d => .w32 (encR 9#7 0#5 0#5 2#3 (z5 d) 0x0B#7)
  | .mbpoll d g => .w32 (encR 0xA#7 0#5 (z53 g) 2#3 (z5 d) 0x0B#7)
  | .qmap q e => .w32 (encR 0#7 (z52 e) (z52 q) 3#3 0#5 0x0B#7)
  | .qunmap q => .w32 (encR 1#7 0#5 (z52 q) 3#3 0#5 0x0B#7)
  | .qctl q a => .w32 (encR 2#7 (z52 q) (z5 a) 3#3 0#5 0x0B#7)
  | .qstat d q => .w32 (encR 3#7 0#5 (z52 q) 3#3 (z5 d) 0x0B#7)
  | .hset a e => .w32 (encR 8#7 (z51 e) (z5 a) 3#3 0#5 0x0B#7)
  | .hret => .w32 (encR 9#7 0#5 0#5 3#3 0#5 0x0B#7)
  | .hmask v => .w32 (encR 0xA#7 0#5 (z51 v) 3#3 0#5 0x0B#7)
  | .wfe l => .w32 (encR 0xC#7 0#5 (z5 l) 3#3 0#5 0x0B#7)
  | .evsig a l => .w32 (encR 0xD#7 (z5 l) (z5 a) 3#3 0#5 0x0B#7)
  | .fenceO s => .w32 (encR 0#7 0#5 0#5 4#3 s 0x0B#7)
  | .fenceA s => .w32 (encR 1#7 0#5 0#5 4#3 s 0x0B#7)
  | .fenceX s => .w32 (encR 2#7 0#5 0#5 4#3 s 0x0B#7)
  | .fenceAll s => .w32 (encR 3#7 0#5 0#5 4#3 s 0x0B#7)
  | .ldaq d a s => .w32 (encR 8#7 (z5 d) (z5 a) 4#3 s 0x0B#7)
  | .strl a b s => .w32 (encR 9#7 (z5 b) (z5 a) 4#3 s 0x0B#7)
  | .ldmig d a => .w32 (encR 0xA#7 0#5 (z5 a) 4#3 (z5 d) 0x0B#7)
  | .cinv a b => .w32 (encR 0xC#7 (z5 b) (z5 a) 4#3 0#5 0x0B#7)
  | .pref a l => .w32 (encR 0xD#7 (z51 l) (z5 a) 4#3 0#5 0x0B#7)
  | .aadd w s d a b => .w32 (encR (0#4 ++ w ++ s) (z5 b) (z5 a) 5#3 (z5 d) 0x0B#7)
  | .aand w s d a b => .w32 (encR (1#4 ++ w ++ s) (z5 b) (z5 a) 5#3 (z5 d) 0x0B#7)
  | .aor w s d a b => .w32 (encR (2#4 ++ w ++ s) (z5 b) (z5 a) 5#3 (z5 d) 0x0B#7)
  | .axor w s d a b => .w32 (encR (3#4 ++ w ++ s) (z5 b) (z5 a) 5#3 (z5 d) 0x0B#7)
  | .asmin w s d a b => .w32 (encR (4#4 ++ w ++ s) (z5 b) (z5 a) 5#3 (z5 d) 0x0B#7)
  | .asmax w s d a b => .w32 (encR (5#4 ++ w ++ s) (z5 b) (z5 a) 5#3 (z5 d) 0x0B#7)
  | .aumin w s d a b => .w32 (encR (6#4 ++ w ++ s) (z5 b) (z5 a) 5#3 (z5 d) 0x0B#7)
  | .aumax w s d a b => .w32 (encR (7#4 ++ w ++ s) (z5 b) (z5 a) 5#3 (z5 d) 0x0B#7)
  | .aswap w s d a b => .w32 (encR (8#4 ++ w ++ s) (z5 b) (z5 a) 5#3 (z5 d) 0x0B#7)
  | .acas w s d a b => .w32 (encR (9#4 ++ w ++ s) (z5 b) (z5 a) 5#3 (z5 d) 0x0B#7)
  | .afadd s d a b => .w32 (encR (10#4 ++ 0#1 ++ s) (z5 b) (z5 a) 5#3 (z5 d) 0x0B#7)
  | .afaddb s d a b => .w32 (encR (11#4 ++ 0#1 ++ s) (z5 b) (z5 a) 5#3 (z5 d) 0x0B#7)
  | .lrln d a => .w32 (encR 0#7 0#5 (z5 a) 6#3 (z5 d) 0x0B#7)
  | .scln d a => .w32 (encR 1#7 0#5 (z5 a) 6#3 (z5 d) 0x0B#7)
  | .cqpush d a => .w32 (encR 0#7 0#5 (z5 a) 0#3 (z5 d) 0x2B#7)
  | .cqpushn d a => .w32 (encR 1#7 0#5 (z5 a) 0#3 (z5 d) 0x2B#7)
  | .cqstat d => .w32 (encR 0#7 0#5 0#5 1#3 (z5 d) 0x2B#7)
  | .gpost d a => .w32 (encR 0#7 0#5 (z5 a) 2#3 (z5 d) 0x2B#7)
  | .gstat d => .w32 (encR 1#7 0#5 0#5 2#3 (z5 d) 0x2B#7)
  | .mbind d a => .w32 (encR 0#7 0#5 (z5 a) 3#3 (z5 d) 0x2B#7)
  | .mclass d a b => .w32 (encR 1#7 (z5 b) (z5 a) 3#3 (z5 d) 0x2B#7)
  | .mrow d a b => .w32 (encR 2#7 (z5 b) (z5 a) 3#3 (z53 d) 0x2B#7)
  | .mcnt d c => .w32 (encR 3#7 0#5 (z51 c) 3#3 (z5 d) 0x2B#7)
  | .pload a n => .w32 (encR 0#7 (z53 n) (z5 a) 4#3 0#5 0x2B#7)
  | .psave a n => .w32 (encR 1#7 (z53 n) (z5 a) 4#3 0#5 0x2B#7)
  | .pstat d n => .w32 (encR 2#7 (z53 n) 0#5 4#3 (z5 d) 0x2B#7)
  | .vadd g d a b => .w32 (encV 0#4 g b a 0#3 d)
  | .vsub g d a b => .w32 (encV 1#4 g b a 0#3 d)
  | .vmul g d a b => .w32 (encV 2#4 g b a 0#3 d)
  | .vfma g d a b => .w32 (encV 3#4 g b a 0#3 d)
  | .vfms g d a b => .w32 (encV 4#4 g b a 0#3 d)
  | .vmin g d a b => .w32 (encV 5#4 g b a 0#3 d)
  | .vmax g d a b => .w32 (encV 6#4 g b a 0#3 d)
  | .vabs g d a => .w32 (encV 7#4 g 0#5 a 0#3 d)
  | .vneg g d a => .w32 (encV 8#4 g 0#5 a 0#3 d)
  | .viadd g d a b => .w32 (encV 0#4 g b a 1#3 d)
  | .visub g d a b => .w32 (encV 1#4 g b a 1#3 d)
  | .vimul g d a b => .w32 (encV 2#4 g b a 1#3 d)
  | .vand g d a b => .w32 (encV 3#4 g b a 1#3 d)
  | .vor g d a b => .w32 (encV 4#4 g b a 1#3 d)
  | .vxor g d a b => .w32 (encV 5#4 g b a 1#3 d)
  | .vshl g d a b => .w32 (encV 6#4 g b a 1#3 d)
  | .vshrl g d a b => .w32 (encV 7#4 g b a 1#3 d)
  | .vshra g d a b => .w32 (encV 8#4 g b a 1#3 d)
  | .vimin g d a b => .w32 (encV 9#4 g b a 1#3 d)
  | .vimax g d a b => .w32 (encV 10#4 g b a 1#3 d)
  | .vcmpFeq g d a b => .w32 (encV 0#4 g b a 2#3 (z53 d))
  | .vcmpFne g d a b => .w32 (encV 1#4 g b a 2#3 (z53 d))
  | .vcmpFlt g d a b => .w32 (encV 2#4 g b a 2#3 (z53 d))
  | .vcmpFle g d a b => .w32 (encV 3#4 g b a 2#3 (z53 d))
  | .vcmpIeq g d a b => .w32 (encV 4#4 g b a 2#3 (z53 d))
  | .vcmpIne g d a b => .w32 (encV 5#4 g b a 2#3 (z53 d))
  | .vcmpIlt g d a b => .w32 (encV 6#4 g b a 2#3 (z53 d))
  | .vcmpIle g d a b => .w32 (encV 7#4 g b a 2#3 (z53 d))
  | .vsel k d a b => .w32 (encV 8#4 k b a 2#3 d)
  | .kand g d a b => .w32 (encV 9#4 g (0#2 ++ b) (z53 a) 2#3 (z53 d))
  | .kor g d a b => .w32 (encV 9#4 g (1#2 ++ b) (z53 a) 2#3 (z53 d))
  | .kxor g d a b => .w32 (encV 9#4 g (2#2 ++ b) (z53 a) 2#3 (z53 d))
  | .kandn g d a b => .w32 (encV 9#4 g (3#2 ++ b) (z53 a) 2#3 (z53 d))
  | .kfromx g d a => .w32 (encV 10#4 g 0#5 (z5 a) 2#3 (z53 d))
  | .ktox g d a => .w32 (encV 11#4 g 0#5 (z53 a) 2#3 (z5 d))
  | .kpop g d a => .w32 (encV 12#4 g 0#5 (z53 a) 2#3 (z5 d))
  | .kfirst g d a => .w32 (encV 13#4 g 0#5 (z53 a) 2#3 (z5 d))
  | .vld g d a => .w32 (encV 0#4 g 0#5 (z5 a) 3#3 d)
  | .vst g d a => .w32 (encV 1#4 g 0#5 (z5 a) 3#3 d)
  | .vstb g d a => .w32 (encV 2#4 g 0#5 (z5 a) 3#3 d)
  | .vlds g d a b => .w32 (encV 3#4 g (z5 b) (z5 a) 3#3 d)
  | .vsts g d a b => .w32 (encV 4#4 g (z5 b) (z5 a) 3#3 d)
  | .vgath g d a b => .w32 (encV 5#4 g b (z5 a) 3#3 d)
  | .vscat g d a b => .w32 (encV 6#4 g b (z5 a) 3#3 d)
  | .vbcx g d a => .w32 (encV 7#4 g 0#5 (z5 a) 3#3 d)
  | .vmvx g d v l => .w32 (encV 8#4 g v (z5 d) 3#3 l)
  | .vmxv g d a l => .w32 (encV 9#4 g l (z5 a) 3#3 d)
  | .vcvt g d a s t => .w32 (encV 0#4 g (s ++ t) a 4#3 d)
  | .vpack g d a b => .w32 (encV 1#4 g b a 4#3 d)
  | .vunpack g d a p t => .w32 (encV 2#4 g (p ++ t) a 4#3 d)
  | .vrsum g d a => .w32 (encV 0#4 g 0#5 a 5#3 d)
  | .vrmax g d a => .w32 (encV 1#4 g 0#5 a 5#3 d)
  | .vperm g d a b => .w32 (encV 2#4 g b a 5#3 d)
  | .vslide g d a l => .w32 (encV 3#4 g l a 5#3 d)
  | .vbcast g d a l => .w32 (encV 4#4 g l a 5#3 d)
  | .vscan g d a k => .w32 (encV 5#4 g (z53 k) a 5#3 d)
  | .vscanc g d a k => .w32 (encV 6#4 g (z53 k) a 5#3 d)
  | .vscanL1 g d a k => .w32 (encV 7#4 g (z53 k) a 5#3 d)
  | .vexp2 g d a => .w32 (encV 0#4 g 0#5 a 6#3 d)
  | .vlog2 g d a => .w32 (encV 1#4 g 0#5 a 6#3 d)
  | .vrcp g d a => .w32 (encV 2#4 g 0#5 a 6#3 d)
  | .vrsq g d a => .w32 (encV 3#4 g 0#5 a 6#3 d)
  | .vsqrt g d a => .w32 (encV 4#4 g 0#5 a 6#3 d)
  | .vtanh g d a => .w32 (encV 5#4 g 0#5 a 6#3 d)
  | .repv g l c s => .w32 (encV 0#4 g s c 7#3 l)
  | .tcfg g t y => .w32 (encV 1#4 g 0#5 y 7#3 (z51 t))
  | .mma g t a b k m => .w32 (encM 0#5 g k b a m t)
  | .gmma g t a b k m => .w32 (encM 1#5 g k b a m t)
  | .wld g t a b m => .w32 (encM 2#5 g 0#3 b a m t)
  | .wlds g t a b m => .w32 (encM 3#5 g 0#3 b a m t)
  | .accz g t k => .w32 (encM 4#5 g k 0#4 0#4 0#4 t)
  | .accld g t a b k => .w32 (encM 5#5 g k b a 0#4 t)
  | .accst g t a b k => .w32 (encM 6#5 g k b a 0#4 t)
  | _ => .none

/-- The level a word is read at: VSCAN_L1 is level 1's own (R147); everything else is defined at level 3. -/
def Instr.level : Instr → Nat
  | .vscanL1 _ _ _ _ => 1
  | _ => 3

/-- What the decoder reads from an encoding. -/
noncomputable def decodeEnc (lvl : Nat) : Enc → Dec
  | .none => undef
  | .w16 w => decode16 w
  | .w32 w => decode32 lvl w
  | .w48 w => decode48 lvl w

/-- The bytes of an instruction, little-endian (R4, R129). -/
def encodeBytes (i : Instr) : List Byte :=
  match encode i with
  | .none => []
  | .w16 w => [w.extractLsb' 0 8, w.extractLsb' 8 8]
  | .w32 w => [w.extractLsb' 0 8, w.extractLsb' 8 8, w.extractLsb' 16 8, w.extractLsb' 24 8]
  | .w48 w => [w.extractLsb' 0 8, w.extractLsb' 8 8, w.extractLsb' 16 8, w.extractLsb' 24 8, w.extractLsb' 32 8, w.extractLsb' 40 8]

/-- The instruction whose low nbits are w and whose higher bits are 0, at level 3 or, for an encoding only level 1 has,
at level 1. -/
noncomputable def decodeTableWord (_nbits w : Nat) : Option Instr :=
  match (decodeInstr 3 (BitVec.ofNat 64 w)).2 with
  | .ok i => some i
  | .error _ =>
    match (decodeInstr 1 (BitVec.ofNat 64 w)).2 with
    | .ok i => some i
    | .error _ => none

end Sys2Proof
end

