-- ==== Sys2Proof/Machine/Ports.lean ====
section
/-! DEFINITION. The registers each instruction touches, for the issue wheel: sources that must be full (R29), destinations and
rows that the scoreboard holds (R27, R30), and which instructions make a request or post a command (R88). -/

namespace Sys2Proof

/-- The RISC-V HINT encodings: no-ops that read and write nothing (R139). -/
def Instr.hint : Instr → Bool
  | .add d _ _ | .sub d _ _ | .sll d _ _ | .slt d _ _ | .sltu d _ _ | .xor d _ _ | .srl d _ _ | .sra d _ _ | .or d _ _ | .and d _ _
  | .addi d _ _ | .slti d _ _ | .sltiu d _ _ | .xori d _ _ | .ori d _ _ | .andi d _ _ | .slli d _ _ | .srli d _ _ | .srai d _ _
  | .addw d _ _ | .subw d _ _ | .addiw d _ _ | .slliw d _ _ | .srliw d _ _ | .sraiw d _ _ | .lui d _ | .auipc d _
  | .cLi d _ | .cLui d _ | .cMv d _ | .cAdd d _ => d == 0
  | .cAddi d i | .cSlli d i => d == 0 || i == 0
  | .cSrli _ i | .cSrai _ i => i == 0
  | .cNop => true
  | _ => false

/-- The x registers an instruction names as sources (R29); a command names four (R256), a service four (R164). -/
def Instr.srcNames : Instr → List XReg
  | .lb _ a _ | .lh _ a _ | .lw _ a _ | .ld _ a _ | .lbu _ a _ | .lhu _ a _ | .lwu _ a _ | .addi _ a _ | .slti _ a _
  | .sltiu _ a _ | .xori _ a _ | .ori _ a _ | .andi _ a _ | .slli _ a _ | .srli _ a _ | .srai _ a _ | .clz _ a
  | .ctz _ a | .cpop _ a | .addiw _ a _ | .slliw _ a _ | .srliw _ a _ | .sraiw _ a _ | .jalr _ a _ | .cJr a
  | .cJalr a | .fsqrtS _ a _ | .fcvtWS _ a _ | .fcvtLS _ a _ | .fcvtSW _ a _ | .fcvtSL _ a _ | .gfromx a
  | .csrrw _ a _ | .csrrs _ a _ | .csrrc _ a _ | .fcreate _ a | .fsync _ a | .fbreak a | .fkill a | .lsend _ a
  | .ldc _ a | .ldp _ a | .sete a | .fest _ a | .qctl _ a | .hset a _ | .evsig a _ | .ldaq _ a _ | .ldmig _ a
  | .pref a _ | .lrln _ a | .scln _ a | .mbind _ a | .pload a _ | .psave a _ | .kfromx _ _ a | .vld _ _ a
  | .vst _ _ a | .vstb _ _ a | .vgath _ _ a _ | .vscat _ _ a _ | .vbcx _ _ a | .vmxv _ _ a _ => [a]
  | .sb b a _ | .sh b a _ | .sw b a _ | .sd b a _ => [b, a]
  | .add _ a b | .sub _ a b | .sll _ a b | .slt _ a b | .sltu _ a b | .xor _ a b | .srl _ a b | .sra _ a b
  | .or _ a b | .and _ a b | .andn _ a b | .orn _ a b | .min _ a b | .minu _ a b | .max _ a b | .maxu _ a b
  | .sh1add _ a b | .sh2add _ a b | .sh3add _ a b | .mul _ a b | .mulh _ a b | .mulhu _ a b | .div _ a b
  | .divu _ a b | .rem _ a b | .remu _ a b | .addw _ a b | .subw _ a b | .beq a b _ | .bne a b _ | .blt a b _
  | .bge a b _ | .bltu a b _ | .bgeu a b _ | .faddS _ a b _ | .fsubS _ a b _ | .fmulS _ a b _ | .fdivS _ a b _
  | .fsgnjS _ a b | .fsgnjnS _ a b | .fminS _ a b | .fmaxS _ a b | .fleS _ a b | .fltS _ a b | .feqS _ a b
  | .gcmpEq _ a b | .gcmpNe _ a b | .gcmpLt _ a b | .gcmpGe _ a b | .gcmpLtu _ a b | .gcmpGeu _ a b | .stf a b
  | .mbsend a b | .strl a b _ | .cinv a b | .aadd _ _ _ a b | .aand _ _ _ a b | .aor _ _ _ a b | .axor _ _ _ a b
  | .asmin _ _ _ a b | .asmax _ _ _ a b | .aumin _ _ _ a b | .aumax _ _ _ a b | .aswap _ _ _ a b | .afadd _ _ a b
  | .afaddb _ _ a b | .mclass _ a b | .mrow _ a b | .vlds _ _ a b | .vsts _ _ a b | .mma _ _ a b _ _
  | .gmma _ _ a b _ _ | .wld _ _ a b _ | .wlds _ _ a b _ | .accld _ _ a b _ | .accst _ _ a b _ => [a, b]
  | .cAddi4spn _ _ | .cAddi16sp _ | .cLwsp _ _ | .cLdsp _ _ => [2]
  | .cLw _ a _ | .cLd _ a _ | .cBeqz a _ | .cBnez a _ => [c3 a]
  | .cSw b a _ | .cSd b a _ => [c3 a, c3 b]
  | .cAddi d _ | .cAddiw d _ | .cSlli d _ | .lih d _ | .addl d _ | .andl d _ => [d]
  | .cSrli d _ | .cSrai d _ | .cAndi d _ => [c3 d]
  | .cSub d b | .cXor d b | .cOr d b | .cAnd d b | .cSubw d b | .cAddw d b => [c3 d, c3 b]
  | .cSwsp b _ | .cSdsp b _ => [2, b]
  | .cMv _ b => [b]
  | .cAdd d b => [d, b]
  | .fmaddS _ a b c _ => [a, b, c]
  | .ecall => [10, 11, 12, 13]
  | .acas _ _ d a b => [d, a, b]
  | .cqpush _ a | .cqpushn _ a | .gpost _ a => [a, a + 1, a + 2, a + 3]
  | _ => []

/-- The x registers an instruction reads. -/
def Instr.srcs (i : Instr) : List XReg := if i.hint then [] else i.srcNames

/-- The x registers an instruction names as destinations; a change of a mapping concerns its register too (R27, R186). -/
def Instr.dstNames : Instr → List XReg
  | .lb d _ _ | .lh d _ _ | .lw d _ _ | .ld d _ _ | .lbu d _ _ | .lhu d _ _ | .lwu d _ _ | .add d _ _ | .sub d _ _
  | .sll d _ _ | .slt d _ _ | .sltu d _ _ | .xor d _ _ | .srl d _ _ | .sra d _ _ | .or d _ _ | .and d _ _
  | .andn d _ _ | .orn d _ _ | .min d _ _ | .minu d _ _ | .max d _ _ | .maxu d _ _ | .sh1add d _ _ | .sh2add d _ _
  | .sh3add d _ _ | .mul d _ _ | .mulh d _ _ | .mulhu d _ _ | .div d _ _ | .divu d _ _ | .rem d _ _ | .remu d _ _
  | .addi d _ _ | .slti d _ _ | .sltiu d _ _ | .xori d _ _ | .ori d _ _ | .andi d _ _ | .slli d _ _ | .srli d _ _
  | .srai d _ _ | .clz d _ | .ctz d _ | .cpop d _ | .addw d _ _ | .subw d _ _ | .addiw d _ _ | .slliw d _ _
  | .srliw d _ _ | .sraiw d _ _ | .lui d _ | .auipc d _ | .jal d _ | .jalr d _ _ | .cAddi d _ | .cAddiw d _
  | .cLi d _ | .cLui d _ | .cSlli d _ | .cLwsp d _ | .cLdsp d _ | .cMv d _ | .cAdd d _ | .faddS d _ _ _
  | .fsubS d _ _ _ | .fmulS d _ _ _ | .fdivS d _ _ _ | .fsqrtS d _ _ | .fmaddS d _ _ _ _ | .fsgnjS d _ _
  | .fsgnjnS d _ _ | .fminS d _ _ | .fmaxS d _ _ | .fleS d _ _ | .fltS d _ _ | .feqS d _ _ | .fcvtWS d _ _
  | .fcvtLS d _ _ | .fcvtSW d _ _ | .fcvtSL d _ _ | .li32 d _ | .lih d _ | .addl d _ | .andl d _ | .fli d _ | .gtox d
  | .csrrw d _ _ | .csrrs d _ _ | .csrrc d _ _ | .csrrwi d _ _ | .csrrsi d _ _ | .csrrci d _ _ | .fcreate d _
  | .fsync d _ | .tself d _ | .ldc d _ | .ldp d _ | .fest d _ | .mbrecv d | .mbpoll d _ | .qstat d _ | .ldaq d _ _
  | .ldmig d _ | .aadd _ _ d _ _ | .aand _ _ d _ _ | .aor _ _ d _ _ | .axor _ _ d _ _ | .asmin _ _ d _ _
  | .asmax _ _ d _ _ | .aumin _ _ d _ _ | .aumax _ _ d _ _ | .aswap _ _ d _ _ | .acas _ _ d _ _ | .afadd _ d _ _
  | .afaddb _ d _ _ | .lrln d _ | .scln d _ | .cqpush d _ | .cqpushn d _ | .cqstat d | .gpost d _ | .gstat d
  | .mbind d _ | .mclass d _ _ | .mcnt d _ | .pstat d _ | .ktox _ d _ | .kpop _ d _ | .kfirst _ d _ | .vmvx _ d _ _ => [d]
  | .cAddi4spn d _ | .cLw d _ _ | .cLd d _ _ | .cSrli d _ | .cSrai d _ | .cAndi d _ | .cSub d _ | .cXor d _
  | .cOr d _ | .cAnd d _ | .cSubw d _ | .cAddw d _ => [c3 d]
  | .cAddi16sp _ => [2]
  | .cJalr _ => [1]
  | .qmap q _ | .qunmap q => [5 + q.zeroExtend 4]
  | _ => []
/-- The x registers an instruction writes. -/
def Instr.dsts (i : Instr) : List XReg := if i.hint then [] else i.dstNames

/-- The v fields of an instruction, sources and destinations (R215). -/
def Instr.rows : Instr → List VReg
  | .vadd _ d a b | .vsub _ d a b | .vmul _ d a b | .vfma _ d a b | .vfms _ d a b | .vmin _ d a b | .vmax _ d a b
  | .viadd _ d a b | .visub _ d a b | .vimul _ d a b | .vand _ d a b | .vor _ d a b | .vxor _ d a b | .vshl _ d a b
  | .vshrl _ d a b | .vshra _ d a b | .vimin _ d a b | .vimax _ d a b | .vsel _ d a b | .vpack _ d a b
  | .vperm _ d a b => [d, a, b]
  | .vabs _ d a | .vneg _ d a | .vcvt _ d a _ _ | .vunpack _ d a _ _ | .vrsum _ d a | .vrmax _ d a | .vslide _ d a _
  | .vbcast _ d a _ | .vscan _ d a _ | .vscanL1 _ d a _ | .vscanc _ d a _ | .vexp2 _ d a | .vlog2 _ d a | .vrcp _ d a | .vrsq _ d a
  | .vsqrt _ d a | .vtanh _ d a => [d, a]
  | .vcmpFeq _ _ a b | .vcmpFne _ _ a b | .vcmpFlt _ _ a b | .vcmpFle _ _ a b | .vcmpIeq _ _ a b | .vcmpIne _ _ a b
  | .vcmpIlt _ _ a b | .vcmpIle _ _ a b => [a, b]
  | .vld _ d _ | .vst _ d _ | .vstb _ d _ | .vlds _ d _ _ | .vsts _ d _ _ | .vbcx _ d _ | .vmxv _ d _ _ => [d]
  | .vgath _ d _ b | .vscat _ d _ b => [d, b]
  | .vmvx _ _ v _ => [v]
  | _ => []

/-- The v fields an instruction reads (R373). -/
def Instr.rowsRead : Instr → List VReg
  | .vfma _ d a b | .vfms _ d a b => [d, a, b]
  | .vadd _ _ a b | .vsub _ _ a b | .vmul _ _ a b | .vmin _ _ a b | .vmax _ _ a b | .viadd _ _ a b | .visub _ _ a b | .vimul _ _ a b
  | .vand _ _ a b | .vor _ _ a b | .vxor _ _ a b | .vshl _ _ a b | .vshrl _ _ a b | .vshra _ _ a b | .vimin _ _ a b | .vimax _ _ a b
  | .vsel _ _ a b | .vpack _ _ a b | .vperm _ _ a b | .vcmpFeq _ _ a b | .vcmpFne _ _ a b | .vcmpFlt _ _ a b | .vcmpFle _ _ a b
  | .vcmpIeq _ _ a b | .vcmpIne _ _ a b | .vcmpIlt _ _ a b | .vcmpIle _ _ a b => [a, b]
  | .vabs _ _ a | .vneg _ _ a | .vcvt _ _ a _ _ | .vunpack _ _ a _ _ | .vrsum _ _ a | .vrmax _ _ a | .vslide _ _ a _ | .vbcast _ _ a _
  | .vscan _ _ a _ | .vscanL1 _ _ a _ | .vscanc _ _ a _ | .vexp2 _ _ a | .vlog2 _ _ a | .vrcp _ _ a | .vrsq _ _ a | .vsqrt _ _ a
  | .vtanh _ _ a | .vmvx _ _ a _ => [a]
  | .vst _ d _ | .vstb _ d _ | .vsts _ d _ _ => [d]
  | .vgath _ _ _ b => [b]
  | .vscat _ d _ b => [d, b]
  | _ => []
/-- The lease tile an instruction adds to, reading it (R373): ACCST reads without a check, ACCLD and ACCZ write whole. -/
def Instr.tilesRead : Instr → List (BitVec 1)
  | .mma _ t _ _ _ _ | .gmma _ t _ _ _ _ => [t]
  | _ => []

/-- The mask registers an instruction names (R213). -/
def Instr.masks : Instr → List KReg
  | .mrow d _ _ | .vcmpFeq _ d _ _ | .vcmpFne _ d _ _ | .vcmpFlt _ d _ _ | .vcmpFle _ d _ _ | .vcmpIeq _ d _ _
  | .vcmpIne _ d _ _ | .vcmpIlt _ d _ _ | .vcmpIle _ d _ _ | .kfromx _ d _ => [d]
  | .vsel k _ _ _ | .vscan _ _ _ k | .vscanL1 _ _ _ k | .vscanc _ _ _ k | .mma _ _ _ _ k _ | .gmma _ _ _ _ k _
  | .accz _ _ k | .accld _ _ _ _ k | .accst _ _ _ _ k => [k]
  | .kand _ d a b | .kor _ d a b | .kxor _ d a b | .kandn _ d a b => [d, a, b]
  | .ktox _ _ a | .kpop _ _ a | .kfirst _ _ a => [a]
  | _ => []

/-- The lease tile a CM instruction names (R234). -/
def Instr.tiles : Instr → List (BitVec 1)
  | .mma _ t _ _ _ _ | .gmma _ t _ _ _ _ | .wld _ t _ _ _ | .wlds _ t _ _ _ | .accz _ t _ | .accld _ t _ _ _
  | .accst _ t _ _ _ => [t]
  | _ => []

/-- Instructions that make a request or post a command: an acquire holds them until it has delivered (R88). -/
def Instr.accesses : Instr → Bool
  | .lb _ _ _ | .lh _ _ _ | .lw _ _ _ | .ld _ _ _ | .lbu _ _ _ | .lhu _ _ _ | .lwu _ _ _ | .sb _ _ _
  | .sh _ _ _ | .sw _ _ _ | .sd _ _ _ | .cLw _ _ _ | .cLd _ _ _ | .cSw _ _ _ | .cSd _ _ _ | .cLwsp _ _
  | .cLdsp _ _ | .cSwsp _ _ | .cSdsp _ _ | .fcreate _ _ | .lsend _ _ | .ldc _ _ | .ldp _ _ | .stf _ _ | .sete _
  | .fest _ _ | .mbsend _ _ | .evsig _ _ | .ldaq _ _ _ | .strl _ _ _ | .ldmig _ _ | .pref _ _ | .aadd _ _ _ _ _
  | .aand _ _ _ _ _ | .aor _ _ _ _ _ | .axor _ _ _ _ _ | .asmin _ _ _ _ _ | .asmax _ _ _ _ _ | .aumin _ _ _ _ _
  | .aumax _ _ _ _ _ | .aswap _ _ _ _ _ | .acas _ _ _ _ _ | .afadd _ _ _ _ | .afaddb _ _ _ _ | .lrln _ _
  | .scln _ _ | .cqpush _ _ | .cqpushn _ _ | .gpost _ _ | .mbind _ _ | .mclass _ _ _ | .mrow _ _ _ | .mcnt _ _
  | .pload _ _ | .psave _ _ | .vld _ _ _ | .vst _ _ _ | .vstb _ _ _ | .vlds _ _ _ _ | .vsts _ _ _ _
  | .vgath _ _ _ _ | .vscat _ _ _ _ | .mma _ _ _ _ _ _ | .gmma _ _ _ _ _ _ | .wld _ _ _ _ _ | .wlds _ _ _ _ _
  | .accld _ _ _ _ _ | .accst _ _ _ _ _ => true
  | _ => false

/-- An access to fflags, frm or fcsr (R167). -/
def Instr.readsFlags : Instr → Bool
  | .csrrw _ _ c | .csrrs _ _ c | .csrrc _ _ c | .csrrwi _ _ c | .csrrsi _ _ c | .csrrci _ _ c => c.toNat ≤ 3
  | _ => false

/-- Instructions that a REPV frame may hold (R231). -/
def Instr.framed : Instr → Bool
  | .repv _ _ _ _ => false
  | i => i.isVector

end Sys2Proof
end

