-- ==== Sys2Proof/Machine/Issue.lean ====
section
/-! DEFINITION. Fetching and decoding a unit (R129, R130, R344), the issue wheel (R25 to R30, R162, R163), and the steps the
machine may take on its own (spec/95). -/

namespace Sys2Proof.Machine

open Sys2Proof

/-! ## Fetch (R344) -/

/-- Line l of a core is to be fetched: it lies in the code arena and not in the instruction cache. -/
def State.fetches (s : State) (n l : Nat) : Bool :=
  let c := s.core n
  !(c.icache.any (·.1 == l)) && decide (64 * l < c.abound.toNat) && decide (c.abase.toNat < 64 * l + 64)
/-- A fetch reads its line at the home slice, as a normal access (R71, R344, R357). -/
def State.fetchLine (s : State) (n l : Nat) : State :=
  let p := (s.teamOf n).part
  match s.fetches n l, s.homeSlice p (64 * l) with
  | true, .slice _ i => s.touch p i (partKey p (64 * l) / 128) 0 0 0 0
  | _, _ => s
/-- The lines a fetch at a pc needs are read. -/
def State.fetchAt (s : State) (n : Nat) (pc : Word) : State :=
  let s := s.fetchLine n (pc.toNat / 64)
  if pc.toNat % 64 ≤ 54 then s else s.fetchLine n (pc.toNat / 64 + 1)
/-- The 64-byte line l of a core's code arena, as its instruction cache holds it or as it stands in memory now. -/
def State.codeLine (s : State) (n l : Nat) : List Byte × List Bool :=
  let p := (s.teamOf n).part
  let key := partKey p (64 * l)
  if s.fetches n l then (s.cells p key 64, (List.range 8).map fun i => s.poisoned (key + 8 * i))
  else tabGet (List.replicate 64 0, List.replicate 8 false) (s.core n).icache l
/-- A fetched line stays in the cache; 256 lines fill it, and then it starts anew (log 41). -/
def State.cacheLine (s : State) (n l : Nat) (v : List Byte × List Bool) : State :=
  if !s.fetches n l then s
  else s.onCore n fun c => { c with icache := tabSet (if 256 ≤ c.icache.length then [] else c.icache) l v }

/-- What a fetch at a pc gives: the decoded unit, its bytes as emval holds them (R145), whether one is poisoned, and what its rounding mode
is read from (R98). -/
structure Fetch where
  unit : DUnit
  bits : Word
  poison : Bool
  mode : Option Instr
deriving Repr

/-- Ten bytes at a pc, each with its poison. -/
def State.codeBytes (s : State) (n pc : Nat) : List (Byte × Bool) :=
  let cells := fun v : List Byte × List Bool => v.1.zipIdx.map fun b => (b.1, v.2.getD (b.2 / 8) false)
  let l := pc / 64
  let one := cells (s.codeLine n l)
  let two := if pc % 64 ≤ 54 then [] else cells (s.codeLine n (l + 1))
  ((one ++ two).drop (pc % 64)).take 10
/-- The unit at a pc, decoded at the image's level (R146). -/
noncomputable def State.fetch (s : State) (n : Nat) (pc : Word) : Fetch :=
  let b := s.codeBytes n pc.toNat
  let u := decodeUnit (s.core n).level (BitVec.ofNat 80 (leNat (b.map (·.1))))
  { unit := u, bits := BitVec.ofNat 64 (leNat ((b.take (min u.len 8)).map (·.1))), poison := (b.take u.len).any (·.2),
    mode := decodeMode (s.core n).level (BitVec.ofNat 80 (leNat (b.map (·.1)))) }
/-- The lines a fetch at a pc reads are in the cache. -/
def State.fetched (s : State) (n : Nat) (pc : Word) : State :=
  let l := pc.toNat / 64
  let a := s.codeLine n l
  let b := s.codeLine n (l + 1)
  let t := s.cacheLine n l a
  if pc.toNat % 64 ≤ 54 then t else t.cacheLine n (l + 1) b
/-- The issue register of a fetched unit of context x. -/
def State.issuing (s : State) (n x : Nat) (pc : Word) (f : Fetch) : State :=
  { s with iss := { core := n, ctx := x, upc := pc, ipc := pc + BitVec.ofNat 64 f.unit.off, npc := pc + BitVec.ofNat 64 f.unit.len,
                    bits := f.bits } }

/-! ## Decode traps (R98, R136, R144, R231) -/

/-- The instruction rounds by frm while frm holds 4 to 7 (R98). -/
def State.badMode (s : State) (i : Instr) : Bool :=
  frmBroken s.cur && (readsFrm i || match i with
    | .vrsum _ _ a => (s.cur.phys (s.vr a)).any fun p => floatTy (s.ty p)
    | _ => false)
/-- The decode trap of a fetched unit with its value: 0x07, then 0x01, then 0x02; raised whatever the guard holds. -/
def State.decodeTrap (s : State) (f : Fetch) : Option (BitVec 8 × Word) :=
  let c := s.cur
  let k := s.here
  if c.pc.toNat < k.abase.toNat ∨ k.abound.toNat < c.pc.toNat + f.unit.len then some (7, c.pc - k.abase)
  else match f.unit.ins with
    | .error e => some (if e = 2 ∧ f.mode.any s.badMode then 1 else e, f.bits)
    | .ok i => if s.badMode i then some (1, f.bits) else if c.frame.isSome && !i.framed then some (2, f.bits) else none

/-! ## Readiness (R25, R27, R29, R30, R49, R88, R162) -/

/-- A source register is full, and nothing pends on it; on a mapped queue, a data word is at the head. -/
def State.srcReady (s : State) (r : XReg) : Bool :=
  match s.cur.mapped r with
  | some d => !inbound r || match s.here.inbound d with
    | (false, _, _) :: _ => true
    | _ => false
  | none => r == 0 || (s.cur.fe.getLsbD (s.cur.tag r) && !s.cur.pend.getLsbD (s.cur.tag r))
/-- Nothing pends on a destination; a full queue holds the push, not the unit (R187). -/
def State.dstReady (s : State) (r : XReg) : Bool :=
  match s.cur.mapped r with
  | some _ => inbound r || !s.cur.pend.getLsbD r.toNat
  | none => r == 0 || !s.cur.pend.getLsbD (s.cur.tag r)
/-- No load, SFU result or matrix operation pends on row n of the lease. -/
def State.rowReady (s : State) (n : Nat) : Bool :=
  match s.cur.phys n with
  | none => true
  | some p => !s.cur.pendV.contains p && !s.here.matPends s.iss.ctx (p / 16)
/-- The v numbers of the rows an instruction reads: those it names, and those a scan reads beside them (R228). -/
def State.rowsIn (s : State) (i : Instr) : List Nat :=
  match i with
  | .vscan _ d a _ | .vscanL1 _ d a _ => s.scanRows d a false
  | .vscanc _ d a _ => s.scanRows d a true
  | _ => i.rowsRead.map s.vr
/-- The v numbers of all rows an instruction touches; a pair scan writes the row after the one it names. -/
def State.rowsOf (s : State) (i : Instr) : List Nat :=
  i.rows.map s.vr ++ s.rowsIn i ++ match i with
    | .vscanc _ d _ _ => [s.vr d + 1]
    | _ => []
/-- A change of a mapping waits for a result that pends on its register, as its own or as a push on the queue (R27, R186). -/
def State.mappingWaits (s : State) : Instr → Bool
  | .qmap q _ | .qunmap q => s.cur.queuePends (5 + q.toNat)
  | _ => false
/-- No row of a lease tile waits for a load or an SFU result; matrix operations chain (R248). -/
def State.tileReady (s : State) (t : BitVec 1) : Bool :=
  match s.cur.lease[t.toNat]? with
  | none => true
  | some q => s.cur.pendV.all fun p => p / 16 != q
/-- Earlier instructions that set flags have written them (R167). -/
def State.flagsReady (s : State) : Bool :=
  s.cur.pendV.isEmpty && !(s.reqs.any fun r => r.uid == s.cur.uid && match r.op with
    | .rowSt _ _ _ _ _ => true
    | _ => false)
/-- An FSYNC that was left for a handler is made again without reading its handle (R189). -/
def State.resumes (s : State) (i : Instr) : Bool :=
  match i, s.cur.syncLeft with
  | .fsync _ _, some w => w.upc == s.iss.upc && !s.cur.inLh
  | _, _ => false
/-- The scoreboard and the unit's sources let an instruction issue. -/
def State.ready (s : State) (i : Instr) : Bool :=
  (s.resumes i || i.srcs.all s.srcReady) && i.dsts.all s.dstReady && !s.mappingWaits i && (s.rowsOf i).all s.rowReady && i.tiles.all s.tileReady &&
    i.masks.all (fun k => !s.cur.pendK.getLsbD k.toNat) && !(i.accesses && s.cur.acq != 0) &&
    (!i.readsFlags || s.flagsReady)
/-- The unit reads a register or tile bytes whose parity fails (R371, R373). -/
def State.parityHit (s : State) (i : Instr) : Bool :=
  i.srcs.any (fun r => (s.cur.mapped r).isNone && s.cur.bad.getLsbD (s.cur.tag r)) ||
    (s.rowsIn i).any (fun v => (s.cur.phys v).any fun p => s.parityFails (tileKey s.iss.core (p / 16) (p % 16)) 64) ||
    i.tilesRead.any fun t => (s.cur.lease[t.toNat]?).any fun q => s.parityFails (tileKey s.iss.core q 0) 1024
/-- The head of a queue the unit pops is poisoned: its packet failed more than 8 checks (R365). -/
def State.poisonedWord (s : State) (i : Instr) : Bool :=
  i.srcs.any fun r => inbound r && (s.cur.mapped r).any fun d => (s.here.inbound d).head?.any fun w => decide (8 < w.2.2)
/-- A queue the instruction reads whose head is a control word that the handler can take now (R49). -/
def State.controlAt (s : State) (i : Instr) : Option Nat :=
  if s.cur.canLight && s.cur.roomTrig then
    ([5, 6] : List XReg).findSome? fun r =>
      if i.srcs.contains r then (s.cur.mapped r).filter fun d => ((s.here.inbound d).head?.map (·.1)) == some true else none
  else none
/-- Nothing of context x of core n can issue: no thread, a wait, a full queue, a latency of the pipeline (log 61), or a trigger to be taken
first; a thread that a replay has released makes its parked unit before that (R342). -/
def State.idle (s : State) (n x : Nat) : Bool :=
  let c := s.ctxAt n x
  c.uid == 0 || c.st != .run || c.heldPush != [] || s.lag.getLsbD x || (c.canLight && c.trig != [] && !s.reissues n x)

/-! ## Issue -/

/-- An attempt to issue: the unit does not issue, or it has its outcome. -/
inductive Try where
  | held (s : State)
  | done (o : Out)

/-- A unit that a stall or a hold at issue keeps back leaves its thread where it is (R29, R78). -/
def State.moved (s t : State) (n x : Nat) : Bool :=
  let a := s.ctxAt n x
  let b := t.ctxAt n x
  a.uid != b.uid || a.pc != b.pc || a.instret != b.instret || a.st != b.st || a.inLh != b.inLh || a.inEm != b.inEm || (t.core n).faulted
/-- The instruction is performed. -/
def State.perform (s : State) (i : Instr) : Try :=
  match exec i s with
  | .next t => if s.moved t s.iss.core s.iss.ctx then .done (.next t) else .held t
  | o => .done o
/-- A unit that is guarded off only retires (R163). -/
def State.skip (s : State) (i : Instr) : State :=
  (match i with
  | .gmma _ _ _ _ _ _ => s.gangOff
  | _ => s).retire

/-- Context x of core n tries to issue its next unit. -/
noncomputable def State.attempt (s : State) (n x : Nat) : Try :=
  let c := s.ctxAt n x
  if s.idle n x then .held s
  else
    let s := s.fetchAt n c.pc
    let f := s.fetch n c.pc
    let s := (s.fetched n c.pc).issuing n x c.pc f
    match s.decodeTrap f, f.unit.ins with
    | some t, _ => s.perform (.undefinedUnit t.1 t.2)
    | none, .error _ => .held s
    | none, .ok i =>
      if s.cur.guard f.unit.guard.reg == f.unit.guard.inv then .done (.next (s.skip i))
      else match s.controlAt i with
        | some d => .held (s.takeControl n x d)
        | none =>
          if !s.ready i then .held s
          else if f.poison then .done (s.trapOut 0x0F c.pc)
          else if s.parityHit i then .done (s.trapOut 0x0F 0)
          else if s.poisonedWord i then .done (s.trapFree 0x0F)
          else s.perform i

/-- The wheel position of a core (R25). -/
def State.position (s : State) (n : Nat) : Nat := (s.cycle - (s.teamOf n).costart + (s.core n).wheel) % 16
/-- The contexts in the order they are tried: the owner, then from the donation pointer on (R25). -/
def State.order (s : State) (n : Nat) : List Nat :=
  let p := s.position n
  p :: ((List.range 16).map fun i => ((s.core n).donor + 1 + i) % 16).filter (· != p)

/-- Cores that issue: they hold a running team and are not stopped. -/
def State.runs (s : State) : List Nat := (s.cores.filter fun c => !c.2.stop && c.2.team.isSome).map (·.1)
/-- Local ports pass what issued in an earlier cycle before this one ends (R79). -/
def State.portsPass (s : State) : State :=
  s.portsLate.foldl (fun s c => match execLocalPortPass c s with
    | .next t => t
    | _ => s) s
/-- The end of a cycle: ports pass, the family unit takes the FBREAKs (R43), team faults are latched (R312), barriers take their events
(R182), a snapshot latches (R376), frames that waited are restored, replays go on. -/
def State.cycleEnd (s : State) : State :=
  let s := s.portsPass.takeBreaks.latchRaised.barEnd.snapEnd.restores.replayOn
  { s with turn := 0, cycle := s.cycle + 1, time := s.time + s.cycleTime }
/-- The contexts that latencies keep from being ready in the turn that comes: any of them (log 61). -/
def State.newLag (s : State) : State := { s with lag := (Config.freeWord s.fresh).truncate 16, fresh := s.fresh + 1 }
/-- The end of a core's turn; after the last core's turn the cycle ends. -/
def State.turnEnd (s : State) (n : Nat) : State :=
  State.newLag (if s.runs.any (n < ·) then { s with turn := n + 1 } else s.cycleEnd)
/-- The first context of a list whose unit issues; a context other than the owner takes the donation pointer (R25). -/
noncomputable def State.issueOf (s : State) (n : Nat) : List Nat → Out
  | [] => .next (s.turnEnd n)
  | x :: t =>
    match s.attempt n x with
    | .held s' => State.issueOf (s'.onCore n fun c => if (c.ctx x).uid = 0 then c else { c with stalled := c.stalled ||| (1#16 <<< x) }) n t
    | .done (.next s') =>
      let own := x == s.position n
      .next ((s'.onCore n fun c => { c with issued := c.issued + 1, donor := if own then c.donor else x }).turnEnd n)
    | .done o => o
/-- The core whose turn it is issues for one of its contexts; with no core left, the cycle ends. -/
noncomputable def State.issue (s : State) : Out :=
  match s.runs.find? (s.turn ≤ ·) with
  | none => .next (s.turnEnd s.turn)
  | some n => (s.onCore n fun c => { c with stalled := 0 }).issueOf n (s.order n)

/-! ## What else may happen (R76, spec/95) -/

/-- A step changes something: it is enabled. -/
def State.enabled (s : State) (i : Instr) : Bool :=
  match exec i s with
  | .next t => decide (t ≠ s)
  | _ => true

/-- A step for each entry that a test picks. -/
def pickSteps {β : Type} (l : List β) (ok : β → Bool) (f : β → Instr) : List Instr := (l.filter ok).map f
/-- Steps 0 to n − 1 of a kind. -/
def countSteps (n : Nat) (f : Nat → Instr) : List Instr := (List.range n).map f
/-- Steps that may happen only when a test holds. -/
def whenSteps (b : Bool) (l : List Instr) : List Instr := if b then l else []

/-- Granules of a command that are still to be read. -/
def Command.unread (r : Command) : Nat := (r.grans.filter (·.got.isNone)).length

/-- Steps of one core. -/
noncomputable def coreEvents (n : Nat) (c : Core) : List Instr :=
  List.flatten [
    whenSteps (!c.sfuq.isEmpty) [.sfuService n],
    countSteps c.sfuPipe.length (.sfuResultWrite n ·),
    whenSteps (!c.mat.isEmpty) [.tileWrite n],
    pickSteps (List.range 4) (fun d => !(c.outbound d).isEmpty) (.queueWordTransfer n ·),
    whenSteps (!c.mbox.isEmpty) [.mailboxDelivery n],
    whenSteps (!c.sigq.isEmpty) [.eventSignalArrival n],
    pickSteps c.ctxs (fun x => x.2.trig != []) (fun x => .lightHandlerEntry n x.1),
    pickSteps c.ctxs (fun x => x.2.sync.isSome) (fun x => .inlineMemberTake n x.1),
    pickSteps c.ctxs (fun x => x.2.st == .ecall) (fun x => .nop n x.1),
    pickSteps c.ctxs (fun x => x.2.st == .ecall) (fun x => .debug n x.1),
    pickSteps c.ctxs (fun x => x.2.st == .ecall) (fun x => .signal n x.1),
    pickSteps c.ctxs (fun x => x.2.st == .ecall) (fun x => .time n x.1),
    whenSteps (!c.copyq.isEmpty || c.copyRun.isSome)
      [.copy n, .copyAccumulate n, .fill n, .multicastRead n, .stridedCopy n, .packagePut n, .packageGet n, .multicastCatchUp n,
       .completionFeFill n, .completionMailbox n, .completionHandlerTrigger n, .completionRegisterFill n],
    countSteps (match c.copyRun with
      | some r => r.unread
      | none => 0) (.engineRead (.copy n) ·)]

/-- Steps of one cluster's units. -/
noncomputable def State.clusterEvents (s : State) (n : Nat) (k : Cluster) : List Instr :=
  List.flatten [
    whenSteps (!k.amuq.isEmpty) [.amuServe n],
    whenSteps (!k.iceq.isEmpty || k.iceRun.isSome) [.gather n, .scatter n, .scatterAdd n, .iceChunkBegin n, .iceEventSignal n],
    countSteps (s.iceReads n).length (.engineRead (.ice n) ·),
    whenSteps (!k.groutq.isEmpty || k.groutRun.isSome) [.grout n],
    countSteps (match k.groutRun with
      | some g => (g.grans.filter (·.got.isNone)).length
      | none => 0) (.engineRead (.grout n) ·),
    whenSteps (!k.bellowsq.isEmpty) [.bellowsLatch n, .bellowsUpdate n]]

/-- Steps of one request: on its way, at the view, or at its home by any granule left. -/
noncomputable def State.reqEvents (s : State) (r : Req) : List Instr :=
  if r.st = 0 then [if r.cls = 0 then .localPortPass r.core else if r.cls = 1 then .laneDeliver r.id else .poolDeliver r.core r.id]
  else if r.st = 4 then [.l1ViewServe r.core]
  else if r.st = 2 then []
  else
    let n := match (s.begin r).op with
      | .rowLd _ _ _ _ (some l) | .rowSt _ _ _ _ (some l) => l.length
      | .desc _ _ l => l.length
      | .block _ _ l => l.length
      | _ => 1
    countSteps n (.homePerform r.home r.id ·)

/-- Steps of one team. -/
noncomputable def State.teamEvents (s : State) (t : Nat) (m : Team) : List Instr :=
  List.flatten [
    whenSteps (m.phase == .loading) [.teamCostart t],
    whenSteps (m.phase == .stopping) [.saveImageWrite t, .teamDiscard t],
    whenSteps (m.phase == .saved) [.teamResume t],
    whenSteps ((m.phase == .running || m.phase == .stopping) && decide (m.lastWave + 256 ≤ s.cycle)) [.quiescenceWave t],
    pickSteps m.cores (fun _ => m.faulted) (.stopArrival ·),
    whenSteps m.scrub [.holdingScrubComplete t]]

/-- Steps of a family table's entry (R34, R37), by its key. -/
noncomputable def famEvents (k : Nat) : List Instr :=
  [.memberStart (k / 256) (k / 16 % 16) (k % 16), .familyFinish (k / 256) (k / 16 % 16) (k % 16)]

/-- Steps of one launch, by its number. -/
noncomputable def launchEvents (l : Nat) : List Instr :=
  [.launchReady l, .launchCompletion l, .preemptionRequest l, .teamDispatch l 0, .teamDispatch l 1, .teamDispatch l 2,
   .teamDispatch l 3, .blockSteal l 0, .blockSteal l 1, .blockSteal l 2, .blockSteal l 3]

/-- Steps of a VF's plug-in and rings. -/
noncomputable def vfEvents (v : Nat) (f : Vf) : List Instr :=
  List.flatten [
    whenSteps f.plug.start.isSome [.pluginTimeout v],
    pickSteps f.rings (fun r => r.2.head != r.2.bell) (fun r => .launchRecordCheck v r.1)]

/-- What may happen in the package, before it is seen to change anything. -/
noncomputable def State.candidates (s : State) : List Instr :=
  List.flatten [
    s.cores.flatMap (fun c => coreEvents c.1 c.2),
    s.clusters.flatMap (fun k => s.clusterEvents k.1 k.2),
    s.reqs.flatMap s.reqEvents,
    countSteps s.fills.length (.registerFill ·),
    countSteps s.migs.length (.migrationInstall ·),
    s.gangs.map (fun g => .gangOperation g.1),
    (s.fams.filter fun f => f.2.live).flatMap (fun f => famEvents f.1),
    pickSteps (List.range s.walks.length) s.walking (.translationWalk ·),
    s.teams.flatMap (fun t => s.teamEvents t.1 t.2),
    s.launches.flatMap (fun l => launchEvents l.1),
    s.vfs.flatMap (fun v => vfEvents v.1 v.2),
    pickSteps s.parts (fun p => s.partState p.1 == 1) (fun p => .partScrubComplete p.1),
    pickSteps s.keySlots (fun k => k.2.revoking) (fun k => .revokeComplete (k.1 / 256) (k.1 % 256)),
    whenSteps (s.tinv.getLsbD 63) [.tinvComplete],
    pickSteps s.transfers (fun q => !q.parked) (fun q => .remoteTransferRequest q.id none),
    [.snapCounterTrigger]]

/-- Everything that may happen next beside an issue: the candidates that change the state. Steps the outside world causes
come through `agenda`. -/
noncomputable def State.events (s : State) : List Instr :=
  if s.bootst = 0 then [.boot (Config.pick s.choice)] else s.candidates.filter s.enabled

/-- Steps that the host, a plug-in, a pin, a link or a timer causes; the others belong to threads or to the machine itself. -/
def external : Instr → Bool
  | .qlist _ _ | .qorder _ _ | .yield _ | .pluginTime _ | .pluginFault _ | .cctlWrite _ _ | .flatchClear _ | .doorbell _ _ _
  | .svalWrite _ _ _ | .hfverNegotiate _ _ _ | .krel _ _ | .imgrWrite _ _ | .partCreate _ _ | .partDestroy _ | .vbindWrite _ _
  | .tinvPage _ _ | .tinvVf _ | .fresReplay _ _ | .fresFail _ _ | .registerWrite _ _ _ | .snapArm | .snapHostFire | .snapPinTrigger
  | .powerControlTick _ | .patrolScrub _ _ _ _ | .getVersion _ | .getMeasurements _ _ | .keySlotInstall _ _ | .keySlotRevoke _ _
  | .lintelPacketReceive _ _ | .hello _ _ | .remoteTransferRequest _ _ | .retransmitTimeout _ | .ackTimeout _ | .cheadWrite _ _
  | .getCertificate _ | .challenge _ _ | .keyExchange _ _ => true
  | _ => false

/-! ## Steps taken by choice -/

/-- A write of TINV or FRES waits for the front ends' stores to device memory (R338). -/
def State.waitsFor (s : State) : Instr → Bool
  | .tinvPage _ _ | .tinvVf _ | .fresReplay _ _ | .fresFail _ _ => !s.fepQuiet
  | .registerWrite (.fep _) a _ => (a == 0x1202000 || a == 0x1340100) && !s.fepQuiet
  | _ => false

/-- What the machine does of itself: with nothing else enabled, a core issues; or one of the enabled steps and the issue is taken, by an
unconstrained choice (log 1). -/
noncomputable def State.ownStep (s : State) : Out :=
  match s.events with
  | [] => s.issue
  | e :: l =>
    match (e :: l)[Config.pick s.choice % (l.length + 2)]? with
    | some i => exec i { s with choice := s.choice + 1 }
    | none => State.issue { s with choice := s.choice + 1 }

/-! ## A program in place -/

/-- Core 0 in the middle of a team: arena of 64 bytes from 0, one control thread at its start. -/
def placedCore (level uid : Nat) : Core :=
  { Core.reset with stop := false, cstate := 2, abound := 64, level := level, team := some 1,
                    ctxs := [(0, { Ctx.empty with uid := uid })] }
/-- The running team of that core. -/
def placedTeam (s : State) : Team :=
  { Team.empty with phase := .running, cores := [0], costart := s.cycle, lastWave := s.cycle, born := s.time, began := s.time }
/-- The level a word is read at (R147): 1 where only level 1 has the encoding. -/
noncomputable def levelOf (w : Nat) : Nat :=
  match (decodeInstr 3 (BitVec.ofNat 64 w)).2, (decodeInstr 1 (BitVec.ofNat 64 w)).2 with
  | .ok _, _ => 3
  | .error _, .ok _ => 1
  | .error _, .error _ => 3
/-- A booted package of one partition of one cluster, with nothing under way but one thread, whose first unit is the word's bytes and zeros
after them. -/
noncomputable def State.placed (s : State) (nbits w : Nat) : State :=
  { s with cores := [(0, placedCore (levelOf (w % 2 ^ nbits)) s.nextUid)], clusters := [], reqs := [], fills := [], migs := [],
           gangs := [], fams := [], walks := [], teams := [(1, placedTeam s)], launches := [], vfs := [], parts := [(0, partWord true false 2 (2 ^ 16 + 2 ^ 11))], keySlots := [], l2 := [],
           tinv := 0, armed := false, agenda := [], upsets := [], transfers := [], replays := [], parity := [], poison := [], inputs := [], breaks := [], raised := [], due := 0, lag := 0, turn := 0, bootst := 0x80, nextUid := s.nextUid + 1,
           mem := memPut s.mem (partKey 0 0) (leBytes 10 (w % 2 ^ nbits)) }

end Sys2Proof.Machine
end

