-- ==== Sys2Proof/Machine/Step.lean ====
section
/-! DEFINITION. One step of the package (R76): the outside world's next event, a step of the machine, or an issue. -/

namespace Sys2Proof.Machine

open Sys2Proof

/-- The next event of the outside world goes first, then what radiation and wear do (R371) and the other acts of the FEPs, plug-ins and
memory outside; a row that is not an event of the outside world is dropped, and one that must wait leaves the step to the machine. -/
noncomputable def step (s : State) : Host.Outcome State Fault Refusal :=
  match s.agenda with
  | i :: t =>
    if !external i then .next { s with agenda := t }
    else if s.waitsFor i then s.ownStep
    else exec i { s with agenda := t }
  | [] =>
    match s.upsets with
    | u :: t => .next (State.upset { s with upsets := t } u)
    | [] => match s.takeInput with
      | some t => .next t
      | none => s.ownStep

/-- A state whose next step fetches and runs the instruction of a table word (log 40). -/
noncomputable def State.withFetchWord (s : State) (nbits w : Nat) : State := s.placed nbits w

end Sys2Proof.Machine
end

