-- ==== Sys2Proof/Laws/Coding.lean ====
section
/-! SUPPORT. Fields of an encoded word: what the decoder extracts from each format is what the encoder put there, and the sub-decoder
each format reaches (R131 to R143). -/

namespace Sys2Proof.Laws

open Sys2Proof

/-- A concatenation as a number. -/
theorem cat_toNat {w v : Nat} (x : BitVec w) (y : BitVec v) : (x ++ y).toNat = x.toNat * 2 ^ v + y.toNat := by
  rw [BitVec.toNat_append, ← Nat.shiftLeft_add_eq_or_of_lt y.isLt, Nat.shiftLeft_eq]

/-- A field of a word as a number. -/
theorem field_toNat {w : Nat} (x : BitVec w) (s n : Nat) : (x.extractLsb' s n).toNat = x.toNat / 2 ^ s % 2 ^ n := by
  rw [BitVec.extractLsb'_toNat, Nat.shiftRight_eq_div_pow]

/-! ## Register fields (R137) -/

@[simp] theorem lo_z5 (r : XReg) : lo (z5 r) = r := by
  apply BitVec.eq_of_toNat_eq
  have := r.isLt
  rw [lo, field_toNat, z5, cat_toNat]
  omega
@[simp] theorem hi_z5 (r : XReg) : hi (z5 r) = false := by
  have := r.isLt
  rw [hi, BitVec.getLsbD, z5, cat_toNat]
  simp [Nat.testBit_lt_two_pow, this]
@[simp] theorem lo3_z53 (r : BitVec 3) : lo3 (z53 r) = r := by
  apply BitVec.eq_of_toNat_eq
  have := r.isLt
  rw [lo3, field_toNat, z53, cat_toNat]
  omega
@[simp] theorem hi3_z53 (r : BitVec 3) : hi3 (z53 r) = false := by revert r; decide
@[simp] theorem lo2_z52 (r : BitVec 2) : lo2 (z52 r) = r := by revert r; decide
@[simp] theorem hi2_z52 (r : BitVec 2) : hi2 (z52 r) = false := by revert r; decide
@[simp] theorem lo1_z51 (r : BitVec 1) : lo1 (z51 r) = r := by revert r; decide
@[simp] theorem hi1_z51 (r : BitVec 1) : hi1 (z51 r) = false := by revert r; decide
@[simp] theorem hi_zero : hi 0#5 = false := rfl
@[simp] theorem lo_zero : lo 0#5 = 0#4 := rfl

/-! ## encR -/

theorem encR_toNat (f7 : BitVec 7) (b : BitVec 5) (a : BitVec 5) (f3 : BitVec 3) (d : BitVec 5) (op : BitVec 7) :
    (encR f7 b a f3 d op).toNat = (((((f7.toNat) * 2 ^ 5 + b.toNat) * 2 ^ 5 + a.toNat) * 2 ^ 3 + f3.toNat) * 2 ^ 5 + d.toNat) * 2 ^ 7 + op.toNat := by
  exact (cat_toNat _ op).trans (by rw [cat_toNat, cat_toNat, cat_toNat, cat_toNat])
theorem encR_0_7 (f7 : BitVec 7) (b : BitVec 5) (a : BitVec 5) (f3 : BitVec 3) (d : BitVec 5) (op : BitVec 7) : (encR f7 b a f3 d op).extractLsb' 0 7 = op := by
  apply BitVec.eq_of_toNat_eq
  have := op.isLt
  rw [field_toNat, encR_toNat]
  omega
theorem encR_7_5 (f7 : BitVec 7) (b : BitVec 5) (a : BitVec 5) (f3 : BitVec 3) (d : BitVec 5) (op : BitVec 7) : (encR f7 b a f3 d op).extractLsb' 7 5 = d := by
  apply BitVec.eq_of_toNat_eq
  have := d.isLt
  have := op.isLt
  rw [field_toNat, encR_toNat]
  omega
theorem encR_12_3 (f7 : BitVec 7) (b : BitVec 5) (a : BitVec 5) (f3 : BitVec 3) (d : BitVec 5) (op : BitVec 7) : (encR f7 b a f3 d op).extractLsb' 12 3 = f3 := by
  apply BitVec.eq_of_toNat_eq
  have := f3.isLt
  have := d.isLt
  have := op.isLt
  rw [field_toNat, encR_toNat]
  omega
theorem encR_15_5 (f7 : BitVec 7) (b : BitVec 5) (a : BitVec 5) (f3 : BitVec 3) (d : BitVec 5) (op : BitVec 7) : (encR f7 b a f3 d op).extractLsb' 15 5 = a := by
  apply BitVec.eq_of_toNat_eq
  have := a.isLt
  have := f3.isLt
  have := d.isLt
  have := op.isLt
  rw [field_toNat, encR_toNat]
  omega
theorem encR_20_5 (f7 : BitVec 7) (b : BitVec 5) (a : BitVec 5) (f3 : BitVec 3) (d : BitVec 5) (op : BitVec 7) : (encR f7 b a f3 d op).extractLsb' 20 5 = b := by
  apply BitVec.eq_of_toNat_eq
  have := b.isLt
  have := a.isLt
  have := f3.isLt
  have := d.isLt
  have := op.isLt
  rw [field_toNat, encR_toNat]
  omega
theorem encR_25_7 (f7 : BitVec 7) (b : BitVec 5) (a : BitVec 5) (f3 : BitVec 3) (d : BitVec 5) (op : BitVec 7) : (encR f7 b a f3 d op).extractLsb' 25 7 = f7 := by
  apply BitVec.eq_of_toNat_eq
  have := f7.isLt
  have := b.isLt
  have := a.isLt
  have := f3.isLt
  have := d.isLt
  have := op.isLt
  rw [field_toNat, encR_toNat]
  omega

/-! ## encI -/

theorem encI_toNat (i : BitVec 12) (a : BitVec 5) (f3 : BitVec 3) (d : BitVec 5) (op : BitVec 7) :
    (encI i a f3 d op).toNat = ((((i.toNat) * 2 ^ 5 + a.toNat) * 2 ^ 3 + f3.toNat) * 2 ^ 5 + d.toNat) * 2 ^ 7 + op.toNat := by
  exact (cat_toNat _ op).trans (by rw [cat_toNat, cat_toNat, cat_toNat])
theorem encI_0_7 (i : BitVec 12) (a : BitVec 5) (f3 : BitVec 3) (d : BitVec 5) (op : BitVec 7) : (encI i a f3 d op).extractLsb' 0 7 = op := by
  apply BitVec.eq_of_toNat_eq
  have := op.isLt
  rw [field_toNat, encI_toNat]
  omega
theorem encI_7_5 (i : BitVec 12) (a : BitVec 5) (f3 : BitVec 3) (d : BitVec 5) (op : BitVec 7) : (encI i a f3 d op).extractLsb' 7 5 = d := by
  apply BitVec.eq_of_toNat_eq
  have := d.isLt
  have := op.isLt
  rw [field_toNat, encI_toNat]
  omega
theorem encI_12_3 (i : BitVec 12) (a : BitVec 5) (f3 : BitVec 3) (d : BitVec 5) (op : BitVec 7) : (encI i a f3 d op).extractLsb' 12 3 = f3 := by
  apply BitVec.eq_of_toNat_eq
  have := f3.isLt
  have := d.isLt
  have := op.isLt
  rw [field_toNat, encI_toNat]
  omega
theorem encI_15_5 (i : BitVec 12) (a : BitVec 5) (f3 : BitVec 3) (d : BitVec 5) (op : BitVec 7) : (encI i a f3 d op).extractLsb' 15 5 = a := by
  apply BitVec.eq_of_toNat_eq
  have := a.isLt
  have := f3.isLt
  have := d.isLt
  have := op.isLt
  rw [field_toNat, encI_toNat]
  omega
theorem encI_20_12 (i : BitVec 12) (a : BitVec 5) (f3 : BitVec 3) (d : BitVec 5) (op : BitVec 7) : (encI i a f3 d op).extractLsb' 20 12 = i := by
  apply BitVec.eq_of_toNat_eq
  have := i.isLt
  have := a.isLt
  have := f3.isLt
  have := d.isLt
  have := op.isLt
  rw [field_toNat, encI_toNat]
  omega

/-! ## encU -/

theorem encU_toNat (u : BitVec 20) (d : BitVec 5) (op : BitVec 7) :
    (encU u d op).toNat = ((u.toNat) * 2 ^ 5 + d.toNat) * 2 ^ 7 + op.toNat := by
  exact (cat_toNat _ op).trans (by rw [cat_toNat])
theorem encU_0_7 (u : BitVec 20) (d : BitVec 5) (op : BitVec 7) : (encU u d op).extractLsb' 0 7 = op := by
  apply BitVec.eq_of_toNat_eq
  have := op.isLt
  rw [field_toNat, encU_toNat]
  omega
theorem encU_7_5 (u : BitVec 20) (d : BitVec 5) (op : BitVec 7) : (encU u d op).extractLsb' 7 5 = d := by
  apply BitVec.eq_of_toNat_eq
  have := d.isLt
  have := op.isLt
  rw [field_toNat, encU_toNat]
  omega
theorem encU_12_20 (u : BitVec 20) (d : BitVec 5) (op : BitVec 7) : (encU u d op).extractLsb' 12 20 = u := by
  apply BitVec.eq_of_toNat_eq
  have := u.isLt
  have := d.isLt
  have := op.isLt
  rw [field_toNat, encU_toNat]
  omega

/-! ## encV -/

theorem encV_toNat (f4 : BitVec 4) (g : BitVec 3) (b : BitVec 5) (a : BitVec 5) (f3 : BitVec 3) (d : BitVec 5) :
    (encV f4 g b a f3 d).toNat = ((((((f4.toNat) * 2 ^ 3 + g.toNat) * 2 ^ 5 + b.toNat) * 2 ^ 5 + a.toNat) * 2 ^ 3 + f3.toNat) * 2 ^ 5 + d.toNat) * 2 ^ 7 + 91 := by
  exact (cat_toNat _ 0x5B#7).trans (by rw [cat_toNat, cat_toNat, cat_toNat, cat_toNat, cat_toNat]; rfl)
theorem encV_0_7 (f4 : BitVec 4) (g : BitVec 3) (b : BitVec 5) (a : BitVec 5) (f3 : BitVec 3) (d : BitVec 5) : (encV f4 g b a f3 d).extractLsb' 0 7 = 0x5B#7 := by
  apply BitVec.eq_of_toNat_eq
  rw [field_toNat, encV_toNat]
  simp only [BitVec.toNat_ofNat]
  omega
theorem encV_7_5 (f4 : BitVec 4) (g : BitVec 3) (b : BitVec 5) (a : BitVec 5) (f3 : BitVec 3) (d : BitVec 5) : (encV f4 g b a f3 d).extractLsb' 7 5 = d := by
  apply BitVec.eq_of_toNat_eq
  have := d.isLt
  rw [field_toNat, encV_toNat]
  omega
theorem encV_12_3 (f4 : BitVec 4) (g : BitVec 3) (b : BitVec 5) (a : BitVec 5) (f3 : BitVec 3) (d : BitVec 5) : (encV f4 g b a f3 d).extractLsb' 12 3 = f3 := by
  apply BitVec.eq_of_toNat_eq
  have := f3.isLt
  have := d.isLt
  rw [field_toNat, encV_toNat]
  omega
theorem encV_15_5 (f4 : BitVec 4) (g : BitVec 3) (b : BitVec 5) (a : BitVec 5) (f3 : BitVec 3) (d : BitVec 5) : (encV f4 g b a f3 d).extractLsb' 15 5 = a := by
  apply BitVec.eq_of_toNat_eq
  have := a.isLt
  have := f3.isLt
  have := d.isLt
  rw [field_toNat, encV_toNat]
  omega
theorem encV_20_5 (f4 : BitVec 4) (g : BitVec 3) (b : BitVec 5) (a : BitVec 5) (f3 : BitVec 3) (d : BitVec 5) : (encV f4 g b a f3 d).extractLsb' 20 5 = b := by
  apply BitVec.eq_of_toNat_eq
  have := b.isLt
  have := a.isLt
  have := f3.isLt
  have := d.isLt
  rw [field_toNat, encV_toNat]
  omega
theorem encV_25_3 (f4 : BitVec 4) (g : BitVec 3) (b : BitVec 5) (a : BitVec 5) (f3 : BitVec 3) (d : BitVec 5) : (encV f4 g b a f3 d).extractLsb' 25 3 = g := by
  apply BitVec.eq_of_toNat_eq
  have := g.isLt
  have := b.isLt
  have := a.isLt
  have := f3.isLt
  have := d.isLt
  rw [field_toNat, encV_toNat]
  omega
theorem encV_28_4 (f4 : BitVec 4) (g : BitVec 3) (b : BitVec 5) (a : BitVec 5) (f3 : BitVec 3) (d : BitVec 5) : (encV f4 g b a f3 d).extractLsb' 28 4 = f4 := by
  apply BitVec.eq_of_toNat_eq
  have := f4.isLt
  have := g.isLt
  have := b.isLt
  have := a.isLt
  have := f3.isLt
  have := d.isLt
  rw [field_toNat, encV_toNat]
  omega

/-! ## encM -/

theorem encM_toNat (f5 : BitVec 5) (g : BitVec 3) (k : BitVec 3) (xb : BitVec 4) (xa : BitVec 4) (m : BitVec 4) (t : BitVec 1) :
    (encM f5 g k xb xa m t).toNat = ((((((((f5.toNat) * 2 ^ 3 + g.toNat) * 2 ^ 3 + k.toNat) * 2 ^ 4 + xb.toNat) * 2 ^ 4 + xa.toNat) * 2 ^ 4 + m.toNat) * 2 ^ 1 + 0) * 2 ^ 1 + t.toNat) * 2 ^ 7 + 123 := by
  exact (cat_toNat _ 0x7B#7).trans (by rw [cat_toNat, cat_toNat, cat_toNat, cat_toNat, cat_toNat, cat_toNat, cat_toNat]; rfl)
theorem encM_0_7 (f5 : BitVec 5) (g : BitVec 3) (k : BitVec 3) (xb : BitVec 4) (xa : BitVec 4) (m : BitVec 4) (t : BitVec 1) : (encM f5 g k xb xa m t).extractLsb' 0 7 = 0x7B#7 := by
  apply BitVec.eq_of_toNat_eq
  rw [field_toNat, encM_toNat]
  simp only [BitVec.toNat_ofNat]
  omega
theorem encM_7_1 (f5 : BitVec 5) (g : BitVec 3) (k : BitVec 3) (xb : BitVec 4) (xa : BitVec 4) (m : BitVec 4) (t : BitVec 1) : (encM f5 g k xb xa m t).extractLsb' 7 1 = t := by
  apply BitVec.eq_of_toNat_eq
  have := t.isLt
  rw [field_toNat, encM_toNat]
  omega
theorem encM_8_1 (f5 : BitVec 5) (g : BitVec 3) (k : BitVec 3) (xb : BitVec 4) (xa : BitVec 4) (m : BitVec 4) (t : BitVec 1) : (encM f5 g k xb xa m t).extractLsb' 8 1 = 0#1 := by
  apply BitVec.eq_of_toNat_eq
  have := t.isLt
  rw [field_toNat, encM_toNat]
  simp only [BitVec.toNat_ofNat]
  omega
theorem encM_9_4 (f5 : BitVec 5) (g : BitVec 3) (k : BitVec 3) (xb : BitVec 4) (xa : BitVec 4) (m : BitVec 4) (t : BitVec 1) : (encM f5 g k xb xa m t).extractLsb' 9 4 = m := by
  apply BitVec.eq_of_toNat_eq
  have := m.isLt
  have := t.isLt
  rw [field_toNat, encM_toNat]
  omega
theorem encM_13_4 (f5 : BitVec 5) (g : BitVec 3) (k : BitVec 3) (xb : BitVec 4) (xa : BitVec 4) (m : BitVec 4) (t : BitVec 1) : (encM f5 g k xb xa m t).extractLsb' 13 4 = xa := by
  apply BitVec.eq_of_toNat_eq
  have := xa.isLt
  have := m.isLt
  have := t.isLt
  rw [field_toNat, encM_toNat]
  omega
theorem encM_17_4 (f5 : BitVec 5) (g : BitVec 3) (k : BitVec 3) (xb : BitVec 4) (xa : BitVec 4) (m : BitVec 4) (t : BitVec 1) : (encM f5 g k xb xa m t).extractLsb' 17 4 = xb := by
  apply BitVec.eq_of_toNat_eq
  have := xb.isLt
  have := xa.isLt
  have := m.isLt
  have := t.isLt
  rw [field_toNat, encM_toNat]
  omega
theorem encM_21_3 (f5 : BitVec 5) (g : BitVec 3) (k : BitVec 3) (xb : BitVec 4) (xa : BitVec 4) (m : BitVec 4) (t : BitVec 1) : (encM f5 g k xb xa m t).extractLsb' 21 3 = k := by
  apply BitVec.eq_of_toNat_eq
  have := k.isLt
  have := xb.isLt
  have := xa.isLt
  have := m.isLt
  have := t.isLt
  rw [field_toNat, encM_toNat]
  omega
theorem encM_24_3 (f5 : BitVec 5) (g : BitVec 3) (k : BitVec 3) (xb : BitVec 4) (xa : BitVec 4) (m : BitVec 4) (t : BitVec 1) : (encM f5 g k xb xa m t).extractLsb' 24 3 = g := by
  apply BitVec.eq_of_toNat_eq
  have := g.isLt
  have := k.isLt
  have := xb.isLt
  have := xa.isLt
  have := m.isLt
  have := t.isLt
  rw [field_toNat, encM_toNat]
  omega
theorem encM_27_5 (f5 : BitVec 5) (g : BitVec 3) (k : BitVec 3) (xb : BitVec 4) (xa : BitVec 4) (m : BitVec 4) (t : BitVec 1) : (encM f5 g k xb xa m t).extractLsb' 27 5 = f5 := by
  apply BitVec.eq_of_toNat_eq
  have := f5.isLt
  have := g.isLt
  have := k.isLt
  have := xb.isLt
  have := xa.isLt
  have := m.isLt
  have := t.isLt
  rw [field_toNat, encM_toNat]
  omega

/-! ## The sub-decoder a word reaches (R138) -/

@[simp] theorem decode32_op (lvl : Nat) (f7 : BitVec 7) (b : BitVec 5) (a : BitVec 5) (f3 : BitVec 3) (d : BitVec 5) : decode32 lvl (encR f7 b a f3 d 0x33#7) = decOp f7 f3 d a b := by
  simp [decode32, encR_0_7, encR_7_5, encR_12_3, encR_15_5, encR_20_5, encR_25_7]
@[simp] theorem decode32_op32 (lvl : Nat) (f7 : BitVec 7) (b : BitVec 5) (a : BitVec 5) (f3 : BitVec 3) (d : BitVec 5) : decode32 lvl (encR f7 b a f3 d 0x3B#7) = decOp32 f7 f3 d a b := by
  simp [decode32, encR_0_7, encR_7_5, encR_12_3, encR_15_5, encR_20_5, encR_25_7]
@[simp] theorem decode32_fp (lvl : Nat) (f7 : BitVec 7) (b : BitVec 5) (a : BitVec 5) (f3 : BitVec 3) (d : BitVec 5) : decode32 lvl (encR f7 b a f3 d 0x53#7) = decFp f7 f3 d a b := by
  simp [decode32, encR_0_7, encR_7_5, encR_12_3, encR_15_5, encR_20_5, encR_25_7]
@[simp] theorem decode32_cx (lvl : Nat) (f7 : BitVec 7) (b : BitVec 5) (a : BitVec 5) (f3 : BitVec 3) (d : BitVec 5) : decode32 lvl (encR f7 b a f3 d 0x0B#7) = decCx lvl f7 f3 d a b := by
  simp [decode32, encR_0_7, encR_7_5, encR_12_3, encR_15_5, encR_20_5, encR_25_7]
@[simp] theorem decode32_ce (lvl : Nat) (f7 : BitVec 7) (b : BitVec 5) (a : BitVec 5) (f3 : BitVec 3) (d : BitVec 5) : decode32 lvl (encR f7 b a f3 d 0x2B#7) = decCe lvl f7 f3 d a b := by
  simp [decode32, encR_0_7, encR_7_5, encR_12_3, encR_15_5, encR_20_5, encR_25_7]
@[simp] theorem decode32_load (lvl : Nat) (i : BitVec 12) (a : BitVec 5) (f3 : BitVec 3) (d : BitVec 5) : decode32 lvl (encI i a f3 d 0x03#7) = decLoad f3 d a i := by
  simp [decode32, encI_0_7, encI_7_5, encI_12_3, encI_15_5, encI_20_12]
@[simp] theorem decode32_opImm (lvl : Nat) (i : BitVec 12) (a : BitVec 5) (f3 : BitVec 3) (d : BitVec 5) : decode32 lvl (encI i a f3 d 0x13#7) = decOpImm f3 d a i := by
  simp [decode32, encI_0_7, encI_7_5, encI_12_3, encI_15_5, encI_20_12]
@[simp] theorem decode32_opImm32 (lvl : Nat) (i : BitVec 12) (a : BitVec 5) (f3 : BitVec 3) (d : BitVec 5) : decode32 lvl (encI i a f3 d 0x1B#7) = decOpImm32 f3 d a i := by
  simp [decode32, encI_0_7, encI_7_5, encI_12_3, encI_15_5, encI_20_12]
@[simp] theorem decode32_jalr (lvl : Nat) (i : BitVec 12) (a : BitVec 5) (f3 : BitVec 3) (d : BitVec 5) : decode32 lvl (encI i a f3 d 0x67#7) = (if f3 = 0#3 then rsv (hi d || hi a) (.jalr (lo d) (lo a) i) else undef) := by
  simp [decode32, encI_0_7, encI_7_5, encI_12_3, encI_15_5, encI_20_12]
@[simp] theorem decode32_system (lvl : Nat) (i : BitVec 12) (a : BitVec 5) (f3 : BitVec 3) (d : BitVec 5) : decode32 lvl (encI i a f3 d 0x73#7) = decSystem f3 d a i := by
  simp [decode32, encI_0_7, encI_7_5, encI_12_3, encI_15_5, encI_20_12]
@[simp] theorem decode32_lui (lvl : Nat) (u : BitVec 20) (d : BitVec 5) : decode32 lvl (encU u d 0x37#7) = rsv (hi d) (.lui (lo d) u) := by
  simp [decode32, encU_0_7, encU_7_5, encU_12_20]
@[simp] theorem decode32_auipc (lvl : Nat) (u : BitVec 20) (d : BitVec 5) : decode32 lvl (encU u d 0x17#7) = rsv (hi d) (.auipc (lo d) u) := by
  simp [decode32, encU_0_7, encU_7_5, encU_12_20]
@[simp] theorem decode32_cv (lvl : Nat) (f4 : BitVec 4) (g : BitVec 3) (b : BitVec 5) (a : BitVec 5) (f3 : BitVec 3) (d : BitVec 5) : decode32 lvl (encV f4 g b a f3 d) = decCv lvl f4 g f3 d a b := by
  simp [decode32, encV_0_7, encV_7_5, encV_12_3, encV_15_5, encV_20_5, encV_25_3, encV_28_4]
@[simp] theorem decode32_cm (lvl : Nat) (f5 : BitVec 5) (g : BitVec 3) (k : BitVec 3) (xb : BitVec 4) (xa : BitVec 4) (m : BitVec 4) (t : BitVec 1) : decode32 lvl (encM f5 g k xb xa m t) = decCm lvl f5 g k xb xa m 0#1 t := by
  simp [decode32, encM_0_7, encM_7_1, encM_8_1, encM_9_4, encM_13_4, encM_17_4, encM_21_3, encM_24_3, encM_27_5]

/-- FMADD: xs3 above the format bits. -/
@[simp] theorem decode32_madd (lvl : Nat) (c : XReg) (b a : BitVec 5) (f3 : BitVec 3) (d : BitVec 5) :
    decode32 lvl (encR (z5 c ++ 0#2) b a f3 d 0x43#7) =
      if rmAllowed f3 then rsv (hi d || hi a || hi b) (.fmaddS (lo d) (lo a) (lo b) c f3) else undef := by
  have h1 : (encR (z5 c ++ 0#2) b a f3 d 0x43#7).extractLsb' 25 2 = 0#2 := by
    apply BitVec.eq_of_toNat_eq
    have := b.isLt
    have := a.isLt
    have := f3.isLt
    have := d.isLt
    rw [field_toNat, encR_toNat, cat_toNat]
    simp only [BitVec.toNat_ofNat]
    omega
  have h2 : (encR (z5 c ++ 0#2) b a f3 d 0x43#7).extractLsb' 27 5 = z5 c := by
    apply BitVec.eq_of_toNat_eq
    have := b.isLt
    have := a.isLt
    have := f3.isLt
    have := d.isLt
    have := (z5 c).isLt
    rw [field_toNat, encR_toNat, cat_toNat]
    simp only [BitVec.toNat_ofNat]
    omega
  simp [decode32, h1, h2, encR_0_7, encR_7_5, encR_12_3, encR_15_5, encR_20_5]

/-- Fields of an immediate that together are the immediate. -/
theorem split_store (i : BitVec 12) : i.extractLsb' 5 7 ++ i.extractLsb' 0 5 = i := by
  apply BitVec.eq_of_toNat_eq
  have := i.isLt
  rw [cat_toNat, field_toNat, field_toNat]
  omega
theorem split_branch (i : BitVec 12) :
    i.extractLsb' 11 1 ++ i.extractLsb' 10 1 ++ i.extractLsb' 4 6 ++ i.extractLsb' 0 4 = i := by
  apply BitVec.eq_of_toNat_eq
  have := i.isLt
  rw [cat_toNat, cat_toNat, cat_toNat, field_toNat, field_toNat, field_toNat, field_toNat]
  omega
theorem split_jump (i : BitVec 20) :
    i.extractLsb' 19 1 ++ i.extractLsb' 11 8 ++ i.extractLsb' 10 1 ++ i.extractLsb' 0 10 = i := by
  apply BitVec.eq_of_toNat_eq
  have := i.isLt
  rw [cat_toNat, cat_toNat, cat_toNat, field_toNat, field_toNat, field_toNat, field_toNat]
  omega
theorem split_barrier (n : BitVec 10) : n.extractLsb' 5 5 ++ n.extractLsb' 0 5 = n := by
  apply BitVec.eq_of_toNat_eq
  have := n.isLt
  rw [cat_toNat, field_toNat, field_toNat]
  omega

theorem encS_eq (i : BitVec 12) (b a : XReg) (f3 : BitVec 3) :
    encS i b a f3 = encR (i.extractLsb' 5 7) (z5 b) (z5 a) f3 (i.extractLsb' 0 5) 0x23#7 := rfl
theorem encB_eq (i : BitVec 12) (b a : XReg) (f3 : BitVec 3) :
    encB i b a f3 = encR (i.extractLsb' 11 1 ++ i.extractLsb' 4 6) (z5 b) (z5 a) f3 (i.extractLsb' 0 4 ++ i.extractLsb' 10 1) 0x63#7 := by
  apply BitVec.eq_of_toNat_eq
  rw [encR_toNat, cat_toNat, cat_toNat]
  refine (cat_toNat _ 0x63#7).trans ?_
  rw [cat_toNat, cat_toNat, cat_toNat, cat_toNat, cat_toNat, cat_toNat]
  simp only [BitVec.toNat_ofNat]
  omega

theorem encR_7_1 (f7 : BitVec 7) (b a : BitVec 5) (f3 : BitVec 3) (d : BitVec 5) (op : BitVec 7) :
    (encR f7 b a f3 d op).extractLsb' 7 1 = d.extractLsb' 0 1 := by
  apply BitVec.eq_of_toNat_eq
  have := f7.isLt
  have := b.isLt
  have := a.isLt
  have := f3.isLt
  have := d.isLt
  have := op.isLt
  rw [field_toNat, field_toNat, encR_toNat]
  omega
theorem encR_8_4 (f7 : BitVec 7) (b a : BitVec 5) (f3 : BitVec 3) (d : BitVec 5) (op : BitVec 7) :
    (encR f7 b a f3 d op).extractLsb' 8 4 = d.extractLsb' 1 4 := by
  apply BitVec.eq_of_toNat_eq
  have := f7.isLt
  have := b.isLt
  have := a.isLt
  have := f3.isLt
  have := d.isLt
  have := op.isLt
  rw [field_toNat, field_toNat, encR_toNat]
  omega
theorem encR_25_6 (f7 : BitVec 7) (b a : BitVec 5) (f3 : BitVec 3) (d : BitVec 5) (op : BitVec 7) :
    (encR f7 b a f3 d op).extractLsb' 25 6 = f7.extractLsb' 0 6 := by
  apply BitVec.eq_of_toNat_eq
  have := f7.isLt
  have := b.isLt
  have := a.isLt
  have := f3.isLt
  have := d.isLt
  have := op.isLt
  rw [field_toNat, field_toNat, encR_toNat]
  omega
theorem encR_31_1 (f7 : BitVec 7) (b a : BitVec 5) (f3 : BitVec 3) (d : BitVec 5) (op : BitVec 7) :
    (encR f7 b a f3 d op).extractLsb' 31 1 = f7.extractLsb' 6 1 := by
  apply BitVec.eq_of_toNat_eq
  have := f7.isLt
  have := b.isLt
  have := a.isLt
  have := f3.isLt
  have := d.isLt
  have := op.isLt
  rw [field_toNat, field_toNat, encR_toNat]
  omega
theorem high_1_6 (x : BitVec 1) (y : BitVec 6) : (x ++ y).extractLsb' 6 1 = x := by
  apply BitVec.eq_of_toNat_eq
  have := x.isLt
  have := y.isLt
  rw [field_toNat, cat_toNat]
  omega
theorem low_1_6 (x : BitVec 1) (y : BitVec 6) : (x ++ y).extractLsb' 0 6 = y := by
  apply BitVec.eq_of_toNat_eq
  have := y.isLt
  rw [field_toNat, cat_toNat]
  omega
theorem high_4_1 (x : BitVec 4) (y : BitVec 1) : (x ++ y).extractLsb' 1 4 = x := by
  apply BitVec.eq_of_toNat_eq
  have := x.isLt
  have := y.isLt
  rw [field_toNat, cat_toNat]
  omega
theorem low_4_1 (x : BitVec 4) (y : BitVec 1) : (x ++ y).extractLsb' 0 1 = y := by
  apply BitVec.eq_of_toNat_eq
  have := y.isLt
  rw [field_toNat, cat_toNat]
  omega

@[simp] theorem decode32_store (lvl : Nat) (i : BitVec 12) (b a : XReg) (f3 : BitVec 3) :
    decode32 lvl (encS i b a f3) = decStore f3 (z5 b) (z5 a) i := by
  rw [encS_eq]
  simp [decode32, encR_0_7, encR_7_5, encR_12_3, encR_15_5, encR_20_5, encR_25_7, split_store]
@[simp] theorem decode32_branch (lvl : Nat) (i : BitVec 12) (b a : XReg) (f3 : BitVec 3) :
    decode32 lvl (encB i b a f3) = decBranch f3 (z5 a) (z5 b) i := by
  rw [encB_eq]
  simp [decode32, encR_0_7, encR_7_1, encR_8_4, encR_12_3, encR_15_5, encR_20_5, encR_25_6, encR_31_1, high_1_6, low_1_6, high_4_1,
    low_4_1, split_branch]

theorem encU_31_1 (u : BitVec 20) (d : BitVec 5) (op : BitVec 7) :
    (encU u d op).extractLsb' 31 1 = u.extractLsb' 19 1 := by
  apply BitVec.eq_of_toNat_eq
  have := u.isLt
  have := d.isLt
  have := op.isLt
  rw [field_toNat, field_toNat, encU_toNat]
  omega
theorem encU_12_8 (u : BitVec 20) (d : BitVec 5) (op : BitVec 7) :
    (encU u d op).extractLsb' 12 8 = u.extractLsb' 0 8 := by
  apply BitVec.eq_of_toNat_eq
  have := u.isLt
  have := d.isLt
  have := op.isLt
  rw [field_toNat, field_toNat, encU_toNat]
  omega
theorem encU_20_1 (u : BitVec 20) (d : BitVec 5) (op : BitVec 7) :
    (encU u d op).extractLsb' 20 1 = u.extractLsb' 8 1 := by
  apply BitVec.eq_of_toNat_eq
  have := u.isLt
  have := d.isLt
  have := op.isLt
  rw [field_toNat, field_toNat, encU_toNat]
  omega
theorem encU_21_10 (u : BitVec 20) (d : BitVec 5) (op : BitVec 7) :
    (encU u d op).extractLsb' 21 10 = u.extractLsb' 9 10 := by
  apply BitVec.eq_of_toNat_eq
  have := u.isLt
  have := d.isLt
  have := op.isLt
  rw [field_toNat, field_toNat, encU_toNat]
  omega
@[simp] theorem decode32_jal (lvl : Nat) (d : BitVec 5) (i : BitVec 20) :
    decode32 lvl (encU (i.extractLsb' 19 1 ++ i.extractLsb' 0 10 ++ i.extractLsb' 10 1 ++ i.extractLsb' 11 8) d 0x6F#7) =
      rsv (hi d) (.jal (lo d) i) := by
  have e : ∀ (x : BitVec 1) (y : BitVec 10) (z : BitVec 1) (w : BitVec 8),
      (x ++ y ++ z ++ w).extractLsb' 19 1 = x ∧ (x ++ y ++ z ++ w).extractLsb' 9 10 = y ∧
        (x ++ y ++ z ++ w).extractLsb' 8 1 = z ∧ (x ++ y ++ z ++ w).extractLsb' 0 8 = w := by
    intro x y z w
    have := x.isLt
    have := y.isLt
    have := z.isLt
    have := w.isLt
    refine ⟨?_, ?_, ?_, ?_⟩ <;> apply BitVec.eq_of_toNat_eq <;> rw [field_toNat, cat_toNat, cat_toNat, cat_toNat] <;> omega
  obtain ⟨h1, h2, h3, h4⟩ := e (i.extractLsb' 19 1) (i.extractLsb' 0 10) (i.extractLsb' 10 1) (i.extractLsb' 11 8)
  simp [decode32, encU_0_7, encU_7_5, encU_31_1, encU_12_8, encU_20_1, encU_21_10, h1, h2, h3, h4, split_jump]

/-! ## Long forms (R133) -/

theorem encL_toNat (f : BitVec 4) (d : XReg) (i : BitVec 32) :
    (encL f d i).toNat = ((i.toNat * 2 ^ 4 + f.toNat) * 2 ^ 4 + d.toNat) * 2 ^ 8 + 0x1F := by
  exact (cat_toNat _ 0x1F#8).trans (by rw [cat_toNat, cat_toNat]; rfl)
theorem encL_12_4 (f : BitVec 4) (d : XReg) (i : BitVec 32) : (encL f d i).extractLsb' 12 4 = f := by
  apply BitVec.eq_of_toNat_eq
  have := f.isLt
  have := d.isLt
  rw [field_toNat, encL_toNat]
  omega
theorem encL_8_4 (f : BitVec 4) (d : XReg) (i : BitVec 32) : (encL f d i).extractLsb' 8 4 = d := by
  apply BitVec.eq_of_toNat_eq
  have := f.isLt
  have := d.isLt
  rw [field_toNat, encL_toNat]
  omega
theorem encL_16_32 (f : BitVec 4) (d : XReg) (i : BitVec 32) : (encL f d i).extractLsb' 16 32 = i := by
  apply BitVec.eq_of_toNat_eq
  have := f.isLt
  have := d.isLt
  have := i.isLt
  rw [field_toNat, encL_toNat]
  omega
theorem encL_7 (f : BitVec 4) (d : XReg) (i : BitVec 32) : (encL f d i).getLsbD 7 = false := by
  have := f.isLt
  have := d.isLt
  rw [BitVec.getLsbD, encL_toNat, Nat.testBit_eq_decide_div_mod_eq]
  simp only [decide_eq_false_iff_not]
  omega

end Sys2Proof.Laws
end

