-- ==== Sys2Proof/Laws/PerInstr.lean ====
section
/-! SUPPORT. Decoding an encoded well-formed instruction gives it back, instruction by instruction (R129 to R147). -/

set_option linter.unusedSimpArgs false

namespace Sys2Proof.Laws.Coding

open Sys2Proof

/-- What the decoder reads from the encoding of a well-formed instruction is that instruction. -/
def Statement (i : Instr) : Prop := i.wf = true → encode i ≠ .none → decodeEnc i.level (encode i) = .ok i

/-- A check that no field breaks. -/
theorem rsv_ok (i : Instr) : rsv false i = .ok i := rfl
theorem parts_6_6 (x : BitVec 6) (y : BitVec 6) : (x ++ y).extractLsb' 6 6 = x ∧ (x ++ y).extractLsb' 0 6 = y := by
  have := x.isLt
  have := y.isLt
  constructor <;> apply BitVec.eq_of_toNat_eq <;> rw [field_toNat, cat_toNat] <;> omega
theorem parts_7_5 (x : BitVec 7) (y : BitVec 5) :
    (x ++ y).extractLsb' 6 6 = x.extractLsb' 1 6 ∧ (x ++ y).extractLsb' 0 5 = y ∧ (x ++ y).getLsbD 5 = x.getLsbD 0 := by
  have := x.isLt
  have := y.isLt
  refine ⟨?_, ?_, ?_⟩
  · apply BitVec.eq_of_toNat_eq
    rw [field_toNat, field_toNat, cat_toNat]
    omega
  · apply BitVec.eq_of_toNat_eq
    rw [field_toNat, cat_toNat]
    omega
  · rw [BitVec.getLsbD, BitVec.getLsbD, cat_toNat, Nat.testBit_eq_decide_div_mod_eq, Nat.testBit_eq_decide_div_mod_eq]
    congr 1
    apply propext
    constructor <;> omega

theorem catLo {w v : Nat} (x : BitVec w) (y : BitVec v) (s n : Nat) (h : s + n ≤ v) : @BitVec.extractLsb' (no_index (w + v)) s n (@HAppend.hAppend (BitVec w) (BitVec v) (no_index (BitVec (w + v))) _ x y) = y.extractLsb' s n := by
  apply BitVec.eq_of_toNat_eq
  rw [field_toNat, field_toNat, cat_toNat]
  obtain ⟨k, rfl⟩ : ∃ k, v = s + n + k := ⟨v - (s + n), by omega⟩
  rw [Nat.pow_add, Nat.pow_add, show x.toNat * (2 ^ s * 2 ^ n * 2 ^ k) + y.toNat = y.toNat + 2 ^ s * (2 ^ n * (2 ^ k * x.toNat)) by ring,
    Nat.add_mul_div_left _ _ (Nat.two_pow_pos s), Nat.add_mul_mod_self_left]
theorem catHi {w v : Nat} (x : BitVec w) (y : BitVec v) (s n : Nat) (h : v ≤ s) : @BitVec.extractLsb' (no_index (w + v)) s n (@HAppend.hAppend (BitVec w) (BitVec v) (no_index (BitVec (w + v))) _ x y) = x.extractLsb' (s - v) n := by
  apply BitVec.eq_of_toNat_eq
  rw [field_toNat, field_toNat, cat_toNat]
  obtain ⟨k, rfl⟩ : ∃ k, s = v + k := ⟨s - v, by omega⟩
  rw [Nat.pow_add, ← Nat.div_div_eq_div_mul, Nat.add_comm (_ * _), Nat.add_mul_div_right _ _ (Nat.two_pow_pos v), Nat.div_eq_of_lt y.isLt]
  simp
theorem sub_field {w : Nat} (x : BitVec w) (s n t m : Nat) (h : t + m ≤ n) : (x.extractLsb' s n).extractLsb' t m = x.extractLsb' (s + t) m := by
  apply BitVec.eq_of_getLsbD_eq
  intro i hi
  simp [hi, show t + i < n by omega, Nat.add_assoc]
theorem join {w : Nat} (x : BitVec w) (s n t m : Nat) (h : t = s + n) : @HAppend.hAppend (BitVec m) (BitVec n) (no_index (BitVec (m + n))) _ (x.extractLsb' t m) (x.extractLsb' s n) = x.extractLsb' s (m + n) := by
  subst h
  apply BitVec.eq_of_getLsbD_eq
  intro i hi
  rw [BitVec.getLsbD_append]
  by_cases h : i < n
  · simp [h, hi]
  · simp [h, hi, show i - n < m by omega, show s + n + (i - n) = s + i by omega]
theorem whole {w : Nat} (x : BitVec w) : x.extractLsb' 0 w = x := by
  apply BitVec.eq_of_toNat_eq
  rw [field_toNat]
  simp
theorem z5_zero : ∀ d : XReg, z5 d = 0#5 ↔ d = 0#4 := by decide
theorem z5_two : ∀ d : XReg, z5 d = 2#5 ↔ d = 2#4 := by decide
theorem z5_ne (a : XReg) : (z5 a != 0#5) = (a != 0#4) := by revert a; decide
theorem tag2_0 (b : BitVec 3) : hi (0#2 ++ b) = false ∧ lo3 (0#2 ++ b) = b ∧ (0#2 ++ b).getLsbD 3 = false ∧
    (0#2 ++ b).extractLsb' 3 2 = 0#2 := by revert b; decide
theorem tag2_1 (b : BitVec 3) : hi (1#2 ++ b) = false ∧ lo3 (1#2 ++ b) = b ∧ (1#2 ++ b).getLsbD 3 = true ∧
    (1#2 ++ b).extractLsb' 3 2 = 1#2 := by revert b; decide
theorem tag2_2 (b : BitVec 3) : hi (2#2 ++ b) = true ∧ lo3 (2#2 ++ b) = b ∧ (2#2 ++ b).getLsbD 3 = false ∧
    (2#2 ++ b).extractLsb' 3 2 = 2#2 := by revert b; decide
theorem tag2_3 (b : BitVec 3) : hi (3#2 ++ b) = true ∧ lo3 (3#2 ++ b) = b ∧ (3#2 ++ b).getLsbD 3 = true ∧
    (3#2 ++ b).extractLsb' 3 2 = 3#2 := by revert b; decide

theorem lb (d : XReg) (a : XReg) (i : BitVec 12) : Statement (.lb d a i) := by
  intro hw _
  show decode32 3 (encI i (z5 a) 0#3 (z5 d) 0x03#7) = .ok (.lb d a i)
  simp [rsv, decLoad]
theorem lh (d : XReg) (a : XReg) (i : BitVec 12) : Statement (.lh d a i) := by
  intro hw _
  show decode32 3 (encI i (z5 a) 1#3 (z5 d) 0x03#7) = .ok (.lh d a i)
  simp [rsv, decLoad]
theorem lw (d : XReg) (a : XReg) (i : BitVec 12) : Statement (.lw d a i) := by
  intro hw _
  show decode32 3 (encI i (z5 a) 2#3 (z5 d) 0x03#7) = .ok (.lw d a i)
  simp [rsv, decLoad]
theorem ld (d : XReg) (a : XReg) (i : BitVec 12) : Statement (.ld d a i) := by
  intro hw _
  show decode32 3 (encI i (z5 a) 3#3 (z5 d) 0x03#7) = .ok (.ld d a i)
  simp [rsv, decLoad]
theorem lbu (d : XReg) (a : XReg) (i : BitVec 12) : Statement (.lbu d a i) := by
  intro hw _
  show decode32 3 (encI i (z5 a) 4#3 (z5 d) 0x03#7) = .ok (.lbu d a i)
  simp [rsv, decLoad]
theorem lhu (d : XReg) (a : XReg) (i : BitVec 12) : Statement (.lhu d a i) := by
  intro hw _
  show decode32 3 (encI i (z5 a) 5#3 (z5 d) 0x03#7) = .ok (.lhu d a i)
  simp [rsv, decLoad]
theorem lwu (d : XReg) (a : XReg) (i : BitVec 12) : Statement (.lwu d a i) := by
  intro hw _
  show decode32 3 (encI i (z5 a) 6#3 (z5 d) 0x03#7) = .ok (.lwu d a i)
  simp [rsv, decLoad]
theorem sb (b : XReg) (a : XReg) (i : BitVec 12) : Statement (.sb b a i) := by
  intro hw _
  show decode32 3 (encS i b a 0#3) = .ok (.sb b a i)
  simp [rsv, decStore]
theorem sh (b : XReg) (a : XReg) (i : BitVec 12) : Statement (.sh b a i) := by
  intro hw _
  show decode32 3 (encS i b a 1#3) = .ok (.sh b a i)
  simp [rsv, decStore]
theorem sw (b : XReg) (a : XReg) (i : BitVec 12) : Statement (.sw b a i) := by
  intro hw _
  show decode32 3 (encS i b a 2#3) = .ok (.sw b a i)
  simp [rsv, decStore]
theorem sd (b : XReg) (a : XReg) (i : BitVec 12) : Statement (.sd b a i) := by
  intro hw _
  show decode32 3 (encS i b a 3#3) = .ok (.sd b a i)
  simp [rsv, decStore]
theorem add (d : XReg) (a : XReg) (b : XReg) : Statement (.add d a b) := by
  intro hw _
  show decode32 3 (encR 0x0#7 (z5 b) (z5 a) 0#3 (z5 d) 0x33#7) = .ok (.add d a b)
  simp [rsv, decOp]
theorem sub (d : XReg) (a : XReg) (b : XReg) : Statement (.sub d a b) := by
  intro hw _
  show decode32 3 (encR 0x20#7 (z5 b) (z5 a) 0#3 (z5 d) 0x33#7) = .ok (.sub d a b)
  simp [rsv, decOp]
theorem sll (d : XReg) (a : XReg) (b : XReg) : Statement (.sll d a b) := by
  intro hw _
  show decode32 3 (encR 0x0#7 (z5 b) (z5 a) 1#3 (z5 d) 0x33#7) = .ok (.sll d a b)
  simp [rsv, decOp]
theorem slt (d : XReg) (a : XReg) (b : XReg) : Statement (.slt d a b) := by
  intro hw _
  show decode32 3 (encR 0x0#7 (z5 b) (z5 a) 2#3 (z5 d) 0x33#7) = .ok (.slt d a b)
  simp [rsv, decOp]
theorem sltu (d : XReg) (a : XReg) (b : XReg) : Statement (.sltu d a b) := by
  intro hw _
  show decode32 3 (encR 0x0#7 (z5 b) (z5 a) 3#3 (z5 d) 0x33#7) = .ok (.sltu d a b)
  simp [rsv, decOp]
theorem xor (d : XReg) (a : XReg) (b : XReg) : Statement (.xor d a b) := by
  intro hw _
  show decode32 3 (encR 0x0#7 (z5 b) (z5 a) 4#3 (z5 d) 0x33#7) = .ok (.xor d a b)
  simp [rsv, decOp]
theorem srl (d : XReg) (a : XReg) (b : XReg) : Statement (.srl d a b) := by
  intro hw _
  show decode32 3 (encR 0x0#7 (z5 b) (z5 a) 5#3 (z5 d) 0x33#7) = .ok (.srl d a b)
  simp [rsv, decOp]
theorem sra (d : XReg) (a : XReg) (b : XReg) : Statement (.sra d a b) := by
  intro hw _
  show decode32 3 (encR 0x20#7 (z5 b) (z5 a) 5#3 (z5 d) 0x33#7) = .ok (.sra d a b)
  simp [rsv, decOp]
theorem or (d : XReg) (a : XReg) (b : XReg) : Statement (.or d a b) := by
  intro hw _
  show decode32 3 (encR 0x0#7 (z5 b) (z5 a) 6#3 (z5 d) 0x33#7) = .ok (.or d a b)
  simp [rsv, decOp]
theorem and (d : XReg) (a : XReg) (b : XReg) : Statement (.and d a b) := by
  intro hw _
  show decode32 3 (encR 0x0#7 (z5 b) (z5 a) 7#3 (z5 d) 0x33#7) = .ok (.and d a b)
  simp [rsv, decOp]
theorem andn (d : XReg) (a : XReg) (b : XReg) : Statement (.andn d a b) := by
  intro hw _
  show decode32 3 (encR 0x20#7 (z5 b) (z5 a) 7#3 (z5 d) 0x33#7) = .ok (.andn d a b)
  simp [rsv, decOp]
theorem orn (d : XReg) (a : XReg) (b : XReg) : Statement (.orn d a b) := by
  intro hw _
  show decode32 3 (encR 0x20#7 (z5 b) (z5 a) 6#3 (z5 d) 0x33#7) = .ok (.orn d a b)
  simp [rsv, decOp]
theorem min (d : XReg) (a : XReg) (b : XReg) : Statement (.min d a b) := by
  intro hw _
  show decode32 3 (encR 0x5#7 (z5 b) (z5 a) 4#3 (z5 d) 0x33#7) = .ok (.min d a b)
  simp [rsv, decOp]
theorem minu (d : XReg) (a : XReg) (b : XReg) : Statement (.minu d a b) := by
  intro hw _
  show decode32 3 (encR 0x5#7 (z5 b) (z5 a) 5#3 (z5 d) 0x33#7) = .ok (.minu d a b)
  simp [rsv, decOp]
theorem max (d : XReg) (a : XReg) (b : XReg) : Statement (.max d a b) := by
  intro hw _
  show decode32 3 (encR 0x5#7 (z5 b) (z5 a) 6#3 (z5 d) 0x33#7) = .ok (.max d a b)
  simp [rsv, decOp]
theorem maxu (d : XReg) (a : XReg) (b : XReg) : Statement (.maxu d a b) := by
  intro hw _
  show decode32 3 (encR 0x5#7 (z5 b) (z5 a) 7#3 (z5 d) 0x33#7) = .ok (.maxu d a b)
  simp [rsv, decOp]
theorem sh1add (d : XReg) (a : XReg) (b : XReg) : Statement (.sh1add d a b) := by
  intro hw _
  show decode32 3 (encR 0x10#7 (z5 b) (z5 a) 2#3 (z5 d) 0x33#7) = .ok (.sh1add d a b)
  simp [rsv, decOp]
theorem sh2add (d : XReg) (a : XReg) (b : XReg) : Statement (.sh2add d a b) := by
  intro hw _
  show decode32 3 (encR 0x10#7 (z5 b) (z5 a) 4#3 (z5 d) 0x33#7) = .ok (.sh2add d a b)
  simp [rsv, decOp]
theorem sh3add (d : XReg) (a : XReg) (b : XReg) : Statement (.sh3add d a b) := by
  intro hw _
  show decode32 3 (encR 0x10#7 (z5 b) (z5 a) 6#3 (z5 d) 0x33#7) = .ok (.sh3add d a b)
  simp [rsv, decOp]
theorem mul (d : XReg) (a : XReg) (b : XReg) : Statement (.mul d a b) := by
  intro hw _
  show decode32 3 (encR 0x1#7 (z5 b) (z5 a) 0#3 (z5 d) 0x33#7) = .ok (.mul d a b)
  simp [rsv, decOp]
theorem mulh (d : XReg) (a : XReg) (b : XReg) : Statement (.mulh d a b) := by
  intro hw _
  show decode32 3 (encR 0x1#7 (z5 b) (z5 a) 1#3 (z5 d) 0x33#7) = .ok (.mulh d a b)
  simp [rsv, decOp]
theorem mulhu (d : XReg) (a : XReg) (b : XReg) : Statement (.mulhu d a b) := by
  intro hw _
  show decode32 3 (encR 0x1#7 (z5 b) (z5 a) 3#3 (z5 d) 0x33#7) = .ok (.mulhu d a b)
  simp [rsv, decOp]
theorem div (d : XReg) (a : XReg) (b : XReg) : Statement (.div d a b) := by
  intro hw _
  show decode32 3 (encR 0x1#7 (z5 b) (z5 a) 4#3 (z5 d) 0x33#7) = .ok (.div d a b)
  simp [rsv, decOp]
theorem divu (d : XReg) (a : XReg) (b : XReg) : Statement (.divu d a b) := by
  intro hw _
  show decode32 3 (encR 0x1#7 (z5 b) (z5 a) 5#3 (z5 d) 0x33#7) = .ok (.divu d a b)
  simp [rsv, decOp]
theorem rem (d : XReg) (a : XReg) (b : XReg) : Statement (.rem d a b) := by
  intro hw _
  show decode32 3 (encR 0x1#7 (z5 b) (z5 a) 6#3 (z5 d) 0x33#7) = .ok (.rem d a b)
  simp [rsv, decOp]
theorem remu (d : XReg) (a : XReg) (b : XReg) : Statement (.remu d a b) := by
  intro hw _
  show decode32 3 (encR 0x1#7 (z5 b) (z5 a) 7#3 (z5 d) 0x33#7) = .ok (.remu d a b)
  simp [rsv, decOp]
theorem addi (d : XReg) (a : XReg) (i : BitVec 12) : Statement (.addi d a i) := by
  intro hw _
  show decode32 3 (encI i (z5 a) 0#3 (z5 d) 0x13#7) = .ok (.addi d a i)
  simp [rsv, decOpImm]
theorem slti (d : XReg) (a : XReg) (i : BitVec 12) : Statement (.slti d a i) := by
  intro hw _
  show decode32 3 (encI i (z5 a) 2#3 (z5 d) 0x13#7) = .ok (.slti d a i)
  simp [rsv, decOpImm]
theorem sltiu (d : XReg) (a : XReg) (i : BitVec 12) : Statement (.sltiu d a i) := by
  intro hw _
  show decode32 3 (encI i (z5 a) 3#3 (z5 d) 0x13#7) = .ok (.sltiu d a i)
  simp [rsv, decOpImm]
theorem xori (d : XReg) (a : XReg) (i : BitVec 12) : Statement (.xori d a i) := by
  intro hw _
  show decode32 3 (encI i (z5 a) 4#3 (z5 d) 0x13#7) = .ok (.xori d a i)
  simp [rsv, decOpImm]
theorem ori (d : XReg) (a : XReg) (i : BitVec 12) : Statement (.ori d a i) := by
  intro hw _
  show decode32 3 (encI i (z5 a) 6#3 (z5 d) 0x13#7) = .ok (.ori d a i)
  simp [rsv, decOpImm]
theorem andi (d : XReg) (a : XReg) (i : BitVec 12) : Statement (.andi d a i) := by
  intro hw _
  show decode32 3 (encI i (z5 a) 7#3 (z5 d) 0x13#7) = .ok (.andi d a i)
  simp [rsv, decOpImm]
theorem slli (d : XReg) (a : XReg) (s : BitVec 6) : Statement (.slli d a s) := by
  intro hw _
  show decode32 3 (encI (0x0#6 ++ s) (z5 a) 1#3 (z5 d) 0x13#7) = .ok (.slli d a s)
  simp [rsv, decOpImm, (parts_6_6 0x0#6 s).1, (parts_6_6 0x0#6 s).2]
theorem srli (d : XReg) (a : XReg) (s : BitVec 6) : Statement (.srli d a s) := by
  intro hw _
  show decode32 3 (encI (0x0#6 ++ s) (z5 a) 5#3 (z5 d) 0x13#7) = .ok (.srli d a s)
  simp [rsv, decOpImm, (parts_6_6 0x0#6 s).1, (parts_6_6 0x0#6 s).2]
theorem srai (d : XReg) (a : XReg) (s : BitVec 6) : Statement (.srai d a s) := by
  intro hw _
  show decode32 3 (encI (0x10#6 ++ s) (z5 a) 5#3 (z5 d) 0x13#7) = .ok (.srai d a s)
  simp [rsv, decOpImm, (parts_6_6 0x10#6 s).1, (parts_6_6 0x10#6 s).2]
theorem clz (d : XReg) (a : XReg) : Statement (.clz d a) := by
  intro hw _
  show decode32 3 (encI 0x600#12 (z5 a) 1#3 (z5 d) 0x13#7) = .ok (.clz d a)
  simp [rsv, decOpImm]
theorem ctz (d : XReg) (a : XReg) : Statement (.ctz d a) := by
  intro hw _
  show decode32 3 (encI 0x601#12 (z5 a) 1#3 (z5 d) 0x13#7) = .ok (.ctz d a)
  simp [rsv, decOpImm]
theorem cpop (d : XReg) (a : XReg) : Statement (.cpop d a) := by
  intro hw _
  show decode32 3 (encI 0x602#12 (z5 a) 1#3 (z5 d) 0x13#7) = .ok (.cpop d a)
  simp [rsv, decOpImm]
theorem addw (d : XReg) (a : XReg) (b : XReg) : Statement (.addw d a b) := by
  intro hw _
  show decode32 3 (encR 0x0#7 (z5 b) (z5 a) 0#3 (z5 d) 0x3B#7) = .ok (.addw d a b)
  simp [rsv, decOp32]
theorem subw (d : XReg) (a : XReg) (b : XReg) : Statement (.subw d a b) := by
  intro hw _
  show decode32 3 (encR 0x20#7 (z5 b) (z5 a) 0#3 (z5 d) 0x3B#7) = .ok (.subw d a b)
  simp [rsv, decOp32]
theorem addiw (d : XReg) (a : XReg) (i : BitVec 12) : Statement (.addiw d a i) := by
  intro hw _
  show decode32 3 (encI i (z5 a) 0#3 (z5 d) 0x1B#7) = .ok (.addiw d a i)
  simp [rsv, decOpImm32]
theorem slliw (d : XReg) (a : XReg) (s : BitVec 5) : Statement (.slliw d a s) := by
  intro hw _
  show decode32 3 (encI (0x0#7 ++ s) (z5 a) 1#3 (z5 d) 0x1B#7) = .ok (.slliw d a s)
  have h := parts_7_5 0x0#7 s
  have h5 := h.2.2
  rw [BitVec.getLsbD_eq_getElem (by omega)] at h5
  simp [rsv, decOpImm32, h.1, h.2.1, h5, show BitVec.extractLsb' 1 6 0x0#7 = 0x0#6 from rfl]
theorem srliw (d : XReg) (a : XReg) (s : BitVec 5) : Statement (.srliw d a s) := by
  intro hw _
  show decode32 3 (encI (0x0#7 ++ s) (z5 a) 5#3 (z5 d) 0x1B#7) = .ok (.srliw d a s)
  have h := parts_7_5 0x0#7 s
  have h5 := h.2.2
  rw [BitVec.getLsbD_eq_getElem (by omega)] at h5
  simp [rsv, decOpImm32, h.1, h.2.1, h5, show BitVec.extractLsb' 1 6 0x0#7 = 0x0#6 from rfl]
theorem sraiw (d : XReg) (a : XReg) (s : BitVec 5) : Statement (.sraiw d a s) := by
  intro hw _
  show decode32 3 (encI (0x20#7 ++ s) (z5 a) 5#3 (z5 d) 0x1B#7) = .ok (.sraiw d a s)
  have h := parts_7_5 0x20#7 s
  have h5 := h.2.2
  rw [BitVec.getLsbD_eq_getElem (by omega)] at h5
  simp [rsv, decOpImm32, h.1, h.2.1, h5, show BitVec.extractLsb' 1 6 0x20#7 = 0x10#6 from rfl]
theorem lui (d : XReg) (i : BitVec 20) : Statement (.lui d i) := by
  intro hw _
  show decode32 3 (encU i (z5 d) 0x37#7) = .ok (.lui d i)
  simp [rsv]
theorem auipc (d : XReg) (i : BitVec 20) : Statement (.auipc d i) := by
  intro hw _
  show decode32 3 (encU i (z5 d) 0x17#7) = .ok (.auipc d i)
  simp [rsv]
theorem beq (a : XReg) (b : XReg) (i : BitVec 12) : Statement (.beq a b i) := by
  intro hw _
  show decode32 3 (encB i b a 0#3) = .ok (.beq a b i)
  simp [rsv, decBranch]
theorem bne (a : XReg) (b : XReg) (i : BitVec 12) : Statement (.bne a b i) := by
  intro hw _
  show decode32 3 (encB i b a 1#3) = .ok (.bne a b i)
  simp [rsv, decBranch]
theorem blt (a : XReg) (b : XReg) (i : BitVec 12) : Statement (.blt a b i) := by
  intro hw _
  show decode32 3 (encB i b a 4#3) = .ok (.blt a b i)
  simp [rsv, decBranch]
theorem bge (a : XReg) (b : XReg) (i : BitVec 12) : Statement (.bge a b i) := by
  intro hw _
  show decode32 3 (encB i b a 5#3) = .ok (.bge a b i)
  simp [rsv, decBranch]
theorem bltu (a : XReg) (b : XReg) (i : BitVec 12) : Statement (.bltu a b i) := by
  intro hw _
  show decode32 3 (encB i b a 6#3) = .ok (.bltu a b i)
  simp [rsv, decBranch]
theorem bgeu (a : XReg) (b : XReg) (i : BitVec 12) : Statement (.bgeu a b i) := by
  intro hw _
  show decode32 3 (encB i b a 7#3) = .ok (.bgeu a b i)
  simp [rsv, decBranch]
theorem jal (d : XReg) (i : BitVec 20) : Statement (.jal d i) := by
  intro hw _
  show decode32 3 (encU (i.extractLsb' 19 1 ++ i.extractLsb' 0 10 ++ i.extractLsb' 10 1 ++ i.extractLsb' 11 8) (z5 d) 0x6F#7) = .ok (.jal d i)
  simp [rsv]
theorem jalr (d : XReg) (a : XReg) (i : BitVec 12) : Statement (.jalr d a i) := by
  intro hw _
  show decode32 3 (encI i (z5 a) 0#3 (z5 d) 0x67#7) = .ok (.jalr d a i)
  simp [rsv]
theorem cAddi4spn (d : BitVec 3) (i : BitVec 8) : Statement (.cAddi4spn d i) := by
  intro hw _
  show decode16 (0#3 ++ i.extractLsb' 2 2 ++ i.extractLsb' 4 4 ++ i.extractLsb' 0 1 ++ i.extractLsb' 1 1 ++ d ++ 0#2) = .ok (.cAddi4spn d i)
  replace hw : (i != 0) = true := hw
  simp [decode16, decodeC0, encCI, catLo, catHi, sub_field, whole, join, rsv, z5_zero, z5_two] at hw ⊢
  simp [hw]
theorem cLw (d : BitVec 3) (a : BitVec 3) (i : BitVec 5) : Statement (.cLw d a i) := by
  intro hw _
  show decode16 (2#3 ++ i.extractLsb' 1 3 ++ a ++ i.extractLsb' 0 1 ++ i.extractLsb' 4 1 ++ d ++ 0#2) = .ok (.cLw d a i)
  simp [decode16, decodeC0, encCI, catLo, catHi, sub_field, whole, join, rsv, z5_zero, z5_two]
theorem cLd (d : BitVec 3) (a : BitVec 3) (i : BitVec 5) : Statement (.cLd d a i) := by
  intro hw _
  show decode16 (3#3 ++ i.extractLsb' 0 3 ++ a ++ i.extractLsb' 3 2 ++ d ++ 0#2) = .ok (.cLd d a i)
  simp [decode16, decodeC0, encCI, catLo, catHi, sub_field, whole, join, rsv, z5_zero, z5_two]
theorem cSw (b : BitVec 3) (a : BitVec 3) (i : BitVec 5) : Statement (.cSw b a i) := by
  intro hw _
  show decode16 (6#3 ++ i.extractLsb' 1 3 ++ a ++ i.extractLsb' 0 1 ++ i.extractLsb' 4 1 ++ b ++ 0#2) = .ok (.cSw b a i)
  simp [decode16, decodeC0, encCI, catLo, catHi, sub_field, whole, join, rsv, z5_zero, z5_two]
theorem cSd (b : BitVec 3) (a : BitVec 3) (i : BitVec 5) : Statement (.cSd b a i) := by
  intro hw _
  show decode16 (7#3 ++ i.extractLsb' 0 3 ++ a ++ i.extractLsb' 3 2 ++ b ++ 0#2) = .ok (.cSd b a i)
  simp [decode16, decodeC0, encCI, catLo, catHi, sub_field, whole, join, rsv, z5_zero, z5_two]
theorem cNop : Statement (.cNop) := by
  intro hw _
  show decode16 1#16 = .ok (.cNop)
  decide +kernel
theorem cAddi (d : XReg) (i : BitVec 6) : Statement (.cAddi d i) := by
  intro hw _
  show decode16 (encCI 0#3 (z5 d) i 1#2) = .ok (.cAddi d i)
  replace hw : (d != 0 || i != 0) = true := hw
  simp [decode16, decodeC1, encCI, catLo, catHi, sub_field, whole, join, rsv, z5_zero, z5_two] at hw ⊢
  intro h
  simpa [h] using hw
theorem cAddiw (d : XReg) (i : BitVec 6) : Statement (.cAddiw d i) := by
  intro hw _
  show decode16 (encCI 1#3 (z5 d) i 1#2) = .ok (.cAddiw d i)
  replace hw : (d != 0) = true := hw
  simp [decode16, decodeC1, encCI, catLo, catHi, sub_field, whole, join, rsv, z5_zero, z5_two] at hw ⊢
  simp [hw]
theorem cLi (d : XReg) (i : BitVec 6) : Statement (.cLi d i) := by
  intro hw _
  show decode16 (encCI 2#3 (z5 d) i 1#2) = .ok (.cLi d i)
  simp [decode16, decodeC1, encCI, catLo, catHi, sub_field, whole, join, rsv, z5_zero, z5_two]
theorem cAddi16sp (i : BitVec 6) : Statement (.cAddi16sp i) := by
  intro hw _
  show decode16 (3#3 ++ i.extractLsb' 5 1 ++ 2#5 ++ i.extractLsb' 0 1 ++ i.extractLsb' 2 1 ++ i.extractLsb' 3 2 ++ i.extractLsb' 1 1 ++ 1#2) = .ok (.cAddi16sp i)
  replace hw : (i != 0) = true := hw
  revert i
  decide +kernel
theorem cLui (d : XReg) (i : BitVec 6) : Statement (.cLui d i) := by
  intro hw _
  show decode16 (encCI 3#3 (z5 d) i 1#2) = .ok (.cLui d i)
  replace hw : (d != 2 && i != 0) = true := hw
  simp [decode16, decodeC1, encCI, catLo, catHi, sub_field, whole, join, rsv, z5_zero, z5_two] at hw ⊢
  simp [hw]
theorem cSrli (d : BitVec 3) (i : BitVec 6) : Statement (.cSrli d i) := by
  intro hw _
  show decode16 (encCI 4#3 (0#2 ++ d) i 1#2) = .ok (.cSrli d i)
  simp [decode16, decodeC1, encCI, catLo, catHi, sub_field, whole, join, rsv, z5_zero, z5_two]
theorem cSrai (d : BitVec 3) (i : BitVec 6) : Statement (.cSrai d i) := by
  intro hw _
  show decode16 (encCI 4#3 (1#2 ++ d) i 1#2) = .ok (.cSrai d i)
  simp [decode16, decodeC1, encCI, catLo, catHi, sub_field, whole, join, rsv, z5_zero, z5_two]
theorem cAndi (d : BitVec 3) (i : BitVec 6) : Statement (.cAndi d i) := by
  intro hw _
  show decode16 (encCI 4#3 (2#2 ++ d) i 1#2) = .ok (.cAndi d i)
  simp [decode16, decodeC1, encCI, catLo, catHi, sub_field, whole, join, rsv, z5_zero, z5_two]
theorem cSub (d : BitVec 3) (b : BitVec 3) : Statement (.cSub d b) := by
  intro hw _
  show decode16 (4#3 ++ 0#1 ++ 3#2 ++ d ++ 0#2 ++ b ++ 1#2) = .ok (.cSub d b)
  simp [decode16, decodeC1, encCI, catLo, catHi, sub_field, whole, join, rsv, z5_zero, z5_two]
theorem cXor (d : BitVec 3) (b : BitVec 3) : Statement (.cXor d b) := by
  intro hw _
  show decode16 (4#3 ++ 0#1 ++ 3#2 ++ d ++ 1#2 ++ b ++ 1#2) = .ok (.cXor d b)
  simp [decode16, decodeC1, encCI, catLo, catHi, sub_field, whole, join, rsv, z5_zero, z5_two]
theorem cOr (d : BitVec 3) (b : BitVec 3) : Statement (.cOr d b) := by
  intro hw _
  show decode16 (4#3 ++ 0#1 ++ 3#2 ++ d ++ 2#2 ++ b ++ 1#2) = .ok (.cOr d b)
  simp [decode16, decodeC1, encCI, catLo, catHi, sub_field, whole, join, rsv, z5_zero, z5_two]
theorem cAnd (d : BitVec 3) (b : BitVec 3) : Statement (.cAnd d b) := by
  intro hw _
  show decode16 (4#3 ++ 0#1 ++ 3#2 ++ d ++ 3#2 ++ b ++ 1#2) = .ok (.cAnd d b)
  simp [decode16, decodeC1, encCI, catLo, catHi, sub_field, whole, join, rsv, z5_zero, z5_two]
theorem cSubw (d : BitVec 3) (b : BitVec 3) : Statement (.cSubw d b) := by
  intro hw _
  show decode16 (4#3 ++ 1#1 ++ 3#2 ++ d ++ 0#2 ++ b ++ 1#2) = .ok (.cSubw d b)
  simp [decode16, decodeC1, encCI, catLo, catHi, sub_field, whole, join, rsv, z5_zero, z5_two]
theorem cAddw (d : BitVec 3) (b : BitVec 3) : Statement (.cAddw d b) := by
  intro hw _
  show decode16 (4#3 ++ 1#1 ++ 3#2 ++ d ++ 1#2 ++ b ++ 1#2) = .ok (.cAddw d b)
  simp [decode16, decodeC1, encCI, catLo, catHi, sub_field, whole, join, rsv, z5_zero, z5_two]
theorem cJ (i : BitVec 11) : Statement (.cJ i) := by
  intro hw _
  show decode16 (5#3 ++ i.extractLsb' 10 1 ++ i.extractLsb' 3 1 ++ i.extractLsb' 7 2 ++ i.extractLsb' 9 1 ++ i.extractLsb' 5 1 ++ i.extractLsb' 6 1 ++ i.extractLsb' 0 3 ++ i.extractLsb' 4 1 ++ 1#2) = .ok (.cJ i)
  simp [decode16, decodeC1, encCI, catLo, catHi, sub_field, whole, join, rsv, z5_zero, z5_two]
theorem cBeqz (a : BitVec 3) (i : BitVec 8) : Statement (.cBeqz a i) := by
  intro hw _
  show decode16 (6#3 ++ i.extractLsb' 7 1 ++ i.extractLsb' 2 2 ++ a ++ i.extractLsb' 5 2 ++ i.extractLsb' 0 2 ++ i.extractLsb' 4 1 ++ 1#2) = .ok (.cBeqz a i)
  simp [decode16, decodeC1, encCI, catLo, catHi, sub_field, whole, join, rsv, z5_zero, z5_two]
theorem cBnez (a : BitVec 3) (i : BitVec 8) : Statement (.cBnez a i) := by
  intro hw _
  show decode16 (7#3 ++ i.extractLsb' 7 1 ++ i.extractLsb' 2 2 ++ a ++ i.extractLsb' 5 2 ++ i.extractLsb' 0 2 ++ i.extractLsb' 4 1 ++ 1#2) = .ok (.cBnez a i)
  simp [decode16, decodeC1, encCI, catLo, catHi, sub_field, whole, join, rsv, z5_zero, z5_two]
theorem cSlli (d : XReg) (i : BitVec 6) : Statement (.cSlli d i) := by
  intro hw _
  show decode16 (encCI 0#3 (z5 d) i 2#2) = .ok (.cSlli d i)
  simp [decode16, decodeC2, encCI, catLo, catHi, sub_field, whole, join, rsv, z5_zero, z5_two]
theorem cLwsp (d : XReg) (i : BitVec 6) : Statement (.cLwsp d i) := by
  intro hw _
  show decode16 (2#3 ++ i.extractLsb' 3 1 ++ z5 d ++ i.extractLsb' 0 3 ++ i.extractLsb' 4 2 ++ 2#2) = .ok (.cLwsp d i)
  replace hw : (d != 0) = true := hw
  simp [decode16, decodeC2, encCI, catLo, catHi, sub_field, whole, join, rsv, z5_zero, z5_two] at hw ⊢
  simp [hw]
theorem cLdsp (d : XReg) (i : BitVec 6) : Statement (.cLdsp d i) := by
  intro hw _
  show decode16 (3#3 ++ i.extractLsb' 2 1 ++ z5 d ++ i.extractLsb' 0 2 ++ i.extractLsb' 3 3 ++ 2#2) = .ok (.cLdsp d i)
  replace hw : (d != 0) = true := hw
  simp [decode16, decodeC2, encCI, catLo, catHi, sub_field, whole, join, rsv, z5_zero, z5_two] at hw ⊢
  simp [hw]
theorem cSwsp (b : XReg) (i : BitVec 6) : Statement (.cSwsp b i) := by
  intro hw _
  show decode16 (6#3 ++ i.extractLsb' 0 4 ++ i.extractLsb' 4 2 ++ z5 b ++ 2#2) = .ok (.cSwsp b i)
  simp [decode16, decodeC2, encCI, catLo, catHi, sub_field, whole, join, rsv, z5_zero, z5_two]
theorem cSdsp (b : XReg) (i : BitVec 6) : Statement (.cSdsp b i) := by
  intro hw _
  show decode16 (7#3 ++ i.extractLsb' 0 3 ++ i.extractLsb' 3 3 ++ z5 b ++ 2#2) = .ok (.cSdsp b i)
  simp [decode16, decodeC2, encCI, catLo, catHi, sub_field, whole, join, rsv, z5_zero, z5_two]
theorem cJr (a : XReg) : Statement (.cJr a) := by
  intro hw _
  show decode16 (8#4 ++ z5 a ++ 2#7) = .ok (.cJr a)
  replace hw : (a != 0) = true := hw
  have h : ∀ a : XReg, (8#4 ++ z5 a ++ 2#7)[12] = false := by decide
  simp [decode16, decodeC2, encCI, catLo, catHi, sub_field, whole, join, rsv, z5_zero, z5_two, h] at hw ⊢
  simp [hw]
theorem cJalr (a : XReg) : Statement (.cJalr a) := by
  intro hw _
  show decode16 (9#4 ++ z5 a ++ 2#7) = .ok (.cJalr a)
  replace hw : (a != 0) = true := hw
  have h : ∀ a : XReg, (9#4 ++ z5 a ++ 2#7)[12] = true := by decide
  simp [decode16, decodeC2, encCI, catLo, catHi, sub_field, whole, join, rsv, z5_zero, z5_two, h] at hw ⊢
  simp [hw]
theorem cMv (d : XReg) (b : XReg) : Statement (.cMv d b) := by
  intro hw _
  show decode16 (8#4 ++ z5 d ++ z5 b ++ 2#2) = .ok (.cMv d b)
  replace hw : (b != 0) = true := hw
  have h : ∀ d b : XReg, (8#4 ++ z5 d ++ z5 b ++ 2#2)[12] = false := by decide +kernel
  simp [decode16, decodeC2, encCI, catLo, catHi, sub_field, whole, join, rsv, z5_zero, z5_two, h] at hw ⊢
  simp [hw]
theorem cAdd (d : XReg) (b : XReg) : Statement (.cAdd d b) := by
  intro hw _
  show decode16 (9#4 ++ z5 d ++ z5 b ++ 2#2) = .ok (.cAdd d b)
  replace hw : (b != 0) = true := hw
  have h : ∀ d b : XReg, (9#4 ++ z5 d ++ z5 b ++ 2#2)[12] = true := by decide +kernel
  simp [decode16, decodeC2, encCI, catLo, catHi, sub_field, whole, join, rsv, z5_zero, z5_two, h] at hw ⊢
  simp [hw]
theorem cEbreak : Statement (.cEbreak) := by
  intro hw _
  show decode16 0x9002#16 = .ok (.cEbreak)
  decide +kernel
theorem faddS (d : XReg) (a : XReg) (b : XReg) (r : BitVec 3) : Statement (.faddS d a b r) := by
  intro hw _
  show decode32 3 (encR 0x0#7 (z5 b) (z5 a) r (z5 d) 0x53#7) = .ok (.faddS d a b r)
  replace hw : rmAllowed r = true := hw
  simp [rsv, decFp] at hw ⊢
  simp [hw]
theorem fsubS (d : XReg) (a : XReg) (b : XReg) (r : BitVec 3) : Statement (.fsubS d a b r) := by
  intro hw _
  show decode32 3 (encR 0x4#7 (z5 b) (z5 a) r (z5 d) 0x53#7) = .ok (.fsubS d a b r)
  replace hw : rmAllowed r = true := hw
  simp [rsv, decFp] at hw ⊢
  simp [hw]
theorem fmulS (d : XReg) (a : XReg) (b : XReg) (r : BitVec 3) : Statement (.fmulS d a b r) := by
  intro hw _
  show decode32 3 (encR 0x8#7 (z5 b) (z5 a) r (z5 d) 0x53#7) = .ok (.fmulS d a b r)
  replace hw : rmAllowed r = true := hw
  simp [rsv, decFp] at hw ⊢
  simp [hw]
theorem fdivS (d : XReg) (a : XReg) (b : XReg) (r : BitVec 3) : Statement (.fdivS d a b r) := by
  intro hw _
  show decode32 3 (encR 0xC#7 (z5 b) (z5 a) r (z5 d) 0x53#7) = .ok (.fdivS d a b r)
  replace hw : rmAllowed r = true := hw
  simp [rsv, decFp] at hw ⊢
  simp [hw]
theorem fsqrtS (d : XReg) (a : XReg) (r : BitVec 3) : Statement (.fsqrtS d a r) := by
  intro hw _
  show decode32 3 (encR 0x2C#7 0#5 (z5 a) r (z5 d) 0x53#7) = .ok (.fsqrtS d a r)
  replace hw : rmAllowed r = true := hw
  simp [rsv, decFp] at hw ⊢
  simp [hw]
theorem fmaddS (d : XReg) (a : XReg) (b : XReg) (c : XReg) (r : BitVec 3) : Statement (.fmaddS d a b c r) := by
  intro hw _
  show decode32 3 (encR (z5 c ++ 0#2) (z5 b) (z5 a) r (z5 d) 0x43#7) = .ok (.fmaddS d a b c r)
  replace hw : rmAllowed r = true := hw
  simp [rsv] at hw ⊢
  simp [hw]
theorem fsgnjS (d : XReg) (a : XReg) (b : XReg) : Statement (.fsgnjS d a b) := by
  intro hw _
  show decode32 3 (encR 0x10#7 (z5 b) (z5 a) 0#3 (z5 d) 0x53#7) = .ok (.fsgnjS d a b)
  simp [rsv, decFp]
theorem fsgnjnS (d : XReg) (a : XReg) (b : XReg) : Statement (.fsgnjnS d a b) := by
  intro hw _
  show decode32 3 (encR 0x10#7 (z5 b) (z5 a) 1#3 (z5 d) 0x53#7) = .ok (.fsgnjnS d a b)
  simp [rsv, decFp]
theorem fminS (d : XReg) (a : XReg) (b : XReg) : Statement (.fminS d a b) := by
  intro hw _
  show decode32 3 (encR 0x14#7 (z5 b) (z5 a) 0#3 (z5 d) 0x53#7) = .ok (.fminS d a b)
  simp [rsv, decFp]
theorem fmaxS (d : XReg) (a : XReg) (b : XReg) : Statement (.fmaxS d a b) := by
  intro hw _
  show decode32 3 (encR 0x14#7 (z5 b) (z5 a) 1#3 (z5 d) 0x53#7) = .ok (.fmaxS d a b)
  simp [rsv, decFp]
theorem fleS (d : XReg) (a : XReg) (b : XReg) : Statement (.fleS d a b) := by
  intro hw _
  show decode32 3 (encR 0x50#7 (z5 b) (z5 a) 0#3 (z5 d) 0x53#7) = .ok (.fleS d a b)
  simp [rsv, decFp]
theorem fltS (d : XReg) (a : XReg) (b : XReg) : Statement (.fltS d a b) := by
  intro hw _
  show decode32 3 (encR 0x50#7 (z5 b) (z5 a) 1#3 (z5 d) 0x53#7) = .ok (.fltS d a b)
  simp [rsv, decFp]
theorem feqS (d : XReg) (a : XReg) (b : XReg) : Statement (.feqS d a b) := by
  intro hw _
  show decode32 3 (encR 0x50#7 (z5 b) (z5 a) 2#3 (z5 d) 0x53#7) = .ok (.feqS d a b)
  simp [rsv, decFp]
theorem fcvtWS (d : XReg) (a : XReg) (r : BitVec 3) : Statement (.fcvtWS d a r) := by
  intro hw _
  show decode32 3 (encR 0x60#7 0#5 (z5 a) r (z5 d) 0x53#7) = .ok (.fcvtWS d a r)
  replace hw : rmAllowed r = true := hw
  simp [rsv, decFp] at hw ⊢
  simp [hw]
theorem fcvtLS (d : XReg) (a : XReg) (r : BitVec 3) : Statement (.fcvtLS d a r) := by
  intro hw _
  show decode32 3 (encR 0x60#7 2#5 (z5 a) r (z5 d) 0x53#7) = .ok (.fcvtLS d a r)
  replace hw : rmAllowed r = true := hw
  simp [rsv, decFp] at hw ⊢
  simp [hw]
theorem fcvtSW (d : XReg) (a : XReg) (r : BitVec 3) : Statement (.fcvtSW d a r) := by
  intro hw _
  show decode32 3 (encR 0x68#7 0#5 (z5 a) r (z5 d) 0x53#7) = .ok (.fcvtSW d a r)
  replace hw : rmAllowed r = true := hw
  simp [rsv, decFp] at hw ⊢
  simp [hw]
theorem fcvtSL (d : XReg) (a : XReg) (r : BitVec 3) : Statement (.fcvtSL d a r) := by
  intro hw _
  show decode32 3 (encR 0x68#7 2#5 (z5 a) r (z5 d) 0x53#7) = .ok (.fcvtSL d a r)
  replace hw : rmAllowed r = true := hw
  simp [rsv, decFp] at hw ⊢
  simp [hw]
theorem li32 (d : XReg) (i : BitVec 32) : Statement (.li32 d i) := by
  intro hw _
  show decode48 3 (encL 0#4 d i) = .ok (.li32 d i)
  have h (f : BitVec 4) : (encL f d i)[7] = false := by rw [← BitVec.getLsbD_eq_getElem]; exact encL_7 ..
  simp [rsv, decode48, encL_12_4, encL_8_4, encL_16_32, h]
theorem lih (d : XReg) (i : BitVec 32) : Statement (.lih d i) := by
  intro hw _
  show decode48 3 (encL 1#4 d i) = .ok (.lih d i)
  have h (f : BitVec 4) : (encL f d i)[7] = false := by rw [← BitVec.getLsbD_eq_getElem]; exact encL_7 ..
  simp [rsv, decode48, encL_12_4, encL_8_4, encL_16_32, h]
theorem addl (d : XReg) (i : BitVec 32) : Statement (.addl d i) := by
  intro hw _
  show decode48 3 (encL 2#4 d i) = .ok (.addl d i)
  have h (f : BitVec 4) : (encL f d i)[7] = false := by rw [← BitVec.getLsbD_eq_getElem]; exact encL_7 ..
  simp [rsv, decode48, encL_12_4, encL_8_4, encL_16_32, h]
theorem andl (d : XReg) (i : BitVec 32) : Statement (.andl d i) := by
  intro hw _
  show decode48 3 (encL 3#4 d i) = .ok (.andl d i)
  have h (f : BitVec 4) : (encL f d i)[7] = false := by rw [← BitVec.getLsbD_eq_getElem]; exact encL_7 ..
  simp [rsv, decode48, encL_12_4, encL_8_4, encL_16_32, h]
theorem fli (d : XReg) (i : BitVec 32) : Statement (.fli d i) := by
  intro hw _
  show decode48 3 (encL 4#4 d i) = .ok (.fli d i)
  have h (f : BitVec 4) : (encL f d i)[7] = false := by rw [← BitVec.getLsbD_eq_getElem]; exact encL_7 ..
  simp [rsv, decode48, encL_12_4, encL_8_4, encL_16_32, h]
theorem gcmpEq (d : GReg) (a : XReg) (b : XReg) : Statement (.gcmpEq d a b) := by
  intro hw _
  show decode32 3 (encR 0x10#7 (z5 b) (z5 a) 3#3 (z53 d) 0x0B#7) = .ok (.gcmpEq d a b)
  simp [rsv, decCx, decCx3]
theorem gcmpNe (d : GReg) (a : XReg) (b : XReg) : Statement (.gcmpNe d a b) := by
  intro hw _
  show decode32 3 (encR 0x11#7 (z5 b) (z5 a) 3#3 (z53 d) 0x0B#7) = .ok (.gcmpNe d a b)
  simp [rsv, decCx, decCx3]
theorem gcmpLt (d : GReg) (a : XReg) (b : XReg) : Statement (.gcmpLt d a b) := by
  intro hw _
  show decode32 3 (encR 0x12#7 (z5 b) (z5 a) 3#3 (z53 d) 0x0B#7) = .ok (.gcmpLt d a b)
  simp [rsv, decCx, decCx3]
theorem gcmpGe (d : GReg) (a : XReg) (b : XReg) : Statement (.gcmpGe d a b) := by
  intro hw _
  show decode32 3 (encR 0x13#7 (z5 b) (z5 a) 3#3 (z53 d) 0x0B#7) = .ok (.gcmpGe d a b)
  simp [rsv, decCx, decCx3]
theorem gcmpLtu (d : GReg) (a : XReg) (b : XReg) : Statement (.gcmpLtu d a b) := by
  intro hw _
  show decode32 3 (encR 0x14#7 (z5 b) (z5 a) 3#3 (z53 d) 0x0B#7) = .ok (.gcmpLtu d a b)
  simp [rsv, decCx, decCx3]
theorem gcmpGeu (d : GReg) (a : XReg) (b : XReg) : Statement (.gcmpGeu d a b) := by
  intro hw _
  show decode32 3 (encR 0x15#7 (z5 b) (z5 a) 3#3 (z53 d) 0x0B#7) = .ok (.gcmpGeu d a b)
  simp [rsv, decCx, decCx3]
theorem gand (d : GReg) (a : GReg) (b : GReg) : Statement (.gand d a b) := by
  intro hw _
  show decode32 3 (encR 0x18#7 (0#2 ++ b) (0#2 ++ a) 3#3 (z53 d) 0x0B#7) = .ok (.gand d a b)
  have h := (tag2_0 a).2.2.1
  have h' := (tag2_0 b).2.2.1
  rw [BitVec.getLsbD_eq_getElem (by omega)] at h h'
  simp [rsv, decCx, decCx3, decGlog, (tag2_0 a).1, (tag2_0 a).2.1, (tag2_0 b).1, (tag2_0 b).2.1, h, h']
theorem gor (d : GReg) (a : GReg) (b : GReg) : Statement (.gor d a b) := by
  intro hw _
  show decode32 3 (encR 0x18#7 (1#2 ++ b) (0#2 ++ a) 3#3 (z53 d) 0x0B#7) = .ok (.gor d a b)
  have h := (tag2_0 a).2.2.1
  have h' := (tag2_1 b).2.2.1
  rw [BitVec.getLsbD_eq_getElem (by omega)] at h h'
  simp [rsv, decCx, decCx3, decGlog, (tag2_0 a).1, (tag2_0 a).2.1, (tag2_1 b).1, (tag2_1 b).2.1, h, h']
theorem gxor (d : GReg) (a : GReg) (b : GReg) : Statement (.gxor d a b) := by
  intro hw _
  show decode32 3 (encR 0x18#7 (0#2 ++ b) (1#2 ++ a) 3#3 (z53 d) 0x0B#7) = .ok (.gxor d a b)
  have h := (tag2_1 a).2.2.1
  have h' := (tag2_0 b).2.2.1
  rw [BitVec.getLsbD_eq_getElem (by omega)] at h h'
  simp [rsv, decCx, decCx3, decGlog, (tag2_1 a).1, (tag2_1 a).2.1, (tag2_0 b).1, (tag2_0 b).2.1, h, h']
theorem gandn (d : GReg) (a : GReg) (b : GReg) : Statement (.gandn d a b) := by
  intro hw _
  show decode32 3 (encR 0x18#7 (1#2 ++ b) (1#2 ++ a) 3#3 (z53 d) 0x0B#7) = .ok (.gandn d a b)
  have h := (tag2_1 a).2.2.1
  have h' := (tag2_1 b).2.2.1
  rw [BitVec.getLsbD_eq_getElem (by omega)] at h h'
  simp [rsv, decCx, decCx3, decGlog, (tag2_1 a).1, (tag2_1 a).2.1, (tag2_1 b).1, (tag2_1 b).2.1, h, h']
theorem gtox (d : XReg) : Statement (.gtox d) := by
  intro hw _
  show decode32 3 (encR 0x19#7 0#5 0#5 3#3 (z5 d) 0x0B#7) = .ok (.gtox d)
  simp [rsv, decCx, decCx3]
theorem gfromx (a : XReg) : Statement (.gfromx a) := by
  intro hw _
  show decode32 3 (encR 0x1A#7 0#5 (z5 a) 3#3 0#5 0x0B#7) = .ok (.gfromx a)
  simp [rsv, decCx, decCx3]
theorem ecall : Statement (.ecall) := by
  intro hw _
  show decode32 3 0x73#32 = .ok (.ecall)
  decide +kernel
theorem ebreak : Statement (.ebreak) := by
  intro hw _
  show decode32 3 0x00100073#32 = .ok (.ebreak)
  decide +kernel
theorem wfi : Statement (.wfi) := by
  intro hw _
  show decode32 3 0x10500073#32 = .ok (.wfi)
  decide +kernel
theorem csrrw (d : XReg) (a : XReg) (c : BitVec 12) : Statement (.csrrw d a c) := by
  intro hw _
  show decode32 3 (encI c (z5 a) 1#3 (z5 d) 0x73#7) = .ok (.csrrw d a c)
  replace hw : csrAllowed true c = true := hw
  simp [rsv, decSystem] at hw ⊢
  simp [hw]
theorem csrrs (d : XReg) (a : XReg) (c : BitVec 12) : Statement (.csrrs d a c) := by
  intro hw _
  show decode32 3 (encI c (z5 a) 2#3 (z5 d) 0x73#7) = .ok (.csrrs d a c)
  replace hw : csrAllowed (a != 0) c = true := hw
  simp [rsv, decSystem, z5_ne a, show csrAllowed (a != 0#4) c = true from hw]
theorem csrrc (d : XReg) (a : XReg) (c : BitVec 12) : Statement (.csrrc d a c) := by
  intro hw _
  show decode32 3 (encI c (z5 a) 3#3 (z5 d) 0x73#7) = .ok (.csrrc d a c)
  replace hw : csrAllowed (a != 0) c = true := hw
  simp [rsv, decSystem, z5_ne a, show csrAllowed (a != 0#4) c = true from hw]
theorem csrrwi (d : XReg) (u : BitVec 5) (c : BitVec 12) : Statement (.csrrwi d u c) := by
  intro hw _
  show decode32 3 (encI c u 5#3 (z5 d) 0x73#7) = .ok (.csrrwi d u c)
  replace hw : csrAllowed true c = true := hw
  simp [rsv, decSystem] at hw ⊢
  simp [hw]
theorem csrrsi (d : XReg) (u : BitVec 5) (c : BitVec 12) : Statement (.csrrsi d u c) := by
  intro hw _
  show decode32 3 (encI c u 6#3 (z5 d) 0x73#7) = .ok (.csrrsi d u c)
  replace hw : csrAllowed (u != 0) c = true := hw
  simp [rsv, decSystem, show csrAllowed (u != 0#5) c = true from hw]
theorem csrrci (d : XReg) (u : BitVec 5) (c : BitVec 12) : Statement (.csrrci d u c) := by
  intro hw _
  show decode32 3 (encI c u 7#3 (z5 d) 0x73#7) = .ok (.csrrci d u c)
  replace hw : csrAllowed (u != 0) c = true := hw
  simp [rsv, decSystem, show csrAllowed (u != 0#5) c = true from hw]
theorem undefinedUnit (code : BitVec 8) (bytes : Word) : Statement (.undefinedUnit code bytes) := fun _ h => absurd rfl h
theorem tret : Statement (.tret) := by
  intro hw _
  show decode32 3 (encR 0#7 0#5 0#5 7#3 0#5 0x0B#7) = .ok (.tret)
  simp [rsv, decCx, decCx7]
theorem fcreate (d : XReg) (a : XReg) : Statement (.fcreate d a) := by
  intro hw _
  show decode32 3 (encR 0#7 0#5 (z5 a) 0#3 (z5 d) 0x0B#7) = .ok (.fcreate d a)
  simp [rsv, decCx, decCx0]
theorem fsync (d : XReg) (a : XReg) : Statement (.fsync d a) := by
  intro hw _
  show decode32 3 (encR 1#7 0#5 (z5 a) 0#3 (z5 d) 0x0B#7) = .ok (.fsync d a)
  simp [rsv, decCx, decCx0]
theorem fbreak (a : XReg) : Statement (.fbreak a) := by
  intro hw _
  show decode32 3 (encR 2#7 0#5 (z5 a) 0#3 0#5 0x0B#7) = .ok (.fbreak a)
  simp [rsv, decCx, decCx0]
theorem fkill (a : XReg) : Statement (.fkill a) := by
  intro hw _
  show decode32 3 (encR 3#7 0#5 (z5 a) 0#3 0#5 0x0B#7) = .ok (.fkill a)
  simp [rsv, decCx, decCx0]
theorem lsend (k : BitVec 2) (a : XReg) : Statement (.lsend k a) := by
  intro hw _
  show decode32 3 (encR (1#5 ++ k) 0#5 (z5 a) 0#3 0#5 0x0B#7) = .ok (.lsend k a)
  revert k a
  decide +kernel
theorem tself (d : XReg) (s : BitVec 5) : Statement (.tself d s) := by
  intro hw _
  show decode32 3 (encR 8#7 0#5 s 0#3 (z5 d) 0x0B#7) = .ok (.tself d s)
  replace hw : decide (s.toNat ≤ 6) = true := hw
  simp [rsv, decCx, decCx0] at hw ⊢
  simp [hw]
theorem thalt : Statement (.thalt) := by
  intro hw _
  show decode32 3 (encR 9#7 0#5 0#5 0#3 0#5 0x0B#7) = .ok (.thalt)
  simp [rsv, decCx, decCx0]
theorem bjoin (n : BitVec 10) : Statement (.bjoin n) := by
  intro hw _
  show decode32 3 (encR 0#7 (n.extractLsb' 5 5) (n.extractLsb' 0 5) 1#3 0#5 0x0B#7) = .ok (.bjoin n)
  replace hw : decide (n.toNat < 48) = true := hw
  have h : n.toNat ≤ 47 := by
    have := of_decide_eq_true hw
    omega
  simp [rsv, decCx, decCx1, split_barrier, h]
theorem bleave (n : BitVec 10) : Statement (.bleave n) := by
  intro hw _
  show decode32 3 (encR 1#7 (n.extractLsb' 5 5) (n.extractLsb' 0 5) 1#3 0#5 0x0B#7) = .ok (.bleave n)
  replace hw : decide (n.toNat < 48) = true := hw
  have h : n.toNat ≤ 47 := by
    have := of_decide_eq_true hw
    omega
  simp [rsv, decCx, decCx1, split_barrier, h]
theorem barw (n : BitVec 10) : Statement (.barw n) := by
  intro hw _
  show decode32 3 (encR 2#7 (n.extractLsb' 5 5) (n.extractLsb' 0 5) 1#3 0#5 0x0B#7) = .ok (.barw n)
  replace hw : decide (n.toNat < 48) = true := hw
  have h : n.toNat ≤ 47 := by
    have := of_decide_eq_true hw
    omega
  simp [rsv, decCx, decCx1, split_barrier, h]
theorem bara (n : BitVec 10) : Statement (.bara n) := by
  intro hw _
  show decode32 3 (encR 3#7 (n.extractLsb' 5 5) (n.extractLsb' 0 5) 1#3 0#5 0x0B#7) = .ok (.bara n)
  replace hw : decide (n.toNat < 48) = true := hw
  have h : n.toNat ≤ 47 := by
    have := of_decide_eq_true hw
    omega
  simp [rsv, decCx, decCx1, split_barrier, h]
theorem bwait (n : BitVec 10) : Statement (.bwait n) := by
  intro hw _
  show decode32 3 (encR 4#7 (n.extractLsb' 5 5) (n.extractLsb' 0 5) 1#3 0#5 0x0B#7) = .ok (.bwait n)
  replace hw : decide (n.toNat < 48) = true := hw
  have h : n.toNat ≤ 47 := by
    have := of_decide_eq_true hw
    omega
  simp [rsv, decCx, decCx1, split_barrier, h]
theorem ldc (d : XReg) (a : XReg) : Statement (.ldc d a) := by
  intro hw _
  show decode32 3 (encR 0#7 0#5 (z5 a) 2#3 (z5 d) 0x0B#7) = .ok (.ldc d a)
  simp [rsv, decCx, decCx2]
theorem ldp (d : XReg) (a : XReg) : Statement (.ldp d a) := by
  intro hw _
  show decode32 3 (encR 1#7 0#5 (z5 a) 2#3 (z5 d) 0x0B#7) = .ok (.ldp d a)
  simp [rsv, decCx, decCx2]
theorem stf (a : XReg) (b : XReg) : Statement (.stf a b) := by
  intro hw _
  show decode32 3 (encR 2#7 (z5 b) (z5 a) 2#3 0#5 0x0B#7) = .ok (.stf a b)
  simp [rsv, decCx, decCx2]
theorem sete (a : XReg) : Statement (.sete a) := by
  intro hw _
  show decode32 3 (encR 3#7 0#5 (z5 a) 2#3 0#5 0x0B#7) = .ok (.sete a)
  simp [rsv, decCx, decCx2]
theorem fest (d : XReg) (a : XReg) : Statement (.fest d a) := by
  intro hw _
  show decode32 3 (encR 4#7 0#5 (z5 a) 2#3 (z5 d) 0x0B#7) = .ok (.fest d a)
  simp [rsv, decCx, decCx2]
theorem mbsend (a : XReg) (b : XReg) : Statement (.mbsend a b) := by
  intro hw _
  show decode32 3 (encR 8#7 (z5 b) (z5 a) 2#3 0#5 0x0B#7) = .ok (.mbsend a b)
  simp [rsv, decCx, decCx2]
theorem mbrecv (d : XReg) : Statement (.mbrecv d) := by
  intro hw _
  show decode32 3 (encR 9#7 0#5 0#5 2#3 (z5 d) 0x0B#7) = .ok (.mbrecv d)
  simp [rsv, decCx, decCx2]
theorem mbpoll (d : XReg) (g : GReg) : Statement (.mbpoll d g) := by
  intro hw _
  show decode32 3 (encR 0xA#7 0#5 (z53 g) 2#3 (z5 d) 0x0B#7) = .ok (.mbpoll d g)
  simp [rsv, decCx, decCx2]
theorem qmap (q : BitVec 2) (e : BitVec 2) : Statement (.qmap q e) := by
  intro hw _
  show decode32 3 (encR 0#7 (z52 e) (z52 q) 3#3 0#5 0x0B#7) = .ok (.qmap q e)
  simp [rsv, decCx, decCx3]
theorem qunmap (q : BitVec 2) : Statement (.qunmap q) := by
  intro hw _
  show decode32 3 (encR 1#7 0#5 (z52 q) 3#3 0#5 0x0B#7) = .ok (.qunmap q)
  simp [rsv, decCx, decCx3]
theorem qctl (q : BitVec 2) (a : XReg) : Statement (.qctl q a) := by
  intro hw _
  show decode32 3 (encR 2#7 (z52 q) (z5 a) 3#3 0#5 0x0B#7) = .ok (.qctl q a)
  replace hw : decide (q.toNat ≥ 2) = true := hw
  revert q a
  decide +kernel
theorem qstat (d : XReg) (q : BitVec 2) : Statement (.qstat d q) := by
  intro hw _
  show decode32 3 (encR 3#7 0#5 (z52 q) 3#3 (z5 d) 0x0B#7) = .ok (.qstat d q)
  simp [rsv, decCx, decCx3]
theorem hset (a : XReg) (e : BitVec 1) : Statement (.hset a e) := by
  intro hw _
  show decode32 3 (encR 8#7 (z51 e) (z5 a) 3#3 0#5 0x0B#7) = .ok (.hset a e)
  simp [rsv, decCx, decCx3]
theorem hret : Statement (.hret) := by
  intro hw _
  show decode32 3 (encR 9#7 0#5 0#5 3#3 0#5 0x0B#7) = .ok (.hret)
  simp [rsv, decCx, decCx3]
theorem hmask (v : BitVec 1) : Statement (.hmask v) := by
  intro hw _
  show decode32 3 (encR 0xA#7 0#5 (z51 v) 3#3 0#5 0x0B#7) = .ok (.hmask v)
  simp [rsv, decCx, decCx3]
theorem wfe (l : BitVec 4) : Statement (.wfe l) := by
  intro hw _
  show decode32 3 (encR 0xC#7 0#5 (z5 l) 3#3 0#5 0x0B#7) = .ok (.wfe l)
  simp [rsv, decCx, decCx3]
theorem evsig (a : XReg) (l : BitVec 4) : Statement (.evsig a l) := by
  intro hw _
  show decode32 3 (encR 0xD#7 (z5 l) (z5 a) 3#3 0#5 0x0B#7) = .ok (.evsig a l)
  simp [rsv, decCx, decCx3]
theorem fenceO (s : BitVec 5) : Statement (.fenceO s) := by
  intro hw _
  show decode32 3 (encR 0#7 0#5 0#5 4#3 s 0x0B#7) = .ok (.fenceO s)
  replace hw : decide (s.toNat ≤ 4) = true := hw
  simp [rsv, decCx, decCx4, scopeBroken, of_decide_eq_true hw]
theorem fenceA (s : BitVec 5) : Statement (.fenceA s) := by
  intro hw _
  show decode32 3 (encR 1#7 0#5 0#5 4#3 s 0x0B#7) = .ok (.fenceA s)
  replace hw : decide (s.toNat ≤ 4) = true := hw
  simp [rsv, decCx, decCx4, scopeBroken, of_decide_eq_true hw]
theorem fenceX (s : BitVec 5) : Statement (.fenceX s) := by
  intro hw _
  show decode32 3 (encR 2#7 0#5 0#5 4#3 s 0x0B#7) = .ok (.fenceX s)
  replace hw : decide (s.toNat ≤ 4) = true := hw
  simp [rsv, decCx, decCx4, scopeBroken, of_decide_eq_true hw]
theorem fenceAll (s : BitVec 5) : Statement (.fenceAll s) := by
  intro hw _
  show decode32 3 (encR 3#7 0#5 0#5 4#3 s 0x0B#7) = .ok (.fenceAll s)
  replace hw : decide (s.toNat ≤ 4) = true := hw
  simp [rsv, decCx, decCx4, scopeBroken, of_decide_eq_true hw]
theorem ldaq (d : XReg) (a : XReg) (s : BitVec 5) : Statement (.ldaq d a s) := by
  intro hw _
  show decode32 3 (encR 8#7 (z5 d) (z5 a) 4#3 s 0x0B#7) = .ok (.ldaq d a s)
  replace hw : decide (s.toNat ≤ 4) = true := hw
  simp [rsv, decCx, decCx4, scopeBroken, of_decide_eq_true hw]
theorem strl (a : XReg) (b : XReg) (s : BitVec 5) : Statement (.strl a b s) := by
  intro hw _
  show decode32 3 (encR 9#7 (z5 b) (z5 a) 4#3 s 0x0B#7) = .ok (.strl a b s)
  replace hw : decide (s.toNat ≤ 4) = true := hw
  simp [rsv, decCx, decCx4, scopeBroken, of_decide_eq_true hw]
theorem ldmig (d : XReg) (a : XReg) : Statement (.ldmig d a) := by
  intro hw _
  show decode32 3 (encR 0xA#7 0#5 (z5 a) 4#3 (z5 d) 0x0B#7) = .ok (.ldmig d a)
  simp [rsv, decCx, decCx4]
theorem cinv (a : XReg) (b : XReg) : Statement (.cinv a b) := by
  intro hw _
  show decode32 3 (encR 0xC#7 (z5 b) (z5 a) 4#3 0#5 0x0B#7) = .ok (.cinv a b)
  simp [rsv, decCx, decCx4]
theorem pref (a : XReg) (l : BitVec 1) : Statement (.pref a l) := by
  intro hw _
  show decode32 3 (encR 0xD#7 (z51 l) (z5 a) 4#3 0#5 0x0B#7) = .ok (.pref a l)
  simp [rsv, decCx, decCx4]
theorem aadd (w : BitVec 1) (s : BitVec 2) (d : XReg) (a : XReg) (b : XReg) : Statement (.aadd w s d a b) := by
  intro hw _
  show decode32 3 (encR (0#4 ++ w ++ s) (z5 b) (z5 a) 5#3 (z5 d) 0x0B#7) = .ok (.aadd w s d a b)
  have h : ∀ (w : BitVec 1) (s : BitVec 2), (0#4 ++ w ++ s).extractLsb' 3 4 = 0#4 ∧ (0#4 ++ w ++ s).extractLsb' 2 1 = w ∧
      (0#4 ++ w ++ s).extractLsb' 0 2 = s := by decide
  obtain ⟨h1, h2, h3⟩ := h w s
  simp [rsv, decCx, decAtomic, h1, h2, h3]
theorem aand (w : BitVec 1) (s : BitVec 2) (d : XReg) (a : XReg) (b : XReg) : Statement (.aand w s d a b) := by
  intro hw _
  show decode32 3 (encR (1#4 ++ w ++ s) (z5 b) (z5 a) 5#3 (z5 d) 0x0B#7) = .ok (.aand w s d a b)
  have h : ∀ (w : BitVec 1) (s : BitVec 2), (1#4 ++ w ++ s).extractLsb' 3 4 = 1#4 ∧ (1#4 ++ w ++ s).extractLsb' 2 1 = w ∧
      (1#4 ++ w ++ s).extractLsb' 0 2 = s := by decide
  obtain ⟨h1, h2, h3⟩ := h w s
  simp [rsv, decCx, decAtomic, h1, h2, h3]
theorem aor (w : BitVec 1) (s : BitVec 2) (d : XReg) (a : XReg) (b : XReg) : Statement (.aor w s d a b) := by
  intro hw _
  show decode32 3 (encR (2#4 ++ w ++ s) (z5 b) (z5 a) 5#3 (z5 d) 0x0B#7) = .ok (.aor w s d a b)
  have h : ∀ (w : BitVec 1) (s : BitVec 2), (2#4 ++ w ++ s).extractLsb' 3 4 = 2#4 ∧ (2#4 ++ w ++ s).extractLsb' 2 1 = w ∧
      (2#4 ++ w ++ s).extractLsb' 0 2 = s := by decide
  obtain ⟨h1, h2, h3⟩ := h w s
  simp [rsv, decCx, decAtomic, h1, h2, h3]
theorem axor (w : BitVec 1) (s : BitVec 2) (d : XReg) (a : XReg) (b : XReg) : Statement (.axor w s d a b) := by
  intro hw _
  show decode32 3 (encR (3#4 ++ w ++ s) (z5 b) (z5 a) 5#3 (z5 d) 0x0B#7) = .ok (.axor w s d a b)
  have h : ∀ (w : BitVec 1) (s : BitVec 2), (3#4 ++ w ++ s).extractLsb' 3 4 = 3#4 ∧ (3#4 ++ w ++ s).extractLsb' 2 1 = w ∧
      (3#4 ++ w ++ s).extractLsb' 0 2 = s := by decide
  obtain ⟨h1, h2, h3⟩ := h w s
  simp [rsv, decCx, decAtomic, h1, h2, h3]
theorem asmin (w : BitVec 1) (s : BitVec 2) (d : XReg) (a : XReg) (b : XReg) : Statement (.asmin w s d a b) := by
  intro hw _
  show decode32 3 (encR (4#4 ++ w ++ s) (z5 b) (z5 a) 5#3 (z5 d) 0x0B#7) = .ok (.asmin w s d a b)
  have h : ∀ (w : BitVec 1) (s : BitVec 2), (4#4 ++ w ++ s).extractLsb' 3 4 = 4#4 ∧ (4#4 ++ w ++ s).extractLsb' 2 1 = w ∧
      (4#4 ++ w ++ s).extractLsb' 0 2 = s := by decide
  obtain ⟨h1, h2, h3⟩ := h w s
  simp [rsv, decCx, decAtomic, h1, h2, h3]
theorem asmax (w : BitVec 1) (s : BitVec 2) (d : XReg) (a : XReg) (b : XReg) : Statement (.asmax w s d a b) := by
  intro hw _
  show decode32 3 (encR (5#4 ++ w ++ s) (z5 b) (z5 a) 5#3 (z5 d) 0x0B#7) = .ok (.asmax w s d a b)
  have h : ∀ (w : BitVec 1) (s : BitVec 2), (5#4 ++ w ++ s).extractLsb' 3 4 = 5#4 ∧ (5#4 ++ w ++ s).extractLsb' 2 1 = w ∧
      (5#4 ++ w ++ s).extractLsb' 0 2 = s := by decide
  obtain ⟨h1, h2, h3⟩ := h w s
  simp [rsv, decCx, decAtomic, h1, h2, h3]
theorem aumin (w : BitVec 1) (s : BitVec 2) (d : XReg) (a : XReg) (b : XReg) : Statement (.aumin w s d a b) := by
  intro hw _
  show decode32 3 (encR (6#4 ++ w ++ s) (z5 b) (z5 a) 5#3 (z5 d) 0x0B#7) = .ok (.aumin w s d a b)
  have h : ∀ (w : BitVec 1) (s : BitVec 2), (6#4 ++ w ++ s).extractLsb' 3 4 = 6#4 ∧ (6#4 ++ w ++ s).extractLsb' 2 1 = w ∧
      (6#4 ++ w ++ s).extractLsb' 0 2 = s := by decide
  obtain ⟨h1, h2, h3⟩ := h w s
  simp [rsv, decCx, decAtomic, h1, h2, h3]
theorem aumax (w : BitVec 1) (s : BitVec 2) (d : XReg) (a : XReg) (b : XReg) : Statement (.aumax w s d a b) := by
  intro hw _
  show decode32 3 (encR (7#4 ++ w ++ s) (z5 b) (z5 a) 5#3 (z5 d) 0x0B#7) = .ok (.aumax w s d a b)
  have h : ∀ (w : BitVec 1) (s : BitVec 2), (7#4 ++ w ++ s).extractLsb' 3 4 = 7#4 ∧ (7#4 ++ w ++ s).extractLsb' 2 1 = w ∧
      (7#4 ++ w ++ s).extractLsb' 0 2 = s := by decide
  obtain ⟨h1, h2, h3⟩ := h w s
  simp [rsv, decCx, decAtomic, h1, h2, h3]
theorem aswap (w : BitVec 1) (s : BitVec 2) (d : XReg) (a : XReg) (b : XReg) : Statement (.aswap w s d a b) := by
  intro hw _
  show decode32 3 (encR (8#4 ++ w ++ s) (z5 b) (z5 a) 5#3 (z5 d) 0x0B#7) = .ok (.aswap w s d a b)
  have h : ∀ (w : BitVec 1) (s : BitVec 2), (8#4 ++ w ++ s).extractLsb' 3 4 = 8#4 ∧ (8#4 ++ w ++ s).extractLsb' 2 1 = w ∧
      (8#4 ++ w ++ s).extractLsb' 0 2 = s := by decide
  obtain ⟨h1, h2, h3⟩ := h w s
  simp [rsv, decCx, decAtomic, h1, h2, h3]
theorem acas (w : BitVec 1) (s : BitVec 2) (d : XReg) (a : XReg) (b : XReg) : Statement (.acas w s d a b) := by
  intro hw _
  show decode32 3 (encR (9#4 ++ w ++ s) (z5 b) (z5 a) 5#3 (z5 d) 0x0B#7) = .ok (.acas w s d a b)
  have h : ∀ (w : BitVec 1) (s : BitVec 2), (9#4 ++ w ++ s).extractLsb' 3 4 = 9#4 ∧ (9#4 ++ w ++ s).extractLsb' 2 1 = w ∧
      (9#4 ++ w ++ s).extractLsb' 0 2 = s := by decide
  obtain ⟨h1, h2, h3⟩ := h w s
  simp [rsv, decCx, decAtomic, h1, h2, h3]
theorem afadd (s : BitVec 2) (d : XReg) (a : XReg) (b : XReg) : Statement (.afadd s d a b) := by
  intro hw _
  show decode32 3 (encR (10#4 ++ 0#1 ++ s) (z5 b) (z5 a) 5#3 (z5 d) 0x0B#7) = .ok (.afadd s d a b)
  have h : ∀ s : BitVec 2, (20#5 ++ s).extractLsb' 3 4 = 10#4 ∧ (20#5 ++ s).extractLsb' 2 1 = 0#1 ∧
      (20#5 ++ s).extractLsb' 0 2 = s := by decide
  obtain ⟨h1, h2, h3⟩ := h s
  simp [rsv, decCx, decAtomic, h1, h2, h3]
theorem afaddb (s : BitVec 2) (d : XReg) (a : XReg) (b : XReg) : Statement (.afaddb s d a b) := by
  intro hw _
  show decode32 3 (encR (11#4 ++ 0#1 ++ s) (z5 b) (z5 a) 5#3 (z5 d) 0x0B#7) = .ok (.afaddb s d a b)
  have h : ∀ s : BitVec 2, (22#5 ++ s).extractLsb' 3 4 = 11#4 ∧ (22#5 ++ s).extractLsb' 2 1 = 0#1 ∧
      (22#5 ++ s).extractLsb' 0 2 = s := by decide
  obtain ⟨h1, h2, h3⟩ := h s
  simp [rsv, decCx, decAtomic, h1, h2, h3]
theorem lrln (d : XReg) (a : XReg) : Statement (.lrln d a) := by
  intro hw _
  show decode32 3 (encR 0#7 0#5 (z5 a) 6#3 (z5 d) 0x0B#7) = .ok (.lrln d a)
  simp [rsv, decCx, decCx6]
theorem scln (d : XReg) (a : XReg) : Statement (.scln d a) := by
  intro hw _
  show decode32 3 (encR 1#7 0#5 (z5 a) 6#3 (z5 d) 0x0B#7) = .ok (.scln d a)
  simp [rsv, decCx, decCx6]
theorem cqpush (d : XReg) (a : XReg) : Statement (.cqpush d a) := by
  intro hw _
  show decode32 3 (encR 0#7 0#5 (z5 a) 0#3 (z5 d) 0x2B#7) = .ok (.cqpush d a)
  replace hw : (a == 8 || a == 12) = true := hw
  obtain rfl | rfl : a = 8 ∨ a = 12 := by simpa using hw
  all_goals
    clear hw
    revert d
    decide +kernel
theorem cqpushn (d : XReg) (a : XReg) : Statement (.cqpushn d a) := by
  intro hw _
  show decode32 3 (encR 1#7 0#5 (z5 a) 0#3 (z5 d) 0x2B#7) = .ok (.cqpushn d a)
  replace hw : (a == 8 || a == 12) = true := hw
  obtain rfl | rfl : a = 8 ∨ a = 12 := by simpa using hw
  all_goals
    clear hw
    revert d
    decide +kernel
theorem cqstat (d : XReg) : Statement (.cqstat d) := by
  intro hw _
  show decode32 3 (encR 0#7 0#5 0#5 1#3 (z5 d) 0x2B#7) = .ok (.cqstat d)
  simp [rsv, decCe]
theorem gpost (d : XReg) (a : XReg) : Statement (.gpost d a) := by
  intro hw _
  show decode32 3 (encR 0#7 0#5 (z5 a) 2#3 (z5 d) 0x2B#7) = .ok (.gpost d a)
  replace hw : (a == 8 || a == 12) = true := hw
  obtain rfl | rfl : a = 8 ∨ a = 12 := by simpa using hw
  all_goals
    clear hw
    revert d
    decide +kernel
theorem gstat (d : XReg) : Statement (.gstat d) := by
  intro hw _
  show decode32 3 (encR 1#7 0#5 0#5 2#3 (z5 d) 0x2B#7) = .ok (.gstat d)
  simp [rsv, decCe]
theorem mbind (d : XReg) (a : XReg) : Statement (.mbind d a) := by
  intro hw _
  show decode32 3 (encR 0#7 0#5 (z5 a) 3#3 (z5 d) 0x2B#7) = .ok (.mbind d a)
  simp [rsv, decCe]
theorem mclass (d : XReg) (a : XReg) (b : XReg) : Statement (.mclass d a b) := by
  intro hw _
  show decode32 3 (encR 1#7 (z5 b) (z5 a) 3#3 (z5 d) 0x2B#7) = .ok (.mclass d a b)
  simp [rsv, decCe]
theorem mrow (d : KReg) (a : XReg) (b : XReg) : Statement (.mrow d a b) := by
  intro hw _
  show decode32 3 (encR 2#7 (z5 b) (z5 a) 3#3 (z53 d) 0x2B#7) = .ok (.mrow d a b)
  simp [rsv, decCe]
theorem mcnt (d : XReg) (c : BitVec 1) : Statement (.mcnt d c) := by
  intro hw _
  show decode32 3 (encR 3#7 0#5 (z51 c) 3#3 (z5 d) 0x2B#7) = .ok (.mcnt d c)
  simp [rsv, decCe]
theorem amuServe (cl : Nat) : Statement (.amuServe cl) := fun _ h => absurd rfl h
theorem pload (a : XReg) (n : BitVec 3) : Statement (.pload a n) := by
  intro hw _
  show decode32 3 (encR 0#7 (z53 n) (z5 a) 4#3 0#5 0x2B#7) = .ok (.pload a n)
  simp [rsv, decCe]
theorem psave (a : XReg) (n : BitVec 3) : Statement (.psave a n) := by
  intro hw _
  show decode32 3 (encR 1#7 (z53 n) (z5 a) 4#3 0#5 0x2B#7) = .ok (.psave a n)
  simp [rsv, decCe]
theorem pstat (d : XReg) (n : BitVec 3) : Statement (.pstat d n) := by
  intro hw _
  show decode32 3 (encR 2#7 (z53 n) 0#5 4#3 (z5 d) 0x2B#7) = .ok (.pstat d n)
  simp [rsv, decCe]
theorem vadd (g : GReg) (d : VReg) (a : VReg) (b : VReg) : Statement (.vadd g d a b) := by
  intro hw _
  show decode32 3 (encV 0#4 g b a 0#3 d) = .ok (.vadd g d a b)
  simp [rsv, decCv, decCv0]
theorem vsub (g : GReg) (d : VReg) (a : VReg) (b : VReg) : Statement (.vsub g d a b) := by
  intro hw _
  show decode32 3 (encV 1#4 g b a 0#3 d) = .ok (.vsub g d a b)
  simp [rsv, decCv, decCv0]
theorem vmul (g : GReg) (d : VReg) (a : VReg) (b : VReg) : Statement (.vmul g d a b) := by
  intro hw _
  show decode32 3 (encV 2#4 g b a 0#3 d) = .ok (.vmul g d a b)
  simp [rsv, decCv, decCv0]
theorem vfma (g : GReg) (d : VReg) (a : VReg) (b : VReg) : Statement (.vfma g d a b) := by
  intro hw _
  show decode32 3 (encV 3#4 g b a 0#3 d) = .ok (.vfma g d a b)
  simp [rsv, decCv, decCv0]
theorem vfms (g : GReg) (d : VReg) (a : VReg) (b : VReg) : Statement (.vfms g d a b) := by
  intro hw _
  show decode32 3 (encV 4#4 g b a 0#3 d) = .ok (.vfms g d a b)
  simp [rsv, decCv, decCv0]
theorem vmin (g : GReg) (d : VReg) (a : VReg) (b : VReg) : Statement (.vmin g d a b) := by
  intro hw _
  show decode32 3 (encV 5#4 g b a 0#3 d) = .ok (.vmin g d a b)
  simp [rsv, decCv, decCv0]
theorem vmax (g : GReg) (d : VReg) (a : VReg) (b : VReg) : Statement (.vmax g d a b) := by
  intro hw _
  show decode32 3 (encV 6#4 g b a 0#3 d) = .ok (.vmax g d a b)
  simp [rsv, decCv, decCv0]
theorem vabs (g : GReg) (d : VReg) (a : VReg) : Statement (.vabs g d a) := by
  intro hw _
  show decode32 3 (encV 7#4 g 0#5 a 0#3 d) = .ok (.vabs g d a)
  simp [rsv, decCv, decCv0]
theorem vneg (g : GReg) (d : VReg) (a : VReg) : Statement (.vneg g d a) := by
  intro hw _
  show decode32 3 (encV 8#4 g 0#5 a 0#3 d) = .ok (.vneg g d a)
  simp [rsv, decCv, decCv0]
theorem viadd (g : GReg) (d : VReg) (a : VReg) (b : VReg) : Statement (.viadd g d a b) := by
  intro hw _
  show decode32 3 (encV 0#4 g b a 1#3 d) = .ok (.viadd g d a b)
  simp [rsv, decCv, decCv1]
theorem visub (g : GReg) (d : VReg) (a : VReg) (b : VReg) : Statement (.visub g d a b) := by
  intro hw _
  show decode32 3 (encV 1#4 g b a 1#3 d) = .ok (.visub g d a b)
  simp [rsv, decCv, decCv1]
theorem vimul (g : GReg) (d : VReg) (a : VReg) (b : VReg) : Statement (.vimul g d a b) := by
  intro hw _
  show decode32 3 (encV 2#4 g b a 1#3 d) = .ok (.vimul g d a b)
  simp [rsv, decCv, decCv1]
theorem vand (g : GReg) (d : VReg) (a : VReg) (b : VReg) : Statement (.vand g d a b) := by
  intro hw _
  show decode32 3 (encV 3#4 g b a 1#3 d) = .ok (.vand g d a b)
  simp [rsv, decCv, decCv1]
theorem vor (g : GReg) (d : VReg) (a : VReg) (b : VReg) : Statement (.vor g d a b) := by
  intro hw _
  show decode32 3 (encV 4#4 g b a 1#3 d) = .ok (.vor g d a b)
  simp [rsv, decCv, decCv1]
theorem vxor (g : GReg) (d : VReg) (a : VReg) (b : VReg) : Statement (.vxor g d a b) := by
  intro hw _
  show decode32 3 (encV 5#4 g b a 1#3 d) = .ok (.vxor g d a b)
  simp [rsv, decCv, decCv1]
theorem vshl (g : GReg) (d : VReg) (a : VReg) (b : VReg) : Statement (.vshl g d a b) := by
  intro hw _
  show decode32 3 (encV 6#4 g b a 1#3 d) = .ok (.vshl g d a b)
  simp [rsv, decCv, decCv1]
theorem vshrl (g : GReg) (d : VReg) (a : VReg) (b : VReg) : Statement (.vshrl g d a b) := by
  intro hw _
  show decode32 3 (encV 7#4 g b a 1#3 d) = .ok (.vshrl g d a b)
  simp [rsv, decCv, decCv1]
theorem vshra (g : GReg) (d : VReg) (a : VReg) (b : VReg) : Statement (.vshra g d a b) := by
  intro hw _
  show decode32 3 (encV 8#4 g b a 1#3 d) = .ok (.vshra g d a b)
  simp [rsv, decCv, decCv1]
theorem vimin (g : GReg) (d : VReg) (a : VReg) (b : VReg) : Statement (.vimin g d a b) := by
  intro hw _
  show decode32 3 (encV 9#4 g b a 1#3 d) = .ok (.vimin g d a b)
  simp [rsv, decCv, decCv1]
theorem vimax (g : GReg) (d : VReg) (a : VReg) (b : VReg) : Statement (.vimax g d a b) := by
  intro hw _
  show decode32 3 (encV 10#4 g b a 1#3 d) = .ok (.vimax g d a b)
  simp [rsv, decCv, decCv1]
theorem vcmpFeq (g : GReg) (d : KReg) (a : VReg) (b : VReg) : Statement (.vcmpFeq g d a b) := by
  intro hw _
  show decode32 3 (encV 0#4 g b a 2#3 (z53 d)) = .ok (.vcmpFeq g d a b)
  simp [rsv, decCv, decCv2]
theorem vcmpFne (g : GReg) (d : KReg) (a : VReg) (b : VReg) : Statement (.vcmpFne g d a b) := by
  intro hw _
  show decode32 3 (encV 1#4 g b a 2#3 (z53 d)) = .ok (.vcmpFne g d a b)
  simp [rsv, decCv, decCv2]
theorem vcmpFlt (g : GReg) (d : KReg) (a : VReg) (b : VReg) : Statement (.vcmpFlt g d a b) := by
  intro hw _
  show decode32 3 (encV 2#4 g b a 2#3 (z53 d)) = .ok (.vcmpFlt g d a b)
  simp [rsv, decCv, decCv2]
theorem vcmpFle (g : GReg) (d : KReg) (a : VReg) (b : VReg) : Statement (.vcmpFle g d a b) := by
  intro hw _
  show decode32 3 (encV 3#4 g b a 2#3 (z53 d)) = .ok (.vcmpFle g d a b)
  simp [rsv, decCv, decCv2]
theorem vcmpIeq (g : GReg) (d : KReg) (a : VReg) (b : VReg) : Statement (.vcmpIeq g d a b) := by
  intro hw _
  show decode32 3 (encV 4#4 g b a 2#3 (z53 d)) = .ok (.vcmpIeq g d a b)
  simp [rsv, decCv, decCv2]
theorem vcmpIne (g : GReg) (d : KReg) (a : VReg) (b : VReg) : Statement (.vcmpIne g d a b) := by
  intro hw _
  show decode32 3 (encV 5#4 g b a 2#3 (z53 d)) = .ok (.vcmpIne g d a b)
  simp [rsv, decCv, decCv2]
theorem vcmpIlt (g : GReg) (d : KReg) (a : VReg) (b : VReg) : Statement (.vcmpIlt g d a b) := by
  intro hw _
  show decode32 3 (encV 6#4 g b a 2#3 (z53 d)) = .ok (.vcmpIlt g d a b)
  simp [rsv, decCv, decCv2]
theorem vcmpIle (g : GReg) (d : KReg) (a : VReg) (b : VReg) : Statement (.vcmpIle g d a b) := by
  intro hw _
  show decode32 3 (encV 7#4 g b a 2#3 (z53 d)) = .ok (.vcmpIle g d a b)
  simp [rsv, decCv, decCv2]
theorem vsel (k : KReg) (d : VReg) (a : VReg) (b : VReg) : Statement (.vsel k d a b) := by
  intro hw _
  show decode32 3 (encV 8#4 k b a 2#3 d) = .ok (.vsel k d a b)
  simp [rsv, decCv, decCv2]
theorem kand (g : GReg) (d : KReg) (a : KReg) (b : KReg) : Statement (.kand g d a b) := by
  intro hw _
  show decode32 3 (encV 9#4 g (0#2 ++ b) (z53 a) 2#3 (z53 d)) = .ok (.kand g d a b)
  simp [rsv, decCv, decCv2, decKlog, tag2_0 b]
theorem kor (g : GReg) (d : KReg) (a : KReg) (b : KReg) : Statement (.kor g d a b) := by
  intro hw _
  show decode32 3 (encV 9#4 g (1#2 ++ b) (z53 a) 2#3 (z53 d)) = .ok (.kor g d a b)
  simp [rsv, decCv, decCv2, decKlog, tag2_1 b]
theorem kxor (g : GReg) (d : KReg) (a : KReg) (b : KReg) : Statement (.kxor g d a b) := by
  intro hw _
  show decode32 3 (encV 9#4 g (2#2 ++ b) (z53 a) 2#3 (z53 d)) = .ok (.kxor g d a b)
  simp [rsv, decCv, decCv2, decKlog, tag2_2 b]
theorem kandn (g : GReg) (d : KReg) (a : KReg) (b : KReg) : Statement (.kandn g d a b) := by
  intro hw _
  show decode32 3 (encV 9#4 g (3#2 ++ b) (z53 a) 2#3 (z53 d)) = .ok (.kandn g d a b)
  simp [rsv, decCv, decCv2, decKlog, tag2_3 b]
theorem kfromx (g : GReg) (d : KReg) (a : XReg) : Statement (.kfromx g d a) := by
  intro hw _
  show decode32 3 (encV 10#4 g 0#5 (z5 a) 2#3 (z53 d)) = .ok (.kfromx g d a)
  simp [rsv, decCv, decCv2]
theorem ktox (g : GReg) (d : XReg) (a : KReg) : Statement (.ktox g d a) := by
  intro hw _
  show decode32 3 (encV 11#4 g 0#5 (z53 a) 2#3 (z5 d)) = .ok (.ktox g d a)
  simp [rsv, decCv, decCv2]
theorem kpop (g : GReg) (d : XReg) (a : KReg) : Statement (.kpop g d a) := by
  intro hw _
  show decode32 3 (encV 12#4 g 0#5 (z53 a) 2#3 (z5 d)) = .ok (.kpop g d a)
  simp [rsv, decCv, decCv2]
theorem kfirst (g : GReg) (d : XReg) (a : KReg) : Statement (.kfirst g d a) := by
  intro hw _
  show decode32 3 (encV 13#4 g 0#5 (z53 a) 2#3 (z5 d)) = .ok (.kfirst g d a)
  simp [rsv, decCv, decCv2]
theorem vld (g : GReg) (d : VReg) (a : XReg) : Statement (.vld g d a) := by
  intro hw _
  show decode32 3 (encV 0#4 g 0#5 (z5 a) 3#3 d) = .ok (.vld g d a)
  simp [rsv, decCv, decCv3]
theorem vst (g : GReg) (d : VReg) (a : XReg) : Statement (.vst g d a) := by
  intro hw _
  show decode32 3 (encV 1#4 g 0#5 (z5 a) 3#3 d) = .ok (.vst g d a)
  simp [rsv, decCv, decCv3]
theorem vstb (g : GReg) (d : VReg) (a : XReg) : Statement (.vstb g d a) := by
  intro hw _
  show decode32 3 (encV 2#4 g 0#5 (z5 a) 3#3 d) = .ok (.vstb g d a)
  simp [rsv, decCv, decCv3]
theorem vlds (g : GReg) (d : VReg) (a : XReg) (b : XReg) : Statement (.vlds g d a b) := by
  intro hw _
  show decode32 3 (encV 3#4 g (z5 b) (z5 a) 3#3 d) = .ok (.vlds g d a b)
  simp [rsv, decCv, decCv3]
theorem vsts (g : GReg) (d : VReg) (a : XReg) (b : XReg) : Statement (.vsts g d a b) := by
  intro hw _
  show decode32 3 (encV 4#4 g (z5 b) (z5 a) 3#3 d) = .ok (.vsts g d a b)
  simp [rsv, decCv, decCv3]
theorem vgath (g : GReg) (d : VReg) (a : XReg) (b : VReg) : Statement (.vgath g d a b) := by
  intro hw _
  show decode32 3 (encV 5#4 g b (z5 a) 3#3 d) = .ok (.vgath g d a b)
  simp [rsv, decCv, decCv3]
theorem vscat (g : GReg) (d : VReg) (a : XReg) (b : VReg) : Statement (.vscat g d a b) := by
  intro hw _
  show decode32 3 (encV 6#4 g b (z5 a) 3#3 d) = .ok (.vscat g d a b)
  simp [rsv, decCv, decCv3]
theorem vbcx (g : GReg) (d : VReg) (a : XReg) : Statement (.vbcx g d a) := by
  intro hw _
  show decode32 3 (encV 7#4 g 0#5 (z5 a) 3#3 d) = .ok (.vbcx g d a)
  simp [rsv, decCv, decCv3]
theorem vmvx (g : GReg) (d : XReg) (v : VReg) (l : BitVec 5) : Statement (.vmvx g d v l) := by
  intro hw _
  show decode32 3 (encV 8#4 g v (z5 d) 3#3 l) = .ok (.vmvx g d v l)
  simp [rsv, decCv, decCv3]
theorem vmxv (g : GReg) (d : VReg) (a : XReg) (l : BitVec 5) : Statement (.vmxv g d a l) := by
  intro hw _
  show decode32 3 (encV 9#4 g l (z5 a) 3#3 d) = .ok (.vmxv g d a l)
  simp [rsv, decCv, decCv3]
theorem vcvt (g : GReg) (d : VReg) (a : VReg) (s : BitVec 1) (t : BitVec 4) : Statement (.vcvt g d a s t) := by
  intro hw _
  show decode32 3 (encV 0#4 g (s ++ t) a 4#3 d) = .ok (.vcvt g d a s t)
  replace hw : cvtTargetAllowed t = true := hw
  have h : ∀ (s : BitVec 1) (t : BitVec 4), (s ++ t).extractLsb' 0 4 = t ∧ (s ++ t).extractLsb' 4 1 = s := by decide
  simp [rsv, decCv, decCv4, (h s t).1, (h s t).2, hw]
theorem vpack (g : GReg) (d : VReg) (a : VReg) (b : VReg) : Statement (.vpack g d a b) := by
  intro hw _
  show decode32 3 (encV 1#4 g b a 4#3 d) = .ok (.vpack g d a b)
  simp [rsv, decCv, decCv4]
theorem vunpack (g : GReg) (d : VReg) (a : VReg) (p : BitVec 2) (t : BitVec 3) : Statement (.vunpack g d a p t) := by
  intro hw _
  show decode32 3 (encV 2#4 g (p ++ t) a 4#3 d) = .ok (.vunpack g d a p t)
  replace hw : unpackSourceAllowed t = true := hw
  have h : ∀ (p : BitVec 2) (t : BitVec 3), (p ++ t).extractLsb' 0 3 = t ∧ (p ++ t).extractLsb' 3 2 = p := by decide
  simp [rsv, decCv, decCv4, (h p t).1, (h p t).2, hw]
theorem vrsum (g : GReg) (d : VReg) (a : VReg) : Statement (.vrsum g d a) := by
  intro hw _
  show decode32 3 (encV 0#4 g 0#5 a 5#3 d) = .ok (.vrsum g d a)
  simp [rsv, decCv, decCv5]
theorem vrmax (g : GReg) (d : VReg) (a : VReg) : Statement (.vrmax g d a) := by
  intro hw _
  show decode32 3 (encV 1#4 g 0#5 a 5#3 d) = .ok (.vrmax g d a)
  simp [rsv, decCv, decCv5]
theorem vperm (g : GReg) (d : VReg) (a : VReg) (b : VReg) : Statement (.vperm g d a b) := by
  intro hw _
  show decode32 3 (encV 2#4 g b a 5#3 d) = .ok (.vperm g d a b)
  simp [rsv, decCv, decCv5]
theorem vslide (g : GReg) (d : VReg) (a : VReg) (l : BitVec 5) : Statement (.vslide g d a l) := by
  intro hw _
  show decode32 3 (encV 3#4 g l a 5#3 d) = .ok (.vslide g d a l)
  simp [rsv, decCv, decCv5]
theorem vbcast (g : GReg) (d : VReg) (a : VReg) (l : BitVec 5) : Statement (.vbcast g d a l) := by
  intro hw _
  show decode32 3 (encV 4#4 g l a 5#3 d) = .ok (.vbcast g d a l)
  simp [rsv, decCv, decCv5]
theorem vscan (g : GReg) (d : VReg) (a : VReg) (k : KReg) : Statement (.vscan g d a k) := by
  intro hw _
  show decode32 3 (encV 5#4 g (z53 k) a 5#3 d) = .ok (.vscan g d a k)
  replace hw : (a != 31) = true := hw
  simp [rsv, decCv, decCv5] at hw ⊢
  simp [hw]
theorem vscanL1 (g : GReg) (d : VReg) (a : VReg) (k : KReg) : Statement (.vscanL1 g d a k) := by
  intro hw _
  show decode32 1 (encV 7#4 g (z53 k) a 5#3 d) = .ok (.vscanL1 g d a k)
  replace hw : (a != 31) = true := hw
  simp [rsv, decCv, decCv5] at hw ⊢
  simp [hw]
theorem vscanc (g : GReg) (d : VReg) (a : VReg) (k : KReg) : Statement (.vscanc g d a k) := by
  intro hw _
  show decode32 3 (encV 6#4 g (z53 k) a 5#3 d) = .ok (.vscanc g d a k)
  replace hw : (a != 31 && d.getLsbD 0 == false) = true := hw
  simp [rsv, decCv, decCv5] at hw ⊢
  simp [hw]
theorem vexp2 (g : GReg) (d : VReg) (a : VReg) : Statement (.vexp2 g d a) := by
  intro hw _
  show decode32 3 (encV 0#4 g 0#5 a 6#3 d) = .ok (.vexp2 g d a)
  simp [rsv, decCv, decCv6]
theorem vlog2 (g : GReg) (d : VReg) (a : VReg) : Statement (.vlog2 g d a) := by
  intro hw _
  show decode32 3 (encV 1#4 g 0#5 a 6#3 d) = .ok (.vlog2 g d a)
  simp [rsv, decCv, decCv6]
theorem vrcp (g : GReg) (d : VReg) (a : VReg) : Statement (.vrcp g d a) := by
  intro hw _
  show decode32 3 (encV 2#4 g 0#5 a 6#3 d) = .ok (.vrcp g d a)
  simp [rsv, decCv, decCv6]
theorem vrsq (g : GReg) (d : VReg) (a : VReg) : Statement (.vrsq g d a) := by
  intro hw _
  show decode32 3 (encV 3#4 g 0#5 a 6#3 d) = .ok (.vrsq g d a)
  simp [rsv, decCv, decCv6]
theorem vsqrt (g : GReg) (d : VReg) (a : VReg) : Statement (.vsqrt g d a) := by
  intro hw _
  show decode32 3 (encV 4#4 g 0#5 a 6#3 d) = .ok (.vsqrt g d a)
  simp [rsv, decCv, decCv6]
theorem vtanh (g : GReg) (d : VReg) (a : VReg) : Statement (.vtanh g d a) := by
  intro hw _
  show decode32 3 (encV 5#4 g 0#5 a 6#3 d) = .ok (.vtanh g d a)
  simp [rsv, decCv, decCv6]
theorem sfuService (c : Nat) : Statement (.sfuService c) := fun _ h => absurd rfl h
theorem sfuResultWrite (c : Nat) (i : Nat) : Statement (.sfuResultWrite c i) := fun _ h => absurd rfl h
theorem repv (g : GReg) (l : BitVec 5) (c : BitVec 5) (s : BitVec 5) : Statement (.repv g l c s) := by
  intro hw _
  show decode32 3 (encV 0#4 g s c 7#3 l) = .ok (.repv g l c s)
  replace hw : (decide (1 ≤ l.toNat) && decide (l.toNat ≤ 16)) = true := hw
  have h : 1 ≤ l.toNat ∧ l.toNat ≤ 16 := by simpa using hw
  simp [rsv, decCv, decCv7, h.1, h.2]
theorem tcfg (g : GReg) (t : BitVec 1) (y : BitVec 5) : Statement (.tcfg g t y) := by
  intro hw _
  show decode32 3 (encV 1#4 g 0#5 y 7#3 (z51 t)) = .ok (.tcfg g t y)
  replace hw : tileTypeAllowed y = true := hw
  simp [rsv, decCv, decCv7] at hw ⊢
  simp [hw]
theorem mma (g : GReg) (t : BitVec 1) (a : XReg) (b : XReg) (k : KReg) (m : BitVec 4) : Statement (.mma g t a b k m) := by
  intro hw _
  show decode32 3 (encM 0#5 g k b a m t) = .ok (.mma g t a b k m)
  replace hw : decide (m.toNat ≤ 2) = true := hw
  simp [rsv, decCm] at hw ⊢
  simp [hw]
theorem gmma (g : GReg) (t : BitVec 1) (a : XReg) (b : XReg) (k : KReg) (m : BitVec 4) : Statement (.gmma g t a b k m) := by
  intro hw _
  show decode32 3 (encM 1#5 g k b a m t) = .ok (.gmma g t a b k m)
  replace hw : decide (m.toNat ≤ 2) = true := hw
  simp [rsv, decCm] at hw ⊢
  simp [hw]
theorem wld (g : GReg) (t : BitVec 1) (a : XReg) (b : XReg) (m : BitVec 4) : Statement (.wld g t a b m) := by
  intro hw _
  show decode32 3 (encM 2#5 g 0#3 b a m t) = .ok (.wld g t a b m)
  replace hw : decide (m.toNat ≤ 2) = true := hw
  simp [rsv, decCm] at hw ⊢
  simp [hw]
theorem wlds (g : GReg) (t : BitVec 1) (a : XReg) (b : XReg) (m : BitVec 4) : Statement (.wlds g t a b m) := by
  intro hw _
  show decode32 3 (encM 3#5 g 0#3 b a m t) = .ok (.wlds g t a b m)
  replace hw : decide (m.toNat ≤ 2) = true := hw
  simp [rsv, decCm] at hw ⊢
  simp [hw]
theorem accz (g : GReg) (t : BitVec 1) (k : KReg) : Statement (.accz g t k) := by
  intro hw _
  show decode32 3 (encM 4#5 g k 0#4 0#4 0#4 t) = .ok (.accz g t k)
  simp [rsv, decCm]
theorem accld (g : GReg) (t : BitVec 1) (a : XReg) (b : XReg) (k : KReg) : Statement (.accld g t a b k) := by
  intro hw _
  show decode32 3 (encM 5#5 g k b a 0#4 t) = .ok (.accld g t a b k)
  simp [rsv, decCm]
theorem accst (g : GReg) (t : BitVec 1) (a : XReg) (b : XReg) (k : KReg) : Statement (.accst g t a b k) := by
  intro hw _
  show decode32 3 (encM 6#5 g k b a 0#4 t) = .ok (.accst g t a b k)
  simp [rsv, decCm]
theorem gangOperation (q : Nat) : Statement (.gangOperation q) := fun _ h => absurd rfl h
theorem tileWrite (c : Nat) : Statement (.tileWrite c) := fun _ h => absurd rfl h
theorem memberStart (c : Nat) (x : Nat) (e : Nat) : Statement (.memberStart c x e) := fun _ h => absurd rfl h
theorem inlineMemberTake (c : Nat) (x : Nat) : Statement (.inlineMemberTake c x) := fun _ h => absurd rfl h
theorem familyFinish (c : Nat) (x : Nat) (e : Nat) : Statement (.familyFinish c x e) := fun _ h => absurd rfl h
theorem registerFill (i : Nat) : Statement (.registerFill i) := fun _ h => absurd rfl h
theorem migrationInstall (i : Nat) : Statement (.migrationInstall i) := fun _ h => absurd rfl h
theorem queueWordTransfer (c : Nat) (dir : Nat) : Statement (.queueWordTransfer c dir) := fun _ h => absurd rfl h
theorem lightHandlerEntry (c : Nat) (x : Nat) : Statement (.lightHandlerEntry c x) := fun _ h => absurd rfl h
theorem mailboxDelivery (c : Nat) : Statement (.mailboxDelivery c) := fun _ h => absurd rfl h
theorem eventSignalArrival (c : Nat) : Statement (.eventSignalArrival c) := fun _ h => absurd rfl h
theorem localPortPass (c : Nat) : Statement (.localPortPass c) := fun _ h => absurd rfl h
theorem laneDeliver (i : Nat) : Statement (.laneDeliver i) := fun _ h => absurd rfl h
theorem poolDeliver (c : Nat) (i : Nat) : Statement (.poolDeliver c i) := fun _ h => absurd rfl h
theorem homePerform (h : Home) (i : Nat) (j : Nat) : Statement (.homePerform h i j) := fun _ h => absurd rfl h
theorem l1ViewServe (c : Nat) : Statement (.l1ViewServe c) := fun _ h => absurd rfl h
theorem engineRead (e : Engine) (i : Nat) : Statement (.engineRead e i) := fun _ h => absurd rfl h
theorem copy (c : Nat) : Statement (.copy c) := fun _ h => absurd rfl h
theorem copyAccumulate (c : Nat) : Statement (.copyAccumulate c) := fun _ h => absurd rfl h
theorem fill (c : Nat) : Statement (.fill c) := fun _ h => absurd rfl h
theorem multicastRead (c : Nat) : Statement (.multicastRead c) := fun _ h => absurd rfl h
theorem multicastCatchUp (c : Nat) : Statement (.multicastCatchUp c) := fun _ h => absurd rfl h
theorem stridedCopy (c : Nat) : Statement (.stridedCopy c) := fun _ h => absurd rfl h
theorem packagePut (c : Nat) : Statement (.packagePut c) := fun _ h => absurd rfl h
theorem packageGet (c : Nat) : Statement (.packageGet c) := fun _ h => absurd rfl h
theorem completionFeFill (c : Nat) : Statement (.completionFeFill c) := fun _ h => absurd rfl h
theorem completionMailbox (c : Nat) : Statement (.completionMailbox c) := fun _ h => absurd rfl h
theorem completionHandlerTrigger (c : Nat) : Statement (.completionHandlerTrigger c) := fun _ h => absurd rfl h
theorem completionRegisterFill (c : Nat) : Statement (.completionRegisterFill c) := fun _ h => absurd rfl h
theorem gather (cl : Nat) : Statement (.gather cl) := fun _ h => absurd rfl h
theorem scatter (cl : Nat) : Statement (.scatter cl) := fun _ h => absurd rfl h
theorem scatterAdd (cl : Nat) : Statement (.scatterAdd cl) := fun _ h => absurd rfl h
theorem iceChunkBegin (cl : Nat) : Statement (.iceChunkBegin cl) := fun _ h => absurd rfl h
theorem iceEventSignal (cl : Nat) : Statement (.iceEventSignal cl) := fun _ h => absurd rfl h
theorem grout (cl : Nat) : Statement (.grout cl) := fun _ h => absurd rfl h
theorem bellowsLatch (cl : Nat) : Statement (.bellowsLatch cl) := fun _ h => absurd rfl h
theorem bellowsUpdate (cl : Nat) : Statement (.bellowsUpdate cl) := fun _ h => absurd rfl h
theorem translationWalk (i : Nat) : Statement (.translationWalk i) := fun _ h => absurd rfl h
theorem teamCostart (t : Nat) : Statement (.teamCostart t) := fun _ h => absurd rfl h
theorem quiescenceWave (t : Nat) : Statement (.quiescenceWave t) := fun _ h => absurd rfl h
theorem stopArrival (c : Nat) : Statement (.stopArrival c) := fun _ h => absurd rfl h
theorem nop (c : Nat) (x : Nat) : Statement (.nop c x) := fun _ h => absurd rfl h
theorem debug (c : Nat) (x : Nat) : Statement (.debug c x) := fun _ h => absurd rfl h
theorem signal (c : Nat) (x : Nat) : Statement (.signal c x) := fun _ h => absurd rfl h
theorem time (c : Nat) (x : Nat) : Statement (.time c x) := fun _ h => absurd rfl h
theorem qlist (v : Nat) (buf : Word) : Statement (.qlist v buf) := fun _ h => absurd rfl h
theorem qorder (v : Nat) (ps : Positions) : Statement (.qorder v ps) := fun _ h => absurd rfl h
theorem yield (v : Nat) : Statement (.yield v) := fun _ h => absurd rfl h
theorem pluginTime (v : Nat) : Statement (.pluginTime v) := fun _ h => absurd rfl h
theorem pluginTimeout (v : Nat) : Statement (.pluginTimeout v) := fun _ h => absurd rfl h
theorem cctlWrite (c : Nat) (val : Word) : Statement (.cctlWrite c val) := fun _ h => absurd rfl h
theorem flatchClear (c : Nat) : Statement (.flatchClear c) := fun _ h => absurd rfl h
theorem doorbell (v : Nat) (r : Nat) (idx : Nat) : Statement (.doorbell v r idx) := fun _ h => absurd rfl h
theorem launchRecordCheck (v : Nat) (r : Nat) : Statement (.launchRecordCheck v r) := fun _ h => absurd rfl h
theorem launchReady (l : Nat) : Statement (.launchReady l) := fun _ h => absurd rfl h
theorem teamDispatch (l : Nat) (d : Nat) : Statement (.teamDispatch l d) := fun _ h => absurd rfl h
theorem blockSteal (l : Nat) (d : Nat) : Statement (.blockSteal l d) := fun _ h => absurd rfl h
theorem preemptionRequest (l : Nat) : Statement (.preemptionRequest l) := fun _ h => absurd rfl h
theorem saveImageWrite (t : Nat) : Statement (.saveImageWrite t) := fun _ h => absurd rfl h
theorem teamDiscard (t : Nat) : Statement (.teamDiscard t) := fun _ h => absurd rfl h
theorem teamResume (t : Nat) : Statement (.teamResume t) := fun _ h => absurd rfl h
theorem launchCompletion (l : Nat) : Statement (.launchCompletion l) := fun _ h => absurd rfl h
theorem svalWrite (v : Nat) (s : Nat) (val : Word) : Statement (.svalWrite v s val) := fun _ h => absurd rfl h
theorem hfverNegotiate (v : Nat) (lo : BitVec 8) (hi : BitVec 8) : Statement (.hfverNegotiate v lo hi) := fun _ h => absurd rfl h
theorem krel (p : Nat) (val : Word) : Statement (.krel p val) := fun _ h => absurd rfl h
theorem imgrWrite (p : Nat) (val : Word) : Statement (.imgrWrite p val) := fun _ h => absurd rfl h
theorem partCreate (p : Nat) (val : Word) : Statement (.partCreate p val) := fun _ h => absurd rfl h
theorem partDestroy (p : Nat) : Statement (.partDestroy p) := fun _ h => absurd rfl h
theorem partScrubComplete (p : Nat) : Statement (.partScrubComplete p) := fun _ h => absurd rfl h
theorem vbindWrite (p : Nat) (val : Word) : Statement (.vbindWrite p val) := fun _ h => absurd rfl h
theorem tinvPage (v : Nat) (page : Nat) : Statement (.tinvPage v page) := fun _ h => absurd rfl h
theorem tinvVf (v : Nat) : Statement (.tinvVf v) := fun _ h => absurd rfl h
theorem tinvComplete : Statement (.tinvComplete) := fun _ h => absurd rfl h
theorem fresReplay (d : Nat) (e : Nat) : Statement (.fresReplay d e) := fun _ h => absurd rfl h
theorem fresFail (d : Nat) (e : Nat) : Statement (.fresFail d e) := fun _ h => absurd rfl h
theorem registerWrite (sp : RegSpace) (addr : Nat) (val : Word) : Statement (.registerWrite sp addr val) := fun _ h => absurd rfl h
theorem snapArm : Statement (.snapArm) := fun _ h => absurd rfl h
theorem snapHostFire : Statement (.snapHostFire) := fun _ h => absurd rfl h
theorem snapCounterTrigger : Statement (.snapCounterTrigger) := fun _ h => absurd rfl h
theorem snapPinTrigger : Statement (.snapPinTrigger) := fun _ h => absurd rfl h
theorem powerControlTick (meas : BitVec 16) : Statement (.powerControlTick meas) := fun _ h => absurd rfl h
theorem patrolScrub (p : Nat) (frame : Nat) (burst : Nat) (res : ReadCheck) : Statement (.patrolScrub p frame burst res) := fun _ h => absurd rfl h
theorem boot (failAt : Nat) : Statement (.boot failAt) := fun _ h => absurd rfl h
theorem getVersion (v : VersionAsk) : Statement (.getVersion v) := fun _ h => absurd rfl h
theorem getMeasurements (v : Nat) (idx : Nat) : Statement (.getMeasurements v idx) := fun _ h => absurd rfl h
theorem keySlotInstall (v : Nat) (pl : List Word) : Statement (.keySlotInstall v pl) := fun _ h => absurd rfl h
theorem keySlotRevoke (v : Nat) (pl : List Word) : Statement (.keySlotRevoke v pl) := fun _ h => absurd rfl h
theorem lintelPacketReceive (i6 : Packet) (crcOk : Bool) : Statement (.lintelPacketReceive i6 crcOk) := fun _ h => absurd rfl h
theorem hello (n : Nat) (ver : Nat) : Statement (.hello n ver) := fun _ h => absurd rfl h
theorem remoteTransferRequest (n : Nat) (rq : Option Remote) : Statement (.remoteTransferRequest n rq) := fun _ h => absurd rfl h
theorem retransmitTimeout (n : Nat) : Statement (.retransmitTimeout n) := fun _ h => absurd rfl h
theorem ackTimeout (c : Nat) : Statement (.ackTimeout c) := fun _ h => absurd rfl h
theorem cheadWrite (v : Nat) (val : Word) : Statement (.cheadWrite v val) := fun _ h => absurd rfl h
theorem holdingScrubComplete (t : Nat) : Statement (.holdingScrubComplete t) := fun _ h => absurd rfl h
theorem revokeComplete (p : Nat) (s : Nat) : Statement (.revokeComplete p s) := fun _ h => absurd rfl h
theorem pluginFault (v : Nat) : Statement (.pluginFault v) := fun _ h => absurd rfl h
theorem getCertificate (v : Nat) : Statement (.getCertificate v) := fun _ h => absurd rfl h
theorem challenge (v : Nat) (nonce : Nat) : Statement (.challenge v nonce) := fun _ h => absurd rfl h
theorem keyExchange (v : Nat) (nonce : Nat) : Statement (.keyExchange v nonce) := fun _ h => absurd rfl h

end Sys2Proof.Laws.Coding
end

