-- ==== Sys2Proof/Safety.lean ====
section
/-! DEFINITION. What the statements speak of: the canonical form of memory, and frames, which say what a unit leaves as it was. -/

namespace Sys2Proof.Machine

open Sys2Proof

/-- Memory is in its canonical form. -/
def MemOk (s : State) : Prop := memWf s.mem = true

/-- Nothing outside the cores differs: every byte of memory, every request, family, team, table and register of the I/O die. -/
def SameWorld (s t : State) : Prop := { t with cores := s.cores } = s

/-- Every byte of memory reads as before. -/
def SameBytes (s t : State) : Prop := ∀ a, memGet t.mem a = memGet s.mem a

/-- Every byte of memory outside the n bytes from k reads as before. -/
def SameBytesBut (s t : State) (k n : Nat) : Prop := ∀ a, a < k ∨ k + n ≤ a → memGet t.mem a = memGet s.mem a

/-- Every other core is as it was, and every other context of the unit's core. -/
def SameOthers (s t : State) : Prop :=
  (∀ n, n ≠ s.iss.core → t.core n = s.core n) ∧ ∀ x, x ≠ s.iss.ctx → t.here.ctx x = s.here.ctx x

/-- A core without its contexts and its neighbour queues. -/
def Core.body (c : Core) : Core := { c with ctxs := [], inq := [], outq := [] }

/-- A context without what a unit on registers may change: its x registers with their full bits, the pc, instret, a replay frame's
place, a suspended barrier unit, held pushes, the parity of registers written, and what is kept of a unit until it retires. -/
def Ctx.body (c : Ctx) : Ctx :=
  { c with x := Vector.replicate 48 0, fe := 0, pc := 0, instret := 0, frame := none, bwait := none, heldPush := [], bad := 0, posting := [], desc := [] }

/-- Every x register but those listed holds what it held, in the thread's own bank and in both shadow banks. -/
def SameRegs (s t : State) (but : List Nat) : Prop := ∀ r, r ∉ but → t.cur.regAt r = s.cur.regAt r

/-- What a unit on registers leaves alone: everything outside its core (all of memory among it), every other core and context,
its core but for its neighbour queues, and of its context all but the listed registers, with their full and parity bits, and what
`Ctx.body` leaves out; `hide` takes away what the instruction writes besides (a guard, a mask, the flags). -/
def UnitFrame (hide : Ctx → Ctx) (s t : State) (but : List Nat) : Prop :=
  SameWorld s t ∧ SameOthers s t ∧ t.here.body = s.here.body ∧ hide t.cur.body = hide s.cur.body ∧ SameRegs s t but ∧
    ∀ r < 48, r ∉ but → t.cur.fe.getLsbD r = s.cur.fe.getLsbD r ∧ t.cur.bad.getLsbD r = s.cur.bad.getLsbD r

/-- The context without its guards, its masks, its fcsr. -/
def Ctx.noGuards (c : Ctx) : Ctx := { c with g := 0 }
def Ctx.noMasks (c : Ctx) : Ctx := { c with k := Vector.replicate 8 0 }
def Ctx.noFlags (c : Ctx) : Ctx := { c with fcsr := 0 }

/-- The performed unit has retired at the next unit: its pc, or the place in its replay frame, and instret are counted on. -/
def Retired (s t : State) : Prop :=
  t.cur.pc = (s.cur.advance s.iss.npc).pc ∧ t.cur.frame = (s.cur.advance s.iss.npc).frame ∧ t.cur.instret = s.cur.instret + 1

/-- Lane l of a physical row of the issuing core, at the width of its tile's type. -/
def State.lane (s : State) (p l : Nat) : Nat := rowField (s.row p) (l * laneBits (s.ty p)) (laneBits (s.ty p))

/-- Of a unit that writes row p: every byte of memory but the row's 64, and every x register, hold what they held. -/
def RowFrame (s t : State) (p : Nat) : Prop := SameBytesBut s t (tileKey s.iss.core (p / 16) (p % 16)) 64 ∧ SameRegs s t []

/-- Exactly the flags that some lane of n raises are added to fcsr. -/
def LaneFlags (s t : State) (n : Nat) (f : Nat → Flags) : Prop :=
  ∀ j < 8, t.cur.fcsr.getLsbD j = (s.cur.fcsr.getLsbD j || (List.range n).any fun l => (f l).getLsbD j)

/-- The unit has issued one request: to the place an address translates to, by its path, and with what its home is to do. -/
def Issued (s t : State) (p : Phys) (va : Word) (cls : Nat) (op : ReqOp) : Prop :=
  ∃ r : Req, t.reqs = s.reqs ++ [r] ∧ r.id = s.nextReq ∧ r.uid = s.cur.uid ∧ r.core = s.iss.core ∧ r.cls = cls ∧ r.home = p.home ∧
    r.addr = p.key ∧ r.va = va ∧ r.upc = s.iss.upc ∧ r.st = 0 ∧ r.op = op ∧ t.nextReq = s.nextReq + 1

end Sys2Proof.Machine
end

