-- ==== Sys2Proof/Certificates/Slice0/Obligations.lean ====
section
/-! DEFINITION. The statements for the provers. -/

open Sys2Proof Sys2Proof.Machine

/-- The integer register forms of R150 and the divisions of R151: each completes, and its result is the rule's, computed on integers and
narrowed at the end; division by zero gives all ones and the dividend as remainder, else the quotient rounds toward zero and the
remainder takes the sign of the dividend. The RISC-V HINTs among the forms, those with destination x0, are no-ops (R139). -/
def Obligations.RegisterFormsResult : Prop :=
  ∀ (s : State) (d a b : XReg),
    let x := s.rd a
    let y := s.rd b
    ∀ q ∈ ([(.add d a b, BitVec.ofInt 64 (x.toInt + y.toInt)),
            (.sub d a b, BitVec.ofInt 64 (x.toInt - y.toInt)),
            (.sll d a b, BitVec.ofNat 64 (x.toNat * 2 ^ (y.toNat % 64))),
            (.slt d a b, if x.toInt < y.toInt then 1 else 0),
            (.sltu d a b, if x.toNat < y.toNat then 1 else 0),
            (.xor d a b, x ^^^ y),
            (.srl d a b, BitVec.ofNat 64 (x.toNat / 2 ^ (y.toNat % 64))),
            (.sra d a b, BitVec.ofInt 64 (x.toInt / 2 ^ (y.toNat % 64))),
            (.or d a b, x ||| y),
            (.and d a b, x &&& y),
            (.andn d a b, x &&& ~~~ y),
            (.orn d a b, x ||| ~~~ y),
            (.min d a b, BitVec.ofInt 64 (min x.toInt y.toInt)),
            (.minu d a b, BitVec.ofNat 64 (min x.toNat y.toNat)),
            (.max d a b, BitVec.ofInt 64 (max x.toInt y.toInt)),
            (.maxu d a b, BitVec.ofNat 64 (max x.toNat y.toNat)),
            (.sh1add d a b, BitVec.ofNat 64 (x.toNat * 2 + y.toNat)),
            (.sh2add d a b, BitVec.ofNat 64 (x.toNat * 4 + y.toNat)),
            (.sh3add d a b, BitVec.ofNat 64 (x.toNat * 8 + y.toNat)),
            (.mul d a b, BitVec.ofInt 64 (x.toInt * y.toInt)),
            (.mulh d a b, (x.signExtend 128 * y.signExtend 128).extractLsb' 64 64),
            (.mulhu d a b, (x.zeroExtend 128 * y.zeroExtend 128).extractLsb' 64 64),
            (.addw d a b, (BitVec.ofInt 32 (x.toInt + y.toInt)).signExtend 64),
            (.subw d a b, (BitVec.ofInt 32 (x.toInt - y.toInt)).signExtend 64),
            (.div d a b, if y = 0 then BitVec.allOnes 64 else BitVec.ofInt 64 (x.toInt.tdiv y.toInt)),
            (.divu d a b, if y = 0 then BitVec.allOnes 64 else BitVec.ofNat 64 (x.toNat / y.toNat)),
            (.rem d a b, if y = 0 then x else BitVec.ofInt 64 (x.toInt.tmod y.toInt)),
            (.remu d a b, if y = 0 then x else BitVec.ofNat 64 (x.toNat % y.toNat))] : List (Instr × Word)),
      (q.1.hint = true → exec q.1 s = .next s.retire) ∧
      (q.1.hint = false → s.misuse [a, b] [d] = false → exec q.1 s = .next (((s.pops [a, b]).wr d q.2).retire))

/-- The integer immediate forms of R150: each completes, and its result is the rule's; a HINT is a no-op (R139). -/
def Obligations.ImmediateFormsResult : Prop :=
  ∀ (s : State) (d a : XReg) (i : BitVec 12) (n : BitVec 6) (k : BitVec 5),
    let x := s.rd a
    ∀ q ∈ ([(.addi d a i, BitVec.ofInt 64 (x.toInt + i.toInt)),
            (.slti d a i, if x.toInt < i.toInt then 1 else 0),
            (.sltiu d a i, if x.toNat < (i.signExtend 64).toNat then 1 else 0),
            (.xori d a i, x ^^^ i.signExtend 64),
            (.ori d a i, x ||| i.signExtend 64),
            (.andi d a i, x &&& i.signExtend 64),
            (.slli d a n, BitVec.ofNat 64 (x.toNat * 2 ^ n.toNat)),
            (.srli d a n, BitVec.ofNat 64 (x.toNat / 2 ^ n.toNat)),
            (.srai d a n, BitVec.ofInt 64 (x.toInt / 2 ^ n.toNat)),
            (.clz d a, if x = 0 then 64 else BitVec.ofNat 64 (63 - Nat.log2 x.toNat)),
            (.ctz d a, BitVec.ofNat 64 ((List.range 64).takeWhile fun j => !x.getLsbD j).length),
            (.cpop d a, BitVec.ofNat 64 ((List.range 64).filter fun j => x.getLsbD j).length),
            (.addiw d a i, (BitVec.ofInt 32 (x.toInt + i.toInt)).signExtend 64),
            (.slliw d a k, (BitVec.ofNat 32 (x.toNat * 2 ^ k.toNat)).signExtend 64),
            (.srliw d a k, (BitVec.ofNat 32 (x.toNat % 2 ^ 32 / 2 ^ k.toNat)).signExtend 64),
            (.sraiw d a k, BitVec.ofInt 64 ((BitVec.ofNat 32 x.toNat).toInt / 2 ^ k.toNat))] : List (Instr × Word)),
      (q.1.hint = true → exec q.1 s = .next s.retire) ∧
      (q.1.hint = false → s.misuse [a] [d] = false → exec q.1 s = .next (((s.pops [a]).wr d q.2).retire))

/-- LUI and AUIPC (R150) and the long literal forms (R157): no source, or the destination itself; LUI and AUIPC of x0 are HINTs (R139). -/
def Obligations.LiteralFormsResult : Prop :=
  ∀ (s : State) (d : XReg) (u : BitVec 20) (l : BitVec 32),
    ∀ q ∈ ([(.lui d u, [], BitVec.ofInt 64 (u.toInt * 4096)),
            (.auipc d u, [], s.iss.ipc + BitVec.ofInt 64 (u.toInt * 4096)),
            (.li32 d l, [], BitVec.ofInt 64 l.toInt),
            (.lih d l, [d], BitVec.ofNat 64 (l.toNat * 2 ^ 32 + (s.rd d).toNat % 2 ^ 32)),
            (.addl d l, [d], BitVec.ofInt 64 ((s.rd d).toInt + l.toInt)),
            (.andl d l, [d], s.rd d &&& l.signExtend 64),
            (.fli d l, [], BitVec.ofInt 64 l.toInt)] : List (Instr × List XReg × Word)),
      (q.1.hint = true → exec q.1 s = .next s.retire) ∧
      (q.1.hint = false → s.misuse q.2.1 [d] = false → exec q.1 s = .next (((s.pops q.2.1).wr d q.2.2).retire))

/-- Branches compare by R153 and continue at the instruction's address plus the offset, or at the next unit; C.BEQZ and C.BNEZ
are BEQ and BNE with x0 (R154). -/
def Obligations.BranchesResult : Prop :=
  ∀ (s : State) (a b : XReg) (c : BitVec 3) (i : BitVec 12) (j : BitVec 8),
    let x := s.rd a
    let y := s.rd b
    (s.misuse [a, b] [] = false → ∀ q ∈ ([(.beq a b i, x = y), (.bne a b i, x ≠ y), (.blt a b i, x.toInt < y.toInt), (.bge a b i, y.toInt ≤ x.toInt),
             (.bltu a b i, x.toNat < y.toNat), (.bgeu a b i, y.toNat ≤ x.toNat)] : List (Instr × Prop)),
      (q.2 → exec q.1 s = .next ((s.pops [a, b]).retireTo (s.iss.ipc + BitVec.ofInt 64 (i.toInt * 2)))) ∧
      (¬q.2 → exec q.1 s = .next ((s.pops [a, b]).retireTo s.iss.npc))) ∧
    (s.misuse [1#1 ++ c] [] = false →
      exec (.cBeqz c j) s =
        .next (s.retireTo (if s.rd (1#1 ++ c) = 0 then s.iss.ipc + BitVec.ofInt 64 (j.toInt * 2) else s.iss.npc)) ∧
      exec (.cBnez c j) s =
        .next (s.retireTo (if s.rd (1#1 ++ c) = 0 then s.iss.npc else s.iss.ipc + BitVec.ofInt 64 (j.toInt * 2))))

/-- JAL, JALR and their compressed forms: the target, bit 0 cleared in JALR, and the link, the address of the next unit (R153, R154). -/
def Obligations.JumpsResult : Prop :=
  ∀ (s : State) (d a : XReg) (u : BitVec 20) (i : BitVec 12) (j : BitVec 11),
    let x := s.rd a
    (s.misuse [] [d] = false →
      exec (.jal d u) s = .next ((s.wr d s.iss.npc).retireTo (s.iss.ipc + BitVec.ofInt 64 (u.toInt * 2)))) ∧
    (s.misuse [a] [d] = false →
      exec (.jalr d a i) s = .next (((s.pops [a]).wr d s.iss.npc).retireTo (BitVec.ofNat 64 ((x + i.signExtend 64).toNat / 2 * 2)))) ∧
    exec (.cJ j) s = .next (s.retireTo (s.iss.ipc + BitVec.ofInt 64 (j.toInt * 2))) ∧
    (s.misuse [a] [] = false → exec (.cJr a) s = .next ((s.pops [a]).retireTo (BitVec.ofNat 64 (x.toNat / 2 * 2))) ∧
      exec (.cJalr a) s = .next (((s.pops [a]).wr 1 s.iss.npc).retireTo (BitVec.ofNat 64 (x.toNat / 2 * 2))))

/-- Compressed forms on registers execute as their expansions (R154); a HINT, RV64C's zero immediates and shift amounts among them, is a
no-op (R139). -/
def Obligations.CompressedFormsResult : Prop :=
  ∀ (s : State) (d b : XReg) (e c : BitVec 3) (i : BitVec 6) (j : BitVec 8),
    let x := s.rd d
    let y := s.rd b
    let p : XReg := 1#1 ++ e
    let r : XReg := 1#1 ++ c
    let u := s.rd p
    let v := s.rd r
    ∀ q ∈ ([(.cNop, [], 0, 0),
            (.cAddi d i, [d], d, BitVec.ofInt 64 (x.toInt + i.toInt)),
            (.cAddiw d i, [d], d, (BitVec.ofInt 32 (x.toInt + i.toInt)).signExtend 64),
            (.cLi d i, [], d, BitVec.ofInt 64 i.toInt),
            (.cAddi16sp i, [], 2, BitVec.ofInt 64 ((s.cur.reg 2).toInt + 16 * i.toInt)),
            (.cAddi4spn e j, [], p, BitVec.ofNat 64 ((s.cur.reg 2).toNat + 4 * j.toNat)),
            (.cLui d i, [], d, BitVec.ofInt 64 (i.toInt * 4096)),
            (.cSlli d i, [d], d, BitVec.ofNat 64 (x.toNat * 2 ^ i.toNat)),
            (.cMv d b, [b], d, y),
            (.cAdd d b, [d, b], d, BitVec.ofInt 64 (x.toInt + y.toInt)),
            (.cSrli e i, [p], p, BitVec.ofNat 64 (u.toNat / 2 ^ i.toNat)),
            (.cSrai e i, [p], p, BitVec.ofInt 64 (u.toInt / 2 ^ i.toNat)),
            (.cAndi e i, [p], p, u &&& i.signExtend 64),
            (.cSub e c, [p, r], p, BitVec.ofInt 64 (u.toInt - v.toInt)),
            (.cXor e c, [p, r], p, u ^^^ v), (.cOr e c, [p, r], p, u ||| v), (.cAnd e c, [p, r], p, u &&& v),
            (.cSubw e c, [p, r], p, (BitVec.ofInt 32 (u.toInt - v.toInt)).signExtend 64),
            (.cAddw e c, [p, r], p, (BitVec.ofInt 32 (u.toInt + v.toInt)).signExtend 64)] : List (Instr × List XReg × XReg × Word)),
      (q.1.hint = true → exec q.1 s = .next s.retire) ∧
      (q.1.hint = false → s.misuse q.2.1 [q.2.2.1] = false → exec q.1 s = .next (((s.pops q.2.1).wr q.2.2.1 q.2.2.2).retire))

/-- GCMP, GLOG, GTOX and GFROMX (R158 to R161): the comparison or combination goes to the guard, g0 discards it and reads true. -/
def Obligations.GuardsResult : Prop :=
  ∀ (s : State) (d e f : GReg) (r a b : XReg),
    let x := s.rd a
    let y := s.rd b
    (s.misuse [a, b] [] = false → ∀ q ∈ ([(.gcmpEq d a b, x = y), (.gcmpNe d a b, x ≠ y), (.gcmpLt d a b, x.toInt < y.toInt),
        (.gcmpGe d a b, y.toInt ≤ x.toInt), (.gcmpLtu d a b, x.toNat < y.toNat), (.gcmpGeu d a b, y.toNat ≤ x.toNat)] : List (Instr × Prop)),
      ∃ t : State, exec q.1 s = .next t ∧ (t.cur.guard d = true ↔ d = 0 ∨ q.2) ∧ (∀ n, n ≠ d → t.cur.guard n = s.cur.guard n) ∧
        Retired s t ∧ UnitFrame Ctx.noGuards s t []) ∧
    (∀ q ∈ ([(.gand d e f, s.cur.guard e = true ∧ s.cur.guard f = true), (.gor d e f, s.cur.guard e = true ∨ s.cur.guard f = true),
        (.gxor d e f, s.cur.guard e ≠ s.cur.guard f), (.gandn d e f, s.cur.guard e = true ∧ s.cur.guard f = false)] : List (Instr × Prop)),
      ∃ t : State, exec q.1 s = .next t ∧ (t.cur.guard d = true ↔ d = 0 ∨ q.2) ∧ (∀ n, n ≠ d → t.cur.guard n = s.cur.guard n) ∧
        Retired s t ∧ UnitFrame Ctx.noGuards s t []) ∧
    (s.misuse [] [r] = false → ∃ v : Word, exec (.gtox r) s = .next ((s.wr r v).retire) ∧
      ∀ j, v.getLsbD j = (decide (j < 8) && s.cur.guard (BitVec.ofNat 3 j))) ∧
    (s.misuse [a] [] = false → ∃ t : State, exec (.gfromx a) s = .next t ∧ (∀ n : GReg, n ≠ 0 → t.cur.guard n = x.getLsbD n.toNat) ∧
      Retired s t ∧ UnitFrame Ctx.noGuards s t [])

/-- Single precision in x registers (R155, R156): one rounding by the field, or by frm where the field says so; the result is written
sign-extended and its flags are ORed into fcsr. -/
def Obligations.FloatFormsResult : Prop :=
  ∀ (s : State) (d a b c : XReg) (r : BitVec 3), (r = 7 → s.cur.fcsr.toNat < 128) →
    let m := if r = 7 then s.cur.fcsr.toNat / 32 else r.toNat
    let f : XReg → FVal := fun q => f32.decode ((s.rd q).toNat % 2 ^ 32)
    let z : Nat × Flags → Word × Flags := fun v => ((BitVec.ofNat 32 v.1).signExtend 64, v.2)
    ∀ q ∈ ([(.faddS d a b r, [a, b], z (f32.add m (f a) (f b))),
            (.fsubS d a b r, [a, b], z (f32.add m (f a) (f b).negate)),
            (.fmulS d a b r, [a, b], z (f32.mul m (f a) (f b))),
            (.fdivS d a b r, [a, b], z (f32.div m (f a) (f b))),
            (.fsqrtS d a r, [a], z (f32.sqrt m (f a))),
            (.fmaddS d a b c r, [a, b, c], z (f32.fma m (f a) (f b) (f c))),
            (.fcvtSW d a r, [a], z (cvtIF f32 m false (BitVec.ofNat 32 (s.rd a).toNat).toInt)),
            (.fcvtSL d a r, [a], z (cvtIF f32 m false (s.rd a).toInt)),
            (.fsgnjS d a b, [a, b], ((((s.rd b).extractLsb' 31 1) ++ ((s.rd a).extractLsb' 0 31)).signExtend 64, 0)),
            (.fsgnjnS d a b, [a, b], (((~~~ (s.rd b).extractLsb' 31 1) ++ ((s.rd a).extractLsb' 0 31)).signExtend 64, 0)),
            (.fminS d a b, [a, b], z (f32.minMax false ((s.rd a).toNat % 2 ^ 32) ((s.rd b).toNat % 2 ^ 32))),
            (.fmaxS d a b, [a, b], z (f32.minMax true ((s.rd a).toNat % 2 ^ 32) ((s.rd b).toNat % 2 ^ 32))),
            (.feqS d a b, [a, b], (if (f a).eq (f b) then 1 else 0, if (f a).sig || (f b).sig then flNV else 0)),
            (.fltS d a b, [a, b], (if !(f a).isNan && !(f b).isNan && (f a).lt (f b) then 1 else 0,
              if (f a).isNan || (f b).isNan then flNV else 0)),
            (.fleS d a b, [a, b], (if !(f a).isNan && !(f b).isNan && !(f b).lt (f a) then 1 else 0,
              if (f a).isNan || (f b).isNan then flNV else 0)),
            (.fcvtWS d a r, [a], (match f a with
              | .nan _ => (BitVec.ofInt 64 (2 ^ 31 - 1), flNV)
              | .inf n => (BitVec.ofInt 64 (if n then -(2 ^ 31) else 2 ^ 31 - 1), flNV)
              | .fin n k e =>
                let v := roundInt m n k e
                if v.1 < -(2 ^ 31) then (BitVec.ofInt 64 (-(2 ^ 31)), flNV)
                else if 2 ^ 31 ≤ v.1 then (BitVec.ofInt 64 (2 ^ 31 - 1), flNV) else (BitVec.ofInt 64 v.1, if v.2 then flNX else 0))),
            (.fcvtLS d a r, [a], (match f a with
              | .nan _ => (BitVec.ofInt 64 (2 ^ 63 - 1), flNV)
              | .inf n => (BitVec.ofInt 64 (if n then -(2 ^ 63) else 2 ^ 63 - 1), flNV)
              | .fin n k e =>
                let v := roundInt m n k e
                if v.1 < -(2 ^ 63) then (BitVec.ofInt 64 (-(2 ^ 63)), flNV)
                else if 2 ^ 63 ≤ v.1 then (BitVec.ofInt 64 (2 ^ 63 - 1), flNV) else (BitVec.ofInt 64 v.1, if v.2 then flNX else 0)))]
          : List (Instr × List XReg × Word × Flags)),
      s.misuse q.2.1 [d] = false → ∃ t : State, exec q.1 s = .next t ∧
        t = (((s.pops q.2.1).wr d q.2.2.1).onCur fun k => { k with fcsr := k.fcsr ||| q.2.2.2.zeroExtend 8 }).retire

/-- Rounding a value that a format holds gives its own bit pattern and no flag, in every mode (R96, R99): decode and round agree on
every finite pattern of f32, f16 and bf16. -/
def Obligations.RoundingIsExactOnTheFormat : Prop :=
  ∀ f ∈ [f32, f16, bf16], ∀ (mode bits : Nat) (neg : Bool) (m : Nat) (e : Int), bits < 2 ^ f.width →
    f.decode bits = .fin neg m e → f.round mode false neg m e = (bits, 0)

/-- The frame of the units on registers (R49, R149): of the x registers, with their full bits and parity, only the destination may change;
a queue changes only where a source maps it inbound or the destination maps it outbound, and so does what the context holds of pushes; every
other core and context, the rest of this core, and all of memory stand. The pc, a replay frame's place and instret may move, and what the
context keeps of a unit until it retires may go. -/
def Obligations.RegisterUnitsFrame : Prop :=
  ∀ (s t : State) (d a b : XReg) (i : BitVec 12) (n : BitVec 6) (k : BitVec 5) (u : BitVec 20) (l : BitVec 32),
    ∀ q ∈ ([(.add d a b, [a, b]), (.sub d a b, [a, b]), (.sll d a b, [a, b]), (.slt d a b, [a, b]), (.sltu d a b, [a, b]),
            (.xor d a b, [a, b]), (.srl d a b, [a, b]), (.sra d a b, [a, b]), (.or d a b, [a, b]), (.and d a b, [a, b]),
            (.andn d a b, [a, b]), (.orn d a b, [a, b]), (.min d a b, [a, b]), (.minu d a b, [a, b]), (.max d a b, [a, b]),
            (.maxu d a b, [a, b]), (.sh1add d a b, [a, b]), (.sh2add d a b, [a, b]), (.sh3add d a b, [a, b]), (.mul d a b, [a, b]),
            (.mulh d a b, [a, b]), (.mulhu d a b, [a, b]), (.div d a b, [a, b]), (.divu d a b, [a, b]), (.rem d a b, [a, b]),
            (.remu d a b, [a, b]), (.addw d a b, [a, b]), (.subw d a b, [a, b]), (.addi d a i, [a]), (.slti d a i, [a]),
            (.sltiu d a i, [a]), (.xori d a i, [a]), (.ori d a i, [a]), (.andi d a i, [a]), (.slli d a n, [a]), (.srli d a n, [a]),
            (.srai d a n, [a]), (.clz d a, [a]), (.ctz d a, [a]), (.cpop d a, [a]), (.addiw d a i, [a]), (.slliw d a k, [a]),
            (.srliw d a k, [a]), (.sraiw d a k, [a]), (.lui d u, []), (.auipc d u, []), (.li32 d l, []), (.lih d l, [d]),
            (.addl d l, [d]), (.andl d l, [d]), (.fli d l, []), (.jal d u, []), (.jalr d a i, [a]), (.gtox d, [])]
          : List (Instr × List XReg)),
      s.misuse q.2 [d] = false → exec q.1 s = .next t → UnitFrame id s t [s.cur.tag d] ∧ SameBytes s t ∧ t.iss = s.iss ∧
        (∀ m, (∀ r ∈ q.2, s.cur.mapped r = some m → inbound r = false) → t.here.inbound m = s.here.inbound m) ∧
        (∀ m, s.cur.mapped d ≠ some m → t.here.outbound m = s.here.outbound m) ∧
        (s.cur.mapped d = none → t.cur.heldPush = s.cur.heldPush)

/-- Reading a register that maps an outbound queue, or writing one that maps an inbound queue, is trap 0x0E (R187, R311): no register,
immediate, literal, control transfer, compressed, guard or float form runs so, no scalar load or store, no full/empty form, no MBSEND and no
FCREATE, but for a HINT, which reads and writes no register (R139). -/
def Obligations.QueueMisuseTraps : Prop :=
  ∀ (s : State) (d a b c : XReg) (e f : BitVec 3) (i : BitVec 12) (n : BitVec 6) (k : BitVec 5) (u : BitVec 20) (l : BitVec 32)
      (j : BitVec 8) (g : GReg) (r : BitVec 3), (r = 7 → s.cur.fcsr.toNat < 128) →
    let p : XReg := 1#1 ++ e
    let v : XReg := 1#1 ++ f
    let traps := fun q : Instr × List XReg × List XReg =>
      s.misuse q.2.1 q.2.2 = true → q.1.hint = false → exec q.1 s = .next (s.trap 0x0E 0);
    (∀ q ∈ ([(.add d a b, [a, b], [d]), (.sub d a b, [a, b], [d]), (.sll d a b, [a, b], [d]), (.slt d a b, [a, b], [d]),
              (.sltu d a b, [a, b], [d]), (.xor d a b, [a, b], [d]), (.srl d a b, [a, b], [d]), (.sra d a b, [a, b], [d]),
              (.or d a b, [a, b], [d]), (.and d a b, [a, b], [d]), (.andn d a b, [a, b], [d]), (.orn d a b, [a, b], [d]),
              (.min d a b, [a, b], [d]), (.minu d a b, [a, b], [d]), (.max d a b, [a, b], [d]), (.maxu d a b, [a, b], [d]),
              (.sh1add d a b, [a, b], [d]), (.sh2add d a b, [a, b], [d]), (.sh3add d a b, [a, b], [d]), (.mul d a b, [a, b], [d]),
              (.mulh d a b, [a, b], [d]), (.mulhu d a b, [a, b], [d]), (.div d a b, [a, b], [d]), (.divu d a b, [a, b], [d]),
              (.rem d a b, [a, b], [d]), (.remu d a b, [a, b], [d]), (.addw d a b, [a, b], [d]), (.subw d a b, [a, b], [d])]
        : List (Instr × List XReg × List XReg)), traps q) ∧
    (∀ q ∈ ([(.addi d a i, [a], [d]), (.slti d a i, [a], [d]), (.sltiu d a i, [a], [d]), (.xori d a i, [a], [d]), (.ori d a i, [a], [d]),
              (.andi d a i, [a], [d]), (.slli d a n, [a], [d]), (.srli d a n, [a], [d]), (.srai d a n, [a], [d]), (.clz d a, [a], [d]),
              (.ctz d a, [a], [d]), (.cpop d a, [a], [d]), (.addiw d a i, [a], [d]), (.slliw d a k, [a], [d]), (.srliw d a k, [a], [d]),
              (.sraiw d a k, [a], [d]), (.lui d u, [], [d]), (.auipc d u, [], [d]), (.li32 d l, [], [d]), (.lih d l, [d], [d]),
              (.addl d l, [d], [d]), (.andl d l, [d], [d]), (.fli d l, [], [d])]
        : List (Instr × List XReg × List XReg)), traps q) ∧
    (∀ q ∈ ([(.beq a b i, [a, b], []), (.bne a b i, [a, b], []), (.blt a b i, [a, b], []), (.bge a b i, [a, b], []),
              (.bltu a b i, [a, b], []), (.bgeu a b i, [a, b], []), (.cBeqz e j, [p], []), (.cBnez e j, [p], []),
              (.jal d u, [], [d]), (.jalr d a i, [a], [d]), (.cJr a, [a], []), (.cJalr a, [a], [1])]
        : List (Instr × List XReg × List XReg)), traps q) ∧
    (∀ q ∈ ([(.cAddi d n, [d], [d]), (.cAddiw d n, [d], [d]), (.cLi d n, [], [d]), (.cAddi4spn e j, [], [p]), (.cLui d n, [], [d]),
              (.cSlli d n, [d], [d]), (.cMv d b, [b], [d]), (.cAdd d b, [d, b], [d]), (.cSrli e n, [p], [p]), (.cSrai e n, [p], [p]),
              (.cAndi e n, [p], [p]), (.cSub e f, [p, v], [p]), (.cXor e f, [p, v], [p]), (.cOr e f, [p, v], [p]), (.cAnd e f, [p, v], [p]),
              (.cSubw e f, [p, v], [p]), (.cAddw e f, [p, v], [p])]
        : List (Instr × List XReg × List XReg)), traps q) ∧
    (∀ q ∈ ([(.gcmpEq g a b, [a, b], []), (.gcmpNe g a b, [a, b], []), (.gcmpLt g a b, [a, b], []), (.gcmpGe g a b, [a, b], []),
              (.gcmpLtu g a b, [a, b], []), (.gcmpGeu g a b, [a, b], []), (.gtox d, [], [d]), (.gfromx a, [a], [])]
        : List (Instr × List XReg × List XReg)), traps q) ∧
    (∀ q ∈ ([(.faddS d a b r, [a, b], [d]), (.fsubS d a b r, [a, b], [d]), (.fmulS d a b r, [a, b], [d]), (.fdivS d a b r, [a, b], [d]),
              (.fsqrtS d a r, [a], [d]), (.fmaddS d a b c r, [a, b, c], [d]), (.fcvtSW d a r, [a], [d]), (.fcvtSL d a r, [a], [d]),
              (.fsgnjS d a b, [a, b], [d]), (.fsgnjnS d a b, [a, b], [d]), (.fminS d a b, [a, b], [d]), (.fmaxS d a b, [a, b], [d]),
              (.feqS d a b, [a, b], [d]), (.fltS d a b, [a, b], [d]), (.fleS d a b, [a, b], [d]), (.fcvtWS d a r, [a], [d]),
              (.fcvtLS d a r, [a], [d])]
        : List (Instr × List XReg × List XReg)), traps q) ∧
    (∀ q ∈ ([(.lb d a i, [a], [d]), (.lh d a i, [a], [d]), (.lw d a i, [a], [d]), (.ld d a i, [a], [d]), (.lbu d a i, [a], [d]),
              (.lhu d a i, [a], [d]), (.lwu d a i, [a], [d]), (.sb b a i, [a, b], []), (.sh b a i, [a, b], []), (.sw b a i, [a, b], []),
              (.sd b a i, [a, b], []), (.ldc d a, [a], [d]), (.ldp d a, [a], [d]), (.fest d a, [a], [d]), (.stf a b, [a, b], []),
              (.sete a, [a], []), (.mbsend a b, [a, b], []), (.fcreate d a, [a], [d]), (.cLw e f k, [v], [p]), (.cLd e f k, [v], [p]),
              (.cSw e f k, [p, v], []), (.cSd e f k, [p, v], []), (.cLwsp d n, [2], [d]), (.cLdsp d n, [2], [d]),
              (.cSwsp b n, [2, b], []), (.cSdsp b n, [2, b], [])]
        : List (Instr × List XReg × List XReg)), traps q)

/-- Scalar loads (R152, R154): an access that R152 lets through issues one request at its address by the path of R77; the destination waits,
empty when the value returns over Mortar; memory and every other register stand. A load of the own core's region 2 takes the local port by
the model's choice (log 45). -/
def Obligations.LoadsIssue : Prop :=
  ∀ (s : State) (d a : XReg) (e f : BitVec 3) (i : BitVec 12) (j : BitVec 5) (k : BitVec 6) (p : Phys) (g : Nat) (h : Bool),
    let va := s.rd a + i.signExtend 64
    ∀ q ∈ ([(.lb d a i, d, a, va, 1, true), (.lh d a i, d, a, va, 2, true), (.lw d a i, d, a, va, 4, true), (.ld d a i, d, a, va, 8, true),
            (.lbu d a i, d, a, va, 1, false), (.lhu d a i, d, a, va, 2, false), (.lwu d a i, d, a, va, 4, false),
            (.cLw e f j, 1#1 ++ e, 1#1 ++ f, s.rd (1#1 ++ f) + BitVec.ofNat 64 (4 * j.toNat), 4, true),
            (.cLd e f j, 1#1 ++ e, 1#1 ++ f, s.rd (1#1 ++ f) + BitVec.ofNat 64 (8 * j.toNat), 8, true),
            (.cLwsp d k, d, 2, s.rd 2 + BitVec.ofNat 64 (4 * k.toNat), 4, true),
            (.cLdsp d k, d, 2, s.rd 2 + BitVec.ofNat 64 (8 * k.toNat), 8, true)] : List (Instr × XReg × XReg × Word × Nat × Bool)),
      s.misuse [q.2.2.1] [q.2.1] = false →
      s.access s.iss.core q.2.2.2.1 q.2.2.2.2.1 q.2.2.2.2.1 false (if q.2.2.2.2.1 = 8 then [0, 1, 2] else [0, 1]) true false = .ok p g h →
      s.holdsBack p.key q.2.2.2.2.1 = false →
      ∃ t : State, exec q.1 s = .next t ∧
        Issued s t p q.2.2.2.1 (s.pathOf p true q.2.2.2.1.toNat) (.load q.2.2.2.2.1 q.2.2.2.2.2 (s.cur.dest q.2.1)) ∧
        Retired s t ∧ SameBytes s t ∧ SameRegs s t [] ∧
        (q.2.1 ≠ 0 → t.cur.pend.getLsbD (pendBit (s.cur.dest q.2.1)) = true) ∧
        t.cur.fe = (if q.2.1 ≠ 0 ∧ s.cur.mapped q.2.1 = none ∧ s.pathOf p true q.2.2.2.1.toNat = 1
          then s.cur.fe &&& ~~~(1#48 <<< s.cur.tag q.2.1) else s.cur.fe)

/-- Scalar stores (R51, R59, R152, R154): an access let through issues one request with the low bytes of xs2; a store to a mailbox
window sends a word; memory itself changes only when the request is performed. -/
def Obligations.StoresIssue : Prop :=
  ∀ (s : State) (b a : XReg) (e f : BitVec 3) (i : BitVec 12) (j : BitVec 5) (k : BitVec 6) (p : Phys) (g : Nat) (h : Bool),
    let va := s.rd a + i.signExtend 64
    ∀ q ∈ ([(.sb b a i, b, a, va, 1), (.sh b a i, b, a, va, 2), (.sw b a i, b, a, va, 4), (.sd b a i, b, a, va, 8),
            (.cSw e f j, 1#1 ++ e, 1#1 ++ f, s.rd (1#1 ++ f) + BitVec.ofNat 64 (4 * j.toNat), 4),
            (.cSd e f j, 1#1 ++ e, 1#1 ++ f, s.rd (1#1 ++ f) + BitVec.ofNat 64 (8 * j.toNat), 8),
            (.cSwsp b k, b, 2, s.rd 2 + BitVec.ofNat 64 (4 * k.toNat), 4),
            (.cSdsp b k, b, 2, s.rd 2 + BitVec.ofNat 64 (8 * k.toNat), 8)] : List (Instr × XReg × XReg × Word × Nat)),
      s.misuse [q.2.2.1, q.2.1] [] = false →
      s.access s.iss.core q.2.2.2.1 q.2.2.2.2 q.2.2.2.2 true (if q.2.2.2.2 = 8 then [0, 1, 2, 4] else [0, 1]) true false = .ok p g h →
      s.holdsBack p.key q.2.2.2.2 = false →
      ∃ t : State, exec q.1 s = .next t ∧
        Issued s t p q.2.2.2.1 (if g = 2 ∨ g = 4 then 1 else s.pathOf p false q.2.2.2.1.toNat)
          (if g = 4 then .mail (s.rd q.2.1) else .store ((List.range q.2.2.2.2).map fun n => (s.rd q.2.1).extractLsb' (8 * n) 8)) ∧
        Retired s t ∧ SameBytes s t ∧ SameRegs s t [] ∧ t.cur.fe = s.cur.fe

/-- The causes of a scalar access in the order of R152: misaligned, a window the team may not name, a page not present (a walk, then
a parked thread), a store without permission, a sealed page; each ends the unit with no request. -/
def Obligations.AccessCausesInOrder : Prop :=
  ∀ (s : State) (d a : XReg) (i : BitVec 12),
    let va := s.rd a + i.signExtend 64
    ∀ q ∈ ([(.lh d a i, [a], [d], 2, false), (.lw d a i, [a], [d], 4, false), (.ld d a i, [a], [d], 8, false),
            (.sh d a i, [a, d], [], 2, true), (.sw d a i, [a, d], [], 4, true), (.sd d a i, [a, d], [], 8, true)]
          : List (Instr × List XReg × List XReg × Nat × Bool)),
      s.misuse q.2.1 q.2.2.1 = false →
      (va.toNat % q.2.2.2.1 ≠ 0 → exec q.1 s = .next (s.trap 3 va)) ∧
      (va.toNat % q.2.2.2.1 = 0 → classify s.iss.core va = .none → exec q.1 s = .next (s.trap 4 va)) ∧
      (∀ n r o, va.toNat % q.2.2.2.1 = 0 → classify s.iss.core va = .window n r o → n ∉ (s.teamOf s.iss.core).cores →
        exec q.1 s = .next (s.trap 4 va)) ∧
      (∀ v, va.toNat % q.2.2.2.1 = 0 → classify s.iss.core va = .global v →
        s.translate (s.iss.core / 16) (s.teamOf s.iss.core).vf v = none → exec q.1 s = .next (s.walkCur v q.2.2.2.2)) ∧
      (∀ v p, va.toNat % q.2.2.2.1 = 0 → classify s.iss.core va = .global v →
        s.translate (s.iss.core / 16) (s.teamOf s.iss.core).vf v = some p → q.2.2.2.2 = true → p.write = false →
        exec q.1 s = .next (s.trap 6 va)) ∧
      (∀ v p, va.toNat % q.2.2.2.1 = 0 → classify s.iss.core va = .global v →
        s.translate (s.iss.core / 16) (s.teamOf s.iss.core).vf v = some p → (q.2.2.2.2 = true → p.write = true) → p.slot ≠ 0 →
        exec q.1 s = .next (s.trap 0x13 va))

/-- Full/empty instructions (R194, R195): on a word of a team core's scratchpad LDC, LDP and FEST issue a request and leave their
destination empty until the fill; STF, once the thread's earlier local and ordered requests are performed at the scope it needs
(R88), and SETE issue theirs. -/
def Obligations.FullEmptyIssue : Prop :=
  ∀ (s : State) (d a b : XReg) (p : Phys) (g : Nat) (h : Bool) (n o : Nat),
    let va := s.rd a
    let cls := if p.home = .core s.iss.core then 0 else 1
    (s.misuse [a] [d] = false → s.access s.iss.core va 8 8 false [0] false false = .ok p g h → s.holdsBack p.key 8 = false →
      ∀ q ∈ ([(.ldc d a, .ldc (s.cur.dest d), true), (.ldp d a, .ldp (s.cur.dest d), false),
              (.fest d a, .fest (s.cur.dest d), false)] : List (Instr × ReqOp × Bool)),
        ∃ t : State, exec q.1 s = .next t ∧ Issued s t p va cls q.2.1 ∧ Retired s t ∧ SameBytes s t ∧ SameRegs s t [] ∧
          (d ≠ 0 → s.cur.mapped d = none → t.cur.fe.getLsbD (s.cur.tag d) = false) ∧
          t.cur.acq = s.cur.acq + (if q.2.2 then 1 else 0)) ∧
    (s.misuse [a, b] [] = false → s.access s.iss.core va 8 8 true [0] false false = .ok p g h → s.holdsBack p.key 8 = false →
      classify s.iss.core va = .window n 0 o →
      s.pending s.cur.uid 1 (if s.iss.core / 16 = n / 16 then 1 else if s.iss.core / 2048 = n / 2048 then 2 else 3) s.nextReq = false →
      ∃ t : State, exec (.stf a b) s = .next t ∧ Issued s t p va cls (.stf (s.rd b)) ∧ Retired s t ∧ SameBytes s t ∧ SameRegs s t []) ∧
    (s.misuse [a] [] = false → s.access s.iss.core va 8 8 true [0] false false = .ok p g h → s.holdsBack p.key 8 = false →
      ∃ t : State, exec (.sete a) s = .next t ∧ Issued s t p va cls .sete ∧ Retired s t ∧ SameBytes s t ∧ SameRegs s t [])

/-- Atomics (R203, R204) issue one request with the operand, and for ACAS the destination's old value to compare with, at its own
scope (R86); the destination is empty until the old value of memory returns. -/
def Obligations.AtomicsIssue : Prop :=
  ∀ (s : State) (w : BitVec 1) (c : BitVec 2) (d a b : XReg) (p : Phys) (g : Nat) (h : Bool),
    let va := s.rd a
    ∀ q ∈ ([(.aadd w c d a b, 0, w), (.aand w c d a b, 1, w), (.aor w c d a b, 2, w), (.axor w c d a b, 3, w), (.asmin w c d a b, 4, w),
            (.asmax w c d a b, 5, w), (.aumin w c d a b, 6, w), (.aumax w c d a b, 7, w), (.aswap w c d a b, 8, w), (.acas w c d a b, 9, w),
            (.afadd c d a b, 10, 0), (.afaddb c d a b, 11, 0)] : List (Instr × Nat × BitVec 1)),
      let n := if q.2.2 = 1 then 8 else 4
      s.misuse (if q.2.1 = 9 then [a, b, d] else [a, b]) [d] = false → s.access s.iss.core va n n true [0] true false = .ok p g h →
      s.holdsBack p.key n = false →
      ∃ t : State, exec q.1 s = .next t ∧
        Issued s t p va (if p.home = .core s.iss.core then 0 else 1) (.amo q.2.1 n (s.cur.dest d) (s.rd b) (s.rd d)) ∧
        (∃ r, t.reqs.getLast? = some r ∧ r.scope = c.toNat + 1) ∧ Retired s t ∧ SameBytes s t ∧ SameRegs s t [] ∧ (d ≠ 0 → s.cur.mapped d = none → t.cur.fe.getLsbD (s.cur.tag d) = false)

/-- Fences (R86, R87, R198): FENCE.O, FENCE.A and FENCE.ALL retire once no earlier request of their classes is unperformed at their scope,
and do nothing while one is; FENCE.X retires at once and marks later engine commands, beside the conditions of earlier ones that do not hold
yet; FENCE.ALL drops those marks. A scope code names core, cluster, die, package, system; below level 3 codes 2 and 3 name the last two
(R147). Of two conditions of FENCE.X each is kept until it holds (log 10); an atomic's own scope counts beside a fence's (log 48). -/
def Obligations.FencesWaitThenRetire : Prop :=
  ∀ (s : State) (c : BitVec 5),
    let k := scopeOf s.here.level c
    (s.here.level < 3 → 2 ≤ c.toNat → k = c.toNat + 1) ∧ (3 ≤ s.here.level ∨ c.toNat < 2 → k = c.toNat) ∧
    (s.pending s.cur.uid 1 k s.nextReq = false → exec (.fenceO c) s = .next s.retire) ∧
    (s.pending s.cur.uid 1 k s.nextReq = true → exec (.fenceO c) s = .next s) ∧
    (s.pending s.cur.uid 2 k s.nextReq = false → exec (.fenceA c) s = .next s.retire ∧
      exec (.fenceAll c) s = .next (s.onCur fun x => { x with xfence := [] }).retire) ∧
    (s.pending s.cur.uid 2 k s.nextReq = true → exec (.fenceA c) s = .next s ∧ exec (.fenceAll c) s = .next s) ∧
    exec (.fenceX c) s = .next (s.onCur fun x =>
      { x with xfence := (x.xfence.filter fun f => s.pending f.1 2 f.2.2 f.2.1) ++ [(x.uid, s.nextReq, k)] }).retire

/-- LDAQ and STRL (R199), CINV and PREF (R201, R202): LDAQ issues a load that no view serves, which counts as an acquire and leaves its
destination empty until its delivery; STRL, once every earlier request of all classes is performed at its scope, is a store; CINV drops the
L1 lines of its range, or all where the range is empty or passes the end of global space, and keeps the others; PREF retires with no result,
sending at most one request, for its line. That LDAQ's line never enters the view is the model's (log 47); whether PREF is dropped is free
(log 1); that a load of the own core's region 2 takes the local port is log 45's (DESIGN CHOICE). -/
def Obligations.AcquireReleaseAndLines : Prop :=
  ∀ (s : State) (d a b : XReg) (c : BitVec 5) (l : BitVec 1) (p : Phys) (g : Nat) (h : Bool),
    let va := s.rd a
    let k := scopeOf s.here.level c
    (s.misuse [a] [d] = false → s.access s.iss.core va 8 8 false [0, 1, 2] true false = .ok p g h → s.holdsBack p.key 8 = false →
      ∃ (t : State) (r : Req), exec (.ldaq d a c) s = .next t ∧ t.reqs = s.reqs ++ [r] ∧
        Issued s t p va (if p.home = .core s.iss.core then 0 else 1) (.load 8 true (s.cur.dest d)) ∧ r.acq = 1 + k ∧ r.noFill = true ∧
        t.cur.acq = s.cur.acq + 1 ∧ (d ≠ 0 → t.cur.pend.getLsbD (pendBit (s.cur.dest d)) = true) ∧
        (d ≠ 0 → s.cur.mapped d = none → t.cur.fe.getLsbD (s.cur.tag d) = false) ∧ Retired s t ∧ SameBytes s t ∧ SameRegs s t []) ∧
    (s.misuse [a, b] [] = false → s.access s.iss.core va 8 8 true [0, 1, 2, 4] true false = .ok p g h →
      s.holdsBack p.key 8 = false →
      (s.pending s.cur.uid 2 k s.nextReq = true → exec (.strl a b c) s = .next s) ∧
      (s.pending s.cur.uid 2 k s.nextReq = false →
        ∃ t : State, exec (.strl a b c) s = .next t ∧
          Issued s t p va (if g = 2 ∨ g = 4 then 1 else s.pathOf p false va.toNat)
            (if g = 4 then .mail (s.rd b) else .store ((List.range 8).map fun n => (s.rd b).extractLsb' (8 * n) 8)) ∧
          Retired s t ∧ SameBytes s t ∧ SameRegs s t [])) ∧
    (s.misuse [a, b] [] = false → ∃ t : State, exec (.cinv a b) s = .next t ∧ Retired s t ∧ SameBytes s t ∧ SameRegs s t [] ∧
      (∀ e, e ∈ t.here.l1 ↔ e ∈ s.here.l1 ∧ s.rd b ≠ 0 ∧ va.toNat + (s.rd b).toNat ≤ 2 ^ 49 ∧
        ¬(va.toNat / 128 ≤ e.2.va ∧ e.2.va ≤ (va.toNat + (s.rd b).toNat - 1) / 128))) ∧
    (s.misuse [a] [] = false → ∃ t : State, exec (.pref a l) s = .next t ∧ Retired s t ∧ SameBytes s t ∧ SameRegs s t [] ∧
      t.cur.fe = s.cur.fe ∧ t.cur.pend = s.cur.pend ∧ t.fills = s.fills ∧
      (t.reqs = s.reqs ∨ ∃ r, t.reqs = s.reqs ++ [r] ∧ r.uid = s.cur.uid ∧ r.cls = 1 ∧ r.counted = false ∧ r.va = va &&& ~~~127#64 ∧
        ∃ v, r.op = .prefetch v))

/-- LDMIG (R28, R47, R200): where the conditions do not hold it is a load of 8 bytes, with its destination empty until the reply; where they
do, and the thread's requests are performed, the thread leaves its slot for the word's home core, and its load takes the ordered lane there.
The lowest free slot of the home core is R47's; that a load of the own core's region 2 takes the local port is log 45's (DESIGN CHOICE). -/
def Obligations.MigratingLoad : Prop :=
  ∀ (s : State) (d a : XReg) (p : Phys) (g : Nat) (h : Bool) (x : Nat), s.iss.core < 8192 →
    let va := s.rd a
    let n := (coreOf p.home).getD s.iss.core
    let m := s.migrates (s.cur.dest d) n (if (coreOf p.home).isSome then g else 8)
    s.misuse [a] [d] = false → s.access s.iss.core va 8 8 false [0, 1, 2] true false = .ok p g h →
    (m = none → s.holdsBack p.key 8 = false →
      ∃ t : State, exec (.ldmig d a) s = .next t ∧ Issued s t p va (s.pathOf p true va.toNat) (.load 8 true (s.cur.dest d)) ∧ Retired s t ∧
        (d ≠ 0 → s.cur.mapped d = none → t.cur.fe.getLsbD (s.cur.tag d) = false) ∧ SameBytes s t ∧ SameRegs s t []) ∧
    (m = some x → s.pending s.cur.uid 2 1 s.nextReq = true → exec (.ldmig d a) s = .next s) ∧
    (m = some x → s.pending s.cur.uid 2 1 s.nextReq = false →
      ∃ (t : State) (q : Migration) (r : Req), exec (.ldmig d a) s = .next t ∧ t.migs = s.migs ++ [q] ∧ q.uid = s.cur.uid ∧ q.toCore = n ∧
        q.toCtx = x ∧ q.reg = s.cur.dest d ∧ q.got = none ∧ q.ctx.x = s.cur.x ∧ q.ctx.g = s.cur.g ∧ q.ctx.instret = s.cur.instret + 1 ∧
        t.reqs = s.reqs ++ [r] ∧ r.op = .mig ∧ r.uid = s.cur.uid ∧ r.home = p.home ∧ r.addr = p.key ∧ r.cls = 1 ∧
        t.cur = Ctx.empty ∧ t.here.sent = s.here.sent + 1 ∧ SameBytes s t)

/-- LRLN and SCLN (R205 to R208): a well-formed block of the own scratchpad, whose lines have one slice home and, for a commit, may be
written, gives one ordered request to that home with the lines, and for a commit with exactly the words whose mask bit is set; issuing
LRLN ends the thread's earlier reservation. At its slice, which holds no sealed line, LRLN reserves the lines and sends all their words to the
block; SCLN, unconditional or with the reservation standing, writes its words at once, gives 0 and ends the reservations over the lines it
wrote, or else gives 1 and writes nothing; the thread's own reservation ends. -/
def Obligations.LineBlocksIssue : Prop :=
  (∀ (s : State) (d a : XReg) (o : Nat) (h : Home) (p : Phys) (ps : List Phys) (commit : Bool),
    let va := s.rd a
    let key := winKey s.iss.core 0 o
    let n := (s.dword key 0).toNat % 8
    s.misuse [a] [d] = false → va.toNat % 64 = 0 → classify s.iss.core va = .window s.iss.core 0 o → o + 576 ≤ 2 ^ 18 →
    s.spadWaits key 64 = false → s.blockBad key commit = false → (commit = true → s.spadWaits (key + 64) (128 * n) = false) →
    ((List.range n).map fun k => s.translate (s.iss.core / 16) (s.teamOf s.iss.core).vf (s.dword key (k + 1)).toNat) = (p :: ps).map some →
    (∀ q ∈ p :: ps, q.home = h ∧ h ≠ .host ∧ q.slot = 0 ∧ (commit = true → q.write = true) ∧ s.poolHolds s.cur.uid q.key 128 = false) →
    ∃ (t : State) (r : Req), exec (if commit then .scln d a else .lrln d a) s = .next t ∧ t.reqs = s.reqs ++ [r] ∧ r.home = h ∧ r.addr = p.key ∧ r.cls = 1 ∧
      Retired s t ∧ SameBytes s t ∧ SameRegs s t [] ∧ (d ≠ 0 → s.cur.mapped d = none → t.cur.fe.getLsbD (s.cur.tag d) = false) ∧
      (commit = false → r.op = .lrln (s.cur.dest d) key ((p :: ps).map (·.key)) (((p :: ps).filter (·.stream)).map (·.key)) ∧
        ∀ q ∈ t.resv, q.uid ≠ s.cur.uid) ∧
      (commit = true → ∃ ws, r.op = .scln (s.cur.dest d) ((s.dword key 0).getLsbD 8) ((p :: ps).map (·.key))
          (((p :: ps).filter (·.stream)).map (·.key)) ws ∧
        ∀ w, w ∈ ws ↔ ∃ k j q, (p :: ps)[k]? = some q ∧ j < 16 ∧ (s.dword key 5).getLsbD (16 * k + j) = true ∧
          w = (q.key + 8 * j, s.dword (key + 64 + 128 * k + 8 * j) 0, s.poisoned (key + 64 + 128 * k + 8 * j)))) ∧
  (∀ (s : State) (r : Req) (p i d : Nat) (ls streams : List Nat), MemOk s → s.req r.id = some r → r.id < s.nextReq → r.home = .slice p i →
    r.st = 1 ∨ r.st = 3 → s.behind r = false → s.turnOf r = true → s.refused r = false → s.meetsOwned r 0 = false →
    (∀ e ∈ s.l2, ∀ l ∈ e.2, l.slot = 0) →
    (∀ block, r.op = .lrln d block ls streams → (∀ l ∈ ls, ∀ j < 16, s.named p (l + 8 * j) = true) →
      ∃ (t : State) (q : Req) (ws : List (Nat × Word × Bool)), exec (.homePerform r.home r.id 0) s = .next t ∧ q ∈ t.reqs ∧ q.uid = r.uid ∧
        q.home = .core r.core ∧ q.op = .block d (BitVec.ofNat 64 ls.length) ws ∧ SameBytes s t ∧ t.req r.id = none ∧
        (∀ w, w ∈ ws ↔ ∃ k j l, ls[k]? = some l ∧ j < 16 ∧
          w = (block + 64 + 128 * k + 8 * j, BitVec.ofNat 64 (memNat s.mem (l + 8 * j) 8), s.poisoned (l + 8 * j) || r.rbad)) ∧
        ((s.holder r.uid).isSome = true → ∃ v ∈ t.resv, v.uid = r.uid ∧ v.slice = (p, i) ∧ v.lines = ls)) ∧
    (∀ uncond ws, r.op = .scln d uncond ls streams ws → (ws.map (·.1)).Nodup → (∀ w ∈ ws, w.1 % 8 = 0 ∧ s.named p w.1 = true) →
      let ok : Prop := uncond = true ∨ (∃ v ∈ s.resv, v.uid = r.uid ∧ v.slice = (p, i) ∧ v.lines = ls)
      ∃ (t : State) (f : RegFill), exec (.homePerform r.home r.id 0) s = .next t ∧ t.fills = s.fills ++ [f] ∧ f.uid = r.uid ∧ f.reg = d ∧
        t.req r.id = none ∧ (∀ v ∈ t.resv, v.uid ≠ r.uid) ∧
        (ok → f.val = 0 ∧ (∀ w ∈ ws, memNat t.mem w.1 8 = w.2.1.toNat ∧ t.poisoned w.1 = (w.2.2 || r.bad)) ∧
          (∀ a, (∀ w ∈ ws, a < w.1 ∨ w.1 + 8 ≤ a) → memGet t.mem a = memGet s.mem a) ∧
          ∀ v ∈ t.resv, v.slice = (p, i) → ∀ l ∈ v.lines, ∀ w ∈ ws, l / 128 ≠ w.1 / 128) ∧
        (¬ok → f.val = 1 ∧ SameBytes s t)))

/-- A home (R69, R78, R82, R86): a core for its scratchpad and tile rows, the slice of an unsealed line, or the host's page. Performing a
store writes exactly its bytes; performing a load sends the bytes, extended, to the register, with trap 0x0F of a poisoned word or failed
parity (R74, R373); both leave the list of requests. -/
def Obligations.HomePerformsLoadsAndStores : Prop :=
  ∀ (s : State) (i : Nat) (r : Req), MemOk s → s.req i = some r → r.st = 1 ∨ r.st = 3 → s.behind r = false →
    s.turnOf r = true → r.bad = false → s.refused r = false → s.meetsOwned r 0 = false →
    (∃ n, r.home = .core n ∧ r.addr / 2 ^ 27 % 8 < 2) ∨ r.home = .host ∨
      (∃ p j, r.home = .slice p j ∧ r.slot = 0 ∧ s.named p r.addr = true ∧ ∀ e ∈ s.l2, ∀ l ∈ e.2, l.slot = 0) →
    (∀ b, r.op = .store b →
      ∃ t : State, exec (.homePerform r.home i 0) s = .next t ∧ memBytes t.mem r.addr b.length = b ∧ SameBytesBut s t r.addr b.length ∧
        t.req r.id = none ∧ t.fills = s.fills) ∧
    (∀ k x d, r.op = .load k x d →
      ∃ (t : State) (f : RegFill), exec (.homePerform r.home i 0) s = .next t ∧ t.fills = s.fills ++ [f] ∧ f.uid = r.uid ∧ f.reg = d ∧
        f.val = (if x then (BitVec.ofNat (8 * k) (memNat s.mem r.addr k)).signExtend 64 else BitVec.ofNat 64 (memNat s.mem r.addr k)) ∧
        (let failed := (coreOf r.home).isSome && s.parityFails r.addr k;
          f.err = (if failed || s.poisonedAny r.addr k then 0x0F else 0) ∧ f.addr = (if failed then 0 else r.va)) ∧
        SameBytes s t ∧ t.req r.id = none)

/-- Full/empty words at their home (R66, R67, R195, R196): LDC takes a full word and leaves it empty; on an empty word, and behind others
that wait, LDC and LDP join the word's list; STF writes the word, makes it full and serves the waiting loads in arrival order up to the first
LDC, which empties it again, while those behind it go on waiting; SETE empties; FEST reports. -/
def Obligations.FullEmptyAtHome : Prop :=
  ∀ (s : State) (n i : Nat) (r : Req), MemOk s → s.req i = some r → r.home = .core n → r.st = 1 ∨ r.st = 3 → s.behind r = false →
    s.turnOf r = true → r.bad = false → n < 8192 → (∃ o < 2 ^ 18, r.addr = winKey n 0 o) → r.addr % 8 = 0 →
    s.refused r = false → s.meetsOwned r 0 = false → (∀ w ∈ s.waiters r.addr, w.id ≠ i) →
    (∀ d, r.op = .ldc d → s.isFull r.addr = true → s.waiters r.addr = [] →
      ∃ (t : State) (f : RegFill), exec (.homePerform (.core n) i 0) s = .next t ∧ t.fills = s.fills ++ [f] ∧ f.uid = r.uid ∧ f.reg = d ∧
        f.val = BitVec.ofNat 64 (memNat s.mem r.addr 8) ∧ t.isFull r.addr = false ∧ SameBytes s t ∧ t.req r.id = none) ∧
    (∀ d, r.op = .ldc d ∨ r.op = .ldp d → s.isFull r.addr = false ∨ s.waiters r.addr ≠ [] → r.noFill = false →
      ∃ t : State, exec (.homePerform (.core n) i 0) s = .next t ∧ t.fills = s.fills ∧ SameBytes s t ∧ t.isFull r.addr = s.isFull r.addr ∧
        ∃ q, t.req r.id = some q ∧ q = { r with st := 2 }) ∧
    (∀ d, r.op = .ldp d → s.isFull r.addr = true → s.waiters r.addr = [] →
      ∃ (t : State) (f : RegFill), exec (.homePerform (.core n) i 0) s = .next t ∧ t.fills = s.fills ++ [f] ∧ f.uid = r.uid ∧ f.reg = d ∧
        f.val = BitVec.ofNat 64 (memNat s.mem r.addr 8) ∧ t.isFull r.addr = true ∧ SameBytes s t ∧ t.req r.id = none) ∧
    (∀ v ps rest, r.op = .stf v → s.waiters r.addr = ps ++ rest → ((s.waiters r.addr).map (·.id)).Nodup → (∀ p ∈ ps, ∃ d, p.op = .ldp d) →
      let served := fun (p : Req) (f : RegFill) => f.uid = p.uid ∧ p.op = .ldp f.reg ∧ f.val = v
      let written := fun t : State => memNat t.mem r.addr 8 = v.toNat ∧ SameBytesBut s t r.addr 8 ∧ t.req r.id = none ∧
        ∀ p ∈ ps, t.req p.id = none
      (rest = [] → ∃ (t : State) (fs : List RegFill), exec (.homePerform (.core n) i 0) s = .next t ∧ written t ∧ t.isFull r.addr = true ∧
        t.fills = s.fills ++ fs ∧ List.Forall₂ served ps fs) ∧
      (∀ q l d, rest = q :: l → q.op = .ldc d → ∃ (t : State) (fs : List RegFill) (f : RegFill),
        exec (.homePerform (.core n) i 0) s = .next t ∧ written t ∧ t.isFull r.addr = false ∧ t.fills = s.fills ++ fs ++ [f] ∧
        List.Forall₂ served ps fs ∧ f.uid = q.uid ∧ f.reg = d ∧ f.val = v ∧ t.req q.id = none ∧ ∀ w ∈ l, w ∈ t.reqs)) ∧
    (r.op = .sete → ∃ t : State, exec (.homePerform (.core n) i 0) s = .next t ∧ t.isFull r.addr = false ∧ SameBytes s t ∧ t.fills = s.fills) ∧
    (∀ d, r.op = .fest d → ∃ (t : State) (f : RegFill), exec (.homePerform (.core n) i 0) s = .next t ∧ t.fills = s.fills ++ [f] ∧ f.reg = d ∧
      f.val.toNat < 8 ∧ f.val.getLsbD 0 = s.isFull r.addr ∧ f.val.getLsbD 1 = s.poisoned r.addr ∧ (f.val.getLsbD 2 = true ↔ s.waiters r.addr ≠ []) ∧
      SameBytes s t)

/-- An atomic at its home, a core's scratchpad, the slice of an unsealed line or the host's page (R69, R86, R203, R204): memory takes the
operation's value, the register the old one, and nothing else in memory changes; AFADD and AFADDB add by one rounding to nearest. Of a poisoned
word trap 0x0F goes to the register instead, and memory stands. -/
def Obligations.AtomicsAtHome : Prop :=
  ∀ (s : State) (i k op d : Nat) (v c : Word) (r : Req), MemOk s → s.req i = some r → r.st = 1 ∨ r.st = 3 →
    s.behind r = false → s.turnOf r = true → r.bad = false → s.refused r = false → s.meetsOwned r 0 = false →
    (∃ n, r.home = .core n ∧ r.addr / 2 ^ 27 % 8 = 0) ∨ r.home = .host ∨
      (∃ p j, r.home = .slice p j ∧ r.slot = 0 ∧ s.named p r.addr = true ∧ ∀ e ∈ s.l2, ∀ l ∈ e.2, l.slot = 0) →
    (k = 4 ∨ k = 8) → r.op = .amo op k d v c →
    let m := memNat s.mem r.addr k
    let w := 8 * k
    let o := v.toNat % 2 ^ w
    let half := fun (x y : Nat) => (bf16.add 0 (bf16.decode x) (bf16.decode y)).1
    (s.poisonedAny r.addr k = true → ∃ (t : State) (f : RegFill), exec (.homePerform r.home i 0) s = .next t ∧ SameBytes s t ∧
      t.fills = s.fills ++ [f] ∧ f.uid = r.uid ∧ f.reg = d ∧ f.err = 0x0F ∧ f.addr = r.va ∧ t.req r.id = none) ∧
    (s.poisonedAny r.addr k = false → ∀ q ∈ ([(0, (m + v.toNat) % 2 ^ w), (1, m &&& o), (2, m ||| o), (3, m ^^^ o),
            (4, if (BitVec.ofNat w v.toNat).toInt < (BitVec.ofNat w m).toInt then o else m),
            (5, if (BitVec.ofNat w m).toInt < (BitVec.ofNat w v.toNat).toInt then o else m),
            (6, min m o), (7, max m o), (8, o), (9, if m = c.toNat % 2 ^ w then o else m)] ++
            (if k = 4 then [(10, (f32.add 0 (f32.decode m) (f32.decode o)).1 % 2 ^ 32),
              (11, (half (m / 2 ^ 16) (o / 2 ^ 16) * 2 ^ 16 + half (m % 2 ^ 16) (o % 2 ^ 16)) % 2 ^ 32)] else []) : List (Nat × Nat)),
      op = q.1 → ∃ (t : State) (f : RegFill), exec (.homePerform r.home i 0) s = .next t ∧ memNat t.mem r.addr k = q.2 ∧
        SameBytesBut s t r.addr k ∧ t.fills = s.fills ++ [f] ∧ f.uid = r.uid ∧ f.reg = d ∧ f.err = 0 ∧
        f.val = (if k = 4 then (BitVec.ofNat 32 m).signExtend 64 else BitVec.ofNat 64 m) ∧ t.req r.id = none)

/-- Deliveries (R79 to R83): in the cycle after its issue the oldest local request of a core, and at any time the oldest request of a lane
and any request of a pool, reach their home, each with its place in the order of arrival; the L1 view performs its load from its own copy of
the line. The order among homes, lanes and pools is free (log 1); that a message counts as received as it reaches its core is log 33's. -/
def Obligations.RequestsReachTheirHomes : Prop :=
  ∀ (s : State) (c n : Nat) (r : Req),
    let arrived := fun t : State => (∃ q ∈ t.reqs, q = { r with st := 1, came := s.cycle, arr := s.arrivalKey r.cls r.core }) ∧
      t.arrivals = s.arrivals + 1 ∧ (∀ q ∈ s.reqs, q.id ≠ r.id → q ∈ t.reqs) ∧ SameBytes s t
    (s.reqs.find? (fun q => q.cls == 0 && q.core == c && q.st == 0) = some r → r.home = .core n → s.req r.id = some r → r.born < s.cycle →
      ∃ t : State, exec (.localPortPass c) s = .next t ∧ arrived t) ∧
    (s.req r.id = some r → s.laneHead r = true → s.mailFull r = false →
      ∃ t : State, exec (.laneDeliver r.id) s = .next t ∧ arrived t ∧
        (r.home = .core n → n ≠ r.core → r.core < 8192 → r.op ≠ .mig → (t.core n).recv = (s.core n).recv + 1)) ∧
    (s.req r.id = some r → r.cls = 2 ∨ r.cls = 3 → r.core = c → r.st = 0 →
      ∃ t : State, exec (.poolDeliver c r.id) s = .next t ∧ arrived t) ∧
    (∀ k x d l, s.reqs.find? (fun q => q.core == c && q.st == 4) = some r → r.op = .load k x d →
      (s.core c).l1.find? (fun e => e.1 == r.addr / 128) = some l → l.2.va = r.va.toNat / 128 →
      ∃ (t : State) (f : RegFill), exec (.l1ViewServe c) s = .next t ∧ t.fills = s.fills ++ [f] ∧ f.uid = r.uid ∧ f.reg = d ∧
        f.val = (let v := leNat ((l.2.bytes.drop (r.addr % 128)).take k)
          if x then BitVec.ofInt 64 (sInt (8 * k) v) else BitVec.ofNat 64 v) ∧ t.req r.id = none ∧ SameBytes s t)

/-- REGISTER_FILL (R28, R30): the value reaches the register of its thread, which is full and pending no more; memory and every other
register of the context stand; a value for a thread that is no more is discarded. -/
def Obligations.RegisterFillLands : Prop :=
  ∀ (s : State) (i n x : Nat) (f : RegFill), s.fills[i]? = some f → s.fillFirst i = true → f.link = none → f.err = 0 →
    s.keptBy f.uid = none →
    (s.whereIs f.uid = some (n, x) → 0 < f.reg → f.reg < 48 →
      ∃ t : State, exec (.registerFill i) s = .next t ∧ (t.ctxAt n x).regAt f.reg = f.val ∧ (t.ctxAt n x).fe.getLsbD f.reg = true ∧
        (t.ctxAt n x).pend.getLsbD f.reg = false ∧ (∀ r, r ≠ f.reg → (t.ctxAt n x).regAt r = (s.ctxAt n x).regAt r) ∧
        t.fills = s.fills.eraseIdx i ∧ SameBytes s t ∧ (∀ m y, m ≠ n ∨ y ≠ x → t.ctxAt m y = s.ctxAt m y)) ∧
    (s.whereIs f.uid = none → s.moving f.uid = none →
      ∃ t : State, exec (.registerFill i) s = .next t ∧ t.fills = s.fills.eraseIdx i ∧ SameBytes s t ∧ ∀ m y, t.ctxAt m y = s.ctxAt m y)

/-- CSR instructions (R167, R168): the old value goes to xd and the new one to the register; CSRRS and CSRRC of x0 and the immediate forms
of 0 write nothing; fflags and frm are views of fcsr, reserved bits stay 0. A write of qcfg that maps nothing new stores its fields, and the
thread's own register that it unmaps reads 0 and is full; while a result pends on one of those registers it waits. A read-only register is
read, and a write of it is trap 0x01. The order of a write of qcfg and its xd is log 50's; direction bits of unmapped queues are log 14's;
that instret reads as the count before the reading unit is log 26's (DEDUCED). -/
def Obligations.CsrFormsResult : Prop :=
  ∀ (s : State) (d a : XReg) (u : BitVec 5) (c : BitVec 12),
    let x := s.rd a
    let old := s.csr c
    let z : Word := u.zeroExtend 64
    (c.toNat ∈ [0x001, 0x002, 0x003, 0x800, 0x801, 0x802, 0x803, 0x804, 0x806, 0x807, 0x808] → s.misuse [a] [d] = false →
      ∀ q ∈ ([(.csrrw d a c, [a], true, x), (.csrrs d a c, [a], a != 0, old ||| x), (.csrrc d a c, [a], a != 0, old &&& ~~~x),
              (.csrrwi d u c, [], true, z), (.csrrsi d u c, [], u != 0, old ||| z), (.csrrci d u c, [], u != 0, old &&& ~~~z)]
            : List (Instr × List XReg × Bool × Word)),
        ∃ t : State, exec q.1 s = .next t ∧ Retired s t ∧ SameBytes s t ∧
          (s.cur.mapped d = none → d ≠ 0 → t.cur.regAt (s.cur.tag d) = old) ∧
          (∀ r, r ≠ s.cur.tag d → t.cur.regAt r = s.cur.regAt r) ∧
          (q.2.2.1 = false → t.csr c = old) ∧
          (q.2.2.1 = true →
            (c.toNat = 0x001 → t.cur.fcsr = s.cur.fcsr &&& 0xE0 ||| (q.2.2.2.truncate 8 &&& 0x1F)) ∧
            (c.toNat = 0x002 → t.cur.fcsr = s.cur.fcsr &&& 0x1F ||| (q.2.2.2.truncate 8 <<< 5)) ∧
            (c.toNat = 0x003 → t.cur.fcsr = q.2.2.2.truncate 8) ∧
            (c.toNat ∈ [0x800, 0x801, 0x806] → t.csr c = q.2.2.2 &&& ~~~1#64) ∧
            (c.toNat = 0x802 → t.csr c = q.2.2.2 &&& 3) ∧
            (c.toNat = 0x803 → t.cur.hm = q.2.2.2.getLsbD 0 ∧ t.cur.trig = s.cur.trig) ∧
            (c.toNat = 0x804 → t.csr c = q.2.2.2 &&& 0x3F801) ∧
            (c.toNat = 0x807 → t.csr c = q.2.2.2 &&& 0xFF) ∧ (c.toNat = 0x808 → t.csr c = q.2.2.2))) ∧
    (s.misuse [a] [0] = false → let n : BitVec 16 := x.truncate 16 &&& 0xBBBB
      ((∃ r, 5 ≤ r ∧ r ≤ 8 ∧ s.cur.queuePends r = true) → exec (.csrrw 0 a 0x805) s = .next s) ∧
      ((∀ r, 5 ≤ r → r ≤ 8 → s.cur.queuePends r = false) → (∀ q < 4, qField n q = qField s.cur.qcfg q ∨ qField n q < 8) →
        ∃ t : State, exec (.csrrw 0 a 0x805) s = .next t ∧ t.cur.qcfg = n ∧ Retired s t ∧ SameBytes s t ∧
          ∀ q < 4, s.cur.isMapped q = true → qField n q < 8 →
            t.cur.regAt (s.cur.ownTag (5 + q)) = 0 ∧ t.cur.fe.getLsbD (s.cur.ownTag (5 + q)) = true)) ∧
    (c.toNat ∈ [0xC00, 0xC02, 0xCC0, 0xCC1, 0xCC2] → s.misuse [] [d] = false →
      exec (.csrrs d 0 c) s = .next ((s.wr d old).retire) ∧ exec (.csrrw d a c) s = .next (s.trap 1 0))

/-- bfmt (R62, R63): a write waits until the context's own earlier row accesses of its scratchpad are performed, then takes each bank's field, but for 9 to 15, which
leave the field as it was. -/
def Obligations.BankFormatWrite : Prop :=
  ∀ (s : State) (a : XReg), s.misuse [a] [0] = false →
    (s.rowsWait = true → exec (.csrrw 0 a 0x809) s = .next s) ∧
    (s.rowsWait = false → ∃ t : State, exec (.csrrw 0 a 0x809) s = .next t ∧ Retired s t ∧ SameBytes s t ∧
      ∀ i < 8, t.here.bfmt.toNat / 16 ^ i % 16 =
        (let f := (s.rd a).toNat / 16 ^ i % 16
         if 9 ≤ f then s.here.bfmt.toNat / 16 ^ i % 16 else f))

/-- Traps 0x01 and 0x02 (R311 to R313, R315, R319, R320). With an emulation handler the thread enters it: emepc, emcause and emval hold the
unit's address, the cause and the unit's bytes; x5 to x7 name the handler's own registers, which hold cause, bytes and address, and x8 the
handler's own x8, as it was; nothing retires, and no other register changes. Without a handler, and inside it, they are team faults: the
thread stops, and at the end of the cycle the core stops and latches a record with the cause (0x12 inside the handler), the unit's address
and its bytes, unless the thread is no more by then. -/
def Obligations.UndefinedUnitsResult : Prop :=
  ∀ (s : State) (cause : BitVec 8) (bytes : Word), cause = 1 ∨ cause = 2 →
    (s.cur.inEm = false → s.here.emvec ≠ 0 →
      let k := s.cur.outer.2.2
      ∃ t : State, exec (.undefinedUnit cause bytes) s = .next t ∧
        t.cur.emepc = s.iss.upc ∧ t.cur.emcause = cause.zeroExtend 64 ∧ t.cur.emval = bytes ∧ t.cur.inEm = true ∧ t.cur.pc = s.here.emvec ∧
        t.cur.reg 5 = cause.zeroExtend 64 ∧ t.cur.reg 6 = bytes ∧ t.cur.reg 7 = s.iss.upc ∧ t.cur.reg 8 = s.cur.regAt (k + 8) ∧
        t.cur.frame = none ∧ t.cur.instret = s.cur.instret ∧ (∀ r, r ∉ [k + 5, k + 6, k + 7] → t.cur.regAt r = s.cur.regAt r) ∧
        SameBytes s t ∧ SameOthers s t) ∧
    (s.cur.inEm = true ∨ s.here.emvec = 0 →
      ∃ t : State, exec (.undefinedUnit cause bytes) s = .next t ∧ t.cur.st = .ending ∧ t.cur.x = s.cur.x ∧ t.cur.instret = s.cur.instret ∧
        SameBytes s t ∧ t.raised = s.raised ++ [{ core := s.iss.core, uid := s.cur.uid, who := s.whoNow,
                                                  cause := if s.cur.inEm then 0x12 else cause.toNat, value := bytes, upc := s.iss.upc }]) ∧
    (∀ q, s.raised = [q] →
      (s.holder q.uid = none → s.moving q.uid = none → s.latchRaised = { s with raised := [] }) ∧
      ((s.holder q.uid).isSome = true → (s.core q.core).flatch = [] → q.cause < 256 →
        let t := s.latchRaised.core q.core
        t.stop = true ∧ t.faulted = true ∧ (t.flatch.getD 0 0).toNat % 256 = q.cause ∧ t.flatch.getD 2 0 = q.value ∧
          t.flatch.getD 1 0 = (q.upc - (s.core q.core).abase) &&& 0xFFFFFFFF))

/-- TRET, HRET, HMASK, HSET, WFI (R166, R188 to R190, R314): the handlers return to emepc and hepc with the thread's own x5 to x8 named
again; outside its handler a return is trap 0x0E. -/
def Obligations.HandlerControlResult : Prop :=
  ∀ (s : State) (a : XReg) (e v : BitVec 1),
    (s.cur.inEm = true → ∃ t : State, exec .tret s = .next t ∧ t.cur.inEm = false ∧ t.cur.pc = s.cur.emepc ∧ t.cur.frame = none ∧
      t.cur.x = s.cur.x ∧ t.cur.instret = s.cur.instret + 1 ∧ t.cur.inLh = s.cur.inLh ∧ SameBytes s t) ∧
    (s.cur.inEm = false → exec .tret s = .next (s.trap 0x0E 0)) ∧
    (s.cur.inEm = false → s.cur.inLh = true → ∃ t : State, exec .hret s = .next t ∧ t.cur.inLh = false ∧ t.cur.pc = s.cur.hepc ∧
      t.cur.x = s.cur.x ∧ t.cur.instret = s.cur.instret + 1 ∧ SameBytes s t) ∧
    (s.cur.inEm = true ∨ s.cur.inLh = false → exec .hret s = .next (s.trap 0x0E 0)) ∧
    (∃ t : State, exec (.hmask v) s = .next t ∧ t.cur.hm = (v == 1) ∧ Retired s t ∧ UnitFrame (fun c => { c with hm := false }) s t []) ∧
    (s.misuse [a] [] = false → (e = 0 ∨ ∀ x ∈ s.here.ctxs, x.1 = s.iss.ctx ∨ x.2.mben = false) →
      ∃ t : State, exec (.hset a e) s = .next t ∧ t.cur.hvec = s.rd a &&& ~~~1#64 ∧ t.cur.mben = (e == 1) ∧ Retired s t ∧
        UnitFrame (fun c => { c with hvec := 0, mben := false }) s t []) ∧
    (s.misuse [a] [] = false → e = 1 → (∃ x ∈ s.here.ctxs, x.1 ≠ s.iss.ctx ∧ x.2.mben = true) → exec (.hset a e) s = .next (s.trap 0x0E 0)) ∧
    exec .wfi s = .next s.retire

/-- ECALL parks the thread at its unit for Dyore (R164, R311); the services answer in a0 and resume it at the next unit (R318): NOP gives 0,
SIGNAL adds to the VF's signal, TIME gives microseconds of the launch, DEBUG of more than 256 bytes gives −1, and so does a number that
names no service. DEBUG waits for the thread's own requests, reads its dwords one by one, each at its home, and then copies the bytes to the
ring, or gives 0 where the ring has no room; a sealed page is trap 0x13. A number that names no service is answered with -1 by log 25. -/
def Obligations.EcallAndServices : Prop :=
  ∀ (s : State) (n x : Nat),
    let c := s.ctxAt n x
    let answered := fun (t : State) (v : Word) =>
      (t.ctxAt n x).st = .run ∧ (t.ctxAt n x).pc = c.wnpc ∧ (t.ctxAt n x).reg 10 = v ∧
        ∀ r, r ≠ 10 → (t.ctxAt n x).regAt r = c.regAt r
    (∃ t : State, exec .ecall s = .next t ∧ t.cur.st = .ecall ∧ t.cur.pc = s.iss.upc ∧
      t.cur.wnpc = s.iss.npc ∧ t.cur.x = s.cur.x ∧ t.cur.instret = s.cur.instret ∧ SameBytes s t) ∧
    (s.up = true → c.uid ≠ 0 → c.st = .ecall → c.sfuHeld = [] →
      ((c.reg 10).toNat = 0 → ∃ t : State, exec (.nop n x) s = .next t ∧ answered t 0) ∧
      (3 < (c.reg 10).toNat → ∃ t : State, exec (.nop n x) s = .next t ∧ answered t (BitVec.allOnes 64)) ∧
      ((c.reg 10).toNat = 1 → 256 < (c.reg 12).toNat → ∃ t : State, exec (.debug n x) s = .next t ∧ answered t (BitVec.allOnes 64)) ∧
      ((c.reg 10).toNat = 1 → (c.reg 12).toNat ≤ 256 → (c.reg 11).toNat + (c.reg 12).toNat ≤ 2 ^ 49 → (c.reg 11).toNat < 2 ^ 49 →
        let v := (s.teamOf n).vf
        let a := (c.reg 11).toNat
        let len := (c.reg 12).toNat
        let ws := wordsOver a len
        let pages := pageStarts [(a, len, false)]
        let r := (s.vf v).dbg
        (s.pending c.uid 2 4 s.nextReq = true → exec (.debug n x) s = .next s) ∧
        (s.pending c.uid 2 4 s.nextReq = false → missing (s.gathered (n / 16) v [] pages) v pages = none →
          (∀ w, ws.find? (fun w => (s.translate (n / 16) v w).any (·.slot != 0)) = some w →
            exec (.debug n x) s = .next (s.threadFault n x 0x13 (BitVec.ofNat 64 w) c.pc)) ∧
          ((∀ w ∈ ws, ∃ p, s.translate (n / 16) v w = some p ∧ p.slot = 0 ∧ s.poisoned p.key = false ∧
              (∀ q j, p.home = .slice q j → s.named q p.key = true)) → (∀ e ∈ s.l2, ∀ l ∈ e.2, l.slot = 0) →
            (c.debugRead = none → ∃ (t : State) (d : DescRead), exec (.debug n x) s = .next t ∧ (t.ctxAt n x).debugRead = some d ∧
              d.words = List.replicate ws.length none ∧ (t.ctxAt n x).st = .ecall ∧ SameBytes s t) ∧
            (∀ d, c.debugRead = some d → (∃ i < ws.length, d.words.getD i none = none) →
              ∃ (t : State) (i : Nat) (p : Phys), exec (.debug n x) s = .next t ∧ i < ws.length ∧ d.words.getD i none = none ∧
                s.translate (n / 16) v (ws.getD i 0) = some p ∧ SameBytes s t ∧ (t.ctxAt n x).st = .ecall ∧
                (t.ctxAt n x).debugRead = some { d with words := d.words.set i (some (BitVec.ofNat 64 (memNat s.mem p.key 8), false)) }) ∧
            (∀ d, c.debugRead = some d → (∀ i < ws.length, d.words.getD i none ≠ none) →
              (r.room len = false → ∃ t : State, exec (.debug n x) s = .next t ∧ answered t 0 ∧ SameBytes s t) ∧
              (r.room len = true → MemOk s → ∃ t : State, exec (.debug n x) s = .next t ∧ answered t (c.reg 12) ∧
                (t.vf v).dbg = r.step len ∧ ∀ j < len, memGet t.mem (hostBase + r.place (r.tail + j) 1) =
                  (wordBytes ((List.range ws.length).map d.word)).getD (a % 8 + j) 0))))) ∧
      ((c.reg 10).toNat = 2 → (c.reg 11).toNat = 0 ∨ 4095 < (c.reg 11).toNat →
        ∃ t : State, exec (.signal n x) s = .next t ∧ answered t (BitVec.allOnes 64)) ∧
      ((c.reg 10).toNat = 2 → 0 < (c.reg 11).toNat → (c.reg 11).toNat ≤ 4095 →
        ∃ t : State, exec (.signal n x) s = .next t ∧ answered t 0 ∧
          (t.signal (s.teamOf n).vf (c.reg 11).toNat).1 = (s.signal (s.teamOf n).vf (c.reg 11).toNat).1 + c.reg 12) ∧
      ((c.reg 10).toNat = 3 → ∃ t : State, exec (.time n x) s = .next t ∧
        answered t (BitVec.ofNat 64 ((s.time - ((s.launch (s.teamOf n).launch).firstCo.getD s.time)) / microsecond))))

/-- EBREAK and C.EBREAK (R165, R376): team fault 0x10 with value 0, and the common trigger in the same cycle. At the end of a cycle in which an
enabled source has fired while the network is armed every snapshot register latches, src names the sources, and the network disarms; while it
is not armed the trigger counts as missed. -/
def Obligations.BreakpointResult : Prop :=
  ∀ (s : State),
    (∀ i ∈ ([.ebreak, .cEbreak] : List Instr),
      ∃ t : State, exec i s = .next t ∧ t.cur.st = .ending ∧ t.cur.x = s.cur.x ∧ t.cur.instret = s.cur.instret ∧ SameBytes s t ∧
        t.raised = s.raised ++ [{ core := s.iss.core, uid := s.cur.uid, who := s.whoNow, cause := 0x10, value := 0, upc := s.iss.upc }] ∧
        t.armed = s.armed ∧ (t.due.getLsbD 0 = true ↔ s.due.getLsbD 0 = true ∨ s.snapctl.getLsbD 0 = true) ∧
        (s.armed = true → t.snapctl = s.snapctl) ∧
        (s.armed = false → s.snapctl.getLsbD 0 = true → s.due.getLsbD 0 = false → bitsOf s.snapctl 31 24 < 255 →
          bitsOf t.snapctl 31 24 = bitsOf s.snapctl 31 24 + 1)) ∧
    (s.armed = true → s.due ≠ 0 →
      let t := s.snapEnd
      t.armed = false ∧ t.due = 0 ∧ (∀ i < 4, s.due.getLsbD i = true → t.snapctl.getLsbD (8 + i) = true) ∧ t.cores = s.cores ∧
        ∃ k, t.snap = some k ∧ k.cycle = s.cycle ∧ k.cores = s.cores.map fun c => (c.1, s.snapWords c.1))

/-- QMAP, QUNMAP, QCTL, QSTAT (R186, R187): a free direction with a team core beyond it is mapped and stored in qcfg; unmapping leaves the
thread's own register 0 and full and the queues' words in place; QCTL pushes a control word, which a full queue holds; QSTAT reads count,
head kind and mapping, and 0 of a queue that is not mapped. QMAP where the direction leaves the grid or the team, the queue or register is
mapped or the thread is in a light handler, QUNMAP and QCTL of a queue not mapped are trap 0x0E; QCTL of an inbound queue is trap 0x02. qcfg
and queue details by log 14 and 20. -/
def Obligations.QueueControlResult : Prop :=
  ∀ (s : State) (q e : BitVec 2) (d a : XReg) (p : Nat),
    (peerOf s.iss.core e.toNat = some p → p ∈ (s.teamOf s.iss.core).cores → s.cur.isMapped q.toNat = false →
      s.here.queueTaken q.toNat e.toNat = false → s.cur.inLh = false →
      ∃ t : State, exec (.qmap q e) s = .next t ∧ qField t.cur.qcfg q.toNat = 8 + e.toNat ∧
        (∀ r : BitVec 2, r ≠ q → qField t.cur.qcfg r.toNat = qField s.cur.qcfg r.toNat) ∧ Retired s t ∧
        UnitFrame (fun c => { c with qcfg := 0 }) s t []) ∧
    ((∀ n, peerOf s.iss.core e.toNat = some n → n ∉ (s.teamOf s.iss.core).cores) ∨ s.cur.isMapped q.toNat = true ∨
      s.here.queueTaken q.toNat e.toNat = true ∨ s.cur.inLh = true → exec (.qmap q e) s = .next (s.trap 0x0E 0)) ∧
    (s.cur.isMapped q.toNat = true → ∃ t : State, exec (.qunmap q) s = .next t ∧ qField t.cur.qcfg q.toNat = 0 ∧
      t.cur.regAt (s.cur.ownTag (5 + q.toNat)) = 0 ∧ t.cur.fe.getLsbD (s.cur.ownTag (5 + q.toNat)) = true ∧ t.here.inq = s.here.inq ∧
      t.here.outq = s.here.outq ∧ Retired s t ∧ UnitFrame (fun c => { c with qcfg := 0 }) s t [s.cur.ownTag (5 + q.toNat)]) ∧
    (s.cur.isMapped q.toNat = false → exec (.qunmap q) s = .next (s.trap 0x0E 0)) ∧
    (2 ≤ q.toNat → s.misuse [a] [] = false → ∀ m, s.cur.queueOf q.toNat = some m →
      ∃ t : State, exec (.qctl q a) s = .next t ∧ Retired s t ∧ SameBytes s t ∧ SameRegs s t [] ∧
        ((s.here.outbound m).length < 8 → t.here.outbound m = s.here.outbound m ++ [(true, s.rd a, 0)]) ∧
        (8 ≤ (s.here.outbound m).length → t.here.outbound m = s.here.outbound m ∧
          t.cur.heldPush = s.cur.heldPush ++ [(m, (true, s.rd a, 0))])) ∧
    (2 ≤ q.toNat → s.cur.queueOf q.toNat = none → exec (.qctl q a) s = .next (s.trap 0x0E 0)) ∧
    (q.toNat < 2 → exec (.qctl q a) s = .next (s.trap 2 0)) ∧
    (s.misuse [] [d] = false → ∀ m, s.cur.queueOf q.toNat = some m →
      let w := if q.toNat < 2 then s.here.inbound m else s.here.outbound m
      exec (.qstat d q) s = .next ((s.wr d (BitVec.ofNat 64 (w.length + (if (w.head?.map (·.1)) = some true then 256 else 0) + 512))).retire)) ∧
    (s.misuse [] [d] = false → s.cur.queueOf q.toNat = none → exec (.qstat d q) s = .next ((s.wr d 0).retire)) ∧
    (s.cur.isMapped q.toNat = true → s.cur.inLh = false → s.cur.queueOf q.toNat = some (qField s.cur.qcfg q.toNat % 4)) ∧
    (s.cur.isMapped q.toNat = false → s.cur.queueOf q.toNat = none)

/-- A mapped register (R49, R187): of every integer register, immediate and literal form and of JAL and JALR, a source that maps an inbound queue (x5 for q0, x6 for q1) gives
the head data word and takes it once, even where it stands twice; a destination that maps an outbound queue (x7 for q2, x8 for q3) pushes the
result, which a full queue leaves held; the register file stands but for an unmapped destination. -/
def Obligations.MappedRegistersPopAndPush : Prop :=
  ∀ (s : State) (d a b : XReg) (i : BitVec 12) (n : BitVec 6) (k : BitVec 5) (u : BitVec 20) (l : BitVec 32), d ≠ 0 →
    ∀ q ∈ ([(.add d a b, [a, b]), (.sub d a b, [a, b]), (.sll d a b, [a, b]), (.slt d a b, [a, b]), (.sltu d a b, [a, b]),
            (.xor d a b, [a, b]), (.srl d a b, [a, b]), (.sra d a b, [a, b]), (.or d a b, [a, b]), (.and d a b, [a, b]),
            (.andn d a b, [a, b]), (.orn d a b, [a, b]), (.min d a b, [a, b]), (.minu d a b, [a, b]), (.max d a b, [a, b]),
            (.maxu d a b, [a, b]), (.sh1add d a b, [a, b]), (.sh2add d a b, [a, b]), (.sh3add d a b, [a, b]), (.mul d a b, [a, b]),
            (.mulh d a b, [a, b]), (.mulhu d a b, [a, b]), (.div d a b, [a, b]), (.divu d a b, [a, b]), (.rem d a b, [a, b]),
            (.remu d a b, [a, b]), (.addw d a b, [a, b]), (.subw d a b, [a, b]), (.addi d a i, [a]), (.slti d a i, [a]),
            (.sltiu d a i, [a]), (.xori d a i, [a]), (.ori d a i, [a]), (.andi d a i, [a]), (.slli d a n, [a]), (.srli d a n, [a]),
            (.srai d a n, [a]), (.clz d a, [a]), (.ctz d a, [a]), (.cpop d a, [a]), (.addiw d a i, [a]), (.slliw d a k, [a]),
            (.srliw d a k, [a]), (.sraiw d a k, [a]), (.lui d u, []), (.auipc d u, []), (.li32 d l, []), (.lih d l, [d]), (.addl d l, [d]),
            (.andl d l, [d]), (.fli d l, []), (.jal d u, []), (.jalr d a i, [a])] : List (Instr × List XReg)),
      s.misuse q.2 [d] = false → q.1.hint = false →
      ∃ (t : State) (v pc : Word), exec q.1 s = .next t ∧ t = ((s.pops q.2).wr d v).retireTo pc ∧ SameBytes s t ∧
        (∀ r m w z h, r ∈ q.2 → s.cur.mapped r = some m → s.here.inbound m = (false, w, z) :: h → s.rd r = w ∧
          ((∀ y ∈ q.2, y ≠ r → s.cur.mapped y ≠ some m) → t.here.inbound m = h)) ∧
        (∀ m, (∀ y ∈ q.2, s.cur.mapped y ≠ some m) → t.here.inbound m = s.here.inbound m) ∧
        (∀ m, s.cur.mapped d = some m → SameRegs s t [] ∧
          ((s.here.outbound m).length < 8 → t.here.outbound m = s.here.outbound m ++ [(false, v, 0)]) ∧
          (8 ≤ (s.here.outbound m).length → t.here.outbound m = s.here.outbound m ∧
            t.cur.heldPush = s.cur.heldPush ++ [(m, (false, v, 0))])) ∧
        (s.cur.mapped d = none → SameRegs s t [s.cur.tag d] ∧ t.cur.regAt (s.cur.tag d) = v ∧ t.cur.fe.getLsbD (s.cur.tag d) = true ∧
          t.here.outq = s.here.outq)

/-- QUEUE_WORD_TRANSFER (R49, R52, R187): the oldest word moves to the peer's queue of the opposite direction, in order, while that holds fewer
than 8, poisoned where its packet has failed more than 8 checks (R365), and a push that was held takes the place it leaves; a full queue
keeps it; LIGHT_HANDLER_ENTRY (R50) hands the oldest trigger to the handler. That sent and received (R52) count a word as it moves between
cores is log 20's (DEDUCED). -/
def Obligations.QueueTransferAndLightEntry : Prop :=
  ∀ (s : State) (n p dir x : Nat) (w : QWord) (l : List QWord), peerOf n dir = some p → n ≠ p → dir < 4 →
    ((s.core n).outbound dir = w :: l → ((s.core p).inbound ((dir + 2) % 4)).length < 8 →
      ∃ t : State, exec (.queueWordTransfer n dir) s = .next t ∧
        ((∀ k ∈ (s.core n).ctxs, k.2.heldPush = []) → (t.core n).outbound dir = l) ∧
        (∀ v, (∀ k ∈ (s.core n).ctxs, k.1 ≠ x → k.2.heldPush = []) → (s.ctxAt n x).heldPush = [(dir, v)] →
          (t.core n).outbound dir = l ++ [v] ∧ (t.ctxAt n x).heldPush = []) ∧
        (t.core p).inbound ((dir + 2) % 4) = (s.core p).inbound ((dir + 2) % 4) ++ [(w.1, w.2.1, if 8 < w.2.2 then 9 else 0)] ∧
        (t.core n).sent = (s.core n).sent + 1 ∧ (t.core p).recv = (s.core p).recv + 1 ∧ SameBytes s t) ∧
    ((s.core n).outbound dir = w :: l → 8 ≤ ((s.core p).inbound ((dir + 2) % 4)).length →
      exec (.queueWordTransfer n dir) s = .next s) ∧
    (∀ cause v u r, (s.ctxAt n x).trig = (cause, v, u) :: r → (s.ctxAt n x).canLight = true → s.reissues n x = false →
      ∃ t : State, exec (.lightHandlerEntry n x) s = .next t ∧ (t.ctxAt n x).inLh = true ∧ (t.ctxAt n x).hepc = (s.ctxAt n x).pc ∧
        (t.ctxAt n x).hcause = cause ∧ (t.ctxAt n x).pc = (s.ctxAt n x).hvec ∧ (t.ctxAt n x).trig = r ∧ (t.ctxAt n x).st = .run ∧
        (t.ctxAt n x).reg 5 = cause ∧ (t.ctxAt n x).reg 6 = v ∧ (t.ctxAt n x).reg 7 = (s.ctxAt n x).pc ∧
        (let k := (s.ctxAt n x).outer.2.1
          ∀ y, y ∉ [k + 5, k + 6, k + 7] → (t.ctxAt n x).regAt y = (s.ctxAt n x).regAt y) ∧ SameBytes s t)

/-- Mailboxes (R51, R183, R184): MBSEND, once earlier local and ordered requests are performed at the team's widest scope, sends its word to
a core of the team; a core outside it is trap 0x04. A word performed at its core joins the box. MBRECV takes the oldest, with no other
waiting, or waits; MBPOLL takes a word that no waiter takes first, or gives 0 and a false guard, and never waits; a delivery gives the
oldest word to the earliest waiter, or makes it a trigger of the enabled handler. A word whose packet has failed its checks is poisoned in
the box, and is trap 0x0F of the thread that takes it (R365; the value of its record is left open, logs 7 and 65). Details of mail by log
23; the value of trap 0x04 for a core outside the team is log 21's (DEDUCED). -/
def Obligations.MailboxResult : Prop :=
  ∀ (s : State) (a b d : XReg) (g : GReg) (n x u : Nat) (w : Word) (l : List (Word × Bool)) (r : List (Nat × Nat)),
    let tgt := (s.rd a).toNat / 16 % 2 ^ 13
    (s.misuse [a, b] [] = false → tgt ∈ (s.teamOf s.iss.core).cores →
      (s.pending s.cur.uid 1 (widest (s.teamOf s.iss.core).cores) s.nextReq = true → exec (.mbsend a b) s = .next s) ∧
      (s.pending s.cur.uid 1 (widest (s.teamOf s.iss.core).cores) s.nextReq = false →
        ∃ (t : State) (q : Req), exec (.mbsend a b) s = .next t ∧ t.reqs = s.reqs ++ [q] ∧ q.op = .mail (s.rd b) ∧
          q.home = .core tgt ∧ q.cls = 1 ∧ Retired s t ∧ SameBytes s t ∧ SameRegs s t [])) ∧
    (s.misuse [a, b] [] = false → tgt ∉ (s.teamOf s.iss.core).cores → exec (.mbsend a b) s = .next (s.trap 4 (s.rd a))) ∧
    (∀ q v, s.req q.id = some q → q.home = .core n → q.st = 1 ∨ q.st = 3 → s.behind q = false → s.turnOf q = true → s.refused q = false →
      q.op = .mail v → ∃ t : State, exec (.homePerform (.core n) q.id 0) s = .next t ∧ (t.core n).mbox = (s.core n).mbox ++ [(v, q.bad)] ∧
        t.req q.id = none ∧ SameBytes s t) ∧
    (s.misuse [] [d] = false → s.here.mbwait = [] → s.here.mbox = (w, false) :: l →
      ∃ t : State, exec (.mbrecv d) s = .next t ∧ t.here.mbox = l ∧ (s.cur.mapped d = none → d ≠ 0 → t.cur.regAt (s.cur.tag d) = w) ∧
        Retired s t ∧ SameBytes s t ∧ SameRegs s t [s.cur.tag d]) ∧
    (s.misuse [] [d] = false → s.here.mbwait ≠ [] ∨ s.here.mbox = [] → ∃ t : State, exec (.mbrecv d) s = .next t ∧ t.cur.st = .mbrecv ∧
      t.here.mbwait = s.here.mbwait ++ [(s.iss.ctx, s.cur.uid)] ∧ t.cur.pc = s.cur.pc ∧ t.cur.instret = s.cur.instret ∧
      (s.cur.mapped d = none → d ≠ 0 → t.cur.fe.getLsbD (s.cur.tag d) = false) ∧ SameBytes s t ∧ SameRegs s t []) ∧
    (s.misuse [] [d] = false → s.here.mailOpen = [] → ∃ t : State, exec (.mbpoll d g) s = .next t ∧ (g ≠ 0 → t.cur.guard g = false) ∧
      (s.cur.mapped d = none → d ≠ 0 → t.cur.regAt (s.cur.tag d) = 0) ∧ t.here.mbox = s.here.mbox ∧ Retired s t ∧ SameBytes s t) ∧
    (s.misuse [] [d] = false → s.here.mailOpen = (w, false) :: l →
      ∃ t : State, exec (.mbpoll d g) s = .next t ∧ t.cur.guard g = true ∧ t.here.mbox.length + 1 = s.here.mbox.length ∧
        (s.cur.mapped d = none → d ≠ 0 → t.cur.regAt (s.cur.tag d) = w) ∧ Retired s t ∧ SameBytes s t) ∧
    (s.here.mbox.length ≤ s.here.mbwait.length → s.here.mailOpen = []) ∧
    (s.here.mbwait = [] → s.here.mailHolder = none → s.here.mailOpen = s.here.mbox) ∧
    ((s.core n).mbox = (w, false) :: l → (s.core n).mbwait = (x, u) :: r → 0 < (s.ctxAt n x).wdst → (s.ctxAt n x).wdst < 48 →
      ∃ t : State, exec (.mailboxDelivery n) s = .next t ∧ (t.core n).mbox = l ∧ (t.core n).mbwait = r ∧ (t.ctxAt n x).st = .run ∧
        (t.ctxAt n x).regAt (s.ctxAt n x).wdst = w ∧ (t.ctxAt n x).fe.getLsbD (s.ctxAt n x).wdst = true ∧
        (t.ctxAt n x).instret = (s.ctxAt n x).instret + 1 ∧ SameBytes s t) ∧
    ((s.core n).mbox = (w, false) :: l → (s.core n).mbwait = [] → (s.core n).mailHolder = some x → (s.teamOf n).ending = false →
      ∃ t : State, exec (.mailboxDelivery n) s = .next t ∧ (t.core n).mbox = l ∧
        (t.ctxAt n x).trig = (s.ctxAt n x).trig ++ [(3, w, (s.ctxAt n x).uid)] ∧ SameBytes s t) ∧
    (let taken := fun (t : State) (c x : Nat) => (t.ctxAt c x).st = .ending ∧ SameBytes s t ∧ ∃ q, t.raised = s.raised ++ [q] ∧ q.core = c ∧
        q.uid = (s.ctxAt c x).uid ∧ q.cause = 0x0F;
      (s.misuse [] [d] = false → s.here.mbwait = [] → s.here.mbox = (w, true) :: l →
        ∃ t : State, exec (.mbrecv d) s = .next t ∧ taken t s.iss.core s.iss.ctx) ∧
      (s.misuse [] [d] = false → s.here.mailOpen = (w, true) :: l →
        ∃ t : State, exec (.mbpoll d g) s = .next t ∧ taken t s.iss.core s.iss.ctx) ∧
      ((s.core n).mbox = (w, true) :: l → (s.core n).mbwait = (x, u) :: r → ∃ t : State, exec (.mailboxDelivery n) s = .next t ∧ taken t n x))

/-- Event lines (R185): EVSIG sends a signal to a team core; WFE takes a held signal or waits; a signal that arrives wakes every waiter of its
line and is used up, or is held. -/
def Obligations.EventLinesResult : Prop :=
  ∀ (s : State) (a : XReg) (l : BitVec 4) (n x : Nat) (r : List Nat),
    (s.misuse [a] [] = false → (s.rd a).toNat / 16 % 2 ^ 13 ∈ (s.teamOf s.iss.core).cores →
      ∃ (t : State) (q : Req), exec (.evsig a l) s = .next t ∧ t.reqs = s.reqs ++ [q] ∧ q.op = .event l.toNat ∧
        q.home = .core ((s.rd a).toNat / 16 % 2 ^ 13) ∧ Retired s t ∧ SameBytes s t ∧ SameRegs s t []) ∧
    (s.here.events.getLsbD l.toNat = true → ∃ t : State, exec (.wfe l) s = .next t ∧ t.here.events.getLsbD l.toNat = false ∧
      (∀ k, k ≠ l.toNat → t.here.events.getLsbD k = s.here.events.getLsbD k) ∧ Retired s t ∧ SameBytes s t) ∧
    (s.here.events.getLsbD l.toNat = false → ∃ t : State, exec (.wfe l) s = .next t ∧ t.cur.st = .wfe l.toNat ∧ t.cur.pc = s.cur.pc ∧
      t.here.events = s.here.events ∧ SameBytes s t) ∧
    ((s.core n).sigq = l.toNat :: r → (∀ k ∈ (s.core n).ctxs, k.2.st ≠ .wfe l.toNat) →
      ∃ t : State, exec (.eventSignalArrival n) s = .next t ∧ (t.core n).sigq = r ∧ (t.core n).events.getLsbD l.toNat = true ∧ SameBytes s t) ∧
    ((s.core n).sigq = l.toNat :: r → (∃ k ∈ (s.core n).ctxs, k.2.st = .wfe l.toNat) → (s.ctxAt n x).st = .wfe l.toNat →
      ∃ t : State, exec (.eventSignalArrival n) s = .next t ∧ (t.core n).sigq = r ∧ (t.core n).events = (s.core n).events ∧
        (t.ctxAt n x).st = .run ∧ (t.ctxAt n x).instret = (s.ctxAt n x).instret + 1 ∧ SameBytes s t)

/-- TSELF (R179): identity, tid, famh, the place's size and the family core's index in it, the router, team size and rank, block index; a
selector above 6 is trap 0x02. What a selector above 6 does when exec is asked directly is the model's restatement of the decode trap (log
25); that selector 3 has one formula for every member, inline ones too, is log 16's (DEDUCED). -/
def Obligations.TselfResult : Prop :=
  ∀ (s : State) (d : XReg) (k : BitVec 5), s.misuse [] [d] = false →
    let n := s.iss.core
    let t := s.teamOf n
    (6 < k.toNat → exec (.tself d k) s = .next (s.trap 2 0)) ∧
    (k.toNat ≤ 6 → ∃ v : Word, exec (.tself d k) s = .next ((s.wr d v).retire) ∧
      (k = 0 → v.toNat % 2 ^ 63 = (n * 16 + s.iss.ctx) % 2 ^ 63 ∧ (n < 8192 → s.iss.ctx < 16 → v.getLsbD 63 = s.cur.probe)) ∧
      (k = 1 → v = BitVec.ofNat 64 (s.cur.member * 2 ^ 32 + s.cur.frames.length * 256 + s.cur.kind)) ∧
      (k = 2 → s.cur.fam = none → v = 0) ∧
      (k = 2 → ∀ f, s.cur.fam = some f → v = BitVec.ofNat 64 (2 ^ 31 + f.core % 16 * 256 + f.ctx * 16 + f.entry)) ∧
      (k = 3 → s.cur.fam = none → v = 0) ∧
      (k = 3 → ∀ f, s.cur.fam = some f →
        let e := (s.fam f).desc
        let l := placeList f.core e.place e.cmask
        l ≠ [] → ∃ i, l[i]? = some (e.coreOf f.core s.cur.member) ∧ v = BitVec.ofNat 64 (l.length * 2 ^ 32 + i)) ∧
      (k = 4 → v = BitVec.ofNat 64 ((routerOf (n / 16)).1 * 256 + (routerOf (n / 16)).2)) ∧
      (k = 5 → n ∈ t.cores → ∃ i, t.cores[i]? = some n ∧ v = BitVec.ofNat 64 (t.cores.length * 2 ^ 32 + i)) ∧
      (k = 6 → v = t.block))

/-- Barriers (R46, R181, R182): BJOIN, BLEAVE and, after the thread's earlier local and ordered requests, an arrival send their event to the
barrier; a thread that is no member passes; BARW waits for the phase, and a thread that has arrived already waits and arrives again; BWAIT
waits for the phase of its arrival or passes. At the end of the cycle the barrier counts an arrival once and with the last one due ends the
phase and wakes who waits for it; a join of that cycle belongs to the next phase. A one-core team has team barriers like any other (log 22);
the order of events of one kind in a cycle is log 23's. -/
def Obligations.BarriersResult : Prop :=
  ∀ (s : State) (n : BitVec 10), n.toNat < 48 → s.cur.bwait = none →
    let key := s.barKey s.iss.core s.cur.uid n.toNat
    let b := s.bar s.iss.core key
    let sent := fun (t : State) (w : BarEvent) =>
      t.barq = s.barq ++ [{ what := w, key := key, core := s.iss.core, uid := s.cur.uid }] ∧ SameBytes s t
    (key < 64 → s.here.team ≠ none) →
    (s.cur.uid ∉ b.members → exec (.barw n) s = .next s.retire ∧ exec (.bara n) s = .next s.retire ∧ exec (.bwait n) s = .next s.retire ∧
      exec (.bleave n) s = .next s.retire ∧ ∃ t : State, exec (.bjoin n) s = .next t ∧ sent t .join ∧ Retired s t) ∧
    (s.cur.uid ∈ b.members → exec (.bjoin n) s = .next s.retire ∧
      ∃ t : State, exec (.bleave n) s = .next t ∧ sent t .leave ∧ Retired s t) ∧
    (s.cur.uid ∈ b.members → s.pending s.cur.uid 1 (s.barScope s.iss.core key) s.nextReq = true →
      exec (.barw n) s = .next s ∧ exec (.bara n) s = .next s) ∧
    (s.cur.uid ∈ b.members → s.cur.uid ∉ b.arrived → s.pending s.cur.uid 1 (s.barScope s.iss.core key) s.nextReq = false →
      (∃ t : State, exec (.bara n) s = .next t ∧ sent t .arrive ∧ (key, b.phase) ∈ t.cur.marks ∧ Retired s t) ∧
      (∃ t : State, exec (.barw n) s = .next t ∧ sent t .arrive ∧ (key, b.phase) ∈ t.cur.marks ∧ t.cur.st = .bar key b.phase ∧
        t.cur.instret = s.cur.instret)) ∧
    (s.cur.uid ∈ b.members → s.cur.uid ∈ b.arrived → s.pending s.cur.uid 1 (s.barScope s.iss.core key) s.nextReq = false →
      ∀ i ∈ ([.bara n, .barw n] : List Instr), ∃ t : State, exec i s = .next t ∧ t.cur.st = .barAgain key b.phase ∧ t.barq = s.barq ∧
        t.cur.instret = s.cur.instret ∧ SameBytes s t) ∧
    (∀ m, s.cur.uid ∈ b.members → s.cur.marks.find? (·.1 == key) = some m →
      (b.phase ≤ m.2 → ∃ t : State, exec (.bwait n) s = .next t ∧ t.cur.st = .bar key m.2 ∧ t.cur.instret = s.cur.instret ∧ SameBytes s t) ∧
      (m.2 < b.phase → ∃ t : State, exec (.bwait n) s = .next t ∧ Retired s t ∧ SameBytes s t)) ∧
    (s.cur.uid ∈ b.members → s.cur.marks.find? (·.1 == key) = none → exec (.bwait n) s = .next s.retire) ∧
    (∀ u, s.barq = [{ what := .arrive, key := key, core := s.iss.core, uid := u }] → u ∈ b.members → u ∉ b.arrived →
      (b.arrived.length + 1 < b.members.length → s.barEnd.bar s.iss.core key = { b with arrived := b.arrived ++ [u] }) ∧
      (b.members.length ≤ b.arrived.length + 1 → s.barEnd.bar s.iss.core key = { b with arrived := [], phase := b.phase + 1 } ∧
        ∀ x, (s.ctxAt s.iss.core x).st = .bar key b.phase → (s.barEnd.ctxAt s.iss.core x).st = .run ∧
          (s.barEnd.ctxAt s.iss.core x).instret = (s.ctxAt s.iss.core x).instret + 1)) ∧
    (∀ u v, s.barq = [{ what := .join, key := key, core := s.iss.core, uid := v },
        { what := .arrive, key := key, core := s.iss.core, uid := u }] → u ∈ b.members → u ∉ b.arrived → v ∉ b.members →
      b.members.length ≤ b.arrived.length + 1 →
      s.barEnd.bar s.iss.core key = { members := b.members ++ [v], arrived := [], phase := b.phase + 1 })

/-- FCREATE (R31, R32, R36, R37, R173): it asks once for its descriptor, by one request on the load's path, and waits. With the
descriptor, one that is poisoned is trap 0x0F and one that breaks a rule trap 0x09, with its address; otherwise, once the linked registers
it reads are full and no parent target waits for a reply, it makes a family of its member count in a free entry with those values for
member 0, gives its handle, and leaves the parent targets empty, or, of no member, filled: with their linked values first, and those that no
linked value has filled with 0. -/
def Obligations.FcreateResult : Prop :=
  ∀ (s : State) (d a : XReg), s.misuse [a] [d] = false →
    let va := s.rd a
    (∀ p g h, s.descNow = none → s.access s.iss.core va 64 64 false [0] true false = .ok p g h →
      p.home = .core s.iss.core ∨ coreOf p.home = none → s.holdsBack p.key 64 = false →
      ∃ t : State, exec (.fcreate d a) s = .next t ∧
        Issued s t p va (s.pathOf p true va.toNat) (.desc s.iss.upc s.cur.level (List.range 8)) ∧ t.cur.st = .desc ∧
        t.cur.pc = s.cur.pc ∧ t.cur.instret = s.cur.instret ∧ SameBytes s t ∧ SameRegs s t []) ∧
    (∀ q, s.descNow = some q → q.done = true →
      let k := readDesc va q.word
      let linked := fun i => s.cur.fe.getLsbD (11 + i) = true ∧ s.cur.pend.getLsbD (11 + i) = false
      (q.bad = true → exec (.fcreate d a) s = .next (s.trap 0x0F va)) ∧
      (q.bad = false → s.descBad q.word k = true → exec (.fcreate d a) s = .next (s.trap 9 va)) ∧
      (q.bad = false → s.descBad q.word k = false → s.targetPends k = true → exec (.fcreate d a) s = .next s) ∧
      (q.bad = false → s.descBad q.word k = false → s.targetPends k = false → (∀ i < k.links, linked i) → s.iss.core < 8192 → s.iss.ctx < 16 →
        ∃ (t : State) (f : FamRef) (v : Word), exec (.fcreate d a) s = .next t ∧ f.core = s.iss.core ∧ f.ctx = s.iss.ctx ∧ f.entry < 16 ∧
          (s.fam f).live = false ∧ (t.fam f).live = true ∧ (t.fam f).desc.count = k.count ∧ (t.fam f).next = 0 ∧ (t.fam f).running = [] ∧
          (t.fam f).uid = s.cur.uid ∧ (∀ i < k.links, (0, i, s.cur.regAt (11 + i)) ∈ (t.fam f).held) ∧
          (t.fam f).finished = (k.count == 0) ∧ (∀ e, e.key ≠ f.key → t.fam e = s.fam e) ∧ Retired s t ∧ SameBytes s t ∧
          v.toNat = 2 ^ 31 + (t.fam f).seq % 256 * 2 ^ 12 + f.core % 16 * 256 + f.ctx * 16 + f.entry ∧
          (t.fam f).seq = ((s.fam f).seq + 1) % 256 ∧ (s.cur.mapped d = none → d ≠ 0 → t.cur.regAt (s.cur.tag d) = v) ∧
          ∀ i < 4, let r : XReg := BitVec.ofNat 4 (k.pts.getD i 0)
            r ≠ 0 → s.cur.tag r ≠ s.cur.tag d →
              (0 < k.count → t.cur.fe.getLsbD (s.cur.tag r) = false) ∧
              (k.count = 0 → i < k.links → (∀ j < k.links, i < j → k.pts.getD j 0 ≠ k.pts.getD i 0) →
                t.cur.regAt (s.cur.tag r) = s.cur.regAt (11 + i) ∧ t.cur.fe.getLsbD (s.cur.tag r) = true) ∧
              (k.count = 0 → k.links ≤ i → (∀ j < k.links, k.pts.getD j 0 ≠ k.pts.getD i 0) →
                t.cur.regAt (s.cur.tag r) = 0 ∧ t.cur.fe.getLsbD (s.cur.tag r) = true)))

/-- FSYNC, FKILL, FBREAK, LSEND (R42, R43, R175 to R178): FSYNC of a valid handle waits for its family, and one left for a light handler
waits on when it is attempted again; FKILL ends every member that has not ended, and changes nothing of a family whose members all have;
FBREAK ends its member, slot or inline, and at the end of the cycle the family takes the lowest break index, fills the first parent target
and kills the members above it; LSEND, once earlier local and ordered requests are performed, sends a linked value to the next member, as a
message where that stands on another core. An invalid handle, and FBREAK and LSEND outside a member, are trap 0x09. The value of trap 0x09
outside a member is free (log 21). -/
def Obligations.FamilyInstructionsResult : Prop :=
  ∀ (s : State) (d a : XReg) (k : BitVec 2) (f : FamRef),
    let g := s.fam f
    let inSlot := fun r : Nat × Nat × Nat × Nat => r.2.2.2 ≠ 0 ∧ s.whereIs r.2.2.2 = some (r.2.1, r.2.2.1) ∧ s.keptBy r.2.2.2 = none ∧
      (s.ctxAt r.2.1 r.2.2.1).uid = r.2.2.2 ∧ (s.ctxAt r.2.1 r.2.2.1).fam = some f ∧ (s.ctxAt r.2.1 r.2.2.1).frames = [] ∧
      s.famsOf r.2.2.2 = [] ∧ r.2.2.2 ≠ g.uid
    let nine := fun t : State => t.cur.st = .ending ∧ SameBytes s t ∧ ∃ q, t.raised = s.raised ++ [q] ∧ q.cause = 9 ∧ q.uid = s.cur.uid
    (s.misuse [a] [d] = false → s.cur.syncLeft = none ∨ s.cur.inLh = true → s.handle (s.rd a) = some f →
      ∃ (t : State) (w : SyncWait), exec (.fsync d a) s = .next t ∧ t.cur.st = .fsync ∧ t.cur.sync = some w ∧ w.fam = f ∧ w.npc = s.iss.npc ∧
        w.dst = s.cur.dest d ∧ (s.cur.mapped d = none → d ≠ 0 → t.cur.fe.getLsbD (s.cur.tag d) = false) ∧
        t.cur.instret = s.cur.instret ∧ SameBytes s t) ∧
    (∀ w, s.cur.syncLeft = some w → s.cur.inLh = false → w.upc = s.iss.upc →
      ∃ t : State, exec (.fsync d a) s = .next t ∧ t.cur.st = .fsync ∧ t.cur.sync = some w ∧ t.cur.syncLeft = none ∧
        t.cur.instret = s.cur.instret ∧ SameBytes s t) ∧
    (s.misuse [a] [d] = false → s.cur.syncLeft = none ∨ s.cur.inLh = true → s.handle (s.rd a) = none →
      exec (.fsync d a) s = .next (s.trap 9 (s.rd a))) ∧
    (s.misuse [a] [] = false → s.handle (s.rd a) = none → exec (.fkill a) s = .next (s.trap 9 (s.rd a))) ∧
    (s.misuse [a] [] = false → s.handle (s.rd a) = some f → g.over = true → exec (.fkill a) s = .next (s.pops [a]).retire) ∧
    (s.misuse [a] [] = false → s.handle (s.rd a) = some f → g.over = false → g.desc.perf = false → (g.running.map (·.2.2.2)).Nodup →
      (∀ r ∈ g.running, inSlot r) →
      ∃ t : State, exec (.fkill a) s = .next t ∧ (t.fam f).killed = true ∧ (t.fam f).over = true ∧
        (t.fam f).ended = g.ended + g.running.length ∧ Retired s t ∧ SameBytes s t ∧
        (∀ r ∈ g.running, t.ctxAt r.2.1 r.2.2.1 = Ctx.empty) ∧
        (∀ n x, (n ≠ s.iss.core ∨ x ≠ s.iss.ctx) → (∀ r ∈ g.running, n ≠ r.2.1 ∨ x ≠ r.2.2.1) → t.ctxAt n x = s.ctxAt n x) ∧
        ∀ q ∈ t.reqs, (∃ r ∈ g.running, q.uid = r.2.2.2) → (∃ z, q.op = .ldc z ∨ q.op = .ldp z) → q.noFill = true ∧ q.st ≠ 2) ∧
    (s.misuse [a] [] = false → s.cur.fam = some f → s.pending s.cur.uid 1 1 s.nextReq = true → exec (.lsend k a) s = .next s) ∧
    (s.misuse [a] [] = false → s.cur.fam = some f → s.pending s.cur.uid 1 1 s.nextReq = false →
      let m := s.cur.member + 1
      let far := (if g.desc.count ≤ m then f.core else g.desc.coreOf f.core m) ≠ s.iss.core
      ∃ (t : State) (q : RegFill), exec (.lsend k a) s = .next t ∧ t.fills = s.fills ++ [q] ∧ q.val = s.rd a ∧
        q.link = some { fam := f, ord := g.ord, member := m, k := k.toNat } ∧ t.reqs = s.reqs ∧ Retired s t ∧
        (far → q.src = some s.iss.core ∧ t.here.sent = s.here.sent + 1) ∧ (¬far → q.src = none ∧ t.here.sent = s.here.sent) ∧
        SameBytes s t ∧ SameRegs s t []) ∧
    (s.misuse [a] [] = false → s.cur.fam = none →
      (∃ t : State, exec (.lsend k a) s = .next t ∧ nine t) ∧ ∃ t : State, exec (.fbreak a) s = .next t ∧ nine t) ∧
    (s.misuse [a] [] = false → s.cur.fam = some f →
      ∃ (t : State) (b : Break), exec (.fbreak a) s = .next t ∧ t.breaks = s.breaks ++ [b] ∧ b.fam = f ∧ b.ord = g.ord ∧
        b.member = s.cur.member ∧ b.value = s.rd a ∧ b.uid = s.cur.uid ∧ t.cur.st = .ending ∧ t.cur.instret = s.cur.instret + 1 ∧
        t.fam f = g ∧ SameBytes s t) ∧
    (∀ b, s.breaks = [b] → b.fam = f →
      let t := s.takeBreaks
      let broken := (t.fam f).brk = some (match g.brk with | some m => min m b.member | none => b.member)
      t.breaks = [] ∧ SameBytes s t ∧ (s.whereIs b.uid = none → t = { s with breaks := [] }) ∧
      (∀ n x, s.whereIs b.uid = some (n, x) → g.live = true → g.ord = b.ord → g.desc.perf = false → (g.running.map (·.2.2.2)).Nodup →
        (∀ r ∈ g.running, b.member < r.1 → inSlot r ∧ r.2.2.2 ≠ b.uid) →
        (inSlot (b.member, n, x, b.uid) → broken ∧ t.ctxAt n x = Ctx.empty ∧
          (∀ r ∈ g.running, r ∈ (t.fam f).running ↔ r.2.2.2 ≠ b.uid ∧ r.1 ≤ b.member) ∧
          (∀ r ∈ g.running, b.member < r.1 → t.ctxAt r.2.1 r.2.2.1 = Ctx.empty) ∧
          ∀ n' y, s.whereIs g.uid = some (n', y) → (s.ctxAt n' y).uid = g.uid → 0 < g.desc.pts.getD 0 0 → g.desc.pts.getD 0 0 < 48 →
            (t.ctxAt n' y).regAt (g.desc.pts.getD 0 0) = b.value) ∧
        (∀ fs v, (s.ctxAt n x).uid = b.uid → b.uid ≠ 0 → (s.ctxAt n x).frames = fs ++ [v] → (s.ctxAt n x).fam = some f → s.famsOf b.uid = [] →
          s.keptBy b.uid = none → v.uid = g.uid → v.uid ≠ 0 → s.whereIs v.uid = none → v.held = [] → (∀ w ∈ fs, w.uid ≠ v.uid) →
          (∀ r ∈ g.running, r.1 ≤ b.member) →
          let key := frameKey n (s.ctxAt n x).istk fs.length
          s.keptBy v.uid = some (n, x) → s.frameBusy n key = false → (∀ i < 18, s.poisoned (key + 8 * i) = false) →
          broken ∧ (t.ctxAt n x).uid = v.uid ∧ (t.ctxAt n x).st = .fsync ∧ (t.ctxAt n x).sync = some v.sync ∧ (t.ctxAt n x).frames = fs ∧
            (0 < g.desc.pts.getD 0 0 → g.desc.pts.getD 0 0 < 48 → (t.ctxAt n x).regAt (g.desc.pts.getD 0 0) = b.value))))

/-- THALT (R38, R180, R316): a control thread's context is empty afterwards; a member in a slot leaves its family's list, which counts one
more ended and, from inside the emulation handler, is marked; the thread leaves its barriers. After an inline member the creator's frame is
restored, which waits while stores to it are on their way: the creator stands at its FSYNC again, with the registers, full bits and pc that
the frame holds. A control thread in the emulation handler raises the team fault it stands for: with emval as its value and at the THALT's
own unit, as log 24 reads it. That record is DEDUCED; what an inline member leaves its creator is logs 63 and 64. -/
def Obligations.ThaltResult : Prop :=
  ∀ (s : State) (f : FamRef),
    let left := fun t : State => ∀ b < 48, s.cur.uid ∈ (s.bar s.iss.core (s.barKey s.iss.core s.cur.uid b)).members →
      ({ what := .leave, key := s.barKey s.iss.core s.cur.uid b, core := s.iss.core, uid := s.cur.uid } : BarItem) ∈ t.barq
    let ended := fun t : State => (t.fam f).ended = (s.fam f).ended + 1 ∧ (t.fam f).marked = ((s.fam f).marked || s.cur.inEm) ∧
      (t.fam f).running = (s.fam f).running.filter (·.2.2.2 != s.cur.uid)
    (s.cur.kind = 0 → s.cur.inEm = false → ∃ t : State, exec .thalt s = .next t ∧ t.cur = Ctx.empty ∧ left t ∧ SameBytes s t ∧ SameOthers s t) ∧
    (s.cur.kind = 0 → s.cur.inEm = true → ∃ t : State, exec .thalt s = .next t ∧ t.cur.st = .ending ∧ SameBytes s t ∧
      t.raised = s.raised ++ [{ core := s.iss.core, uid := s.cur.uid, who := s.whoNow, cause := s.cur.emcause.toNat, value := s.cur.emval,
                                upc := s.iss.upc }]) ∧
    (s.cur.kind = 1 → s.cur.frames = [] → s.cur.fam = some f → s.famsOf s.cur.uid = [] → s.whereIs s.cur.uid = some (s.iss.core, s.iss.ctx) →
      s.keptBy s.cur.uid = none → (s.fam f).desc.perf = false →
      ∃ t : State, exec .thalt s = .next t ∧ t.cur = Ctx.empty ∧ left t ∧ ended t ∧ SameBytes s t) ∧
    (∀ fs v, s.cur.kind = 2 → s.cur.frames = fs ++ [v] → s.cur.fam = some f → s.famsOf s.cur.uid = [] → s.keptBy s.cur.uid = none →
      s.whereIs s.cur.uid = some (s.iss.core, s.iss.ctx) → (s.fam f).desc.perf = false →
      let key := frameKey s.iss.core s.cur.istk fs.length
      (s.frameBusy s.iss.core key = true →
        ∃ t : State, exec .thalt s = .next t ∧ t.cur.st = .restore ∧ t.cur.frames = fs ++ [v] ∧ left t ∧ ended t ∧ SameBytes s t) ∧
      (s.frameBusy s.iss.core key = false → v.held = [] → (∀ i < 18, s.poisoned (key + 8 * i) = false) →
        ∃ t : State, exec .thalt s = .next t ∧ left t ∧ ended t ∧ SameBytes s t ∧ t.cur.uid = v.uid ∧ t.cur.kind = v.kind ∧
          t.cur.member = v.member ∧ t.cur.fam = v.fam ∧ t.cur.g = v.g ∧ t.cur.k = v.k ∧ t.cur.fcsr = v.fcsr ∧ t.cur.frames = fs ∧
          t.cur.st = .fsync ∧ t.cur.sync = some v.sync ∧ t.cur.pc = s.dword key 16 ∧ t.cur.inLh = v.inLh ∧ t.cur.inEm = v.inEm ∧
          ∀ r : XReg, r ≠ 0 → t.cur.reg r = s.dword key r.toNat ∧
            t.cur.fe.getLsbD (t.cur.tag r) = (s.dword key 17).getLsbD r.toNat))

/-- Lane arithmetic (R216, R217, R219): float lanes by one rounding under frm, i32 lanes modulo 2^32, bitwise operations and VSEL on any
type; every lane of vd takes its value, the flags of all lanes are ORed into fcsr, and all other memory stands. -/
def Obligations.VectorArithmeticResult : Prop :=
  ∀ (s : State) (g : GReg) (k : KReg) (d a b : VReg) (pd pa pb : Nat), MemOk s → s.cur.phys (s.vr d) = some pd →
    s.cur.phys (s.vr a) = some pa → s.cur.phys (s.vr b) = some pb → s.ty pa = s.ty pd → s.ty pb = s.ty pd →
    let f := fmtOf (s.ty pd)
    let m := s.cur.fcsr.toNat / 32
    let w := laneBits (s.ty pd)
    let n := laneCount (s.ty pd)
    let done := fun (i : Instr) (v : Nat → Nat) (fl : Nat → Flags) =>
      ∃ t : State, exec i s = .next t ∧ (∀ l < n, t.lane pd l = v l % 2 ^ w) ∧ LaneFlags s t n fl ∧ Retired s t ∧ RowFrame s t pd
    let x := s.lane pa
    let y := s.lane pb
    let z := s.lane pd
    let bx := fun l => BitVec.ofNat 32 (x l)
    let byv := fun l => BitVec.ofNat 32 (y l)
    (s.ty pd ≠ 8 → m < 4 → ∀ q ∈ ([(.vadd g d a b, fun l => f.add m (f.decode (x l)) (f.decode (y l))),
        (.vsub g d a b, fun l => f.add m (f.decode (x l)) (f.decode (y l)).negate),
        (.vmul g d a b, fun l => f.mul m (f.decode (x l)) (f.decode (y l))),
        (.vfma g d a b, fun l => f.fma m (f.decode (x l)) (f.decode (y l)) (f.decode (z l))),
        (.vfms g d a b, fun l => f.fma m (f.decode (x l)) (f.decode (y l)) (f.decode (z l)).negate)]
          : List (Instr × (Nat → Nat × Flags))), done q.1 (fun l => (q.2 l).1) (fun l => (q.2 l).2)) ∧
    (s.ty pd ≠ 8 → 4 ≤ m → ∀ i ∈ ([.vadd g d a b, .vsub g d a b, .vmul g d a b, .vfma g d a b, .vfms g d a b] : List Instr),
      exec i s = .next (s.trap 1 0)) ∧
    (s.ty pd ≠ 8 → ∀ q ∈ ([(.vmin g d a b, fun l => f.minMax false (x l) (y l)), (.vmax g d a b, fun l => f.minMax true (x l) (y l)),
        (.vabs g d a, fun l => (if x l < 2 ^ (w - 1) then x l else x l - 2 ^ (w - 1), 0)),
        (.vneg g d a, fun l => (if x l < 2 ^ (w - 1) then x l + 2 ^ (w - 1) else x l - 2 ^ (w - 1), 0))]
          : List (Instr × (Nat → Nat × Flags))), done q.1 (fun l => (q.2 l).1) (fun l => (q.2 l).2)) ∧
    (s.ty pd = 8 → ∀ q ∈ ([(.viadd g d a b, fun l => x l + y l), (.visub g d a b, fun l => x l + 2 ^ 32 - y l),
        (.vimul g d a b, fun l => x l * y l), (.vshl g d a b, fun l => x l * 2 ^ (y l % 32)), (.vshrl g d a b, fun l => x l / 2 ^ (y l % 32)),
        (.vshra g d a b, fun l => (BitVec.ofInt 32 ((bx l).toInt / 2 ^ (y l % 32))).toNat),
        (.vimin g d a b, fun l => if (byv l).toInt < (bx l).toInt then y l else x l),
        (.vimax g d a b, fun l => if (bx l).toInt < (byv l).toInt then y l else x l)] : List (Instr × (Nat → Nat))),
      done q.1 q.2 (fun _ => 0)) ∧
    (∀ q ∈ ([(.vand g d a b, fun l => x l &&& y l), (.vor g d a b, fun l => x l ||| y l), (.vxor g d a b, fun l => x l ^^^ y l),
        (.vsel k d a b, fun l => if (s.cur.mask k).getLsbD l then x l else y l)] : List (Instr × (Nat → Nat))), done q.1 q.2 (fun _ => 0))

/-- Compares into masks (R218), mask logic and moves (R219), REPV and TCFG (R214, R231): bit l of kd is lane l's comparison, bits at and
above the lane count are 0, writes of k0 are discarded; REPV begins a frame at the next unit; TCFG gives a lease tile its type. -/
def Obligations.VectorMasksResult : Prop :=
  ∀ (s : State) (g : GReg) (d e c : KReg) (a b : VReg) (r : XReg) (pa pb : Nat), s.cur.phys (s.vr a) = some pa →
    s.cur.phys (s.vr b) = some pb → s.ty pb = s.ty pa →
    let f := fmtOf (s.ty pa)
    let n := laneCount (s.ty pa)
    let u := fun l => f.decode (s.lane pa l)
    let v := fun l => f.decode (s.lane pb l)
    let x := fun l => (BitVec.ofNat 32 (s.lane pa l)).toInt
    let y := fun l => (BitVec.ofNat 32 (s.lane pb l)).toInt
    let num := fun l => (u l).isNan = false ∧ (v l).isNan = false
    let nan := fun (l : Nat) => (u l).isNan || (v l).isNan
    let sig := fun (l : Nat) => (u l).sig || (v l).sig
    let bits := fun (i : Instr) (p : Nat → Prop) (fl : Nat → Bool) =>
      ∃ t : State, exec i s = .next t ∧ (d ≠ 0 → ∀ l, (t.cur.mask d).getLsbD l = true ↔ l < n ∧ p l) ∧
        (∀ q, q ≠ d → t.cur.mask q = s.cur.mask q) ∧ LaneFlags s t n (fun l => if fl l then 16 else 0) ∧ Retired s t ∧
        UnitFrame (fun c => { c.noMasks with fcsr := 0 }) s t []
    (s.ty pa ≠ 8 → bits (.vcmpFeq g d a b) (fun l => (u l).eq (v l) = true) sig ∧ bits (.vcmpFne g d a b) (fun l => (u l).eq (v l) = false) sig ∧
      bits (.vcmpFlt g d a b) (fun l => num l ∧ (u l).lt (v l) = true) nan ∧
      bits (.vcmpFle g d a b) (fun l => num l ∧ (v l).lt (u l) = false) nan) ∧
    (s.ty pa = 8 → bits (.vcmpIeq g d a b) (fun l => x l = y l) (fun _ => false) ∧
      bits (.vcmpIne g d a b) (fun l => x l ≠ y l) (fun _ => false) ∧
      bits (.vcmpIlt g d a b) (fun l => x l < y l) (fun _ => false) ∧ bits (.vcmpIle g d a b) (fun l => x l ≤ y l) (fun _ => false)) ∧
    (∀ q ∈ ([(.kand g d e c, s.cur.mask e &&& s.cur.mask c), (.kor g d e c, s.cur.mask e ||| s.cur.mask c),
        (.kxor g d e c, s.cur.mask e ^^^ s.cur.mask c), (.kandn g d e c, s.cur.mask e &&& ~~~ s.cur.mask c)] : List (Instr × Word)),
      ∃ t : State, exec q.1 s = .next t ∧ t.cur.mask d = (if d = 0 then BitVec.allOnes 64 else q.2) ∧
        (∀ k, k ≠ d → t.cur.mask k = s.cur.mask k) ∧ Retired s t ∧ UnitFrame Ctx.noMasks s t []) ∧
    (s.misuse [r] [] = false → ∃ t : State, exec (.kfromx g d r) s = .next t ∧ (d ≠ 0 → t.cur.mask d = s.rd r) ∧
      (∀ k, k ≠ d → t.cur.mask k = s.cur.mask k) ∧ Retired s t ∧ UnitFrame Ctx.noMasks s t []) ∧
    (s.misuse [] [r] = false →
      exec (.ktox g r e) s = .next ((s.wr r (s.cur.mask e)).retire) ∧
      exec (.kpop g r e) s = .next ((s.wr r (BitVec.ofNat 64 ((List.range 64).filter fun j => (s.cur.mask e).getLsbD j).length)).retire) ∧
      exec (.kfirst g r e) s =
        .next ((s.wr r (BitVec.ofNat 64 ((List.range 64).takeWhile fun j => !(s.cur.mask e).getLsbD j).length)).retire)) ∧
    (∀ l k z : BitVec 5, (l ≠ 0 → l.toNat ≤ 16 → (s.here.level = 1 → l.toNat ≤ 8) → s.cur.frame = none →
        ∃ t : State, exec (.repv g l k z) s = .next t ∧
          t.cur.frame = some { start := s.iss.npc, len := l.toNat, count := k.toNat + 1, stag := z.toNat, r := 0, pos := 0 } ∧
          t.cur.pc = s.iss.npc ∧ t.cur.instret = s.cur.instret + 1 ∧ UnitFrame id s t []) ∧
      (l = 0 ∨ 16 < l.toNat ∨ (s.here.level = 1 ∧ 8 < l.toNat) ∨ s.cur.frame.isSome = true → exec (.repv g l k z) s = .next (s.trap 2 0))) ∧
    (∀ (i : BitVec 1) (ty : BitVec 5) (n : Nat), s.cur.lease[i.toNat]? = some n →
      ∃ t : State, exec (.tcfg g i ty) s = .next t ∧ (t.here.tile n).ty = ty.toNat ∧ (∀ m, m ≠ n → t.here.tile m = s.here.tile m) ∧
        Retired s t ∧ SameBytes s t ∧ SameRegs s t [])

/-- Moves, conversion, packing, reductions, permutes and scans of rows (R223 to R228): what each lane of the destination holds. VSCANC's
flags are not stated here (log 17); its zero is log 51's and its NV log 8's; conversions between floats of one width, and of integers to
floats, follow logs 52 and 53 (DEDUCED), and the limits of a scan that REPV steps log 67. -/
def Obligations.VectorMovesResult : Prop :=
  ∀ (s : State) (g : GReg) (k : KReg) (d a b : VReg) (r : XReg) (i : BitVec 5) (pd pa pb : Nat), MemOk s →
    s.cur.phys (s.vr d) = some pd → s.cur.phys (s.vr a) = some pa → s.cur.phys (s.vr b) = some pb →
    let ty := s.ty pa
    let n := laneCount ty
    let w := laneBits ty
    let f := fmtOf ty
    let x := s.lane pa
    let done := fun (i : Instr) (v : Nat → Nat) =>
      ∃ t : State, exec i s = .next t ∧ (∀ l < laneCount (s.ty pd), t.lane pd l = v l) ∧ t.cur.fcsr = s.cur.fcsr ∧ Retired s t ∧
        SameBytesBut s t (tileKey s.iss.core (pd / 16) (pd % 16)) 64 ∧ SameRegs s t []
    (s.misuse [r] [] = false → done (.vbcx g d r) (fun _ => (s.rd r).toNat % 2 ^ laneBits (s.ty pd))) ∧
    (s.misuse [] [r] = false → i.toNat < n →
      exec (.vmvx g r a i) s = .next ((s.wr r (BitVec.ofInt 64 (BitVec.ofNat w (x i.toNat)).toInt)).retire)) ∧
    (s.misuse [] [r] = false → n ≤ i.toNat → exec (.vmvx g r a i) s = .next (s.trap 8 0)) ∧
    (s.misuse [r] [] = false → i.toNat < laneCount (s.ty pd) →
      done (.vmxv g d r i) (fun l => if l = i.toNat then (s.rd r).toNat % 2 ^ laneBits (s.ty pd) else s.lane pd l)) ∧
    (∃ t : State, exec (.vpack g d a b) s = .next t ∧ rowField (t.row pd) 0 256 = rowField (s.row pa) 0 256 ∧
      rowField (t.row pd) 256 256 = rowField (s.row pb) 0 256 ∧ Retired s t ∧ RowFrame s t pd) ∧
    (∀ (sat : BitVec 1) (c : BitVec 4), s.cur.fcsr.toNat < 128 → elemBytes c.toNat * 8 ≤ w →
      let quirk := s.here.level == 2 && s.here.compat.testBit 8 && ty == 1 && c == 4 && sat == 1
      let v := fun l => cvtElem ty c.toNat (s.cur.fcsr.toNat / 32) (sat == 1) quirk (x l)
      let e := elemBytes c.toNat * 8
      ∃ t : State, exec (.vcvt g d a sat c) s = .next t ∧ (∀ l < n, rowField (t.row pd) (l * e) e = (v l).1 % 2 ^ e) ∧
        (∀ j, n * e ≤ j → (t.row pd).getLsbD j = false) ∧ LaneFlags s t n (fun l => (v l).2) ∧ Retired s t ∧ RowFrame s t pd) ∧
    (∀ (p : BitVec 2) (c : BitVec 3), let m := laneCount (s.ty pd)
      let e := elemBytes c.toNat
      (p.toNat + 1) * m * e ≤ 64 → isFloat c.toNat ≠ (s.ty pd == 8) → 8 * e ≤ laneBits (s.ty pd) →
      let v := fun l => cvtElem c.toNat (s.ty pd) 0 false false (rowField (s.row pa) ((p.toNat * m + l) * e * 8) (e * 8))
      ∃ t : State, exec (.vunpack g d a p c) s = .next t ∧ (∀ l < m, t.lane pd l = (v l).1 % 2 ^ laneBits (s.ty pd)) ∧
        LaneFlags s t m (fun l => (v l).2) ∧ Retired s t ∧ RowFrame s t pd) ∧
    (s.ty pd = ty →
      (ty = 8 → done (.vrsum g d a) (fun l => if l = 0 then ((List.range 16).map x).sum % 2 ^ 32 else 0)) ∧
      (ty ≠ 8 → s.cur.fcsr.toNat < 128 → ∃ t : State, exec (.vrsum g d a) s = .next t ∧
        t.lane pd 0 = (sumTree (fun p q => f.add (s.cur.fcsr.toNat / 32) (f.decode p) (f.decode q)) (if n = 32 then 5 else 4)
          ((List.range n).map x)).1 % 2 ^ w ∧ (∀ l, 0 < l → l < n → t.lane pd l = 0) ∧ Retired s t ∧ RowFrame s t pd) ∧
      (ty = 8 → ∃ j < 16, (∀ l < 16, (BitVec.ofNat 32 (x l)).toInt ≤ (BitVec.ofNat 32 (x j)).toInt) ∧
        done (.vrmax g d a) (fun l => if l = 0 then x j else 0)) ∧
      (ty ≠ 8 → (∀ l < n, (f.decode (x l)).isNan = false) → ∃ j < n, (∀ l < n, (f.decode (x j)).lt (f.decode (x l)) = false) ∧
        done (.vrmax g d a) (fun l => if l = 0 then x j else 0)) ∧
      done (.vperm g d a b) (fun l => x (rowField (s.row pb) (8 * l) 8 % n)) ∧
      done (.vslide g d a i) (fun l => if 0 ≤ (l : Int) + i.toInt ∧ (l : Int) + i.toInt < n then x ((l : Int) + i.toInt).toNat else 0) ∧
      (i.toNat < n → done (.vbcast g d a i) (fun _ => x i.toNat))) ∧
    (∀ pe pr, s.cur.phys (s.vr a + 1) = some pe → s.cur.phys (s.vr d / 16 * 16 + (s.vr d + 15) % 16) = some pr →
      (∀ p ∈ [pd, pa, pe, pr], s.ty p = 1) → ∀ e ∈ ([.vscan g d a k, .vscanL1 g d a k] : List Instr),
      ∃ t : State, exec e s = .next t ∧ (∀ l < 16, t.lane pd l =
        (f32.fma 0 (f32.decode (x l)) (f32.decode (if (s.cur.mask k).getLsbD l then 0 else if l = 0 then s.lane pr 15 else t.lane pd (l - 1)))
          (f32.decode (s.lane pe l))).1) ∧ Retired s t ∧ RowFrame s t pd) ∧
    (∀ pe pq ph pl, s.cur.phys (s.vr a + 1) = some pe → s.cur.phys (s.vr d + 1) = some pq →
      s.cur.phys (s.vr d / 16 * 16 + (s.vr d + 14) % 16) = some ph → s.cur.phys (s.vr d / 16 * 16 + (s.vr d + 15) % 16) = some pl →
      (∀ p ∈ [pd, pq, pa, pe, ph, pl], s.ty p = 1) →
      ∃ t : State, exec (.vscanc g d a k) s = .next t ∧ Retired s t ∧ SameRegs s t [] ∧ (∀ l < 16,
        let z := (s.cur.mask k).getLsbD l
        let hi := if z then 0 else if l = 0 then s.lane ph 15 else t.lane pd (l - 1)
        let lo := if z then 0 else if l = 0 then s.lane pl 15 else t.lane pq (l - 1)
        t.lane pd l = (pairStep (x l) hi lo (s.lane pe l)).1 ∧ t.lane pq l = (pairStep (x l) hi lo (s.lane pe l)).2.1) ∧
        ∀ q, (∀ p ∈ [pd, pq], q < tileKey s.iss.core (p / 16) (p % 16) ∨ tileKey s.iss.core (p / 16) (p % 16) + 64 ≤ q) →
          memGet t.mem q = memGet s.mem q)

/-- Rows and memory (R64, R65, R77, R90, R220 to R222) and the special function unit (R230): a row load leaves its row pending and issues
its requests with the lanes' addresses, a row store issues its lanes' data, the higher lane prevailing at one address. A whole row has
granules of 8 bytes, with a bank's format of as many lanes as they hold, and an element access has one for each lane; a granule that is
performed, in any order, takes its bytes, converted where its bank has a format, and with the last one of a load the row is written in
exactly the lanes that have come; a granule of a store writes its lanes, converted likewise. An SFU instruction queues its source row, its
service computes every lane, and its result is written with its flags. SFU lanes of f16 and bf16 are rounded through f32 (log 18); the
moment whose bank format sizes a row access is log 54's, a format of 9 to 15 log 58's, the region of X(xa) log 68's, and the page that
bounds a strided access log 69's. -/
def Obligations.RowsAndMemoryResult : Prop :=
  ∀ (s : State) (g : GReg) (d e : VReg) (a b : XReg) (pd : Nat), s.cur.phys (s.vr d) = some pd →
    let ty := s.ty pd
    let n := laneCount ty
    (∀ p x y, s.misuse [a] [] = false →
      let va := s.rd a + BitVec.ofNat 64 (s.replay * s.rowBytes ty (s.rd a))
      let k := s.rowBytes ty va
      s.holdsBack p.key k = false →
      (s.access s.iss.core va k k false [0, 1] true true = .ok p x y →
        ∃ (t : State) (j : Join), exec (.vld g d a) s = .next t ∧ Issued s t p va (s.pathOf p true va.toNat) (.rowLd s.nextReq ty [] true none) ∧
          t.joins = s.joins ++ [j] ∧ j.id = s.nextReq ∧ j.row = pd ∧ j.left = 1 ∧ j.mask = 0 ∧ pd ∈ t.cur.pendV ∧ Retired s t ∧
          SameBytes s t ∧ SameRegs s t []) ∧
      (s.access s.iss.core va k k true [0, 1] true false = .ok p x y →
        ∀ q ∈ ([(.vst g d a, 1), (.vstb g d a, 2)] : List (Instr × Nat)),
          ∃ t : State, exec q.1 s = .next t ∧
            Issued s t p va (if p.home = .core s.iss.core then 0 else q.2) (.rowSt ty (s.row pd) [] true none) ∧
            Retired s t ∧ SameBytes s t ∧ SameRegs s t [])) ∧
    (∀ p x y, s.misuse [a, b] [] = false →
      let va := s.rd a + BitVec.ofNat 64 (s.replay * s.elemAt ty (s.rd a))
      let z := s.elemAt ty va
      let off := fun l : Nat => BitVec.ofNat 64 l * s.rd b
      let key := fun l : Nat => laneKey s.iss.core p va (va + off l)
      (∀ l < n, (va + off l).toNat % z = 0 ∧ sameUnit s.iss.core va (va + off l) = true ∧ s.holdsBack (key l) z = false) →
      s.holdsBack p.key z = false →
      (s.access s.iss.core va z 1 false [0, 1] true true = .ok p x y →
        ∃ (t : State) (rs : List Req), exec (.vlds g d a b) s = .next t ∧ t.reqs = s.reqs ++ rs ∧ pd ∈ t.cur.pendV ∧ Retired s t ∧
          SameBytes s t ∧ SameRegs s t [] ∧
          (∀ r ∈ rs, ∃ els, r.op = .rowLd s.nextReq ty els false none ∧ ∀ q ∈ els, q.1 < n ∧ q.2 = key q.1) ∧
          ∀ l < n, ∃ r ∈ rs, ∃ els, r.op = .rowLd s.nextReq ty els false none ∧ (l, key l) ∈ els) ∧
      (s.access s.iss.core va z 1 true [0, 1] true false = .ok p x y →
        ∃ (t : State) (rs : List Req), exec (.vsts g d a b) s = .next t ∧ t.reqs = s.reqs ++ rs ∧ Retired s t ∧ SameBytes s t ∧ SameRegs s t [] ∧
          (∀ r ∈ rs, ∃ els, r.op = .rowSt ty (s.row pd) els false none ∧ ∀ q ∈ els, q.1 < n ∧ q.2 = key q.1 ∧
            ∀ m, q.1 < m → m < n → key m ≠ q.2) ∧
          ∀ l < n, (∀ m, l < m → m < n → key m ≠ key l) → ∃ r ∈ rs, ∃ els, r.op = .rowSt ty (s.row pd) els false none ∧ (l, key l) ∈ els)) ∧
    (∀ pe c off, s.cur.phys (s.vr e) = some pe → s.ty pe = 8 → n = 16 → s.misuse [a] [] = false →
      classify s.iss.core (s.rd a) = .window c 0 off → off < 2 ^ 18 → c ∈ (s.teamOf s.iss.core).cores →
      let o := fun l : Nat => (off : Int) + (BitVec.ofNat 32 (s.lane pe l)).toInt
      let fm := fun l => s.keyFmt (.core c) (winKey c 0 (o l).toNat)
      (∀ l < 16, 0 ≤ o l ∧ o l < 2 ^ 18 ∧ (o l).toNat % (if fm l = 0 then 4 else elemBytes (fm l)) = 0 ∧
        s.holdsBack (winKey c 0 (o l).toNat) 4 = false) →
      (∃ (t : State) (r : Req), exec (.vgath g d a e) s = .next t ∧ t.reqs = s.reqs ++ [r] ∧ r.home = .core c ∧
        r.op = .rowLd s.nextReq ty ((List.range 16).map fun l => (l, winKey c 0 (o l).toNat)) false none ∧ pd ∈ t.cur.pendV ∧
        Retired s t ∧ SameBytes s t ∧ SameRegs s t []) ∧
      ∃ (t : State) (r : Req) (els : List (Nat × Nat)), exec (.vscat g d a e) s = .next t ∧ t.reqs = s.reqs ++ [r] ∧ r.home = .core c ∧
        r.op = .rowSt ty (s.row pd) els false none ∧ Retired s t ∧ SameBytes s t ∧ SameRegs s t [] ∧
        ∀ q, q ∈ els ↔ q.1 < 16 ∧ q.2 = winKey c 0 (o q.1).toNat ∧ ∀ m, q.1 < m → m < 16 → o m ≠ o q.1) ∧
    (∀ h key y, (s.keyFmt h key = 0 → s.expand h key y [] true = (List.range 8).map fun i => { addr := key + 8 * i, n := 8, off := 8 * i, fmt := 0 }) ∧
      (∀ f ∈ [1, 2, 3, 4, 5, 7, 8], s.keyFmt h key = f → s.expand h key y [] true =
        (List.range (laneCount y * elemBytes f / 8)).map fun i => { addr := key + 8 * i, n := 8, off := i * (8 / elemBytes f), fmt := f }) ∧
      ∀ els, (s.expand h key y els false).length = els.length ∧ ∀ q ∈ els, ∃ p ∈ s.expand h key y els false, p.addr = q.2 ∧ p.fmt = s.keyFmt h q.2 ∧
        (p.fmt = 0 → p.n = laneBits y / 8 ∧ p.off = q.1 * (laneBits y / 8)) ∧ (p.fmt ≠ 0 → p.n = elemBytes p.fmt ∧ p.off = q.1)) ∧
    (∀ r y els w ps j p, MemOk s → s.req r.id = some r → r.st = 1 ∨ r.st = 3 → s.behind r = false → s.turnOf r = true → r.bad = false →
      s.refused r = false → s.meetsOwned (s.begin r) j = false → ps[j]? = some p →
      (∃ n, r.home = .core n ∧ p.addr / 2 ^ 27 % 8 < 2) ∨ r.home = .host ∨
        (∃ q k, r.home = .slice q k ∧ r.slot = 0 ∧ s.named q p.addr = true ∧ ∀ e ∈ s.l2, ∀ l ∈ e.2, l.slot = 0) →
      (p.fmt ≠ 0 → p.fmt ∈ [1, 2, 3, 4, 5, 7, 8] ∧ p.n % elemBytes p.fmt = 0) →
      let z := if p.fmt = 0 then 8 else laneBits y
      let size := if p.fmt = 0 then 1 else elemBytes p.fmt
      p.off + p.n / size ≤ 512 / z → y < 9 →
      (∀ d, (s.begin r).op = .rowSt y d els w (some ps) →
        ∃ t : State, exec (.homePerform r.home r.id j) s = .next t ∧ SameBytesBut s t p.addr p.n ∧
          (∀ i < p.n / size, memNat t.mem (p.addr + i * size) size =
            (if p.fmt = 0 then rowField d ((p.off + i) * z) z else (cvtRow y p.fmt (rowField d ((p.off + i) * z) z)).1 % 256 ^ size)) ∧
          (ps.length = 1 → t.req r.id = none) ∧
          (1 < ps.length → ∃ q, t.req r.id = some q ∧ q.op = .rowSt y d els w (some (ps.eraseIdx j)))) ∧
      (∀ id k, (s.begin r).op = .rowLd id y els w (some ps) → s.joins.find? (·.id == id) = some k → s.rowTrap r p = none → k.poison = none →
        let came := fun i => if p.fmt = 0 then memNat s.mem (p.addr + i) 1 else (cvtRow p.fmt y (memNat s.mem (p.addr + i * size) size)).1 % 2 ^ z
        let lands := fun (old new : Row) => (∀ i < p.n / size, rowField new ((p.off + i) * z) z = came i) ∧
          ∀ i < 512 / z, i < p.off ∨ p.off + p.n / size ≤ i → rowField new (i * z) z = rowField old (i * z) z
        (1 < ps.length → ∃ (t : State) (q : Req) (v : Join), exec (.homePerform r.home r.id j) s = .next t ∧ t.req r.id = some q ∧
          q.op = .rowLd id y els w (some (ps.eraseIdx j)) ∧ t.joins.find? (·.id == id) = some v ∧ v.left = k.left ∧ v.row = k.row ∧
          lands k.data v.data ∧ (∀ i < p.n / size, rowField v.mask ((p.off + i) * z) z = 2 ^ z - 1) ∧ SameBytes s t) ∧
        (∀ n x, ps.length = 1 → k.left = 1 → s.holder k.uid = some (n, x) →
          ∃ t : State, exec (.homePerform r.home r.id j) s = .next t ∧ t.req r.id = none ∧ (∀ v ∈ t.joins, v.id ≠ id) ∧
            (t.ctxAt n x).pendV = (s.ctxAt n x).pendV.erase k.row ∧
            SameBytesBut s t (tileKey n (k.row / 16) (k.row % 16)) 64 ∧
            (∀ i < p.n / size, rowField (t.rowAt n k.row) ((p.off + i) * z) z = came i) ∧
            ∀ i < 512 / z, i < p.off ∨ p.off + p.n / size ≤ i →
              (rowField k.mask (i * z) z = 0 → rowField (t.rowAt n k.row) (i * z) z = rowField (s.rowAt n k.row) (i * z) z) ∧
              (rowField k.mask (i * z) z = 2 ^ z - 1 → rowField (t.rowAt n k.row) (i * z) z = rowField k.data (i * z) z)))) ∧
    (∀ pe, s.cur.phys (s.vr e) = some pe → s.ty pe = ty → ty ≠ 8 → s.here.sfuq.length < 8 →
      ∀ q ∈ ([(.vexp2 g d e, 0), (.vlog2 g d e, 1), (.vrcp g d e, 2), (.vrsq g d e, 3), (.vsqrt g d e, 4), (.vtanh g d e, 5)] : List (Instr × Nat)),
        ∃ (t : State) (f : SfuEntry), exec q.1 s = .next t ∧ t.here.sfuq = s.here.sfuq ++ [f] ∧ f.fn = q.2 ∧ f.ty = ty ∧ f.row = pd ∧
          f.data = s.row pe ∧ f.uid = s.cur.uid ∧ pd ∈ t.cur.pendV ∧ Retired s t ∧ SameBytes s t ∧ SameRegs s t []) ∧
    (∀ c f l, (s.core c).sfuq = f :: l →
      ∃ (t : State) (r : SfuRes), exec (.sfuService c) s = .next t ∧ (t.core c).sfuq = l ∧ (t.core c).sfuPipe = (s.core c).sfuPipe ++ [r] ∧
        r.row = f.row ∧ r.uid = f.uid ∧ SameBytes s t ∧ ∀ i < laneCount f.ty,
          rowField r.data (i * laneBits f.ty) (laneBits f.ty) =
            (sfuLane f.fn f.ty (rowField f.data (i * laneBits f.ty) (laneBits f.ty))).1 % 2 ^ laneBits f.ty) ∧
    (∀ c i r x, MemOk s → (s.core c).sfuPipe[i]? = some r → s.whereIs r.uid = some (c, x) → (s.ctxAt c x).uid = r.uid →
      ¬((s.teamOf c).phase = .stopping ∧ (s.teamOf c).saving = true) → (s.ctxAt c x).st ≠ .parked → (s.ctxAt c x).st ≠ .ecall →
      ∃ t : State, exec (.sfuResultWrite c i) s = .next t ∧ t.rowAt c r.row = r.data ∧ (t.core c).sfuPipe = (s.core c).sfuPipe.eraseIdx i ∧
        (t.ctxAt c x).pendV = (s.ctxAt c x).pendV.erase r.row ∧ (∀ j < 5, r.flags.getLsbD j = true → (t.ctxAt c x).fcsr.getLsbD j = true) ∧
        SameBytesBut s t (tileKey c (r.row / 16) (r.row % 16)) 64)

/-- Matrix instructions (R103 to R105, R239 to R250): WLD and WLDS fill a slot with the record of their load and the aligned columns of the
B they read, a sparse one's missing blocks as zeros; MMA, GMMA, ACCZ, ACCLD and ACCST pass their checks and enter the engine behind the
operations before them, GMMA with the next number of its core, whether it leads its course or not. MMA enters with the dot product of every
row of A and column of B that is on, over the depths that are on, in i8 the plain sum of products modulo 2^32; a leading GMMA with A as it
is read; ACCLD with the elements it reads, converted from its bank's format; ACCST with the places it writes to and the tile type and
rounding of its issue. Choices by log 27; that rows and elements which are off are not checked is log 71's. -/
def Obligations.MatrixInstructionsResult : Prop :=
  ∀ (s : State) (g : GReg) (t : BitVec 1) (a b : XReg) (k : KReg) (m : BitVec 4) (tile off : Nat), s.cur.lease[t.toNat]? = some tile →
    s.misuse [a, b] [] = false →
    let w := s.rd b
    let mask := s.cur.mask k
    let sl := s.here.slot (wSlot w)
    let ty := (s.here.tile tile).ty
    let scs := if m = 0 then [] else [(wScale w * 4, if m = 1 then 32 else 96)]
    let enters := fun (i : Instr) (x : Option Nat) (op : TileOp → Prop) => ∃ (u : State) (q : MatOp), exec i s = .next u ∧
      u.here.mat = s.here.mat ++ [q] ∧ q.tile = tile ∧ q.uid = s.cur.uid ∧ q.gang = x ∧ op q.op ∧ Retired s u ∧ SameBytes s u ∧ SameRegs s u []
    let on2 := fun i j : Nat => mask.getLsbD i && mask.getLsbD (16 + j)
    let area := if m = 0 then [] else s.spadAt (wScale w * 4) (if m = 1 then 32 else 96)
    let pair := fun l i : Nat => area.getD (l + 2 * i) 0 + 256 * area.getD (l + 2 * i + 1) 0
    (s.cmWaits false [] = false → ∃ (u : State) (q : MatOp), exec (.accz g t k) s = .next u ∧ u.here.mat = s.here.mat ++ [q] ∧ q.tile = tile ∧
      q.op = .zero ((List.range 256).map fun p => mask.getLsbD (p / 16) && mask.getLsbD (16 + p % 16)) ∧ Retired s u ∧ SameBytes s u) ∧
    (s.iss.core % 4 ≠ 0 → s.inGang = true → s.cmWaits true scs = false → (∀ r ∈ scs, fitsSpad r = true) → sl.size = 1 ∨ sl.size = 2 →
      (∃ f < 9, pairOk m.toNat f sl.fmt sl.mode ty = true) → opWordBad w (m != 0) true true false = false →
      enters (.gmma g t a b k m) (some s.here.gangNo) fun o => ∃ f rows, o = .gang mask m.toNat f rows area (wSlot w) ∧ ∀ i, rows.getD i none = none) ∧
    (classify s.iss.core (s.rd a) = .window s.iss.core 0 off → off < 2 ^ 18 →
      let fmt := s.here.bankFmt off
      let n := matRow fmt
      let dense := loadRanges fmt (wStride w) off false m.toNat (wScale w) 0
      let column := fun (v : Slot) (raw : Nat → Nat → Nat) => ∀ j < 16,
        let c := alignSet fmt ((List.range 16).map fun d =>
          elemVal fmt (raw d j) (if m = 2 then (s.spadAt (wScale w * 4) 32).getD (2 * j + d / 8) 0 else 0))
        v.els.getD j [] = c.1 ∧ v.exps.getD j 0 = c.2
      let quiet := fun (v : State) (rs : List (Nat × Nat)) => v.cmWaits false rs = false ∧ (∀ r ∈ rs, fitsSpad r = true ∧ v.spadBad r = false)
      (n ≠ 0 → quiet s dense → s.here.oneFmt fmt (dense.take 16) = true → (m = 2 ↔ fmt = 6) → (m = 1 → fmt = 4 ∨ fmt = 5) →
        opWordBad w (m == 2) true true false = false → (n = 32 → wSlot w % 2 = 0) → (s.rd a).toNat % n = 0 → wStride w % n = 0 →
        ∃ u : State, exec (.wld g t a b m) s = .next u ∧ (u.here.slot (wSlot w)).size = (if n = 32 then 2 else 1) ∧
          (u.here.slot (wSlot w)).fmt = fmt ∧ (u.here.slot (wSlot w)).mode = m.toNat ∧ (u.here.slot (wSlot w)).src = off ∧
          (n = 32 → (u.here.slot (wSlot w + 1)).size = 3) ∧ Retired s u ∧ SameBytes s u ∧ SameRegs s u [] ∧
          column (u.here.slot (wSlot w)) fun d j => (rawElems fmt (s.spadAt (off + d * wStride w) n)).getD j 0) ∧
      (let head := leNat ((s.spadAt off 8).map (BitVec.ofNat 8))
        let sparse := loadRanges fmt (wStride w) off true m.toNat (wScale w) ((List.range 16).filter head.testBit).length
        n ≠ 0 → quiet s sparse → s.here.oneFmt fmt (sparse.take 2) = true → (m = 2 ↔ fmt = 6) → (m = 1 → fmt = 4 ∨ fmt = 5) →
        opWordBad w (m == 2) false true false = false → (n = 32 → wSlot w % 2 = 0) → head < 2 ^ 16 → (s.rd a).toNat % 8 = 0 →
        ∃ u : State, exec (.wlds g t a b m) s = .next u ∧ (u.here.slot (wSlot w)).sparse = true ∧ (u.here.slot (wSlot w)).fmt = fmt ∧
          (u.here.slot (wSlot w)).size = (if n = 32 then 2 else 1) ∧ Retired s u ∧ SameBytes s u ∧ SameRegs s u [] ∧
          column (u.here.slot (wSlot w)) fun d j =>
            let e := 4 * (d / 4) + j / 4
            if head.testBit e then
              (rawElems fmt (s.spadAt (off + 8 + ((List.range e).filter head.testBit).length * n) n)).getD (4 * (d % 4) + j % 4) 0
            else 0) ∧
      (let on := (List.range 16).filter mask.getLsbD
        let fa := s.here.bankFmt (off + on.headD 0 * wStride w)
        let na := matRow fa
        let rows := rowsAt off (wStride w) na on
        na ≠ 0 → s.cmWaits false (rows ++ scs) = false → (∀ r ∈ rows ++ scs, fitsSpad r = true) → s.here.oneFmt fa rows = true →
        sl.size = 1 ∨ sl.size = 2 → pairOk m.toNat fa sl.fmt sl.mode ty = true →
        opWordBad w (m != 0) true true false = false → (s.rd a).toNat % na = 0 → wStride w % na = 0 →
        (∀ i < 16, ∀ d < 16, mask.getLsbD i = true → mask.getLsbD (32 + d) = true →
          s.spadBad (off + i * wStride w + (if fa = 6 then d / 2 else d * elemBytes fa), 1) = false) →
        let raw := fun i => rawElems fa (s.spadAt (off + i * wStride w) na)
        let kin := (List.range 16).filter fun d => mask.getLsbD (32 + d)
        let rowA := fun i => alignSet fa (kin.map fun d => elemVal fa ((raw i).getD d 0) (area.getD (2 * i + d / 8) 0))
        let el := fun j d => (sl.els.getD j []).getD d { cls := 0, neg := false, mag := 0 }
        let dot := fun i j => let l := (rowA i).1.zip (kin.map (el j))
          if fa = 7 then dotInt l
          else dotFloat l ((rowA i).2 + sl.exps.getD j 0 - ((alignWidth fa : Int) - 1 + ((alignWidth sl.fmt : Int) - 1)))
        (enters (.mma g t a b k m) none fun o => ∃ p sA sB, o = .mac m.toNat (fa == 7) p sA sB ∧
          (∀ i < 16, ∀ j < 16, p.getD (16 * i + j) none = if on2 i j then some (dot i j) else none) ∧
          (m = 1 → ∀ i < 16, sA.getD i 0 = area.getD i 0 ∧ sB.getD i 0 = area.getD (16 + i) 0) ∧
          (m = 2 → ∀ i < 16, sA.getD i 0 = (if fa = 6 then pair 32 i else 0x3F80) ∧ sB.getD i 0 = (if sl.fmt = 6 then pair 64 i else 0x3F80))) ∧
        (fa = 7 → ∀ i j, dot i j < 2 ^ 32 ∧ (dot i j : Int) % 2 ^ 32 = (kin.map fun d =>
          (BitVec.ofNat 8 ((raw i).getD d 0)).toInt * (if (el j d).neg then -((el j d).mag : Int) else (el j d).mag)).sum % 2 ^ 32) ∧
        (s.inGang = true → s.iss.core % 4 = 0 → enters (.gmma g t a b k m) (some s.here.gangNo) fun o =>
          ∃ rows, o = .gang mask m.toNat fa rows area (wSlot w) ∧
            ∀ i < 16, rows.getD i none = if mask.getLsbD i then some (raw i) else none)) ∧
      (let e := if fmt = 0 then 4 else elemBytes fmt
        let lit := (List.range 256).filter fun p => mask.getLsbD (p / 16) && mask.getLsbD (16 + p % 16)
        let rs := lit.map fun p => (off + p / 16 * wStride w + p % 16 * e, e)
        quiet s rs → ty = 1 ∨ ty = 8 → fmt ≠ 6 → fmt ≤ 8 → s.here.oneFmt fmt rs = true → opWordBad w false true false false = false →
        (s.rd a).toNat % e = 0 → wStride w % e = 0 → enters (.accld g t a b k) none fun o => ∃ v, o = .load v ∧ ∀ p < 256,
          let raw := memNat s.mem (winKey s.iss.core 0 (off + p / 16 * wStride w + p % 16 * e)) e
          v.getD p none = if on2 (p / 16) (p % 16) then some (if fmt = 0 then raw else (cvtRow fmt ty raw).1) else none) ∧
      (s.cmWaits false [] = false →
        let fm := bitsOf w 35 32
        ty = 1 ∨ ty = 8 → opWordBad w false true false true = false → fm ∈ [1, 2, 3, 4, 5, 7, 8] →
        (if bitsOf w 38 36 = 7 then s.cur.fcsr.toNat / 32 else bitsOf w 38 36) < 4 → (s.rd a).toNat % elemBytes fm = 0 →
        wStride w % elemBytes fm = 0 →
        (∀ p < 256, mask.getLsbD (p / 16) = true → mask.getLsbD (16 + p % 16) = true →
          off + p / 16 * wStride w + p % 16 * elemBytes fm + elemBytes fm ≤ 2 ^ 18) →
        enters (.accst g t a b k) none fun o => ∃ els,
          o = .store els ty fm (if bitsOf w 38 36 = 7 then s.cur.fcsr.toNat / 32 else bitsOf w 38 36) (w.getLsbD 39) ∧ ∀ p < 256, els.getD p none =
            if on2 (p / 16) (p % 16) then some (winKey s.iss.core 0 (off + p / 16 * wStride w + p % 16 * elemBytes fm)) else none))

/-- TILE_WRITE and GANG_OPERATION (R104 to R106, R244, R246 to R248): the oldest operation acts on its tile alone, zeroing, loading or
adding to exactly the elements that are on; a gang operation all of whose four GMMA agree begins on every core. Choices by log 27; a stored
element is converted as logs 52 and 53 have it (DEDUCED). -/
def Obligations.TileWriteResult : Prop :=
  (∀ (s : State) (c : Nat) (m : MatOp) (l : List MatOp), MemOk s → (s.core c).mat = m :: l → m.gang = none → s.tileAmid c m.tile = false →
    let frame := fun (t : State) => (t.core c).mat = l ∧ t.reqs = s.reqs ∧
      ∀ q, q < tileKey c m.tile 0 ∨ tileKey c m.tile 0 + 1024 ≤ q → memGet t.mem q = memGet s.mem q
    (∀ v : List Bool, m.op = .zero v → ∃ t : State, exec (.tileWrite c) s = .next t ∧ frame t ∧ ((t.core c).tile m.tile).count = 0 ∧
      ∀ p < 256, t.acc c m.tile p = if v.getD p false then 0 else s.acc c m.tile p) ∧
    (∀ v : List (Option Nat), m.op = .load v → ∃ t : State, exec (.tileWrite c) s = .next t ∧ frame t ∧ ((t.core c).tile m.tile).count = 0 ∧
      ∀ p < 256, t.acc c m.tile p = (match v.getD p none with | some x => x % 2 ^ 32 | none => s.acc c m.tile p)) ∧
    (∀ (int : Bool) (p : List (Option Nat)) (x y : List Nat), m.op = .mac 0 int p x y → ((s.core c).tile m.tile).count = 0 →
      ∃ t : State, exec (.tileWrite c) s = .next t ∧ frame t ∧ ∀ i < 256, t.acc c m.tile i = (match p.getD i none with
        | some v => if int then (s.acc c m.tile i + v) % 2 ^ 32
            else (f32.add 0 (f32.decode (s.acc c m.tile i)) (f32.decode v)).1 % 2 ^ 32
        | none => s.acc c m.tile i)) ∧
    (∀ (els : List (Option Nat)) (ty fmt rm : Nat) (sat : Bool), m.op = .store els ty fmt rm sat → ((s.core c).tile m.tile).count = 0 →
      ∃ (t : State) (rs : List Req), exec (.tileWrite c) s = .next t ∧ t.reqs = s.reqs ++ rs ∧ SameBytes s t ∧ (t.core c).mat = l ∧
        ∀ p < 256, ∀ o, els.getD p none = some o → ∃ r ∈ rs, r.home = .core c ∧ r.addr = o ∧ r.cls = 0 ∧
          ∃ whole, r.op = .elem (leBytes (elemBytes fmt)
            (cvtElem ty fmt rm sat false (s.acc c m.tile p)).1) whole)) ∧
  (∀ (s : State) (q no : Nat) (x : Nat → MatOp) (k : Nat → Word) (md f : Nat → Nat) (r : Nat → List (Option (List Nat)))
      (z : Nat → List Nat) (o : Nat → Nat), (∀ e ∈ tabGet [] s.gangs q, e.no = no) → (tabGet [] s.gangs q).length = 4 →
    (∀ i < 4, (s.core (4 * q + i)).gangOp no = some (x i) ∧ (x i).op = .gang (k i) (md i) (f i) (r i) (z i) (o i) ∧
      (x i).accord = (x 0).accord ∧ (s.core (4 * q + i)).gangPair (some (x 0)) (x i) = true) →
    ∃ t : State, exec (.gangOperation q) s = .next t ∧ tabGet [] t.gangs q = [] ∧ SameBytes s t ∧
      ∀ i < 4, ∃ y ∈ (t.core (4 * q + i)).mat, y.id = (x i).id ∧ y.gang = none ∧ y.tile = (x i).tile ∧
        y.op = macOf (md i) (f 0) (r 0) (z 0) (k i) ((s.core (4 * q + i)).slot (o i)) (z i))

/-- Members start, run inline, migrate and finish (R33 to R39, R47, R48): the state a member starts with, the frame that an inline take
stores in the scratchpad by ordinary stores of the creator, the thread a migration installs once its load is performed, or leaves where it
stood with trap 0x0F of a poisoned word, and what a finished family writes. An inline member has a serial number of its own (log 23); inline
take waits for pending masks (log 30); a starting member takes the lowest free slot (log 49); what an inline member holds and leaves of
handlers and queues is logs 63 and 64. -/
def Obligations.FamilyEventsResult : Prop :=
  ∀ (s : State) (c x e : Nat),
    let f : FamRef := { core := c, ctx := x, entry := e }
    let g := s.fam f
    (∀ n tgt slot lease, s.canStart f = some (n, tgt, slot, lease) → s.outranked f tgt = false → (∀ h ∈ g.heldBad, h.1 ≠ n) →
      (1 ≤ slot ∧ slot ≤ 15 ∧ (s.ctxAt tgt slot).uid = 0 ∧ n < g.desc.count ∧ (s.teamOf tgt).faulted = false ∧
        lease.length = g.desc.vclass ∧ ∀ y ∈ (s.core tgt).ctxs, ∀ q ∈ lease, q ∉ y.2.lease) ∧
      ∃ t : State, exec (.memberStart c x e) s = .next t ∧
        let k := t.ctxAt tgt slot
        k.uid = s.nextUid ∧ k.kind = 1 ∧ k.member = n ∧ k.fam = some f ∧ k.lease = lease ∧ k.g = 1 ∧ k.fcsr = 0 ∧ k.instret = 0 ∧
        k.pc = (s.core tgt).abase + BitVec.ofNat 64 g.desc.entry ∧ k.regAt 10 = g.desc.index n ∧ k.regAt 15 = g.desc.arg ∧
        (g.coverage = none → k.regAt 4 = BitVec.ofNat 64 (tgt * 16 + slot)) ∧ (∀ r, r ∉ [4, 10, 11, 12, 13, 14, 15] → k.regAt r = 0) ∧
        (∀ j < 4, g.desc.links ≤ j → k.regAt (11 + j) = 0 ∧ k.fe.getLsbD (11 + j) = true) ∧
        (∀ j < 4, j < g.desc.links → (∀ h ∈ g.held, ¬(h.1 = n ∧ h.2.1 = j)) → k.fe.getLsbD (11 + j) = false) ∧
        (n, tgt, slot, s.nextUid) ∈ (t.fam f).running ∧ (g.desc.perf = false → (t.fam f).next = n + 1) ∧
        (∀ q ∈ lease, ((t.core tgt).tile q).ty = 1) ∧ (∀ m y, m ≠ tgt ∨ y ≠ slot → t.ctxAt m y = s.ctxAt m y) ∧ SameBytes s t) ∧
    (∀ h w, s.canInline c x = some h → (s.ctxAt c x).sync = some w →
      let k := s.ctxAt c x
      let key := frameKey c k.istk k.frames.length
      (8 ≤ k.frames.length → exec (.inlineMemberTake c x) s = .next (s.threadFault c x 0x14 k.istk w.upc)) ∧
      (k.frames.length < 8 → (∀ m ∈ (s.core c).mat, m.uid ≠ k.uid) → (∀ z ∈ (s.fam h).heldBad, z.1 ≠ (s.fam h).next) →
        (s.fam h).desc.perf = false →
        ∃ (t : State) (v : Saved) (rs : List Req) (full : Word), exec (.inlineMemberTake c x) s = .next t ∧
          let u := t.ctxAt c x
          u.uid = s.nextUid ∧ u.kind = 2 ∧ u.member = (s.fam h).next ∧ u.fam = some h ∧ u.st = .run ∧ u.frames = k.frames ++ [v] ∧
          u.inLh = false ∧ u.inEm = false ∧ v.uid = k.uid ∧ v.g = k.g ∧ v.k = k.k ∧ v.fcsr = k.fcsr ∧ v.sync = w ∧ v.inLh = k.inLh ∧
          v.inEm = k.inEm ∧
          u.pc = (s.core c).abase + BitVec.ofNat 64 (s.fam h).desc.entry ∧ u.reg 10 = (s.fam h).desc.index (s.fam h).next ∧
          u.reg 15 = (s.fam h).desc.arg ∧ SameBytes s t ∧ (t.fam h).next = (s.fam h).next + 1 ∧ t.reqs = s.reqs ++ rs ∧ rs.length = 32 ∧
          (∀ r : XReg, r ≠ 0 → full.getLsbD r.toNat = k.fe.getLsbD (k.tag r)) ∧
          ∀ i < 32, ∃ q, rs[i]? = some q ∧ q.uid = k.uid ∧ q.core = c ∧ q.cls = 0 ∧ q.st = 0 ∧ q.home = .core c ∧ q.addr = key + 8 * i ∧
            q.op = .store (leBytes 8 ((if i < 16 then k.reg (BitVec.ofNat 4 i) else if i = 16 then w.upc else if i = 17 then full else 0) :
              Word).toNat))) ∧
    (∀ n y w, g.live = true → g.over = true → g.grouted = true → s.famBusy f = false → s.whereIs g.uid = some (n, y) →
      (s.ctxAt n y).sync = some w → w.fam = f → 0 < w.dst → w.dst < 48 → (s.ctxAt n y).st = .fsync → g.desc.gang = false →
      ∃ t : State, exec (.familyFinish c x e) s = .next t ∧ (t.fam f).live = false ∧ (t.ctxAt n y).st = .run ∧ (t.ctxAt n y).sync = none ∧
        (t.ctxAt n y).regAt w.dst = BitVec.ofNat 64 ((match g.brk with | some m => m * 2 ^ 32 + 4 | none => 0) +
          (if g.marked then 3 else if g.killed then 2 else if g.brk.isSome then 1 else 0)) ∧
        (t.ctxAt n y).fe.getLsbD w.dst = true ∧ (t.ctxAt n y).instret = (s.ctxAt n y).instret + 1 ∧
        (g.finished = false → ∀ p ∈ g.desc.pts, 0 < p → p < 48 → (t.ctxAt n y).fe.getLsbD p = true) ∧ SameBytes s t) ∧
    (∀ r n, s.req r.id = some r → r.op = .mig → r.home = .core n → r.st = 1 ∨ r.st = 3 → s.behind r = false → s.turnOf r = true →
      s.refused r = false → s.meetsOwned r 0 = false →
      ∃ t : State, exec (.homePerform (.core n) r.id 0) s = .next t ∧ t.req r.id = none ∧ SameBytes s t ∧
        ∀ m ∈ s.migs, m.uid = r.uid →
          { m with got := some (BitVec.ofNat 64 (memNat s.mem r.addr 8), s.poisoned r.addr) } ∈ t.migs) ∧
    (∀ i m v, s.migs[i]? = some m → m.got = some (v, false) → 0 < m.reg → m.reg < 48 → m.reg ≠ 4 →
      ∃ t : State, exec (.migrationInstall i) s = .next t ∧ t.migs = s.migs.eraseIdx i ∧ (t.core m.toCore).recv = (s.core m.toCore).recv + 1 ∧
        let k := t.ctxAt m.toCore m.toCtx
        k.uid = m.ctx.uid ∧ k.pc = m.ctx.pc ∧ k.regAt m.reg = v ∧
        (k.regAt 4).toNat % 256 = (m.toCore * 16 + m.toCtx) % 256 ∧ (k.regAt 4).toNat / 256 = (m.ctx.regAt 4).toNat / 256 ∧
        (∀ r, r ≠ 4 → r ≠ m.reg → k.regAt r = m.ctx.regAt r) ∧ SameBytes s t ∧
        (∀ n y, n ≠ m.toCore ∨ y ≠ m.toCtx → t.ctxAt n y = s.ctxAt n y)) ∧
    (∀ i m v, s.migs[i]? = some m → m.got = some (v, true) →
      ∃ (t : State) (q : Raised), exec (.migrationInstall i) s = .next t ∧ t.migs = s.migs.eraseIdx i ∧ t.raised = s.raised ++ [q] ∧
        q.core = m.fromCore ∧ q.uid = m.ctx.uid ∧ q.cause = 0x0F ∧ q.value = BitVec.ofNat 64 m.addr ∧ q.upc = m.upc ∧ SameBytes s t ∧
        (t.ctxAt m.fromCore m.fromCtx).uid = m.ctx.uid ∧ (t.ctxAt m.fromCore m.fromCtx).x = m.ctx.x ∧
        (t.ctxAt m.fromCore m.fromCtx).pc = m.upc ∧ (t.ctxAt m.fromCore m.fromCtx).st = .ending)

/-- The life of a team (R24, R44, R52, R118, R309, R319, R322, R330 to R335, R359): dispatch gives a block a unit of free cores; co-start
starts one control thread on each; two agreeing waves make a halted, drained team complete and a stopped, drained faulted one faulted;
pre-emption stops a victim, which is saved, sealed under its sequence, or discarded once drained; a saved team whose image verifies is
loaded from it and goes on where it stood, and one whose image does not faults its launch; a scrub leaves zeros, and ends a pre-emption as
the release of a team that holds no sealed data does. Choices by log 32, 33 and 59. -/
def Obligations.TeamLifeResult : Prop :=
  ∀ (s : State) (l d t : Nat), s.up = true →
    let v := s.launch l
    let m := s.team t
    (∀ q r u, v.live = true → v.stamp.isSome = true → v.result = none → v.range d = q :: r → s.chosen v d = some u →
      (∀ c ∈ u, s.coreBusy c = false) ∧ ∃ z : State, exec (.teamDispatch l d) s = .next z ∧ (z.team s.nextTeam).phase = .loading ∧
        (z.team s.nextTeam).cores = u ∧ (z.team s.nextTeam).launch = l ∧ (z.team s.nextTeam).block = v.start + BitVec.ofNat 64 q.1 ∧
        (z.launch l).range d = (if q.1 + 1 < q.2 then (q.1 + 1, q.2) :: r else r) ∧ SameBytes s z ∧
        ∀ c ∈ u, (z.core c).team = some s.nextTeam ∧ (z.core c).cstate = 1 ∧ (z.core c).stop = true ∧ (z.core c).level = v.level ∧
          (z.core c).ctxs = []) ∧
    (m.phase = .loading → m.seq = 0 → m.cores.Nodup →
      ∃ z : State, exec (.teamCostart t) s = .next z ∧ (z.team t).phase = .running ∧ (z.team t).costart = s.cycle ∧
        (∀ c ∈ m.cores, (z.core c).stop = false ∧ (z.core c).cstate = 2 ∧ (z.ctxAt c 0).regAt 10 = m.block ∧
          (z.ctxAt c 0).regAt 15 = (s.launch m.launch).d 4 ∧ (z.ctxAt c 0).regAt 4 = BitVec.ofNat 64 (c * 16) ∧ s.nextUid ≤ (z.ctxAt c 0).uid ∧
          (z.ctxAt c 0).pc = (s.core c).abase + BitVec.ofNat 64 (s.launch m.launch).entryOff ∧ (z.ctxAt c 0).kind = 0 ∧
          ∀ y, y ≠ 0 → z.ctxAt c y = Ctx.empty) ∧
        (∀ c ∉ m.cores, z.core c = s.core c) ∧
        (∀ c, MemOk s → m.cores = [c] → c < 8192 → (s.launch m.launch).scratch ≤ 2 ^ 18 →
          let pt := s.vfPart (s.launch m.launch).vf
          let img := s.cells pt (partKey pt ((s.core c).abase.toNat + (s.launch m.launch).code) + 64) (s.launch m.launch).scratch
          ∀ i < 2 ^ 18, memGet z.mem (winKey c 0 i) = if i < (s.launch m.launch).scratch then img.getD i 0 else 0)) ∧
    (m.phase = .loading → m.seq ≠ 0 →
      ∃ z : State, exec (.teamCostart t) s = .next z ∧ (z.team t).phase = .running ∧ (z.team t).costart = s.cycle ∧
        (∀ c ∈ m.cores, (z.core c).stop = false ∧ (z.core c).cstate = 2) ∧
        ∀ c x, (z.ctxAt c x).x = (s.ctxAt c x).x ∧ (z.ctxAt c x).pc = (s.ctxAt c x).pc ∧ (z.ctxAt c x).uid = (s.ctxAt c x).uid) ∧
    (m.phase = .running ∨ m.phase = .stopping → m.lastWave + 256 ≤ s.cycle →
      let same := decide ((s.totals t).1 = (s.totals t).2) && decide (m.totals = some (s.totals t))
      (same = false → ∃ z : State, exec (.quiescenceWave t) s = .next z ∧ (z.team t).totals = some (s.totals t) ∧ (z.team t).agreed = false ∧
        (z.team t).phase = m.phase ∧ (z.team t).lastWave = m.lastWave + 256 ∧ z.cores = s.cores ∧ SameBytes s z) ∧
      (same = true → m.faulted = false → s.allHalted m = true → s.drained t = true → ∃ z : State, exec (.quiescenceWave t) s = .next z ∧
        (z.team t).phase = .complete ∧ (z.launch m.launch).done = (s.launch m.launch).done + 1 ∧ SameBytes s z ∧
        (∀ c ∈ m.cores, (z.core c).team = none ∧ (z.core c).ctxs = [] ∧ (z.core c).stop = (s.core c).stop) ∧
        (m.holding = false → ∀ k ∈ z.launches, k.2.pre ≠ some t)) ∧
      (same = true → s.drained t = false → ∃ z : State, exec (.quiescenceWave t) s = .next z ∧ (z.team t).phase = m.phase ∧
        (z.team t).agreed = true ∧ z.cores = s.cores ∧ SameBytes s z) ∧
      (same = true → m.faulted = true → (∀ c ∈ m.cores, (s.core c).stop = true) → s.drained t = true →
        ∃ z : State, exec (.quiescenceWave t) s = .next z ∧
        (z.team t).phase = .faulted ∧ (z.launch m.launch).result.isSome = true ∧ ∀ c ∈ m.cores, (z.core c).team = none ∧ (z.core c).flatch = [])) ∧
    (∀ c, (s.teamOf c).faulted = true → ∃ z : State, exec (.stopArrival c) s = .next z ∧ (z.core c).stop = true ∧ (z.core c).cstate = 3 ∧
      (z.core c).copyq = [] ∧ (z.core c).sfuq = [] ∧
      (∀ x, (z.ctxAt c x).x = (s.ctxAt c x).x ∧ (z.ctxAt c x).pc = (s.ctxAt c x).pc ∧ (z.ctxAt c x).trig = []) ∧
      (∀ n, n ≠ c → z.core n = s.core n) ∧ SameBytes s z) ∧
    (∀ w, v.live = true → v.stamp.isSome = true → v.result = none → v.blocksLeft ≠ 0 → v.preempting = false →
      (∀ u ∈ s.unitsFor v, s.unitFree u = false) → s.victimOf v = some w → (s.teams.map (·.1)).Nodup →
      ((s.team w).phase = .running ∧ (s.launch (s.team w).launch).prio < v.prio) ∧
      ∃ z : State, exec (.preemptionRequest l) s = .next z ∧ (z.launch l).pre = some w ∧ SameBytes s z ∧
        (∀ c ∈ (s.team w).cores, c ∈ (z.launch l).preLeft) ∧
        (s.verdict v w = .drain → (z.team w).phase = .running ∧ z.cores = s.cores) ∧
        (s.verdict v w ≠ .drain → (z.team w).phase = .stopping ∧ ((z.team w).saving = true ↔ s.verdict v w = .save) ∧
          ∀ c ∈ (s.team w).cores, (z.core c).stop = true)) ∧
    (m.phase = .stopping → m.saving = true → m.faulted = false → m.agreed = true → s.drained t = true →
      ∃ z : State, exec (.saveImageWrite t) s = .next z ∧ (z.team t).phase = .saved ∧ tabGet Image.none z.images t = s.image t s.nextOrd ∧
        (z.team t).seq = s.nextOrd ∧ chunksHold (tabGet 0 s.partKeys m.part) s.nextOrd (s.image t s.nextOrd).chunks = true ∧ SameBytes s z ∧
        ∀ c ∈ m.cores, (z.core c).team = none) ∧
    (m.phase = .stopping → m.saving = false → m.faulted = false → m.agreed = true → s.drained t = true →
      ∃ z : State, exec (.teamDiscard t) s = .next z ∧ (z.team t).phase = .discarded ∧ SameBytes s z ∧
        (z.launch m.launch).range m.die = (m.number, m.number + 1) :: (s.launch m.launch).range m.die ∧ ∀ c ∈ m.cores, (z.core c).team = none) ∧
    (s.mayResume t = true →
      let g := tabGet Image.none s.images t
      let holds := chunksHold (tabGet 0 s.partKeys m.part) m.seq g.chunks
      (g.seq = m.seq → holds = true → (g.cores.map (·.1)).Nodup → ∃ z : State, exec (.teamResume t) s = .next z ∧ (z.team t).phase = .loading ∧
        ∀ q ∈ g.cores, (z.core q.1).stop = true ∧ (z.core q.1).team = some t ∧ (z.core q.1).bfmt = q.2.bfmt ∧
          ∀ x, (z.ctxAt q.1 x).x = (q.2.ctx x).x ∧ (z.ctxAt q.1 x).pc = (q.2.ctx x).pc) ∧
      (g.seq ≠ m.seq ∨ holds = false → ∃ z : State, exec (.teamResume t) s = .next z ∧ (z.team t).phase = .faulted ∧ (z.launch m.launch).result.isSome = true)) ∧
    (m.scrub = true → ∃ z : State, exec (.holdingScrubComplete t) s = .next z ∧ (z.team t).scrub = false ∧
      (z.team t).holding = (m.holding && m.phase == .saved) ∧ (∀ k ∈ z.launches, k.2.pre ≠ some t) ∧
      ∀ c ∈ m.cores, c < 8192 → (z.core c).ctxs = [] ∧ (z.core c).slots = [] ∧ (z.core c).mbox = [] ∧
        (∀ i < 2 ^ 18, memGet z.mem (winKey c 0 i) = 0) ∧ (∀ i < 2 ^ 13, memGet z.mem (winKey c 1 i) = 0))

/-- Dyore's scheduler (R307 to R309, R323 to R329, R336, R362, R363): a doorbell submits records; the record at a ring's head is checked in
the order of R327; a launch is ready once its waits are met; a die without blocks steals half; a launch that has ended writes its completion
entry and raises its signal, or waits for room; the plug-in calls; the host's core controls. Choices by log 19, 31, 32 and 57. -/
def Obligations.SchedulerResult : Prop :=
  ∀ (s : State) (v r l d c : Nat), s.up = true →
    let q := (s.vf v).ring r
    let m := s.launch l
    let p := (s.vf v).plug
    (∀ idx, idx < 2 ^ 32 → q.bell < 2 ^ 32 → r < 8 →
      (s.bound v = true → bitsOf (s.vf v).hfver 23 16 ≠ 0 → cfgEn q.cfg = true → (idx + 2 ^ 32 - q.bell) % 2 ^ 32 ≤ 2 ^ cfgLg q.cfg →
        ∃ t : State, exec (.doorbell v r idx) s = .next t ∧ ((t.vf v).ring r).bell = idx ∧ ((t.vf v).ring r).head = q.head ∧
          (∀ i < (idx + 2 ^ 32 - q.bell) % 2 ^ 32, tabGet 0 ((t.vf v).ring r).times ((q.bell + i) % 2 ^ 32) = s.time) ∧ SameBytes s t) ∧
      (s.bound v = false ∨ bitsOf (s.vf v).hfver 23 16 = 0 ∨ cfgEn q.cfg = false ∨ 2 ^ cfgLg q.cfg < (idx + 2 ^ 32 - q.bell) % 2 ^ 32 →
        exec (.doorbell v r idx) s = .next s)) ∧
    (s.bound v = true → cfgEn q.cfg = true → q.head ≠ q.bell →
      ∃ t : State, exec (.launchRecordCheck v r) s = .next t ∧
        let k := t.launch s.nextLaunch
        let w := fun i => s.dword (hostBase + q.base.toNat + q.head % 2 ^ cfgLg q.cfg * 128) i
        k.live = true ∧ k.vf = v ∧ k.ring = r ∧ k.pos = q.head ∧ (∀ i < 16, k.d i = w i) ∧ k.ready = false ∧ k.stamp = none ∧
        ((t.vf v).ring r).head = (q.head + 1) % 2 ^ 32 ∧ t.nextLaunch = s.nextLaunch + 1 ∧ SameBytes s t ∧
        ((tabGet 0 s.troot v).getLsbD 63 = false → k.result = some (2, 14)) ∧
        ((tabGet 0 s.troot v).getLsbD 63 = true → bitsOf (w 0) 15 0 ≠ 3 → k.result = some (2, 1)) ∧
        (k.result = none → bitsOf (w 0) 15 0 = 3 ∧ bitsOf (w 0) 63 37 = 0 ∧ bitsOf (w 0) 23 16 ≤ 3 ∧ bitsOf (w 7) 15 0 ≤ 4095 ∧ (w 1).toNat % 64 = 0 ∧
          k.scratch ≤ 262144 ∧ k.entryOff < k.code ∧ k.handler < k.code ∧ 1 ≤ k.level ∧ k.level ≤ 3)) ∧
    (m.live = true → m.result = none → m.ready = false → s.waitsMet m = true →
      ∃ t : State, exec (.launchReady l) s = .next t ∧ (t.launch l).ready = true ∧ (t.launch l).live = true ∧ SameBytes s t) ∧
    (m.live = true → m.stamp.isSome = true → m.result = none → d < 4 → blocksIn (m.range d) = 0 →
      (∃ e < 4, 2 ≤ blocksIn (m.range e)) → (∃ u ∈ s.unitsFor m, unitDie u = d ∧ s.unitFree u = true) →
      ∃ (t : State) (e : Nat), exec (.blockSteal l d) s = .next t ∧ e < 4 ∧ (∀ k < 4, blocksIn (m.range k) ≤ blocksIn (m.range e)) ∧
        blocksIn ((t.launch l).range d) = blocksIn (m.range e) / 2 ∧
        blocksIn ((t.launch l).range e) = blocksIn (m.range e) - blocksIn (m.range e) / 2 ∧ SameBytes s t) ∧
    (s.ended l = true → m.entry = [] → (s.vf m.vf).held = [] →
      let o := (s.vf m.vf).comp
      (o.room 1 = true → MemOk s → ∃ t : State, exec (.launchCompletion l) s = .next t ∧ (t.launch l).live = false ∧
        memBytes t.mem (hostBase + o.place o.tail 32) 32 = wordBytes (m.completion s.cycle) ∧
        SameBytesBut s t (hostBase + o.place o.tail 32) 32 ∧ (t.vf m.vf).comp.tail = (o.tail + 1) % 2 ^ 32 ∧
        (m.result ≠ some (2, 1) → m.csig ≠ 0 → m.csig ≤ 4095 →
          (t.signal m.vf m.csig).1 = (s.signal m.vf m.csig).1 + BitVec.ofNat 64 m.cval)) ∧
      (o.room 1 = false → ∃ t : State, exec (.launchCompletion l) s = .next t ∧ (t.vf m.vf).held = [l] ∧ (t.launch l).live = true ∧
        (t.launch l).entry = m.completion s.cycle ∧ SameBytes s t)) ∧
    (∀ val, (s.vf v).held = [] → ∃ t : State, exec (.cheadWrite v val) s = .next t ∧ (t.vf v).comp.head = val.toNat % 2 ^ 32 ∧
      (t.vf v).comp.tail = (s.vf v).comp.tail ∧ SameBytes s t) ∧
    (∀ val k h, (s.vf v).held = k :: h →
      let o := (s.vf v).comp
      ∀ w ∈ ([(.cheadWrite v val, { o with head := val.toNat % 2 ^ 32 }),
          (.registerWrite (.bar v) 0x208 val, { o with cfg := cfgWrite o.cfg val 4 12 })] : List (Instr × OutRing)),
        w.2.room 1 = true → ∃ t : State, exec w.1 s = .next t ∧ (t.launch k).live = false) ∧
    (p.stopped = false →
      (∀ buf : Word, p.data.1 ≤ buf.toNat → buf.toNat + 128 * ((s.pendingOf v).take 64).length ≤ min (p.data.1 + p.data.2) (2 ^ 24) → ∃ t : State, exec (.qlist v buf) s = .next t ∧
        (t.vf v).plug.a0 = BitVec.ofNat 64 (min 64 (s.pendingOf v).length) ∧ (t.vf v).plug.start.isSome = true) ∧
      (∀ buf : Word, buf.toNat < p.data.1 ∨ min (p.data.1 + p.data.2) (2 ^ 24) < buf.toNat + 128 * ((s.pendingOf v).take 64).length →
        ∃ t : State, exec (.qlist v buf) s = .next t ∧ (t.vf v).plug.stopped = true ∧ (t.vf v).plug.start = none ∧ SameBytes s t) ∧
      (∀ (arr : Word) (n : Nat),
        let ps := (List.range n).map fun i => memNat s.mem (fepBase + arr.toNat + 4 * i) 4
        let inside := p.data.1 ≤ arr.toNat ∧ arr.toNat + 4 * n ≤ min (p.data.1 + p.data.2) (2 ^ 24)
        (n ≤ 64 → inside → (∀ i ∈ ps, ∃ k ∈ s.pendingOf v, k.position = i) → ∃ t : State, exec (.qorder v ⟨arr, n⟩) s = .next t ∧
          (t.vf v).plug.a0 = 0 ∧ (∀ i ∈ ps, i ∈ (t.vf v).plug.staged) ∧ (t.vf v).plug.order = p.order ∧ SameBytes s t) ∧
        (64 < n ∨ (inside ∧ ∃ i ∈ ps, ∀ k ∈ s.pendingOf v, k.position ≠ i) → ∃ t : State, exec (.qorder v ⟨arr, n⟩) s = .next t ∧
          (t.vf v).plug.a0 = BitVec.allOnes 64 ∧ (t.vf v).plug.staged = p.staged ∧ SameBytes s t) ∧
        (n ≤ 64 → ¬inside → ∃ t : State, exec (.qorder v ⟨arr, n⟩) s = .next t ∧ (t.vf v).plug.stopped = true ∧ SameBytes s t)) ∧
      (∃ t : State, exec (.yield v) s = .next t ∧ (t.vf v).plug.start = none ∧ (t.vf v).plug.staged = [] ∧
        (t.vf v).plug.order = p.staged ++ p.order.filter (fun i => !p.staged.contains i) ∧ SameBytes s t) ∧
      (∃ t : State, exec (.pluginTime v) s = .next t ∧ (t.vf v).plug.a0 = BitVec.ofNat 64 (s.time / microsecond) ∧ SameBytes s t)) ∧
    (∀ z, p.start = some z → 50 * microsecond < s.time - z → ∃ t : State, exec (.pluginTimeout v) s = .next t ∧
      (t.vf v).plug.start = none ∧ (t.vf v).plug.staged = [] ∧ (t.vf v).plug.order = p.order ∧ SameBytes s t) ∧
    (∃ t : State, exec (.pluginFault v) s = .next t ∧ (t.vf v).plug.stopped = true ∧ (t.vf v).plug.order = [] ∧ SameBytes s t) ∧
    (∀ val, ∃ t : State, exec (.cctlWrite c val) s = .next t ∧ (t.core c).stop = val.getLsbD 0 ∧ (t.core c).ctxs = (s.core c).ctxs ∧
      (∀ n, n ≠ c → t.core n = s.core n) ∧ SameBytes s t) ∧
    (∃ t : State, exec (.flatchClear c) s = .next t ∧ (t.core c).flatch = [] ∧ (t.core c).stop = (s.core c).stop ∧ SameBytes s t)

/-- Commands to engines and cluster units (R256 to R258, R279 to R286, R298 to R303): a post that passes its checks enters its queue and
counts as sent; a full queue stalls CQPUSH and GPOST, which then check nothing again, and answers CQPUSHN with 1; a post that fails its
checks is trap 0x0C; mask requests enter the AMU's order; PLOAD, PSAVE and PSTAT act on the context of the cluster. The thread that a mode 4
completion is for is the model's (log 55). Choices by log 28, 29, 55 and 56. -/
def Obligations.CommandInstructionsResult : Prop :=
  ∀ (s : State) (d a b : XReg) (k : KReg) (z : BitVec 1) (n : BitVec 3),
    let regs := blockRegs a
    let words := regs.map s.rd
    let cl := s.iss.core / 16
    let lands := fun (t : State) (v : Word) => s.cur.mapped d = none → d ≠ 0 → t.cur.regAt (s.cur.tag d) = v
    let waits := fun (t : State) => d ≠ 0 → t.cur.pend.getLsbD (pendBit (s.cur.dest d)) = true
    (s.misuse regs [d] = false → s.cur.posted s.iss.upc = true ∨ (s.copyPlan s.iss.core words).isSome = true →
      (s.here.copyQueued < 4 → ∀ i ∈ ([.cqpush d a, .cqpushn d a] : List Instr),
        ∃ (t : State) (r : Command), exec i s = .next t ∧ t.here.copyq = s.here.copyq ++ [r] ∧ r.words = words ∧ r.uid = s.cur.uid ∧
          r.core = s.iss.core ∧ r.upc = s.iss.upc ∧ r.fence = s.cur.xfence.filter s.fenceOpen ∧ r.bound = s.boundOf s.iss.core words ∧
          t.here.sent = s.here.sent + 1 ∧ lands t 0 ∧ Retired s t ∧ SameBytes s t) ∧
      (4 ≤ s.here.copyQueued → exec (.cqpushn d a) s = .next (((s.pops regs).wr d 1).retire) ∧
        ∃ t : State, exec (.cqpush d a) s = .next t ∧ t.cur.posted s.iss.upc = true ∧ t.cur.pc = s.cur.pc ∧ t.cur.instret = s.cur.instret ∧
          t.here.copyq = s.here.copyq ∧ SameRegs s t [] ∧ SameBytes s t)) ∧
    (s.misuse regs [d] = false → s.cur.posted s.iss.upc = false → s.copyPlan s.iss.core words = none →
      exec (.cqpush d a) s = .next (s.trap 0x0C (s.rd a)) ∧ exec (.cqpushn d a) s = .next (s.trap 0x0C (s.rd a))) ∧
    (s.misuse regs [d] = false → s.cur.posted s.iss.upc = true ∨ (s.icePlan s.iss.core words).isSome = true →
      let ticket := ((s.teamOf s.iss.core).posts cl + 1) % 2 ^ 32
      ((s.cluster cl).iceq.length < 16 →
        ∃ (t : State) (r : Command), exec (.gpost d a) s = .next t ∧ (t.cluster cl).iceq = (s.cluster cl).iceq ++ [r] ∧ r.words = words ∧
          r.ticket = ticket ∧ r.uid = s.cur.uid ∧ t.here.sent = s.here.sent + 1 ∧ lands t (BitVec.ofNat 64 ticket) ∧ Retired s t ∧ SameBytes s t) ∧
      (16 ≤ (s.cluster cl).iceq.length →
        ∃ t : State, exec (.gpost d a) s = .next t ∧ t.cur.posted s.iss.upc = true ∧ t.cur.pc = s.cur.pc ∧ t.cur.instret = s.cur.instret ∧
          (t.cluster cl).iceq = (s.cluster cl).iceq ∧ SameRegs s t [] ∧ SameBytes s t)) ∧
    (s.misuse regs [d] = false → s.cur.posted s.iss.upc = false → s.icePlan s.iss.core words = none →
      exec (.gpost d a) s = .next (s.trap 0x0C (s.rd a))) ∧
    (s.misuse [] [d] = false →
      exec (.cqstat d) s = .next ((s.wr d (BitVec.ofNat 64 (s.here.copyDone % 2 ^ 32 * 256 +
        (if s.here.copyRun.any (fun r => r.begun || r.parked) then 32 else 0) + s.here.copyQueued % 32))).retire) ∧
      exec (.gstat d) s = .next ((s.wr d (BitVec.ofNat 64 (tabGet 0 (s.teamOf s.iss.core).iceDone cl % 2 ^ 32 * 256 +
        (if (s.cluster cl).iceRun.isSome then 32 else 0) + (s.cluster cl).iceq.length % 32))).retire)) ∧
    (∀ off, s.misuse [a] [d] = false → (s.rd a).toNat % 64 = 0 → classify s.iss.core (s.rd a) = .window s.iss.core 0 off → off + 384 ≤ 2 ^ 18 →
      s.spadWaits (winKey s.iss.core 0 off) 384 = false → s.spadBad (off, 384) = false →
      ∃ (t : State) (r : AmuReq), exec (.mbind d a) s = .next t ∧ (t.cluster cl).amuq = (s.cluster cl).amuq ++ [r] ∧ r.op = 0 ∧
        r.dst = s.cur.dest d ∧ r.block = memBytes s.mem (winKey s.iss.core 0 off) 384 ∧ waits t ∧ Retired s t ∧ SameBytes s t ∧ SameRegs s t []) ∧
    (s.misuse [a, b] [d] = false → ∃ (t : State) (r : AmuReq), exec (.mclass d a b) s = .next t ∧ (t.cluster cl).amuq = (s.cluster cl).amuq ++ [r] ∧
      r.op = 1 ∧ r.dst = s.cur.dest d ∧ r.a = s.rd a ∧ r.b = s.rd b ∧ waits t ∧ Retired s t ∧ SameBytes s t ∧ SameRegs s t []) ∧
    (s.misuse [a, b] [] = false → ∃ (t : State) (r : AmuReq), exec (.mrow k a b) s = .next t ∧ (t.cluster cl).amuq = (s.cluster cl).amuq ++ [r] ∧
      r.op = 2 ∧ r.dst = k.toNat ∧ r.a = s.rd a ∧ r.b = s.rd b ∧ (k ≠ 0 → t.cur.pendK.getLsbD k.toNat = true) ∧ Retired s t ∧
      SameBytes s t ∧ SameRegs s t []) ∧
    (s.misuse [] [d] = false → ∃ (t : State) (r : AmuReq), exec (.mcnt d z) s = .next t ∧ (t.cluster cl).amuq = (s.cluster cl).amuq ++ [r] ∧
      r.op = 3 ∧ r.dst = s.cur.dest d ∧ (r.a = 0 ↔ z = 0) ∧ waits t ∧ Retired s t ∧ SameBytes s t ∧ SameRegs s t []) ∧
    (∀ off, s.misuse [a] [] = false → (s.rd a).toNat % 64 = 0 → classify s.iss.core (s.rd a) = .window s.iss.core 0 off → off + 64 ≤ 2 ^ 18 →
      s.holdsBellows s.iss.core n.toNat = true → s.bellowsWaits n.toNat = false →
      let key := winKey s.iss.core 0 off
      (∀ v, s.spadWaits key 64 = false → s.spadBad (off, 64) = false → s.readBellows (s.dword key) = some v →
        ∃ t : State, exec (.pload a n) s = .next t ∧ t.bellows s.iss.core n.toNat = v ∧ Retired s t ∧ SameBytes s t ∧ SameRegs s t []) ∧
      (s.spadWaits key 64 = false → s.spadBad (off, 64) = false → s.readBellows (s.dword key) = none → exec (.pload a n) s = .next (s.trap 9 (s.rd a))) ∧
      (∃ (t : State) (q : Req), exec (.psave a n) s = .next t ∧ t.reqs = s.reqs ++ [q] ∧ q.home = .core s.iss.core ∧ q.addr = key ∧
        q.cls = 0 ∧ q.uid = s.cur.uid ∧ q.counted = true ∧
        q.op = .block 0 0 ((List.range 8).map fun i => (key + 8 * i, (s.bellows s.iss.core n.toNat).words.getD i 0, false)) ∧
        Retired s t ∧ SameBytes s t ∧ SameRegs s t [])) ∧
    (s.misuse [] [d] = false → s.holdsBellows s.iss.core n.toNat = true → s.bellowsWaits n.toNat = false →
      ∃ t : State, exec (.pstat d n) s = .next t ∧ Retired s t ∧ SameBytes s t ∧ SameRegs s t [] ∧ waits t ∧
        (d ≠ 0 → s.cur.uid ≠ 0 → ∃ f, t.fills = s.fills ++ [f] ∧ f.uid = s.cur.uid ∧ f.reg = s.cur.dest d ∧ f.val = (s.bellows s.iss.core n.toNat).status))

/-- Cluster units serve (R281 to R286, R288, R290, R294, R299, R300, R319): the AMU answers its oldest request, an illegal one is trap 0x0D
against the thread that made it, one of an ending team is dropped, a legal one of a thread that is no more raises nothing; a latch gives a
family its coverage; Grout begins the family that reached it first, owning what it will write, and hands its probes to Bellows once it has
read and written; an update moves an adaptive context. That Grout takes the context as it stands when it begins is the model's (log 56).
Choices by log 13, 29 and 56. -/
def Obligations.ClusterUnitsResult : Prop :=
  ∀ (s : State) (cl : Nat),
    let u := s.cluster cl
    (∀ r l, u.amuq = r :: l → (s.teamOf r.core).ending = true →
      ∃ t : State, exec (.amuServe cl) s = .next t ∧ (t.cluster cl).amuq = l ∧ t.cores = s.cores ∧ t.fills = s.fills ∧ SameBytes s t) ∧
    (∀ r l b, u.amuq = r :: l → (s.teamOf r.core).ending = false → s.holder r.base = none → s.moving r.base = none → r.bind = some b →
      (r.op = 1 ∧ r.a.getLsbD 31 = false ∧ r.a.getLsbD 63 = false ∧ 1 ≤ r.b.toNat ∧ r.b.toNat ≤ 32) ∨
        (r.op = 2 ∧ r.a.toNat < 2 ^ 31 ∧ r.b.toNat < 2 ^ 31) ∨ r.op = 3 →
      ∃ t : State, exec (.amuServe cl) s = .next t ∧ (t.cluster cl).amuq = l ∧ t.raised = s.raised ∧ SameBytes s t) ∧
    (∀ r l n x, u.amuq = r :: l → (s.teamOf r.core).ending = false → s.holder r.base = some (n, x) → r.uid ≠ 0 →
      let c := s.ctxAt n x
      let runs := fun (cnt : Fin 3 → Nat) (v : Word → Prop) => ∃ t : State, exec (.amuServe cl) s = .next t ∧ (t.cluster cl).amuq = l ∧
        (t.ctxAt n x).bind = c.bind ∧ (∀ i, (t.ctxAt n x).cnt.get i = cnt i) ∧ SameBytes s t ∧ (r.dst = 0 → t.fills = s.fills) ∧
        (r.dst ≠ 0 → ∃ f, t.fills = s.fills ++ [f] ∧ f.uid = r.uid ∧ f.reg = r.dst ∧ v f.val)
      let bad := fun value : Word => ∃ q : Cluster → Cluster, exec (.amuServe cl) s =
        .next ((s.onCluster cl q).whoFault r.core r.who false 0x0D value r.upc) ∧ (q u).amuq = l
      let row := fun t : Nat => (c.bind.getD { prog := [], docs := [] }).over (bitsOf r.a 31 0) (bitsOf r.a 31 0 + 15 : Nat) (bitsOf r.a 63 32 + 16 * t : Nat) (bitsOf r.a 63 32 + 16 * t + 15 : Nat)
      (r.op = 0 → ∀ b m, readBlock r.block = some (b, m) →
        ∃ t : State, exec (.amuServe cl) s = .next t ∧ (t.cluster cl).amuq = l ∧ (t.ctxAt n x).bind = some b ∧ SameBytes s t ∧
          (r.dst ≠ 0 → ∃ f, t.fills = s.fills ++ [f] ∧ f.uid = r.uid ∧ f.reg = r.dst ∧
            f.val = BitVec.ofNat 64 (b.prog.length + 256 * b.docs.length + 65536 * m))) ∧
      (r.op = 0 → readBlock r.block = none → bad r.a) ∧
      (r.op = 1 → c.bind.isSome = true → r.a.getLsbD 31 = false → r.a.getLsbD 63 = false → 1 ≤ r.b.toNat → r.b.toNat ≤ 32 →
        runs (fun i => (c.cnt.get i + ((List.range r.b.toNat).filter fun t => row t == i.val).length) % 2 ^ 21)
          fun v => ∀ t < 32, v.toNat / 4 ^ t % 4 = if t < r.b.toNat then row t else 0) ∧
      (r.op = 1 → c.bind = none ∨ r.a.getLsbD 31 = true ∨ r.a.getLsbD 63 = true ∨ r.b = 0 ∨ 32 < r.b.toNat → bad 0) ∧
      (r.op = 2 → c.bind = none ∨ 2 ^ 31 ≤ r.a.toNat ∨ 2 ^ 31 ≤ r.b.toNat → bad 0) ∧
      (r.op = 2 → ∀ b m y, c.bind = some b → r.a.toNat < 2 ^ 31 → r.b.toNat < 2 ^ 31 → s.keptBy r.uid = none → s.whereIs r.uid = some (m, y) →
        r.dst < 8 →
        ∃ t : State, exec (.amuServe cl) s = .next t ∧ (t.cluster cl).amuq = l ∧ (t.ctxAt m y).pendK.getLsbD r.dst = false ∧ SameBytes s t ∧
          (r.dst ≠ 0 → ∀ j, ((t.ctxAt m y).mask (BitVec.ofNat 3 r.dst)).getLsbD j = true ↔
            j < 32 ∧ b.over r.a.toNat r.a.toNat (r.b.toNat + j : Nat) (r.b.toNat + j : Nat) = 2)) ∧
      (r.op = 3 → runs (fun i => if r.a = 0 then c.cnt.get i else 0) fun v => v = countsWord c.cnt)) ∧
    (∀ r l, u.bellowsq = r :: l → r.probes = none → (s.fam r.fam).live = true → (s.fam r.fam).ord = r.ord →
      ∃ t : State, exec (.bellowsLatch cl) s = .next t ∧ (t.cluster cl).bellowsq = l ∧ SameBytes s t ∧
        (t.fam r.fam).coverage = some (if (tabGet Bellows.fresh u.bellows r.ctx).adapt then (tabGet Bellows.fresh u.bellows r.ctx).cur
          else (s.fam r.fam).desc.cov)) ∧
    (∀ r l p, u.bellowsq = r :: l → r.probes = some p → (s.fam r.fam).live = true → (s.fam r.fam).ord = r.ord →
      let b := tabGet Bellows.fresh u.bellows r.ctx
      let m := meanError b.fmt p
      ∃ (t : State) (v : Bellows), exec (.bellowsUpdate cl) s = .next t ∧ (t.cluster cl).bellowsq = l ∧ tabGet Bellows.fresh (t.cluster cl).bellows r.ctx = v ∧
        v.mean = m ∧ v.probes = p.length ∧ v.done = (b.done + 1) % 2 ^ 32 ∧ SameBytes s t ∧ (t.fam r.fam).grouted = true ∧
        (b.adapt = false → v.cur = b.cur ∧ v.streak = b.streak) ∧
        (b.adapt = true → b.hi < m → v.cur = b.cur - 1 ∧ v.streak = 0) ∧
        (b.adapt = true → m ≤ b.hi → m < b.lo → b.streak = 1 → v.cur = min (b.cur + 1) b.ceil ∧ v.streak = 0) ∧
        (b.adapt = true → m ≤ b.hi → m < b.lo → b.streak = 0 → v.cur = b.cur ∧ v.streak = 1) ∧
        (b.adapt = true → m ≤ b.hi → b.lo ≤ m → v.cur = b.cur ∧ v.streak = 0)) ∧
    (∀ e l, u.groutq = e :: l → u.groutRun = none → e.fam.core / 16 = cl → (s.fam e.fam).live = true → (s.fam e.fam).ord = e.ord →
      let g := s.fam e.fam
      let b := s.bellows e.fam.core g.desc.bctx
      let cov := g.coverage.getD 0
      let o := b.base e.fam.core
      let vf := (s.teamOf e.fam.core).vf
      let reads := (groutReads g.desc cov b).map (·.2)
      let writes := (g.desc.skipped cov).filter (!b.isProbe ·)
      let starts := if o.1 then pageStarts (b.ranges o.2 false reads ++ b.ranges o.2 true writes) else []
      let maps := s.gathered cl vf e.maps starts
      (g.marked = true ∨ (s.teamOf e.fam.core).ending = true → ∃ t : State, exec (.grout cl) s = .next t ∧ (t.cluster cl).groutq = l ∧
        (t.fam e.fam).grouted = true ∧ t.reqs = s.reqs ∧ SameBytes s t) ∧
      (g.marked = false → (s.teamOf e.fam.core).ending = false → s.famBusy e.fam = false → u.groutWalk = false → missing maps vf starts = none →
        (∀ q ∈ s.pagesOf vf maps starts, (q.2.1 = true → q.2.2.write = true) ∧ q.2.2.slot = 0) → s.owned = [] →
        (∀ w, s.olderWaits e.id w = false) →
        ∃ (t : State) (j : GroutJob), exec (.grout cl) s = .next t ∧ (t.cluster cl).groutq = l ∧ (t.cluster cl).groutRun = some j ∧
          j.fam = e.fam ∧ j.ord = e.ord ∧ j.desc = g.desc ∧ j.cov = cov ∧ j.bell = b ∧ t.reqs = s.reqs ∧ SameBytes s t ∧
          (∀ q ∈ j.grans, q.got = none) ∧
          ∀ p ∈ j.pieces, p.done = false ∧ ∃ w ∈ t.owned, w.key = p.key / 128 ∧ w.eng = groutEng cl)) ∧
    (∀ j, u.groutRun = some j → (∀ q ∈ j.grans, q.got.isSome = true) → (∀ p ∈ j.pieces, p.done = true) → s.engineBusy (groutEng cl) = false →
      ∃ (t : State) (r : BellowsReq) (ps : List (List (Nat × Nat))), exec (.grout cl) s = .next t ∧ (t.cluster cl).groutRun = none ∧
        (t.cluster cl).bellowsq = u.bellowsq ++ [r] ∧ r.fam = j.fam ∧ r.ord = j.ord ∧ r.ctx = j.desc.bctx ∧ r.probes = some ps ∧
        ps.length = ((j.desc.skipped j.cov).filter j.bell.isProbe).length ∧ (∀ p ∈ ps, p.length = j.bell.em1 + 1) ∧ SameBytes s t)

/-- Copy engines and the indirect engine (R70, R84, R87, R89, R260 to R269, R319): a released command whose checks hold begins, owning its
destination, one that fails them is a team fault, one of an ending team is dropped; an engine reads granules at their homes, in a multicast
also for those that joined; the last granule of a stochastic command sends its counter back by the pool; a finished command completes with
its word by its mode; an ICE command goes chunk by chunk, reads the next chunk before the writes of its current one go out, and at the end
signals its poster's line and only then raises done. The thread a mode 4 completion fills is the model's (log 55). Choices by log 28 and 55;
what another package answers is free (log 1). -/
def Obligations.EnginesResult : Prop :=
  ∀ (s : State) (c cl : Nat),
    let k := s.core c
    let vf := (s.teamOf c).vf
    let ops : List (Nat × Instr) := [(1, .copy c), (2, .copyAccumulate c), (3, .fill c), (4, .multicastRead c), (5, .stridedCopy c),
      (6, .packagePut c), (7, .packageGet c)]
    let block := fun r : Command => winKey c 0 (0x3C000 + 64 * cSlot (r.w 0))
    (∀ r l op i, (op, i) ∈ ops → r.op = op → k.copyRun = none → k.copyq = r :: l →
      let w0 := r.w 0
      let blk := fun j => s.blockWord c (cSlot w0) j
      let needs := readsBlock w0
      let z := s.onCore c fun k => { k with copyq := l, copyRun := some r }
      ((s.teamOf c).ending = true → ∃ t : State, exec i s = .next t ∧ (t.core c).copyq = l ∧ (t.core c).recv = k.recv + 1 ∧ t.reqs = s.reqs ∧
        SameBytes s t) ∧
      ((s.teamOf c).ending = false → s.released r = false → exec i s = .next s) ∧
      ((s.teamOf c).ending = false → s.released r = true → (needs = true → s.blockWaits c r = false) →
        (s.copyPlan c r.words = none → exec i s = .next (z.copyRefuse c r 0x0C w0)) ∧
        (∀ p, s.copyPlan c r.words = some p →
          (needs = true → s.poisonedAny (block r) 64 = true → exec i s = .next (z.copyRefuse c r 0x0F (BitVec.ofNat 64 (block r)))) ∧
          ((needs = true → s.poisonedAny (block r) 64 = false ∧ bitsOf (blk 1) 63 32 = 0 ∧ bitsOf (blk 2) 63 32 = 0 ∧
              bitsOf (blk 5) 63 16 = 0 ∧ blk 6 = 0 ∧ blk 7 = 0) →
            let rows := if op = 5 then rowDeltas (bitsOf (blk 2) 31 0) (blk 3).toInt (blk 4).toInt else [((0 : Int), (0 : Int))]
            let n := cLen w0 / p.es * p.ed
            let ranges := (match p.src with | some e => if e.glob then rows.map fun q => (atDelta e.pos q.1, cLen w0, false) else [] | none => []) ++
              (match p.dst with | some e => if e.glob then rows.map fun q => (atDelta e.pos q.2, n, true) else [] | none => [])
            let starts := pageStarts ranges
            let maps := s.gathered (c / 16) vf r.maps starts
            let pages := s.pagesOf vf maps starts
            rows ≠ [] → (op = 5 → (blk 3).toInt % p.es = 0 ∧ (blk 4).toInt % p.ed = 0) →
            (∀ e, p.src = some e → (∀ q ∈ rows, e.fits q.1 (cLen w0) = true) ∧ s.mixedBanks e (rows.map fun q => (atDelta e.pos q.1, cLen w0)) = false) →
            (∀ e, p.dst = some e → (∀ q ∈ rows, e.fits q.2 n = true) ∧ s.mixedBanks e (rows.map fun q => (atDelta e.pos q.2, n)) = false) →
            missing maps vf starts = none → (∀ q ∈ pages, q.2.1 = true → q.2.2.write = true) →
            s.sealBroken c (op == 1 || op == 4 || op == 5) (op == 4 || p.dst.any fun e => !e.glob && e.lo / 2 ^ 27 % 8 == 0) pages = none →
            s.owned = [] → (∀ u, s.olderWaits r.id u = false) →
            ∃ (t : State) (v : Command), exec i s = .next t ∧ (t.core c).copyRun = some v ∧ (t.core c).copyq = l ∧ v.begun = true ∧ v.id = r.id ∧
              v.words = r.words ∧ v.srcFmt = p.sf ∧ v.dstFmt = p.df ∧ SameBytes s t ∧
              (needs = true → v.seed = blk 0 ∧ v.counter = bitsOf (blk 1) 31 0 ∧ v.pkg = bitsOf (blk 5) 15 0) ∧
              (∀ q ∈ v.pieces, ∃ o ∈ t.owned, o.key = q.key / 128 ∧ o.eng = 2 * c) ∧
              (op = 3 → (∀ q ∈ v.pieces, q.done = true ∧ ∃ w ∈ t.reqs, w.addr = q.key ∧
                w.op = .engWrite (2 * c) (bitsOf w0 19 18) (if q.stream then 1 else bitsOf w0 17 16) ((leBytes 8 (r.w 1).toNat).take q.k) false)))))) ∧
    (∀ r, k.copyRun = some r → s.copyOver c r = true →
      let word := BitVec.ofNat 64 (cLen (r.w 0) * 2 ^ 32 + r.status.getD 0)
      let ends := fun (i : Instr) (p : State → Prop) => ∃ t : State, exec i s = .next t ∧ (t.core c).copyRun = none ∧
        (t.core c).copyDone = (k.copyDone + 1) % 2 ^ 32 ∧ SameBytes s t ∧ p t
      let posts := fun (i : Instr) (h : Nat) (op : ReqOp) => ends i fun t => ∃ q : Req, t.reqs = s.reqs ++ [q] ∧ q.home = .core h ∧ q.op = op ∧
        q.cls = 1
      (∀ op i, (op, i) ∈ ops → r.op = op → r.parked = false → cMode (r.w 0) = 0 → ends i fun t => (t.core c).recv = k.recv + 1 ∧ t.reqs = s.reqs) ∧
      (∀ m i, (m, i) ∈ ([(1, .completionFeFill c), (2, .completionMailbox c), (3, .completionHandlerTrigger c),
          (4, .completionRegisterFill c)] : List (Nat × Instr)) → cMode (r.w 0) = m → (s.teamOf c).ending = true → ends i fun t => t.reqs = s.reqs) ∧
      ((s.teamOf c).ending = false →
        (∀ n o, cMode (r.w 0) = 1 → classify c (r.w 3) = .window n 0 o → posts (.completionFeFill c) n (.complete word)) ∧
        (cMode (r.w 0) = 2 → posts (.completionMailbox c) (bitsOf (r.w 3) 16 4) (.mail word)) ∧
        (cMode (r.w 0) = 3 →
          let x := s.ctxAt c r.ctx
          (x.uid = r.uid → x.roomTrig = true → ends (.completionHandlerTrigger c) fun t =>
            (t.ctxAt c r.ctx).trig = x.trig ++ [(1, BitVec.ofNat 64 (bitsOf (r.w 3) 15 0), r.uid)]) ∧
          (x.uid = r.uid → x.roomTrig = false → exec (.completionHandlerTrigger c) s = .next s) ∧
          (x.uid ≠ r.uid → (∀ f ∈ x.frames, f.uid ≠ r.uid) → ends (.completionHandlerTrigger c) fun t => (t.ctxAt c r.ctx).trig = x.trig)) ∧
        (∀ n o, cMode (r.w 0) = 4 → classify c (r.w 3) = .window n 2 o → posts (.completionRegisterFill c) n (.fill r.bound word)))) ∧
    (∀ r i g, k.copyRun = some r → r.begun = true → r.join = none →
      (if r.op = 4 then nextLine r.grans else r.grans.filter fun g => g.got.isNone)[i]? = some g →
      g.slot = 0 ∨ s.sealedOk (s.teamOf c) g.slot g.va = true →
      let q := s.readGran (bitsOf (r.w 0) 19 18) (bitsOf (r.w 0) 17 16) g
      (∀ n, g.home = .core n → q.2.got = some (memBytes s.mem g.key 8, s.poisoned g.key || decide (8 < g.tries))) ∧
      ∃ (t : State) (v : Command), exec (.engineRead (.copy c) i) s = .next t ∧ (t.core c).copyRun = some v ∧ v.id = r.id ∧
        (∃ h ∈ v.grans, h.va = g.va ∧ h.key = g.key ∧ h.got = q.2.got) ∧ SameBytes q.1 t ∧
        (cSr (r.w 0) = true → r.phase = 0 → (∀ h ∈ r.grans, h = g ∨ h.got.isSome = true) → v.phase = 1 ∧ (∀ p ∈ v.pieces, p.done = true) ∧
          ∃ w ∈ t.reqs, w.cls = 3 ∧ w.home = .core c ∧ w.addr = block r + 8 ∧ ∃ a b, w.op = .engWrite (2 * c) a b (leBytes 4 (r.counter + 1)) false) ∧
        ∀ n y j, n / 16 = c / 16 → n ≠ c → (s.core n).copyRun = some y → y.join = some (c, r.id, j) → (r.w 1).toNat + 128 * j ≤ g.va →
          g ∈ y.grans → ∃ w, (t.core n).copyRun = some w ∧ ∃ h ∈ w.grans, h.va = g.va ∧ h.got = q.2.got) ∧
    (∀ r ahead i g, (if ahead then (s.cluster cl).iceAhead else (s.cluster cl).iceRun) = some r → (s.iceReads cl)[i]? = some (ahead, g) →
      g.slot = 0 ∨ s.sealedOk (s.teamOf r.core) g.slot g.va = true →
      let q := s.readGran (bitsOf (r.w 0) 19 18) (bitsOf (r.w 0) 17 16) g
      ∃ (t : State) (v : Command), exec (.engineRead (.ice cl) i) s = .next t ∧
        (if ahead then (t.cluster cl).iceAhead else (t.cluster cl).iceRun) = some v ∧ v.id = r.id ∧
        (∃ h ∈ v.grans, h.va = g.va ∧ h.got = q.2.got) ∧ t.reqs = s.reqs ∧ SameBytes q.1 t) ∧
    (s.engineBusy (2 * cl + 1) = false → ∀ r, (s.cluster cl).iceAhead = some r → ∀ g ∈ r.grans, g.got = none →
      ∃ i : Nat, (s.iceReads cl)[i]? = some (true, g)) ∧
    (∀ j i g, (s.cluster cl).groutRun = some j → (j.grans.filter fun g => g.got.isNone)[i]? = some g →
      let q := s.readGran 0 0 g
      ∃ (t : State) (v : GroutJob), exec (.engineRead (.grout cl) i) s = .next t ∧ (t.cluster cl).groutRun = some v ∧ v.fam = j.fam ∧
        (∃ h ∈ v.grans, h.va = g.va ∧ h.tag = g.tag ∧ h.got = q.2.got) ∧ SameBytes q.1 t) ∧
    (∀ r lc lid j, k.copyRun = some r → r.join = some (lc, lid, j) → (s.core lc).copyRun = none → nextLine r.grans ≠ [] → (∀ g ∈ r.grans, g.slot = 0) →
      ∃ (t : State) (v : Command) (g : Gran), exec (.multicastCatchUp c) s = .next t ∧ g ∈ nextLine r.grans ∧ (t.core c).copyRun = some v ∧ v.id = r.id ∧
        ∃ h ∈ v.grans, h.va = g.va ∧ h.key = g.key ∧
          h.got = (State.readGran { s with fresh := s.fresh + 1 } (bitsOf (r.w 0) 19 18) (bitsOf (r.w 0) 17 16) g).2.got) ∧
    (∀ r op i, (op, i) ∈ ([(6, .packagePut c), (7, .packageGet c)] : List (Nat × Instr)) → r.op = op → k.copyRun = some r → r.begun = true →
      r.status = none → (∀ g ∈ r.grans, g.got.isSome = true) →
      ∃ (t : State) (v : Command), exec i s = .next t ∧ (t.core c).copyRun = some v ∧ (v.status = some 0 ∨ v.status = some 1) ∧ SameBytes s t ∧
        (s.pkgRefuses r.pkg = true → v.status = some 1)) ∧
    (∀ r l op i, (op, i) ∈ ([(1, .gather cl), (2, .scatter cl), (3, .scatterAdd cl)] : List (Nat × Instr)) → r.op = op →
      ((s.cluster cl).iceRun = none → (s.cluster cl).iceq = r :: l → (s.teamOf r.core).ending = false → s.released r = true →
        ∃ (t : State) (v : Command), exec i s = .next t ∧ (t.cluster cl).iceRun = some v ∧ (t.cluster cl).iceq = l ∧ v.id = r.id ∧ v.begun = true ∧
          v.chunk = 0 ∧ v.phase = 0 ∧ v.pieces = [] ∧ SameBytes s t) ∧
      ((s.cluster cl).iceRun = none → (s.cluster cl).iceq = r :: l → (s.teamOf r.core).ending = true →
        ∃ t : State, exec i s = .next t ∧ (t.cluster cl).iceRun = none ∧ (t.cluster cl).iceq = l ∧ (t.core r.core).recv = (s.core r.core).recv + 1 ∧
          SameBytes s t) ∧
      (∀ x off, (s.cluster cl).iceRun = some r → r.parked = false → r.phase = 0 → 64 * r.chunk < iCount (r.w 0) → (∀ g ∈ r.grans, g.got.isSome = true) →
        classify r.core (r.w 1) = .window x 0 off →
        let isz := if (r.w 0).getLsbD 8 then 8 else 4
        let xs := (List.range (min 64 (iCount (r.w 0) - 64 * r.chunk))).map fun e =>
          (BitVec.ofNat (isz * 8) (leNat (granBytes r.grans 0 (winKey x 0 off + (64 * r.chunk + e) * isz) isz).1)).toInt
        let rows := xs.map fun y => ((r.w 2).toNat : Int) + y * iRowb (r.w 0)
        let starts := pageStarts (rows.map fun a => (a.toNat, iRowb (r.w 0), op != 1))
        let maps := s.gathered cl (s.teamOf r.core).vf r.maps starts
        let pages := s.pagesOf (s.teamOf r.core).vf maps starts
        (∀ a ∈ rows, 0 ≤ a ∧ a + iRowb (r.w 0) ≤ 2 ^ 49) → (s.icePlan r.core r.words).isSome = true → missing maps (s.teamOf r.core).vf starts = none →
        (∀ q ∈ pages, q.2.1 = true → q.2.2.write = true) → s.sealBroken r.core (op == 1) (op == 1) pages = none →
        ∃ (t : State) (v : Command), exec i s = .next t ∧ (t.cluster cl).iceRun = some v ∧ v.phase = 1 ∧ v.xs = xs ∧ v.chunk = r.chunk ∧ SameBytes s t)) ∧
    (∀ r p, (s.cluster cl).iceRun = some r → r.phase = 1 → r.parked = false → (∀ g ∈ r.grans, g.got.isSome = true) → s.engineBusy (2 * cl + 1) = false →
      s.icePlan r.core r.words = some p → s.mixedBanks p.loc [(p.loc.pos, iCount (r.w 0) * p.lrb)] = false →
      (if r.op = 1 then r.dstFmt else r.srcFmt) = p.lf → missing r.maps (s.teamOf r.core).vf r.rowPages = none → s.owned = [] →
      (∀ u, s.olderWaits r.id u = false) →
      ∃ (t : State) (v : Command), exec (.iceChunkBegin cl) s = .next t ∧ (t.cluster cl).iceRun = some v ∧ v.parked = false ∧
        ((s.cluster cl).iceAhead = none → v.chunk = r.chunk + 1 ∧ v.phase = 0) ∧
        (∀ a, (s.cluster cl).iceAhead = some a → v = { a with parked := false }) ∧
        (∀ a, (t.cluster cl).iceAhead = some a → a.chunk = r.chunk + 2 ∧ a.phase = 0) ∧ SameBytes s t ∧ ∀ q ∈ s.chunkPieces r p, (∃ o ∈ t.owned, o.key = q.key / 128 ∧ o.eng = 2 * cl + 1) ∧
          ∃ w ∈ t.reqs, w.addr = q.key ∧ w.home = q.home ∧ ∃ a h b z, w.op = .engWrite (2 * cl + 1) a h b z) ∧
    (∀ r, (s.cluster cl).iceRun = some r → iCount (r.w 0) ≤ 64 * r.chunk → s.engineBusy (2 * cl + 1) = false →
      let line := bitsOf (r.w 0) 23 20
      (r.phase = 0 → (s.teamOf r.core).ending = false →
        ∃ t : State, exec (.iceEventSignal cl) s = .next t ∧ (t.cluster cl).iceRun = some { r with phase := 2 } ∧
          tabGet 0 (t.teamOf r.core).iceDone cl = tabGet 0 (s.teamOf r.core).iceDone cl ∧ SameBytes s t ∧
          ((∀ x ∈ (s.core r.core).ctxs, x.2.st ≠ .wfe line) → (t.core r.core).events.getLsbD line = true) ∧
          ∀ x, (s.ctxAt r.core x).st = .wfe line → (t.ctxAt r.core x).st = .run) ∧
      (r.phase ≠ 0 ∨ (s.teamOf r.core).ending = true →
        ∃ t : State, exec (.iceEventSignal cl) s = .next t ∧ (t.cluster cl).iceRun = none ∧ (t.core r.core).recv = (s.core r.core).recv + 1 ∧
          (t.core r.core).events = (s.core r.core).events ∧ SameBytes s t ∧
          ((s.core r.core).team ≠ none → tabGet 0 (t.teamOf r.core).iceDone cl = r.ticket)))

/-- Translation, front ends, registers, partitions, snapshots, power and boot (R72, R305 to R307, R325, R326, R338 to R343, R345 to R348,
R362, R366, R371, R374 to R380): what each walk step, register write, trap of a front end and event of the I/O die leaves. Choices by log 7,
12, 34, 35, 36, 37, 43, 44, 57, 60 and 73. -/
def Obligations.RegistersResult : Prop :=
  ∀ (s : State) (i p v k d e : Nat) (val : Word),
    (∀ w n x u, s.walks[i]? = some w → s.walking i = true → w.who = .ctx n x u → (s.ctxAt n x).uid = u → (s.ctxAt n x).st = .walk →
      (s.ctxAt n x).sfuHeld = [] →
      let part := s.vfPart w.vf
      let pa := w.table + 8 * (w.va % 2 ^ 49 / 2 ^ levelBits w.level % 2048)
      let q := match s.homeSlice part pa with
        | .slice _ j => s.touch part j (partKey part pa / 128) 0 0 0 0
        | _ => s
      let entry : Word := BitVec.ofNat 64 (leNat (q.cells part (partKey part pa) 8))
      (entry.getLsbD 0 = false ∨ s.malformed part w.level entry = true →
        ∃ t : State, exec (.translationWalk i) s = .next t ∧ t.walks = s.walks.eraseIdx i ∧ (t.ctxAt n x).st = .parked ∧ SameBytes q t ∧
          ∃ f ∈ t.fq, f.die = w.cl / 128 ∧ f.vf = w.vf ∧ f.page = w.va / 2 ^ 16 ∧ (w.who, w.va) ∈ f.waiters) ∧
      (entry.getLsbD 0 = true → s.malformed part w.level entry = false → entry.getLsbD 1 = true →
        ∃ t : State, exec (.translationWalk i) s = .next t ∧ t.walks = s.walks.eraseIdx i ∧ (t.ctxAt n x).st = .run ∧ SameBytes q t ∧
          (s.tlbFind w.cl w.vf w.va = none → t.translate w.cl w.vf w.va =
            some (s.leafPhys w.vf w.va { vf := w.vf, level := w.level, page := w.va / 2 ^ levelBits w.level, entry := entry }))) ∧
      (entry.getLsbD 0 = true → s.malformed part w.level entry = false → entry.getLsbD 1 = false →
        ∃ (t : State) (z : Walk), exec (.translationWalk i) s = .next t ∧ t.walks[i]? = some z ∧ z.level = w.level + 1 ∧
          z.table = bitsOf entry 59 16 * 2 ^ 16 ∧ z.va = w.va ∧ SameBytes q t)) ∧
    (s.up = true → ∀ f a : Nat,
      let q := s.fep f
      let delegated := fun c : Nat => q.mode ≠ .machine ∧ (tabGet 0 q.csr 0x302).getLsbD c = true
      (∀ c, q.fault a 8 .write = some c → ∃ t : State, exec (.registerWrite (.fep f) a val) s = .next t ∧ SameBytes s t ∧ t.reqs = s.reqs ∧
        (q.tenant = none → ¬delegated c → (t.fep f).mode = .machine ∧ (t.fep f).prior = q.mode ∧ (t.fep f).mcause = BitVec.ofNat 64 c ∧
          (t.fep f).mtval = BitVec.ofNat 64 a ∧ (t.fep f).get 0x341 = q.pc ∧ (t.fep f).pc = (tabGet 0 q.csr 0x305 &&& ~~~ 3#64)) ∧
        (q.tenant = none → delegated c → (t.fep f).mode = .supervisor ∧ (t.fep f).get 0x142 = BitVec.ofNat 64 c ∧
          (t.fep f).get 0x143 = BitVec.ofNat 64 a ∧ (t.fep f).get 0x141 = q.pc ∧ (t.fep f).pc = (tabGet 0 q.csr 0x105 &&& ~~~ 3#64)) ∧
        (∀ n, q.tenant = some n → q.mode = .user → (t.vf n).plug.stopped = true)) ∧
      (q.waits = false → q.fault q.pc.toNat 2 .exec = none → ∀ (n d : Nat) (sext : Bool) (pc : Word), 0 < d → d < 32 → q.fault a n .read = none →
        (∀ o, fepPlace a = some (.sram o) → ∃ t : State, s.fepAct f (.load n sext d a pc) = some t ∧ (t.fep f).pc = pc ∧ SameBytes s t ∧
          tabGet 0 (t.fep f).x d = (if sext then BitVec.ofInt 64 (sInt (8 * n) (memNat s.mem (fepBase + o) n))
            else BitVec.ofNat 64 (memNat s.mem (fepBase + o) n))) ∧
        (∀ pa, fepPlace a = some (.memory pa) → pa < s.capacity (s.fepPart f) →
          ∃ (t : State) (r : Req), s.fepAct f (.load n sext d a pc) = some t ∧ (t.fep f).pc = pc ∧ (t.fep f).waits = true ∧
            t.reqs = s.reqs ++ [r] ∧ r.core = ioDie ∧ r.cls = 1 ∧ r.home = s.homeSlice (s.fepPart f) pa ∧ r.addr = partKey (s.fepPart f) pa ∧
            r.op = .look n sext d 0 0 ∧ SameBytes s t)) ∧
      (q.waits = false → q.fault q.pc.toNat 2 .exec = none → q.mode = .machine →
        ∃ t : State, s.fepAct f .mret = some t ∧ (t.fep f).mode = q.prior ∧ (t.fep f).pc = q.get 0x341 ∧ SameBytes s t) ∧
      (q.fault a 8 .write = none →
        (MemOk s → ∀ o, fepPlace a = some (.sram o) → ∃ t : State, exec (.registerWrite (.fep f) a val) s = .next t ∧
          memBytes t.mem (fepBase + o) 8 = leBytes 8 val.toNat ∧ SameBytesBut s t (fepBase + o) 8) ∧
        (∀ pa, fepPlace a = some (.memory pa) → pa < s.capacity (bitsOf (tabGet 0 s.fepsel f) 5 0) →
          ∃ (t : State) (q : Req), exec (.registerWrite (.fep f) a val) s = .next t ∧ t.reqs = s.reqs ++ [q] ∧ q.core = ioDie ∧ q.cls = 1 ∧
            q.home = s.homeSlice (bitsOf (tabGet 0 s.fepsel f) 5 0) pa ∧ q.addr = partKey (bitsOf (tabGet 0 s.fepsel f) 5 0) pa ∧
            q.op = .store (leBytes 8 val.toNat) ∧ SameBytes s t))) ∧
    (s.up = true →
      let fires := fun (t : State) (i : Nat) => t.due.getLsbD i = true ∧ t.armed = s.armed ∧ t.snap = s.snap ∧ SameBytes s t ∧
        (s.armed = true → t.snapctl = s.snapctl) ∧ (s.armed = false → bitsOf s.snapctl 31 24 < 255 →
          bitsOf t.snapctl 31 24 = bitsOf s.snapctl 31 24 + 1);
      (val.getLsbD 0 = true → ∃ t : State, exec (.krel p val) s = .next t ∧ SameBytes s t ∧
        ∀ q ∈ t.l2, q.1 / 512 = p → ∀ l ∈ q.2, l.keep = false ∧ l.prio = 0) ∧
      (bitsOf val 38 16 * 2 ^ 16 + bitsOf val 63 40 * 2 ^ 16 ≤ s.capacity p → (∀ n ∈ s.vfsOf p, s.vfBusy n = false) →
        ∃ t : State, exec (.imgrWrite p val) s = .next t ∧ tabGet 0 t.imgr p = val &&& 0xFFFFFF7FFFFF0000#64 ∧ (s.vfsOf p = [] → SameBytes s t)) ∧
      (s.capacity p < bitsOf val 38 16 * 2 ^ 16 + bitsOf val 63 40 * 2 ^ 16 ∨ (∃ n ∈ s.vfsOf p, s.vfBusy n = true) → exec (.imgrWrite p val) s = .next s) ∧
      (p < 64 → val.getLsbD 63 = true → (tabGet 0 s.parts p).getLsbD 63 = false → s.partState p = 0 → rectFits val = true →
        (∀ q ∈ s.parts, q.2.getLsbD 63 = true ∨ bitsOf q.2 61 60 = 1 → rectsMeet val q.2 = false) →
        ∃ t : State, exec (.partCreate p val) s = .next t ∧ t.partState p = 2 ∧ (tabGet 0 t.parts p).getLsbD 63 = true ∧ tabGet 0 t.imgr p = 0 ∧
          t.partRect p = (bitsOf val 21 16, bitsOf val 15 11, bitsOf val 8 4, bitsOf val 3 0) ∧
          (∀ a, a / 2 ^ 48 = p → memGet t.mem a = 0) ∧ (∀ a, a / 2 ^ 48 ≠ p → memGet t.mem a = memGet s.mem a) ∧ ∀ j < 256, t.keySlot p j = KeySlot.empty) ∧
      (rectFits val = false ∨ (tabGet 0 s.parts p).getLsbD 63 = true →
        ∃ t : State, exec (.partCreate p val) s = .next t ∧ tabGet 0 t.parts p = tabGet 0 s.parts p ||| (1#64 <<< 62) ∧ SameBytes s t) ∧
      ((tabGet 0 s.parts p).getLsbD 63 = true → s.vfsOf p = [] →
        ∃ t : State, exec (.partDestroy p) s = .next t ∧ t.partState p = 1 ∧ (tabGet 0 t.parts p).getLsbD 63 = false ∧ SameBytes s t ∧
          ∀ j < 256, t.keySlot p j = KeySlot.empty) ∧
      ((tabGet 0 s.parts p).getLsbD 63 = false ∨ s.vfsOf p ≠ [] →
        ∃ t : State, exec (.partDestroy p) s = .next t ∧ tabGet 0 t.parts p = tabGet 0 s.parts p ||| (1#64 <<< 62) ∧ SameBytes s t) ∧
      (s.partState p = 1 → p < 64 → ∃ t : State, exec (.partScrubComplete p) s = .next t ∧ t.partState p = 0 ∧ (∀ a, a / 2 ^ 48 = p → memGet t.mem a = 0) ∧
        ∀ cl ∈ s.partClusters p, ∀ c < 16, (t.core (cl * 16 + c)).ctxs = [] ∧ (t.core (cl * 16 + c)).slots = [] ∧
          (cl * 16 + c < 8192 → ∀ o < 2 ^ 18, memGet t.mem (winKey (cl * 16 + c) 0 o) = 0)) ∧
      (v < 256 → s.vfBusy v = false →
        (val.getLsbD 63 = true → s.partState (bitsOf val 5 0) = 2 →
          ∃ t : State, exec (.vbindWrite v val) s = .next t ∧ t.bound v = true ∧ t.vfPart v = bitsOf val 5 0 ∧
            (tabGet 0 t.troot v).getLsbD 63 = false ∧ (s.imageSize (bitsOf val 5 0) = 0 → (t.vf v).imgva = 0) ∧ SameBytes s t) ∧
        (val.getLsbD 63 = true → s.partState (bitsOf val 5 0) ≠ 2 → exec (.vbindWrite v val) s = .next s) ∧
        (val.getLsbD 63 = false → ∃ t : State, exec (.vbindWrite v val) s = .next t ∧ t.bound v = false ∧
          (tabGet 0 t.troot v).getLsbD 63 = false ∧ (t.vf v).imgva = 0 ∧ SameBytes s t)) ∧
      (s.vfBusy v = true → exec (.vbindWrite v val) s = .next s) ∧
      (0 < k → k < 4096 → ∃ t : State, exec (.svalWrite v k val) s = .next t ∧ (t.signal v k).1 = (s.signal v k).1 + val ∧
        (t.signal v k).2 = (s.signal v k).2 ∧ (∀ j < 4096, j ≠ k → t.signal v j = s.signal v j) ∧ SameBytes s t) ∧
      (∀ lo hi : BitVec 8, ∃ t : State, exec (.hfverNegotiate v lo hi) s = .next t ∧ SameBytes s t ∧
        (lo.toNat ≤ 1 → 1 ≤ hi.toNat → bitsOf (t.vf v).hfver 23 16 = 1 ∧ (t.vf v).hfver.getLsbD 24 = false) ∧
        (1 < lo.toNat ∨ hi = 0 → bitsOf (t.vf v).hfver 23 16 = 0 ∧ (t.vf v).hfver.getLsbD 24 = true)) ∧
      (∃ t : State, exec .snapArm s = .next t ∧ t.armed = true ∧ bitsOf t.snapctl 11 8 = 0 ∧ t.snap = s.snap ∧ SameBytes s t) ∧
      (s.snapctl.getLsbD 2 = true → s.due.getLsbD 2 = false → ∃ t : State, exec .snapHostFire s = .next t ∧ fires t 2) ∧
      (∃ t : State, exec (.registerWrite .pf 0x10 val) s = .next t ∧ SameBytes s t ∧
        (400 ≤ val.toNat % 2 ^ 16 → val.toNat % 2 ^ 16 ≤ 2200 → t.pwr.toNat % 2 ^ 16 = val.toNat % 2 ^ 16 ∧ t.pwr.toNat / 2 ^ 16 = s.pwr.toNat / 2 ^ 16) ∧
        (val.toNat % 2 ^ 16 < 400 ∨ 2200 < val.toNat % 2 ^ 16 → t = s)) ∧
      (v < 256 → ∀ f, (s.fep f).fault (0x1200000 + 8 * v) 8 .write = none →
        ∃ t : State, exec (.registerWrite (.fep f) (0x1200000 + 8 * v) val) s = .next t ∧ (tabGet 0 t.troot v).getLsbD 63 = val.getLsbD 63 ∧
        bitsOf (tabGet 0 t.troot v) 48 16 = bitsOf val 48 16 ∧ t.vfPart v = s.vfPart v ∧ (s.bound v = false → SameBytes s t)) ∧
      (d < 4 → k < 8 → ∀ f, (s.fep f).fault (0x1240000 + 64 * d + 8 * k) 8 .write = none →
        ∃ t : State, exec (.registerWrite (.fep f) (0x1240000 + 64 * d + 8 * k) val) s = .next t ∧
        tabGet 0 t.errs (8 * d + k) = tabGet 0 s.errs (8 * d + k) &&& ~~~val ∧ SameBytes s t) ∧
      (0 < k → k < 4096 → ∃ t : State, exec (.registerWrite (.bar v) (0x8008 + 16 * k) val) s = .next t ∧ (t.signal v k).2 = val ∧
        (t.signal v k).1 = (s.signal v k).1 ∧ SameBytes s t) ∧
      (∀ b < 1024, exec (.patrolScrub p e b .good) s = .next s ∧
        let key := partKey p (e * 2 ^ 16 + 64 * b)
        let die := s.burstDie p (e * 2 ^ 16 + 64 * b)
        (∃ t : State, exec (.patrolScrub p e b .uncorrectable) s = .next t ∧ (∀ j < 8, t.poisoned (key + 8 * j) = true) ∧ SameBytes s t ∧
          ((tabGet [] s.rrow die).length < 64 → (tabGet 0 s.errs (8 * die)).toNat / 2 ^ 32 < 2 ^ 32 - 1 →
            tabGet 0 t.errs (8 * die) = tabGet 0 s.errs (8 * die) + 0x100000000)) ∧
        (∃ t : State, exec (.patrolScrub p e b .corrected) s = .next t ∧ t.poison = s.poison ∧ SameBytes s t))) ∧
    (s.tinv.getLsbD 63 = true → exec (.tinvPage v p) s = .next s ∧ exec (.tinvVf v) s = .next { s with fresh := s.fresh + 1 } ∧
      (s.tinvHeld = true → exec .tinvComplete s = .next s.tinvDrop) ∧
      (s.tinvHeld = false → s.vfPending (bitsOf s.tinv 15 8) = false →
        ∃ t : State, exec .tinvComplete s = .next t ∧ t.tinv.getLsbD 63 = false ∧ bitsOf t.tinv 62 0 = bitsOf s.tinv 62 0 ∧ SameBytes s t)) ∧
    (s.tinv.getLsbD 63 = false → s.fepQuiet = true → v < 256 → p < 2 ^ 33 →
      (∃ t : State, exec (.tinvPage v p) s = .next t ∧ t.tinv.getLsbD 63 = true ∧ bitsOf t.tinv 1 0 = 1 ∧ bitsOf t.tinv 15 8 = v ∧
        bitsOf t.tinv 48 16 = p ∧ SameBytes s t ∧ ∀ cl ∈ s.vfClusters v, ∀ o < 2 ^ 16, t.translate cl v (p * 2 ^ 16 + o) = none) ∧
      (∃ t : State, exec (.tinvVf v) s = .next t ∧ t.tinv.getLsbD 63 = true ∧ bitsOf t.tinv 1 0 = 2 ∧ bitsOf t.tinv 15 8 = v ∧ SameBytes s t ∧
        ∀ cl ∈ s.vfClusters v, ∀ a, t.translate cl v a = none)) ∧
    (∀ f n x u a l, s.fepQuiet = true → s.fq.find? (fun f => f.die == d && f.index == some e) = some f → f.waiters = (.ctx n x u, a) :: l →
      (s.ctxAt n x).uid = u → (s.ctxAt n x).st = .parked →
      ((s.ctxAt n x).sfuHeld = [] → ∃ (t : State) (r : Replay), exec (.fresReplay d e) s = .next t ∧ (t.ctxAt n x).st = .run ∧
        (t.ctxAt n x).pc = (s.ctxAt n x).pc ∧ t.replays = s.replays ++ [r] ∧ r.head = .ctx n x u ∧ r.rest = l.map (·.1) ∧ SameBytes s t) ∧
      (l = [] → ∃ (t : State) (q : Raised), exec (.fresFail d e) s = .next t ∧ t.raised = s.raised ++ [q] ∧ q.core = n ∧ q.uid = u ∧ q.cause = 5 ∧
        q.value = BitVec.ofNat 64 a ∧ q.upc = (s.ctxAt n x).pc ∧ (t.ctxAt n x).st = .ending ∧ SameBytes s t)) ∧
    (let fires := fun (t : State) (i : Nat) => t.due.getLsbD i = true ∧ t.armed = s.armed ∧ t.snap = s.snap ∧ SameBytes s t ∧
        (s.armed = true → t.snapctl = s.snapctl) ∧ (s.armed = false → bitsOf s.snapctl 31 24 < 255 →
          bitsOf t.snapctl 31 24 = bitsOf s.snapctl 31 24 + 1);
      (s.cycle / 2 ^ 32 % 2 ^ 32 = bitsOf s.snapctl 63 32 → s.snapctl.getLsbD 1 = true → s.due.getLsbD 1 = false →
        ∃ t : State, exec .snapCounterTrigger s = .next t ∧ fires t 1) ∧
      (s.snapctl.getLsbD 3 = true → s.due.getLsbD 3 = false → ∃ t : State, exec .snapPinTrigger s = .next t ∧ fires t 3) ∧
      (s.due ≠ 0 → s.armed = true → (∃ q, (s.snapEnd).snap = some q ∧ q.cycle = s.cycle ∧ (q.cores.map (·.1)) = (s.cores.map (·.1))) ∧
        (s.snapEnd).armed = false ∧ (s.snapEnd).due = 0 ∧
        ∀ i < 4, (s.snapEnd).snapctl.getLsbD (8 + i) = (s.snapctl.getLsbD (8 + i) || s.due.getLsbD i))) ∧
    (∀ m : BitVec 16, ∃ t : State, exec (.powerControlTick m) s = .next t ∧ bitsOf t.pwr 15 0 = bitsOf s.pwr 15 0 ∧
      bitsOf t.pwr 31 16 = m.toNat ∧ SameBytes s t ∧ bitsOf t.pwr 35 32 =
        (if bitsOf s.pwr 15 0 < m.toNat then min 12 (bitsOf s.pwr 35 32 + 1)
         else if m.toNat + 50 < bitsOf s.pwr 15 0 then bitsOf s.pwr 35 32 - 1 else bitsOf s.pwr 35 32)) ∧
    (s.bootst = 0 → ∀ f : Nat,
      let fits := (flashImage 32).length ≤ 2 ^ 24
      (f = 1 → ∃ t : State, exec (.boot f) s = .next t ∧ t.bootst = 1) ∧
      (f ≠ 1 → blockGood = false → ∃ t : State, exec (.boot f) s = .next t ∧ t.bootst = 2 ∧ t.pwr = s.pwr ∧ SameBytes s t) ∧
      (blockGood = true → f = 3 ∨ (f ≠ 1 ∧ ¬fits) → ∃ t : State, exec (.boot f) s = .next t ∧ t.bootst = 3 ∧ SameBytes s t) ∧
      (blockGood = true → fits → 4 ≤ f → f ≤ 6 → ∃ t : State, exec (.boot f) s = .next t ∧ t.bootst = BitVec.ofNat 64 f ∧ t.feps = s.feps) ∧
      (MemOk s → blockGood = true → fits → f = 0 ∨ 6 < f →
        ∃ t : State, exec (.boot f) s = .next t ∧ t.bootst = 0x80 ∧ t.cores = [] ∧ t.parts = [] ∧ t.keySlots = [] ∧ t.vbind = [] ∧
          (∀ a < hostBase, a < fepBase ∨ fepBase + 2 ^ 24 ≤ a → memGet t.mem a = 0) ∧
          memBytes t.mem fepBase (flashImage 32).length = flashImage 32 ∧ (∀ a, hostBase ≤ a → memGet t.mem a = memGet s.mem a) ∧
          bitsOf t.pwr 15 0 = (if flashNat 66 2 = 0 then 2200 else flashNat 66 2) ∧
          t.udp.toNat = (if flashNat 64 2 = 0 then 19290 else flashNat 64 2) ∧
          ∀ f < 8, (t.fep f).mode = .supervisor ∧ ∀ j < 4, ((t.fep f).cfg.getD j 0).getLsbD 7 = true))

/-- The SEP, links and packages (R350 to R354, R365, R367 to R369): SPDM answers, key slots installed and revoked inside a session, retries
of packets, the versions and transfers of other packages. Choices by log 5, 6, 7, 37 and 65. -/
def Obligations.SecurityAndLinksResult : Prop :=
  ∀ (s : State) (v n i p k : Nat),
    let answer := fun (t : State) => (t.vf v).spdm.answer
    (∀ theirs : List (BitVec 8), ∃ t : State, exec (.getVersion ⟨v, theirs⟩) s = .next t ∧ answer t = [(0, [0x12, 0x13])] ∧
      (t.vf v).spdm.version = (if 0x13 ∈ theirs then some 0x13 else if 0x12 ∈ theirs then some 0x12 else none) ∧ SameBytes s t) ∧
    (s.up = false → ∀ j ∈ ([.getMeasurements v i, .getCertificate v, .challenge v n, .keyExchange v n] : List Instr),
      ∃ t : State, exec j s = .next t ∧ answer t = [(0x7F, [])] ∧ SameBytes s t) ∧
    (s.up = true →
      let digest := fun (e : Nat) => leBytes 48 (Config.sha384 (flashImage e)).toNat
      (∀ b, (i, b) ∈ ([(1, digest 16), (2, digest 32), (3, flashBytes 0 224)] : List (Nat × List Byte)) ∨
          (s.bound v = true ∧ (i, b) ∈ ([(4, leBytes 8 (rectOf (tabGet 0 s.parts (s.vfPart v)))), (16, s.manifest (s.vfPart v))] :
            List (Nat × List Byte))) →
        ∃ t : State, exec (.getMeasurements v i) s = .next t ∧
          answer t = [(i, b), (signatureTag, Config.signed 2 (Config.sha384 b))] ∧ SameBytes s t) ∧
      (s.bound v = true → ∃ t : State, exec (.getMeasurements v 255) s = .next t ∧ (answer t).map (·.1) = [1, 2, 3, 4, 16, signatureTag] ∧ SameBytes s t) ∧
      (∃ t : State, exec (.getCertificate v) s = .next t ∧ answer t = [(0, flashImage 48)] ∧ SameBytes s t) ∧
      (∃ t : State, exec (.challenge v n) s = .next t ∧ answer t = [(0, leBytes 32 n), (1, Config.signed 0 (Config.sha384 (leBytes 32 n)))] ∧
        (t.vf v).spdm.session = (s.vf v).spdm.session ∧ SameBytes s t) ∧
      ((s.vf v).spdm.version.isSome = true → s.bound v = true →
        ∃ t : State, exec (.keyExchange v n) s = .next t ∧ (t.vf v).spdm.session = some (s.vfPart v) ∧ SameBytes s t) ∧
      ((s.vf v).spdm.version = none ∨ s.bound v = false → ∃ t : State, exec (.keyExchange v n) s = .next t ∧ answer t = [(0x7F, [])] ∧
        (t.vf v).spdm.session = (s.vf v).spdm.session ∧ SameBytes s t) ∧
      (∀ l : List Word, (s.vf v).spdm.session = some p → s.bound v = false ∨ s.vfPart v ≠ p → ∀ j ∈ ([.keySlotInstall v l, .keySlotRevoke v l] : List Instr),
        ∃ t : State, exec j s = .next t ∧ answer t = [(0x7F, [])] ∧ t.keySlots = s.keySlots ∧ SameBytes s t) ∧
      (∀ l : List Word, (s.vf v).spdm.session = some p → s.bound v = true → s.vfPart v = p →
        let d := fun j => l.getD j 0
        let q := bitsOf (d 0) 15 8
        (installBad l = true → ∃ t : State, exec (.keySlotInstall v l) s = .next t ∧ answer t = [(0, [2])] ∧ t.keySlots = s.keySlots ∧ SameBytes s t) ∧
        (installBad l = false → (s.keySlot p q).valid = true → ∃ t : State, exec (.keySlotInstall v l) s = .next t ∧ answer t = [(0, [1])] ∧
          t.keySlots = s.keySlots ∧ SameBytes s t) ∧
        (installBad l = false → (s.keySlot p q).valid = false → ∃ t : State, exec (.keySlotInstall v l) s = .next t ∧ answer t = [(0, [0])] ∧
          (t.keySlot p q).valid = true ∧ (t.keySlot p q).revoking = false ∧ (t.keySlot p q).model = d 1 ∧ (t.keySlot p q).base = (d 2).toNat ∧
          (t.keySlot p q).size = (d 3).toNat ∧ (t.keySlot p q).digs.length = bitsOf (d 0) 19 16 ∧
          (∀ j < 256, j ≠ q → t.keySlot p j = s.keySlot p j) ∧ SameBytes s t) ∧
        (l.length = 1 → bitsOf (d 0) 63 16 = 0 → bitsOf (d 0) 7 0 = 2 → q ≠ 0 →
          ((s.keySlot p q).valid = false → ∃ t : State, exec (.keySlotRevoke v l) s = .next t ∧ answer t = [(0, [3])] ∧ SameBytes s t) ∧
          ((s.keySlot p q).valid = true → ∃ t : State, exec (.keySlotRevoke v l) s = .next t ∧ (t.keySlot p q).revoking = true ∧
            ∀ e ∈ t.l2, e.1 / 512 = p → ∀ x ∈ e.2, x.slot ≠ q))) ∧
      ((s.vf v).spdm.session = none → ∀ l, ∃ t : State, exec (.keySlotInstall v l) s = .next t ∧ answer t = [(0x7F, [])] ∧ t.keySlots = s.keySlots) ∧
      ((s.keySlot p k).revoking = true → ∃ t : State, exec (.revokeComplete p k) s = .next t ∧ t.keySlot p k = KeySlot.empty ∧ SameBytes s t) ∧
      (∃ t : State, exec (.hello n 1) s = .next t ∧ tabGet 0 t.pkgVer n = 1 ∧ SameBytes s t) ∧
      (∀ u, u ≠ 1 → ∃ t : State, exec (.hello n u) s = .next t ∧ tabGet 0 t.pkgVer n = 2 ∧ SameBytes s t) ∧
      (∀ rq,
        (Config.pkgValid (s.pkgEntry n) = false ∨ Config.pkgImport (s.pkgEntry n) = false ∨ tabGet 0 s.pkgVer n ≠ 1 ∨
            2 ^ 49 < remoteAddr rq + remoteLen rq →
          ∃ t : State, exec (.remoteTransferRequest n (some rq)) s = .next t ∧ t.reports = s.reports ++ [(n, 1, [])] ∧ SameBytes s t) ∧
        (Config.pkgValid (s.pkgEntry n) = true → Config.pkgImport (s.pkgEntry n) = true → tabGet 0 s.pkgVer n = 1 →
          remoteAddr rq + remoteLen rq ≤ 2 ^ 49 →
          ∃ (t : State) (y : Inbound), exec (.remoteTransferRequest n (some rq)) s = .next t ∧ t.transfers = s.transfers ++ [y] ∧ y.pkg = n ∧ y.rq = rq ∧
            y.id = s.nextReq ∧ y.vf = Config.importVf (s.pkgEntry n) ∧ y.parked = false ∧ y.grans = none ∧ t.reports = s.reports ∧ SameBytes s t)) ∧
      (∀ y, s.transfers.find? (·.id == n) = some y → y.parked = false → y.grans = none →
        let pages := pageStarts [(remoteAddr y.rq, remoteLen y.rq, remoteWrites y.rq)]
        let maps := s.gathered ((s.vfClusters y.vf).headD 0) y.vf y.maps pages
        missing maps y.vf pages = none →
        ((∃ x ∈ s.pagesOf y.vf maps pages, x.2.2.slot ≠ 0 ∨ (x.2.1 = true ∧ x.2.2.write = false)) →
          ∃ t : State, exec (.remoteTransferRequest n none) s = .next t ∧ t.reports = s.reports ++ [(y.pkg, 1, [])] ∧
            (∀ x ∈ t.transfers, x.id ≠ n) ∧ SameBytes s t) ∧
        ((∀ x ∈ s.pagesOf y.vf maps pages, x.2.2.slot = 0 ∧ (x.2.1 = true → x.2.2.write = true)) →
          ∃ (t : State) (z : Inbound), exec (.remoteTransferRequest n none) s = .next t ∧ z ∈ t.transfers ∧ z.id = n ∧ z.pkg = y.pkg ∧ z.rq = y.rq ∧
            z.grans = some (s.gransOf maps y.vf true (remoteAddr y.rq) (remoteLen y.rq) 0) ∧ t.reports = s.reports ∧ SameBytes s t)) ∧
      (∀ y gs, s.transfers.find? (·.id == n) = some y → y.grans = some gs →
        ((∃ g ∈ gs, g.got = none ∧ s.ownedUnit g.key = false) →
          ∃ (t : State) (z : Inbound) (l : List Gran) (g h : Gran), exec (.remoteTransferRequest n none) s = .next t ∧ g ∈ gs ∧ g.got = none ∧
            z ∈ t.transfers ∧ z.id = n ∧ z.rq = y.rq ∧ z.grans = some l ∧ h ∈ l ∧ h.va = g.va ∧ h.got.isSome = true ∧ t.reports = s.reports) ∧
        ((∀ g ∈ gs, g.got.isSome = true) → ∃ t : State, exec (.remoteTransferRequest n none) s = .next t ∧ (∀ x ∈ t.transfers, x.id ≠ n) ∧
          t.reports = s.reports ++ [(y.pkg, 0, match y.rq with | .put _ _ => [] | .get a m => (granBytes gs 0 a m).1)] ∧ SameBytes s t))) ∧
    (exec (.lintelPacketReceive ⟨k, i⟩ true) s = .next s) ∧
    (let j := i / 8
      let counted := fun (t : State) (tries : Nat) =>
        let w := tabGet 0 s.errs (8 * k + 2)
        (8 ≤ tries → w.toNat / 2 ^ 32 < 2 ^ 32 - 1 → tabGet 0 t.errs (8 * k + 2) = w + 0x100000000) ∧
        (tries < 8 → w.toNat % 2 ^ 32 < 2 ^ 32 - 1 → tabGet 0 t.errs (8 * k + 2) = w + 1);
      (i % 8 = 0 → ∀ r, s.reqs.find? (·.id == j) = some r → r.st = 0 → (∀ q ∈ s.reqs, q.id = j → q = r) →
        ∃ t : State, exec (.lintelPacketReceive ⟨k, i⟩ false) s = .next t ∧ SameBytes s t ∧ counted t r.tries ∧ (∀ q ∈ s.reqs, q.id ≠ j → q ∈ t.reqs) ∧
          (r.tries < 8 → { r with tries := r.tries + 1 } ∈ t.reqs) ∧ (8 ≤ r.tries → { r with bad := true } ∈ t.reqs)) ∧
      (i % 8 = 1 → ∀ f, s.fills[j]? = some f → ∃ t : State, exec (.lintelPacketReceive ⟨k, i⟩ false) s = .next t ∧ SameBytes s t ∧ counted t f.tries ∧
        t.reqs = s.reqs ∧ (f.tries < 8 → t.fills[j]? = some { f with tries := f.tries + 1 }) ∧
        (8 ≤ f.tries → ∃ g, t.fills[j]? = some g ∧ g.err ≠ 0 ∧ g.uid = f.uid ∧ g.reg = f.reg ∧ g.val = f.val)) ∧
      (i % 8 = 2 → ∀ r, s.reqs.find? (·.id == j) = some r → (∀ q ∈ s.reqs, q.id = j → q = r) →
        ∃ t : State, exec (.lintelPacketReceive ⟨k, i⟩ false) s = .next t ∧ SameBytes s t ∧ counted t r.rtries ∧
          (r.rtries < 8 → { r with rtries := r.rtries + 1 } ∈ t.reqs) ∧ (8 ≤ r.rtries → { r with rbad := true } ∈ t.reqs)) ∧
      (i % 8 = 3 → ∀ w l, (s.core (j / 4)).outbound (j % 4) = w :: l →
        ∃ t : State, exec (.lintelPacketReceive ⟨k, i⟩ false) s = .next t ∧ SameBytes s t ∧ counted t w.2.2 ∧
          (t.core (j / 4)).outbound (j % 4) = (w.1, w.2.1, w.2.2 + 1) :: l) ∧
      (i % 8 = 4 → ∀ m, s.migs[j]? = some m → ∃ t : State, exec (.lintelPacketReceive ⟨k, i⟩ false) s = .next t ∧ SameBytes s t ∧ counted t m.tries ∧
        t.migs[j]? = some { m with tries := m.tries + 1 }) ∧
      (i % 8 = 5 → ∀ r g, (s.core (j / 2 ^ 20)).copyRun = some r → r.grans[j % 2 ^ 20]? = some g → g.got = none →
        ∃ (t : State) (q : Command), exec (.lintelPacketReceive ⟨k, i⟩ false) s = .next t ∧ SameBytes s t ∧ counted t g.tries ∧
          (t.core (j / 2 ^ 20)).copyRun = some q ∧ q.grans[j % 2 ^ 20]? = some { g with tries := g.tries + 1 })) ∧
    (∃ t : State, exec (.retransmitTimeout n) s = .next t ∧ tabGet 0 t.resent n = tabGet 0 s.resent n + 1 ∧ t.reports = s.reports ∧ SameBytes s t) ∧
    (∀ r, (s.core n).copyRun = some r → r.begun = true → r.op = 6 ∨ r.op = 7 → r.status = none → (∀ g ∈ r.grans, g.got.isSome = true) →
      ∃ (t : State) (q : Command), exec (.ackTimeout n) s = .next t ∧ (t.core n).copyRun = some q ∧ q.status = some 1 ∧ q.id = r.id ∧ SameBytes s t)

/-- Words written out field by field, from the high bit down, as R131 to R134 lay the formats out, decode to the instructions they stand
for; among them the rows of spec/07's own table. -/
def Obligations.WordsDecode : Prop :=
  decodeTableWord 32 0b0000000_00011_00010_000_00001_0110011 = some (.add 1 2 3) ∧
  decodeTableWord 32 0b111111111110_00010_011_00001_0000011 = some (.ld 1 2 0xFFE) ∧
  decodeTableWord 32 0b0000001_00011_00010_011_11111_0100011 = some (.sd 3 2 0x03F) ∧
  decodeTableWord 32 0b1_000001_00011_00010_001_0010_0_1100011 = some (.bne 2 3 0x812) ∧
  decodeTableWord 32 0b0_0000000010_1_10000001_00001_1101111 = some (.jal 1 0x40C02) ∧
  decodeTableWord 16 0b011_1_00001_11111_01 = some (.cLui 1 0x3F) ∧
  decodeTableWord 48 0x3FC000004A1F = some (.fli 10 0x3FC00000) ∧
  decodeTableWord 32 0x24B5310B = some (.gcmpLt 2 10 11) ∧
  decodeTableWord 32 0x0037427B = some (.mma 0 0 10 11 1 1) ∧
  decodeTableWord 32 0b0000100_00000_00010_010_00001_0001011 = some (.fest 1 2) ∧
  decodeTableWord 32 0b0000000_01000_01000_000_00001_0101011 = none ∧
  decodeTableWord 32 0b0010_011_00110_00101_000_00100_1011011 = some (.vmul 3 4 5 6) ∧
  (decodeInstr 3 0x0037437B).2 = .error 2 ∧ (decodeInstr 3 0x0000438B).2 = .error 2 ∧ (decodeInstr 3 0x0FF0000F).2 = .error 1 ∧
  (decodeInstr 3 0).2 = .error 1 ∧ decodeUnit 3 0x24B5310B900C = ⟨6, 2, ⟨3, true⟩, .ok (.gcmpLt 2 10 11)⟩

/-- Decoding undoes encoding, for every well-formed instruction with every operand its encoding admits: its own word, and a unit of the
code stream that begins with its bytes, whatever follows; and behind a guard prefix (R129 to R135, R147). -/
def Obligations.DecodingUndoesEncoding : Prop :=
  ∀ i : Instr, i.wf = true → encode i ≠ .none →
    decodeEnc i.level (encode i) = .ok i ∧
    (∀ w : BitVec 80, (∀ j < (encodeBytes i).length, w.extractLsb' (8 * j) 8 = (encodeBytes i).getD j 0) →
      decodeUnit i.level w = ⟨(encodeBytes i).length, 0, ⟨i.gField, false⟩, .ok i⟩) ∧
    (∀ (w : BitVec 80) (g : GReg) (v : BitVec 1), i.gField = 0 → i.level = 3 → (∀ k d a b, i ≠ .vsel k d a b) →
      w.extractLsb' 0 16 = 0b100#3 ++ v ++ 0#7 ++ g ++ 0#2 →
      (∀ j < (encodeBytes i).length, w.extractLsb' (16 + 8 * j) 8 = (encodeBytes i).getD j 0) →
      decodeUnit 3 w = ⟨2 + (encodeBytes i).length, 2, ⟨g, v == 1⟩, .ok i⟩)

/-- A step (R25, R129, R130, R136, R144, R163, R344). An event the outside world has placed, and that need not wait, is performed first,
then what strikes a memory, then another act of the outside world that need not wait. Otherwise, with nothing else enabled, or where the
model's free choice falls on it (log 1), the running core whose turn it is fetches the unit of the wheel's owner: its bytes are the memory
at its pc in its partition, read at its home; a unit that decodes, is not guarded off and is ready is performed by exec, a unit guarded off
only retires, a decode trap goes to `undefinedUnit` whatever the guard holds; then the core's turn ends. Rests on log 1 (the free choice
among permitted steps), log 39 (events of the outside world in a list), log 61 (latencies) and log 40 (how a program comes to run). -/
def Obligations.StepRunsTheDecodedUnit : Prop :=
  ∀ s : State,
    (∀ i l, s.agenda = i :: l → external i = true → s.waitsFor i = false → step s = exec i { s with agenda := l }) ∧
    (∀ u l, s.agenda = [] → s.upsets = u :: l → step s = .next (State.upset { s with upsets := l } u)) ∧
    (∀ t, s.agenda = [] → s.upsets = [] → s.takeInput = some t → step s = .next t) ∧
    (∀ (b : State) (n : Nat),
      (s.agenda = [] ∧ s.upsets = [] ∧ s.takeInput = none ∨ ∃ i l, s.agenda = i :: l ∧ external i = true ∧ s.waitsFor i = true) →
      (s.events = [] ∧ b = s ∨
        s.events ≠ [] ∧ s.events[Config.pick s.choice % (s.events.length + 1)]? = none ∧ b = { s with choice := s.choice + 1 }) →
      b.runs.find? (b.turn ≤ ·) = some n →
      let x := b.position n
      let c := b.ctxAt n x
      let r := (b.onCore n fun k => { k with stalled := 0 }).fetchAt n c.pc
      let f := r.fetch n c.pc
      let u := f.unit
      let q := (r.fetched n c.pc).issuing n x c.pc f
      let ends := fun t : State => (t.onCore n fun k => { k with issued := k.issued + 1 }).turnEnd n
      q.iss.core = n ∧ q.iss.ctx = x ∧ q.iss.upc = c.pc ∧ q.iss.npc = c.pc + BitVec.ofNat 64 u.len ∧ q.mem = r.mem ∧ q.cur = c ∧
      ((s.core n).icache = [] → (s.core n).abase.toNat ≤ c.pc.toNat → c.pc.toNat + 10 ≤ (s.core n).abound.toNat →
        (∀ k < 64, r.named (s.teamOf n).part (partKey (s.teamOf n).part (c.pc.toNat + k)) = true) →
        u = decodeUnit (s.core n).level (BitVec.ofNat 80 (memNat r.mem (partKey (s.teamOf n).part c.pc.toNat) 10))) ∧
      (b.idle n x = false →
        (∀ i t, u.ins = .ok i → q.decodeTrap f = none → c.guard u.guard.reg ≠ u.guard.inv → q.controlAt i = none → q.ready i = true →
          f.poison = false → q.parityHit i = false → q.poisonedWord i = false → exec i q = .next t → q.moved t n x = true → step s = .next (ends t)) ∧
        (∀ i, u.ins = .ok i → q.decodeTrap f = none → c.guard u.guard.reg = u.guard.inv → (∀ g t a b k m, i ≠ .gmma g t a b k m) →
          step s = .next (ends q.retire)) ∧
        (∀ cause value t, q.decodeTrap f = some (cause, value) → exec (.undefinedUnit cause value) q = .next t → q.moved t n x = true →
          step s = .next (ends t))))

/-- Every step keeps memory canonical: addresses rise strictly and no entry holds what an unlisted address reads as, so equal memories are
equal lists (the model's form of the address spaces of R55 to R60). The canonical list is the model's own form of memory (log 4). -/
def Obligations.StepKeepsMemoryCanonical : Prop := ∀ s t : State, MemOk s → step s = .next t → MemOk t

/-- The package at reset: memory is canonical, all of it but the host's reads zero (log 4), every core is stopped and empty with its control
state 0, of every context g0 is true and guards g1 to g7 are false (R158), the clock counts from 0, no partition, key slot, team, launch or
host queue exists, the snapshot unit is off, and boot is still to come. The clauses on the context's fields, on memory that is not the
host's and on the model's own lists rest on log 2, 3 and 4. -/
def Obligations.ResetState : Prop :=
  MemOk State.reset ∧ (∀ a < hostBase, memGet State.reset.mem a = 0) ∧
  (∀ n x : Nat, let c := State.reset.core n
    c.stop = true ∧ c.cstate = 0 ∧ c.abase = 0 ∧ c.abound = 0 ∧ c.flatch = [] ∧ c.faulted = false ∧ c.bfmt = 0 ∧ c.events = 0 ∧
    c.compat = 0 ∧ c.mbox = [] ∧ c.team = none ∧ (c.ctx x).uid = 0 ∧ (c.ctx x).fcsr = 0 ∧ (∀ g : GReg, (c.ctx x).guard g = (g == 0)) ∧
    (c.ctx x).instret = 0) ∧
  (∀ p k, State.reset.partState p = 0 ∧ (State.reset.keySlot p k).valid = false) ∧
  State.reset.runs = [] ∧ State.reset.cycle = 0 ∧ State.reset.snapctl = 0 ∧ State.reset.pwr = 2200 ∧ State.reset.bootst = 0 ∧
  State.reset.tinv = 0 ∧ State.reset.reqs = [] ∧ State.reset.agenda = [] ∧ State.reset.inputs = [] ∧ State.reset.breaks = [] ∧
  State.reset.raised = [] ∧ State.reset.due = 0
end

