-- ==== Sys2Proof/Laws/Memory.lean ====
section
/-! SUPPORT. Laws of memory: every operation keeps the canonical form, a byte reads as it was written, and a write leaves every
other byte alone. -/

namespace Sys2Proof.Machine

/-- A bound that a key exceeds. -/
def aboveLo : Option Nat → Nat → Prop
  | none, _ => True
  | some l, k => l < k

theorem memWfFrom_cons {lo : Option Nat} {k : Nat} {v : Byte} {t : List (Nat × Byte)} :
    memWfFrom lo ((k, v) :: t) = true ↔ aboveLo lo k ∧ v ≠ memDefault k ∧ memWfFrom (some k) t = true := by
  cases lo <;> simp [memWfFrom, aboveLo, and_assoc]

/-- A canonical list is canonical above any smaller bound. -/
theorem memWfFrom_weaken {lo : Option Nat} {k : Nat} {m : List (Nat × Byte)} (h : memWfFrom (some k) m = true)
    (l : aboveLo lo k) : memWfFrom lo m = true := by
  cases m with
  | nil => rfl
  | cons p t =>
    obtain ⟨a, v⟩ := p
    rw [memWfFrom_cons] at h ⊢
    refine ⟨?_, h.2⟩
    cases lo with
    | none => trivial
    | some q => exact Nat.lt_trans l h.1

/-- A key at or below the bound is not listed. -/
theorem memGet_below {k a : Nat} {m : List (Nat × Byte)} (h : memWfFrom (some k) m = true) (l : a ≤ k) :
    memGet m a = memDefault a := by
  induction m generalizing k with
  | nil => rfl
  | cons p t ih =>
    obtain ⟨b, v⟩ := p
    rw [memWfFrom_cons] at h
    have hb : k < b := h.1
    have ne : ¬ b = a := by omega
    simp only [memGet, if_neg ne]
    exact ih h.2.2 (by omega)

/-- A write keeps the canonical form. -/
theorem memWfFrom_memSet {lo : Option Nat} {m : List (Nat × Byte)} {a : Nat} {b : Byte} (h : memWfFrom lo m = true)
    (l : aboveLo lo a) : memWfFrom lo (memSet m a b) = true := by
  induction m generalizing lo with
  | nil =>
    unfold memSet
    split
    · rfl
    · rw [memWfFrom_cons]
      exact ⟨l, by assumption, rfl⟩
  | cons p t ih =>
    obtain ⟨k, v⟩ := p
    have g := memWfFrom_cons.mp h
    unfold memSet
    split
    · split
      · exact h
      · rw [memWfFrom_cons]
        refine ⟨l, by assumption, ?_⟩
        rw [memWfFrom_cons]
        exact ⟨by assumption, g.2⟩
    · split
      · rename_i e
        subst e
        split
        · exact memWfFrom_weaken g.2.2 l
        · rw [memWfFrom_cons]
          exact ⟨l, by assumption, g.2.2⟩
      · rw [memWfFrom_cons]
        exact ⟨g.1, g.2.1, ih g.2.2 (show k < a by omega)⟩

theorem memWf_memSet {m : List (Nat × Byte)} (a : Nat) (b : Byte) (h : memWf m = true) : memWf (memSet m a b) = true :=
  memWfFrom_memSet h trivial

theorem memWf_memPut {m : List (Nat × Byte)} (a : Nat) (l : List Byte) (h : memWf m = true) : memWf (memPut m a l) = true := by
  induction l generalizing m a with
  | nil => exact h
  | cons b t ih => exact ih _ (memWf_memSet a b h)

/-- Leaving entries out keeps the canonical form. -/
theorem memWfFrom_filter {lo : Option Nat} {m : List (Nat × Byte)} (f : Nat × Byte → Bool) (h : memWfFrom lo m = true) :
    memWfFrom lo (m.filter f) = true := by
  induction m generalizing lo with
  | nil => rfl
  | cons p t ih =>
    obtain ⟨k, v⟩ := p
    have g := memWfFrom_cons.mp h
    rw [List.filter_cons]
    split
    · rw [memWfFrom_cons]
      exact ⟨g.1, g.2.1, ih g.2.2⟩
    · exact memWfFrom_weaken (ih g.2.2) g.1

theorem memWf_filter {m : List (Nat × Byte)} (f : Nat × Byte → Bool) (h : memWf m = true) : memWf (m.filter f) = true :=
  memWfFrom_filter f h

theorem memGet_memSet_same_from {lo : Option Nat} {m : List (Nat × Byte)} {a : Nat} {b : Byte} (h : memWfFrom lo m = true) :
    memGet (memSet m a b) a = b := by
  induction m generalizing lo with
  | nil =>
    unfold memSet
    split
    · rename_i e
      rw [e]
      rfl
    · simp [memGet]
  | cons p t ih =>
    obtain ⟨k, v⟩ := p
    have g := memWfFrom_cons.mp h
    unfold memSet
    split
    · split
      · rename_i l e
        have ne : ¬ k = a := by omega
        simp only [memGet, if_neg ne]
        rw [e]
        exact memGet_below g.2.2 (by omega)
      · simp [memGet]
    · split
      · rename_i e
        subst e
        split
        · rename_i e
          rw [e]
          exact memGet_below g.2.2 (Nat.le_refl _)
        · simp [memGet]
      · rename_i ne
        simp only [memGet, if_neg (Ne.symm ne)]
        exact ih g.2.2

/-- A byte reads as it was written. -/
theorem memGet_memSet_same {m : List (Nat × Byte)} (a : Nat) (b : Byte) (h : memWf m = true) : memGet (memSet m a b) a = b :=
  memGet_memSet_same_from h

theorem memGet_memSet_ne_from {lo : Option Nat} {m : List (Nat × Byte)} {a c : Nat} {b : Byte} (h : memWfFrom lo m = true)
    (ne : c ≠ a) : memGet (memSet m a b) c = memGet m c := by
  induction m generalizing lo with
  | nil =>
    unfold memSet
    split
    · rfl
    · simp [memGet, Ne.symm ne]
  | cons p t ih =>
    obtain ⟨k, v⟩ := p
    have g := memWfFrom_cons.mp h
    unfold memSet
    split
    · split
      · rfl
      · simp [memGet, Ne.symm ne]
    · split
      · rename_i e
        subst e
        split
        · simp only [memGet, if_neg (Ne.symm ne)]
        · simp [memGet, Ne.symm ne]
      · simp only [memGet]
        split
        · rfl
        · exact ih g.2.2

/-- A write leaves every other byte alone. -/
theorem memGet_memSet_ne {m : List (Nat × Byte)} {a c : Nat} (b : Byte) (h : memWf m = true) (ne : c ≠ a) :
    memGet (memSet m a b) c = memGet m c := memGet_memSet_ne_from h ne

/-- A store of bytes leaves every byte outside them alone. -/
theorem memGet_memPut_out {m : List (Nat × Byte)} {a c : Nat} {l : List Byte} (h : memWf m = true)
    (out : c < a ∨ a + l.length ≤ c) : memGet (memPut m a l) c = memGet m c := by
  induction l generalizing m a with
  | nil => rfl
  | cons b t ih =>
    simp only [List.length_cons] at out
    rw [memPut, ih (memWf_memSet a b h) (by omega), memGet_memSet_ne b h (by omega)]

/-- A store of bytes: each byte reads as stored. -/
theorem memGet_memPut_in {m : List (Nat × Byte)} {a i : Nat} {l : List Byte} (h : memWf m = true) (inside : i < l.length) :
    memGet (memPut m a l) (a + i) = l[i] := by
  induction l generalizing m a i with
  | nil => simp at inside
  | cons b t ih =>
    rw [memPut]
    cases i with
    | zero =>
      rw [memGet_memPut_out (memWf_memSet a b h) (by omega)]
      exact memGet_memSet_same a b h
    | succ i =>
      have := ih (a := a + 1) (i := i) (memWf_memSet a b h) (by simpa using inside)
      rw [show a + (i + 1) = a + 1 + i by omega, this]
      rfl

end Sys2Proof.Machine
end

