-- ==== Sys2Proof/Laws/Sealing.lean ====
section
/-! SUPPORT. A sealed line read back is the line that was written: decrypting undoes encrypting (R357). -/

namespace Sys2Proof.Machine

@[simp] theorem leBytes_length (n v : Nat) : (leBytes n v).length = n := by
  induction n generalizing v with
  | zero => rfl
  | succ n ih => simp [leBytes, ih]

theorem leNat_lt (l : List Byte) : leNat l < 256 ^ l.length := by
  induction l with
  | nil => simp [leNat]
  | cons b t ih =>
    have := b.isLt
    simp only [leNat, List.length_cons, Nat.pow_succ]
    omega

theorem leBytes_leNat (l : List Byte) : leBytes l.length (leNat l) = l := by
  induction l with
  | nil => rfl
  | cons b t ih =>
    have := b.isLt
    simp only [leNat, List.length_cons, leBytes]
    rw [show (b.toNat + 256 * leNat t) / 256 = leNat t by omega, ih]
    congr 1
    apply BitVec.eq_of_toNat_eq
    simp; omega

theorem leNat_leBytes (n v : Nat) (h : v < 256 ^ n) : leNat (leBytes n v) = v := by
  induction n generalizing v with
  | zero => simp [leBytes, leNat] at *; omega
  | succ n ih =>
    simp only [leBytes, leNat]
    rw [ih (v / 256) (by rw [Nat.pow_succ] at h; omega)]
    simp; omega

/-- Two blocks apart: a list of eight blocks of 16 bytes, each given by its number. -/
theorem eight_blocks (g : Nat → List Byte) (h : ∀ j, (g j).length = 16) {j : Nat} (hj : j < 8) :
    (((List.range 8).flatMap g).drop (16 * j)).take 16 = g j := by
  have e : (List.range 8).flatMap g = g 0 ++ (g 1 ++ (g 2 ++ (g 3 ++ (g 4 ++ (g 5 ++ (g 6 ++ g 7)))))) := by
    simp [List.range_succ_eq_map, List.flatMap_cons]
  rw [e]
  obtain rfl | rfl | rfl | rfl | rfl | rfl | rfl | rfl : j = 0 ∨ j = 1 ∨ j = 2 ∨ j = 3 ∨ j = 4 ∨ j = 5 ∨ j = 6 ∨ j = 7 := by omega
  all_goals simp [List.drop_append, h, List.drop_of_length_le, List.take_of_length_le]

theorem xtsBlocks_inverse (f g : Nat → BitVec 128 → BitVec 128) (inv : ∀ j x, g j (f j x) = x) (b : List Byte)
    (h : b.length = 128) : xtsBlocks g (xtsBlocks f b) = b := by
  have one : ∀ j, j < 8 → leBytes 16 (g j (BitVec.ofNat 128 (leNat ((((xtsBlocks f b)).drop (16 * j)).take 16)))).toNat =
      (b.drop (16 * j)).take 16 := by
    intro j hj
    have len : ((b.drop (16 * j)).take 16).length = 16 := by simp [h]; omega
    unfold xtsBlocks
    rw [eight_blocks _ (fun _ => leBytes_length ..) hj, leNat_leBytes 16 _ (Nat.lt_of_lt_of_le (f j _).isLt (by norm_num))]
    rw [BitVec.ofNat_toNat, BitVec.setWidth_eq, inv]
    have lt := leNat_lt ((b.drop (16 * j)).take 16)
    rw [len] at lt
    rw [BitVec.toNat_ofNat, Nat.mod_eq_of_lt (by omega)]
    have := leBytes_leNat ((b.drop (16 * j)).take 16)
    rwa [len] at this
  have all : xtsBlocks g (xtsBlocks f b) = (List.range 8).flatMap fun j => (b.drop (16 * j)).take 16 := by
    rw [xtsBlocks]
    exact List.flatMap_congr fun j hj => one j (List.mem_range.mp hj)
  rw [all]
  apply List.ext_getElem
  · simp [h, List.range_succ_eq_map]
  · intro i h1 h2
    simp only [List.range_succ_eq_map, List.flatMap_cons, List.map_cons, List.map_nil, List.range_zero, List.flatMap_nil,
      List.append_nil, List.getElem_append, List.getElem_take, List.getElem_drop, List.length_take, List.length_drop, h]
    split_ifs <;> congr 1 <;> omega

/-- A line of 128 bytes sealed under a slot's keys at a line address reads back as it was (R357). -/
theorem plainOf_cipherOf (k : KeySlot) (v : Nat) (b : List Byte) (h : b.length = 128) : plainOf k v (cipherOf k v b) = b :=
  xtsBlocks_inverse _ _ (fun _ _ => by simp [Config.xtsDec, Config.xtsEnc]) b h

end Sys2Proof.Machine
end

