-- ==== Sys2Proof/Laws/State.lean ====
section
/-! SUPPORT. Small laws of the state: what each update of a part leaves unchanged, field by field, and what a table, a core or a
context reads as after one of its entries changed. -/

namespace Sys2Proof.Machine

open Sys2Proof

/-! ## Tables -/

@[simp] theorem tabGet_tabSet_same {β : Type} (d : β) (t : Tab β) (n : Nat) (v : β) : tabGet d (tabSet t n v) n = v := by
  induction t with
  | nil => simp [tabSet, tabGet]
  | cons p t ih =>
    obtain ⟨k, w⟩ := p
    by_cases h : n = k
    · simp [tabSet, tabGet, h]
    · by_cases l : n < k
      · simp [tabSet, tabGet, h, l]
      · simp [tabSet, tabGet, h, l, ih, Ne.symm h]

theorem tabGet_tabSet_ne {β : Type} (d : β) (t : Tab β) {n m : Nat} (v : β) (h : m ≠ n) :
    tabGet d (tabSet t n v) m = tabGet d t m := by
  induction t with
  | nil => simp [tabSet, tabGet, h.symm]
  | cons p t ih =>
    obtain ⟨k, w⟩ := p
    by_cases e : n = k
    · subst e
      simp [tabSet, tabGet, h.symm]
    · by_cases l : n < k
      · simp [tabSet, tabGet, e, l, h.symm]
      · simp [tabSet, tabGet, e, l, ih]

/-! ## What an update of a part leaves unchanged -/

@[simp] theorem State.setCore_clusters (s : State) (n : Nat) (c : Core) : (s.setCore n c).clusters = s.clusters := rfl
@[simp] theorem State.setCore_mem (s : State) (n : Nat) (c : Core) : (s.setCore n c).mem = s.mem := rfl
@[simp] theorem State.setCore_poison (s : State) (n : Nat) (c : Core) : (s.setCore n c).poison = s.poison := rfl
@[simp] theorem State.setCore_parity (s : State) (n : Nat) (c : Core) : (s.setCore n c).parity = s.parity := rfl
@[simp] theorem State.setCore_upsets (s : State) (n : Nat) (c : Core) : (s.setCore n c).upsets = s.upsets := rfl
@[simp] theorem State.setCore_reqs (s : State) (n : Nat) (c : Core) : (s.setCore n c).reqs = s.reqs := rfl
@[simp] theorem State.setCore_joins (s : State) (n : Nat) (c : Core) : (s.setCore n c).joins = s.joins := rfl
@[simp] theorem State.setCore_owned (s : State) (n : Nat) (c : Core) : (s.setCore n c).owned = s.owned := rfl
@[simp] theorem State.setCore_resv (s : State) (n : Nat) (c : Core) : (s.setCore n c).resv = s.resv := rfl
@[simp] theorem State.setCore_fills (s : State) (n : Nat) (c : Core) : (s.setCore n c).fills = s.fills := rfl
@[simp] theorem State.setCore_migs (s : State) (n : Nat) (c : Core) : (s.setCore n c).migs = s.migs := rfl
@[simp] theorem State.setCore_barq (s : State) (n : Nat) (c : Core) : (s.setCore n c).barq = s.barq := rfl
@[simp] theorem State.setCore_fams (s : State) (n : Nat) (c : Core) : (s.setCore n c).fams = s.fams := rfl
@[simp] theorem State.setCore_teams (s : State) (n : Nat) (c : Core) : (s.setCore n c).teams = s.teams := rfl
@[simp] theorem State.setCore_launches (s : State) (n : Nat) (c : Core) : (s.setCore n c).launches = s.launches := rfl
@[simp] theorem State.setCore_images (s : State) (n : Nat) (c : Core) : (s.setCore n c).images = s.images := rfl
@[simp] theorem State.setCore_served (s : State) (n : Nat) (c : Core) : (s.setCore n c).served = s.served := rfl
@[simp] theorem State.setCore_vfs (s : State) (n : Nat) (c : Core) : (s.setCore n c).vfs = s.vfs := rfl
@[simp] theorem State.setCore_signals (s : State) (n : Nat) (c : Core) : (s.setCore n c).signals = s.signals := rfl
@[simp] theorem State.setCore_inputs (s : State) (n : Nat) (c : Core) : (s.setCore n c).inputs = s.inputs := rfl
@[simp] theorem State.setCore_breaks (s : State) (n : Nat) (c : Core) : (s.setCore n c).breaks = s.breaks := rfl
@[simp] theorem State.setCore_raised (s : State) (n : Nat) (c : Core) : (s.setCore n c).raised = s.raised := rfl
@[simp] theorem State.setCore_due (s : State) (n : Nat) (c : Core) : (s.setCore n c).due = s.due := rfl
@[simp] theorem State.setCore_retired (s : State) (n : Nat) (c : Core) : (s.setCore n c).retired = s.retired := rfl
@[simp] theorem State.setCore_udp (s : State) (n : Nat) (c : Core) : (s.setCore n c).udp = s.udp := rfl
@[simp] theorem State.setCore_lag (s : State) (n : Nat) (c : Core) : (s.setCore n c).lag = s.lag := rfl
@[simp] theorem State.setCore_imgr (s : State) (n : Nat) (c : Core) : (s.setCore n c).imgr = s.imgr := rfl
@[simp] theorem State.setCore_partKeys (s : State) (n : Nat) (c : Core) : (s.setCore n c).partKeys = s.partKeys := rfl
@[simp] theorem State.setCore_snapctl (s : State) (n : Nat) (c : Core) : (s.setCore n c).snapctl = s.snapctl := rfl
@[simp] theorem State.setCore_armed (s : State) (n : Nat) (c : Core) : (s.setCore n c).armed = s.armed := rfl
@[simp] theorem State.setCore_snap (s : State) (n : Nat) (c : Core) : (s.setCore n c).snap = s.snap := rfl
@[simp] theorem State.setCore_errs (s : State) (n : Nat) (c : Core) : (s.setCore n c).errs = s.errs := rfl
@[simp] theorem State.setCore_rrow (s : State) (n : Nat) (c : Core) : (s.setCore n c).rrow = s.rrow := rfl
@[simp] theorem State.setCore_rows (s : State) (n : Nat) (c : Core) : (s.setCore n c).rows = s.rows := rfl
@[simp] theorem State.setCore_pwr (s : State) (n : Nat) (c : Core) : (s.setCore n c).pwr = s.pwr := rfl
@[simp] theorem State.setCore_bootst (s : State) (n : Nat) (c : Core) : (s.setCore n c).bootst = s.bootst := rfl
@[simp] theorem State.setCore_transfers (s : State) (n : Nat) (c : Core) : (s.setCore n c).transfers = s.transfers := rfl
@[simp] theorem State.setCore_reports (s : State) (n : Nat) (c : Core) : (s.setCore n c).reports = s.reports := rfl
@[simp] theorem State.setCore_resent (s : State) (n : Nat) (c : Core) : (s.setCore n c).resent = s.resent := rfl
@[simp] theorem State.setCore_time (s : State) (n : Nat) (c : Core) : (s.setCore n c).time = s.time := rfl
@[simp] theorem State.setCore_gangs (s : State) (n : Nat) (c : Core) : (s.setCore n c).gangs = s.gangs := rfl
@[simp] theorem State.setCore_troot (s : State) (n : Nat) (c : Core) : (s.setCore n c).troot = s.troot := rfl
@[simp] theorem State.setCore_feps (s : State) (n : Nat) (c : Core) : (s.setCore n c).feps = s.feps := rfl
@[simp] theorem State.setCore_fepsel (s : State) (n : Nat) (c : Core) : (s.setCore n c).fepsel = s.fepsel := rfl
@[simp] theorem State.setCore_tinv (s : State) (n : Nat) (c : Core) : (s.setCore n c).tinv = s.tinv := rfl
@[simp] theorem State.setCore_parts (s : State) (n : Nat) (c : Core) : (s.setCore n c).parts = s.parts := rfl
@[simp] theorem State.setCore_l2 (s : State) (n : Nat) (c : Core) : (s.setCore n c).l2 = s.l2 := rfl
@[simp] theorem State.setCore_keySlots (s : State) (n : Nat) (c : Core) : (s.setCore n c).keySlots = s.keySlots := rfl
@[simp] theorem State.setCore_clock (s : State) (n : Nat) (c : Core) : (s.setCore n c).clock = s.clock := rfl
@[simp] theorem State.setCore_vbind (s : State) (n : Nat) (c : Core) : (s.setCore n c).vbind = s.vbind := rfl
@[simp] theorem State.setCore_pkgt (s : State) (n : Nat) (c : Core) : (s.setCore n c).pkgt = s.pkgt := rfl
@[simp] theorem State.setCore_pkgVer (s : State) (n : Nat) (c : Core) : (s.setCore n c).pkgVer = s.pkgVer := rfl
@[simp] theorem State.setCore_dieTlb (s : State) (n : Nat) (c : Core) : (s.setCore n c).dieTlb = s.dieTlb := rfl
@[simp] theorem State.setCore_walks (s : State) (n : Nat) (c : Core) : (s.setCore n c).walks = s.walks := rfl
@[simp] theorem State.setCore_fq (s : State) (n : Nat) (c : Core) : (s.setCore n c).fq = s.fq := rfl
@[simp] theorem State.setCore_fqTail (s : State) (n : Nat) (c : Core) : (s.setCore n c).fqTail = s.fqTail := rfl
@[simp] theorem State.setCore_fqHead (s : State) (n : Nat) (c : Core) : (s.setCore n c).fqHead = s.fqHead := rfl
@[simp] theorem State.setCore_replays (s : State) (n : Nat) (c : Core) : (s.setCore n c).replays = s.replays := rfl
@[simp] theorem State.setCore_iss (s : State) (n : Nat) (c : Core) : (s.setCore n c).iss = s.iss := rfl
@[simp] theorem State.setCore_cycle (s : State) (n : Nat) (c : Core) : (s.setCore n c).cycle = s.cycle := rfl
@[simp] theorem State.setCore_agenda (s : State) (n : Nat) (c : Core) : (s.setCore n c).agenda = s.agenda := rfl
@[simp] theorem State.setCore_nextReq (s : State) (n : Nat) (c : Core) : (s.setCore n c).nextReq = s.nextReq := rfl
@[simp] theorem State.setCore_nextUid (s : State) (n : Nat) (c : Core) : (s.setCore n c).nextUid = s.nextUid := rfl
@[simp] theorem State.setCore_nextOrd (s : State) (n : Nat) (c : Core) : (s.setCore n c).nextOrd = s.nextOrd := rfl
@[simp] theorem State.setCore_nextTeam (s : State) (n : Nat) (c : Core) : (s.setCore n c).nextTeam = s.nextTeam := rfl
@[simp] theorem State.setCore_nextLaunch (s : State) (n : Nat) (c : Core) : (s.setCore n c).nextLaunch = s.nextLaunch := rfl
@[simp] theorem State.setCore_choice (s : State) (n : Nat) (c : Core) : (s.setCore n c).choice = s.choice := rfl
@[simp] theorem State.setCore_fresh (s : State) (n : Nat) (c : Core) : (s.setCore n c).fresh = s.fresh := rfl
@[simp] theorem State.setCore_turn (s : State) (n : Nat) (c : Core) : (s.setCore n c).turn = s.turn := rfl
@[simp] theorem State.setCore_arrivals (s : State) (n : Nat) (c : Core) : (s.setCore n c).arrivals = s.arrivals := rfl

@[simp] theorem State.onCore_clusters (s : State) (n : Nat) (f : Core → Core) : (s.onCore n f).clusters = s.clusters := rfl
@[simp] theorem State.onCore_mem (s : State) (n : Nat) (f : Core → Core) : (s.onCore n f).mem = s.mem := rfl
@[simp] theorem State.onCore_poison (s : State) (n : Nat) (f : Core → Core) : (s.onCore n f).poison = s.poison := rfl
@[simp] theorem State.onCore_parity (s : State) (n : Nat) (f : Core → Core) : (s.onCore n f).parity = s.parity := rfl
@[simp] theorem State.onCore_upsets (s : State) (n : Nat) (f : Core → Core) : (s.onCore n f).upsets = s.upsets := rfl
@[simp] theorem State.onCore_reqs (s : State) (n : Nat) (f : Core → Core) : (s.onCore n f).reqs = s.reqs := rfl
@[simp] theorem State.onCore_joins (s : State) (n : Nat) (f : Core → Core) : (s.onCore n f).joins = s.joins := rfl
@[simp] theorem State.onCore_owned (s : State) (n : Nat) (f : Core → Core) : (s.onCore n f).owned = s.owned := rfl
@[simp] theorem State.onCore_resv (s : State) (n : Nat) (f : Core → Core) : (s.onCore n f).resv = s.resv := rfl
@[simp] theorem State.onCore_fills (s : State) (n : Nat) (f : Core → Core) : (s.onCore n f).fills = s.fills := rfl
@[simp] theorem State.onCore_migs (s : State) (n : Nat) (f : Core → Core) : (s.onCore n f).migs = s.migs := rfl
@[simp] theorem State.onCore_barq (s : State) (n : Nat) (f : Core → Core) : (s.onCore n f).barq = s.barq := rfl
@[simp] theorem State.onCore_fams (s : State) (n : Nat) (f : Core → Core) : (s.onCore n f).fams = s.fams := rfl
@[simp] theorem State.onCore_teams (s : State) (n : Nat) (f : Core → Core) : (s.onCore n f).teams = s.teams := rfl
@[simp] theorem State.onCore_launches (s : State) (n : Nat) (f : Core → Core) : (s.onCore n f).launches = s.launches := rfl
@[simp] theorem State.onCore_images (s : State) (n : Nat) (f : Core → Core) : (s.onCore n f).images = s.images := rfl
@[simp] theorem State.onCore_served (s : State) (n : Nat) (f : Core → Core) : (s.onCore n f).served = s.served := rfl
@[simp] theorem State.onCore_vfs (s : State) (n : Nat) (f : Core → Core) : (s.onCore n f).vfs = s.vfs := rfl
@[simp] theorem State.onCore_signals (s : State) (n : Nat) (f : Core → Core) : (s.onCore n f).signals = s.signals := rfl
@[simp] theorem State.onCore_inputs (s : State) (n : Nat) (f : Core → Core) : (s.onCore n f).inputs = s.inputs := rfl
@[simp] theorem State.onCore_breaks (s : State) (n : Nat) (f : Core → Core) : (s.onCore n f).breaks = s.breaks := rfl
@[simp] theorem State.onCore_raised (s : State) (n : Nat) (f : Core → Core) : (s.onCore n f).raised = s.raised := rfl
@[simp] theorem State.onCore_due (s : State) (n : Nat) (f : Core → Core) : (s.onCore n f).due = s.due := rfl
@[simp] theorem State.onCore_retired (s : State) (n : Nat) (f : Core → Core) : (s.onCore n f).retired = s.retired := rfl
@[simp] theorem State.onCore_udp (s : State) (n : Nat) (f : Core → Core) : (s.onCore n f).udp = s.udp := rfl
@[simp] theorem State.onCore_lag (s : State) (n : Nat) (f : Core → Core) : (s.onCore n f).lag = s.lag := rfl
@[simp] theorem State.onCore_imgr (s : State) (n : Nat) (f : Core → Core) : (s.onCore n f).imgr = s.imgr := rfl
@[simp] theorem State.onCore_partKeys (s : State) (n : Nat) (f : Core → Core) : (s.onCore n f).partKeys = s.partKeys := rfl
@[simp] theorem State.onCore_snapctl (s : State) (n : Nat) (f : Core → Core) : (s.onCore n f).snapctl = s.snapctl := rfl
@[simp] theorem State.onCore_armed (s : State) (n : Nat) (f : Core → Core) : (s.onCore n f).armed = s.armed := rfl
@[simp] theorem State.onCore_snap (s : State) (n : Nat) (f : Core → Core) : (s.onCore n f).snap = s.snap := rfl
@[simp] theorem State.onCore_errs (s : State) (n : Nat) (f : Core → Core) : (s.onCore n f).errs = s.errs := rfl
@[simp] theorem State.onCore_rrow (s : State) (n : Nat) (f : Core → Core) : (s.onCore n f).rrow = s.rrow := rfl
@[simp] theorem State.onCore_rows (s : State) (n : Nat) (f : Core → Core) : (s.onCore n f).rows = s.rows := rfl
@[simp] theorem State.onCore_pwr (s : State) (n : Nat) (f : Core → Core) : (s.onCore n f).pwr = s.pwr := rfl
@[simp] theorem State.onCore_bootst (s : State) (n : Nat) (f : Core → Core) : (s.onCore n f).bootst = s.bootst := rfl
@[simp] theorem State.onCore_transfers (s : State) (n : Nat) (f : Core → Core) : (s.onCore n f).transfers = s.transfers := rfl
@[simp] theorem State.onCore_reports (s : State) (n : Nat) (f : Core → Core) : (s.onCore n f).reports = s.reports := rfl
@[simp] theorem State.onCore_resent (s : State) (n : Nat) (f : Core → Core) : (s.onCore n f).resent = s.resent := rfl
@[simp] theorem State.onCore_time (s : State) (n : Nat) (f : Core → Core) : (s.onCore n f).time = s.time := rfl
@[simp] theorem State.onCore_gangs (s : State) (n : Nat) (f : Core → Core) : (s.onCore n f).gangs = s.gangs := rfl
@[simp] theorem State.onCore_troot (s : State) (n : Nat) (f : Core → Core) : (s.onCore n f).troot = s.troot := rfl
@[simp] theorem State.onCore_feps (s : State) (n : Nat) (f : Core → Core) : (s.onCore n f).feps = s.feps := rfl
@[simp] theorem State.onCore_fepsel (s : State) (n : Nat) (f : Core → Core) : (s.onCore n f).fepsel = s.fepsel := rfl
@[simp] theorem State.onCore_tinv (s : State) (n : Nat) (f : Core → Core) : (s.onCore n f).tinv = s.tinv := rfl
@[simp] theorem State.onCore_parts (s : State) (n : Nat) (f : Core → Core) : (s.onCore n f).parts = s.parts := rfl
@[simp] theorem State.onCore_l2 (s : State) (n : Nat) (f : Core → Core) : (s.onCore n f).l2 = s.l2 := rfl
@[simp] theorem State.onCore_keySlots (s : State) (n : Nat) (f : Core → Core) : (s.onCore n f).keySlots = s.keySlots := rfl
@[simp] theorem State.onCore_clock (s : State) (n : Nat) (f : Core → Core) : (s.onCore n f).clock = s.clock := rfl
@[simp] theorem State.onCore_vbind (s : State) (n : Nat) (f : Core → Core) : (s.onCore n f).vbind = s.vbind := rfl
@[simp] theorem State.onCore_pkgt (s : State) (n : Nat) (f : Core → Core) : (s.onCore n f).pkgt = s.pkgt := rfl
@[simp] theorem State.onCore_pkgVer (s : State) (n : Nat) (f : Core → Core) : (s.onCore n f).pkgVer = s.pkgVer := rfl
@[simp] theorem State.onCore_dieTlb (s : State) (n : Nat) (f : Core → Core) : (s.onCore n f).dieTlb = s.dieTlb := rfl
@[simp] theorem State.onCore_walks (s : State) (n : Nat) (f : Core → Core) : (s.onCore n f).walks = s.walks := rfl
@[simp] theorem State.onCore_fq (s : State) (n : Nat) (f : Core → Core) : (s.onCore n f).fq = s.fq := rfl
@[simp] theorem State.onCore_fqTail (s : State) (n : Nat) (f : Core → Core) : (s.onCore n f).fqTail = s.fqTail := rfl
@[simp] theorem State.onCore_fqHead (s : State) (n : Nat) (f : Core → Core) : (s.onCore n f).fqHead = s.fqHead := rfl
@[simp] theorem State.onCore_replays (s : State) (n : Nat) (f : Core → Core) : (s.onCore n f).replays = s.replays := rfl
@[simp] theorem State.onCore_iss (s : State) (n : Nat) (f : Core → Core) : (s.onCore n f).iss = s.iss := rfl
@[simp] theorem State.onCore_cycle (s : State) (n : Nat) (f : Core → Core) : (s.onCore n f).cycle = s.cycle := rfl
@[simp] theorem State.onCore_agenda (s : State) (n : Nat) (f : Core → Core) : (s.onCore n f).agenda = s.agenda := rfl
@[simp] theorem State.onCore_nextReq (s : State) (n : Nat) (f : Core → Core) : (s.onCore n f).nextReq = s.nextReq := rfl
@[simp] theorem State.onCore_nextUid (s : State) (n : Nat) (f : Core → Core) : (s.onCore n f).nextUid = s.nextUid := rfl
@[simp] theorem State.onCore_nextOrd (s : State) (n : Nat) (f : Core → Core) : (s.onCore n f).nextOrd = s.nextOrd := rfl
@[simp] theorem State.onCore_nextTeam (s : State) (n : Nat) (f : Core → Core) : (s.onCore n f).nextTeam = s.nextTeam := rfl
@[simp] theorem State.onCore_nextLaunch (s : State) (n : Nat) (f : Core → Core) : (s.onCore n f).nextLaunch = s.nextLaunch := rfl
@[simp] theorem State.onCore_choice (s : State) (n : Nat) (f : Core → Core) : (s.onCore n f).choice = s.choice := rfl
@[simp] theorem State.onCore_fresh (s : State) (n : Nat) (f : Core → Core) : (s.onCore n f).fresh = s.fresh := rfl
@[simp] theorem State.onCore_turn (s : State) (n : Nat) (f : Core → Core) : (s.onCore n f).turn = s.turn := rfl
@[simp] theorem State.onCore_arrivals (s : State) (n : Nat) (f : Core → Core) : (s.onCore n f).arrivals = s.arrivals := rfl

@[simp] theorem State.onCtx_clusters (s : State) (n x : Nat) (f : Ctx → Ctx) : (s.onCtx n x f).clusters = s.clusters := rfl
@[simp] theorem State.onCtx_mem (s : State) (n x : Nat) (f : Ctx → Ctx) : (s.onCtx n x f).mem = s.mem := rfl
@[simp] theorem State.onCtx_poison (s : State) (n x : Nat) (f : Ctx → Ctx) : (s.onCtx n x f).poison = s.poison := rfl
@[simp] theorem State.onCtx_parity (s : State) (n x : Nat) (f : Ctx → Ctx) : (s.onCtx n x f).parity = s.parity := rfl
@[simp] theorem State.onCtx_upsets (s : State) (n x : Nat) (f : Ctx → Ctx) : (s.onCtx n x f).upsets = s.upsets := rfl
@[simp] theorem State.onCtx_reqs (s : State) (n x : Nat) (f : Ctx → Ctx) : (s.onCtx n x f).reqs = s.reqs := rfl
@[simp] theorem State.onCtx_joins (s : State) (n x : Nat) (f : Ctx → Ctx) : (s.onCtx n x f).joins = s.joins := rfl
@[simp] theorem State.onCtx_owned (s : State) (n x : Nat) (f : Ctx → Ctx) : (s.onCtx n x f).owned = s.owned := rfl
@[simp] theorem State.onCtx_resv (s : State) (n x : Nat) (f : Ctx → Ctx) : (s.onCtx n x f).resv = s.resv := rfl
@[simp] theorem State.onCtx_fills (s : State) (n x : Nat) (f : Ctx → Ctx) : (s.onCtx n x f).fills = s.fills := rfl
@[simp] theorem State.onCtx_migs (s : State) (n x : Nat) (f : Ctx → Ctx) : (s.onCtx n x f).migs = s.migs := rfl
@[simp] theorem State.onCtx_barq (s : State) (n x : Nat) (f : Ctx → Ctx) : (s.onCtx n x f).barq = s.barq := rfl
@[simp] theorem State.onCtx_fams (s : State) (n x : Nat) (f : Ctx → Ctx) : (s.onCtx n x f).fams = s.fams := rfl
@[simp] theorem State.onCtx_teams (s : State) (n x : Nat) (f : Ctx → Ctx) : (s.onCtx n x f).teams = s.teams := rfl
@[simp] theorem State.onCtx_launches (s : State) (n x : Nat) (f : Ctx → Ctx) : (s.onCtx n x f).launches = s.launches := rfl
@[simp] theorem State.onCtx_images (s : State) (n x : Nat) (f : Ctx → Ctx) : (s.onCtx n x f).images = s.images := rfl
@[simp] theorem State.onCtx_served (s : State) (n x : Nat) (f : Ctx → Ctx) : (s.onCtx n x f).served = s.served := rfl
@[simp] theorem State.onCtx_vfs (s : State) (n x : Nat) (f : Ctx → Ctx) : (s.onCtx n x f).vfs = s.vfs := rfl
@[simp] theorem State.onCtx_signals (s : State) (n x : Nat) (f : Ctx → Ctx) : (s.onCtx n x f).signals = s.signals := rfl
@[simp] theorem State.onCtx_inputs (s : State) (n x : Nat) (f : Ctx → Ctx) : (s.onCtx n x f).inputs = s.inputs := rfl
@[simp] theorem State.onCtx_breaks (s : State) (n x : Nat) (f : Ctx → Ctx) : (s.onCtx n x f).breaks = s.breaks := rfl
@[simp] theorem State.onCtx_raised (s : State) (n x : Nat) (f : Ctx → Ctx) : (s.onCtx n x f).raised = s.raised := rfl
@[simp] theorem State.onCtx_due (s : State) (n x : Nat) (f : Ctx → Ctx) : (s.onCtx n x f).due = s.due := rfl
@[simp] theorem State.onCtx_retired (s : State) (n x : Nat) (f : Ctx → Ctx) : (s.onCtx n x f).retired = s.retired := rfl
@[simp] theorem State.onCtx_udp (s : State) (n x : Nat) (f : Ctx → Ctx) : (s.onCtx n x f).udp = s.udp := rfl
@[simp] theorem State.onCtx_lag (s : State) (n x : Nat) (f : Ctx → Ctx) : (s.onCtx n x f).lag = s.lag := rfl
@[simp] theorem State.onCtx_imgr (s : State) (n x : Nat) (f : Ctx → Ctx) : (s.onCtx n x f).imgr = s.imgr := rfl
@[simp] theorem State.onCtx_partKeys (s : State) (n x : Nat) (f : Ctx → Ctx) : (s.onCtx n x f).partKeys = s.partKeys := rfl
@[simp] theorem State.onCtx_snapctl (s : State) (n x : Nat) (f : Ctx → Ctx) : (s.onCtx n x f).snapctl = s.snapctl := rfl
@[simp] theorem State.onCtx_armed (s : State) (n x : Nat) (f : Ctx → Ctx) : (s.onCtx n x f).armed = s.armed := rfl
@[simp] theorem State.onCtx_snap (s : State) (n x : Nat) (f : Ctx → Ctx) : (s.onCtx n x f).snap = s.snap := rfl
@[simp] theorem State.onCtx_errs (s : State) (n x : Nat) (f : Ctx → Ctx) : (s.onCtx n x f).errs = s.errs := rfl
@[simp] theorem State.onCtx_rrow (s : State) (n x : Nat) (f : Ctx → Ctx) : (s.onCtx n x f).rrow = s.rrow := rfl
@[simp] theorem State.onCtx_rows (s : State) (n x : Nat) (f : Ctx → Ctx) : (s.onCtx n x f).rows = s.rows := rfl
@[simp] theorem State.onCtx_pwr (s : State) (n x : Nat) (f : Ctx → Ctx) : (s.onCtx n x f).pwr = s.pwr := rfl
@[simp] theorem State.onCtx_bootst (s : State) (n x : Nat) (f : Ctx → Ctx) : (s.onCtx n x f).bootst = s.bootst := rfl
@[simp] theorem State.onCtx_transfers (s : State) (n x : Nat) (f : Ctx → Ctx) : (s.onCtx n x f).transfers = s.transfers := rfl
@[simp] theorem State.onCtx_reports (s : State) (n x : Nat) (f : Ctx → Ctx) : (s.onCtx n x f).reports = s.reports := rfl
@[simp] theorem State.onCtx_resent (s : State) (n x : Nat) (f : Ctx → Ctx) : (s.onCtx n x f).resent = s.resent := rfl
@[simp] theorem State.onCtx_time (s : State) (n x : Nat) (f : Ctx → Ctx) : (s.onCtx n x f).time = s.time := rfl
@[simp] theorem State.onCtx_gangs (s : State) (n x : Nat) (f : Ctx → Ctx) : (s.onCtx n x f).gangs = s.gangs := rfl
@[simp] theorem State.onCtx_troot (s : State) (n x : Nat) (f : Ctx → Ctx) : (s.onCtx n x f).troot = s.troot := rfl
@[simp] theorem State.onCtx_feps (s : State) (n x : Nat) (f : Ctx → Ctx) : (s.onCtx n x f).feps = s.feps := rfl
@[simp] theorem State.onCtx_fepsel (s : State) (n x : Nat) (f : Ctx → Ctx) : (s.onCtx n x f).fepsel = s.fepsel := rfl
@[simp] theorem State.onCtx_tinv (s : State) (n x : Nat) (f : Ctx → Ctx) : (s.onCtx n x f).tinv = s.tinv := rfl
@[simp] theorem State.onCtx_parts (s : State) (n x : Nat) (f : Ctx → Ctx) : (s.onCtx n x f).parts = s.parts := rfl
@[simp] theorem State.onCtx_l2 (s : State) (n x : Nat) (f : Ctx → Ctx) : (s.onCtx n x f).l2 = s.l2 := rfl
@[simp] theorem State.onCtx_keySlots (s : State) (n x : Nat) (f : Ctx → Ctx) : (s.onCtx n x f).keySlots = s.keySlots := rfl
@[simp] theorem State.onCtx_clock (s : State) (n x : Nat) (f : Ctx → Ctx) : (s.onCtx n x f).clock = s.clock := rfl
@[simp] theorem State.onCtx_vbind (s : State) (n x : Nat) (f : Ctx → Ctx) : (s.onCtx n x f).vbind = s.vbind := rfl
@[simp] theorem State.onCtx_pkgt (s : State) (n x : Nat) (f : Ctx → Ctx) : (s.onCtx n x f).pkgt = s.pkgt := rfl
@[simp] theorem State.onCtx_pkgVer (s : State) (n x : Nat) (f : Ctx → Ctx) : (s.onCtx n x f).pkgVer = s.pkgVer := rfl
@[simp] theorem State.onCtx_dieTlb (s : State) (n x : Nat) (f : Ctx → Ctx) : (s.onCtx n x f).dieTlb = s.dieTlb := rfl
@[simp] theorem State.onCtx_walks (s : State) (n x : Nat) (f : Ctx → Ctx) : (s.onCtx n x f).walks = s.walks := rfl
@[simp] theorem State.onCtx_fq (s : State) (n x : Nat) (f : Ctx → Ctx) : (s.onCtx n x f).fq = s.fq := rfl
@[simp] theorem State.onCtx_fqTail (s : State) (n x : Nat) (f : Ctx → Ctx) : (s.onCtx n x f).fqTail = s.fqTail := rfl
@[simp] theorem State.onCtx_fqHead (s : State) (n x : Nat) (f : Ctx → Ctx) : (s.onCtx n x f).fqHead = s.fqHead := rfl
@[simp] theorem State.onCtx_replays (s : State) (n x : Nat) (f : Ctx → Ctx) : (s.onCtx n x f).replays = s.replays := rfl
@[simp] theorem State.onCtx_iss (s : State) (n x : Nat) (f : Ctx → Ctx) : (s.onCtx n x f).iss = s.iss := rfl
@[simp] theorem State.onCtx_cycle (s : State) (n x : Nat) (f : Ctx → Ctx) : (s.onCtx n x f).cycle = s.cycle := rfl
@[simp] theorem State.onCtx_agenda (s : State) (n x : Nat) (f : Ctx → Ctx) : (s.onCtx n x f).agenda = s.agenda := rfl
@[simp] theorem State.onCtx_nextReq (s : State) (n x : Nat) (f : Ctx → Ctx) : (s.onCtx n x f).nextReq = s.nextReq := rfl
@[simp] theorem State.onCtx_nextUid (s : State) (n x : Nat) (f : Ctx → Ctx) : (s.onCtx n x f).nextUid = s.nextUid := rfl
@[simp] theorem State.onCtx_nextOrd (s : State) (n x : Nat) (f : Ctx → Ctx) : (s.onCtx n x f).nextOrd = s.nextOrd := rfl
@[simp] theorem State.onCtx_nextTeam (s : State) (n x : Nat) (f : Ctx → Ctx) : (s.onCtx n x f).nextTeam = s.nextTeam := rfl
@[simp] theorem State.onCtx_nextLaunch (s : State) (n x : Nat) (f : Ctx → Ctx) : (s.onCtx n x f).nextLaunch = s.nextLaunch := rfl
@[simp] theorem State.onCtx_choice (s : State) (n x : Nat) (f : Ctx → Ctx) : (s.onCtx n x f).choice = s.choice := rfl
@[simp] theorem State.onCtx_fresh (s : State) (n x : Nat) (f : Ctx → Ctx) : (s.onCtx n x f).fresh = s.fresh := rfl
@[simp] theorem State.onCtx_turn (s : State) (n x : Nat) (f : Ctx → Ctx) : (s.onCtx n x f).turn = s.turn := rfl
@[simp] theorem State.onCtx_arrivals (s : State) (n x : Nat) (f : Ctx → Ctx) : (s.onCtx n x f).arrivals = s.arrivals := rfl

@[simp] theorem State.onCur_clusters (s : State) (f : Ctx → Ctx) : (s.onCur f).clusters = s.clusters := rfl
@[simp] theorem State.onCur_mem (s : State) (f : Ctx → Ctx) : (s.onCur f).mem = s.mem := rfl
@[simp] theorem State.onCur_poison (s : State) (f : Ctx → Ctx) : (s.onCur f).poison = s.poison := rfl
@[simp] theorem State.onCur_parity (s : State) (f : Ctx → Ctx) : (s.onCur f).parity = s.parity := rfl
@[simp] theorem State.onCur_upsets (s : State) (f : Ctx → Ctx) : (s.onCur f).upsets = s.upsets := rfl
@[simp] theorem State.onCur_reqs (s : State) (f : Ctx → Ctx) : (s.onCur f).reqs = s.reqs := rfl
@[simp] theorem State.onCur_joins (s : State) (f : Ctx → Ctx) : (s.onCur f).joins = s.joins := rfl
@[simp] theorem State.onCur_owned (s : State) (f : Ctx → Ctx) : (s.onCur f).owned = s.owned := rfl
@[simp] theorem State.onCur_resv (s : State) (f : Ctx → Ctx) : (s.onCur f).resv = s.resv := rfl
@[simp] theorem State.onCur_fills (s : State) (f : Ctx → Ctx) : (s.onCur f).fills = s.fills := rfl
@[simp] theorem State.onCur_migs (s : State) (f : Ctx → Ctx) : (s.onCur f).migs = s.migs := rfl
@[simp] theorem State.onCur_barq (s : State) (f : Ctx → Ctx) : (s.onCur f).barq = s.barq := rfl
@[simp] theorem State.onCur_fams (s : State) (f : Ctx → Ctx) : (s.onCur f).fams = s.fams := rfl
@[simp] theorem State.onCur_teams (s : State) (f : Ctx → Ctx) : (s.onCur f).teams = s.teams := rfl
@[simp] theorem State.onCur_launches (s : State) (f : Ctx → Ctx) : (s.onCur f).launches = s.launches := rfl
@[simp] theorem State.onCur_images (s : State) (f : Ctx → Ctx) : (s.onCur f).images = s.images := rfl
@[simp] theorem State.onCur_served (s : State) (f : Ctx → Ctx) : (s.onCur f).served = s.served := rfl
@[simp] theorem State.onCur_vfs (s : State) (f : Ctx → Ctx) : (s.onCur f).vfs = s.vfs := rfl
@[simp] theorem State.onCur_signals (s : State) (f : Ctx → Ctx) : (s.onCur f).signals = s.signals := rfl
@[simp] theorem State.onCur_inputs (s : State) (f : Ctx → Ctx) : (s.onCur f).inputs = s.inputs := rfl
@[simp] theorem State.onCur_breaks (s : State) (f : Ctx → Ctx) : (s.onCur f).breaks = s.breaks := rfl
@[simp] theorem State.onCur_raised (s : State) (f : Ctx → Ctx) : (s.onCur f).raised = s.raised := rfl
@[simp] theorem State.onCur_due (s : State) (f : Ctx → Ctx) : (s.onCur f).due = s.due := rfl
@[simp] theorem State.onCur_retired (s : State) (f : Ctx → Ctx) : (s.onCur f).retired = s.retired := rfl
@[simp] theorem State.onCur_udp (s : State) (f : Ctx → Ctx) : (s.onCur f).udp = s.udp := rfl
@[simp] theorem State.onCur_lag (s : State) (f : Ctx → Ctx) : (s.onCur f).lag = s.lag := rfl
@[simp] theorem State.onCur_imgr (s : State) (f : Ctx → Ctx) : (s.onCur f).imgr = s.imgr := rfl
@[simp] theorem State.onCur_partKeys (s : State) (f : Ctx → Ctx) : (s.onCur f).partKeys = s.partKeys := rfl
@[simp] theorem State.onCur_snapctl (s : State) (f : Ctx → Ctx) : (s.onCur f).snapctl = s.snapctl := rfl
@[simp] theorem State.onCur_armed (s : State) (f : Ctx → Ctx) : (s.onCur f).armed = s.armed := rfl
@[simp] theorem State.onCur_snap (s : State) (f : Ctx → Ctx) : (s.onCur f).snap = s.snap := rfl
@[simp] theorem State.onCur_errs (s : State) (f : Ctx → Ctx) : (s.onCur f).errs = s.errs := rfl
@[simp] theorem State.onCur_rrow (s : State) (f : Ctx → Ctx) : (s.onCur f).rrow = s.rrow := rfl
@[simp] theorem State.onCur_rows (s : State) (f : Ctx → Ctx) : (s.onCur f).rows = s.rows := rfl
@[simp] theorem State.onCur_pwr (s : State) (f : Ctx → Ctx) : (s.onCur f).pwr = s.pwr := rfl
@[simp] theorem State.onCur_bootst (s : State) (f : Ctx → Ctx) : (s.onCur f).bootst = s.bootst := rfl
@[simp] theorem State.onCur_transfers (s : State) (f : Ctx → Ctx) : (s.onCur f).transfers = s.transfers := rfl
@[simp] theorem State.onCur_reports (s : State) (f : Ctx → Ctx) : (s.onCur f).reports = s.reports := rfl
@[simp] theorem State.onCur_resent (s : State) (f : Ctx → Ctx) : (s.onCur f).resent = s.resent := rfl
@[simp] theorem State.onCur_time (s : State) (f : Ctx → Ctx) : (s.onCur f).time = s.time := rfl
@[simp] theorem State.onCur_gangs (s : State) (f : Ctx → Ctx) : (s.onCur f).gangs = s.gangs := rfl
@[simp] theorem State.onCur_troot (s : State) (f : Ctx → Ctx) : (s.onCur f).troot = s.troot := rfl
@[simp] theorem State.onCur_feps (s : State) (f : Ctx → Ctx) : (s.onCur f).feps = s.feps := rfl
@[simp] theorem State.onCur_fepsel (s : State) (f : Ctx → Ctx) : (s.onCur f).fepsel = s.fepsel := rfl
@[simp] theorem State.onCur_tinv (s : State) (f : Ctx → Ctx) : (s.onCur f).tinv = s.tinv := rfl
@[simp] theorem State.onCur_parts (s : State) (f : Ctx → Ctx) : (s.onCur f).parts = s.parts := rfl
@[simp] theorem State.onCur_l2 (s : State) (f : Ctx → Ctx) : (s.onCur f).l2 = s.l2 := rfl
@[simp] theorem State.onCur_keySlots (s : State) (f : Ctx → Ctx) : (s.onCur f).keySlots = s.keySlots := rfl
@[simp] theorem State.onCur_clock (s : State) (f : Ctx → Ctx) : (s.onCur f).clock = s.clock := rfl
@[simp] theorem State.onCur_vbind (s : State) (f : Ctx → Ctx) : (s.onCur f).vbind = s.vbind := rfl
@[simp] theorem State.onCur_pkgt (s : State) (f : Ctx → Ctx) : (s.onCur f).pkgt = s.pkgt := rfl
@[simp] theorem State.onCur_pkgVer (s : State) (f : Ctx → Ctx) : (s.onCur f).pkgVer = s.pkgVer := rfl
@[simp] theorem State.onCur_dieTlb (s : State) (f : Ctx → Ctx) : (s.onCur f).dieTlb = s.dieTlb := rfl
@[simp] theorem State.onCur_walks (s : State) (f : Ctx → Ctx) : (s.onCur f).walks = s.walks := rfl
@[simp] theorem State.onCur_fq (s : State) (f : Ctx → Ctx) : (s.onCur f).fq = s.fq := rfl
@[simp] theorem State.onCur_fqTail (s : State) (f : Ctx → Ctx) : (s.onCur f).fqTail = s.fqTail := rfl
@[simp] theorem State.onCur_fqHead (s : State) (f : Ctx → Ctx) : (s.onCur f).fqHead = s.fqHead := rfl
@[simp] theorem State.onCur_replays (s : State) (f : Ctx → Ctx) : (s.onCur f).replays = s.replays := rfl
@[simp] theorem State.onCur_iss (s : State) (f : Ctx → Ctx) : (s.onCur f).iss = s.iss := rfl
@[simp] theorem State.onCur_cycle (s : State) (f : Ctx → Ctx) : (s.onCur f).cycle = s.cycle := rfl
@[simp] theorem State.onCur_agenda (s : State) (f : Ctx → Ctx) : (s.onCur f).agenda = s.agenda := rfl
@[simp] theorem State.onCur_nextReq (s : State) (f : Ctx → Ctx) : (s.onCur f).nextReq = s.nextReq := rfl
@[simp] theorem State.onCur_nextUid (s : State) (f : Ctx → Ctx) : (s.onCur f).nextUid = s.nextUid := rfl
@[simp] theorem State.onCur_nextOrd (s : State) (f : Ctx → Ctx) : (s.onCur f).nextOrd = s.nextOrd := rfl
@[simp] theorem State.onCur_nextTeam (s : State) (f : Ctx → Ctx) : (s.onCur f).nextTeam = s.nextTeam := rfl
@[simp] theorem State.onCur_nextLaunch (s : State) (f : Ctx → Ctx) : (s.onCur f).nextLaunch = s.nextLaunch := rfl
@[simp] theorem State.onCur_choice (s : State) (f : Ctx → Ctx) : (s.onCur f).choice = s.choice := rfl
@[simp] theorem State.onCur_fresh (s : State) (f : Ctx → Ctx) : (s.onCur f).fresh = s.fresh := rfl
@[simp] theorem State.onCur_turn (s : State) (f : Ctx → Ctx) : (s.onCur f).turn = s.turn := rfl
@[simp] theorem State.onCur_arrivals (s : State) (f : Ctx → Ctx) : (s.onCur f).arrivals = s.arrivals := rfl

@[simp] theorem State.onHere_clusters (s : State) (f : Core → Core) : (s.onHere f).clusters = s.clusters := rfl
@[simp] theorem State.onHere_mem (s : State) (f : Core → Core) : (s.onHere f).mem = s.mem := rfl
@[simp] theorem State.onHere_poison (s : State) (f : Core → Core) : (s.onHere f).poison = s.poison := rfl
@[simp] theorem State.onHere_parity (s : State) (f : Core → Core) : (s.onHere f).parity = s.parity := rfl
@[simp] theorem State.onHere_upsets (s : State) (f : Core → Core) : (s.onHere f).upsets = s.upsets := rfl
@[simp] theorem State.onHere_reqs (s : State) (f : Core → Core) : (s.onHere f).reqs = s.reqs := rfl
@[simp] theorem State.onHere_joins (s : State) (f : Core → Core) : (s.onHere f).joins = s.joins := rfl
@[simp] theorem State.onHere_owned (s : State) (f : Core → Core) : (s.onHere f).owned = s.owned := rfl
@[simp] theorem State.onHere_resv (s : State) (f : Core → Core) : (s.onHere f).resv = s.resv := rfl
@[simp] theorem State.onHere_fills (s : State) (f : Core → Core) : (s.onHere f).fills = s.fills := rfl
@[simp] theorem State.onHere_migs (s : State) (f : Core → Core) : (s.onHere f).migs = s.migs := rfl
@[simp] theorem State.onHere_barq (s : State) (f : Core → Core) : (s.onHere f).barq = s.barq := rfl
@[simp] theorem State.onHere_fams (s : State) (f : Core → Core) : (s.onHere f).fams = s.fams := rfl
@[simp] theorem State.onHere_teams (s : State) (f : Core → Core) : (s.onHere f).teams = s.teams := rfl
@[simp] theorem State.onHere_launches (s : State) (f : Core → Core) : (s.onHere f).launches = s.launches := rfl
@[simp] theorem State.onHere_images (s : State) (f : Core → Core) : (s.onHere f).images = s.images := rfl
@[simp] theorem State.onHere_served (s : State) (f : Core → Core) : (s.onHere f).served = s.served := rfl
@[simp] theorem State.onHere_vfs (s : State) (f : Core → Core) : (s.onHere f).vfs = s.vfs := rfl
@[simp] theorem State.onHere_signals (s : State) (f : Core → Core) : (s.onHere f).signals = s.signals := rfl
@[simp] theorem State.onHere_inputs (s : State) (f : Core → Core) : (s.onHere f).inputs = s.inputs := rfl
@[simp] theorem State.onHere_breaks (s : State) (f : Core → Core) : (s.onHere f).breaks = s.breaks := rfl
@[simp] theorem State.onHere_raised (s : State) (f : Core → Core) : (s.onHere f).raised = s.raised := rfl
@[simp] theorem State.onHere_due (s : State) (f : Core → Core) : (s.onHere f).due = s.due := rfl
@[simp] theorem State.onHere_retired (s : State) (f : Core → Core) : (s.onHere f).retired = s.retired := rfl
@[simp] theorem State.onHere_udp (s : State) (f : Core → Core) : (s.onHere f).udp = s.udp := rfl
@[simp] theorem State.onHere_lag (s : State) (f : Core → Core) : (s.onHere f).lag = s.lag := rfl
@[simp] theorem State.onHere_imgr (s : State) (f : Core → Core) : (s.onHere f).imgr = s.imgr := rfl
@[simp] theorem State.onHere_partKeys (s : State) (f : Core → Core) : (s.onHere f).partKeys = s.partKeys := rfl
@[simp] theorem State.onHere_snapctl (s : State) (f : Core → Core) : (s.onHere f).snapctl = s.snapctl := rfl
@[simp] theorem State.onHere_armed (s : State) (f : Core → Core) : (s.onHere f).armed = s.armed := rfl
@[simp] theorem State.onHere_snap (s : State) (f : Core → Core) : (s.onHere f).snap = s.snap := rfl
@[simp] theorem State.onHere_errs (s : State) (f : Core → Core) : (s.onHere f).errs = s.errs := rfl
@[simp] theorem State.onHere_rrow (s : State) (f : Core → Core) : (s.onHere f).rrow = s.rrow := rfl
@[simp] theorem State.onHere_rows (s : State) (f : Core → Core) : (s.onHere f).rows = s.rows := rfl
@[simp] theorem State.onHere_pwr (s : State) (f : Core → Core) : (s.onHere f).pwr = s.pwr := rfl
@[simp] theorem State.onHere_bootst (s : State) (f : Core → Core) : (s.onHere f).bootst = s.bootst := rfl
@[simp] theorem State.onHere_transfers (s : State) (f : Core → Core) : (s.onHere f).transfers = s.transfers := rfl
@[simp] theorem State.onHere_reports (s : State) (f : Core → Core) : (s.onHere f).reports = s.reports := rfl
@[simp] theorem State.onHere_resent (s : State) (f : Core → Core) : (s.onHere f).resent = s.resent := rfl
@[simp] theorem State.onHere_time (s : State) (f : Core → Core) : (s.onHere f).time = s.time := rfl
@[simp] theorem State.onHere_gangs (s : State) (f : Core → Core) : (s.onHere f).gangs = s.gangs := rfl
@[simp] theorem State.onHere_troot (s : State) (f : Core → Core) : (s.onHere f).troot = s.troot := rfl
@[simp] theorem State.onHere_feps (s : State) (f : Core → Core) : (s.onHere f).feps = s.feps := rfl
@[simp] theorem State.onHere_fepsel (s : State) (f : Core → Core) : (s.onHere f).fepsel = s.fepsel := rfl
@[simp] theorem State.onHere_tinv (s : State) (f : Core → Core) : (s.onHere f).tinv = s.tinv := rfl
@[simp] theorem State.onHere_parts (s : State) (f : Core → Core) : (s.onHere f).parts = s.parts := rfl
@[simp] theorem State.onHere_l2 (s : State) (f : Core → Core) : (s.onHere f).l2 = s.l2 := rfl
@[simp] theorem State.onHere_keySlots (s : State) (f : Core → Core) : (s.onHere f).keySlots = s.keySlots := rfl
@[simp] theorem State.onHere_clock (s : State) (f : Core → Core) : (s.onHere f).clock = s.clock := rfl
@[simp] theorem State.onHere_vbind (s : State) (f : Core → Core) : (s.onHere f).vbind = s.vbind := rfl
@[simp] theorem State.onHere_pkgt (s : State) (f : Core → Core) : (s.onHere f).pkgt = s.pkgt := rfl
@[simp] theorem State.onHere_pkgVer (s : State) (f : Core → Core) : (s.onHere f).pkgVer = s.pkgVer := rfl
@[simp] theorem State.onHere_dieTlb (s : State) (f : Core → Core) : (s.onHere f).dieTlb = s.dieTlb := rfl
@[simp] theorem State.onHere_walks (s : State) (f : Core → Core) : (s.onHere f).walks = s.walks := rfl
@[simp] theorem State.onHere_fq (s : State) (f : Core → Core) : (s.onHere f).fq = s.fq := rfl
@[simp] theorem State.onHere_fqTail (s : State) (f : Core → Core) : (s.onHere f).fqTail = s.fqTail := rfl
@[simp] theorem State.onHere_fqHead (s : State) (f : Core → Core) : (s.onHere f).fqHead = s.fqHead := rfl
@[simp] theorem State.onHere_replays (s : State) (f : Core → Core) : (s.onHere f).replays = s.replays := rfl
@[simp] theorem State.onHere_iss (s : State) (f : Core → Core) : (s.onHere f).iss = s.iss := rfl
@[simp] theorem State.onHere_cycle (s : State) (f : Core → Core) : (s.onHere f).cycle = s.cycle := rfl
@[simp] theorem State.onHere_agenda (s : State) (f : Core → Core) : (s.onHere f).agenda = s.agenda := rfl
@[simp] theorem State.onHere_nextReq (s : State) (f : Core → Core) : (s.onHere f).nextReq = s.nextReq := rfl
@[simp] theorem State.onHere_nextUid (s : State) (f : Core → Core) : (s.onHere f).nextUid = s.nextUid := rfl
@[simp] theorem State.onHere_nextOrd (s : State) (f : Core → Core) : (s.onHere f).nextOrd = s.nextOrd := rfl
@[simp] theorem State.onHere_nextTeam (s : State) (f : Core → Core) : (s.onHere f).nextTeam = s.nextTeam := rfl
@[simp] theorem State.onHere_nextLaunch (s : State) (f : Core → Core) : (s.onHere f).nextLaunch = s.nextLaunch := rfl
@[simp] theorem State.onHere_choice (s : State) (f : Core → Core) : (s.onHere f).choice = s.choice := rfl
@[simp] theorem State.onHere_fresh (s : State) (f : Core → Core) : (s.onHere f).fresh = s.fresh := rfl
@[simp] theorem State.onHere_turn (s : State) (f : Core → Core) : (s.onHere f).turn = s.turn := rfl
@[simp] theorem State.onHere_arrivals (s : State) (f : Core → Core) : (s.onHere f).arrivals = s.arrivals := rfl

@[simp] theorem State.onCluster_cores (s : State) (n : Nat) (f : Cluster → Cluster) : (s.onCluster n f).cores = s.cores := rfl
@[simp] theorem State.onCluster_mem (s : State) (n : Nat) (f : Cluster → Cluster) : (s.onCluster n f).mem = s.mem := rfl
@[simp] theorem State.onCluster_poison (s : State) (n : Nat) (f : Cluster → Cluster) : (s.onCluster n f).poison = s.poison := rfl
@[simp] theorem State.onCluster_parity (s : State) (n : Nat) (f : Cluster → Cluster) : (s.onCluster n f).parity = s.parity := rfl
@[simp] theorem State.onCluster_upsets (s : State) (n : Nat) (f : Cluster → Cluster) : (s.onCluster n f).upsets = s.upsets := rfl
@[simp] theorem State.onCluster_reqs (s : State) (n : Nat) (f : Cluster → Cluster) : (s.onCluster n f).reqs = s.reqs := rfl
@[simp] theorem State.onCluster_joins (s : State) (n : Nat) (f : Cluster → Cluster) : (s.onCluster n f).joins = s.joins := rfl
@[simp] theorem State.onCluster_owned (s : State) (n : Nat) (f : Cluster → Cluster) : (s.onCluster n f).owned = s.owned := rfl
@[simp] theorem State.onCluster_resv (s : State) (n : Nat) (f : Cluster → Cluster) : (s.onCluster n f).resv = s.resv := rfl
@[simp] theorem State.onCluster_fills (s : State) (n : Nat) (f : Cluster → Cluster) : (s.onCluster n f).fills = s.fills := rfl
@[simp] theorem State.onCluster_migs (s : State) (n : Nat) (f : Cluster → Cluster) : (s.onCluster n f).migs = s.migs := rfl
@[simp] theorem State.onCluster_barq (s : State) (n : Nat) (f : Cluster → Cluster) : (s.onCluster n f).barq = s.barq := rfl
@[simp] theorem State.onCluster_fams (s : State) (n : Nat) (f : Cluster → Cluster) : (s.onCluster n f).fams = s.fams := rfl
@[simp] theorem State.onCluster_teams (s : State) (n : Nat) (f : Cluster → Cluster) : (s.onCluster n f).teams = s.teams := rfl
@[simp] theorem State.onCluster_launches (s : State) (n : Nat) (f : Cluster → Cluster) : (s.onCluster n f).launches = s.launches := rfl
@[simp] theorem State.onCluster_images (s : State) (n : Nat) (f : Cluster → Cluster) : (s.onCluster n f).images = s.images := rfl
@[simp] theorem State.onCluster_served (s : State) (n : Nat) (f : Cluster → Cluster) : (s.onCluster n f).served = s.served := rfl
@[simp] theorem State.onCluster_vfs (s : State) (n : Nat) (f : Cluster → Cluster) : (s.onCluster n f).vfs = s.vfs := rfl
@[simp] theorem State.onCluster_signals (s : State) (n : Nat) (f : Cluster → Cluster) : (s.onCluster n f).signals = s.signals := rfl
@[simp] theorem State.onCluster_inputs (s : State) (n : Nat) (f : Cluster → Cluster) : (s.onCluster n f).inputs = s.inputs := rfl
@[simp] theorem State.onCluster_breaks (s : State) (n : Nat) (f : Cluster → Cluster) : (s.onCluster n f).breaks = s.breaks := rfl
@[simp] theorem State.onCluster_raised (s : State) (n : Nat) (f : Cluster → Cluster) : (s.onCluster n f).raised = s.raised := rfl
@[simp] theorem State.onCluster_due (s : State) (n : Nat) (f : Cluster → Cluster) : (s.onCluster n f).due = s.due := rfl
@[simp] theorem State.onCluster_retired (s : State) (n : Nat) (f : Cluster → Cluster) : (s.onCluster n f).retired = s.retired := rfl
@[simp] theorem State.onCluster_udp (s : State) (n : Nat) (f : Cluster → Cluster) : (s.onCluster n f).udp = s.udp := rfl
@[simp] theorem State.onCluster_lag (s : State) (n : Nat) (f : Cluster → Cluster) : (s.onCluster n f).lag = s.lag := rfl
@[simp] theorem State.onCluster_imgr (s : State) (n : Nat) (f : Cluster → Cluster) : (s.onCluster n f).imgr = s.imgr := rfl
@[simp] theorem State.onCluster_partKeys (s : State) (n : Nat) (f : Cluster → Cluster) : (s.onCluster n f).partKeys = s.partKeys := rfl
@[simp] theorem State.onCluster_snapctl (s : State) (n : Nat) (f : Cluster → Cluster) : (s.onCluster n f).snapctl = s.snapctl := rfl
@[simp] theorem State.onCluster_armed (s : State) (n : Nat) (f : Cluster → Cluster) : (s.onCluster n f).armed = s.armed := rfl
@[simp] theorem State.onCluster_snap (s : State) (n : Nat) (f : Cluster → Cluster) : (s.onCluster n f).snap = s.snap := rfl
@[simp] theorem State.onCluster_errs (s : State) (n : Nat) (f : Cluster → Cluster) : (s.onCluster n f).errs = s.errs := rfl
@[simp] theorem State.onCluster_rrow (s : State) (n : Nat) (f : Cluster → Cluster) : (s.onCluster n f).rrow = s.rrow := rfl
@[simp] theorem State.onCluster_rows (s : State) (n : Nat) (f : Cluster → Cluster) : (s.onCluster n f).rows = s.rows := rfl
@[simp] theorem State.onCluster_pwr (s : State) (n : Nat) (f : Cluster → Cluster) : (s.onCluster n f).pwr = s.pwr := rfl
@[simp] theorem State.onCluster_bootst (s : State) (n : Nat) (f : Cluster → Cluster) : (s.onCluster n f).bootst = s.bootst := rfl
@[simp] theorem State.onCluster_transfers (s : State) (n : Nat) (f : Cluster → Cluster) : (s.onCluster n f).transfers = s.transfers := rfl
@[simp] theorem State.onCluster_reports (s : State) (n : Nat) (f : Cluster → Cluster) : (s.onCluster n f).reports = s.reports := rfl
@[simp] theorem State.onCluster_resent (s : State) (n : Nat) (f : Cluster → Cluster) : (s.onCluster n f).resent = s.resent := rfl
@[simp] theorem State.onCluster_time (s : State) (n : Nat) (f : Cluster → Cluster) : (s.onCluster n f).time = s.time := rfl
@[simp] theorem State.onCluster_gangs (s : State) (n : Nat) (f : Cluster → Cluster) : (s.onCluster n f).gangs = s.gangs := rfl
@[simp] theorem State.onCluster_troot (s : State) (n : Nat) (f : Cluster → Cluster) : (s.onCluster n f).troot = s.troot := rfl
@[simp] theorem State.onCluster_feps (s : State) (n : Nat) (f : Cluster → Cluster) : (s.onCluster n f).feps = s.feps := rfl
@[simp] theorem State.onCluster_fepsel (s : State) (n : Nat) (f : Cluster → Cluster) : (s.onCluster n f).fepsel = s.fepsel := rfl
@[simp] theorem State.onCluster_tinv (s : State) (n : Nat) (f : Cluster → Cluster) : (s.onCluster n f).tinv = s.tinv := rfl
@[simp] theorem State.onCluster_parts (s : State) (n : Nat) (f : Cluster → Cluster) : (s.onCluster n f).parts = s.parts := rfl
@[simp] theorem State.onCluster_l2 (s : State) (n : Nat) (f : Cluster → Cluster) : (s.onCluster n f).l2 = s.l2 := rfl
@[simp] theorem State.onCluster_keySlots (s : State) (n : Nat) (f : Cluster → Cluster) : (s.onCluster n f).keySlots = s.keySlots := rfl
@[simp] theorem State.onCluster_clock (s : State) (n : Nat) (f : Cluster → Cluster) : (s.onCluster n f).clock = s.clock := rfl
@[simp] theorem State.onCluster_vbind (s : State) (n : Nat) (f : Cluster → Cluster) : (s.onCluster n f).vbind = s.vbind := rfl
@[simp] theorem State.onCluster_pkgt (s : State) (n : Nat) (f : Cluster → Cluster) : (s.onCluster n f).pkgt = s.pkgt := rfl
@[simp] theorem State.onCluster_pkgVer (s : State) (n : Nat) (f : Cluster → Cluster) : (s.onCluster n f).pkgVer = s.pkgVer := rfl
@[simp] theorem State.onCluster_dieTlb (s : State) (n : Nat) (f : Cluster → Cluster) : (s.onCluster n f).dieTlb = s.dieTlb := rfl
@[simp] theorem State.onCluster_walks (s : State) (n : Nat) (f : Cluster → Cluster) : (s.onCluster n f).walks = s.walks := rfl
@[simp] theorem State.onCluster_fq (s : State) (n : Nat) (f : Cluster → Cluster) : (s.onCluster n f).fq = s.fq := rfl
@[simp] theorem State.onCluster_fqTail (s : State) (n : Nat) (f : Cluster → Cluster) : (s.onCluster n f).fqTail = s.fqTail := rfl
@[simp] theorem State.onCluster_fqHead (s : State) (n : Nat) (f : Cluster → Cluster) : (s.onCluster n f).fqHead = s.fqHead := rfl
@[simp] theorem State.onCluster_replays (s : State) (n : Nat) (f : Cluster → Cluster) : (s.onCluster n f).replays = s.replays := rfl
@[simp] theorem State.onCluster_iss (s : State) (n : Nat) (f : Cluster → Cluster) : (s.onCluster n f).iss = s.iss := rfl
@[simp] theorem State.onCluster_cycle (s : State) (n : Nat) (f : Cluster → Cluster) : (s.onCluster n f).cycle = s.cycle := rfl
@[simp] theorem State.onCluster_agenda (s : State) (n : Nat) (f : Cluster → Cluster) : (s.onCluster n f).agenda = s.agenda := rfl
@[simp] theorem State.onCluster_nextReq (s : State) (n : Nat) (f : Cluster → Cluster) : (s.onCluster n f).nextReq = s.nextReq := rfl
@[simp] theorem State.onCluster_nextUid (s : State) (n : Nat) (f : Cluster → Cluster) : (s.onCluster n f).nextUid = s.nextUid := rfl
@[simp] theorem State.onCluster_nextOrd (s : State) (n : Nat) (f : Cluster → Cluster) : (s.onCluster n f).nextOrd = s.nextOrd := rfl
@[simp] theorem State.onCluster_nextTeam (s : State) (n : Nat) (f : Cluster → Cluster) : (s.onCluster n f).nextTeam = s.nextTeam := rfl
@[simp] theorem State.onCluster_nextLaunch (s : State) (n : Nat) (f : Cluster → Cluster) : (s.onCluster n f).nextLaunch = s.nextLaunch := rfl
@[simp] theorem State.onCluster_choice (s : State) (n : Nat) (f : Cluster → Cluster) : (s.onCluster n f).choice = s.choice := rfl
@[simp] theorem State.onCluster_fresh (s : State) (n : Nat) (f : Cluster → Cluster) : (s.onCluster n f).fresh = s.fresh := rfl
@[simp] theorem State.onCluster_turn (s : State) (n : Nat) (f : Cluster → Cluster) : (s.onCluster n f).turn = s.turn := rfl
@[simp] theorem State.onCluster_arrivals (s : State) (n : Nat) (f : Cluster → Cluster) : (s.onCluster n f).arrivals = s.arrivals := rfl

@[simp] theorem State.onTeam_cores (s : State) (n : Nat) (f : Team → Team) : (s.onTeam n f).cores = s.cores := rfl
@[simp] theorem State.onTeam_clusters (s : State) (n : Nat) (f : Team → Team) : (s.onTeam n f).clusters = s.clusters := rfl
@[simp] theorem State.onTeam_mem (s : State) (n : Nat) (f : Team → Team) : (s.onTeam n f).mem = s.mem := rfl
@[simp] theorem State.onTeam_poison (s : State) (n : Nat) (f : Team → Team) : (s.onTeam n f).poison = s.poison := rfl
@[simp] theorem State.onTeam_parity (s : State) (n : Nat) (f : Team → Team) : (s.onTeam n f).parity = s.parity := rfl
@[simp] theorem State.onTeam_upsets (s : State) (n : Nat) (f : Team → Team) : (s.onTeam n f).upsets = s.upsets := rfl
@[simp] theorem State.onTeam_reqs (s : State) (n : Nat) (f : Team → Team) : (s.onTeam n f).reqs = s.reqs := rfl
@[simp] theorem State.onTeam_joins (s : State) (n : Nat) (f : Team → Team) : (s.onTeam n f).joins = s.joins := rfl
@[simp] theorem State.onTeam_owned (s : State) (n : Nat) (f : Team → Team) : (s.onTeam n f).owned = s.owned := rfl
@[simp] theorem State.onTeam_resv (s : State) (n : Nat) (f : Team → Team) : (s.onTeam n f).resv = s.resv := rfl
@[simp] theorem State.onTeam_fills (s : State) (n : Nat) (f : Team → Team) : (s.onTeam n f).fills = s.fills := rfl
@[simp] theorem State.onTeam_migs (s : State) (n : Nat) (f : Team → Team) : (s.onTeam n f).migs = s.migs := rfl
@[simp] theorem State.onTeam_barq (s : State) (n : Nat) (f : Team → Team) : (s.onTeam n f).barq = s.barq := rfl
@[simp] theorem State.onTeam_fams (s : State) (n : Nat) (f : Team → Team) : (s.onTeam n f).fams = s.fams := rfl
@[simp] theorem State.onTeam_launches (s : State) (n : Nat) (f : Team → Team) : (s.onTeam n f).launches = s.launches := rfl
@[simp] theorem State.onTeam_images (s : State) (n : Nat) (f : Team → Team) : (s.onTeam n f).images = s.images := rfl
@[simp] theorem State.onTeam_served (s : State) (n : Nat) (f : Team → Team) : (s.onTeam n f).served = s.served := rfl
@[simp] theorem State.onTeam_vfs (s : State) (n : Nat) (f : Team → Team) : (s.onTeam n f).vfs = s.vfs := rfl
@[simp] theorem State.onTeam_signals (s : State) (n : Nat) (f : Team → Team) : (s.onTeam n f).signals = s.signals := rfl
@[simp] theorem State.onTeam_inputs (s : State) (n : Nat) (f : Team → Team) : (s.onTeam n f).inputs = s.inputs := rfl
@[simp] theorem State.onTeam_breaks (s : State) (n : Nat) (f : Team → Team) : (s.onTeam n f).breaks = s.breaks := rfl
@[simp] theorem State.onTeam_raised (s : State) (n : Nat) (f : Team → Team) : (s.onTeam n f).raised = s.raised := rfl
@[simp] theorem State.onTeam_due (s : State) (n : Nat) (f : Team → Team) : (s.onTeam n f).due = s.due := rfl
@[simp] theorem State.onTeam_retired (s : State) (n : Nat) (f : Team → Team) : (s.onTeam n f).retired = s.retired := rfl
@[simp] theorem State.onTeam_udp (s : State) (n : Nat) (f : Team → Team) : (s.onTeam n f).udp = s.udp := rfl
@[simp] theorem State.onTeam_lag (s : State) (n : Nat) (f : Team → Team) : (s.onTeam n f).lag = s.lag := rfl
@[simp] theorem State.onTeam_imgr (s : State) (n : Nat) (f : Team → Team) : (s.onTeam n f).imgr = s.imgr := rfl
@[simp] theorem State.onTeam_partKeys (s : State) (n : Nat) (f : Team → Team) : (s.onTeam n f).partKeys = s.partKeys := rfl
@[simp] theorem State.onTeam_snapctl (s : State) (n : Nat) (f : Team → Team) : (s.onTeam n f).snapctl = s.snapctl := rfl
@[simp] theorem State.onTeam_armed (s : State) (n : Nat) (f : Team → Team) : (s.onTeam n f).armed = s.armed := rfl
@[simp] theorem State.onTeam_snap (s : State) (n : Nat) (f : Team → Team) : (s.onTeam n f).snap = s.snap := rfl
@[simp] theorem State.onTeam_errs (s : State) (n : Nat) (f : Team → Team) : (s.onTeam n f).errs = s.errs := rfl
@[simp] theorem State.onTeam_rrow (s : State) (n : Nat) (f : Team → Team) : (s.onTeam n f).rrow = s.rrow := rfl
@[simp] theorem State.onTeam_rows (s : State) (n : Nat) (f : Team → Team) : (s.onTeam n f).rows = s.rows := rfl
@[simp] theorem State.onTeam_pwr (s : State) (n : Nat) (f : Team → Team) : (s.onTeam n f).pwr = s.pwr := rfl
@[simp] theorem State.onTeam_bootst (s : State) (n : Nat) (f : Team → Team) : (s.onTeam n f).bootst = s.bootst := rfl
@[simp] theorem State.onTeam_transfers (s : State) (n : Nat) (f : Team → Team) : (s.onTeam n f).transfers = s.transfers := rfl
@[simp] theorem State.onTeam_reports (s : State) (n : Nat) (f : Team → Team) : (s.onTeam n f).reports = s.reports := rfl
@[simp] theorem State.onTeam_resent (s : State) (n : Nat) (f : Team → Team) : (s.onTeam n f).resent = s.resent := rfl
@[simp] theorem State.onTeam_time (s : State) (n : Nat) (f : Team → Team) : (s.onTeam n f).time = s.time := rfl
@[simp] theorem State.onTeam_gangs (s : State) (n : Nat) (f : Team → Team) : (s.onTeam n f).gangs = s.gangs := rfl
@[simp] theorem State.onTeam_troot (s : State) (n : Nat) (f : Team → Team) : (s.onTeam n f).troot = s.troot := rfl
@[simp] theorem State.onTeam_feps (s : State) (n : Nat) (f : Team → Team) : (s.onTeam n f).feps = s.feps := rfl
@[simp] theorem State.onTeam_fepsel (s : State) (n : Nat) (f : Team → Team) : (s.onTeam n f).fepsel = s.fepsel := rfl
@[simp] theorem State.onTeam_tinv (s : State) (n : Nat) (f : Team → Team) : (s.onTeam n f).tinv = s.tinv := rfl
@[simp] theorem State.onTeam_parts (s : State) (n : Nat) (f : Team → Team) : (s.onTeam n f).parts = s.parts := rfl
@[simp] theorem State.onTeam_l2 (s : State) (n : Nat) (f : Team → Team) : (s.onTeam n f).l2 = s.l2 := rfl
@[simp] theorem State.onTeam_keySlots (s : State) (n : Nat) (f : Team → Team) : (s.onTeam n f).keySlots = s.keySlots := rfl
@[simp] theorem State.onTeam_clock (s : State) (n : Nat) (f : Team → Team) : (s.onTeam n f).clock = s.clock := rfl
@[simp] theorem State.onTeam_vbind (s : State) (n : Nat) (f : Team → Team) : (s.onTeam n f).vbind = s.vbind := rfl
@[simp] theorem State.onTeam_pkgt (s : State) (n : Nat) (f : Team → Team) : (s.onTeam n f).pkgt = s.pkgt := rfl
@[simp] theorem State.onTeam_pkgVer (s : State) (n : Nat) (f : Team → Team) : (s.onTeam n f).pkgVer = s.pkgVer := rfl
@[simp] theorem State.onTeam_dieTlb (s : State) (n : Nat) (f : Team → Team) : (s.onTeam n f).dieTlb = s.dieTlb := rfl
@[simp] theorem State.onTeam_walks (s : State) (n : Nat) (f : Team → Team) : (s.onTeam n f).walks = s.walks := rfl
@[simp] theorem State.onTeam_fq (s : State) (n : Nat) (f : Team → Team) : (s.onTeam n f).fq = s.fq := rfl
@[simp] theorem State.onTeam_fqTail (s : State) (n : Nat) (f : Team → Team) : (s.onTeam n f).fqTail = s.fqTail := rfl
@[simp] theorem State.onTeam_fqHead (s : State) (n : Nat) (f : Team → Team) : (s.onTeam n f).fqHead = s.fqHead := rfl
@[simp] theorem State.onTeam_replays (s : State) (n : Nat) (f : Team → Team) : (s.onTeam n f).replays = s.replays := rfl
@[simp] theorem State.onTeam_iss (s : State) (n : Nat) (f : Team → Team) : (s.onTeam n f).iss = s.iss := rfl
@[simp] theorem State.onTeam_cycle (s : State) (n : Nat) (f : Team → Team) : (s.onTeam n f).cycle = s.cycle := rfl
@[simp] theorem State.onTeam_agenda (s : State) (n : Nat) (f : Team → Team) : (s.onTeam n f).agenda = s.agenda := rfl
@[simp] theorem State.onTeam_nextReq (s : State) (n : Nat) (f : Team → Team) : (s.onTeam n f).nextReq = s.nextReq := rfl
@[simp] theorem State.onTeam_nextUid (s : State) (n : Nat) (f : Team → Team) : (s.onTeam n f).nextUid = s.nextUid := rfl
@[simp] theorem State.onTeam_nextOrd (s : State) (n : Nat) (f : Team → Team) : (s.onTeam n f).nextOrd = s.nextOrd := rfl
@[simp] theorem State.onTeam_nextTeam (s : State) (n : Nat) (f : Team → Team) : (s.onTeam n f).nextTeam = s.nextTeam := rfl
@[simp] theorem State.onTeam_nextLaunch (s : State) (n : Nat) (f : Team → Team) : (s.onTeam n f).nextLaunch = s.nextLaunch := rfl
@[simp] theorem State.onTeam_choice (s : State) (n : Nat) (f : Team → Team) : (s.onTeam n f).choice = s.choice := rfl
@[simp] theorem State.onTeam_fresh (s : State) (n : Nat) (f : Team → Team) : (s.onTeam n f).fresh = s.fresh := rfl
@[simp] theorem State.onTeam_turn (s : State) (n : Nat) (f : Team → Team) : (s.onTeam n f).turn = s.turn := rfl
@[simp] theorem State.onTeam_arrivals (s : State) (n : Nat) (f : Team → Team) : (s.onTeam n f).arrivals = s.arrivals := rfl

@[simp] theorem State.onLaunch_cores (s : State) (n : Nat) (f : Launch → Launch) : (s.onLaunch n f).cores = s.cores := rfl
@[simp] theorem State.onLaunch_clusters (s : State) (n : Nat) (f : Launch → Launch) : (s.onLaunch n f).clusters = s.clusters := rfl
@[simp] theorem State.onLaunch_mem (s : State) (n : Nat) (f : Launch → Launch) : (s.onLaunch n f).mem = s.mem := rfl
@[simp] theorem State.onLaunch_poison (s : State) (n : Nat) (f : Launch → Launch) : (s.onLaunch n f).poison = s.poison := rfl
@[simp] theorem State.onLaunch_parity (s : State) (n : Nat) (f : Launch → Launch) : (s.onLaunch n f).parity = s.parity := rfl
@[simp] theorem State.onLaunch_upsets (s : State) (n : Nat) (f : Launch → Launch) : (s.onLaunch n f).upsets = s.upsets := rfl
@[simp] theorem State.onLaunch_reqs (s : State) (n : Nat) (f : Launch → Launch) : (s.onLaunch n f).reqs = s.reqs := rfl
@[simp] theorem State.onLaunch_joins (s : State) (n : Nat) (f : Launch → Launch) : (s.onLaunch n f).joins = s.joins := rfl
@[simp] theorem State.onLaunch_owned (s : State) (n : Nat) (f : Launch → Launch) : (s.onLaunch n f).owned = s.owned := rfl
@[simp] theorem State.onLaunch_resv (s : State) (n : Nat) (f : Launch → Launch) : (s.onLaunch n f).resv = s.resv := rfl
@[simp] theorem State.onLaunch_fills (s : State) (n : Nat) (f : Launch → Launch) : (s.onLaunch n f).fills = s.fills := rfl
@[simp] theorem State.onLaunch_migs (s : State) (n : Nat) (f : Launch → Launch) : (s.onLaunch n f).migs = s.migs := rfl
@[simp] theorem State.onLaunch_barq (s : State) (n : Nat) (f : Launch → Launch) : (s.onLaunch n f).barq = s.barq := rfl
@[simp] theorem State.onLaunch_fams (s : State) (n : Nat) (f : Launch → Launch) : (s.onLaunch n f).fams = s.fams := rfl
@[simp] theorem State.onLaunch_teams (s : State) (n : Nat) (f : Launch → Launch) : (s.onLaunch n f).teams = s.teams := rfl
@[simp] theorem State.onLaunch_images (s : State) (n : Nat) (f : Launch → Launch) : (s.onLaunch n f).images = s.images := rfl
@[simp] theorem State.onLaunch_served (s : State) (n : Nat) (f : Launch → Launch) : (s.onLaunch n f).served = s.served := rfl
@[simp] theorem State.onLaunch_vfs (s : State) (n : Nat) (f : Launch → Launch) : (s.onLaunch n f).vfs = s.vfs := rfl
@[simp] theorem State.onLaunch_signals (s : State) (n : Nat) (f : Launch → Launch) : (s.onLaunch n f).signals = s.signals := rfl
@[simp] theorem State.onLaunch_inputs (s : State) (n : Nat) (f : Launch → Launch) : (s.onLaunch n f).inputs = s.inputs := rfl
@[simp] theorem State.onLaunch_breaks (s : State) (n : Nat) (f : Launch → Launch) : (s.onLaunch n f).breaks = s.breaks := rfl
@[simp] theorem State.onLaunch_raised (s : State) (n : Nat) (f : Launch → Launch) : (s.onLaunch n f).raised = s.raised := rfl
@[simp] theorem State.onLaunch_due (s : State) (n : Nat) (f : Launch → Launch) : (s.onLaunch n f).due = s.due := rfl
@[simp] theorem State.onLaunch_retired (s : State) (n : Nat) (f : Launch → Launch) : (s.onLaunch n f).retired = s.retired := rfl
@[simp] theorem State.onLaunch_udp (s : State) (n : Nat) (f : Launch → Launch) : (s.onLaunch n f).udp = s.udp := rfl
@[simp] theorem State.onLaunch_lag (s : State) (n : Nat) (f : Launch → Launch) : (s.onLaunch n f).lag = s.lag := rfl
@[simp] theorem State.onLaunch_imgr (s : State) (n : Nat) (f : Launch → Launch) : (s.onLaunch n f).imgr = s.imgr := rfl
@[simp] theorem State.onLaunch_partKeys (s : State) (n : Nat) (f : Launch → Launch) : (s.onLaunch n f).partKeys = s.partKeys := rfl
@[simp] theorem State.onLaunch_snapctl (s : State) (n : Nat) (f : Launch → Launch) : (s.onLaunch n f).snapctl = s.snapctl := rfl
@[simp] theorem State.onLaunch_armed (s : State) (n : Nat) (f : Launch → Launch) : (s.onLaunch n f).armed = s.armed := rfl
@[simp] theorem State.onLaunch_snap (s : State) (n : Nat) (f : Launch → Launch) : (s.onLaunch n f).snap = s.snap := rfl
@[simp] theorem State.onLaunch_errs (s : State) (n : Nat) (f : Launch → Launch) : (s.onLaunch n f).errs = s.errs := rfl
@[simp] theorem State.onLaunch_rrow (s : State) (n : Nat) (f : Launch → Launch) : (s.onLaunch n f).rrow = s.rrow := rfl
@[simp] theorem State.onLaunch_rows (s : State) (n : Nat) (f : Launch → Launch) : (s.onLaunch n f).rows = s.rows := rfl
@[simp] theorem State.onLaunch_pwr (s : State) (n : Nat) (f : Launch → Launch) : (s.onLaunch n f).pwr = s.pwr := rfl
@[simp] theorem State.onLaunch_bootst (s : State) (n : Nat) (f : Launch → Launch) : (s.onLaunch n f).bootst = s.bootst := rfl
@[simp] theorem State.onLaunch_transfers (s : State) (n : Nat) (f : Launch → Launch) : (s.onLaunch n f).transfers = s.transfers := rfl
@[simp] theorem State.onLaunch_reports (s : State) (n : Nat) (f : Launch → Launch) : (s.onLaunch n f).reports = s.reports := rfl
@[simp] theorem State.onLaunch_resent (s : State) (n : Nat) (f : Launch → Launch) : (s.onLaunch n f).resent = s.resent := rfl
@[simp] theorem State.onLaunch_time (s : State) (n : Nat) (f : Launch → Launch) : (s.onLaunch n f).time = s.time := rfl
@[simp] theorem State.onLaunch_gangs (s : State) (n : Nat) (f : Launch → Launch) : (s.onLaunch n f).gangs = s.gangs := rfl
@[simp] theorem State.onLaunch_troot (s : State) (n : Nat) (f : Launch → Launch) : (s.onLaunch n f).troot = s.troot := rfl
@[simp] theorem State.onLaunch_feps (s : State) (n : Nat) (f : Launch → Launch) : (s.onLaunch n f).feps = s.feps := rfl
@[simp] theorem State.onLaunch_fepsel (s : State) (n : Nat) (f : Launch → Launch) : (s.onLaunch n f).fepsel = s.fepsel := rfl
@[simp] theorem State.onLaunch_tinv (s : State) (n : Nat) (f : Launch → Launch) : (s.onLaunch n f).tinv = s.tinv := rfl
@[simp] theorem State.onLaunch_parts (s : State) (n : Nat) (f : Launch → Launch) : (s.onLaunch n f).parts = s.parts := rfl
@[simp] theorem State.onLaunch_l2 (s : State) (n : Nat) (f : Launch → Launch) : (s.onLaunch n f).l2 = s.l2 := rfl
@[simp] theorem State.onLaunch_keySlots (s : State) (n : Nat) (f : Launch → Launch) : (s.onLaunch n f).keySlots = s.keySlots := rfl
@[simp] theorem State.onLaunch_clock (s : State) (n : Nat) (f : Launch → Launch) : (s.onLaunch n f).clock = s.clock := rfl
@[simp] theorem State.onLaunch_vbind (s : State) (n : Nat) (f : Launch → Launch) : (s.onLaunch n f).vbind = s.vbind := rfl
@[simp] theorem State.onLaunch_pkgt (s : State) (n : Nat) (f : Launch → Launch) : (s.onLaunch n f).pkgt = s.pkgt := rfl
@[simp] theorem State.onLaunch_pkgVer (s : State) (n : Nat) (f : Launch → Launch) : (s.onLaunch n f).pkgVer = s.pkgVer := rfl
@[simp] theorem State.onLaunch_dieTlb (s : State) (n : Nat) (f : Launch → Launch) : (s.onLaunch n f).dieTlb = s.dieTlb := rfl
@[simp] theorem State.onLaunch_walks (s : State) (n : Nat) (f : Launch → Launch) : (s.onLaunch n f).walks = s.walks := rfl
@[simp] theorem State.onLaunch_fq (s : State) (n : Nat) (f : Launch → Launch) : (s.onLaunch n f).fq = s.fq := rfl
@[simp] theorem State.onLaunch_fqTail (s : State) (n : Nat) (f : Launch → Launch) : (s.onLaunch n f).fqTail = s.fqTail := rfl
@[simp] theorem State.onLaunch_fqHead (s : State) (n : Nat) (f : Launch → Launch) : (s.onLaunch n f).fqHead = s.fqHead := rfl
@[simp] theorem State.onLaunch_replays (s : State) (n : Nat) (f : Launch → Launch) : (s.onLaunch n f).replays = s.replays := rfl
@[simp] theorem State.onLaunch_iss (s : State) (n : Nat) (f : Launch → Launch) : (s.onLaunch n f).iss = s.iss := rfl
@[simp] theorem State.onLaunch_cycle (s : State) (n : Nat) (f : Launch → Launch) : (s.onLaunch n f).cycle = s.cycle := rfl
@[simp] theorem State.onLaunch_agenda (s : State) (n : Nat) (f : Launch → Launch) : (s.onLaunch n f).agenda = s.agenda := rfl
@[simp] theorem State.onLaunch_nextReq (s : State) (n : Nat) (f : Launch → Launch) : (s.onLaunch n f).nextReq = s.nextReq := rfl
@[simp] theorem State.onLaunch_nextUid (s : State) (n : Nat) (f : Launch → Launch) : (s.onLaunch n f).nextUid = s.nextUid := rfl
@[simp] theorem State.onLaunch_nextOrd (s : State) (n : Nat) (f : Launch → Launch) : (s.onLaunch n f).nextOrd = s.nextOrd := rfl
@[simp] theorem State.onLaunch_nextTeam (s : State) (n : Nat) (f : Launch → Launch) : (s.onLaunch n f).nextTeam = s.nextTeam := rfl
@[simp] theorem State.onLaunch_nextLaunch (s : State) (n : Nat) (f : Launch → Launch) : (s.onLaunch n f).nextLaunch = s.nextLaunch := rfl
@[simp] theorem State.onLaunch_choice (s : State) (n : Nat) (f : Launch → Launch) : (s.onLaunch n f).choice = s.choice := rfl
@[simp] theorem State.onLaunch_fresh (s : State) (n : Nat) (f : Launch → Launch) : (s.onLaunch n f).fresh = s.fresh := rfl
@[simp] theorem State.onLaunch_turn (s : State) (n : Nat) (f : Launch → Launch) : (s.onLaunch n f).turn = s.turn := rfl
@[simp] theorem State.onLaunch_arrivals (s : State) (n : Nat) (f : Launch → Launch) : (s.onLaunch n f).arrivals = s.arrivals := rfl

@[simp] theorem State.onFam_cores (s : State) (n : FamRef) (f : Fam → Fam) : (s.onFam n f).cores = s.cores := rfl
@[simp] theorem State.onFam_clusters (s : State) (n : FamRef) (f : Fam → Fam) : (s.onFam n f).clusters = s.clusters := rfl
@[simp] theorem State.onFam_mem (s : State) (n : FamRef) (f : Fam → Fam) : (s.onFam n f).mem = s.mem := rfl
@[simp] theorem State.onFam_poison (s : State) (n : FamRef) (f : Fam → Fam) : (s.onFam n f).poison = s.poison := rfl
@[simp] theorem State.onFam_parity (s : State) (n : FamRef) (f : Fam → Fam) : (s.onFam n f).parity = s.parity := rfl
@[simp] theorem State.onFam_upsets (s : State) (n : FamRef) (f : Fam → Fam) : (s.onFam n f).upsets = s.upsets := rfl
@[simp] theorem State.onFam_reqs (s : State) (n : FamRef) (f : Fam → Fam) : (s.onFam n f).reqs = s.reqs := rfl
@[simp] theorem State.onFam_joins (s : State) (n : FamRef) (f : Fam → Fam) : (s.onFam n f).joins = s.joins := rfl
@[simp] theorem State.onFam_owned (s : State) (n : FamRef) (f : Fam → Fam) : (s.onFam n f).owned = s.owned := rfl
@[simp] theorem State.onFam_resv (s : State) (n : FamRef) (f : Fam → Fam) : (s.onFam n f).resv = s.resv := rfl
@[simp] theorem State.onFam_fills (s : State) (n : FamRef) (f : Fam → Fam) : (s.onFam n f).fills = s.fills := rfl
@[simp] theorem State.onFam_migs (s : State) (n : FamRef) (f : Fam → Fam) : (s.onFam n f).migs = s.migs := rfl
@[simp] theorem State.onFam_barq (s : State) (n : FamRef) (f : Fam → Fam) : (s.onFam n f).barq = s.barq := rfl
@[simp] theorem State.onFam_teams (s : State) (n : FamRef) (f : Fam → Fam) : (s.onFam n f).teams = s.teams := rfl
@[simp] theorem State.onFam_launches (s : State) (n : FamRef) (f : Fam → Fam) : (s.onFam n f).launches = s.launches := rfl
@[simp] theorem State.onFam_images (s : State) (n : FamRef) (f : Fam → Fam) : (s.onFam n f).images = s.images := rfl
@[simp] theorem State.onFam_served (s : State) (n : FamRef) (f : Fam → Fam) : (s.onFam n f).served = s.served := rfl
@[simp] theorem State.onFam_vfs (s : State) (n : FamRef) (f : Fam → Fam) : (s.onFam n f).vfs = s.vfs := rfl
@[simp] theorem State.onFam_signals (s : State) (n : FamRef) (f : Fam → Fam) : (s.onFam n f).signals = s.signals := rfl
@[simp] theorem State.onFam_inputs (s : State) (n : FamRef) (f : Fam → Fam) : (s.onFam n f).inputs = s.inputs := rfl
@[simp] theorem State.onFam_breaks (s : State) (n : FamRef) (f : Fam → Fam) : (s.onFam n f).breaks = s.breaks := rfl
@[simp] theorem State.onFam_raised (s : State) (n : FamRef) (f : Fam → Fam) : (s.onFam n f).raised = s.raised := rfl
@[simp] theorem State.onFam_due (s : State) (n : FamRef) (f : Fam → Fam) : (s.onFam n f).due = s.due := rfl
@[simp] theorem State.onFam_retired (s : State) (n : FamRef) (f : Fam → Fam) : (s.onFam n f).retired = s.retired := rfl
@[simp] theorem State.onFam_udp (s : State) (n : FamRef) (f : Fam → Fam) : (s.onFam n f).udp = s.udp := rfl
@[simp] theorem State.onFam_lag (s : State) (n : FamRef) (f : Fam → Fam) : (s.onFam n f).lag = s.lag := rfl
@[simp] theorem State.onFam_imgr (s : State) (n : FamRef) (f : Fam → Fam) : (s.onFam n f).imgr = s.imgr := rfl
@[simp] theorem State.onFam_partKeys (s : State) (n : FamRef) (f : Fam → Fam) : (s.onFam n f).partKeys = s.partKeys := rfl
@[simp] theorem State.onFam_snapctl (s : State) (n : FamRef) (f : Fam → Fam) : (s.onFam n f).snapctl = s.snapctl := rfl
@[simp] theorem State.onFam_armed (s : State) (n : FamRef) (f : Fam → Fam) : (s.onFam n f).armed = s.armed := rfl
@[simp] theorem State.onFam_snap (s : State) (n : FamRef) (f : Fam → Fam) : (s.onFam n f).snap = s.snap := rfl
@[simp] theorem State.onFam_errs (s : State) (n : FamRef) (f : Fam → Fam) : (s.onFam n f).errs = s.errs := rfl
@[simp] theorem State.onFam_rrow (s : State) (n : FamRef) (f : Fam → Fam) : (s.onFam n f).rrow = s.rrow := rfl
@[simp] theorem State.onFam_rows (s : State) (n : FamRef) (f : Fam → Fam) : (s.onFam n f).rows = s.rows := rfl
@[simp] theorem State.onFam_pwr (s : State) (n : FamRef) (f : Fam → Fam) : (s.onFam n f).pwr = s.pwr := rfl
@[simp] theorem State.onFam_bootst (s : State) (n : FamRef) (f : Fam → Fam) : (s.onFam n f).bootst = s.bootst := rfl
@[simp] theorem State.onFam_transfers (s : State) (n : FamRef) (f : Fam → Fam) : (s.onFam n f).transfers = s.transfers := rfl
@[simp] theorem State.onFam_reports (s : State) (n : FamRef) (f : Fam → Fam) : (s.onFam n f).reports = s.reports := rfl
@[simp] theorem State.onFam_resent (s : State) (n : FamRef) (f : Fam → Fam) : (s.onFam n f).resent = s.resent := rfl
@[simp] theorem State.onFam_time (s : State) (n : FamRef) (f : Fam → Fam) : (s.onFam n f).time = s.time := rfl
@[simp] theorem State.onFam_gangs (s : State) (n : FamRef) (f : Fam → Fam) : (s.onFam n f).gangs = s.gangs := rfl
@[simp] theorem State.onFam_troot (s : State) (n : FamRef) (f : Fam → Fam) : (s.onFam n f).troot = s.troot := rfl
@[simp] theorem State.onFam_feps (s : State) (n : FamRef) (f : Fam → Fam) : (s.onFam n f).feps = s.feps := rfl
@[simp] theorem State.onFam_fepsel (s : State) (n : FamRef) (f : Fam → Fam) : (s.onFam n f).fepsel = s.fepsel := rfl
@[simp] theorem State.onFam_tinv (s : State) (n : FamRef) (f : Fam → Fam) : (s.onFam n f).tinv = s.tinv := rfl
@[simp] theorem State.onFam_parts (s : State) (n : FamRef) (f : Fam → Fam) : (s.onFam n f).parts = s.parts := rfl
@[simp] theorem State.onFam_l2 (s : State) (n : FamRef) (f : Fam → Fam) : (s.onFam n f).l2 = s.l2 := rfl
@[simp] theorem State.onFam_keySlots (s : State) (n : FamRef) (f : Fam → Fam) : (s.onFam n f).keySlots = s.keySlots := rfl
@[simp] theorem State.onFam_clock (s : State) (n : FamRef) (f : Fam → Fam) : (s.onFam n f).clock = s.clock := rfl
@[simp] theorem State.onFam_vbind (s : State) (n : FamRef) (f : Fam → Fam) : (s.onFam n f).vbind = s.vbind := rfl
@[simp] theorem State.onFam_pkgt (s : State) (n : FamRef) (f : Fam → Fam) : (s.onFam n f).pkgt = s.pkgt := rfl
@[simp] theorem State.onFam_pkgVer (s : State) (n : FamRef) (f : Fam → Fam) : (s.onFam n f).pkgVer = s.pkgVer := rfl
@[simp] theorem State.onFam_dieTlb (s : State) (n : FamRef) (f : Fam → Fam) : (s.onFam n f).dieTlb = s.dieTlb := rfl
@[simp] theorem State.onFam_walks (s : State) (n : FamRef) (f : Fam → Fam) : (s.onFam n f).walks = s.walks := rfl
@[simp] theorem State.onFam_fq (s : State) (n : FamRef) (f : Fam → Fam) : (s.onFam n f).fq = s.fq := rfl
@[simp] theorem State.onFam_fqTail (s : State) (n : FamRef) (f : Fam → Fam) : (s.onFam n f).fqTail = s.fqTail := rfl
@[simp] theorem State.onFam_fqHead (s : State) (n : FamRef) (f : Fam → Fam) : (s.onFam n f).fqHead = s.fqHead := rfl
@[simp] theorem State.onFam_replays (s : State) (n : FamRef) (f : Fam → Fam) : (s.onFam n f).replays = s.replays := rfl
@[simp] theorem State.onFam_iss (s : State) (n : FamRef) (f : Fam → Fam) : (s.onFam n f).iss = s.iss := rfl
@[simp] theorem State.onFam_cycle (s : State) (n : FamRef) (f : Fam → Fam) : (s.onFam n f).cycle = s.cycle := rfl
@[simp] theorem State.onFam_agenda (s : State) (n : FamRef) (f : Fam → Fam) : (s.onFam n f).agenda = s.agenda := rfl
@[simp] theorem State.onFam_nextReq (s : State) (n : FamRef) (f : Fam → Fam) : (s.onFam n f).nextReq = s.nextReq := rfl
@[simp] theorem State.onFam_nextUid (s : State) (n : FamRef) (f : Fam → Fam) : (s.onFam n f).nextUid = s.nextUid := rfl
@[simp] theorem State.onFam_nextOrd (s : State) (n : FamRef) (f : Fam → Fam) : (s.onFam n f).nextOrd = s.nextOrd := rfl
@[simp] theorem State.onFam_nextTeam (s : State) (n : FamRef) (f : Fam → Fam) : (s.onFam n f).nextTeam = s.nextTeam := rfl
@[simp] theorem State.onFam_nextLaunch (s : State) (n : FamRef) (f : Fam → Fam) : (s.onFam n f).nextLaunch = s.nextLaunch := rfl
@[simp] theorem State.onFam_choice (s : State) (n : FamRef) (f : Fam → Fam) : (s.onFam n f).choice = s.choice := rfl
@[simp] theorem State.onFam_fresh (s : State) (n : FamRef) (f : Fam → Fam) : (s.onFam n f).fresh = s.fresh := rfl
@[simp] theorem State.onFam_turn (s : State) (n : FamRef) (f : Fam → Fam) : (s.onFam n f).turn = s.turn := rfl
@[simp] theorem State.onFam_arrivals (s : State) (n : FamRef) (f : Fam → Fam) : (s.onFam n f).arrivals = s.arrivals := rfl

@[simp] theorem State.onReq_cores (s : State) (n : Nat) (f : Req → Req) : (s.onReq n f).cores = s.cores := rfl
@[simp] theorem State.onReq_clusters (s : State) (n : Nat) (f : Req → Req) : (s.onReq n f).clusters = s.clusters := rfl
@[simp] theorem State.onReq_mem (s : State) (n : Nat) (f : Req → Req) : (s.onReq n f).mem = s.mem := rfl
@[simp] theorem State.onReq_poison (s : State) (n : Nat) (f : Req → Req) : (s.onReq n f).poison = s.poison := rfl
@[simp] theorem State.onReq_parity (s : State) (n : Nat) (f : Req → Req) : (s.onReq n f).parity = s.parity := rfl
@[simp] theorem State.onReq_upsets (s : State) (n : Nat) (f : Req → Req) : (s.onReq n f).upsets = s.upsets := rfl
@[simp] theorem State.onReq_joins (s : State) (n : Nat) (f : Req → Req) : (s.onReq n f).joins = s.joins := rfl
@[simp] theorem State.onReq_owned (s : State) (n : Nat) (f : Req → Req) : (s.onReq n f).owned = s.owned := rfl
@[simp] theorem State.onReq_resv (s : State) (n : Nat) (f : Req → Req) : (s.onReq n f).resv = s.resv := rfl
@[simp] theorem State.onReq_fills (s : State) (n : Nat) (f : Req → Req) : (s.onReq n f).fills = s.fills := rfl
@[simp] theorem State.onReq_migs (s : State) (n : Nat) (f : Req → Req) : (s.onReq n f).migs = s.migs := rfl
@[simp] theorem State.onReq_barq (s : State) (n : Nat) (f : Req → Req) : (s.onReq n f).barq = s.barq := rfl
@[simp] theorem State.onReq_fams (s : State) (n : Nat) (f : Req → Req) : (s.onReq n f).fams = s.fams := rfl
@[simp] theorem State.onReq_teams (s : State) (n : Nat) (f : Req → Req) : (s.onReq n f).teams = s.teams := rfl
@[simp] theorem State.onReq_launches (s : State) (n : Nat) (f : Req → Req) : (s.onReq n f).launches = s.launches := rfl
@[simp] theorem State.onReq_images (s : State) (n : Nat) (f : Req → Req) : (s.onReq n f).images = s.images := rfl
@[simp] theorem State.onReq_served (s : State) (n : Nat) (f : Req → Req) : (s.onReq n f).served = s.served := rfl
@[simp] theorem State.onReq_vfs (s : State) (n : Nat) (f : Req → Req) : (s.onReq n f).vfs = s.vfs := rfl
@[simp] theorem State.onReq_signals (s : State) (n : Nat) (f : Req → Req) : (s.onReq n f).signals = s.signals := rfl
@[simp] theorem State.onReq_inputs (s : State) (n : Nat) (f : Req → Req) : (s.onReq n f).inputs = s.inputs := rfl
@[simp] theorem State.onReq_breaks (s : State) (n : Nat) (f : Req → Req) : (s.onReq n f).breaks = s.breaks := rfl
@[simp] theorem State.onReq_raised (s : State) (n : Nat) (f : Req → Req) : (s.onReq n f).raised = s.raised := rfl
@[simp] theorem State.onReq_due (s : State) (n : Nat) (f : Req → Req) : (s.onReq n f).due = s.due := rfl
@[simp] theorem State.onReq_retired (s : State) (n : Nat) (f : Req → Req) : (s.onReq n f).retired = s.retired := rfl
@[simp] theorem State.onReq_udp (s : State) (n : Nat) (f : Req → Req) : (s.onReq n f).udp = s.udp := rfl
@[simp] theorem State.onReq_lag (s : State) (n : Nat) (f : Req → Req) : (s.onReq n f).lag = s.lag := rfl
@[simp] theorem State.onReq_imgr (s : State) (n : Nat) (f : Req → Req) : (s.onReq n f).imgr = s.imgr := rfl
@[simp] theorem State.onReq_partKeys (s : State) (n : Nat) (f : Req → Req) : (s.onReq n f).partKeys = s.partKeys := rfl
@[simp] theorem State.onReq_snapctl (s : State) (n : Nat) (f : Req → Req) : (s.onReq n f).snapctl = s.snapctl := rfl
@[simp] theorem State.onReq_armed (s : State) (n : Nat) (f : Req → Req) : (s.onReq n f).armed = s.armed := rfl
@[simp] theorem State.onReq_snap (s : State) (n : Nat) (f : Req → Req) : (s.onReq n f).snap = s.snap := rfl
@[simp] theorem State.onReq_errs (s : State) (n : Nat) (f : Req → Req) : (s.onReq n f).errs = s.errs := rfl
@[simp] theorem State.onReq_rrow (s : State) (n : Nat) (f : Req → Req) : (s.onReq n f).rrow = s.rrow := rfl
@[simp] theorem State.onReq_rows (s : State) (n : Nat) (f : Req → Req) : (s.onReq n f).rows = s.rows := rfl
@[simp] theorem State.onReq_pwr (s : State) (n : Nat) (f : Req → Req) : (s.onReq n f).pwr = s.pwr := rfl
@[simp] theorem State.onReq_bootst (s : State) (n : Nat) (f : Req → Req) : (s.onReq n f).bootst = s.bootst := rfl
@[simp] theorem State.onReq_transfers (s : State) (n : Nat) (f : Req → Req) : (s.onReq n f).transfers = s.transfers := rfl
@[simp] theorem State.onReq_reports (s : State) (n : Nat) (f : Req → Req) : (s.onReq n f).reports = s.reports := rfl
@[simp] theorem State.onReq_resent (s : State) (n : Nat) (f : Req → Req) : (s.onReq n f).resent = s.resent := rfl
@[simp] theorem State.onReq_time (s : State) (n : Nat) (f : Req → Req) : (s.onReq n f).time = s.time := rfl
@[simp] theorem State.onReq_gangs (s : State) (n : Nat) (f : Req → Req) : (s.onReq n f).gangs = s.gangs := rfl
@[simp] theorem State.onReq_troot (s : State) (n : Nat) (f : Req → Req) : (s.onReq n f).troot = s.troot := rfl
@[simp] theorem State.onReq_feps (s : State) (n : Nat) (f : Req → Req) : (s.onReq n f).feps = s.feps := rfl
@[simp] theorem State.onReq_fepsel (s : State) (n : Nat) (f : Req → Req) : (s.onReq n f).fepsel = s.fepsel := rfl
@[simp] theorem State.onReq_tinv (s : State) (n : Nat) (f : Req → Req) : (s.onReq n f).tinv = s.tinv := rfl
@[simp] theorem State.onReq_parts (s : State) (n : Nat) (f : Req → Req) : (s.onReq n f).parts = s.parts := rfl
@[simp] theorem State.onReq_l2 (s : State) (n : Nat) (f : Req → Req) : (s.onReq n f).l2 = s.l2 := rfl
@[simp] theorem State.onReq_keySlots (s : State) (n : Nat) (f : Req → Req) : (s.onReq n f).keySlots = s.keySlots := rfl
@[simp] theorem State.onReq_clock (s : State) (n : Nat) (f : Req → Req) : (s.onReq n f).clock = s.clock := rfl
@[simp] theorem State.onReq_vbind (s : State) (n : Nat) (f : Req → Req) : (s.onReq n f).vbind = s.vbind := rfl
@[simp] theorem State.onReq_pkgt (s : State) (n : Nat) (f : Req → Req) : (s.onReq n f).pkgt = s.pkgt := rfl
@[simp] theorem State.onReq_pkgVer (s : State) (n : Nat) (f : Req → Req) : (s.onReq n f).pkgVer = s.pkgVer := rfl
@[simp] theorem State.onReq_dieTlb (s : State) (n : Nat) (f : Req → Req) : (s.onReq n f).dieTlb = s.dieTlb := rfl
@[simp] theorem State.onReq_walks (s : State) (n : Nat) (f : Req → Req) : (s.onReq n f).walks = s.walks := rfl
@[simp] theorem State.onReq_fq (s : State) (n : Nat) (f : Req → Req) : (s.onReq n f).fq = s.fq := rfl
@[simp] theorem State.onReq_fqTail (s : State) (n : Nat) (f : Req → Req) : (s.onReq n f).fqTail = s.fqTail := rfl
@[simp] theorem State.onReq_fqHead (s : State) (n : Nat) (f : Req → Req) : (s.onReq n f).fqHead = s.fqHead := rfl
@[simp] theorem State.onReq_replays (s : State) (n : Nat) (f : Req → Req) : (s.onReq n f).replays = s.replays := rfl
@[simp] theorem State.onReq_iss (s : State) (n : Nat) (f : Req → Req) : (s.onReq n f).iss = s.iss := rfl
@[simp] theorem State.onReq_cycle (s : State) (n : Nat) (f : Req → Req) : (s.onReq n f).cycle = s.cycle := rfl
@[simp] theorem State.onReq_agenda (s : State) (n : Nat) (f : Req → Req) : (s.onReq n f).agenda = s.agenda := rfl
@[simp] theorem State.onReq_nextReq (s : State) (n : Nat) (f : Req → Req) : (s.onReq n f).nextReq = s.nextReq := rfl
@[simp] theorem State.onReq_nextUid (s : State) (n : Nat) (f : Req → Req) : (s.onReq n f).nextUid = s.nextUid := rfl
@[simp] theorem State.onReq_nextOrd (s : State) (n : Nat) (f : Req → Req) : (s.onReq n f).nextOrd = s.nextOrd := rfl
@[simp] theorem State.onReq_nextTeam (s : State) (n : Nat) (f : Req → Req) : (s.onReq n f).nextTeam = s.nextTeam := rfl
@[simp] theorem State.onReq_nextLaunch (s : State) (n : Nat) (f : Req → Req) : (s.onReq n f).nextLaunch = s.nextLaunch := rfl
@[simp] theorem State.onReq_choice (s : State) (n : Nat) (f : Req → Req) : (s.onReq n f).choice = s.choice := rfl
@[simp] theorem State.onReq_fresh (s : State) (n : Nat) (f : Req → Req) : (s.onReq n f).fresh = s.fresh := rfl
@[simp] theorem State.onReq_turn (s : State) (n : Nat) (f : Req → Req) : (s.onReq n f).turn = s.turn := rfl
@[simp] theorem State.onReq_arrivals (s : State) (n : Nat) (f : Req → Req) : (s.onReq n f).arrivals = s.arrivals := rfl

@[simp] theorem State.dropReq_cores (s : State) (n : Nat) : (s.dropReq n).cores = s.cores := rfl
@[simp] theorem State.dropReq_clusters (s : State) (n : Nat) : (s.dropReq n).clusters = s.clusters := rfl
@[simp] theorem State.dropReq_mem (s : State) (n : Nat) : (s.dropReq n).mem = s.mem := rfl
@[simp] theorem State.dropReq_poison (s : State) (n : Nat) : (s.dropReq n).poison = s.poison := rfl
@[simp] theorem State.dropReq_parity (s : State) (n : Nat) : (s.dropReq n).parity = s.parity := rfl
@[simp] theorem State.dropReq_upsets (s : State) (n : Nat) : (s.dropReq n).upsets = s.upsets := rfl
@[simp] theorem State.dropReq_joins (s : State) (n : Nat) : (s.dropReq n).joins = s.joins := rfl
@[simp] theorem State.dropReq_owned (s : State) (n : Nat) : (s.dropReq n).owned = s.owned := rfl
@[simp] theorem State.dropReq_resv (s : State) (n : Nat) : (s.dropReq n).resv = s.resv := rfl
@[simp] theorem State.dropReq_fills (s : State) (n : Nat) : (s.dropReq n).fills = s.fills := rfl
@[simp] theorem State.dropReq_migs (s : State) (n : Nat) : (s.dropReq n).migs = s.migs := rfl
@[simp] theorem State.dropReq_barq (s : State) (n : Nat) : (s.dropReq n).barq = s.barq := rfl
@[simp] theorem State.dropReq_fams (s : State) (n : Nat) : (s.dropReq n).fams = s.fams := rfl
@[simp] theorem State.dropReq_teams (s : State) (n : Nat) : (s.dropReq n).teams = s.teams := rfl
@[simp] theorem State.dropReq_launches (s : State) (n : Nat) : (s.dropReq n).launches = s.launches := rfl
@[simp] theorem State.dropReq_images (s : State) (n : Nat) : (s.dropReq n).images = s.images := rfl
@[simp] theorem State.dropReq_served (s : State) (n : Nat) : (s.dropReq n).served = s.served := rfl
@[simp] theorem State.dropReq_vfs (s : State) (n : Nat) : (s.dropReq n).vfs = s.vfs := rfl
@[simp] theorem State.dropReq_signals (s : State) (n : Nat) : (s.dropReq n).signals = s.signals := rfl
@[simp] theorem State.dropReq_inputs (s : State) (n : Nat) : (s.dropReq n).inputs = s.inputs := rfl
@[simp] theorem State.dropReq_breaks (s : State) (n : Nat) : (s.dropReq n).breaks = s.breaks := rfl
@[simp] theorem State.dropReq_raised (s : State) (n : Nat) : (s.dropReq n).raised = s.raised := rfl
@[simp] theorem State.dropReq_due (s : State) (n : Nat) : (s.dropReq n).due = s.due := rfl
@[simp] theorem State.dropReq_retired (s : State) (n : Nat) : (s.dropReq n).retired = s.retired := rfl
@[simp] theorem State.dropReq_udp (s : State) (n : Nat) : (s.dropReq n).udp = s.udp := rfl
@[simp] theorem State.dropReq_lag (s : State) (n : Nat) : (s.dropReq n).lag = s.lag := rfl
@[simp] theorem State.dropReq_imgr (s : State) (n : Nat) : (s.dropReq n).imgr = s.imgr := rfl
@[simp] theorem State.dropReq_partKeys (s : State) (n : Nat) : (s.dropReq n).partKeys = s.partKeys := rfl
@[simp] theorem State.dropReq_snapctl (s : State) (n : Nat) : (s.dropReq n).snapctl = s.snapctl := rfl
@[simp] theorem State.dropReq_armed (s : State) (n : Nat) : (s.dropReq n).armed = s.armed := rfl
@[simp] theorem State.dropReq_snap (s : State) (n : Nat) : (s.dropReq n).snap = s.snap := rfl
@[simp] theorem State.dropReq_errs (s : State) (n : Nat) : (s.dropReq n).errs = s.errs := rfl
@[simp] theorem State.dropReq_rrow (s : State) (n : Nat) : (s.dropReq n).rrow = s.rrow := rfl
@[simp] theorem State.dropReq_rows (s : State) (n : Nat) : (s.dropReq n).rows = s.rows := rfl
@[simp] theorem State.dropReq_pwr (s : State) (n : Nat) : (s.dropReq n).pwr = s.pwr := rfl
@[simp] theorem State.dropReq_bootst (s : State) (n : Nat) : (s.dropReq n).bootst = s.bootst := rfl
@[simp] theorem State.dropReq_transfers (s : State) (n : Nat) : (s.dropReq n).transfers = s.transfers := rfl
@[simp] theorem State.dropReq_reports (s : State) (n : Nat) : (s.dropReq n).reports = s.reports := rfl
@[simp] theorem State.dropReq_resent (s : State) (n : Nat) : (s.dropReq n).resent = s.resent := rfl
@[simp] theorem State.dropReq_time (s : State) (n : Nat) : (s.dropReq n).time = s.time := rfl
@[simp] theorem State.dropReq_gangs (s : State) (n : Nat) : (s.dropReq n).gangs = s.gangs := rfl
@[simp] theorem State.dropReq_troot (s : State) (n : Nat) : (s.dropReq n).troot = s.troot := rfl
@[simp] theorem State.dropReq_feps (s : State) (n : Nat) : (s.dropReq n).feps = s.feps := rfl
@[simp] theorem State.dropReq_fepsel (s : State) (n : Nat) : (s.dropReq n).fepsel = s.fepsel := rfl
@[simp] theorem State.dropReq_tinv (s : State) (n : Nat) : (s.dropReq n).tinv = s.tinv := rfl
@[simp] theorem State.dropReq_parts (s : State) (n : Nat) : (s.dropReq n).parts = s.parts := rfl
@[simp] theorem State.dropReq_l2 (s : State) (n : Nat) : (s.dropReq n).l2 = s.l2 := rfl
@[simp] theorem State.dropReq_keySlots (s : State) (n : Nat) : (s.dropReq n).keySlots = s.keySlots := rfl
@[simp] theorem State.dropReq_clock (s : State) (n : Nat) : (s.dropReq n).clock = s.clock := rfl
@[simp] theorem State.dropReq_vbind (s : State) (n : Nat) : (s.dropReq n).vbind = s.vbind := rfl
@[simp] theorem State.dropReq_pkgt (s : State) (n : Nat) : (s.dropReq n).pkgt = s.pkgt := rfl
@[simp] theorem State.dropReq_pkgVer (s : State) (n : Nat) : (s.dropReq n).pkgVer = s.pkgVer := rfl
@[simp] theorem State.dropReq_dieTlb (s : State) (n : Nat) : (s.dropReq n).dieTlb = s.dieTlb := rfl
@[simp] theorem State.dropReq_walks (s : State) (n : Nat) : (s.dropReq n).walks = s.walks := rfl
@[simp] theorem State.dropReq_fq (s : State) (n : Nat) : (s.dropReq n).fq = s.fq := rfl
@[simp] theorem State.dropReq_fqTail (s : State) (n : Nat) : (s.dropReq n).fqTail = s.fqTail := rfl
@[simp] theorem State.dropReq_fqHead (s : State) (n : Nat) : (s.dropReq n).fqHead = s.fqHead := rfl
@[simp] theorem State.dropReq_replays (s : State) (n : Nat) : (s.dropReq n).replays = s.replays := rfl
@[simp] theorem State.dropReq_iss (s : State) (n : Nat) : (s.dropReq n).iss = s.iss := rfl
@[simp] theorem State.dropReq_cycle (s : State) (n : Nat) : (s.dropReq n).cycle = s.cycle := rfl
@[simp] theorem State.dropReq_agenda (s : State) (n : Nat) : (s.dropReq n).agenda = s.agenda := rfl
@[simp] theorem State.dropReq_nextReq (s : State) (n : Nat) : (s.dropReq n).nextReq = s.nextReq := rfl
@[simp] theorem State.dropReq_nextUid (s : State) (n : Nat) : (s.dropReq n).nextUid = s.nextUid := rfl
@[simp] theorem State.dropReq_nextOrd (s : State) (n : Nat) : (s.dropReq n).nextOrd = s.nextOrd := rfl
@[simp] theorem State.dropReq_nextTeam (s : State) (n : Nat) : (s.dropReq n).nextTeam = s.nextTeam := rfl
@[simp] theorem State.dropReq_nextLaunch (s : State) (n : Nat) : (s.dropReq n).nextLaunch = s.nextLaunch := rfl
@[simp] theorem State.dropReq_choice (s : State) (n : Nat) : (s.dropReq n).choice = s.choice := rfl
@[simp] theorem State.dropReq_fresh (s : State) (n : Nat) : (s.dropReq n).fresh = s.fresh := rfl
@[simp] theorem State.dropReq_turn (s : State) (n : Nat) : (s.dropReq n).turn = s.turn := rfl
@[simp] theorem State.dropReq_arrivals (s : State) (n : Nat) : (s.dropReq n).arrivals = s.arrivals := rfl

@[simp] theorem State.setRowAt_cores (s : State) (n p : Nat) (v : Row) : (s.setRowAt n p v).cores = s.cores := by simp only [State.setRowAt]
@[simp] theorem State.setRowAt_clusters (s : State) (n p : Nat) (v : Row) : (s.setRowAt n p v).clusters = s.clusters := by simp only [State.setRowAt]
@[simp] theorem State.setRowAt_poison (s : State) (n p : Nat) (v : Row) : (s.setRowAt n p v).poison = s.poison := by simp only [State.setRowAt]
@[simp] theorem State.setRowAt_upsets (s : State) (n p : Nat) (v : Row) : (s.setRowAt n p v).upsets = s.upsets := by simp only [State.setRowAt]
@[simp] theorem State.setRowAt_reqs (s : State) (n p : Nat) (v : Row) : (s.setRowAt n p v).reqs = s.reqs := by simp only [State.setRowAt]
@[simp] theorem State.setRowAt_joins (s : State) (n p : Nat) (v : Row) : (s.setRowAt n p v).joins = s.joins := by simp only [State.setRowAt]
@[simp] theorem State.setRowAt_owned (s : State) (n p : Nat) (v : Row) : (s.setRowAt n p v).owned = s.owned := by simp only [State.setRowAt]
@[simp] theorem State.setRowAt_resv (s : State) (n p : Nat) (v : Row) : (s.setRowAt n p v).resv = s.resv := by simp only [State.setRowAt]
@[simp] theorem State.setRowAt_fills (s : State) (n p : Nat) (v : Row) : (s.setRowAt n p v).fills = s.fills := by simp only [State.setRowAt]
@[simp] theorem State.setRowAt_migs (s : State) (n p : Nat) (v : Row) : (s.setRowAt n p v).migs = s.migs := by simp only [State.setRowAt]
@[simp] theorem State.setRowAt_barq (s : State) (n p : Nat) (v : Row) : (s.setRowAt n p v).barq = s.barq := by simp only [State.setRowAt]
@[simp] theorem State.setRowAt_fams (s : State) (n p : Nat) (v : Row) : (s.setRowAt n p v).fams = s.fams := by simp only [State.setRowAt]
@[simp] theorem State.setRowAt_teams (s : State) (n p : Nat) (v : Row) : (s.setRowAt n p v).teams = s.teams := by simp only [State.setRowAt]
@[simp] theorem State.setRowAt_launches (s : State) (n p : Nat) (v : Row) : (s.setRowAt n p v).launches = s.launches := by simp only [State.setRowAt]
@[simp] theorem State.setRowAt_images (s : State) (n p : Nat) (v : Row) : (s.setRowAt n p v).images = s.images := by simp only [State.setRowAt]
@[simp] theorem State.setRowAt_served (s : State) (n p : Nat) (v : Row) : (s.setRowAt n p v).served = s.served := by simp only [State.setRowAt]
@[simp] theorem State.setRowAt_vfs (s : State) (n p : Nat) (v : Row) : (s.setRowAt n p v).vfs = s.vfs := by simp only [State.setRowAt]
@[simp] theorem State.setRowAt_signals (s : State) (n p : Nat) (v : Row) : (s.setRowAt n p v).signals = s.signals := by simp only [State.setRowAt]
@[simp] theorem State.setRowAt_inputs (s : State) (n p : Nat) (v : Row) : (s.setRowAt n p v).inputs = s.inputs := by simp only [State.setRowAt]
@[simp] theorem State.setRowAt_breaks (s : State) (n p : Nat) (v : Row) : (s.setRowAt n p v).breaks = s.breaks := by simp only [State.setRowAt]
@[simp] theorem State.setRowAt_raised (s : State) (n p : Nat) (v : Row) : (s.setRowAt n p v).raised = s.raised := by simp only [State.setRowAt]
@[simp] theorem State.setRowAt_due (s : State) (n p : Nat) (v : Row) : (s.setRowAt n p v).due = s.due := by simp only [State.setRowAt]
@[simp] theorem State.setRowAt_retired (s : State) (n p : Nat) (v : Row) : (s.setRowAt n p v).retired = s.retired := by simp only [State.setRowAt]
@[simp] theorem State.setRowAt_udp (s : State) (n p : Nat) (v : Row) : (s.setRowAt n p v).udp = s.udp := by simp only [State.setRowAt]
@[simp] theorem State.setRowAt_lag (s : State) (n p : Nat) (v : Row) : (s.setRowAt n p v).lag = s.lag := by simp only [State.setRowAt]
@[simp] theorem State.setRowAt_imgr (s : State) (n p : Nat) (v : Row) : (s.setRowAt n p v).imgr = s.imgr := by simp only [State.setRowAt]
@[simp] theorem State.setRowAt_partKeys (s : State) (n p : Nat) (v : Row) : (s.setRowAt n p v).partKeys = s.partKeys := by simp only [State.setRowAt]
@[simp] theorem State.setRowAt_snapctl (s : State) (n p : Nat) (v : Row) : (s.setRowAt n p v).snapctl = s.snapctl := by simp only [State.setRowAt]
@[simp] theorem State.setRowAt_armed (s : State) (n p : Nat) (v : Row) : (s.setRowAt n p v).armed = s.armed := by simp only [State.setRowAt]
@[simp] theorem State.setRowAt_snap (s : State) (n p : Nat) (v : Row) : (s.setRowAt n p v).snap = s.snap := by simp only [State.setRowAt]
@[simp] theorem State.setRowAt_errs (s : State) (n p : Nat) (v : Row) : (s.setRowAt n p v).errs = s.errs := by simp only [State.setRowAt]
@[simp] theorem State.setRowAt_rrow (s : State) (n p : Nat) (v : Row) : (s.setRowAt n p v).rrow = s.rrow := by simp only [State.setRowAt]
@[simp] theorem State.setRowAt_rows (s : State) (n p : Nat) (v : Row) : (s.setRowAt n p v).rows = s.rows := by simp only [State.setRowAt]
@[simp] theorem State.setRowAt_pwr (s : State) (n p : Nat) (v : Row) : (s.setRowAt n p v).pwr = s.pwr := by simp only [State.setRowAt]
@[simp] theorem State.setRowAt_bootst (s : State) (n p : Nat) (v : Row) : (s.setRowAt n p v).bootst = s.bootst := by simp only [State.setRowAt]
@[simp] theorem State.setRowAt_transfers (s : State) (n p : Nat) (v : Row) : (s.setRowAt n p v).transfers = s.transfers := by simp only [State.setRowAt]
@[simp] theorem State.setRowAt_reports (s : State) (n p : Nat) (v : Row) : (s.setRowAt n p v).reports = s.reports := by simp only [State.setRowAt]
@[simp] theorem State.setRowAt_resent (s : State) (n p : Nat) (v : Row) : (s.setRowAt n p v).resent = s.resent := by simp only [State.setRowAt]
@[simp] theorem State.setRowAt_time (s : State) (n p : Nat) (v : Row) : (s.setRowAt n p v).time = s.time := by simp only [State.setRowAt]
@[simp] theorem State.setRowAt_gangs (s : State) (n p : Nat) (v : Row) : (s.setRowAt n p v).gangs = s.gangs := by simp only [State.setRowAt]
@[simp] theorem State.setRowAt_troot (s : State) (n p : Nat) (v : Row) : (s.setRowAt n p v).troot = s.troot := by simp only [State.setRowAt]
@[simp] theorem State.setRowAt_feps (s : State) (n p : Nat) (v : Row) : (s.setRowAt n p v).feps = s.feps := by simp only [State.setRowAt]
@[simp] theorem State.setRowAt_fepsel (s : State) (n p : Nat) (v : Row) : (s.setRowAt n p v).fepsel = s.fepsel := by simp only [State.setRowAt]
@[simp] theorem State.setRowAt_tinv (s : State) (n p : Nat) (v : Row) : (s.setRowAt n p v).tinv = s.tinv := by simp only [State.setRowAt]
@[simp] theorem State.setRowAt_parts (s : State) (n p : Nat) (v : Row) : (s.setRowAt n p v).parts = s.parts := by simp only [State.setRowAt]
@[simp] theorem State.setRowAt_l2 (s : State) (n p : Nat) (v : Row) : (s.setRowAt n p v).l2 = s.l2 := by simp only [State.setRowAt]
@[simp] theorem State.setRowAt_keySlots (s : State) (n p : Nat) (v : Row) : (s.setRowAt n p v).keySlots = s.keySlots := by simp only [State.setRowAt]
@[simp] theorem State.setRowAt_clock (s : State) (n p : Nat) (v : Row) : (s.setRowAt n p v).clock = s.clock := by simp only [State.setRowAt]
@[simp] theorem State.setRowAt_vbind (s : State) (n p : Nat) (v : Row) : (s.setRowAt n p v).vbind = s.vbind := by simp only [State.setRowAt]
@[simp] theorem State.setRowAt_pkgt (s : State) (n p : Nat) (v : Row) : (s.setRowAt n p v).pkgt = s.pkgt := by simp only [State.setRowAt]
@[simp] theorem State.setRowAt_pkgVer (s : State) (n p : Nat) (v : Row) : (s.setRowAt n p v).pkgVer = s.pkgVer := by simp only [State.setRowAt]
@[simp] theorem State.setRowAt_dieTlb (s : State) (n p : Nat) (v : Row) : (s.setRowAt n p v).dieTlb = s.dieTlb := by simp only [State.setRowAt]
@[simp] theorem State.setRowAt_walks (s : State) (n p : Nat) (v : Row) : (s.setRowAt n p v).walks = s.walks := by simp only [State.setRowAt]
@[simp] theorem State.setRowAt_fq (s : State) (n p : Nat) (v : Row) : (s.setRowAt n p v).fq = s.fq := by simp only [State.setRowAt]
@[simp] theorem State.setRowAt_fqTail (s : State) (n p : Nat) (v : Row) : (s.setRowAt n p v).fqTail = s.fqTail := by simp only [State.setRowAt]
@[simp] theorem State.setRowAt_fqHead (s : State) (n p : Nat) (v : Row) : (s.setRowAt n p v).fqHead = s.fqHead := by simp only [State.setRowAt]
@[simp] theorem State.setRowAt_replays (s : State) (n p : Nat) (v : Row) : (s.setRowAt n p v).replays = s.replays := by simp only [State.setRowAt]
@[simp] theorem State.setRowAt_iss (s : State) (n p : Nat) (v : Row) : (s.setRowAt n p v).iss = s.iss := by simp only [State.setRowAt]
@[simp] theorem State.setRowAt_cycle (s : State) (n p : Nat) (v : Row) : (s.setRowAt n p v).cycle = s.cycle := by simp only [State.setRowAt]
@[simp] theorem State.setRowAt_agenda (s : State) (n p : Nat) (v : Row) : (s.setRowAt n p v).agenda = s.agenda := by simp only [State.setRowAt]
@[simp] theorem State.setRowAt_nextReq (s : State) (n p : Nat) (v : Row) : (s.setRowAt n p v).nextReq = s.nextReq := by simp only [State.setRowAt]
@[simp] theorem State.setRowAt_nextUid (s : State) (n p : Nat) (v : Row) : (s.setRowAt n p v).nextUid = s.nextUid := by simp only [State.setRowAt]
@[simp] theorem State.setRowAt_nextOrd (s : State) (n p : Nat) (v : Row) : (s.setRowAt n p v).nextOrd = s.nextOrd := by simp only [State.setRowAt]
@[simp] theorem State.setRowAt_nextTeam (s : State) (n p : Nat) (v : Row) : (s.setRowAt n p v).nextTeam = s.nextTeam := by simp only [State.setRowAt]
@[simp] theorem State.setRowAt_nextLaunch (s : State) (n p : Nat) (v : Row) : (s.setRowAt n p v).nextLaunch = s.nextLaunch := by simp only [State.setRowAt]
@[simp] theorem State.setRowAt_choice (s : State) (n p : Nat) (v : Row) : (s.setRowAt n p v).choice = s.choice := by simp only [State.setRowAt]
@[simp] theorem State.setRowAt_fresh (s : State) (n p : Nat) (v : Row) : (s.setRowAt n p v).fresh = s.fresh := by simp only [State.setRowAt]
@[simp] theorem State.setRowAt_turn (s : State) (n p : Nat) (v : Row) : (s.setRowAt n p v).turn = s.turn := by simp only [State.setRowAt]
@[simp] theorem State.setRowAt_arrivals (s : State) (n p : Nat) (v : Row) : (s.setRowAt n p v).arrivals = s.arrivals := by simp only [State.setRowAt]

@[simp] theorem State.retire_clusters (s : State) : (s.retire).clusters = s.clusters := rfl
@[simp] theorem State.retire_mem (s : State) : (s.retire).mem = s.mem := rfl
@[simp] theorem State.retire_poison (s : State) : (s.retire).poison = s.poison := rfl
@[simp] theorem State.retire_parity (s : State) : (s.retire).parity = s.parity := rfl
@[simp] theorem State.retire_upsets (s : State) : (s.retire).upsets = s.upsets := rfl
@[simp] theorem State.retire_reqs (s : State) : (s.retire).reqs = s.reqs := rfl
@[simp] theorem State.retire_joins (s : State) : (s.retire).joins = s.joins := rfl
@[simp] theorem State.retire_owned (s : State) : (s.retire).owned = s.owned := rfl
@[simp] theorem State.retire_resv (s : State) : (s.retire).resv = s.resv := rfl
@[simp] theorem State.retire_fills (s : State) : (s.retire).fills = s.fills := rfl
@[simp] theorem State.retire_migs (s : State) : (s.retire).migs = s.migs := rfl
@[simp] theorem State.retire_barq (s : State) : (s.retire).barq = s.barq := rfl
@[simp] theorem State.retire_fams (s : State) : (s.retire).fams = s.fams := rfl
@[simp] theorem State.retire_teams (s : State) : (s.retire).teams = s.teams := rfl
@[simp] theorem State.retire_launches (s : State) : (s.retire).launches = s.launches := rfl
@[simp] theorem State.retire_images (s : State) : (s.retire).images = s.images := rfl
@[simp] theorem State.retire_served (s : State) : (s.retire).served = s.served := rfl
@[simp] theorem State.retire_vfs (s : State) : (s.retire).vfs = s.vfs := rfl
@[simp] theorem State.retire_signals (s : State) : (s.retire).signals = s.signals := rfl
@[simp] theorem State.retire_inputs (s : State) : (s.retire).inputs = s.inputs := rfl
@[simp] theorem State.retire_breaks (s : State) : (s.retire).breaks = s.breaks := rfl
@[simp] theorem State.retire_raised (s : State) : (s.retire).raised = s.raised := rfl
@[simp] theorem State.retire_due (s : State) : (s.retire).due = s.due := rfl
@[simp] theorem State.retire_retired (s : State) : (s.retire).retired = s.retired := rfl
@[simp] theorem State.retire_udp (s : State) : (s.retire).udp = s.udp := rfl
@[simp] theorem State.retire_lag (s : State) : (s.retire).lag = s.lag := rfl
@[simp] theorem State.retire_imgr (s : State) : (s.retire).imgr = s.imgr := rfl
@[simp] theorem State.retire_partKeys (s : State) : (s.retire).partKeys = s.partKeys := rfl
@[simp] theorem State.retire_snapctl (s : State) : (s.retire).snapctl = s.snapctl := rfl
@[simp] theorem State.retire_armed (s : State) : (s.retire).armed = s.armed := rfl
@[simp] theorem State.retire_snap (s : State) : (s.retire).snap = s.snap := rfl
@[simp] theorem State.retire_errs (s : State) : (s.retire).errs = s.errs := rfl
@[simp] theorem State.retire_rrow (s : State) : (s.retire).rrow = s.rrow := rfl
@[simp] theorem State.retire_rows (s : State) : (s.retire).rows = s.rows := rfl
@[simp] theorem State.retire_pwr (s : State) : (s.retire).pwr = s.pwr := rfl
@[simp] theorem State.retire_bootst (s : State) : (s.retire).bootst = s.bootst := rfl
@[simp] theorem State.retire_transfers (s : State) : (s.retire).transfers = s.transfers := rfl
@[simp] theorem State.retire_reports (s : State) : (s.retire).reports = s.reports := rfl
@[simp] theorem State.retire_resent (s : State) : (s.retire).resent = s.resent := rfl
@[simp] theorem State.retire_time (s : State) : (s.retire).time = s.time := rfl
@[simp] theorem State.retire_gangs (s : State) : (s.retire).gangs = s.gangs := rfl
@[simp] theorem State.retire_troot (s : State) : (s.retire).troot = s.troot := rfl
@[simp] theorem State.retire_feps (s : State) : (s.retire).feps = s.feps := rfl
@[simp] theorem State.retire_fepsel (s : State) : (s.retire).fepsel = s.fepsel := rfl
@[simp] theorem State.retire_tinv (s : State) : (s.retire).tinv = s.tinv := rfl
@[simp] theorem State.retire_parts (s : State) : (s.retire).parts = s.parts := rfl
@[simp] theorem State.retire_l2 (s : State) : (s.retire).l2 = s.l2 := rfl
@[simp] theorem State.retire_keySlots (s : State) : (s.retire).keySlots = s.keySlots := rfl
@[simp] theorem State.retire_clock (s : State) : (s.retire).clock = s.clock := rfl
@[simp] theorem State.retire_vbind (s : State) : (s.retire).vbind = s.vbind := rfl
@[simp] theorem State.retire_pkgt (s : State) : (s.retire).pkgt = s.pkgt := rfl
@[simp] theorem State.retire_pkgVer (s : State) : (s.retire).pkgVer = s.pkgVer := rfl
@[simp] theorem State.retire_dieTlb (s : State) : (s.retire).dieTlb = s.dieTlb := rfl
@[simp] theorem State.retire_walks (s : State) : (s.retire).walks = s.walks := rfl
@[simp] theorem State.retire_fq (s : State) : (s.retire).fq = s.fq := rfl
@[simp] theorem State.retire_fqTail (s : State) : (s.retire).fqTail = s.fqTail := rfl
@[simp] theorem State.retire_fqHead (s : State) : (s.retire).fqHead = s.fqHead := rfl
@[simp] theorem State.retire_replays (s : State) : (s.retire).replays = s.replays := rfl
@[simp] theorem State.retire_iss (s : State) : (s.retire).iss = s.iss := rfl
@[simp] theorem State.retire_cycle (s : State) : (s.retire).cycle = s.cycle := rfl
@[simp] theorem State.retire_agenda (s : State) : (s.retire).agenda = s.agenda := rfl
@[simp] theorem State.retire_nextReq (s : State) : (s.retire).nextReq = s.nextReq := rfl
@[simp] theorem State.retire_nextUid (s : State) : (s.retire).nextUid = s.nextUid := rfl
@[simp] theorem State.retire_nextOrd (s : State) : (s.retire).nextOrd = s.nextOrd := rfl
@[simp] theorem State.retire_nextTeam (s : State) : (s.retire).nextTeam = s.nextTeam := rfl
@[simp] theorem State.retire_nextLaunch (s : State) : (s.retire).nextLaunch = s.nextLaunch := rfl
@[simp] theorem State.retire_choice (s : State) : (s.retire).choice = s.choice := rfl
@[simp] theorem State.retire_fresh (s : State) : (s.retire).fresh = s.fresh := rfl
@[simp] theorem State.retire_turn (s : State) : (s.retire).turn = s.turn := rfl
@[simp] theorem State.retire_arrivals (s : State) : (s.retire).arrivals = s.arrivals := rfl

@[simp] theorem State.retireTo_clusters (s : State) (pc : Word) : (s.retireTo pc).clusters = s.clusters := rfl
@[simp] theorem State.retireTo_mem (s : State) (pc : Word) : (s.retireTo pc).mem = s.mem := rfl
@[simp] theorem State.retireTo_poison (s : State) (pc : Word) : (s.retireTo pc).poison = s.poison := rfl
@[simp] theorem State.retireTo_parity (s : State) (pc : Word) : (s.retireTo pc).parity = s.parity := rfl
@[simp] theorem State.retireTo_upsets (s : State) (pc : Word) : (s.retireTo pc).upsets = s.upsets := rfl
@[simp] theorem State.retireTo_reqs (s : State) (pc : Word) : (s.retireTo pc).reqs = s.reqs := rfl
@[simp] theorem State.retireTo_joins (s : State) (pc : Word) : (s.retireTo pc).joins = s.joins := rfl
@[simp] theorem State.retireTo_owned (s : State) (pc : Word) : (s.retireTo pc).owned = s.owned := rfl
@[simp] theorem State.retireTo_resv (s : State) (pc : Word) : (s.retireTo pc).resv = s.resv := rfl
@[simp] theorem State.retireTo_fills (s : State) (pc : Word) : (s.retireTo pc).fills = s.fills := rfl
@[simp] theorem State.retireTo_migs (s : State) (pc : Word) : (s.retireTo pc).migs = s.migs := rfl
@[simp] theorem State.retireTo_barq (s : State) (pc : Word) : (s.retireTo pc).barq = s.barq := rfl
@[simp] theorem State.retireTo_fams (s : State) (pc : Word) : (s.retireTo pc).fams = s.fams := rfl
@[simp] theorem State.retireTo_teams (s : State) (pc : Word) : (s.retireTo pc).teams = s.teams := rfl
@[simp] theorem State.retireTo_launches (s : State) (pc : Word) : (s.retireTo pc).launches = s.launches := rfl
@[simp] theorem State.retireTo_images (s : State) (pc : Word) : (s.retireTo pc).images = s.images := rfl
@[simp] theorem State.retireTo_served (s : State) (pc : Word) : (s.retireTo pc).served = s.served := rfl
@[simp] theorem State.retireTo_vfs (s : State) (pc : Word) : (s.retireTo pc).vfs = s.vfs := rfl
@[simp] theorem State.retireTo_signals (s : State) (pc : Word) : (s.retireTo pc).signals = s.signals := rfl
@[simp] theorem State.retireTo_inputs (s : State) (pc : Word) : (s.retireTo pc).inputs = s.inputs := rfl
@[simp] theorem State.retireTo_breaks (s : State) (pc : Word) : (s.retireTo pc).breaks = s.breaks := rfl
@[simp] theorem State.retireTo_raised (s : State) (pc : Word) : (s.retireTo pc).raised = s.raised := rfl
@[simp] theorem State.retireTo_due (s : State) (pc : Word) : (s.retireTo pc).due = s.due := rfl
@[simp] theorem State.retireTo_retired (s : State) (pc : Word) : (s.retireTo pc).retired = s.retired := rfl
@[simp] theorem State.retireTo_udp (s : State) (pc : Word) : (s.retireTo pc).udp = s.udp := rfl
@[simp] theorem State.retireTo_lag (s : State) (pc : Word) : (s.retireTo pc).lag = s.lag := rfl
@[simp] theorem State.retireTo_imgr (s : State) (pc : Word) : (s.retireTo pc).imgr = s.imgr := rfl
@[simp] theorem State.retireTo_partKeys (s : State) (pc : Word) : (s.retireTo pc).partKeys = s.partKeys := rfl
@[simp] theorem State.retireTo_snapctl (s : State) (pc : Word) : (s.retireTo pc).snapctl = s.snapctl := rfl
@[simp] theorem State.retireTo_armed (s : State) (pc : Word) : (s.retireTo pc).armed = s.armed := rfl
@[simp] theorem State.retireTo_snap (s : State) (pc : Word) : (s.retireTo pc).snap = s.snap := rfl
@[simp] theorem State.retireTo_errs (s : State) (pc : Word) : (s.retireTo pc).errs = s.errs := rfl
@[simp] theorem State.retireTo_rrow (s : State) (pc : Word) : (s.retireTo pc).rrow = s.rrow := rfl
@[simp] theorem State.retireTo_rows (s : State) (pc : Word) : (s.retireTo pc).rows = s.rows := rfl
@[simp] theorem State.retireTo_pwr (s : State) (pc : Word) : (s.retireTo pc).pwr = s.pwr := rfl
@[simp] theorem State.retireTo_bootst (s : State) (pc : Word) : (s.retireTo pc).bootst = s.bootst := rfl
@[simp] theorem State.retireTo_transfers (s : State) (pc : Word) : (s.retireTo pc).transfers = s.transfers := rfl
@[simp] theorem State.retireTo_reports (s : State) (pc : Word) : (s.retireTo pc).reports = s.reports := rfl
@[simp] theorem State.retireTo_resent (s : State) (pc : Word) : (s.retireTo pc).resent = s.resent := rfl
@[simp] theorem State.retireTo_time (s : State) (pc : Word) : (s.retireTo pc).time = s.time := rfl
@[simp] theorem State.retireTo_gangs (s : State) (pc : Word) : (s.retireTo pc).gangs = s.gangs := rfl
@[simp] theorem State.retireTo_troot (s : State) (pc : Word) : (s.retireTo pc).troot = s.troot := rfl
@[simp] theorem State.retireTo_feps (s : State) (pc : Word) : (s.retireTo pc).feps = s.feps := rfl
@[simp] theorem State.retireTo_fepsel (s : State) (pc : Word) : (s.retireTo pc).fepsel = s.fepsel := rfl
@[simp] theorem State.retireTo_tinv (s : State) (pc : Word) : (s.retireTo pc).tinv = s.tinv := rfl
@[simp] theorem State.retireTo_parts (s : State) (pc : Word) : (s.retireTo pc).parts = s.parts := rfl
@[simp] theorem State.retireTo_l2 (s : State) (pc : Word) : (s.retireTo pc).l2 = s.l2 := rfl
@[simp] theorem State.retireTo_keySlots (s : State) (pc : Word) : (s.retireTo pc).keySlots = s.keySlots := rfl
@[simp] theorem State.retireTo_clock (s : State) (pc : Word) : (s.retireTo pc).clock = s.clock := rfl
@[simp] theorem State.retireTo_vbind (s : State) (pc : Word) : (s.retireTo pc).vbind = s.vbind := rfl
@[simp] theorem State.retireTo_pkgt (s : State) (pc : Word) : (s.retireTo pc).pkgt = s.pkgt := rfl
@[simp] theorem State.retireTo_pkgVer (s : State) (pc : Word) : (s.retireTo pc).pkgVer = s.pkgVer := rfl
@[simp] theorem State.retireTo_dieTlb (s : State) (pc : Word) : (s.retireTo pc).dieTlb = s.dieTlb := rfl
@[simp] theorem State.retireTo_walks (s : State) (pc : Word) : (s.retireTo pc).walks = s.walks := rfl
@[simp] theorem State.retireTo_fq (s : State) (pc : Word) : (s.retireTo pc).fq = s.fq := rfl
@[simp] theorem State.retireTo_fqTail (s : State) (pc : Word) : (s.retireTo pc).fqTail = s.fqTail := rfl
@[simp] theorem State.retireTo_fqHead (s : State) (pc : Word) : (s.retireTo pc).fqHead = s.fqHead := rfl
@[simp] theorem State.retireTo_replays (s : State) (pc : Word) : (s.retireTo pc).replays = s.replays := rfl
@[simp] theorem State.retireTo_iss (s : State) (pc : Word) : (s.retireTo pc).iss = s.iss := rfl
@[simp] theorem State.retireTo_cycle (s : State) (pc : Word) : (s.retireTo pc).cycle = s.cycle := rfl
@[simp] theorem State.retireTo_agenda (s : State) (pc : Word) : (s.retireTo pc).agenda = s.agenda := rfl
@[simp] theorem State.retireTo_nextReq (s : State) (pc : Word) : (s.retireTo pc).nextReq = s.nextReq := rfl
@[simp] theorem State.retireTo_nextUid (s : State) (pc : Word) : (s.retireTo pc).nextUid = s.nextUid := rfl
@[simp] theorem State.retireTo_nextOrd (s : State) (pc : Word) : (s.retireTo pc).nextOrd = s.nextOrd := rfl
@[simp] theorem State.retireTo_nextTeam (s : State) (pc : Word) : (s.retireTo pc).nextTeam = s.nextTeam := rfl
@[simp] theorem State.retireTo_nextLaunch (s : State) (pc : Word) : (s.retireTo pc).nextLaunch = s.nextLaunch := rfl
@[simp] theorem State.retireTo_choice (s : State) (pc : Word) : (s.retireTo pc).choice = s.choice := rfl
@[simp] theorem State.retireTo_fresh (s : State) (pc : Word) : (s.retireTo pc).fresh = s.fresh := rfl
@[simp] theorem State.retireTo_turn (s : State) (pc : Word) : (s.retireTo pc).turn = s.turn := rfl
@[simp] theorem State.retireTo_arrivals (s : State) (pc : Word) : (s.retireTo pc).arrivals = s.arrivals := rfl

@[simp] theorem State.orFlags_clusters (s : State) (f : Flags) : (s.orFlags f).clusters = s.clusters := rfl
@[simp] theorem State.orFlags_mem (s : State) (f : Flags) : (s.orFlags f).mem = s.mem := rfl
@[simp] theorem State.orFlags_poison (s : State) (f : Flags) : (s.orFlags f).poison = s.poison := rfl
@[simp] theorem State.orFlags_parity (s : State) (f : Flags) : (s.orFlags f).parity = s.parity := rfl
@[simp] theorem State.orFlags_upsets (s : State) (f : Flags) : (s.orFlags f).upsets = s.upsets := rfl
@[simp] theorem State.orFlags_reqs (s : State) (f : Flags) : (s.orFlags f).reqs = s.reqs := rfl
@[simp] theorem State.orFlags_joins (s : State) (f : Flags) : (s.orFlags f).joins = s.joins := rfl
@[simp] theorem State.orFlags_owned (s : State) (f : Flags) : (s.orFlags f).owned = s.owned := rfl
@[simp] theorem State.orFlags_resv (s : State) (f : Flags) : (s.orFlags f).resv = s.resv := rfl
@[simp] theorem State.orFlags_fills (s : State) (f : Flags) : (s.orFlags f).fills = s.fills := rfl
@[simp] theorem State.orFlags_migs (s : State) (f : Flags) : (s.orFlags f).migs = s.migs := rfl
@[simp] theorem State.orFlags_barq (s : State) (f : Flags) : (s.orFlags f).barq = s.barq := rfl
@[simp] theorem State.orFlags_fams (s : State) (f : Flags) : (s.orFlags f).fams = s.fams := rfl
@[simp] theorem State.orFlags_teams (s : State) (f : Flags) : (s.orFlags f).teams = s.teams := rfl
@[simp] theorem State.orFlags_launches (s : State) (f : Flags) : (s.orFlags f).launches = s.launches := rfl
@[simp] theorem State.orFlags_images (s : State) (f : Flags) : (s.orFlags f).images = s.images := rfl
@[simp] theorem State.orFlags_served (s : State) (f : Flags) : (s.orFlags f).served = s.served := rfl
@[simp] theorem State.orFlags_vfs (s : State) (f : Flags) : (s.orFlags f).vfs = s.vfs := rfl
@[simp] theorem State.orFlags_signals (s : State) (f : Flags) : (s.orFlags f).signals = s.signals := rfl
@[simp] theorem State.orFlags_inputs (s : State) (f : Flags) : (s.orFlags f).inputs = s.inputs := rfl
@[simp] theorem State.orFlags_breaks (s : State) (f : Flags) : (s.orFlags f).breaks = s.breaks := rfl
@[simp] theorem State.orFlags_raised (s : State) (f : Flags) : (s.orFlags f).raised = s.raised := rfl
@[simp] theorem State.orFlags_due (s : State) (f : Flags) : (s.orFlags f).due = s.due := rfl
@[simp] theorem State.orFlags_retired (s : State) (f : Flags) : (s.orFlags f).retired = s.retired := rfl
@[simp] theorem State.orFlags_udp (s : State) (f : Flags) : (s.orFlags f).udp = s.udp := rfl
@[simp] theorem State.orFlags_lag (s : State) (f : Flags) : (s.orFlags f).lag = s.lag := rfl
@[simp] theorem State.orFlags_imgr (s : State) (f : Flags) : (s.orFlags f).imgr = s.imgr := rfl
@[simp] theorem State.orFlags_partKeys (s : State) (f : Flags) : (s.orFlags f).partKeys = s.partKeys := rfl
@[simp] theorem State.orFlags_snapctl (s : State) (f : Flags) : (s.orFlags f).snapctl = s.snapctl := rfl
@[simp] theorem State.orFlags_armed (s : State) (f : Flags) : (s.orFlags f).armed = s.armed := rfl
@[simp] theorem State.orFlags_snap (s : State) (f : Flags) : (s.orFlags f).snap = s.snap := rfl
@[simp] theorem State.orFlags_errs (s : State) (f : Flags) : (s.orFlags f).errs = s.errs := rfl
@[simp] theorem State.orFlags_rrow (s : State) (f : Flags) : (s.orFlags f).rrow = s.rrow := rfl
@[simp] theorem State.orFlags_rows (s : State) (f : Flags) : (s.orFlags f).rows = s.rows := rfl
@[simp] theorem State.orFlags_pwr (s : State) (f : Flags) : (s.orFlags f).pwr = s.pwr := rfl
@[simp] theorem State.orFlags_bootst (s : State) (f : Flags) : (s.orFlags f).bootst = s.bootst := rfl
@[simp] theorem State.orFlags_transfers (s : State) (f : Flags) : (s.orFlags f).transfers = s.transfers := rfl
@[simp] theorem State.orFlags_reports (s : State) (f : Flags) : (s.orFlags f).reports = s.reports := rfl
@[simp] theorem State.orFlags_resent (s : State) (f : Flags) : (s.orFlags f).resent = s.resent := rfl
@[simp] theorem State.orFlags_time (s : State) (f : Flags) : (s.orFlags f).time = s.time := rfl
@[simp] theorem State.orFlags_gangs (s : State) (f : Flags) : (s.orFlags f).gangs = s.gangs := rfl
@[simp] theorem State.orFlags_troot (s : State) (f : Flags) : (s.orFlags f).troot = s.troot := rfl
@[simp] theorem State.orFlags_feps (s : State) (f : Flags) : (s.orFlags f).feps = s.feps := rfl
@[simp] theorem State.orFlags_fepsel (s : State) (f : Flags) : (s.orFlags f).fepsel = s.fepsel := rfl
@[simp] theorem State.orFlags_tinv (s : State) (f : Flags) : (s.orFlags f).tinv = s.tinv := rfl
@[simp] theorem State.orFlags_parts (s : State) (f : Flags) : (s.orFlags f).parts = s.parts := rfl
@[simp] theorem State.orFlags_l2 (s : State) (f : Flags) : (s.orFlags f).l2 = s.l2 := rfl
@[simp] theorem State.orFlags_keySlots (s : State) (f : Flags) : (s.orFlags f).keySlots = s.keySlots := rfl
@[simp] theorem State.orFlags_clock (s : State) (f : Flags) : (s.orFlags f).clock = s.clock := rfl
@[simp] theorem State.orFlags_vbind (s : State) (f : Flags) : (s.orFlags f).vbind = s.vbind := rfl
@[simp] theorem State.orFlags_pkgt (s : State) (f : Flags) : (s.orFlags f).pkgt = s.pkgt := rfl
@[simp] theorem State.orFlags_pkgVer (s : State) (f : Flags) : (s.orFlags f).pkgVer = s.pkgVer := rfl
@[simp] theorem State.orFlags_dieTlb (s : State) (f : Flags) : (s.orFlags f).dieTlb = s.dieTlb := rfl
@[simp] theorem State.orFlags_walks (s : State) (f : Flags) : (s.orFlags f).walks = s.walks := rfl
@[simp] theorem State.orFlags_fq (s : State) (f : Flags) : (s.orFlags f).fq = s.fq := rfl
@[simp] theorem State.orFlags_fqTail (s : State) (f : Flags) : (s.orFlags f).fqTail = s.fqTail := rfl
@[simp] theorem State.orFlags_fqHead (s : State) (f : Flags) : (s.orFlags f).fqHead = s.fqHead := rfl
@[simp] theorem State.orFlags_replays (s : State) (f : Flags) : (s.orFlags f).replays = s.replays := rfl
@[simp] theorem State.orFlags_iss (s : State) (f : Flags) : (s.orFlags f).iss = s.iss := rfl
@[simp] theorem State.orFlags_cycle (s : State) (f : Flags) : (s.orFlags f).cycle = s.cycle := rfl
@[simp] theorem State.orFlags_agenda (s : State) (f : Flags) : (s.orFlags f).agenda = s.agenda := rfl
@[simp] theorem State.orFlags_nextReq (s : State) (f : Flags) : (s.orFlags f).nextReq = s.nextReq := rfl
@[simp] theorem State.orFlags_nextUid (s : State) (f : Flags) : (s.orFlags f).nextUid = s.nextUid := rfl
@[simp] theorem State.orFlags_nextOrd (s : State) (f : Flags) : (s.orFlags f).nextOrd = s.nextOrd := rfl
@[simp] theorem State.orFlags_nextTeam (s : State) (f : Flags) : (s.orFlags f).nextTeam = s.nextTeam := rfl
@[simp] theorem State.orFlags_nextLaunch (s : State) (f : Flags) : (s.orFlags f).nextLaunch = s.nextLaunch := rfl
@[simp] theorem State.orFlags_choice (s : State) (f : Flags) : (s.orFlags f).choice = s.choice := rfl
@[simp] theorem State.orFlags_fresh (s : State) (f : Flags) : (s.orFlags f).fresh = s.fresh := rfl
@[simp] theorem State.orFlags_turn (s : State) (f : Flags) : (s.orFlags f).turn = s.turn := rfl
@[simp] theorem State.orFlags_arrivals (s : State) (f : Flags) : (s.orFlags f).arrivals = s.arrivals := rfl

/-! ## What an update of a context leaves unchanged -/

@[simp] theorem Ctx.setRegAt_uid (c : Ctx) (t : Nat) (v : Word) : (c.setRegAt t v).uid = c.uid := rfl
@[simp] theorem Ctx.setRegAt_fe (c : Ctx) (t : Nat) (v : Word) : (c.setRegAt t v).fe = c.fe := rfl
@[simp] theorem Ctx.setRegAt_pend (c : Ctx) (t : Nat) (v : Word) : (c.setRegAt t v).pend = c.pend := rfl
@[simp] theorem Ctx.setRegAt_pendV (c : Ctx) (t : Nat) (v : Word) : (c.setRegAt t v).pendV = c.pendV := rfl
@[simp] theorem Ctx.setRegAt_pendK (c : Ctx) (t : Nat) (v : Word) : (c.setRegAt t v).pendK = c.pendK := rfl
@[simp] theorem Ctx.setRegAt_pc (c : Ctx) (t : Nat) (v : Word) : (c.setRegAt t v).pc = c.pc := rfl
@[simp] theorem Ctx.setRegAt_st (c : Ctx) (t : Nat) (v : Word) : (c.setRegAt t v).st = c.st := rfl
@[simp] theorem Ctx.setRegAt_g (c : Ctx) (t : Nat) (v : Word) : (c.setRegAt t v).g = c.g := rfl
@[simp] theorem Ctx.setRegAt_k (c : Ctx) (t : Nat) (v : Word) : (c.setRegAt t v).k = c.k := rfl
@[simp] theorem Ctx.setRegAt_fcsr (c : Ctx) (t : Nat) (v : Word) : (c.setRegAt t v).fcsr = c.fcsr := rfl
@[simp] theorem Ctx.setRegAt_hvec (c : Ctx) (t : Nat) (v : Word) : (c.setRegAt t v).hvec = c.hvec := rfl
@[simp] theorem Ctx.setRegAt_hepc (c : Ctx) (t : Nat) (v : Word) : (c.setRegAt t v).hepc = c.hepc := rfl
@[simp] theorem Ctx.setRegAt_hcause (c : Ctx) (t : Nat) (v : Word) : (c.setRegAt t v).hcause = c.hcause := rfl
@[simp] theorem Ctx.setRegAt_hm (c : Ctx) (t : Nat) (v : Word) : (c.setRegAt t v).hm = c.hm := rfl
@[simp] theorem Ctx.setRegAt_trig (c : Ctx) (t : Nat) (v : Word) : (c.setRegAt t v).trig = c.trig := rfl
@[simp] theorem Ctx.setRegAt_inLh (c : Ctx) (t : Nat) (v : Word) : (c.setRegAt t v).inLh = c.inLh := rfl
@[simp] theorem Ctx.setRegAt_mben (c : Ctx) (t : Nat) (v : Word) : (c.setRegAt t v).mben = c.mben := rfl
@[simp] theorem Ctx.setRegAt_inEm (c : Ctx) (t : Nat) (v : Word) : (c.setRegAt t v).inEm = c.inEm := rfl
@[simp] theorem Ctx.setRegAt_emepc (c : Ctx) (t : Nat) (v : Word) : (c.setRegAt t v).emepc = c.emepc := rfl
@[simp] theorem Ctx.setRegAt_emcause (c : Ctx) (t : Nat) (v : Word) : (c.setRegAt t v).emcause = c.emcause := rfl
@[simp] theorem Ctx.setRegAt_emval (c : Ctx) (t : Nat) (v : Word) : (c.setRegAt t v).emval = c.emval := rfl
@[simp] theorem Ctx.setRegAt_istk (c : Ctx) (t : Nat) (v : Word) : (c.setRegAt t v).istk = c.istk := rfl
@[simp] theorem Ctx.setRegAt_qcfg (c : Ctx) (t : Nat) (v : Word) : (c.setRegAt t v).qcfg = c.qcfg := rfl
@[simp] theorem Ctx.setRegAt_instret (c : Ctx) (t : Nat) (v : Word) : (c.setRegAt t v).instret = c.instret := rfl
@[simp] theorem Ctx.setRegAt_frame (c : Ctx) (t : Nat) (v : Word) : (c.setRegAt t v).frame = c.frame := rfl
@[simp] theorem Ctx.setRegAt_lease (c : Ctx) (t : Nat) (v : Word) : (c.setRegAt t v).lease = c.lease := rfl
@[simp] theorem Ctx.setRegAt_kind (c : Ctx) (t : Nat) (v : Word) : (c.setRegAt t v).kind = c.kind := rfl
@[simp] theorem Ctx.setRegAt_member (c : Ctx) (t : Nat) (v : Word) : (c.setRegAt t v).member = c.member := rfl
@[simp] theorem Ctx.setRegAt_fam (c : Ctx) (t : Nat) (v : Word) : (c.setRegAt t v).fam = c.fam := rfl
@[simp] theorem Ctx.setRegAt_probe (c : Ctx) (t : Nat) (v : Word) : (c.setRegAt t v).probe = c.probe := rfl
@[simp] theorem Ctx.setRegAt_frames (c : Ctx) (t : Nat) (v : Word) : (c.setRegAt t v).frames = c.frames := rfl
@[simp] theorem Ctx.setRegAt_heldPush (c : Ctx) (t : Nat) (v : Word) : (c.setRegAt t v).heldPush = c.heldPush := rfl
@[simp] theorem Ctx.setRegAt_acq (c : Ctx) (t : Nat) (v : Word) : (c.setRegAt t v).acq = c.acq := rfl
@[simp] theorem Ctx.setRegAt_xfence (c : Ctx) (t : Nat) (v : Word) : (c.setRegAt t v).xfence = c.xfence := rfl
@[simp] theorem Ctx.setRegAt_bind (c : Ctx) (t : Nat) (v : Word) : (c.setRegAt t v).bind = c.bind := rfl
@[simp] theorem Ctx.setRegAt_cnt (c : Ctx) (t : Nat) (v : Word) : (c.setRegAt t v).cnt = c.cnt := rfl
@[simp] theorem Ctx.setRegAt_marks (c : Ctx) (t : Nat) (v : Word) : (c.setRegAt t v).marks = c.marks := rfl
@[simp] theorem Ctx.setRegAt_bwait (c : Ctx) (t : Nat) (v : Word) : (c.setRegAt t v).bwait = c.bwait := rfl
@[simp] theorem Ctx.setRegAt_sfuHeld (c : Ctx) (t : Nat) (v : Word) : (c.setRegAt t v).sfuHeld = c.sfuHeld := rfl
@[simp] theorem Ctx.setRegAt_sync (c : Ctx) (t : Nat) (v : Word) : (c.setRegAt t v).sync = c.sync := rfl
@[simp] theorem Ctx.setRegAt_syncLeft (c : Ctx) (t : Nat) (v : Word) : (c.setRegAt t v).syncLeft = c.syncLeft := rfl
@[simp] theorem Ctx.setRegAt_wnpc (c : Ctx) (t : Nat) (v : Word) : (c.setRegAt t v).wnpc = c.wnpc := rfl
@[simp] theorem Ctx.setRegAt_wdst (c : Ctx) (t : Nat) (v : Word) : (c.setRegAt t v).wdst = c.wdst := rfl
@[simp] theorem Ctx.setRegAt_posting (c : Ctx) (t : Nat) (v : Word) : (c.setRegAt t v).posting = c.posting := rfl
@[simp] theorem Ctx.setRegAt_desc (c : Ctx) (t : Nat) (v : Word) : (c.setRegAt t v).desc = c.desc := rfl

@[simp] theorem Ctx.markFull_uid (c : Ctx) (t : Nat) : (c.markFull t).uid = c.uid := rfl
@[simp] theorem Ctx.markFull_x (c : Ctx) (t : Nat) : (c.markFull t).x = c.x := rfl
@[simp] theorem Ctx.markFull_bad (c : Ctx) (t : Nat) : (c.markFull t).bad = c.bad := rfl
@[simp] theorem Ctx.markFull_pend (c : Ctx) (t : Nat) : (c.markFull t).pend = c.pend := rfl
@[simp] theorem Ctx.markFull_pendV (c : Ctx) (t : Nat) : (c.markFull t).pendV = c.pendV := rfl
@[simp] theorem Ctx.markFull_pendK (c : Ctx) (t : Nat) : (c.markFull t).pendK = c.pendK := rfl
@[simp] theorem Ctx.markFull_pc (c : Ctx) (t : Nat) : (c.markFull t).pc = c.pc := rfl
@[simp] theorem Ctx.markFull_st (c : Ctx) (t : Nat) : (c.markFull t).st = c.st := rfl
@[simp] theorem Ctx.markFull_g (c : Ctx) (t : Nat) : (c.markFull t).g = c.g := rfl
@[simp] theorem Ctx.markFull_k (c : Ctx) (t : Nat) : (c.markFull t).k = c.k := rfl
@[simp] theorem Ctx.markFull_fcsr (c : Ctx) (t : Nat) : (c.markFull t).fcsr = c.fcsr := rfl
@[simp] theorem Ctx.markFull_hvec (c : Ctx) (t : Nat) : (c.markFull t).hvec = c.hvec := rfl
@[simp] theorem Ctx.markFull_hepc (c : Ctx) (t : Nat) : (c.markFull t).hepc = c.hepc := rfl
@[simp] theorem Ctx.markFull_hcause (c : Ctx) (t : Nat) : (c.markFull t).hcause = c.hcause := rfl
@[simp] theorem Ctx.markFull_hm (c : Ctx) (t : Nat) : (c.markFull t).hm = c.hm := rfl
@[simp] theorem Ctx.markFull_trig (c : Ctx) (t : Nat) : (c.markFull t).trig = c.trig := rfl
@[simp] theorem Ctx.markFull_inLh (c : Ctx) (t : Nat) : (c.markFull t).inLh = c.inLh := rfl
@[simp] theorem Ctx.markFull_mben (c : Ctx) (t : Nat) : (c.markFull t).mben = c.mben := rfl
@[simp] theorem Ctx.markFull_inEm (c : Ctx) (t : Nat) : (c.markFull t).inEm = c.inEm := rfl
@[simp] theorem Ctx.markFull_emepc (c : Ctx) (t : Nat) : (c.markFull t).emepc = c.emepc := rfl
@[simp] theorem Ctx.markFull_emcause (c : Ctx) (t : Nat) : (c.markFull t).emcause = c.emcause := rfl
@[simp] theorem Ctx.markFull_emval (c : Ctx) (t : Nat) : (c.markFull t).emval = c.emval := rfl
@[simp] theorem Ctx.markFull_istk (c : Ctx) (t : Nat) : (c.markFull t).istk = c.istk := rfl
@[simp] theorem Ctx.markFull_qcfg (c : Ctx) (t : Nat) : (c.markFull t).qcfg = c.qcfg := rfl
@[simp] theorem Ctx.markFull_instret (c : Ctx) (t : Nat) : (c.markFull t).instret = c.instret := rfl
@[simp] theorem Ctx.markFull_frame (c : Ctx) (t : Nat) : (c.markFull t).frame = c.frame := rfl
@[simp] theorem Ctx.markFull_lease (c : Ctx) (t : Nat) : (c.markFull t).lease = c.lease := rfl
@[simp] theorem Ctx.markFull_kind (c : Ctx) (t : Nat) : (c.markFull t).kind = c.kind := rfl
@[simp] theorem Ctx.markFull_member (c : Ctx) (t : Nat) : (c.markFull t).member = c.member := rfl
@[simp] theorem Ctx.markFull_fam (c : Ctx) (t : Nat) : (c.markFull t).fam = c.fam := rfl
@[simp] theorem Ctx.markFull_probe (c : Ctx) (t : Nat) : (c.markFull t).probe = c.probe := rfl
@[simp] theorem Ctx.markFull_frames (c : Ctx) (t : Nat) : (c.markFull t).frames = c.frames := rfl
@[simp] theorem Ctx.markFull_heldPush (c : Ctx) (t : Nat) : (c.markFull t).heldPush = c.heldPush := rfl
@[simp] theorem Ctx.markFull_acq (c : Ctx) (t : Nat) : (c.markFull t).acq = c.acq := rfl
@[simp] theorem Ctx.markFull_xfence (c : Ctx) (t : Nat) : (c.markFull t).xfence = c.xfence := rfl
@[simp] theorem Ctx.markFull_bind (c : Ctx) (t : Nat) : (c.markFull t).bind = c.bind := rfl
@[simp] theorem Ctx.markFull_cnt (c : Ctx) (t : Nat) : (c.markFull t).cnt = c.cnt := rfl
@[simp] theorem Ctx.markFull_marks (c : Ctx) (t : Nat) : (c.markFull t).marks = c.marks := rfl
@[simp] theorem Ctx.markFull_bwait (c : Ctx) (t : Nat) : (c.markFull t).bwait = c.bwait := rfl
@[simp] theorem Ctx.markFull_sfuHeld (c : Ctx) (t : Nat) : (c.markFull t).sfuHeld = c.sfuHeld := rfl
@[simp] theorem Ctx.markFull_sync (c : Ctx) (t : Nat) : (c.markFull t).sync = c.sync := rfl
@[simp] theorem Ctx.markFull_syncLeft (c : Ctx) (t : Nat) : (c.markFull t).syncLeft = c.syncLeft := rfl
@[simp] theorem Ctx.markFull_wnpc (c : Ctx) (t : Nat) : (c.markFull t).wnpc = c.wnpc := rfl
@[simp] theorem Ctx.markFull_wdst (c : Ctx) (t : Nat) : (c.markFull t).wdst = c.wdst := rfl
@[simp] theorem Ctx.markFull_posting (c : Ctx) (t : Nat) : (c.markFull t).posting = c.posting := rfl
@[simp] theorem Ctx.markFull_desc (c : Ctx) (t : Nat) : (c.markFull t).desc = c.desc := rfl

@[simp] theorem Ctx.markEmpty_uid (c : Ctx) (t : Nat) : (c.markEmpty t).uid = c.uid := rfl
@[simp] theorem Ctx.markEmpty_x (c : Ctx) (t : Nat) : (c.markEmpty t).x = c.x := rfl
@[simp] theorem Ctx.markEmpty_bad (c : Ctx) (t : Nat) : (c.markEmpty t).bad = c.bad := rfl
@[simp] theorem Ctx.markEmpty_pend (c : Ctx) (t : Nat) : (c.markEmpty t).pend = c.pend := rfl
@[simp] theorem Ctx.markEmpty_pendV (c : Ctx) (t : Nat) : (c.markEmpty t).pendV = c.pendV := rfl
@[simp] theorem Ctx.markEmpty_pendK (c : Ctx) (t : Nat) : (c.markEmpty t).pendK = c.pendK := rfl
@[simp] theorem Ctx.markEmpty_pc (c : Ctx) (t : Nat) : (c.markEmpty t).pc = c.pc := rfl
@[simp] theorem Ctx.markEmpty_st (c : Ctx) (t : Nat) : (c.markEmpty t).st = c.st := rfl
@[simp] theorem Ctx.markEmpty_g (c : Ctx) (t : Nat) : (c.markEmpty t).g = c.g := rfl
@[simp] theorem Ctx.markEmpty_k (c : Ctx) (t : Nat) : (c.markEmpty t).k = c.k := rfl
@[simp] theorem Ctx.markEmpty_fcsr (c : Ctx) (t : Nat) : (c.markEmpty t).fcsr = c.fcsr := rfl
@[simp] theorem Ctx.markEmpty_hvec (c : Ctx) (t : Nat) : (c.markEmpty t).hvec = c.hvec := rfl
@[simp] theorem Ctx.markEmpty_hepc (c : Ctx) (t : Nat) : (c.markEmpty t).hepc = c.hepc := rfl
@[simp] theorem Ctx.markEmpty_hcause (c : Ctx) (t : Nat) : (c.markEmpty t).hcause = c.hcause := rfl
@[simp] theorem Ctx.markEmpty_hm (c : Ctx) (t : Nat) : (c.markEmpty t).hm = c.hm := rfl
@[simp] theorem Ctx.markEmpty_trig (c : Ctx) (t : Nat) : (c.markEmpty t).trig = c.trig := rfl
@[simp] theorem Ctx.markEmpty_inLh (c : Ctx) (t : Nat) : (c.markEmpty t).inLh = c.inLh := rfl
@[simp] theorem Ctx.markEmpty_mben (c : Ctx) (t : Nat) : (c.markEmpty t).mben = c.mben := rfl
@[simp] theorem Ctx.markEmpty_inEm (c : Ctx) (t : Nat) : (c.markEmpty t).inEm = c.inEm := rfl
@[simp] theorem Ctx.markEmpty_emepc (c : Ctx) (t : Nat) : (c.markEmpty t).emepc = c.emepc := rfl
@[simp] theorem Ctx.markEmpty_emcause (c : Ctx) (t : Nat) : (c.markEmpty t).emcause = c.emcause := rfl
@[simp] theorem Ctx.markEmpty_emval (c : Ctx) (t : Nat) : (c.markEmpty t).emval = c.emval := rfl
@[simp] theorem Ctx.markEmpty_istk (c : Ctx) (t : Nat) : (c.markEmpty t).istk = c.istk := rfl
@[simp] theorem Ctx.markEmpty_qcfg (c : Ctx) (t : Nat) : (c.markEmpty t).qcfg = c.qcfg := rfl
@[simp] theorem Ctx.markEmpty_instret (c : Ctx) (t : Nat) : (c.markEmpty t).instret = c.instret := rfl
@[simp] theorem Ctx.markEmpty_frame (c : Ctx) (t : Nat) : (c.markEmpty t).frame = c.frame := rfl
@[simp] theorem Ctx.markEmpty_lease (c : Ctx) (t : Nat) : (c.markEmpty t).lease = c.lease := rfl
@[simp] theorem Ctx.markEmpty_kind (c : Ctx) (t : Nat) : (c.markEmpty t).kind = c.kind := rfl
@[simp] theorem Ctx.markEmpty_member (c : Ctx) (t : Nat) : (c.markEmpty t).member = c.member := rfl
@[simp] theorem Ctx.markEmpty_fam (c : Ctx) (t : Nat) : (c.markEmpty t).fam = c.fam := rfl
@[simp] theorem Ctx.markEmpty_probe (c : Ctx) (t : Nat) : (c.markEmpty t).probe = c.probe := rfl
@[simp] theorem Ctx.markEmpty_frames (c : Ctx) (t : Nat) : (c.markEmpty t).frames = c.frames := rfl
@[simp] theorem Ctx.markEmpty_heldPush (c : Ctx) (t : Nat) : (c.markEmpty t).heldPush = c.heldPush := rfl
@[simp] theorem Ctx.markEmpty_acq (c : Ctx) (t : Nat) : (c.markEmpty t).acq = c.acq := rfl
@[simp] theorem Ctx.markEmpty_xfence (c : Ctx) (t : Nat) : (c.markEmpty t).xfence = c.xfence := rfl
@[simp] theorem Ctx.markEmpty_bind (c : Ctx) (t : Nat) : (c.markEmpty t).bind = c.bind := rfl
@[simp] theorem Ctx.markEmpty_cnt (c : Ctx) (t : Nat) : (c.markEmpty t).cnt = c.cnt := rfl
@[simp] theorem Ctx.markEmpty_marks (c : Ctx) (t : Nat) : (c.markEmpty t).marks = c.marks := rfl
@[simp] theorem Ctx.markEmpty_bwait (c : Ctx) (t : Nat) : (c.markEmpty t).bwait = c.bwait := rfl
@[simp] theorem Ctx.markEmpty_sfuHeld (c : Ctx) (t : Nat) : (c.markEmpty t).sfuHeld = c.sfuHeld := rfl
@[simp] theorem Ctx.markEmpty_sync (c : Ctx) (t : Nat) : (c.markEmpty t).sync = c.sync := rfl
@[simp] theorem Ctx.markEmpty_syncLeft (c : Ctx) (t : Nat) : (c.markEmpty t).syncLeft = c.syncLeft := rfl
@[simp] theorem Ctx.markEmpty_wnpc (c : Ctx) (t : Nat) : (c.markEmpty t).wnpc = c.wnpc := rfl
@[simp] theorem Ctx.markEmpty_wdst (c : Ctx) (t : Nat) : (c.markEmpty t).wdst = c.wdst := rfl
@[simp] theorem Ctx.markEmpty_posting (c : Ctx) (t : Nat) : (c.markEmpty t).posting = c.posting := rfl
@[simp] theorem Ctx.markEmpty_desc (c : Ctx) (t : Nat) : (c.markEmpty t).desc = c.desc := rfl

@[simp] theorem Ctx.orFlags_uid (c : Ctx) (f : Flags) : (c.orFlags f).uid = c.uid := rfl
@[simp] theorem Ctx.orFlags_x (c : Ctx) (f : Flags) : (c.orFlags f).x = c.x := rfl
@[simp] theorem Ctx.orFlags_fe (c : Ctx) (f : Flags) : (c.orFlags f).fe = c.fe := rfl
@[simp] theorem Ctx.orFlags_bad (c : Ctx) (f : Flags) : (c.orFlags f).bad = c.bad := rfl
@[simp] theorem Ctx.orFlags_pend (c : Ctx) (f : Flags) : (c.orFlags f).pend = c.pend := rfl
@[simp] theorem Ctx.orFlags_pendV (c : Ctx) (f : Flags) : (c.orFlags f).pendV = c.pendV := rfl
@[simp] theorem Ctx.orFlags_pendK (c : Ctx) (f : Flags) : (c.orFlags f).pendK = c.pendK := rfl
@[simp] theorem Ctx.orFlags_pc (c : Ctx) (f : Flags) : (c.orFlags f).pc = c.pc := rfl
@[simp] theorem Ctx.orFlags_st (c : Ctx) (f : Flags) : (c.orFlags f).st = c.st := rfl
@[simp] theorem Ctx.orFlags_g (c : Ctx) (f : Flags) : (c.orFlags f).g = c.g := rfl
@[simp] theorem Ctx.orFlags_k (c : Ctx) (f : Flags) : (c.orFlags f).k = c.k := rfl
@[simp] theorem Ctx.orFlags_hvec (c : Ctx) (f : Flags) : (c.orFlags f).hvec = c.hvec := rfl
@[simp] theorem Ctx.orFlags_hepc (c : Ctx) (f : Flags) : (c.orFlags f).hepc = c.hepc := rfl
@[simp] theorem Ctx.orFlags_hcause (c : Ctx) (f : Flags) : (c.orFlags f).hcause = c.hcause := rfl
@[simp] theorem Ctx.orFlags_hm (c : Ctx) (f : Flags) : (c.orFlags f).hm = c.hm := rfl
@[simp] theorem Ctx.orFlags_trig (c : Ctx) (f : Flags) : (c.orFlags f).trig = c.trig := rfl
@[simp] theorem Ctx.orFlags_inLh (c : Ctx) (f : Flags) : (c.orFlags f).inLh = c.inLh := rfl
@[simp] theorem Ctx.orFlags_mben (c : Ctx) (f : Flags) : (c.orFlags f).mben = c.mben := rfl
@[simp] theorem Ctx.orFlags_inEm (c : Ctx) (f : Flags) : (c.orFlags f).inEm = c.inEm := rfl
@[simp] theorem Ctx.orFlags_emepc (c : Ctx) (f : Flags) : (c.orFlags f).emepc = c.emepc := rfl
@[simp] theorem Ctx.orFlags_emcause (c : Ctx) (f : Flags) : (c.orFlags f).emcause = c.emcause := rfl
@[simp] theorem Ctx.orFlags_emval (c : Ctx) (f : Flags) : (c.orFlags f).emval = c.emval := rfl
@[simp] theorem Ctx.orFlags_istk (c : Ctx) (f : Flags) : (c.orFlags f).istk = c.istk := rfl
@[simp] theorem Ctx.orFlags_qcfg (c : Ctx) (f : Flags) : (c.orFlags f).qcfg = c.qcfg := rfl
@[simp] theorem Ctx.orFlags_instret (c : Ctx) (f : Flags) : (c.orFlags f).instret = c.instret := rfl
@[simp] theorem Ctx.orFlags_frame (c : Ctx) (f : Flags) : (c.orFlags f).frame = c.frame := rfl
@[simp] theorem Ctx.orFlags_lease (c : Ctx) (f : Flags) : (c.orFlags f).lease = c.lease := rfl
@[simp] theorem Ctx.orFlags_kind (c : Ctx) (f : Flags) : (c.orFlags f).kind = c.kind := rfl
@[simp] theorem Ctx.orFlags_member (c : Ctx) (f : Flags) : (c.orFlags f).member = c.member := rfl
@[simp] theorem Ctx.orFlags_fam (c : Ctx) (f : Flags) : (c.orFlags f).fam = c.fam := rfl
@[simp] theorem Ctx.orFlags_probe (c : Ctx) (f : Flags) : (c.orFlags f).probe = c.probe := rfl
@[simp] theorem Ctx.orFlags_frames (c : Ctx) (f : Flags) : (c.orFlags f).frames = c.frames := rfl
@[simp] theorem Ctx.orFlags_heldPush (c : Ctx) (f : Flags) : (c.orFlags f).heldPush = c.heldPush := rfl
@[simp] theorem Ctx.orFlags_acq (c : Ctx) (f : Flags) : (c.orFlags f).acq = c.acq := rfl
@[simp] theorem Ctx.orFlags_xfence (c : Ctx) (f : Flags) : (c.orFlags f).xfence = c.xfence := rfl
@[simp] theorem Ctx.orFlags_bind (c : Ctx) (f : Flags) : (c.orFlags f).bind = c.bind := rfl
@[simp] theorem Ctx.orFlags_cnt (c : Ctx) (f : Flags) : (c.orFlags f).cnt = c.cnt := rfl
@[simp] theorem Ctx.orFlags_marks (c : Ctx) (f : Flags) : (c.orFlags f).marks = c.marks := rfl
@[simp] theorem Ctx.orFlags_bwait (c : Ctx) (f : Flags) : (c.orFlags f).bwait = c.bwait := rfl
@[simp] theorem Ctx.orFlags_sfuHeld (c : Ctx) (f : Flags) : (c.orFlags f).sfuHeld = c.sfuHeld := rfl
@[simp] theorem Ctx.orFlags_sync (c : Ctx) (f : Flags) : (c.orFlags f).sync = c.sync := rfl
@[simp] theorem Ctx.orFlags_syncLeft (c : Ctx) (f : Flags) : (c.orFlags f).syncLeft = c.syncLeft := rfl
@[simp] theorem Ctx.orFlags_wnpc (c : Ctx) (f : Flags) : (c.orFlags f).wnpc = c.wnpc := rfl
@[simp] theorem Ctx.orFlags_wdst (c : Ctx) (f : Flags) : (c.orFlags f).wdst = c.wdst := rfl
@[simp] theorem Ctx.orFlags_posting (c : Ctx) (f : Flags) : (c.orFlags f).posting = c.posting := rfl
@[simp] theorem Ctx.orFlags_desc (c : Ctx) (f : Flags) : (c.orFlags f).desc = c.desc := rfl

@[simp] theorem Ctx.setReg_uid (c : Ctx) (r : XReg) (v : Word) : (c.setReg r v).uid = c.uid := by
  unfold Ctx.setReg; split <;> rfl
@[simp] theorem Ctx.setReg_pend (c : Ctx) (r : XReg) (v : Word) : (c.setReg r v).pend = c.pend := by
  unfold Ctx.setReg; split <;> rfl
@[simp] theorem Ctx.setReg_pendV (c : Ctx) (r : XReg) (v : Word) : (c.setReg r v).pendV = c.pendV := by
  unfold Ctx.setReg; split <;> rfl
@[simp] theorem Ctx.setReg_pendK (c : Ctx) (r : XReg) (v : Word) : (c.setReg r v).pendK = c.pendK := by
  unfold Ctx.setReg; split <;> rfl
@[simp] theorem Ctx.setReg_pc (c : Ctx) (r : XReg) (v : Word) : (c.setReg r v).pc = c.pc := by
  unfold Ctx.setReg; split <;> rfl
@[simp] theorem Ctx.setReg_st (c : Ctx) (r : XReg) (v : Word) : (c.setReg r v).st = c.st := by
  unfold Ctx.setReg; split <;> rfl
@[simp] theorem Ctx.setReg_g (c : Ctx) (r : XReg) (v : Word) : (c.setReg r v).g = c.g := by
  unfold Ctx.setReg; split <;> rfl
@[simp] theorem Ctx.setReg_k (c : Ctx) (r : XReg) (v : Word) : (c.setReg r v).k = c.k := by
  unfold Ctx.setReg; split <;> rfl
@[simp] theorem Ctx.setReg_fcsr (c : Ctx) (r : XReg) (v : Word) : (c.setReg r v).fcsr = c.fcsr := by
  unfold Ctx.setReg; split <;> rfl
@[simp] theorem Ctx.setReg_hvec (c : Ctx) (r : XReg) (v : Word) : (c.setReg r v).hvec = c.hvec := by
  unfold Ctx.setReg; split <;> rfl
@[simp] theorem Ctx.setReg_hepc (c : Ctx) (r : XReg) (v : Word) : (c.setReg r v).hepc = c.hepc := by
  unfold Ctx.setReg; split <;> rfl
@[simp] theorem Ctx.setReg_hcause (c : Ctx) (r : XReg) (v : Word) : (c.setReg r v).hcause = c.hcause := by
  unfold Ctx.setReg; split <;> rfl
@[simp] theorem Ctx.setReg_hm (c : Ctx) (r : XReg) (v : Word) : (c.setReg r v).hm = c.hm := by
  unfold Ctx.setReg; split <;> rfl
@[simp] theorem Ctx.setReg_trig (c : Ctx) (r : XReg) (v : Word) : (c.setReg r v).trig = c.trig := by
  unfold Ctx.setReg; split <;> rfl
@[simp] theorem Ctx.setReg_inLh (c : Ctx) (r : XReg) (v : Word) : (c.setReg r v).inLh = c.inLh := by
  unfold Ctx.setReg; split <;> rfl
@[simp] theorem Ctx.setReg_mben (c : Ctx) (r : XReg) (v : Word) : (c.setReg r v).mben = c.mben := by
  unfold Ctx.setReg; split <;> rfl
@[simp] theorem Ctx.setReg_inEm (c : Ctx) (r : XReg) (v : Word) : (c.setReg r v).inEm = c.inEm := by
  unfold Ctx.setReg; split <;> rfl
@[simp] theorem Ctx.setReg_emepc (c : Ctx) (r : XReg) (v : Word) : (c.setReg r v).emepc = c.emepc := by
  unfold Ctx.setReg; split <;> rfl
@[simp] theorem Ctx.setReg_emcause (c : Ctx) (r : XReg) (v : Word) : (c.setReg r v).emcause = c.emcause := by
  unfold Ctx.setReg; split <;> rfl
@[simp] theorem Ctx.setReg_emval (c : Ctx) (r : XReg) (v : Word) : (c.setReg r v).emval = c.emval := by
  unfold Ctx.setReg; split <;> rfl
@[simp] theorem Ctx.setReg_istk (c : Ctx) (r : XReg) (v : Word) : (c.setReg r v).istk = c.istk := by
  unfold Ctx.setReg; split <;> rfl
@[simp] theorem Ctx.setReg_qcfg (c : Ctx) (r : XReg) (v : Word) : (c.setReg r v).qcfg = c.qcfg := by
  unfold Ctx.setReg; split <;> rfl
@[simp] theorem Ctx.setReg_instret (c : Ctx) (r : XReg) (v : Word) : (c.setReg r v).instret = c.instret := by
  unfold Ctx.setReg; split <;> rfl
@[simp] theorem Ctx.setReg_frame (c : Ctx) (r : XReg) (v : Word) : (c.setReg r v).frame = c.frame := by
  unfold Ctx.setReg; split <;> rfl
@[simp] theorem Ctx.setReg_lease (c : Ctx) (r : XReg) (v : Word) : (c.setReg r v).lease = c.lease := by
  unfold Ctx.setReg; split <;> rfl
@[simp] theorem Ctx.setReg_kind (c : Ctx) (r : XReg) (v : Word) : (c.setReg r v).kind = c.kind := by
  unfold Ctx.setReg; split <;> rfl
@[simp] theorem Ctx.setReg_member (c : Ctx) (r : XReg) (v : Word) : (c.setReg r v).member = c.member := by
  unfold Ctx.setReg; split <;> rfl
@[simp] theorem Ctx.setReg_fam (c : Ctx) (r : XReg) (v : Word) : (c.setReg r v).fam = c.fam := by
  unfold Ctx.setReg; split <;> rfl
@[simp] theorem Ctx.setReg_probe (c : Ctx) (r : XReg) (v : Word) : (c.setReg r v).probe = c.probe := by
  unfold Ctx.setReg; split <;> rfl
@[simp] theorem Ctx.setReg_frames (c : Ctx) (r : XReg) (v : Word) : (c.setReg r v).frames = c.frames := by
  unfold Ctx.setReg; split <;> rfl
@[simp] theorem Ctx.setReg_heldPush (c : Ctx) (r : XReg) (v : Word) : (c.setReg r v).heldPush = c.heldPush := by
  unfold Ctx.setReg; split <;> rfl
@[simp] theorem Ctx.setReg_acq (c : Ctx) (r : XReg) (v : Word) : (c.setReg r v).acq = c.acq := by
  unfold Ctx.setReg; split <;> rfl
@[simp] theorem Ctx.setReg_xfence (c : Ctx) (r : XReg) (v : Word) : (c.setReg r v).xfence = c.xfence := by
  unfold Ctx.setReg; split <;> rfl
@[simp] theorem Ctx.setReg_bind (c : Ctx) (r : XReg) (v : Word) : (c.setReg r v).bind = c.bind := by
  unfold Ctx.setReg; split <;> rfl
@[simp] theorem Ctx.setReg_cnt (c : Ctx) (r : XReg) (v : Word) : (c.setReg r v).cnt = c.cnt := by
  unfold Ctx.setReg; split <;> rfl
@[simp] theorem Ctx.setReg_marks (c : Ctx) (r : XReg) (v : Word) : (c.setReg r v).marks = c.marks := by
  unfold Ctx.setReg; split <;> rfl
@[simp] theorem Ctx.setReg_bwait (c : Ctx) (r : XReg) (v : Word) : (c.setReg r v).bwait = c.bwait := by
  unfold Ctx.setReg; split <;> rfl
@[simp] theorem Ctx.setReg_sfuHeld (c : Ctx) (r : XReg) (v : Word) : (c.setReg r v).sfuHeld = c.sfuHeld := by
  unfold Ctx.setReg; split <;> rfl
@[simp] theorem Ctx.setReg_sync (c : Ctx) (r : XReg) (v : Word) : (c.setReg r v).sync = c.sync := by
  unfold Ctx.setReg; split <;> rfl
@[simp] theorem Ctx.setReg_syncLeft (c : Ctx) (r : XReg) (v : Word) : (c.setReg r v).syncLeft = c.syncLeft := by
  unfold Ctx.setReg; split <;> rfl
@[simp] theorem Ctx.setReg_wnpc (c : Ctx) (r : XReg) (v : Word) : (c.setReg r v).wnpc = c.wnpc := by
  unfold Ctx.setReg; split <;> rfl
@[simp] theorem Ctx.setReg_wdst (c : Ctx) (r : XReg) (v : Word) : (c.setReg r v).wdst = c.wdst := by
  unfold Ctx.setReg; split <;> rfl
@[simp] theorem Ctx.setReg_posting (c : Ctx) (r : XReg) (v : Word) : (c.setReg r v).posting = c.posting := by
  unfold Ctx.setReg; split <;> rfl
@[simp] theorem Ctx.setReg_desc (c : Ctx) (r : XReg) (v : Word) : (c.setReg r v).desc = c.desc := by
  unfold Ctx.setReg; split <;> rfl

@[simp] theorem Ctx.setGuard_uid (c : Ctx) (n : GReg) (b : Bool) : (c.setGuard n b).uid = c.uid := by
  unfold Ctx.setGuard; split <;> rfl
@[simp] theorem Ctx.setGuard_x (c : Ctx) (n : GReg) (b : Bool) : (c.setGuard n b).x = c.x := by
  unfold Ctx.setGuard; split <;> rfl
@[simp] theorem Ctx.setGuard_fe (c : Ctx) (n : GReg) (b : Bool) : (c.setGuard n b).fe = c.fe := by
  unfold Ctx.setGuard; split <;> rfl
@[simp] theorem Ctx.setGuard_bad (c : Ctx) (n : GReg) (b : Bool) : (c.setGuard n b).bad = c.bad := by
  unfold Ctx.setGuard; split <;> rfl
@[simp] theorem Ctx.setGuard_pend (c : Ctx) (n : GReg) (b : Bool) : (c.setGuard n b).pend = c.pend := by
  unfold Ctx.setGuard; split <;> rfl
@[simp] theorem Ctx.setGuard_pendV (c : Ctx) (n : GReg) (b : Bool) : (c.setGuard n b).pendV = c.pendV := by
  unfold Ctx.setGuard; split <;> rfl
@[simp] theorem Ctx.setGuard_pendK (c : Ctx) (n : GReg) (b : Bool) : (c.setGuard n b).pendK = c.pendK := by
  unfold Ctx.setGuard; split <;> rfl
@[simp] theorem Ctx.setGuard_pc (c : Ctx) (n : GReg) (b : Bool) : (c.setGuard n b).pc = c.pc := by
  unfold Ctx.setGuard; split <;> rfl
@[simp] theorem Ctx.setGuard_st (c : Ctx) (n : GReg) (b : Bool) : (c.setGuard n b).st = c.st := by
  unfold Ctx.setGuard; split <;> rfl
@[simp] theorem Ctx.setGuard_k (c : Ctx) (n : GReg) (b : Bool) : (c.setGuard n b).k = c.k := by
  unfold Ctx.setGuard; split <;> rfl
@[simp] theorem Ctx.setGuard_fcsr (c : Ctx) (n : GReg) (b : Bool) : (c.setGuard n b).fcsr = c.fcsr := by
  unfold Ctx.setGuard; split <;> rfl
@[simp] theorem Ctx.setGuard_hvec (c : Ctx) (n : GReg) (b : Bool) : (c.setGuard n b).hvec = c.hvec := by
  unfold Ctx.setGuard; split <;> rfl
@[simp] theorem Ctx.setGuard_hepc (c : Ctx) (n : GReg) (b : Bool) : (c.setGuard n b).hepc = c.hepc := by
  unfold Ctx.setGuard; split <;> rfl
@[simp] theorem Ctx.setGuard_hcause (c : Ctx) (n : GReg) (b : Bool) : (c.setGuard n b).hcause = c.hcause := by
  unfold Ctx.setGuard; split <;> rfl
@[simp] theorem Ctx.setGuard_hm (c : Ctx) (n : GReg) (b : Bool) : (c.setGuard n b).hm = c.hm := by
  unfold Ctx.setGuard; split <;> rfl
@[simp] theorem Ctx.setGuard_trig (c : Ctx) (n : GReg) (b : Bool) : (c.setGuard n b).trig = c.trig := by
  unfold Ctx.setGuard; split <;> rfl
@[simp] theorem Ctx.setGuard_inLh (c : Ctx) (n : GReg) (b : Bool) : (c.setGuard n b).inLh = c.inLh := by
  unfold Ctx.setGuard; split <;> rfl
@[simp] theorem Ctx.setGuard_mben (c : Ctx) (n : GReg) (b : Bool) : (c.setGuard n b).mben = c.mben := by
  unfold Ctx.setGuard; split <;> rfl
@[simp] theorem Ctx.setGuard_inEm (c : Ctx) (n : GReg) (b : Bool) : (c.setGuard n b).inEm = c.inEm := by
  unfold Ctx.setGuard; split <;> rfl
@[simp] theorem Ctx.setGuard_emepc (c : Ctx) (n : GReg) (b : Bool) : (c.setGuard n b).emepc = c.emepc := by
  unfold Ctx.setGuard; split <;> rfl
@[simp] theorem Ctx.setGuard_emcause (c : Ctx) (n : GReg) (b : Bool) : (c.setGuard n b).emcause = c.emcause := by
  unfold Ctx.setGuard; split <;> rfl
@[simp] theorem Ctx.setGuard_emval (c : Ctx) (n : GReg) (b : Bool) : (c.setGuard n b).emval = c.emval := by
  unfold Ctx.setGuard; split <;> rfl
@[simp] theorem Ctx.setGuard_istk (c : Ctx) (n : GReg) (b : Bool) : (c.setGuard n b).istk = c.istk := by
  unfold Ctx.setGuard; split <;> rfl
@[simp] theorem Ctx.setGuard_qcfg (c : Ctx) (n : GReg) (b : Bool) : (c.setGuard n b).qcfg = c.qcfg := by
  unfold Ctx.setGuard; split <;> rfl
@[simp] theorem Ctx.setGuard_instret (c : Ctx) (n : GReg) (b : Bool) : (c.setGuard n b).instret = c.instret := by
  unfold Ctx.setGuard; split <;> rfl
@[simp] theorem Ctx.setGuard_frame (c : Ctx) (n : GReg) (b : Bool) : (c.setGuard n b).frame = c.frame := by
  unfold Ctx.setGuard; split <;> rfl
@[simp] theorem Ctx.setGuard_lease (c : Ctx) (n : GReg) (b : Bool) : (c.setGuard n b).lease = c.lease := by
  unfold Ctx.setGuard; split <;> rfl
@[simp] theorem Ctx.setGuard_kind (c : Ctx) (n : GReg) (b : Bool) : (c.setGuard n b).kind = c.kind := by
  unfold Ctx.setGuard; split <;> rfl
@[simp] theorem Ctx.setGuard_member (c : Ctx) (n : GReg) (b : Bool) : (c.setGuard n b).member = c.member := by
  unfold Ctx.setGuard; split <;> rfl
@[simp] theorem Ctx.setGuard_fam (c : Ctx) (n : GReg) (b : Bool) : (c.setGuard n b).fam = c.fam := by
  unfold Ctx.setGuard; split <;> rfl
@[simp] theorem Ctx.setGuard_probe (c : Ctx) (n : GReg) (b : Bool) : (c.setGuard n b).probe = c.probe := by
  unfold Ctx.setGuard; split <;> rfl
@[simp] theorem Ctx.setGuard_frames (c : Ctx) (n : GReg) (b : Bool) : (c.setGuard n b).frames = c.frames := by
  unfold Ctx.setGuard; split <;> rfl
@[simp] theorem Ctx.setGuard_heldPush (c : Ctx) (n : GReg) (b : Bool) : (c.setGuard n b).heldPush = c.heldPush := by
  unfold Ctx.setGuard; split <;> rfl
@[simp] theorem Ctx.setGuard_acq (c : Ctx) (n : GReg) (b : Bool) : (c.setGuard n b).acq = c.acq := by
  unfold Ctx.setGuard; split <;> rfl
@[simp] theorem Ctx.setGuard_xfence (c : Ctx) (n : GReg) (b : Bool) : (c.setGuard n b).xfence = c.xfence := by
  unfold Ctx.setGuard; split <;> rfl
@[simp] theorem Ctx.setGuard_bind (c : Ctx) (n : GReg) (b : Bool) : (c.setGuard n b).bind = c.bind := by
  unfold Ctx.setGuard; split <;> rfl
@[simp] theorem Ctx.setGuard_cnt (c : Ctx) (n : GReg) (b : Bool) : (c.setGuard n b).cnt = c.cnt := by
  unfold Ctx.setGuard; split <;> rfl
@[simp] theorem Ctx.setGuard_marks (c : Ctx) (n : GReg) (b : Bool) : (c.setGuard n b).marks = c.marks := by
  unfold Ctx.setGuard; split <;> rfl
@[simp] theorem Ctx.setGuard_bwait (c : Ctx) (n : GReg) (b : Bool) : (c.setGuard n b).bwait = c.bwait := by
  unfold Ctx.setGuard; split <;> rfl
@[simp] theorem Ctx.setGuard_sfuHeld (c : Ctx) (n : GReg) (b : Bool) : (c.setGuard n b).sfuHeld = c.sfuHeld := by
  unfold Ctx.setGuard; split <;> rfl
@[simp] theorem Ctx.setGuard_sync (c : Ctx) (n : GReg) (b : Bool) : (c.setGuard n b).sync = c.sync := by
  unfold Ctx.setGuard; split <;> rfl
@[simp] theorem Ctx.setGuard_syncLeft (c : Ctx) (n : GReg) (b : Bool) : (c.setGuard n b).syncLeft = c.syncLeft := by
  unfold Ctx.setGuard; split <;> rfl
@[simp] theorem Ctx.setGuard_wnpc (c : Ctx) (n : GReg) (b : Bool) : (c.setGuard n b).wnpc = c.wnpc := by
  unfold Ctx.setGuard; split <;> rfl
@[simp] theorem Ctx.setGuard_wdst (c : Ctx) (n : GReg) (b : Bool) : (c.setGuard n b).wdst = c.wdst := by
  unfold Ctx.setGuard; split <;> rfl
@[simp] theorem Ctx.setGuard_posting (c : Ctx) (n : GReg) (b : Bool) : (c.setGuard n b).posting = c.posting := by
  unfold Ctx.setGuard; split <;> rfl
@[simp] theorem Ctx.setGuard_desc (c : Ctx) (n : GReg) (b : Bool) : (c.setGuard n b).desc = c.desc := by
  unfold Ctx.setGuard; split <;> rfl

@[simp] theorem Ctx.setMask_uid (c : Ctx) (n : KReg) (v : Word) : (c.setMask n v).uid = c.uid := by
  unfold Ctx.setMask; split <;> rfl
@[simp] theorem Ctx.setMask_x (c : Ctx) (n : KReg) (v : Word) : (c.setMask n v).x = c.x := by
  unfold Ctx.setMask; split <;> rfl
@[simp] theorem Ctx.setMask_fe (c : Ctx) (n : KReg) (v : Word) : (c.setMask n v).fe = c.fe := by
  unfold Ctx.setMask; split <;> rfl
@[simp] theorem Ctx.setMask_bad (c : Ctx) (n : KReg) (v : Word) : (c.setMask n v).bad = c.bad := by
  unfold Ctx.setMask; split <;> rfl
@[simp] theorem Ctx.setMask_pend (c : Ctx) (n : KReg) (v : Word) : (c.setMask n v).pend = c.pend := by
  unfold Ctx.setMask; split <;> rfl
@[simp] theorem Ctx.setMask_pendV (c : Ctx) (n : KReg) (v : Word) : (c.setMask n v).pendV = c.pendV := by
  unfold Ctx.setMask; split <;> rfl
@[simp] theorem Ctx.setMask_pendK (c : Ctx) (n : KReg) (v : Word) : (c.setMask n v).pendK = c.pendK := by
  unfold Ctx.setMask; split <;> rfl
@[simp] theorem Ctx.setMask_pc (c : Ctx) (n : KReg) (v : Word) : (c.setMask n v).pc = c.pc := by
  unfold Ctx.setMask; split <;> rfl
@[simp] theorem Ctx.setMask_st (c : Ctx) (n : KReg) (v : Word) : (c.setMask n v).st = c.st := by
  unfold Ctx.setMask; split <;> rfl
@[simp] theorem Ctx.setMask_g (c : Ctx) (n : KReg) (v : Word) : (c.setMask n v).g = c.g := by
  unfold Ctx.setMask; split <;> rfl
@[simp] theorem Ctx.setMask_fcsr (c : Ctx) (n : KReg) (v : Word) : (c.setMask n v).fcsr = c.fcsr := by
  unfold Ctx.setMask; split <;> rfl
@[simp] theorem Ctx.setMask_hvec (c : Ctx) (n : KReg) (v : Word) : (c.setMask n v).hvec = c.hvec := by
  unfold Ctx.setMask; split <;> rfl
@[simp] theorem Ctx.setMask_hepc (c : Ctx) (n : KReg) (v : Word) : (c.setMask n v).hepc = c.hepc := by
  unfold Ctx.setMask; split <;> rfl
@[simp] theorem Ctx.setMask_hcause (c : Ctx) (n : KReg) (v : Word) : (c.setMask n v).hcause = c.hcause := by
  unfold Ctx.setMask; split <;> rfl
@[simp] theorem Ctx.setMask_hm (c : Ctx) (n : KReg) (v : Word) : (c.setMask n v).hm = c.hm := by
  unfold Ctx.setMask; split <;> rfl
@[simp] theorem Ctx.setMask_trig (c : Ctx) (n : KReg) (v : Word) : (c.setMask n v).trig = c.trig := by
  unfold Ctx.setMask; split <;> rfl
@[simp] theorem Ctx.setMask_inLh (c : Ctx) (n : KReg) (v : Word) : (c.setMask n v).inLh = c.inLh := by
  unfold Ctx.setMask; split <;> rfl
@[simp] theorem Ctx.setMask_mben (c : Ctx) (n : KReg) (v : Word) : (c.setMask n v).mben = c.mben := by
  unfold Ctx.setMask; split <;> rfl
@[simp] theorem Ctx.setMask_inEm (c : Ctx) (n : KReg) (v : Word) : (c.setMask n v).inEm = c.inEm := by
  unfold Ctx.setMask; split <;> rfl
@[simp] theorem Ctx.setMask_emepc (c : Ctx) (n : KReg) (v : Word) : (c.setMask n v).emepc = c.emepc := by
  unfold Ctx.setMask; split <;> rfl
@[simp] theorem Ctx.setMask_emcause (c : Ctx) (n : KReg) (v : Word) : (c.setMask n v).emcause = c.emcause := by
  unfold Ctx.setMask; split <;> rfl
@[simp] theorem Ctx.setMask_emval (c : Ctx) (n : KReg) (v : Word) : (c.setMask n v).emval = c.emval := by
  unfold Ctx.setMask; split <;> rfl
@[simp] theorem Ctx.setMask_istk (c : Ctx) (n : KReg) (v : Word) : (c.setMask n v).istk = c.istk := by
  unfold Ctx.setMask; split <;> rfl
@[simp] theorem Ctx.setMask_qcfg (c : Ctx) (n : KReg) (v : Word) : (c.setMask n v).qcfg = c.qcfg := by
  unfold Ctx.setMask; split <;> rfl
@[simp] theorem Ctx.setMask_instret (c : Ctx) (n : KReg) (v : Word) : (c.setMask n v).instret = c.instret := by
  unfold Ctx.setMask; split <;> rfl
@[simp] theorem Ctx.setMask_frame (c : Ctx) (n : KReg) (v : Word) : (c.setMask n v).frame = c.frame := by
  unfold Ctx.setMask; split <;> rfl
@[simp] theorem Ctx.setMask_lease (c : Ctx) (n : KReg) (v : Word) : (c.setMask n v).lease = c.lease := by
  unfold Ctx.setMask; split <;> rfl
@[simp] theorem Ctx.setMask_kind (c : Ctx) (n : KReg) (v : Word) : (c.setMask n v).kind = c.kind := by
  unfold Ctx.setMask; split <;> rfl
@[simp] theorem Ctx.setMask_member (c : Ctx) (n : KReg) (v : Word) : (c.setMask n v).member = c.member := by
  unfold Ctx.setMask; split <;> rfl
@[simp] theorem Ctx.setMask_fam (c : Ctx) (n : KReg) (v : Word) : (c.setMask n v).fam = c.fam := by
  unfold Ctx.setMask; split <;> rfl
@[simp] theorem Ctx.setMask_probe (c : Ctx) (n : KReg) (v : Word) : (c.setMask n v).probe = c.probe := by
  unfold Ctx.setMask; split <;> rfl
@[simp] theorem Ctx.setMask_frames (c : Ctx) (n : KReg) (v : Word) : (c.setMask n v).frames = c.frames := by
  unfold Ctx.setMask; split <;> rfl
@[simp] theorem Ctx.setMask_heldPush (c : Ctx) (n : KReg) (v : Word) : (c.setMask n v).heldPush = c.heldPush := by
  unfold Ctx.setMask; split <;> rfl
@[simp] theorem Ctx.setMask_acq (c : Ctx) (n : KReg) (v : Word) : (c.setMask n v).acq = c.acq := by
  unfold Ctx.setMask; split <;> rfl
@[simp] theorem Ctx.setMask_xfence (c : Ctx) (n : KReg) (v : Word) : (c.setMask n v).xfence = c.xfence := by
  unfold Ctx.setMask; split <;> rfl
@[simp] theorem Ctx.setMask_bind (c : Ctx) (n : KReg) (v : Word) : (c.setMask n v).bind = c.bind := by
  unfold Ctx.setMask; split <;> rfl
@[simp] theorem Ctx.setMask_cnt (c : Ctx) (n : KReg) (v : Word) : (c.setMask n v).cnt = c.cnt := by
  unfold Ctx.setMask; split <;> rfl
@[simp] theorem Ctx.setMask_marks (c : Ctx) (n : KReg) (v : Word) : (c.setMask n v).marks = c.marks := by
  unfold Ctx.setMask; split <;> rfl
@[simp] theorem Ctx.setMask_bwait (c : Ctx) (n : KReg) (v : Word) : (c.setMask n v).bwait = c.bwait := by
  unfold Ctx.setMask; split <;> rfl
@[simp] theorem Ctx.setMask_sfuHeld (c : Ctx) (n : KReg) (v : Word) : (c.setMask n v).sfuHeld = c.sfuHeld := by
  unfold Ctx.setMask; split <;> rfl
@[simp] theorem Ctx.setMask_sync (c : Ctx) (n : KReg) (v : Word) : (c.setMask n v).sync = c.sync := by
  unfold Ctx.setMask; split <;> rfl
@[simp] theorem Ctx.setMask_syncLeft (c : Ctx) (n : KReg) (v : Word) : (c.setMask n v).syncLeft = c.syncLeft := by
  unfold Ctx.setMask; split <;> rfl
@[simp] theorem Ctx.setMask_wnpc (c : Ctx) (n : KReg) (v : Word) : (c.setMask n v).wnpc = c.wnpc := by
  unfold Ctx.setMask; split <;> rfl
@[simp] theorem Ctx.setMask_wdst (c : Ctx) (n : KReg) (v : Word) : (c.setMask n v).wdst = c.wdst := by
  unfold Ctx.setMask; split <;> rfl
@[simp] theorem Ctx.setMask_posting (c : Ctx) (n : KReg) (v : Word) : (c.setMask n v).posting = c.posting := by
  unfold Ctx.setMask; split <;> rfl
@[simp] theorem Ctx.setMask_desc (c : Ctx) (n : KReg) (v : Word) : (c.setMask n v).desc = c.desc := by
  unfold Ctx.setMask; split <;> rfl

@[simp] theorem Ctx.advance_uid (c : Ctx) (npc : Word) : (c.advance npc).uid = c.uid := by
  unfold Ctx.advance; split
  · rfl
  · split
    · rfl
    · split <;> rfl
@[simp] theorem Ctx.advance_x (c : Ctx) (npc : Word) : (c.advance npc).x = c.x := by
  unfold Ctx.advance; split
  · rfl
  · split
    · rfl
    · split <;> rfl
@[simp] theorem Ctx.advance_fe (c : Ctx) (npc : Word) : (c.advance npc).fe = c.fe := by
  unfold Ctx.advance; split
  · rfl
  · split
    · rfl
    · split <;> rfl
@[simp] theorem Ctx.advance_bad (c : Ctx) (npc : Word) : (c.advance npc).bad = c.bad := by
  unfold Ctx.advance; split
  · rfl
  · split
    · rfl
    · split <;> rfl
@[simp] theorem Ctx.advance_pend (c : Ctx) (npc : Word) : (c.advance npc).pend = c.pend := by
  unfold Ctx.advance; split
  · rfl
  · split
    · rfl
    · split <;> rfl
@[simp] theorem Ctx.advance_pendV (c : Ctx) (npc : Word) : (c.advance npc).pendV = c.pendV := by
  unfold Ctx.advance; split
  · rfl
  · split
    · rfl
    · split <;> rfl
@[simp] theorem Ctx.advance_pendK (c : Ctx) (npc : Word) : (c.advance npc).pendK = c.pendK := by
  unfold Ctx.advance; split
  · rfl
  · split
    · rfl
    · split <;> rfl
@[simp] theorem Ctx.advance_st (c : Ctx) (npc : Word) : (c.advance npc).st = c.st := by
  unfold Ctx.advance; split
  · rfl
  · split
    · rfl
    · split <;> rfl
@[simp] theorem Ctx.advance_g (c : Ctx) (npc : Word) : (c.advance npc).g = c.g := by
  unfold Ctx.advance; split
  · rfl
  · split
    · rfl
    · split <;> rfl
@[simp] theorem Ctx.advance_k (c : Ctx) (npc : Word) : (c.advance npc).k = c.k := by
  unfold Ctx.advance; split
  · rfl
  · split
    · rfl
    · split <;> rfl
@[simp] theorem Ctx.advance_fcsr (c : Ctx) (npc : Word) : (c.advance npc).fcsr = c.fcsr := by
  unfold Ctx.advance; split
  · rfl
  · split
    · rfl
    · split <;> rfl
@[simp] theorem Ctx.advance_hvec (c : Ctx) (npc : Word) : (c.advance npc).hvec = c.hvec := by
  unfold Ctx.advance; split
  · rfl
  · split
    · rfl
    · split <;> rfl
@[simp] theorem Ctx.advance_hepc (c : Ctx) (npc : Word) : (c.advance npc).hepc = c.hepc := by
  unfold Ctx.advance; split
  · rfl
  · split
    · rfl
    · split <;> rfl
@[simp] theorem Ctx.advance_hcause (c : Ctx) (npc : Word) : (c.advance npc).hcause = c.hcause := by
  unfold Ctx.advance; split
  · rfl
  · split
    · rfl
    · split <;> rfl
@[simp] theorem Ctx.advance_hm (c : Ctx) (npc : Word) : (c.advance npc).hm = c.hm := by
  unfold Ctx.advance; split
  · rfl
  · split
    · rfl
    · split <;> rfl
@[simp] theorem Ctx.advance_trig (c : Ctx) (npc : Word) : (c.advance npc).trig = c.trig := by
  unfold Ctx.advance; split
  · rfl
  · split
    · rfl
    · split <;> rfl
@[simp] theorem Ctx.advance_inLh (c : Ctx) (npc : Word) : (c.advance npc).inLh = c.inLh := by
  unfold Ctx.advance; split
  · rfl
  · split
    · rfl
    · split <;> rfl
@[simp] theorem Ctx.advance_mben (c : Ctx) (npc : Word) : (c.advance npc).mben = c.mben := by
  unfold Ctx.advance; split
  · rfl
  · split
    · rfl
    · split <;> rfl
@[simp] theorem Ctx.advance_inEm (c : Ctx) (npc : Word) : (c.advance npc).inEm = c.inEm := by
  unfold Ctx.advance; split
  · rfl
  · split
    · rfl
    · split <;> rfl
@[simp] theorem Ctx.advance_emepc (c : Ctx) (npc : Word) : (c.advance npc).emepc = c.emepc := by
  unfold Ctx.advance; split
  · rfl
  · split
    · rfl
    · split <;> rfl
@[simp] theorem Ctx.advance_emcause (c : Ctx) (npc : Word) : (c.advance npc).emcause = c.emcause := by
  unfold Ctx.advance; split
  · rfl
  · split
    · rfl
    · split <;> rfl
@[simp] theorem Ctx.advance_emval (c : Ctx) (npc : Word) : (c.advance npc).emval = c.emval := by
  unfold Ctx.advance; split
  · rfl
  · split
    · rfl
    · split <;> rfl
@[simp] theorem Ctx.advance_istk (c : Ctx) (npc : Word) : (c.advance npc).istk = c.istk := by
  unfold Ctx.advance; split
  · rfl
  · split
    · rfl
    · split <;> rfl
@[simp] theorem Ctx.advance_qcfg (c : Ctx) (npc : Word) : (c.advance npc).qcfg = c.qcfg := by
  unfold Ctx.advance; split
  · rfl
  · split
    · rfl
    · split <;> rfl
@[simp] theorem Ctx.advance_instret (c : Ctx) (npc : Word) : (c.advance npc).instret = c.instret := by
  unfold Ctx.advance; split
  · rfl
  · split
    · rfl
    · split <;> rfl
@[simp] theorem Ctx.advance_lease (c : Ctx) (npc : Word) : (c.advance npc).lease = c.lease := by
  unfold Ctx.advance; split
  · rfl
  · split
    · rfl
    · split <;> rfl
@[simp] theorem Ctx.advance_kind (c : Ctx) (npc : Word) : (c.advance npc).kind = c.kind := by
  unfold Ctx.advance; split
  · rfl
  · split
    · rfl
    · split <;> rfl
@[simp] theorem Ctx.advance_member (c : Ctx) (npc : Word) : (c.advance npc).member = c.member := by
  unfold Ctx.advance; split
  · rfl
  · split
    · rfl
    · split <;> rfl
@[simp] theorem Ctx.advance_fam (c : Ctx) (npc : Word) : (c.advance npc).fam = c.fam := by
  unfold Ctx.advance; split
  · rfl
  · split
    · rfl
    · split <;> rfl
@[simp] theorem Ctx.advance_probe (c : Ctx) (npc : Word) : (c.advance npc).probe = c.probe := by
  unfold Ctx.advance; split
  · rfl
  · split
    · rfl
    · split <;> rfl
@[simp] theorem Ctx.advance_frames (c : Ctx) (npc : Word) : (c.advance npc).frames = c.frames := by
  unfold Ctx.advance; split
  · rfl
  · split
    · rfl
    · split <;> rfl
@[simp] theorem Ctx.advance_heldPush (c : Ctx) (npc : Word) : (c.advance npc).heldPush = c.heldPush := by
  unfold Ctx.advance; split
  · rfl
  · split
    · rfl
    · split <;> rfl
@[simp] theorem Ctx.advance_acq (c : Ctx) (npc : Word) : (c.advance npc).acq = c.acq := by
  unfold Ctx.advance; split
  · rfl
  · split
    · rfl
    · split <;> rfl
@[simp] theorem Ctx.advance_xfence (c : Ctx) (npc : Word) : (c.advance npc).xfence = c.xfence := by
  unfold Ctx.advance; split
  · rfl
  · split
    · rfl
    · split <;> rfl
@[simp] theorem Ctx.advance_bind (c : Ctx) (npc : Word) : (c.advance npc).bind = c.bind := by
  unfold Ctx.advance; split
  · rfl
  · split
    · rfl
    · split <;> rfl
@[simp] theorem Ctx.advance_cnt (c : Ctx) (npc : Word) : (c.advance npc).cnt = c.cnt := by
  unfold Ctx.advance; split
  · rfl
  · split
    · rfl
    · split <;> rfl
@[simp] theorem Ctx.advance_marks (c : Ctx) (npc : Word) : (c.advance npc).marks = c.marks := by
  unfold Ctx.advance; split
  · rfl
  · split
    · rfl
    · split <;> rfl
@[simp] theorem Ctx.advance_bwait (c : Ctx) (npc : Word) : (c.advance npc).bwait = c.bwait := by
  unfold Ctx.advance; split
  · rfl
  · split
    · rfl
    · split <;> rfl
@[simp] theorem Ctx.advance_sfuHeld (c : Ctx) (npc : Word) : (c.advance npc).sfuHeld = c.sfuHeld := by
  unfold Ctx.advance; split
  · rfl
  · split
    · rfl
    · split <;> rfl
@[simp] theorem Ctx.advance_sync (c : Ctx) (npc : Word) : (c.advance npc).sync = c.sync := by
  unfold Ctx.advance; split
  · rfl
  · split
    · rfl
    · split <;> rfl
@[simp] theorem Ctx.advance_syncLeft (c : Ctx) (npc : Word) : (c.advance npc).syncLeft = c.syncLeft := by
  unfold Ctx.advance; split
  · rfl
  · split
    · rfl
    · split <;> rfl
@[simp] theorem Ctx.advance_wnpc (c : Ctx) (npc : Word) : (c.advance npc).wnpc = c.wnpc := by
  unfold Ctx.advance; split
  · rfl
  · split
    · rfl
    · split <;> rfl
@[simp] theorem Ctx.advance_wdst (c : Ctx) (npc : Word) : (c.advance npc).wdst = c.wdst := by
  unfold Ctx.advance; split
  · rfl
  · split
    · rfl
    · split <;> rfl
@[simp] theorem Ctx.advance_posting (c : Ctx) (npc : Word) : (c.advance npc).posting = c.posting := by
  unfold Ctx.advance; split
  · rfl
  · split
    · rfl
    · split <;> rfl
@[simp] theorem Ctx.advance_desc (c : Ctx) (npc : Word) : (c.advance npc).desc = c.desc := by
  unfold Ctx.advance; split
  · rfl
  · split
    · rfl
    · split <;> rfl

@[simp] theorem Ctx.forget_uid (c : Ctx) : c.forget.uid = c.uid := rfl
@[simp] theorem Ctx.forget_x (c : Ctx) : c.forget.x = c.x := rfl
@[simp] theorem Ctx.forget_fe (c : Ctx) : c.forget.fe = c.fe := rfl
@[simp] theorem Ctx.forget_bad (c : Ctx) : c.forget.bad = c.bad := rfl
@[simp] theorem Ctx.forget_pend (c : Ctx) : c.forget.pend = c.pend := rfl
@[simp] theorem Ctx.forget_pendV (c : Ctx) : c.forget.pendV = c.pendV := rfl
@[simp] theorem Ctx.forget_pendK (c : Ctx) : c.forget.pendK = c.pendK := rfl
@[simp] theorem Ctx.forget_pc (c : Ctx) : c.forget.pc = c.pc := rfl
@[simp] theorem Ctx.forget_st (c : Ctx) : c.forget.st = c.st := rfl
@[simp] theorem Ctx.forget_g (c : Ctx) : c.forget.g = c.g := rfl
@[simp] theorem Ctx.forget_k (c : Ctx) : c.forget.k = c.k := rfl
@[simp] theorem Ctx.forget_fcsr (c : Ctx) : c.forget.fcsr = c.fcsr := rfl
@[simp] theorem Ctx.forget_hvec (c : Ctx) : c.forget.hvec = c.hvec := rfl
@[simp] theorem Ctx.forget_hepc (c : Ctx) : c.forget.hepc = c.hepc := rfl
@[simp] theorem Ctx.forget_hcause (c : Ctx) : c.forget.hcause = c.hcause := rfl
@[simp] theorem Ctx.forget_hm (c : Ctx) : c.forget.hm = c.hm := rfl
@[simp] theorem Ctx.forget_trig (c : Ctx) : c.forget.trig = c.trig := rfl
@[simp] theorem Ctx.forget_inLh (c : Ctx) : c.forget.inLh = c.inLh := rfl
@[simp] theorem Ctx.forget_mben (c : Ctx) : c.forget.mben = c.mben := rfl
@[simp] theorem Ctx.forget_inEm (c : Ctx) : c.forget.inEm = c.inEm := rfl
@[simp] theorem Ctx.forget_emepc (c : Ctx) : c.forget.emepc = c.emepc := rfl
@[simp] theorem Ctx.forget_emcause (c : Ctx) : c.forget.emcause = c.emcause := rfl
@[simp] theorem Ctx.forget_emval (c : Ctx) : c.forget.emval = c.emval := rfl
@[simp] theorem Ctx.forget_istk (c : Ctx) : c.forget.istk = c.istk := rfl
@[simp] theorem Ctx.forget_qcfg (c : Ctx) : c.forget.qcfg = c.qcfg := rfl
@[simp] theorem Ctx.forget_instret (c : Ctx) : c.forget.instret = c.instret := rfl
@[simp] theorem Ctx.forget_frame (c : Ctx) : c.forget.frame = c.frame := rfl
@[simp] theorem Ctx.forget_lease (c : Ctx) : c.forget.lease = c.lease := rfl
@[simp] theorem Ctx.forget_kind (c : Ctx) : c.forget.kind = c.kind := rfl
@[simp] theorem Ctx.forget_member (c : Ctx) : c.forget.member = c.member := rfl
@[simp] theorem Ctx.forget_fam (c : Ctx) : c.forget.fam = c.fam := rfl
@[simp] theorem Ctx.forget_probe (c : Ctx) : c.forget.probe = c.probe := rfl
@[simp] theorem Ctx.forget_frames (c : Ctx) : c.forget.frames = c.frames := rfl
@[simp] theorem Ctx.forget_heldPush (c : Ctx) : c.forget.heldPush = c.heldPush := rfl
@[simp] theorem Ctx.forget_acq (c : Ctx) : c.forget.acq = c.acq := rfl
@[simp] theorem Ctx.forget_xfence (c : Ctx) : c.forget.xfence = c.xfence := rfl
@[simp] theorem Ctx.forget_bind (c : Ctx) : c.forget.bind = c.bind := rfl
@[simp] theorem Ctx.forget_cnt (c : Ctx) : c.forget.cnt = c.cnt := rfl
@[simp] theorem Ctx.forget_marks (c : Ctx) : c.forget.marks = c.marks := rfl
@[simp] theorem Ctx.forget_bwait (c : Ctx) : c.forget.bwait = c.bwait := rfl
@[simp] theorem Ctx.forget_sfuHeld (c : Ctx) : c.forget.sfuHeld = c.sfuHeld := rfl
@[simp] theorem Ctx.forget_sync (c : Ctx) : c.forget.sync = c.sync := rfl
@[simp] theorem Ctx.forget_syncLeft (c : Ctx) : c.forget.syncLeft = c.syncLeft := rfl
@[simp] theorem Ctx.forget_wnpc (c : Ctx) : c.forget.wnpc = c.wnpc := rfl
@[simp] theorem Ctx.forget_wdst (c : Ctx) : c.forget.wdst = c.wdst := rfl

@[simp] theorem Ctx.retire_uid (c : Ctx) (npc : Word) : (c.retire npc).uid = c.uid := by simp [Ctx.retire]
@[simp] theorem Ctx.retire_x (c : Ctx) (npc : Word) : (c.retire npc).x = c.x := by simp [Ctx.retire]
@[simp] theorem Ctx.retire_fe (c : Ctx) (npc : Word) : (c.retire npc).fe = c.fe := by simp [Ctx.retire]
@[simp] theorem Ctx.retire_bad (c : Ctx) (npc : Word) : (c.retire npc).bad = c.bad := by simp [Ctx.retire]
@[simp] theorem Ctx.retire_pend (c : Ctx) (npc : Word) : (c.retire npc).pend = c.pend := by simp [Ctx.retire]
@[simp] theorem Ctx.retire_pendV (c : Ctx) (npc : Word) : (c.retire npc).pendV = c.pendV := by simp [Ctx.retire]
@[simp] theorem Ctx.retire_pendK (c : Ctx) (npc : Word) : (c.retire npc).pendK = c.pendK := by simp [Ctx.retire]
@[simp] theorem Ctx.retire_st (c : Ctx) (npc : Word) : (c.retire npc).st = c.st := by simp [Ctx.retire]
@[simp] theorem Ctx.retire_g (c : Ctx) (npc : Word) : (c.retire npc).g = c.g := by simp [Ctx.retire]
@[simp] theorem Ctx.retire_k (c : Ctx) (npc : Word) : (c.retire npc).k = c.k := by simp [Ctx.retire]
@[simp] theorem Ctx.retire_fcsr (c : Ctx) (npc : Word) : (c.retire npc).fcsr = c.fcsr := by simp [Ctx.retire]
@[simp] theorem Ctx.retire_hvec (c : Ctx) (npc : Word) : (c.retire npc).hvec = c.hvec := by simp [Ctx.retire]
@[simp] theorem Ctx.retire_hepc (c : Ctx) (npc : Word) : (c.retire npc).hepc = c.hepc := by simp [Ctx.retire]
@[simp] theorem Ctx.retire_hcause (c : Ctx) (npc : Word) : (c.retire npc).hcause = c.hcause := by simp [Ctx.retire]
@[simp] theorem Ctx.retire_hm (c : Ctx) (npc : Word) : (c.retire npc).hm = c.hm := by simp [Ctx.retire]
@[simp] theorem Ctx.retire_trig (c : Ctx) (npc : Word) : (c.retire npc).trig = c.trig := by simp [Ctx.retire]
@[simp] theorem Ctx.retire_inLh (c : Ctx) (npc : Word) : (c.retire npc).inLh = c.inLh := by simp [Ctx.retire]
@[simp] theorem Ctx.retire_mben (c : Ctx) (npc : Word) : (c.retire npc).mben = c.mben := by simp [Ctx.retire]
@[simp] theorem Ctx.retire_inEm (c : Ctx) (npc : Word) : (c.retire npc).inEm = c.inEm := by simp [Ctx.retire]
@[simp] theorem Ctx.retire_emepc (c : Ctx) (npc : Word) : (c.retire npc).emepc = c.emepc := by simp [Ctx.retire]
@[simp] theorem Ctx.retire_emcause (c : Ctx) (npc : Word) : (c.retire npc).emcause = c.emcause := by simp [Ctx.retire]
@[simp] theorem Ctx.retire_emval (c : Ctx) (npc : Word) : (c.retire npc).emval = c.emval := by simp [Ctx.retire]
@[simp] theorem Ctx.retire_istk (c : Ctx) (npc : Word) : (c.retire npc).istk = c.istk := by simp [Ctx.retire]
@[simp] theorem Ctx.retire_qcfg (c : Ctx) (npc : Word) : (c.retire npc).qcfg = c.qcfg := by simp [Ctx.retire]
@[simp] theorem Ctx.retire_lease (c : Ctx) (npc : Word) : (c.retire npc).lease = c.lease := by simp [Ctx.retire]
@[simp] theorem Ctx.retire_kind (c : Ctx) (npc : Word) : (c.retire npc).kind = c.kind := by simp [Ctx.retire]
@[simp] theorem Ctx.retire_member (c : Ctx) (npc : Word) : (c.retire npc).member = c.member := by simp [Ctx.retire]
@[simp] theorem Ctx.retire_fam (c : Ctx) (npc : Word) : (c.retire npc).fam = c.fam := by simp [Ctx.retire]
@[simp] theorem Ctx.retire_probe (c : Ctx) (npc : Word) : (c.retire npc).probe = c.probe := by simp [Ctx.retire]
@[simp] theorem Ctx.retire_frames (c : Ctx) (npc : Word) : (c.retire npc).frames = c.frames := by simp [Ctx.retire]
@[simp] theorem Ctx.retire_heldPush (c : Ctx) (npc : Word) : (c.retire npc).heldPush = c.heldPush := by simp [Ctx.retire]
@[simp] theorem Ctx.retire_acq (c : Ctx) (npc : Word) : (c.retire npc).acq = c.acq := by simp [Ctx.retire]
@[simp] theorem Ctx.retire_xfence (c : Ctx) (npc : Word) : (c.retire npc).xfence = c.xfence := by simp [Ctx.retire]
@[simp] theorem Ctx.retire_bind (c : Ctx) (npc : Word) : (c.retire npc).bind = c.bind := by simp [Ctx.retire]
@[simp] theorem Ctx.retire_cnt (c : Ctx) (npc : Word) : (c.retire npc).cnt = c.cnt := by simp [Ctx.retire]
@[simp] theorem Ctx.retire_marks (c : Ctx) (npc : Word) : (c.retire npc).marks = c.marks := by simp [Ctx.retire]
@[simp] theorem Ctx.retire_sfuHeld (c : Ctx) (npc : Word) : (c.retire npc).sfuHeld = c.sfuHeld := by simp [Ctx.retire]
@[simp] theorem Ctx.retire_sync (c : Ctx) (npc : Word) : (c.retire npc).sync = c.sync := by simp [Ctx.retire]
@[simp] theorem Ctx.retire_syncLeft (c : Ctx) (npc : Word) : (c.retire npc).syncLeft = c.syncLeft := by simp [Ctx.retire]
@[simp] theorem Ctx.retire_wnpc (c : Ctx) (npc : Word) : (c.retire npc).wnpc = c.wnpc := by simp [Ctx.retire]
@[simp] theorem Ctx.retire_wdst (c : Ctx) (npc : Word) : (c.retire npc).wdst = c.wdst := by simp [Ctx.retire]
@[simp] theorem Ctx.retire_instret (c : Ctx) (npc : Word) : (c.retire npc).instret = c.instret + 1 := rfl
/-- Outside a replay frame a unit retires at the next unit. -/
theorem Ctx.retire_pc (c : Ctx) (npc : Word) (h : c.frame = none) : (c.retire npc).pc = npc := by
  simp [Ctx.retire, Ctx.advance, h]

/-! ## Cores and contexts after an update -/

@[simp] theorem State.core_setCore_same (s : State) (n : Nat) (c : Core) : (s.setCore n c).core n = c := by
  simp [State.core, State.setCore]
theorem State.core_setCore_ne (s : State) {n m : Nat} (c : Core) (h : m ≠ n) : (s.setCore n c).core m = s.core m := by
  simp [State.core, State.setCore, tabGet_tabSet_ne _ _ _ h]
@[simp] theorem State.core_onCore_same (s : State) (n : Nat) (f : Core → Core) : (s.onCore n f).core n = f (s.core n) := by
  simp [State.onCore]
theorem State.core_onCore_ne (s : State) {n m : Nat} (f : Core → Core) (h : m ≠ n) : (s.onCore n f).core m = s.core m := by
  simp [State.onCore, State.core_setCore_ne _ _ h]
@[simp] theorem Core.ctx_setCtx_same (c : Core) (x : Nat) (v : Ctx) : (c.setCtx x v).ctx x = v := by simp [Core.ctx, Core.setCtx]
theorem Core.ctx_setCtx_ne (c : Core) {x y : Nat} (v : Ctx) (h : y ≠ x) : (c.setCtx x v).ctx y = c.ctx y := by
  simp [Core.ctx, Core.setCtx, tabGet_tabSet_ne _ _ _ h]
@[simp] theorem State.ctxAt_onCtx_same (s : State) (n x : Nat) (f : Ctx → Ctx) : (s.onCtx n x f).ctxAt n x = f (s.ctxAt n x) := by
  simp [State.ctxAt, State.onCtx]
theorem State.ctxAt_onCtx_ne (s : State) {n x m y : Nat} (f : Ctx → Ctx) (h : m ≠ n ∨ y ≠ x) :
    (s.onCtx n x f).ctxAt m y = s.ctxAt m y := by
  by_cases e : m = n
  · subst e
    have h : y ≠ x := by simpa using h
    simp [State.ctxAt, State.onCtx, Core.ctx_setCtx_ne _ _ h]
  · simp [State.ctxAt, State.onCtx, State.core_onCore_ne _ _ e]
@[simp] theorem State.cur_onCur (s : State) (f : Ctx → Ctx) : (s.onCur f).cur = f s.cur := by
  simp [State.cur, State.onCur]
@[simp] theorem State.here_onHere (s : State) (f : Core → Core) : (s.onHere f).here = f s.here := by
  simp [State.here, State.onHere]
@[simp] theorem Core.setCtx_stop (c : Core) (x : Nat) (v : Ctx) : (c.setCtx x v).stop = c.stop := rfl
@[simp] theorem Core.setCtx_cstate (c : Core) (x : Nat) (v : Ctx) : (c.setCtx x v).cstate = c.cstate := rfl
@[simp] theorem Core.setCtx_abase (c : Core) (x : Nat) (v : Ctx) : (c.setCtx x v).abase = c.abase := rfl
@[simp] theorem Core.setCtx_abound (c : Core) (x : Nat) (v : Ctx) : (c.setCtx x v).abound = c.abound := rfl
@[simp] theorem Core.setCtx_flatch (c : Core) (x : Nat) (v : Ctx) : (c.setCtx x v).flatch = c.flatch := rfl
@[simp] theorem Core.setCtx_faulted (c : Core) (x : Nat) (v : Ctx) : (c.setCtx x v).faulted = c.faulted := rfl
@[simp] theorem Core.setCtx_level (c : Core) (x : Nat) (v : Ctx) : (c.setCtx x v).level = c.level := rfl
@[simp] theorem Core.setCtx_compat (c : Core) (x : Nat) (v : Ctx) : (c.setCtx x v).compat = c.compat := rfl
@[simp] theorem Core.setCtx_hoff (c : Core) (x : Nat) (v : Ctx) : (c.setCtx x v).hoff = c.hoff := rfl
@[simp] theorem Core.setCtx_donor (c : Core) (x : Nat) (v : Ctx) : (c.setCtx x v).donor = c.donor := rfl
@[simp] theorem Core.setCtx_bfmt (c : Core) (x : Nat) (v : Ctx) : (c.setCtx x v).bfmt = c.bfmt := rfl
@[simp] theorem Core.setCtx_bars (c : Core) (x : Nat) (v : Ctx) : (c.setCtx x v).bars = c.bars := rfl
@[simp] theorem Core.setCtx_mbox (c : Core) (x : Nat) (v : Ctx) : (c.setCtx x v).mbox = c.mbox := rfl
@[simp] theorem Core.setCtx_mbwait (c : Core) (x : Nat) (v : Ctx) : (c.setCtx x v).mbwait = c.mbwait := rfl
@[simp] theorem Core.setCtx_events (c : Core) (x : Nat) (v : Ctx) : (c.setCtx x v).events = c.events := rfl
@[simp] theorem Core.setCtx_sigq (c : Core) (x : Nat) (v : Ctx) : (c.setCtx x v).sigq = c.sigq := rfl
@[simp] theorem Core.setCtx_inq (c : Core) (x : Nat) (v : Ctx) : (c.setCtx x v).inq = c.inq := rfl
@[simp] theorem Core.setCtx_outq (c : Core) (x : Nat) (v : Ctx) : (c.setCtx x v).outq = c.outq := rfl
@[simp] theorem Core.setCtx_sfuq (c : Core) (x : Nat) (v : Ctx) : (c.setCtx x v).sfuq = c.sfuq := rfl
@[simp] theorem Core.setCtx_sfuPipe (c : Core) (x : Nat) (v : Ctx) : (c.setCtx x v).sfuPipe = c.sfuPipe := rfl
@[simp] theorem Core.setCtx_copyq (c : Core) (x : Nat) (v : Ctx) : (c.setCtx x v).copyq = c.copyq := rfl
@[simp] theorem Core.setCtx_copyRun (c : Core) (x : Nat) (v : Ctx) : (c.setCtx x v).copyRun = c.copyRun := rfl
@[simp] theorem Core.setCtx_copyDone (c : Core) (x : Nat) (v : Ctx) : (c.setCtx x v).copyDone = c.copyDone := rfl
@[simp] theorem Core.setCtx_mat (c : Core) (x : Nat) (v : Ctx) : (c.setCtx x v).mat = c.mat := rfl
@[simp] theorem Core.setCtx_slots (c : Core) (x : Nat) (v : Ctx) : (c.setCtx x v).slots = c.slots := rfl
@[simp] theorem Core.setCtx_tiles (c : Core) (x : Nat) (v : Ctx) : (c.setCtx x v).tiles = c.tiles := rfl
@[simp] theorem Core.setCtx_empties (c : Core) (x : Nat) (v : Ctx) : (c.setCtx x v).empties = c.empties := rfl
@[simp] theorem Core.setCtx_l1 (c : Core) (x : Nat) (v : Ctx) : (c.setCtx x v).l1 = c.l1 := rfl
@[simp] theorem Core.setCtx_icache (c : Core) (x : Nat) (v : Ctx) : (c.setCtx x v).icache = c.icache := rfl
@[simp] theorem Core.setCtx_sent (c : Core) (x : Nat) (v : Ctx) : (c.setCtx x v).sent = c.sent := rfl
@[simp] theorem Core.setCtx_recv (c : Core) (x : Nat) (v : Ctx) : (c.setCtx x v).recv = c.recv := rfl
@[simp] theorem Core.setCtx_issued (c : Core) (x : Nat) (v : Ctx) : (c.setCtx x v).issued = c.issued := rfl
@[simp] theorem Core.setCtx_gangNo (c : Core) (x : Nat) (v : Ctx) : (c.setCtx x v).gangNo = c.gangNo := rfl
@[simp] theorem Core.setCtx_team (c : Core) (x : Nat) (v : Ctx) : (c.setCtx x v).team = c.team := rfl
@[simp] theorem Core.setCtx_wheel (c : Core) (x : Nat) (v : Ctx) : (c.setCtx x v).wheel = c.wheel := rfl
@[simp] theorem Core.setCtx_stalled (c : Core) (x : Nat) (v : Ctx) : (c.setCtx x v).stalled = c.stalled := rfl

@[simp] theorem State.here_onCur_stop (s : State) (g : Ctx → Ctx) : (s.onCur g).here.stop = s.here.stop := by
  simp [State.here, State.onCur, State.onCtx]
@[simp] theorem State.here_onCur_cstate (s : State) (g : Ctx → Ctx) : (s.onCur g).here.cstate = s.here.cstate := by
  simp [State.here, State.onCur, State.onCtx]
@[simp] theorem State.here_onCur_abase (s : State) (g : Ctx → Ctx) : (s.onCur g).here.abase = s.here.abase := by
  simp [State.here, State.onCur, State.onCtx]
@[simp] theorem State.here_onCur_abound (s : State) (g : Ctx → Ctx) : (s.onCur g).here.abound = s.here.abound := by
  simp [State.here, State.onCur, State.onCtx]
@[simp] theorem State.here_onCur_flatch (s : State) (g : Ctx → Ctx) : (s.onCur g).here.flatch = s.here.flatch := by
  simp [State.here, State.onCur, State.onCtx]
@[simp] theorem State.here_onCur_faulted (s : State) (g : Ctx → Ctx) : (s.onCur g).here.faulted = s.here.faulted := by
  simp [State.here, State.onCur, State.onCtx]
@[simp] theorem State.here_onCur_level (s : State) (g : Ctx → Ctx) : (s.onCur g).here.level = s.here.level := by
  simp [State.here, State.onCur, State.onCtx]
@[simp] theorem State.here_onCur_compat (s : State) (g : Ctx → Ctx) : (s.onCur g).here.compat = s.here.compat := by
  simp [State.here, State.onCur, State.onCtx]
@[simp] theorem State.here_onCur_hoff (s : State) (g : Ctx → Ctx) : (s.onCur g).here.hoff = s.here.hoff := by
  simp [State.here, State.onCur, State.onCtx]
@[simp] theorem State.here_onCur_donor (s : State) (g : Ctx → Ctx) : (s.onCur g).here.donor = s.here.donor := by
  simp [State.here, State.onCur, State.onCtx]
@[simp] theorem State.here_onCur_bfmt (s : State) (g : Ctx → Ctx) : (s.onCur g).here.bfmt = s.here.bfmt := by
  simp [State.here, State.onCur, State.onCtx]
@[simp] theorem State.here_onCur_bars (s : State) (g : Ctx → Ctx) : (s.onCur g).here.bars = s.here.bars := by
  simp [State.here, State.onCur, State.onCtx]
@[simp] theorem State.here_onCur_mbox (s : State) (g : Ctx → Ctx) : (s.onCur g).here.mbox = s.here.mbox := by
  simp [State.here, State.onCur, State.onCtx]
@[simp] theorem State.here_onCur_mbwait (s : State) (g : Ctx → Ctx) : (s.onCur g).here.mbwait = s.here.mbwait := by
  simp [State.here, State.onCur, State.onCtx]
@[simp] theorem State.here_onCur_events (s : State) (g : Ctx → Ctx) : (s.onCur g).here.events = s.here.events := by
  simp [State.here, State.onCur, State.onCtx]
@[simp] theorem State.here_onCur_sigq (s : State) (g : Ctx → Ctx) : (s.onCur g).here.sigq = s.here.sigq := by
  simp [State.here, State.onCur, State.onCtx]
@[simp] theorem State.here_onCur_inq (s : State) (g : Ctx → Ctx) : (s.onCur g).here.inq = s.here.inq := by
  simp [State.here, State.onCur, State.onCtx]
@[simp] theorem State.here_onCur_outq (s : State) (g : Ctx → Ctx) : (s.onCur g).here.outq = s.here.outq := by
  simp [State.here, State.onCur, State.onCtx]
@[simp] theorem State.here_onCur_sfuq (s : State) (g : Ctx → Ctx) : (s.onCur g).here.sfuq = s.here.sfuq := by
  simp [State.here, State.onCur, State.onCtx]
@[simp] theorem State.here_onCur_sfuPipe (s : State) (g : Ctx → Ctx) : (s.onCur g).here.sfuPipe = s.here.sfuPipe := by
  simp [State.here, State.onCur, State.onCtx]
@[simp] theorem State.here_onCur_copyq (s : State) (g : Ctx → Ctx) : (s.onCur g).here.copyq = s.here.copyq := by
  simp [State.here, State.onCur, State.onCtx]
@[simp] theorem State.here_onCur_copyRun (s : State) (g : Ctx → Ctx) : (s.onCur g).here.copyRun = s.here.copyRun := by
  simp [State.here, State.onCur, State.onCtx]
@[simp] theorem State.here_onCur_copyDone (s : State) (g : Ctx → Ctx) : (s.onCur g).here.copyDone = s.here.copyDone := by
  simp [State.here, State.onCur, State.onCtx]
@[simp] theorem State.here_onCur_mat (s : State) (g : Ctx → Ctx) : (s.onCur g).here.mat = s.here.mat := by
  simp [State.here, State.onCur, State.onCtx]
@[simp] theorem State.here_onCur_slots (s : State) (g : Ctx → Ctx) : (s.onCur g).here.slots = s.here.slots := by
  simp [State.here, State.onCur, State.onCtx]
@[simp] theorem State.here_onCur_tiles (s : State) (g : Ctx → Ctx) : (s.onCur g).here.tiles = s.here.tiles := by
  simp [State.here, State.onCur, State.onCtx]
@[simp] theorem State.here_onCur_empties (s : State) (g : Ctx → Ctx) : (s.onCur g).here.empties = s.here.empties := by
  simp [State.here, State.onCur, State.onCtx]
@[simp] theorem State.here_onCur_l1 (s : State) (g : Ctx → Ctx) : (s.onCur g).here.l1 = s.here.l1 := by
  simp [State.here, State.onCur, State.onCtx]
@[simp] theorem State.here_onCur_icache (s : State) (g : Ctx → Ctx) : (s.onCur g).here.icache = s.here.icache := by
  simp [State.here, State.onCur, State.onCtx]
@[simp] theorem State.here_onCur_sent (s : State) (g : Ctx → Ctx) : (s.onCur g).here.sent = s.here.sent := by
  simp [State.here, State.onCur, State.onCtx]
@[simp] theorem State.here_onCur_recv (s : State) (g : Ctx → Ctx) : (s.onCur g).here.recv = s.here.recv := by
  simp [State.here, State.onCur, State.onCtx]
@[simp] theorem State.here_onCur_issued (s : State) (g : Ctx → Ctx) : (s.onCur g).here.issued = s.here.issued := by
  simp [State.here, State.onCur, State.onCtx]
@[simp] theorem State.here_onCur_gangNo (s : State) (g : Ctx → Ctx) : (s.onCur g).here.gangNo = s.here.gangNo := by
  simp [State.here, State.onCur, State.onCtx]
@[simp] theorem State.here_onCur_team (s : State) (g : Ctx → Ctx) : (s.onCur g).here.team = s.here.team := by
  simp [State.here, State.onCur, State.onCtx]
@[simp] theorem State.here_onCur_wheel (s : State) (g : Ctx → Ctx) : (s.onCur g).here.wheel = s.here.wheel := by
  simp [State.here, State.onCur, State.onCtx]
@[simp] theorem State.here_onCur_stalled (s : State) (g : Ctx → Ctx) : (s.onCur g).here.stalled = s.here.stalled := by
  simp [State.here, State.onCur, State.onCtx]

/-! ## Registers -/

/-- The six orders of the banks: swaps stay among them, and the first of each is a bank (R50, R313). -/
def bankOrders : List (Nat × Nat × Nat) := [(0, 16, 32), (16, 0, 32), (0, 32, 16), (16, 32, 0), (32, 0, 16), (32, 16, 0)]
theorem swapBanks_mem : ∀ lh em : Bool, ∀ b ∈ bankOrders, swapBanks lh em b ∈ bankOrders := by decide
theorem bankOrders_first : ∀ b ∈ bankOrders, b.1 = 0 ∨ b.1 = 16 ∨ b.1 = 32 := by decide
/-- The banks that x5 to x8 name stay one of them, however handlers nest. -/
theorem Ctx.outer_mem (c : Ctx) : c.outer ∈ bankOrders := by
  have go (l : List Saved) : ∀ b ∈ bankOrders, l.foldl (fun b g => swapBanks g.inLh g.inEm b) b ∈ bankOrders := by
    induction l with
    | nil => exact fun _ h => h
    | cons g l ih => exact fun b h => ih _ (swapBanks_mem _ _ b h)
  exact go _ _ (by decide)
theorem Ctx.bank_cases (c : Ctx) : c.bank = 0 ∨ c.bank = 16 ∨ c.bank = 32 :=
  bankOrders_first _ (swapBanks_mem _ _ _ c.outer_mem)
/-- A register reads what was written to it, unless it is x0 (R149). -/
theorem Ctx.reg_setReg_same (c : Ctx) (r : XReg) (v : Word) (h : r ≠ 0) : (c.setReg r v).reg r = v := by
  have e : (c.setReg r v).tag r = c.tag r := by simp [Ctx.tag, Ctx.bank, Ctx.outer]
  have l : c.tag r < 48 := by
    have b := c.bank_cases
    have := r.isLt
    unfold Ctx.tag banked
    split
    · rename_i q
      simp at q
      omega
    · omega
  rw [Ctx.reg, if_neg h, e]
  unfold Ctx.setReg
  rw [if_neg h]
  simp [Ctx.regAt, Ctx.setRegAt, Ctx.markFull, l]
/-- x0 reads zero and discards writes (R149). -/
@[simp] theorem Ctx.reg_zero (c : Ctx) : c.reg 0#4 = 0#64 := by simp [Ctx.reg]
@[simp] theorem Ctx.setReg_zero (c : Ctx) (v : Word) : c.setReg 0#4 v = c := by simp [Ctx.setReg]
/-- A name reaches a register of its own. -/
theorem Ctx.tag_inj (c : Ctx) {r q : XReg} (h : c.tag r = c.tag q) : r = q := by
  apply BitVec.eq_of_toNat_eq
  have := r.isLt
  have := q.isLt
  have b := c.bank_cases
  unfold Ctx.tag banked at h
  simp only [Bool.and_eq_true, decide_eq_true_eq] at h
  split at h <;> split at h <;> omega
/-- A write of one register leaves the others. -/
theorem Ctx.reg_setReg_ne (c : Ctx) {r q : XReg} (v : Word) (h : q ≠ r) : (c.setReg r v).reg q = c.reg q := by
  have e : (c.setReg r v).tag q = c.tag q := by simp [Ctx.tag, Ctx.bank, Ctx.outer]
  have t : c.tag r ≠ c.tag q := fun g => h (c.tag_inj g).symm
  by_cases z : q = (0 : BitVec 4)
  · rw [show q = 0#4 from z, Ctx.reg_zero, Ctx.reg_zero]
  · by_cases y : r = (0 : BitVec 4)
    · rw [show r = 0#4 from y, Ctx.setReg_zero]
    · rw [Ctx.reg, if_neg z, Ctx.reg, if_neg z, e]
      unfold Ctx.setReg
      rw [if_neg y]
      simp [Ctx.regAt, Ctx.setRegAt, Ctx.markFull, t]

end Sys2Proof.Machine
end

