-- ==== Sys2Proof/Laws/Units.lean ====
section
/-! SUPPORT. What the shared operations of a unit can do, said once: updates of one part compose, queue misuse traps, and a unit on
registers answers one next state and leaves the rest alone. -/

namespace Sys2Proof.Machine

open Sys2Proof

/-! ## Two updates of one part are one -/

theorem tabSet_tabSet {β : Type} (t : Tab β) (n : Nat) (v w : β) : tabSet (tabSet t n v) n w = tabSet t n w := by
  induction t with
  | nil => simp [tabSet]
  | cons p t ih =>
    obtain ⟨k, u⟩ := p
    by_cases h : n = k
    · simp [tabSet, h]
    · by_cases h2 : n < k <;> simp [tabSet, h, h2, ih]

theorem State.setCore_setCore (s : State) (n : Nat) (c d : Core) : (s.setCore n c).setCore n d = s.setCore n d := by
  simp only [State.setCore, tabSet_tabSet]

theorem State.onCore_onCore (s : State) (n : Nat) (f g : Core → Core) : (s.onCore n f).onCore n g = s.onCore n fun c => g (f c) := by
  rw [State.onCore, State.core_onCore_same, State.onCore, State.setCore_setCore]
  rfl

theorem State.onCtx_onCtx (s : State) (n x : Nat) (f g : Ctx → Ctx) :
    (s.onCtx n x f).onCtx n x g = s.onCtx n x fun c => g (f c) := by
  rw [State.onCtx, State.onCtx, State.onCore_onCore]
  simp only [State.onCtx, Core.setCtx, Core.ctx, tabGet_tabSet_same, tabSet_tabSet]

theorem State.onCur_onCur (s : State) (f g : Ctx → Ctx) : (s.onCur f).onCur g = s.onCur fun c => g (f c) :=
  State.onCtx_onCtx ..

/-! ## Operands -/

theorem Ctx.mapped_plain (c : Ctx) {r : XReg} (h : banked r = false) : c.mapped r = none := by simp [Ctx.mapped, h]

theorem State.pops_plain (s : State) {l : List XReg} (h5 : (5 : XReg) ∉ l) (h6 : (6 : XReg) ∉ l) : s.pops l = s := by
  have e5 : l.contains (5 : XReg) = false := by simpa using h5
  have e6 : l.contains (6 : XReg) = false := by simpa using h6
  simp only [State.pops, e5, e6]
  rfl

/-- x0 discards what is written to it (R149). -/
theorem State.wr_zero (s : State) (v : Word) : s.wr 0 v = s.onCur fun c => c := by
  rw [State.wr, Ctx.mapped_plain _ (by rfl)]
  simp

theorem State.rd_zero (s : State) : s.rd 0 = 0 := by
  rw [State.rd, Ctx.mapped_plain _ (by rfl)]
  simp

theorem State.popOne_iss (s : State) (r : XReg) : (s.popOne r).iss = s.iss := by
  unfold State.popOne
  split
  · split <;> rfl
  · rfl

theorem State.pops_iss (s : State) (l : List XReg) : (s.pops l).iss = s.iss := by
  simp only [State.pops]
  split <;> split <;> simp [State.popOne_iss]

theorem State.push_iss (s : State) (d : Nat) (w : QWord) : (s.push d w).iss = s.iss := by
  unfold State.push
  split <;> rfl

theorem State.wr_iss (s : State) (r : XReg) (v : Word) : (s.wr r v).iss = s.iss := by
  unfold State.wr
  split
  · split
    · rfl
    · exact State.push_iss ..
  · rfl

/-! ## The shapes of a unit -/

theorem State.put_next (s : State) (l : List XReg) (d : XReg) (v : Word) (h : s.misuse l [d] = false) :
    s.put l d v = .next (((s.pops l).wr d v).retire) := by simp [State.put, h]

theorem State.put_misuse (s : State) (l : List XReg) (d : XReg) (v : Word) (h : s.misuse l [d] = true) :
    s.put l d v = .next (s.trap 0x0E 0) := by simp [State.put, h, State.trapOut]

theorem State.putF_next (s : State) (l : List XReg) (d : XReg) (v : Word) (f : Flags) (h : s.misuse l [d] = false) :
    s.putF l d v f = .next ((((s.pops l).wr d v).orFlags f).retire) := by simp [State.putF, h]

theorem State.alter_next (s : State) (l : List XReg) (f : Ctx → Ctx) (h : s.misuse l [] = false) :
    s.alter l f = .next (((s.pops l).onCur f).retire) := by simp [State.alter, h]

theorem State.jump_next (s : State) (l : List XReg) (d : XReg) (b : Bool) (v : Word) (h : s.misuse l [d] = false) :
    s.jump l d b v = .next (((s.pops l).wr d s.iss.npc).retireTo (if b then v else s.iss.npc)) := by simp [State.jump, h]

/-- x0 is mapped to no queue, so a unit with no destination misuses what its sources misuse. -/
theorem State.misuse_zero (s : State) (l : List XReg) : s.misuse l [0] = s.misuse l [] := by
  have h : s.cur.mapped 0#4 = none := Ctx.mapped_plain s.cur (by rfl)
  simp [State.misuse, h]

/-- A transfer without a link. -/
theorem State.jump_zero (s : State) (l : List XReg) (b : Bool) (v : Word) (h : s.misuse l [] = false) :
    s.jump l 0 b v = .next ((s.pops l).retireTo (if b then v else s.iss.npc)) := by
  rw [State.jump_next _ _ _ _ _ (by rw [State.misuse_zero]; exact h), State.wr_zero, State.retireTo, State.onCur_onCur]
  rfl

/-! ## Frames -/

/-- What a source register's queue, if any, gives up concerns the core's inbound queues alone. -/
theorem State.popOne_frame (s : State) (r : XReg) :
    ∃ q, s.popOne r = s ∨ s.popOne r = s.onHere fun c => { c with inq := q } := by
  unfold State.popOne
  split
  · split
    · exact ⟨_, .inr rfl⟩
    · exact ⟨[], .inl rfl⟩
  · exact ⟨[], .inl rfl⟩

theorem State.pops_frame (s : State) (l : List XReg) :
    s.pops l = s ∨ ∃ q, s.pops l = s.onHere fun c => { c with inq := q } := by
  have one (s : State) (r : XReg) : s.popOne r = s ∨ ∃ q, s.popOne r = s.onHere fun c => { c with inq := q } := by
    obtain ⟨q, h | h⟩ := s.popOne_frame r
    · exact .inl h
    · exact .inr ⟨q, h⟩
  simp only [State.pops]
  have h5 : (if l.contains 5 = true then s.popOne 5 else s) = s ∨
      ∃ q, (if l.contains 5 = true then s.popOne 5 else s) = s.onHere fun c => { c with inq := q } := by
    split
    · exact one s 5
    · exact .inl rfl
  generalize (if l.contains 5 = true then s.popOne 5 else s) = u at h5
  split
  · obtain h | ⟨q, h⟩ := one u 6
    · rw [h]
      exact h5
    · obtain rfl | ⟨p, rfl⟩ := h5
      · exact .inr ⟨q, h⟩
      · refine .inr ⟨q, h.trans ?_⟩
        exact State.onCore_onCore ..
  · exact h5

/-- A change of the performing core that keeps its contexts. -/
theorem State.onHere_cur (s : State) (f : Core → Core) (h : (f s.here).ctxs = s.here.ctxs) : (s.onHere f).cur = s.cur := by
  have e : (s.onHere f).cur = (f s.here).ctx s.iss.ctx := by
    simp only [State.cur, State.ctxAt, State.onHere, State.onCore_iss, State.core_onCore_same]
    rfl
  rw [e, Core.ctx, h]
  rfl

theorem State.pops_cur (s : State) (l : List XReg) : (s.pops l).cur = s.cur := by
  obtain h | ⟨q, h⟩ := s.pops_frame l <;> rw [h]
  exact State.onHere_cur s _ rfl

theorem SameWorld.mem {s t : State} (h : SameWorld s t) : t.mem = s.mem := (congrArg State.mem h :)
theorem SameWorld.iss {s t : State} (h : SameWorld s t) : t.iss = s.iss := (congrArg State.iss h :)
theorem SameWorld.reqs {s t : State} (h : SameWorld s t) : t.reqs = s.reqs := (congrArg State.reqs h :)

theorem unitFrame_refl (hide : Ctx → Ctx) (s : State) (but : List Nat) : UnitFrame hide s s but :=
  ⟨rfl, ⟨fun _ _ => rfl, fun _ _ => rfl⟩, rfl, rfl, fun _ _ => rfl, fun _ _ _ => ⟨rfl, rfl⟩⟩
theorem UnitFrame.trans {hide : Ctx → Ctx} {s t u : State} {but : List Nat} (i : t.iss = s.iss) (h : UnitFrame hide s t but)
    (g : UnitFrame hide t u but) : UnitFrame hide s u but := by
  obtain ⟨w, ⟨o, x⟩, b, c, r, e⟩ := h
  obtain ⟨w', ⟨o', x'⟩, b', c', r', e'⟩ := g
  refine ⟨?_, ⟨fun n hn => ?_, fun n hn => ?_⟩, b'.trans b, c'.trans c, fun n hn => (r' n hn).trans (r n hn), fun n hl hn =>
    ⟨(e' n hl hn).1.trans (e n hl hn).1, (e' n hl hn).2.trans (e n hl hn).2⟩⟩
  · have e : { u with cores := s.cores } = { ({ u with cores := t.cores } : State) with cores := s.cores } := rfl
    rw [SameWorld, e, w']
    exact w
  · rw [o' n (by rw [i]; exact hn), o n hn]
  · rw [x' n (by rw [i]; exact hn), x n hn]

/-- A change of the performing context alone. -/
theorem unitFrame_onCur (hide : Ctx → Ctx) (s : State) (f : Ctx → Ctx) (but : List Nat)
    (hb : hide (f s.cur).body = hide s.cur.body) (hr : ∀ r, r ∉ but → (f s.cur).regAt r = s.cur.regAt r)
    (he : ∀ r < 48, r ∉ but → (f s.cur).fe.getLsbD r = s.cur.fe.getLsbD r ∧ (f s.cur).bad.getLsbD r = s.cur.bad.getLsbD r) :
    UnitFrame hide s (s.onCur f) but := by
  have hc : (s.onCur f).cur = f s.cur := State.cur_onCur ..
  refine ⟨rfl, ⟨fun n hn => State.core_onCore_ne _ _ hn, fun x hx => ?_⟩, ?_, by rw [hc, hb], fun r h => by rw [hc, hr r h], fun r l h => by rw [hc]; exact he r l h⟩
  · simp only [State.here, State.onCur, State.onCtx, State.onCore_iss, State.core_onCore_same]
    exact tabGet_tabSet_ne _ _ _ hx
  · simp only [State.here, State.onCur, State.onCtx, State.onCore_iss, State.core_onCore_same]
    rfl

/-- A change of the performing core's neighbour queues alone. -/
theorem unitFrame_onHere (hide : Ctx → Ctx) (s : State) (f : Core → Core) (but : List Nat) (hx : (f s.here).ctxs = s.here.ctxs)
    (hb : (f s.here).body = s.here.body) : UnitFrame hide s (s.onHere f) but := by
  have hc := s.onHere_cur f hx
  refine ⟨rfl, ⟨fun n hn => State.core_onCore_ne _ _ hn, fun x _ => ?_⟩, ?_, by rw [hc], fun r _ => by rw [hc], fun r _ _ => by rw [hc]; exact ⟨rfl, rfl⟩⟩
  · rw [State.here_onHere, Core.ctx, hx]
    rfl
  · rw [State.here_onHere, hb]

theorem unitFrame_pops (hide : Ctx → Ctx) (s : State) (l : List XReg) (but : List Nat) : UnitFrame hide s (s.pops l) but := by
  obtain h | ⟨q, h⟩ := s.pops_frame l <;> rw [h]
  · exact unitFrame_refl ..
  · exact unitFrame_onHere hide s _ but rfl rfl

/-- A unit that pops its sources and changes its context alone. -/
theorem unitFrame_alter (hide : Ctx → Ctx) (s : State) (l : List XReg) (f : Ctx → Ctx) (but : List Nat)
    (hb : hide (f s.cur).body = hide s.cur.body) (hr : ∀ r, r ∉ but → (f s.cur).regAt r = s.cur.regAt r)
    (he : ∀ r < 48, r ∉ but → (f s.cur).fe.getLsbD r = s.cur.fe.getLsbD r ∧ (f s.cur).bad.getLsbD r = s.cur.bad.getLsbD r) :
    UnitFrame hide s ((s.pops l).onCur f) but :=
  (unitFrame_pops hide s l but).trans (State.pops_iss ..)
    (unitFrame_onCur hide _ f but (by rw [State.pops_cur, hb]) (by rw [State.pops_cur]; exact hr) (by rw [State.pops_cur]; exact he))

theorem Ctx.setReg_body (c : Ctx) (r : XReg) (v : Word) : (c.setReg r v).body = c.body := by
  unfold Ctx.setReg
  split <;> rfl

theorem Ctx.regAt_setRegAt_ne (c : Ctx) {t u : Nat} (v : Word) (h : u ≠ t) : (c.setRegAt t v).regAt u = c.regAt u := by
  simp [Ctx.setRegAt, Ctx.regAt, Vector.set!_eq_setIfInBounds, List.getD_eq_getElem?_getD, h.symm]

theorem Ctx.regAt_setReg_ne (c : Ctx) (r : XReg) (v : Word) {u : Nat} (h : u ≠ c.tag r) : (c.setReg r v).regAt u = c.regAt u := by
  unfold Ctx.setReg
  split
  · rfl
  · exact Ctx.regAt_setRegAt_ne _ _ h

theorem Ctx.marks_setReg_ne (c : Ctx) (r : XReg) (v : Word) {u : Nat} (l : u < 48) (h : u ≠ c.tag r) :
    (c.setReg r v).fe.getLsbD u = c.fe.getLsbD u ∧ (c.setReg r v).bad.getLsbD u = c.bad.getLsbD u := by
  unfold Ctx.setReg
  split
  · exact ⟨rfl, rfl⟩
  · simp [Ctx.setRegAt, Ctx.markFull, l]
    omega

/-- A write of a result touches the named register, or an outbound queue. -/
theorem unitFrame_wr (hide : Ctx → Ctx) (s : State) (d : XReg) (v : Word) : UnitFrame hide s (s.wr d v) [s.cur.tag d] := by
  unfold State.wr
  split
  · split
    · exact unitFrame_refl ..
    · unfold State.push
      split
      · exact unitFrame_onHere hide s _ _ rfl rfl
      · exact unitFrame_onCur hide s _ _ rfl (fun _ _ => rfl) fun _ _ _ => ⟨rfl, rfl⟩
  · exact unitFrame_onCur hide s _ _ (by rw [Ctx.setReg_body]) (fun r h => Ctx.regAt_setReg_ne _ _ _ (by simpa using h))
      fun r l h => Ctx.marks_setReg_ne _ _ _ l (by simpa using h)

theorem Ctx.retire_body (c : Ctx) (p : Word) : (c.retire p).body = c.body := by
  unfold Ctx.retire Ctx.advance
  split
  · rfl
  · split
    · rfl
    · split <;> rfl

theorem Ctx.retire_regAt (c : Ctx) (p : Word) (r : Nat) : (c.retire p).regAt r = c.regAt r := by
  unfold Ctx.retire Ctx.advance
  split
  · rfl
  · split
    · rfl
    · split <;> rfl

theorem unitFrame_retire (hide : Ctx → Ctx) (s : State) (p : Word) (but : List Nat) : UnitFrame hide s (s.retireTo p) but :=
  unitFrame_onCur hide s _ but (by rw [Ctx.retire_body]) (fun r _ => Ctx.retire_regAt ..)
    fun r _ _ => by simp

/-- A unit that reads registers, writes one and goes on anywhere leaves the rest alone. -/
theorem unitFrame_put (hide : Ctx → Ctx) (s : State) (l : List XReg) (d : XReg) (v p : Word) :
    UnitFrame hide s (((s.pops l).wr d v).retireTo p) [s.cur.tag d] := by
  refine (unitFrame_pops hide s l _).trans (State.pops_iss ..) ?_
  have h := unitFrame_wr hide (s.pops l) d v
  rw [State.pops_cur] at h
  exact h.trans (State.wr_iss ..) (unitFrame_retire ..)

end Sys2Proof.Machine
end

