-- ==== Sys2Proof/Tests/Slice0.lean ====
section
/-! SUPPORT. The model's own tests: words decode, ill-formed terms are refused, every statement's hypotheses are met by a small
state, and one unit's result as the spec's rules and worked examples give it. Where no example is named, the expected value is
the rule's, worked by hand. -/

namespace Sys2Proof.Tests

open Sys2Proof Sys2Proof.Machine

set_option Elab.async false

/-! ## Small states -/

/-- Core 0 runs a team of one core with one thread in context 0; the core, the context and the state changed as told. -/
def run (c : Core → Core) (x : Ctx → Ctx) (f : State → State) : State :=
  f { State.reset with
    bootst := 0x80, nextUid := 2, teams := [(1, { Team.empty with phase := .running, cores := [0] })],
    cores := [(0, c { Core.reset with stop := false, cstate := 2, abound := 64, team := some 1,
                                      ctxs := [(0, x { Ctx.empty with uid := 1 })] })],
    iss := { core := 0, ctx := 0, upc := 0, ipc := 0, npc := 4, bits := 0 } }
/-- Registers of the thread set. -/
def regs (l : List (Nat × Word)) (c : Ctx) : Ctx := { c with x := l.foldl (fun v p => v.set! p.1 p.2) c.x }
/-- The thread with these registers, and nothing else changed. -/
def withRegs (l : List (Nat × Word)) : State := run id (regs l) id
/-- The unit gives a next state, of which a test holds. -/
def ok (i : Instr) (s : State) (p : State → Bool) : Bool :=
  match exec i s with
  | .next t => p t
  | _ => false
/-- The state after a unit. -/
def after (i : Instr) (s : State) : State :=
  match exec i s with
  | .next t => t
  | _ => s
/-- The unit's value of register r. -/
def gives (i : Instr) (s : State) (r : XReg) (v : Word) : Bool := ok i s fun t => t.cur.reg r == v

/-- The window address of an offset in the own core's scratchpad, and in its rows (R57). -/
def spad (o : Nat) : Word := BitVec.ofNat 64 (0xFFFFE * 2 ^ 44 + o)
def rows (o : Nat) : Word := BitVec.ofNat 64 (0xFFFFE * 2 ^ 44 + 2 ^ 27 + o)
/-- An access is let through. -/
def lets (a : Acc) : Bool :=
  match a with
  | .ok _ _ _ => true
  | _ => false
/-- The place an access goes to. -/
def placeOf (a : Acc) : Phys :=
  match a with
  | .ok p _ _ => p
  | _ => { key := 0, home := .host, slot := 0, stream := false, write := false }
/-- The record of the own core's latch at the end of the cycle: its cause, its value. -/
def cause (t : State) : Nat := (t.latchRaised.here.flatch.getD 0 0).toNat % 256
def value (t : State) : Word := t.latchRaised.here.flatch.getD 2 0

/-! ## Words decode (R129 to R134, R142, R143) -/

theorem test_decode_add : decodeTableWord 32 0b0000000_00011_00010_000_00001_0110011 = some (.add 1 2 3) := by decide +kernel
theorem test_decode_ld : decodeTableWord 32 0b111111111110_00010_011_00001_0000011 = some (.ld 1 2 0xFFE) := by decide +kernel
theorem test_decode_sd : decodeTableWord 32 0b0000001_00011_00010_011_11111_0100011 = some (.sd 3 2 0x03F) := by decide +kernel
theorem test_decode_bne : decodeTableWord 32 0b1_000001_00011_00010_001_0010_0_1100011 = some (.bne 2 3 0x812) := by decide +kernel
theorem test_decode_jal : decodeTableWord 32 0b0_0000000010_1_10000001_00001_1101111 = some (.jal 1 0x40C02) := by decide +kernel
theorem test_decode_clui : decodeTableWord 16 0b011_1_00001_11111_01 = some (.cLui 1 0x3F) := by decide +kernel
theorem test_decode_clw : decodeTableWord 16 0b010_101_001_1_0_010_00 = some (.cLw 2 1 0b01011) := by decide +kernel
theorem test_decode_fmadd : decodeTableWord 32 0b00100_00_00011_00010_111_00001_1000011 = some (.fmaddS 1 2 3 4 7) := by decide +kernel
theorem test_decode_csrrs : decodeTableWord 32 0b100000000010_00101_010_00001_1110011 = some (.csrrs 1 5 0x802) := by decide +kernel
/-- spec/07, "Decoding a short stream", rows 3, 2, 4 to 8, and rows 1 and 2 together. -/
theorem test_decode_fli : decodeTableWord 48 0x3FC000004A1F = some (.fli 10 0x3FC00000) := by decide +kernel
theorem test_decode_gcmp : decodeTableWord 32 0x24B5310B = some (.gcmpLt 2 10 11) := by decide +kernel
theorem test_decode_mma : decodeTableWord 32 0x0037427B = some (.mma 0 0 10 11 1 1) := by decide +kernel
theorem test_decode_reserved : (decodeInstr 3 0x0037437B).2 = .error 2 ∧ (decodeInstr 3 0x0000438B).2 = .error 2 := by decide +kernel
theorem test_decode_undefined : (decodeInstr 3 0x0FF0000F).2 = .error 1 ∧ (decodeInstr 3 0).2 = .error 1 := by decide +kernel
theorem test_decode_prefix : decodeUnit 3 0x24B5310B900C = ⟨6, 2, ⟨3, true⟩, .ok (.gcmpLt 2 10 11)⟩ := by decide +kernel
theorem test_decode_level1 : (decodeUnit 1 0x900C).ins = .error 1 ∧ (decodeInstr 1 0x3FC000004A1F).2 = .error 1 := by decide +kernel
theorem test_decode_fcreate : decodeTableWord 32 0b0000000_00000_01010_000_00101_0001011 = some (.fcreate 5 10) := by decide +kernel
theorem test_decode_barw : decodeTableWord 32 0b0000010_00001_01111_001_00000_0001011 = some (.barw 47) := by decide +kernel
theorem test_decode_barw_48 : decodeTableWord 32 0b0000010_00001_10000_001_00000_0001011 = none := by decide +kernel
theorem test_decode_fest : decodeTableWord 32 0b0000100_00000_00010_010_00001_0001011 = some (.fest 1 2) := by decide +kernel
theorem test_decode_qstat : decodeTableWord 32 0b0000011_00000_00011_011_00001_0001011 = some (.qstat 1 3) := by decide +kernel
theorem test_decode_ldaq : decodeTableWord 32 0b0001000_00101_00010_100_00011_0001011 = some (.ldaq 5 2 3) := by decide +kernel
theorem test_decode_acas : decodeTableWord 32 0b1001_1_10_00011_00010_101_00001_0001011 = some (.acas 1 2 1 2 3) := by decide +kernel
theorem test_decode_scln : decodeTableWord 32 0b0000001_00000_00010_110_00001_0001011 = some (.scln 1 2) := by decide +kernel
theorem test_decode_tret : decodeTableWord 32 0b0000000_00000_00000_111_00000_0001011 = some .tret := by decide +kernel
theorem test_decode_cqpush : decodeTableWord 32 0b0000000_00000_01000_000_00001_0101011 = some (.cqpush 1 8) := by decide +kernel
theorem test_decode_pstat : decodeTableWord 32 0b0000010_00101_00000_100_00001_0101011 = some (.pstat 1 5) := by decide +kernel
theorem test_decode_vmul : decodeTableWord 32 0b0010_011_00110_00101_000_00100_1011011 = some (.vmul 3 4 5 6) := by decide +kernel
theorem test_decode_vld : decodeTableWord 32 0b0000_000_00000_00101_011_11111_1011011 = some (.vld 0 31 5) := by decide +kernel
theorem test_decode_vtanh : decodeTableWord 32 0b0101_000_00000_00101_110_00001_1011011 = some (.vtanh 0 1 5) := by decide +kernel
theorem test_decode_repv : decodeTableWord 32 0b0000_000_00010_00111_111_10000_1011011 = some (.repv 0 16 7 2) := by decide +kernel
theorem test_decode_wld : decodeTableWord 32 0b00010_001_000_1011_1010_0010_0_1_1111011 = some (.wld 1 1 10 11 2) := by decide +kernel

/-! ## Ill-formed terms (R137, R139, and the chapters' limits) -/

/-- One term for each check: the check refuses it. -/
theorem test_wf_base : ([.csrrw 1 2 0x805, .csrrw 1 2 0xC00, .csrrs 1 2 0xC00, .csrrc 1 2 0xCC0, .csrrwi 1 2 0xC02, .csrrsi 1 3 0xCC1,
    .csrrci 1 3 0xCC2, .faddS 1 2 3 4, .fsubS 1 2 3 5, .fmulS 1 2 3 6, .fdivS 1 2 3 4, .fsqrtS 1 2 4, .fcvtWS 1 2 5, .fcvtLS 1 2 6,
    .fcvtSW 1 2 4, .fcvtSL 1 2 5, .fmaddS 1 2 3 4 6, .cAddi4spn 0 0, .cAddi 0 0, .cAddiw 0 1, .cAddi16sp 0, .cLui 2 1, .cLui 1 0,
    .cLwsp 0 1, .cLdsp 0 1, .cJr 0, .cJalr 0, .cMv 1 0, .cAdd 1 0] : List Instr).map Instr.wf =
      [true] ++ List.replicate 28 false := by decide +kernel
theorem test_wf_custom : ([.tself 1 7, .bjoin 48, .bleave 48, .barw 48, .bara 1023, .bwait 48, .qctl 1 2, .fenceO 5, .fenceA 5, .fenceX 31,
    .fenceAll 5, .ldaq 1 2 5, .strl 1 2 5, .cqpush 1 9, .cqpushn 1 0, .gpost 1 4] : List Instr).map Instr.wf =
      List.replicate 16 false := by decide +kernel
theorem test_wf_vector : ([.vcvt 0 1 2 0 6, .vunpack 0 1 2 0 1, .vscan 0 1 31 2, .vscanL1 0 1 31 2, .vscanc 0 1 2 2, .vscanc 0 2 31 2,
    .repv 0 0 1 1, .repv 0 17 1 1, .tcfg 0 0 4, .mma 0 0 1 2 0 3, .gmma 0 0 1 2 0 3, .wld 0 0 1 2 3, .wlds 0 0 1 2 15] : List Instr).map Instr.wf =
      List.replicate 13 false := by decide +kernel
theorem test_wf_events : ([.homePerform (.core 8192) 0 0, .homePerform (.slice 64 0) 0 0, .engineRead (.ice 512) 0, .sfuService 8192,
    .memberStart 0 16 0, .familyFinish 0 0 16, .inlineMemberTake 0 16, .lightHandlerEntry 0 16, .queueWordTransfer 0 4, .mailboxDelivery 8192,
    .copy 8192, .packagePut 8192, .completionHandlerTrigger 8192, .ackTimeout 8192, .nop 0 16, .amuServe 512, .grout 512, .gangOperation 2048,
    .qlist 256 0, .doorbell 256 0 0, .tinvPage 256 0, .getCertificate 256, .krel 64 0, .revokeComplete 64 0] : List Instr).map Instr.wf =
      List.replicate 24 false := by decide +kernel
theorem test_wf_good : ([.csrrs 1 0 0xC00, .cLui 1 1, .barw 47, .fenceO 4, .repv 0 16 31 31, .vscanc 0 2 30 1, .wlds 0 1 1 2 2] : List Instr).all
    Instr.wf = true := by decide +kernel

/-! ## Integer units (R149 to R154) -/

/-- x1 = −7, x2 = 2, x3 = 2^63, x4 = −1: a wrap or a change of sign in each. -/
def ints : State := withRegs [(1, -7), (2, 2), (3, 0x8000000000000000), (4, -1), (5, 0x8000000000000001)]

theorem witness_RegisterFormsResult : ints.misuse [1, 2] [3] = false := by decide +kernel
theorem test_register_forms : ([(.add 9 4 2, 1), (.sub 9 3 2, 0x7FFFFFFFFFFFFFFE), (.sll 9 2 4, 0), (.slt 9 1 2, 1), (.sltu 9 1 2, 0),
    (.xor 9 1 4, 6), (.srl 9 1 2, 0x3FFFFFFFFFFFFFFE), (.sra 9 1 2, -2), (.or 9 1 2, -5), (.and 9 1 4, -7), (.andn 9 4 1, 6), (.orn 9 2 1, 6),
    (.min 9 1 2, -7), (.minu 9 1 2, 2), (.max 9 1 2, 2), (.maxu 9 1 2, -7), (.sh1add 9 3 2, 2), (.sh2add 9 1 2, -26), (.sh3add 9 1 2, -54)]
      : List (Instr × Word)).all (fun q => gives q.1 ints 9 q.2) = true := by decide +kernel
theorem test_multiply_divide : ([(.mul 9 3 2, 0), (.mulh 9 3 2, -1), (.mulhu 9 3 2, 1), (.mulh 9 1 4, 0), (.mulhu 9 4 4, -2), (.div 9 1 2, -3),
    (.rem 9 1 2, -1), (.div 9 3 4, 0x8000000000000000), (.rem 9 3 4, 0), (.div 9 1 0, -1), (.rem 9 1 0, -7), (.divu 9 4 2, 0x7FFFFFFFFFFFFFFF),
    (.remu 9 4 2, 1), (.divu 9 1 0, -1), (.remu 9 1 0, -7), (.addw 9 5 4, 0), (.subw 9 0 5, -1)] : List (Instr × Word)).all
      (fun q => gives q.1 ints 9 q.2) = true := by decide +kernel
theorem test_immediates : ([(.addi 9 4 0x800, -2049), (.slti 9 1 0xFFA, 1), (.sltiu 9 2 0x800, 1), (.xori 9 1 0xFFF, 6), (.ori 9 2 0x7F0, 0x7F2),
    (.andi 9 1 0x00F, 9), (.slli 9 2 63, 0), (.srli 9 3 63, 1), (.srai 9 3 63, -1), (.clz 9 2, 62), (.clz 9 0, 64), (.ctz 9 3, 63), (.ctz 9 0, 64),
    (.cpop 9 5, 2), (.addiw 9 4 0x001, 0), (.slliw 9 2 31, 0), (.srliw 9 1 28, 15), (.sraiw 9 1 28, -1), (.lui 9 0x80000, -0x80000000),
    (.auipc 9 0x00001, 4096), (.li32 9 0xFFFFFFFF, -1), (.lih 4 0x1, 0x1FFFFFFFF), (.addl 1 0xFFFFFFFF, -8), (.andl 4 0x0F, 15),
    (.fli 9 0xBF800000, 0xFFFFFFFFBF800000)] : List (Instr × Word)).all
      (fun q => gives q.1 ints (match q.1 with | .lih d _ | .addl d _ | .andl d _ => d | _ => 9) q.2) = true := by decide +kernel
theorem witness_ImmediateFormsResult : ints.misuse [1] [9] = false := by decide +kernel
theorem witness_LiteralFormsResult : ints.misuse [] [9] = false ∧ ints.misuse [1] [1] = false := by decide +kernel
/-- x0 keeps reading zero (R149). -/
theorem test_x0 : gives (.addi 0 1 5) ints 0 0 = true := by decide +kernel
theorem test_branches : ([(.beq 1 1 0x800, -4096), (.bne 1 2 3, 6), (.blt 1 2 3, 6), (.bge 1 2 3, 4), (.bltu 1 2 3, 4), (.bgeu 1 2 3, 6),
    (.cBeqz 0 0x80, -256), (.cBnez 0 1, 4), (.jal 9 0x80000, -0x100000), (.jalr 9 5 2, 0x8000000000000002), (.cJ 0x400, -2048), (.cJr 4, -2),
    (.cJalr 2, 2)] : List (Instr × Word)).all (fun q => ok q.1 ints fun t => t.cur.pc == q.2) = true := by decide +kernel
theorem test_links : gives (.jal 9 1) ints 9 4 && gives (.jalr 9 5 2) ints 9 4 && gives (.cJalr 2) ints 1 4 = true := by decide +kernel
theorem witness_BranchesResult : ints.misuse [1, 2] [] = false ∧ ints.misuse [1#1 ++ 0#3] [] = false ∧ ints.rd 1 ≠ ints.rd 2 ∧
    (ints.rd 1).toInt < (ints.rd 2).toInt ∧ (ints.rd 2).toNat ≤ (ints.rd 1).toNat := by decide +kernel
theorem witness_JumpsResult : ints.misuse [] [1] = false ∧ ints.misuse [1] [2] = false ∧ ints.misuse [1] [] = false := by decide +kernel
/-- x8 = −16, x9 = 3, x2 (sp) = 1,024. -/
def cints : State := withRegs [(2, 1024), (8, -16), (9, 3)]
theorem test_compressed : ([(.cAddi 9 0x3F, 9, 2), (.cAddiw 8 0x20, 8, -48), (.cLi 1 0x20, 1, -32), (.cAddi16sp 0x3F, 2, 1008),
    (.cAddi4spn 0 255, 8, 2044), (.cLui 1 0x3F, 1, -4096), (.cSlli 9 62, 9, 0xC000000000000000), (.cMv 1 8, 1, -16), (.cAdd 9 8, 9, -13),
    (.cSrli 0 60, 8, 15), (.cSrai 0 4, 8, -1), (.cAndi 0 0x3C, 8, -16), (.cSub 0 1, 8, -19), (.cXor 0 1, 8, -13), (.cOr 0 1, 8, -13),
    (.cAnd 0 1, 8, 0), (.cSubw 1 0, 9, 19), (.cAddw 0 1, 8, -13), (.cNop, 8, -16)] : List (Instr × XReg × Word)).all
      (fun q => gives q.1 cints q.2.1 q.2.2) = true := by decide +kernel
theorem witness_CompressedFormsResult : cints.misuse [8, 9] [8] = false ∧ cints.misuse [] [9] = false := by decide +kernel

/-! ## Guards (R158 to R163) -/

theorem test_guards : ok (.gcmpLt 2 1 2) ints (fun t => t.cur.guard 2) && ok (.gcmpLtu 2 1 2) ints (fun t => !t.cur.guard 2) &&
    ok (.gcmpEq 0 1 2) ints (fun t => t.cur.guard 0) && ok (.gcmpNe 1 1 2) ints (fun t => t.cur.guard 1) &&
    ok (.gcmpGe 7 2 1) ints (fun t => t.cur.guard 7) && ok (.gcmpGeu 7 2 1) ints (fun t => !t.cur.guard 7) = true := by decide +kernel
/-- g1 and g3 true. -/
def guarded : State := run id (fun c => { regs [(1, 0x1FC)] c with g := 0b1011 }) id
theorem test_guard_logic : ok (.gand 2 1 3) guarded (fun t => t.cur.guard 2) && ok (.gor 2 4 3) guarded (fun t => t.cur.guard 2) &&
    ok (.gxor 1 1 3) guarded (fun t => !t.cur.guard 1) && ok (.gandn 2 1 3) guarded (fun t => !t.cur.guard 2) &&
    gives (.gtox 5) guarded 5 0b1011 && ok (.gfromx 1) guarded (fun t => t.cur.guards == 0xFD) = true := by decide +kernel
theorem witness_GuardsResult : guarded.misuse [1, 2] [] = false ∧ guarded.misuse [] [5] = false ∧ guarded.misuse [1] [] = false := by decide +kernel

/-! ## Single precision (R98 to R102, R155, R156) -/

/-- x1 = 1.5, x2 = −0, x3 = +0, x4 = a signalling NaN, x5 = 2^31, x6 = 2, x7 = the least f32, x8 = 0.5. -/
def floats : State := withRegs [(1, 0x3FC00000), (2, 0x80000000), (3, 0), (4, 0x7F800001), (5, 0x4F000000), (6, 0x40000000), (7, 1), (8, 0x3F000000)]
theorem test_float : ([(.faddS 9 1 1 0, 0x40400000), (.fsubS 9 1 1 2, 0xFFFFFFFF80000000), (.fsubS 9 1 1 0, 0), (.fmulS 9 1 6 0, 0x40400000),
    (.fdivS 9 1 6 0, 0x3F400000), (.fsqrtS 9 6 0, 0x3FB504F3), (.fmaddS 9 1 6 1 0, 0x40900000), (.fsgnjS 9 1 2, 0xFFFFFFFFBFC00000),
    (.fsgnjnS 9 1 2, 0x3FC00000), (.fminS 9 2 3, 0xFFFFFFFF80000000), (.fmaxS 9 2 3, 0), (.fminS 9 4 1, 0x3FC00000), (.fmaxS 9 4 4, 0x7FC00000),
    (.fleS 9 2 3, 1), (.fltS 9 2 3, 0), (.feqS 9 2 3, 1), (.feqS 9 4 4, 0), (.fcvtWS 9 5 0, 0x7FFFFFFF), (.fcvtLS 9 5 0, 0x80000000),
    (.fcvtWS 9 8 0, 0), (.fcvtWS 9 8 3, 1), (.fcvtSW 9 5 0, 0x4E9E0000), (.fcvtSL 9 6 0, 0x4E800000), (.fmulS 9 7 8 0, 0), (.fmulS 9 7 8 3, 1)]
      : List (Instr × Word)).all (fun q => gives q.1 floats 9 q.2) = true := by decide +kernel
/-- Flags NX 1, UF 2, OF 4, DZ 8, NV 16. -/
theorem test_float_flags : ([(.faddS 9 1 1 0, 0), (.fdivS 9 1 3 0, 8), (.fdivS 9 2 3 0, 16), (.feqS 9 4 1, 16), (.fltS 9 4 1, 16), (.fcvtWS 9 5 0, 16),
    (.fcvtWS 9 8 0, 1), (.fmulS 9 7 8 0, 3), (.fsqrtS 9 6 0, 1), (.fsgnjS 9 4 1, 0), (.fminS 9 4 1, 16)] : List (Instr × BitVec 8)).all
      (fun q => ok q.1 floats fun t => t.cur.fcsr == q.2) = true := by decide +kernel
theorem witness_FloatFormsResult : ((7 : BitVec 3) = 7 → floats.cur.fcsr.toNat < 128) ∧ floats.misuse [1, 2] [9] = false ∧
    floats.misuse [1] [9] = false ∧ floats.misuse [1, 2, 3] [9] = false := by decide +kernel
/-- The largest subnormal of bf16, the least normal of f16, the largest f32. -/
theorem witness_RoundingIsExactOnTheFormat : bf16.decode 0x7F = .fin false 127 (-133) ∧ f16.decode 0x400 = .fin false 1024 (-24) ∧
    f32.decode 0x7F7FFFFF = .fin false 16777215 104 := by decide +kernel
theorem witness_RegisterUnitsFrame : ints.misuse [1, 2] [9] = false ∧ ints.misuse [1] [9] = false ∧ ints.misuse [9] [9] = false ∧
    ok (.add 9 1 2) ints (fun t => t.cur.regAt 10 == 0) = true := by decide +kernel
/-- q0 (x5) inbound from the east, q2 (x7) outbound to the east, on a team of cores 0 and 1. -/
def queued (w : List QWord) : State :=
  run (fun c => { c with inq := [(1, w)] }) (fun c => { c with qcfg := 0x0909 })
    fun s => { s with teams := [(1, { Team.empty with phase := .running, cores := [0, 1] })] }
/-- HINTs are no-ops (R139): with x0 as destination, and RV64C's zero shift amounts. -/
theorem test_hints : ([.add 0 1 2, .addi 0 1 5, .lui 0 1, .cLi 0 1, .cSlli 9 0] : List Instr).all Instr.hint = true ∧
    ([.add 9 1 2, .addi 9 1 5, .lui 9 1, .cLi 9 1, .cSlli 9 1, .beq 0 0 1] : List Instr).any Instr.hint = false ∧
    ok (.add 0 5 1) (queued []) (fun t => t.cur.pc == 4 && t.here.flatch == []) = true := by decide +kernel
theorem witness_QueueMisuseTraps : (queued []).misuse [7, 1] [2] = true ∧ (queued []).misuse [1] [5] = true ∧ (queued []).misuse [7, 1] [] = true ∧
    (queued []).cur.fcsr.toNat < 128 := by decide +kernel
theorem test_queue_misuse : ok (.add 5 1 2) (queued []) (fun t => cause t == 0x0E) = true := by decide +kernel
/-- Its outbound queue is full. -/
def queuedFull : State := (queued [(false, 21, 0)]).onHere fun c => { c with outq := [(1, List.replicate 8 (false, 1, 0))] }
theorem witness_MappedRegistersPopAndPush_full : 8 ≤ (queuedFull.here.outbound 1).length ∧ queuedFull.misuse [5] [7] = false ∧
    ok (.addi 7 5 1) queuedFull (fun t => t.here.outbound 1 == queuedFull.here.outbound 1 && t.cur.heldPush == [(1, (false, 22, 0))] &&
      t.here.inbound 1 == []) = true := by decide +kernel
theorem witness_MappedRegistersPopAndPush : (queued [(false, 21, 0)]).cur.mapped 5 = some 1 ∧ (queued [(false, 21, 0)]).cur.mapped 7 = some 1 ∧
    (queued [(false, 21, 0)]).here.inbound 1 = (false, 21, 0) :: [] ∧ ((queued [(false, 21, 0)]).here.outbound 1).length < 8 ∧ banked 9 = false ∧
    ok (.add 7 5 5) (queued [(false, 21, 0)]) (fun t => t.here.outbound 1 == [(false, 42, 0)] && t.here.inbound 1 == []) = true := by decide +kernel

/-! ## Loads, stores, full/empty words, atomics (R149 to R152, R192 to R204) -/

/-- A team of cores 0 and 1; x1 an own word, x2 a word of core 1, x3 data, x8 and x9 pointers, x10 core 1's mailbox, x11 its registers. -/
def pair : State :=
  run id (regs [(1, spad 0x100), (2, 0xFFFFF00040000108), (3, 0x1122334455667788), (8, spad 0x200), (10, 0xFFFFF00060000000),
                (11, 0xFFFFF00050000000)])
    fun s => { s with teams := [(1, { Team.empty with phase := .running, cores := [0, 1] })],
                      cores := s.cores ++ [(1, { Core.reset with stop := false, cstate := 2, team := some 1 })],
                      mem := memPut [] (winKey 0 0 0x100) [0x80, 0xFF, 1] }

theorem witness_LoadsIssue : pair.misuse [1] [9] = false ∧ lets (pair.access 0 (spad 0x100) 8 8 false [0, 1, 2] true false) = true ∧
    lets (pair.access 0 (spad 0x101) 1 1 false [0, 1] true false) = true ∧ pair.holdsBack (winKey 0 0 0x100) 8 = false ∧
    ok (.ld 9 1 0) pair (fun t => (t.reqs.map fun r => (r.addr, r.cls, r.op)) == [(winKey 0 0 0x100, 0, .load 8 true 9)] && t.cur.pend.getLsbD 9 &&
      t.cur.fe.getLsbD 9) = true ∧
    ok (.lbu 9 2 1) pair (fun t => (t.reqs.map fun r => (r.home, r.cls, r.op)) == [(.core 1, 1, .load 1 false 9)] && !t.cur.fe.getLsbD 9) = true ∧
    ok (.cLdsp 9 1) (withRegs [(2, spad 0)]) (fun t => (t.reqs.map (·.addr)) == [winKey 0 0 8]) = true := by decide +kernel
theorem witness_StoresIssue : pair.misuse [1, 3] [] = false ∧ lets (pair.access 0 (spad 0x100) 8 8 true [0, 1, 2, 4] true false) = true ∧
    pair.access 0 0xFFFFF00060000000 8 8 true [0, 1, 2, 4] true false =
      .ok { key := winKey 1 4 0, home := .core 1, slot := 0, stream := false, write := true } 4 false ∧
    ok (.sh 3 1 2) pair (fun t => (t.reqs.map fun r => (r.addr, r.cls, r.op)) == [(winKey 0 0 0x102, 0, .store [0x88, 0x77])]) = true ∧
    ok (.sd 3 10 0) pair (fun t => (t.reqs.map (·.op)) == [.mail 0x1122334455667788]) = true ∧
    ok (.cSw 1 0 1) pair (fun t => (t.reqs.map (·.addr)) == [winKey 0 0 0x204]) = true := by decide +kernel
/-- A read-only global page: a translation of the cluster's TLB without its write bit. -/
def readOnly : State :=
  run id (regs [(1, 0x10008), (2, 0x20008), (3, spad 1), (4, 0x2000000000000), (5, 0xFFFFF00040000000)])
    fun s => { s with clusters := [(0, { Cluster.reset with tlb := [{ vf := 0, level := 3, page := 1, entry := 0x10003 }] })],
                      parts := [(0, 0x800000000001080000#64 ||| 0x10800)] }
theorem witness_AccessCausesInOrder : readOnly.misuse [3] [9] = false ∧ (spad 1).toNat % 2 ≠ 0 ∧ classify 0 0x2000000000000 = .none ∧
    classify 0 0xFFFFF00040000000 = .window 1 0 0 ∧ 1 ∉ (readOnly.teamOf 0).cores ∧ classify 0 0x20008 = .global 0x20008 ∧
    readOnly.translate 0 0 0x20008 = none ∧ ((readOnly.translate 0 0 0x10008).map (·.write)) = some false ∧
    ok (.lh 9 3 0) readOnly (fun t => cause t == 3 && value t == spad 1) = true ∧
    ok (.ld 9 4 0) readOnly (fun t => cause t == 4) = true ∧
    ok (.ld 9 5 0) readOnly (fun t => cause t == 4) = true ∧
    ok (.ld 9 2 0) readOnly (fun t => t.cur.st == .walk && (t.walks.map (·.va)) == [0x20008]) = true ∧
    ok (.sd 9 1 0) readOnly (fun t => cause t == 6) = true ∧
    ok (.ld 9 1 0) readOnly (fun t => t.reqs.length == 1) = true := by decide +kernel
theorem witness_FullEmptyIssue : pair.misuse [1] [9] = false ∧ lets (pair.access 0 (spad 0x100) 8 8 false [0] false false) = true ∧
    pair.misuse [2, 3] [] = false ∧ lets (pair.access 0 0xFFFFF00040000108 8 8 true [0] false false) = true ∧
    classify 0 0xFFFFF00040000108 = .window 1 0 0x108 ∧ pair.pending 1 1 1 1 = false ∧
    ok (.ldc 9 1) pair (fun t => !t.cur.fe.getLsbD 9 && t.cur.acq == 1) = true ∧
    ok (.ldp 9 2) pair (fun t => !t.cur.fe.getLsbD 9 && t.cur.acq == 0) = true ∧
    ok (.stf 2 3) pair (fun t => (t.reqs.map fun r => (r.cls, r.op)) == [(1, .stf 0x1122334455667788)]) = true ∧
    ok (.sete 1) pair (fun t => (t.reqs.map (·.op)) == [.sete]) = true ∧ ok (.fest 9 1) pair (fun t => (t.reqs.map (·.op)) == [.fest 9]) = true := by
  decide +kernel
theorem witness_AtomicsIssue : pair.misuse [1, 3, 9] [9] = false ∧ lets (pair.access 0 (spad 0x100) 4 4 true [0] true false) = true ∧
    lets (pair.access 0 (spad 0x100) 8 8 true [0] true false) = true ∧ pair.holdsBack (winKey 0 0 0x100) 8 = false ∧
    ok (.acas 1 3 9 1 3) pair (fun t => (t.reqs.map (·.op)) == [.amo 9 8 9 0x1122334455667788 0]) = true ∧
    ok (.afaddb 0 9 1 3) pair (fun t => (t.reqs.map (·.op)) == [.amo 11 4 9 0x1122334455667788 0] && !t.cur.fe.getLsbD 9) = true := by decide +kernel

/-! ## Fences (R86 to R88, R198, R199) -/

/-- A request of the thread: an ordered store to core 1, not performed. -/
def oneStore (cls : Nat) : Req :=
  { id := 1, uid := 1, cls := cls, scope := 0, counted := true, born := 0, came := 0, core := 0, ctx := 0, home := .core 1, addr := winKey 1 0 0x108, va := 0xFFFFF00040000108, upc := 0, fam := none,
    slot := 0, stream := false, st := 0, arr := 0, acq := 0, noFill := false, begun := false, team := some 1, tries := 0, bad := false, rtries := 0, rbad := false, op := .store [7] }
def storing (cls : Nat) : State := { pair with reqs := [oneStore cls], nextReq := 2 }
theorem witness_FencesWaitThenRetire : pair.here.level = 3 ∧ pair.pending 1 1 0 1 = false ∧ pair.pending 1 2 4 1 = false ∧
    (storing 1).pending 1 1 1 2 = true ∧ ok (.fenceO 1) (storing 1) (· == storing 1) = true ∧ ok (.fenceAll 1) (storing 1) (· == storing 1) = true ∧
    ok (.fenceO 1) (storing 2) (fun t => t.cur.pc == 4) = true ∧ ok (.fenceA 1) (storing 2) (· == storing 2) = true ∧
    ok (.fenceX 2) (storing 1) (fun t => t.cur.xfence == [(1, 2, 2)]) = true := by decide +kernel
/-- The view of core 0 holds the line 2 of physical memory under virtual line 2. -/
def viewing : State := run (fun c => { c with l1 := [(2, { va := 2, bytes := List.replicate 128 7, poison := [] })] })
  (regs [(1, 0x100), (3, 0x80), (4, spad 0x100)]) id
theorem witness_AcquireReleaseAndLines : viewing.here.level = 3 ∧ viewing.misuse [4] [9] = false ∧
    lets (viewing.access 0 (spad 0x100) 8 8 false [0, 1, 2] true false) = true ∧ viewing.misuse [4, 3] [] = false ∧
    lets (viewing.access 0 (spad 0x100) 8 8 true [0, 1, 2, 4] true false) = true ∧ viewing.pending 1 2 1 1 = false ∧
    viewing.holdsBack (winKey 0 0 0x100) 8 = false ∧
    ok (.ldaq 9 4 1) viewing (fun t => t.cur.acq == 1 && (t.reqs.map (·.acq)) == [2]) = true ∧
    ok (.strl 4 3 1) viewing (fun t => (t.reqs.map (·.op)) == [.store [0x80, 0, 0, 0, 0, 0, 0, 0]]) = true ∧
    ok (.cinv 1 3) viewing (fun t => t.here.l1 == []) = true ∧ ok (.cinv 3 3) viewing (fun t => t.here.l1.length == 1) = true ∧
    ok (.cinv 3 0) viewing (fun t => t.here.l1 == []) = true ∧ viewing.misuse [4] [] = false := by decide +kernel
/-- A family of 8 members with a linked value, 3 of them running. -/
def memberFam (mig : Bool) : Fam :=
  { Fam.empty with live := true, uid := 1, next := 4, running := [(3, 0, 0, 1)], desc := { Desc.empty with mig := mig, count := 8, links := 1 } }
/-- A member of a family that may migrate, on core 0 of a team of cores 0 and 1 of one cluster. -/
def member (mig : Bool) : State :=
  run id (fun c => { regs [(2, 0xFFFFF00040000108)] c with kind := 1, member := 3, fam := some { core := 0, ctx := 0, entry := 0 } })
    fun s => { s with fams := [(0, memberFam mig)],
                      teams := [(1, { Team.empty with phase := .running, cores := [0, 1] })],
                      cores := s.cores ++ [(1, { Core.reset with stop := false, cstate := 2, team := some 1 })] }
theorem witness_MigratingLoad : (member true).misuse [2] [9] = false ∧
    lets ((member true).access 0 0xFFFFF00040000108 8 8 false [0, 1, 2] true false) = true ∧
    (placeOf ((member true).access 0 0xFFFFF00040000108 8 8 false [0, 1, 2] true false)).home = .core 1 ∧
    (member false).migrates 9 1 0 = none ∧ ((member true).migrates 9 1 0).isSome = true ∧ (member true).pending 1 2 1 1 = false ∧
    (member true).holdsBack (winKey 1 0 0x108) 8 = false ∧
    ok (.ldmig 9 2) (member true) (fun t => (t.migs.map fun m => (m.toCore, m.reg, m.addr)) == [(1, 9, winKey 1 0 0x108)] && t.cur.uid == 0) = true ∧
    ok (.ldmig 9 2) (member false) (fun t => t.reqs.length == 1 && t.cur.uid == 1) = true := by decide +kernel
/-- Two lines of one slice at 0x10000 and 0x10080 under a block at 0x400 of the own scratchpad; the second takes one word. -/
def lineBlock (commit : Bool) : State :=
  run id (regs [(1, spad 0x400)]) fun s => { s with
    clusters := [(0, { Cluster.reset with tlb := [{ vf := 0, level := 3, page := 1, entry := 0x10007 }] })],
    parts := [(0, 0xA000000000010800)],
    mem := memPut [] (winKey 0 0 0x400) (leBytes 8 2 ++ leBytes 8 0x10000 ++ leBytes 8 0x10080 ++ leBytes 16 0 ++
      leBytes 8 (if commit then 0x80000000 else 0) ++ leBytes 16 0 ++ List.replicate 128 1 ++ List.replicate 128 9) }
theorem witness_LineBlocksIssue : ([false, true].all fun c =>
    let s := lineBlock c
    let key := winKey 0 0 0x400
    !s.misuse [1] [9] && decide ((spad 0x400).toNat % 64 = 0) && classify 0 (spad 0x400) == .window 0 0 0x400 && !s.spadWaits key 64 &&
      (!c || !s.spadWaits (key + 64) 256) && !s.blockBad key c && decide ((s.dword key 0).toNat % 8 = 2) &&
      (let ps := (List.range 2).map fun k => s.translate 0 (s.teamOf 0).vf (s.dword key (k + 1)).toNat
       ps.all fun p => p.any fun q => q.home == .slice 0 0 && q.slot == 0 && q.write && !s.poolHolds 1 q.key 128) &&
      ok (if c then .scln 9 1 else .lrln 9 1) s (fun t => (t.reqs.map fun r => (r.home, r.cls)) == [(.slice 0 0, 1)] &&
        (t.reqs.all fun r => match r.op with
          | .lrln d b ls _ => !c && d == 9 && b == key && ls.length == 2
          | .scln _ u _ _ ws => c && !u && (ws.map (·.2.1)) == [0x0909090909090909]
          | _ => false))) = true := by decide +kernel

/-! ## Homes (R66, R67, R78 to R83, R195, R196, R203, R204) -/

/-- A request of the thread that has arrived at core 0's word 0x100. -/
def arrived (op : ReqOp) : Req :=
  { oneStore 0 with home := .core 0, addr := winKey 0 0 0x100, va := spad 0x100, st := 1, arr := 1, op := op }
/-- The word holds 0xFFFFFFFF80000001, is full or empty; one more request may stand on its wait list. -/
def atHome (op : ReqOp) (full : Bool) (w : List Req) : State :=
  run (fun c => { c with empties := if full then [] else [0x20] }) id fun s => { s with
    cycle := 1, reqs := [arrived op] ++ w, nextReq := 3, arrivals := 2, mem := memPut [] (winKey 0 0 0x100) (leBytes 8 0xFFFFFFFF80000001) }
/-- The request's home may perform it now, and memory is canonical. -/
def performable (s : State) (op : ReqOp) : Bool :=
  memWf s.mem && s.req 1 == some (arrived op) && !s.behind (arrived op) && s.turnOf (arrived op) && !s.refused (arrived op) && !s.meetsOwned (arrived op) 0
theorem witness_HomePerformsLoadsAndStores : performable (atHome (.store [1, 2]) true []) (.store [1, 2]) = true ∧
    performable (atHome (.load 4 true 9) true []) (.load 4 true 9) = true ∧ winKey 0 0 0x100 / 2 ^ 27 % 8 < 2 ∧
    ok (.homePerform (.core 0) 1 0) (atHome (.store [1, 2]) true []) (fun t => t.dword (winKey 0 0 0x100) 0 == 0xFFFFFFFF80000201 && t.reqs == []) = true ∧
    ok (.homePerform (.core 0) 1 0) (atHome (.load 4 true 9) true []) (fun t => (t.fills.map fun f => (f.reg, f.val)) == [(9, -0x7FFFFFFF)]) = true ∧
    ok (.homePerform (.core 0) 1 0) (atHome (.load 2 false 9) true []) (fun t => (t.fills.map (·.val)) == [1]) = true := by decide +kernel
/-- The same request at slice 0 of partition 0, a stream access of the line at 0x10000, where the word holds the same, or at the host's page, whose
bytes are the host's (log 4); poisoned or not. -/
def elsewhere (h : Home) (op : ReqOp) : Req := { arrived op with cls := 1, home := h, addr := placed h, va := 0x10000, stream := true }
where placed (h : Home) : Nat := if h = .host then hostBase + 0x10000 else partKey 0 0x10000
def atOther (h : Home) (op : ReqOp) (bad : Bool) : State :=
  run id id fun s => { s with
    cycle := 1, reqs := [elsewhere h op], nextReq := 3, arrivals := 2, parts := [(0, 0xA000000000010800)],
    mem := if h = .host then [] else memPut [] (partKey 0 0x10000) (leBytes 8 0xFFFFFFFF80000001), poison := if bad then [elsewhere.placed h / 8] else [] }
def otherReady (h : Home) (op : ReqOp) : Bool :=
  let s := atOther h op false
  let r := elsewhere h op
  memWf s.mem && s.req 1 == some r && !s.behind r && s.turnOf r && !s.refused r && !s.meetsOwned r 0 && s.named 0 (partKey 0 0x10000) && s.l2 == [] && !s.poisonedAny r.addr 8
theorem witness_homes : ([.slice 0 0, .host] : List Home).all (fun h =>
    ([.store [1, 2], .load 4 true 9, .amo 10 4 9 0x3F800000 0, .amo 11 4 9 0x3F803F80 0, .amo 0 8 9 1 0] : List ReqOp).all (otherReady h) &&
    ok (.homePerform h 1 0) (atOther h (.load 4 true 9) true) (fun t => (t.fills.map fun f => (f.err, f.addr)) == [(0x0F, 0x10000)])) = true := by decide +kernel
theorem test_slice_home :
    ok (.homePerform (.slice 0 0) 1 0) (atOther (.slice 0 0) (.store [1, 2]) false) (fun t => memNat t.mem (partKey 0 0x10000) 8 == 0xFFFFFFFF80000201 && t.reqs == []) = true ∧
    ok (.homePerform (.slice 0 0) 1 0) (atOther (.slice 0 0) (.load 4 true 9) false) (fun t => (t.fills.map fun f => (f.reg, f.val, f.err)) == [(9, -0x7FFFFFFF, 0)]) = true ∧
    ok (.homePerform (.slice 0 0) 1 0) (atOther (.slice 0 0) (.amo 0 8 9 1 0) false) (fun t => memNat t.mem (partKey 0 0x10000) 8 == 0xFFFFFFFF80000002) = true ∧
    ok (.homePerform (.slice 0 0) 1 0) (atOther (.slice 0 0) (.amo 0 8 9 1 0) true) (fun t => (t.fills.map fun f => (f.err, f.addr)) == [(0x0F, 0x10000)] &&
      memNat t.mem (partKey 0 0x10000) 8 == 0xFFFFFFFF80000001) = true := by decide +kernel
/-- AFADD and AFADDB (R203): −2^-149 + 1.0 = 1.0; of the halves 0x8000 and 0x0001 with 0x3F80 each is 1.0. -/
theorem test_float_atomics : ok (.homePerform (.core 0) 1 0) (atHome (.amo 10 4 9 0x3F800000 0) true []) (fun t => memNat t.mem (winKey 0 0 0x100) 4 == 0x3F800000) = true ∧
    ok (.homePerform (.core 0) 1 0) (atHome (.amo 11 4 9 0x3F803F80 0) true []) (fun t => memNat t.mem (winKey 0 0 0x100) 4 == 0x3F803F80) = true := by decide +kernel
/-- LRLN of the lines at 0x10000 and 0x10080, stream accesses, to a block at 0x400 of core 0, and SCLN of their first words; the thread may
hold the reservation of both. -/
def lineOps (held uncond : Bool) (commit : Bool) : State :=
  let ls := [partKey 0 0x10000, partKey 0 0x10080]
  let s := atOther (.slice 0 0) (if commit then .scln 9 uncond ls ls [(partKey 0 0x10000, 5, false), (partKey 0 0x10080, 6, true)]
    else .lrln 9 (winKey 0 0 0x400) ls ls) false
  { s with resv := if held then [{ slice := (0, 0), uid := 1, lines := ls }] else [] }
theorem witness_LineBlocksIssue_homes : ([(false, false, false), (true, false, true), (false, true, true), (false, false, true)] : List (Bool × Bool × Bool)).all (fun q =>
      let s := lineOps q.1 q.2.1 q.2.2
      s.reqs.all fun r => memWf s.mem && s.req 1 == some r && !s.behind r && s.turnOf r && !s.refused r && !s.meetsOwned r 0 && s.l2 == [] &&
        (List.range 32).all fun i => s.named 0 (partKey 0 (0x10000 + 8 * i))) = true ∧
    ((lineOps false false false).holder 1).isSome = true ∧
    ok (.homePerform (.slice 0 0) 1 0) (lineOps false false false) (fun t => (t.resv.map fun v => (v.uid, v.lines.length)) == [(1, 2)] &&
      (t.reqs.map fun r => (r.home, match r.op with | .block d n ws => (d, n, ws.length, ws.head?) | _ => (0, 0, 0, none))) ==
        [(.core 0, 9, 2, 32, some (winKey 0 0 0x440, 0xFFFFFFFF80000001, false))]) = true ∧
    ok (.homePerform (.slice 0 0) 1 0) (lineOps true false true) (fun t => (t.fills.map (·.val)) == [0] && memNat t.mem (partKey 0 0x10000) 8 == 5 &&
      t.poisoned (partKey 0 0x10080) && t.resv == []) = true ∧
    ok (.homePerform (.slice 0 0) 1 0) (lineOps false true true) (fun t => (t.fills.map (·.val)) == [0]) = true ∧
    ok (.homePerform (.slice 0 0) 1 0) (lineOps false false true) (fun t => (t.fills.map (·.val)) == [1] && memNat t.mem (partKey 0 0x10000) 8 == 0xFFFFFFFF80000001) = true := by
  decide +kernel
/-- An LDC of another thread on the word's wait list. -/
def waiting : Req := { arrived (.ldc 12) with id := 2, uid := 5, st := 2, arr := 2 }
theorem witness_FullEmptyAtHome : ((([(.ldc 9, true), (.ldc 9, false), (.ldp 9, true), (.ldp 9, false), (.stf 77, false), (.sete, true),
      (.fest 9, true)] : List (ReqOp × Bool)).all fun q => performable (atHome q.1 q.2 []) q.1 && (atHome q.1 q.2 []).isFull (winKey 0 0 0x100) == q.2) = true) ∧
    (atHome (.stf 77) false [waiting]).waiters (winKey 0 0 0x100) = [waiting] ∧ performable (atHome (.stf 77) false [waiting]) (.stf 77) = true ∧
    (let go := fun q f w p => ok (.homePerform (.core 0) 1 0) (atHome q f w) p
     go (.ldc 9) true [] (fun t => !t.isFull (winKey 0 0 0x100) && t.fills.length == 1) &&
     go (.ldc 9) false [] (fun t => (t.reqs.map (·.st)) == [2] && t.fills == []) && go (.ldp 9) true [] (fun t => t.isFull (winKey 0 0 0x100)) &&
     go (.stf 77) false [] (fun t => t.isFull (winKey 0 0 0x100) && t.dword (winKey 0 0 0x100) 0 == 77) &&
     go (.stf 77) false [waiting] (fun t => !t.isFull (winKey 0 0 0x100) && (t.fills.map fun f => (f.uid, f.reg, f.val)) == [(5, 12, 77)]) &&
     go (.sete) true [] (fun t => !t.isFull (winKey 0 0 0x100)) && go (.fest 9) true [] (fun t => (t.fills.map (·.val)) == [1])) = true := by
  decide +kernel
/-- Behind two LDPs and before another LDC it is the first LDC: STF serves up to it; an LDP comes behind them. -/
def queueing : List Req := [{ waiting with id := 3, uid := 6, op := .ldp 13 }, { waiting with id := 4, uid := 7, arr := 3, op := .ldp 14 }, { waiting with arr := 4 },
  { waiting with id := 5, uid := 8, arr := 5 }]
theorem witness_FullEmptyAtHome_several : (atHome (.stf 77) false queueing).waiters (winKey 0 0 0x100) = queueing ∧
    performable (atHome (.stf 77) false queueing) (.stf 77) = true ∧ performable (atHome (.ldp 9) true queueing) (.ldp 9) = true ∧
    ok (.homePerform (.core 0) 1 0) (atHome (.stf 77) false queueing) (fun t => !t.isFull (winKey 0 0 0x100) &&
      (t.fills.map fun f => (f.uid, f.reg, f.val)) == [(6, 13, 77), (7, 14, 77), (5, 12, 77)] && (t.reqs.map (·.id)) == [5]) = true ∧
    ok (.homePerform (.core 0) 1 0) (atHome (.stf 77) false (queueing.take 2)) (fun t => t.isFull (winKey 0 0 0x100) && t.fills.length == 2 && t.reqs == []) = true ∧
    ok (.homePerform (.core 0) 1 0) (atHome (.ldp 9) true queueing) (fun t => t.fills == [] && (t.reqs.map (·.st)) == [2, 2, 2, 2, 2]) = true := by decide +kernel
theorem witness_AtomicsAtHome : performable (atHome (.amo 9 8 9 5 (-0x7FFFFFFF)) true []) (.amo 9 8 9 5 (-0x7FFFFFFF)) = true ∧
    performable (atHome (.amo 4 4 9 5 0) true []) (.amo 4 4 9 5 0) = true ∧ winKey 0 0 0x100 / 2 ^ 27 % 8 = 0 ∧
    (atHome (.amo 4 4 9 5 0) true []).poisonedAny (winKey 0 0 0x100) 8 = false ∧
    (([(.amo 0 4 9 0x7FFFFFFF 0, 0xFFFFFFFF00000000), (.amo 0 8 9 0x7FFFFFFF 0, 0), (.amo 4 4 9 5 0, 0xFFFFFFFF80000001), (.amo 5 4 9 5 0, 0xFFFFFFFF00000005),
       (.amo 6 8 9 5 0, 5), (.amo 7 4 9 5 0, 0xFFFFFFFF80000001), (.amo 8 8 9 5 0, 5), (.amo 9 8 9 5 (-0x7FFFFFFF), 5),
       (.amo 9 8 9 5 0, 0xFFFFFFFF80000001), (.amo 1 4 9 3 0, 0xFFFFFFFF00000001), (.amo 2 4 9 2 0, 0xFFFFFFFF80000003),
       (.amo 3 4 9 3 0, 0xFFFFFFFF80000002)] : List (ReqOp × Word)).all fun q =>
      ok (.homePerform (.core 0) 1 0) (atHome q.1 true []) fun t => t.dword (winKey 0 0 0x100) 0 == q.2 &&
        (t.fills.map (·.val)) == [match q.1 with | .amo _ 4 _ _ _ => -0x7FFFFFFF | _ => 0xFFFFFFFF80000001]) = true := by decide +kernel
/-- A load of a global line the view holds, at the view. -/
def atView : Req := { oneStore 1 with home := .slice 0 0, addr := 0x104, va := 0x104, st := 4, op := .load 4 false 9 }
theorem witness_RequestsReachTheirHomes : (arrived (.ldc 9)).born < 5 ∧
    ({ pair with reqs := [{ arrived (.ldc 9) with st := 0 }] }.reqs.find? fun q => q.cls == 0 && q.core == 0 && q.st == 0) =
      some { arrived (.ldc 9) with st := 0 } ∧
    (storing 1).req 1 = some (oneStore 1) ∧ (storing 1).laneHead (oneStore 1) = true ∧ (storing 1).mailFull (oneStore 1) = false ∧
    (storing 2).req 1 = some (oneStore 2) ∧ ({ viewing with reqs := [atView] }.reqs.find? fun q => q.core == 0 && q.st == 4) = some atView ∧
    ((viewing.core 0).l1.find? fun e => e.1 == atView.addr / 128) = some (2, { va := 2, bytes := List.replicate 128 7, poison := [] }) ∧
    atView.va.toNat / 128 = 2 ∧
    ok (.localPortPass 0) { pair with cycle := 5, reqs := [{ arrived (.ldc 9) with st := 0 }] } (fun t => (t.reqs.map fun r => (r.st, r.came)) == [(1, 5)]) = true ∧
    ok (.localPortPass 0) { pair with reqs := [{ arrived (.ldc 9) with st := 0 }] } (fun t => (t.reqs.map (·.st)) == [0]) = true ∧
    ok (.laneDeliver 1) (storing 1) (fun t => (t.reqs.map (·.st)) == [1] && (t.core 1).recv == 1) = true ∧ ok (.poolDeliver 0 1) (storing 2) (fun t => (t.reqs.map (·.st)) == [1]) = true ∧
    ok (.l1ViewServe 0) { viewing with reqs := [atView] } (fun t => (t.fills.map (·.val)) == [0x07070707] && t.reqs == []) = true := by decide +kernel
/-- A value on its way to register r of the thread. -/
def filling (r : Nat) : State :=
  { base with fills := [{ uid := 1, reg := r, val := 99, acq := 0, counted := false, err := 0, addr := 0, upc := 0, src := none, tries := 0, link := none }] }
where base : State := run id (fun c => { c with fe := 0x1FF, pend := 0x200 }) id
theorem witness_RegisterFillLands : (filling 9).keptBy 1 = none ∧ { filling 9 with cores := [] }.whereIs 1 = none ∧
    { filling 9 with cores := [] }.moving 1 = none ∧ ok (.registerFill 0) { filling 9 with cores := [] } (fun t => t.fills == []) = true ∧
    (filling 9).fillFirst 0 = true ∧ (filling 47).fillFirst 0 = true ∧ (filling 9).whereIs 1 = some (0, 0) ∧
    ok (.registerFill 0) (filling 9) (fun t => t.cur.regAt 9 == 99 && t.cur.fe.getLsbD 9 && !t.cur.pend.getLsbD 9 && t.fills == []) = true := by
  decide +kernel

/-! ## Control registers, handlers, services (R49, R50, R164 to R168, R186 to R190, R311 to R319) -/

theorem witness_CsrFormsResult : (0x003 ∈ [0x001, 0x002, 0x003, 0x800, 0x801, 0x802, 0x803, 0x804, 0x806, 0x807, 0x808]) ∧
    ints.misuse [1] [9] = false ∧ ints.misuse [] [9] = false ∧ ints.cur.mapped 9 = none ∧
    ok (.csrrw 9 1 0x003) ints (fun t => t.cur.fcsr == 0xF9 && t.cur.reg 9 == 0) = true ∧
    ok (.csrrs 9 2 0x001) ints (fun t => t.cur.fcsr == 2) = true ∧ ok (.csrrwi 9 31 0x002) ints (fun t => t.cur.fcsr == 0xE0) = true ∧
    ok (.csrrw 9 1 0x804) ints (fun t => t.cur.istk == 0x3F801) = true ∧ ok (.csrrs 9 0 0xC00) { ints with cycle := 77 } (fun t => t.cur.reg 9 == 77) = true ∧
    (([5, 6, 7, 8] : List Nat).all (fun r => !(queued []).cur.queuePends r) = true ∧ (∀ q < 4, qField 0x9#16 q = qField (queued []).cur.qcfg q ∨ qField 0x9#16 q < 8)) ∧
    ((queued []).onCur fun c => { c with pend := 0x20 }).cur.queuePends 5 = true ∧
    ok (.csrrw 0 9 0x805) ((queued []).onCur fun c => { c with pend := 0x20 }) (fun t => t.cur.pc == 0 && t.cur.qcfg == 0x909) = true ∧
    ok (.csrrw 0 9 0x805) ((queued []).onCur (regs [(9, 9)])) (fun t => t.cur.qcfg == 9 && t.cur.regAt 7 == 0) = true ∧
    ok (.csrrw 9 1 0xC00) ints (fun t => cause t == 1) = true ∧ ok (.csrrc 9 4 0x802) ints (fun t => t.cur.hcause == 0) = true ∧
    ok (.csrrsi 9 0 0xCC0) ints (fun t => t.cur.reg 9 == 0) = true ∧ ok (.csrrci 9 3 0x003) ints (fun t => t.cur.fcsr == 0) = true := by
  decide +kernel
/-- A row load of the own scratchpad under way. -/
def loadingRow : State :=
  { ints with reqs := [{ oneStore 0 with home := .core 0, addr := winKey 0 0 0x100, va := spad 0x100, op := .rowLd 3 35 [] 0 none }] }
theorem witness_BankFormatWrite : ints.misuse [1] [0] = false ∧ ints.rowsWait = false ∧
    loadingRow.rowsWait = true ∧ ok (.csrrw 0 1 0x809) loadingRow (· == loadingRow) = true ∧
    ok (.csrrw 0 5 0x809) (withRegs [(5, 0x98000001)]) (fun t => t.here.bfmt == 0x08000001) = true := by decide +kernel
/-- A core whose image has an emulation handler at 0x40, and one inside it. -/
def emulating (inside : Bool) : State :=
  run (fun c => { c with hoff := 0x40 }) (fun c => { regs [(5, 11)] c with inEm := inside, emepc := 0x20 }) id
theorem witness_UndefinedUnitsResult : (emulating false).cur.inEm = false ∧ (emulating false).here.emvec ≠ 0 ∧ (emulating true).cur.inEm = true ∧
    ints.here.emvec = 0 ∧ 
    ok (.undefinedUnit 1 0x900C) (emulating false) (fun t => t.cur.pc == 0x40 && t.cur.reg 5 == 1 && t.cur.reg 6 == 0x900C && t.cur.reg 8 == 0 && t.raised == [] &&
      t.cur.regAt 5 == 11 && t.cur.emval == 0x900C && t.cur.inEm) = true ∧
    ok (.undefinedUnit 2 0x900C) (emulating true) (fun t => cause t == 0x12 && t.latchRaised.here.stop && t.cur.st == .ending) = true ∧
    ok (.undefinedUnit 2 0x900C) ints (fun t => cause t == 2 && value t == 0x900C) = true := by decide +kernel
/-- A thread in its light handler, with two threads on the core of which the other holds the mailbox. -/
def handling (em lh : Bool) : State :=
  run (fun c => { c with ctxs := c.ctxs ++ [(1, { Ctx.empty with uid := 9, mben := true })] })
    (fun c => { regs [(1, 0x81)] c with inEm := em, emepc := 0x20, inLh := lh, hepc := 0x10 }) id
theorem witness_HandlerControlResult : (handling true false).cur.inEm = true ∧ (handling false true).cur.inEm = false ∧ (handling false true).cur.inLh = true ∧
    (handling false false).cur.inLh = false ∧ (handling false false).misuse [1] [] = false ∧ (∀ x ∈ ints.here.ctxs, x.1 = ints.iss.ctx ∨ x.2.mben = false) ∧
    (∃ x ∈ (handling false false).here.ctxs, x.1 ≠ (handling false false).iss.ctx ∧ x.2.mben = true) ∧
    ok .tret (handling true false) (fun t => t.cur.pc == 0x20 && !t.cur.inEm) = true ∧ ok .tret ints (fun t => cause t == 0x0E) = true ∧
    ok .hret (handling false true) (fun t => t.cur.pc == 0x10 && !t.cur.inLh) = true ∧ ok .hret (handling true true) (fun t => cause t == 0x0E) = true ∧
    ok (.hmask 1) ints (fun t => t.cur.hm) = true ∧ ok (.hset 1 1) (handling false false) (fun t => cause t == 0x0E) = true ∧
    ok (.hset 1 1) (withRegs [(1, 0x81)]) (fun t => t.cur.hvec == 0x80 && t.cur.mben) = true ∧ ok .wfi ints (fun t => t.cur.pc == 4) = true := by
  decide +kernel
/-- A thread parked in ECALL for a service, its next unit at 8. -/
def parked (a0 a1 a2 : Word) : State := run id (fun c => { regs [(10, a0), (11, a1), (12, a2)] c with st := .ecall, wnpc := 8 }) id
theorem witness_EcallAndServices : (withRegs [(10, 3)]).cur.reg 10 = 3 ∧ (parked 0 0 0).up = true ∧ ((parked 0 0 0).ctxAt 0 0).uid ≠ 0 ∧
    ((parked 0 0 0).ctxAt 0 0).st = .ecall ∧ ((parked 0 0 0).ctxAt 0 0).sfuHeld = [] ∧ 256 < (((parked 1 0 257).ctxAt 0 0).reg 12).toNat ∧
    (((parked 2 4096 1).ctxAt 0 0).reg 11).toNat = 4096 ∧ (((parked 2 4095 1).ctxAt 0 0).reg 11).toNat = 4095 ∧
    ok .ecall (withRegs [(10, 3)]) (fun t => t.cur.st == .ecall && t.cur.wnpc == 4) = true ∧
    ok (.nop 0 0) (parked 0 0 0) (fun t => t.cur.st == .run && t.cur.pc == 8 && t.cur.reg 10 == 0) = true ∧
    ok (.nop 0 0) (parked 4 0 0) (fun t => t.cur.st == .run && t.cur.reg 10 == -1) = true ∧ 3 < (((parked 4 0 0).ctxAt 0 0).reg 10).toNat ∧
    ok (.debug 0 0) (parked 1 0 257) (fun t => t.cur.reg 10 == -1) = true ∧ ok (.signal 0 0) (parked 2 4096 1) (fun t => t.cur.reg 10 == -1) = true ∧
    ok (.signal 0 0) (parked 2 4095 5) (fun t => t.cur.reg 10 == 0 && (t.signal 0 4095).1 == 5) = true ∧
    ok (.time 0 0) (parked 3 0 0) (fun t => t.cur.reg 10 == 0) = true := by decide +kernel
/-- DEBUG of 8 bytes at a present page, with room on the VF's debug ring. -/
def debugging : State :=
  { parked 1 0x10000 8 with
    clusters := [(0, { Cluster.reset with tlb := [{ vf := 0, level := 3, page := 1, entry := 0x10027 }] })], parts := [(0, 0xA000000000010800)],
    vfs := [(0, { Vf.reset with dbg := { base := 0x1000, cfg := 0x8000000000000004, tail := 0, head := 0 } })] }
/-- The same with no room on the ring. -/
def cramped : State := { debugging with vfs := [(0, { Vf.reset with dbg := { base := 0x1000, cfg := 0, tail := 0, head := 0 } })] }
theorem witness_Debug : debugging.pending 1 2 4 1 = false ∧ missing (debugging.gathered 0 0 [] (pageStarts [(0x10000, 8, false)])) 0 (pageStarts [(0x10000, 8, false)]) = none ∧
    wordsOver 0x10000 8 = [0x10000] ∧ (debugging.translate 0 0 0x10000).any (fun p => p.slot == 0 && !debugging.poisoned p.key) = true ∧
    debugging.l2 = [] ∧ (debugging.vf 0).dbg.room 8 = true ∧ (cramped.vf 0).dbg.room 8 = false ∧ 0x10000 + 8 ≤ 2 ^ 49 ∧
    ok (.debug 0 0) debugging (fun t => (t.cur.debugRead.map (·.words)) == some [none]) = true ∧
    ok (.debug 0 0) (after (.debug 0 0) debugging) (fun t => (t.cur.debugRead.map (·.words)) == some [some (0, false)]) = true ∧
    ok (.debug 0 0) (after (.debug 0 0) (after (.debug 0 0) debugging)) (fun t => t.cur.reg 10 == 8) = true ∧
    ok (.debug 0 0) (after (.debug 0 0) (after (.debug 0 0) cramped)) (fun t => t.cur.reg 10 == 0) = true ∧
    ok (.debug 0 0) (after (.debug 0 0) (debugging.onCur (regs [(11, 0x10003), (12, 0)]))) (fun t => t.cur.reg 10 == 0) = true ∧
    { debugging with reqs := [oneStore 1] }.pending 1 2 4 9 = true ∧
    ok (.debug 0 0) { debugging with poison := [partKey 0 0x10000 / 8] } (fun t => cause t == 0 || cause t == 0x0F) = true := by decide +kernel
theorem witness_BreakpointResult : { ints with snapctl := 1, armed := true }.snapctl.getLsbD 0 = true ∧
    ok .ebreak { ints with snapctl := 1, armed := true, cycle := 9 } (fun t => cause t == 0x10 && t.armed && !t.snapEnd.armed &&
      (t.snapEnd.snap.map (·.cycle)) == some 9) = true ∧
    ok .cEbreak ints (fun t => cause t == 0x10 && t.snapEnd.snap == none) = true := by decide +kernel
/-- No queue mapped, on core 0 of a team of cores 0 and 1. -/
def unmapped : State := { queued [] with cores := ((queued []).onCur fun c => { c with qcfg := 0 }).cores }
theorem witness_QueueControlResult : peerOf 0 1 = some 1 ∧ 1 ∈ (unmapped.teamOf 0).cores ∧ unmapped.cur.isMapped 2 = false ∧
    unmapped.here.queueTaken 2 1 = false ∧ unmapped.cur.inLh = false ∧ peerOf 0 0 = none ∧ (queued []).cur.isMapped 2 = true ∧
    (queued []).misuse [1] [] = false ∧ banked 1 = false ∧ qField (queued []).cur.qcfg 2 % 4 = 1 ∧ ((queued []).here.outbound 1).length < 8 ∧
    unmapped.misuse [] [9] = false ∧
    ok (.qmap 2 1) unmapped (fun t => t.cur.qcfg == 0x0900) = true ∧ ok (.qmap 2 0) unmapped (fun t => cause t == 0x0E) = true ∧
    ok (.qunmap 2) (queued []) (fun t => t.cur.qcfg == 0x0009 && t.cur.regAt 7 == 0) = true ∧ ok (.qunmap 2) unmapped (fun t => cause t == 0x0E) = true ∧
    ok (.qctl 2 1) (queued []) (fun t => t.here.outbound 1 == [(true, 0, 0)]) = true ∧
    ok (.qstat 9 0) (queued [(true, 4, 0), (false, 5, 0)]) (fun t => t.cur.reg 9 == 2 + 256 + 512) = true ∧
    ok (.qstat 9 1) (queued []) (fun t => t.cur.reg 9 == 0) = true := by decide +kernel
/-- Core 0 holds n words for core 1, which holds m from it; a trigger waits in context 0. -/
def moving (n m : Nat) : State :=
  { run (fun c => { c with outq := [(1, (List.range n).map fun i => (false, BitVec.ofNat 64 i, 0))] })
      (fun c => { c with trig := [(2, 9, 1)], hvec := 0x30, pc := 0x14 }) id with
    cores := (run (fun c => { c with outq := [(1, (List.range n).map fun i => (false, BitVec.ofNat 64 i, 0))] })
      (fun c => { c with trig := [(2, 9, 1)], hvec := 0x30, pc := 0x14 }) id).cores ++
        [(1, { Core.reset with inq := [(3, List.replicate m (false, 7, 0))] })] }
/-- The thread holds a push behind the full queue. -/
def pushing : State := (moving 2 7).onCtx 0 0 fun c => { c with heldPush := [(1, (false, 5, 0))] }
theorem witness_QueueTransferAndLightEntry : peerOf 0 1 = some 1 ∧ ((moving 2 7).core 0).outbound 1 = (false, 0, 0) :: [(false, 1, 0)] ∧
    (((moving 2 7).core 1).inbound 3).length < 8 ∧ (∀ k ∈ ((moving 2 7).core 0).ctxs, k.2.heldPush = []) ∧ 8 ≤ (((moving 2 8).core 1).inbound 3).length ∧
    ((moving 2 7).ctxAt 0 0).trig = (2, 9, 1) :: [] ∧ ((moving 2 7).ctxAt 0 0).canLight = true ∧
    ok (.queueWordTransfer 0 1) (moving 2 7) (fun t => (t.core 0).outbound 1 == [(false, 1, 0)] && ((t.core 1).inbound 3).length == 8 && (t.core 1).recv == 1) = true ∧
    (pushing.ctxAt 0 0).heldPush = [(1, (false, 5, 0))] ∧ (∀ k ∈ (pushing.core 0).ctxs, k.1 ≠ 0 → k.2.heldPush = []) ∧
    ok (.queueWordTransfer 0 1) pushing (fun t => (t.core 0).outbound 1 == [(false, 1, 0), (false, 5, 0)] && (t.ctxAt 0 0).heldPush == []) = true ∧
    ok (.queueWordTransfer 0 1) (moving 2 8) (· == moving 2 8) = true ∧
    ok (.queueWordTransfer 0 1) ((moving 0 0).onCore 0 fun c => { c with outq := [(1, [(false, 3, 9)])] }) (fun t => (t.core 1).inbound 3 == [(false, 3, 9)]) = true ∧
    ok (.queueWordTransfer 0 1) ((moving 0 0).onCore 0 fun c => { c with outq := [(1, [(false, 3, 8)])] }) (fun t => (t.core 1).inbound 3 == [(false, 3, 0)]) = true ∧
    ok (.lightHandlerEntry 0 0) (moving 0 0) (fun t => t.cur.pc == 0x30 && t.cur.hepc == 0x14 && t.cur.reg 6 == 9 && t.cur.reg 5 == 2 && t.cur.trig == []) = true := by
  decide +kernel

/-! ## Mail, events, identity, barriers (R15, R46, R51, R179 to R185) -/

/-- Words in core 0's mailbox; x1 names core 1, x2 is the word sent. -/
def mail (w : List Word) (waits : Bool) (bad : Bool := false) : State :=
  run (fun c => { c with mbox := w.map (·, bad), mbwait := if waits then [(0, 1)] else [] })
    (fun c => { regs [(1, 0x10), (2, 55)] c with st := if waits then .mbrecv else .run, wdst := 9, fe := BitVec.ofNat 48 (0xFFFFFFFFFFFF - 0x200) })
    fun s => { s with teams := [(1, { Team.empty with phase := .running, cores := [0, 1] })] }
/-- The thread's enabled handler takes mail. -/
def handled : State := (mail [7] false).onCur fun c => { c with mben := true }
theorem witness_MailboxResult : (mail [] false).misuse [1, 2] [] = false ∧ ((mail [] false).rd 1).toNat / 16 % 2 ^ 13 ∈ ((mail [] false).teamOf 0).cores ∧
    (mail [] false).pending 1 1 1 1 = false ∧ (mail [3, 4] false).misuse [] [9] = false ∧ (mail [3, 4] false).here.mbwait = [] ∧
    (mail [3, 4] false).here.mbox = (3, false) :: [(4, false)] ∧ (mail [] false).here.mbox = [] ∧ (mail [3] false).here.mailOpen = (3, false) :: [] ∧
    (mail [] false).here.mailOpen = [] ∧ (mail [] false).here.mbox.length ≤ (mail [] false).here.mbwait.length ∧ (mail [3] false).here.mailHolder = none ∧
    (handled.core 0).mbox = (7, false) :: [] ∧ (handled.core 0).mbwait = [] ∧ (handled.core 0).mailHolder = some 0 ∧ (handled.teamOf 0).ending = false ∧
    ok (.mailboxDelivery 0) handled (fun t => t.cur.trig == [(3, 7, 1)] && t.here.mbox == []) = true ∧
    performable (atHome (.mail 5) true []) (.mail 5) = true ∧
    ok (.homePerform (.core 0) 1 0) (atHome (.mail 5) true []) (fun t => t.here.mbox == [(5, false)] && t.reqs == []) = true ∧
    ok (.homePerform (.core 0) 1 0) { atHome (.mail 5) true [] with reqs := [{ arrived (.mail 5) with bad := true }] } (fun t => t.here.mbox == [(5, true)]) = true ∧
    ((mail [3] true).core 0).mbwait = (0, 1) :: [] ∧ ((mail [3] true).ctxAt 0 0).wdst = 9 ∧
    ok (.mbsend 1 2) (mail [] false) (fun t => (t.reqs.map fun r => (r.home, r.op)) == [(.core 1, .mail 55)]) = true ∧
    ok (.mbrecv 9) (mail [3, 4] false) (fun t => t.cur.reg 9 == 3 && t.here.mbox == [(4, false)]) = true ∧
    ok (.mbrecv 9) (mail [] false) (fun t => t.cur.st == .mbrecv && t.here.mbwait == [(0, 1)] && t.cur.pc == 0) = true ∧
    ok (.mbpoll 9 3) (mail [] false) (fun t => !t.cur.guard 3 && t.cur.reg 9 == 0) = true ∧
    ok (.mbpoll 9 3) (mail [3] false) (fun t => t.cur.guard 3 && t.cur.reg 9 == 3) = true ∧
    ok (.mailboxDelivery 0) (mail [3] true) (fun t => t.cur.reg 9 == 3 && t.cur.st == .run && t.here.mbox == [] && t.cur.fe.getLsbD 9) = true ∧
    (mail [3] false true).here.mailOpen = (3, true) :: [] ∧ ((mail [3] true true).core 0).mbox = (3, true) :: [] ∧
    ok (.mbrecv 9) (mail [3, 4] false true) (fun t => cause t == 0x0F && t.cur.st == .ending) = true ∧
    ok (.mbpoll 9 3) (mail [3] false true) (fun t => cause t == 0x0F) = true ∧
    ok (.mailboxDelivery 0) (mail [3] true true) (fun t => cause t == 0x0F && t.cur.st == .ending) = true := by
  decide +kernel
/-- Line 15: held or not, waited for or not, and signalled. -/
def lines (held waits : Bool) : State :=
  run (fun c => { c with events := if held then 0x8000 else 0, sigq := [15] }) (fun c => { c with st := if waits then .wfe 15 else .run }) id
theorem witness_EventLinesResult : (lines false false).misuse [1] [] = false ∧ ((lines false false).rd 1).toNat / 16 % 2 ^ 13 ∈ ((lines false false).teamOf 0).cores ∧
    (lines true false).here.events.getLsbD 15 = true ∧ (lines false false).here.events.getLsbD 15 = false ∧ ((lines false true).core 0).sigq = 15 :: [] ∧
    (∀ k ∈ ((lines false false).core 0).ctxs, k.2.st ≠ .wfe 15) ∧ (∃ k ∈ ((lines false true).core 0).ctxs, k.2.st = .wfe 15) ∧
    ok (.evsig 1 15) (lines false false) (fun t => (t.reqs.map (·.op)) == [.event 15]) = true ∧
    ok (.wfe 15) (lines true false) (fun t => t.here.events == 0 && t.cur.pc == 4) = true ∧ ok (.wfe 15) (lines false false) (fun t => t.cur.st == .wfe 15) = true ∧
    ok (.eventSignalArrival 0) (lines false false) (fun t => t.here.events == 0x8000 && t.here.sigq == []) = true ∧
    ok (.eventSignalArrival 0) (lines false true) (fun t => t.here.events == 0 && t.cur.st == .run) = true := by decide +kernel
theorem witness_TselfResult : pair.misuse [] [9] = false ∧ 0 ∈ (pair.teamOf 0).cores ∧ (member true).cur.fam = some { core := 0, ctx := 0, entry := 0 } ∧
    pair.cur.fam = none ∧ gives (.tself 9 0) pair 9 0 = true ∧ gives (.tself 9 1) (member true) 9 0x300000001 = true ∧
    gives (.tself 9 2) (member true) 9 0x80000000 = true ∧ gives (.tself 9 5) pair 9 0x200000000 = true ∧ gives (.tself 9 6) pair 9 0 = true ∧
    ok (.tself 9 7) pair (fun t => cause t == 2) = true := by decide +kernel
/-- Barrier 0 of core 0 and team barrier 47 with these members and arrivals; the thread has marked a phase of each. -/
def barred (m a : List Nat) (marks : List (Nat × Nat)) (q : List BarItem := []) : State :=
  run (fun c => { c with bars := [(0, { members := m, arrived := a, phase := 5 })] }) (fun c => { c with marks := marks })
    fun s => { s with teams := [(1, { Team.empty with phase := .running, cores := [0], bars := [(47, { members := m, arrived := a, phase := 5 })] })], barq := q }
/-- An event of thread u on its way to barrier 0 of core 0. -/
def barItem (w : BarEvent) (u : Nat) : BarItem := { what := w, key := 64, core := 0, uid := u }
theorem witness_BarriersResult : (barred [1, 2] [] []).cur.bwait = none ∧ (barred [1, 2] [] []).barKey 0 1 0 = 64 ∧ (barred [1, 2] [] []).barKey 0 1 47 = 47 ∧
    (barred [1, 2] [] []).here.team ≠ none ∧ 1 ∉ ((barred [2] [] []).bar 0 64).members ∧ 1 ∈ ((barred [1, 2] [] []).bar 0 47).members ∧
    ((barred [1, 2] [] []).bar 0 64).arrived = [] ∧ (barred [1, 2] [] []).pending 1 1 0 1 = false ∧ ((barred [1] [] []).bar 0 64).members = [1] ∧
    (barred [1, 2] [1] [(64, 5)]).cur.marks.find? (·.1 == 64) = some (64, 5) ∧ (barred [1, 2] [] [(64, 4)]).cur.marks.find? (·.1 == 64) = some (64, 4) ∧
    barItem .arrive 2 ∈ (barred [1, 2] [1] [] [barItem .arrive 2]).barq ∧
    ok (.bjoin 0) (barred [2] [] []) (fun t => t.barq == [barItem .join 1]) = true ∧
    ok (.bleave 0) (barred [1, 2] [] []) (fun t => t.barq == [barItem .leave 1]) = true ∧
    ok (.bara 0) (barred [1, 2] [] []) (fun t => t.barq == [barItem .arrive 1] && t.cur.marks == [(64, 5)] && t.cur.pc == 4) = true ∧
    ok (.barw 0) (barred [1, 2] [] []) (fun t => t.barq == [barItem .arrive 1] && t.cur.st == .bar 64 5) = true ∧
    ok (.bara 0) (barred [1, 2] [1] []) (fun t => t.cur.st == .barAgain 64 5 && t.barq == []) = true ∧
    ok (.bwait 0) (barred [1, 2] [1] [(64, 5)]) (fun t => t.cur.st == .bar 64 5) = true ∧ ok (.bwait 0) (barred [1, 2] [] [(64, 4)]) (fun t => t.cur.pc == 4) = true ∧
    ok (.barw 0) (barred [2] [] []) (fun t => t.cur.pc == 4) = true ∧
    (barred [1, 2] [] [] [barItem .arrive 2]).barEnd.bar 0 64 = { members := [1, 2], arrived := [2], phase := 5 } ∧
    (barred [1, 2] [1] [] [barItem .arrive 2]).barEnd.bar 0 64 = { members := [1, 2], arrived := [], phase := 6 } ∧
    (barred [2] [] [] [barItem .join 1, barItem .arrive 2]).barEnd.bar 0 64 = { members := [2, 1], arrived := [], phase := 6 } := by decide +kernel

/-! ## Families (R31 to R48, R171 to R180) -/

/-- A descriptor at 0x100 of the own scratchpad: 10 members of step 2 from −4 on core 0, entry 0x20, place code p. -/
def describing (p : Nat) : State :=
  run id (regs [(1, spad 0x100), (11, 5)]) fun s => { s with
    mem := memPut [] (winKey 0 0 0x100) (leBytes 8 (0x20 + 1 * 2 ^ 32 + p * 2 ^ 38) ++ leBytes 8 (2 ^ 64 - 4) ++ leBytes 8 16 ++ leBytes 8 2 ++
      leBytes 8 1 ++ leBytes 8 0 ++ leBytes 8 0x9 ++ leBytes 8 0xABC) }
/-- It has come, poisoned or not; of n members (R173). -/
def described (p : Nat) (bad : Bool) (n : Nat) : State :=
  let w := (List.range 8).map fun i => some (if i = 2 then BitVec.ofNat 64 (2 * n) - 4 else (describing p).dword (winKey 0 0 0x100) i, bad && i == 3)
  (describing p).onCur fun c => { c with desc := [{ upc := 0, level := 0, words := w }] }
theorem witness_FcreateResult : (describing 0).misuse [1] [9] = false ∧ lets ((describing 0).access 0 (spad 0x100) 64 64 false [0] true false) = true ∧
    (placeOf ((describing 0).access 0 (spad 0x100) 64 64 false [0] true false)).home = .core 0 ∧ (describing 0).descNow = none ∧
    (describing 0).holdsBack (winKey 0 0 0x100) 64 = false ∧
    ok (.fcreate 5 1) (describing 0) (fun t => (t.reqs.map (·.op)) == [.desc 0 0 (List.range 8)] && t.cur.st == .desc && t.cur.pc == 0) = true ∧
    (match (described 0 true 10).descNow with | some q => q.done && q.bad | none => false) = true ∧
    (match (described 7 false 10).descNow with | some q => q.done && !q.bad && (described 7 false 10).descBad q.word (readDesc (spad 0x100) q.word) | none => false) = true ∧
    (match (described 0 false 10).descNow with
      | some q => let k := readDesc (spad 0x100) q.word
                  q.done && !q.bad && !(described 0 false 10).descBad q.word k && k.links == 1 && k.count == 10 && k.start == -4
      | none => false) = true ∧
    (describing 0).cur.fe.getLsbD 11 = true ∧ (describing 0).cur.pend.getLsbD 11 = false := by decide +kernel
theorem test_fcreate :
    ok (.fcreate 5 1) (described 0 false 10) (fun t => t.cur.reg 5 == 0x80001000 && (t.fam { core := 0, ctx := 0, entry := 0 }).desc.count == 10 &&
      (t.fam { core := 0, ctx := 0, entry := 0 }).held == [(0, 0, 5)] && !t.cur.fe.getLsbD 9) = true ∧
    ok (.fcreate 5 1) (described 0 false 0) (fun t => (t.fam { core := 0, ctx := 0, entry := 0 }).finished && t.cur.reg 9 == 5 && t.cur.fe.getLsbD 9) = true ∧
    ok (.fcreate 5 1) (described 0 true 10) (fun t => cause t == 0x0F && value t == spad 0x100) = true ∧
    ok (.fcreate 5 1) (described 7 false 10) (fun t => cause t == 9 && value t == spad 0x100) = true := by decide +kernel
/-- The thread has created the family 0 with handle x1: of 4 members, n started, none running. -/
def creator (n : Nat) : State :=
  run id (regs [(1, 0x80000000), (2, 0x80001000)]) fun s =>
    { s with fams := [(0, { Fam.empty with live := true, uid := 1, next := n, desc := { Desc.empty with count := 4 }, grouted := true })] }
/-- Its FSYNC was left for a light handler that has returned. -/
def leftSync : State := (creator 1).onCur fun c => { c with syncLeft := some { fam := ⟨0, 0, 0⟩, upc := 0, npc := 4, dst := 12 } }
theorem witness_FamilyInstructionsResult : (creator 1).misuse [1] [9] = false ∧ (creator 1).cur.syncLeft = none ∧ (member false).cur.fam = some ⟨0, 0, 0⟩ ∧ leftSync.cur.syncLeft.isSome = true ∧ leftSync.cur.inLh = false ∧
    ok (.fsync 9 1) leftSync (fun t => t.cur.st == .fsync && (t.cur.sync.map (·.dst)) == some 12 && t.cur.syncLeft == none) = true ∧
    (creator 1).handle ((creator 1).rd 1) = some { core := 0, ctx := 0, entry := 0 } ∧ (creator 1).handle ((creator 1).rd 2) = none ∧
    ((creator 4).fam { core := 0, ctx := 0, entry := 0 }).over = true ∧ ((creator 1).fam { core := 0, ctx := 0, entry := 0 }).over = false ∧
    (member false).misuse [2] [] = false ∧ (member false).pending 1 1 1 1 = false ∧ (member false).cur.frames = [] ∧ (member false).famsOf 1 = [(⟨0, 0, 0⟩ : FamRef)] ∧
    ok (.fsync 9 1) (creator 1) (fun t => t.cur.st == .fsync && (t.cur.sync.map (·.dst)) == some 9) = true ∧
    ok (.fsync 9 2) (creator 1) (fun t => cause t == 9 && value t == 0x80001000) = true ∧ ok (.fkill 2) (creator 1) (fun t => cause t == 9) = true ∧
    ok (.fkill 1) (creator 4) (fun t => !(t.fam ⟨0, 0, 0⟩).killed && t.cur.pc == 4) = true ∧ ok (.fkill 1) (creator 1) (fun t => (t.fam ⟨0, 0, 0⟩).killed) = true ∧
    ok (.lsend 0 2) (member false) (fun t => (t.fills.map fun f => (f.link, f.val)) == [(some { fam := ⟨0, 0, 0⟩, ord := 0, member := 4, k := 0 }, 0xFFFFF00040000108)]) = true := by decide +kernel
/-- A member in slot 1 of a family that the control thread 9 created. -/
def inSlot : State :=
  { run (fun c => { c with ctxs := [(0, { Ctx.empty with uid := 9 }), (1, { regs [(2, 6)] Ctx.empty with uid := 1, kind := 1, member := 3, fam := some ⟨0, 0, 0⟩ })] })
      id id with
    fams := [(0, { Fam.empty with live := true, uid := 9, next := 4, ended := 3, running := [(3, 0, 1, 1)], desc := { Desc.empty with count := 4, pts := [7, 0, 0, 0] } })],
    iss := { core := 0, ctx := 1, upc := 0, ipc := 0, npc := 4, bits := 0 } }
theorem witness_ThaltResult : (emulating true).cur.kind = 0 ∧ 1 ∈ ((barred [1, 2] [] []).bar 0 ((barred [1, 2] [] []).barKey 0 1 47)).members ∧ ints.cur.inEm = false ∧
    inSlot.cur.kind = 1 ∧ inSlot.cur.frames = [] ∧
    inSlot.cur.fam = some ⟨0, 0, 0⟩ ∧ inSlot.famsOf 1 = [] ∧ inSlot.whereIs 1 = some (0, 1) ∧ (inSlot.fam ⟨0, 0, 0⟩).desc.perf = false ∧
    (inSlot.fam ⟨0, 0, 0⟩).running = [(3, 0, 1, 1)] ∧ ints.cur.kind = 0 ∧
    ok .thalt (barred [1, 2] [] []) (fun t => t.barq.length == 2 && t.cur == Ctx.empty) = true ∧
    ok .thalt ints (fun t => t.cur == Ctx.empty) = true ∧ ok .thalt inSlot (fun t => t.cur == Ctx.empty && (t.fam ⟨0, 0, 0⟩).ended == 4) = true ∧
    ok (.fbreak 2) inSlot (fun t => (t.breaks.map (·.value)) == [6] && t.cur.st == .ending && (let u := t.takeBreaks
      u.cur.uid == 0 && (u.fam ⟨0, 0, 0⟩).brk == some 3 && (u.ctxAt 0 0).regAt 7 == 6 && (u.ctxAt 0 0).fe.getLsbD 7)) = true := by
  decide +kernel
/-- Its member 4 runs too, in slot 2; the creator, which holds the handle, or member 3 issues. -/
def twoIn (x : Nat) : State :=
  { run (fun c => { c with ctxs := [(0, { regs [(1, 0x80000000)] Ctx.empty with uid := 9 }),
      (1, { regs [(2, 6)] Ctx.empty with uid := 1, kind := 1, member := 3, fam := some ⟨0, 0, 0⟩ }),
      (2, { Ctx.empty with uid := 7, kind := 1, member := 4, fam := some ⟨0, 0, 0⟩ })] }) id id with
    fams := [(0, { Fam.empty with live := true, uid := 9, next := 5, ended := 3, running := [(3, 0, 1, 1), (4, 0, 2, 7)],
                                  desc := { Desc.empty with count := 8, pts := [7, 0, 0, 0] } })],
    iss := { core := 0, ctx := x, upc := 0, ipc := 0, npc := 4, bits := 0 } }
theorem witness_FamilyInstructionsResult_kills : ((twoIn 0).handle ((twoIn 0).rd 1)) = some ⟨0, 0, 0⟩ ∧ ((twoIn 0).fam ⟨0, 0, 0⟩).over = false ∧
    (((twoIn 0).fam ⟨0, 0, 0⟩).running.all fun r => r.2.2.2 != 0 && (twoIn 0).whereIs r.2.2.2 == some (r.2.1, r.2.2.1) &&
      ((twoIn 0).keptBy r.2.2.2).isNone && ((twoIn 0).ctxAt r.2.1 r.2.2.1).uid == r.2.2.2 && ((twoIn 0).ctxAt r.2.1 r.2.2.1).fam == some ⟨0, 0, 0⟩ &&
      ((twoIn 0).ctxAt r.2.1 r.2.2.1).frames == [] && (twoIn 0).famsOf r.2.2.2 == [] && r.2.2.2 != ((twoIn 0).fam ⟨0, 0, 0⟩).uid) = true ∧
    ok (.fkill 1) (twoIn 0) (fun t => (t.fam ⟨0, 0, 0⟩).killed && (t.fam ⟨0, 0, 0⟩).over && (t.fam ⟨0, 0, 0⟩).ended == 5 && t.cur.uid == 9 &&
      t.ctxAt 0 1 == Ctx.empty && t.ctxAt 0 2 == Ctx.empty) = true ∧
    ((after (.fbreak 2) (twoIn 1)).breaks.map (·.uid)) = [1] ∧ (after (.fbreak 2) (twoIn 1)).whereIs 9 = some (0, 0) ∧
    ok (.fbreak 2) (twoIn 1) (fun t => let u := t.takeBreaks
      (u.fam ⟨0, 0, 0⟩).brk == some 3 && (u.fam ⟨0, 0, 0⟩).running == [] && u.ctxAt 0 2 == Ctx.empty && (u.ctxAt 0 0).regAt 7 == 6) = true := by
  decide +kernel
/-- A member runs inline over its creator 9, whose frame stands in the scratchpad, or is still on its way there. -/
def inlined (busy : Bool) : State :=
  let v : Saved := { uid := 9, g := 3, k := Vector.replicate 8 0, fcsr := 0, kind := 0, member := 0, fam := none, probe := false, held := [],
                     sync := { fam := ⟨0, 0, 0⟩, upc := 0x40, npc := 0x44, dst := 0 }, pend := 0, acq := 0, xfence := [], marks := [], inLh := false,
                     inEm := false, mben := false, bwait := none, left := none }
  { run id (fun c => { regs [(2, 6)] c with kind := 2, member := 3, fam := some ⟨0, 0, 0⟩, istk := 0x3F801, frames := [v] }) id with
    fams := [(0, { Fam.empty with live := true, uid := 9, next := 4, ended := 3, running := [(3, 0, 0, 1)],
                                  desc := { Desc.empty with count := 4, inl := true, pts := [7, 0, 0, 0] } })],
    mem := memPut [] (frameKey 0 0x3F801 0) (leBytes 8 0 ++ leBytes 8 77 ++ List.replicate 112 0 ++ leBytes 8 0x40 ++ leBytes 8 0xFFFE),
    reqs := if busy then [{ oneStore 0 with uid := 9, home := .core 0, addr := frameKey 0 0x3F801 0 }] else [] }
theorem witness_ThaltResult_inline : (inlined false).cur.kind = 2 ∧ (inlined false).cur.frames.length = 1 ∧ (inlined false).famsOf 1 = [] ∧
    (inlined false).keptBy 1 = none ∧ (inlined false).whereIs 1 = some (0, 0) ∧ (inlined true).frameBusy 0 (frameKey 0 0x3F801 0) = true ∧
    (inlined false).frameBusy 0 (frameKey 0 0x3F801 0) = false ∧ (inlined false).whereIs 9 = none ∧ (inlined false).keptBy 9 = some (0, 0) ∧
    ok .thalt (inlined true) (fun t => t.cur.st == .restore && (t.fam ⟨0, 0, 0⟩).ended == 4) = true ∧
    ok .thalt (inlined false) (fun t => t.cur.uid == 9 && t.cur.kind == 0 && t.cur.frames == [] && t.cur.st == .fsync && t.cur.pc == 0x40 &&
      t.cur.reg 1 == 77 && t.cur.reg 2 == 0 && t.cur.fe.getLsbD 1 && (t.fam ⟨0, 0, 0⟩).ended == 4) = true ∧
    ok (.fbreak 2) (inlined false) (fun t => let u := t.takeBreaks
      u.cur.uid == 9 && u.cur.st == .fsync && u.cur.regAt 7 == 6 && (u.fam ⟨0, 0, 0⟩).brk == some 3) = true := by decide +kernel

/-! ## Rows (R212 to R232) -/

/-- The thread leases tile 2, of type ty; rows 1, 2 and so on hold the lists, lane 0 first. -/
def vec (ty : Nat) (rows : List (List Nat)) : State :=
  run (fun c => { c with tiles := [(2, { Tile.fresh with ty := ty })] })
    (fun c => { regs [(1, spad 0x100), (3, 4), (5, 0xFFFFFFFF12345678)] c with lease := [2], k := (Vector.replicate 8 0).set! 1 0b10, fcsr := 0 })
    fun s => { s with
      mem := (rows.zipIdx 1).foldl (fun m q => memPut m (tileKey 0 2 q.2) (q.1.flatMap (leBytes (laneBits ty / 8)))) [] }
/-- Lanes 0, 1, … of row r afterwards. -/
def lanesAre (i : Instr) (s : State) (r : Nat) (v : List Nat) : Bool :=
  ok i s fun t => ((List.range v.length).map (t.lane (32 + r))) == v
/-- f32: 1.5, −0, a signalling NaN, 2^127; 2, +0, 1, 2^127. -/
def vf32 : State := vec 1 [[0x3FC00000, 0x80000000, 0x7F800001, 0x7F000000], [0x40000000, 0, 0x3F800000, 0x7F000000], [0x3F800000, 0, 0, 0]]
/-- i32: −1, 2^31 − 1, 5; 33, 1, −2^31. -/
def vi32 : State := vec 8 [[0xFFFFFFFF, 0x7FFFFFFF, 5], [33, 1, 0x80000000], [2, 0, 1]]
theorem witness_VectorArithmeticResult : (vf32.cur.phys (vf32.vr 3)) = some 35 ∧ vf32.cur.phys (vf32.vr 1) = some 33 ∧ vf32.cur.phys (vf32.vr 2) = some 34 ∧
    memWf vf32.mem = true ∧ vf32.ty 35 = 1 ∧ vf32.ty 33 = 1 ∧ vi32.ty 35 = 8 ∧ vf32.cur.fcsr.toNat / 32 < 4 ∧
    4 ≤ ({ vf32.cur with fcsr := 0x80 } : Ctx).fcsr.toNat / 32 ∧
    ok (.vadd 0 3 1 2) (vf32.onCur fun c => { c with fcsr := 0x80 }) (fun t => cause t == 1) = true := by decide +kernel
theorem test_vector_float : lanesAre (.vadd 0 3 1 2) vf32 3 [0x40600000, 0, 0x7FC00000, 0x7F800000] && lanesAre (.vsub 0 3 1 2) vf32 3 [0xBF000000, 0x80000000, 0x7FC00000, 0] &&
    lanesAre (.vmul 0 3 1 2) vf32 3 [0x40400000, 0x80000000, 0x7FC00000, 0x7F800000] && lanesAre (.vfma 0 3 1 2) vf32 3 [0x40800000, 0] &&
    lanesAre (.vfms 0 3 1 2) vf32 3 [0x40000000] && lanesAre (.vmin 0 3 1 2) vf32 3 [0x3FC00000, 0x80000000, 0x3F800000] &&
    lanesAre (.vmax 0 3 1 2) vf32 3 [0x40000000, 0] && lanesAre (.vabs 0 3 1) vf32 3 [0x3FC00000, 0, 0x7F800001] &&
    lanesAre (.vneg 0 3 1) vf32 3 [0xBFC00000, 0, 0xFF800001] && ok (.vadd 0 3 1 2) vf32 (fun t => t.cur.fcsr == 0b10101) = true := by decide +kernel
theorem test_vector_integer : lanesAre (.viadd 0 3 1 2) vi32 3 [32, 0x80000000, 0x80000005] && lanesAre (.visub 0 3 1 2) vi32 3 [0xFFFFFFDE, 0x7FFFFFFE, 0x80000005] &&
    lanesAre (.vimul 0 3 1 2) vi32 3 [0xFFFFFFDF, 0x7FFFFFFF, 0x80000000] && lanesAre (.vshl 0 3 1 2) vi32 3 [0xFFFFFFFE, 0xFFFFFFFE, 5] &&
    lanesAre (.vshrl 0 3 1 2) vi32 3 [0x7FFFFFFF, 0x3FFFFFFF, 5] && lanesAre (.vshra 0 3 1 2) vi32 3 [0xFFFFFFFF, 0x3FFFFFFF, 5] &&
    lanesAre (.vimin 0 3 1 2) vi32 3 [0xFFFFFFFF, 1, 0x80000000] && lanesAre (.vimax 0 3 1 2) vi32 3 [33, 0x7FFFFFFF, 5] &&
    lanesAre (.vand 0 3 1 2) vi32 3 [33, 1, 0] && lanesAre (.vor 0 3 1 2) vi32 3 [0xFFFFFFFF, 0x7FFFFFFF, 0x80000005] &&
    lanesAre (.vxor 0 3 1 2) vi32 3 [0xFFFFFFDE, 0x7FFFFFFE, 0x80000005] && lanesAre (.vsel 1 3 1 2) vi32 3 [33, 0x7FFFFFFF, 0x80000000] = true := by
  decide +kernel
theorem witness_VectorMasksResult : vi32.cur.phys (vi32.vr 1) = some 33 ∧ vi32.ty 33 = 8 ∧ vf32.ty 33 ≠ 8 ∧ vf32.misuse [5] [] = false ∧ vf32.misuse [] [9] = false ∧
    vf32.here.level = 3 ∧ vf32.cur.frame = none ∧ vf32.cur.lease[0]? = some 2 ∧
    ((vf32.onCur fun c => { c with frame := some { start := 0, len := 1, count := 2, stag := 0, r := 0, pos := 0 } }).cur.frame.isSome) = true ∧
    ok (.vcmpFeq 0 2 1 2) vf32 (fun t => t.cur.mask 2 == 0xFFFA && t.cur.fcsr == 16) = true ∧ ok (.vcmpFlt 0 2 1 2) vf32 (fun t => t.cur.mask 2 == 1) = true ∧
    ok (.vcmpFne 0 2 1 2) vf32 (fun t => t.cur.mask 2 == 5) = true ∧ ok (.vcmpFle 0 2 1 2) vf32 (fun t => t.cur.mask 2 == 0xFFFB) = true ∧
    ok (.vcmpIlt 0 2 1 2) vi32 (fun t => t.cur.mask 2 == 1) = true ∧ ok (.vcmpIle 0 2 1 2) vi32 (fun t => t.cur.mask 2 == 0xFFF9) = true ∧
    ok (.vcmpIeq 0 2 1 2) vi32 (fun t => t.cur.mask 2 == 0xFFF8) = true ∧ ok (.vcmpIne 0 0 1 2) vi32 (fun t => t.cur.mask 0 == -1) = true ∧
    ok (.kand 0 2 0 1) vi32 (fun t => t.cur.mask 2 == 2) = true ∧ ok (.kor 0 2 1 1) vi32 (fun t => t.cur.mask 2 == 2) = true ∧
    ok (.kxor 0 2 0 1) vi32 (fun t => t.cur.mask 2 == -3) = true ∧ ok (.kandn 0 2 1 0) vi32 (fun t => t.cur.mask 2 == 0) = true ∧
    ok (.kfromx 0 2 5) vi32 (fun t => t.cur.mask 2 == 0xFFFFFFFF12345678) = true ∧ gives (.ktox 0 9 1) vi32 9 2 = true ∧ gives (.kpop 0 9 0) vi32 9 64 = true ∧
    gives (.kfirst 0 9 1) vi32 9 1 = true ∧ gives (.kfirst 0 9 3) vi32 9 64 = true ∧
    ok (.repv 0 16 31 2) vi32 (fun t => (t.cur.frame.map fun f => (f.len, f.count, f.stag, f.start)) == some (16, 32, 2, 4)) = true ∧
    ok (.repv 0 17 1 1) vi32 (fun t => cause t == 2) = true ∧ ok (.tcfg 0 0 3) vi32 (fun t => (t.here.tile 2).ty == 3) = true := by decide +kernel
theorem witness_VectorMovesResult : vi32.misuse [5] [] = false ∧ vi32.misuse [] [9] = false ∧ (15 : Nat) < laneCount (vi32.ty 33) ∧ laneCount (vi32.ty 33) ≤ 16 ∧
    vi32.cur.fcsr.toNat < 128 ∧ vi32.here.level ≠ 2 ∧ elemBytes 4 * 8 ≤ laneBits (vf32.ty 33) ∧ (3 + 1) * laneCount (vf32.ty 35) * elemBytes 4 ≤ 64 ∧
    isFloat 4 ≠ (vf32.ty 35 == 8) ∧ 8 * elemBytes 4 ≤ laneBits (vf32.ty 35) ∧
    (∀ l < laneCount 1, (f32.decode ((vec 1 [[0x3F800000]]).lane 33 l)).isNan = false) ∧
    lanesAre (.vbcx 0 3 5) vi32 3 [0x12345678, 0x12345678] = true ∧ gives (.vmvx 0 9 1 0) vi32 9 (-1) = true ∧ gives (.vmvx 0 9 1 15) vi32 9 0 = true ∧
    ok (.vmvx 0 9 1 16) vi32 (fun t => cause t == 8) = true ∧ lanesAre (.vmxv 0 3 5 1) vi32 3 [2, 0x12345678, 1] = true ∧
    lanesAre (.vpack 0 3 1 2) vi32 3 [0xFFFFFFFF, 0x7FFFFFFF, 5, 0, 0, 0, 0, 0, 33, 1, 0x80000000] = true ∧
    lanesAre (.vcvt 0 3 1 1 8) (vec 1 [[0x3FC00000, 0xC0200000]]) 3 [2, 0xFFFFFFFE] = true ∧ lanesAre (.vunpack 0 3 1 1 4) (vec 1 [[0, 0, 0, 0, 0x38]]) 3 [0x3F800000, 0] = true ∧
    lanesAre (.vrsum 0 3 1) vi32 3 [0x80000003, 0, 0] = true ∧ lanesAre (.vrmax 0 3 1) vi32 3 [0x7FFFFFFF, 0] = true ∧ lanesAre (.vperm 0 3 1 2) vi32 3 [0x7FFFFFFF, 0xFFFFFFFF, 0xFFFFFFFF] = true ∧
    lanesAre (.vslide 0 3 1 1) vi32 3 [0x7FFFFFFF, 5, 0] = true ∧ lanesAre (.vslide 0 3 1 31) vi32 3 [0, 0xFFFFFFFF, 0x7FFFFFFF] = true ∧
    lanesAre (.vbcast 0 3 1 2) vi32 3 [5, 5] = true ∧ ok (.vbcast 0 3 1 16) vi32 (fun t => cause t == 8) = true := by decide +kernel
/-- Scans: a = 2, 3, 4 and b = 1 each; reset at lane 1. Lane 2 is 4 × 1 + 1 under the reset at lane 1 (R109, R228). -/
def scans : State := vec 1 [[0x40000000, 0x40400000, 0x40800000], [0x3F800000, 0x3F800000, 0x3F800000]]
theorem witness_scans : scans.cur.phys (scans.vr 1 + 1) = some 34 ∧ scans.cur.phys (scans.vr 4 / 16 * 16 + (scans.vr 4 + 15) % 16) = some 35 ∧
    (∀ p ∈ [36, 33, 34, 35], scans.ty p = 1) ∧ scans.cur.phys (scans.vr 4 + 1) = some 37 ∧ scans.cur.phys (scans.vr 4 / 16 * 16 + (scans.vr 4 + 14) % 16) = some 34 ∧
    (∀ p ∈ [36, 37, 33, 34, 35], scans.ty p = 1) ∧ lanesAre (.vscan 0 4 1 1) scans 4 [0x3F800000, 0x3F800000, 0x40A00000, 0] = true ∧
    lanesAre (.vscanL1 0 4 1 1) scans 4 [0x3F800000, 0x3F800000, 0x40A00000] = true ∧ lanesAre (.vscanc 0 6 1 1) scans 6 [0x3F800000, 0x3F800000, 0x40A00000] = true := by
  decide +kernel
/-- The SFU holds one entry, or one result of row 35 for the thread. -/
def sfu (e : List SfuEntry) (r : List SfuRes) : State := { vf32 with cores := (vf32.onHere fun c => { c with sfuq := e, sfuPipe := r }).cores }
def anEntry : SfuEntry := { uid := 1, fn := 2, ty := 1, row := 35, data := 0x40000000 }
def aResult : SfuRes := { uid := 1, row := 35, data := 0x3F000000, flags := 1 }
/-- Lanes 0 to 15 at byte offsets 0, 4, … from the base, of which lanes 14 and 15 meet. -/
def indexing : State := vec 8 [(List.range 15).map (4 * ·) ++ [56], List.range 16]
theorem witness_RowsAndMemoryResult : vf32.cur.phys (vf32.vr 1) = some 33 ∧ vf32.misuse [1] [] = false ∧ vf32.rowBytes 1 (spad 0x100) = 64 ∧ vf32.replay = 0 ∧
    lets (vf32.access 0 (spad 0x100) 64 64 false [0, 1] true true) = true ∧ lets (vf32.access 0 (spad 0x100) 64 64 true [0, 1] true false) = true ∧
    vf32.holdsBack (winKey 0 0 0x100) 64 = false ∧ vf32.misuse [1, 3] [] = false ∧ vf32.elemAt 1 (spad 0x100) = 4 ∧
    lets (vf32.access 0 (spad 0x100) 4 1 false [0, 1] true true) = true ∧ lets (vf32.access 0 (spad 0x100) 4 1 true [0, 1] true false) = true ∧
    (∀ l < 16, (spad 0x100 + BitVec.ofNat 64 l * 4).toNat % 4 = 0 ∧ sameUnit 0 (spad 0x100) (spad 0x100 + BitVec.ofNat 64 l * 4) = true ∧
      vf32.holdsBack (winKey 0 0 0x100 + 4 * l) 4 = false) ∧
    indexing.cur.phys (indexing.vr 1) = some 33 ∧ indexing.ty 33 = 8 ∧ laneCount (indexing.ty 34) = 16 ∧ classify 0 (spad 0x100) = .window 0 0 0x100 ∧ 0 ∈ (indexing.teamOf 0).cores ∧
    (∀ l < 16, (0x100 + indexing.lane 33 l) % 4 = 0 ∧ indexing.keyFmt (.core 0) (winKey 0 0 (0x100 + indexing.lane 33 l)) = 0) ∧
    vf32.here.sfuq.length < 8 ∧ ((sfu [anEntry] []).core 0).sfuq = anEntry :: [] ∧ ((sfu [] [aResult]).core 0).sfuPipe[0]? = some aResult ∧
    (sfu [] [aResult]).whereIs 1 = some (0, 0) ∧ ((sfu [] [aResult]).core 0).stop = false ∧ ((sfu [] [aResult]).ctxAt 0 0).st ≠ .parked ∧
    ((sfu [] [aResult]).ctxAt 0 0).st ≠ .ecall ∧ memWf (sfu [] [aResult]).mem = true := by decide +kernel
theorem test_rows_and_memory : ok (.vld 0 3 1) vf32 (fun t => t.cur.pendV == [35] && (t.reqs.map fun r => (r.addr, r.cls)) == [(winKey 0 0 0x100, 0)]) &&
    ok (.vst 0 1 1) vf32 (fun t => (t.reqs.map fun r => (r.cls, r.op)) == [(0, .rowSt 1 (vf32.row 33) [] true none)]) && ok (.vstb 0 1 1) vf32 (fun t => t.reqs.length == 1) &&
    ok (.vlds 0 3 1 3) vf32 (fun t => t.cur.pendV == [35] && t.reqs.all fun r => r.home == .core 0) &&
    ok (.vsts 0 1 1 0) vf32 (fun t => (t.reqs.map fun r => match r.op with | .rowSt _ _ els _ _ => els | _ => []) == [[(15, winKey 0 0 0x100)]]) &&
    ok (.vgath 0 3 1 1) indexing (fun t => (t.reqs.map fun r => match r.op with | .rowLd _ _ els _ _ => els.length | _ => 0) == [16]) &&
    ok (.vscat 0 2 1 1) indexing (fun t => (t.reqs.map fun r => match r.op with | .rowSt _ _ els _ _ => (els.length, els.any (·.1 == 14)) | _ => (0, true)) == [(15, false)]) &&
    ok (.vrcp 0 3 1) vf32 (fun t => (t.here.sfuq.map fun e => (e.fn, e.row)) == [(2, 35)] && t.cur.pendV == [35]) &&
    ok (.sfuService 0) (sfu [anEntry] []) (fun t => (t.here.sfuPipe.map fun r => rowField r.data 0 32) == [0x3F000000] && t.here.sfuq == []) &&
    ok (.sfuResultWrite 0 0) (sfu [] [aResult]) (fun t => t.lane 35 0 == 0x3F000000 && t.cur.fcsr == 1 && t.here.sfuPipe == []) = true := by decide +kernel

/-- Row 35 joins one element, lane 2 at the word 0x100; the word's bank has format f16 or none (R64, R65). -/
def rowAtHome (op : ReqOp) (fmt : BitVec 32) : State :=
  (atHome op true []).onCur (fun c => { c with lease := [2], pendV := [35] }) |>.onHere fun c => { c with bfmt := fmt }
def joining (op : ReqOp) (fmt : BitVec 32) : State :=
  { rowAtHome op fmt with joins := [{ id := 7, uid := 1, row := 35, ty := 1, left := 1, data := 0, mask := 0, poison := none, flags := 0, upc := 0 }] }
theorem witness_RowsAndMemoryResult_home : ([.rowLd 7 1 [(2, winKey 0 0 0x100)] false none, .rowLd 7 1 [] true none, .rowSt 1 (5 <<< 64) [(2, winKey 0 0 0x100)] false none]
      : List ReqOp).all (fun op => ([0, 2] : List (BitVec 32)).all fun w =>
        let s := joining op w
        let r := arrived op
        memWf s.mem && s.req 1 == some r && !s.behind r && s.turnOf r && !s.refused r && !s.meetsOwned (s.begin r) 0) = true ∧
    (match ((joining (.rowLd 7 1 [] true none) 0).begin (arrived (.rowLd 7 1 [] true none))).op with
      | .rowLd _ _ _ _ (some ps) => ps.length == 8 && ps[1]? == some { addr := winKey 0 0 0x108, n := 8, off := 8, fmt := 0 }
      | _ => false) = true ∧
    (joining (.rowLd 7 1 [(2, winKey 0 0 0x100)] false none) 0).expand (.core 0) (winKey 0 0 0x100) 1 [(2, winKey 0 0 0x100)] false =
      [{ addr := winKey 0 0 0x100, n := 4, off := 8, fmt := 0 }] ∧
    (joining (.rowLd 7 1 [(2, winKey 0 0 0x100)] false none) 2).expand (.core 0) (winKey 0 0 0x100) 1 [(2, winKey 0 0 0x100)] false =
      [{ addr := winKey 0 0 0x100, n := 2, off := 2, fmt := 2 }] ∧
    (joining (.rowLd 7 1 [] true none) 0).holder 1 = some (0, 0) ∧ (joining (.rowLd 7 1 [] true none) 0).joins.length = 1 := by decide +kernel
theorem test_rows_home :
    ok (.homePerform (.core 0) 1 0) (joining (.rowLd 7 1 [(2, winKey 0 0 0x100)] false none) 0) (fun t => t.lane 35 2 == 0x80000001 && t.lane 35 1 == 0 &&
      t.joins == [] && t.cur.pendV == [] && t.reqs == []) = true ∧
    ok (.homePerform (.core 0) 1 0) (joining (.rowLd 7 1 [] true none) 0) (fun t => (t.joins.map fun k => (k.left, rowField k.data 0 64)) == [(1, 0xFFFFFFFF80000001)] &&
      t.cur.pendV == [35] && t.reqs.length == 1) = true ∧
    ok (.homePerform (.core 0) 1 0) (rowAtHome (.rowSt 1 (5 <<< 64) [(2, winKey 0 0 0x100)] false none) 0) (fun t => t.dword (winKey 0 0 0x100) 0 == 0xFFFFFFFF00000005 &&
      t.reqs == []) = true ∧
    ok (.homePerform (.core 0) 1 0) (rowAtHome (.rowSt 1 (0x3F800000 <<< 64) [(2, winKey 0 0 0x100)] false none) 2) (fun t =>
      t.dword (winKey 0 0 0x100) 0 == 0xFFFFFFFF80003C00) = true := by decide +kernel

/-! ## Matrix instructions and tiles (R104 to R106, R235 to R250) -/

/-- Bank 0 holds i8 and bank 1 f32; the lease is tile 3 of type i32; k1 has row 0, column 0, depth 0. A(0, 0) = 3 at 0, B(0, 0) = −5 at 0x100,
a sparse block of −7 in every element at 0x200. x1 to x3 point there, x4 to bank 1; x5 strides 16 at slot 6, x6 slot 7, x7 to slot 0,
x9 the i32 destination. -/
def array (gang : Bool) : State :=
  run (fun c => { c with bfmt := 0x07, tiles := [(3, { Tile.fresh with ty := 8 })] })
    (fun c => { regs [(1, spad 0), (2, spad 0x100), (3, spad 0x200), (4, spad 0x8000), (5, 0x100006), (6, 7), (7, 0x400000), (9, 0x800400000)] c with
      lease := [3], k := (Vector.replicate 8 0).set! 1 0x100010001, fam := if gang then some ⟨0, 0, 0⟩ else none })
    fun s => { s with
      mem := memPut (memPut (memPut (memPut [] (winKey 0 0 0) [3]) (winKey 0 0 0x100) [0xFB]) (winKey 0 0 0x200) [1, 0, 0, 0, 0, 0, 0, 0])
        (winKey 0 0 0x208) (List.replicate 16 0xF9),
      fams := if gang then [(0, { Fam.empty with live := true, uid := 9, desc := { Desc.empty with count := 4, gang := true } })] else [] }
/-- B loaded in slot 6. -/
noncomputable def loaded (gang : Bool) : State := after (.wld 0 0 2 5 0) (array gang)
theorem witness_MatrixInstructionsResult : (array false).cur.lease[0]? = some 3 ∧ (array false).misuse [2, 5] [] = false ∧
    classify 0 ((array false).rd 2) = .window 0 0 0x100 ∧ (array false).here.bankFmt 0x100 = 7 ∧ matRow 7 = 16 ∧
    (array false).cmWaits false (loadRanges 7 16 0x100 false 0 0 0) = false ∧
    (loadRanges 7 16 0x100 false 0 0 0).all (fun r => fitsSpad r && !(array false).spadBad r) = true ∧
    (array false).here.oneFmt 7 ((loadRanges 7 16 0x100 false 0 0 0).take 16) = true ∧ opWordBad 0x100006 false true true false = false ∧
    leNat (((array false).spadAt 0x200 8).map (BitVec.ofNat 8)) = 1 ∧ opWordBad 7 false false true false = false ∧
    (array false).cmWaits false (loadRanges 7 0 0x200 true 0 0 1) = false ∧
    (array false).here.oneFmt 7 ((loadRanges 7 0 0x200 true 0 0 1).take 2) = true ∧ 0x100 % 16 = 0 ∧ (spad 0x200).toNat % 8 = 0 ∧
    (loadRanges 7 0 0x200 true 0 0 1).all (fun r => fitsSpad r && !(array false).spadBad r) = true ∧
    ok (.wld 0 0 2 5 0) (array false) (fun t => (t.here.slot 6).size == 1 && (t.here.slot 6).fmt == 7 &&
      ((t.here.slot 6).els.getD 0 []).getD 0 { cls := 9, neg := false, mag := 0 } == { cls := 1, neg := true, mag := 5 }) = true ∧
    ok (.wlds 0 0 3 6 0) (array false) (fun t => (t.here.slot 7).sparse && ((t.here.slot 7).els.getD 3 []).getD 3 { cls := 9, neg := false, mag := 0 } ==
      { cls := 1, neg := true, mag := 7 } && (((t.here.slot 7).els.getD 4 []).getD 0 { cls := 9, neg := false, mag := 0 }).cls == 0) = true := by
  decide +kernel
/-- The same on core 1, which does not lead its course. -/
noncomputable def following : State :=
  let s := loaded true
  { s with cores := s.cores ++ [(1, s.here)], iss := { s.iss with core := 1 } }
theorem witness_MatrixInstructionsResult_products : (List.range 16).filter (((loaded true).cur.mask 1).getLsbD ·) = [0] ∧ (loaded true).cmWaits false (rowsAt 0 16 16 [0]) = false ∧
    following.iss.core % 4 ≠ 0 ∧ following.inGang = true ∧ following.cmWaits true [] = false ∧ (following.here.slot 6).size = 1 ∧
    following.cur.lease[0]? = some 3 ∧ ok (.gmma 0 0 1 5 1 0) following (fun t => (t.here.mat.map (·.gang)) == [some 0]) = true ∧
    (rowsAt 0 16 16 [0]).all (fitsSpad ·) = true ∧ opWordBad 0x100006 false true true false = false ∧ (loaded true).here.oneFmt 7 (rowsAt 0 16 16 [0]) = true ∧
    ((loaded true).here.slot 6).size = 1 ∧ pairOk 0 7 7 0 8 = true ∧ (loaded true).inGang = true ∧
    (List.range 16).all (fun i => (List.range 16).all fun d => !((loaded true).cur.mask 1).getLsbD i || !((loaded true).cur.mask 1).getLsbD (32 + d) ||
      !(loaded true).spadBad (0 + i * 16 + d, 1)) = true ∧
    ok (.mma 0 0 1 5 1 0) (loaded false) (fun t => (t.here.mat.map fun m => (m.tile, m.gang)) == [(3, none)]) = true ∧
    ok (.gmma 0 0 1 5 1 0) (loaded true) (fun t => (t.here.mat.map fun m => (m.tile, m.gang)) == [(3, some 0)] && t.here.gangNo == 1) = true ∧
    ok (.gmma 0 0 1 5 1 0) (loaded false) (fun t => cause t == 0x0A) = true ∧ ok (.mma 0 0 1 6 1 0) (loaded false) (fun t => cause t == 8) = true := by
  decide +kernel
theorem witness_MatrixInstructionsResult_tiles : (array false).cmWaits false [] = false ∧ (array false).cmWaits false [(0x8000, 4)] = false ∧ (array false).spadBad (0x8000, 4) = false ∧
    (array false).here.oneFmt 0 [(0x8000, 4)] = true ∧ classify 0 ((array false).rd 4) = .window 0 0 0x8000 ∧ (array false).here.bankFmt 0x8000 = 0 ∧
    opWordBad 0x400000 false true false false = false ∧ opWordBad 0x800400000 false true false true = false ∧ bitsOf 0x800400000#64 35 32 = 8 ∧
    ok (.accz 0 0 1) (array false) (fun t => (t.here.mat.map fun m => m.tile) == [3]) = true ∧
    ok (.accld 0 0 4 7 1) (array false) (fun t => (t.here.mat.map fun m => m.op == .load (some 0 :: List.replicate 255 none)) == [true]) = true ∧
    ok (.accst 0 0 4 9 1) (array false) (fun t => (t.here.mat.map fun m => m.op == .store (some (winKey 0 0 0x8000) :: List.replicate 255 none) 8 8 0 false) == [true]) = true ∧
    ok (.accst 0 0 4 7 1) (array false) (fun t => cause t == 2) = true := by decide +kernel
/-- C(0, 0) = 100 of tile 3, with one operation in the engine. -/
def engaged (op : TileOp) : State :=
  let s := array false
  State.engage { s with mem := memPut s.mem (tileKey 0 3 0) [100] } 3 none op
/-- 100 + 3 × (−5) = 85, through WLD, MMA and the tile's step (R105). -/
theorem test_i8_product : ok (.tileWrite 0) (after (.mma 0 0 1 5 1 0) { loaded false with mem := memPut (loaded false).mem (tileKey 0 3 0) [100] })
    (fun t => t.acc 0 3 0 == 85 && t.acc 0 3 1 == 0) = true := by decide +kernel
theorem witness_TileWriteResult : memWf (engaged (.zero [true])).mem = true ∧ (engaged (.zero [true])).tileAmid 0 3 = false ∧
    ((engaged (.zero [true])).here.mat.map (·.gang)) = [none] ∧ (engaged (.zero [true])).here.mat.length = 1 ∧
    ok (.tileWrite 0) (engaged (.zero [true])) (fun t => t.acc 0 3 0 == 0 && t.here.mat == []) = true ∧
    ok (.tileWrite 0) (engaged (.load [none, some 7])) (fun t => t.acc 0 3 0 == 100 && t.acc 0 3 1 == 7) = true ∧
    ((engaged (.mac 0 true [some 5] [] [])).here.tile 3).count = 0 ∧
    ok (.tileWrite 0) (engaged (.mac 0 true [some 0xFFFFFFFF] [] [])) (fun t => t.acc 0 3 0 == 99) = true ∧
    ok (.tileWrite 0) (engaged (.mac 0 false [none, some 0x3F800000] [] [])) (fun t => t.acc 0 3 1 == 0x3F800000) = true ∧
    ok (.tileWrite 0) (engaged (.store [some (winKey 0 0 0x8000)] 8 8 0 false)) (fun t => (t.reqs.map fun r => (r.addr, r.op)) ==
      [(winKey 0 0 0x8000, .elem [100, 0, 0, 0] false)]) = true := by decide +kernel
/-- Cores 0 to 3, each with the first GMMA of its course waiting; the second core's masks as told. -/
noncomputable def course (k1 : Word) : State :=
  let s := after (.gmma 0 0 1 5 1 0) (loaded true)
  { s with
    cores := (List.range 4).map fun n => (n, { s.here with mat := s.here.mat.map fun m => match m.op with
      | .gang k a b c d e => { m with op := .gang (if n = 1 then k1 else k) a b c d e }
      | _ => m })
    gangs := [(0, (List.range 4).map fun n => { no := 0, pos := n, who := s.whoNow, upc := 0 })] }
theorem witness_TileWriteResult_gang : (tabGet [] (course 0x100010001).gangs 0).all (·.no == 0) = true ∧ (tabGet [] (course 0x100010001).gangs 0).length = 4 ∧
    (List.range 4).all (fun i =>
      match ((course 0x100010001).core i).gangOp 0, ((course 0x100010001).core 0).gangOp 0 with
      | some x, some y => x.accord == y.accord && ((course 0x100010001).core i).gangPair (some y) x
      | _, _ => false) = true ∧
    ok (.gangOperation 0) (course 0x100010001) (fun t => tabGet [] t.gangs 0 == [] && (List.range 4).all fun i => (t.core i).mat.all (·.gang.isNone)) = true ∧
    ok (.gangOperation 0) (course 0) (fun t => (t.core 1).faulted && (t.core 1).mat == [] && ((t.latchRaised.core 1).flatch.getD 0 0).toNat % 256 == 10) = true := by
  decide +kernel

/-! ## Events of families and teams (R33 to R39, R47, R48, R52, R319 to R335, R359) -/

/-- Four members from 5 in steps of 2, entry 0x40, one linked value, one lease tile. -/
def readyDesc (inl : Bool) : Desc :=
  { Desc.empty with inl := inl, count := 4, start := 5, step := 2, entry := 0x40, vclass := 1, links := 1, window := 2, arg := 0xABC }
/-- The thread in context 0 has created that family; a value 77 waits for its member 1. -/
def ready (inl : Bool) : State :=
  run (fun c => { c with abase := 0x1000 })
    (fun c => { regs [(2, 6)] c with
      istk := 0x3F801, lease := if inl then [0] else [], st := if inl then .fsync else .run,
      sync := if inl then some { fam := ⟨0, 0, 0⟩, upc := 0x1010, npc := 0x1014, dst := 9 } else none })
    fun s => { s with fams := [(0, { Fam.empty with live := true, uid := 1, next := 1, held := [(1, 0, 77)], desc := readyDesc inl })] }
/-- Eight frames deep. -/
def deep : State :=
  let v : Saved := { uid := 3, g := 1, k := Vector.replicate 8 0, fcsr := 0, kind := 0, member := 0, fam := none, probe := false, held := [],
                     sync := { fam := ⟨0, 0, 0⟩, upc := 0, npc := 4, dst := 0 }, pend := 0, acq := 0, xfence := [], marks := [], inLh := false, inEm := false, mben := false, bwait := none, left := none }
  (ready true).onCur fun c => { c with frames := List.replicate 8 v }
/-- Every member has ended; the creator waits at its FSYNC for the status in x9; parent target x7 is empty. -/
def finishing : State :=
  let w : SyncWait := { fam := ⟨0, 0, 0⟩, upc := 0, npc := 4, dst := 9 }
  let g : Fam := { Fam.empty with live := true, uid := 1, next := 4, ended := 4, brk := some 3, grouted := true,
                                  desc := { Desc.empty with count := 4, pts := [7, 0, 0, 0] } }
  run id (fun c => { c with st := .fsync, fe := BitVec.ofNat 48 (2 ^ 48 - 1 - 128), sync := some w }) fun s => { s with fams := [(0, g)] }
/-- A thread on its way to context 1 of core 1, for the word 0x108 there and x9. -/
def moves : State :=
  let c := regs [(4, 0xAB0000000000), (6, 5)] { Ctx.empty with uid := 7, pc := 0x44 }
  { pair with migs := [{ uid := 7, fromCore := 0, fromCtx := 1, toCore := 1, toCtx := 1, reg := 9, addr := winKey 1 0 0x108, got := some (8, false), ctx := c, upc := 0x40, tries := 0 }] }
theorem witness_FamilyEventsResult :
    (ready false).canStart ⟨0, 0, 0⟩ = some (1, 0, 1, [0]) ∧ (ready false).outranked ⟨0, 0, 0⟩ 0 = false ∧ memWf (ready true).mem = true ∧
    (ready true).canInline 0 0 = some ⟨0, 0, 0⟩ ∧ (ready true).cur.frames.length < 8 ∧ (ready true).ownedAny (frameKey 0 0x3F801 0) 256 = false ∧
    ((ready true).fam ⟨0, 0, 0⟩).desc.perf = false ∧ (ready true).reqs = [] ∧ deep.canInline 0 0 = some ⟨0, 0, 0⟩ ∧ 8 ≤ deep.cur.frames.length ∧
    (finishing.fam ⟨0, 0, 0⟩).over = true ∧ finishing.famBusy ⟨0, 0, 0⟩ = false ∧ finishing.whereIs 1 = some (0, 0) ∧ finishing.cur.sync.isSome = true ∧
    (moves.migs.map (·.got)) = [some (8, false)] ∧ (finishing.fam ⟨0, 0, 0⟩).desc.gang = false ∧
    performable (atHome .mig true []) .mig = true ∧
    ok (.homePerform (.core 0) 1 0) { atHome .mig true [] with migs := moves.migs.map fun m => { m with uid := 1, got := none } }
      (fun t => (t.migs.map (·.got)) == [some (0xFFFFFFFF80000001, false)] && t.reqs == []) = true := by decide +kernel
/-- The word its load read is poisoned: it stands where it stood, in slot 1 of core 0, with trap 0x0F at its unit. -/
def stranded : State := { moves with migs := moves.migs.map fun m => { m with got := some (8, true) } }
theorem witness_FamilyEventsResult_poison : (stranded.migs.map (·.got)) = [some (8, true)] ∧
    ok (.migrationInstall 0) stranded (fun t => t.migs == [] && (t.ctxAt 0 1).uid == 7 && (t.ctxAt 0 1).st == .ending && (t.ctxAt 0 1).pc == 0x40 &&
      (t.ctxAt 0 1).regAt 6 == 5 && (t.raised.map fun q => (q.core, q.uid, q.cause, q.upc)) == [(0, 7, 0x0F, 0x40)]) = true := by decide +kernel
theorem test_member_events :
    ok (.memberStart 0 0 0) (ready false) (fun t =>
      let k := t.ctxAt 0 1
      k.uid == 2 && k.pc == 0x1040 && k.regAt 10 == 7 && k.regAt 11 == 77 && k.regAt 15 == 0xABC && k.regAt 4 == 1 && k.lease == [0] && k.kind == 1 &&
        (t.fam ⟨0, 0, 0⟩).next == 2 && (t.fam ⟨0, 0, 0⟩).held == []) = true ∧
    ok (.inlineMemberTake 0 0) (ready true) (fun t => t.cur.uid == 2 && t.cur.kind == 2 && t.cur.pc == 0x1040 && t.cur.reg 10 == 7 && t.cur.reg 2 == 0 &&
      (t.reqs.map fun r => (r.uid, r.addr)) == (List.range 32).map (fun i => (1, frameKey 0 0x3F801 0 + 8 * i)) &&
      ((t.reqs[2]?).map (·.op)) == some (.store (leBytes 8 6)) && ((t.reqs[16]?).map (·.op)) == some (.store (leBytes 8 0x1010)) && (t.cur.frames.map (·.uid)) == [1]) = true ∧
    ok (.inlineMemberTake 0 0) deep (fun t => cause t == 0x14 && value t == 0x3F801) = true ∧
    ok (.familyFinish 0 0 0) finishing (fun t => t.cur.st == .run && t.cur.reg 9 == 0x300000005 && t.cur.pc == 4 && t.cur.fe.getLsbD 7 && t.cur.reg 7 == 0 &&
      !(t.fam ⟨0, 0, 0⟩).live) = true ∧
    ok (.migrationInstall 0) moves (fun t => (t.ctxAt 1 1).uid == 7 && (t.ctxAt 1 1).regAt 9 == 8 && (t.ctxAt 1 1).regAt 4 == 0xAB0000000011 &&
      (t.ctxAt 1 1).regAt 6 == 5 && t.migs == []) = true := by decide +kernel

/-- A booted package with one partition of one cluster and VF 0 bound to it; launch 1 with these record words and block ranges of die 0;
team 1 of launch n on core 0. -/
def launching (w : List Word) (blocks : List (Nat × Nat)) (n : Nat) (m : Team → Team) (l : Launch → Launch) : State :=
  { run (fun c => { c with sent := 3, recv := 3, team := some 1 }) (fun _ => Ctx.empty) (fun s => { s with
      parts := [(0, 0xA000000000010800)], vbind := [(0, 0x8000000000000000)],
      launches := [(1, l { Launch.empty with live := true, ready := true, stamp := some 1, ranges := [(0, blocks)], words := w, firstCo := some 0 }),
                   (2, l { Launch.empty with live := true, ready := true, words := [3] })],
      nextLaunch := 3, nextTeam := 2, cycle := 1000,
      teams := [(1, m { Team.empty with cores := [0], launch := n, born := 1, number := 4 })] }) with iss := State.reset.iss }
/-- Launch 1 alone, with team 1 in a phase. -/
def alone (m : Team → Team) : State := launching [3, 0, 5] [] 1 m id
/-- A cluster-shaped launch of priority 1, while team 1 of launch 2 runs. -/
def pressed (l : Launch → Launch) : State := launching [0x100020003] [(0, 1)] 2 (fun m => { m with phase := .running }) l
/-- Team 1 is saved; its image stands under a save sequence. -/
def saved (seq : Nat) : State :=
  { alone (fun m => { m with phase := .saved, seq := 7 }) with
    images := [(1, { Image.none with seq := seq, cores := [(0, { Core.reset with bfmt := 0x33 })], mem := [(winKey 0 0 0, 9)] })] }
/-- Team 1 is loading: 8 bytes of scratch image behind a code arena of 64 bytes, entry 0x20, argument block 0xABC. -/
def starting : State :=
  { launching [3, 0, 5, 0, 0xABC] [] 1 (fun m => { m with phase := .loading, block := 9 }) (fun l => { l with header := [0, 0, 0x20, 0x800000040] }) with
    mem := memPut (memPut [] (partKey 0 0x80) [1, 2, 3, 4, 5, 6, 7, 8]) (winKey 0 0 0) (List.replicate 16 0xEE) }
theorem witness_TeamLifeResult : starting.up = true ∧
    (let s := launching [3, 0, 5] [(4, 6)] 1 id id
     (s.launch 1).live && (s.launch 1).stamp.isSome && (s.launch 1).result.isNone && (s.launch 1).range 0 == [(4, 6)] &&
       s.chosen (s.launch 1) 0 == some [0]) = true ∧
    (starting.team 1).phase = .loading ∧ (starting.team 1).cores = [0] ∧ memWf starting.mem = true ∧ (starting.launch 1).scratch = 8 ∧
    (starting.team 1).cores.Nodup ∧
    (let s := alone fun m => { m with phase := .running, totals := some (3, 3) }
     (s.team 1).lastWave + 256 ≤ s.cycle ∧ s.totals 1 = (3, 3) ∧ s.allHalted (s.team 1) = true) ∧
    (let s := alone fun m => { m with phase := .running, totals := some (3, 2) }
     s.totals 1 = (3, 3)) ∧
    (let s := pressed id
     (s.launch 1).live && (s.launch 1).stamp.isSome && (s.launch 1).blocksLeft != 0 && !(s.launch 1).preempting &&
       (s.unitsFor (s.launch 1)).all (fun u => !s.unitFree u) && s.victimOf (s.launch 1) == some 1) = true ∧
    (pressed id).verdict ((pressed id).launch 1) 1 = .save ∧
    (pressed fun l => { l with done := 1 }).verdict ((pressed fun l => { l with done := 1 }).launch 1) 1 = .drain ∧
    (pressed fun l => { l with words := [l.d 0 ||| 0x1000000000] }).verdict
      ((pressed fun l => { l with words := [l.d 0 ||| 0x1000000000] }).launch 1) 1 = .discard ∧
    ((pressed id).teams.map (·.1)).Nodup ∧
    (alone fun m => { m with phase := .stopping, saving := true, agreed := true }).drained 1 = true ∧
    (alone fun m => { m with phase := .stopping, agreed := true }).drained 1 = true ∧ ((after (.teamResume 1) (saved 7)).team 1).seq ≠ 0 ∧
    (alone fun m => { m with phase := .stopping, faulted := true, totals := some (3, 3) }).drained 1 = true ∧ (saved 7).mayResume 1 = true ∧
    (tabGet Image.none (saved 7).images 1).seq = ((saved 7).team 1).seq ∧ (tabGet Image.none (saved 6).images 1).seq ≠ ((saved 6).team 1).seq ∧
    (saved 6).mayResume 1 = true := by decide +kernel
/-- A halted team with agreeing waves and a store that has arrived and is not yet performed (R333). -/
def undrained : State := { alone (fun m => { m with phase := .running, totals := some (3, 3) }) with
  reqs := [{ oneStore 0 with uid := 9, home := .core 0, addr := winKey 0 0 0x108, st := 1, arr := 1 }] }
theorem witness_TeamLifeResult_images : chunksHold 5 7 [[([], Config.gcmTag 5 (nonceOf 7 0) [])]] = true ∧
    chunksHold 5 7 [[([], Config.gcmTag 5 (nonceOf 7 0) [] + 1)]] = false := by simp [chunksHold]
theorem witness_TeamLifeResult_drained : undrained.drained 1 = false ∧ undrained.allHalted (undrained.team 1) = true ∧ undrained.totals 1 = (3, 3) ∧
    ok (.quiescenceWave 1) undrained (fun t => (t.team 1).phase == .running && (t.team 1).agreed) = true ∧
    (alone fun m => { m with scrub := true, holding := true }).up = true := by decide +kernel
theorem test_team_starts :
    ok (.teamDispatch 1 0) (launching [3, 0, 5] [(4, 6)] 1 id id) (fun t => (t.team 2).phase == .loading && (t.team 2).block == 9 &&
      (t.launch 1).range 0 == [(5, 6)] && (t.core 0).cstate == 1 && (t.core 0).stop) = true ∧
    ok (.teamCostart 1) starting (fun t => (t.team 1).phase == .running && (t.ctxAt 0 0).regAt 10 == 9 && (t.ctxAt 0 0).regAt 15 == 0xABC &&
      (t.ctxAt 0 0).pc == 0x20 && t.dword (winKey 0 0 0) 0 == 0x0807060504030201 && t.dword (winKey 0 0 0) 1 == 0 && (t.core 0).cstate == 2) = true := by
  decide +kernel
theorem test_team_ends :
    ok (.quiescenceWave 1) (alone fun m => { m with phase := .running, totals := some (3, 2) }) (fun t => (t.team 1).phase == .running &&
      (t.team 1).totals == some (3, 3) && (t.team 1).lastWave == 256) = true ∧
    ok (.quiescenceWave 1) (alone fun m => { m with phase := .running, totals := some (3, 3) }) (fun t => (t.team 1).phase == .complete &&
      (t.launch 1).done == 1 && (t.core 0).team == none) = true ∧
    ok (.quiescenceWave 1) ((alone fun m => { m with phase := .stopping, faulted := true, totals := some (3, 3) }).onCore 0 fun c => { c with stop := true, flatch := [2, 0, 0, 0, 0, 0, 0, 0] })
      (fun t => (t.team 1).phase == .faulted && (t.launch 1).result == some (1, 0) && (t.core 0).flatch == []) = true ∧
    ok (.stopArrival 0) (alone fun m => { m with phase := .stopping, faulted := true }) (fun t => (t.core 0).stop && (t.core 0).cstate == 3) = true ∧
    ok (.preemptionRequest 1) (pressed id) (fun t => (t.team 1).phase == .stopping && (t.team 1).saving && (t.core 0).stop) = true ∧
    ok (.preemptionRequest 1) (pressed fun l => { l with done := 1 }) (fun t => (t.team 1).phase == .running && (t.launch 1).pre == some 1) = true ∧
    ok (.saveImageWrite 1) (alone fun m => { m with phase := .stopping, saving := true, agreed := true }) (fun t => (t.team 1).phase == .saved &&
      (t.team 1).seq == 1 && (t.core 0).team == none) = true ∧
    ok (.teamDiscard 1) (alone fun m => { m with phase := .stopping, agreed := true }) (fun t => (t.team 1).phase == .discarded &&
      (t.launch 1).range 0 == [(4, 5)]) = true ∧
    ok (.teamResume 1) (saved 7) (fun t => (t.team 1).phase == .loading && (t.core 0).bfmt == 0x33 && (t.core 0).stop && memGet t.mem (winKey 0 0 0) == 9) = true ∧
    ok (.teamCostart 1) (after (.teamResume 1) (saved 7)) (fun t => (t.team 1).phase == .running && (t.core 0).bfmt == 0x33 && !(t.core 0).stop) = true ∧
    ok (.teamResume 1) (saved 6) (fun t => (t.team 1).phase == .faulted && (t.launch 1).result == some (1, 0)) = true ∧
    ok (.holdingScrubComplete 1) { alone (fun m => { m with scrub := true, holding := true }) with mem := [(winKey 0 0 5, 1), (winKey 0 3 0, 7)] }
      (fun t => !(t.team 1).scrub && !(t.team 1).holding && t.mem == [(winKey 0 3 0, 7)]) = true := by decide +kernel

/-! ## Dyore's scheduler (R307 to R309, R323 to R329, R336) -/

/-- VF 0's queues: ring 0 with record 2 next and record 3 submitted behind it, a completion ring of 16 entries of which n are unread. -/
def queues (n : Nat) : Vf :=
  { Vf.reset with
    rings := [(0, { base := 0x1000, cfg := 0x8000000000000004, bell := 3, head := 2, times := [(2, 55)] })], hfver := 0x10101,
    comp := { base := 0x8000, cfg := 0x8000000000000004, tail := n, head := 0 } }
/-- A record and its image: shape 0, entry 0x20, handler 0x30, code 0x40, scratch 0, level 3 (R119, R324); VF 0's root enabled or not. -/
def submitted (en : Bool) (w0 : Word) : State :=
  { launching [3] [] 1 id id with
    vfs := [(0, queues 0)], imgr := [(0, 0x10000000000)], troot := [(0, if en then 0x8000000000000000 else 0)], time := 99,
    mem := memPut [] (partKey 0 0) (wordBytes [0x0003000100000000#64 ||| 0x464C4543, 0, 0x3000000020, 0x40]) ++
      (wordBytes ([w0, 0, 5, 2] ++ List.replicate 12 0)).zipIdx.map fun b => (hostBase + 0x1100 + b.2, b.1) }
/-- Launch 1 has four blocks left on die 1 and none on die 0. -/
def unequal : State :=
  let s := launching [3, 0, 0, 6] [] 1 id id
  s.onLaunch 1 fun l => { l with ranges := [(0, []), (1, [(2, 6)])] }
/-- Launch 1 has ended; its completion signal is 5, by 3. -/
def endedState (n : Nat) : State :=
  { launching [3, 0, 0, 0, 0, 0, 0, 0x30005] [] 1 id id with vfs := [(0, queues n)], cycle := 0x1234 }
/-- The plug-in's invocation began at time 0; launch 1 pends. -/
def plugged (staged : List Nat) : State :=
  let s := launching [3] [(0, 2)] 1 id (fun l => { l with ready := false })
  { s with time := 51 * microsecond, vfs := [(0, { Vf.reset with plug := { Vf.reset.plug with a0 := 7, start := some 0, staged := staged, order := [24] } })] }
/-- A list of one position at 0x100 of its data. -/
def listed (p : Nat) : State := { plugged [] with mem := memPut [] (fepBase + 0x100) (leBytes 4 p) }
theorem witness_SchedulerResult :
    (submitted true 3).up = true ∧ (submitted true 3).bound 0 = true ∧ bitsOf ((submitted true 3).vf 0).hfver 23 16 = 1 ∧
    cfgEn (((submitted true 3).vf 0).ring 0).cfg = true ∧ 2 ^ cfgLg (((submitted true 3).vf 0).ring 0).cfg = 16 ∧
    (((submitted true 3).vf 0).ring 0).head ≠ (((submitted true 3).vf 0).ring 0).bell ∧
    (tabGet 0 (submitted true 3).troot 0).getLsbD 63 = true ∧ (tabGet 0 (submitted false 3).troot 0).getLsbD 63 = false ∧
    (let s := plugged []
     (s.launch 1).live && (s.launch 1).result.isNone && !(s.launch 1).ready && s.waitsMet (s.launch 1)) = true ∧
    (let m := unequal.launch 1
     m.live && m.stamp.isSome && m.result.isNone && blocksIn (m.range 0) == 0 && blocksIn (m.range 1) == 4 &&
       (unequal.unitsFor m).any (fun u => unitDie u == 0 && unequal.unitFree u)) = true ∧
    (endedState 0).ended 1 = true ∧ ((endedState 0).launch 1).entry = [] ∧ ((endedState 0).vf 0).held = [] ∧ ((endedState 0).vf 0).comp.room 1 = true ∧
    memWf (endedState 0).mem = true ∧ ((endedState 16).vf 0).comp.room 1 = false ∧ ((endedState 0).launch 1).csig = 5 ∧
    ((plugged []).vf 0).plug.stopped = false ∧ ((plugged []).pendingOf 0).length = 2 ∧ (((plugged []).pendingOf 0).map (·.position)) = [0, 0] ∧
    50 * microsecond < (plugged []).time := by decide +kernel
/-- The completion ring of that launch is off as it ends. -/
def ringOff : State := { endedState 16 with vfs := [(0, { queues 16 with comp := { base := 0x8000, cfg := 5, tail := 16, head := 0 } })] }
theorem witness_SchedulerResult_lists : ((after (.launchCompletion 1) (endedState 16)).vf 0).held = [1] ∧
    ({ ((after (.launchCompletion 1) (endedState 16)).vf 0).comp with head := 1 } : OutRing).room 1 = true ∧
    (let s := after (.launchCompletion 1) ringOff;
      ((s.vf 0).held == [1] &&
        ({ (s.vf 0).comp with cfg := cfgWrite (s.vf 0).comp.cfg 0x8000000000000005 4 12 } : OutRing).room 1 &&
        ok (.registerWrite (.bar 0) 0x208 0x8000000000000005) s fun t => !(t.launch 1).live && (t.vf 0).held == [])) = true ∧
    ((listed 0).vf 0).plug.data = (0, 2 ^ 24) ∧ memNat (listed 9).mem (fepBase + 0x100) 4 = 9 ∧
    ok (.qorder 0 ⟨0xFFFFFF, 1⟩) (plugged []) (fun t => (t.vf 0).plug.stopped) = true ∧
    ok (.qorder 0 ⟨0x100, 65⟩) (plugged []) (fun t => (t.vf 0).plug.a0 == -1 && !(t.vf 0).plug.stopped) = true := by decide +kernel
theorem test_records :
    ok (.doorbell 0 0 5) (submitted true 3) (fun t => ((t.vf 0).ring 0).bell == 5 && tabGet 0 ((t.vf 0).ring 0).times 4 == 99) = true ∧
    ok (.doorbell 0 0 20) (submitted true 3) (fun t => ((t.vf 0).ring 0).bell == 3) = true ∧
    ok (.launchRecordCheck 0 0) (submitted true 3) (fun t => (t.launch 3).result == none && (t.launch 3).count == 2 && (t.launch 3).time == 55 &&
      (t.launch 3).entryOff == 0x20 && ((t.vf 0).ring 0).head == 3) = true ∧
    ok (.launchRecordCheck 0 0) (submitted false 3) (fun t => (t.launch 3).result == some (2, 14)) = true ∧
    ok (.launchRecordCheck 0 0) (submitted true 4) (fun t => (t.launch 3).result == some (2, 1)) = true ∧
    ok (.launchRecordCheck 0 0) (submitted true 0x40003) (fun t => (t.launch 3).result == some (2, 2)) = true := by decide +kernel
theorem test_launches :
    ok (.launchReady 1) (plugged []) (fun t => (t.launch 1).ready) = true ∧
    ok (.blockSteal 1 0) unequal (fun t => (t.launch 1).range 0 == [(4, 6)] && (t.launch 1).range 1 == [(2, 4)]) = true ∧
    ok (.launchCompletion 1) (endedState 3) (fun t => !(t.launch 1).live && (t.vf 0).comp.tail == 4 &&
      (t.signal 0 5).1 == 3) = true ∧
    ok (.launchCompletion 1) (endedState 16) (fun t => (t.launch 1).live && (t.vf 0).held == [1] && t.mem == []) = true ∧
    ok (.cheadWrite 0 1) (after (.launchCompletion 1) (endedState 16)) (fun t => !(t.launch 1).live && (t.vf 0).held == [] && (t.vf 0).comp.tail == 17) = true ∧
    ok (.qlist 0 0) (plugged []) (fun t => (t.vf 0).plug.a0 == 2) = true ∧ ok (.qorder 0 ⟨0x100, 1⟩) (listed 0) (fun t => (t.vf 0).plug.staged == [0]) = true ∧
    ok (.qorder 0 ⟨0x100, 1⟩) (listed 9) (fun t => (t.vf 0).plug.a0 == -1) = true ∧ ok (.yield 0) (plugged [0]) (fun t => (t.vf 0).plug.order == [0, 24]) = true ∧
    ok (.qlist 0 0x1000000) (plugged []) (fun t => (t.vf 0).plug.stopped) = true ∧ ok (.pluginTime 0) (plugged []) (fun t => (t.vf 0).plug.a0 == 51) = true ∧ ok (.pluginTimeout 0) (plugged [0]) (fun t => (t.vf 0).plug.start == none) = true ∧
    ok (.pluginFault 0) (plugged []) (fun t => (t.vf 0).plug.stopped) = true ∧ ok (.cctlWrite 0 1) (plugged []) (fun t => (t.core 0).stop) = true ∧
    ok (.flatchClear 0) ((plugged []).onCore 0 fun c => { c with flatch := [1] }) (fun t => (t.core 0).flatch == []) = true := by decide +kernel

/-! ## Commands, the AMU, Bellows, Grout (R256 to R258, R274 to R303) -/

/-- Cores 0 and 1 in a team; x10 to x13 a command; x5 a block of the own scratchpad at 0x400. -/
def commanding (w : List Word) (m : List Byte) : State :=
  { pair with
    cores := (pair.onCur fun c => (List.range 4).foldl (fun c i => regs [(10 + i, w.getD i 0), (5, spad 0x400)] c) c).cores
    mem := memPut pair.mem (winKey 0 0 0x400) m }
/-- A copy of 16 bytes from 0x100 to 0x200 of the own scratchpad; a gather of 2 rows of 8 bytes. -/
def copyWords : List Word := [0x1000000001, spad 0x100, spad 0x200, 0]
def gatherWords : List Word := [0x20008200001, spad 0x300, 0x10000, spad 0x200]
/-- The queues behind these commands are full. -/
def stuffed (s : State) : State :=
  let q := s.newCommand copyWords 0 0
  (s.onHere fun c => { c with copyq := List.replicate 4 q }).onCluster 0 fun k => { k with iceq := List.replicate 16 q }
/-- A mask block of the program TRUE, END, and a Bellows block of f32 points at 0x600. -/
def maskBlock : List Byte := leBytes 8 2 ++ List.replicate 56 0 ++ leBytes 2 0 ++ leBytes 2 0x7000
def pointBlock : List Byte := leBytes 8 0 ++ leBytes 8 (spad 0x600).toNat ++ leBytes 8 0 ++ leBytes 8 0x100
theorem witness_CommandInstructionsResult :
    (commanding copyWords []).misuse (blockRegs 10) [9] = false ∧ ((commanding copyWords []).copyPlan 0 copyWords).isSome = true ∧
    (blockRegs 10).map (commanding copyWords []).rd = copyWords ∧ (commanding copyWords []).here.copyQueued < 4 ∧
    4 ≤ (stuffed (commanding copyWords [])).here.copyQueued ∧ (commanding copyWords []).copyPlan 0 [0x1000000008, spad 0x100, spad 0x200, 0] = none ∧
    (commanding copyWords []).cur.posted 0 = false ∧ (after (.cqpush 9 10) (stuffed (commanding copyWords []))).cur.posted 0 = true ∧ ((commanding gatherWords []).icePlan 0 gatherWords).isSome = true ∧
    ((commanding gatherWords []).cluster 0).iceq.length < 16 ∧ (commanding gatherWords []).icePlan 0 copyWords = none ∧
    classify 0 ((commanding [] maskBlock).rd 5) = .window 0 0 0x400 ∧ (commanding [] maskBlock).spadWaits (winKey 0 0 0x400) 384 = false ∧ (commanding [] maskBlock).spadBad (0x400, 384) = false ∧
    (commanding [] pointBlock).holdsBellows 0 0 = true ∧ (commanding [] pointBlock).bellowsWaits 0 = false ∧ (commanding [] pointBlock).spadWaits (winKey 0 0 0x400) 64 = false ∧
    16 ≤ ((stuffed (commanding gatherWords [])).cluster 0).iceq.length ∧
    (commanding [] pointBlock).spadBad (0x400, 64) = false ∧
    ((commanding [] pointBlock).readBellows ((commanding [] pointBlock).dword (winKey 0 0 0x400))).isSome = true ∧
    (commanding [] maskBlock).readBellows ((commanding [] maskBlock).dword (winKey 0 0 0x400)) = none ∧ memWf (commanding [] pointBlock).mem = true := by
  decide +kernel
theorem test_posts :
    ok (.cqpush 9 10) (commanding copyWords []) (fun t => (t.here.copyq.map (·.words)) == [copyWords] && t.cur.reg 9 == 0 && t.here.sent == 1) = true ∧
    ok (.cqpushn 9 10) (stuffed (commanding copyWords [])) (fun t => t.cur.reg 9 == 1 && t.here.copyq.length == 4 && t.cur.pc == 4) = true ∧
    ok (.cqpush 9 10) (stuffed (commanding copyWords [])) (fun t => t.cur.posted 0 && t.cur.pc == 0) = true ∧
    ok (.cqpush 9 10) (commanding [0x1000000008, spad 0x100, spad 0x200, 0] []) (fun t => cause t == 0x0C && value t == 0x1000000008) = true ∧
    ok (.gpost 9 10) (commanding gatherWords []) (fun t => t.cur.reg 9 == 1 && ((t.cluster 0).iceq.map (·.ticket)) == [1]) = true ∧
    ok (.gpost 9 10) (stuffed (commanding gatherWords [])) (fun t => t.cur.posted 0) = true ∧
    ok (.cqstat 9) (stuffed (commanding [] [])) (fun t => t.cur.reg 9 == 4) = true ∧ ok (.gstat 9) (stuffed (commanding [] [])) (fun t => t.cur.reg 9 == 16) = true := by
  decide +kernel
theorem test_block_units :
    ok (.mbind 9 5) (commanding [] maskBlock) (fun t => ((t.cluster 0).amuq.map fun r => (r.op, r.dst, r.block.take 8)) == [(0, 9, leBytes 8 2)] && t.cur.pend.getLsbD 9) = true ∧
    ok (.mclass 9 10 11) (commanding [7, 8] []) (fun t => ((t.cluster 0).amuq.map fun r => (r.op, r.a, r.b)) == [(1, 7, 8)]) = true ∧
    ok (.mrow 2 10 11) (commanding [7, 8] []) (fun t => ((t.cluster 0).amuq.map fun r => (r.op, r.dst)) == [(2, 2)] && t.cur.pendK.getLsbD 2) = true ∧
    ok (.mcnt 9 1) (commanding [] []) (fun t => ((t.cluster 0).amuq.map fun r => (r.op, r.a)) == [(3, 1)]) = true ∧
    ok (.pload 5 0) (commanding [] pointBlock) (fun t => (t.bellows 0 0).fmt == 1 && (t.bellows 0 0).out == spad 0x600) = true ∧
    ok (.pload 5 0) (commanding [] maskBlock) (fun t => cause t == 9) = true ∧
    ok (.psave 5 0) (after (.pload 5 0) (commanding [] pointBlock)) (fun t => (t.reqs.map fun r => match r.op with | .block _ _ ws => (r.addr, ws.length, (ws.getD 3 (0, 0, true))) | _ => (0, 0, 0, 0, true)) ==
      [(winKey 0 0 0x400, 8, winKey 0 0 0x418, 0x100, false)]) = true ∧
    ok (.pstat 9 0) (after (.pload 5 0) (commanding [] pointBlock)) (fun t => (t.fills.map fun f => (f.reg, f.val)) == [(9, 0)]) = true := by decide +kernel
/-- A request of the thread waits at the AMU; the thread has a binding of two words, K ≥ Q and END, or none. -/
def masking (op : Nat) (a b : Word) (block : List Byte) (bound : Bool) : State :=
  (pair.onCur fun c => { c with bind := if bound then some { prog := [0x1800, 0x7000], docs := [] } else none, cnt := #v[3, 2, 1],
                                pendK := 4 }).onCluster 0 fun k =>
    { k with amuq := [{ uid := 1, base := 1, core := 0, op := op, who := [], dst := if op = 2 then 2 else 9, a := a, b := b, upc := 0, block := block, bind := none }] }
theorem witness_ClusterUnitsResult_amu : (masking 0 0 0 maskBlock false).holder 1 = some (0, 0) ∧ (readBlock maskBlock).isSome = true ∧ (readBlock [1]).isSome = false ∧
    (masking 1 0 2 [] true).cur.bind.isSome = true ∧ (masking 2 0 0 [] true).whereIs 1 = some (0, 0) ∧
    ok (.amuServe 0) (masking 0 0 0 maskBlock false) (fun t => (t.fills.map (·.val)) == [0x10002] && (t.cur.bind.map (·.prog)) == some [0, 0x7000]) = true ∧
    ok (.amuServe 0) (masking 0 0x77 0 [1] false) (fun t => cause t == 0x0D && value t == 0x77) = true ∧
    ok (.amuServe 0) (masking 1 0 2 [] false) (fun t => cause t == 0x0D) = true ∧ ok (.amuServe 0) (masking 1 0 0 [] true) (fun t => cause t == 0x0D) = true ∧
    ok (.amuServe 0) (masking 2 (2 ^ 31) 0 [] true) (fun t => cause t == 0x0D) = true ∧
    ok (.amuServe 0) (masking 3 1 0 [] true) (fun t => (t.fills.map (·.val)) == [3 * 2 ^ 42 + 2 * 2 ^ 21 + 1] && t.cur.cnt == #v[0, 0, 0]) = true := by
  decide +kernel
/-- The thread of a legal request has ended: it is performed under the binding it was made with, and its reply dropped. -/
def orphaned : State :=
  let s := masking 2 1 0 [] true
  { (s.onCluster 0 fun k => { k with amuq := k.amuq.map fun r => { r with bind := some { prog := [0x1800, 0x7000], docs := [] } } }) with cores := [] }
theorem witness_ClusterUnitsResult_gone : orphaned.holder 1 = none ∧ orphaned.moving 1 = none ∧ (orphaned.teamOf 0).ending = false ∧
    ((orphaned.cluster 0).amuq.all fun r => r.bind.isSome && decide (r.a.toNat < 2 ^ 31)) = true ∧
    ok (.amuServe 0) orphaned (fun t => (t.cluster 0).amuq == [] && t.raised == []) = true := by decide +kernel
/-- Under K ≥ Q (R274), tile (0, 0) is partial, tile (0, 16) full; row 1 from key 0 has k = 1 to 31. -/
theorem test_mask_classes :
    ok (.amuServe 0) (masking 1 0 2 [] true) (fun t => (t.fills.map (·.val)) == [0b1001] && t.cur.cnt == #v[3, 3, 2]) = true ∧
    ok (.amuServe 0) (masking 2 1 0 [] true) (fun t => t.cur.mask 2 == 0xFFFFFFFE && t.cur.pendK == 0) = true := by decide +kernel
def groutEntry : GroutEntry := { fam := ⟨0, 0, 0⟩, ord := 3, id := 0, units := [], maps := [] }
/-- A perforated family of the 2 by 2 grid, under coverage 1, lattice 0, with context 0 on f32 points at 0x600: it has a latch waiting, an update of
one probe, or has reached Grout. Points (0, 0) to (1, 0) hold 1, 2, 3 and (1, 1) is skipped. -/
def perforated (q : List BellowsReq) (b : Bellows) (done : Bool) : State :=
  let d : Desc := { Desc.empty with perf := true, count := 4, ni := 2, cov := 1 }
  let f : Fam := { Fam.empty with live := true, ord := 3, uid := 1, next := 4, ended := 3, coverage := if done then some 1 else none, desc := d }
  { pair with
    fams := [(0, f)],
    clusters := [(0, { Cluster.reset with bellowsq := q, bellows := [(0, b)], groutq := if done then [groutEntry] else [] })],
    mem := memPut [] (winKey 0 0 0x600) (leBytes 4 0x3F800000 ++ leBytes 4 0x40000000 ++ leBytes 4 0x40400000) }
def points : Bellows := { Bellows.fresh with fmt := 1, out := spad 0x600, ptpitch := 4, rowpitch := 8, hi := 0x3F000000, lo := 0x3D000000, ceil := 3, cur := 2 }
def latchReq : BellowsReq := { fam := ⟨0, 0, 0⟩, ord := 3, ctx := 0, probes := none }
/-- One probe: 1.0 against 1.0, or 1.0 against 2.0. -/
def updateReq (bad : Bool) : BellowsReq := { latchReq with probes := some [[(0x3F800000, if bad then 0x40000000 else 0x3F800000)]] }
/-- Its team is ending as it has faulted. -/
def endingTeam : State := { masking 0 0 0 maskBlock false with teams := [(1, { Team.empty with phase := .stopping, faulted := true, cores := [0, 1] })] }
theorem witness_ClusterUnitsResult :
    ((perforated [latchReq] points false).fam latchReq.fam).live = true ∧ ((perforated [latchReq] points false).fam latchReq.fam).ord = latchReq.ord ∧
    meanError 1 [[(0x3F800000, 0x3F800000)]] = 0 ∧ meanError 1 [[(0x3F800000, 0x40000000)]] = 0x3F800000 ∧
    ((perforated [] points true).fam ⟨0, 0, 0⟩).marked = false ∧ (perforated [] points true).famBusy ⟨0, 0, 0⟩ = false ∧
    ((perforated [] points true).teamOf 0).ending = false ∧ ((perforated [] points true).bellows 0 0).base 0 = (false, winKey 0 0 0x600) ∧
    (perforated [] points true).owned = [] ∧ (perforated [] points true).olderWaits 0 [0] = false ∧
    ((perforated [] points true).cluster 0).groutq = groutEntry :: [] ∧ ((perforated [] points true).cluster 0).groutRun = none ∧
    ((perforated [] points true).fam ⟨0, 0, 0⟩).ord = groutEntry.ord ∧
    ((perforated [] points true).fam ⟨0, 0, 0⟩).desc.skipped 1 = [(1, 1)] ∧ (masking 0 0 0 maskBlock false).holder 1 = some (0, 0) ∧
    ((masking 0 0 0 maskBlock false).teamOf 0).ending = false ∧ (endingTeam.teamOf 0).ending = true ∧ (masking 2 1 0 [] true).keptBy 1 = none ∧
    ok (.amuServe 0) endingTeam (fun t => (t.cluster 0).amuq == [] && t.cores == endingTeam.cores) = true := by
  decide +kernel
theorem test_cluster_units :
    ok (.bellowsLatch 0) (perforated [latchReq] points false) (fun t => (t.fam ⟨0, 0, 0⟩).coverage == some 1) = true ∧
    ok (.bellowsLatch 0) (perforated [latchReq] { points with adapt := true } false) (fun t => (t.fam ⟨0, 0, 0⟩).coverage == some 2) = true ∧
    ok (.bellowsUpdate 0) (perforated [updateReq true] { points with adapt := true } true) (fun t => (t.bellows 0 0).cur == 1 && (t.bellows 0 0).mean == 0x3F800000 &&
      (t.fam ⟨0, 0, 0⟩).grouted) = true ∧
    ok (.bellowsUpdate 0) (perforated [updateReq false] { points with adapt := true } true) (fun t => (t.bellows 0 0).cur == 2 && (t.bellows 0 0).streak == 1) = true ∧
    ok (.bellowsUpdate 0) (perforated [updateReq false] { points with adapt := true, streak := 1 } true) (fun t => (t.bellows 0 0).cur == 3) = true ∧
    ok (.bellowsUpdate 0) (perforated [updateReq true] { points with adapt := true, hi := 0x3F800000, lo := 0x3F800000 } true) (fun t => (t.bellows 0 0).cur == 2) = true ∧
    ok (.bellowsUpdate 0) (perforated [updateReq true] points true) (fun t => (t.bellows 0 0).cur == 2 && (t.bellows 0 0).done == 1) = true := by decide +kernel
/-- Grout has begun that family; its n next granules are read; what it wrote is performed. -/
noncomputable def grouting : State := after (.grout 0) (perforated [] points true)
noncomputable def groutReading : Nat → State
  | 0 => grouting
  | n + 1 => after (.engineRead (.grout 0) 0) (groutReading n)
noncomputable def groutDone : State := { groutReading 4 with reqs := [], owned := [] }
theorem witness_ClusterUnitsResult_grout : ((grouting.cluster 0).groutRun.map fun j => (j.fam, j.grans.length, j.pieces.length)) = some (⟨0, 0, 0⟩, 4, 1) ∧
    ((groutDone.cluster 0).groutRun.map fun j => j.grans.all (·.got.isSome) && j.pieces.all (·.done)) = some true ∧ groutDone.engineBusy (groutEng 0) = false := by
  decide +kernel
/-- The skipped point takes the mean of (0, 1), twice, and (1, 0), twice: (3 + 3 + 2 + 2) / 4 = 2.5 (R292, R295). -/
theorem test_grout : ok (.grout 0) groutDone (fun t => (t.cluster 0).groutq == [] && (t.cluster 0).groutRun == none && ((t.cluster 0).bellowsq.map (·.probes)) == [some []]) = true ∧
    ((groutReading 4).reqs.map fun r => match r.op with
      | .engWrite _ _ _ b p => (r.addr, leNat b, p)
      | _ => (0, 0, true)) = [(winKey 0 0 0x60C, 0x40200000, false)] := by decide +kernel

/-! ## Engines (R84, R87, R89, R256 to R269) -/

/-- The command of these words is at the head of core 0's queue; a block of slot 0 stands at 0x3C000 of its scratchpad. -/
noncomputable def queuedCopy (w : List Word) : State :=
  let s := commanding w []
  { after (.cqpush 9 10) s with mem := memPut s.mem (winKey 0 0 0x3C000) (leBytes 8 0 ++ leBytes 8 0 ++ leBytes 8 2 ++ leBytes 8 32 ++ leBytes 8 16) }
/-- It has begun; its granules are read. -/
noncomputable def begun (i : Instr) (w : List Word) : State := after i (queuedCopy w)
noncomputable def granted : Nat → State → State
  | 0, s => s
  | n + 1, s => granted n (after (.engineRead (.copy 0) 0) s)
/-- Its writes are performed. -/
noncomputable def written (i : Instr) (n : Nat) (w : List Word) : State :=
  let s := granted n (begun i w)
  { s with reqs := [], owned := [] }
def fillWords : List Word := [0x1000000003, 0x1122334455667788, spad 0x200, 0]
/-- Two rows of 16 bytes, 32 apart at the source and 16 at the destination. -/
def stridedWords : List Word := [0x1000000005, spad 0x100, spad 0x200, 0]
/-- Copies that end with a completion of each mode: word 0x210, core 1's mailbox, trigger 6, core 1's register 5 of context 0. -/
def completing (mode : Nat) : List Word :=
  [BitVec.ofNat 64 (0x1000000001 + mode * 2 ^ 20), spad 0x100, spad 0x200,
   if mode = 1 then spad 0x210 else if mode = 2 then 0x10 else if mode = 3 then 6 else 0xFFFFF00050000028]
/-- An accumulation over f32 banks, a put and a get of 16 bytes, a multicast of a line to cores 0 and 1 from a present page. -/
noncomputable def accumulating : State :=
  after (.cqpush 9 10) ((commanding [0x1000000002, spad 0x100, spad 0x200, 0] []).onHere fun c => { c with bfmt := 1 })
def putWords : List Word := [0x1000000006, spad 0x100, 0, 0]
def getWords : List Word := [0x1000000007, 0, spad 0x200, 0]
def castWords : List Word := [0x8000000004, 0x10000, 0x4000003, 0]
noncomputable def casting : State :=
  let s := queuedCopy castWords
  { s with parts := [(0, 0xA000000000010800)], clusters := [(0, { Cluster.reset with tlb := [{ vf := 0, level := 3, page := 1, entry := 0x10007 }] })] }
/-- The start conditions of a command of core 0: its plan, block, fits, banks, pages, ownership. -/
noncomputable def startable (s : State) : Bool :=
  match s.here.copyq with
  | [] => false
  | r :: _ =>
    let w0 := r.w 0
    let blk := fun j => s.blockWord 0 (cSlot w0) j
    s.released r && !(s.teamOf 0).ending && s.here.copyRun.isNone && s.owned == [] && !s.olderWaits r.id [] &&
      (!readsBlock w0 || (!s.blockWaits 0 r && !s.poisonedAny (winKey 0 0 (0x3C000 + 64 * cSlot w0)) 64 && bitsOf (blk 1) 63 32 == 0 &&
        bitsOf (blk 2) 63 32 == 0 && bitsOf (blk 5) 63 16 == 0 && blk 6 == 0 && blk 7 == 0)) &&
      match s.copyPlan 0 r.words with
      | none => false
      | some p =>
        let rows := if r.op = 5 then rowDeltas (bitsOf (blk 2) 31 0) (blk 3).toInt (blk 4).toInt else [((0 : Int), (0 : Int))]
        let n := cLen w0 / p.es * p.ed
        let starts := pageStarts ((match p.src with | some e => if e.glob then rows.map fun q => (atDelta e.pos q.1, cLen w0, false) else [] | none => []) ++
          (match p.dst with | some e => if e.glob then rows.map fun q => (atDelta e.pos q.2, n, true) else [] | none => []))
        let maps := s.gathered 0 (s.teamOf 0).vf r.maps starts
        rows != [] && (r.op != 5 || ((blk 3).toInt % p.es == 0 && (blk 4).toInt % p.ed == 0)) &&
          (p.src.all fun e => rows.all (fun q => e.fits q.1 (cLen w0)) && !s.mixedBanks e (rows.map fun q => (atDelta e.pos q.1, cLen w0))) &&
          (p.dst.all fun e => rows.all (fun q => e.fits q.2 n) && !s.mixedBanks e (rows.map fun q => (atDelta e.pos q.2, n))) &&
          (missing maps (s.teamOf 0).vf starts).isNone && (s.pagesOf (s.teamOf 0).vf maps starts).all (fun q => !q.2.1 || q.2.2.write) &&
          (s.sealBroken 0 (r.op == 1 || r.op == 4 || r.op == 5) (r.op == 4 || p.dst.any fun e => !e.glob) (s.pagesOf (s.teamOf 0).vf maps starts)).isNone
theorem witness_EnginesResult_begin : startable (queuedCopy copyWords) = true ∧ startable (queuedCopy fillWords) = true ∧ startable (queuedCopy stridedWords) = true ∧
    startable accumulating = true ∧ startable { queuedCopy putWords with mem := [] } = true ∧ startable { queuedCopy getWords with mem := [] } = true ∧
    startable casting = true ∧
    ((after (.copyAccumulate 0) accumulating).here.copyRun.map fun r => (r.begun, r.srcFmt, r.dstFmt)) = some (true, 1, 1) ∧
    ((after (.packagePut 0) { queuedCopy putWords with mem := [] }).here.copyRun.map fun r => (r.begun, r.grans.length)) = some (true, 2) ∧
    ((after (.packageGet 0) { queuedCopy getWords with mem := [] }).here.copyRun.map fun r => (r.begun, r.pieces.length)) = some (true, 2) ∧
    ((after (.multicastRead 0) casting).here.copyRun.map fun r => (r.begun, r.grans.length, r.pieces.length)) = some (true, 16, 32) ∧
    ((begun (.copy 0) copyWords).here.copyRun.map fun r => (r.begun, r.parked, r.grans.length, r.pieces.length)) = some (true, false, 2, 2) ∧
    ((begun (.stridedCopy 0) stridedWords).here.copyRun.map (·.pieces.length)) = some 4 ∧
    ((begun (.fill 0) fillWords).reqs.map (·.addr)) = [winKey 0 0 0x200, winKey 0 0 0x208] ∧
    ((begun (.fill 0) fillWords).owned.map (·.key)) = [winKey 0 0 0x200 / 128] := by decide +kernel
/-- The head command of core 0 in a team that has faulted; one whose words no longer pass; one whose block is poisoned; one behind a fence. -/
noncomputable def ended : State := { queuedCopy copyWords with teams := [(1, { Team.empty with phase := .stopping, faulted := true, cores := [0, 1] })] }
noncomputable def failing : State := (queuedCopy copyWords).onHere fun k => { k with copyq := k.copyq.map fun r => { r with words := [0x30001] } }
noncomputable def spoilt : State := { queuedCopy stridedWords with poison := [winKey 0 0 0x3C000 / 8] }
noncomputable def fenced : State :=
  let s := (queuedCopy copyWords).onHere fun k => { k with copyq := k.copyq.map fun r => { r with fence := [(1, 9, 2)] } }
  { s with reqs := [oneStore 1] }
theorem witness_EnginesResult_refusals : (ended.teamOf 0).ending = true ∧ ok (.copy 0) ended (fun t => t.here.copyq == [] && t.here.recv == 1) = true ∧
    (failing.here.copyq.map fun r => (failing.copyPlan 0 r.words).isNone) = [true] ∧ ok (.copy 0) failing (fun t => cause t == 0x0C && t.here.copyRun == none) = true ∧
    spoilt.poisonedAny (winKey 0 0 0x3C000) 64 = true ∧ ok (.stridedCopy 0) spoilt (fun t => cause t == 0x0F && value t == BitVec.ofNat 64 (winKey 0 0 0x3C000)) = true ∧
    (fenced.here.copyq.map fenced.released) = [false] ∧ ok (.copy 0) fenced (fun t => t.here.copyRun == none && t.here.copyq.length == 1) = true := by decide +kernel
theorem witness_pkgRefuses : ({ State.reset with pkgVer := [(2, 2)] } : State).pkgRefuses 2 = true := by simp [State.pkgRefuses, tabGet]
theorem witness_EnginesResult_copies : 
    ((written (.copy 0) 2 copyWords).here.copyRun.any fun r => (written (.copy 0) 2 copyWords).copyOver 0 r && cMode (r.w 0) == 0 && r.join == none && !cSr (r.w 0)) = true ∧
    (((granted 2 (begun (.copy 0) copyWords)).reqs.map (·.op)) ==
      [.engWrite 0 0 0 [0x80, 0xFF, 1, 0, 0, 0, 0, 0] false, .engWrite 0 0 0 [0, 0, 0, 0, 0, 0, 0, 0] false]) = true ∧
    ok (.engineRead (.copy 0) 1) (begun (.copy 0) copyWords) (fun t => (t.here.copyRun.map fun r => r.grans.map (·.got.isSome)) == some [false, true]) = true ∧
    ok (.copy 0) (written (.copy 0) 2 copyWords) (fun t => t.here.copyRun == none && t.here.copyDone == 1 && t.here.recv == 1) = true := by decide +kernel
/-- Core 0's command c runs alone, as told. -/
def running (c : Command) : State := (commanding [] []).onHere fun k => { k with copyRun := some c }
def base (op : Nat) : Command := { (commanding [] []).newCommand [BitVec.ofNat 64 op, 0x10000, 0, 0] 0 0 with begun := true }
/-- A granule of the own scratchpad still to be read. -/
def unreadGran : Gran := { tag := 0, va := 0x100, key := winKey 0 0 0x100, home := .core 0, slot := 0, stream := false, got := none, tries := 0 }
/-- Four triggers wait; a copy under SR has ended. -/
noncomputable def full : State := (written (.copy 0) 2 (completing 3)).onCur fun c => { c with trig := List.replicate 4 (2, 9, 1) }
def counting : State := running { base 0x1000800002 with phase := 1 }
/-- A stochastic command of counter 4 has one granule to read and nothing more to write. -/
def stochasticEnd : State := running { base 0x1000800002 with counter := 4, grans := [unreadGran] }
theorem witness_EnginesResult_completions : ((written (.copy 0) 2 (completing 3)).teamOf 0).ending = false ∧ classify 0 (spad 0x210) = .window 0 0 0x210 ∧
    classify 0 0xFFFFF00050000028 = .window 1 2 0x28 ∧ (written (.copy 0) 2 (completing 3)).cur.roomTrig = true ∧
    ok (.completionFeFill 0) (written (.copy 0) 2 (completing 1)) (fun t => (t.reqs.map fun r => (r.addr, r.op)) == [(winKey 0 0 0x210, .complete 0x1000000000)]) = true ∧
    ok (.completionMailbox 0) (written (.copy 0) 2 (completing 2)) (fun t => (t.reqs.map fun r => (r.home, r.op)) == [(.core 1, .mail 0x1000000000)]) = true ∧
    ok (.completionHandlerTrigger 0) (written (.copy 0) 2 (completing 3)) (fun t => t.cur.trig == [(1, 6, 1)]) = true ∧
    ok (.completionRegisterFill 0) (written (.copy 0) 2 (completing 4)) (fun t => (t.reqs.map fun r => (r.home, r.op)) ==
      [(.core 1, .fill 0 0x1000000000)]) = true ∧
    full.cur.roomTrig = false ∧ ok (.completionHandlerTrigger 0) full (· == full) = true ∧
    ok (.completionHandlerTrigger 0) ((written (.copy 0) 2 (completing 3)).onCur fun c => { c with uid := 8 }) (fun t => t.cur.trig == [] && t.here.copyDone == 1) = true ∧
    counting.copyOver 0 (counting.here.copyRun.getD (base 1)) = true ∧ ok (.copyAccumulate 0) counting (fun t => t.here.copyRun == none && t.here.copyDone == 1) = true ∧
    ok (.engineRead (.copy 0) 0) stochasticEnd (fun t => (t.here.copyRun.map (·.phase)) == some 1 && (t.reqs.map fun r => (r.cls, r.addr, r.op)) ==
      [(3, winKey 0 0 0x3C008, .engWrite 0 0 0 [5, 0, 0, 0] false)]) = true := by decide +kernel
theorem witness_EnginesResult_others : (base 6).begun = true ∧ (base 7).status = none ∧
    ((running { base 4 with join := some (1, 1, 0), grans := [unreadGran] }).core 1).copyRun = none ∧
    nextLine [unreadGran] = [unreadGran] ∧ unreadGran.slot = 0 ∧
    ok (.ackTimeout 0) (running (base 6)) (fun t => (t.here.copyRun.map (·.status)) == some (some 1)) = true := by
  decide +kernel
/-- A gather of two rows of 8 bytes at indices 1 and 0 from a present global page into the scratchpad. -/
noncomputable def gathering : State :=
  let s := after (.gpost 9 10) (commanding gatherWords [])
  { s with mem := memPut s.mem (winKey 0 0 0x300) [1], parts := [(0, 0xA000000000010800)],
           clusters := s.clusters.map fun k => (k.1, { k.2 with tlb := [{ vf := 0, level := 3, page := 1, entry := 0x10007 }] }) }
noncomputable def iceRead (s : State) : State := after (.engineRead (.ice 0) 0) s
/-- Its indices are read; its rows are known; its rows are read; its chunk is written. -/
noncomputable def indexed : State := iceRead (after (.gather 0) gathering)
noncomputable def known : State := after (.gather 0) indexed
noncomputable def chunked : State := iceRead (iceRead known)
noncomputable def sent : State := { after (.iceChunkBegin 0) chunked with reqs := [], owned := [] }
/-- The ICE has read its chunk; a granule of the next is still to be read. -/
def ahead : State := (commanding [] []).onCluster 0 fun k =>
  { k with iceRun := some { base 1 with phase := 1 }, iceAhead := some { base 1 with chunk := 1, grans := [unreadGran] } }
theorem witness_EnginesResult_ice : ((gathering.cluster 0).iceq.map fun r => (r.op, gathering.released r)) = [(1, true)] ∧
    ((indexed.cluster 0).iceRun.map fun r => (r.phase, r.parked, iCount (r.w 0), r.grans.all (·.got.isSome))) = some (0, false, 2, true) ∧
    classify 0 (spad 0x300) = .window 0 0 (bitsOf (spad 0x300) 26 0) ∧ (let p := pageStarts [(0x10008, 8, false), (0x10000, 8, false)]; missing (indexed.gathered 0 0 [] p) 0 p = none) ∧
    ((chunked.cluster 0).iceRun.map fun r => (r.dstFmt, missing r.maps 0 r.rowPages)) = some (0, none) ∧
    (indexed.icePlan 0 gatherWords).isSome = true ∧ ((known.cluster 0).iceRun.map fun r => (r.phase, r.xs)) = some (1, [1, 0]) ∧
    ((chunked.cluster 0).iceRun.map fun r => r.grans.all (·.got.isSome)) = some true ∧ chunked.engineBusy 1 = false ∧ chunked.owned = [] ∧
    ((after (.iceChunkBegin 0) chunked).reqs.map (·.addr)) = [winKey 0 0 0x200, winKey 0 0 0x208] ∧
    ((sent.cluster 0).iceRun.map fun r => (r.phase, r.chunk)) = some (0, 1) ∧ sent.engineBusy 1 = false ∧ sent.here.team ≠ none ∧
    ok (.iceEventSignal 0) sent (fun t => ((t.cluster 0).iceRun.map (·.phase)) == some 2 && t.here.events == 4 && tabGet 0 (t.teamOf 0).iceDone 0 == 0) = true ∧
    ok (.iceEventSignal 0) (after (.iceEventSignal 0) sent) (fun t => (t.cluster 0).iceRun == none && tabGet 0 (t.teamOf 0).iceDone 0 == 1) = true ∧
    ((after (.gather 0) gathering).iceReads 0).length = 1 ∧
    ahead.engineBusy 1 = false ∧ (ahead.iceReads 0) = [(true, unreadGran)] ∧
    ok (.engineRead (.ice 0) 0) ahead (fun t => ((t.cluster 0).iceAhead.map fun r => r.grans.all (·.got.isSome)) == some true && t.reqs == []) = true := by
  decide +kernel

/-! ## Registers of the I/O die, partitions, translation (R338 to R348, R374 to R380) -/

/-- A thread of VF 0 waits for a walk at a level; the tables at 0x20000 and 0x30000 hold one entry; the launching package around it. -/
def walking (level : Nat) (entry : Nat) : State :=
  let s := launching [3] [] 1 id id
  { s with
    cores := [(0, { Core.reset with stop := false, ctxs := [(0, { Ctx.empty with uid := 1, st := .walk })], team := some 1 })],
    parts := [(0, 0xA000000000010800)], troot := [(0, 0x8000000000020000)],
    walks := [{ vf := 0, va := 0x10008, write := false, cl := 0, level := level, table := 0x20000, who := .ctx 0 0 1 }],
    mem := memPut [] (partKey 0 (if level = 3 then 0x20008 else 0x20000)) (leBytes 8 entry) }
/-- The fault that entry 0 of die 0's queue holds for the thread. -/
noncomputable def faulted : State := after (.translationWalk 0) (walking 3 0)
theorem witness_RegistersResult_walks : ((walking 3 0).walks.map (·.who)) = [.ctx 0 0 1] ∧ ((walking 3 0).ctxAt 0 0).uid = 1 ∧ ((walking 3 0).ctxAt 0 0).st = .walk ∧ ((walking 3 0).ctxAt 0 0).sfuHeld = [] ∧
    (walking 3 0).malformed 0 3 0x50007 = false ∧ (walking 3 0).malformed 0 3 0x50005 = true ∧ (walking 1 0).malformed 0 1 0x30001 = false ∧
    (walking 3 0x50007).tlbFind 0 0 0x10008 = none ∧ (walking 3 0).walking 0 = true ∧
    ok (.translationWalk 0) (walking 3 0) (fun t => t.walks == [] && (t.ctxAt 0 0).st == .parked && (t.fq.map fun f => (f.page, f.bad, f.index)) == [(1, false, some 0)]) = true ∧
    ok (.translationWalk 0) (walking 3 0x50005) (fun t => (t.fq.map (·.bad)) == [true]) = true ∧
    ok (.translationWalk 0) (walking 3 0x50007) (fun t => (t.ctxAt 0 0).st == .run && ((t.translate 0 0 0x10008).map (·.key)) == some (partKey 0 0x50008)) = true ∧
    ok (.translationWalk 0) (walking 1 0x30001) (fun t => (t.walks.map fun w => (w.level, w.table)) == [(2, 0x30000)]) = true := by decide +kernel
theorem witness_RegistersResult_faults : faulted.fepQuiet = true ∧ (faulted.fq.find? fun f => f.die == 0 && f.index == some 0).isSome = true ∧ (faulted.fq.map (·.waiters)) = [[(.ctx 0 0 1, 0x10008)]] ∧
    (faulted.ctxAt 0 0).uid = 1 ∧ (faulted.ctxAt 0 0).st = .parked ∧ ok (.fresReplay 0 0) faulted (fun t => (t.ctxAt 0 0).st == .run && t.fq == [] && (t.replays.map (·.head)) == [.ctx 0 0 1]) = true ∧
    ok (.fresFail 0 0) faulted (fun t => cause t == 5 && value t == 0x10008) = true := by decide +kernel
/-- A booted package with partition 0 in a state, VF 0 bound to it or to nothing. -/
def board (part : Word) (bind : Word) : State := { State.reset with bootst := 0x80, parts := [(0, part)], vbind := [(0, bind)] }
def partOk : Word := 0xA000000000010800
theorem witness_RegistersResult_partitions : (board 0 0).up = true ∧ (board 0 0).partState 0 = 0 ∧ rectFits 0x8000000000010800 = true ∧ rectFits 0x8000000000000800 = false ∧
    (board partOk 0).vfsOf 0 = [] ∧ (board partOk 0x8000000000000000).vfsOf 0 = [0] ∧ (board 0x1000000000010800 0).partState 0 = 1 ∧
    (board partOk 0).capacity 0 = 768 * 2 ^ 20 ∧ (board partOk 0).vfBusy 0 = false ∧ (launching [3] [] 1 id id).vfBusy 0 = true ∧
    (board partOk 0).partState 0 = 2 ∧ (board partOk 0).imageSize 0 = 0 ∧
    ok (.partCreate 0 0x8000000000010800) (board 0 0) (fun t => t.partState 0 == 2 && t.partRect 0 == (1, 1, 0, 0)) = true ∧
    ok (.partCreate 0 0x8000000000000800) (board 0 0) (fun t => tabGet 0 t.parts 0 == 0x4000000000000000) = true ∧
    ok (.partDestroy 0) (board partOk 0) (fun t => t.partState 0 == 1 && !(tabGet 0 t.parts 0).getLsbD 63) = true ∧
    ok (.partDestroy 0) (board partOk 0x8000000000000000) (fun t => tabGet 0 t.parts 0 == 0xE000000000010800) = true ∧
    ok (.partScrubComplete 0) { board 0x1000000000010800 0 with mem := [(partKey 0 9, 1), (partKey 1 9, 1), (winKey 0 0 4, 1)] }
      (fun t => t.partState 0 == 0 && t.mem == [(partKey 1 9, 1)]) = true ∧
    ok (.vbindWrite 0 0x8000000000000000) (board partOk 0) (fun t => t.bound 0 && t.vfPart 0 == 0) = true ∧
    ok (.vbindWrite 0 0) (board partOk 0x8000000000000000) (fun t => !t.bound 0) = true ∧
    ok (.imgrWrite 0 0x10000000000) (board partOk 0) (fun t => t.imageSize 0 == 0x10000) = true ∧
    ok (.imgrWrite 0 0x300100000000000) (board partOk 0) (· == board partOk 0) = true := by decide +kernel
/-- One line of slice 0 is kept at priority 3. -/
def kept : State := { board partOk 0 with l2 := [(0, [{ line := 5, prio := 3, keep := true, slot := 0, vline := 5, plain := [], dirty := false, used := 0 }])] }
theorem witness_RegistersResult_registers : ok (.krel 0 1) kept (fun t => (t.l2.map fun q => q.2.map fun l => (l.keep, l.prio)) == [[(false, 0)]]) = true ∧
    ok (.svalWrite 0 5 7) (board partOk 0) (fun t => t.signal 0 5 == (7, 0)) = true ∧
    ok (.hfverNegotiate 0 1 3) (board partOk 0) (fun t => (t.vf 0).hfver == 0x10301) = true ∧ ok (.hfverNegotiate 0 2 3) (board partOk 0) (fun t => (t.vf 0).hfver == 0x1000302) = true ∧
    ok (.registerWrite .pf 0x10 400) (board partOk 0) (fun t => t.pwr == 400) = true ∧ ok (.registerWrite .pf 0x10 399) (board partOk 0) (fun t => t.pwr == 2200) = true ∧
    ok (.registerWrite (.fep 0) 0x1200000 0x8000000000020005) (board partOk 0) (fun t => tabGet 0 t.troot 0 == 0x8000000000020000) = true ∧
    ok (.registerWrite (.fep 0) 0x1240048 1) { board partOk 0 with errs := [(9, 3)] } (fun t => tabGet 0 t.errs 9 == 2) = true ∧
    ok (.registerWrite (.bar 0) 0x8058 9) (board partOk 0) (fun t => t.signal 0 5 == (0, 9)) = true ∧
    ok (.patrolScrub 0 0 0 .uncorrectable) (board partOk 0) (fun t => t.poison.length == 8 && tabGet 0 t.errs 0 == 0x100000000 && (tabGet [] t.rrow 0).length == 1) = true ∧
    ok (.patrolScrub 0 0 0 .corrected) (board partOk 0) (fun t => t.poison == [] && tabGet 0 t.errs 0 == 1 && tabGet [] t.rrow 0 == []) = true ∧
    ok (.powerControlTick 2300) State.reset (fun t => t.pwr == 0x108FC0898) = true ∧
    State.reset.bootst = 0 ∧ memWf State.reset.mem = true ∧ ok (.boot 1) State.reset (fun t => t.bootst == 1) = true := by decide +kernel
/-- A flash whose configuration block holds, with three empty images, and one whose block does not: what the package's own flash holds is the
board's (R378). -/
def goodFlash (a : Nat) : Byte := (leBytes 8 0x47464E4352415642 ++ leBytes 4 1).getD a 0
theorem witness_RegistersResult_boot : blockOk goodFlash (fun _ _ => true) = true ∧ (imageOf goodFlash 32).length ≤ 2 ^ 24 ∧
    blockOk (fun _ => 0) (fun _ _ => true) = false := by decide +kernel
/-- Front end 0 in user mode runs VF 0's plug-in. -/
def tenanted : State := { board partOk 0x8000000000000000 with feps := [(0, { Fep.reset with mode := .user, tenant := some 0 })] }
theorem witness_RegistersResult_frontEnds : ((board partOk 0).fep 0).fault 0x11 8 .write = some 6 ∧ ((board partOk 0).fep 0).tenant = none ∧
    (tenanted.fep 0).fault 0x10 8 .write = some 7 ∧ (tenanted.fep 0).tenant = some 0 ∧ (tenanted.fep 0).mode = .user ∧
    ((board partOk 0).fep 0).fault 0x10 8 .write = none ∧ fepPlace 0x10 = some (.sram 0x10) ∧ fepPlace 0x200000000010 = some (.memory 0x10) ∧
    ((board partOk 0).fep 0).fault 0x200000000010 8 .write = none ∧ ((board partOk 0).fep 0).fault 0x1200000 8 .write = none ∧
    0x10 < (board partOk 0).capacity 0 ∧ memWf (board partOk 0).mem = true ∧
    ok (.registerWrite (.fep 0) 0x11 1) (board partOk 0) (fun t => (t.fep 0).mcause == 6 && (t.fep 0).mtval == 0x11 && (t.fep 0).mode == .machine) = true ∧
    ok (.registerWrite (.fep 0) 0x10 1) tenanted (fun t => (t.vf 0).plug.stopped) = true ∧
    ok (.registerWrite (.fep 0) 0x10 0x1234) (board partOk 0) (fun t => memNat t.mem (fepBase + 0x10) 8 == 0x1234) = true ∧
    ok (.registerWrite (.fep 0) 0x200000000010 9) (board partOk 0) (fun t => (t.reqs.map fun r => (r.core, r.cls, r.addr, r.op)) ==
      [(ioDie, 1, partKey 0 0x10, .store [9, 0, 0, 0, 0, 0, 0, 0])]) = true := by
  decide +kernel
/-- Front end 0 of the board, with 4 bytes at 0x10 of its SRAM; in supervisor mode, with cause 6 delegated. -/
def fepBoard : State := { board partOk 0 with mem := memPut [] (fepBase + 0x10) [1, 0, 0, 0x80] }
def delegating : State := { board partOk 0 with feps := [(0, { Fep.reset with mode := .supervisor, pc := 0x44, csr := [(0x302, 0x40), (0x105, 0x80)] })] }
theorem witness_RegistersResult_fepActs : (fepBoard.fep 0).waits = false ∧ (fepBoard.fep 0).fault 0 2 .exec = none ∧ (fepBoard.fep 0).fault 0x10 4 .read = none ∧
    (fepBoard.fep 0).fault 0x200000000010 8 .read = none ∧ (fepBoard.fep 0).mode = .machine ∧
    ((fepBoard.fepAct 0 (.load 4 true 5 0x10 4)).map fun t => (tabGet 0 (t.fep 0).x 5, (t.fep 0).pc)) = some (-0x7FFFFFFF, 4) ∧
    ((fepBoard.fepAct 0 (.load 8 false 5 0x200000000010 4)).map fun t => ((t.fep 0).waits, t.reqs.map fun r => (r.core, r.cls, r.op))) =
      some (true, [(ioDie, 1, .look 8 false 5 0 0)]) ∧
    ((({ fepBoard with feps := [(0, { Fep.reset with prior := .user, csr := [(0x341, 0x100)] })] } : State).fepAct 0 .mret).map fun t => ((t.fep 0).mode, (t.fep 0).pc)) =
      some (FepMode.user, (0x100 : Word)) ∧
    (delegating.fep 0).fault 0x11 8 .write = some 6 ∧ (tabGet 0 (delegating.fep 0).csr 0x302).getLsbD 6 = true ∧
    ok (.registerWrite (.fep 0) 0x11 1) delegating (fun t => (t.fep 0).mode == .supervisor && (t.fep 0).get 0x142 == 6 && (t.fep 0).get 0x143 == 0x11 &&
      (t.fep 0).get 0x141 == 0x44 && (t.fep 0).pc == 0x80) = true := by decide +kernel
/-- The snapshot unit with these enables, armed or not, at cycle 0x100000005. -/
def armedAt (ctl : Word) (a : Bool) : State := { board partOk 0 with snapctl := ctl, armed := a, cycle := 0x100000005 }
theorem witness_RegistersResult_snapshots : (armedAt 4 true).snapctl.getLsbD 2 = true ∧ (armedAt 0x100000002 true).cycle / 2 ^ 32 % 2 ^ 32 = bitsOf (armedAt 0x100000002 true).snapctl 63 32 ∧
    (armedAt 8 false).snap = none ∧ bitsOf (armedAt 8 false).snapctl 31 24 < 255 ∧ ok .snapArm (armedAt 0xF04 false) (fun t => t.armed && t.snapctl == 4) = true ∧
    ok .snapHostFire (armedAt 4 true) (fun t => t.armed && t.due == 4 && (let u := t.snapEnd
      !u.armed && u.due == 0 && (u.snap.map (·.cycle)) == some 0x100000005 && u.snapctl == 0x404)) = true ∧
    ok .snapCounterTrigger (armedAt 0x100000002 true) (fun t => t.due == 2 && t.snapEnd.snapctl == 0x100000202) = true ∧
    ok .snapPinTrigger (armedAt 8 true) (fun t => t.due == 8 && t.snapEnd.snapctl == 0x808) = true ∧
    ok .snapPinTrigger (armedAt 8 false) (fun t => t.snapctl == 0x1000008) = true := by decide +kernel
/-- The cluster and die TLBs of partition 0 hold page 1 of VF 0; a request of it may be on its way. -/
def translated (busy : Bool) (rq : List Req) : State :=
  { launching [3] [] 1 id id with
    tinv := if busy then 0x8000000000010001 else 0, reqs := rq, dieTlb := [(0, [{ vf := 0, level := 3, page := 1, entry := 0x10007 }])],
    clusters := [(0, { Cluster.reset with tlb := [{ vf := 0, level := 3, page := 1, entry := 0x10007 }] })] }
/-- No TLB holds the page any more. -/
def flushed : State := { translated true [] with dieTlb := [], clusters := [] }
theorem witness_RegistersResult_invalidations : (translated true []).tinv.getLsbD 63 = true ∧ (translated false []).tinv.getLsbD 63 = false ∧ (translated true []).vfPending 0 = false ∧
    (translated true [{ oneStore 1 with home := .slice 0 0 }]).vfPending 0 = true ∧ ((translated false []).translate 0 0 0x10008).isSome = true ∧
    ok (.tinvPage 0 1) (translated false []) (fun t => t.translate 0 0 0x10008 == none && t.tinv == 0x8000000000010001) = true ∧
    ok (.tinvPage 0 2) (translated false []) (fun t => (t.translate 0 0 0x10008).isSome) = true ∧ (translated false []).fepQuiet = true ∧
    ok (.tinvVf 0) (translated true []) (· == { translated true [] with fresh := (translated true []).fresh + 1 }) = true ∧
    (translated true []).tinvHeld = true ∧ flushed.tinvHeld = false ∧ flushed.vfPending 0 = false ∧
    ok .tinvComplete (translated true []) (fun t => t.tinv.getLsbD 63 && t.translate 0 0 0x10008 == none) = true ∧
    ok .tinvComplete flushed (fun t => !t.tinv.getLsbD 63 && bitsOf t.tinv 62 0 == 0x10001) = true := by decide +kernel

/-! ## The SEP, links, packages (R350 to R354, R365 to R369) -/

/-- An install of slot 1: model 7, range 0x10000 of 0x10000 bytes, keys 1 and 2, one digest 5. -/
def install : List Word := [0x10101, 7, 0x10000, 0x10000, 1, 0, 0, 0, 2, 0, 0, 0, 5] ++ List.replicate 23 0
/-- VF 0 has a session of partition 0; slot 1 is installed, or being revoked. -/
def session (slot : Bool) (revoking : Bool) : State :=
  { board partOk 0x8000000000000000 with
    vfs := [(0, { Vf.reset with spdm := { version := some 0x13, session := some 0, answer := [] } })],
    keySlots := if slot then [(1, { KeySlot.empty with valid := true, revoking := revoking })] else [] }
/-- VF 0 has been bound to partition 1 since. -/
def rebound : State := { session false false with vbind := [(0, 0x8000000000000001)], troot := [(0, 1)] }
theorem witness_SecurityAndLinksResult_sep : State.reset.up = false ∧ (session false false).up = true ∧ ((session false false).vf 0).spdm.version = some 0x13 ∧
    ((board partOk 0).vf 0).spdm.version = none ∧ ((session false false).vf 0).spdm.session = some 0 ∧ ((board partOk 0).vf 0).spdm.session = none ∧
    installBad install = false ∧ installBad [0x10101] = true ∧ ((session true false).keySlot 0 1).valid = true ∧ ((session false false).keySlot 0 1).valid = false ∧
    ((session true true).keySlot 0 1).revoking = true ∧
    ok (.getVersion ⟨0, [0x11, 0x12]⟩) State.reset (fun t => (t.vf 0).spdm.answer == [(0, [0x12, 0x13])] && (t.vf 0).spdm.version == some 0x12) = true ∧
    ok (.challenge 0 1) State.reset (fun t => (t.vf 0).spdm.answer == [(0x7F, [])]) = true ∧
    ok (.getMeasurements 0 16) (session false false) (fun t => (t.vf 0).spdm.answer.map (·.1) == [16, signatureTag] && (t.vf 0).spdm.answer.head? == some (16, [0, 0, 0, 0, 0, 0, 0, 0])) = true ∧
    rebound.vfPart 0 = 1 ∧ (rebound.vf 0).spdm.session = some 0 ∧ ok (.keySlotInstall 0 install) rebound (fun t => (t.vf 0).spdm.answer == [(0x7F, [])] && t.keySlots == []) = true ∧
    ok (.keyExchange 0 1) (board partOk 0) (fun t => (t.vf 0).spdm.answer == [(0x7F, [])]) = true ∧
    ok (.keySlotInstall 0 install) (session false false) (fun t => (t.vf 0).spdm.answer == [(0, [0])] && (t.keySlot 0 1).model == 7 && (t.keySlot 0 1).digs == [5]) = true ∧
    ok (.keySlotInstall 0 install) (session true false) (fun t => (t.vf 0).spdm.answer == [(0, [1])]) = true ∧
    ok (.keySlotInstall 0 [0x10101]) (session false false) (fun t => (t.vf 0).spdm.answer == [(0, [2])]) = true ∧
    ok (.keySlotInstall 0 install) (board partOk 0) (fun t => (t.vf 0).spdm.answer == [(0x7F, [])]) = true ∧
    ok (.keySlotRevoke 0 [0x102]) (session true false) (fun t => (t.keySlot 0 1).revoking) = true ∧
    ok (.keySlotRevoke 0 [0x102]) (session false false) (fun t => (t.vf 0).spdm.answer == [(0, [3])]) = true ∧
    ok (.revokeComplete 0 1) (session true true) (fun t => t.keySlot 0 1 == KeySlot.empty) = true := by decide +kernel
/-- A request on its way whose packet has failed n times; package 2 has a transfer parked. -/
def linked (n : Nat) : State := { board partOk 0 with reqs := [{ oneStore 1 with tries := n }] }
/-- Package 2 reads 8 bytes of a scratchpad-free page: its one granule is still to be read, or read. -/
def serving (got : Option (List Byte × Bool)) : State :=
  let g : Gran := { tag := 0, va := 0x10000, key := partKey 0 0x10000, home := .slice 0 0, slot := 0, stream := false, got := got, tries := 0 }
  { board partOk 0 with transfers := [{ id := 5, vf := 0, pkg := 2, rq := .get 0x10000 8, parked := false, maps := [], grans := some [g] }] }
theorem witness_SecurityAndLinksResult_versions :
    ok (.getVersion ⟨0, [0x13, 0x12]⟩) (board partOk 0) (fun t => (t.vf 0).spdm.version == some 0x13) = true ∧
    ok (.getVersion ⟨0, [0x11]⟩) (board partOk 0) (fun t => (t.vf 0).spdm.version == none) = true ∧
    ok (.keyExchange 0 1) (after (.getVersion ⟨0, [0x12]⟩) (board partOk 0x8000000000000000)) (fun t => (t.vf 0).spdm.session == some 0) = true ∧
    ok (.keyExchange 0 1) (after (.getVersion ⟨0, [0x12]⟩) (board partOk 0)) (fun t => (t.vf 0).spdm.session == none && (t.vf 0).spdm.answer == [(0x7F, [])]) = true := by
  decide +kernel
theorem witness_SecurityAndLinksResult_transfers : (serving none).ownedUnit (partKey 0 0x10000) = false ∧
    ((serving none).transfers.find? fun x => x.id == 5).isSome = true ∧
    ok (.remoteTransferRequest 5 none) (serving (some ([1, 2, 3, 4, 5, 6, 7, 8], false))) (fun t => t.transfers == [] &&
      t.reports == [(2, 0, [1, 2, 3, 4, 5, 6, 7, 8])]) = true ∧
    tabGet 0 ({ board partOk 0 with pkgVer := [(2, 1)] } : State).pkgVer 2 = 1 ∧ pageStarts [(0, 0, false)] = [] ∧ missing [] 0 [] = none := by decide +kernel
/-- A get of package 2 of the page at 0x10000 that has not begun; its page plain, or sealed under slot 1. -/
def offered (entry : Word) : State :=
  { board partOk 0x8000000000000000 with
    clusters := [(0, { Cluster.reset with tlb := [{ vf := 0, level := 3, page := 1, entry := entry }] })],
    transfers := [{ id := 5, vf := 0, pkg := 2, rq := .get 0x10000 8, parked := false, maps := [], grans := none }] }
theorem witness_SecurityAndLinksResult_begin : ([0x10027, 0x1012F] : List Word).all (fun e =>
      let p := pageStarts [(0x10000, 8, false)]
      (missing ((offered e).gathered (((offered e).vfClusters 0).headD 0) 0 [] p) 0 p).isNone) = true ∧
    ok (.remoteTransferRequest 5 none) (offered 0x10027) (fun t => (t.transfers.map fun x => x.grans.map (·.length)) == [some 1] && t.reports == []) = true ∧
    ok (.remoteTransferRequest 5 none) (offered 0x1012F) (fun t => t.transfers == [] && t.reports == [(2, 1, [])]) = true ∧
    ok (.remoteTransferRequest 5 none) { serving none with transfers := (serving none).transfers.map fun x => { x with grans := x.grans.map fun l => l.map fun g => { g with stream := true } } }
      (fun t => (t.transfers.map fun x => x.grans.map (·.map (·.got.isSome))) == [some [true]]) = true := by decide +kernel
/-- One packet of each class is on its way (R365). -/
def packets (n : Nat) : State :=
  { (running { EnginesBase with begun := true, grans := [{ unreadGran with tries := n }] }) with
    reqs := [{ oneStore 1 with rtries := n }], fills := [{ uid := 1, reg := 9, val := 4, acq := 0, counted := false, err := 0, addr := 0, upc := 0, src := none, tries := n, link := none }],
    migs := moves.migs.map fun m => { m with tries := n } }
where EnginesBase : Command := Sys2Proof.Tests.base 1
theorem witness_SecurityAndLinksResult_packets :
    ok (.lintelPacketReceive ⟨0, 1⟩ false) (packets 7) (fun t => (t.fills.map fun f => (f.tries, f.err)) == [(8, 0)] && tabGet 0 t.errs 2 == 1) = true ∧
    ok (.lintelPacketReceive ⟨0, 1⟩ false) (packets 8) (fun t => (t.fills.map fun f => (f.err != 0, f.val)) == [(true, 4)] && tabGet 0 t.errs 2 == 0x100000000) = true ∧
    ok (.lintelPacketReceive ⟨0, 10⟩ false) (packets 7) (fun t => (t.reqs.map fun r => (r.rtries, r.rbad)) == [(8, false)]) = true ∧
    ok (.lintelPacketReceive ⟨0, 10⟩ false) (packets 8) (fun t => (t.reqs.map (·.rbad)) == [true]) = true ∧
    ok (.lintelPacketReceive ⟨0, 11⟩ false) (moving 2 0) (fun t => (t.core 0).outbound 1 == [(false, 0, 1), (false, 1, 0)]) = true ∧
    ok (.lintelPacketReceive ⟨0, 4⟩ false) (packets 7) (fun t => (t.migs.map (·.tries)) == [8]) = true ∧
    ok (.lintelPacketReceive ⟨0, 5⟩ false) (packets 7) (fun t => (t.here.copyRun.map fun r => r.grans.map (·.tries)) == some [8]) = true := by decide +kernel
theorem witness_SecurityAndLinksResult_links : ((linked 7).reqs.map fun r => (r.id, r.st, r.tries)) = [(1, 0, 7)] ∧ (linked 0).transfers = [] ∧
    tabGet 0 (linked 0).pkgVer 2 ≠ 1 ∧ ok (.hello 2 1) (linked 0) (fun t => tabGet 0 t.pkgVer 2 == 1) = true ∧ ok (.hello 2 3) (linked 0) (fun t => tabGet 0 t.pkgVer 2 == 2) = true ∧
    2 ^ 49 < remoteAddr (.get (2 ^ 49) 1) + remoteLen (.get (2 ^ 49) 1) ∧
    ok (.lintelPacketReceive ⟨0, 8⟩ false) (linked 7) (fun t => (t.reqs.map fun r => (r.tries, r.bad)) == [(8, false)]) = true ∧
    ok (.lintelPacketReceive ⟨0, 8⟩ false) (linked 8) (fun t => (t.reqs.map fun r => (r.tries, r.bad)) == [(8, true)]) = true ∧
    ok (.lintelPacketReceive ⟨0, 8⟩ true) (linked 8) (· == linked 8) = true ∧ ok (.retransmitTimeout 2) (linked 0) (fun t => tabGet 0 t.resent 2 == 1) = true := by decide +kernel

/-! ## Encoding and steps (R129 to R136, R163, R344) -/

/-- The word of an ADD behind the prefix of guard 3, inverted, as R134 lays it out. -/
theorem witness_DecodingUndoesEncoding : (Instr.add 1 2 3).wf = true ∧ encode (.add 1 2 3) ≠ .none ∧ (Instr.add 1 2 3).gField = 0 ∧ (Instr.add 1 2 3).level = 3 ∧
    encodeBytes (.add 1 2 3) = [0xB3, 0x00, 0x31, 0x00] ∧ encodeBytes (.cLui 1 0x3F) = [0xFD, 0x70] ∧
    (∀ j < 4, (0x3100B3900C#80).extractLsb' (16 + 8 * j) 8 = (encodeBytes (.add 1 2 3)).getD j 0) ∧
    (0x3100B3900C#80).extractLsb' 0 16 = 0b100#3 ++ 1#1 ++ 0#7 ++ 3#3 ++ 0#2 := by decide +kernel
/-- One thread whose first unit is an ADDI of 5 to x1 (R150), with the state's own step: x1 = 5, the next pc, one cycle. -/
noncomputable def stepping : State := State.reset.withFetchWord 32 0b000000000101_00000_000_00001_0010011
theorem witness_StepRunsTheDecodedUnit : stepping.agenda = [] ∧ stepping.upsets = [] ∧ stepping.takeInput = none ∧ stepping.waitsFor (.doorbell 0 0 1) = false ∧
    { stepping with reqs := [{ oneStore 1 with core := ioDie }] }.waitsFor (.fresReplay 0 0) = true ∧ stepping.events = [] ∧ stepping.runs.find? (stepping.turn ≤ ·) = some 0 ∧
    stepping.idle 0 (stepping.position 0) = false ∧ (stepping.core 0).icache = [] ∧ external (.doorbell 0 0 1) = true ∧
    ((stepping.issuing 0 0 0 (stepping.fetch 0 0)).decodeTrap (stepping.fetch 0 0)).isNone = true ∧ (stepping.fetch 0 0).poison = false ∧
    (match step stepping with
      | .next t => (t.ctxAt 0 0).reg 1 == 5 && (t.ctxAt 0 0).pc == 4 && (t.ctxAt 0 0).instret == 1 && t.cycle == 1
      | _ => false) = true := by decide +kernel
/-- A unit guarded off by g1 only retires; an undefined one without a handler is a team fault, whatever its guard (R136, R163). -/
theorem test_step_guard : (match step (State.reset.withFetchWord 48 0x5000938004) with
      | .next t => (t.ctxAt 0 0).reg 1 == 0 && (t.ctxAt 0 0).pc == 6 && (t.ctxAt 0 0).instret == 1
      | _ => false) = true ∧
    (match step (State.reset.withFetchWord 32 0x0FF0000F) with
      | .next t => ((t.core 0).flatch.getD 0 0).toNat % 256 == 1 && (t.core 0).flatch.getD 2 0 == 0x0FF0000F
      | _ => false) = true := by decide +kernel
theorem witness_StepKeepsMemoryCanonical : memWf stepping.mem = true ∧ (match step stepping with
      | .next t => memWf t.mem
      | _ => false) = true := by decide +kernel
/-- What strikes a memory comes before what the outside world does beside the table, and that before the machine's own work. -/
theorem witness_StepRunsTheDecodedUnit_outside : { stepping with upsets := [.reg 0 0 3], inputs := [.call 0 9] }.agenda = [] ∧
    (match step { stepping with upsets := [.reg 0 0 3], inputs := [.call 0 9] } with
      | .next t => (t.ctxAt 0 0).bad.getLsbD 3 && t.inputs == [.call 0 9]
      | _ => false) = true ∧
    (({ stepping with inputs := [.call 0 9] } : State).takeInput.map (·.inputs)) = some [] ∧
    (match step { stepping with inputs := [.call 0 9] } with
      | .next t => t.inputs == [] && (t.ctxAt 0 0).pc == 0
      | _ => false) = true := by decide +kernel
theorem witness_StepRunsTheDecodedUnit_agenda : (match step { State.reset with bootst := 0x80, vbind := [(0, 0x8000000000000000)], agenda := [.svalWrite 0 3 9] } with
      | .next t => t.signal 0 3 == (9, 0) && t.agenda == []
      | _ => false) = true := by decide +kernel

end Sys2Proof.Tests
end

section
/-! PROOF. The units on registers (R49, R149, R187): the one next state they answer, what that leaves alone, and what becomes of the
queues their operands map. -/

namespace Sys2Proof.Machine

open Sys2Proof

/-! ## Register names and full bits -/

theorem Ctx.tag_lt (c : Ctx) (r : XReg) : c.tag r < 48 := by
  have b := c.bank_cases
  have := r.isLt
  unfold Ctx.tag banked
  split
  · rename_i q
    simp at q
    omega
  · omega

/-- What x5 to x8 name depends on the handlers and frames alone. -/
theorem Ctx.tag_congr {c e : Ctx} (hf : e.frames = c.frames) (hl : e.inLh = c.inLh) (he : e.inEm = c.inEm) (r : XReg) :
    e.tag r = c.tag r := by
  simp only [Ctx.tag, Ctx.bank, Ctx.outer, hf, hl, he]

theorem Ctx.mapped_congr {c e : Ctx} (hq : e.qcfg = c.qcfg) (hl : e.inLh = c.inLh) (he : e.inEm = c.inEm) (r : XReg) :
    e.mapped r = c.mapped r := by
  simp only [Ctx.mapped, hq, hl, he]

theorem Ctx.regAt_setReg_same (c : Ctx) {r : XReg} (v : Word) (h : r ≠ 0) : (c.setReg r v).regAt (c.tag r) = v := by
  have e : (c.setReg r v).tag r = c.tag r := Ctx.tag_congr (by simp) (by simp) (by simp) r
  have := c.reg_setReg_same r v h
  rwa [Ctx.reg, if_neg h, e] at this

theorem Ctx.markFull_full (c : Ctx) {t : Nat} (h : t < 48) : (c.markFull t).fe.getLsbD t = true := by
  simp [Ctx.markFull, h]

theorem Ctx.setReg_full (c : Ctx) {r : XReg} (v : Word) (h : r ≠ 0) : (c.setReg r v).fe.getLsbD (c.tag r) = true := by
  rw [Ctx.setReg, if_neg h]
  exact Ctx.markFull_full _ (c.tag_lt r)

/-! ## Queues of a unit -/

theorem inbound_iff {r : XReg} : inbound r = true ↔ r = 5 ∨ r = 6 := by revert r; decide

theorem State.here_wr_inq (s : State) (d : XReg) (v : Word) : (s.wr d v).here.inq = s.here.inq := by
  unfold State.wr State.push
  split
  · split
    · rfl
    · split <;> simp
  · simp

theorem State.here_pops_outq (s : State) (l : List XReg) : (s.pops l).here.outq = s.here.outq := by
  obtain h | ⟨q, h⟩ := s.pops_frame l <;> rw [h]
  simp

theorem State.popOne_cur (s : State) (r : XReg) : (s.popOne r).cur = s.cur := by
  obtain ⟨q, h | h⟩ := s.popOne_frame r <;> rw [h]
  exact State.onHere_cur s _ rfl

theorem State.popOne_inbound (s : State) {r : XReg} (hr : inbound r = true) (m : Nat) :
    (s.popOne r).here.inbound m = if s.cur.mapped r = some m then (s.here.inbound m).tail else s.here.inbound m := by
  unfold State.popOne
  cases h : s.cur.mapped r with
  | none => simp
  | some d =>
    by_cases e : d = m
    · subst e
      simp [hr, Core.inbound]
    · simp [hr, Core.inbound, e, tabGet_tabSet_ne _ _ _ (Ne.symm e)]

theorem State.popNamed_inbound (s : State) (l : List XReg) {r : XReg} (hr : inbound r = true) (m : Nat) :
    (if l.contains r then s.popOne r else s).here.inbound m =
      (if r ∈ l ∧ s.cur.mapped r = some m then List.tail else id) (s.here.inbound m) := by
  by_cases h : r ∈ l
  · by_cases e : s.cur.mapped r = some m <;> simp [h, e, State.popOne_inbound s hr]
  · simp [h]

theorem State.popNamed_cur (s : State) (l : List XReg) (r : XReg) : (if l.contains r then s.popOne r else s).cur = s.cur := by
  split
  · exact State.popOne_cur ..
  · rfl

/-- Each of x5 and x6 that a unit reads and that maps a queue takes one word from it, however often it is named (R187). -/
theorem State.pops_inbound (s : State) (l : List XReg) (m : Nat) :
    (s.pops l).here.inbound m = (if 6 ∈ l ∧ s.cur.mapped 6 = some m then List.tail else id)
      ((if 5 ∈ l ∧ s.cur.mapped 5 = some m then List.tail else id) (s.here.inbound m)) := by
  rw [State.pops, State.popNamed_inbound _ l rfl, State.popNamed_inbound s l rfl, State.popNamed_cur]

/-- A queue that no source maps inbound keeps its words. -/
theorem State.pops_inbound_other (s : State) {l : List XReg} {m : Nat}
    (h : ∀ r ∈ l, s.cur.mapped r = some m → inbound r = false) : (s.pops l).here.inbound m = s.here.inbound m := by
  have h5 : ¬ (5 ∈ l ∧ s.cur.mapped 5 = some m) := fun ⟨i, e⟩ => by simpa [inbound] using h 5 i e
  have h6 : ¬ (6 ∈ l ∧ s.cur.mapped 6 = some m) := fun ⟨i, e⟩ => by simpa [inbound] using h 6 i e
  rw [State.pops_inbound, if_neg h5, if_neg h6]
  rfl

/-- A queue that one source alone maps gives up its head. -/
theorem State.pops_inbound_only (s : State) {l : List XReg} {r : XReg} {m : Nat} (hr : r ∈ l) (hm : s.cur.mapped r = some m)
    (hi : inbound r = true) (only : ∀ y ∈ l, y ≠ r → s.cur.mapped y ≠ some m) :
    (s.pops l).here.inbound m = (s.here.inbound m).tail := by
  rw [State.pops_inbound]
  obtain rfl | rfl := inbound_iff.1 hi
  · have h6 : ¬ (6 ∈ l ∧ s.cur.mapped 6 = some m) := fun ⟨i, e⟩ => only 6 i (by decide) e
    rw [if_neg h6, if_pos ⟨hr, hm⟩]
    rfl
  · have h5 : ¬ (5 ∈ l ∧ s.cur.mapped 5 = some m) := fun ⟨i, e⟩ => only 5 i (by decide) e
    rw [if_neg h5, if_pos ⟨hr, hm⟩]
    rfl

/-- Of a unit that misuses no queue, a mapped source maps an inbound one, and a mapped destination an outbound one. -/
theorem State.inbound_of_source (s : State) {l k : List XReg} {r : XReg} {m : Nat} (h : s.misuse l k = false) (hr : r ∈ l)
    (hm : s.cur.mapped r = some m) : inbound r = true := by
  simp only [State.misuse, Bool.or_eq_false_iff, List.any_eq_false] at h
  simpa [hm] using h.1 r hr
theorem State.outbound_of_destination (s : State) {l : List XReg} {d : XReg} {m : Nat} (h : s.misuse l [d] = false)
    (hm : s.cur.mapped d = some m) : inbound d = false := by
  simp only [State.misuse, Bool.or_eq_false_iff, List.any_eq_false] at h
  simpa [hm] using h.2 d (by simp)

/-- A mapped source reads the head of its queue (R49). -/
theorem State.rd_mapped (s : State) {r : XReg} {m : Nat} {q : QWord} {h : List QWord} (hm : s.cur.mapped r = some m)
    (hi : inbound r = true) (hq : s.here.inbound m = q :: h) : s.rd r = q.2.1 := by
  simp [State.rd, hm, hi, hq]

/-! ## What a written result changes -/

theorem State.wr_unmapped (s : State) {d : XReg} (v : Word) (h : s.cur.mapped d = none) : s.wr d v = s.onCur (·.setReg d v) := by
  simp [State.wr, h]

theorem State.wr_mapped (s : State) {d : XReg} {m : Nat} (v : Word) (h : s.cur.mapped d = some m) (hi : inbound d = false) :
    s.wr d v = s.push m (false, v, 0) := by
  simp [State.wr, h, hi]

/-- A push joins a queue of fewer than 8 words; a full queue holds it in the context (R187). -/
theorem State.push_room (s : State) {m : Nat} (w : QWord) (h : (s.here.outbound m).length < 8) :
    s.push m w = s.onHere fun c => { c with outq := tabSet c.outq m (c.outbound m ++ [w]) } := if_pos h
theorem State.push_full (s : State) {m : Nat} (w : QWord) (h : 8 ≤ (s.here.outbound m).length) :
    s.push m w = s.onCur fun c => { c with heldPush := c.heldPush ++ [(m, w)] } := if_neg (Nat.not_lt.2 h)

theorem State.push_outbound_other (s : State) {d m : Nat} (w : QWord) (h : d ≠ m) :
    (s.push d w).here.outbound m = s.here.outbound m := by
  unfold State.push
  split
  · simp [Core.outbound, tabGet_tabSet_ne _ _ _ (Ne.symm h)]
  · simp [Core.outbound]

/-- A result leaves every outbound queue alone that its destination does not map. -/
theorem State.wr_outbound_other (s : State) {d : XReg} {m : Nat} (v : Word) (h : s.cur.mapped d ≠ some m) :
    (s.wr d v).here.outbound m = s.here.outbound m := by
  unfold State.wr
  split
  case h_1 e he =>
    split
    · rfl
    · exact State.push_outbound_other s _ fun e' => h (he.trans (congrArg some e'))
  case h_2 => simp [Core.outbound]

theorem State.push_regAt (s : State) (d : Nat) (w : QWord) (r : Nat) : (s.push d w).cur.regAt r = s.cur.regAt r := by
  unfold State.push
  split
  · rw [State.onHere_cur s _ rfl]
  · simp [Ctx.regAt]

/-! ## The one answer of a unit on registers -/

/-- An outcome is that of a unit that pops its sources, writes its destination and goes on somewhere; with destination x0 it may only
retire (R139). -/
def State.WritesOne (s : State) (l : List XReg) (d : XReg) (o : Out) : Prop :=
  s.misuse l [d] = false → (∃ v pc, o = .next (((s.pops l).wr d v).retireTo pc)) ∨ d = 0 ∧ o = .next s.retire

theorem State.put_writesOne (s : State) (l : List XReg) (d : XReg) (v : Word) : s.WritesOne l d (s.put l d v) :=
  fun h => .inl ⟨v, s.iss.npc, by
    rw [State.put_next s l d v h, State.retire, State.wr_iss, State.pops_iss]
    rfl⟩

theorem State.alu_writesOne (s : State) (l : List XReg) (d : XReg) (v : Word) : s.WritesOne l d (s.alu l d v) := by
  intro h
  unfold State.alu
  split
  · exact .inr ⟨‹_›, rfl⟩
  · exact s.put_writesOne l d v h

theorem State.jump_writesOne (s : State) (l : List XReg) (d : XReg) (b : Bool) (v : Word) : s.WritesOne l d (s.jump l d b v) :=
  fun h => .inl ⟨_, _, State.jump_next s l d b v h⟩

/-- Every integer register, immediate and literal form, JAL, JALR and GTOX, each with its sources. -/
def registerUnits (d a b : XReg) (i : BitVec 12) (n : BitVec 6) (k : BitVec 5) (u : BitVec 20) (l : BitVec 32) : List (Instr × List XReg) :=
  [(.add d a b, [a, b]), (.sub d a b, [a, b]), (.sll d a b, [a, b]), (.slt d a b, [a, b]), (.sltu d a b, [a, b]),
   (.xor d a b, [a, b]), (.srl d a b, [a, b]), (.sra d a b, [a, b]), (.or d a b, [a, b]), (.and d a b, [a, b]),
   (.andn d a b, [a, b]), (.orn d a b, [a, b]), (.min d a b, [a, b]), (.minu d a b, [a, b]), (.max d a b, [a, b]),
   (.maxu d a b, [a, b]), (.sh1add d a b, [a, b]), (.sh2add d a b, [a, b]), (.sh3add d a b, [a, b]), (.mul d a b, [a, b]),
   (.mulh d a b, [a, b]), (.mulhu d a b, [a, b]), (.div d a b, [a, b]), (.divu d a b, [a, b]), (.rem d a b, [a, b]),
   (.remu d a b, [a, b]), (.addw d a b, [a, b]), (.subw d a b, [a, b]), (.addi d a i, [a]), (.slti d a i, [a]),
   (.sltiu d a i, [a]), (.xori d a i, [a]), (.ori d a i, [a]), (.andi d a i, [a]), (.slli d a n, [a]), (.srli d a n, [a]),
   (.srai d a n, [a]), (.clz d a, [a]), (.ctz d a, [a]), (.cpop d a, [a]), (.addiw d a i, [a]), (.slliw d a k, [a]),
   (.srliw d a k, [a]), (.sraiw d a k, [a]), (.lui d u, []), (.auipc d u, []), (.li32 d l, []), (.lih d l, [d]),
   (.addl d l, [d]), (.andl d l, [d]), (.fli d l, []), (.jal d u, []), (.jalr d a i, [a])] ++ [(.gtox d, [])]

/-- Each of them is one of the shapes of a unit: as `alu`, as `put`, or as `jump`. -/
theorem registerUnits_writeOne (s : State) (d a b : XReg) (i : BitVec 12) (n : BitVec 6) (k : BitVec 5) (u : BitVec 20) (l : BitVec 32) :
    ∀ q ∈ registerUnits d a b i n k u l, s.WritesOne q.2 d (exec q.1 s) := by
  have alu l v := s.alu_writesOne l d v
  have put l v := s.put_writesOne l d v
  have jump l v := s.jump_writesOne l d true v
  simp only [registerUnits, List.cons_append, List.nil_append, List.forall_mem_cons, List.not_mem_nil, false_imp_iff, implies_true, and_true]
  exact ⟨alu _ _, alu _ _, alu _ _, alu _ _, alu _ _, alu _ _, alu _ _, alu _ _, alu _ _, alu _ _, put _ _, put _ _, put _ _, put _ _,
    put _ _, put _ _, put _ _, put _ _, put _ _, put _ _, put _ _, put _ _, put _ _, put _ _, put _ _, put _ _, alu _ _, alu _ _,
    alu _ _, alu _ _, alu _ _, alu _ _, alu _ _, alu _ _, alu _ _, alu _ _, alu _ _, put _ _, put _ _, put _ _, alu _ _, alu _ _,
    alu _ _, alu _ _, alu _ _, alu _ _, put _ _, put _ _, put _ _, put _ _, put _ _, jump _ _, jump _ _, put _ _⟩

/-! ## The frame (R49, R149) -/

/-- What `State.WritesOne` leaves alone, of everything but the registers. -/
theorem State.writesOne_queues (s : State) (l : List XReg) (d : XReg) (v pc : Word) :
    let t := ((s.pops l).wr d v).retireTo pc
    (∀ m, (∀ r ∈ l, s.cur.mapped r = some m → inbound r = false) → t.here.inbound m = s.here.inbound m) ∧
      (∀ m, s.cur.mapped d ≠ some m → t.here.outbound m = s.here.outbound m) ∧
      (s.cur.mapped d = none → t.cur.heldPush = s.cur.heldPush) := by
  refine ⟨fun m h => ?_, fun m h => ?_, fun h => ?_⟩
  · rw [← s.pops_inbound_other h]
    simp only [Core.inbound, State.retireTo, State.here_onCur_inq, State.here_wr_inq]
  · have := (s.pops l).wr_outbound_other v (by rw [State.pops_cur]; exact h)
    simpa only [Core.outbound, State.retireTo, State.here_onCur_outq, State.here_pops_outq] using this
  · rw [State.wr_unmapped _ v (by rw [State.pops_cur]; exact h)]
    simp [State.retireTo, State.pops_cur]

/-- Settles O10: every unit of the list pops its sources, writes its destination and goes on, and each of these steps has its frame. -/
theorem registerUnitsFrame : Obligations.RegisterUnitsFrame := by
  intro s t d a b i n k u l q hq misuse run
  obtain ⟨v, pc, answer⟩ | ⟨-, answer⟩ := registerUnits_writeOne s d a b i n k u l q hq misuse
  · obtain rfl : ((s.pops q.2).wr d v).retireTo pc = t := by simpa [answer] using run
    have frame := unitFrame_put id s q.2 d v pc
    exact ⟨frame, fun x => by rw [frame.1.mem], frame.1.iss, s.writesOne_queues q.2 d v pc⟩
  · obtain rfl : s.retire = t := by simpa [answer] using run
    exact ⟨unitFrame_retire id s _ _, fun _ => rfl, rfl, fun _ _ => by simp [State.retire, Core.inbound],
      fun _ _ => by simp [State.retire, Core.outbound], fun _ => by simp [State.retire]⟩

/-! ## Mapped queues (R49, R187) -/

/-- Of a unit that writes one register: its sources' queues. -/
theorem State.writesOne_pops (s : State) {l : List XReg} {d : XReg} (v pc : Word) (ok : s.misuse l [d] = false) :
    let t := ((s.pops l).wr d v).retireTo pc
    ∀ r m w z h, r ∈ l → s.cur.mapped r = some m → s.here.inbound m = (false, w, z) :: h → s.rd r = w ∧
      ((∀ y ∈ l, y ≠ r → s.cur.mapped y ≠ some m) → t.here.inbound m = h) := by
  intro t r m w z h hr hm hq
  have hi := s.inbound_of_source ok hr hm
  refine ⟨s.rd_mapped hm hi hq, fun only => ?_⟩
  have := s.pops_inbound_only hr hm hi only
  rw [hq] at this
  simpa only [t, Core.inbound, State.retireTo, State.here_onCur_inq, State.here_wr_inq, List.tail_cons] using this

/-- Of a unit that writes one register: the queue its destination maps takes the result, or holds it. -/
theorem State.writesOne_pushes (s : State) {l : List XReg} {d : XReg} (v pc : Word) (ok : s.misuse l [d] = false) {m : Nat}
    (hm : s.cur.mapped d = some m) :
    let t := ((s.pops l).wr d v).retireTo pc
    SameRegs s t [] ∧ ((s.here.outbound m).length < 8 → t.here.outbound m = s.here.outbound m ++ [(false, v, 0)]) ∧
      (8 ≤ (s.here.outbound m).length → t.here.outbound m = s.here.outbound m ∧
        t.cur.heldPush = s.cur.heldPush ++ [(m, (false, v, 0))]) := by
  have hw := (s.pops l).wr_mapped v (by rw [State.pops_cur]; exact hm) (s.outbound_of_destination ok hm)
  have ho : (s.pops l).here.outbound m = s.here.outbound m := by simp only [Core.outbound, State.here_pops_outq]
  rw [hw]
  refine ⟨fun r _ => ?_, fun room => ?_, fun full => ?_⟩
  · rw [State.retireTo, State.cur_onCur, Ctx.retire_regAt, State.push_regAt, State.pops_cur]
  · rw [State.push_room _ _ (by rw [ho]; exact room), ← ho]
    simp [State.retireTo, Core.outbound]
  · rw [State.push_full _ _ (by rw [ho]; exact full), ← ho]
    simp [State.retireTo, Core.outbound, State.pops_cur]

/-- Of a unit that writes one register: a destination that maps no queue holds the result and is full. -/
theorem State.writesOne_register (s : State) (l : List XReg) {d : XReg} (v pc : Word) (hd : d ≠ 0) (hm : s.cur.mapped d = none) :
    let t := ((s.pops l).wr d v).retireTo pc
    SameRegs s t [s.cur.tag d] ∧ t.cur.regAt (s.cur.tag d) = v ∧ t.cur.fe.getLsbD (s.cur.tag d) = true ∧ t.here.outq = s.here.outq := by
  rw [State.wr_unmapped _ v (by rw [State.pops_cur]; exact hm)]
  refine ⟨fun r hr => ?_, ?_, ?_, ?_⟩
  · simp only [State.retireTo, State.cur_onCur, Ctx.retire_regAt, State.pops_cur]
    exact Ctx.regAt_setReg_ne _ _ _ (by simpa using hr)
  · simp only [State.retireTo, State.cur_onCur, Ctx.retire_regAt, State.pops_cur]
    exact Ctx.regAt_setReg_same _ _ hd
  · simp only [State.retireTo, State.cur_onCur, State.pops_cur, Ctx.retire_fe]
    exact Ctx.setReg_full _ _ hd
  · simp [State.retireTo, State.here_pops_outq]

/-- Settles O33: pops, the push or the write of the one answer of each unit. -/
theorem mappedRegistersPopAndPush : Obligations.MappedRegistersPopAndPush := by
  intro s d a b i n k u l hd q hq ok _
  have hu : q ∈ registerUnits d a b i n k u l := List.mem_append_left _ hq
  obtain ⟨v, pc, answer⟩ | ⟨h, -⟩ := registerUnits_writeOne s d a b i n k u l q hu ok
  · refine ⟨_, v, pc, answer, rfl, fun x => ?_, s.writesOne_pops v pc ok, fun m hm => ?_, fun m hm => s.writesOne_pushes v pc ok hm,
      s.writesOne_register q.2 v pc hd⟩
    · rw [(unitFrame_put id s q.2 d v pc).1.mem]
    · exact (s.writesOne_queues q.2 d v pc).1 m fun r hr e => absurd e (hm r hr)
  · exact absurd h hd

end Sys2Proof.Machine
end

section
/-! PROOF. Units that issue one request (R51, R59, R77, R152, R200): what entering its path changes, and the stores and loads that issue so. -/

namespace Sys2Proof.Machine

open Sys2Proof

/-! ## Contexts stand where only the rest of a core changes -/

/-- A change of a core that keeps its contexts. -/
theorem State.ctxAt_onCore_keep (s : State) {n : Nat} {f : Core → Core} (h : (f (s.core n)).ctxs = (s.core n).ctxs) (m x : Nat) :
    (s.onCore n f).ctxAt m x = s.ctxAt m x := by
  unfold State.ctxAt
  by_cases e : m = n
  · subst e
    rw [State.core_onCore_same, Core.ctx, h]
    rfl
  · rw [State.core_onCore_ne _ _ e]

theorem SameWorld.refl (s : State) : SameWorld s s := rfl
theorem State.pops_world (s : State) (l : List XReg) : SameWorld s (s.pops l) := (unitFrame_pops id s l []).1
theorem SameWorld.nextReq {s t : State} (h : SameWorld s t) : t.nextReq = s.nextReq := (congrArg State.nextReq h :)

/-! ## Entering a path -/

@[simp] theorem State.addReq_mem (s : State) (r : Req) : (s.addReq r).mem = s.mem := by
  simp only [State.addReq]; split <;> rfl
@[simp] theorem State.addReq_iss (s : State) (r : Req) : (s.addReq r).iss = s.iss := by
  simp only [State.addReq]; split <;> rfl
@[simp] theorem State.addReq_reqs (s : State) (r : Req) : (s.addReq r).reqs = s.reqs ++ [r] := by
  simp only [State.addReq]; split <;> rfl
@[simp] theorem State.addReq_nextReq (s : State) (r : Req) : (s.addReq r).nextReq = s.nextReq + 1 := by
  simp only [State.addReq]; split <;> rfl
@[simp] theorem State.addReq_migs (s : State) (r : Req) : (s.addReq r).migs = s.migs := by
  simp only [State.addReq]; split <;> rfl
@[simp] theorem State.addReq_ctxAt (s : State) (r : Req) (n x : Nat) : (s.addReq r).ctxAt n x = s.ctxAt n x := by
  simp only [State.addReq]
  split
  · rw [State.ctxAt_onCore_keep _ rfl]
    rfl
  · rfl
@[simp] theorem State.addReq_cur (s : State) (r : Req) : (s.addReq r).cur = s.cur := by
  simp [State.cur]
@[simp] theorem State.issueReq_mem (s : State) (cls : Nat) (h : Home) (key : Nat) (va : Word) (slot : Nat) (str : Bool) (acq : Nat) (op : ReqOp) :
    (s.issueReq cls h key va slot str acq op).mem = s.mem := State.addReq_mem ..
@[simp] theorem State.issueReq_iss (s : State) (cls : Nat) (h : Home) (key : Nat) (va : Word) (slot : Nat) (str : Bool) (acq : Nat) (op : ReqOp) :
    (s.issueReq cls h key va slot str acq op).iss = s.iss := State.addReq_iss ..
@[simp] theorem State.issueReq_cur (s : State) (cls : Nat) (h : Home) (key : Nat) (va : Word) (slot : Nat) (str : Bool) (acq : Nat) (op : ReqOp) :
    (s.issueReq cls h key va slot str acq op).cur = s.cur := State.addReq_cur ..

/-- A unit that pops its sources and issues one request has issued it, whatever else it does to its core afterwards. -/
theorem issued_after_pops {s t : State} {l : List XReg} {p : Phys} {va : Word} {cls acq : Nat} {op : ReqOp}
    (hr : t.reqs = ((s.pops l).issueReq cls p.home p.key va p.slot p.stream acq op).reqs)
    (hn : t.nextReq = ((s.pops l).issueReq cls p.home p.key va p.slot p.stream acq op).nextReq) : Issued s t p va cls op := by
  have w := s.pops_world l
  refine ⟨_, by rw [hr, State.issueReq, State.addReq_reqs, w.reqs], w.nextReq, ?_, ?_, rfl, rfl, rfl, rfl, ?_, rfl, rfl, ?_⟩
  · exact congrArg Ctx.uid (s.pops_cur l)
  · exact congrArg Issue.core w.iss
  · exact congrArg Issue.upc w.iss
  · rw [hn, State.issueReq, State.addReq_nextReq, w.nextReq]

/-! ## Retiring -/

/-- Where a unit goes on depends on its replay frame alone (R231). -/
theorem Ctx.advance_congr {c e : Ctx} (h : e.frame = c.frame) (npc : Word) :
    (e.advance npc).pc = (c.advance npc).pc ∧ (e.advance npc).frame = (c.advance npc).frame := by
  simp only [Ctx.advance, h]
  split
  · exact ⟨rfl, rfl⟩
  · split
    · exact ⟨rfl, rfl⟩
    · split <;> exact ⟨rfl, rfl⟩

theorem Ctx.retire_pc_advance (c : Ctx) (npc : Word) : (c.retire npc).pc = (c.advance npc).pc :=
  (Ctx.advance_congr (c := c) (e := c.forget) rfl npc).1
theorem Ctx.retire_frame_advance (c : Ctx) (npc : Word) : (c.retire npc).frame = (c.advance npc).frame :=
  (Ctx.advance_congr (c := c) (e := c.forget) rfl npc).2
@[simp] theorem State.retire_cur (s : State) : s.retire.cur = s.cur.retire s.iss.npc := State.cur_onCur ..

/-- A unit that has kept its replay frame and its count retires. -/
theorem retired_retire {s u : State} (hi : u.iss = s.iss) (hf : u.cur.frame = s.cur.frame) (hc : u.cur.instret = s.cur.instret) :
    Retired s u.retire := by
  have a := Ctx.advance_congr hf s.iss.npc
  rw [Retired, State.retire_cur, hi, Ctx.retire_pc_advance, Ctx.retire_frame_advance]
  exact ⟨a.1, a.2, congrArg (· + 1) hc⟩

theorem sameRegs_retire {s u : State} {but : List Nat} (h : SameRegs s u but) : SameRegs s u.retire but := fun r hr => by
  rw [State.retire_cur, Ctx.retire_regAt, h r hr]

/-! ## Scalar stores (R152, R154) -/

theorem leBytes_eq (n v : Nat) : leBytes n v = (List.range n).map fun k => BitVec.ofNat 8 (v / 2 ^ (8 * k)) := by
  induction n generalizing v with
  | zero => rfl
  | succ n ih =>
    rw [leBytes, ih, List.range_succ_eq_map, List.map_cons, List.map_map]
    refine congrArg₂ _ (by simp) (List.map_congr_left fun k _ => ?_)
    rw [Nat.div_div_eq_div_mul, Function.comp, Nat.succ_eq_add_one, Nat.mul_add, Nat.pow_add, Nat.mul_comm]

/-- The bytes a store writes are the low bytes of its register. -/
theorem leBytes_toNat (n : Nat) (v : Word) : leBytes n v.toNat = (List.range n).map fun k => v.extractLsb' (8 * k) 8 := by
  rw [leBytes_eq]
  refine List.map_congr_left fun k _ => BitVec.eq_of_toNat_eq ?_
  rw [BitVec.extractLsb'_toNat, Nat.shiftRight_eq_div_pow, BitVec.toNat_ofNat]

/-- The offset of a compressed form is not negative (R131). -/
theorem signExtend_small {i : BitVec 12} (h : i.toNat < 2 ^ 11) : i.signExtend 64 = BitVec.ofNat 64 i.toNat := by
  have hm : i.msb = false := by rw [BitVec.msb_eq_decide]; simp; omega
  apply BitVec.eq_of_toNat_eq
  rw [BitVec.signExtend_eq_setWidth_of_msb_false hm, BitVec.toNat_setWidth, BitVec.toNat_ofNat]

theorem immI_off4 {w : Nat} (hw : w ≤ 9) (i : BitVec w) : immI (off4 i) = BitVec.ofNat 64 (4 * i.toNat) := by
  have hp : 2 ^ w ≤ 2 ^ 9 := Nat.pow_le_pow_right (by decide) hw
  have hi := i.isLt
  have e : (off4 i).toNat = 4 * i.toNat := by
    simp only [off4, BitVec.toNat_shiftLeft, BitVec.truncate_eq_setWidth, BitVec.toNat_setWidth, Nat.shiftLeft_eq]
    omega
  rw [immI, signExtend_small (by omega), e]
theorem immI_off8 {w : Nat} (hw : w ≤ 8) (i : BitVec w) : immI (off8 i) = BitVec.ofNat 64 (8 * i.toNat) := by
  have hp : 2 ^ w ≤ 2 ^ 8 := Nat.pow_le_pow_right (by decide) hw
  have hi := i.isLt
  have e : (off8 i).toNat = 8 * i.toNat := by
    simp only [off8, BitVec.toNat_shiftLeft, BitVec.truncate_eq_setWidth, BitVec.toNat_setWidth, Nat.shiftLeft_eq]
    omega
  rw [immI, signExtend_small (by omega), e]

/-- What a store does whose access is let through. -/
def State.Stores (s : State) (b : XReg) (va : Word) (n : Nat) (p : Phys) (g : Nat) (o : Out) : Prop :=
  ∃ t : State, o = .next t ∧
    Issued s t p va (if g = 2 ∨ g = 4 then 1 else s.pathOf p false va.toNat)
      (if g = 4 then .mail (s.rd b) else .store ((List.range n).map fun k => (s.rd b).extractLsb' (8 * k) 8)) ∧
    Retired s t ∧ SameBytes s t ∧ SameRegs s t [] ∧ t.cur.fe = s.cur.fe

theorem State.scalarStore_stores (s : State) {b a : XReg} {va : Word} {n g : Nat} {p : Phys} {h : Bool} (ok : s.misuse [a, b] [] = false)
    (acc : s.access s.iss.core va n n true (if n = 8 then [0, 1, 2, 4] else [0, 1]) true false = .ok p g h)
    (free : s.holdsBack p.key n = false) : s.Stores b va n p g (s.scalarStore b a va n) := by
  simp only [State.scalarStore, ok, State.withAccess, acc, free, Bool.false_eq_true, if_false, leBytes_toNat]
  set bytes := (List.range n).map fun k => (s.rd b).extractLsb' (8 * k) 8
  set u := (s.pops [a, b]).issueReq (if g = 2 ∨ g = 4 then 1 else s.pathOf p false va.toNat) p.home p.key va p.slot p.stream 0
    (if g = 4 then .mail (s.rd b) else .store bytes) with hu
  have hw := s.pops_world [a, b]
  have hc : u.cur = s.cur := by rw [hu, State.issueReq_cur, State.pops_cur]
  have key (v : State) (hv : v = u ∨ ∃ f : Core → Core, (∀ c, (f c).ctxs = c.ctxs) ∧ v = u.onHere f) :
      v.cur = s.cur ∧ v.iss = s.iss ∧ v.mem = s.mem ∧ v.reqs = u.reqs ∧ v.nextReq = u.nextReq := by
    have hi : u.iss = s.iss := by rw [hu, State.issueReq_iss, hw.iss]
    have hm : u.mem = s.mem := by rw [hu, State.issueReq_mem, hw.mem]
    obtain rfl | ⟨f, hf, rfl⟩ := hv
    · exact ⟨hc, hi, hm, rfl, rfl⟩
    · exact ⟨(State.onHere_cur u f (hf _)).trans hc, hi, hm, rfl, rfl⟩
  obtain ⟨vc, vi, vm, vr, vn⟩ := key (if h then u.onHere fun c => c.l1Store p.key bytes else u) (by
    split
    · exact .inr ⟨fun c => c.l1Store p.key bytes, fun _ => rfl, rfl⟩
    · exact .inl rfl)
  refine ⟨_, rfl, issued_after_pops (l := [a, b]) (acq := 0) vr vn, ?_, fun x => ?_, ?_, ?_⟩
  · exact retired_retire vi (by rw [vc]) (by rw [vc])
  · exact congrArg (memGet · x) vm
  · exact sameRegs_retire fun r _ => by rw [vc]
  · rw [State.retire_cur, Ctx.retire_fe, vc]

/-- Settles O13: a compressed store is its expansion, with an offset that is not negative; every store is `scalarStore`. -/
theorem storesIssue : Obligations.StoresIssue := by
  intro s b a e f i j k p g h va
  have o4 := congrArg (s.rd (1#1 ++ f) + ·) (immI_off4 (by decide) j)
  have o8 := congrArg (s.rd (1#1 ++ f) + ·) (immI_off8 (by decide) j)
  have p4 := congrArg (s.rd 2 + ·) (immI_off4 (by decide) k)
  have p8 := congrArg (s.rd 2 + ·) (immI_off8 (by decide) k)
  simp only [List.forall_mem_cons, List.not_mem_nil, false_imp_iff, implies_true, and_true]
  refine ⟨s.scalarStore_stores, s.scalarStore_stores, s.scalarStore_stores, s.scalarStore_stores, ?_, ?_, ?_, ?_⟩
  · rw [← o4]; exact s.scalarStore_stores
  · rw [← o8]; exact s.scalarStore_stores
  · rw [← p4]; exact s.scalarStore_stores
  · rw [← p8]; exact s.scalarStore_stores

end Sys2Proof.Machine
end

section
/-! PROOF. LDMIG (R28, R47, R200): a load whose destination empties, or a thread that leaves its slot. -/

namespace Sys2Proof.Machine

open Sys2Proof

/-! ## Destinations that wait -/

theorem Ctx.tag_pos (c : Ctx) {r : XReg} (h : r ≠ 0) : 0 < c.tag r := by
  have : r.toNat ≠ 0 := fun e => h (BitVec.eq_of_toNat_eq e)
  unfold Ctx.tag
  split <;> omega

theorem Ctx.dest_unmapped (c : Ctx) {d : XReg} (h : d ≠ 0) (m : c.mapped d = none) : c.dest d = c.tag d := by
  simp only [Ctx.dest, m]
  rw [if_neg h]
  rfl

theorem Ctx.markEmpty_empty (c : Ctx) (t : Nat) : (c.markEmpty t).fe.getLsbD t = false := by
  simp [Ctx.markEmpty]

theorem Ctx.await_empties (c : Ctx) {t : Nat} (h : 0 < t) (l : t < 48) : (c.await t true).fe.getLsbD t = false := by
  simp only [Ctx.await, if_neg h.ne', l, decide_true, Bool.and_self, if_true]
  exact Ctx.markEmpty_empty _ t

/-- What waits for its result keeps its registers, its place and its count. -/
theorem Ctx.await_keeps (c : Ctx) (t : Nat) (e : Bool) :
    (c.await t e).frame = c.frame ∧ (c.await t e).instret = c.instret ∧ (c.await t e).pc = c.pc ∧ (c.await t e).x = c.x := by
  unfold Ctx.await
  split
  · exact ⟨rfl, rfl, rfl, rfl⟩
  · split <;> exact ⟨rfl, rfl, rfl, rfl⟩

/-! ## A load whose access is let through -/

theorem State.loadAs_next (s : State) {d a : XReg} {va : Word} {n g : Nat} {sx w h : Bool} {p : Phys} (ok : s.misuse [a] [d] = false)
    (acc : s.access s.iss.core va n n false (if n = 8 then [0, 1, 2] else [0, 1]) true false = .ok p g h) (free : s.holdsBack p.key n = false) :
    s.loadAs d a va n sx w = .next
      ((((s.pops [a]).issueReq (s.pathOf p true va.toNat) p.home p.key va p.slot p.stream 0 (.load n sx (s.cur.dest d))).onCur
        (·.await (s.cur.dest d) (w || s.pathOf p true va.toNat == 1))).retire) := by
  simp only [State.loadAs, ok, State.withAccess, acc, free, Bool.false_eq_true, if_false]

/-- A load issues one request, and its destination waits for the reply, empty where `w` says so (R28, R200). -/
theorem State.loadAs_loads (s : State) {d a : XReg} {va : Word} {n g : Nat} {sx h : Bool} {p : Phys} (ok : s.misuse [a] [d] = false)
    (acc : s.access s.iss.core va n n false (if n = 8 then [0, 1, 2] else [0, 1]) true false = .ok p g h) (free : s.holdsBack p.key n = false) :
    ∃ t : State, s.loadAs d a va n sx true = .next t ∧ Issued s t p va (s.pathOf p true va.toNat) (.load n sx (s.cur.dest d)) ∧ Retired s t ∧
      (d ≠ 0 → s.cur.mapped d = none → t.cur.fe.getLsbD (s.cur.tag d) = false) ∧ SameBytes s t ∧ SameRegs s t [] := by
  refine ⟨_, s.loadAs_next ok acc free, issued_after_pops (l := [a]) (acq := 0) rfl rfl, ?_, fun hd hm => ?_, fun x => ?_, sameRegs_retire fun r _ => ?_⟩
  · have k := s.cur.await_keeps (s.cur.dest d) (true || s.pathOf p true va.toNat == 1)
    refine retired_retire ?_ ?_ ?_
    · rw [State.onCur_iss, State.issueReq_iss, State.pops_iss]
    · rw [State.cur_onCur, State.issueReq_cur, State.pops_cur, k.1]
    · rw [State.cur_onCur, State.issueReq_cur, State.pops_cur, k.2.1]
  · rw [State.retire_cur, Ctx.retire_fe, State.cur_onCur, State.issueReq_cur, State.pops_cur, Ctx.dest_unmapped _ hd hm]
    exact Ctx.await_empties _ (s.cur.tag_pos hd) (s.cur.tag_lt d)
  · rw [State.retire, State.onCur_mem, State.onCur_mem, State.issueReq_mem, (s.pops_world [a]).mem]
  · have k := s.cur.await_keeps (s.cur.dest d) (true || s.pathOf p true va.toNat == 1)
    rw [State.cur_onCur, State.issueReq_cur, State.pops_cur, Ctx.regAt, k.2.2.2, Ctx.regAt]

/-! ## A thread that leaves (R47) -/

/-- A thread migrates to another core of its cluster alone, by region 0 of a core's window. -/
theorem State.migrates_elsewhere {s : State} {t x : Nat} {home : Home} {g : Nat}
    (h : s.migrates t ((coreOf home).getD s.iss.core) (if (coreOf home).isSome then g else 8) = some x) :
    ∃ n, coreOf home = some n ∧ n ≠ s.iss.core := by
  unfold State.migrates at h
  cases e : coreOf home with
  | none => simp [e] at h
  | some n =>
    refine ⟨n, rfl, ?_⟩
    rintro rfl
    simp [e] at h

/-- A request of a core to another core's window is a message sent (R52). -/
theorem State.addReq_here_sent (s : State) (r : Req) {n : Nat} (hr : r.core = s.iss.core) (hc : s.iss.core < 8192) (hh : coreOf r.home = some n)
    (hn : n ≠ s.iss.core) : (s.addReq r).here.sent = s.here.sent + 1 := by
  have e : ((coreOf r.home).isSome && coreOf r.home != some r.core && decide (r.core < ioDie)) = true := by
    simp [hh, hr, hn, ioDie, hc]
  simp only [State.addReq, e, if_true]
  rw [hr]
  exact congrArg Core.sent (State.here_onHere { s with reqs := s.reqs ++ [r], nextReq := s.nextReq + 1 } _)

/-- The thread on its way, its load, and the state it leaves: its slot is empty. -/
def State.departing (s : State) (p : Phys) (va : Word) (t x : Nat) : Migration :=
  { uid := s.cur.uid, fromCore := s.iss.core, fromCtx := s.iss.ctx, toCore := (coreOf p.home).getD 0, toCtx := x, reg := t,
    addr := va.toNat, ctx := { s.cur.retire s.iss.npc with qcfg := 0 }, got := none, upc := s.iss.upc, tries := 0 }
def State.departLoad (s : State) (p : Phys) (va : Word) : Req := { s.nextOf 1 p.home p.key va 0 false 0 .mig with counted := false }
def State.departs (s : State) (p : Phys) (va : Word) (t x : Nat) : State :=
  let q := s.addReq (s.departLoad p va)
  State.onCur { q with migs := q.migs ++ [s.departing p va t x], resv := q.resv.filter (·.uid != s.cur.uid) } fun _ => Ctx.empty

/-- LDMIG where its conditions hold, and where they do not. -/
theorem execLdmig_migrates {s : State} {d a : XReg} {p : Phys} {g x : Nat} {h : Bool} (ok : s.misuse [a] [d] = false)
    (acc : s.access s.iss.core (s.rd a) 8 8 false [0, 1, 2] true false = .ok p g h)
    (m : s.migrates (s.cur.dest d) ((coreOf p.home).getD s.iss.core) (if (coreOf p.home).isSome then g else 8) = some x) :
    execLdmig d a s = s.afterAll 2 1 (.next (s.departs p (s.rd a) (s.cur.dest d) x)) := by
  simp only [execLdmig, acc, m, ok, Bool.false_eq_true, if_false]
  rfl
theorem execLdmig_loads {s : State} {d a : XReg} {p : Phys} {g : Nat} {h : Bool}
    (acc : s.access s.iss.core (s.rd a) 8 8 false [0, 1, 2] true false = .ok p g h)
    (m : s.migrates (s.cur.dest d) ((coreOf p.home).getD s.iss.core) (if (coreOf p.home).isSome then g else 8) = none) :
    execLdmig d a s = s.loadAs d a (s.rd a) 8 true true := by
  simp only [execLdmig, acc, m]

/-- Settles O19: by the two meanings of LDMIG, a load and a departure. -/
theorem migratingLoad : Obligations.MigratingLoad := by
  intro s d a p g h x hc va n m ok acc
  refine ⟨fun hm free => ?_, fun hm wait => ?_, fun hm go => ?_⟩
  · obtain ⟨t, run, rest⟩ := s.loadAs_loads (sx := true) ok acc free
    exact ⟨t, (execLdmig_loads acc hm).trans run, rest⟩
  · exact (execLdmig_migrates ok acc hm).trans (if_pos wait)
  · obtain ⟨k, hk, hn⟩ := State.migrates_elsewhere hm
    have hs := s.addReq_here_sent (s.departLoad p va) rfl hc hk hn
    refine ⟨s.departs p va (s.cur.dest d) x, s.departing p va (s.cur.dest d) x, s.departLoad p va,
      (execLdmig_migrates ok acc hm).trans (if_neg (by simp [go])), ?_, rfl, ?_, rfl, rfl, rfl, ?_, ?_, rfl, ?_, rfl, rfl, rfl, rfl, rfl, ?_, ?_,
      fun y => ?_⟩
    · simp only [State.departs, State.onCur_migs, State.addReq_migs]
    · simp [n, hk, State.departing]
    · simp [State.departing]
    · simp [State.departing]
    · simp only [State.departs, State.onCur_reqs, State.addReq_reqs]
    · exact State.cur_onCur ..
    · rw [State.departs, State.here_onCur_sent]
      exact hs
    · simp only [State.departs, State.onCur_mem, State.addReq_mem]

end Sys2Proof.Machine
end

section
/-! PROOF. Threads by their number (R28, R30): where a thread stands, and that changes of contexts which keep their thread's number leave it
there. -/

namespace Sys2Proof.Machine

open Sys2Proof

/-! ## Entries of a table -/

theorem mem_tabSet {β : Type} {t : Tab β} {n : Nat} {v : β} {p : Nat × β} (h : p ∈ tabSet t n v) : p = (n, v) ∨ p ∈ t := by
  induction t with
  | nil => exact .inl (by simpa [tabSet] using h)
  | cons q t ih =>
    obtain ⟨k, w⟩ := q
    unfold tabSet at h
    split at h
    · obtain h | h := List.mem_cons.1 h
      · exact .inl h
      · exact .inr (List.mem_cons_of_mem _ h)
    · split at h
      · obtain h | h := List.mem_cons.1 h
        · exact .inl h
        · exact .inr h
      · obtain rfl | h := List.mem_cons.1 h
        · exact .inr List.mem_cons_self
        · exact (ih h).imp_right (List.mem_cons_of_mem _)

theorem tabGet_default_or_mem {β : Type} (d : β) (t : Tab β) (n : Nat) : tabGet d t n = d ∨ (n, tabGet d t n) ∈ t := by
  induction t with
  | nil => exact .inl rfl
  | cons q t ih =>
    obtain ⟨k, w⟩ := q
    unfold tabGet
    split
    · subst k
      exact .inr List.mem_cons_self
    · exact ih.imp_right (List.mem_cons_of_mem _)

/-! ## The first entry that answers, after a write

`findSome?` over a table gives the first entry that answers. Writing entry n leaves what it finds at n where the entry written answers as
the entry read did. -/

/-- Where the first answer comes from key n, the entry that a read of n gives answers with it or with nothing. -/
theorem tabGet_of_findSome {β γ : Type} {g : Nat × β → Option γ} {d : β} {t : Tab β} {n : Nat} {r : γ}
    (key : ∀ k v, g (k, v) = some r → k = n) (h : t.findSome? g = some r) : g (n, tabGet d t n) = some r ∨ g (n, tabGet d t n) = none := by
  induction t with
  | nil => simp at h
  | cons q t ih =>
    obtain ⟨k, w⟩ := q
    rw [List.findSome?_cons] at h
    unfold tabGet
    split at h
    next e =>
      obtain rfl : _ = r := by simpa using h
      rw [if_pos (key _ _ e)]
      obtain rfl := key _ _ e
      exact .inl e
    next e =>
      split
      next hk => exact .inr (hk ▸ e)
      next => exact ih h

/-- A write of entry n keeps the first answer, which comes from n, where the new entry answers like the one a read of n gave. -/
theorem findSome_tabSet {β γ : Type} {g : Nat × β → Option γ} {d v : β} {t : Tab β} {n : Nat} {r : γ} (key : ∀ k v, g (k, v) = some r → k = n)
    (h : t.findSome? g = some r) (old : g (n, tabGet d t n) = some r → g (n, v) = some r)
    (new : g (n, tabGet d t n) = none → g (n, v) = none ∨ g (n, v) = some r) : (tabSet t n v).findSome? g = some r := by
  have answers : g (n, v) = some r ∨ g (n, v) = none := by
    obtain e | e := tabGet_of_findSome (d := d) key h
    · exact .inl (old e)
    · exact (new e).symm
  induction t with
  | nil => simp at h
  | cons q t ih =>
    obtain ⟨k, w⟩ := q
    unfold tabSet
    split
    next hk =>
      subst hk
      have hg : tabGet d ((n, w) :: t) n = w := by simp [tabGet]
      rw [hg] at old
      rw [List.findSome?_cons] at h ⊢
      obtain e | e := answers
      · simp [e]
      · rw [e]
        split at h
        next e' => exact absurd (old (e'.trans h)) (by simp [e])
        next => exact h
    next hk =>
      split
      · rw [List.findSome?_cons]
        obtain e | e := answers
        · simp [e]
        · rw [e]
          exact h
      · have hg : tabGet d ((k, w) :: t) n = tabGet d t n := by simp [tabGet, Ne.symm hk]
        rw [hg] at old new
        rw [List.findSome?_cons] at h ⊢
        split at h
        next e' => exact absurd (key _ _ (e'.trans h)) (Ne.symm hk)
        next => exact ih h old new

/-- Where nothing answers, only the entry written can. -/
theorem findSome_tabSet_none {β γ : Type} {g : Nat × β → Option γ} {v : β} {t : Tab β} {n : Nat} (h : t.findSome? g = none) :
    (tabSet t n v).findSome? g = none ∨ (tabSet t n v).findSome? g = g (n, v) := by
  cases e : (tabSet t n v).findSome? g with
  | none => exact .inl rfl
  | some r =>
    obtain ⟨p, hp, hr⟩ := List.exists_of_findSome?_eq_some e
    obtain rfl | hp := mem_tabSet hp
    · exact .inr hr.symm
    · rw [List.findSome?_eq_none_iff] at h
      rw [h p hp] at hr
      cases hr

/-! ## Where a thread stands -/

/-- A context that thread u runs in, and the one of a core. -/
def Ctx.runs (u : Nat) (p : Nat × Ctx) : Option Nat := if p.2.uid == u then some p.1 else none
def Core.holds (u : Nat) (p : Nat × Core) : Option (Nat × Nat) := (p.2.ctxs.findSome? (Ctx.runs u)).map (p.1, ·)

theorem State.whereIs_eq (s : State) (u : Nat) : s.whereIs u = s.cores.findSome? (Core.holds u) := by
  have h : ∀ l : Tab Ctx, (l.find? fun x => x.2.uid == u).map (·.1) = l.findSome? (Ctx.runs u) := by
    intro l
    induction l with
    | nil => rfl
    | cons q l ih =>
      rw [List.find?_cons, List.findSome?_cons, Ctx.runs]
      split <;> rename_i e
      · simp [e]
      · simp [e, ih]
  rw [State.whereIs]
  congr 1
  funext p
  rw [Core.holds, ← h, Option.map_map]
  rfl

theorem Ctx.runs_iff {u x y : Nat} {c : Ctx} : Ctx.runs u (x, c) = some y ↔ c.uid = u ∧ x = y := by
  simp [Ctx.runs]
theorem Core.holds_iff {u k n x : Nat} {c : Core} : Core.holds u (k, c) = some (n, x) ↔ k = n ∧ c.ctxs.findSome? (Ctx.runs u) = some x := by
  simp only [Core.holds, Option.map_eq_some_iff, Prod.mk.injEq]
  exact ⟨fun ⟨y, e, hk, hy⟩ => ⟨hk, hy ▸ e⟩, fun ⟨hk, e⟩ => ⟨x, e, hk, rfl⟩⟩
theorem Core.holds_none {u k : Nat} {c : Core} : Core.holds u (k, c) = none ↔ c.ctxs.findSome? (Ctx.runs u) = none := by
  simp only [Core.holds, Option.map_eq_none_iff]

/-- A thread stays in its context through a change of that context that keeps its number. -/
theorem State.whereIs_onCtx {s : State} {u n x : Nat} {f : Ctx → Ctx} (h : s.whereIs u = some (n, x))
    (hf : (f (s.ctxAt n x)).uid = (s.ctxAt n x).uid) : (s.onCtx n x f).whereIs u = some (n, x) := by
  have same : Ctx.runs u (x, f (s.ctxAt n x)) = Ctx.runs u (x, s.ctxAt n x) := by simp only [Ctx.runs, hf]
  rw [State.whereIs_eq] at h ⊢
  refine findSome_tabSet (d := Core.reset) (fun k v e => (Core.holds_iff.1 e).1) h (fun old => ?_) fun none => ?_
  · exact Core.holds_iff.2 ⟨rfl, findSome_tabSet (d := Ctx.empty) (fun k v e => (Ctx.runs_iff.1 e).2) (Core.holds_iff.1 old).2
      (fun e => same.trans e) fun e => .inl (same.trans e)⟩
  · obtain e | e := findSome_tabSet_none (v := f (s.ctxAt n x)) (n := x) (Core.holds_none.1 none)
    · exact .inl (Core.holds_none.2 e)
    · cases r : Ctx.runs u (x, f (s.ctxAt n x)) with
      | none => exact .inl (Core.holds_none.2 (e.trans r))
      | some y =>
        obtain ⟨-, rfl⟩ := Ctx.runs_iff.1 r
        exact .inr (Core.holds_iff.2 ⟨rfl, e.trans r⟩)

/-! ## What holds of every context -/

/-- A property of every context that is listed. -/
def State.EveryCtx (s : State) (P : Ctx → Prop) : Prop := ∀ p ∈ s.cores, ∀ q ∈ p.2.ctxs, P q.2

theorem State.EveryCtx.core {s : State} {P : Ctx → Prop} (h : s.EveryCtx P) (n : Nat) : ∀ q ∈ (s.core n).ctxs, P q.2 := by
  obtain e | e := tabGet_default_or_mem Core.reset s.cores n
  · rw [State.core, e]
    simp [Core.reset]
  · exact h _ e

theorem State.EveryCtx.ctxAt {s : State} {P : Ctx → Prop} (h : s.EveryCtx P) (empty : P Ctx.empty) (n x : Nat) : P (s.ctxAt n x) := by
  obtain e | e := tabGet_default_or_mem Ctx.empty (s.core n).ctxs x
  · rw [State.ctxAt, Core.ctx, e]
    exact empty
  · exact h.core n _ e

theorem State.EveryCtx.setCore {s : State} {P : Ctx → Prop} (h : s.EveryCtx P) {n : Nat} {c : Core} (hc : ∀ q ∈ c.ctxs, P q.2) :
    (s.setCore n c).EveryCtx P := by
  intro p hp
  obtain rfl | hp := mem_tabSet hp
  · exact hc
  · exact h p hp

theorem State.EveryCtx.onCore {s : State} {P : Ctx → Prop} (h : s.EveryCtx P) {n : Nat} {f : Core → Core}
    (hf : (f (s.core n)).ctxs = (s.core n).ctxs) : (s.onCore n f).EveryCtx P := by
  refine h.setCore ?_
  rw [hf]
  exact h.core n

theorem State.EveryCtx.onCtx {s : State} {P : Ctx → Prop} (h : s.EveryCtx P) {n x : Nat} {f : Ctx → Ctx} (hf : P (f (s.ctxAt n x))) :
    (s.onCtx n x f).EveryCtx P := by
  refine h.setCore fun q hq => ?_
  obtain rfl | hq := mem_tabSet hq
  · exact hf
  · exact h.core n q hq

theorem State.whereIs_none {s : State} {u : Nat} : s.whereIs u = none ↔ s.EveryCtx (·.uid ≠ u) := by
  simp [State.whereIs, State.EveryCtx, List.findSome?_eq_none_iff]

/-- A saved frame of thread u. -/
def Ctx.keeps (u : Nat) (c : Ctx) : Prop := ∀ g ∈ c.frames, g.uid ≠ u

theorem State.keptBy_none {s : State} {u : Nat} : s.keptBy u = none ↔ s.EveryCtx (Ctx.keeps u) := by
  simp [State.keptBy, State.EveryCtx, Ctx.keeps, List.findSome?_eq_none_iff]

theorem Ctx.keeps_empty (u : Nat) : Ctx.keeps u Ctx.empty := fun _ h => absurd h (by simp [Ctx.empty])

/-! ## A thread that runs -/

/-- Thread u runs in context x of core n, and no frame of it is saved. -/
def State.RunsAt (s : State) (u n x : Nat) : Prop := s.whereIs u = some (n, x) ∧ s.keptBy u = none

theorem State.RunsAt.onCtx {s : State} {u n x : Nat} (h : s.RunsAt u n x) {f : Ctx → Ctx} (hu : (f (s.ctxAt n x)).uid = (s.ctxAt n x).uid)
    (hf : (f (s.ctxAt n x)).frames = (s.ctxAt n x).frames) : (s.onCtx n x f).RunsAt u n x := by
  refine ⟨State.whereIs_onCtx h.1 hu, State.keptBy_none.2 ((State.keptBy_none.1 h.2).onCtx ?_)⟩
  rw [Ctx.keeps, hf]
  exact (State.keptBy_none.1 h.2).ctxAt (Ctx.keeps_empty u) n x

theorem State.RunsAt.onCore {s : State} {u n x : Nat} (h : s.RunsAt u n x) {f : Core → Core} (hf : (f (s.core n)).ctxs = (s.core n).ctxs) :
    (s.onCore n f).RunsAt u n x := by
  refine ⟨?_, State.keptBy_none.2 ((State.keptBy_none.1 h.2).onCore hf)⟩
  have w := h.1
  rw [State.whereIs_eq] at w ⊢
  have same : Core.holds u (n, f (s.core n)) = Core.holds u (n, s.core n) := by simp only [Core.holds, hf]
  exact findSome_tabSet (d := Core.reset) (fun k v e => (Core.holds_iff.1 e).1) w (fun e => same.trans e) fun e => .inl (same.trans e)

theorem State.RunsAt.homeOf {s : State} {u n x : Nat} (h : s.RunsAt u n x) : s.homeOf u = some n := by
  simp [State.homeOf, State.holder, h.1]
theorem State.RunsAt.onThread {s : State} {u n x : Nat} (h : s.RunsAt u n x) (f : Ctx → Ctx) : s.onThread u f = s.onCtx n x f := by
  simp [State.onThread, h.1]
theorem State.RunsAt.replyCame {s : State} {u n x : Nat} (h : s.RunsAt u n x) (t : Nat) : s.replyCame u t = s.onCtx n x (·.came t) := by
  simp only [State.replyCame, h.1, h.onThread]
theorem State.RunsAt.landIn {s : State} {u n x : Nat} (h : s.RunsAt u n x) {t : Nat} (l : t < 48) (v : Word) :
    s.landIn u t v = s.onCtx n x (·.land t v) := by
  simp [State.landIn, h.1, State.landAt, l]
theorem State.RunsAt.acquired {s : State} {u n x : Nat} (h : s.RunsAt u n x) : s.acquired u = s.onCtx n x fun c => { c with acq := c.acq - 1 } := by
  simp only [State.acquired, h.2, h.onThread]
theorem State.RunsAt.acquireFor {s : State} {u n x : Nat} (h : s.RunsAt u n x) : s.acquireFor u = s.onCore n Core.l1Clear := by
  simp only [State.acquireFor, h.homeOf]

/-! ## What lands in a context -/

theorem Ctx.regAt_setRegAt_same (c : Ctx) {t : Nat} (h : t < 48) (v : Word) : (c.setRegAt t v).regAt t = v := by
  simp [Ctx.regAt, Ctx.setRegAt, h]

/-- An FCREATE that waits for a linked value goes on. -/
def Ctx.woken (c : Ctx) : Ctx := { c with st := if c.st = Run.linked then .run else c.st }
theorem Ctx.land_pos (c : Ctx) {t : Nat} (h : 0 < t) (v : Word) : c.land t v = (c.woken.setRegAt t v).markFull t := if_neg h.ne'

theorem Ctx.land_uid (c : Ctx) (t : Nat) (v : Word) : (c.land t v).uid = c.uid := by
  obtain rfl | h := Nat.eq_zero_or_pos t
  · rfl
  · rw [Ctx.land_pos c h]; rfl
theorem Ctx.land_frames (c : Ctx) (t : Nat) (v : Word) : (c.land t v).frames = c.frames := by
  obtain rfl | h := Nat.eq_zero_or_pos t
  · rfl
  · rw [Ctx.land_pos c h]; rfl
theorem Ctx.land_pend (c : Ctx) (t : Nat) (v : Word) : (c.land t v).pend = c.pend := by
  obtain rfl | h := Nat.eq_zero_or_pos t
  · rfl
  · rw [Ctx.land_pos c h]; rfl
theorem Ctx.land_regAt_ne (c : Ctx) {t u : Nat} (h : u ≠ t) (v : Word) : (c.land t v).regAt u = c.regAt u := by
  obtain rfl | p := Nat.eq_zero_or_pos t
  · rfl
  · rw [Ctx.land_pos c p]
    exact Ctx.regAt_setRegAt_ne c.woken v h
theorem Ctx.land_regAt_same (c : Ctx) {t : Nat} (h : 0 < t) (l : t < 48) (v : Word) : (c.land t v).regAt t = v := by
  rw [Ctx.land_pos c h]
  exact Ctx.regAt_setRegAt_same _ l v
theorem Ctx.land_full (c : Ctx) {t : Nat} (h : 0 < t) (l : t < 48) (v : Word) : (c.land t v).fe.getLsbD t = true := by
  rw [Ctx.land_pos c h]
  exact Ctx.markFull_full _ l
theorem Ctx.came_pend (c : Ctx) {t : Nat} (l : t < 48) : (c.came t).pend.getLsbD t = false := by
  simp [Ctx.came, pendBit, Nat.not_le.2 l]

/-! ## Register fills (R28, R30) -/

/-- Of what a fill reaches, only a context's fields and its core's own state change. -/
structure OnlyCtx (s t : State) (n x : Nat) : Prop where
  mem : t.mem = s.mem
  fills : t.fills = s.fills
  others : ∀ m y, m ≠ n ∨ y ≠ x → t.ctxAt m y = s.ctxAt m y

theorem OnlyCtx.refl (s : State) (n x : Nat) : OnlyCtx s s n x := ⟨rfl, rfl, fun _ _ _ => rfl⟩
theorem OnlyCtx.trans {s t u : State} {n x : Nat} (h : OnlyCtx s t n x) (g : OnlyCtx t u n x) : OnlyCtx s u n x :=
  ⟨g.mem.trans h.mem, g.fills.trans h.fills, fun m y e => (g.others m y e).trans (h.others m y e)⟩
theorem onlyCtx_onCtx (s : State) (n x : Nat) (f : Ctx → Ctx) : OnlyCtx s (s.onCtx n x f) n x :=
  ⟨rfl, rfl, fun _ _ e => State.ctxAt_onCtx_ne s f e⟩
theorem onlyCtx_onCore (s : State) (n x : Nat) {m : Nat} {f : Core → Core} (h : (f (s.core m)).ctxs = (s.core m).ctxs) :
    OnlyCtx s (s.onCore m f) n x := ⟨rfl, rfl, fun _ _ _ => State.ctxAt_onCore_keep s h _ _⟩

/-- A received message is counted, and no context changes (R52). -/
theorem State.received_keeps (s : State) (src dst : Option Nat) (n x : Nat) :
    OnlyCtx s (s.received src dst) n x ∧ ∀ m y, (s.received src dst).ctxAt m y = s.ctxAt m y := by
  unfold State.received
  split
  · exact ⟨onlyCtx_onCore s n x rfl, State.ctxAt_onCore_keep s rfl⟩
  · exact ⟨.refl .., fun _ _ => rfl⟩

/-- A context with another count of acquires. -/
def Ctx.withAcq (c : Ctx) (a : Nat) : Ctx := { c with acq := a }

/-- A value that lands in a running thread: its context afterwards, but for the acquires it counts, and what stands. -/
theorem State.RunsAt.fillLands {s : State} {f : RegFill} {n x : Nat} (h : s.RunsAt f.uid n x) (err : f.err = 0) (l : f.reg < 48) :
    OnlyCtx s (s.fillLands f) n x ∧
      ∃ a, (s.fillLands f).ctxAt n x = (((s.ctxAt n x).came f.reg).land f.reg f.val).withAcq a := by
  have hr : (s.received f.src (s.homeOf f.uid)).RunsAt f.uid n x := by
    rw [h.homeOf]
    unfold State.received
    split
    · exact h.onCore rfl
    · exact h
  have hk := s.received_keeps f.src (s.homeOf f.uid) n x
  set r := s.received f.src (s.homeOf f.uid)
  set v := r.onCtx n x (·.came f.reg) with hv
  have vr : v.RunsAt f.uid n x := hr.onCtx rfl rfl
  set w := v.onCtx n x (·.land f.reg f.val) with hw
  have wr : w.RunsAt f.uid n x := vr.onCtx (Ctx.land_uid ..) (Ctx.land_frames ..)
  have wo : OnlyCtx s w n x := hk.1.trans ((onlyCtx_onCtx r n x _).trans (onlyCtx_onCtx v n x _))
  have wc : w.ctxAt n x = ((s.ctxAt n x).came f.reg).land f.reg f.val := by
    rw [hw, State.ctxAt_onCtx_same, hv, State.ctxAt_onCtx_same, hk.2]
  have lands : s.fillLands f =
      (let q := if f.counted && f.acq != 0 then w.acquired f.uid else w
       if 2 ≤ f.acq then q.acquireFor f.uid else q) := by
    simp only [State.fillLands, err]
    rw [hr.replyCame, vr.landIn l]
    rfl
  rw [lands]
  have hq : ∀ q : State, q = (if f.counted && f.acq != 0 then w.acquired f.uid else w) → q.RunsAt f.uid n x ∧ OnlyCtx s q n x ∧
      ∃ a, q.ctxAt n x = (((s.ctxAt n x).came f.reg).land f.reg f.val).withAcq a := by
    rintro q rfl
    split
    · rw [wr.acquired]
      exact ⟨wr.onCtx rfl rfl, wo.trans (onlyCtx_onCtx ..), _, by rw [State.ctxAt_onCtx_same, wc]; rfl⟩
    · exact ⟨wr, wo, (((s.ctxAt n x).came f.reg).land f.reg f.val).acq, wc⟩
  obtain ⟨qr, qo, a, qc⟩ := hq _ rfl
  simp only
  split
  · rw [qr.acquireFor]
    exact ⟨qo.trans (onlyCtx_onCore _ n x rfl), a, by rw [State.ctxAt_onCore_keep _ rfl, qc]⟩
  · exact ⟨qo, a, qc⟩

/-- Thread u is no more: it runs nowhere, in no saved frame, and is not on its way between cores. -/
structure State.Gone (s : State) (u : Nat) : Prop where
  runs : s.whereIs u = none
  kept : s.keptBy u = none
  moves : s.moving u = none

theorem State.Gone.onThread {s : State} {u : Nat} (h : s.Gone u) (f : Ctx → Ctx) : s.onThread u f = s := by
  have e : (s.migs.map fun m => if m.uid = u then { m with ctx := f m.ctx } else m) = s.migs := by
    refine (List.map_congr_left fun m hm => if_neg ?_).trans (List.map_id' s.migs)
    simpa using List.find?_eq_none.1 h.moves m hm
  simp only [State.onThread, h.runs, e]
theorem State.Gone.homeOf {s : State} {u : Nat} (h : s.Gone u) : s.homeOf u = none := by
  simp [State.homeOf, State.holder, h.runs, h.kept, h.moves]
theorem State.Gone.replyCame {s : State} {u : Nat} (h : s.Gone u) (t : Nat) : s.replyCame u t = s := by
  simp only [State.replyCame, h.runs, h.kept, h.onThread]
theorem State.Gone.landIn {s : State} {u : Nat} (h : s.Gone u) (t : Nat) (v : Word) : s.landIn u t v = s := by
  simp only [State.landIn, h.runs, h.kept, h.onThread]
theorem State.Gone.acquired {s : State} {u : Nat} (h : s.Gone u) : s.acquired u = s := by
  simp only [State.acquired, h.kept, h.onThread]
theorem State.Gone.acquireFor {s : State} {u : Nat} (h : s.Gone u) : s.acquireFor u = s := by
  simp only [State.acquireFor, h.homeOf]

theorem State.Gone.received {s : State} {u : Nat} (h : s.Gone u) (src dst : Option Nat) : (s.received src dst).Gone u := by
  unfold State.received
  split
  · exact ⟨State.whereIs_none.2 ((State.whereIs_none.1 h.runs).onCore rfl), State.keptBy_none.2 ((State.keptBy_none.1 h.kept).onCore rfl), h.moves⟩
  · exact h

/-- A value for a thread that is no more is discarded; only its message is counted. -/
theorem State.Gone.fillLands {s : State} {f : RegFill} (h : s.Gone f.uid) (err : f.err = 0) : s.fillLands f = s.received f.src none := by
  have g := h.received f.src none
  simp only [State.fillLands, err, h.homeOf, g.replyCame, g.landIn, g.acquired, g.acquireFor, ite_self, ne_eq, not_true_eq_false, if_false]

/-- A fill that is the first for its register lands. -/
theorem execRegisterFill_lands {s : State} {i : Nat} {f : RegFill} (hf : s.fills[i]? = some f) (first : s.fillFirst i = true) (link : f.link = none) :
    exec (.registerFill i) s = .next ({ s with fills := s.fills.eraseIdx i }.fillLands f) := by
  show execRegisterFill i s = _
  simp only [execRegisterFill, hf, first, link]
  rfl

/-- Settles O25: the fill lands in its running thread's context, or nowhere. -/
theorem registerFillLands : Obligations.RegisterFillLands := by
  intro s i n x f hf first link err kept
  refine ⟨fun run pos l => ?_, fun nowhere still => ?_⟩
  · have stands : State.RunsAt { s with fills := s.fills.eraseIdx i } f.uid n x := ⟨run, kept⟩
    obtain ⟨only, a, hc⟩ := stands.fillLands err l
    refine ⟨_, execRegisterFill_lands hf first link, ?_, ?_, ?_, fun r hr => ?_, only.fills, fun y => congrArg (memGet · y) only.mem, only.others⟩ <;>
      rw [hc]
    · exact Ctx.land_regAt_same _ pos l _
    · exact Ctx.land_full _ pos l _
    · exact (congrArg (·.getLsbD f.reg) (Ctx.land_pend _ _ _)).trans (Ctx.came_pend _ l)
    · exact Ctx.land_regAt_ne _ hr _
  · have gone : State.Gone { s with fills := s.fills.eraseIdx i } f.uid := ⟨nowhere, kept, still⟩
    obtain ⟨only, ctx⟩ := State.received_keeps { s with fills := s.fills.eraseIdx i } f.src none n x
    rw [← gone.fillLands err] at only ctx
    exact ⟨_, execRegisterFill_lands hf first link, only.fills, fun y => congrArg (memGet · y) only.mem, ctx⟩

end Sys2Proof.Machine
end

section
/-! PROOF. A step (R25, R129, R130, R136, R144, R163, R344): which branch `step` takes, what a fetch reads, and what the attempt of the
wheel's owner does. -/

namespace Sys2Proof.Machine

open Sys2Proof

/-! ## A fetch changes lines of slices alone (R71, R344) -/

/-- Of a state, only the lines that slices hold, and the memory they write back to, differ. -/
def Relined (s t : State) : Prop := ∃ m l c, t = { s with mem := m, l2 := l, clock := c }

theorem Relined.refl (s : State) : Relined s s := ⟨s.mem, s.l2, s.clock, rfl⟩
theorem Relined.trans {s t u : State} (h : Relined s t) (g : Relined t u) : Relined s u := by
  obtain ⟨m, l, c, rfl⟩ := h
  obtain ⟨m', l', c', rfl⟩ := g
  exact ⟨m', l', c', rfl⟩

theorem relined_writeBack (s : State) (p : Nat) (l : SLine) : Relined s (s.writeBack p l) := by
  unfold State.writeBack
  split
  · exact ⟨_, s.l2, s.clock, rfl⟩
  · exact .refl s
theorem relined_setSlice (s : State) (p i : Nat) (l : List SLine) : Relined s (s.setSlice p i l) := ⟨s.mem, _, s.clock, rfl⟩

theorem relined_dropOther (s : State) (p i line slot : Nat) : Relined s (s.dropOther p i line slot) := by
  unfold State.dropOther
  split
  · exact (relined_writeBack ..).trans (relined_setSlice ..)
  · exact .refl s

theorem relined_allocate (s : State) (p i line slot vline prio hint : Nat) : Relined s (s.allocate p i line slot vline prio hint) := by
  simp only [State.allocate]
  split
  · exact relined_setSlice ..
  · split
    · exact .refl s
    · exact (relined_writeBack ..).trans (relined_setSlice ..)

theorem relined_touch (s : State) (p i line slot vline prio hint : Nat) : Relined s (s.touch p i line slot vline prio hint) := by
  have tick : Relined s { s with clock := s.clock + 1 } := ⟨s.mem, s.l2, _, rfl⟩
  have drop := tick.trans (relined_dropOther _ p i line slot)
  simp only [State.touch]
  split
  · exact drop.trans (relined_setSlice ..)
  · split
    · exact drop
    · exact drop.trans (relined_allocate ..)

theorem relined_fetchLine (s : State) (n l : Nat) : Relined s (s.fetchLine n l) := by
  simp only [State.fetchLine]
  split
  · exact relined_touch ..
  · exact .refl s

theorem relined_fetchAt (s : State) (n : Nat) (pc : Word) : Relined s (s.fetchAt n pc) := by
  simp only [State.fetchAt]
  split
  · exact relined_fetchLine ..
  · exact (relined_fetchLine ..).trans (relined_fetchLine ..)

theorem Relined.core {s t : State} (h : Relined s t) (n : Nat) : t.core n = s.core n := by obtain ⟨m, l, c, rfl⟩ := h; rfl
theorem Relined.ctxAt {s t : State} (h : Relined s t) (n x : Nat) : t.ctxAt n x = s.ctxAt n x := by obtain ⟨m, l, c, rfl⟩ := h; rfl
theorem Relined.teamOf {s t : State} (h : Relined s t) (n : Nat) : t.teamOf n = s.teamOf n := by obtain ⟨m, l, c, rfl⟩ := h; rfl

/-! ## Lines that stay in the instruction cache -/

theorem State.cacheLine_keeps (s : State) (n l : Nat) (v : List Byte × List Bool) :
    (s.cacheLine n l v).mem = s.mem ∧ ∀ m x, (s.cacheLine n l v).ctxAt m x = s.ctxAt m x := by
  unfold State.cacheLine
  split
  · exact ⟨rfl, fun _ _ => rfl⟩
  · exact ⟨rfl, State.ctxAt_onCore_keep s rfl⟩

theorem State.fetched_keeps (s : State) (n : Nat) (pc : Word) :
    (s.fetched n pc).mem = s.mem ∧ ∀ m x, (s.fetched n pc).ctxAt m x = s.ctxAt m x := by
  have one := s.cacheLine_keeps n (pc.toNat / 64) (s.codeLine n (pc.toNat / 64))
  simp only [State.fetched]
  split
  · exact one
  · have two := (s.cacheLine n (pc.toNat / 64) (s.codeLine n (pc.toNat / 64))).cacheLine_keeps n (pc.toNat / 64 + 1) (s.codeLine n (pc.toNat / 64 + 1))
    exact ⟨two.1.trans one.1, fun m x => (two.2 m x).trans (one.2 m x)⟩

/-! ## The bytes a fetch decodes -/

theorem memBytes_eq (m : List (Nat × Byte)) (a n : Nat) : memBytes m a n = (List.range n).map fun i => memGet m (a + i) := by
  induction n generalizing a with
  | zero => rfl
  | succ n ih =>
    rw [memBytes, ih, List.range_succ_eq_map, List.map_cons, List.map_map]
    refine congrArg₂ _ rfl (List.map_congr_left fun i _ => ?_)
    rw [Function.comp, Nat.succ_eq_add_one, Nat.add_right_comm, Nat.add_assoc]

theorem memBytes_append (m : List (Nat × Byte)) (a j k : Nat) : memBytes m a (j + k) = memBytes m a j ++ memBytes m (a + j) k := by
  induction j generalizing a with
  | zero => simp [memBytes]
  | succ j ih =>
    rw [Nat.succ_add, memBytes, memBytes, ih, List.cons_append, Nat.add_right_comm, Nat.add_assoc]

theorem memBytes_length (m : List (Nat × Byte)) (a n : Nat) : (memBytes m a n).length = n := by simp [memBytes_eq]

/-- A part of the bytes from an address. -/
theorem memBytes_drop_take (m : List (Nat × Byte)) (a : Nat) {i j k : Nat} (h : i + j ≤ k) :
    ((memBytes m a k).drop i).take j = memBytes m (a + i) j := by
  obtain ⟨r, rfl⟩ := Nat.exists_eq_add_of_le h
  rw [Nat.add_assoc, memBytes_append, memBytes_append, List.drop_left' (memBytes_length ..), List.take_left' (memBytes_length ..)]

theorem leNat_memBytes (m : List (Nat × Byte)) (a n : Nat) : leNat (memBytes m a n) = memNat m a n := by
  induction n generalizing a with
  | zero => rfl
  | succ n ih => rw [memBytes, leNat, ih, memNat]

/-- The bytes of a line that the instruction cache does not hold and that lies in the arena are those in memory (R344). -/
theorem State.codeLine_bytes {s : State} {n l : Nat} (cold : (s.core n).icache = []) (lo : (s.core n).abase.toNat < 64 * l + 64)
    (hi : 64 * l < (s.core n).abound.toNat) (named : s.named (s.teamOf n).part (partKey (s.teamOf n).part (64 * l)) = true) :
    (s.codeLine n l).1 = memBytes s.mem (partKey (s.teamOf n).part (64 * l)) 64 := by
  have f : s.fetches n l = true := by simp [State.fetches, cold, lo, hi]
  simp only [State.codeLine, f, if_true, State.cells, named]

/-- The bytes of cells without their poison. -/
theorem map_zipIdx_fst {α : Type} (l : List α) (f : α × Nat → Bool) : (l.zipIdx.map fun b => (b.1, f b)).map (·.1) = l := by
  rw [List.map_map]
  exact List.zipIdx_map_fst 0 l

/-- A key below another that is named, in the same partition, is named. -/
theorem State.named_mono {s : State} {p a b : Nat} (h : s.named p (partKey p b) = true) (l : a ≤ b) : s.named p (partKey p a) = true := by
  simp only [State.named, Bool.and_eq_true, decide_eq_true_eq] at h ⊢
  simp only [partKey] at h ⊢
  omega

/-- A cold fetch inside the arena reads the ten bytes at the pc. -/
theorem State.codeBytes_memBytes {s : State} {n pc : Nat} (cold : (s.core n).icache = []) (lo : (s.core n).abase.toNat ≤ pc)
    (hi : pc + 10 ≤ (s.core n).abound.toNat) (named : ∀ k < 64, s.named (s.teamOf n).part (partKey (s.teamOf n).part (pc + k)) = true) :
    (s.codeBytes n pc).map (·.1) = memBytes s.mem (partKey (s.teamOf n).part pc) 10 := by
  have split := Nat.div_add_mod pc 64
  have small := Nat.mod_lt pc (show 64 > 0 by decide)
  have at0 := State.codeLine_bytes (l := pc / 64) cold (by omega) (by omega) (State.named_mono (named 0 (by decide)) (by omega))
  have key : partKey (s.teamOf n).part (64 * (pc / 64)) + pc % 64 = partKey (s.teamOf n).part pc := by
    simp only [partKey]; omega
  simp only [State.codeBytes, List.map_take, List.map_drop, List.map_append, map_zipIdx_fst, at0]
  split
  · rw [List.map_nil, List.append_nil, memBytes_drop_take _ _ (by omega), key]
  · have at1 := State.codeLine_bytes (l := pc / 64 + 1) cold (by omega) (by omega)
      (State.named_mono (named (64 - pc % 64) (by omega)) (by omega))
    have next : partKey (s.teamOf n).part (64 * (pc / 64 + 1)) = partKey (s.teamOf n).part (64 * (pc / 64)) + 64 := by
      simp only [partKey]; omega
    rw [map_zipIdx_fst, at1, next, ← memBytes_append, memBytes_drop_take _ _ (by omega), key]

/-! ## The attempt of a context whose unit can issue -/

/-- The state in which a fetched unit of context x is performed. -/
noncomputable def State.fetching (s : State) (n x : Nat) : State :=
  let r := s.fetchAt n (s.ctxAt n x).pc
  (r.fetched n (s.ctxAt n x).pc).issuing n x (s.ctxAt n x).pc (r.fetch n (s.ctxAt n x).pc)
/-- What that fetch gives. -/
noncomputable def State.fetchGives (s : State) (n x : Nat) : Fetch := (s.fetchAt n (s.ctxAt n x).pc).fetch n (s.ctxAt n x).pc

theorem State.fetching_cur (s : State) (n x : Nat) : (s.fetching n x).cur = s.ctxAt n x :=
  ((State.fetched_keeps _ n _).2 n x).trans ((relined_fetchAt s n _).ctxAt n x)

theorem State.perform_moved {q t : State} {i : Instr} (run : exec i q = .next t) (moved : q.moved t q.iss.core q.iss.ctx = true) :
    q.perform i = .done (.next t) := by
  simp only [State.perform, run, moved, if_true]

theorem State.attempt_unit {s t : State} {n x : Nat} {i : Instr} (busy : s.idle n x = false) (dec : (s.fetchGives n x).unit.ins = .ok i)
    (trap : (s.fetching n x).decodeTrap (s.fetchGives n x) = none)
    (on : (s.ctxAt n x).guard (s.fetchGives n x).unit.guard.reg ≠ (s.fetchGives n x).unit.guard.inv)
    (control : (s.fetching n x).controlAt i = none) (ready : (s.fetching n x).ready i = true) (clean : (s.fetchGives n x).poison = false)
    (parity : (s.fetching n x).parityHit i = false) (word : (s.fetching n x).poisonedWord i = false)
    (run : exec i (s.fetching n x) = .next t) (moved : (s.fetching n x).moved t n x = true) : s.attempt n x = .done (.next t) := by
  have g : ((s.fetching n x).cur.guard (s.fetchGives n x).unit.guard.reg == (s.fetchGives n x).unit.guard.inv) = false := by
    rw [State.fetching_cur]
    simpa using on
  simp only [State.fetching, State.fetchGives] at *
  simp only [State.attempt, busy, trap, dec, g, control, ready, clean, parity, word, Bool.false_eq_true, if_false, Bool.not_true]
  exact State.perform_moved run moved

theorem State.attempt_off {s : State} {n x : Nat} {i : Instr} (busy : s.idle n x = false) (dec : (s.fetchGives n x).unit.ins = .ok i)
    (trap : (s.fetching n x).decodeTrap (s.fetchGives n x) = none)
    (off : (s.ctxAt n x).guard (s.fetchGives n x).unit.guard.reg = (s.fetchGives n x).unit.guard.inv) :
    s.attempt n x = .done (.next ((s.fetching n x).skip i)) := by
  have g : ((s.fetching n x).cur.guard (s.fetchGives n x).unit.guard.reg == (s.fetchGives n x).unit.guard.inv) = true := by
    rw [State.fetching_cur]
    simpa using off
  simp only [State.fetching, State.fetchGives] at *
  simp only [State.attempt, busy, trap, dec, g, Bool.false_eq_true, if_false, if_true]

theorem State.attempt_trap {s t : State} {n x : Nat} {cause : BitVec 8} {value : Word} (busy : s.idle n x = false)
    (trap : (s.fetching n x).decodeTrap (s.fetchGives n x) = some (cause, value))
    (run : exec (.undefinedUnit cause value) (s.fetching n x) = .next t) (moved : (s.fetching n x).moved t n x = true) :
    s.attempt n x = .done (.next t) := by
  simp only [State.fetching, State.fetchGives] at *
  simp only [State.attempt, busy, trap, Bool.false_eq_true, if_false]
  exact State.perform_moved run moved

theorem State.skip_plain (q : State) {i : Instr} (h : ∀ g t a b k m, i ≠ .gmma g t a b k m) : q.skip i = q.retire := by
  unfold State.skip
  split
  · exact absurd rfl (h _ _ _ _ _ _)
  · rfl

/-! ## The turn of a core -/

/-- A core as its turn begins: none of its contexts has yet failed to issue. -/
def State.turnStart (s : State) (n : Nat) : State := s.onCore n fun k => { k with stalled := 0 }

theorem State.turnStart_teamOf (b : State) (n : Nat) : (b.turnStart n).teamOf n = b.teamOf n := by
  simp [State.turnStart, State.teamOf, State.team]

/-- The wheel's owner is tried first, and where its unit issues the turn ends. -/
theorem State.issue_owner {b t : State} {n : Nat} (turn : b.runs.find? (b.turn ≤ ·) = some n)
    (done : (b.turnStart n).attempt n (b.position n) = .done (.next t)) :
    b.issue = .next ((t.onCore n fun k => { k with issued := k.issued + 1 }).turnEnd n) := by
  have pos : (b.turnStart n).position n = b.position n := by
    simp only [State.position, State.turnStart_teamOf]
    simp [State.turnStart]
  have own : (b.position n == (b.turnStart n).position n) = true := by simp [pos]
  simp only [State.issue, turn, State.order, State.issueOf]
  rw [show (b.onCore n fun c => { c with stalled := 0 }) = b.turnStart n from rfl, done]
  simp only [own, if_true]

/-- What keeps a context from issuing does not depend on which contexts have failed to. -/
theorem State.idle_turnStart (b : State) (n x : Nat) : (b.turnStart n).idle n x = b.idle n x := by
  have c : ∀ m y, (b.turnStart n).ctxAt m y = b.ctxAt m y := State.ctxAt_onCore_keep b rfl
  have stop : ∀ m, ((b.turnStart n).core m).stop = (b.core m).stop := by
    intro m
    by_cases e : m = n
    · subst e
      simp [State.turnStart]
    · rw [State.turnStart, State.core_onCore_ne _ _ e]
  have again : (b.turnStart n).reissues n x = b.reissues n x := by
    refine congrArg (fun f => b.replays.any f) (funext fun r => ?_)
    cases r.head <;> simp only [State.toTry, c, stop]
  simp only [State.idle, c, again]
  rfl

/-! ## The branches of a step -/

theorem step_own {s : State} (h : s.agenda = [] ∧ s.upsets = [] ∧ s.takeInput = none ∨
    ∃ i l, s.agenda = i :: l ∧ external i = true ∧ s.waitsFor i = true) : step s = s.ownStep := by
  obtain ⟨ha, hu, hi⟩ | ⟨i, l, ha, he, hw⟩ := h
  · simp only [step, ha, hu, hi]
  · simp only [step, ha, he, hw, if_true, Bool.not_true, Bool.false_eq_true, if_false]

theorem State.ownStep_issues {s b : State} (h : s.events = [] ∧ b = s ∨
    s.events ≠ [] ∧ s.events[Config.pick s.choice % (s.events.length + 1)]? = none ∧ b = { s with choice := s.choice + 1 }) :
    s.ownStep = b.issue := by
  obtain ⟨he, rfl⟩ | ⟨hn, hp, rfl⟩ := h
  · simp only [State.ownStep, he]
  · unfold State.ownStep
    cases e : s.events with
    | nil => exact absurd e hn
    | cons i l =>
      rw [e] at hp
      simp only [List.length_cons] at hp ⊢
      rw [hp]

/-- Settles O58: the branch of `step`, and of the attempt that the owner makes, which each case's premises pick. -/
theorem stepRunsTheDecodedUnit : Obligations.StepRunsTheDecodedUnit := by
  intro s
  refine ⟨fun i l ha he hw => ?_, fun u l ha hu => ?_, fun t ha hu hi => ?_, fun b n own free turn => ?_⟩
  · simp only [step, ha, he, hw, Bool.not_true, Bool.false_eq_true, if_false]
  · simp only [step, ha, hu]
  · simp only [step, ha, hu, hi]
  · intro x c r f u q ends
    have run {t : State} (done : (b.turnStart n).attempt n x = .done (.next t)) : step s = .next (ends t) :=
      (step_own own).trans ((State.ownStep_issues free).trans (State.issue_owner turn done))
    have hc : (b.turnStart n).ctxAt n x = c := State.ctxAt_onCore_keep b rfl n x
    have hq : (b.turnStart n).fetching n x = q := by simp only [State.fetching, hc]; rfl
    have hf : (b.turnStart n).fetchGives n x = f := by simp only [State.fetchGives, hc]; rfl
    have bs : b.cores = s.cores ∧ b.teams = s.teams := by
      obtain ⟨-, rfl⟩ | ⟨-, -, rfl⟩ := free <;> exact ⟨rfl, rfl⟩
    refine ⟨rfl, rfl, rfl, rfl, (r.fetched_keeps n c.pc).1, ?_, fun cold lo hi named => ?_, fun busy => ⟨?_, ?_, ?_⟩⟩
    · rw [← hq, State.fetching_cur, hc]
    · have core : r.core n = { s.core n with stalled := 0 } := by
        rw [(relined_fetchAt _ n c.pc).core n, State.core_onCore_same, State.core, bs.1]
        rfl
      have team : r.teamOf n = s.teamOf n := by
        rw [(relined_fetchAt _ n c.pc).teamOf n]
        refine (b.turnStart_teamOf n).trans ?_
        simp only [State.teamOf, State.team, State.core, bs.1, bs.2]
      rw [← team] at named ⊢
      show decodeUnit (r.core n).level _ = _
      rw [State.codeBytes_memBytes (by rw [core]; exact cold) (by rw [core]; exact lo) (by rw [core]; exact hi) named, leNat_memBytes, core]
    · intro i t dec trap on control ready clean parity word hrun moved
      rw [← hq] at trap control ready parity word hrun moved
      rw [← hf] at trap clean
      exact run (State.attempt_unit ((b.idle_turnStart n x).trans busy) (by rw [hf]; exact dec) trap (by rw [hc, hf]; exact on) control ready clean parity word hrun
        moved)
    · intro i dec trap off plain
      rw [← hq, ← hf] at trap
      rw [run (State.attempt_off ((b.idle_turnStart n x).trans busy) (by rw [hf]; exact dec) trap (by rw [hc, hf]; exact off)), State.skip_plain _ plain, hq]
    · intro cause value t trap hrun moved
      rw [← hq] at trap hrun moved
      rw [← hf] at trap
      exact run (State.attempt_trap ((b.idle_turnStart n x).trans busy) trap hrun moved)

end Sys2Proof.Machine
end

section
/-! PROOF. Neighbour queues and light handlers (R49, R50, R52, R187): a word that moves, and a trigger that is taken. -/

namespace Sys2Proof.Machine

open Sys2Proof

/-! ## Updates at two cores -/

theorem State.core_onCtx_ne (s : State) {n m x : Nat} (f : Ctx → Ctx) (h : m ≠ n) : (s.onCtx n x f).core m = s.core m :=
  State.core_onCore_ne s _ h

theorem State.core_onCtx_same (s : State) (n x : Nat) (f : Ctx → Ctx) : (s.onCtx n x f).core n = (s.core n).setCtx x (f (s.ctxAt n x)) :=
  State.core_onCore_same ..

/-! ## A push that was held (R187) -/

/-- Where no context of a core holds a push, none is found. -/
theorem held_none {c : Core} {dir : Nat} (h : ∀ k ∈ c.ctxs, k.2.heldPush = []) :
    (c.ctxs.find? fun x => x.2.heldPush.any (·.1 == dir)) = none := by
  refine List.find?_eq_none.2 fun k hk => ?_
  rw [h k hk]
  simp

/-- Where context x alone holds a push, it is the one found. -/
theorem held_some {c : Core} {dir x : Nat} {v : QWord} (others : ∀ k ∈ c.ctxs, k.1 ≠ x → k.2.heldPush = [])
    (mine : (c.ctx x).heldPush = [(dir, v)]) : ∃ k, (c.ctxs.find? fun x => x.2.heldPush.any (·.1 == dir)) = some k ∧ k.1 = x := by
  have listed : (x, c.ctx x) ∈ c.ctxs := by
    obtain e | e := tabGet_default_or_mem Ctx.empty c.ctxs x
    · rw [Core.ctx, e] at mine
      cases mine
    · exact e
  have found : (c.ctxs.find? fun x => x.2.heldPush.any (·.1 == dir)).isSome = true :=
    List.find?_isSome.2 ⟨_, listed, by simp [mine]⟩
  obtain ⟨k, hk⟩ := Option.isSome_iff_exists.1 found
  refine ⟨k, hk, ?_⟩
  by_contra ne
  have := List.find?_some hk
  rw [others k (List.mem_of_find?_eq_some hk) ne] at this
  simp at this

/-- The one push a context holds takes its place in the queue. -/
theorem State.acceptPush_one {s : State} {n x dir : Nat} {v : QWord} (h : (s.ctxAt n x).heldPush = [(dir, v)]) :
    s.acceptPush n x dir = (s.onCore n fun c => { c with outq := tabSet c.outq dir (c.outbound dir ++ [v]) }).onCtx n x fun c =>
      { c with heldPush := c.heldPush.erase (dir, v) } := by
  simp [State.acceptPush, h]

/-- Accepting a push leaves memory and every other core alone, and the counts of its own. -/
theorem State.acceptPush_keeps (s : State) (n x dir : Nat) :
    (s.acceptPush n x dir).mem = s.mem ∧ ((s.acceptPush n x dir).core n).sent = (s.core n).sent ∧
      ∀ m, m ≠ n → (s.acceptPush n x dir).core m = s.core m := by
  unfold State.acceptPush
  split
  · exact ⟨rfl, rfl, fun _ _ => rfl⟩
  · refine ⟨rfl, ?_, fun m h => ?_⟩
    · rw [State.core_onCtx_same, State.core_onCore_same]
      rfl
    · rw [State.core_onCtx_ne _ _ h, State.core_onCore_ne _ _ h]

/-! ## A word that moves (R49, R52, R365) -/

/-- The state once the head has left its queue, and the push that was held has taken the place. -/
def State.headLeaves (s : State) (n dir : Nat) (l : List QWord) : State :=
  let t := s.onCore n fun k => { k with outq := tabSet k.outq dir l, sent := k.sent + 1 }
  match (s.core n).ctxs.find? fun x => x.2.heldPush.any (·.1 == dir) with
  | some x => t.acceptPush n x.1 dir
  | none => t

theorem execQueueWordTransfer_moves {s : State} {n p dir : Nat} {w : QWord} {l : List QWord} (peer : peerOf n dir = some p)
    (out : (s.core n).outbound dir = w :: l) (room : ((s.core p).inbound ((dir + 2) % 4)).length < 8) :
    exec (.queueWordTransfer n dir) s = .next ((s.headLeaves n dir l).onCore p fun k =>
      { k with inq := tabSet k.inq ((dir + 2) % 4) (k.inbound ((dir + 2) % 4) ++ [(w.1, w.2.1, if 8 < w.2.2 then 9 else 0)]),
               recv := k.recv + 1 }) := by
  show execQueueWordTransfer n dir s = _
  simp only [execQueueWordTransfer, out, peer, if_neg (Nat.not_le.2 room)]
  rfl

theorem execQueueWordTransfer_full {s : State} {n p dir : Nat} {w : QWord} {l : List QWord} (peer : peerOf n dir = some p)
    (out : (s.core n).outbound dir = w :: l) (full : 8 ≤ ((s.core p).inbound ((dir + 2) % 4)).length) :
    exec (.queueWordTransfer n dir) s = .next s := by
  show execQueueWordTransfer n dir s = _
  simp only [execQueueWordTransfer, out, peer, if_pos full]

theorem State.headLeaves_keeps (s : State) (n dir : Nat) (l : List QWord) :
    (s.headLeaves n dir l).mem = s.mem ∧ ((s.headLeaves n dir l).core n).sent = (s.core n).sent + 1 ∧
      ∀ m, m ≠ n → (s.headLeaves n dir l).core m = s.core m := by
  set t := s.onCore n fun k => { k with outq := tabSet k.outq dir l, sent := k.sent + 1 } with ht
  have ts : (t.core n).sent = (s.core n).sent + 1 := by rw [ht, State.core_onCore_same]
  have tm : ∀ m, m ≠ n → t.core m = s.core m := fun m h => State.core_onCore_ne s _ h
  simp only [State.headLeaves, ← ht]
  split
  · obtain ⟨mem, sent, other⟩ := t.acceptPush_keeps n _ dir
    exact ⟨mem, sent.trans ts, fun m h => (other m h).trans (tm m h)⟩
  · exact ⟨rfl, ts, tm⟩

/-- With no push held, the queue holds what stood behind the head. -/
theorem State.headLeaves_outbound {s : State} {n dir : Nat} {l : List QWord} (h : ∀ k ∈ (s.core n).ctxs, k.2.heldPush = []) :
    ((s.headLeaves n dir l).core n).outbound dir = l := by
  simp only [State.headLeaves, held_none h, State.core_onCore_same]
  exact tabGet_tabSet_same ..

/-- The push that one context holds stands at the end of the queue, and is held no more. -/
theorem State.headLeaves_held {s : State} {n x dir : Nat} {l : List QWord} {v : QWord} (others : ∀ k ∈ (s.core n).ctxs, k.1 ≠ x → k.2.heldPush = [])
    (mine : (s.ctxAt n x).heldPush = [(dir, v)]) :
    ((s.headLeaves n dir l).core n).outbound dir = l ++ [v] ∧ ((s.headLeaves n dir l).ctxAt n x).heldPush = [] := by
  obtain ⟨k, found, rfl⟩ := held_some others mine
  set t := s.onCore n fun k => { k with outq := tabSet k.outq dir l, sent := k.sent + 1 } with ht
  have tc : t.ctxAt n k.1 = s.ctxAt n k.1 := State.ctxAt_onCore_keep s rfl n k.1
  have accept := State.acceptPush_one (s := t) (n := n) (x := k.1) (by rw [tc]; exact mine)
  simp only [State.headLeaves, found, ← ht, accept]
  refine ⟨?_, ?_⟩
  · rw [State.core_onCtx_same, State.core_onCore_same, ht, State.core_onCore_same]
    simp [Core.outbound, Core.setCtx]
  · rw [State.ctxAt_onCtx_same, State.ctxAt_onCore_keep t rfl, tc, mine]
    simp

/-! ## A trigger that is taken (R50) -/

/-- Outside both handlers, x5 to x8 of the light handler are those of the second bank. -/
theorem Ctx.bank_light {c : Ctx} (h : c.inLh = true) (e : c.inEm = false) : c.bank = c.outer.2.1 := by
  simp [Ctx.bank, swapBanks, h, e]

theorem Ctx.outer_congr {c e : Ctx} (h : e.frames = c.frames) : e.outer = c.outer := by simp only [Ctx.outer, h]

/-- Entry hands the handler its cause, its value and the interrupted pc, in the three registers that name them (R50). -/
theorem Ctx.enterLight_regs (c : Ctx) (cause v : Word) :
    (c.enterLight cause v).reg 5 = cause ∧ (c.enterLight cause v).reg 6 = v ∧ (c.enterLight cause v).reg 7 = c.pc := by
  set a : Ctx := { c with inLh := true, hepc := c.pc, hcause := cause } with ha
  have e (r : XReg) : (c.enterLight cause v).reg r = (((a.setReg 5 cause).setReg 6 v).setReg 7 c.pc).reg r := rfl
  refine ⟨?_, ?_, ?_⟩
  · rw [e, Ctx.reg_setReg_ne _ _ (by decide), Ctx.reg_setReg_ne _ _ (by decide), Ctx.reg_setReg_same _ _ _ (by decide)]
  · rw [e, Ctx.reg_setReg_ne _ _ (by decide), Ctx.reg_setReg_same _ _ _ (by decide)]
  · rw [e, Ctx.reg_setReg_same _ _ _ (by decide)]

theorem Ctx.enterLight_regAt {c : Ctx} (em : c.inEm = false) (cause v : Word) {y : Nat}
    (h : y ∉ [c.outer.2.1 + 5, c.outer.2.1 + 6, c.outer.2.1 + 7]) : (c.enterLight cause v).regAt y = c.regAt y := by
  set a : Ctx := { c with inLh := true, hepc := c.pc, hcause := cause } with ha
  have bank (e : Ctx) (hf : e.frames = c.frames) (hl : e.inLh = true) (he : e.inEm = false) (r : XReg) (hr : banked r = true) :
      e.tag r = c.outer.2.1 + r.toNat := by
    rw [Ctx.tag, if_pos hr, Ctx.bank_light hl he, Ctx.outer_congr hf]
  simp only [List.mem_cons, List.not_mem_nil, or_false, not_or] at h
  obtain ⟨h5, h6, h7⟩ := h
  show (((a.setReg 5 cause).setReg 6 v).setReg 7 c.pc).regAt y = a.regAt y
  rw [Ctx.regAt_setReg_ne, Ctx.regAt_setReg_ne, Ctx.regAt_setReg_ne]
  · rw [bank _ (by simp [ha]) (by simp [ha]) (by simp [ha, em]) _ rfl]; exact h5
  · rw [bank _ (by simp [ha]) (by simp [ha]) (by simp [ha, em]) _ rfl]; exact h6
  · rw [bank _ (by simp [ha]) (by simp [ha]) (by simp [ha, em]) _ rfl]; exact h7

theorem Ctx.enterLight_fields (c : Ctx) (cause v : Word) :
    (c.enterLight cause v).inLh = true ∧ (c.enterLight cause v).hepc = c.pc ∧ (c.enterLight cause v).hcause = cause ∧
      (c.enterLight cause v).pc = c.hvec ∧ (c.enterLight cause v).trig = c.trig := by
  simp [Ctx.enterLight]

/-- A context as its light handler finds it: without the trigger, a suspended unit left for later (R181, R189). -/
def Ctx.interrupted (k : Ctx) (t : List (Word × Word × Nat)) : Ctx :=
  let bw := match k.st with
    | .bar b ph => some (k.pc, b, ph)
    | _ => k.bwait
  let k := if k.st = .fsync then { k with syncLeft := k.sync, sync := none } else k
  { k with trig := t, bwait := bw }

theorem Ctx.interrupted_keeps (k : Ctx) (t : List (Word × Word × Nat)) :
    (k.interrupted t).pc = k.pc ∧ (k.interrupted t).hvec = k.hvec ∧ (k.interrupted t).trig = t ∧ (k.interrupted t).x = k.x ∧
      (k.interrupted t).frames = k.frames ∧ (k.interrupted t).inEm = k.inEm := by
  refine ⟨?_, ?_, rfl, ?_, ?_, ?_⟩ <;> simp only [Ctx.interrupted] <;> split <;> rfl

theorem execLightHandlerEntry_enters {s : State} {n x u : Nat} {cause v : Word} {r : List (Word × Word × Nat)}
    (trig : (s.ctxAt n x).trig = (cause, v, u) :: r) (can : (s.ctxAt n x).canLight = true) (again : s.reissues n x = false) :
    exec (.lightHandlerEntry n x) s = .next ((s.onCore n fun k => { k with mbwait := k.mbwait.filter (·.2 != (k.ctx x).uid) }).onCtx n x fun k =>
      { (k.interrupted r).enterLight cause v with st := .run }) := by
  show execLightHandlerEntry n x s = _
  simp only [execLightHandlerEntry, trig, can, again]
  rfl

/-- Settles O34: a word that moves, one that a full queue keeps, a trigger that is taken. -/
theorem queueTransferAndLightEntry : Obligations.QueueTransferAndLightEntry := by
  intro s n p dir x w l peer hnp _
  refine ⟨fun out room => ?_, fun out full => execQueueWordTransfer_full peer out full, fun cause v u r trig can again => ?_⟩
  · obtain ⟨mem, sent, other⟩ := s.headLeaves_keeps n dir l
    set t := s.headLeaves n dir l with ht
    refine ⟨_, execQueueWordTransfer_moves peer out room, fun none => ?_, fun v others mine => ?_, ?_, ?_, ?_, fun a => congrArg (memGet · a) mem⟩
    · rw [State.core_onCore_ne _ _ hnp, State.headLeaves_outbound none]
    · have held := State.headLeaves_held (l := l) others mine
      rw [State.core_onCore_ne _ _ hnp, State.ctxAt_onCore_keep _ rfl]
      exact held
    · rw [State.core_onCore_same, ← ht, other p hnp.symm]
      exact tabGet_tabSet_same ..
    · rw [State.core_onCore_ne _ _ hnp]
      exact sent
    · rw [State.core_onCore_same, ← ht, other p hnp.symm]
  · obtain ⟨pc, hvec, trig', regs, frames, em⟩ := (s.ctxAt n x).interrupted_keeps r
    have noEm : (s.ctxAt n x).inEm = false := by
      simp only [Ctx.canLight, Bool.and_eq_true, Bool.not_eq_true'] at can
      tauto
    have field := ((s.ctxAt n x).interrupted r).enterLight_fields cause v
    have reg := ((s.ctxAt n x).interrupted r).enterLight_regs cause v
    refine ⟨_, execLightHandlerEntry_enters trig can again, ?_⟩
    rw [State.ctxAt_onCtx_same, State.ctxAt_onCore_keep _ rfl]
    rw [pc, hvec, trig'] at field
    rw [pc] at reg
    refine ⟨field.1, field.2.1, field.2.2.1, field.2.2.2.1, field.2.2.2.2, rfl, reg.1, reg.2.1, reg.2.2, fun y hy => ?_, fun a => rfl⟩
    refine (Ctx.enterLight_regAt (em.trans noEm) cause v ?_).trans (by rw [Ctx.regAt, regs, Ctx.regAt])
    rw [Ctx.outer_congr frames]
    exact hy

end Sys2Proof.Machine
end

section
/-! PROOF. Mailboxes (R51, R183, R184, R365): sends, receives, polls, deliveries, and a poisoned word's trap. -/

namespace Sys2Proof.Machine

open Sys2Proof

/-! ## What a written result can change, said once -/

/-- A result is discarded, pushed on a queue, held by the context, or written to its register (R49, R187). -/
theorem State.wr_cases (s : State) (d : XReg) (v : Word) :
    s.wr d v = s ∨ (∃ m, s.wr d v = s.onHere fun c => { c with outq := tabSet c.outq m (c.outbound m ++ [(false, v, 0)]) }) ∨
      (∃ m, s.wr d v = s.onCur fun c => { c with heldPush := c.heldPush ++ [(m, (false, v, 0))] }) ∨ s.wr d v = s.onCur (·.setReg d v) := by
  cases hm : s.cur.mapped d with
  | none => exact .inr (.inr (.inr (s.wr_unmapped v hm)))
  | some m =>
    cases hi : inbound d with
    | true => exact .inl (by simp [State.wr, hm, hi])
    | false =>
      rw [s.wr_mapped v hm hi]
      by_cases room : (s.here.outbound m).length < 8
      · exact .inr (.inl ⟨m, s.push_room _ room⟩)
      · exact .inr (.inr (.inl ⟨m, s.push_full _ (Nat.not_lt.1 room)⟩))

/-- A result leaves memory, the unit's place and count, and its core's mailbox alone. -/
theorem State.wr_keeps (s : State) (d : XReg) (v : Word) :
    (s.wr d v).mem = s.mem ∧ (s.wr d v).cur.frame = s.cur.frame ∧ (s.wr d v).cur.instret = s.cur.instret ∧
      (s.wr d v).here.mbox = s.here.mbox := by
  obtain h | ⟨m, h⟩ | ⟨m, h⟩ | h := s.wr_cases d v <;> rw [h]
  · exact ⟨rfl, rfl, rfl, rfl⟩
  · rw [State.onHere_cur s _ rfl, State.here_onHere]
    exact ⟨rfl, rfl, rfl, rfl⟩
  · simp
  · simp

/-- A destination that maps no queue holds the result. -/
theorem State.wr_regAt (s : State) {d : XReg} (v : Word) (hm : s.cur.mapped d = none) (hd : d ≠ 0) :
    (s.wr d v).cur.regAt (s.cur.tag d) = v := by
  rw [s.wr_unmapped v hm, State.cur_onCur, Ctx.regAt_setReg_same _ v hd]

/-! ## Faults of a thread (R312) -/

theorem State.trap_fault (s : State) {cause : Nat} (v : Word) (h : cause ≠ 1 ∧ cause ≠ 2 ∧ cause ≠ 0x11) :
    s.trap cause v = s.threadFault s.iss.core s.iss.ctx cause v s.iss.upc := by
  simp [State.trap, h]

/-- What a team fault of a thread raises, for the end of the cycle. -/
def State.fault (s : State) (n x cause : Nat) (v upc : Word) : Raised :=
  { core := n, uid := (s.ctxAt n x).uid, who := (s.ctxAt n x).who n x, cause := cause, value := v, upc := upc }

/-- A team fault of a thread joins those of the cycle, and its context issues no more; nothing else changes. -/
theorem State.threadFault_raises (s : State) (n x cause : Nat) (v upc : Word) :
    (s.threadFault n x cause v upc).mem = s.mem ∧ (s.threadFault n x cause v upc).raised = s.raised ++ [s.fault n x cause v upc] ∧
      (s.threadFault n x cause v upc).ctxAt n x = { s.ctxAt n x with st := .ending } :=
  ⟨rfl, rfl, State.ctxAt_onCtx_same ..⟩

/-- A poisoned word reaches a thread: trap 0x0F with a value that is left open (R365; log 65). -/
def State.TakesPoison (s t : State) (c x : Nat) : Prop :=
  (t.ctxAt c x).st = .ending ∧ SameBytes s t ∧ ∃ q, t.raised = s.raised ++ [q] ∧ q.core = c ∧ q.uid = (s.ctxAt c x).uid ∧ q.cause = 0x0F

theorem State.faultFree_takesPoison {s u : State} {n x : Nat} (upc : Word) (mem : u.mem = s.mem) (raised : u.raised = s.raised)
    (ctx : u.ctxAt n x = s.ctxAt n x) : s.TakesPoison (u.faultFree n x 0x0F upc) n x := by
  obtain ⟨m, r, c⟩ := State.threadFault_raises { u with fresh := u.fresh + 1 } n x 0x0F (Config.freeWord u.fresh) upc
  refine ⟨by rw [State.faultFree, c], fun a => by rw [State.faultFree, m, mem], _, by rw [State.faultFree, r, raised], rfl, ?_, rfl⟩
  exact congrArg Ctx.uid ctx

theorem State.trapFree_takesPoison (s : State) : ∃ t : State, s.trapFree 0x0F = .next t ∧ s.TakesPoison t s.iss.core s.iss.ctx := by
  refine ⟨_, rfl, ?_⟩
  rw [State.trap_fault _ _ (by decide)]
  exact State.faultFree_takesPoison s.iss.upc rfl rfl rfl

/-! ## MBSEND (R183) -/

theorem targetCore_eq (v : Word) : targetCore v = v.toNat / 16 % 2 ^ 13 := rfl

/-- A unit that pops its sources, issues a request and retires. -/
theorem State.issueReq_retires (s : State) (l : List XReg) (cls : Nat) (h : Home) (key : Nat) (va : Word) (slot : Nat) (str : Bool) (acq : Nat)
    (op : ReqOp) :
    let t := ((s.pops l).issueReq cls h key va slot str acq op).retire
    Retired s t ∧ SameBytes s t ∧ SameRegs s t [] := by
  refine ⟨?_, fun a => ?_, sameRegs_retire fun r _ => ?_⟩
  · exact retired_retire (by rw [State.issueReq_iss, State.pops_iss]) (by rw [State.issueReq_cur, State.pops_cur])
      (by rw [State.issueReq_cur, State.pops_cur])
  · rw [State.retire, State.onCur_mem, State.issueReq_mem, (s.pops_world l).mem]
  · rw [State.issueReq_cur, State.pops_cur]

theorem execMbsend_sends {s : State} {a b : XReg} (ok : s.misuse [a, b] [] = false)
    (team : (s.rd a).toNat / 16 % 2 ^ 13 ∈ (s.teamOf s.iss.core).cores)
    (go : s.pending s.cur.uid 1 (widest (s.teamOf s.iss.core).cores) s.nextReq = false) :
    ∃ (t : State) (q : Req), exec (.mbsend a b) s = .next t ∧ t.reqs = s.reqs ++ [q] ∧ q.op = .mail (s.rd b) ∧
      q.home = .core ((s.rd a).toNat / 16 % 2 ^ 13) ∧ q.cls = 1 ∧ Retired s t ∧ SameBytes s t ∧ SameRegs s t [] := by
  have inside : (s.teamOf s.iss.core).cores.contains (targetCore (s.rd a)) = true := List.elem_eq_true_of_mem team
  set n := targetCore (s.rd a) with hn
  have run : exec (.mbsend a b) s = .next ((s.pops [a, b]).issueReq 1 (.core n) (winKey n 4 0) 0 0 false 0 (.mail (s.rd b))).retire := by
    show execMbsend a b s = _
    simp only [execMbsend, ok, ← hn, inside, State.afterAll, go]
    rfl
  refine ⟨_, (s.pops [a, b]).nextOf 1 (.core n) (winKey n 4 0) 0 0 false 0 (.mail (s.rd b)), run, ?_, rfl, rfl, rfl,
    s.issueReq_retires [a, b] ..⟩
  rw [State.retire, State.onCur_reqs, State.issueReq, State.addReq_reqs, (s.pops_world [a, b]).reqs]

theorem execMbsend_waits {s : State} {a b : XReg} (ok : s.misuse [a, b] [] = false)
    (team : (s.rd a).toNat / 16 % 2 ^ 13 ∈ (s.teamOf s.iss.core).cores)
    (wait : s.pending s.cur.uid 1 (widest (s.teamOf s.iss.core).cores) s.nextReq = true) : exec (.mbsend a b) s = .next s := by
  have inside : (s.teamOf s.iss.core).cores.contains (targetCore (s.rd a)) = true := List.elem_eq_true_of_mem team
  show execMbsend a b s = _
  simp only [execMbsend, ok, inside, State.afterAll, wait]
  rfl

theorem execMbsend_outside {s : State} {a b : XReg} (ok : s.misuse [a, b] [] = false)
    (out : (s.rd a).toNat / 16 % 2 ^ 13 ∉ (s.teamOf s.iss.core).cores) : exec (.mbsend a b) s = .next (s.trap 4 (s.rd a)) := by
  have outside : (s.teamOf s.iss.core).cores.contains (targetCore (s.rd a)) = false := by simpa [targetCore_eq] using out
  show execMbsend a b s = _
  simp only [execMbsend, ok, outside]
  rfl

/-! ## A word at its home (R51) -/

/-- A request whose turn has come, which meets no owned unit and is not refused, is performed. -/
theorem execHomePerform_performs {s : State} {q : Req} {j : Nat} (here : s.req q.id = some q) (come : q.st = 1 ∨ q.st = 3)
    (front : s.behind q = false) (turn : s.turnOf q = true) (whole : s.begin q = q) (free : (s.onReq q.id fun _ => q).meetsOwned q j = false)
    (admitted : s.refused q = false) :
    exec (.homePerform q.home q.id j) s = .next (((s.onReq q.id fun _ => q).performAt q j).taint q j) := by
  have admitted' : (s.onReq q.id fun _ => q).refused q = false := admitted
  show execHomePerform q.home q.id j s = _
  simp [execHomePerform, here, come, front, turn, whole, free, admitted']

theorem State.dropReq_req (s : State) (id : Nat) : (s.dropReq id).req id = none := by
  simp [State.req, State.dropReq, List.find?_eq_none]

/-- Mail that is performed joins the box of its core. -/
theorem homePerform_mail {s : State} {q : Req} {n : Nat} {v : Word} (here : s.req q.id = some q) (home : q.home = .core n) (come : q.st = 1 ∨ q.st = 3)
    (front : s.behind q = false) (turn : s.turnOf q = true) (admitted : s.refused q = false) (op : q.op = .mail v) :
    ∃ t : State, exec (.homePerform (.core n) q.id 0) s = .next t ∧ (t.core n).mbox = (s.core n).mbox ++ [(v, q.bad)] ∧
      t.req q.id = none ∧ SameBytes s t := by
  have run := execHomePerform_performs (j := 0) here come front turn (by simp [State.begin, op])
    (by simp [State.meetsOwned, op, State.spots]) admitted
  have words : q.written 0 = [] := by simp [Req.written, op]
  have clean (u : State) : u.taint q 0 = u := by simp [State.taint, words]
  rw [home, clean] at run
  refine ⟨_, run, ?_, ?_, fun a => ?_⟩ <;> simp only [State.performAt, op, home]
  · exact congrArg Core.mbox (State.core_onCore_same (s.onReq q.id fun _ => q) n fun c => { c with mbox := c.mbox ++ [(v, q.bad)] })
  · exact State.dropReq_req ..
  · rfl

/-! ## MBRECV (R184) -/

theorem State.acquire_keeps (s : State) (n scope : Nat) :
    (s.acquire n scope).mem = s.mem ∧ (s.acquire n scope).iss = s.iss ∧ (∀ m x, (s.acquire n scope).ctxAt m x = s.ctxAt m x) ∧
      ((s.acquire n scope).core n).mbox = (s.core n).mbox ∧ ((s.acquire n scope).core n).mbwait = (s.core n).mbwait := by
  unfold State.acquire
  split
  · exact ⟨rfl, rfl, fun _ _ => rfl, rfl, rfl⟩
  · refine ⟨rfl, rfl, State.ctxAt_onCore_keep s rfl, ?_, ?_⟩ <;> rw [State.core_onCore_same] <;> rfl

/-- A unit that has kept its context so far writes one result and retires. -/
theorem retires_with_result {s u : State} (mem : u.mem = s.mem) (iss : u.iss = s.iss) (cur : u.cur = s.cur) (d : XReg) (w : Word) :
    ((u.wr d w).retire.here.mbox = u.here.mbox) ∧
      (s.cur.mapped d = none → d ≠ 0 → (u.wr d w).retire.cur.regAt (s.cur.tag d) = w) ∧
      Retired s (u.wr d w).retire ∧ SameBytes s (u.wr d w).retire ∧ SameRegs s (u.wr d w).retire [s.cur.tag d] := by
  obtain ⟨m, f, i, b⟩ := u.wr_keeps d w
  refine ⟨?_, fun hm hd => ?_, ?_, fun a => ?_, sameRegs_retire fun r hr => ?_⟩
  · rw [State.retire, State.here_onCur_mbox, b]
  · rw [State.retire_cur, Ctx.retire_regAt, ← cur]
    exact u.wr_regAt w (by rw [cur]; exact hm) hd
  · exact retired_retire ((State.wr_iss ..).trans iss) (by rw [f, cur]) (by rw [i, cur])
  · rw [State.retire, State.onCur_mem, m, mem]
  · rw [← cur] at hr ⊢
    exact (unitFrame_wr id u d w).2.2.2.2.1 r hr

theorem execMbrecv_takes {s : State} {d : XReg} {w : Word} {l : List (Word × Bool)} (ok : s.misuse [] [d] = false) (alone : s.here.mbwait = [])
    (box : s.here.mbox = (w, false) :: l) :
    ∃ t : State, exec (.mbrecv d) s = .next t ∧ t.here.mbox = l ∧ (s.cur.mapped d = none → d ≠ 0 → t.cur.regAt (s.cur.tag d) = w) ∧
      Retired s t ∧ SameBytes s t ∧ SameRegs s t [s.cur.tag d] := by
  set p := s.onHere fun c => { c with mbox := l } with hp
  set u := p.acquire s.iss.core (widest (p.teamOf s.iss.core).cores) with hu
  have run : exec (.mbrecv d) s = .next (u.wr d w).retire := by
    show execMbrecv d s = _
    simp only [execMbrecv, ok, alone, box]
    rfl
  obtain ⟨mem, iss, ctx, mbox, -⟩ := p.acquire_keeps s.iss.core (widest (p.teamOf s.iss.core).cores)
  have cur : u.cur = s.cur := by
    rw [State.cur, iss, ctx, hp]
    exact State.onHere_cur s _ rfl
  have facts := retires_with_result (s := s) (u := u) mem iss cur d w
  refine ⟨_, run, facts.1.trans ?_, facts.2⟩
  rw [State.here, iss]
  refine mbox.trans ?_
  rw [hp, State.onHere, State.core_onCore_same]

/-- What a waiting MBRECV leaves of its context. -/
def Ctx.waitsMail (c : Ctx) (t : Nat) (npc : Word) : Ctx :=
  { (if t = 0 ∨ 48 ≤ t then c else c.markEmpty t) with st := .mbrecv, wnpc := npc, wdst := t }

theorem Ctx.waitsMail_keeps (c : Ctx) (t : Nat) (npc : Word) :
    (c.waitsMail t npc).st = .mbrecv ∧ (c.waitsMail t npc).pc = c.pc ∧ (c.waitsMail t npc).instret = c.instret ∧ (c.waitsMail t npc).x = c.x := by
  refine ⟨rfl, ?_, ?_, ?_⟩ <;> simp only [Ctx.waitsMail] <;> split <;> rfl

theorem Ctx.waitsMail_empties (c : Ctx) {t : Nat} (h : 0 < t) (l : t < 48) (npc : Word) : (c.waitsMail t npc).fe.getLsbD t = false := by
  simp only [Ctx.waitsMail]
  rw [if_neg (by omega)]
  exact Ctx.markEmpty_empty c t

theorem execMbrecv_waits {s : State} {d : XReg} (ok : s.misuse [] [d] = false) (late : s.here.mbwait ≠ [] ∨ s.here.mbox = []) :
    ∃ t : State, exec (.mbrecv d) s = .next t ∧ t.cur.st = .mbrecv ∧ t.here.mbwait = s.here.mbwait ++ [(s.iss.ctx, s.cur.uid)] ∧
      t.cur.pc = s.cur.pc ∧ t.cur.instret = s.cur.instret ∧
      (s.cur.mapped d = none → d ≠ 0 → t.cur.fe.getLsbD (s.cur.tag d) = false) ∧ SameBytes s t ∧ SameRegs s t [] := by
  set p := s.onHere fun c => { c with mbwait := c.mbwait ++ [(s.iss.ctx, s.cur.uid)] } with hp
  have run : exec (.mbrecv d) s = .next (p.onCur (·.waitsMail (s.cur.dest d) s.iss.npc)) := by
    show execMbrecv d s = _
    simp only [execMbrecv, ok]
    cases hw : s.here.mbwait with
    | cons y ys => rfl
    | nil =>
      have hb : s.here.mbox = [] := late.resolve_left (by simp [hw])
      rw [hb]
      rfl
  have cur : p.cur = s.cur := State.onHere_cur s _ rfl
  obtain ⟨st, pc, ret, x⟩ := s.cur.waitsMail_keeps (s.cur.dest d) s.iss.npc
  refine ⟨_, run, ?_⟩
  rw [State.cur_onCur, cur]
  refine ⟨st, ?_, pc, ret, fun hm hd => ?_, fun _ => rfl, fun r _ => ?_⟩
  · rw [State.here_onCur_mbwait, hp, State.here_onHere]
  · rw [Ctx.dest_unmapped _ hd hm]
    exact Ctx.waitsMail_empties _ (s.cur.tag_pos hd) (s.cur.tag_lt d) _
  · rw [State.cur_onCur, cur, Ctx.regAt, x, Ctx.regAt]

/-! ## MBPOLL (R184) -/

theorem Ctx.guard_setGuard (c : Ctx) (g : GReg) (b : Bool) (h : g ≠ 0) : (c.setGuard g b).guard g = b := by
  have l := g.isLt
  rw [Ctx.guard, if_neg h, Ctx.setGuard, if_neg h]
  cases b <;> simp [show g.toNat < 8 by omega]

/-- A result, a guard, and the unit retires. -/
theorem retires_with_guard {s u : State} (mem : u.mem = s.mem) (iss : u.iss = s.iss) (cur : u.cur = s.cur) (d : XReg) (w : Word) (g : GReg) (b : Bool) :
    let t := ((u.wr d w).onCur (·.setGuard g b)).retire
    (g ≠ 0 → t.cur.guard g = b) ∧ (s.cur.mapped d = none → d ≠ 0 → t.cur.regAt (s.cur.tag d) = w) ∧ t.here.mbox = u.here.mbox ∧
      Retired s t ∧ SameBytes s t := by
  obtain ⟨m, f, i, bx⟩ := u.wr_keeps d w
  refine ⟨fun h => ?_, fun hm hd => ?_, ?_, ?_, fun a => ?_⟩
  · rw [State.retire_cur, State.cur_onCur, Ctx.guard, Ctx.retire_g]
    exact Ctx.guard_setGuard (u.wr d w).cur g b h
  · rw [State.retire_cur, Ctx.retire_regAt, State.cur_onCur, Ctx.regAt, Ctx.setGuard_x, ← cur]
    exact u.wr_regAt w (by rw [cur]; exact hm) hd
  · rw [State.retire, State.here_onCur_mbox, State.here_onCur_mbox, bx]
  · refine retired_retire ?_ ?_ ?_
    · rw [State.onCur_iss, State.wr_iss, iss]
    · rw [State.cur_onCur, Ctx.setGuard_frame, f, cur]
    · rw [State.cur_onCur, Ctx.setGuard_instret, i, cur]
  · rw [State.retire, State.onCur_mem, State.onCur_mem, m, mem]

theorem execMbpoll_nothing {s : State} {d : XReg} (g : GReg) (ok : s.misuse [] [d] = false) (none : s.here.mailOpen = []) :
    exec (.mbpoll d g) s = .next ((s.wr d 0).onCur (·.setGuard g false)).retire := by
  show execMbpoll d g s = _
  simp only [execMbpoll, ok, none]
  rfl

theorem execMbpoll_takes {s : State} {d : XReg} {w : Word} {l : List (Word × Bool)} (g : GReg) (ok : s.misuse [] [d] = false)
    (opened : s.here.mailOpen = (w, false) :: l) :
    exec (.mbpoll d g) s = .next (((s.onHere Core.mailTake).wr d w).onCur (·.setGuard g true)).retire := by
  show execMbpoll d g s = _
  simp only [execMbpoll, ok, opened]
  rfl

/-- One word leaves a box that holds one to take. -/
theorem Core.mailTake_length {c : Core} {q : Word × Bool} {l : List (Word × Bool)} (h : c.mailOpen = q :: l) :
    c.mailTake.mbox.length + 1 = c.mbox.length := by
  have le : c.mailOpen.length ≤ c.mbox.length := by
    rw [Core.mailOpen, List.length_drop]
    exact Nat.sub_le ..
  rw [h, List.length_cons] at le
  rw [Core.mailTake, h, List.length_cons, List.length_eraseIdx_of_lt (by omega)]
  omega

/-- Words for waiters and the handler are not open to others. -/
theorem Core.mailOpen_waited {c : Core} (h : c.mbox.length ≤ c.mbwait.length) : c.mailOpen = [] :=
  List.drop_eq_nil_of_le (h.trans (Nat.le_add_right ..))
theorem Core.mailOpen_free {c : Core} (w : c.mbwait = []) (n : c.mailHolder = none) : c.mailOpen = c.mbox := by
  simp [Core.mailOpen, w, n]

/-! ## MAILBOX_DELIVERY (R184) -/

/-- A word that fills the register of a waiting unit, which retires. -/
theorem State.landWaiting_register {s : State} {n x : Nat} (w : Word) (h : 0 < (s.ctxAt n x).wdst) (l : (s.ctxAt n x).wdst < 48) :
    let t := s.landWaiting n x w
    (∀ m, (t.core m).mbox = (s.core m).mbox ∧ (t.core m).mbwait = (s.core m).mbwait) ∧ (t.ctxAt n x).st = .run ∧
      (t.ctxAt n x).regAt (s.ctxAt n x).wdst = w ∧ (t.ctxAt n x).fe.getLsbD (s.ctxAt n x).wdst = true ∧
      (t.ctxAt n x).instret = (s.ctxAt n x).instret + 1 ∧ t.mem = s.mem := by
  have lands : s.landWaiting n x w =
      (s.onCtx n x fun c => (c.setRegAt c.wdst w).markFull c.wdst).onCtx n x fun c => { c.retire c.wnpc with st := .run } := by
    simp only [State.landWaiting, if_neg (Nat.not_le.2 l), if_neg h.ne']
  rw [State.onCtx_onCtx] at lands
  set c := s.ctxAt n x with hc
  have core (m : Nat) (f : Ctx → Ctx) : ((s.onCtx n x f).core m).mbox = (s.core m).mbox ∧ ((s.onCtx n x f).core m).mbwait = (s.core m).mbwait := by
    by_cases e : m = n
    · subst e
      rw [State.core_onCtx_same]
      exact ⟨rfl, rfl⟩
    · rw [State.core_onCtx_ne _ _ e]
      exact ⟨rfl, rfl⟩
  refine ⟨fun m => ?_, ?_⟩
  · rw [lands]
    exact core m _
  · rw [lands, State.ctxAt_onCtx_same, ← hc]
    refine ⟨rfl, ?_, ?_, rfl, rfl⟩
    · exact (Ctx.retire_regAt ..).trans (Ctx.regAt_setRegAt_same c l w)
    · exact (congrArg (·.getLsbD c.wdst) (Ctx.retire_fe ..)).trans (Ctx.markFull_full _ l)

/-- A box whose oldest word has left for its earliest waiter. -/
def State.mailLeaves (s : State) (n : Nat) (l : List (Word × Bool)) (r : List (Nat × Nat)) : State :=
  (s.onCore n fun k => { k with mbox := l }).onCore n fun k => { k with mbwait := r }

theorem State.mailLeaves_ctxAt (s : State) (n : Nat) (l : List (Word × Bool)) (r : List (Nat × Nat)) (m x : Nat) :
    (s.mailLeaves n l r).ctxAt m x = s.ctxAt m x := by
  rw [State.mailLeaves, State.ctxAt_onCore_keep _ rfl, State.ctxAt_onCore_keep _ rfl]

theorem mailboxDelivery_waiter {s : State} {n x u : Nat} {w : Word} {l : List (Word × Bool)} {r : List (Nat × Nat)}
    (box : (s.core n).mbox = (w, false) :: l) (wait : (s.core n).mbwait = (x, u) :: r) (h : 0 < (s.ctxAt n x).wdst) (lt : (s.ctxAt n x).wdst < 48) :
    ∃ t : State, exec (.mailboxDelivery n) s = .next t ∧ (t.core n).mbox = l ∧ (t.core n).mbwait = r ∧ (t.ctxAt n x).st = .run ∧
      (t.ctxAt n x).regAt (s.ctxAt n x).wdst = w ∧ (t.ctxAt n x).fe.getLsbD (s.ctxAt n x).wdst = true ∧
      (t.ctxAt n x).instret = (s.ctxAt n x).instret + 1 ∧ SameBytes s t := by
  set p := s.mailLeaves n l r with hp
  set v := p.acquire n (widest (p.teamOf n).cores) with hv
  have run : exec (.mailboxDelivery n) s = .next (v.landWaiting n x w) := by
    show execMailboxDelivery n s = _
    simp only [execMailboxDelivery, box, wait]
    rfl
  obtain ⟨mem, -, ctx, mbox, mbwait⟩ := p.acquire_keeps n (widest (p.teamOf n).cores)
  have hc : v.ctxAt n x = s.ctxAt n x := (ctx n x).trans (s.mailLeaves_ctxAt n l r n x)
  have lands := State.landWaiting_register (s := v) w (by rw [hc]; exact h) (by rw [hc]; exact lt)
  rw [hc] at lands
  obtain ⟨boxes, st, reg, fe, ret, m⟩ := lands
  refine ⟨_, run, ?_, ?_, st, reg, fe, ret, fun a => by rw [m, mem]; rfl⟩
  · rw [(boxes n).1, mbox, hp, State.mailLeaves, State.core_onCore_same, State.core_onCore_same]
  · rw [(boxes n).2, mbwait, hp, State.mailLeaves, State.core_onCore_same]

theorem mailboxDelivery_poison {s : State} {n x u : Nat} {w : Word} {l : List (Word × Bool)} {r : List (Nat × Nat)}
    (box : (s.core n).mbox = (w, true) :: l) (wait : (s.core n).mbwait = (x, u) :: r) :
    ∃ t : State, exec (.mailboxDelivery n) s = .next t ∧ s.TakesPoison t n x := by
  set p := s.mailLeaves n l r with hp
  have run : exec (.mailboxDelivery n) s = .next (p.faultFree n x 0x0F (p.ctxAt n x).pc) := by
    show execMailboxDelivery n s = _
    simp only [execMailboxDelivery, box, wait]
    rfl
  exact ⟨_, run, State.faultFree_takesPoison _ rfl rfl (s.mailLeaves_ctxAt n l r n x)⟩

theorem mailboxDelivery_trigger {s : State} {n x : Nat} {w : Word} {l : List (Word × Bool)} (box : (s.core n).mbox = (w, false) :: l)
    (wait : (s.core n).mbwait = []) (holder : (s.core n).mailHolder = some x) (live : (s.teamOf n).ending = false) :
    ∃ t : State, exec (.mailboxDelivery n) s = .next t ∧ (t.core n).mbox = l ∧
      (t.ctxAt n x).trig = (s.ctxAt n x).trig ++ [(3, w, (s.ctxAt n x).uid)] ∧ SameBytes s t := by
  have run : exec (.mailboxDelivery n) s = .next ((s.onCore n fun k => { k with mbox := l }).onCtx n x fun k =>
      { k with trig := k.trig ++ [(3, w, k.uid)] }) := by
    show execMailboxDelivery n s = _
    simp only [execMailboxDelivery, box, wait, holder, live]
    rfl
  refine ⟨_, run, ?_, ?_, fun _ => rfl⟩
  · rw [State.core_onCtx_same, State.core_onCore_same]
    rfl
  · rw [State.ctxAt_onCtx_same, State.ctxAt_onCore_keep s rfl]

/-- Settles O35: sends, words that come home, receives, polls and deliveries, each by its own lemma. -/
theorem mailboxResult : Obligations.MailboxResult := by
  intro s a b d g n x u w l r tgt
  refine ⟨fun ok team => ⟨execMbsend_waits ok team, execMbsend_sends ok team⟩, execMbsend_outside, fun q v => homePerform_mail,
    execMbrecv_takes, execMbrecv_waits, fun ok none => ?_, fun ok opened => ?_, Core.mailOpen_waited, Core.mailOpen_free, mailboxDelivery_waiter,
    mailboxDelivery_trigger, fun ok alone box => ?_, fun ok opened => ?_, mailboxDelivery_poison⟩
  · exact ⟨_, execMbpoll_nothing g ok none, retires_with_guard rfl rfl rfl d 0 g false⟩
  · obtain ⟨guard, reg, box, ret, mem⟩ := retires_with_guard (s := s) (u := s.onHere Core.mailTake) rfl rfl (State.onHere_cur s _ rfl) d w g true
    refine ⟨_, execMbpoll_takes g ok opened, ?_, ?_, reg, ret, mem⟩
    · by_cases h : g = 0
      · simp [Ctx.guard, h]
      · exact guard h
    · rw [box, State.here_onHere]
      exact Core.mailTake_length opened
  · obtain ⟨t, run, taken⟩ := s.trapFree_takesPoison
    refine ⟨t, ?_, taken⟩
    show execMbrecv d s = _
    simp only [execMbrecv, ok, alone, box]
    exact run
  · obtain ⟨t, run, taken⟩ := s.trapFree_takesPoison
    refine ⟨t, ?_, taken⟩
    show execMbpoll d g s = _
    simp only [execMbpoll, ok, opened]
    exact run

end Sys2Proof.Machine
end

section
/-! PROOF. Barriers: what the five instructions send, and what the end of a cycle makes of it (R46, R181, R182). -/

namespace Sys2Proof.Machine

open Sys2Proof

/-! ## What a state holds of its barriers -/

/-- Every barrier is as it was, and every core is of its team. -/
def State.SameBars (s t : State) : Prop := t.teams = s.teams ∧ ∀ m, (t.core m).bars = (s.core m).bars ∧ (t.core m).team = (s.core m).team

theorem State.SameBars.refl (s : State) : s.SameBars s := ⟨rfl, fun _ => ⟨rfl, rfl⟩⟩
theorem State.SameBars.trans {s t u : State} (h : s.SameBars t) (k : t.SameBars u) : s.SameBars u :=
  ⟨k.1.trans h.1, fun m => ⟨(k.2 m).1.trans (h.2 m).1, (k.2 m).2.trans (h.2 m).2⟩⟩

theorem State.SameBars.onCore (s : State) (n : Nat) {f : Core → Core} (hb : (f (s.core n)).bars = (s.core n).bars)
    (ht : (f (s.core n)).team = (s.core n).team) : s.SameBars (s.onCore n f) := by
  refine ⟨rfl, fun m => ?_⟩
  by_cases e : m = n
  · rw [e, State.core_onCore_same]
    exact ⟨hb, ht⟩
  · rw [State.core_onCore_ne s f e]
    exact ⟨rfl, rfl⟩

theorem State.SameBars.foldl {β : Type} {f : State → β → State} (step : ∀ (s : State) (b : β), s.SameBars (f s b)) (l : List β) (s : State) :
    s.SameBars (l.foldl f s) := by
  induction l generalizing s with
  | nil => exact .refl s
  | cons b l ih => exact (step s b).trans (ih _)

theorem State.SameBars.teamOf {s t : State} (h : s.SameBars t) (n : Nat) : t.teamOf n = s.teamOf n := by
  simp only [State.teamOf, State.team, (h.2 n).2, h.1]
theorem State.SameBars.bar {s t : State} (h : s.SameBars t) (n key : Nat) : t.bar n key = s.bar n key := by
  simp only [State.bar, h.teamOf, (h.2 _).1]

theorem State.SameBars.acquireFor (s : State) (uid : Nat) : s.SameBars (s.acquireFor uid) := by
  unfold State.acquireFor
  split
  · exact .onCore s _ rfl rfl
  · exact .refl s

theorem State.acquireFor_ctxAt (s : State) (uid n x : Nat) : (s.acquireFor uid).ctxAt n x = s.ctxAt n x := by
  unfold State.acquireFor
  split
  · exact State.ctxAt_onCore_keep _ rfl n x
  · rfl
theorem State.acquireFor_foldl_ctxAt (s : State) (l : List Nat) (n x : Nat) : (l.foldl State.acquireFor s).ctxAt n x = s.ctxAt n x := by
  induction l generalizing s with
  | nil => rfl
  | cons u l ih => exact (ih _).trans (s.acquireFor_ctxAt u n x)

/-! ## A barrier that changes -/

/-- The barrier a key names from core n has a place: a team barrier needs a team. -/
def State.barPlaced (s : State) (n key : Nat) : Prop := key < 64 → (s.core n).team ≠ none

theorem State.setBar_team (s : State) (n key : Nat) (b : Barrier) (m : Nat) : ((s.setBar n key b).core m).team = (s.core m).team := by
  unfold State.setBar
  split
  · split <;> rfl
  · by_cases e : m = key / 64 - 1
    · rw [e, State.core_onCore_same]
    · rw [State.core_onCore_ne _ _ e]

theorem State.barPlaced.setBar {s : State} {n key : Nat} (h : s.barPlaced n key) (b : Barrier) : (s.setBar n key b).barPlaced n key := by
  rw [State.barPlaced, State.setBar_team]
  exact h
theorem State.barPlaced.sameBars {s t : State} {n key : Nat} (h : s.barPlaced n key) (k : s.SameBars t) : t.barPlaced n key := by
  rw [State.barPlaced, (k.2 n).2]
  exact h

theorem State.bar_setBar {s : State} {n key : Nat} (h : s.barPlaced n key) (b : Barrier) : (s.setBar n key b).bar n key = b := by
  by_cases l : key < 64
  · obtain ⟨t, ht⟩ := Option.ne_none_iff_exists'.1 (h l)
    have e : (s.setBar n key b).teamOf n = { s.team t with bars := tabSet (s.team t).bars key b } := by
      rw [State.teamOf, State.setBar_team, ht]
      simp only [State.setBar, if_pos l, ht]
      exact tabGet_tabSet_same ..
    rw [State.bar, if_pos l, e]
    exact tabGet_tabSet_same ..
  · rw [State.bar, if_neg l, State.setBar, if_neg l, State.core_onCore_same]
    exact tabGet_tabSet_same ..

theorem State.setBar_ctxAt (s : State) (n key : Nat) (b : Barrier) (m x : Nat) : (s.setBar n key b).ctxAt m x = s.ctxAt m x := by
  unfold State.setBar
  split
  · split <;> rfl
  · exact State.ctxAt_onCore_keep _ rfl m x

/-! ## The end of a phase (R46) -/

/-- The contexts of a core that wait for a phase go on. -/
def Core.barWake (key ph : Nat) (k : Core) : Core := { k with ctxs := k.ctxs.map fun x => (x.1, x.2.barWake key ph) }

theorem tabGet_map {β : Type} (d : β) (f : β → β) (h : f d = d) (t : Tab β) (n : Nat) : tabGet d (t.map fun x => (x.1, f x.2)) n = f (tabGet d t n) := by
  induction t with
  | nil => exact h.symm
  | cons q t ih =>
    obtain ⟨k, v⟩ := q
    simp only [List.map_cons, tabGet]
    split
    · rfl
    · exact ih

theorem Core.barWake_ctx (key ph : Nat) (k : Core) (x : Nat) : (k.barWake key ph).ctx x = (k.ctx x).barWake key ph :=
  tabGet_map Ctx.empty (·.barWake key ph) rfl k.ctxs x

theorem Ctx.barWake_bar {c : Ctx} {key ph : Nat} (h : c.st = .bar key ph) : c.barWake key ph = { c.retire c.wnpc with st := .run } := if_pos h

/-- The cores of a team wake their contexts; core n comes once, first. -/
theorem State.barWake_ctxAt (s : State) (n key ph x : Nat) (l : List Nat) :
    ((n :: l.filter (· ≠ n)).foldl (fun s c => s.onCore c (Core.barWake key ph)) s).ctxAt n x = (s.ctxAt n x).barWake key ph := by
  have others : ∀ (l : List Nat) (t : State), (∀ c ∈ l, c ≠ n) → (l.foldl (fun s c => s.onCore c (Core.barWake key ph)) t).core n = t.core n := by
    intro l
    induction l with
    | nil => exact fun _ _ => rfl
    | cons c l ih =>
      intro t h
      rw [List.foldl_cons, ih _ fun d hd => h d (List.mem_cons_of_mem _ hd), State.core_onCore_ne _ _ (h c List.mem_cons_self).symm]
  rw [List.foldl_cons, State.ctxAt, others _ _ (fun c hc => by simpa using (List.mem_filter.1 hc).2), State.core_onCore_same]
  exact Core.barWake_ctx ..

theorem State.barTest_open {s : State} {n key : Nat} (h : (s.bar n key).arrived.length < (s.bar n key).members.length) : s.barTest n key = s := by
  rw [State.barTest, if_pos (by simp [h])]

theorem State.barTest_ends {s : State} {n key : Nat} (placed : s.barPlaced n key) (some : (s.bar n key).arrived ≠ [])
    (all : (s.bar n key).members.length ≤ (s.bar n key).arrived.length) :
    (s.barTest n key).bar n key = { s.bar n key with arrived := [], phase := (s.bar n key).phase + 1 } ∧ (s.barTest n key).barPlaced n key ∧
      ∀ x, (s.barTest n key).ctxAt n x = (s.ctxAt n x).barWake key (s.bar n key).phase := by
  set b := s.bar n key with hb
  set a := if s.barScope n key = 0 then s else b.arrived.foldl State.acquireFor s with ha
  set u := a.setBar n key { b with arrived := [], phase := b.phase + 1 } with hu
  have run : s.barTest n key = (n :: (u.teamOf n).cores.filter (· ≠ n)).foldl (fun s c => s.onCore c (Core.barWake key b.phase)) u :=
    if_neg (by simpa using ⟨some, all⟩)
  have sa : s.SameBars a := by
    rw [ha]
    split
    · exact .refl s
    · exact .foldl State.SameBars.acquireFor _ s
  have ca x : a.ctxAt n x = s.ctxAt n x := by
    rw [ha]
    split
    · rfl
    · exact State.acquireFor_foldl_ctxAt ..
  have su : u.SameBars (s.barTest n key) := run ▸ .foldl (fun s c => .onCore s c rfl rfl) _ u
  have pa : a.barPlaced n key := placed.sameBars sa
  refine ⟨(su.bar n key).trans (State.bar_setBar pa _), (pa.setBar _).sameBars su, fun x => ?_⟩
  rw [run, State.barWake_ctxAt, hu, State.setBar_ctxAt, ca]

/-! ## What a barrier takes (R182) -/

theorem State.barTake_arrives {s : State} {q : BarItem} (what : q.what = .arrive) (member : q.uid ∈ (s.bar q.core q.key).members)
    (new : q.uid ∉ (s.bar q.core q.key).arrived) :
    s.barTake q = s.setBar q.core q.key { s.bar q.core q.key with arrived := (s.bar q.core q.key).arrived ++ [q.uid] } := by
  simp [State.barTake, what, member, new]

theorem State.barTake_joins {s : State} {q : BarItem} (what : q.what = .join) (new : q.uid ∉ (s.bar q.core q.key).members) :
    s.barTake q = s.setBar q.core q.key { s.bar q.core q.key with members := (s.bar q.core q.key).members ++ [q.uid] } := by
  simp [State.barTake, what, new]

/-- The state as the barriers take the events of the cycle. -/
def State.barTaken (s : State) : State := { s with barq := [] }

theorem State.barEnd_one {s : State} {q : BarItem} (h : s.barq = [q]) (what : q.what = .arrive) :
    s.barEnd = (s.barTaken.barTake q).barTest q.core q.key := by
  have e : (BarEvent.arrive == BarEvent.leave) = false := rfl
  have e' : (BarEvent.arrive == BarEvent.join) = false := rfl
  simp [State.barEnd, h, what, e, e', State.barTaken, bne]

theorem State.barEnd_two {s : State} {q j : BarItem} (h : s.barq = [j, q]) (core : j.core = q.core) (what : q.what = .arrive) (joins : j.what = .join) :
    s.barEnd = ((s.barTaken.barTake q).barTest q.core q.key).barTake j := by
  have e : (BarEvent.arrive == BarEvent.leave) = false := rfl
  have e' : (BarEvent.arrive == BarEvent.join) = false := rfl
  have e'' : (BarEvent.join == BarEvent.leave) = false := rfl
  have e''' : (BarEvent.join == BarEvent.arrive) = false := rfl
  simp [State.barEnd, h, what, joins, core, e, e', e'', e''', State.barTaken, bne]

/-- The arrival of a member that has not arrived is counted. -/
theorem State.barTaken_arrives {s : State} {q : BarItem} (placed : s.barPlaced q.core q.key) (what : q.what = .arrive)
    (member : q.uid ∈ (s.bar q.core q.key).members) (new : q.uid ∉ (s.bar q.core q.key).arrived) :
    let t := s.barTaken.barTake q
    t.bar q.core q.key = { s.bar q.core q.key with arrived := (s.bar q.core q.key).arrived ++ [q.uid] } ∧ t.barPlaced q.core q.key ∧
      ∀ x, t.ctxAt q.core x = s.ctxAt q.core x := by
  have p : s.barTaken.barPlaced q.core q.key := placed
  rw [State.barTake_arrives (s := s.barTaken) what member new]
  exact ⟨State.bar_setBar p _, p.setBar _, s.barTaken.setBar_ctxAt _ _ _ _⟩

/-- One that is not the last due leaves its phase open. -/
theorem State.barEnd_counts {s : State} {q : BarItem} (placed : s.barPlaced q.core q.key) (h : s.barq = [q]) (what : q.what = .arrive)
    (member : q.uid ∈ (s.bar q.core q.key).members) (new : q.uid ∉ (s.bar q.core q.key).arrived)
    (due : (s.bar q.core q.key).arrived.length + 1 < (s.bar q.core q.key).members.length) :
    s.barEnd.bar q.core q.key = { s.bar q.core q.key with arrived := (s.bar q.core q.key).arrived ++ [q.uid] } := by
  obtain ⟨e, -, -⟩ := State.barTaken_arrives placed what member new
  rw [State.barEnd_one h what, State.barTest_open, e]
  rw [e]
  simpa using due

/-- The last one due ends the phase. -/
theorem State.barTaken_ends {s : State} {q : BarItem} (placed : s.barPlaced q.core q.key) (what : q.what = .arrive)
    (member : q.uid ∈ (s.bar q.core q.key).members) (new : q.uid ∉ (s.bar q.core q.key).arrived)
    (last : (s.bar q.core q.key).members.length ≤ (s.bar q.core q.key).arrived.length + 1) :
    let t := (s.barTaken.barTake q).barTest q.core q.key
    t.bar q.core q.key = { s.bar q.core q.key with arrived := [], phase := (s.bar q.core q.key).phase + 1 } ∧ t.barPlaced q.core q.key ∧
      ∀ x, t.ctxAt q.core x = (s.ctxAt q.core x).barWake q.key (s.bar q.core q.key).phase := by
  obtain ⟨e, placed', same⟩ := State.barTaken_arrives placed what member new
  obtain ⟨ended, placed'', woken⟩ := State.barTest_ends placed' (by rw [e]; simp) (by rw [e]; simpa using last)
  rw [e] at ended woken
  exact ⟨ended, placed'', fun x => by rw [woken x, same]⟩

/-! ## The instructions (R181) -/

theorem State.barrier_valid (s : State) {n : BitVec 10} (h : n.toNat < 48) (k : Nat → Out) :
    s.barrier n k = k (s.barKey s.iss.core s.cur.uid n.toNat) := if_neg (Nat.not_le.2 h)

theorem State.barKept_none {s : State} (h : s.cur.bwait = none) : s.barKept = none := by
  simp [State.barKept, h]

/-- A unit that sends an event to a barrier and retires. -/
theorem State.barSend_retires (s : State) (w : BarEvent) (n uid key : Nat) :
    let t := (s.barSend w n uid key).retire
    t.barq = s.barq ++ [{ what := w, key := key, core := n, uid := uid }] ∧ SameBytes s t ∧ Retired s t :=
  ⟨rfl, fun _ => rfl, retired_retire rfl rfl rfl⟩

section
variable {s : State} {n : BitVec 10} (valid : n.toNat < 48) (fresh : s.cur.bwait = none)
include valid

theorem execBjoin_eq : exec (.bjoin n) s =
    if (s.bar s.iss.core (s.barKey s.iss.core s.cur.uid n.toNat)).members.contains s.cur.uid then .next s.retire
    else .next (s.barSend .join s.iss.core s.cur.uid (s.barKey s.iss.core s.cur.uid n.toNat)).retire := if_neg (Nat.not_le.2 valid)

theorem execBleave_eq : exec (.bleave n) s =
    if (s.bar s.iss.core (s.barKey s.iss.core s.cur.uid n.toNat)).members.contains s.cur.uid then
      .next (s.barSend .leave s.iss.core s.cur.uid (s.barKey s.iss.core s.cur.uid n.toNat)).retire
    else .next s.retire := if_neg (Nat.not_le.2 valid)

theorem execBara_eq : exec (.bara n) s = s.arriveAt (s.barKey s.iss.core s.cur.uid n.toNat) false := if_neg (Nat.not_le.2 valid)

include fresh

theorem execBarw_eq : exec (.barw n) s = s.arriveAt (s.barKey s.iss.core s.cur.uid n.toNat) true := by
  show execBarw n s = _
  rw [execBarw, s.barrier_valid valid, State.barKept_none fresh]

theorem execBwait_stranger (out : s.cur.uid ∉ (s.bar s.iss.core (s.barKey s.iss.core s.cur.uid n.toNat)).members) :
    exec (.bwait n) s = .next s.retire := by
  show execBwait n s = _
  rw [execBwait, s.barrier_valid valid, State.barKept_none fresh]
  simp [out]

variable (member : s.cur.uid ∈ (s.bar s.iss.core (s.barKey s.iss.core s.cur.uid n.toNat)).members)
include member

theorem execBwait_marked {m : Nat × Nat} (mark : s.cur.marks.find? (·.1 == s.barKey s.iss.core s.cur.uid n.toNat) = some m) :
    exec (.bwait n) s = .next (s.barWait (s.barKey s.iss.core s.cur.uid n.toNat) m.2) := by
  show execBwait n s = _
  rw [execBwait, s.barrier_valid valid, State.barKept_none fresh]
  simp [member, mark]

theorem execBwait_unmarked (mark : s.cur.marks.find? (·.1 == s.barKey s.iss.core s.cur.uid n.toNat) = none) :
    exec (.bwait n) s = .next s.retire := by
  show execBwait n s = _
  rw [execBwait, s.barrier_valid valid, State.barKept_none fresh]
  simp [member, mark]

end

section
variable {s : State} {key : Nat}

theorem State.arriveAt_stranger (h : s.cur.uid ∉ (s.bar s.iss.core key).members) (waits : Bool) : s.arriveAt key waits = .next s.retire := by
  simp [State.arriveAt, h]

variable (member : s.cur.uid ∈ (s.bar s.iss.core key).members)
include member

theorem State.arriveAt_held (busy : s.pending s.cur.uid 1 (s.barScope s.iss.core key) s.nextReq = true) (waits : Bool) :
    s.arriveAt key waits = .next s := by
  simp [State.arriveAt, member, State.afterAll, busy]

variable (free : s.pending s.cur.uid 1 (s.barScope s.iss.core key) s.nextReq = false)
include free

theorem State.arriveAt_again (h : s.cur.uid ∈ (s.bar s.iss.core key).arrived) (waits : Bool) :
    s.arriveAt key waits = .next (s.onCur fun c => { c with st := .barAgain key (s.bar s.iss.core key).phase }) := by
  simp [State.arriveAt, member, State.afterAll, free, h]

theorem State.arriveAt_arrives (h : s.cur.uid ∉ (s.bar s.iss.core key).arrived) (waits : Bool) :
    s.arriveAt key waits = if waits then .next ((s.barArrive key).onCur fun c =>
      { c with st := .bar key (s.bar s.iss.core key).phase, wnpc := s.iss.npc }) else .next (s.barArrive key).retire := by
  simp [State.arriveAt, member, State.afterAll, free, h]

end

/-- The mark of an arrival stands in the context. -/
theorem State.barArrive_cur (s : State) (key : Nat) : (s.barArrive key).cur =
    { s.cur with marks := s.cur.marks.filter (·.1 != key) ++ [(key, (s.bar s.iss.core key).phase)] } := State.cur_onCur ..

theorem State.barWait_waits {s : State} {key ph : Nat} (h : (s.bar s.iss.core key).phase ≤ ph) :
    s.barWait key ph = s.onCur fun c => { c with st := .bar key ph, wnpc := s.iss.npc } := if_pos h
theorem State.barWait_passes {s : State} {key ph : Nat} (h : ph < (s.bar s.iss.core key).phase) :
    Retired s (s.barWait key ph) ∧ SameBytes s (s.barWait key ph) := by
  obtain ⟨mem, iss, ctx, -, -⟩ := s.acquire_keeps s.iss.core (s.barScope s.iss.core key)
  have cur : (s.acquire s.iss.core (s.barScope s.iss.core key)).cur = s.cur := by rw [State.cur, iss, ctx, State.cur]
  rw [State.barWait, if_neg (Nat.not_le.2 h)]
  exact ⟨retired_retire iss (by rw [cur]) (by rw [cur]), fun a => congrArg (memGet · a) mem⟩

/-- Settles O38: each instruction by its equation, the end of a cycle by what the barrier has taken and its completion test. -/
theorem barriersResult : Obligations.BarriersResult := by
  intro s n valid fresh key b sent placed
  have join := execBjoin_eq (s := s) valid
  have leave := execBleave_eq (s := s) valid
  have bara := execBara_eq (s := s) valid
  have barw := execBarw_eq valid fresh
  refine ⟨fun out => ?_, fun member => ?_, fun member busy => ?_, fun member new free => ?_, fun member old free => ?_, fun m member mark => ?_,
    fun member unmarked => ?_, fun u queue member new => ?_, fun u v queue member new joins last => ?_⟩
  · rw [if_neg (by simpa using out)] at join leave
    obtain ⟨queued, bytes, retired⟩ := s.barSend_retires .join s.iss.core s.cur.uid key
    exact ⟨barw.trans (State.arriveAt_stranger out _), bara.trans (State.arriveAt_stranger out _), execBwait_stranger valid fresh out, leave, _, join, ⟨queued, bytes⟩, retired⟩
  · rw [if_pos (by simpa using member)] at join leave
    obtain ⟨queued, bytes, retired⟩ := s.barSend_retires .leave s.iss.core s.cur.uid key
    exact ⟨join, _, leave, ⟨queued, bytes⟩, retired⟩
  · exact ⟨barw.trans (State.arriveAt_held member busy _), bara.trans (State.arriveAt_held member busy _)⟩
  · rw [State.arriveAt_arrives member free new] at bara barw
    have marked : (key, b.phase) ∈ (s.barArrive key).cur.marks := by
      rw [State.barArrive_cur]
      exact List.mem_append_right _ (List.mem_singleton.2 rfl)
    refine ⟨⟨_, bara, ⟨rfl, fun _ => rfl⟩, ?_, ?_⟩, _, barw, ⟨rfl, fun _ => rfl⟩, ?_⟩
    · rw [State.retire_cur, Ctx.retire_marks]
      exact marked
    · exact retired_retire rfl (by rw [State.barArrive_cur]) (by rw [State.barArrive_cur])
    · rw [State.cur_onCur]
      exact ⟨marked, rfl, by rw [State.barArrive_cur]⟩
  · have again (w : Bool) : ∃ t : State, s.arriveAt key w = .next t ∧ t.cur.st = .barAgain key b.phase ∧ t.barq = s.barq ∧
        t.cur.instret = s.cur.instret ∧ SameBytes s t := by
      refine ⟨_, State.arriveAt_again member free old w, ?_⟩
      rw [State.cur_onCur]
      exact ⟨rfl, rfl, rfl, fun _ => rfl⟩
    intro i hi
    obtain rfl | rfl : i = .bara n ∨ i = .barw n := by simpa using hi
    · exact bara ▸ again false
    · exact barw ▸ again true
  · have bwait := execBwait_marked valid fresh member mark
    refine ⟨fun h => ⟨_, bwait, ?_⟩, fun h => ⟨_, bwait, State.barWait_passes h⟩⟩
    rw [State.barWait_waits h, State.cur_onCur]
    exact ⟨rfl, rfl, fun _ => rfl⟩
  · exact execBwait_unmarked valid fresh member unmarked
  · refine ⟨State.barEnd_counts (q := { what := .arrive, key := key, core := s.iss.core, uid := u }) placed queue rfl member new, fun last => ?_⟩
    obtain ⟨ended, -, woken⟩ := State.barTaken_ends placed (q := { what := .arrive, key := key, core := s.iss.core, uid := u }) rfl member new last
    rw [← State.barEnd_one queue rfl] at ended woken
    refine ⟨ended, fun x hx => ?_⟩
    rw [woken x, Ctx.barWake_bar hx]
    exact ⟨rfl, rfl⟩
  · obtain ⟨ended, placed', -⟩ := State.barTaken_ends placed (q := { what := .arrive, key := key, core := s.iss.core, uid := u }) rfl member new last
    rw [State.barEnd_two queue rfl rfl rfl, State.barTake_joins rfl (by rw [ended]; exact joins), ended]
    exact State.bar_setBar placed' _

end Sys2Proof.Machine
end

section
/-! PROOF. What is left of a thread that ends, in a slot or inline (R38, R42, R180), and THALT. -/

namespace Sys2Proof.Machine

open Sys2Proof

/-! ## Families a thread has made -/

theorem State.famsOf_nil {s : State} {u : Nat} : s.famsOf u = [] ↔ ∀ p ∈ s.fams, ¬(p.2.live = true ∧ p.2.uid = u) := by
  simp [State.famsOf, List.filter_eq_nil_iff]

/-- A change of a family that makes none live and gives none away leaves a thread without families without. -/
theorem State.famsOf_onFam {s : State} {u : Nat} {f : FamRef} {g : Fam → Fam} (h : s.famsOf u = []) (hl : (g (s.fam f)).live = (s.fam f).live)
    (hu : (g (s.fam f)).uid = (s.fam f).uid) : (s.onFam f g).famsOf u = [] := by
  rw [State.famsOf_nil] at h ⊢
  intro p hp
  obtain rfl | hp := mem_tabSet hp
  · rw [hl, hu]
    obtain e | e := tabGet_default_or_mem Fam.empty s.fams f.key
    · rw [State.fam, e]
      simp [Fam.empty]
    · exact h _ e
  · exact h p hp

theorem State.fam_onFam (s : State) (f : FamRef) (g : Fam → Fam) : (s.onFam f g).fam f = g (s.fam f) := tabGet_tabSet_same ..

/-- A family that is not perforated has no work for Grout. -/
theorem State.toGrout_plain {s : State} {f : FamRef} (h : (s.fam f).desc.perf = false) : s.toGrout f = s := by
  simp [State.toGrout, h]

/-- A family without a member that ended. -/
def Fam.less (u : Nat) (g : Fam) : Fam := { g with running := g.running.filter (·.2.2.2 != u), ended := g.ended + 1 }

theorem State.memberGone_plain {s : State} {f : FamRef} (h : (s.fam f).desc.perf = false) (u : Nat) :
    s.memberGone (some f) u = s.onFam f (Fam.less u) :=
  State.toGrout_plain (by rw [State.fam_onFam]; exact h)

/-! ## What a thread gives up (R42, R180) -/

/-- A leave of every barrier the thread is a member of is among the events. -/
def State.Leaves (s : State) (n u : Nat) (l : List BarItem) : Prop :=
  ∀ b < 48, u ∈ (s.bar n (s.barKey n u b)).members → { what := .leave, key := s.barKey n u b, core := n, uid := u } ∈ l

/-- The leaves that barriers b of a list get. -/
def State.leaves (s : State) (n u : Nat) (l : List Nat) : List BarItem :=
  (l.filter fun b => (s.bar n (s.barKey n u b)).members.contains u).map fun b => { what := .leave, key := s.barKey n u b, core := n, uid := u }

/-- A state with other events on their way to barriers. -/
def State.withBarq (s : State) (q : List BarItem) : State := { s with barq := q }

theorem State.leaveAll_eq (s : State) (n u : Nat) : s.leaveAll n u = s.withBarq (s.barq ++ s.leaves n u (List.range 48)) := by
  have walk : ∀ (l : List Nat) (q : List BarItem), l.foldl (fun s b =>
      let key := s.barKey n u b
      if (s.bar n key).members.contains u then s.barSend .leave n u key else s) (s.withBarq q) = s.withBarq (q ++ s.leaves n u l) := by
    intro l
    induction l with
    | nil => exact fun q => congrArg s.withBarq (List.append_nil q).symm
    | cons b l ih =>
      intro q
      rw [List.foldl_cons]
      by_cases m : (s.bar n (s.barKey n u b)).members.contains u = true
      · have e : s.leaves n u (b :: l) = { what := .leave, key := s.barKey n u b, core := n, uid := u } :: s.leaves n u l := by
          rw [State.leaves, List.filter_cons, if_pos m]
          rfl
        rw [e, List.append_cons, ← ih]
        exact congrArg (List.foldl _ · l) (if_pos m)
      · have e : s.leaves n u (b :: l) = s.leaves n u l := by
          rw [State.leaves, List.filter_cons, if_neg m]
          rfl
        rw [e, ← ih]
        exact congrArg (List.foldl _ · l) (if_neg m)
  exact walk (List.range 48) s.barq

theorem State.leaves_all (s : State) (n u : Nat) : s.Leaves n u (s.leaves n u (List.range 48)) := fun b hb m =>
  List.mem_map.2 ⟨b, List.mem_filter.2 ⟨List.mem_range.2 hb, List.elem_eq_true_of_mem m⟩, rfl⟩

/-- A state without what a thread had under way: rows p of its context are pending no more. -/
def State.dropped (s : State) (n x u : Nat) (p : List Nat) : State :=
  (State.onCore { s with joins := s.joins.filter (·.uid != u), resv := s.resv.filter (·.uid != u) } n fun c =>
    { c with sfuq := c.sfuq.filter (·.uid != u), sfuPipe := c.sfuPipe.filter (·.uid != u), mbwait := c.mbwait.filter (·.2 != u) }).onCtx n x
      fun c => { c with pendV := p }

theorem State.dropped_sameBars (s : State) (n x u : Nat) (p : List Nat) : s.SameBars (s.dropped n x u p) :=
  .trans (t := { s with joins := s.joins.filter (·.uid != u), resv := s.resv.filter (·.uid != u) }) ⟨rfl, fun _ => ⟨rfl, rfl⟩⟩
    (.trans (.onCore _ _ rfl rfl) (.onCore _ _ rfl rfl))

theorem State.SameBars.barKey {s t : State} (h : s.SameBars t) (n u b : Nat) : t.barKey n u b = s.barKey n u b := by
  simp only [State.barKey, h.teamOf, (h.2 _).1]

/-- What a thread gives up, and its leaves. -/
theorem State.dropThread_eq (s : State) (n x u : Nat) :
    ∃ p q, s.dropThread n x u = (s.dropped n x u p).withBarq (s.barq ++ q) ∧ s.Leaves n u q := by
  obtain ⟨p, e⟩ : ∃ p, s.dropThread n x u = (s.dropped n x u p).leaveAll n u := by
    refine ⟨((s.joins.filter (·.uid == u)).map (·.row) ++ ((s.core n).sfuq.filter (·.uid == u)).map (·.row) ++
      ((s.core n).sfuPipe.filter (·.uid == u)).map (·.row) ++ ((s.ctxAt n x).sfuHeld.filter (·.uid == u)).map (·.row)).foldl List.erase
        (s.ctxAt n x).pendV, ?_⟩
    simp only [State.dropThread, State.dropped, State.onCtx, State.onCore_onCore]
    rfl
  have b := s.dropped_sameBars n x u p
  refine ⟨p, _, e.trans (State.leaveAll_eq ..), fun k hk m => ?_⟩
  rw [← b.barKey, ← b.bar] at m
  have l := (s.dropped n x u p).leaves_all n u k hk m
  rwa [b.barKey] at l

theorem State.dropped_ctxAt (s : State) (n x u : Nat) (p : List Nat) : (s.dropped n x u p).ctxAt n x = { s.ctxAt n x with pendV := p } := by
  rw [State.dropped, State.ctxAt_onCtx_same, State.ctxAt_onCore_keep _ rfl]
  rfl

theorem State.dropped_others (s : State) (n x u : Nat) (p : List Nat) :
    (∀ m, m ≠ n → (s.dropped n x u p).core m = s.core m) ∧ ∀ y, y ≠ x → (s.dropped n x u p).ctxAt n y = s.ctxAt n y := by
  refine ⟨fun m h => ?_, fun y h => ?_⟩
  · rw [State.dropped, State.core_onCtx_ne _ _ h, State.core_onCore_ne _ _ h]
    rfl
  · rw [State.dropped, State.ctxAt_onCtx_ne _ _ (.inr h), State.ctxAt_onCore_keep _ rfl]
    rfl

/-- The context of a thread that ends is empty; its core takes the pushes it held. -/
theorem State.vacate_eq (s : State) (n x : Nat) :
    ∃ q, s.vacate n x = (s.onCtx n x fun _ => Ctx.empty).onCore n fun c => { c with outq := q } := by
  have walk : ∀ (l : List (Nat × QWord)) (s : State), ∃ q, (l.foldl (fun s w => s.onCore n fun c =>
      { c with outq := tabSet c.outq w.1 (c.outbound w.1 ++ [w.2]) }) s).onCtx n x (fun _ => Ctx.empty) =
        (s.onCtx n x fun _ => Ctx.empty).onCore n fun c => { c with outq := q } := by
    intro l
    induction l with
    | nil =>
      refine fun s => ⟨(s.core n).outq, ?_⟩
      rw [List.foldl_nil, State.onCtx, State.onCore_onCore]
      rfl
    | cons w l ih =>
      intro s
      obtain ⟨q, e⟩ := ih (s.onCore n fun c => { c with outq := tabSet c.outq w.1 (c.outbound w.1 ++ [w.2]) })
      refine ⟨q, e.trans ?_⟩
      simp only [State.onCtx, State.onCore_onCore]
      rfl
  exact walk _ s

theorem State.vacate_ctxAt (s : State) (n x : Nat) : (s.vacate n x).ctxAt n x = Ctx.empty := by
  obtain ⟨q, e⟩ := s.vacate_eq n x
  rw [e, State.ctxAt_onCore_keep _ rfl, State.ctxAt_onCtx_same]

theorem State.vacate_others (s : State) (n x : Nat) :
    (∀ m, m ≠ n → (s.vacate n x).core m = s.core m) ∧ ∀ y, y ≠ x → (s.vacate n x).ctxAt n y = s.ctxAt n y := by
  obtain ⟨q, e⟩ := s.vacate_eq n x
  refine ⟨fun m h => ?_, fun y h => ?_⟩
  · rw [e, State.core_onCore_ne _ _ h, State.core_onCtx_ne _ _ h]
  · rw [e, State.ctxAt_onCore_keep _ rfl, State.ctxAt_onCtx_ne _ _ (.inr h)]

theorem State.vacate_iss (s : State) (n x : Nat) : (s.vacate n x).iss = s.iss := by
  obtain ⟨q, e⟩ := s.vacate_eq n x
  rw [e]
  rfl

/-! ## A frame that is restored (R38) -/

/-- A register of a frame that is loaded again. -/
def Ctx.reloadOne (v : Nat → Word) (fe : Nat) (c : Ctx) (i : Nat) : Ctx :=
  let r : XReg := BitVec.ofNat 4 (i + 1)
  let c := c.setRegAt (c.tag r) (v (i + 1))
  if fe.testBit (i + 1) then c.markFull (c.tag r) else c.markEmpty (c.tag r)
/-- The first m registers of a frame. -/
def Ctx.reloadTo (v : Nat → Word) (fe m : Nat) (c : Ctx) : Ctx := (List.range m).foldl (Ctx.reloadOne v fe) c

theorem Ctx.reload_eq (c : Ctx) (v : Nat → Word) (fe : Nat) : c.reload v fe = c.reloadTo v fe 15 := rfl
theorem Ctx.reloadTo_succ (c : Ctx) (v : Nat → Word) (fe m : Nat) : c.reloadTo v fe (m + 1) = (c.reloadTo v fe m).reloadOne v fe m := by
  rw [Ctx.reloadTo, List.range_succ, List.foldl_append]
  rfl

/-- Only registers, their full bits and their parity are loaded. -/
theorem Ctx.reloadTo_frame (c : Ctx) (v : Nat → Word) (fe m : Nat) : ∃ x b f, c.reloadTo v fe m = { c with x := x, bad := b, fe := f } := by
  induction m with
  | zero => exact ⟨_, _, _, rfl⟩
  | succ m ih =>
    obtain ⟨x, b, f, e⟩ := ih
    rw [Ctx.reloadTo_succ, e, Ctx.reloadOne]
    split <;> exact ⟨_, _, _, rfl⟩

theorem Ctx.reloadTo_tag (c : Ctx) (v : Nat → Word) (fe m : Nat) (r : XReg) : (c.reloadTo v fe m).tag r = c.tag r := by
  obtain ⟨x, b, f, e⟩ := c.reloadTo_frame v fe m
  rw [e]
  rfl

theorem Ctx.reloadOne_same (c : Ctx) (v : Nat → Word) (fe i : Nat) :
    (c.reloadOne v fe i).regAt (c.tag (BitVec.ofNat 4 (i + 1))) = v (i + 1) ∧
      (c.reloadOne v fe i).fe.getLsbD (c.tag (BitVec.ofNat 4 (i + 1))) = fe.testBit (i + 1) := by
  have l := c.tag_lt (BitVec.ofNat 4 (i + 1))
  simp only [Ctx.reloadOne]
  split
  next full => exact ⟨Ctx.regAt_setRegAt_same c l _, full ▸ Ctx.markFull_full _ l⟩
  next empty => exact ⟨Ctx.regAt_setRegAt_same c l _, (Ctx.markEmpty_empty ..).trans (Bool.eq_false_iff.2 empty).symm⟩

theorem Ctx.markFull_fe_ne (c : Ctx) {t u : Nat} (h : u ≠ t) : (c.markFull t).fe.getLsbD u = c.fe.getLsbD u := by
  simp only [Ctx.markFull, BitVec.getLsbD_or, BitVec.getLsbD_shiftLeft, BitVec.getLsbD_one]
  have : ¬(u - t = 0 ∧ t ≤ u) := by omega
  grind
theorem Ctx.markEmpty_fe_ne (c : Ctx) {t u : Nat} (h : u ≠ t) : (c.markEmpty t).fe.getLsbD u = c.fe.getLsbD u := by
  by_cases l : u < 48
  · simp only [Ctx.markEmpty, BitVec.getLsbD_and, BitVec.getLsbD_not, BitVec.getLsbD_shiftLeft, BitVec.getLsbD_one]
    grind
  · rw [BitVec.getLsbD_of_ge _ _ (by omega), BitVec.getLsbD_of_ge _ _ (by omega)]

theorem Ctx.reloadOne_other (c : Ctx) (v : Nat → Word) (fe : Nat) {i t : Nat} (h : t ≠ c.tag (BitVec.ofNat 4 (i + 1))) :
    (c.reloadOne v fe i).regAt t = c.regAt t ∧ (c.reloadOne v fe i).fe.getLsbD t = c.fe.getLsbD t := by
  rw [Ctx.reloadOne]
  split
  · exact ⟨Ctx.regAt_setRegAt_ne c _ h, Ctx.markFull_fe_ne _ h⟩
  · exact ⟨Ctx.regAt_setRegAt_ne c _ h, Ctx.markEmpty_fe_ne _ h⟩

/-- Each register of a frame is loaded under its name. -/
theorem Ctx.reloadTo_register (c : Ctx) (v : Nat → Word) (fe : Nat) {r : XReg} (h : r ≠ 0) {m : Nat} (hm : r.toNat ≤ m) (lt : m ≤ 15) :
    (c.reloadTo v fe m).regAt (c.tag r) = v r.toNat ∧ (c.reloadTo v fe m).fe.getLsbD (c.tag r) = fe.testBit r.toNat := by
  induction m with
  | zero => exact absurd (BitVec.eq_of_toNat_eq (Nat.le_zero.1 hm)) h
  | succ m ih =>
    have name : (BitVec.ofNat 4 (m + 1)).toNat = m + 1 := by
      rw [BitVec.toNat_ofNat]
      omega
    rw [Ctx.reloadTo_succ, ← Ctx.reloadTo_tag c v fe m]
    by_cases e : r.toNat = m + 1
    · obtain rfl : r = BitVec.ofNat 4 (m + 1) := BitVec.eq_of_toNat_eq (e.trans name.symm)
      rw [name]
      exact Ctx.reloadOne_same ..
    · have other : (c.reloadTo v fe m).tag r ≠ (c.reloadTo v fe m).tag (BitVec.ofNat 4 (m + 1)) := fun t =>
        e ((congrArg BitVec.toNat (Ctx.tag_inj _ t)).trans name)
      obtain ⟨reg, full⟩ := Ctx.reloadOne_other _ v fe other
      rw [reg, full, Ctx.reloadTo_tag]
      exact ih (by omega) (by omega)

/-- What the creator's context holds once its frame v is restored from the scratchpad. -/
def State.frameCtx (s : State) (n : Nat) (c : Ctx) (v : Saved) : Ctx :=
  let k := frameKey n c.istk (c.frames.length - 1)
  { (c.restored v).reloadTo (s.dword k) (bitsOf (s.dword k 17) 15 0) 15 with pc := s.dword k 16 }

theorem State.restoreFrame_whole {s : State} {n x : Nat} {fs : List Saved} {v : Saved} (frames : (s.ctxAt n x).frames = fs ++ [v]) (held : v.held = [])
    (whole : ∀ i < 18, s.poisoned (frameKey n (s.ctxAt n x).istk fs.length + 8 * i) = false) :
    s.restoreFrame n x = s.onCtx n x fun _ => s.frameCtx n (s.ctxAt n x) v := by
  have last : (s.ctxAt n x).frames.getLast? = some v := by rw [frames, List.getLast?_concat]
  have len : (s.ctxAt n x).frames.length - 1 = fs.length := by simp [frames]
  have clean : ((List.range 18).find? fun i => s.poisoned (frameKey n (s.ctxAt n x).istk fs.length + 8 * i)) = none := by
    rw [List.find?_eq_none]
    intro i hi
    rw [whole i (List.mem_range.1 hi)]
    exact Bool.false_ne_true
  simp only [State.restoreFrame, last, len, clean, held, List.foldl_nil, State.frameCtx, Ctx.reload_eq]

theorem State.frameCtx_register (s : State) (n : Nat) (c : Ctx) (v : Saved) {r : XReg} (h : r ≠ 0) :
    let k := frameKey n c.istk (c.frames.length - 1)
    (s.frameCtx n c v).reg r = s.dword k r.toNat ∧ (s.frameCtx n c v).fe.getLsbD ((s.frameCtx n c v).tag r) = (s.dword k 17).getLsbD r.toNat := by
  simp only [State.frameCtx]
  generalize frameKey n c.istk (c.frames.length - 1) = k
  have last : r.toNat ≤ 15 := Nat.le_of_lt_succ r.isLt
  obtain ⟨reg, full⟩ := (c.restored v).reloadTo_register (s.dword k) (bitsOf (s.dword k 17) 15 0) h last (Nat.le_refl 15)
  have bits : (bitsOf (s.dword k 17) 15 0).testBit r.toNat = (s.dword k 17).getLsbD r.toNat := by
    have := r.isLt
    rw [bitsOf, BitVec.getLsbD, Nat.testBit_mod_two_pow, pow_zero, Nat.div_one]
    simp [this]
  rw [← (c.restored v).reloadTo_tag (s.dword k) (bitsOf (s.dword k 17) 15 0) 15 r] at reg full
  rw [← bits]
  generalize (c.restored v).reloadTo (s.dword k) (bitsOf (s.dword k 17) 15 0) 15 = d at reg full ⊢
  generalize s.dword k 16 = pc
  have names : ({ d with pc := pc } : Ctx).tag r = d.tag r := Ctx.tag_congr rfl rfl rfl r
  rw [Ctx.reg, if_neg h, names]
  exact ⟨reg, full⟩

/-- The rest of it is the creator's, but for the pc. -/
theorem State.frameCtx_rest (s : State) (n : Nat) (c : Ctx) (v : Saved) :
    ∃ x b f, s.frameCtx n c v = { c.restored v with x := x, bad := b, fe := f, pc := s.dword (frameKey n c.istk (c.frames.length - 1)) 16 } := by
  simp only [State.frameCtx]
  generalize frameKey n c.istk (c.frames.length - 1) = k
  obtain ⟨x, b, f, e⟩ := (c.restored v).reloadTo_frame (s.dword k) (bitsOf (s.dword k 17) 15 0) 15
  exact ⟨x, b, f, by rw [e]⟩

/-! ## The port to the scratchpad as an end leaves it -/

/-- What a restored frame reads, and waits for, is as it was. -/
structure State.SamePort (s t : State) : Prop where
  mem : t.mem = s.mem
  poison : t.poison = s.poison
  owned : t.owned = s.owned
  reqs : t.reqs = s.reqs
  bfmt : ∀ m, (t.core m).bfmt = (s.core m).bfmt

theorem State.SamePort.trans {s t u : State} (h : s.SamePort t) (k : t.SamePort u) : s.SamePort u :=
  ⟨k.mem.trans h.mem, k.poison.trans h.poison, k.owned.trans h.owned, k.reqs.trans h.reqs, fun m => (k.bfmt m).trans (h.bfmt m)⟩
theorem State.SamePort.onCore (s : State) (n : Nat) {f : Core → Core} (hf : (f (s.core n)).bfmt = (s.core n).bfmt) : s.SamePort (s.onCore n f) := by
  refine ⟨rfl, rfl, rfl, rfl, fun m => ?_⟩
  by_cases e : m = n
  · rw [e, State.core_onCore_same, hf]
  · rw [State.core_onCore_ne s f e]

theorem State.SamePort.onCtx (s : State) (n x : Nat) (f : Ctx → Ctx) : s.SamePort (s.onCtx n x f) := .onCore s n rfl

theorem State.SamePort.spots {s t : State} (h : s.SamePort t) (r : Req) : t.spots r = s.spots r := by
  have fmt (home : Home) (key : Nat) : t.keyFmt home key = s.keyFmt home key := by
    unfold State.keyFmt Core.bankFmt
    split
    · rw [h.bfmt]
    · rfl
  have parts (home : Home) (a ty : Nat) (els : List (Nat × Nat)) (w : Bool) : t.expand home a ty els w = s.expand home a ty els w := by
    simp only [State.expand, fmt]
  unfold State.spots
  simp only [parts]

theorem State.SamePort.frameBusy {s t : State} (h : s.SamePort t) (n key : Nat) : t.frameBusy n key = s.frameBusy n key := by
  simp only [State.frameBusy, State.ownedAny, h.owned, h.reqs, h.spots]
theorem State.SamePort.poisoned {s t : State} (h : s.SamePort t) (key : Nat) : t.poisoned key = s.poisoned key := by
  simp only [State.poisoned, h.poison]
theorem State.SamePort.frameCtx {s t : State} (h : s.SamePort t) (n : Nat) (c : Ctx) (v : Saved) : t.frameCtx n c v = s.frameCtx n c v := by
  have e : t.dword = s.dword := by
    funext key i
    rw [State.dword, h.mem, State.dword]
  simp only [State.frameCtx, e]

/-! ## A member that ends -/

/-- The state that thread u and its family's list have left. -/
def State.departed (s : State) (f : FamRef) (n x u : Nat) : State := (s.dropThread n x u).onFam f (Fam.less u)

/-- What an end leaves, wherever its thread stood: memory, its family without the member, and the leaves of its barriers. -/
structure State.Left (s t : State) (f : FamRef) (n u : Nat) : Prop where
  mem : t.mem = s.mem
  iss : t.iss = s.iss
  fam : t.fam f = Fam.less u (s.fam f)
  leaves : s.Leaves n u t.barq

theorem State.Leaves.mono {s : State} {n u : Nat} {q l : List BarItem} (h : s.Leaves n u q) (sub : ∀ i ∈ q, i ∈ l) : s.Leaves n u l :=
  fun b hb m => sub _ (h b hb m)

theorem State.departed_left (s : State) (f : FamRef) (n x u : Nat) :
    s.Left (s.departed f n x u) f n u ∧ s.SamePort (s.departed f n x u) ∧
      ∃ p, (s.departed f n x u).ctxAt n x = { s.ctxAt n x with pendV := p } := by
  obtain ⟨p, q, e, l⟩ := s.dropThread_eq n x u
  rw [State.departed, e]
  refine ⟨⟨rfl, rfl, State.fam_onFam .., l.mono fun i hi => List.mem_append_right _ hi⟩, ?_, p, s.dropped_ctxAt n x u p⟩
  have port : s.SamePort (s.dropped n x u p) := by
    rw [State.dropped, State.onCtx, State.onCore_onCore]
    exact .trans (t := { s with joins := s.joins.filter (·.uid != u), resv := s.resv.filter (·.uid != u) }) ⟨rfl, rfl, rfl, rfl, fun _ => rfl⟩
      (.onCore _ _ rfl)
  exact ⟨port.mem, port.poison, port.owned, port.reqs, port.bfmt⟩

theorem State.endUid_eq {s : State} {f : FamRef} {n x u : Nat} (runs : s.RunsAt u n x) (free : s.famsOf u = []) (fam : (s.ctxAt n x).fam = some f)
    (plain : (s.fam f).desc.perf = false) (k : Nat) :
    s.endUid (k + 1) u = if (s.ctxAt n x).frames.isEmpty then (s.departed f n x u).vacate n x else (s.departed f n x u).endInline n x := by
  have gone : (s.dropThread n x u).memberGone (some f) u = s.departed f n x u := by
    obtain ⟨p, q, e, -⟩ := s.dropThread_eq n x u
    refine State.memberGone_plain ?_ u
    rw [e]
    exact plain
  have settled : s.settle u = s := by simp [State.settle, runs.2]
  unfold State.endUid
  simp only [free, List.filter_nil, List.foldl_nil, settled, runs.1, fam, gone]

/-! ## THALT (R180, R316) -/

/-- A member's family is marked when its THALT refuses an emulation. -/
def State.marking (s : State) (f : FamRef) : State := if s.cur.inEm then s.onFam f fun g => { g with marked := true } else s

theorem execThalt_control {s : State} (kind : s.cur.kind = 0) (em : s.cur.inEm = false) :
    exec .thalt s = .next ((s.retire.dropThread s.iss.core s.iss.ctx s.cur.uid).vacate s.iss.core s.iss.ctx) := by
  show execThalt s = _
  simp [execThalt, kind, em]

theorem execThalt_refuses {s : State} (kind : s.cur.kind = 0) (em : s.cur.inEm = true) :
    exec .thalt s = .next (s.threadFault s.iss.core s.iss.ctx s.cur.emcause.toNat s.cur.emval s.iss.upc) := by
  show execThalt s = _
  simp [execThalt, kind, em]

theorem execThalt_member {s : State} {f : FamRef} (kind : s.cur.kind ≠ 0) (fam : s.cur.fam = some f) :
    exec .thalt s = .next ((s.marking f).retire.endUid (s.marking f).retire.nest s.cur.uid) := by
  have em : (s.cur.inEm && s.cur.kind == 0) = false := by simp [kind]
  show execThalt s = _
  simp only [execThalt, em, fam, State.marking, if_neg kind]
  rfl

theorem State.marking_eq (s : State) (f : FamRef) :
    (s.marking f).cur = s.cur ∧ (s.marking f).iss = s.iss ∧ s.SameBars (s.marking f) ∧ s.SamePort (s.marking f) ∧
      (s.marking f).fam f = { s.fam f with marked := (s.fam f).marked || s.cur.inEm } := by
  unfold State.marking
  split
  next em =>
    refine ⟨rfl, rfl, ⟨rfl, fun _ => ⟨rfl, rfl⟩⟩, ⟨rfl, rfl, rfl, rfl, fun _ => rfl⟩, ?_⟩
    rw [em, Bool.or_true, State.fam_onFam]
  next em =>
    refine ⟨rfl, rfl, .refl s, ⟨rfl, rfl, rfl, rfl, fun _ => rfl⟩, ?_⟩
    rw [Bool.eq_false_iff.2 em, Bool.or_false]

theorem State.marking_runs {s : State} {u n x : Nat} (h : s.RunsAt u n x) (f : FamRef) : (s.marking f).RunsAt u n x := by
  unfold State.marking
  split <;> exact h

theorem State.marking_childless {s : State} {u : Nat} (h : s.famsOf u = []) (f : FamRef) : (s.marking f).famsOf u = [] := by
  unfold State.marking
  split
  · exact State.famsOf_onFam (g := fun g => { g with marked := true }) h rfl rfl
  · exact h

section
variable {s : State} {f : FamRef} (kind : s.cur.kind ≠ 0) (fam : s.cur.fam = some f) (childless : s.famsOf s.cur.uid = [])
  (runs : s.RunsAt s.cur.uid s.iss.core s.iss.ctx) (plain : (s.fam f).desc.perf = false)
include kind fam childless runs plain

/-- A member's THALT is the end of its thread, in its slot or inline. -/
theorem execThalt_ends : ∃ w : State, exec .thalt s = .next (if s.cur.frames.isEmpty then w.vacate s.iss.core s.iss.ctx else w.endInline s.iss.core s.iss.ctx) ∧
    w.iss = s.iss ∧ s.SamePort w ∧ s.Leaves s.iss.core s.cur.uid w.barq ∧
    w.fam f = Fam.less s.cur.uid { s.fam f with marked := (s.fam f).marked || s.cur.inEm } ∧
    ∃ p, w.ctxAt s.iss.core s.iss.ctx = { s.cur.retire s.iss.npc with pendV := p } := by
  obtain ⟨cur, iss, bars, port, marked⟩ := s.marking_eq f
  set a := (s.marking f).retire with ha
  have iss' : a.iss = s.iss := iss
  have cur' : a.ctxAt s.iss.core s.iss.ctx = s.cur.retire s.iss.npc := by
    have e := (s.marking f).retire_cur
    rwa [cur, iss, State.cur, ← ha, iss'] at e
  have runs' : a.RunsAt s.cur.uid s.iss.core s.iss.ctx := by
    have h := State.marking_runs runs f
    rw [← iss] at h ⊢
    exact h.onCtx (by simp) (by simp)
  have retired : (s.marking f).SamePort a := by
    rw [ha, State.retire, State.onCur]
    exact .onCtx ..
  obtain ⟨left, port', p, ctx⟩ := a.departed_left f s.iss.core s.iss.ctx s.cur.uid
  have ends := State.endUid_eq runs' (State.marking_childless childless f) (by rw [cur']; simpa using fam)
    (show ((s.marking f).fam f).desc.perf = false by rw [marked]; exact plain) a.fams.length
  rw [cur', Ctx.retire_frames] at ends
  refine ⟨_, (execThalt_member kind fam).trans (congrArg _ ends), left.iss.trans iss', (port.trans retired).trans port', fun b hb m => ?_,
    left.fam.trans (congrArg _ marked), p, ctx.trans (by rw [cur'])⟩
  have bars' : s.SameBars a := bars.trans (.onCore _ _ rfl rfl)
  rw [← bars'.barKey, ← bars'.bar] at m
  have l := left.leaves b hb m
  rwa [bars'.barKey] at l

end

/-- What an end in the issuing context leaves beside that context: the leaves, the family without its member, and memory. -/
theorem ended_of {s w t : State} {f : FamRef} (gone : w.fam f = Fam.less s.cur.uid { s.fam f with marked := (s.fam f).marked || s.cur.inEm })
    (leaves : s.Leaves s.iss.core s.cur.uid w.barq) (port : s.SamePort w) (fams : t.fams = w.fams) (barq : t.barq = w.barq) (mem : t.mem = w.mem) :
    s.Leaves s.iss.core s.cur.uid t.barq ∧ ((t.fam f).ended = (s.fam f).ended + 1 ∧ (t.fam f).marked = ((s.fam f).marked || s.cur.inEm) ∧
      (t.fam f).running = (s.fam f).running.filter (·.2.2.2 != s.cur.uid)) ∧ SameBytes s t := by
  have e : t.fam f = w.fam f := by rw [State.fam, fams, State.fam]
  rw [e, gone, barq]
  exact ⟨leaves, ⟨rfl, rfl, rfl⟩, fun a => congrArg (memGet · a) (mem.trans port.mem)⟩

theorem execThalt_vacates {s : State} (kind : s.cur.kind = 0) (em : s.cur.inEm = false) :
    ∃ t : State, exec .thalt s = .next t ∧ t.cur = Ctx.empty ∧ s.Leaves s.iss.core s.cur.uid t.barq ∧ SameBytes s t ∧ SameOthers s t := by
  obtain ⟨p, q, e, leaves⟩ := s.retire.dropThread_eq s.iss.core s.iss.ctx s.cur.uid
  set d := (s.retire.dropped s.iss.core s.iss.ctx s.cur.uid p).withBarq (s.retire.barq ++ q) with hd
  have run := execThalt_control kind em
  rw [e] at run
  have iss : (d.vacate s.iss.core s.iss.ctx).iss = s.iss := d.vacate_iss ..
  obtain ⟨o, v⟩ := d.vacate_eq s.iss.core s.iss.ctx
  obtain ⟨cores, ctxs⟩ := d.vacate_others s.iss.core s.iss.ctx
  obtain ⟨cores', ctxs'⟩ := s.retire.dropped_others s.iss.core s.iss.ctx s.cur.uid p
  have bars : s.SameBars s.retire := .onCore s _ rfl rfl
  refine ⟨_, run, ?_, fun b hb m => ?_, fun a => ?_, fun m h => ?_, fun y h => ?_⟩
  · rw [State.cur, iss]
    exact d.vacate_ctxAt ..
  · rw [← bars.barKey, ← bars.bar] at m
    have l := leaves b hb m
    rw [bars.barKey] at l
    rw [v]
    exact List.mem_append_right _ l
  · rw [v]
    rfl
  · exact (cores m h).trans ((cores' m h).trans (State.core_onCtx_ne _ _ h))
  · rw [State.here, iss]
    exact (ctxs y h).trans ((ctxs' y h).trans (State.ctxAt_onCtx_ne _ _ (.inr h)))

section
variable {s w : State} {fs : List Saved} {v : Saved} {p : List Nat} (frames : s.cur.frames = fs ++ [v])
  (ctx : w.ctxAt s.iss.core s.iss.ctx = { s.cur.retire s.iss.npc with pendV := p })
include frames ctx

/-- The frame below the issuing context, and its key, as the member's end leaves them. -/
theorem below_eq : (w.ctxAt s.iss.core s.iss.ctx).frames = fs ++ [v] ∧ (w.ctxAt s.iss.core s.iss.ctx).frames.length - 1 = fs.length ∧
    (w.ctxAt s.iss.core s.iss.ctx).istk = s.cur.istk := by
  rw [ctx]
  simp [frames]

variable (iss : w.iss = s.iss) (port : s.SamePort w)
include iss port

/-- The end of an inline member waits for the stores to the frame below it. -/
theorem endInline_waits (busy : s.frameBusy s.iss.core (frameKey s.iss.core s.cur.istk fs.length) = true) :
    let t := w.endInline s.iss.core s.iss.ctx
    t.fams = w.fams ∧ t.barq = w.barq ∧ t.mem = w.mem ∧ t.cur.st = .restore ∧ t.cur.frames = fs ++ [v] := by
  obtain ⟨below, depth, istk⟩ := below_eq frames ctx
  rw [← port.frameBusy, ← depth, ← istk] at busy
  simp only [State.endInline, if_pos busy]
  rw [← iss] at below ⊢
  refine ⟨rfl, rfl, rfl, ?_⟩
  rw [State.cur, State.onCtx_iss, State.ctxAt_onCtx_same]
  exact ⟨rfl, below⟩

/-- Or it restores it. -/
theorem endInline_restores (idle : s.frameBusy s.iss.core (frameKey s.iss.core s.cur.istk fs.length) = false) (held : v.held = [])
    (whole : ∀ i < 18, s.poisoned (frameKey s.iss.core s.cur.istk fs.length + 8 * i) = false) :
    let t := w.endInline s.iss.core s.iss.ctx
    t.fams = w.fams ∧ t.barq = w.barq ∧ t.mem = w.mem ∧ t.cur = s.frameCtx s.iss.core { s.cur.retire s.iss.npc with pendV := p } v := by
  obtain ⟨below, depth, istk⟩ := below_eq frames ctx
  rw [← port.frameBusy, ← depth, ← istk] at idle
  have e : w.endInline s.iss.core s.iss.ctx = w.onCtx s.iss.core s.iss.ctx fun _ => s.frameCtx s.iss.core { s.cur.retire s.iss.npc with pendV := p } v := by
    simp only [State.endInline, idle]
    rw [if_neg Bool.false_ne_true, State.restoreFrame_whole below held fun i hi => by rw [port.poisoned, istk]; exact whole i hi, port.frameCtx, ctx]
  simp only [e]
  refine ⟨rfl, rfl, rfl, ?_⟩
  rw [← iss]
  exact State.cur_onCur w _

end

/-- Settles O41: a control thread leaves an empty context or raises its fault; a member's THALT is the end of its thread, which empties its slot,
or restores the frame below it once the stores to that have passed. -/
theorem thaltResult : Obligations.ThaltResult := by
  intro s f left ended
  refine ⟨fun kind em => ?_, fun kind em => ?_, fun kind frames fam childless runs kept plain => ?_,
    fun fs v kind frames fam childless kept runs plain => ?_⟩
  · exact execThalt_vacates kind em
  · obtain ⟨mem, raised, ctx⟩ := s.threadFault_raises s.iss.core s.iss.ctx s.cur.emcause.toNat s.cur.emval s.iss.upc
    exact ⟨_, execThalt_refuses kind em, congrArg Ctx.st ctx, fun a => congrArg (memGet · a) mem, raised⟩
  · obtain ⟨w, run, iss, port, leaves, gone, -⟩ := execThalt_ends (by simp [kind]) fam childless ⟨runs, kept⟩ plain
    rw [frames] at run
    obtain ⟨q, e⟩ := w.vacate_eq s.iss.core s.iss.ctx
    have cur : (w.vacate s.iss.core s.iss.ctx).cur = Ctx.empty := by
      rw [State.cur, w.vacate_iss, iss]
      exact w.vacate_ctxAt ..
    obtain ⟨left, ended, bytes⟩ := ended_of (t := w.vacate s.iss.core s.iss.ctx) gone leaves port (by rw [e]; rfl) (by rw [e]; rfl) (by rw [e]; rfl)
    exact ⟨_, run, cur, left, ended, bytes⟩
  · obtain ⟨w, run, iss, port, leaves, gone, p, ctx⟩ := execThalt_ends (by simp [kind]) fam childless ⟨runs, kept⟩ plain
    rw [frames, if_neg (by simp)] at run
    refine ⟨fun busy => ?_, fun idle held whole => ?_⟩
    · obtain ⟨fams, barq, mem, st, below⟩ := endInline_waits frames ctx iss port busy
      obtain ⟨left, ended, bytes⟩ := ended_of gone leaves port fams barq mem
      exact ⟨_, run, st, below, left, ended, bytes⟩
    · obtain ⟨fams, barq, mem, cur⟩ := endInline_restores frames ctx iss port idle held whole
      obtain ⟨left, ended, bytes⟩ := ended_of gone leaves port fams barq mem
      obtain ⟨x, b, fe, rest⟩ := s.frameCtx_rest s.iss.core { s.cur.retire s.iss.npc with pendV := p } v
      have depth : ({ s.cur.retire s.iss.npc with pendV := p } : Ctx).frames.length - 1 = fs.length := by simp [frames]
      have istk : ({ s.cur.retire s.iss.npc with pendV := p } : Ctx).istk = s.cur.istk := by simp
      have registers (r : XReg) (h : r ≠ 0) := s.frameCtx_register s.iss.core { s.cur.retire s.iss.npc with pendV := p } v h
      rw [depth, istk] at rest registers
      have dropped : ({ s.cur.retire s.iss.npc with pendV := p } : Ctx).frames.dropLast = fs := by simp [frames]
      refine ⟨_, run, left, ended, bytes, ?_⟩
      rw [cur]
      refine ⟨?_, ?_, ?_, ?_, ?_, ?_, ?_, ?_, ?_, ?_, ?_, ?_, ?_, registers⟩ <;> rw [rest]
      case refine_8 => exact dropped
      all_goals rfl

end Sys2Proof.Machine
end

section
/-! PROOF. Family instructions (R42, R43, R175 to R178): a state in which an FBREAK ends another context than the one its thread is found in. -/

namespace Sys2Proof.Machine

open Sys2Proof

/-- The family of entry 0 of core 3's context 2: its creator, thread 8, waits for a value of FBREAK in register 10. -/
def outOfOrderRef : FamRef := { core := 3, ctx := 2, entry := 0 }
def outOfOrderFam : Fam := { Fam.empty with live := true, uid := 8, desc := { Desc.empty with pts := [10, 0, 0, 0] } }
/-- The FBREAK of its member 0, thread 7. -/
def outOfOrderBreak : Break := { fam := outOfOrderRef, ord := 0, member := 0, value := 0, uid := 7 }
/-- The table of cores lists core 5 before core 3, and thread 7 stands on both. -/
def outOfOrder : State :=
  { State.reset with
    cores := [(5, { Core.reset with ctxs := [(1, { Ctx.empty with uid := 7, fam := some outOfOrderRef })] }),
              (3, { Core.reset with ctxs := [(1, { Ctx.empty with uid := 7 }), (2, { Ctx.empty with uid := 8 })] })]
    fams := [(outOfOrderRef.key, outOfOrderFam)]
    breaks := [outOfOrderBreak] }

/-- Thread 7 is found on core 5. -/
theorem outOfOrder_found : outOfOrder.whereIs 7 = some (5, 1) ∧ outOfOrder.keptBy 7 = none := by decide

/-- The value that lands on core 3 puts that core first, so it is the context there that ends. -/
theorem outOfOrder_stays : (outOfOrder.takeBreaks.ctxAt 5 1).uid = 7 := by decide +kernel

/-- Refutes O40: it ranges over states whose table of cores is out of order, and there an FBREAK need not empty the context that its thread
was found in. What lands for the creator writes core 3, which then stands before core 5; the end takes the thread of that number there. -/
theorem not_familyInstructionsResult : ¬ Obligations.FamilyInstructionsResult := by
  unfold Obligations.FamilyInstructionsResult
  intro holds
  obtain ⟨-, -, -, -, -, -, -, -, -, -, fbreak⟩ := holds outOfOrder 0 0 0 outOfOrderRef
  obtain ⟨-, -, -, ends⟩ := fbreak outOfOrderBreak rfl rfl
  obtain ⟨slot, -⟩ := ends 5 1 outOfOrder_found.1 rfl rfl rfl List.nodup_nil (by simp [outOfOrder, outOfOrderRef, State.fam, tabGet, outOfOrderFam, Fam.empty])
  obtain ⟨-, emptied, -⟩ := slot ⟨by decide, outOfOrder_found.1, outOfOrder_found.2, rfl, rfl, rfl, rfl, by decide⟩
  have uid := outOfOrder_stays
  rw [emptied] at uid
  exact absurd uid (by decide)

end Sys2Proof.Machine
end

section
/-! PROOF. FCREATE (R31, R32, R36, R37, R173): its descriptor, and what a family is made of. -/

namespace Sys2Proof.Machine

open Sys2Proof

/-! ## Values written to registers -/

theorem Ctx.setAll_append (c : Ctx) (l m : List (Nat × Word)) : c.setAll (l ++ m) = (c.setAll l).setAll m := List.foldl_append

theorem Ctx.setAll_frame (c : Ctx) (l : List (Nat × Word)) : ∃ x b f, c.setAll l = { c with x := x, bad := b, fe := f } := by
  induction l generalizing c with
  | nil => exact ⟨_, _, _, rfl⟩
  | cons p l ih =>
    obtain ⟨x, b, f, e⟩ := ih ((c.setRegAt p.1 p.2).markFull p.1)
    exact ⟨x, b, f, e⟩

/-- A register stays as it is written where what follows writes it the same value. -/
theorem Ctx.setAll_stays {c : Ctx} {t : Nat} {v : Word} (h : t < 48) (reg : c.regAt t = v) (full : c.fe.getLsbD t = true) {l : List (Nat × Word)}
    (same : ∀ p ∈ l, p.1 = t → p.2 = v) : (c.setAll l).regAt t = v ∧ (c.setAll l).fe.getLsbD t = true := by
  induction l generalizing c with
  | nil => exact ⟨reg, full⟩
  | cons p l ih =>
    have rest : ∀ q ∈ l, q.1 = t → q.2 = v := fun q hq => same q (List.mem_cons_of_mem _ hq)
    by_cases e : p.1 = t
    · obtain ⟨u, w⟩ := p
      obtain rfl : u = t := e
      obtain rfl : w = v := same (u, w) List.mem_cons_self rfl
      exact ih (c := (c.setRegAt u w).markFull u) (Ctx.regAt_setRegAt_same c h w) (Ctx.markFull_full _ h) rest
    · exact ih ((Ctx.regAt_setRegAt_ne c _ (Ne.symm e)).trans reg) ((Ctx.markFull_fe_ne _ (Ne.symm e)).trans full) rest

/-- The last value written to a register is what it holds. -/
theorem Ctx.setAll_last (c : Ctx) {t : Nat} (h : t < 48) (v : Word) (before : List (Nat × Word)) {after : List (Nat × Word)}
    (same : ∀ p ∈ after, p.1 = t → p.2 = v) :
    (c.setAll (before ++ (t, v) :: after)).regAt t = v ∧ (c.setAll (before ++ (t, v) :: after)).fe.getLsbD t = true := by
  rw [Ctx.setAll_append]
  exact Ctx.setAll_stays (c := ((c.setAll before).setRegAt t v).markFull t) h (Ctx.regAt_setRegAt_same _ h v) (Ctx.markFull_full _ h) same

/-! ## The parent targets -/

/-- The parent targets of a descriptor, as registers of the file; 0 where there is none. -/
def Ctx.targets (c : Ctx) (w : Desc) : List Nat := w.pts.map fun p => if p = 0 then 0 else c.tag (BitVec.ofNat 4 p)
/-- The parent targets wait for their values. -/
def Ctx.emptied (c : Ctx) (l : List Nat) : Ctx := l.foldl (fun c t => if t = 0 then c else c.markEmpty t) c
/-- What parent target k gets of a family without members: its linked value, else 0 where no linked value goes. -/
def Ctx.targetValue (c : Ctx) (w : Desc) (k : Nat) : Option (Nat × Word) :=
  let t := (c.targets w).getD k 0
  if t = 0 ∨ (w.links ≤ k ∧ ((c.targets w).take w.links).contains t) then none
  else some (t, if k < w.links then (((List.range w.links).map fun k => (0, k, c.regAt (11 + k))).getD k (0, 0, 0)).2.2 else 0)
/-- The creator's context as it has made the family. -/
def Ctx.creates (c : Ctx) (w : Desc) : Ctx :=
  if w.count = 0 then (c.emptied (c.targets w)).setAll ((List.range 4).filterMap (c.targetValue w)) else c.emptied (c.targets w)

theorem Ctx.emptied_frame (c : Ctx) (l : List Nat) : ∃ f, c.emptied l = { c with fe := f } := by
  induction l generalizing c with
  | nil => exact ⟨_, rfl⟩
  | cons t l ih =>
    obtain ⟨f, e⟩ := ih (if t = 0 then c else c.markEmpty t)
    refine ⟨f, e.trans ?_⟩
    split <;> rfl

theorem Ctx.creates_frame (c : Ctx) (w : Desc) : ∃ x b f, c.creates w = { c with x := x, bad := b, fe := f } := by
  obtain ⟨f, e⟩ := c.emptied_frame (c.targets w)
  unfold Ctx.creates
  split
  · rw [e]
    exact Ctx.setAll_frame ..
  · exact ⟨_, _, f, e⟩

theorem Ctx.emptied_empty (c : Ctx) {l : List Nat} {t : Nat} (pos : t ≠ 0) (h : t ∈ l ∨ c.fe.getLsbD t = false) : (c.emptied l).fe.getLsbD t = false := by
  induction l generalizing c with
  | nil => exact h.resolve_left List.not_mem_nil
  | cons u l ih =>
    refine ih _ ?_
    dsimp only
    by_cases e : u = t
    · rw [e, if_neg pos]
      exact .inr (Ctx.markEmpty_empty ..)
    · refine h.imp (fun m => (List.mem_cons.1 m).resolve_left (Ne.symm e)) fun f => ?_
      split
      · exact f
      · exact (Ctx.markEmpty_fe_ne _ (Ne.symm e)).trans f

/-- The parent target of code p. -/
theorem Ctx.targets_getD (c : Ctx) {w : Desc} {i : Nat} (h : i < w.pts.length) :
    (c.targets w).getD i 0 = if w.pts.getD i 0 = 0 then 0 else c.tag (BitVec.ofNat 4 (w.pts.getD i 0)) := by
  simp [Ctx.targets, h]

/-- What a place gives. -/
theorem Ctx.targetValue_some {c : Ctx} {w : Desc} {k : Nat} {p : Nat × Word} (h : c.targetValue w k = some p) :
    p.1 = (c.targets w).getD k 0 ∧ (w.links ≤ k → p.1 ∉ (c.targets w).take w.links) ∧ p.2 = if k < w.links then c.regAt (11 + k) else 0 := by
  unfold Ctx.targetValue at h
  dsimp only at h
  split at h
  · cases h
  next open_ =>
    obtain rfl := Option.some.inj h
    refine ⟨rfl, fun free => by simpa [free] using fun m => open_ (.inr ⟨free, List.elem_eq_true_of_mem m⟩), ?_⟩
    dsimp only
    split
    next lt => simp [lt]
    · rfl

theorem Ctx.targetValue_linked (c : Ctx) {w : Desc} {k : Nat} (pos : (c.targets w).getD k 0 ≠ 0) (linked : k < w.links) :
    c.targetValue w k = some ((c.targets w).getD k 0, c.regAt (11 + k)) := by
  unfold Ctx.targetValue
  dsimp only
  rw [if_neg (by omega), if_pos linked]
  simp [linked]

theorem Ctx.targetValue_free (c : Ctx) {w : Desc} {k : Nat} (pos : (c.targets w).getD k 0 ≠ 0) (free : w.links ≤ k)
    (apart : (c.targets w).getD k 0 ∉ (c.targets w).take w.links) : c.targetValue w k = some ((c.targets w).getD k 0, 0) := by
  unfold Ctx.targetValue
  dsimp only
  rw [if_neg fun h => h.elim pos fun m => apart (by simpa using m.2), if_neg (by omega)]

section
variable {c : Ctx} {w : Desc}

/-- A parent target that is a register. -/
theorem targets_register (four : w.pts.length = 4) {i : Nat} (h : i < 4) (r : (BitVec.ofNat 4 (w.pts.getD i 0) : XReg) ≠ 0) :
    (c.targets w).getD i 0 = c.tag (BitVec.ofNat 4 (w.pts.getD i 0)) := by
  rw [c.targets_getD (four ▸ h), if_neg]
  intro e
  exact r (by rw [e]; rfl)

/-- A target of a family without members holds value v where v is what its place gives and no later place gives it another. -/
theorem creates_fills (empty : w.count = 0) {i : Nat} (h : i < 4) {v : Word}
    (gives : c.targetValue w i = some (c.tag (BitVec.ofNat 4 (w.pts.getD i 0)), v))
    (last : ∀ j < 4, i < j → ∀ x, c.targetValue w j = some (c.tag (BitVec.ofNat 4 (w.pts.getD i 0)), x) → x = v) :
    (c.creates w).regAt (c.tag (BitVec.ofNat 4 (w.pts.getD i 0))) = v ∧
      (c.creates w).fe.getLsbD (c.tag (BitVec.ofNat 4 (w.pts.getD i 0))) = true := by
  obtain ⟨before, after, split⟩ := List.append_of_mem (List.mem_range.2 h)
  have sorted : ((before ++ i :: after).Pairwise (· < ·)) := split ▸ List.pairwise_lt_range
  have later : ∀ j ∈ after, i < j := (List.pairwise_cons.1 (List.pairwise_append.1 sorted).2.1).1
  rw [Ctx.creates, if_pos empty, split, List.filterMap_append, List.filterMap_cons_some gives]
  refine Ctx.setAll_last _ (c.tag_lt _) v _ fun p hp e => ?_
  obtain ⟨j, hj, hv⟩ := List.mem_filterMap.1 hp
  have lt : j < 4 := List.mem_range.1 (split ▸ List.mem_append_right _ (List.mem_cons_of_mem _ hj))
  obtain ⟨t, x⟩ := p
  obtain rfl : t = _ := e
  exact last j lt (later j hj) x hv

variable (codes : ∀ p ∈ w.pts, p < 16) (four : w.pts.length = 4)
include codes four

theorem targets_code {i : Nat} (h : i < 4) : w.pts.getD i 0 < 16 := by
  rw [List.getD_eq_getElem _ _ (four ▸ h)]
  exact codes _ (List.getElem_mem _)

/-- Two parent targets that are one register have one code. -/
theorem targets_inj {i j : Nat} (hi : i < 4) (hj : j < 4) (r : (BitVec.ofNat 4 (w.pts.getD i 0) : XReg) ≠ 0)
    (e : (c.targets w).getD j 0 = (c.targets w).getD i 0) : w.pts.getD j 0 = w.pts.getD i 0 := by
  rw [targets_register four hi r, c.targets_getD (four ▸ hj)] at e
  split at e
  · exact absurd e.symm (c.tag_pos r).ne'
  · have b := congrArg BitVec.toNat (c.tag_inj e)
    rwa [BitVec.toNat_ofNat, BitVec.toNat_ofNat, Nat.mod_eq_of_lt (targets_code codes four hj), Nat.mod_eq_of_lt (targets_code codes four hi)] at b

/-- A linked value is what its target holds where no later linked value goes there (R37). -/
theorem creates_links (empty : w.count = 0) {i : Nat} (h : i < 4) (r : (BitVec.ofNat 4 (w.pts.getD i 0) : XReg) ≠ 0)
    (linked : i < w.links) (last : ∀ j < w.links, i < j → w.pts.getD j 0 ≠ w.pts.getD i 0) :
    (c.creates w).regAt (c.tag (BitVec.ofNat 4 (w.pts.getD i 0))) = c.regAt (11 + i) ∧
      (c.creates w).fe.getLsbD (c.tag (BitVec.ofNat 4 (w.pts.getD i 0))) = true := by
  have target := targets_register (c := c) four h r
  refine creates_fills empty h (target ▸ Ctx.targetValue_linked c (target ▸ (c.tag_pos r).ne') linked) fun j hj lt x gives => ?_
  rw [← target] at gives
  obtain ⟨t, free, -⟩ := Ctx.targetValue_some gives
  have code := targets_inj codes four h hj r t.symm
  by_cases hl : j < w.links
  · exact absurd code (last j hl lt)
  · refine absurd ?_ (free (Nat.not_lt.1 hl))
    have len : i < ((c.targets w).take w.links).length := by simpa [Ctx.targets, four] using ⟨linked, h⟩
    have len' : i < (c.targets w).length := by simpa [Ctx.targets, four] using h
    rw [List.getD_eq_getElem _ _ len', ← List.getElem_take (h := len)]
    exact List.getElem_mem len

/-- A target that gets no linked value holds 0. -/
theorem creates_zeroes (empty : w.count = 0) {i : Nat} (h : i < 4) (r : (BitVec.ofNat 4 (w.pts.getD i 0) : XReg) ≠ 0)
    (free : w.links ≤ i) (apart : ∀ j < w.links, w.pts.getD j 0 ≠ w.pts.getD i 0) :
    (c.creates w).regAt (c.tag (BitVec.ofNat 4 (w.pts.getD i 0))) = 0 ∧
      (c.creates w).fe.getLsbD (c.tag (BitVec.ofNat 4 (w.pts.getD i 0))) = true := by
  have target := targets_register (c := c) four h r
  refine creates_fills empty h (target ▸ Ctx.targetValue_free c (target ▸ (c.tag_pos r).ne') free fun m => ?_) fun j hj lt x gives => ?_
  · obtain ⟨j, hj, e⟩ := List.getElem_of_mem m
    have lt : j < w.links ∧ j < 4 := by simpa [Ctx.targets, four] using hj
    have len : j < (c.targets w).length := by simpa [Ctx.targets, four] using lt.2
    rw [List.getElem_take, ← List.getD_eq_getElem _ 0 len] at e
    exact apart j lt.1 (targets_inj codes four h lt.2 r e)
  · obtain ⟨-, -, value⟩ := Ctx.targetValue_some gives
    exact value.trans (if_neg (by omega))

end

/-- A target of a family with members waits. -/
theorem creates_empties {c : Ctx} {w : Desc} (four : w.pts.length = 4) (some : 0 < w.count) {i : Nat} (h : i < 4) (r : (BitVec.ofNat 4 (w.pts.getD i 0) : XReg) ≠ 0) :
    (c.creates w).fe.getLsbD (c.tag (BitVec.ofNat 4 (w.pts.getD i 0))) = false := by
  rw [Ctx.creates, if_neg some.ne']
  refine c.emptied_empty (c.tag_pos r).ne' (.inl ?_)
  rw [← targets_register four h r, List.getD_eq_getElem _ _ (by simpa [Ctx.targets, four] using h)]
  exact List.getElem_mem _

/-! ## The family that FCREATE makes -/

/-- The entry that a family of the issuing context gets, and the family. -/
def State.newRef (s : State) : FamRef :=
  { core := s.iss.core, ctx := s.iss.ctx,
    entry := ((List.range 16).find? fun e => !(s.fam { core := s.iss.core, ctx := s.iss.ctx, entry := e }).live).getD 0 }
def State.newFam (s : State) (w : Desc) : Fam :=
  { Fam.empty with live := true, seq := ((s.fam s.newRef).seq + 1) % 256, ord := s.nextOrd, uid := s.cur.uid, depth := s.cur.frames.length,
                   desc := { w with pts := s.cur.targets w }, held := (List.range w.links).map fun k => (0, k, s.cur.regAt (11 + k)),
                   finished := w.count == 0, grouted := !w.perf || w.count == 0, who := s.whoNow, upc := s.iss.upc }

/-- The sources have popped and the family stands in its entry. -/
def State.withFamily (s : State) (a : XReg) (w : Desc) : State :=
  { s.pops [a] with nextOrd := s.nextOrd + 1, fams := tabSet s.fams s.newRef.key (s.newFam w) }

theorem State.makeFamily_eq (s : State) (a d : XReg) (w : Desc) :
    ∃ u : State, s.makeFamily a d w = (u.wr d (handleOf s.newRef (s.newFam w).seq)).retire ∧ u.mem = s.mem ∧ u.iss = s.iss ∧
      u.cur = s.cur.creates w ∧ u.fams = tabSet s.fams s.newRef.key (s.newFam w) := by
  have popped := s.pops_world [a]
  have base : (s.withFamily a w).cur = s.cur := s.pops_cur [a]
  by_cases empty : w.count = 0
  · refine ⟨((s.withFamily a w).onCur (·.emptied (s.cur.targets w))).onCur (·.setAll ((List.range 4).filterMap (s.cur.targetValue w))), ?_,
      popped.mem, popped.iss, ?_, rfl⟩
    · simp only [State.makeFamily]
      rw [if_pos empty, if_neg (by simp [empty])]
      rfl
    · rw [State.cur_onCur, State.cur_onCur, base, Ctx.creates, if_pos empty]
  · have waits : ((s.withFamily a w).onCur (·.emptied (s.cur.targets w))).cur = s.cur.creates w := by
      rw [State.cur_onCur, base, Ctx.creates, if_neg empty]
    cases perf : w.perf with
    | false =>
      refine ⟨(s.withFamily a w).onCur (·.emptied (s.cur.targets w)), ?_, popped.mem, popped.iss, waits, rfl⟩
      simp only [State.makeFamily]
      rw [if_neg empty, if_neg (by simp [perf])]
      rfl
    | true =>
      refine ⟨((s.withFamily a w).onCur (·.emptied (s.cur.targets w))).onCluster (s.newRef.core / 16) fun k =>
        { k with bellowsq := k.bellowsq ++ [{ fam := s.newRef, ord := (s.newFam w).ord, ctx := w.bctx, probes := none }] }, ?_,
        popped.mem, popped.iss, waits, rfl⟩
      simp only [State.makeFamily]
      rw [if_neg empty, if_pos (by simp [perf, empty])]
      rfl

/-- A family's creator has a free entry where fewer than 16 are live. -/
theorem State.newRef_free {s : State}
    (h : ((List.range 16).filter fun e => (s.fam { core := s.iss.core, ctx := s.iss.ctx, entry := e }).live).length < 16) :
    s.newRef.entry < 16 ∧ (s.fam s.newRef).live = false := by
  cases e : (List.range 16).find? fun e => !(s.fam { core := s.iss.core, ctx := s.iss.ctx, entry := e }).live with
  | none =>
    have all : ((List.range 16).filter fun e => (s.fam { core := s.iss.core, ctx := s.iss.ctx, entry := e }).live) = List.range 16 :=
      List.filter_eq_self.2 fun k hk => by simpa using List.find?_eq_none.1 e k hk
    rw [all, List.length_range] at h
    exact absurd h (lt_irrefl _)
  | some k =>
    have entry : s.newRef.entry = k := by simp only [State.newRef, e, Option.getD_some]
    refine ⟨entry ▸ List.mem_range.1 (List.mem_of_find?_eq_some e), ?_⟩
    have ref : s.newRef = { core := s.iss.core, ctx := s.iss.ctx, entry := k } := by simp only [State.newRef, e, Option.getD_some]
    rw [ref]
    simpa using List.find?_some e

/-- A descriptor is good only where the creator's context has a free entry (R32). -/
theorem State.descBad_few {s : State} {q : Nat → Word} {w : Desc} (h : s.descBad q w = false) :
    ((List.range 16).filter fun e => (s.fam { core := s.iss.core, ctx := s.iss.ctx, entry := e }).live).length < 16 := by
  simp only [State.descBad, Bool.or_eq_false_iff, decide_eq_false_iff_not, Nat.not_le] at h
  tauto

theorem readDesc_targets (va : Word) (q : Nat → Word) : (∀ p ∈ (readDesc va q).pts, p < 16) ∧ (readDesc va q).pts.length = 4 := by
  refine ⟨fun p hp => ?_, rfl⟩
  simp only [readDesc, List.mem_cons, List.not_mem_nil, or_false] at hp
  obtain rfl | rfl | rfl | rfl := hp <;> exact Nat.mod_lt _ (by decide)

/-- The handle of an entry of a context (R172). -/
theorem handleOf_toNat {f : FamRef} (hc : f.ctx < 16) (he : f.entry < 16) (seq : Nat) :
    (handleOf f seq).toNat = 2 ^ 31 + seq % 256 * 2 ^ 12 + f.core % 16 * 256 + f.ctx * 16 + f.entry := by
  rw [handleOf, BitVec.toNat_ofNat, Nat.mod_eq_of_lt]
  omega

/-! ## The instruction -/

theorem execFcreate_asks {s : State} {d a : XReg} {p : Phys} {g : Nat} {h : Bool} (ok : s.misuse [a] [d] = false) (fresh : s.descNow = none)
    (acc : s.access s.iss.core (s.rd a) 64 64 false [0] true false = .ok p g h) (near : p.home = .core s.iss.core ∨ coreOf p.home = none)
    (free : s.holdsBack p.key 64 = false) : exec (.fcreate d a) s = .next (s.descAsk p (s.rd a)) := by
  have local_ : ¬(p.home ≠ .core s.iss.core ∧ (coreOf p.home).isSome = true) := by
    rintro ⟨far, core⟩
    rw [near.resolve_left far] at core
    exact Bool.false_ne_true core
  show execFcreate d a s = _
  simp only [execFcreate, ok, fresh, acc, free, if_neg local_]
  rfl

theorem execFcreate_creates {s : State} {d a : XReg} {q : DescRead} (ok : s.misuse [a] [d] = false) (desc : s.descNow = some q) (done : q.done = true) :
    exec (.fcreate d a) s = s.create a d (s.rd a) q := by
  show execFcreate d a s = _
  simp only [execFcreate, ok, desc, done]
  rfl

theorem State.create_makes {s : State} {a d : XReg} {va : Word} {q : DescRead} (whole : q.bad = false) (good : s.descBad q.word (readDesc va q.word) = false)
    (free : s.targetPends (readDesc va q.word) = false)
    (linked : ∀ i < (readDesc va q.word).links, s.cur.fe.getLsbD (11 + i) = true ∧ s.cur.pend.getLsbD (11 + i) = false) :
    s.create a d va q = .next (s.makeFamily a d (readDesc va q.word)) := by
  have come : ((List.range (readDesc va q.word).links).any fun k => s.cur.pend.getLsbD (11 + k) && s.cur.fe.getLsbD (11 + k)) = false := by
    rw [List.any_eq_false]
    intro k hk
    simp [linked k (List.mem_range.1 hk)]
  have full : ((List.range (readDesc va q.word).links).any fun k => !s.cur.fe.getLsbD (11 + k)) = false := by
    rw [List.any_eq_false]
    intro k hk
    simp [linked k (List.mem_range.1 hk)]
  simp only [State.create, whole, good, free, come, full]
  rfl

/-- Settles O39: the descriptor is asked for; with it, the checks in their order, then the family in a free entry, whose parent targets wait
or, of no member, hold what they get. -/
theorem fcreateResult : Obligations.FcreateResult := by
  intro s d a ok va
  refine ⟨fun p g h fresh acc near free => ?_, fun q desc done => ?_⟩
  · have cur : (s.descAsk p va).cur = { s.cur with
        desc := s.cur.desc ++ [{ upc := s.iss.upc, level := s.cur.level, words := List.replicate 8 none }], st := .desc } := by
      rw [State.descAsk, State.cur_onCur, State.issueReq_cur]
    refine ⟨_, execFcreate_asks ok fresh acc near free, issued_after_pops (l := []) rfl rfl, ?_, ?_, ?_, fun b => ?_, fun r _ => ?_⟩
    · rw [cur]
    · rw [cur]
    · rw [cur]
    · rw [State.descAsk, State.onCur_mem, State.issueReq_mem]
    · rw [cur]
      rfl
  · intro k linked
    have run := execFcreate_creates ok desc done
    refine ⟨fun bad => ?_, fun whole bad => ?_, fun whole good pends => ?_, fun whole good free all hc hx => ?_⟩
    · rw [run, State.create, if_pos bad]
      rfl
    · rw [run, State.create, if_neg (by simp [whole]), if_pos bad]
      rfl
    · rw [run, State.create, if_neg (by simp [whole]), if_neg (by rw [good]; exact Bool.false_ne_true), if_pos pends]
    · obtain ⟨codes, four⟩ := readDesc_targets va q.word
      obtain ⟨entry, dead⟩ := State.newRef_free (State.descBad_few good)
      obtain ⟨u, made, mem, iss, cur, fams⟩ := s.makeFamily_eq a d k
      rw [State.create_makes whole good free all, made] at run
      obtain ⟨x, b, fe, rest⟩ := s.cur.creates_frame k
      have names (r : XReg) : u.cur.tag r = s.cur.tag r := by
        rw [cur, rest]
        exact Ctx.tag_congr rfl rfl rfl r
      have map : u.cur.mapped d = s.cur.mapped d := by
        rw [cur, rest]
        exact Ctx.mapped_congr rfl rfl rfl d
      set v := handleOf s.newRef (s.newFam k).seq with hv
      obtain ⟨world, -, -, -, regs, fulls⟩ := unitFrame_wr id u d v
      obtain ⟨wmem, wframe, wcount, -⟩ := u.wr_keeps d v
      set t := (u.wr d v).retire with ht
      have tfams : t.fams = u.fams := (congrArg State.fams world :)
      have made_eq : t.fam s.newRef = s.newFam k := by
        rw [State.fam, tfams, fams]
        exact tabGet_tabSet_same ..
      refine ⟨t, s.newRef, v, run, rfl, rfl, entry, dead, ?_⟩
      rw [made_eq]
      refine ⟨rfl, rfl, rfl, rfl, rfl, fun i hi => ?_, rfl, fun e he => ?_, ?_, fun y => ?_, ?_, rfl, fun hm hd => ?_, fun i hi => ?_⟩
      · exact List.mem_map.2 ⟨i, List.mem_range.2 hi, rfl⟩
      · rw [State.fam, tfams, fams]
        exact tabGet_tabSet_ne _ _ _ he
      · exact retired_retire ((State.wr_iss ..).trans iss) (by rw [wframe, cur, rest]) (by rw [wcount, cur, rest])
      · rw [ht, State.retire, State.onCur_mem, wmem, mem]
      · exact handleOf_toNat hx entry _
      · rw [ht, State.retire_cur, Ctx.retire_regAt, ← names d]
        exact u.wr_regAt v (map.trans hm) hd
      · intro r hr apart
        have other : s.cur.tag r ∉ [u.cur.tag d] := by simpa [names] using apart
        have reg : t.cur.regAt (s.cur.tag r) = (s.cur.creates k).regAt (s.cur.tag r) := by
          rw [ht, State.retire_cur, Ctx.retire_regAt, regs _ other, cur]
        have full : t.cur.fe.getLsbD (s.cur.tag r) = (s.cur.creates k).fe.getLsbD (s.cur.tag r) := by
          rw [ht, State.retire_cur, Ctx.retire_fe, (fulls _ (s.cur.tag_lt r) other).1, cur]
        rw [reg, full]
        exact ⟨fun some => creates_empties four some hi hr, fun empty li last => creates_links codes four empty hi hr li last,
          fun empty fi apart' => creates_zeroes codes four empty hi hr fi apart'⟩

end Sys2Proof.Machine
end

section
/-! PROOF. Members start, run inline, migrate and finish (R33 to R39, R47, R48). -/

namespace Sys2Proof.Machine

open Sys2Proof

/-! ## Migration (R47, R48, R200) -/

/-- A migration whose load has found its word. -/
def Migration.found (m : Migration) (v : Word) (bad : Bool) : Migration := { m with got := some (v, bad) }

theorem homePerform_mig {s : State} {q : Req} {n : Nat} (here : s.req q.id = some q) (op : q.op = .mig) (home : q.home = .core n)
    (come : q.st = 1 ∨ q.st = 3) (front : s.behind q = false) (turn : s.turnOf q = true) (admitted : s.refused q = false)
    (free : s.meetsOwned q 0 = false) :
    ∃ t : State, exec (.homePerform (.core n) q.id 0) s = .next t ∧ t.req q.id = none ∧ SameBytes s t ∧
      ∀ m ∈ s.migs, m.uid = q.uid → m.found (BitVec.ofNat 64 (memNat s.mem q.addr 8)) (s.poisoned q.addr) ∈ t.migs := by
  have free' : (s.onReq q.id fun _ => q).meetsOwned q 0 = false := by
    simp only [State.meetsOwned, op, State.spots] at free ⊢
    exact free
  have run := execHomePerform_performs (j := 0) here come front turn (by simp [State.begin, op]) free' admitted
  have words : q.written 0 = [] := by simp [Req.written, op]
  have clean (u : State) : u.taint q 0 = u := by simp [State.taint, words]
  rw [home, clean] at run
  refine ⟨_, run, ?_, fun a => ?_, fun m hm hu => ?_⟩ <;> simp only [State.performAt, op]
  · exact State.dropReq_req ..
  · rfl
  · exact List.mem_map.2 ⟨m, hm, if_pos hu⟩

/-- The state that a migration has left its list in, with its packets received. -/
def State.migrated (s : State) (i : Nat) (m : Migration) : State :=
  State.onCore { s with migs := s.migs.eraseIdx i } m.toCore fun c => { c with recv := c.recv + 1 }

theorem State.migrated_ctxAt (s : State) (i : Nat) (m : Migration) (n x : Nat) : (s.migrated i m).ctxAt n x = s.ctxAt n x :=
  State.ctxAt_onCore_keep _ rfl n x

/-- The context of a thread that migrates as its slot gets it: the word is in its register and tp names the slot. -/
def Migration.arrives (m : Migration) (v : Word) : Ctx :=
  ((m.ctx.setRegAt m.reg v).markFull m.reg).setRegAt 4
    ((((m.ctx.setRegAt m.reg v).markFull m.reg).regAt 4 >>> 8 <<< 8) ||| BitVec.ofNat 64 (ident m.toCore m.toCtx % 256))

/-- A word whose low byte is replaced. -/
theorem lowByte_replaced (w : Word) {b : Nat} (h : b < 256) :
    ((w >>> 8 <<< 8) ||| BitVec.ofNat 64 b).toNat % 256 = b ∧ ((w >>> 8 <<< 8) ||| BitVec.ofNat 64 b).toNat / 256 = w.toNat / 256 := by
  have l := w.isLt
  have hi : w.toNat >>> 8 <<< 8 < 2 ^ 64 := by
    rw [Nat.shiftRight_eq_div_pow, Nat.shiftLeft_eq]
    omega
  have e : ((w >>> 8 <<< 8) ||| BitVec.ofNat 64 b).toNat = w.toNat / 256 * 256 + b := by
    rw [BitVec.toNat_or, BitVec.toNat_shiftLeft, BitVec.toNat_ushiftRight, BitVec.toNat_ofNat, Nat.mod_eq_of_lt hi, Nat.mod_eq_of_lt (by omega),
      ← Nat.shiftLeft_add_eq_or_of_lt (by simpa using h), Nat.shiftRight_eq_div_pow, Nat.shiftLeft_eq]
  rw [e]
  omega

theorem Migration.arrives_registers (m : Migration) (v : Word) (lt : m.reg < 48) (four : m.reg ≠ 4) :
    (m.arrives v).regAt m.reg = v ∧ ((m.arrives v).regAt 4).toNat % 256 = (m.toCore * 16 + m.toCtx) % 256 ∧
      ((m.arrives v).regAt 4).toNat / 256 = (m.ctx.regAt 4).toNat / 256 ∧ ∀ r, r ≠ 4 → r ≠ m.reg → (m.arrives v).regAt r = m.ctx.regAt r := by
  have tp : ((m.ctx.setRegAt m.reg v).markFull m.reg).regAt 4 = m.ctx.regAt 4 := Ctx.regAt_setRegAt_ne _ _ (Ne.symm four)
  obtain ⟨low, high⟩ := lowByte_replaced (m.ctx.regAt 4) (b := ident m.toCore m.toCtx % 256) (Nat.mod_lt _ (by decide))
  rw [← tp] at low high
  refine ⟨?_, ?_, ?_, fun r h4 hr => ?_⟩
  · rw [Migration.arrives, Ctx.regAt_setRegAt_ne _ _ four]
    exact Ctx.regAt_setRegAt_same _ lt v
  · rw [Migration.arrives, Ctx.regAt_setRegAt_same _ (by decide)]
    exact low
  · rw [Migration.arrives, Ctx.regAt_setRegAt_same _ (by decide), ← tp]
    exact high
  · rw [Migration.arrives, Ctx.regAt_setRegAt_ne _ _ h4]
    exact Ctx.regAt_setRegAt_ne _ _ hr

theorem execMigrationInstall_installs {s : State} {i : Nat} {m : Migration} {v : Word} (here : s.migs[i]? = some m) (got : m.got = some (v, false))
    (pos : 0 < m.reg) : ∃ t : State, exec (.migrationInstall i) s = .next t ∧
      t.migs = s.migs.eraseIdx i ∧ t.mem = s.mem ∧ t.cores = ((s.migrated i m).onCtx m.toCore m.toCtx fun _ => m.arrives v).cores := by
  cases e : m.ctx.fam with
  | none =>
    refine ⟨(s.migrated i m).onCtx m.toCore m.toCtx fun _ => m.arrives v, ?_, rfl, rfl, rfl⟩
    show execMigrationInstall i s = _
    simp only [execMigrationInstall, here, got, if_neg pos.ne', Ctx.setRegAt_fam, Ctx.markFull_fam, e]
    rfl
  | some f =>
    refine ⟨((s.migrated i m).onCtx m.toCore m.toCtx fun _ => m.arrives v).onFam f fun g => { g with running := g.running.map fun r =>
      if r.2.2.2 = m.uid then (r.1, m.toCore, m.toCtx, m.uid) else r }, ?_, rfl, rfl, rfl⟩
    show execMigrationInstall i s = _
    simp only [execMigrationInstall, here, got, if_neg pos.ne', Ctx.setRegAt_fam, Ctx.markFull_fam, e]
    rfl

theorem execMigrationInstall_faults {s : State} {i : Nat} {m : Migration} {v : Word} (here : s.migs[i]? = some m) (got : m.got = some (v, true)) :
    exec (.migrationInstall i) s = .next (((s.migrated i m).onCtx m.fromCore m.fromCtx fun _ =>
      { m.ctx with pc := m.upc, instret := m.ctx.instret - 1 }).threadFault m.fromCore m.fromCtx 0x0F (BitVec.ofNat 64 m.addr) m.upc) := by
  show execMigrationInstall i s = _
  simp only [execMigrationInstall, here, got]
  rfl

/-! ## What a member starts with (R35) -/

/-- Register t of a file. -/
def fileAt (x : Vector Word 48) (t : Nat) : Word := x.toList.getD t 0

theorem fileAt_set (x : Vector Word 48) (i t : Nat) (v : Word) : fileAt (x.set! i v) t = if t = i ∧ i < 48 then v else fileAt x t := by
  let c : Ctx := { Ctx.empty with x := x }
  split
  next h =>
    rw [h.1]
    exact c.regAt_setRegAt_same h.2 v
  next h =>
    by_cases e : t = i
    · have out : 48 ≤ t := by omega
      simp [fileAt, out]
    · exact c.regAt_setRegAt_ne v e

theorem fileAt_zero (t : Nat) : fileAt (Vector.replicate 48 0) t = 0 := by
  simp only [fileAt, Vector.toList_replicate, List.getD_eq_getElem?_getD, List.getElem?_replicate]
  split <;> rfl

/-- The linked value a member gets in place k. -/
def Fam.link (g : Fam) (n k : Nat) : Word :=
  if k < g.desc.links then ((g.held.find? fun h => h.1 == n && h.2.1 == k).map (·.2.2)).getD 0 else 0

theorem memberRegs_eq (g : Fam) (n idn : Nat) : memberRegs g n idn = ((((((((Vector.replicate 48 (0 : Word)).set! 10 (g.desc.index n)).set! 11
    (g.link n 0)).set! 12 (g.link n 1)).set! 13 (g.link n 2)).set! 14 (g.link n 3)).set! 15 g.desc.arg).set! 4 (BitVec.ofNat 64 idn)) := rfl

/-- a0 to a5 and tp are a member's; every other register is 0. -/
theorem memberRegs_at (g : Fam) (n idn : Nat) :
    fileAt (memberRegs g n idn) 10 = g.desc.index n ∧ fileAt (memberRegs g n idn) 15 = g.desc.arg ∧
      fileAt (memberRegs g n idn) 4 = BitVec.ofNat 64 idn ∧ (∀ j < 4, fileAt (memberRegs g n idn) (11 + j) = g.link n j) ∧
      ∀ r, r ∉ [4, 10, 11, 12, 13, 14, 15] → fileAt (memberRegs g n idn) r = 0 := by
  rw [memberRegs_eq]
  simp only [fileAt_set, fileAt_zero]
  refine ⟨by simp, by simp, by simp, fun j hj => ?_, fun r hr => ?_⟩
  · obtain rfl | rfl | rfl | rfl : j = 0 ∨ j = 1 ∨ j = 2 ∨ j = 3 := by omega
    all_goals simp
  · simp only [List.mem_cons, List.not_mem_nil, or_false, not_or] at hr
    simp [hr]

/-- Full bits that a list of places empties. -/
theorem emptied_bits (p : Nat → Bool) (l : List Nat) (fe : BitVec 48) (t : Nat) :
    (l.foldl (fun fe k => if p k then fe &&& ~~~ (1#48 <<< (11 + k)) else fe) fe).getLsbD t =
      (fe.getLsbD t && !(l.any fun k => p k && 11 + k == t)) := by
  induction l generalizing fe with
  | nil => simp
  | cons k l ih =>
    rw [List.foldl_cons, ih, List.any_cons]
    cases p k with
    | false => simp
    | true =>
      by_cases e : 11 + k = t
      · simp [e]
      · have other : (11 + k == t) = false := by simpa using e
        have stays : (fe &&& ~~~ (1#48 <<< (11 + k))).getLsbD t = fe.getLsbD t := Ctx.markEmpty_fe_ne { Ctx.empty with fe := fe } (Ne.symm e)
        simp [stays, other]

theorem memberFe_at (g : Fam) (n : Nat) {j : Nat} (h : j < 4) :
    (memberFe g n).getLsbD (11 + j) = !(decide (j < g.desc.links) && !(g.held.any fun h => h.1 == n && h.2.1 == j)) := by
  rw [memberFe, emptied_bits]
  obtain rfl | rfl | rfl | rfl : j = 0 ∨ j = 1 ∨ j = 2 ∨ j = 3 := by omega
  all_goals simp [List.range_succ]

/-! ## MEMBER_START (R34) -/

theorem State.freeSlot_some {s : State} {n x : Nat} (h : s.freeSlot n = some x) : 1 ≤ x ∧ x ≤ 15 ∧ (s.ctxAt n x).uid = 0 := by
  obtain ⟨i, hi, e⟩ := List.exists_of_findSome?_eq_some h
  have lt := List.mem_range.1 hi
  split at e
  next free =>
    obtain rfl := Option.some.inj e
    exact ⟨by omega, by omega, free.1⟩
  · cases e

/-- What a start needs (R34): a member, a slot of its core, and tiles that no context of it leases. -/
theorem State.canStart_some {s : State} {f : FamRef} {n tgt slot : Nat} {lease : List Nat} (h : s.canStart f = some (n, tgt, slot, lease)) :
    n = s.nextMember f ∧ n < (s.fam f).desc.count ∧ s.freeSlot tgt = some slot ∧ (s.teamOf tgt).faulted = false ∧
      lease.length = (s.fam f).desc.vclass ∧ ∀ q ∈ lease, q ∈ (s.core tgt).freeTiles := by
  unfold State.canStart at h
  dsimp only at h
  split at h
  · cases h
  split at h
  · cases h
  next count =>
    split at h
    · cases h
    next room =>
      obtain ⟨x, free, e⟩ := Option.map_eq_some_iff.1 h
      simp only [Prod.mk.injEq] at e
      obtain ⟨rfl, rfl, rfl, rfl⟩ := e
      simp only [Nat.not_le, Bool.not_eq_true, Bool.or_eq_false_iff, decide_eq_false_iff_not, Nat.not_lt] at room count
      refine ⟨rfl, count, free, room.2, ?_, fun q hq => List.mem_of_mem_take hq⟩
      rw [List.length_take]
      omega

/-- A perforated family that goes to Grout keeps its members, and every core. -/
theorem State.toGrout_keeps (s : State) (f : FamRef) :
    (s.toGrout f).mem = s.mem ∧ (s.toGrout f).cores = s.cores ∧ (s.toGrout f).reqs = s.reqs ∧ ((s.toGrout f).fam f).running = (s.fam f).running := by
  unfold State.toGrout
  dsimp only
  split
  · split
    · exact ⟨rfl, rfl, rfl, by rw [State.fam_onFam]⟩
    · exact ⟨rfl, rfl, rfl, rfl⟩
  · exact ⟨rfl, rfl, rfl, rfl⟩

/-- A member that starts receives the linked values held for it: at most the core's L1 view goes. -/
theorem State.takesLinks_keeps (s : State) (g : Fam) (m n : Nat) : (s.takesLinks g m n).mem = s.mem ∧ (s.takesLinks g m n).fams = s.fams ∧
    (s.takesLinks g m n).reqs = s.reqs ∧ (∀ c x, (s.takesLinks g m n).ctxAt c x = s.ctxAt c x) ∧
      ∀ c, ((s.takesLinks g m n).core c).tiles = (s.core c).tiles := by
  unfold State.takesLinks
  split
  · refine ⟨rfl, rfl, rfl, fun c x => State.ctxAt_onCore_keep _ rfl c x, fun c => ?_⟩
    by_cases e : c = n
    · rw [e, State.core_onCore_same]
      rfl
    · rw [State.core_onCore_ne _ _ e]
  · exact ⟨rfl, rfl, rfl, fun _ _ => rfl, fun _ => rfl⟩

theorem State.badLinks_clean (s : State) {g : Fam} {m : Nat} (h : ∀ z ∈ g.heldBad, z.1 ≠ m) (n x : Nat) : s.badLinks g m n x = s := by
  refine if_neg ?_
  simpa using fun a m => h (_, a) m rfl

/-- A family whose member n runs in context x of core c, listed under y. -/
def State.enrolled (s : State) (f : FamRef) (g : Fam) (n c x y uid : Nat) : State :=
  (((s.takesLinks g n c).badLinks g n c x).onFam f fun g =>
    { g with next := n + 1, running := g.running ++ [(n, c, y, uid)], held := g.held.filter (·.1 != n) }).walked f

theorem State.enrolled_keeps (s : State) (f : FamRef) {g : Fam} {n : Nat} (clean : ∀ z ∈ g.heldBad, z.1 ≠ n) (c x y uid : Nat) :
    let t := s.enrolled f g n c x y uid
    t.mem = s.mem ∧ t.reqs = s.reqs ∧ (∀ m z, t.ctxAt m z = s.ctxAt m z) ∧ (∀ m, (t.core m).tiles = (s.core m).tiles) ∧
      (n, c, y, uid) ∈ (t.fam f).running ∧ ((s.fam f).desc.perf = false → (t.fam f).next = n + 1) := by
  obtain ⟨mem, fams, reqs, ctxs, tiles⟩ := s.takesLinks_keeps g n c
  set a := (s.takesLinks g n c).onFam f fun g => { g with next := n + 1, running := g.running ++ [(n, c, y, uid)], held := g.held.filter (·.1 != n) } with ha
  have listed : a.fam f = { s.fam f with next := n + 1, running := (s.fam f).running ++ [(n, c, y, uid)], held := (s.fam f).held.filter (·.1 != n) } := by
    rw [ha, State.fam_onFam, State.fam, fams]
    rfl
  obtain ⟨gmem, gcores, greqs, grun⟩ := (a.onFam f fun g => { g with next := a.nextMember f }).toGrout_keeps f
  have e : s.enrolled f g n c x y uid = (a.onFam f fun g => { g with next := a.nextMember f }).toGrout f := by
    rw [State.enrolled, State.badLinks_clean _ clean, State.walked]
  rw [e]
  refine ⟨gmem.trans mem, greqs.trans reqs, fun m z => ?_, fun m => ?_, ?_, fun plain => ?_⟩
  · rw [State.ctxAt, State.core, gcores]
    exact ctxs m z
  · rw [State.core, gcores]
    exact tiles m
  · rw [grun, State.fam_onFam, listed]
    exact List.mem_append_right _ (List.mem_singleton.2 rfl)
  · have perf : (a.fam f).desc.perf = false := by rw [listed]; exact plain
    rw [State.toGrout_plain (by rw [State.fam_onFam]; exact perf), State.fam_onFam]
    show a.nextMember f = n + 1
    simp only [State.nextMember, perf]
    rw [listed]
    rfl

/-- The context of a member that starts in a slot (R35). -/
def State.startCtx (s : State) (f : FamRef) (n tgt slot : Nat) (lease : List Nat) : Ctx :=
  let g := s.fam f
  let probe := (g.skips (s.bellows f.core g.desc.bctx).salt n).2
  { Ctx.empty with uid := s.nextUid, x := memberRegs g n (ident tgt slot + if probe then 2 ^ 63 else 0), fe := memberFe g n,
                   pc := (s.core tgt).abase + BitVec.ofNat 64 g.desc.entry, kind := 1, member := n, fam := some f, probe := probe, lease := lease }

/-- Leased tiles begin as f32 (R14, R35). -/
def Core.leases (lease : List Nat) (c : Core) : Core := lease.foldl (fun q t => q.setTile t { q.tile t with ty := 1 }) c

theorem execMemberStart_starts {s : State} {c x e n tgt slot : Nat} {lease : List Nat}
    (can : s.canStart { core := c, ctx := x, entry := e } = some (n, tgt, slot, lease)) (first : s.outranked { core := c, ctx := x, entry := e } tgt = false) :
    exec (.memberStart c x e) s = .next (((State.onCtx { s with nextUid := s.nextUid + 1 } tgt slot fun _ =>
      s.startCtx { core := c, ctx := x, entry := e } n tgt slot lease).onCore tgt (Core.leases lease)).enrolled { core := c, ctx := x, entry := e }
        (s.fam { core := c, ctx := x, entry := e }) n tgt slot slot s.nextUid) := by
  show execMemberStart c x e s = _
  simp only [execMemberStart, can, first]
  rfl

theorem Core.leases_keeps (lease : List Nat) (c : Core) : (c.leases lease).ctxs = c.ctxs := by
  induction lease generalizing c with
  | nil => rfl
  | cons t l ih => exact ih (c.setTile t { c.tile t with ty := 1 })

theorem Core.leases_ty (lease : List Nat) (c : Core) {q : Nat} (h : q ∈ lease ∨ (c.tile q).ty = 1) : ((c.leases lease).tile q).ty = 1 := by
  induction lease generalizing c with
  | nil => exact h.resolve_left List.not_mem_nil
  | cons t l ih =>
    refine ih (c.setTile t { c.tile t with ty := 1 }) ?_
    by_cases e : q = t
    · right
      rw [e, Core.tile, Core.setTile, tabGet_tabSet_same]
    · refine h.imp (fun m => (List.mem_cons.1 m).resolve_left e) fun ty => ?_
      rwa [Core.tile, Core.setTile, tabGet_tabSet_ne _ _ _ e]

theorem State.startCtx_registers (s : State) (f : FamRef) (n tgt slot : Nat) (lease : List Nat) :
    let k := s.startCtx f n tgt slot lease
    let g := s.fam f
    k.regAt 10 = g.desc.index n ∧ k.regAt 15 = g.desc.arg ∧ (g.coverage = none → k.regAt 4 = BitVec.ofNat 64 (tgt * 16 + slot)) ∧
      (∀ r, r ∉ [4, 10, 11, 12, 13, 14, 15] → k.regAt r = 0) ∧
      (∀ j < 4, g.desc.links ≤ j → k.regAt (11 + j) = 0 ∧ k.fe.getLsbD (11 + j) = true) ∧
      ∀ j < 4, j < g.desc.links → (∀ h ∈ g.held, ¬(h.1 = n ∧ h.2.1 = j)) → k.fe.getLsbD (11 + j) = false := by
  intro k g
  obtain ⟨index, arg, tp, links, zero⟩ := memberRegs_at g n (ident tgt slot + if (g.skips (s.bellows f.core g.desc.bctx).salt n).2 then 2 ^ 63 else 0)
  refine ⟨index, arg, fun plain => tp.trans ?_, zero, fun j hj free => ⟨(links j hj).trans (if_neg (by omega)), ?_⟩, fun j hj linked none => ?_⟩
  · have point : (g.skips (s.bellows f.core g.desc.bctx).salt n).2 = false := by simp only [Fam.skips, plain]
    rw [point]
    rfl
  · refine (memberFe_at g n hj).trans ?_
    simp [Nat.not_lt.2 free]
  · refine (memberFe_at g n hj).trans ?_
    have unheld : (g.held.any fun h => h.1 == n && h.2.1 == j) = false := by
      rw [List.any_eq_false]
      intro h hh
      simpa using none h hh
    simp [linked, unheld]

/-- A member starts in the lowest free slot of its core, with free tiles for its lease. -/
theorem memberStart_starts {s : State} {c x e n tgt slot : Nat} {lease : List Nat} :
    let f : FamRef := { core := c, ctx := x, entry := e }
    let g := s.fam f
    s.canStart f = some (n, tgt, slot, lease) → s.outranked f tgt = false → (∀ h ∈ g.heldBad, h.1 ≠ n) →
      ∃ t : State, exec (.memberStart c x e) s = .next t ∧ t.ctxAt tgt slot = s.startCtx f n tgt slot lease ∧
        (n, tgt, slot, s.nextUid) ∈ (t.fam f).running ∧ (g.desc.perf = false → (t.fam f).next = n + 1) ∧
        (∀ q ∈ lease, ((t.core tgt).tile q).ty = 1) ∧ (∀ m y, m ≠ tgt ∨ y ≠ slot → t.ctxAt m y = s.ctxAt m y) ∧ SameBytes s t := by
  intro f g can first clean
  set a := (State.onCtx { s with nextUid := s.nextUid + 1 } tgt slot fun _ => s.startCtx f n tgt slot lease).onCore tgt (Core.leases lease) with ha
  obtain ⟨mem, -, ctxs, tiles, listed, next⟩ := a.enrolled_keeps f clean tgt slot slot s.nextUid
  have keep := State.ctxAt_onCore_keep (State.onCtx { s with nextUid := s.nextUid + 1 } tgt slot fun _ => s.startCtx f n tgt slot lease)
    (n := tgt) (Core.leases_keeps lease _)
  refine ⟨_, execMemberStart_starts can first, ?_, listed, next, fun q hq => ?_, fun m y other => ?_, fun b => congrArg (memGet · b) mem⟩
  · rw [ctxs, ha, keep, State.ctxAt_onCtx_same]
  · rw [Core.tile, tiles, ha, State.core_onCore_same]
    exact Core.leases_ty lease _ (.inl hq)
  · rw [ctxs, ha, keep, State.ctxAt_onCtx_ne _ _ other]
    rfl

/-! ## FAMILY_FINISH (R37) -/

/-- A parent target still empty is filled with 0. -/
def Ctx.zeroed (c : Ctx) (t : Nat) : Ctx := if t = 0 ∨ c.fe.getLsbD t then c else { c.land t 0 with st := if c.st = .linked then .run else c.st }

theorem Ctx.zeroed_frame {c : Ctx} (h : c.st ≠ .linked) (t : Nat) : ∃ x b f, c.zeroed t = { c with x := x, bad := b, fe := f } := by
  have awake : c.woken = c := by rw [Ctx.woken, if_neg h]
  unfold Ctx.zeroed
  split
  · exact ⟨_, _, _, rfl⟩
  next empty =>
    rw [Ctx.land_pos c (Nat.pos_of_ne_zero fun e => empty (.inl e)), awake]
    exact ⟨_, _, _, rfl⟩

theorem Ctx.zeroed_full (c : Ctx) {t p : Nat} (pos : 0 < p) (lt : p < 48) (h : t = p ∨ c.fe.getLsbD p = true) : (c.zeroed t).fe.getLsbD p = true := by
  unfold Ctx.zeroed
  split
  next full => exact h.elim (fun e => e ▸ full.resolve_left (e ▸ pos.ne')) id
  next empty =>
    by_cases e : t = p
    · rw [e]
      exact Ctx.land_full c pos lt 0
    · rw [Ctx.land_pos c (Nat.pos_of_ne_zero fun z => empty (.inl z))]
      exact (Ctx.markFull_fe_ne _ (Ne.symm e)).trans (h.resolve_left e)

/-- Where the creator runs, its parent targets are filled in its context. -/
theorem State.zeroTargets_runs {s : State} {u n y : Nat} (h : s.whereIs u = some (n, y)) (busy : (s.ctxAt n y).st ≠ .linked) (l : List Nat) :
    let t := l.foldl (fun s p => s.zeroTarget u p) s
    t.mem = s.mem ∧ t.fams = s.fams ∧ t.whereIs u = some (n, y) ∧ (∃ x b f, t.ctxAt n y = { s.ctxAt n y with x := x, bad := b, fe := f }) ∧
      ∀ p, 0 < p → p < 48 → p ∈ l ∨ (s.ctxAt n y).fe.getLsbD p = true → (t.ctxAt n y).fe.getLsbD p = true := by
  induction l generalizing s with
  | nil => exact ⟨rfl, rfl, h, ⟨_, _, _, rfl⟩, fun p _ _ m => m.resolve_left List.not_mem_nil⟩
  | cons q l ih =>
    have e : s.zeroTarget u q = s.onCtx n y (·.zeroed q) := by simp only [State.zeroTarget, h, Ctx.zeroed]
    obtain ⟨x, b, f, ctx⟩ := Ctx.zeroed_frame busy q
    have after : (s.onCtx n y (·.zeroed q)).ctxAt n y = { s.ctxAt n y with x := x, bad := b, fe := f } := (State.ctxAt_onCtx_same ..).trans ctx
    obtain ⟨mem, fams, runs, ⟨x', b', f', ctx'⟩, full⟩ := ih (s := s.onCtx n y (·.zeroed q)) (State.whereIs_onCtx h (by rw [ctx])) (by rw [after]; exact busy)
    simp only [List.foldl_cons, e]
    refine ⟨mem, fams, runs, ⟨x', b', f', ctx'.trans (by rw [after])⟩, fun p pos lt m => full p pos lt ?_⟩
    rw [State.ctxAt_onCtx_same]
    rcases m with m | m
    · rcases List.mem_cons.1 m with rfl | m
      · exact .inr (Ctx.zeroed_full _ pos lt (.inl rfl))
      · exact .inl m
    · exact .inr (Ctx.zeroed_full _ pos lt (.inr m))

theorem State.gangClose_plain {s : State} {f : FamRef} (h : (s.fam f).desc.gang = false) : s.gangClose f = s := by
  simp [State.gangClose, h]

/-- The family as FAMILY_FINISH finds it finished. -/
def State.finishing (s : State) (f : FamRef) : State := if (s.fam f).finished then s else s.famFinish f

theorem State.finishing_keeps {s : State} {f : FamRef} {n y : Nat} (h : s.whereIs (s.fam f).uid = some (n, y)) (busy : (s.ctxAt n y).st ≠ .linked)
    (plain : (s.fam f).desc.gang = false) :
    (s.finishing f).mem = s.mem ∧ (s.finishing f).whereIs (s.fam f).uid = some (n, y) ∧
      (∃ x b fe, (s.finishing f).ctxAt n y = { s.ctxAt n y with x := x, bad := b, fe := fe }) ∧
      ((s.fam f).finished = false → ∀ p ∈ (s.fam f).desc.pts, 0 < p → p < 48 → ((s.finishing f).ctxAt n y).fe.getLsbD p = true) := by
  unfold State.finishing
  split
  next done => exact ⟨rfl, h, ⟨_, _, _, rfl⟩, fun e => absurd (e.symm.trans done) Bool.false_ne_true⟩
  next =>
    obtain ⟨mem, fams, runs, ctx, full⟩ := State.zeroTargets_runs h busy (s.fam f).desc.pts
    rw [State.famFinish, State.gangClose_plain]
    · exact ⟨mem, runs, ctx, fun _ p hp pos lt => full p pos lt (.inl hp)⟩
    · rw [State.fam, fams]
      exact plain

/-- The status word (R37): the break index and its mark, and how the family ended. -/
theorem Fam.status_value (g : Fam) : g.status = BitVec.ofNat 64 ((match g.brk with | some m => m * 2 ^ 32 + 4 | none => 0) +
    (if g.marked then 3 else if g.killed then 2 else if g.brk.isSome then 1 else 0)) := by
  unfold Fam.status
  cases g.brk <;> simp

theorem Ctx.syncDone_waits (c : Ctx) {w : SyncWait} (pos : 0 < w.dst) (lt : w.dst < 48) (v : Word) :
    c.syncDone w false v = { ((c.setRegAt w.dst v).markFull w.dst).retire w.npc with st := .run, sync := none } := by
  have register : ¬(w.dst = 0 ∨ 48 ≤ w.dst) := by omega
  simp only [Ctx.syncDone, if_neg register]
  rfl

theorem execFamilyFinish_finishes {s : State} {c x e n y : Nat} {w : SyncWait} {f : FamRef} (hf : f = { core := c, ctx := x, entry := e })
    (live : (s.fam f).live = true) (ended : (s.fam f).over = true) (grouted : (s.fam f).grouted = true) (idle : s.famBusy f = false)
    (runs : (s.finishing f).whereIs (s.fam f).uid = some (n, y)) (waits : ((s.finishing f).ctxAt n y).waitsFor f = some (w, false)) (lt : w.dst < 48) :
    exec (.familyFinish c x e) s = .next ((((s.finishing f).onCtx n y fun k => k.syncDone w false (s.fam f).status).acquire n
      (if (s.fam f).desc.perf then 3 else widest (placeList c (s.fam f).desc.place (s.fam f).desc.cmask))).onFam f fun g => { g with live := false }) := by
  subst hf
  show execFamilyFinish c x e s = _
  simp only [State.finishing] at runs waits ⊢
  simp only [execFamilyFinish, live, ended, grouted, idle, runs, waits, if_neg (Nat.not_le.2 lt)]
  rfl

/-! ## INLINE_MEMBER_TAKE (R38, R39) -/

/-- The dword of a frame that names its depth and its full registers. -/
def frameFull (c : Ctx) (d : Nat) : Word :=
  BitVec.ofNat 64 (d * 2 ^ 16 + (List.range 16).foldl (fun a i => a + if i = 0 ∨ c.fe.getLsbD (c.tag (BitVec.ofNat 4 i)) then 2 ^ i else 0) 0)

/-- A sum of distinct powers of two has those bits. -/
theorem bits_of_sum (p : Nat → Prop) [DecidablePred p] (n : Nat) :
    let a := (List.range n).foldl (fun a i => a + if p i then 2 ^ i else 0) 0
    a < 2 ^ n ∧ ∀ i < n, a.testBit i = decide (p i) := by
  induction n with
  | zero => exact ⟨Nat.one_pos, fun i hi => absurd hi (Nat.not_lt_zero i)⟩
  | succ n ih =>
    obtain ⟨lt, bits⟩ := ih
    rw [List.range_succ, List.foldl_append]
    set a := (List.range n).foldl (fun a i => a + if p i then 2 ^ i else 0) 0
    simp only [List.foldl_cons, List.foldl_nil]
    refine ⟨?_, fun i hi => ?_⟩
    · split <;> omega
    · by_cases e : i = n
      · subst e
        by_cases h : p i
        · rw [if_pos h, Nat.add_comm, Nat.testBit_two_pow_add_eq, Nat.testBit_lt_two_pow lt]
          simp [h]
        · rw [if_neg h, Nat.add_zero, Nat.testBit_lt_two_pow lt]
          simp [h]
      · have low : i < n := by omega
        rw [← bits i low]
        split
        · rw [Nat.add_comm, Nat.testBit_two_pow_add_gt low]
        · rfl

theorem frameFull_bit (c : Ctx) (d : Nat) {r : XReg} (h : r ≠ 0) : (frameFull c d).getLsbD r.toNat = c.fe.getLsbD (c.tag r) := by
  have pos : r.toNat ≠ 0 := fun e => h (BitVec.eq_of_toNat_eq e)
  have lt := r.isLt
  obtain ⟨small, bits⟩ := bits_of_sum (fun i => i = 0 ∨ c.fe.getLsbD (c.tag (BitVec.ofNat 4 i)) = true) 16
  have name : BitVec.ofNat 4 r.toNat = r := by simp
  rw [frameFull, BitVec.getLsbD_ofNat, Nat.mul_comm, Nat.testBit_two_pow_mul_add _ small, if_pos lt, bits _ lt, name]
  simp [pos, show r.toNat < 64 by omega]

/-- The words of a frame in their order. -/
theorem frameWords_at (c : Ctx) (upc : Word) (d : Nat) {i : Nat} (h : i < 32) : (frameWords c upc d)[i]? =
    some (if i < 16 then c.reg (BitVec.ofNat 4 i) else if i = 16 then upc else if i = 17 then frameFull c d else 0) := by
  have regs : ((List.range 16).map fun i => c.reg (BitVec.ofNat 4 i)).length = 16 := by simp
  have words : frameWords c upc d = ((List.range 16).map fun i => c.reg (BitVec.ofNat 4 i)) ++ ([upc, frameFull c d] ++ List.replicate 14 0) := by
    rw [← List.append_assoc]
    rfl
  rw [words, List.getElem?_append, regs]
  split
  next low => simp [low]
  next high =>
    obtain rfl | rfl | late : i = 16 ∨ i = 17 ∨ 18 ≤ i := by omega
    · rfl
    · rfl
    · have place : i - 16 - 2 < 14 := by omega
      rw [List.getElem?_append_right (by simp; omega), if_neg (by omega), if_neg (by omega)]
      exact List.getElem?_replicate_of_lt place

/-- A store of a word of a frame on its way to the scratchpad (R39). -/
def Req.storesFrame (q : Req) (u c key : Nat) (v : Word) : Prop :=
  q.uid = u ∧ q.core = c ∧ q.cls = 0 ∧ q.st = 0 ∧ q.home = .core c ∧ q.addr = key ∧ q.op = .store (leBytes 8 v.toNat)

/-- A state with more requests on their way. -/
def State.withReqs (s : State) (rs : List Req) : State := { s with reqs := s.reqs ++ rs, nextReq := s.nextReq + rs.length }

theorem State.withReqs_withReqs (s : State) (a b : List Req) : (s.withReqs a).withReqs b = s.withReqs (a ++ b) := by
  simp only [State.withReqs, List.append_assoc, List.length_append, Nat.add_assoc]

theorem State.addReq_near (s : State) {r : Req} {c : Nat} (home : r.home = .core c) (core : r.core = c) : s.addReq r = s.withReqs [r] := by
  simp [State.addReq, home, core, coreOf, State.withReqs]

/-- One word of a frame goes out. -/
def State.storeWord (k : Ctx) (c x key : Nat) (upc : Word) (s : State) (w : Word × Nat) : State :=
  s.addReq { s.nextOf 0 (.core c) (key + 8 * w.2) (winAddr (key + 8 * w.2)) 0 false 0 (.store (leBytes 8 w.1.toNat)) with
    uid := k.uid, core := c, ctx := x, upc := upc, fam := k.fam, team := (s.core c).team }

theorem State.storeFrame_eq (s : State) (c x key : Nat) (upc : Word) (words : List Word) :
    ∃ rs, s.storeFrame c x key upc words = s.withReqs rs ∧ rs.length = words.length ∧
      ∀ (i : Nat) (v : Word), words[i]? = some v → ∃ q : Req, rs[i]? = some q ∧ q.storesFrame (s.ctxAt c x).uid c (key + 8 * i) v := by
  have walk : ∀ (k : Ctx) (l : List Word) (m : Nat) (s : State), ∃ rs, (l.zipIdx m).foldl (State.storeWord k c x key upc) s = s.withReqs rs ∧
      rs.length = l.length ∧ ∀ (i : Nat) (v : Word), l[i]? = some v → ∃ q : Req, rs[i]? = some q ∧ q.storesFrame k.uid c (key + 8 * (m + i)) v := by
    intro k l
    induction l with
    | nil => exact fun m s => ⟨[], by simp [State.withReqs], rfl, by simp⟩
    | cons w l ih =>
      intro m s
      obtain ⟨q, one, stores⟩ : ∃ q : Req, s.storeWord k c x key upc (w, m) = s.withReqs [q] ∧ q.storesFrame k.uid c (key + 8 * m) w :=
        ⟨_, State.addReq_near s rfl rfl, rfl, rfl, rfl, rfl, rfl, rfl, rfl⟩
      obtain ⟨rs, e, len, all⟩ := ih (m + 1) (s.withReqs [q])
      refine ⟨q :: rs, ?_, by simp [len], fun i v hv => ?_⟩
      · rw [List.zipIdx_cons, List.foldl_cons, one, e, State.withReqs_withReqs]
        rfl
      · cases i with
        | zero =>
          obtain rfl : w = v := by simpa using hv
          exact ⟨q, rfl, stores⟩
        | succ i =>
          obtain ⟨p, hp, ps⟩ := all i v (by simpa using hv)
          rw [Nat.add_assoc, Nat.add_comm 1 i] at ps
          exact ⟨p, by simpa using hp, ps⟩
  obtain ⟨rs, e, len, all⟩ := walk (s.ctxAt c x) words 0 s
  refine ⟨rs, e, len, fun i v hv => ?_⟩
  obtain ⟨q, hq, stores⟩ := all i v hv
  rw [Nat.zero_add] at stores
  exact ⟨q, hq, stores⟩

/-- What is saved of a creator that takes a member inline. -/
def Ctx.saved (k : Ctx) (w : SyncWait) : Saved :=
  { uid := k.uid, g := k.g, k := k.k, fcsr := k.fcsr, kind := k.kind, member := k.member, fam := k.fam, probe := k.probe, held := [], sync := w,
    pend := k.pend, acq := k.acq, xfence := k.xfence, marks := k.marks, inLh := k.inLh, inEm := k.inEm, mben := k.mben, bwait := k.bwait,
    left := k.syncLeft }
/-- The context of a creator that takes member n inline, before the member's registers are in it. -/
def Ctx.taking (k : Ctx) (w : SyncWait) (uid n : Nat) (f : FamRef) (probe : Bool) (pc : Word) : Ctx :=
  { k with uid := uid, g := 1, k := Vector.replicate 8 0, fcsr := 0, kind := 2, member := n, fam := some f, probe := probe,
           frames := k.frames ++ [k.saved w], pend := 0, acq := 0, xfence := [], marks := [], sync := none, st := .run, inLh := false, inEm := false,
           bwait := none, syncLeft := none, pc := pc }
/-- The member's context. -/
def State.inlineCtx (s : State) (h : FamRef) (c x : Nat) (w : SyncWait) (abase : Word) : Ctx :=
  let g := s.fam h
  let n := s.nextMember h
  let probe := (g.skips (s.bellows h.core g.desc.bctx).salt n).2
  ((s.ctxAt c x).taking w s.nextUid n h probe (abase + BitVec.ofNat 64 g.desc.entry)).reloadTo
    (fileAt (memberRegs g n (ident c x + if probe then 2 ^ 63 else 0))) ((memberFe g n).toNat % 2 ^ 16) 15

theorem execInlineMemberTake_takes {s : State} {c x : Nat} {h : FamRef} {w : SyncWait} (can : s.canInline c x = some h)
    (sync : (s.ctxAt c x).sync = some w) (shallow : (s.ctxAt c x).frames.length < 8) (apart : ∀ m ∈ (s.core c).mat, m.uid ≠ (s.ctxAt c x).uid) :
    let k := s.ctxAt c x
    let u := s.storeFrame c x (frameKey c k.istk k.frames.length) w.upc (frameWords k w.upc k.frames.length)
    exec (.inlineMemberTake c x) s = .next ((State.onCtx { u with nextUid := s.nextUid + 1 } c x fun _ => s.inlineCtx h c x w (u.core c).abase).enrolled h
      (s.fam h) (s.nextMember h) c x 16 s.nextUid) := by
  intro k u
  show execInlineMemberTake c x s = _
  simp only [execInlineMemberTake, can, sync, if_neg (Nat.not_le.2 shallow)]
  rw [if_neg]
  · rfl
  · rw [List.any_eq_true]
    rintro ⟨m, hm, stores⟩
    exact apart m hm (beq_iff_eq.1 (Bool.and_eq_true_iff.1 stores).1)

theorem execInlineMemberTake_deep {s : State} {c x : Nat} {h : FamRef} {w : SyncWait} (can : s.canInline c x = some h)
    (sync : (s.ctxAt c x).sync = some w) (deep : 8 ≤ (s.ctxAt c x).frames.length) :
    exec (.inlineMemberTake c x) s = .next (s.threadFault c x 0x14 (s.ctxAt c x).istk w.upc) := by
  show execInlineMemberTake c x s = _
  simp only [execInlineMemberTake, can, sync, if_pos deep]

theorem State.inlineCtx_registers (s : State) (h : FamRef) (c x : Nat) (w : SyncWait) (abase : Word) :
    (s.inlineCtx h c x w abase).reg 10 = (s.fam h).desc.index (s.nextMember h) ∧ (s.inlineCtx h c x w abase).reg 15 = (s.fam h).desc.arg := by
  obtain ⟨index, arg, -⟩ := memberRegs_at (s.fam h) (s.nextMember h)
    (ident c x + if ((s.fam h).skips (s.bellows h.core (s.fam h).desc.bctx).salt (s.nextMember h)).2 then 2 ^ 63 else 0)
  have loaded (r : XReg) (pos : r ≠ 0) (k : Ctx) (v : Nat → Word) (fe : Nat) : (k.reloadTo v fe 15).reg r = v r.toNat := by
    rw [Ctx.reg, if_neg pos, Ctx.reloadTo_tag]
    exact (k.reloadTo_register v fe pos (Nat.le_of_lt_succ r.isLt) (Nat.le_refl 15)).1
  exact ⟨(loaded 10 (by decide) ..).trans index, (loaded 15 (by decide) ..).trans arg⟩

theorem State.inlineCtx_rest (s : State) (h : FamRef) (c x : Nat) (w : SyncWait) (abase : Word) :
    ∃ y b fe probe, s.inlineCtx h c x w abase = { (s.ctxAt c x).taking w s.nextUid (s.nextMember h) h probe
      (abase + BitVec.ofNat 64 (s.fam h).desc.entry) with x := y, bad := b, fe := fe } := by
  simp only [State.inlineCtx]
  obtain ⟨y, b, fe, e⟩ := Ctx.reloadTo_frame ((s.ctxAt c x).taking w s.nextUid (s.nextMember h) h
    ((s.fam h).skips (s.bellows h.core (s.fam h).desc.bctx).salt (s.nextMember h)).2 (abase + BitVec.ofNat 64 (s.fam h).desc.entry))
    (fileAt (memberRegs (s.fam h) (s.nextMember h)
      (ident c x + if ((s.fam h).skips (s.bellows h.core (s.fam h).desc.bctx).salt (s.nextMember h)).2 then 2 ^ 63 else 0)))
    ((memberFe (s.fam h) (s.nextMember h)).toNat % 2 ^ 16) 15
  exact ⟨y, b, fe, _, e⟩

/-- A creator that takes a member inline: its context is the member's, its frame goes out in 32 stores. -/
theorem inlineTake_takes {s : State} {c x : Nat} {h : FamRef} {w : SyncWait} (can : s.canInline c x = some h) (sync : (s.ctxAt c x).sync = some w)
    (shallow : (s.ctxAt c x).frames.length < 8) (apart : ∀ m ∈ (s.core c).mat, m.uid ≠ (s.ctxAt c x).uid)
    (clean : ∀ z ∈ (s.fam h).heldBad, z.1 ≠ s.nextMember h) :
    ∃ (t : State) (rs : List Req), exec (.inlineMemberTake c x) s = .next t ∧ t.ctxAt c x = s.inlineCtx h c x w (s.core c).abase ∧ SameBytes s t ∧
      ((s.fam h).desc.perf = false → (t.fam h).next = s.nextMember h + 1) ∧ t.reqs = s.reqs ++ rs ∧ rs.length = 32 ∧
      ∀ (i : Nat) (v : Word), (frameWords (s.ctxAt c x) w.upc (s.ctxAt c x).frames.length)[i]? = some v →
        ∃ q : Req, rs[i]? = some q ∧ q.storesFrame (s.ctxAt c x).uid c (frameKey c (s.ctxAt c x).istk (s.ctxAt c x).frames.length + 8 * i) v := by
  obtain ⟨rs, stored, len, stores⟩ := s.storeFrame_eq c x (frameKey c (s.ctxAt c x).istk (s.ctxAt c x).frames.length) w.upc
    (frameWords (s.ctxAt c x) w.upc (s.ctxAt c x).frames.length)
  set u := State.onCtx { s.withReqs rs with nextUid := s.nextUid + 1 } c x fun _ => s.inlineCtx h c x w (s.core c).abase with hu
  have run : exec (.inlineMemberTake c x) s = .next (u.enrolled h (s.fam h) (s.nextMember h) c x 16 s.nextUid) := by
    have takes := execInlineMemberTake_takes can sync shallow apart
    simp only [stored] at takes
    exact takes
  obtain ⟨mem, reqs, ctxs, -, -, listed⟩ := u.enrolled_keeps h clean c x 16 s.nextUid
  refine ⟨_, rs, run, ?_, fun a => congrArg (memGet · a) mem, listed, reqs, len.trans (by simp [frameWords]), stores⟩
  rw [ctxs, hu, State.ctxAt_onCtx_same]

/-- A family whose FSYNC waits finishes: the FSYNC's register takes the status word. -/
theorem familyFinish_finishes {s : State} {c x e n y : Nat} {w : SyncWait} {f : FamRef} (hf : f = { core := c, ctx := x, entry := e })
    (live : (s.fam f).live = true) (ended : (s.fam f).over = true) (grouted : (s.fam f).grouted = true) (idle : s.famBusy f = false)
    (runs : s.whereIs (s.fam f).uid = some (n, y)) (sync : (s.ctxAt n y).sync = some w) (fam : w.fam = f) (pos : 0 < w.dst) (lt : w.dst < 48)
    (st : (s.ctxAt n y).st = .fsync) (plain : (s.fam f).desc.gang = false) :
    ∃ t : State, exec (.familyFinish c x e) s = .next t ∧ (t.fam f).live = false ∧ (t.ctxAt n y).st = .run ∧ (t.ctxAt n y).sync = none ∧
      (t.ctxAt n y).regAt w.dst = (s.fam f).status ∧ (t.ctxAt n y).fe.getLsbD w.dst = true ∧
      (t.ctxAt n y).instret = (s.ctxAt n y).instret + 1 ∧
      ((s.fam f).finished = false → ∀ p ∈ (s.fam f).desc.pts, 0 < p → p < 48 → (t.ctxAt n y).fe.getLsbD p = true) ∧ SameBytes s t := by
  obtain ⟨mem, runs', ⟨r, b, fe, ctx⟩, full⟩ := State.finishing_keeps runs (by simp [st]) plain
  have waits : ((s.finishing f).ctxAt n y).waitsFor f = some (w, false) := by
    have waiting : ((s.finishing f).ctxAt n y).sync = some w := by
      rw [ctx]
      exact sync
    have mine : (some w).filter (·.fam == f) = some w := by simp [Option.filter, fam]
    simp only [Ctx.waitsFor, waiting, mine]
  have run := execFamilyFinish_finishes hf live ended grouted idle runs' waits lt
  set a := (s.finishing f).onCtx n y fun k => k.syncDone w false (s.fam f).status with ha
  set scope := if (s.fam f).desc.perf then 3 else widest (placeList c (s.fam f).desc.place (s.fam f).desc.cmask) with hscope
  obtain ⟨amem, -, actx, -, -⟩ := a.acquire_keeps n scope
  set t := (a.acquire n scope).onFam f fun g => { g with live := false } with ht
  have tctx : t.ctxAt n y = { ((((s.finishing f).ctxAt n y).setRegAt w.dst (s.fam f).status).markFull w.dst).retire w.npc with st := .run, sync := none } := by
    rw [← Ctx.syncDone_waits _ pos lt]
    exact (actx n y).trans (State.ctxAt_onCtx_same ..)
  refine ⟨t, run, ?_, ?_⟩
  · rw [ht, State.fam_onFam]
  rw [tctx]
  refine ⟨rfl, rfl, ?_, ?_, ?_, fun new p hp ppos plt => ?_, fun m => congrArg (memGet · m) (amem.trans mem)⟩
  · exact (Ctx.retire_regAt ..).trans (Ctx.regAt_setRegAt_same _ lt _)
  · exact (congrArg (·.getLsbD w.dst) (Ctx.retire_fe ..)).trans (Ctx.markFull_full _ lt)
  · rw [ctx]
    rfl
  · refine (congrArg (·.getLsbD p) (Ctx.retire_fe ..)).trans ?_
    by_cases e : p = w.dst
    · rw [e]
      exact Ctx.markFull_full _ lt
    · exact (Ctx.markFull_fe_ne _ e).trans (full new p hp ppos plt)

/-- Settles O48: a member starts in a slot, runs inline, migrates or finishes, each by what its event writes. -/
theorem familyEventsResult : Obligations.FamilyEventsResult := by
  intro s c x e f g
  refine ⟨fun n tgt slot lease can first clean => ?_, fun h w can sync => ?_, fun n y w live ended grouted idle runs sync fam pos lt st gang => ?_,
    fun r n here op home come front turn admitted free => homePerform_mig here op home come front turn admitted free,
    fun i m v here got pos lt four => ?_, fun i m v here got => ?_⟩
  · obtain ⟨-, count, slot_free, sound, len, tiles⟩ := State.canStart_some can
    obtain ⟨low, high, empty⟩ := State.freeSlot_some slot_free
    obtain ⟨t, run, ctx, listed, next, leased, others, bytes⟩ := memberStart_starts can first clean
    refine ⟨⟨low, high, empty, count, sound, len, fun y hy q hq mine => ?_⟩, t, run, ?_⟩
    · have unleased := (List.mem_filter.1 (tiles q hq)).2
      rw [Bool.not_eq_true', List.any_eq_false] at unleased
      exact unleased y hy (List.elem_eq_true_of_mem mine)
    · rw [ctx]
      obtain ⟨index, arg, tp, zero, unlinked, unheld⟩ := s.startCtx_registers f n tgt slot lease
      exact ⟨rfl, rfl, rfl, rfl, rfl, rfl, rfl, rfl, rfl, index, arg, tp, zero, unlinked, unheld, listed, next, leased, others, bytes⟩
  · intro k key
    refine ⟨fun deep => execInlineMemberTake_deep can sync deep, fun shallow apart clean plain => ?_⟩
    have next : s.nextMember h = (s.fam h).next := by simp [State.nextMember, plain]
    obtain ⟨t, rs, run, ctx, bytes, listed, reqs, len, stores⟩ := inlineTake_takes can sync shallow apart (next ▸ clean)
    obtain ⟨a0, a5⟩ := s.inlineCtx_registers h c x w (s.core c).abase
    obtain ⟨y, b, fe, probe, rest⟩ := s.inlineCtx_rest h c x w (s.core c).abase
    rw [next] at a0 rest listed
    refine ⟨t, k.saved w, rs, frameFull k k.frames.length, run, ?_⟩
    rw [ctx]
    refine ⟨?_, ?_, ?_, ?_, ?_, ?_, ?_, ?_, rfl, rfl, rfl, rfl, rfl, rfl, rfl, ?_, a0, a5, bytes, listed plain, reqs, len,
      fun r hr => frameFull_bit k _ hr, fun i hi => ?_⟩
    case refine_10 =>
      obtain ⟨q, here, uid, core, cls, st, home, addr, op⟩ := stores i _ (frameWords_at k w.upc k.frames.length hi)
      exact ⟨q, here, uid, core, cls, st, home, addr, op⟩
    all_goals rw [rest]; rfl
  · obtain ⟨t, run, dead, went, synced, status, full, count, targets, bytes⟩ := familyFinish_finishes rfl live ended grouted idle runs sync fam pos lt st gang
    exact ⟨t, run, dead, went, synced, status.trans (Fam.status_value g), full, count, targets, bytes⟩
  · obtain ⟨t, run, migs, mem, cores⟩ := execMigrationInstall_installs here got pos
    have same (n : Nat) : t.core n = ((s.migrated i m).onCtx m.toCore m.toCtx fun _ => m.arrives v).core n := congrArg (tabGet Core.reset · n) cores
    have ctxs (n y : Nat) : t.ctxAt n y = ((s.migrated i m).onCtx m.toCore m.toCtx fun _ => m.arrives v).ctxAt n y := congrArg (Core.ctx · y) (same n)
    obtain ⟨word, low, rest, others⟩ := m.arrives_registers v lt four
    refine ⟨t, run, migs, ?_, ?_⟩
    · rw [same, State.core_onCtx_same]
      exact congrArg Core.recv (State.core_onCore_same { s with migs := s.migs.eraseIdx i } m.toCore fun c => { c with recv := c.recv + 1 })
    · rw [ctxs, State.ctxAt_onCtx_same]
      refine ⟨rfl, rfl, word, low, rest, others, fun b => congrArg (memGet · b) mem, fun n y other => ?_⟩
      rw [ctxs, State.ctxAt_onCtx_ne _ _ other, State.migrated_ctxAt]
  · set a := (s.migrated i m).onCtx m.fromCore m.fromCtx fun _ => { m.ctx with pc := m.upc, instret := m.ctx.instret - 1 } with ha
    have back : a.ctxAt m.fromCore m.fromCtx = { m.ctx with pc := m.upc, instret := m.ctx.instret - 1 } := State.ctxAt_onCtx_same ..
    obtain ⟨mem, raised, ctx⟩ := a.threadFault_raises m.fromCore m.fromCtx 0x0F (BitVec.ofNat 64 m.addr) m.upc
    refine ⟨_, _, execMigrationInstall_faults here got, rfl, raised, rfl, ?_, rfl, rfl, rfl, fun b => congrArg (memGet · b) mem, ?_⟩
    · show (a.ctxAt m.fromCore m.fromCtx).uid = m.ctx.uid
      rw [back]
    · rw [ctx, back]
      exact ⟨rfl, rfl, rfl, rfl⟩

end Sys2Proof.Machine
end

section
/-! PROOF. Canonical memory (R55 to R60): the canonical outcome, and what the operations on registers, slices and accesses leave of memory. -/

namespace Sys2Proof.Machine

open Sys2Proof

/-- An outcome that is a state leaves memory in its canonical form. -/
def Out.Canonical : Out → Prop
  | .next t => memWf t.mem = true
  | _ => True

@[simp] theorem Out.canonical_next (t : State) : Out.Canonical (.next t) ↔ memWf t.mem = true := Iff.rfl

@[simp] theorem memOk_iff (s : State) : MemOk s ↔ memWf s.mem = true := Iff.rfl

theorem Out.canonical_iff (o : Out) : Out.Canonical o ↔ ∀ t, o = .next t → MemOk t := by
  cases o <;> simp [Out.Canonical]

@[simp] theorem mem_ite (c : Prop) [Decidable c] (s t : State) :
    (if c then s else t).mem = if c then s.mem else t.mem := apply_ite ..

@[simp] theorem memWf_ite (c : Prop) [Decidable c] {a b : List (Nat × Byte)} (ha : memWf a = true) (hb : memWf b = true) :
    memWf (if c then a else b) = true := by split <;> assumption

@[simp] theorem Out.canonical_ite (c : Prop) [Decidable c] {a b : Out} (ha : Out.Canonical a) (hb : Out.Canonical b) :
    Out.Canonical (if c then a else b) := by split <;> assumption

theorem ite_memWf (c : Prop) [Decidable c] {s t : State} (hs : memWf s.mem = true) (ht : memWf t.mem = true) :
    memWf (if c then s else t).mem = true := by split <;> assumption

@[simp] theorem foldl_mem {α : Type} (f : State → α → State) (h : ∀ s a, (f s a).mem = s.mem) (l : List α) (s : State) :
    (l.foldl f s).mem = s.mem := by
  induction l generalizing s with
  | nil => rfl
  | cons a t ih => exact (ih _).trans (h s a)

/-- A fold whose every step changes one core alone. -/
@[simp] theorem foldl_onCore_mem {α : Type} (n : State → α → Nat) (f : State → α → Core → Core) (l : List α) (s : State) :
    (l.foldl (fun s a => s.onCore (n s a) (f s a)) s).mem = s.mem :=
  foldl_mem (fun s a => s.onCore (n s a) (f s a)) (fun _ _ => rfl) l s

@[simp] theorem foldl_onCluster_mem {α : Type} (n : State → α → Nat) (f : State → α → Cluster → Cluster) (l : List α)
    (s : State) :
    (l.foldl (fun s a => s.onCluster (n s a) (f s a)) s).mem = s.mem :=
  foldl_mem (fun s a => s.onCluster (n s a) (f s a)) (fun _ _ => rfl) l s

@[simp] theorem foldl_memWf {α : Type} {f : State → α → State} (h : ∀ s a, memWf s.mem = true → memWf (f s a).mem = true)
    (l : List α)
    {s : State} (hs : memWf s.mem = true) : memWf (l.foldl f s).mem = true :=
  List.foldlRecOn l f (motive := fun t => memWf t.mem = true) hs fun s hs a _ => h s a hs

/-! ## Operands -/

@[simp] theorem State.push_mem (s : State) (d : Nat) (w : QWord) : (s.push d w).mem = s.mem := by simp [State.push]
@[simp] theorem State.wr_mem (s : State) (r : XReg) (v : Word) : (s.wr r v).mem = s.mem := by
  unfold State.wr
  split <;> simp

@[simp] theorem State.popOne_mem (s : State) (r : XReg) : (s.popOne r).mem = s.mem := by
  unfold State.popOne
  split <;> simp

@[simp] theorem State.pops_mem (s : State) (srcs : List XReg) : (s.pops srcs).mem = s.mem := by simp [State.pops]
theorem State.setRowAt_mem (s : State) (n p : Nat) (v : Row) :
    (s.setRowAt n p v).mem = memPut s.mem (tileKey n (p / 16) (p % 16)) (leBytes 64 v.toNat) := by simp only [State.setRowAt]

@[simp] theorem State.setRowAt_memWf {s : State} (h : memWf s.mem = true) (n p : Nat) (v : Row) :
    memWf (s.setRowAt n p v).mem = true := by
  rw [State.setRowAt_mem]
  exact memWf_memPut _ _ h

theorem State.setLanes_mem (s : State) (n p : Nat) (v m : Row) :
    (s.setLanes n p v m).mem =
      memPut s.mem (tileKey n (p / 16) (p % 16)) (leBytes 64 ((s.rowAt n p &&& ~~~ m) ||| (v &&& m)).toNat) := by simp only [State.setLanes]

@[simp] theorem State.setLanes_memWf {s : State} (h : memWf s.mem = true) (n p : Nat) (v m : Row) :
    memWf (s.setLanes n p v m).mem = true := by
  rw [State.setLanes_mem]
  exact memWf_memPut _ _ h

/-! ## Results and traps -/

@[simp] theorem State.sfuLand_memWf {s : State} (h : memWf s.mem = true) (n x : Nat) (r : SfuRes) :
    memWf (s.sfuLand n x r).mem = true := by simp [State.sfuLand, h]
@[simp] theorem State.sfuFlush_memWf {s : State} (h : memWf s.mem = true) (n x : Nat) : memWf (s.sfuFlush n x).mem = true := by
  unfold State.sfuFlush
  exact foldl_memWf (fun _ _ hs => State.sfuLand_memWf hs ..) _ h

@[simp] theorem State.recvIce_mem (s : State) (cores : List Nat) (cl : Nat) :
    (s.recvIce cores cl).mem = s.mem := by simp [State.recvIce]
@[simp] theorem State.discardAll_mem (s : State) (cores : List Nat) :
    (s.discardAll cores).mem = s.mem := by simp [State.discardAll]
@[simp] theorem State.faultTeam_mem (s : State) (n : Nat) : (s.faultTeam n).mem = s.mem := by
  unfold State.faultTeam
  split <;> simp

@[simp] theorem State.whoFault_mem (s : State) (n : Nat) (who : List Nat) (eng : Bool) (cause : Nat) (value upc : Word) :
    (s.whoFault n who eng cause value upc).mem = s.mem := by simp [State.whoFault]
@[simp] theorem State.raise_mem (s : State) (n uid : Nat) (who : List Nat) (cause : Nat) (value upc : Word) :
    (s.raise n uid who cause value upc).mem = s.mem := by rfl
@[simp] theorem State.threadFault_mem (s : State) (n x : Nat) (cause : Nat) (value upc : Word) :
    (s.threadFault n x cause value upc).mem = s.mem := by rfl
@[simp] theorem State.engineFault_mem (s : State) (n : Nat) (who : List Nat) (cause : Nat) (value upc : Word) :
    (s.engineFault n who cause value upc).mem = s.mem := by simp [State.engineFault]
@[simp] theorem State.onThread_mem (s : State) (uid : Nat) (f : Ctx → Ctx) : (s.onThread uid f).mem = s.mem := by
  unfold State.onThread
  split <;> simp

@[simp] theorem State.uidFault_mem (s : State) (uid cause : Nat) (value upc : Word) :
    (s.uidFault uid cause value upc).mem = s.mem := by
  simp only [State.uidFault]
  (repeat' split) <;> simp

@[simp] theorem State.latchRaised_mem (s : State) : s.latchRaised.mem = s.mem := by simp [State.latchRaised]
@[simp] theorem State.trap_mem (s : State) (cause : Nat) (value : Word) : (s.trap cause value).mem = s.mem := by simp [State.trap]
@[simp] theorem State.trapOut_canonical {s : State} (h : memWf s.mem = true) (cause : Nat) (value : Word) :
    Out.Canonical (s.trapOut cause value) := by simp [State.trapOut, h]
@[simp] theorem State.put_canonical {s : State} (h : memWf s.mem = true) (srcs : List XReg) (d : XReg) (v : Word) :
    Out.Canonical (s.put srcs d v) := by simp [State.put, h]
@[simp] theorem State.alu_canonical {s : State} (h : memWf s.mem = true) (srcs : List XReg) (d : XReg) (v : Word) :
    Out.Canonical (s.alu srcs d v) := by simp [State.alu, h]
@[simp] theorem State.putF_canonical {s : State} (h : memWf s.mem = true) (srcs : List XReg) (d : XReg) (v : Word) (f : Flags) :
    Out.Canonical (s.putF srcs d v f) := by simp [State.putF, h]
@[simp] theorem State.jump_canonical {s : State} (h : memWf s.mem = true) (srcs : List XReg) (d : XReg) (taken : Bool)
    (target : Word) :
    Out.Canonical (s.jump srcs d taken target) := by simp [State.jump, h]
@[simp] theorem State.alter_canonical {s : State} (h : memWf s.mem = true) (srcs : List XReg) (f : Ctx → Ctx) :
    Out.Canonical (s.alter srcs f) := by simp [State.alter, h]

/-! ## Translation -/

@[simp] theorem State.startWalk_mem (s : State) (cl vf va : Nat) (write : Bool) (who : Waiter) :
    (s.startWalk cl vf va write who).mem = s.mem := by rfl
@[simp] theorem State.walkCur_mem (s : State) (va : Nat) (write : Bool) : (s.walkCur va write).mem = s.mem := by rfl
@[simp] theorem State.unqueue_mem (s : State) (w : Waiter) : (s.unqueue w).mem = s.mem := by rfl
@[simp] theorem State.release_memWf {s : State} (h : memWf s.mem = true) (w : Waiter) : memWf (s.release w).mem = true := by
  unfold State.release
  split <;> simp [h]

@[simp] theorem State.parkWaiter_mem (s : State) (w : Waiter) : (s.parkWaiter w).mem = s.mem := by
  unfold State.parkWaiter
  split <;> simp

@[simp] theorem State.fileFault_mem (s : State) (w : Walk) (bad : Bool) : (s.fileFault w bad).mem = s.mem := by
  simp only [State.fileFault]
  (repeat' split) <;> simp

@[simp] theorem State.unmap_mem (s : State) (v : Nat) (va : Option Nat) : (s.unmap v va).mem = s.mem := by rfl
@[simp] theorem State.tlbDrop_mem (s : State) (v : Nat) (va : Option Nat) :
    (s.tlbDrop v va).mem = s.mem := by simp [State.tlbDrop]
@[simp] theorem State.fqAdmit_mem (s : State) (d : Nat) : (s.fqAdmit d).mem = s.mem := by
  unfold State.fqAdmit
  split <;> simp

/-! ## Slices -/

@[simp] theorem State.setPoison_mem (s : State) (key : Nat) (b : Bool) :
    (s.setPoison key b).mem = s.mem := by simp [State.setPoison]
@[simp] theorem State.putBytes_memWf {s : State} (h : memWf s.mem = true) (key : Nat) (bytes : List Byte) :
    memWf (s.putBytes key bytes).mem = true := by
  have written : memWf (memPut s.mem key bytes) = true := memWf_memPut _ _ h
  unfold State.putBytes
  split
  · exact (congrArg memWf (State.setPoison_mem ..)).trans written
  · exact written

@[simp] theorem State.clearWhole_mem (s : State) (key n : Nat) : (s.clearWhole key n).mem = s.mem := by simp [State.clearWhole]
@[simp] theorem State.onSlot_mem (s : State) (p k : Nat) (f : KeySlot → KeySlot) : (s.onSlot p k f).mem = s.mem := by rfl
@[simp] theorem State.writeBack_memWf {s : State} (h : memWf s.mem = true) (p : Nat) (l : SLine) :
    memWf (s.writeBack p l).mem = true := by
  unfold State.writeBack
  split
  · simp only [memWf_memPut _ _ h]
  · exact h

@[simp] theorem State.setSlice_mem (s : State) (p i : Nat) (l : List SLine) : (s.setSlice p i l).mem = s.mem := by rfl
@[simp] theorem State.dropOther_memWf {s : State} (h : memWf s.mem = true) (p i line slot : Nat) :
    memWf (s.dropOther p i line slot).mem = true := by
  unfold State.dropOther
  split <;> simp [h]

@[simp] theorem State.allocate_memWf {s : State} (h : memWf s.mem = true) (p i line slot vline prio hint : Nat) :
    memWf (s.allocate p i line slot vline prio hint).mem = true := by
  simp only [State.allocate]
  (repeat' split) <;> simp [h]

@[simp] theorem State.touch_memWf {s : State} (h : memWf s.mem = true) (p i line slot vline prio hint : Nat) :
    memWf (s.touch p i line slot vline prio hint).mem = true := by
  simp only [State.touch]
  (repeat' split) <;> simp [h]

@[simp] theorem State.sliceWrite_memWf {s : State} (h : memWf s.mem = true) (p i key slot va : Nat) (bytes : List Byte) :
    memWf (s.sliceWrite p i key slot va bytes).mem = true := by
  unfold State.sliceWrite
  extract_lets ls cleared line old new lines
  have kept : memWf cleared.mem = true := (congrArg memWf (State.clearWhole_mem ..)).trans h
  refine ite_memWf _ h (ite_memWf _ (State.putBytes_memWf ?_ ..) (ite_memWf _ ?_ ?_))
  · exact ite_memWf _ ((congrArg memWf (State.setSlice_mem ..)).trans h) h
  · exact (congrArg memWf (State.setSlice_mem ..)).trans kept
  · simp only [memWf_memPut _ _ kept]

@[simp] theorem State.breakResv_mem (s : State) (p i : Nat) (lines : List Nat) : (s.breakResv p i lines).mem = s.mem := by rfl
@[simp] theorem State.hold_mem (s : State) (n slot : Nat) : (s.hold n slot).mem = s.mem := by
  unfold State.hold
  split <;> simp

/-! ## Loads and stores -/

@[simp] theorem State.withAccess_canonical {s : State} (h : memWf s.mem = true) (va : Word) (n align : Nat) (write : Bool)
    (regions : List Nat) (glob sealedOk : Bool) (k : Phys → Nat → Bool → State) (hk : ∀ p q r, memWf (k p q r).mem = true) :
    Out.Canonical (s.withAccess va n align write regions glob sealedOk k) := by
  unfold State.withAccess
  split
  · exact State.trapOut_canonical h ..
  · simp [h]
  · exact Out.canonical_ite _ h (hk ..)

@[simp] theorem State.loadAs_canonical {s : State} (h : memWf s.mem = true) (d a : XReg) (va : Word) (n : Nat)
    (sext waits : Bool) :
    Out.Canonical (s.loadAs d a va n sext waits) := by simp [State.loadAs, h]
@[simp] theorem State.scalarLoad_canonical {s : State} (h : memWf s.mem = true) (d a : XReg) (va : Word) (n : Nat) (sext : Bool) :
    Out.Canonical (s.scalarLoad d a va n sext) := by simp [State.scalarLoad, h]
@[simp] theorem State.scalarStore_canonical {s : State} (h : memWf s.mem = true) (b a : XReg) (va : Word) (n : Nat) :
    Out.Canonical (s.scalarStore b a va n) := by simp [State.scalarStore, h]
@[simp] theorem execLw_canonical (d a : XReg) (i : BitVec 12) {s : State} (h : memWf s.mem = true) :
    Out.Canonical (execLw d a i s) := by simp [execLw, h]
@[simp] theorem execLd_canonical (d a : XReg) (i : BitVec 12) {s : State} (h : memWf s.mem = true) :
    Out.Canonical (execLd d a i s) := by simp [execLd, h]
@[simp] theorem execSw_canonical (b a : XReg) (i : BitVec 12) {s : State} (h : memWf s.mem = true) :
    Out.Canonical (execSw b a i s) := by simp [execSw, h]
@[simp] theorem execSd_canonical (b a : XReg) (i : BitVec 12) {s : State} (h : memWf s.mem = true) :
    Out.Canonical (execSd b a i s) := by simp [execSd, h]
@[simp] theorem execCLw_canonical (d a : BitVec 3) (i : BitVec 5) {s : State} (h : memWf s.mem = true) :
    Out.Canonical (execCLw d a i s) := by simp [execCLw, h]
@[simp] theorem execCLd_canonical (d a : BitVec 3) (i : BitVec 5) {s : State} (h : memWf s.mem = true) :
    Out.Canonical (execCLd d a i s) := by simp [execCLd, h]
@[simp] theorem execCSw_canonical (b a : BitVec 3) (i : BitVec 5) {s : State} (h : memWf s.mem = true) :
    Out.Canonical (execCSw b a i s) := by simp [execCSw, h]
@[simp] theorem execCSd_canonical (b a : BitVec 3) (i : BitVec 5) {s : State} (h : memWf s.mem = true) :
    Out.Canonical (execCSd b a i s) := by simp [execCSd, h]
@[simp] theorem execCLwsp_canonical (d : XReg) (i : BitVec 6) {s : State} (h : memWf s.mem = true) :
    Out.Canonical (execCLwsp d i s) := by simp [execCLwsp, h]
@[simp] theorem execCLdsp_canonical (d : XReg) (i : BitVec 6) {s : State} (h : memWf s.mem = true) :
    Out.Canonical (execCLdsp d i s) := by simp [execCLdsp, h]
@[simp] theorem execCSwsp_canonical (b : XReg) (i : BitVec 6) {s : State} (h : memWf s.mem = true) :
    Out.Canonical (execCSwsp b i s) := by simp [execCSwsp, h]
@[simp] theorem execCSdsp_canonical (b : XReg) (i : BitVec 6) {s : State} (h : memWf s.mem = true) :
    Out.Canonical (execCSdsp b i s) := by simp [execCSdsp, h]

end Sys2Proof.Machine
end

section
/-! PROOF. Canonical memory (R55 to R60): what the requests at a home, the fills of registers and the walks leave of memory. -/

namespace Sys2Proof.Machine

open Sys2Proof

/-! ## Scalar floating point -/

@[simp] theorem State.rounded_canonical {s : State} (h : memWf s.mem = true) (r : BitVec 3) (k : Nat → Out)
    (hk : ∀ p, Out.Canonical (k p)) :
    Out.Canonical (s.rounded r k) := by
  unfold State.rounded
  (repeat' split) <;> simp_all

@[simp] theorem State.putFp_canonical {s : State} (h : memWf s.mem = true) (srcs : List XReg) (d : XReg) (r : Nat × Flags) :
    Out.Canonical (s.putFp srcs d r) := by simp [State.putFp, h]
@[simp] theorem execFaddS_canonical (d a b : XReg) (r : BitVec 3) {s : State} (h : memWf s.mem = true) :
    Out.Canonical (execFaddS d a b r s) := by simp [execFaddS, h]
@[simp] theorem execFsubS_canonical (d a b : XReg) (r : BitVec 3) {s : State} (h : memWf s.mem = true) :
    Out.Canonical (execFsubS d a b r s) := by simp [execFsubS, h]
@[simp] theorem execFmulS_canonical (d a b : XReg) (r : BitVec 3) {s : State} (h : memWf s.mem = true) :
    Out.Canonical (execFmulS d a b r s) := by simp [execFmulS, h]
@[simp] theorem execFdivS_canonical (d a b : XReg) (r : BitVec 3) {s : State} (h : memWf s.mem = true) :
    Out.Canonical (execFdivS d a b r s) := by simp [execFdivS, h]
@[simp] theorem execFsqrtS_canonical (d a : XReg) (r : BitVec 3) {s : State} (h : memWf s.mem = true) :
    Out.Canonical (execFsqrtS d a r s) := by simp [execFsqrtS, h]
@[simp] theorem execFmaddS_canonical (d a b c : XReg) (r : BitVec 3) {s : State} (h : memWf s.mem = true) :
    Out.Canonical (execFmaddS d a b c r s) := by simp [execFmaddS, h]
@[simp] theorem execFleS_canonical (d a b : XReg) {s : State} (h : memWf s.mem = true) :
    Out.Canonical (execFleS d a b s) := by simp [execFleS, h]
@[simp] theorem execFltS_canonical (d a b : XReg) {s : State} (h : memWf s.mem = true) :
    Out.Canonical (execFltS d a b s) := by simp [execFltS, h]
@[simp] theorem execFeqS_canonical (d a b : XReg) {s : State} (h : memWf s.mem = true) :
    Out.Canonical (execFeqS d a b s) := by simp [execFeqS, h]
@[simp] theorem execFcvtWS_canonical (d a : XReg) (r : BitVec 3) {s : State} (h : memWf s.mem = true) :
    Out.Canonical (execFcvtWS d a r s) := by simp [execFcvtWS, h]
@[simp] theorem execFcvtLS_canonical (d a : XReg) (r : BitVec 3) {s : State} (h : memWf s.mem = true) :
    Out.Canonical (execFcvtLS d a r s) := by simp [execFcvtLS, h]
@[simp] theorem execFcvtSW_canonical (d a : XReg) (r : BitVec 3) {s : State} (h : memWf s.mem = true) :
    Out.Canonical (execFcvtSW d a r s) := by simp [execFcvtSW, h]
@[simp] theorem execFcvtSL_canonical (d a : XReg) (r : BitVec 3) {s : State} (h : memWf s.mem = true) :
    Out.Canonical (execFcvtSL d a r s) := by simp [execFcvtSL, h]

/-! ## Requests at their home -/

@[simp] theorem State.regFill_mem (s : State) (n off : Nat) (v : Word) :
    (s.regFill n off v).mem = s.mem := by simp [State.regFill]
@[simp] theorem State.regPoison_mem (s : State) (n off : Nat) (a : Word) :
    (s.regPoison n off a).mem = s.mem := by
  unfold State.regPoison
  extract_lets
  split
  · rfl
  · exact State.threadFault_mem ..

@[simp] theorem State.storeAt_memWf {s : State} (h : memWf s.mem = true) (r : Req) (key : Nat) (bytes : List Byte) :
    memWf (s.storeAt r key bytes).mem = true := by
  unfold State.storeAt
  split <;> simp [h]

@[simp] theorem State.visitAs_memWf {s : State} (h : memWf s.mem = true) (r : Req) (key : Nat) (stream : Bool) :
    memWf (s.visitAs r key stream).mem = true := by
  unfold State.visitAs
  split <;> simp [h]

@[simp] theorem State.visit_memWf {s : State} (h : memWf s.mem = true) (r : Req) (key : Nat) :
    memWf (s.visit r key).mem = true := by simp [State.visit, h]
@[simp] theorem State.enterL1_mem (s : State) (r : Req) : (s.enterL1 r).mem = s.mem := by
  unfold State.enterL1
  split <;> simp

@[simp] theorem State.reply_mem (s : State) (r : Req) (d : Nat) (v : Word) (err : Nat) : (s.reply r d v err).mem = s.mem := by
  unfold State.reply
  (repeat' split) <;> simp

@[simp] theorem State.performed_mem (s : State) (r : Req) : (s.performed r).mem = s.mem := by rfl
@[simp] theorem State.setFull_mem (s : State) (n key : Nat) (b : Bool) : (s.setFull n key b).mem = s.mem := by rfl
@[simp] theorem State.serve_mem (s : State) (n key : Nat) (l : List Req) :
    (s.serve n key l).mem = s.mem := by
  induction l generalizing s with
  | nil => rfl
  | cons r t ih =>
    unfold State.serve
    split <;> simp [ih]

@[simp] theorem State.fillWord_memWf {s : State} (h : memWf s.mem = true) (n key : Nat) (v : Word) (bad : Bool) :
    memWf (s.fillWord n key v bad).mem = true := by simp [State.fillWord, h]
@[simp] theorem State.reserve_mem (s : State) (p i uid : Nat) (lines : List Nat) : (s.reserve p i uid lines).mem = s.mem := by rfl
@[simp] theorem State.flagsTo_mem (s : State) (uid : Nat) (f : Flags) : (s.flagsTo uid f).mem = s.mem := by
  unfold State.flagsTo
  (repeat' split) <;> simp

@[simp] theorem State.joinDone_memWf {s : State} (h : memWf s.mem = true) (id : Nat) : memWf (s.joinDone id).mem = true := by
  simp only [State.joinDone]
  (repeat' split) <;> simp [h]

@[simp] theorem State.joinPart_mem (s : State) (id ty : Nat) (p : Part) (bytes : List Byte) (bad : Option (Nat × Word)) :
    (s.joinPart id ty p bytes bad).mem = s.mem := by rfl
@[simp] theorem State.releaseUnits_mem (s : State) (eng : Nat) (still : Nat → Bool) :
    (s.releaseUnits eng still).mem = s.mem := by rfl
@[simp] theorem State.pushAt_mem (s : State) (n x d : Nat) (w : QWord) : (s.pushAt n x d w).mem = s.mem := by simp [State.pushAt]
@[simp] theorem State.landAt_mem (s : State) (n x t : Nat) (v : Word) : (s.landAt n x t v).mem = s.mem := by simp [State.landAt]
@[simp] theorem State.landIn_mem (s : State) (uid t : Nat) (v : Word) : (s.landIn uid t v).mem = s.mem := by
  unfold State.landIn
  split <;> simp

@[simp] theorem State.replyCame_mem (s : State) (uid t : Nat) : (s.replyCame uid t).mem = s.mem := by
  unfold State.replyCame
  split <;> simp

@[simp] theorem State.acquireFor_mem (s : State) (uid : Nat) : (s.acquireFor uid).mem = s.mem := by
  unfold State.acquireFor
  split <;> simp

@[simp] theorem State.acquired_mem (s : State) (uid : Nat) : (s.acquired uid).mem = s.mem := by
  unfold State.acquired
  split <;> simp

@[simp] theorem State.fillReg_mem (s : State) (uid reg acq : Nat) (v : Word) :
    (s.fillReg uid reg acq v).mem = s.mem := by simp [State.fillReg]
@[simp] theorem State.linkTo_mem (s : State) (l : Link) (v : Word) (bad : Bool) : (s.linkTo l v bad).mem = s.mem := by
  simp only [State.linkTo]
  (repeat' split) <;> simp

@[simp] theorem State.control_mem (s : State) (n region off : Nat) (v : Word) :
    (s.control n region off v).mem = s.mem := by simp [State.control]
@[simp] theorem State.descGot_mem (s : State) (r : Req) (upc : Word) (level : Nat) (left : List Nat) (i : Nat) (w : Word × Bool)
    (enters : Bool) :
    (s.descGot r upc level left i w enters).mem = s.mem := by
  simp only [State.descGot]
  (repeat' split) <;> simp

@[simp] theorem State.onFep_mem (s : State) (f : Nat) (g : Fep → Fep) : (s.onFep f g).mem = s.mem := by rfl
@[simp] theorem State.performAt_memWf {s : State} (h : memWf s.mem = true) (r : Req) (j : Nat) :
    memWf (s.performAt r j).mem = true := by
  unfold State.performAt
  split
  case h_11 n d v c _ =>
    extract_lets u m w written stored
    have seen : memWf u.mem = true := State.visit_memWf h ..
    have put : memWf written.mem = true := State.storeAt_memWf seen ..
    have kept : memWf stored.mem = true :=
      ite_memWf _ (ite_memWf _ ((congrArg memWf (State.setPoison_mem ..)).trans put) put) seen
    split <;> simp [seen, kept]
  case h_14 lines streams _ =>
    have seen : memWf (lines.foldl (fun s l => s.visitAs r l (streams.contains l)) s).mem = true :=
      foldl_memWf (fun s l hs => State.visitAs_memWf hs ..) _ h
    split
    · simp only [State.addReq_mem, State.performed_mem, mem_ite, State.reserve_mem, ite_self, seen]
    · simp [h]
  case h_20 uncond lines streams writes _ =>
    have seen : memWf (lines.foldl (fun s l => s.visitAs r l (streams.contains l)) s).mem = true :=
      foldl_memWf (fun s l hs => State.visitAs_memWf hs ..) _ h
    split
    · extract_lets u ok written left
      have put : memWf written.mem = true :=
        ite_memWf _ ((congrArg memWf (State.breakResv_mem ..)).trans (foldl_memWf (fun s w hs =>
          (congrArg memWf (State.setPoison_mem ..)).trans (State.sliceWrite_memWf hs ..)) _ seen)) seen
      simpa only [State.performed_mem, State.reply_mem] using put
    · simp [h]
  case h_21 id ty els w parts _ =>
    extract_lets ps
    split
    · exact h
    extract_lets e seen joined
    have read : memWf seen.mem = true := ite_memWf _ h ((congrArg memWf (State.hold_mem ..)).trans (State.visit_memWf h ..))
    have part : memWf joined.mem = true := read
    exact ite_memWf _ part (by simp [part])
  case h_22 ty d els w parts _ =>
    extract_lets ps
    split
    · exact h
    · split <;> simp [h]
  all_goals (repeat' split) <;> simp [h]

@[simp] theorem State.taint_mem (s : State) (r : Req) (j : Nat) : (s.taint r j).mem = s.mem := by simp [State.taint]
@[simp] theorem execHomePerform_canonical (w : Home) (i j : Nat) {s : State} (h : memWf s.mem = true) :
    Out.Canonical (execHomePerform w i j s) := by
  unfold execHomePerform
  split
  · exact h
  · (repeat' apply Out.canonical_ite) <;> simp [h]

@[simp] theorem State.arrive_mem (s : State) (id : Nat) : (s.arrive id).mem = s.mem := by
  unfold State.arrive
  (repeat' split) <;> simp

theorem execLocalPortPass_mem {c : Nat} {s t : State} (e : execLocalPortPass c s = .next t) : t.mem = s.mem := by
  unfold execLocalPortPass at e
  (repeat' split at e) <;> cases e <;> simp

@[simp] theorem execLocalPortPass_canonical (c : Nat) {s : State} (h : memWf s.mem = true) :
    Out.Canonical (execLocalPortPass c s) := by
  cases e : execLocalPortPass c s with
  | next t => exact (congrArg memWf (execLocalPortPass_mem e)).trans h
  | _ => trivial

@[simp] theorem execLaneDeliver_canonical (i : Nat) {s : State} (h : memWf s.mem = true) :
    Out.Canonical (execLaneDeliver i s) := by
  unfold execLaneDeliver
  split <;> simp [h]

@[simp] theorem execPoolDeliver_canonical (c i : Nat) {s : State} (h : memWf s.mem = true) :
    Out.Canonical (execPoolDeliver c i s) := by
  unfold execPoolDeliver
  split <;> simp [h]

@[simp] theorem execL1ViewServe_canonical (c : Nat) {s : State} (h : memWf s.mem = true) :
    Out.Canonical (execL1ViewServe c s) := by
  simp only [execL1ViewServe]
  (repeat' split) <;> simp [h]

@[simp] theorem State.received_mem (s : State) (src : Option Nat) (n : Option Nat) : (s.received src n).mem = s.mem := by
  unfold State.received
  split <;> simp

@[simp] theorem State.fillLands_mem (s : State) (f : RegFill) : (s.fillLands f).mem = s.mem := by simp [State.fillLands]
@[simp] theorem execRegisterFill_canonical (i : Nat) {s : State} (h : memWf s.mem = true) :
    Out.Canonical (execRegisterFill i s) := by
  unfold execRegisterFill
  (repeat' split) <;> simp [h]

/-! ## Walks -/

@[simp] theorem State.sendPref_mem (s : State) (n x uid level va : Nat) (upc : Word) (p : Phys) :
    (s.sendPref n x uid level va upc p).mem = s.mem := by simp [State.sendPref]
@[simp] theorem State.walkEnds_memWf {s : State} (h : memWf s.mem = true) (w : Walk) (t : TlbEntry) :
    memWf (s.walkEnds w t).mem = true := by
  unfold State.walkEnds
  split <;> simp [h]

@[simp] theorem State.walkStep_memWf {s : State} (h : memWf s.mem = true) (i : Nat) : memWf (s.walkStep i).mem = true := by
  simp only [State.walkStep]
  (repeat' split) <;> simp [h]

@[simp] theorem execTranslationWalk_canonical (i : Nat) {s : State} (h : memWf s.mem = true) :
    Out.Canonical (execTranslationWalk i s) := by simp [execTranslationWalk, h]
@[simp] theorem State.replayNext_memWf {s : State} (h : memWf s.mem = true) (r : Replay) :
    memWf (s.replayNext r).1.mem = true := by
  unfold State.replayNext
  split
  · exact h
  · split <;> simp [h]

@[simp] theorem State.replayOn_memWf {s : State} (h : memWf s.mem = true) :
    memWf s.replayOn.mem = true := by
  have kept := List.foldlRecOn s.replays (fun a r => ((a.1.replayNext r).1, a.2 ++ (a.1.replayNext r).2.toList))
    (motive := fun a => memWf a.1.mem = true)
    (b := (s, [])) h fun a ha r _ => State.replayNext_memWf ha r
  exact kept

@[simp] theorem execFresReplay_canonical (d e : Nat) {s : State} (h : memWf s.mem = true) :
    Out.Canonical (execFresReplay d e s) := by
  unfold execFresReplay
  (repeat' split) <;> simp [h]

@[simp] theorem State.failWaiter_mem (s : State) (va : Nat) (w : Waiter) : (s.failWaiter va w).mem = s.mem := by
  unfold State.failWaiter
  (repeat' split) <;> simp

@[simp] theorem execFresFail_canonical (d e : Nat) {s : State} (h : memWf s.mem = true) : Out.Canonical (execFresFail d e s) := by
  unfold execFresFail
  split <;> simp [h]

@[simp] theorem State.tinvDrop_mem (s : State) : s.tinvDrop.mem = s.mem := by simp [State.tinvDrop]
@[simp] theorem State.tinvWrite_mem (s : State) (val : Word) : (s.tinvWrite val).mem = s.mem := by simp [State.tinvWrite]
@[simp] theorem execTinvPage_canonical (v page : Nat) {s : State} (h : memWf s.mem = true) :
    Out.Canonical (execTinvPage v page s) := by simp [execTinvPage, h]
@[simp] theorem execTinvVf_canonical (v : Nat) {s : State} (h : memWf s.mem = true) :
    Out.Canonical (execTinvVf v s) := by simp [execTinvVf, h]
@[simp] theorem execTinvComplete_canonical {s : State} (h : memWf s.mem = true) : Out.Canonical (execTinvComplete s) := by
  unfold execTinvComplete
  split <;> simp [h]

end Sys2Proof.Machine
end

section
/-! PROOF. Canonical memory (R55 to R60): what the fences, queues, CSRs, families and threads leave of memory. -/

namespace Sys2Proof.Machine

open Sys2Proof

/-! ## Fences, atomics and multi-line blocks -/

@[simp] theorem State.afterAll_canonical {s : State} (h : memWf s.mem = true) (cls scope : Nat) (k : Out) (hk : Out.Canonical k) :
    Out.Canonical (s.afterAll cls scope k) := by
  unfold State.afterAll
  (repeat' split) <;> simp_all

@[simp] theorem State.feIssue_mem (s : State) (p : Phys) (va : Word) (acq : Nat) (op : ReqOp) :
    (s.feIssue p va acq op).mem = s.mem := by simp [State.feIssue]
@[simp] theorem State.feLoad_canonical {s : State} (h : memWf s.mem = true) (d a : XReg) (acquire : Bool) (op : Nat → ReqOp) :
    Out.Canonical (s.feLoad d a acquire op) := by simp [State.feLoad, h]
@[simp] theorem execStf_canonical (a b : XReg) {s : State} (h : memWf s.mem = true) : Out.Canonical (execStf a b s) := by
  simp only [execStf]
  (repeat' split) <;> simp [h]

@[simp] theorem execSete_canonical (a : XReg) {s : State} (h : memWf s.mem = true) :
    Out.Canonical (execSete a s) := by simp [execSete, h]
@[simp] theorem State.fence_canonical {s : State} (h : memWf s.mem = true) (cls : Nat) (sc : BitVec 5) :
    Out.Canonical (s.fence cls sc) := by simp [State.fence, h]
@[simp] theorem execFenceAll_canonical (sc : BitVec 5) {s : State} (h : memWf s.mem = true) :
    Out.Canonical (execFenceAll sc s) := by simp [execFenceAll, h]
@[simp] theorem execFenceX_canonical (sc : BitVec 5) {s : State} (h : memWf s.mem = true) :
    Out.Canonical (execFenceX sc s) := by simp [execFenceX, h]
@[simp] theorem execLdaq_canonical (d a : XReg) (sc : BitVec 5) {s : State} (h : memWf s.mem = true) :
    Out.Canonical (execLdaq d a sc s) := by simp [execLdaq, h]
@[simp] theorem execStrl_canonical (a b : XReg) (sc : BitVec 5) {s : State} (h : memWf s.mem = true) :
    Out.Canonical (execStrl a b sc s) := by
  unfold execStrl
  split <;> simp [h]

@[simp] theorem execLdmig_canonical (d a : XReg) {s : State} (h : memWf s.mem = true) : Out.Canonical (execLdmig d a s) := by
  simp only [execLdmig]
  (repeat' split) <;> simp [h]

@[simp] theorem execMigrationInstall_canonical (i : Nat) {s : State} (h : memWf s.mem = true) :
    Out.Canonical (execMigrationInstall i s) := by
  simp only [execMigrationInstall]
  (repeat' split) <;> simp [h]

@[simp] theorem execCinv_canonical (a b : XReg) {s : State} (h : memWf s.mem = true) :
    Out.Canonical (execCinv a b s) := by simp [execCinv, h]
@[simp] theorem execPref_canonical (a : XReg) (l : BitVec 1) {s : State} (h : memWf s.mem = true) :
    Out.Canonical (execPref a l s) := by
  simp only [execPref]
  (repeat' split) <;> simp [h]

@[simp] theorem State.atomic_canonical {s : State} (h : memWf s.mem = true) (op : Nat) (w : BitVec 1) (sc : BitVec 2)
    (d a b : XReg) :
    Out.Canonical (s.atomic op w sc d a b) := by simp [State.atomic, h]
@[simp] theorem State.withBlock_canonical {s : State} (h : memWf s.mem = true) (a : XReg) (commit : Bool)
    (k : Nat → List Nat → List Phys → State) (hk : ∀ p q r, memWf (k p q r).mem = true) :
    Out.Canonical (s.withBlock a commit k) := by
  unfold State.withBlock
  extract_lets
  split
  · exact State.trapOut_canonical h ..
  split
  · split
    · exact State.trapOut_canonical h ..
    extract_lets
    refine Out.canonical_ite _ h (Out.canonical_ite _ (State.trapOut_canonical h ..) ?_)
    refine Out.canonical_ite _ h (Out.canonical_ite _ (State.trapOut_canonical h ..) ?_)
    split
    · simp [h]
    split
    · exact State.trapOut_canonical h ..
    split
    · exact State.trapOut_canonical h ..
    · exact Out.canonical_ite _ h (hk ..)
  · exact State.trapOut_canonical h ..

@[simp] theorem State.multiLine_mem (s : State) (a d : XReg) (ps : List Phys) (lines : List Nat) (op : ReqOp) :
    (s.multiLine a d ps lines op).mem = s.mem := by
  unfold State.multiLine
  extract_lets
  split
  · rfl
  · exact (foldl_mem (fun s (q : Phys) => s.onHere (·.l1Drop q.key)) (fun _ _ => rfl) _ _).trans (by simp)

@[simp] theorem execLrln_canonical (d a : XReg) {s : State} (h : memWf s.mem = true) :
    Out.Canonical (execLrln d a s) := by simp [execLrln, h]
@[simp] theorem execScln_canonical (d a : XReg) {s : State} (h : memWf s.mem = true) :
    Out.Canonical (execScln d a s) := by simp [execScln, h]

/-! ## Queues -/

theorem State.qmap_mem {s t : State} (q d : Nat) :
    s.qmap q d = some t → t.mem = s.mem := by
  intro e
  unfold State.qmap at e
  split at e
  · cases e
  split at e <;> cases e
  rfl

theorem State.qunmap_mem {s t : State} (q : Nat) :
    s.qunmap q = some t → t.mem = s.mem := by
  intro e
  unfold State.qunmap at e
  split at e <;> cases e
  rfl

theorem State.qsteps_mem {f : State → Nat → Option State} (hf : ∀ (s t : State)
    (q : Nat), f s q = some t → t.mem = s.mem) {s t : State} {l : List Nat}
    (e : s.qsteps f l = some t) : t.mem = s.mem := by
  induction l generalizing s with
  | nil => cases e; rfl
  | cons q l ih =>
    unfold State.qsteps at e
    split at e
    · cases e
    · exact (ih e).trans (hf _ _ _ ‹_›)

theorem State.qcfgWrite_mem {s t : State} (v : Word) :
    s.qcfgWrite v = some t → t.mem = s.mem := by
  intro e
  unfold State.qcfgWrite at e
  extract_lets new old moved at e
  have queued := fun (s t : State) (q d : Nat) => State.qmap_mem (s := s) (t := t) q d
  have maps : ∀ (s t : State) (q : Nat), (if 8 ≤ qField new q then s.qmap q (qField new q % 4) else some s) = some t →
      t.mem = s.mem := fun s t q e => by
    split at e
    · exact State.qmap_mem _ _ e
    · cases e; rfl
  have unmaps : ∀ (s t : State) (q : Nat), (if s.cur.isMapped q then s.qunmap q else some s) = some t →
      t.mem = s.mem := fun s t q e => by
    split at e
    · exact State.qunmap_mem _ e
    · cases e; rfl
  split at e
  · cases e
  rename_i first
  split at e
  · cases e
  rename_i second
  cases e
  exact (State.qsteps_mem maps second).trans (State.qsteps_mem unmaps first)

@[simp] theorem execQmap_canonical (q e : BitVec 2) {s : State} (h : memWf s.mem = true) :
    Out.Canonical (execQmap q e s) := by
  unfold execQmap
  split
  · exact State.trapOut_canonical h ..
  · rename_i mapped
    simpa [State.qmap_mem _ _ mapped] using h

@[simp] theorem execQunmap_canonical (q : BitVec 2) {s : State} (h : memWf s.mem = true) :
    Out.Canonical (execQunmap q s) := by
  unfold execQunmap
  split
  · exact State.trapOut_canonical h ..
  · rename_i unmapped
    simpa [State.qunmap_mem _ unmapped] using h

@[simp] theorem execQctl_canonical (q : BitVec 2) (a : XReg) {s : State} (h : memWf s.mem = true) :
    Out.Canonical (execQctl q a s) := by
  unfold execQctl
  (repeat' split) <;> simp [h]

@[simp] theorem State.acceptPush_mem (s : State) (n x dir : Nat) : (s.acceptPush n x dir).mem = s.mem := by
  unfold State.acceptPush
  split <;> simp

@[simp] theorem execQueueWordTransfer_canonical (c dir : Nat) {s : State} (h : memWf s.mem = true) :
    Out.Canonical (execQueueWordTransfer c dir s) := by
  simp only [execQueueWordTransfer]
  (repeat' split) <;> simp [h]

@[simp] theorem execLightHandlerEntry_canonical (c x : Nat) {s : State} (h : memWf s.mem = true) :
    Out.Canonical (execLightHandlerEntry c x s) := by
  simp only [execLightHandlerEntry]
  (repeat' split) <;> simp [h]

@[simp] theorem State.takeControl_mem (s : State) (n x d : Nat) : (s.takeControl n x d).mem = s.mem := by
  unfold State.takeControl
  split <;> simp

@[simp] theorem execHset_canonical (a : XReg) (e : BitVec 1) {s : State} (h : memWf s.mem = true) :
    Out.Canonical (execHset a e s) := by simp [execHset, h]
@[simp] theorem execHret_canonical {s : State} (h : memWf s.mem = true) : Out.Canonical (execHret s) := by simp [execHret, h]
@[simp] theorem execHmask_canonical (v : BitVec 1) {s : State} (h : memWf s.mem = true) :
    Out.Canonical (execHmask v s) := by simp [execHmask, h]
@[simp] theorem execTret_canonical {s : State} (h : memWf s.mem = true) : Out.Canonical (execTret s) := by simp [execTret, h]

/-! ## CSRs -/

theorem State.csrWrite_mem {s t : State} (n : BitVec 12) (v : Word) :
    s.csrWrite n v = some t → t.mem = s.mem := by
  intro e
  unfold State.csrWrite at e
  split at e
  case h_9 => exact State.qcfgWrite_mem _ e
  all_goals
    cases e
    rfl

@[simp] theorem State.csrOp_canonical {s : State} (h : memWf s.mem = true) (srcs : List XReg) (d : XReg) (writes : Bool)
    (n : BitVec 12) (new : Word → Word) :
    Out.Canonical (s.csrOp srcs d writes n new) := by
  unfold State.csrOp
  refine Out.canonical_ite _ (State.trapOut_canonical h ..) (Out.canonical_ite _ (State.trapOut_canonical h ..) (Out.canonical_ite _ h ?_))
  extract_lets
  split
  · split
    · exact State.trapOut_canonical h ..
    split
    · exact State.trapOut_canonical h ..
    · rename_i written
      simpa [State.csrWrite_mem _ _ written] using h
  · simp [h]

@[simp] theorem execCsrrw_canonical (d a : XReg) (c : BitVec 12) {s : State} (h : memWf s.mem = true) :
    Out.Canonical (execCsrrw d a c s) := by simp [execCsrrw, h]
@[simp] theorem execCsrrs_canonical (d a : XReg) (c : BitVec 12) {s : State} (h : memWf s.mem = true) :
    Out.Canonical (execCsrrs d a c s) := by simp [execCsrrs, h]
@[simp] theorem execCsrrc_canonical (d a : XReg) (c : BitVec 12) {s : State} (h : memWf s.mem = true) :
    Out.Canonical (execCsrrc d a c s) := by simp [execCsrrc, h]
@[simp] theorem execCsrrwi_canonical (d : XReg) (u : BitVec 5) (c : BitVec 12) {s : State} (h : memWf s.mem = true) :
    Out.Canonical (execCsrrwi d u c s) := by simp [execCsrrwi, h]
@[simp] theorem execCsrrsi_canonical (d : XReg) (u : BitVec 5) (c : BitVec 12) {s : State} (h : memWf s.mem = true) :
    Out.Canonical (execCsrrsi d u c s) := by simp [execCsrrsi, h]
@[simp] theorem execCsrrci_canonical (d : XReg) (u : BitVec 5) (c : BitVec 12) {s : State} (h : memWf s.mem = true) :
    Out.Canonical (execCsrrci d u c s) := by simp [execCsrrci, h]

/-! ## Families -/

@[simp] theorem State.acquire_mem (s : State) (n scope : Nat) : (s.acquire n scope).mem = s.mem := by simp [State.acquire]
@[simp] theorem State.setBar_mem (s : State) (n key : Nat) (b : Barrier) : (s.setBar n key b).mem = s.mem := by
  unfold State.setBar
  (repeat' split) <;> simp

@[simp] theorem State.barTest_mem (s : State) (n key : Nat) : (s.barTest n key).mem = s.mem := by simp [State.barTest]
@[simp] theorem State.barSend_mem (s : State) (what : BarEvent) (n uid key : Nat) :
    (s.barSend what n uid key).mem = s.mem := by rfl
@[simp] theorem State.barTake_mem (s : State) (q : BarItem) : (s.barTake q).mem = s.mem := by
  unfold State.barTake
  split <;> simp

@[simp] theorem State.barEnd_mem (s : State) : s.barEnd.mem = s.mem := by simp [State.barEnd]
@[simp] theorem State.leaveAll_mem (s : State) (n uid : Nat) :
    (s.leaveAll n uid).mem = s.mem := by
  unfold State.leaveAll
  refine foldl_mem _ (fun s b => ?_) _ _
  extract_lets
  split
  · exact State.barSend_mem ..
  · rfl

@[simp] theorem State.dropThread_mem (s : State) (n x uid : Nat) :
    (s.dropThread n x uid).mem = s.mem := by
  exact State.leaveAll_mem ..

@[simp] theorem State.vacate_mem (s : State) (n x : Nat) : (s.vacate n x).mem = s.mem := by simp [State.vacate]
@[simp] theorem State.restoreFrame_mem (s : State) (n x : Nat) : (s.restoreFrame n x).mem = s.mem := by
  simp only [State.restoreFrame]
  (repeat' split) <;> simp

@[simp] theorem State.endInline_mem (s : State) (n x : Nat) : (s.endInline n x).mem = s.mem := by simp [State.endInline]
@[simp] theorem State.restores_mem (s : State) : s.restores.mem = s.mem := by simp [State.restores]
@[simp] theorem State.settle_mem (s : State) (uid : Nat) : (s.settle uid).mem = s.mem := by
  unfold State.settle
  split <;> simp

@[simp] theorem State.toGrout_mem (s : State) (f : FamRef) : (s.toGrout f).mem = s.mem := by simp [State.toGrout]
@[simp] theorem State.ungrout_mem (s : State) (f : FamRef) : (s.ungrout f).mem = s.mem := by simp [State.ungrout]
@[simp] theorem State.memberGone_mem (s : State) (fam : Option FamRef) (uid : Nat) : (s.memberGone fam uid).mem = s.mem := by
  unfold State.memberGone
  split <;> simp

@[simp] theorem State.gangClose_mem (s : State) (f : FamRef) : (s.gangClose f).mem = s.mem := by
  simp only [State.gangClose]
  (repeat' split) <;> simp

@[simp] theorem State.unwait_mem (s : State) (uid : Nat) : (s.unwait uid).mem = s.mem := by simp [State.unwait]
@[simp] theorem State.endUid_mem (k : Nat) (s : State) (uid : Nat) : (State.endUid k s uid).mem = s.mem := by
  induction k generalizing s uid with
  | zero => rfl
  | succ k ih =>
    unfold State.endUid
    extract_lets ended settled
    have gone : settled.mem = s.mem := by
      refine (State.settle_mem ..).trans (foldl_mem _ (fun t f => ?_) _ _)
      have members : ∀ l : List (Nat × Nat × Nat × Nat), (l.foldl (fun s r => (State.endUid k s r.2.2.2).unwait r.2.2.2) t).mem = t.mem :=
        fun l =>
        foldl_mem _ (fun s r => (State.unwait_mem ..).trans (ih ..)) _ _
      simp [members]
    split
    · simp [gone]
    · split <;> simp [gone]

@[simp] theorem State.killFam_mem (s : State) (f : FamRef) : (s.killFam f).mem = s.mem := by simp [State.killFam]
@[simp] theorem State.descAsk_mem (s : State) (p : Phys) (va : Word) : (s.descAsk p va).mem = s.mem := by simp [State.descAsk]
@[simp] theorem State.makeFamily_mem (s : State) (a d : XReg) (w : Desc) :
    (s.makeFamily a d w).mem = s.mem := by simp [State.makeFamily]
@[simp] theorem State.create_canonical {s : State} (h : memWf s.mem = true) (a d : XReg) (va : Word) (q : DescRead) :
    Out.Canonical (s.create a d va q) := by
  simp only [State.create]
  (repeat' split) <;> simp [h]

@[simp] theorem execFcreate_canonical (d a : XReg) {s : State} (h : memWf s.mem = true) : Out.Canonical (execFcreate d a s) := by
  simp only [execFcreate]
  (repeat' split) <;> simp [h]

@[simp] theorem State.syncNew_canonical {s : State} (h : memWf s.mem = true) (d a : XReg) : Out.Canonical (s.syncNew d a) := by
  unfold State.syncNew
  (repeat' split) <;> simp [h]

@[simp] theorem execFsync_canonical (d a : XReg) {s : State} (h : memWf s.mem = true) : Out.Canonical (execFsync d a s) := by
  unfold execFsync
  (repeat' split) <;> simp [h]

@[simp] theorem State.trapFree_canonical {s : State} (h : memWf s.mem = true) (cause : Nat) :
    Out.Canonical (s.trapFree cause) := by simp [State.trapFree, h]
@[simp] theorem State.faultFree_mem (s : State) (n x cause : Nat) (upc : Word) : (s.faultFree n x cause upc).mem = s.mem := by rfl
@[simp] theorem execFbreak_canonical (a : XReg) {s : State} (h : memWf s.mem = true) : Out.Canonical (execFbreak a s) := by
  unfold execFbreak
  (repeat' split) <;> simp [h]

@[simp] theorem State.takeBreak_mem (s : State) (b : Break) : (s.takeBreak b).mem = s.mem := by simp [State.takeBreak]
@[simp] theorem State.takeBreaks_mem (s : State) : s.takeBreaks.mem = s.mem := by simp [State.takeBreaks]
@[simp] theorem execFkill_canonical (a : XReg) {s : State} (h : memWf s.mem = true) : Out.Canonical (execFkill a s) := by
  unfold execFkill
  (repeat' split) <;> simp [h]

@[simp] theorem execLsend_canonical (k : BitVec 2) (a : XReg) {s : State} (h : memWf s.mem = true) :
    Out.Canonical (execLsend k a s) := by
  unfold execLsend
  (repeat' split) <;> simp [h]

@[simp] theorem State.badLinks_mem (s : State) (g : Fam) (m n x : Nat) :
    (s.badLinks g m n x).mem = s.mem := by simp [State.badLinks]
@[simp] theorem State.takesLinks_mem (s : State) (g : Fam) (m n : Nat) :
    (s.takesLinks g m n).mem = s.mem := by simp [State.takesLinks]
@[simp] theorem State.walked_mem (s : State) (f : FamRef) : (s.walked f).mem = s.mem := by simp [State.walked]
@[simp] theorem execMemberStart_canonical (c x e : Nat) {s : State} (h : memWf s.mem = true) :
    Out.Canonical (execMemberStart c x e s) := by
  simp only [execMemberStart]
  (repeat' split) <;> simp [h]

@[simp] theorem State.storeFrame_mem (s : State) (c x key : Nat) (upc : Word) (words : List Word) :
    (s.storeFrame c x key upc words).mem = s.mem := by simp [State.storeFrame]
@[simp] theorem execInlineMemberTake_canonical (c x : Nat) {s : State} (h : memWf s.mem = true) :
    Out.Canonical (execInlineMemberTake c x s) := by
  unfold execInlineMemberTake
  split <;> simp [h]

@[simp] theorem State.zeroTarget_mem (s : State) (uid t : Nat) : (s.zeroTarget uid t).mem = s.mem := by
  unfold State.zeroTarget
  split <;> simp

@[simp] theorem State.famFinish_mem (s : State) (f : FamRef) : (s.famFinish f).mem = s.mem := by simp [State.famFinish]
@[simp] theorem execFamilyFinish_canonical (c x e : Nat) {s : State} (h : memWf s.mem = true) :
    Out.Canonical (execFamilyFinish c x e s) := by
  simp only [execFamilyFinish]
  (repeat' split) <;> simp [h]

/-! ## Threads, barriers and mailboxes -/

@[simp] theorem execTself_canonical (d : XReg) (sel : BitVec 5) {s : State} (h : memWf s.mem = true) :
    Out.Canonical (execTself d sel s) := by simp [execTself, h]
@[simp] theorem execThalt_canonical {s : State} (h : memWf s.mem = true) : Out.Canonical (execThalt s) := by
  simp only [execThalt]
  (repeat' split) <;> simp [h]

@[simp] theorem State.barrier_canonical {s : State} (h : memWf s.mem = true) (n : BitVec 10) (k : Nat → Out)
    (hk : ∀ p, Out.Canonical (k p)) :
    Out.Canonical (s.barrier n k) := by
  unfold State.barrier
  (repeat' split) <;> simp_all

@[simp] theorem State.barWait_mem (s : State) (key ph : Nat) : (s.barWait key ph).mem = s.mem := by simp [State.barWait]
@[simp] theorem State.barArrive_mem (s : State) (key : Nat) : (s.barArrive key).mem = s.mem := by rfl
@[simp] theorem State.arriveAt_canonical {s : State} (h : memWf s.mem = true) (key : Nat) (waits : Bool) :
    Out.Canonical (s.arriveAt key waits) := by
  simp only [State.arriveAt]
  (repeat' split) <;> simp [h]

@[simp] theorem execBjoin_canonical (n : BitVec 10) {s : State} (h : memWf s.mem = true) :
    Out.Canonical (execBjoin n s) := by simp [execBjoin, h]
@[simp] theorem execBleave_canonical (n : BitVec 10) {s : State} (h : memWf s.mem = true) :
    Out.Canonical (execBleave n s) := by simp [execBleave, h]
@[simp] theorem execBarw_canonical (n : BitVec 10) {s : State} (h : memWf s.mem = true) : Out.Canonical (execBarw n s) := by
  unfold execBarw
  split <;> simp [h]

@[simp] theorem execBara_canonical (n : BitVec 10) {s : State} (h : memWf s.mem = true) :
    Out.Canonical (execBara n s) := by simp [execBara, h]
@[simp] theorem execBwait_canonical (n : BitVec 10) {s : State} (h : memWf s.mem = true) :
    Out.Canonical (execBwait n s) := by
  refine State.barrier_canonical h n _ fun key => ?_
  split
  · simp [h]
  · refine Out.canonical_ite _ (by simp [h]) ?_
    split <;> simp [h]

@[simp] theorem execMbsend_canonical (a b : XReg) {s : State} (h : memWf s.mem = true) : Out.Canonical (execMbsend a b s) := by
  unfold execMbsend
  split <;> simp [h]

@[simp] theorem execMbrecv_canonical (d : XReg) {s : State} (h : memWf s.mem = true) : Out.Canonical (execMbrecv d s) := by
  unfold execMbrecv
  (repeat' split) <;> simp [h]

@[simp] theorem execMbpoll_canonical (d : XReg) (g : GReg) {s : State} (h : memWf s.mem = true) :
    Out.Canonical (execMbpoll d g s) := by
  unfold execMbpoll
  (repeat' split) <;> simp [h]

@[simp] theorem State.landWaiting_mem (s : State) (n x : Nat) (w : Word) :
    (s.landWaiting n x w).mem = s.mem := by simp [State.landWaiting]
@[simp] theorem execMailboxDelivery_canonical (c : Nat) {s : State} (h : memWf s.mem = true) :
    Out.Canonical (execMailboxDelivery c s) := by
  unfold execMailboxDelivery
  (repeat' split) <;> simp [h]

@[simp] theorem execWfe_canonical (l : BitVec 4) {s : State} (h : memWf s.mem = true) :
    Out.Canonical (execWfe l s) := by simp [execWfe, h]
@[simp] theorem execEvsig_canonical (a : XReg) (l : BitVec 4) {s : State} (h : memWf s.mem = true) :
    Out.Canonical (execEvsig a l s) := by
  unfold execEvsig
  split <;> simp [h]

@[simp] theorem execEventSignalArrival_canonical (c : Nat) {s : State} (h : memWf s.mem = true) :
    Out.Canonical (execEventSignalArrival c s) := by
  unfold execEventSignalArrival
  split <;> simp [h]

end Sys2Proof.Machine
end

section
/-! PROOF. Canonical memory (R55 to R60): what the row, matrix and AMU instructions leave of memory. -/

namespace Sys2Proof.Machine

open Sys2Proof

/-! ## Row instructions -/

@[simp] theorem State.withRow_canonical {s : State} (h : memWf s.mem = true) (f : VReg) (k : Nat → Out)
    (hk : ∀ p, Out.Canonical (k p)) :
    Out.Canonical (s.withRow f k) := by
  unfold State.withRow
  (repeat' split) <;> simp_all

@[simp] theorem State.putRow_canonical {s : State} (h : memWf s.mem = true) (p : Nat) (v : Row) (f : Flags) :
    Out.Canonical (s.putRow p v f) := by simp [State.putRow, h]
@[simp] theorem State.byFrm_canonical {s : State} (h : memWf s.mem = true) (k : Out) (hk : Out.Canonical k) :
    Out.Canonical (s.byFrm k) := by
  unfold State.byFrm
  (repeat' split) <;> simp_all

@[simp] theorem State.lanewise3_canonical {s : State} (h : memWf s.mem = true) (d a b : VReg) (ok : Nat → Bool)
    (f : Nat → Nat → Nat → Nat → Nat × Flags) :
    Out.Canonical (s.lanewise3 d a b ok f) := by
  exact State.withRow_canonical h d _ fun pd => State.withRow_canonical h a _ fun pa => State.withRow_canonical h b _ fun pb =>
    Out.canonical_ite _ (State.trapOut_canonical h ..) (State.putRow_canonical h ..)

@[simp] theorem State.lanewise2_canonical {s : State} (h : memWf s.mem = true) (d a : VReg) (ok : Nat → Bool)
    (f : Nat → Nat → Nat × Flags) :
    Out.Canonical (s.lanewise2 d a ok f) := by simp [State.lanewise2, h]
@[simp] theorem State.vfloat_canonical {s : State} (h : memWf s.mem = true) (d a b : VReg)
    (f : Fmt → Nat → FVal → FVal → FVal → Nat × Flags) :
    Out.Canonical (s.vfloat d a b f) := by simp [State.vfloat, h]
@[simp] theorem execVadd_canonical (_g : GReg) (d a b : VReg) {s : State} (h : memWf s.mem = true) :
    Out.Canonical (execVadd _g d a b s) := by simp [execVadd, h]
@[simp] theorem execVsub_canonical (_g : GReg) (d a b : VReg) {s : State} (h : memWf s.mem = true) :
    Out.Canonical (execVsub _g d a b s) := by simp [execVsub, h]
@[simp] theorem execVmul_canonical (_g : GReg) (d a b : VReg) {s : State} (h : memWf s.mem = true) :
    Out.Canonical (execVmul _g d a b s) := by simp [execVmul, h]
@[simp] theorem execVfma_canonical (_g : GReg) (d a b : VReg) {s : State} (h : memWf s.mem = true) :
    Out.Canonical (execVfma _g d a b s) := by simp [execVfma, h]
@[simp] theorem execVfms_canonical (_g : GReg) (d a b : VReg) {s : State} (h : memWf s.mem = true) :
    Out.Canonical (execVfms _g d a b s) := by simp [execVfms, h]
@[simp] theorem execVmin_canonical (_g : GReg) (d a b : VReg) {s : State} (h : memWf s.mem = true) :
    Out.Canonical (execVmin _g d a b s) := by simp [execVmin, h]
@[simp] theorem execVmax_canonical (_g : GReg) (d a b : VReg) {s : State} (h : memWf s.mem = true) :
    Out.Canonical (execVmax _g d a b s) := by simp [execVmax, h]
@[simp] theorem execVabs_canonical (_g : GReg) (d a : VReg) {s : State} (h : memWf s.mem = true) :
    Out.Canonical (execVabs _g d a s) := by simp [execVabs, h]
@[simp] theorem execVneg_canonical (_g : GReg) (d a : VReg) {s : State} (h : memWf s.mem = true) :
    Out.Canonical (execVneg _g d a s) := by simp [execVneg, h]
@[simp] theorem State.vint_canonical {s : State} (h : memWf s.mem = true) (d a b : VReg) (f : BitVec 32 → BitVec 32 → BitVec 32) :
    Out.Canonical (s.vint d a b f) := by simp [State.vint, h]
@[simp] theorem State.vbits_canonical {s : State} (h : memWf s.mem = true) (d a b : VReg) (f : Row → Row → Row) :
    Out.Canonical (s.vbits d a b f) := by
  exact State.withRow_canonical h d _ fun pd => State.withRow_canonical h a _ fun pa => State.withRow_canonical h b _ fun pb =>
    State.putRow_canonical h ..

@[simp] theorem execViadd_canonical (_g : GReg) (d a b : VReg) {s : State} (h : memWf s.mem = true) :
    Out.Canonical (execViadd _g d a b s) := by simp [execViadd, h]
@[simp] theorem execVisub_canonical (_g : GReg) (d a b : VReg) {s : State} (h : memWf s.mem = true) :
    Out.Canonical (execVisub _g d a b s) := by simp [execVisub, h]
@[simp] theorem execVimul_canonical (_g : GReg) (d a b : VReg) {s : State} (h : memWf s.mem = true) :
    Out.Canonical (execVimul _g d a b s) := by simp [execVimul, h]
@[simp] theorem execVand_canonical (_g : GReg) (d a b : VReg) {s : State} (h : memWf s.mem = true) :
    Out.Canonical (execVand _g d a b s) := by simp [execVand, h]
@[simp] theorem execVor_canonical (_g : GReg) (d a b : VReg) {s : State} (h : memWf s.mem = true) :
    Out.Canonical (execVor _g d a b s) := by simp [execVor, h]
@[simp] theorem execVxor_canonical (_g : GReg) (d a b : VReg) {s : State} (h : memWf s.mem = true) :
    Out.Canonical (execVxor _g d a b s) := by simp [execVxor, h]
@[simp] theorem execVshl_canonical (_g : GReg) (d a b : VReg) {s : State} (h : memWf s.mem = true) :
    Out.Canonical (execVshl _g d a b s) := by simp [execVshl, h]
@[simp] theorem execVshrl_canonical (_g : GReg) (d a b : VReg) {s : State} (h : memWf s.mem = true) :
    Out.Canonical (execVshrl _g d a b s) := by simp [execVshrl, h]
@[simp] theorem execVshra_canonical (_g : GReg) (d a b : VReg) {s : State} (h : memWf s.mem = true) :
    Out.Canonical (execVshra _g d a b s) := by simp [execVshra, h]
@[simp] theorem execVimin_canonical (_g : GReg) (d a b : VReg) {s : State} (h : memWf s.mem = true) :
    Out.Canonical (execVimin _g d a b s) := by simp [execVimin, h]
@[simp] theorem execVimax_canonical (_g : GReg) (d a b : VReg) {s : State} (h : memWf s.mem = true) :
    Out.Canonical (execVimax _g d a b s) := by simp [execVimax, h]
@[simp] theorem State.vcmp_canonical {s : State} (h : memWf s.mem = true) (d : KReg) (a b : VReg) (ok : Nat → Bool)
    (f : Nat → Nat → Nat → Bool × Flags) :
    Out.Canonical (s.vcmp d a b ok f) := by
  exact State.withRow_canonical h a _ fun pa => State.withRow_canonical h b _ fun pb => Out.canonical_ite _ (State.trapOut_canonical h ..) h

@[simp] theorem State.vcmpF_canonical {s : State} (h : memWf s.mem = true) (d : KReg) (a b : VReg) (ordered : Bool)
    (f : FVal → FVal → Bool) :
    Out.Canonical (s.vcmpF d a b ordered f) := by simp [State.vcmpF, h]
@[simp] theorem State.vcmpI_canonical {s : State} (h : memWf s.mem = true) (d : KReg) (a b : VReg)
    (f : BitVec 32 → BitVec 32 → Bool) :
    Out.Canonical (s.vcmpI d a b f) := by simp [State.vcmpI, h]
@[simp] theorem execVcmpFeq_canonical (_g : GReg) (d : KReg) (a b : VReg) {s : State} (h : memWf s.mem = true) :
    Out.Canonical (execVcmpFeq _g d a b s) := by simp [execVcmpFeq, h]
@[simp] theorem execVcmpFne_canonical (_g : GReg) (d : KReg) (a b : VReg) {s : State} (h : memWf s.mem = true) :
    Out.Canonical (execVcmpFne _g d a b s) := by simp [execVcmpFne, h]
@[simp] theorem execVcmpFlt_canonical (_g : GReg) (d : KReg) (a b : VReg) {s : State} (h : memWf s.mem = true) :
    Out.Canonical (execVcmpFlt _g d a b s) := by simp [execVcmpFlt, h]
@[simp] theorem execVcmpFle_canonical (_g : GReg) (d : KReg) (a b : VReg) {s : State} (h : memWf s.mem = true) :
    Out.Canonical (execVcmpFle _g d a b s) := by simp [execVcmpFle, h]
@[simp] theorem execVcmpIeq_canonical (_g : GReg) (d : KReg) (a b : VReg) {s : State} (h : memWf s.mem = true) :
    Out.Canonical (execVcmpIeq _g d a b s) := by simp [execVcmpIeq, h]
@[simp] theorem execVcmpIne_canonical (_g : GReg) (d : KReg) (a b : VReg) {s : State} (h : memWf s.mem = true) :
    Out.Canonical (execVcmpIne _g d a b s) := by simp [execVcmpIne, h]
@[simp] theorem execVcmpIlt_canonical (_g : GReg) (d : KReg) (a b : VReg) {s : State} (h : memWf s.mem = true) :
    Out.Canonical (execVcmpIlt _g d a b s) := by simp [execVcmpIlt, h]
@[simp] theorem execVcmpIle_canonical (_g : GReg) (d : KReg) (a b : VReg) {s : State} (h : memWf s.mem = true) :
    Out.Canonical (execVcmpIle _g d a b s) := by simp [execVcmpIle, h]
@[simp] theorem execVsel_canonical (k : KReg) (d a b : VReg) {s : State} (h : memWf s.mem = true) :
    Out.Canonical (execVsel k d a b s) := by
  exact State.withRow_canonical h d _ fun pd => State.withRow_canonical h a _ fun pa => State.withRow_canonical h b _ fun pb =>
    Out.canonical_ite _ (State.trapOut_canonical h ..) (State.putRow_canonical h ..)

@[simp] theorem State.klog_canonical {s : State} (h : memWf s.mem = true) (d a b : KReg) (f : Word → Word → Word) :
    Out.Canonical (s.klog d a b f) := by simp [State.klog, h]
@[simp] theorem execKand_canonical (_g : GReg) (d a b : KReg) {s : State} (h : memWf s.mem = true) :
    Out.Canonical (execKand _g d a b s) := by simp [execKand, h]
@[simp] theorem execKor_canonical (_g : GReg) (d a b : KReg) {s : State} (h : memWf s.mem = true) :
    Out.Canonical (execKor _g d a b s) := by simp [execKor, h]
@[simp] theorem execKxor_canonical (_g : GReg) (d a b : KReg) {s : State} (h : memWf s.mem = true) :
    Out.Canonical (execKxor _g d a b s) := by simp [execKxor, h]
@[simp] theorem execKandn_canonical (_g : GReg) (d a b : KReg) {s : State} (h : memWf s.mem = true) :
    Out.Canonical (execKandn _g d a b s) := by simp [execKandn, h]
@[simp] theorem execKfromx_canonical (_g : GReg) (d : KReg) (a : XReg) {s : State} (h : memWf s.mem = true) :
    Out.Canonical (execKfromx _g d a s) := by simp [execKfromx, h]
@[simp] theorem execVbcx_canonical (_g : GReg) (d : VReg) (a : XReg) {s : State} (h : memWf s.mem = true) :
    Out.Canonical (execVbcx _g d a s) := by
  unfold execVbcx
  split <;> simp [h]

@[simp] theorem execVmvx_canonical (_g : GReg) (d : XReg) (v : VReg) (l : BitVec 5) {s : State} (h : memWf s.mem = true) :
    Out.Canonical (execVmvx _g d v l s) := by
  exact State.withRow_canonical h v _ fun p => Out.canonical_ite _ (State.trapOut_canonical h ..) (State.put_canonical h ..)

@[simp] theorem execVmxv_canonical (_g : GReg) (d : VReg) (a : XReg) (l : BitVec 5) {s : State} (h : memWf s.mem = true) :
    Out.Canonical (execVmxv _g d a l s) := by
  refine State.withRow_canonical h d _ fun p =>
    Out.canonical_ite _ (State.trapOut_canonical h ..) (Out.canonical_ite _ (State.trapOut_canonical h ..) ?_)
  simp [h]

@[simp] theorem execVcvt_canonical (_g : GReg) (d a : VReg) (sat : BitVec 1) (t : BitVec 4) {s : State} (h : memWf s.mem = true) :
    Out.Canonical (execVcvt _g d a sat t s) := by
  exact State.byFrm_canonical h _ (State.withRow_canonical h d _ fun pd => State.withRow_canonical h a _ fun pa =>
    Out.canonical_ite _ (State.trapOut_canonical h ..) (State.putRow_canonical h ..))

@[simp] theorem execVpack_canonical (_g : GReg) (d a b : VReg) {s : State} (h : memWf s.mem = true) :
    Out.Canonical (execVpack _g d a b s) := by
  exact State.withRow_canonical h d _ fun pd => State.withRow_canonical h a _ fun pa => State.withRow_canonical h b _ fun pb =>
    State.putRow_canonical h ..

@[simp] theorem execVunpack_canonical (_g : GReg) (d a : VReg) (p : BitVec 2) (t : BitVec 3) {s : State}
    (h : memWf s.mem = true) :
    Out.Canonical (execVunpack _g d a p t s) := by
  exact State.withRow_canonical h d _ fun pd => State.withRow_canonical h a _ fun pa =>
    Out.canonical_ite _ (State.trapOut_canonical h ..) (State.putRow_canonical h ..)

@[simp] theorem execVrsum_canonical (_g : GReg) (d a : VReg) {s : State} (h : memWf s.mem = true) :
    Out.Canonical (execVrsum _g d a s) := by
  exact State.withRow_canonical h a _ fun pa => Out.canonical_ite _ (State.trapOut_canonical h ..) (State.withRow_canonical h d _ fun pd =>
    Out.canonical_ite _ (State.trapOut_canonical h ..) (State.putRow_canonical h ..))

@[simp] theorem execVrmax_canonical (_g : GReg) (d a : VReg) {s : State} (h : memWf s.mem = true) :
    Out.Canonical (execVrmax _g d a s) := by
  exact State.withRow_canonical h d _ fun pd => State.withRow_canonical h a _ fun pa =>
    Out.canonical_ite _ (State.trapOut_canonical h ..) (State.putRow_canonical h ..)

@[simp] theorem State.permute_canonical {s : State} (h : memWf s.mem = true) (pd pa : Nat) (f : Nat → Option Nat) :
    Out.Canonical (s.permute pd pa f) := by simp [State.permute, h]
@[simp] theorem execVperm_canonical (_g : GReg) (d a b : VReg) {s : State} (h : memWf s.mem = true) :
    Out.Canonical (execVperm _g d a b s) := by
  exact State.withRow_canonical h d _ fun pd => State.withRow_canonical h a _ fun pa => State.withRow_canonical h b _ fun pb =>
    State.permute_canonical h ..

@[simp] theorem execVslide_canonical (_g : GReg) (d a : VReg) (n : BitVec 5) {s : State} (h : memWf s.mem = true) :
    Out.Canonical (execVslide _g d a n s) := by
  exact State.withRow_canonical h d _ fun pd => State.withRow_canonical h a _ fun pa => State.permute_canonical h ..

@[simp] theorem execVbcast_canonical (_g : GReg) (d a : VReg) (l : BitVec 5) {s : State} (h : memWf s.mem = true) :
    Out.Canonical (execVbcast _g d a l s) := by
  exact State.withRow_canonical h d _ fun pd => State.withRow_canonical h a _ fun pa =>
    Out.canonical_ite _ (State.trapOut_canonical h ..) (State.permute_canonical h ..)

@[simp] theorem State.withNum_canonical {s : State} (h : memWf s.mem = true) (n : Nat) (k : Nat → Out)
    (hk : ∀ p, Out.Canonical (k p)) :
    Out.Canonical (s.withNum n k) := by
  unfold State.withNum
  (repeat' split) <;> simp_all

@[simp] theorem State.scan_canonical {s : State} (h : memWf s.mem = true) (d a : VReg) (m : KReg) :
    Out.Canonical (s.scan d a m) := by
  exact State.withNum_canonical h _ _ fun pd => State.withNum_canonical h _ _ fun pa => State.withNum_canonical h _ _ fun pb =>
    State.withNum_canonical h _ _ fun pr => Out.canonical_ite _ (State.trapOut_canonical h ..) (State.putRow_canonical h ..)

@[simp] theorem execVscanc_canonical (_g : GReg) (d a : VReg) (k : KReg) {s : State} (h : memWf s.mem = true) :
    Out.Canonical (execVscanc _g d a k s) := by
  exact State.withNum_canonical h _ _ fun pd => State.withNum_canonical h _ _ fun pe => State.withNum_canonical h _ _ fun pa =>
    State.withNum_canonical h _ _ fun pb => State.withNum_canonical h _ _ fun ph => State.withNum_canonical h _ _ fun pl =>
      Out.canonical_ite _ (State.trapOut_canonical h ..) (State.putRow_canonical (State.setRowAt_memWf h ..) ..)

@[simp] theorem execRepv_canonical (_g : GReg) (l c g : BitVec 5) {s : State} (h : memWf s.mem = true) :
    Out.Canonical (execRepv _g l c g s) := by
  unfold execRepv
  split <;> simp [h]

@[simp] theorem execTcfg_canonical (_g : GReg) (t : BitVec 1) (y : BitVec 5) {s : State} (h : memWf s.mem = true) :
    Out.Canonical (execTcfg _g t y s) := by
  unfold execTcfg
  split <;> simp [h]

/-! ## Row loads and stores -/

@[simp] theorem State.addJoin_mem (s : State) (row ty left : Nat) : (s.addJoin row ty left).mem = s.mem := by rfl
@[simp] theorem execVld_canonical (_g : GReg) (d : VReg) (a : XReg) {s : State} (h : memWf s.mem = true) :
    Out.Canonical (execVld _g d a s) := by
  unfold execVld
  split <;> simp [h]

@[simp] theorem State.rowStore_canonical {s : State} (h : memWf s.mem = true) (d : VReg) (a : XReg) (bulk : Bool) :
    Out.Canonical (s.rowStore d a bulk) := by
  unfold State.rowStore
  split <;> simp [h]

@[simp] theorem State.strided_canonical {s : State} (h : memWf s.mem = true) (ty : Nat) (base stride : Word) (write : Bool)
    (k : Phys → Word → Bool → List (Nat × Nat) → State) (hk : ∀ p q r u, memWf (k p q r u).mem = true) :
    Out.Canonical (s.strided ty base stride write k) := by
  exact Out.canonical_ite _ (State.trapOut_canonical h ..) (State.withAccess_canonical h _ _ _ _ _ _ _ _ fun p r g =>
    ite_memWf _ h (hk ..))

@[simp] theorem State.loadGroups_mem (s : State) (pd ty : Nat) (p : Phys) (gs : List (Home × Nat × Word × List (Nat × Nat))) :
    (s.loadGroups pd ty p gs).mem = s.mem := by simp [State.loadGroups]
@[simp] theorem State.storeGroups_mem (s : State) (data : Row) (ty : Nat) (p : Phys) (gs : List (Home × Nat × Word × List
    (Nat × Nat))) :
    (s.storeGroups data ty p gs).mem = s.mem := by simp [State.storeGroups]
@[simp] theorem execVlds_canonical (_g : GReg) (d : VReg) (a b : XReg) {s : State} (h : memWf s.mem = true) :
    Out.Canonical (execVlds _g d a b s) := by
  exact State.withRow_canonical h d _ fun pd => Out.canonical_ite _ (State.trapOut_canonical h ..)
    (State.strided_canonical h _ _ _ _ _ fun p va g els => by simp [h])

@[simp] theorem execVsts_canonical (_g : GReg) (d : VReg) (a b : XReg) {s : State} (h : memWf s.mem = true) :
    Out.Canonical (execVsts _g d a b s) := by
  refine State.withRow_canonical h d _ fun pd => Out.canonical_ite _ (State.trapOut_canonical h ..) ?_
  refine State.strided_canonical h _ _ _ _ _ fun p va g els => ?_
  have stored : ∀ (l : List (Nat × Nat)) (f : Nat × Nat → Core → Core) (t : State), (l.foldl (fun s e => s.onHere (f e)) t).mem = t.mem :=
    fun l f t => foldl_mem (fun s e => s.onHere (f e)) (fun _ _ => rfl) l t
  simp [h, stored]

@[simp] theorem State.indexed_canonical {s : State} (h : memWf s.mem = true) (d b : VReg) (a : XReg)
    (k : Nat → Nat → Nat → Word → List (Nat × Nat) → State) (hk : ∀ p q r u v, memWf (k p q r u v).mem = true) :
    Out.Canonical (s.indexed d b a k) := by
  refine State.withRow_canonical h d _ fun pd => State.withRow_canonical h b _ fun pb =>
    Out.canonical_ite _ (State.trapOut_canonical h ..) (Out.canonical_ite _ (State.trapOut_canonical h ..) ?_)
  extract_lets
  split
  · exact Out.canonical_ite _ (State.trapOut_canonical h ..) (Out.canonical_ite _ (State.trapOut_canonical h ..)
      (Out.canonical_ite _ (State.trapOut_canonical h ..) (Out.canonical_ite _ h (hk ..))))
  · exact State.trapOut_canonical h ..

@[simp] theorem execVgath_canonical (_g : GReg) (d : VReg) (a : XReg) (b : VReg) {s : State} (h : memWf s.mem = true) :
    Out.Canonical (execVgath _g d a b s) := by
  exact State.indexed_canonical h _ _ _ _ fun pd c off va els => by simp [h]

@[simp] theorem execVscat_canonical (_g : GReg) (d : VReg) (a : XReg) (b : VReg) {s : State} (h : memWf s.mem = true) :
    Out.Canonical (execVscat _g d a b s) := by
  exact State.indexed_canonical h _ _ _ _ fun pd c off va els => by simp [h]

@[simp] theorem State.sfu_canonical {s : State} (h : memWf s.mem = true) (fn : Nat) (d a : VReg) :
    Out.Canonical (s.sfu fn d a) := by
  exact State.withRow_canonical h d _ fun pd => State.withRow_canonical h a _ fun pa =>
    Out.canonical_ite _ (State.trapOut_canonical h ..) (Out.canonical_ite _ h h)

@[simp] theorem execSfuService_canonical (c : Nat) {s : State} (h : memWf s.mem = true) : Out.Canonical (execSfuService c s) := by
  unfold execSfuService
  split <;> simp [h]

@[simp] theorem execSfuResultWrite_canonical (c i : Nat) {s : State} (h : memWf s.mem = true) :
    Out.Canonical (execSfuResultWrite c i s) := by
  simp only [execSfuResultWrite]
  (repeat' split) <;> simp [h]

/-! ## Matrix instructions -/

@[simp] theorem State.withTile_canonical {s : State} (h : memWf s.mem = true) (t : BitVec 1) (k : Nat → Out)
    (hk : ∀ p, Out.Canonical (k p)) :
    Out.Canonical (s.withTile t k) := by
  unfold State.withTile
  (repeat' split) <;> simp_all

@[simp] theorem State.loadB_canonical {s : State} (h : memWf s.mem = true) (t : BitVec 1) (a b : XReg) (mode : Nat)
    (sparse : Bool) :
    Out.Canonical (s.loadB t a b mode sparse) := by
  refine State.withTile_canonical h t _ fun tile => ?_
  extract_lets
  (repeat' apply Out.canonical_ite) <;> simp [h]

@[simp] theorem State.engage_mem (s : State) (tile : Nat) (gang : Option Nat) (op : TileOp) :
    (s.engage tile gang op).mem = s.mem := by rfl
@[simp] theorem State.gangTake_mem (s : State) : s.gangTake.mem = s.mem := by rfl
@[simp] theorem State.gangOff_mem (s : State) : s.gangOff.mem = s.mem := by simp [State.gangOff]
@[simp] theorem State.multiply_canonical {s : State} (h : memWf s.mem = true) (t : BitVec 1) (a b : XReg) (kr : KReg)
    (mode : Nat) (gang : Bool) :
    Out.Canonical (s.multiply t a b kr mode gang) := by
  refine State.withTile_canonical h t _ fun tile => ?_
  extract_lets
  (repeat' apply Out.canonical_ite) <;>
    simp +zetaDelta only [Out.canonical_next, State.trapOut_canonical h, State.trapFree_canonical h, State.retire_mem,
    State.gangTake_mem, State.engage_mem, State.pops_mem, h]

@[simp] theorem execGangOperation_canonical (q : Nat) {s : State} (h : memWf s.mem = true) :
    Out.Canonical (execGangOperation q s) := by
  simp only [execGangOperation]
  (repeat' split) <;> simp [h]

@[simp] theorem execAccz_canonical (_g : GReg) (t : BitVec 1) (kr : KReg) {s : State} (h : memWf s.mem = true) :
    Out.Canonical (execAccz _g t kr s) := by simp [execAccz, h]
@[simp] theorem execAccld_canonical (_g : GReg) (t : BitVec 1) (a b : XReg) (kr : KReg) {s : State} (h : memWf s.mem = true) :
    Out.Canonical (execAccld _g t a b kr s) := by
  refine State.withTile_canonical h t _ fun tile => ?_
  extract_lets
  (repeat' apply Out.canonical_ite) <;> simp [h]

@[simp] theorem execAccst_canonical (_g : GReg) (t : BitVec 1) (a b : XReg) (kr : KReg) {s : State} (h : memWf s.mem = true) :
    Out.Canonical (execAccst _g t a b kr s) := by
  refine State.withTile_canonical h t _ fun tile => ?_
  extract_lets
  (repeat' apply Out.canonical_ite) <;> simp [h]

theorem State.setAcc_mem (s : State) (n t p v : Nat) :
    (s.setAcc n t p v).mem = memPut s.mem (tileKey n t (p / 16) + 4 * (p % 16)) (leBytes 4 v) := by simp only [State.setAcc]

@[simp] theorem State.setAcc_memWf {s : State} (h : memWf s.mem = true) (n t p v : Nat) :
    memWf (s.setAcc n t p v).mem = true := by
  rw [State.setAcc_mem]
  exact memWf_memPut _ _ h

@[simp] theorem State.closePeriod_memWf {s : State} (h : memWf s.mem = true) (n t : Nat) :
    memWf (s.closePeriod n t).mem = true := by
  unfold State.closePeriod
  extract_lets
  exact ite_memWf _ h ((congrArg memWf (State.onCore_mem ..)).trans (foldl_memWf (fun s p hs => ite_memWf _ (State.setAcc_memWf hs ..) hs) _ h))

@[simp] theorem State.clearPeriod_mem (s : State) (n t : Nat) : (s.clearPeriod n t).mem = s.mem := by rfl
@[simp] theorem State.stage_memWf {s : State} (h : memWf s.mem = true) (n t mode : Nat) (p : List (Option Nat))
    (sA sB : List Nat) :
    memWf (s.stage n t mode p sA sB).mem = true := by
  unfold State.stage
  extract_lets
  exact ite_memWf _ (State.closePeriod_memWf (s := State.onCore ..) h ..) h

@[simp] theorem State.regenerate_mem (s : State) (n t : Nat) (on : Nat → Bool) : (s.regenerate n t on).mem = s.mem := by rfl
@[simp] theorem State.tileStep_memWf {s : State} (h : memWf s.mem = true) (n : Nat) (m : MatOp) :
    memWf (s.tileStep n m).mem = true := by
  have set : ∀ (f : State → Nat → State) (s : State), (∀ s p, memWf s.mem = true → memWf (f s p).mem = true) → memWf s.mem = true →
      memWf ((List.range 256).foldl f s).mem = true := fun f s hf hs => foldl_memWf hf _ hs
  unfold State.tileStep
  split
  · exact h
  · extract_lets t
    refine (congrArg memWf (State.regenerate_mem ..)).trans (set _ t (fun s p hs => ite_memWf _ (State.setAcc_memWf hs ..) hs) ?_)
    exact (congrArg memWf (State.clearPeriod_mem ..)).trans h
  · extract_lets t
    refine (congrArg memWf (State.regenerate_mem ..)).trans (set _ t (fun s p hs => ?_) ((congrArg memWf (State.clearPeriod_mem ..)).trans h))
    split
    · exact State.setAcc_memWf hs ..
    · exact hs
  · extract_lets t
    have moded : memWf t.mem = true := ite_memWf _ h (State.closePeriod_memWf h ..)
    refine ite_memWf _ (set _ t (fun s p hs => ?_) moded) (State.stage_memWf moded ..)
    split
    · exact State.setAcc_memWf hs ..
    · exact hs
  · extract_lets t
    refine set _ t (fun s p hs => ?_) (State.closePeriod_memWf h ..)
    split
    · exact hs
    · exact hs

@[simp] theorem execTileWrite_canonical (c : Nat) {s : State} (h : memWf s.mem = true) : Out.Canonical (execTileWrite c s) := by
  unfold execTileWrite
  split <;> simp [h]

/-! ## The AMU -/

@[simp] theorem State.amuSend_mem (s : State) (op dst : Nat) (a b : Word) (block : List Byte) :
    (s.amuSend op dst a b block).mem = s.mem := by rfl
@[simp] theorem execMbind_canonical (d a : XReg) {s : State} (h : memWf s.mem = true) : Out.Canonical (execMbind d a s) := by
  simp only [execMbind]
  (repeat' split) <;> simp [h]

@[simp] theorem execMclass_canonical (d a b : XReg) {s : State} (h : memWf s.mem = true) :
    Out.Canonical (execMclass d a b s) := by simp [execMclass, h]
@[simp] theorem execMrow_canonical (d : KReg) (a b : XReg) {s : State} (h : memWf s.mem = true) :
    Out.Canonical (execMrow d a b s) := by simp [execMrow, h]
@[simp] theorem execMcnt_canonical (d : XReg) (clr : BitVec 1) {s : State} (h : memWf s.mem = true) :
    Out.Canonical (execMcnt d clr s) := by simp [execMcnt, h]
@[simp] theorem State.onAmuCtx_mem (s : State) (r : AmuReq) (f : Ctx → Ctx) : (s.onAmuCtx r f).mem = s.mem := by
  unfold State.onAmuCtx
  split <;> simp

@[simp] theorem State.rebind_mem (s : State) (base : Nat) (b : Binding) : (s.rebind base b).mem = s.mem := by rfl
@[simp] theorem State.maskReply_mem (s : State) (uid k : Nat) (v : Word) : (s.maskReply uid k v).mem = s.mem := by
  unfold State.maskReply
  split <;> simp

@[simp] theorem State.amuFault_mem (s : State) (r : AmuReq) (value : Word) :
    (s.amuFault r value).mem = s.mem := by simp [State.amuFault]
@[simp] theorem State.amuAnswer_mem (s : State) (r : AmuReq) : (s.amuAnswer r).mem = s.mem := by
  simp only [State.amuAnswer]
  (repeat' split) <;> simp

@[simp] theorem execAmuServe_canonical (cl : Nat) {s : State} (h : memWf s.mem = true) : Out.Canonical (execAmuServe cl s) := by
  unfold execAmuServe
  split <;> simp [h]

end Sys2Proof.Machine
end

section
/-! PROOF. Canonical memory (R55 to R60): what the boards, engines and plug-ins leave of memory. -/

namespace Sys2Proof.Machine

open Sys2Proof

/-! ## Boards -/

@[simp] theorem State.dyore_canonical {s t : State} (h : memWf s.mem = true) (ht : memWf t.mem = true) :
    Out.Canonical (s.dyore t) :=
  ite_memWf _ ht h

@[simp] theorem State.onVf_mem (s : State) (v : Nat) (f : Vf → Vf) : (s.onVf v f).mem = s.mem := by rfl
theorem State.hostPut_mem (s : State) (a : Nat) (b : List Byte) :
    (s.hostPut a b).mem = memPut s.mem (hostBase + a) b := by simp only [State.hostPut]

@[simp] theorem State.hostPut_memWf {s : State} (h : memWf s.mem = true) (a : Nat) (b : List Byte) :
    memWf (s.hostPut a b).mem = true := by
  rw [State.hostPut_mem]
  exact memWf_memPut _ _ h

@[simp] theorem State.setSignal_mem (s : State) (v k : Nat) (p : Word × Word) : (s.setSignal v k p).mem = s.mem := by rfl
@[simp] theorem State.signalAdd_mem (s : State) (v k : Nat) (x : Word) : (s.signalAdd v k x).mem = s.mem := by rfl
@[simp] theorem execSvalWrite_canonical (v k : Nat) (val : Word) {s : State} (h : memWf s.mem = true) :
    Out.Canonical (execSvalWrite v k val s) := by simp [execSvalWrite, h]
@[simp] theorem execHfverNegotiate_canonical (v : Nat) (lo hi : BitVec 8) {s : State} (h : memWf s.mem = true) :
    Out.Canonical (execHfverNegotiate v lo hi s) := by simp [execHfverNegotiate, h]
@[simp] theorem State.latchAll_mem (s : State) : s.latchAll.mem = s.mem := by rfl
@[simp] theorem State.fire_mem (s : State) (i : Nat) : (s.fire i).mem = s.mem := by simp [State.fire]
@[simp] theorem State.snapEnd_mem (s : State) : s.snapEnd.mem = s.mem := by simp [State.snapEnd]
@[simp] theorem State.arm_mem (s : State) (on : Bool) : (s.arm on).mem = s.mem := by rfl
@[simp] theorem execSnapArm_canonical {s : State} (h : memWf s.mem = true) :
    Out.Canonical (execSnapArm s) := by simp [execSnapArm, h]
@[simp] theorem execSnapHostFire_canonical {s : State} (h : memWf s.mem = true) :
    Out.Canonical (execSnapHostFire s) := by simp [execSnapHostFire, h]
@[simp] theorem execSnapCounterTrigger_canonical {s : State} (h : memWf s.mem = true) :
    Out.Canonical (execSnapCounterTrigger s) := by simp [execSnapCounterTrigger, h]
@[simp] theorem execSnapPinTrigger_canonical {s : State} (h : memWf s.mem = true) :
    Out.Canonical (execSnapPinTrigger s) := by simp [execSnapPinTrigger, h]
@[simp] theorem State.breakpoint_mem (s : State) : s.breakpoint.mem = s.mem := by simp [State.breakpoint]
@[simp] theorem execEbreak_canonical {s : State} (h : memWf s.mem = true) :
    Out.Canonical (execEbreak s) := by simp [execEbreak, h]
@[simp] theorem execCEbreak_canonical {s : State} (h : memWf s.mem = true) :
    Out.Canonical (execCEbreak s) := by simp [execCEbreak, h]
@[simp] theorem execPowerControlTick_canonical (meas : BitVec 16) {s : State} (h : memWf s.mem = true) :
    Out.Canonical (execPowerControlTick meas s) := by simp [execPowerControlTick, h]

/-! ## Engines -/

@[simp] theorem State.enqueue_mem (s : State) (r : Command) : (s.enqueue r).mem = s.mem := by rfl
@[simp] theorem State.postCopy_canonical {s : State} (h : memWf s.mem = true) (d a : XReg) (nb : Bool) :
    Out.Canonical (s.postCopy d a nb) := by
  unfold State.postCopy
  (repeat' split) <;> simp [h]

@[simp] theorem State.onTeamOf_mem (s : State) (n : Nat) (f : Team → Team) : (s.onTeamOf n f).mem = s.mem := by
  unfold State.onTeamOf
  split <;> simp

@[simp] theorem execGpost_canonical (d a : XReg) {s : State} (h : memWf s.mem = true) : Out.Canonical (execGpost d a s) := by
  unfold execGpost
  split <;> simp [h]

@[simp] theorem execGstat_canonical (d : XReg) {s : State} (h : memWf s.mem = true) :
    Out.Canonical (execGstat d s) := by simp [execGstat, h]
@[simp] theorem State.engineWrite_mem (s : State) (core eng : Nat) (w0 : Word) (p : Piece) (b : List Byte) (bad : Bool) :
    (s.engineWrite core eng w0 p b bad).mem = s.mem := by rfl
@[simp] theorem State.sendPiece_memWf {s : State} (h : memWf s.mem = true) (core eng : Nat) (r : Command) (acc sr : Bool)
    (p : Piece) :
    memWf (s.sendPiece core eng r acc sr p).mem = true := by
  unfold State.sendPiece
  (repeat' split) <;> simp [h]

@[simp] theorem State.copyRefuse_mem (s : State) (c : Nat) (r : Command) (cause : Nat) (value : Word) :
    (s.copyRefuse c r cause value).mem = s.mem := by simp [State.copyRefuse]
@[simp] theorem State.own_mem (s : State) (eng : Nat) (units : List Nat) : (s.own eng units).mem = s.mem := by rfl
@[simp] theorem State.countUp_mem (s : State) (c : Nat) (r : Command) : (s.countUp c r).mem = s.mem := by simp [State.countUp]
@[simp] theorem State.emit_memWf {s : State} (h : memWf s.mem = true) (c : Nat) : memWf (s.emit c).mem = true := by
  unfold State.emit
  (repeat' split) <;> simp_all

@[simp] theorem State.copyStart_mem (s : State) (c vf : Nat) (r : Command) (p : Plan) (rows : List (Int × Int))
    (pieces : List Piece) :
    (s.copyStart c vf r p rows pieces).mem = s.mem := by simp [State.copyStart]
@[simp] theorem State.copyBegin_mem (s : State) (c : Nat) (r : Command) :
    (s.copyBegin c r).mem = s.mem := by
  unfold State.copyBegin
  extract_lets
  split
  · rfl
  split
  · exact State.copyRefuse_mem ..
  extract_lets
  split
  · exact State.copyRefuse_mem ..
  split
  · exact State.copyRefuse_mem ..
  split
  · exact State.startWalk_mem ..
  split
  · exact State.copyRefuse_mem ..
  split
  · exact State.copyRefuse_mem ..
  split
  · rfl
  exact (State.copyStart_mem ..).trans (foldl_mem _ (fun s q => State.hold_mem s c _) _ _)

@[simp] theorem State.copyDone_mem (s : State) (c : Nat) : (s.copyDone c).mem = s.mem := by rfl
@[simp] theorem State.copyOp_mem (s : State) (c op : Nat) : (s.copyOp c op).mem = s.mem := by
  unfold State.copyOp
  (repeat' split) <;> simp

@[simp] theorem execCopy_canonical (c : Nat) {s : State} (h : memWf s.mem = true) :
    Out.Canonical (execCopy c s) := by simp [execCopy, h]
@[simp] theorem execCopyAccumulate_canonical (c : Nat) {s : State} (h : memWf s.mem = true) :
    Out.Canonical (execCopyAccumulate c s) := by simp [execCopyAccumulate, h]
@[simp] theorem execFill_canonical (c : Nat) {s : State} (h : memWf s.mem = true) :
    Out.Canonical (execFill c s) := by simp [execFill, h]
@[simp] theorem execMulticastRead_canonical (c : Nat) {s : State} (h : memWf s.mem = true) :
    Out.Canonical (execMulticastRead c s) := by simp [execMulticastRead, h]
@[simp] theorem execStridedCopy_canonical (c : Nat) {s : State} (h : memWf s.mem = true) :
    Out.Canonical (execStridedCopy c s) := by simp [execStridedCopy, h]
@[simp] theorem State.readGran_memWf {s : State} (h : memWf s.mem = true) (prio hint : Nat) (g : Gran) :
    memWf (s.readGran prio hint g).1.mem = true := by
  unfold State.readGran
  split <;> simp [h]

@[simp] theorem State.copyRead_memWf {s : State} (h : memWf s.mem = true) (c : Nat) (r : Command) (g : Gran) :
    memWf (s.copyRead c r g).mem = true := by
  unfold State.copyRead
  split
  · simp [h]
  have got : memWf (s.readGran (bitsOf (r.w 0) 19 18) (bitsOf (r.w 0) 17 16) g).1.mem = true := State.readGran_memWf h ..
  generalize s.readGran (bitsOf (r.w 0) 19 18) (bitsOf (r.w 0) 17 16) g = q at got
  obtain ⟨u, g'⟩ := q
  dsimp only
  refine State.emit_memWf (foldl_memWf (fun s i hs => State.emit_memWf ?_ _) _ ?_) _
  · exact hs
  · exact got

@[simp] theorem execMulticastCatchUp_canonical (c : Nat) {s : State} (h : memWf s.mem = true) :
    Out.Canonical (execMulticastCatchUp c s) := by
  unfold execMulticastCatchUp
  (repeat' split) <;> simp [h]

@[simp] theorem State.remoteReport_mem (s : State) (c : Nat) (r : Command) (bytes : Bool) :
    (s.remoteReport c r bytes).mem = s.mem := by simp [State.remoteReport]
@[simp] theorem State.remoteOp_mem (s : State) (c op : Nat) : (s.remoteOp c op).mem = s.mem := by
  unfold State.remoteOp
  split <;> simp

@[simp] theorem execPackagePut_canonical (c : Nat) {s : State} (h : memWf s.mem = true) :
    Out.Canonical (execPackagePut c s) := by simp [execPackagePut, h]
@[simp] theorem execPackageGet_canonical (c : Nat) {s : State} (h : memWf s.mem = true) :
    Out.Canonical (execPackageGet c s) := by simp [execPackageGet, h]
@[simp] theorem State.completeTo_mem (s : State) (c tgt key : Nat) (op : ReqOp) :
    (s.completeTo c tgt key op).mem = s.mem := by simp [State.completeTo]
@[simp] theorem State.completing_canonical {s : State} (h : memWf s.mem = true) (c mode : Nat)
    (k : Command → State → Option State)
    (hk : ∀ r u t, memWf u.mem = true → k r u = some t → memWf t.mem = true) : Out.Canonical (s.completing c mode k) := by
  unfold State.completing
  split
  · exact h
  refine Out.canonical_ite _ h (Out.canonical_ite _ (by simp [h]) ?_)
  split
  · rename_i done
    exact hk _ _ _ (by simp [h]) done
  · exact h

@[simp] theorem execCompletionFeFill_canonical (c : Nat) {s : State} (h : memWf s.mem = true) :
    Out.Canonical (execCompletionFeFill c s) := by simp [execCompletionFeFill, h]
@[simp] theorem execCompletionMailbox_canonical (c : Nat) {s : State} (h : memWf s.mem = true) :
    Out.Canonical (execCompletionMailbox c s) := by simp [execCompletionMailbox, h]
@[simp] theorem execCompletionHandlerTrigger_canonical (c : Nat) {s : State} (h : memWf s.mem = true) :
    Out.Canonical (execCompletionHandlerTrigger c s) := by
  refine State.completing_canonical h c 3 _ fun r u t hu e => ?_
  extract_lets k at e
  split at e
  · split at e <;> cases e
    exact hu
  · cases e
    exact hu

@[simp] theorem execCompletionRegisterFill_canonical (c : Nat) {s : State} (h : memWf s.mem = true) :
    Out.Canonical (execCompletionRegisterFill c s) := by simp [execCompletionRegisterFill, h]
@[simp] theorem State.iceStart_mem (s : State) (cl : Nat) (r : Command) : (s.iceStart cl r).mem = s.mem := by rfl
@[simp] theorem State.chunkNext_mem (s : State) (cl : Nat) (r : Command) : (s.chunkNext cl r).mem = s.mem := by rfl
@[simp] theorem State.iceFail_mem (s : State) (cl : Nat) (r : Command) (cause : Nat) (value : Word) :
    (s.iceFail cl r cause value).mem = s.mem := by simp [State.iceFail]
@[simp] theorem State.rowsNow_mem (s : State) (cl : Nat) (r : Command) : (s.rowsNow cl r).mem = s.mem := by
  unfold State.rowsNow
  split <;> simp

@[simp] theorem State.rowsAhead_mem (s : State) (cl : Nat) (r : Command) : (s.rowsAhead cl r).mem = s.mem := by
  unfold State.rowsAhead
  split <;> simp

@[simp] theorem State.iceOp_mem (s : State) (cl op : Nat) : (s.iceOp cl op).mem = s.mem := by
  unfold State.iceOp
  (repeat' split) <;> simp

@[simp] theorem execGather_canonical (cl : Nat) {s : State} (h : memWf s.mem = true) :
    Out.Canonical (execGather cl s) := by simp [execGather, h]
@[simp] theorem execScatter_canonical (cl : Nat) {s : State} (h : memWf s.mem = true) :
    Out.Canonical (execScatter cl s) := by simp [execScatter, h]
@[simp] theorem execScatterAdd_canonical (cl : Nat) {s : State} (h : memWf s.mem = true) :
    Out.Canonical (execScatterAdd cl s) := by simp [execScatterAdd, h]
@[simp] theorem execIceChunkBegin_canonical (cl : Nat) {s : State} (h : memWf s.mem = true) :
    Out.Canonical (execIceChunkBegin cl s) := by
  unfold execIceChunkBegin
  split
  · exact h
  refine Out.canonical_ite _ h ?_
  split
  · simp [h]
  refine Out.canonical_ite _ (by simp [h]) (Out.canonical_ite _ (by simp [h]) ?_)
  extract_lets pieces units owned sent
  have kept : memWf sent.mem = true := foldl_memWf (fun s q hs => State.sendPiece_memWf hs ..) _ h
  exact Out.canonical_ite _ (by simp [h]) (by simp [kept])

@[simp] theorem State.iceRead_memWf {s : State} (h : memWf s.mem = true) (cl : Nat) (ahead : Bool) (g : Gran) :
    memWf (s.iceRead cl ahead g).mem = true := by
  simp only [State.iceRead]
  (repeat' split) <;> simp [h]

@[simp] theorem execIceEventSignal_canonical (cl : Nat) {s : State} (h : memWf s.mem = true) :
    Out.Canonical (execIceEventSignal cl s) := by
  unfold execIceEventSignal
  split <;> simp [h]

/-! ## Plug-ins -/

@[simp] theorem State.onPlug_mem (s : State) (v : Nat) (f : Plugin → Plugin) : (s.onPlug v f).mem = s.mem := by rfl
@[simp] theorem State.plugLeave_mem (s : State) (v : Nat) : (s.plugLeave v).mem = s.mem := by simp [State.plugLeave]
@[simp] theorem State.plugStop_mem (s : State) (v : Nat) : (s.plugStop v).mem = s.mem := by simp [State.plugStop]
@[simp] theorem State.fepTrap_mem (s : State) (f : Nat) (cause v : Word) : (s.fepTrap f cause v).mem = s.mem := by
  simp only [State.fepTrap]
  (repeat' split) <;> simp

@[simp] theorem State.plugCall_canonical {s : State} (h : memWf s.mem = true) (v : Nat) (k : Plugin → State → State)
    (hk : ∀ p u, memWf u.mem = true → memWf (k p u).mem = true) : Out.Canonical (s.plugCall v k) :=
  State.dyore_canonical h (ite_memWf _ h (hk _ _ (by simp [h])))

@[simp] theorem State.plugAnswer_mem (s : State) (v : Nat) (w : Word) :
    (s.plugAnswer v w).mem = s.mem := by simp [State.plugAnswer]
@[simp] theorem State.callOther_mem (s : State) (v : Nat) (no : Word) :
    (s.callOther v no).mem = s.mem := by simp [State.callOther]
@[simp] theorem State.grantPlug_mem (s : State) (v : Nat) (code data heads : Nat × Nat) :
    (s.grantPlug v code data heads).mem = s.mem := by simp [State.grantPlug]

/-! ## Perforated loops -/

@[simp] theorem State.groutFault_mem (s : State) (f : FamRef) (cause : Nat) (value : Word) :
    (s.groutFault f cause value).mem = s.mem := by simp [State.groutFault]
@[simp] theorem State.groutStart_mem (s : State) (cl vf : Nat) (e : GroutEntry) (b : Bellows) :
    (s.groutStart cl vf e b).mem = s.mem := by rfl
@[simp] theorem State.groutBegin_mem (s : State) (cl : Nat) (e : GroutEntry) : (s.groutBegin cl e).mem = s.mem := by
  simp only [State.groutBegin]
  (repeat' split) <;> simp

@[simp] theorem State.groutDone_mem (s : State) (cl : Nat) (g : GroutJob) : (s.groutDone cl g).mem = s.mem := by rfl
@[simp] theorem execGrout_canonical (cl : Nat) {s : State} (h : memWf s.mem = true) : Out.Canonical (execGrout cl s) := by
  simp only [execGrout]
  (repeat' split) <;> simp [h]

@[simp] theorem State.groutRead_memWf {s : State} (h : memWf s.mem = true) (cl : Nat) (g : GroutJob) (q : Gran) :
    memWf (s.groutRead cl g q).mem = true := by simp [State.groutRead, h]
@[simp] theorem execEngineRead_canonical (e : Engine) (i : Nat) {s : State} (h : memWf s.mem = true) :
    Out.Canonical (execEngineRead e i s) := by
  unfold execEngineRead
  (repeat' split) <;> simp [h]

@[simp] theorem State.onBellows_mem (s : State) (cl b : Nat) (f : Bellows → Bellows) : (s.onBellows cl b f).mem = s.mem := by rfl
@[simp] theorem execBellowsLatch_canonical (cl : Nat) {s : State} (h : memWf s.mem = true) :
    Out.Canonical (execBellowsLatch cl s) := by
  unfold execBellowsLatch
  (repeat' split) <;> simp [h]

@[simp] theorem execBellowsUpdate_canonical (cl : Nat) {s : State} (h : memWf s.mem = true) :
    Out.Canonical (execBellowsUpdate cl s) := by
  unfold execBellowsUpdate
  (repeat' split) <;> simp [h]

@[simp] theorem State.withBlock64_canonical {s : State} (h : memWf s.mem = true) (a : XReg) (b : Nat) (k : Nat → Out)
    (hk : ∀ p, Out.Canonical (k p)) :
    Out.Canonical (s.withBlock64 a b k) := by
  unfold State.withBlock64
  extract_lets
  exact Out.canonical_ite _ (State.trapOut_canonical h ..) (Out.canonical_ite _ (State.trapOut_canonical h ..)
    (Out.canonical_ite _ (State.trapOut_canonical h ..) (Out.canonical_ite _ h (hk ..))))

@[simp] theorem execPload_canonical (a : XReg) (n : BitVec 3) {s : State} (h : memWf s.mem = true) :
    Out.Canonical (execPload a n s) := by
  refine State.withBlock64_canonical h a _ _ fun off => Out.canonical_ite _ h (Out.canonical_ite _ (State.trapOut_canonical h ..) ?_)
  split <;> simp [h]

@[simp] theorem execPsave_canonical (a : XReg) (n : BitVec 3) {s : State} (h : memWf s.mem = true) :
    Out.Canonical (execPsave a n s) := by simp [execPsave, h]
@[simp] theorem execPstat_canonical (d : XReg) (n : BitVec 3) {s : State} (h : memWf s.mem = true) :
    Out.Canonical (execPstat d n s) := by
  unfold execPstat
  split <;> simp [h]

end Sys2Proof.Machine
end

section
/-! PROOF. Canonical memory (R55 to R60): what the launches, teams, services and registers of the device leave of memory. -/

namespace Sys2Proof.Machine

open Sys2Proof

/-! ## Launches -/

@[simp] theorem execDoorbell_canonical (v r idx : Nat) {s : State} (h : memWf s.mem = true) :
    Out.Canonical (execDoorbell v r idx s) := by simp [execDoorbell, h]
@[simp] theorem State.recordCheck_mem (s : State) (v r : Nat) : (s.recordCheck v r).mem = s.mem := by simp [State.recordCheck]
@[simp] theorem execLaunchRecordCheck_canonical (v r : Nat) {s : State} (h : memWf s.mem = true) :
    Out.Canonical (execLaunchRecordCheck v r s) := by simp [execLaunchRecordCheck, h]
@[simp] theorem State.enlist_mem (s : State) : s.enlist.mem = s.mem := by simp [State.enlist]
@[simp] theorem execLaunchReady_canonical (l : Nat) {s : State} (h : memWf s.mem = true) :
    Out.Canonical (execLaunchReady l s) := by simp [execLaunchReady, h]
@[simp] theorem execBlockSteal_canonical (l d : Nat) {s : State} (h : memWf s.mem = true) :
    Out.Canonical (execBlockSteal l d s) := by simp [execBlockSteal, h]
@[simp] theorem State.preEnds_mem (s : State) (u : List Nat) : (s.preEnds u).mem = s.mem := by rfl
@[simp] theorem State.preOver_mem (s : State) (t : Nat) : (s.preOver t).mem = s.mem := by rfl
@[simp] theorem State.dispatch_mem (s : State) (l d : Nat) : (s.dispatch l d).mem = s.mem := by
  simp only [State.dispatch]
  (repeat' split) <;> simp

@[simp] theorem execTeamDispatch_canonical (l d : Nat) {s : State} (h : memWf s.mem = true) :
    Out.Canonical (execTeamDispatch l d s) := by simp [execTeamDispatch, h]
@[simp] theorem State.post_memWf {s : State} (h : memWf s.mem = true) (l : Nat) :
    memWf (s.post l).mem = true := by simp [State.post, h]
@[simp] theorem State.finishLaunch_memWf {s : State} (h : memWf s.mem = true) (l : Nat) :
    memWf (s.finishLaunch l).mem = true := by
  unfold State.finishLaunch
  split <;> simp [h]

@[simp] theorem execLaunchCompletion_canonical (l : Nat) {s : State} (h : memWf s.mem = true) :
    Out.Canonical (execLaunchCompletion l s) := by simp [execLaunchCompletion, h]
@[simp] theorem State.drainHeld_memWf (v : Nat) (l : List Nat) {s : State} (h : memWf s.mem = true) :
    memWf (State.drainHeld v l s).mem = true := by
  induction l generalizing s with
  | nil => exact h
  | cons a l ih =>
    unfold State.drainHeld
    exact ite_memWf _ (ih (State.post_memWf (s := s.onVf ..) h a)) h

@[simp] theorem execCheadWrite_canonical (v : Nat) (val : Word) {s : State} (h : memWf s.mem = true) :
    Out.Canonical (execCheadWrite v val s) := by simp [execCheadWrite, h]
@[simp] theorem execQlist_canonical (v : Nat) (buf : Word) {s : State} (h : memWf s.mem = true) :
    Out.Canonical (execQlist v buf s) := by
  refine State.plugCall_canonical h v _ fun p u hu => ite_memWf _ (by simp [hu]) ?_
  have listed : ∀ l, memWf (memPut u.mem (fepBase + buf.toNat) l) = true := fun l => memWf_memPut _ l hu
  simp [listed]

@[simp] theorem execQorder_canonical (v : Nat) (ps : Positions) {s : State} (h : memWf s.mem = true) :
    Out.Canonical (execQorder v ps s) := by
  exact State.plugCall_canonical h v _ fun p u hu =>
    ite_memWf _ (by simp [hu]) (ite_memWf _ (by simp [hu]) (ite_memWf _ (by simp [hu]) (by simp [hu])))

@[simp] theorem execYield_canonical (v : Nat) {s : State} (h : memWf s.mem = true) :
    Out.Canonical (execYield v s) := by simp [execYield, h]
@[simp] theorem execPluginTime_canonical (v : Nat) {s : State} (h : memWf s.mem = true) :
    Out.Canonical (execPluginTime v s) := by simp [execPluginTime, h]
@[simp] theorem execPluginTimeout_canonical (v : Nat) {s : State} (h : memWf s.mem = true) :
    Out.Canonical (execPluginTimeout v s) := by
  unfold execPluginTimeout
  refine State.dyore_canonical h ?_
  split
  · exact ite_memWf _ (by simp [h]) h
  · exact h

@[simp] theorem execPluginFault_canonical (v : Nat) {s : State} (h : memWf s.mem = true) :
    Out.Canonical (execPluginFault v s) := by simp [execPluginFault, h]

/-! ## Teams -/

@[simp] theorem State.forget_memWf {s : State} (h : memWf s.mem = true) (f : Nat → Bool) :
    memWf (s.forget f).mem = true := by
  exact memWf_filter _ h

@[simp] theorem State.loadScratch_memWf {s : State} (h : memWf s.mem = true) (c : Nat) (m : Launch) :
    memWf (s.loadScratch c m).mem = true := by
  have put : ∀ b, memWf (memPut (s.forget (isScratch c)).mem (winKey c 0 0) b) = true := fun b => memWf_memPut _ _ (State.forget_memWf h _)
  unfold State.loadScratch
  extract_lets
  exact (congrArg memWf (foldl_mem _ (fun s i => State.setPoison_mem s _ _) ..)).trans (put _)

@[simp] theorem State.setBellows_mem (s : State) (cl b : Nat) (v : Bellows) : (s.setBellows cl b v).mem = s.mem := by rfl
@[simp] theorem State.startTeam_memWf {s : State} (h : memWf s.mem = true) (t : Nat) :
    memWf (s.startTeam t).mem = true := by
  unfold State.startTeam
  extract_lets m l s1 u s2 s3 s4 ids
  have loaded : memWf s1.mem = true := foldl_memWf (fun s c hs => State.loadScratch_memWf hs ..) _ h
  have placed : s2.mem = s1.mem := foldl_onCore_mem _ _ _ _
  have set : s3.mem = s2.mem := foldl_mem _ (fun s q => State.setBellows_mem ..) _ _
  exact (congrArg memWf (set.trans placed)).trans loaded

@[simp] theorem State.flushTeam_memWf {s : State} (h : memWf s.mem = true) (m : Team) :
    memWf (s.flushTeam m).mem = true := by
  exact foldl_memWf (fun s c hs => foldl_memWf (fun s x hs => (congrArg memWf (State.onCtx_mem ..)).trans
    (foldl_memWf (fun s r hs => State.sfuLand_memWf hs ..) _ hs)) _ hs) _ h

@[simp] theorem State.costart_memWf {s : State} (h : memWf s.mem = true) (t : Nat) : memWf (s.costart t).mem = true := by
  simp only [State.costart]
  (repeat' split) <;> simp [h]

@[simp] theorem execTeamCostart_canonical (t : Nat) {s : State} (h : memWf s.mem = true) :
    Out.Canonical (execTeamCostart t s) := by simp [execTeamCostart, h]
@[simp] theorem State.freeUnits_mem (s : State) (m : Team) : (s.freeUnits m).mem = s.mem := by simp [State.freeUnits]
@[simp] theorem State.freeTeam_mem (s : State) (t : Nat) (ph : Phase) : (s.freeTeam t ph).mem = s.mem := by simp [State.freeTeam]
@[simp] theorem State.scrubbed_memWf {s : State} (h : memWf s.mem = true) (cores : List Nat) :
    memWf (s.scrubbed cores).mem = true := by
  unfold State.scrubbed
  exact (congrArg memWf (foldl_onCore_mem ..)).trans (State.forget_memWf h _)

@[simp] theorem execHoldingScrubComplete_canonical (t : Nat) {s : State} (h : memWf s.mem = true) :
    Out.Canonical (execHoldingScrubComplete t s) := by
  exact State.dyore_canonical h (ite_memWf _ (by simp [h]) h)

@[simp] theorem execCctlWrite_canonical (c : Nat) (val : Word) {s : State} (h : memWf s.mem = true) :
    Out.Canonical (execCctlWrite c val s) := by simp [execCctlWrite, h]
@[simp] theorem execFlatchClear_canonical (c : Nat) {s : State} (h : memWf s.mem = true) :
    Out.Canonical (execFlatchClear c s) := by simp [execFlatchClear, h]
@[simp] theorem execStopArrival_canonical (c : Nat) {s : State} (h : memWf s.mem = true) :
    Out.Canonical (execStopArrival c s) := by simp [execStopArrival, h]
@[simp] theorem State.putRecord_memWf {s : State} (h : memWf s.mem = true) (l : Nat) (r : FRecord) :
    memWf (s.putRecord l r).mem = true := by simp [State.putRecord, h]
@[simp] theorem State.endTeam_mem (s : State) (t : Nat) : (s.endTeam t).mem = s.mem := by
  simp only [State.endTeam]
  (repeat' split) <;> simp

@[simp] theorem State.faultLaunch_memWf {s : State} (h : memWf s.mem = true) (l t : Nat) (rs : List FRecord) :
    memWf (s.faultLaunch l t rs).mem = true := by
  unfold State.faultLaunch
  (repeat' split) <;> simp_all

@[simp] theorem State.collect_memWf {s : State} (h : memWf s.mem = true) (t : Nat) : memWf (s.collect t).mem = true := by
  unfold State.collect
  simp only [State.freeTeam_mem, foldl_onCore_mem, State.faultLaunch_memWf h]

@[simp] theorem State.complete_mem (s : State) (t : Nat) : (s.complete t).mem = s.mem := by simp [State.complete]
@[simp] theorem State.wave_memWf {s : State} (h : memWf s.mem = true) (t : Nat) : memWf (s.wave t).mem = true := by
  simp only [State.wave]
  (repeat' split) <;> simp [h]

@[simp] theorem execQuiescenceWave_canonical (t : Nat) {s : State} (h : memWf s.mem = true) :
    Out.Canonical (execQuiescenceWave t s) := by simp [execQuiescenceWave, h]
@[simp] theorem State.stopTeam_mem (s : State) (t : Nat) (saving : Bool) :
    (s.stopTeam t saving).mem = s.mem := by simp [State.stopTeam]
@[simp] theorem State.preempt_mem (s : State) (l : Nat) : (s.preempt l).mem = s.mem := by
  simp only [State.preempt]
  (repeat' split) <;> simp

@[simp] theorem execPreemptionRequest_canonical (l : Nat) {s : State} (h : memWf s.mem = true) :
    Out.Canonical (execPreemptionRequest l s) := by simp [execPreemptionRequest, h]
@[simp] theorem State.saveImage_mem (s : State) (t : Nat) : (s.saveImage t).mem = s.mem := by simp [State.saveImage]
@[simp] theorem execSaveImageWrite_canonical (t : Nat) {s : State} (h : memWf s.mem = true) :
    Out.Canonical (execSaveImageWrite t s) := by simp [execSaveImageWrite, h]
@[simp] theorem State.discardTeam_mem (s : State) (t : Nat) : (s.discardTeam t).mem = s.mem := by simp [State.discardTeam]
@[simp] theorem execTeamDiscard_canonical (t : Nat) {s : State} (h : memWf s.mem = true) :
    Out.Canonical (execTeamDiscard t s) := by simp [execTeamDiscard, h]
@[simp] theorem State.reloadSlots_mem (s : State) (c : Nat) : (s.reloadSlots c).mem = s.mem := by rfl
@[simp] theorem State.regrout_mem (s : State) (cl : Nat) (l : List GroutEntry) :
    (s.regrout cl l).mem = s.mem := by
  unfold State.regrout
  exact foldl_mem (fun s e => State.onCluster { s with nextReq := s.nextReq + 1 } cl fun k =>
    { k with groutq := k.groutq ++ [{ e with id := s.nextReq, units := [], maps := [] }] }) (fun _ _ => rfl) l s

@[simp] theorem State.imageOld_mem (s : State) (t seq : Nat) : (s.imageOld t seq).mem = s.mem := by rfl
@[simp] theorem State.imageChunk_mem (s : State) (t k i : Nat) (b : List Byte) (tag : BitVec 128) :
    (s.imageChunk t k i b tag).mem = s.mem := by rfl
@[simp] theorem State.resume_memWf {s : State} (h : memWf s.mem = true) (t : Nat) :
    memWf (s.resume t).mem = true := by
  unfold State.resume
  extract_lets m g failed cleared restored bellows cores slots grouts
  split
  · exact h
  split
  · exact (congrArg memWf (State.onTeam_mem ..)).trans (State.faultLaunch_memWf (s := { s with fresh := s.fresh + 1 }) h ..)
  have old : memWf cleared.mem = true := State.forget_memWf (s := s.preEnds m.cores) h _
  have loaded : memWf restored.mem = true := List.foldlRecOn _ _ (motive := fun m => memWf m = true) old fun m hm p _ => memWf_memSet _ _ hm
  have b : bellows.mem = restored.mem := foldl_mem _ (fun s q => foldl_mem _ (fun s b => State.setBellows_mem ..) _ _) _ _
  have c : cores.mem = bellows.mem := foldl_onCore_mem _ _ _ _
  have d : slots.mem = cores.mem := foldl_mem _ (fun s c => State.reloadSlots_mem ..) _ _
  have e : grouts.mem = slots.mem := foldl_mem _ (fun s q => State.regrout_mem ..) _ _
  exact (congrArg memWf (e.trans (d.trans (c.trans b)))).trans loaded

@[simp] theorem execTeamResume_canonical (t : Nat) {s : State} (h : memWf s.mem = true) :
    Out.Canonical (execTeamResume t s) := by simp [execTeamResume, h]

/-! ## Services -/

@[simp] theorem State.answer_memWf {s : State} (h : memWf s.mem = true) (n x : Nat) (v : Word) :
    memWf (s.answer n x v).mem = true := by simp [State.answer, h]
@[simp] theorem State.service_canonical {s : State} (h : memWf s.mem = true) (n x number : Nat) (k : Ctx → State)
    (hk : ∀ p, memWf (k p).mem = true) :
    Out.Canonical (s.service n x number k) := by
  exact State.dyore_canonical h (ite_memWf _ (hk _) h)

@[simp] theorem execNop_canonical (n x : Nat) {s : State} (h : memWf s.mem = true) :
    Out.Canonical (execNop n x s) := by simp [execNop, h]
@[simp] theorem execSignal_canonical (n x : Nat) {s : State} (h : memWf s.mem = true) :
    Out.Canonical (execSignal n x s) := by
  exact State.service_canonical h _ _ _ _ fun c => by simp [h]

@[simp] theorem execTime_canonical (n x : Nat) {s : State} (h : memWf s.mem = true) :
    Out.Canonical (execTime n x s) := by simp [execTime, h]
@[simp] theorem State.debugWord_memWf {s : State} (h : memWf s.mem = true) (n x : Nat) (c : Ctx) (d : DescRead) (i w : Nat)
    (p : Phys) :
    memWf (s.debugWord n x c d i w p).mem = true := by
  unfold State.debugWord
  split <;> simp [h]

@[simp] theorem State.debugCopy_memWf {s : State} (h : memWf s.mem = true) (n x : Nat) (c : Ctx) :
    memWf (s.debugCopy n x c).mem = true := by
  unfold State.debugCopy
  extract_lets a len vf cl ws dropped r
  refine ite_memWf _ (by simp [h]) (ite_memWf _ h ?_)
  split
  · exact ite_memWf _ h (by simp [h])
  split
  · simp [h]
  · simp [h]
  extract_lets left b copied
  split
  · split
    · exact State.debugWord_memWf (s := { s with fresh := s.fresh + 1 }) h ..
    · exact h
  have written : memWf copied.mem = true := foldl_memWf (fun s q hs => State.hostPut_memWf hs ..) _ h
  exact ite_memWf _ (State.answer_memWf (s := dropped) h ..) (State.answer_memWf (s := copied.onVf ..) written ..)

@[simp] theorem execDebug_canonical (n x : Nat) {s : State} (h : memWf s.mem = true) :
    Out.Canonical (execDebug n x s) := by simp [execDebug, h]
@[simp] theorem State.countErr_mem (s : State) (d k : Nat) (unc : Bool) : (s.countErr d k unc).mem = s.mem := by rfl
@[simp] theorem State.reportRow_mem (s : State) (d p frame : Nat) (unc : Bool) :
    (s.reportRow d p frame unc).mem = s.mem := by simp [State.reportRow]
@[simp] theorem State.rowEvent_mem (s : State) (p frame b : Nat) (unc : Bool) : (s.rowEvent p frame b unc).mem = s.mem := by
  simp only [State.rowEvent]
  (repeat' split) <;> simp

@[simp] theorem State.burstRead_mem (s : State) (p frame b : Nat) (res : ReadCheck) :
    (s.burstRead p frame b res).mem = s.mem := by
  unfold State.burstRead
  split <;> simp

@[simp] theorem execPatrolScrub_canonical (p frame b : Nat) (res : ReadCheck) {s : State} (h : memWf s.mem = true) :
    Out.Canonical (execPatrolScrub p frame b res s) := by simp [execPatrolScrub, h]
@[simp] theorem State.secded_mem (s : State) (d k key : Nat) (ok : Bool) :
    (s.secded d k key ok).mem = s.mem := by simp [State.secded]
@[simp] theorem State.sliceUpset_mem (s : State) (p ppa : Nat) (ok : Bool) : (s.sliceUpset p ppa ok).mem = s.mem := by
  unfold State.sliceUpset
  (repeat' split) <;> simp

@[simp] theorem State.upset_memWf {s : State} (h : memWf s.mem = true) (u : Upset) : memWf (s.upset u).mem = true := by
  unfold State.upset
  split <;> simp [h]

/-! ## Device registers -/

@[simp] theorem State.dropMarks_mem (s : State) (p : Nat) : (s.dropMarks p).mem = s.mem := by rfl
@[simp] theorem execKrel_canonical (p : Nat) (val : Word) {s : State} (h : memWf s.mem = true) :
    Out.Canonical (execKrel p val s) := by simp [execKrel, h]
@[simp] theorem State.tableAt_memWf {s : State} (h : memWf s.mem = true) (p key : Nat) :
    memWf (s.tableAt p key).1.mem = true := by
  simp only [State.tableAt]
  (repeat' split) <;> simp [h]

@[simp] theorem State.mapPage_memWf {s : State} (h : memWf s.mem = true) (v va frame : Nat) :
    memWf (s.mapPage v va frame).mem = true := by
  unfold State.mapPage
  extract_lets
  exact State.putBytes_memWf (State.tableAt_memWf (State.tableAt_memWf h ..) ..) ..

@[simp] theorem State.mapRegion_memWf {s : State} (h : memWf s.mem = true) (v : Nat) :
    memWf (s.mapRegion v).mem = true := by
  unfold State.mapRegion
  extract_lets p n old page u
  have moved : memWf u.mem = true := by simp only [u, State.onVf_mem, h]
  clear_value u page
  have pages : ∀ f : State → Nat → State, (∀ t i, ∃ a b, f t i = t.mapPage v a b) → memWf ((List.range n).foldl f u).mem = true :=
    fun f hf =>
    foldl_memWf (fun t i ht => by
      obtain ⟨a, b, e⟩ := hf t i
      rw [e]
      exact State.mapPage_memWf ht ..) _ moved
  split
  · simp only [State.onVf_mem, h]
  split
  · exact moved
  · exact pages _ fun t i => ⟨_, _, rfl⟩

@[simp] theorem State.imgrWrite_memWf {s : State} (h : memWf s.mem = true) (p : Nat) (val : Word) :
    memWf (s.imgrWrite p val).mem = true := by
  exact ite_memWf _ h (foldl_memWf (fun s v hs => State.mapRegion_memWf hs v) _ h)

@[simp] theorem execImgrWrite_canonical (p : Nat) (val : Word) {s : State} (h : memWf s.mem = true) :
    Out.Canonical (execImgrWrite p val s) := by simp [execImgrWrite, h]
@[simp] theorem State.setPart_mem (s : State) (p : Nat) (w : Word) : (s.setPart p w).mem = s.mem := by rfl
@[simp] theorem State.refusePart_mem (s : State) (p : Nat) : (s.refusePart p).mem = s.mem := by rfl
@[simp] theorem State.zeroPart_memWf {s : State} (h : memWf s.mem = true) (p : Nat) :
    memWf (s.zeroPart p).mem = true := by simp [State.zeroPart, h]
@[simp] theorem State.createPart_memWf {s : State} (h : memWf s.mem = true) (p : Nat) (val : Word) :
    memWf (s.createPart p val).mem = true := by simp [State.createPart, h]
@[simp] theorem execPartCreate_canonical (p : Nat) (val : Word) {s : State} (h : memWf s.mem = true) :
    Out.Canonical (execPartCreate p val s) := by simp [execPartCreate, h]
@[simp] theorem State.destroyPart_mem (s : State) (p : Nat) : (s.destroyPart p).mem = s.mem := by simp [State.destroyPart]
@[simp] theorem execPartDestroy_canonical (p : Nat) {s : State} (h : memWf s.mem = true) :
    Out.Canonical (execPartDestroy p s) := by simp [execPartDestroy, h]
@[simp] theorem State.scrubPart_memWf {s : State} (h : memWf s.mem = true) (p : Nat) : memWf (s.scrubPart p).mem = true := by
  unfold State.scrubPart
  split <;> simp [h]

@[simp] theorem execPartScrubComplete_canonical (p : Nat) {s : State} (h : memWf s.mem = true) :
    Out.Canonical (execPartScrubComplete p s) := by simp [execPartScrubComplete, h]
@[simp] theorem State.bindVf_memWf {s : State} (h : memWf s.mem = true) (v : Nat) (val : Word) :
    memWf (s.bindVf v val).mem = true := by
  simp only [State.bindVf]
  (repeat' split) <;> simp [h]

@[simp] theorem execVbindWrite_canonical (v : Nat) (val : Word) {s : State} (h : memWf s.mem = true) :
    Out.Canonical (execVbindWrite v val s) := by simp [execVbindWrite, h]
@[simp] theorem State.fepSend_mem (s : State) (f : Nat) (h : Home) (key : Nat) (op : ReqOp) :
    (s.fepSend f h key op).mem = s.mem := by simp [State.fepSend]
@[simp] theorem State.windowWrite_mem (s : State) (f a n : Nat) (val : Word) : (s.windowWrite f a n val).mem = s.mem := by
  unfold State.windowWrite
  split <;> simp

@[simp] theorem State.physWrite_mem (s : State) (f pa n : Nat) (val : Word) :
    (s.physWrite f pa n val).mem = s.mem := by simp [State.physWrite]
@[simp] theorem State.fresWrite_memWf {s : State} (h : memWf s.mem = true) (val : Word) :
    memWf (s.fresWrite val).mem = true := by
  unfold State.fresWrite
  extract_lets d e
  have answers : Out.Canonical (if bitsOf val 1 0 = 1 then execFresReplay d e s else if bitsOf val 1 0 = 2 then execFresFail d e s else .next s) :=
    Out.canonical_ite _ (execFresReplay_canonical _ _ h) (Out.canonical_ite _ (execFresFail_canonical _ _ h) h)
  split
  · rename_i next
    rw [next] at answers
    exact answers
  · exact h

@[simp] theorem State.fepWrite_memWf {s : State} (h : memWf s.mem = true) (a : Nat) (val : Word) :
    memWf (s.fepWrite a val).mem = true := by
  simp only [State.fepWrite]
  (repeat' split) <;> simp [h]

@[simp] theorem State.fepStore_memWf {s : State} (h : memWf s.mem = true) (f a n : Nat) (val : Word) :
    memWf (s.fepStore f a n val).mem = true := by
  unfold State.fepStore
  split <;> simp [h]

@[simp] theorem State.barWrite_memWf {s : State} (h : memWf s.mem = true) (v a : Nat) (val : Word) :
    memWf (s.barWrite v a val).mem = true := by
  unfold State.barWrite
  (repeat' split) <;> simp [h]

@[simp] theorem State.pfWrite_mem (s : State) (a : Nat) (val : Word) : (s.pfWrite a val).mem = s.mem := by simp [State.pfWrite]
@[simp] theorem execRegisterWrite_canonical (sp : RegSpace) (addr : Nat) (val : Word) {s : State} (h : memWf s.mem = true) :
    Out.Canonical (execRegisterWrite sp addr val s) := by
  unfold execRegisterWrite
  refine State.dyore_canonical h ?_
  split <;> simp [h]

@[simp] theorem State.boot_memWf {s : State} (h : memWf s.mem = true) (failAt : Nat) :
    memWf (s.boot failAt).mem = true := by
  unfold State.boot
  extract_lets k past powered flashed stopped scrubbed
  have written : memWf flashed.mem = true := by
    have up : memWf powered.mem = true := ite_memWf _ h h
    refine ite_memWf _ ?_ up
    simp only [memWf_memPut _ _ up]
  have cleared : memWf scrubbed.mem = true := by
    have stop : memWf stopped.mem = true := ite_memWf _ written written
    exact ite_memWf _ (memWf_filter _ stop) stop
  exact ite_memWf _ cleared cleared

@[simp] theorem execBoot_canonical (failAt : Nat) {s : State} (h : memWf s.mem = true) :
    Out.Canonical (execBoot failAt s) := by simp [execBoot, h]
@[simp] theorem State.fepLoad_mem (s : State) (f n : Nat) (sext : Bool) (d a : Nat) : (s.fepLoad f n sext d a).mem = s.mem := by
  unfold State.fepLoad
  (repeat' split) <;> simp

theorem State.fepAct_memWf {s t : State} (h : memWf s.mem = true) (f : Nat) (a : FepAct) :
    s.fepAct f a = some t → memWf t.mem = true := by
  intro e
  unfold State.fepAct at e
  extract_lets q goto_ at e
  have moved : ∀ (u : State) pc, (goto_ u pc).mem = u.mem := fun u pc => State.onFep_mem ..
  clear_value goto_
  (repeat' split at e) <;> cases e <;> simp [h, moved]

@[simp] theorem State.flushLines_memWf {s : State} (h : memWf s.mem = true) (p lo n : Nat) :
    memWf (s.flushLines p lo n).mem = true := by
  exact foldl_memWf (fun s q hs => ite_memWf _ (foldl_memWf (fun s l hs => State.writeBack_memWf hs ..) _ hs) hs) _ h

@[simp] theorem State.copyFrame_memWf {s : State} (h : memWf s.mem = true) (p src dst n : Nat) :
    memWf (s.copyFrame p src dst n).mem = true := by
  have flushed : memWf ((s.flushLines p src n).flushLines p dst n).mem = true := State.flushLines_memWf (State.flushLines_memWf h ..) ..
  exact List.foldlRecOn _ _ (motive := fun m => memWf m = true) (memWf_filter _ flushed) fun m hm c _ => memWf_memSet _ _ hm

@[simp] theorem State.retireFrame_memWf {s : State} (h : memWf s.mem = true) (p level frame new : Nat) :
    memWf (s.retireFrame p level frame new).mem = true := by
  unfold State.retireFrame
  simp_all

theorem State.takeInput_memWf {s t : State} (h : memWf s.mem = true) :
    s.takeInput = some t → memWf t.mem = true := by
  intro e
  unfold State.takeInput at e
  split at e
  · cases e
  extract_lets r at e
  have left : memWf r.mem = true := h
  split at e
  · exact State.fepAct_memWf left _ _ e
  case h_7 =>
    split at e <;> cases e
    simp [left]
  all_goals cases e
  · simp [left]
  · simp [left]
  · simp [left]
  · simp [left]
  · exact ite_memWf _ (State.retireFrame_memWf left ..) left

end Sys2Proof.Machine
end

section
/-! PROOF. Canonical memory (R55 to R60): every instruction leaves memory in its canonical form. -/

namespace Sys2Proof.Machine

open Sys2Proof

/-! ## The shapes of scalar instructions -/

@[simp] theorem execAdd_canonical (d a b : XReg) {s : State} (h : memWf s.mem = true) :
    Out.Canonical (execAdd d a b s) := by simp [execAdd, h]
@[simp] theorem execSub_canonical (d a b : XReg) {s : State} (h : memWf s.mem = true) :
    Out.Canonical (execSub d a b s) := by simp [execSub, h]
@[simp] theorem execXor_canonical (d a b : XReg) {s : State} (h : memWf s.mem = true) :
    Out.Canonical (execXor d a b s) := by simp [execXor, h]
@[simp] theorem execOr_canonical (d a b : XReg) {s : State} (h : memWf s.mem = true) :
    Out.Canonical (execOr d a b s) := by simp [execOr, h]
@[simp] theorem execAnd_canonical (d a b : XReg) {s : State} (h : memWf s.mem = true) :
    Out.Canonical (execAnd d a b s) := by simp [execAnd, h]
@[simp] theorem execAddi_canonical (d a : XReg) (i : BitVec 12) {s : State} (h : memWf s.mem = true) :
    Out.Canonical (execAddi d a i s) := by simp [execAddi, h]
@[simp] theorem execAndi_canonical (d a : XReg) (i : BitVec 12) {s : State} (h : memWf s.mem = true) :
    Out.Canonical (execAndi d a i s) := by simp [execAndi, h]
@[simp] theorem execSlli_canonical (d a : XReg) (n : BitVec 6) {s : State} (h : memWf s.mem = true) :
    Out.Canonical (execSlli d a n s) := by simp [execSlli, h]
@[simp] theorem execSrli_canonical (d a : XReg) (n : BitVec 6) {s : State} (h : memWf s.mem = true) :
    Out.Canonical (execSrli d a n s) := by simp [execSrli, h]
@[simp] theorem execSrai_canonical (d a : XReg) (n : BitVec 6) {s : State} (h : memWf s.mem = true) :
    Out.Canonical (execSrai d a n s) := by simp [execSrai, h]
@[simp] theorem execAddw_canonical (d a b : XReg) {s : State} (h : memWf s.mem = true) :
    Out.Canonical (execAddw d a b s) := by simp [execAddw, h]
@[simp] theorem execSubw_canonical (d a b : XReg) {s : State} (h : memWf s.mem = true) :
    Out.Canonical (execSubw d a b s) := by simp [execSubw, h]
@[simp] theorem execAddiw_canonical (d a : XReg) (i : BitVec 12) {s : State} (h : memWf s.mem = true) :
    Out.Canonical (execAddiw d a i s) := by simp [execAddiw, h]
@[simp] theorem execLui_canonical (d : XReg) (i : BitVec 20) {s : State} (h : memWf s.mem = true) :
    Out.Canonical (execLui d i s) := by simp [execLui, h]
@[simp] theorem State.branch_canonical {s : State} (h : memWf s.mem = true) (a b : XReg) (taken : Bool) (off : Word) :
    Out.Canonical (s.branch a b taken off) := by simp [State.branch, h]
@[simp] theorem execBeq_canonical (a b : XReg) (i : BitVec 12) {s : State} (h : memWf s.mem = true) :
    Out.Canonical (execBeq a b i s) := by simp [execBeq, h]
@[simp] theorem execBne_canonical (a b : XReg) (i : BitVec 12) {s : State} (h : memWf s.mem = true) :
    Out.Canonical (execBne a b i s) := by simp [execBne, h]
@[simp] theorem execJal_canonical (d : XReg) (i : BitVec 20) {s : State} (h : memWf s.mem = true) :
    Out.Canonical (execJal d i s) := by simp [execJal, h]
@[simp] theorem execJalr_canonical (d a : XReg) (i : BitVec 12) {s : State} (h : memWf s.mem = true) :
    Out.Canonical (execJalr d a i s) := by simp [execJalr, h]
@[simp] theorem execCAddi4spn_canonical (d : BitVec 3) (i : BitVec 8) {s : State} (h : memWf s.mem = true) :
    Out.Canonical (execCAddi4spn d i s) := by simp [execCAddi4spn, h]
@[simp] theorem execCNop_canonical {s : State} (h : memWf s.mem = true) : Out.Canonical (execCNop s) := by simp [execCNop, h]
@[simp] theorem execCAddi_canonical (d : XReg) (i : BitVec 6) {s : State} (h : memWf s.mem = true) :
    Out.Canonical (execCAddi d i s) := by simp [execCAddi, h]
@[simp] theorem execCAddiw_canonical (d : XReg) (i : BitVec 6) {s : State} (h : memWf s.mem = true) :
    Out.Canonical (execCAddiw d i s) := by simp [execCAddiw, h]
@[simp] theorem execCLi_canonical (d : XReg) (i : BitVec 6) {s : State} (h : memWf s.mem = true) :
    Out.Canonical (execCLi d i s) := by simp [execCLi, h]
@[simp] theorem execCAddi16sp_canonical (i : BitVec 6) {s : State} (h : memWf s.mem = true) :
    Out.Canonical (execCAddi16sp i s) := by simp [execCAddi16sp, h]
@[simp] theorem execCLui_canonical (d : XReg) (i : BitVec 6) {s : State} (h : memWf s.mem = true) :
    Out.Canonical (execCLui d i s) := by simp [execCLui, h]
@[simp] theorem execCSrli_canonical (d : BitVec 3) (i : BitVec 6) {s : State} (h : memWf s.mem = true) :
    Out.Canonical (execCSrli d i s) := by simp [execCSrli, h]
@[simp] theorem execCSrai_canonical (d : BitVec 3) (i : BitVec 6) {s : State} (h : memWf s.mem = true) :
    Out.Canonical (execCSrai d i s) := by simp [execCSrai, h]
@[simp] theorem execCAndi_canonical (d : BitVec 3) (i : BitVec 6) {s : State} (h : memWf s.mem = true) :
    Out.Canonical (execCAndi d i s) := by simp [execCAndi, h]
@[simp] theorem execCSub_canonical (d b : BitVec 3) {s : State} (h : memWf s.mem = true) :
    Out.Canonical (execCSub d b s) := by simp [execCSub, h]
@[simp] theorem execCXor_canonical (d b : BitVec 3) {s : State} (h : memWf s.mem = true) :
    Out.Canonical (execCXor d b s) := by simp [execCXor, h]
@[simp] theorem execCOr_canonical (d b : BitVec 3) {s : State} (h : memWf s.mem = true) :
    Out.Canonical (execCOr d b s) := by simp [execCOr, h]
@[simp] theorem execCAnd_canonical (d b : BitVec 3) {s : State} (h : memWf s.mem = true) :
    Out.Canonical (execCAnd d b s) := by simp [execCAnd, h]
@[simp] theorem execCSubw_canonical (d b : BitVec 3) {s : State} (h : memWf s.mem = true) :
    Out.Canonical (execCSubw d b s) := by simp [execCSubw, h]
@[simp] theorem execCAddw_canonical (d b : BitVec 3) {s : State} (h : memWf s.mem = true) :
    Out.Canonical (execCAddw d b s) := by simp [execCAddw, h]
@[simp] theorem execCJ_canonical (i : BitVec 11) {s : State} (h : memWf s.mem = true) :
    Out.Canonical (execCJ i s) := by simp [execCJ, h]
@[simp] theorem execCBeqz_canonical (a : BitVec 3) (i : BitVec 8) {s : State} (h : memWf s.mem = true) :
    Out.Canonical (execCBeqz a i s) := by simp [execCBeqz, h]
@[simp] theorem execCBnez_canonical (a : BitVec 3) (i : BitVec 8) {s : State} (h : memWf s.mem = true) :
    Out.Canonical (execCBnez a i s) := by simp [execCBnez, h]
@[simp] theorem execCSlli_canonical (d : XReg) (i : BitVec 6) {s : State} (h : memWf s.mem = true) :
    Out.Canonical (execCSlli d i s) := by simp [execCSlli, h]
@[simp] theorem execCJr_canonical (a : XReg) {s : State} (h : memWf s.mem = true) :
    Out.Canonical (execCJr a s) := by simp [execCJr, h]
@[simp] theorem execCJalr_canonical (a : XReg) {s : State} (h : memWf s.mem = true) :
    Out.Canonical (execCJalr a s) := by simp [execCJalr, h]
@[simp] theorem execCMv_canonical (d b : XReg) {s : State} (h : memWf s.mem = true) :
    Out.Canonical (execCMv d b s) := by simp [execCMv, h]
@[simp] theorem execCAdd_canonical (d b : XReg) {s : State} (h : memWf s.mem = true) :
    Out.Canonical (execCAdd d b s) := by simp [execCAdd, h]
@[simp] theorem execGcmpEq_canonical (d : GReg) (a b : XReg) {s : State} (h : memWf s.mem = true) :
    Out.Canonical (execGcmpEq d a b s) := by simp [execGcmpEq, h]
@[simp] theorem execGcmpNe_canonical (d : GReg) (a b : XReg) {s : State} (h : memWf s.mem = true) :
    Out.Canonical (execGcmpNe d a b s) := by simp [execGcmpNe, h]
@[simp] theorem execGcmpLt_canonical (d : GReg) (a b : XReg) {s : State} (h : memWf s.mem = true) :
    Out.Canonical (execGcmpLt d a b s) := by simp [execGcmpLt, h]
@[simp] theorem execGcmpGe_canonical (d : GReg) (a b : XReg) {s : State} (h : memWf s.mem = true) :
    Out.Canonical (execGcmpGe d a b s) := by simp [execGcmpGe, h]
@[simp] theorem execGcmpLtu_canonical (d : GReg) (a b : XReg) {s : State} (h : memWf s.mem = true) :
    Out.Canonical (execGcmpLtu d a b s) := by simp [execGcmpLtu, h]
@[simp] theorem execGcmpGeu_canonical (d : GReg) (a b : XReg) {s : State} (h : memWf s.mem = true) :
    Out.Canonical (execGcmpGeu d a b s) := by simp [execGcmpGeu, h]
@[simp] theorem execGand_canonical (d a b : GReg) {s : State} (h : memWf s.mem = true) :
    Out.Canonical (execGand d a b s) := by simp [execGand, h]
@[simp] theorem execGor_canonical (d a b : GReg) {s : State} (h : memWf s.mem = true) :
    Out.Canonical (execGor d a b s) := by simp [execGor, h]
@[simp] theorem execGxor_canonical (d a b : GReg) {s : State} (h : memWf s.mem = true) :
    Out.Canonical (execGxor d a b s) := by simp [execGxor, h]
@[simp] theorem execGandn_canonical (d a b : GReg) {s : State} (h : memWf s.mem = true) :
    Out.Canonical (execGandn d a b s) := by simp [execGandn, h]
@[simp] theorem execGfromx_canonical (a : XReg) {s : State} (h : memWf s.mem = true) :
    Out.Canonical (execGfromx a s) := by simp [execGfromx, h]
@[simp] theorem execEcall_canonical {s : State} (h : memWf s.mem = true) : Out.Canonical (execEcall s) := by simp [execEcall, h]
@[simp] theorem execWfi_canonical {s : State} (h : memWf s.mem = true) : Out.Canonical (execWfi s) := by simp [execWfi, h]
@[simp] theorem execUndefinedUnit_canonical (code : BitVec 8) (bytes : Word) {s : State} (h : memWf s.mem = true) :
    Out.Canonical (execUndefinedUnit code bytes s) := by simp [execUndefinedUnit, h]

/-! ## Security and packets -/

@[simp] theorem State.onSpdm_mem (s : State) (v : Nat) (f : Spdm → Spdm) : (s.onSpdm v f).mem = s.mem := by rfl
@[simp] theorem State.respond_canonical {s : State} (h : memWf s.mem = true) (v : Nat) (f : Spdm → Spdm) :
    Out.Canonical (s.respond v f) := by simp [State.respond, h]
@[simp] theorem execGetVersion_canonical (v : VersionAsk) {s : State} (h : memWf s.mem = true) :
    Out.Canonical (execGetVersion v s) := by simp [execGetVersion, h]
@[simp] theorem execGetMeasurements_canonical (v i : Nat) {s : State} (h : memWf s.mem = true) :
    Out.Canonical (execGetMeasurements v i s) := by simp [execGetMeasurements, h]
@[simp] theorem State.inSession_canonical {s : State} (h : memWf s.mem = true) (v : Nat) (k : Nat → State × Nat)
    (hk : ∀ p, memWf (k p).1.mem = true) :
    Out.Canonical (s.inSession v k) := by
  unfold State.inSession
  split
  · exact State.respond_canonical h ..
  · refine Out.canonical_ite _ (State.respond_canonical h ..) ?_
    split
    · simp [hk]
    · exact h

@[simp] theorem execKeySlotInstall_canonical (v : Nat) (pl : List Word) {s : State} (h : memWf s.mem = true) :
    Out.Canonical (execKeySlotInstall v pl s) := by
  refine State.inSession_canonical h v _ fun p => ?_
  extract_lets
  split
  · exact h
  · split <;> simp [h]

@[simp] theorem State.dropSlot_memWf {s : State} (h : memWf s.mem = true) (p k : Nat) :
    memWf (s.dropSlot p k).mem = true := by
  exact foldl_memWf (fun s q hs => ite_memWf _ (foldl_memWf (fun s l hs => State.writeBack_memWf hs ..) _ hs) hs) _ h

@[simp] theorem execKeySlotRevoke_canonical (v : Nat) (pl : List Word) {s : State} (h : memWf s.mem = true) :
    Out.Canonical (execKeySlotRevoke v pl s) := by
  refine State.inSession_canonical h v _ fun p => ?_
  extract_lets
  split
  · exact h
  · split <;> simp [h]

@[simp] theorem execRevokeComplete_canonical (p k : Nat) {s : State} (h : memWf s.mem = true) :
    Out.Canonical (execRevokeComplete p k s) := by simp [execRevokeComplete, h]
@[simp] theorem State.packetFail_mem (s : State) (i : Nat) : (s.packetFail i).mem = s.mem := by
  unfold State.packetFail
  split <;> simp

@[simp] theorem execLintelPacketReceive_canonical (q : Packet) (crcOk : Bool) {s : State} (h : memWf s.mem = true) :
    Out.Canonical (execLintelPacketReceive q crcOk s) := by simp [execLintelPacketReceive, h]
@[simp] theorem execHello_canonical (n ver : Nat) {s : State} (h : memWf s.mem = true) :
    Out.Canonical (execHello n ver s) := by simp [execHello, h]
@[simp] theorem execRetransmitTimeout_canonical (n : Nat) {s : State} (h : memWf s.mem = true) :
    Out.Canonical (execRetransmitTimeout n s) := by simp [execRetransmitTimeout, h]
@[simp] theorem execAckTimeout_canonical (c : Nat) {s : State} (h : memWf s.mem = true) : Out.Canonical (execAckTimeout c s) := by
  unfold execAckTimeout
  split <;> simp [h]

@[simp] theorem State.report_mem (s : State) (q : Inbound) (status : Nat) (b : List Byte) :
    (s.report q status b).mem = s.mem := by rfl
@[simp] theorem State.holdTransfer_mem (s : State) (q : Inbound) : (s.holdTransfer q).mem = s.mem := by rfl
@[simp] theorem State.remoteGran_memWf {s : State} (h : memWf s.mem = true) (rq : Remote) (g : Gran) :
    memWf (s.remoteGran rq g).1.mem = true := by
  unfold State.remoteGran
  (repeat' split) <;> simp [h]

@[simp] theorem State.remoteOn_memWf {s : State} (h : memWf s.mem = true) (q : Inbound) (gs : List Gran) :
    memWf (s.remoteOn q gs).mem = true := by
  unfold State.remoteOn
  split
  · split <;> simp [h]
  · simp [h]

@[simp] theorem State.remoteStep_memWf {s : State} (h : memWf s.mem = true) (q : Inbound) :
    memWf (s.remoteStep q).mem = true := by
  simp only [State.remoteStep]
  (repeat' split) <;> simp [h]

@[simp] theorem State.remoteAsk_mem (s : State) (n : Nat) (rq : Remote) :
    (s.remoteAsk n rq).mem = s.mem := by simp [State.remoteAsk]
@[simp] theorem execRemoteTransferRequest_canonical (n : Nat) (rq : Option Remote) {s : State} (h : memWf s.mem = true) :
    Out.Canonical (execRemoteTransferRequest n rq s) := by
  unfold execRemoteTransferRequest
  refine State.dyore_canonical h ?_
  split
  · simp [h]
  · split <;> simp [h]

/-! ## Every instruction -/

theorem exec_canonical {s : State} (h : memWf s.mem = true) (i : Instr) : Out.Canonical (exec i s) := by
  cases i with
  | lb | lh | lw | ld | lbu | lhu | lwu =>
    exact State.scalarLoad_canonical h ..
  | sb | sh | sw | sd =>
    exact State.scalarStore_canonical h ..
  | add | sub | sll | slt | sltu | xor | srl | sra | or | and | addi | slti | sltiu | xori | ori | andi | slli | srli | srai | addw | subw | addiw |
  slliw | srliw | sraiw | lui | auipc =>
    exact State.alu_canonical h ..
  | andn | orn | min | minu | max | maxu | sh1add | sh2add | sh3add | mul | mulh | mulhu | div | divu | rem | remu | clz | ctz | cpop | fsgnjS |
  fsgnjnS | li32 | lih | addl | andl | fli | gtox | qstat | cqstat | ktox | kpop | kfirst =>
    exact State.put_canonical h ..
  | beq | bne | blt | bge | bltu | bgeu =>
    exact State.branch_canonical h ..
  | jal | jalr =>
    exact State.jump_canonical h ..
  | fminS | fmaxS =>
    exact State.putFp_canonical h ..
  | ldc | ldp | fest =>
    exact State.feLoad_canonical h ..
  | fenceO | fenceA =>
    exact State.fence_canonical h ..
  | aadd | aand | aor | axor | asmin | asmax | aumin | aumax | aswap | acas | afadd | afaddb =>
    exact State.atomic_canonical h ..
  | cqpush | cqpushn =>
    exact State.postCopy_canonical h ..
  | vst | vstb =>
    exact State.rowStore_canonical h ..
  | vscan | vscanL1 =>
    exact State.scan_canonical h ..
  | vexp2 | vlog2 | vrcp | vrsq | vsqrt | vtanh =>
    exact State.sfu_canonical h ..
  | mma | gmma =>
    exact State.multiply_canonical h ..
  | wld | wlds =>
    exact State.loadB_canonical h ..
  | getCertificate | challenge | keyExchange =>
    exact State.respond_canonical h ..
  | cAddi4spn d i6 => exact execCAddi4spn_canonical d i6 h
  | cLw d a i6 => exact execCLw_canonical d a i6 h
  | cLd d a i6 => exact execCLd_canonical d a i6 h
  | cSw b a i6 => exact execCSw_canonical b a i6 h
  | cSd b a i6 => exact execCSd_canonical b a i6 h
  | cNop => exact execCNop_canonical h
  | cAddi d i6 => exact execCAddi_canonical d i6 h
  | cAddiw d i6 => exact execCAddiw_canonical d i6 h
  | cLi d i6 => exact execCLi_canonical d i6 h
  | cAddi16sp i6 => exact execCAddi16sp_canonical i6 h
  | cLui d i6 => exact execCLui_canonical d i6 h
  | cSrli d i6 => exact execCSrli_canonical d i6 h
  | cSrai d i6 => exact execCSrai_canonical d i6 h
  | cAndi d i6 => exact execCAndi_canonical d i6 h
  | cSub d b => exact execCSub_canonical d b h
  | cXor d b => exact execCXor_canonical d b h
  | cOr d b => exact execCOr_canonical d b h
  | cAnd d b => exact execCAnd_canonical d b h
  | cSubw d b => exact execCSubw_canonical d b h
  | cAddw d b => exact execCAddw_canonical d b h
  | cJ i6 => exact execCJ_canonical i6 h
  | cBeqz a i6 => exact execCBeqz_canonical a i6 h
  | cBnez a i6 => exact execCBnez_canonical a i6 h
  | cSlli d i6 => exact execCSlli_canonical d i6 h
  | cLwsp d i6 => exact execCLwsp_canonical d i6 h
  | cLdsp d i6 => exact execCLdsp_canonical d i6 h
  | cSwsp b i6 => exact execCSwsp_canonical b i6 h
  | cSdsp b i6 => exact execCSdsp_canonical b i6 h
  | cJr a => exact execCJr_canonical a h
  | cJalr a => exact execCJalr_canonical a h
  | cMv d b => exact execCMv_canonical d b h
  | cAdd d b => exact execCAdd_canonical d b h
  | cEbreak => exact execCEbreak_canonical h
  | faddS d a b r => exact execFaddS_canonical d a b r h
  | fsubS d a b r => exact execFsubS_canonical d a b r h
  | fmulS d a b r => exact execFmulS_canonical d a b r h
  | fdivS d a b r => exact execFdivS_canonical d a b r h
  | fsqrtS d a r => exact execFsqrtS_canonical d a r h
  | fmaddS d a b c r => exact execFmaddS_canonical d a b c r h
  | fleS d a b => exact execFleS_canonical d a b h
  | fltS d a b => exact execFltS_canonical d a b h
  | feqS d a b => exact execFeqS_canonical d a b h
  | fcvtWS d a r => exact execFcvtWS_canonical d a r h
  | fcvtLS d a r => exact execFcvtLS_canonical d a r h
  | fcvtSW d a r => exact execFcvtSW_canonical d a r h
  | fcvtSL d a r => exact execFcvtSL_canonical d a r h
  | gcmpEq d a b => exact execGcmpEq_canonical d a b h
  | gcmpNe d a b => exact execGcmpNe_canonical d a b h
  | gcmpLt d a b => exact execGcmpLt_canonical d a b h
  | gcmpGe d a b => exact execGcmpGe_canonical d a b h
  | gcmpLtu d a b => exact execGcmpLtu_canonical d a b h
  | gcmpGeu d a b => exact execGcmpGeu_canonical d a b h
  | gand d a b => exact execGand_canonical d a b h
  | gor d a b => exact execGor_canonical d a b h
  | gxor d a b => exact execGxor_canonical d a b h
  | gandn d a b => exact execGandn_canonical d a b h
  | gfromx a => exact execGfromx_canonical a h
  | ecall => exact execEcall_canonical h
  | ebreak => exact execEbreak_canonical h
  | wfi => exact execWfi_canonical h
  | csrrw d a c => exact execCsrrw_canonical d a c h
  | csrrs d a c => exact execCsrrs_canonical d a c h
  | csrrc d a c => exact execCsrrc_canonical d a c h
  | csrrwi d u c => exact execCsrrwi_canonical d u c h
  | csrrsi d u c => exact execCsrrsi_canonical d u c h
  | csrrci d u c => exact execCsrrci_canonical d u c h
  | undefinedUnit code bytes => exact execUndefinedUnit_canonical code bytes h
  | tret => exact execTret_canonical h
  | fcreate d a => exact execFcreate_canonical d a h
  | fsync d a => exact execFsync_canonical d a h
  | fbreak a => exact execFbreak_canonical a h
  | fkill a => exact execFkill_canonical a h
  | lsend k a => exact execLsend_canonical k a h
  | tself d s6 => exact execTself_canonical d s6 h
  | thalt => exact execThalt_canonical h
  | bjoin n => exact execBjoin_canonical n h
  | bleave n => exact execBleave_canonical n h
  | barw n => exact execBarw_canonical n h
  | bara n => exact execBara_canonical n h
  | bwait n => exact execBwait_canonical n h
  | stf a b => exact execStf_canonical a b h
  | sete a => exact execSete_canonical a h
  | mbsend a b => exact execMbsend_canonical a b h
  | mbrecv d => exact execMbrecv_canonical d h
  | mbpoll d g => exact execMbpoll_canonical d g h
  | qmap q e => exact execQmap_canonical q e h
  | qunmap q => exact execQunmap_canonical q h
  | qctl q a => exact execQctl_canonical q a h
  | hset a e => exact execHset_canonical a e h
  | hret => exact execHret_canonical h
  | hmask v => exact execHmask_canonical v h
  | wfe l => exact execWfe_canonical l h
  | evsig a l => exact execEvsig_canonical a l h
  | fenceX s6 => exact execFenceX_canonical s6 h
  | fenceAll s6 => exact execFenceAll_canonical s6 h
  | ldaq d a s6 => exact execLdaq_canonical d a s6 h
  | strl a b s6 => exact execStrl_canonical a b s6 h
  | ldmig d a => exact execLdmig_canonical d a h
  | cinv a b => exact execCinv_canonical a b h
  | pref a l => exact execPref_canonical a l h
  | lrln d a => exact execLrln_canonical d a h
  | scln d a => exact execScln_canonical d a h
  | gpost d a => exact execGpost_canonical d a h
  | gstat d => exact execGstat_canonical d h
  | mbind d a => exact execMbind_canonical d a h
  | mclass d a b => exact execMclass_canonical d a b h
  | mrow d a b => exact execMrow_canonical d a b h
  | mcnt d c => exact execMcnt_canonical d c h
  | amuServe cl => exact execAmuServe_canonical cl h
  | pload a n => exact execPload_canonical a n h
  | psave a n => exact execPsave_canonical a n h
  | pstat d n => exact execPstat_canonical d n h
  | vadd g d a b => exact execVadd_canonical g d a b h
  | vsub g d a b => exact execVsub_canonical g d a b h
  | vmul g d a b => exact execVmul_canonical g d a b h
  | vfma g d a b => exact execVfma_canonical g d a b h
  | vfms g d a b => exact execVfms_canonical g d a b h
  | vmin g d a b => exact execVmin_canonical g d a b h
  | vmax g d a b => exact execVmax_canonical g d a b h
  | vabs g d a => exact execVabs_canonical g d a h
  | vneg g d a => exact execVneg_canonical g d a h
  | viadd g d a b => exact execViadd_canonical g d a b h
  | visub g d a b => exact execVisub_canonical g d a b h
  | vimul g d a b => exact execVimul_canonical g d a b h
  | vand g d a b => exact execVand_canonical g d a b h
  | vor g d a b => exact execVor_canonical g d a b h
  | vxor g d a b => exact execVxor_canonical g d a b h
  | vshl g d a b => exact execVshl_canonical g d a b h
  | vshrl g d a b => exact execVshrl_canonical g d a b h
  | vshra g d a b => exact execVshra_canonical g d a b h
  | vimin g d a b => exact execVimin_canonical g d a b h
  | vimax g d a b => exact execVimax_canonical g d a b h
  | vcmpFeq g d a b => exact execVcmpFeq_canonical g d a b h
  | vcmpFne g d a b => exact execVcmpFne_canonical g d a b h
  | vcmpFlt g d a b => exact execVcmpFlt_canonical g d a b h
  | vcmpFle g d a b => exact execVcmpFle_canonical g d a b h
  | vcmpIeq g d a b => exact execVcmpIeq_canonical g d a b h
  | vcmpIne g d a b => exact execVcmpIne_canonical g d a b h
  | vcmpIlt g d a b => exact execVcmpIlt_canonical g d a b h
  | vcmpIle g d a b => exact execVcmpIle_canonical g d a b h
  | vsel k d a b => exact execVsel_canonical k d a b h
  | kand g d a b => exact execKand_canonical g d a b h
  | kor g d a b => exact execKor_canonical g d a b h
  | kxor g d a b => exact execKxor_canonical g d a b h
  | kandn g d a b => exact execKandn_canonical g d a b h
  | kfromx g d a => exact execKfromx_canonical g d a h
  | vld g d a => exact execVld_canonical g d a h
  | vlds g d a b => exact execVlds_canonical g d a b h
  | vsts g d a b => exact execVsts_canonical g d a b h
  | vgath g d a b => exact execVgath_canonical g d a b h
  | vscat g d a b => exact execVscat_canonical g d a b h
  | vbcx g d a => exact execVbcx_canonical g d a h
  | vmvx g d v l => exact execVmvx_canonical g d v l h
  | vmxv g d a l => exact execVmxv_canonical g d a l h
  | vcvt g d a s6 t => exact execVcvt_canonical g d a s6 t h
  | vpack g d a b => exact execVpack_canonical g d a b h
  | vunpack g d a p t => exact execVunpack_canonical g d a p t h
  | vrsum g d a => exact execVrsum_canonical g d a h
  | vrmax g d a => exact execVrmax_canonical g d a h
  | vperm g d a b => exact execVperm_canonical g d a b h
  | vslide g d a l => exact execVslide_canonical g d a l h
  | vbcast g d a l => exact execVbcast_canonical g d a l h
  | vscanc g d a k => exact execVscanc_canonical g d a k h
  | sfuService c => exact execSfuService_canonical c h
  | sfuResultWrite c i6 => exact execSfuResultWrite_canonical c i6 h
  | repv g l c s6 => exact execRepv_canonical g l c s6 h
  | tcfg g t y => exact execTcfg_canonical g t y h
  | accz g t k => exact execAccz_canonical g t k h
  | accld g t a b k => exact execAccld_canonical g t a b k h
  | accst g t a b k => exact execAccst_canonical g t a b k h
  | gangOperation q => exact execGangOperation_canonical q h
  | tileWrite c => exact execTileWrite_canonical c h
  | memberStart c x e => exact execMemberStart_canonical c x e h
  | inlineMemberTake c x => exact execInlineMemberTake_canonical c x h
  | familyFinish c x e => exact execFamilyFinish_canonical c x e h
  | registerFill i6 => exact execRegisterFill_canonical i6 h
  | migrationInstall i6 => exact execMigrationInstall_canonical i6 h
  | queueWordTransfer c dir => exact execQueueWordTransfer_canonical c dir h
  | lightHandlerEntry c x => exact execLightHandlerEntry_canonical c x h
  | mailboxDelivery c => exact execMailboxDelivery_canonical c h
  | eventSignalArrival c => exact execEventSignalArrival_canonical c h
  | localPortPass c => exact execLocalPortPass_canonical c h
  | laneDeliver i6 => exact execLaneDeliver_canonical i6 h
  | poolDeliver c i6 => exact execPoolDeliver_canonical c i6 h
  | homePerform w i6 j => exact execHomePerform_canonical w i6 j h
  | l1ViewServe c => exact execL1ViewServe_canonical c h
  | engineRead e i6 => exact execEngineRead_canonical e i6 h
  | copy c => exact execCopy_canonical c h
  | copyAccumulate c => exact execCopyAccumulate_canonical c h
  | fill c => exact execFill_canonical c h
  | multicastRead c => exact execMulticastRead_canonical c h
  | multicastCatchUp c => exact execMulticastCatchUp_canonical c h
  | stridedCopy c => exact execStridedCopy_canonical c h
  | packagePut c => exact execPackagePut_canonical c h
  | packageGet c => exact execPackageGet_canonical c h
  | completionFeFill c => exact execCompletionFeFill_canonical c h
  | completionMailbox c => exact execCompletionMailbox_canonical c h
  | completionHandlerTrigger c => exact execCompletionHandlerTrigger_canonical c h
  | completionRegisterFill c => exact execCompletionRegisterFill_canonical c h
  | gather cl => exact execGather_canonical cl h
  | scatter cl => exact execScatter_canonical cl h
  | scatterAdd cl => exact execScatterAdd_canonical cl h
  | iceChunkBegin cl => exact execIceChunkBegin_canonical cl h
  | iceEventSignal cl => exact execIceEventSignal_canonical cl h
  | grout cl => exact execGrout_canonical cl h
  | bellowsLatch cl => exact execBellowsLatch_canonical cl h
  | bellowsUpdate cl => exact execBellowsUpdate_canonical cl h
  | translationWalk i6 => exact execTranslationWalk_canonical i6 h
  | teamCostart t => exact execTeamCostart_canonical t h
  | quiescenceWave t => exact execQuiescenceWave_canonical t h
  | stopArrival c => exact execStopArrival_canonical c h
  | nop c x => exact execNop_canonical c x h
  | debug c x => exact execDebug_canonical c x h
  | signal c x => exact execSignal_canonical c x h
  | time c x => exact execTime_canonical c x h
  | qlist v buf => exact execQlist_canonical v buf h
  | qorder v ps => exact execQorder_canonical v ps h
  | yield v => exact execYield_canonical v h
  | pluginTime v => exact execPluginTime_canonical v h
  | pluginTimeout v => exact execPluginTimeout_canonical v h
  | cctlWrite c val => exact execCctlWrite_canonical c val h
  | flatchClear c => exact execFlatchClear_canonical c h
  | doorbell v r idx => exact execDoorbell_canonical v r idx h
  | launchRecordCheck v r => exact execLaunchRecordCheck_canonical v r h
  | launchReady l => exact execLaunchReady_canonical l h
  | teamDispatch l d => exact execTeamDispatch_canonical l d h
  | blockSteal l d => exact execBlockSteal_canonical l d h
  | preemptionRequest l => exact execPreemptionRequest_canonical l h
  | saveImageWrite t => exact execSaveImageWrite_canonical t h
  | teamDiscard t => exact execTeamDiscard_canonical t h
  | teamResume t => exact execTeamResume_canonical t h
  | launchCompletion l => exact execLaunchCompletion_canonical l h
  | svalWrite v s6 val => exact execSvalWrite_canonical v s6 val h
  | hfverNegotiate v lo hi => exact execHfverNegotiate_canonical v lo hi h
  | krel p val => exact execKrel_canonical p val h
  | imgrWrite p val => exact execImgrWrite_canonical p val h
  | partCreate p val => exact execPartCreate_canonical p val h
  | partDestroy p => exact execPartDestroy_canonical p h
  | partScrubComplete p => exact execPartScrubComplete_canonical p h
  | vbindWrite p val => exact execVbindWrite_canonical p val h
  | tinvPage v page => exact execTinvPage_canonical v page h
  | tinvVf v => exact execTinvVf_canonical v h
  | tinvComplete => exact execTinvComplete_canonical h
  | fresReplay d e => exact execFresReplay_canonical d e h
  | fresFail d e => exact execFresFail_canonical d e h
  | registerWrite sp addr val => exact execRegisterWrite_canonical sp addr val h
  | snapArm => exact execSnapArm_canonical h
  | snapHostFire => exact execSnapHostFire_canonical h
  | snapCounterTrigger => exact execSnapCounterTrigger_canonical h
  | snapPinTrigger => exact execSnapPinTrigger_canonical h
  | powerControlTick meas => exact execPowerControlTick_canonical meas h
  | patrolScrub p frame burst res => exact execPatrolScrub_canonical p frame burst res h
  | boot failAt => exact execBoot_canonical failAt h
  | getVersion v => exact execGetVersion_canonical v h
  | getMeasurements v idx => exact execGetMeasurements_canonical v idx h
  | keySlotInstall v pl => exact execKeySlotInstall_canonical v pl h
  | keySlotRevoke v pl => exact execKeySlotRevoke_canonical v pl h
  | lintelPacketReceive i6 crcOk => exact execLintelPacketReceive_canonical i6 crcOk h
  | hello n ver => exact execHello_canonical n ver h
  | remoteTransferRequest n rq => exact execRemoteTransferRequest_canonical n rq h
  | retransmitTimeout n => exact execRetransmitTimeout_canonical n h
  | ackTimeout c => exact execAckTimeout_canonical c h
  | cheadWrite v val => exact execCheadWrite_canonical v val h
  | holdingScrubComplete t => exact execHoldingScrubComplete_canonical t h
  | revokeComplete p s6 => exact execRevokeComplete_canonical p s6 h
  | pluginFault v => exact execPluginFault_canonical v h

end Sys2Proof.Machine
end

section
/-! PROOF. Canonical memory (R55 to R60): every step leaves memory in its canonical form. -/

namespace Sys2Proof.Machine

open Sys2Proof

/-! ## Issue -/

@[simp] theorem State.fetchLine_memWf {s : State} (h : memWf s.mem = true) (n l : Nat) : memWf (s.fetchLine n l).mem = true := by
  simp only [State.fetchLine]
  (repeat' split) <;> simp [h]

@[simp] theorem State.fetchAt_memWf {s : State} (h : memWf s.mem = true) (n : Nat) (pc : Word) :
    memWf (s.fetchAt n pc).mem = true := by
  unfold State.fetchAt
  split <;> simp [h]

@[simp] theorem State.cacheLine_mem (s : State) (n l : Nat) (v : List Byte × List Bool) :
    (s.cacheLine n l v).mem = s.mem := by simp [State.cacheLine]
@[simp] theorem State.fetched_mem (s : State) (n : Nat) (pc : Word) : (s.fetched n pc).mem = s.mem := by simp [State.fetched]
@[simp] theorem State.issuing_mem (s : State) (n x : Nat) (pc : Word) (f : Fetch) : (s.issuing n x pc f).mem = s.mem := by rfl
/-- What an attempt to issue leaves behind is canonical in memory. -/
def Try.Canonical : Try → Prop
  | .held t => memWf t.mem = true
  | .done o => Out.Canonical o

theorem State.perform_canonical {s : State} (h : memWf s.mem = true) (i : Instr) : Try.Canonical (s.perform i) := by
  have answered := exec_canonical h i
  unfold State.perform
  split
  · rename_i t next
    rw [next] at answered
    split <;> exact answered
  · exact answered

@[simp] theorem State.skip_mem (s : State) (i : Instr) : (s.skip i).mem = s.mem := by
  unfold State.skip
  split <;> simp

theorem State.attempt_canonical {s : State} (h : memWf s.mem = true) (n x : Nat) : Try.Canonical (s.attempt n x) := by
  unfold State.attempt
  extract_lets c read f u
  split
  · exact h
  have fetched : memWf u.mem = true := by
    have read : memWf read.mem = true := State.fetchAt_memWf h ..
    simpa [u] using read
  clear_value u
  split
  · exact State.perform_canonical fetched _
  · exact fetched
  split
  · exact (congrArg memWf (State.skip_mem ..)).trans fetched
  split
  · exact (congrArg memWf (State.takeControl_mem ..)).trans fetched
  split
  · exact fetched
  split
  · exact State.trapOut_canonical fetched ..
  split
  · exact State.trapOut_canonical fetched ..
  split
  · exact State.trapFree_canonical fetched ..
  · exact State.perform_canonical fetched _

@[simp] theorem State.portsPass_mem (s : State) :
    s.portsPass.mem = s.mem := by
  unfold State.portsPass
  refine foldl_mem _ (fun t c => ?_) _ _
  split
  · exact execLocalPortPass_mem ‹_›
  · rfl

@[simp] theorem State.cycleEnd_memWf {s : State} (h : memWf s.mem = true) :
    memWf s.cycleEnd.mem = true := by simp [State.cycleEnd, h]
@[simp] theorem State.newLag_mem (s : State) : s.newLag.mem = s.mem := by rfl
@[simp] theorem State.turnEnd_memWf {s : State} (h : memWf s.mem = true) (n : Nat) :
    memWf (s.turnEnd n).mem = true := by simp [State.turnEnd, h]
theorem State.issueOf_canonical {s : State} (h : memWf s.mem = true) (n : Nat) (l : List Nat) :
    Out.Canonical (s.issueOf n l) := by
  induction l generalizing s with
  | nil => exact State.turnEnd_memWf h n
  | cons x l ih =>
    have tried := State.attempt_canonical h n x
    unfold State.issueOf
    split
    · rename_i held
      rw [held] at tried
      exact ih tried
    · rename_i done
      rw [done] at tried
      exact State.turnEnd_memWf (s := State.onCore ..) tried n
    · rename_i done
      rw [done] at tried
      exact tried

theorem State.issue_canonical {s : State} (h : memWf s.mem = true) : Out.Canonical s.issue := by
  unfold State.issue
  split
  · exact State.turnEnd_memWf h _
  · exact State.issueOf_canonical (s := s.onCore ..) h ..

theorem State.ownStep_canonical {s : State} (h : memWf s.mem = true) : Out.Canonical s.ownStep := by
  have chosen : memWf ({ s with choice := s.choice + 1 } : State).mem = true := h
  unfold State.ownStep
  split
  · exact State.issue_canonical h
  split
  · exact exec_canonical chosen _
  · exact State.issue_canonical chosen

/-! ## Step -/

theorem step_canonical {s : State} (h : memWf s.mem = true) : Out.Canonical (step s) := by
  unfold step
  split
  · rename_i i t _
    have taken : memWf ({ s with agenda := t } : State).mem = true := h
    split
    · exact taken
    split
    · exact State.ownStep_canonical h
    · exact exec_canonical taken i
  split
  · rename_i u t _
    exact State.upset_memWf (s := { s with upsets := t }) h u
  split
  · rename_i taken
    exact State.takeInput_memWf h taken
  · exact State.ownStep_canonical h

/-- Settles O59: memory is written through `memSet` and `memPut` and thinned by `filter` alone, each of which keeps the canonical form. -/
theorem stepKeepsMemoryCanonical : Obligations.StepKeepsMemoryCanonical := by
  intro s t h e
  exact (Out.canonical_iff _).1 (step_canonical h) t e

end Sys2Proof.Machine
end

section
/-! PROOF. A write to bfmt (R62, R63). -/

namespace Sys2Proof.Machine

open Sys2Proof

/-- A sum of digits to a base has those digits. -/
theorem digits_of_sum {b : Nat} (f : Nat → Nat) (n : Nat) (h : ∀ i < n, f i < b) :
    let a := (List.range n).foldl (fun a i => a + f i * b ^ i) 0
    a < b ^ n ∧ ∀ i < n, a / b ^ i % b = f i := by
  induction n with
  | zero => exact ⟨Nat.one_pos, fun i hi => absurd hi (Nat.not_lt_zero i)⟩
  | succ n ih =>
    obtain ⟨lt, digits⟩ := ih fun i hi => h i (by omega)
    rw [List.range_succ, List.foldl_append]
    set a := (List.range n).foldl (fun a i => a + f i * b ^ i) 0
    simp only [List.foldl_cons, List.foldl_nil]
    have pos : 0 < b := Nat.zero_lt_of_lt (h n (by omega))
    have whole : (a + f n * b ^ n) / b ^ n = f n := by
      rw [Nat.add_mul_div_right _ _ (Nat.pow_pos pos), Nat.div_eq_of_lt lt, Nat.zero_add]
    refine ⟨?_, fun i hi => ?_⟩
    · rw [pow_succ', ← Nat.div_lt_iff_lt_mul (Nat.pow_pos pos), whole]
      exact h n (by omega)
    · obtain rfl | low : i = n ∨ i < n := by omega
      · rw [whole, Nat.mod_eq_of_lt (h i hi)]
      · obtain ⟨k, rfl⟩ : ∃ k, n = i + 1 + k := ⟨n - i - 1, by omega⟩
        have shift : f (i + 1 + k) * b ^ (i + 1 + k) = f (i + 1 + k) * b ^ k * b * b ^ i := by ring
        rw [shift, Nat.add_mul_div_right _ _ (Nat.pow_pos pos), Nat.add_mul_mod_self_right]
        exact digits i low

/-- Each bank takes its field of the written word, but for 9 to 15. -/
theorem bfmtNew_field (old : BitVec 32) (v : Word) {i : Nat} (hi : i < 8) :
    (bfmtNew old v).toNat / 16 ^ i % 16 =
      if 9 ≤ v.toNat / 16 ^ i % 16 then old.toNat / 16 ^ i % 16 else v.toNat / 16 ^ i % 16 := by
  obtain ⟨lt, digits⟩ := digits_of_sum (b := 16)
    (fun i => if 9 ≤ v.toNat / 16 ^ i % 16 then old.toNat / 16 ^ i % 16 else v.toNat / 16 ^ i % 16) 8
    fun i _ => by split <;> omega
  simp only [bfmtNew, BitVec.toNat_ofNat]
  rw [show (2 : Nat) ^ 32 = 16 ^ 8 by rfl, Nat.mod_eq_of_lt lt, digits i hi]

theorem State.csrWrite_bfmt (s : State) (v : Word) :
    s.csrWrite 0x809 v = some (s.onHere fun c => { c with bfmt := bfmtNew c.bfmt v }) := rfl

/-- A write to bfmt with no row access under way. -/
theorem execCsrrw_bfmt {s : State} {a : XReg} (ok : s.misuse [a] [0] = false) (free : s.rowsWait = false) :
    exec (.csrrw 0 a 0x809) s =
      .next (((s.pops [a]).wr 0 (s.csr 0x809)).onHere fun c => { c with bfmt := bfmtNew c.bfmt (s.rd a) }).retire := by
  have waits : s.csrWaits 0x809 = false := by simp [State.csrWaits, free]
  show s.csrOp [a] 0 true 0x809 (fun _ => s.rd a) = _
  simp only [State.csrOp, show csrAllowed true 0x809 = true from by decide, ok, waits, State.csrWrite_bfmt]
  rfl

/-- A write to bfmt waits for the context's row accesses. -/
theorem execCsrrw_bfmt_waits {s : State} {a : XReg} (ok : s.misuse [a] [0] = false) (busy : s.rowsWait = true) :
    exec (.csrrw 0 a 0x809) s = .next s := by
  have waits : s.csrWaits 0x809 = true := by simp [State.csrWaits, busy]
  show s.csrOp [a] 0 true 0x809 (fun _ => s.rd a) = _
  simp only [State.csrOp, show csrAllowed true 0x809 = true from by decide, ok, waits]
  rfl

theorem State.pops_bfmt (s : State) (l : List XReg) : (s.pops l).here.bfmt = s.here.bfmt := by
  obtain h | ⟨q, h⟩ := s.pops_frame l <;> rw [h]
  simp

/-- Settles O27: a write to bfmt pops its source, writes nothing to x0 and sets the fields of its core. -/
theorem bankFormatWrite : Obligations.BankFormatWrite := by
  intro s a ok
  refine ⟨execCsrrw_bfmt_waits ok, fun free => ⟨_, execCsrrw_bfmt ok free, ?_, ?_, fun i hi => ?_⟩⟩
  · have cur : (((s.pops [a]).wr 0 (s.csr 0x809)).onHere fun c => { c with bfmt := bfmtNew c.bfmt (s.rd a) }).cur = s.cur := by
      rw [State.onHere_cur _ _ rfl, State.wr_zero, State.cur_onCur, State.pops_cur]
    exact retired_retire ((State.wr_iss ..).trans (State.pops_iss ..)) (by rw [cur]) (by rw [cur])
  · intro k
    simp
  · have was : ((s.pops [a]).wr 0 (s.csr 0x809)).here.bfmt = s.here.bfmt := by
      rw [State.wr_zero, State.here_onCur_bfmt, State.pops_bfmt]
    simp only [State.retire, State.here_onCur_bfmt, State.here_onHere, was]
    exact bfmtNew_field _ _ hi

end Sys2Proof.Machine
end

section
/-! PROOF. Loads, stores and atomics at a home whose lines are unsealed (R69, R74, R78, R82, R86, R203, R204). -/

namespace Sys2Proof.Machine

open Sys2Proof

/-! ## Homes that keep plain bytes -/

/-- No line of a slice is sealed. -/
def State.Unsealed (s : State) : Prop := ∀ e ∈ s.l2, ∀ l ∈ e.2, l.slot = 0

/-- The home keeps the request's bytes at the key as they are: a scratchpad or tile row, the host's page, or a slice's unsealed line. -/
def State.Plain (s : State) (r : Req) (key : Nat) : Prop :=
  (∃ n, r.home = .core n ∧ key / 2 ^ 27 % 8 < 2) ∨ r.home = .host ∨
    (∃ p j, r.home = .slice p j ∧ r.slot = 0 ∧ s.named p key = true ∧ s.Unsealed)

theorem State.Unsealed.slice {s : State} (h : s.Unsealed) (p i : Nat) : ∀ l ∈ s.slice p i, l.slot = 0 := fun l hl => by
  obtain none | kept := tabGet_default_or_mem [] s.l2 (sliceNo p i)
  · simp [State.slice, none] at hl
  · exact h _ kept l hl

theorem victim_mem {ls : List SLine} {l : SLine} (h : victim ls = some l) : l ∈ ls := by
  induction ls generalizing l with
  | nil => cases h
  | cons m t ih =>
    unfold victim at h
    split at h
    · exact Option.some.inj h ▸ List.mem_cons_self
    · rename_i v kept
      split at h
      · exact Option.some.inj h ▸ List.mem_cons_self
      · exact List.mem_cons_of_mem _ (ih (kept.trans h))

theorem State.dropOther_unsealed {s : State} (h : s.Unsealed) (p i line : Nat) : s.dropOther p i line 0 = s := by
  have none : (s.slice p i).find? (fun l => l.line == line && l.slot != 0) = none :=
    List.find?_eq_none.2 fun l hl => by simp [h.slice p i l hl]
  rw [State.dropOther, none]

theorem State.writeBack_plain (s : State) (p : Nat) {l : SLine} (h : l.slot = 0) : s.writeBack p l = s := by
  simp [State.writeBack, h]

theorem State.allocate_unsealed {s : State} (h : s.Unsealed) (p i line slot vline prio hint : Nat) :
    ∃ l, s.allocate p i line slot vline prio hint = { s with l2 := l } := by
  simp only [State.allocate]
  split
  · exact ⟨_, rfl⟩
  · split
    · exact ⟨_, rfl⟩
    · rename_i v out
      have inSet : v ∈ setOf (s.slice p i) line := List.mem_of_mem_filter (victim_mem out)
      have inSlice : v ∈ s.slice p i := by
        unfold setOf at inSet
        split at inSet
        · exact inSet
        · exact List.mem_of_mem_filter inSet
      rw [State.writeBack_plain _ _ (h.slice p i v inSlice)]
      exact ⟨_, rfl⟩

theorem State.touch_unsealed {s : State} (h : s.Unsealed) (p i line vline prio hint : Nat) :
    ∃ l c, s.touch p i line 0 vline prio hint = { s with l2 := l, clock := c } := by
  have kept : State.Unsealed { s with clock := s.clock + 1 } := h
  simp only [State.touch, State.dropOther_unsealed kept]
  split
  · exact ⟨_, _, rfl⟩
  · split
    · exact ⟨_, _, rfl⟩
    · obtain ⟨l, e⟩ := State.allocate_unsealed kept p i line 0 vline prio hint
      exact ⟨l, _, e⟩

section
variable {s : State} {r : Req} {key : Nat} (plain : s.Plain r key)
include plain

/-- A visit to a home that keeps plain bytes turns lines of its cache only. -/
theorem State.Plain.visit (k : Nat) : ∃ l c, s.visit r k = { s with l2 := l, clock := c } := by
  obtain ⟨n, home, -⟩ | home | ⟨p, i, home, slot, -, unsealed⟩ := plain
  · exact ⟨_, _, by simp only [State.visit, State.visitAs, home]; rfl⟩
  · exact ⟨_, _, by simp only [State.visit, State.visitAs, home]; rfl⟩
  · simp only [State.visit, State.visitAs, home, slot]
    exact State.touch_unsealed unsealed ..

/-- A home that keeps plain bytes reads them from memory. -/
theorem State.Plain.bytesAt (k n : Nat) : (s.visit r k).bytesAt r key n = memBytes s.mem key n := by
  obtain ⟨l, c, e⟩ := plain.visit k
  obtain ⟨m, home, -⟩ | home | ⟨p, i, home, slot, named, -⟩ := plain
  · simp only [e, State.bytesAt, home]
  · simp only [e, State.bytesAt, home]
  · have named' : State.named { s with l2 := l, clock := c } p key = true := named
    simp only [e, State.bytesAt, home, State.sliceBytes, slot, named']
    rfl

omit plain in
theorem State.Plain.notWindow (plain : s.Plain r r.addr) : ¬ (coreOf r.home ≠ none ∧ r.addr / 2 ^ 27 % 8 = 2) := by
  obtain ⟨n, home, bank⟩ | home | ⟨p, i, home, -⟩ := plain
  · omega
  · simp [home, coreOf]
  · simp [home, coreOf]

omit plain in
/-- A core checks the parity of its scratchpad and tile rows (R373). -/
theorem State.Plain.parityBad (plain : s.Plain r r.addr) (n : Nat) : s.parityBad r n = ((coreOf r.home).isSome && s.parityFails r.addr n) := by
  obtain ⟨m, home, bank⟩ | home | ⟨p, i, home, -⟩ := plain
  · have other : ¬ r.addr / 2 ^ 27 % 8 = 2 := by omega
    simp only [State.parityBad, home, coreOf, if_neg other, Option.isSome_some, Bool.true_and]
  · simp only [State.parityBad, home, coreOf, Option.isSome_none, Bool.false_and]
  · simp only [State.parityBad, home, coreOf, Option.isSome_none, Bool.false_and]

end

theorem State.putBytes_eq (s : State) (key : Nat) (b : List Byte) :
    ∃ po pa, s.putBytes key b = { s with mem := memPut s.mem key b, poison := po, parity := pa } := by
  unfold State.putBytes
  split
  · exact ⟨_, _, rfl⟩
  · exact ⟨_, _, rfl⟩

theorem State.sliceWrite_plain {s : State} {p key : Nat} (named : s.named p key = true) (i va : Nat) (b : List Byte) :
    ∃ l po pa, s.sliceWrite p i key 0 va b = { s with mem := memPut s.mem key b, l2 := l, poison := po, parity := pa } := by
  simp only [State.sliceWrite, named, Bool.not_true, Bool.false_eq_true, if_false, if_true]
  split
  · obtain ⟨po, pa, e⟩ := State.putBytes_eq (s.setSlice p i _) key b
    exact ⟨_, po, pa, e⟩
  · obtain ⟨po, pa, e⟩ := State.putBytes_eq s key b
    exact ⟨s.l2, po, pa, e⟩

/-- A store at a home that keeps plain bytes writes exactly its bytes to memory. -/
theorem State.Plain.store {s : State} {r : Req} {key : Nat} (plain : s.Plain r key) (k : Nat) (b : List Byte) :
    ∃ l c rv po pa, (s.visit r k).storeAt r key b =
      { s with mem := memPut s.mem key b, l2 := l, clock := c, resv := rv, poison := po, parity := pa } := by
  obtain ⟨l, c, e⟩ := plain.visit k
  rw [e]
  obtain ⟨po, pa, put⟩ := State.putBytes_eq { s with l2 := l, clock := c } key b
  obtain ⟨n, home, bank⟩ | home | ⟨p, i, home, slot, named, -⟩ := plain
  · have other : ¬ key / 2 ^ 27 % 8 = 2 := by omega
    refine ⟨l, c, s.resv, po, pa, ?_⟩
    simp only [State.storeAt, home, if_neg other]
    exact put
  · refine ⟨l, c, s.resv, po, pa, ?_⟩
    simp only [State.storeAt, home]
    exact put
  · have named' : State.named { s with l2 := l, clock := c } p key = true := named
    obtain ⟨l', po, pa, e⟩ := State.sliceWrite_plain named' i (r.va.toNat + key - r.addr) b
    simp only [State.storeAt, home, slot, e]
    exact ⟨l', c, _, po, pa, rfl⟩

section
variable {s : State} {r : Req} {key : Nat} (plain : s.Plain r key) (k : Nat)
include plain

theorem State.Plain.visit_mem : (s.visit r k).mem = s.mem := by
  obtain ⟨l, c, e⟩ := plain.visit k
  rw [e]

theorem State.Plain.visit_fills : (s.visit r k).fills = s.fills := by
  obtain ⟨l, c, e⟩ := plain.visit k
  rw [e]

theorem State.Plain.visit_poisonedAny (a n : Nat) : (s.visit r k).poisonedAny a n = s.poisonedAny a n := by
  obtain ⟨l, c, e⟩ := plain.visit k
  rw [e]
  rfl

theorem State.Plain.store_mem (b : List Byte) : ((s.visit r k).storeAt r key b).mem = memPut s.mem key b := by
  obtain ⟨l, c, rv, po, pa, e⟩ := plain.store k b
  rw [e]

theorem State.Plain.store_fills (b : List Byte) : ((s.visit r k).storeAt r key b).fills = s.fills := by
  obtain ⟨l, c, rv, po, pa, e⟩ := plain.store k b
  rw [e]

end

/-! ## Bytes read back -/

theorem memBytes_memPut {m : List (Nat × Byte)} (h : memWf m = true) (a : Nat) (b : List Byte) :
    memBytes (memPut m a b) a b.length = b := by
  rw [memBytes_eq]
  refine List.ext_getElem (by simp) fun i hi hb => ?_
  simp only [List.getElem_map, List.getElem_range]
  exact memGet_memPut_in h hb

theorem leNat_leBytes_mod (n v : Nat) : leNat (leBytes n v) = v % 256 ^ n := by
  induction n generalizing v with
  | zero => simp [leBytes, leNat, Nat.mod_one]
  | succ n ih =>
    rw [leBytes, leNat, ih, Nat.pow_succ', Nat.mod_mul, BitVec.toNat_ofNat]

theorem memNat_memPut_leBytes {m : List (Nat × Byte)} (h : memWf m = true) (a n v : Nat) :
    memNat (memPut m a (leBytes n v)) a n = v % 256 ^ n := by
  have back := memBytes_memPut h a (leBytes n v)
  rw [leBytes_length] at back
  rw [← leNat_memBytes, back, leNat_leBytes_mod]

theorem sameBytesBut_memPut {s t : State} {a : Nat} {b : List Byte} (h : memWf s.mem = true) (mem : t.mem = memPut s.mem a b) :
    SameBytesBut s t a b.length := fun k out => by
  rw [mem, memGet_memPut_out h out]

/-! ## Replies -/

/-- A reply sends one value to its register. -/
theorem State.reply_sends (s : State) (r : Req) (d : Nat) (v : Word) (err : Nat) :
    ∃ f : RegFill, (s.reply r d v err).fills = s.fills ++ [f] ∧ f.uid = r.uid ∧ f.reg = d ∧ f.val = v ∧ f.err = err ∧ f.addr = r.va := by
  unfold State.reply
  extract_lets src u
  have kept : u.fills = s.fills := by
    simp only [u]
    clear_value src
    cases src <;> rfl
  exact ⟨_, congrArg (· ++ _) kept, rfl, rfl, rfl, rfl, rfl⟩

theorem State.enterL1_fills (s : State) (r : Req) : (s.enterL1 r).fills = s.fills := by
  unfold State.enterL1
  split
  · split <;> rfl
  · rfl

theorem extended_eq (n : Nat) (x : Bool) (v : Nat) :
    extended n x v = if x then (BitVec.ofNat (8 * n) v).signExtend 64 else BitVec.ofNat 64 v := by
  cases x <;> rfl

theorem State.req_id {s : State} {i : Nat} {r : Req} (h : s.req i = some r) : r.id = i := by
  simpa using List.find?_some h

/-! ## The request's turn -/

/-- A request in its turn at its home, which no engine's unit and no shut core holds up. -/
structure State.Ready (s : State) (r : Req) : Prop where
  here : s.req r.id = some r
  come : r.st = 1 ∨ r.st = 3
  front : s.behind r = false
  turn : s.turnOf r = true
  good : r.bad = false
  admitted : s.refused r = false
  free : s.meetsOwned r 0 = false

/-- A good request in its turn is performed and taints nothing. -/
theorem State.Ready.performs {s : State} {r : Req} (h : s.Ready r) (whole : s.begin r = r)
    (free : (s.onReq r.id fun _ => r).meetsOwned r 0 = false) :
    exec (.homePerform r.home r.id 0) s = .next ((s.onReq r.id fun _ => r).performAt r 0) := by
  rw [execHomePerform_performs h.here h.come h.front h.turn whole free h.admitted]
  simp [State.taint, h.good]

/-! ## Loads and stores (R78, R82) -/

/-- A store that is performed writes exactly its bytes and leaves the list of requests. -/
theorem State.Ready.store {s : State} {r : Req} (h : s.Ready r) (plain : s.Plain r r.addr) (ok : MemOk s) {b : List Byte}
    (op : r.op = .store b) :
    ∃ t : State, exec (.homePerform r.home r.id 0) s = .next t ∧ memBytes t.mem r.addr b.length = b ∧
      SameBytesBut s t r.addr b.length ∧ t.req r.id = none ∧ t.fills = s.fills := by
  have free := h.free
  simp only [State.meetsOwned, op, State.spots] at free
  have run := h.performs (by simp [State.begin, op]) (by simp only [State.meetsOwned, op, State.spots]; exact free)
  have plain' : (s.onReq r.id fun _ => r).Plain r r.addr := plain
  have mem : (((s.onReq r.id fun _ => r).visit r r.addr).storeAt r r.addr b).mem = memPut s.mem r.addr b := plain'.store_mem ..
  simp only [State.performAt, op] at run
  refine ⟨_, run, ?_, sameBytesBut_memPut ok mem, State.dropReq_req .., plain'.store_fills r.addr b⟩
  rw [State.performed_mem, mem]
  exact memBytes_memPut ok _ b

/-- The reply of a load from a state that has kept memory and the fills. -/
theorem State.reply_loads {s u : State} (mem : u.mem = s.mem) (fills : u.fills = s.fills) (r q : Req) (d : Nat) (v : Word) (e : Nat) :
    let t := ((u.reply q d v e).enterL1 r).performed r
    ∃ f : RegFill, t.fills = s.fills ++ [f] ∧ f.uid = q.uid ∧ f.reg = d ∧ f.val = v ∧ f.err = e ∧ f.addr = q.va ∧ SameBytes s t ∧
      t.req r.id = none := by
  obtain ⟨f, sent, uid, reg, val, err, addr⟩ := u.reply_sends q d v e
  refine ⟨f, ?_, uid, reg, val, err, addr, fun a => ?_, State.dropReq_req ..⟩
  · exact (State.enterL1_fills ..).trans (sent.trans (congrArg (· ++ [f]) fills))
  · rw [State.performed_mem, State.enterL1_mem, State.reply_mem, mem]

/-- A load that is performed sends its bytes to its register and leaves the list of requests. -/
theorem State.Ready.load {s : State} {r : Req} (h : s.Ready r) (plain : s.Plain r r.addr) {k d : Nat} {x : Bool}
    (op : r.op = .load k x d) :
    ∃ (t : State) (f : RegFill), exec (.homePerform r.home r.id 0) s = .next t ∧ t.fills = s.fills ++ [f] ∧ f.uid = r.uid ∧ f.reg = d ∧
      f.val = extended k x (memNat s.mem r.addr k) ∧
      (let failed := (coreOf r.home).isSome && s.parityFails r.addr k
       f.err = (if failed || s.poisonedAny r.addr k then 0x0F else 0) ∧ f.addr = (if failed then 0 else r.va)) ∧
      SameBytes s t ∧ t.req r.id = none := by
  have free := h.free
  simp only [State.meetsOwned, op, State.spots] at free
  have run := h.performs (by simp [State.begin, op]) (by simp only [State.meetsOwned, op, State.spots]; exact free)
  have plain' : (s.onReq r.id fun _ => r).Plain r r.addr := plain
  have bytes := plain'.bytesAt r.addr k
  have parity : ((s.onReq r.id fun _ => r).visit r r.addr).parityBad r k = ((coreOf r.home).isSome && s.parityFails r.addr k) := by
    obtain ⟨l, c, visited⟩ := plain'.visit r.addr
    rw [visited]
    exact plain.parityBad k
  have poison : ((s.onReq r.id fun _ => r).visit r r.addr).poisonedAny r.addr k = s.poisonedAny r.addr k := plain'.visit_poisonedAny ..
  have mem : ((s.onReq r.id fun _ => r).visit r r.addr).mem = s.mem := plain'.visit_mem ..
  have fills : ((s.onReq r.id fun _ => r).visit r r.addr).fills = s.fills := plain'.visit_fills ..
  simp only [State.performAt, op, bytes, leNat_memBytes, if_neg plain.notWindow, parity, State.poisonErr, poison, State.onReq_mem] at run
  split at run
  · rename_i failed
    obtain ⟨f, sent, uid, reg, val, err, addr, same, gone⟩ := State.reply_loads mem fills r { r with va := 0 } d (extended k x (memNat s.mem r.addr k)) 0x0F
    exact ⟨_, f, run, sent, uid, reg, val, by simp [failed, err, addr], same, gone⟩
  · rename_i failed
    obtain ⟨f, sent, uid, reg, val, err, addr, same, gone⟩ := State.reply_loads mem fills r r d (extended k x (memNat s.mem r.addr k))
      (if s.poisonedAny r.addr k = true then 0x0F else 0)
    exact ⟨_, f, run, sent, uid, reg, val, by simp [failed, err, addr], same, gone⟩

/-- Settles O21: a plain home reads and writes memory itself. -/
theorem homePerformsLoadsAndStores : Obligations.HomePerformsLoadsAndStores := by
  intro s i r ok here come front turn good admitted free home
  obtain rfl := State.req_id here
  have ready : s.Ready r := ⟨here, come, front, turn, good, admitted, free⟩
  refine ⟨fun b op => ready.store home ok op, fun k x d op => ?_⟩
  simp only [← extended_eq]
  exact ready.load home op

/-! ## Atomics (R203, R204) -/

theorem memNat_lt (m : List (Nat × Byte)) (a n : Nat) : memNat m a n < 256 ^ n := by
  have lt := leNat_lt (memBytes m a n)
  rwa [memBytes_length, leNat_memBytes] at lt

/-- What each operation of an atomic of k bytes makes of the old value m, the operand v and the compare value c. -/
def amoTable (k m : Nat) (v c : Word) : List (Nat × Nat) :=
  let w := 8 * k
  let o := v.toNat % 2 ^ w
  let half := fun (x y : Nat) => (bf16.add 0 (bf16.decode x) (bf16.decode y)).1
  [(0, (m + v.toNat) % 2 ^ w), (1, m &&& o), (2, m ||| o), (3, m ^^^ o),
    (4, if (BitVec.ofNat w v.toNat).toInt < (BitVec.ofNat w m).toInt then o else m),
    (5, if (BitVec.ofNat w m).toInt < (BitVec.ofNat w v.toNat).toInt then o else m),
    (6, min m o), (7, max m o), (8, o), (9, if m = c.toNat % 2 ^ w then o else m)] ++
    (if k = 4 then [(10, (f32.add 0 (f32.decode m) (f32.decode o)).1 % 2 ^ 32),
      (11, (half (m / 2 ^ 16) (o / 2 ^ 16) * 2 ^ 16 + half (m % 2 ^ 16) (o % 2 ^ 16)) % 2 ^ 32)] else [])

theorem amoNew_table {k m : Nat} (lt : m < 2 ^ (8 * k)) (v c : Word) :
    ∀ q ∈ amoTable k m v c, amoNew q.1 (8 * k) m (v.toNat % 2 ^ (8 * k)) (c.toNat % 2 ^ (8 * k)) % 2 ^ (8 * k) = q.2 := by
  have small : v.toNat % 2 ^ (8 * k) < 2 ^ (8 * k) := Nat.mod_lt _ (Nat.two_pow_pos _)
  have sint : sInt (8 * k) (v.toNat % 2 ^ (8 * k)) = (BitVec.ofNat (8 * k) v.toNat).toInt := by
    rw [sInt]
    congr 1
    exact BitVec.eq_of_toNat_eq (by simp)
  intro q hq
  simp only [amoTable, List.mem_append, List.mem_cons, List.not_mem_nil, or_false] at hq
  rcases hq with (rfl | rfl | rfl | rfl | rfl | rfl | rfl | rfl | rfl | rfl) | hq
  · simp [amoNew]
  · exact Nat.mod_eq_of_lt (Nat.and_lt_two_pow _ small)
  · exact Nat.mod_eq_of_lt (Nat.or_lt_two_pow lt small)
  · exact Nat.mod_eq_of_lt (Nat.xor_lt_two_pow lt small)
  · show (if sInt (8 * k) _ < sInt (8 * k) m then _ else m) % _ = _
    rw [sint, Nat.mod_eq_of_lt (by split <;> assumption)]
    rfl
  · show (if sInt (8 * k) m < sInt (8 * k) _ then _ else m) % _ = _
    rw [sint, Nat.mod_eq_of_lt (by split <;> assumption)]
    rfl
  · exact Nat.mod_eq_of_lt (Nat.lt_of_le_of_lt (Nat.min_le_left ..) lt)
  · exact Nat.mod_eq_of_lt (Nat.max_lt.2 ⟨lt, small⟩)
  · exact Nat.mod_eq_of_lt small
  · show (if m = _ then _ else m) % _ = _
    exact Nat.mod_eq_of_lt (by split <;> assumption)
  · split at hq
    · subst k
      simp only [List.mem_cons, List.not_mem_nil, or_false] at hq
      rcases hq with rfl | rfl <;> rfl
    · simp at hq

/-- The reply of an atomic from a state that has kept the fills. -/
theorem State.reply_atomic {s u : State} (fills : u.fills = s.fills) (r : Req) (d : Nat) (v : Word) (e : Nat) :
    let t := (u.reply r d v e).performed r
    ∃ f : RegFill, t.fills = s.fills ++ [f] ∧ f.uid = r.uid ∧ f.reg = d ∧ f.val = v ∧ f.err = e ∧ f.addr = r.va ∧ t.mem = u.mem ∧
      t.req r.id = none := by
  obtain ⟨f, sent, uid, reg, val, err, addr⟩ := u.reply_sends r d v e
  exact ⟨f, sent.trans (congrArg (· ++ [f]) fills), uid, reg, val, err, addr, u.reply_mem r d v e, State.dropReq_req ..⟩

/-- An atomic's memory holds the operation's value whether its home stores it or it stands there already. -/
theorem State.Ready.atomic {s : State} {r : Req} (h : s.Ready r) (plain : s.Plain r r.addr) (ok : MemOk s) {k op d : Nat} {v c : Word}
    (amo : r.op = .amo op k d v c) :
    let m := memNat s.mem r.addr k
    (s.poisonedAny r.addr k = true → ∃ (t : State) (f : RegFill), exec (.homePerform r.home r.id 0) s = .next t ∧ SameBytes s t ∧
      t.fills = s.fills ++ [f] ∧ f.uid = r.uid ∧ f.reg = d ∧ f.err = 0x0F ∧ f.addr = r.va ∧ t.req r.id = none) ∧
    (s.poisonedAny r.addr k = false → ∃ (t : State) (f : RegFill), exec (.homePerform r.home r.id 0) s = .next t ∧
      memNat t.mem r.addr k = amoNew op (8 * k) m (v.toNat % 2 ^ (8 * k)) (c.toNat % 2 ^ (8 * k)) % 2 ^ (8 * k) ∧
      SameBytesBut s t r.addr k ∧ t.fills = s.fills ++ [f] ∧ f.uid = r.uid ∧ f.reg = d ∧ f.err = 0 ∧
      f.val = extended k (k == 4) m ∧ t.req r.id = none) := by
  intro m
  have width : 256 ^ k = 2 ^ (8 * k) := (pow_mul 2 8 k).symm
  have free := h.free
  simp only [State.meetsOwned, amo, State.spots] at free
  have run := h.performs (by simp [State.begin, amo]) (by simp only [State.meetsOwned, amo, State.spots]; exact free)
  have plain' : (s.onReq r.id fun _ => r).Plain r r.addr := plain
  have bytes := plain'.bytesAt r.addr k
  have poison : ((s.onReq r.id fun _ => r).visit r r.addr).poisonedAny r.addr k = s.poisonedAny r.addr k := plain'.visit_poisonedAny ..
  have mem : ((s.onReq r.id fun _ => r).visit r r.addr).mem = s.mem := plain'.visit_mem ..
  have fills : ((s.onReq r.id fun _ => r).visit r r.addr).fills = s.fills := plain'.visit_fills ..
  simp only [State.performAt, amo, bytes, leNat_memBytes, poison, h.good, State.onReq_mem] at run
  refine ⟨fun bad => ?_, fun clean => ?_⟩
  · rw [if_pos bad] at run
    obtain ⟨f, sent, uid, reg, val, err, addr, kept, gone⟩ := State.reply_atomic fills r d 0 0x0F
    exact ⟨_, f, run, fun a => by rw [kept, mem], sent, uid, reg, err, addr, gone⟩
  · rw [if_neg (by simp [clean])] at run
    split at run
    · rw [if_neg (by decide)] at run
      obtain ⟨f, sent, uid, reg, val, err, addr, kept, gone⟩ := State.reply_atomic (plain'.store_fills r.addr _) r d (extended k (k == 4) m) 0
      rw [plain'.store_mem, State.onReq_mem] at kept
      refine ⟨_, f, run, ?_, ?_, sent, uid, reg, err, val, gone⟩
      · rw [kept, memNat_memPut_leBytes ok, ← width]
      · have frame := sameBytesBut_memPut ok kept
        rwa [leBytes_length] at frame
    · rename_i stands
      obtain ⟨f, sent, uid, reg, val, err, addr, kept, gone⟩ := State.reply_atomic fills r d (extended k (k == 4) m) 0
      refine ⟨_, f, run, ?_, fun a _ => by rw [kept, mem], sent, uid, reg, err, val, gone⟩
      obtain ⟨same, -⟩ := not_or.1 stands
      rw [kept, mem, not_not.1 same]
      exact (Nat.mod_eq_of_lt (width ▸ memNat_lt ..)).symm

/-- Settles O23: the home's operation is the table's at its width. -/
theorem atomicsAtHome : Obligations.AtomicsAtHome := by
  intro s i k op d v c r ok here come front turn good admitted free home width amo
  obtain rfl := State.req_id here
  have ready : s.Ready r := ⟨here, come, front, turn, good, admitted, free⟩
  have plain : s.Plain r r.addr := home.imp_left fun ⟨n, at', bank⟩ => ⟨n, at', by omega⟩
  obtain ⟨poisoned, clean⟩ := ready.atomic plain ok amo
  refine ⟨poisoned, fun good q hq e => ?_⟩
  obtain ⟨t, f, run, new, frame, fills, uid, reg, err, val, gone⟩ := clean good
  have lt : memNat s.mem r.addr k < 2 ^ (8 * k) := by
    rw [pow_mul]
    exact memNat_lt ..
  subst e
  refine ⟨t, f, run, new.trans (amoNew_table lt v c q hq), frame, fills, uid, reg, err, val.trans ?_, gone⟩
  rw [extended_eq]
  rcases width with rfl | rfl <;> simp

end Sys2Proof.Machine
end

section
/-! PROOF. Rows and memory (R64, R65, R74): a state in which a row load ends another context's wait than the one its thread is found in. -/

namespace Sys2Proof.Machine

open Sys2Proof

/-- The one lane of the row load: the word at 0x10000 of partition 0. -/
def strayPart : Part := { addr := partKey 0 0x10000, n := 4, off := 0, fmt := 0 }
/-- What core 3 asks of slice 0 for the row, and its join: thread 7 waits for row 35. -/
def strayReq : Req :=
  { id := 1, uid := 7, cls := 1, scope := 0, counted := true, born := 0, came := 0, core := 3, ctx := 1, home := .slice 0 0,
    addr := partKey 0 0x10000, va := 0x10000, upc := 0, fam := none, slot := 0, stream := true, st := 1, arr := 1, acq := 0, noFill := false,
    begun := false, team := none, tries := 0, bad := false, rtries := 0, rbad := false,
    op := .rowLd 9 1 [(0, partKey 0 0x10000)] false none }
def strayJoin : Join :=
  { id := 9, uid := 7, row := 35, ty := 1, left := 1, data := 0, mask := 0, poison := none, flags := 0, upc := 0 }
/-- The table of cores lists core 5 before core 3, and thread 7 stands on both; partition 0 has slice 0. -/
def strayRow : State :=
  { State.reset with
    cores := [(5, { Core.reset with ctxs := [(1, { Ctx.empty with uid := 7, lease := [2], pendV := [35] })] }),
              (3, { Core.reset with ctxs := [(1, { Ctx.empty with uid := 7 })] })]
    reqs := [strayReq], joins := [strayJoin], parts := [(0, 0xA000000000010800)], cycle := 1
    iss := { core := 5, ctx := 1, upc := 0, ipc := 0, npc := 4, bits := 0 } }

/-- Thread 7 is found on core 5. -/
theorem strayRow_found : strayRow.holder 7 = some (5, 1) := by decide

/-- The request is in its turn at an unsealed line of the slice, and its one granule is the lane's word. -/
theorem strayRow_ready : memWf strayRow.mem = true ∧ strayRow.req 1 = some strayReq ∧ strayRow.behind strayReq = false ∧
    strayRow.turnOf strayReq = true ∧ strayRow.refused strayReq = false ∧ strayRow.meetsOwned (strayRow.begin strayReq) 0 = false ∧
    strayRow.named 0 strayPart.addr = true ∧ strayRow.rowTrap strayReq strayPart = none ∧
    (strayRow.begin strayReq).op = .rowLd 9 1 [(0, partKey 0 0x10000)] false (some [strayPart]) := by decide +kernel

/-- A request whose turn has come is split into its granules as it begins, and its granule j is performed. -/
theorem execHomePerform_begins {s : State} {r : Req} {j : Nat} (here : s.req r.id = some r) (come : r.st = 1 ∨ r.st = 3)
    (front : s.behind r = false) (turn : s.turnOf r = true) (free : (s.onReq r.id fun _ => s.begin r).meetsOwned (s.begin r) j = false)
    (admitted : s.refused (s.begin r) = false) :
    exec (.homePerform r.home r.id j) s =
      .next (((s.onReq r.id fun _ => s.begin r).performAt (s.begin r) j).taint (s.begin r) j) := by
  have admitted' : (s.onReq r.id fun _ => s.begin r).refused (s.begin r) = false := admitted
  show execHomePerform r.home r.id j s = _
  simp [execHomePerform, here, come, front, turn, free, admitted']

/-- The line that enters core 3's L1 puts that core first, so it is the context there whose wait ends. -/
theorem strayRow_waits :
    ∃ t : State, exec (.homePerform (.slice 0 0) 1 0) strayRow = .next t ∧ (t.ctxAt 5 1).pendV = [35] := by
  obtain ⟨-, here, front, turn, admitted, free, -⟩ := strayRow_ready
  exact ⟨_, execHomePerform_begins here (.inl rfl) front turn free admitted, by decide +kernel⟩

/-- Refutes O45: it ranges over states whose table of cores is out of order, and there the last granule of a row load need not end the wait of
the context that its thread was found in. The line that enters the L1 of the core that asked writes that core's entry, which then stands first. -/
theorem not_rowsAndMemoryResult : ¬ Obligations.RowsAndMemoryResult := by
  unfold Obligations.RowsAndMemoryResult
  intro holds
  obtain ⟨mem, here, front, turn, admitted, free, named, untrapped, begun⟩ := strayRow_ready
  obtain ⟨-, -, -, -, home, -⟩ := holds strayRow 0 0 0 0 0 32 (by decide)
  obtain ⟨-, loads⟩ := home strayReq 1 [(0, partKey 0 0x10000)] false [strayPart] 0 strayPart mem here (.inl rfl) front turn rfl admitted free rfl
    (.inr (.inr ⟨0, 0, rfl, rfl, named, by decide⟩)) (fun h => absurd rfl h) (by decide) (by decide)
  obtain ⟨-, ends⟩ := loads 9 strayJoin begun rfl untrapped rfl
  obtain ⟨t, run, -, -, ended, -⟩ := ends 5 1 rfl rfl strayRow_found
  obtain ⟨u, run', waits⟩ := strayRow_waits
  obtain rfl : u = t := Host.Outcome.next.inj (run'.symm.trans run)
  rw [ended] at waits
  exact absurd waits (by decide)

end Sys2Proof.Machine
end

section
/-! PROOF. Fences (R86, R87, R198). -/

namespace Sys2Proof.Machine

open Sys2Proof

/-! ## Waiting for earlier requests (R86, R87) -/

/-- With no earlier request left the unit goes on. -/
theorem State.afterAll_free {s : State} {cls k : Nat} (free : s.pending s.cur.uid cls k s.nextReq = false) (o : Out) :
    s.afterAll cls k o = o := by simp [State.afterAll, free]

/-- While an earlier request is unperformed the unit waits, and nothing changes. -/
theorem State.afterAll_busy {s : State} {cls k : Nat} (busy : s.pending s.cur.uid cls k s.nextReq = true) (o : Out) :
    s.afterAll cls k o = .next s := by simp [State.afterAll, busy]

/-! ## Scope codes (R147) -/

theorem scopeOf_low {level : Nat} {c : BitVec 5} (low : level < 3) (wide : 2 ≤ c.toNat) : scopeOf level c = c.toNat + 1 :=
  if_pos ⟨low, wide⟩

theorem scopeOf_same {level : Nat} {c : BitVec 5} (h : 3 ≤ level ∨ c.toNat < 2) : scopeOf level c = c.toNat :=
  if_neg (by omega)

/-- Settles O17: the three waiting fences are `afterAll` of their classes, and FENCE.X keeps the marks that are still open beside its own. -/
theorem fencesWaitThenRetire : Obligations.FencesWaitThenRetire := by
  intro s c k
  refine ⟨scopeOf_low, scopeOf_same, fun free => ?fenceO, fun busy => ?fenceO_waits, fun free => ⟨?fenceA, ?fenceAll⟩,
    fun busy => ⟨?fenceA_waits, ?fenceAll_waits⟩, ?fenceX⟩
  case fenceO => exact State.afterAll_free free _
  case fenceO_waits => exact State.afterAll_busy busy _
  case fenceA => exact State.afterAll_free free _
  case fenceAll => exact State.afterAll_free free _
  case fenceA_waits => exact State.afterAll_busy busy _
  case fenceAll_waits => exact State.afterAll_busy busy _
  case fenceX => rfl

end Sys2Proof.Machine
end

section
/-! PROOF. Deliveries by the local port, the lanes and the pools, and loads of the L1 view (R79 to R83). -/

namespace Sys2Proof.Machine

open Sys2Proof

/-! ## Arrival at a home (R82) -/

theorem State.mem_onReq_of_req {s : State} {r : Req} (here : s.req r.id = some r) (f : Req → Req) : f r ∈ (s.onReq r.id f).reqs :=
  List.mem_map.2 ⟨r, List.mem_of_find?_eq_some here, if_pos rfl⟩

theorem State.mem_onReq_of_ne {s : State} {q : Req} {i : Nat} (h : q ∈ s.reqs) (other : q.id ≠ i) (f : Req → Req) :
    q ∈ (s.onReq i f).reqs :=
  List.mem_map.2 ⟨q, h, if_neg other⟩

/-- A request stands at its home, with its place in the order of arrival; `State.arrive` may count it as a message beside that. -/
def State.landed (s : State) (r : Req) : State :=
  { s.onReq r.id (fun q => { q with st := 1, came := s.cycle, arr := s.arrivalKey r.cls r.core }) with arrivals := s.arrivals + 1 }

/-- What an arrival leaves: the request at its home, one more arrival, every other request and memory. -/
def State.Arrived (s : State) (r : Req) (t : State) : Prop :=
  (∃ q ∈ t.reqs, q = { r with st := 1, came := s.cycle, arr := s.arrivalKey r.cls r.core }) ∧
    t.arrivals = s.arrivals + 1 ∧ (∀ q ∈ s.reqs, q.id ≠ r.id → q ∈ t.reqs) ∧ SameBytes s t

section
variable {s : State} {r : Req} (here : s.req r.id = some r)
include here

/-- Beside landing the request, an arrival adds at most one message at one core. -/
theorem State.arrive_eq : s.arrive r.id = s.landed r ∨
    ∃ n, s.arrive r.id = (s.landed r).onCore n fun c => { c with recv := c.recv + 1 } := by
  simp only [State.arrive, here]
  split
  · split
    · exact .inl rfl
    · exact .inr ⟨_, rfl⟩
  · exact .inl rfl

theorem State.landed_arrived : s.Arrived r (s.landed r) :=
  ⟨⟨_, State.mem_onReq_of_req here _, rfl⟩, rfl, fun _ h other => State.mem_onReq_of_ne h other _, fun _ => rfl⟩

theorem State.arrive_arrived : s.Arrived r (s.arrive r.id) := by
  obtain e | ⟨n, e⟩ := State.arrive_eq here
  · exact e ▸ State.landed_arrived here
  · exact e ▸ State.landed_arrived here

/-- A thread's request in a lane from another core is a message that its home receives (R52). -/
theorem State.arrive_recv {n : Nat} (home : r.home = .core n) (far : n ≠ r.core) (lane : r.cls ≠ 3) (core : r.core < ioDie)
    (thread : r.op ≠ .mig) : ((s.arrive r.id).core n).recv = (s.core n).recv + 1 := by
  have counted : ¬(n = r.core ∨ r.cls = 3 ∨ ioDie ≤ r.core ∨ r.op = .mig) := by simp [far, lane, core, thread]
  simp only [State.arrive, here, home, coreOf, if_neg counted, State.core_onCore_same]
  rfl

end

/-! ## Ports, lanes and pools (R79 to R81) -/

theorem execLocalPortPass_home {s : State} {r : Req} {c n : Nat}
    (oldest : s.reqs.find? (fun q => q.cls == 0 && q.core == c && q.st == 0) = some r) (home : r.home = .core n) (late : r.born < s.cycle) :
    exec (.localPortPass c) s = .next (s.arrive r.id) := by
  show execLocalPortPass c s = _
  simp only [execLocalPortPass, oldest, home, if_neg (Nat.not_le.2 late)]

section
variable {s : State} {r : Req} (here : s.req r.id = some r)
include here

theorem execLaneDeliver_head (head : s.laneHead r = true) (room : s.mailFull r = false) :
    exec (.laneDeliver r.id) s = .next (s.arrive r.id) := by
  show execLaneDeliver r.id s = _
  simp [execLaneDeliver, here, head, room]

theorem execPoolDeliver_any (pool : r.cls = 2 ∨ r.cls = 3) (waits : r.st = 0) :
    exec (.poolDeliver r.core r.id) s = .next (s.arrive r.id) := by
  show execPoolDeliver r.core r.id s = _
  simp [execPoolDeliver, here, pool, waits]

end

theorem State.laneHead_cls {s : State} {r : Req} (head : s.laneHead r = true) : r.cls = 1 := by
  simp only [State.laneHead, Bool.and_eq_true, beq_iff_eq] at head
  obtain ⟨⟨cls, -⟩, -⟩ := head
  exact cls

/-! ## The L1 view (R83) -/

section
variable {k : Core} {key va : Nat} {l : Nat × L1Line} (found : k.l1.find? (fun e => e.1 == key / 128) = some l)
include found

theorem Core.l1Has_of_find (same : l.2.va = va / 128) : k.l1Has key va = true := by
  have line : l.1 = key / 128 := by simpa using List.find?_some found
  exact List.any_eq_true.2 ⟨l, List.mem_of_find?_eq_some found, by simp [line, same]⟩

theorem Core.l1Bytes_of_find (n : Nat) : k.l1Bytes key n = (l.2.bytes.drop (key % 128)).take n := by
  simp only [Core.l1Bytes, found]

end

/-- The view's load sends what the view holds to its register. -/
theorem execL1ViewServe_load {s : State} {c k d : Nat} {x : Bool} {r : Req}
    (oldest : s.reqs.find? (fun q => q.core == c && q.st == 4) = some r) (op : r.op = .load k x d)
    (has : (s.core c).l1Has r.addr r.va.toNat = true) :
    exec (.l1ViewServe c) s = .next ((s.reply r d (extended k x (leNat ((s.core c).l1Bytes r.addr k)))
      (if (s.core c).l1Bad r.addr k then 0x0F else 0)).dropReq r.id) := by
  have whole : (s.begin r).op = .load k x d := by simp [State.begin, op]
  show execL1ViewServe c s = _
  simp [execL1ViewServe, oldest, has, whole]

/-- Settles O24: the local port, the lane and the pool each make their request arrive, and the view answers from its line. -/
theorem requestsReachTheirHomes : Obligations.RequestsReachTheirHomes := by
  intro s c n r arrived
  refine ⟨fun oldest home here late => ?port, fun here head room => ?lane, fun here pool core waits => ?pool,
    fun k x d l oldest op found same => ?view⟩
  case port => exact ⟨_, execLocalPortPass_home oldest home late, State.arrive_arrived here⟩
  case lane =>
    refine ⟨_, execLaneDeliver_head here head room, State.arrive_arrived here, fun home far core thread => ?_⟩
    exact State.arrive_recv here home far (by rw [State.laneHead_cls head]; decide) core thread
  case pool => exact ⟨_, core ▸ execPoolDeliver_any here pool waits, State.arrive_arrived here⟩
  case view =>
    have run := execL1ViewServe_load oldest op (Core.l1Has_of_find found same)
    rw [Core.l1Bytes_of_find found] at run
    obtain ⟨f, sent, uid, reg, val, -, -⟩ := s.reply_sends r d (extended k x (leNat ((l.2.bytes.drop (r.addr % 128)).take k)))
      (if (s.core c).l1Bad r.addr k then 0x0F else 0)
    exact ⟨_, f, run, sent, uid, reg, val, State.dropReq_req .., fun a => by simp⟩

end Sys2Proof.Machine
end

section
/-! PROOF. Rounding on a format (R95, R99): a finite pattern is a sign, an exponent field and a fraction, and the value it stands for is a
multiple of the unit that rounding keeps at its magnitude. -/

namespace Sys2Proof.Machine

open Sys2Proof

/-! ## Bit lengths -/

theorem bitLen_le {n k : Nat} (h : n < 2 ^ k) : bitLen n ≤ k := by
  unfold bitLen
  split
  · exact Nat.zero_le k
  · exact (Nat.log2_lt ‹_›).2 h

theorem bitLen_eq {n k : Nat} (low : 2 ^ k ≤ n) (high : n < 2 ^ (k + 1)) : bitLen n = k + 1 := by
  have pos : n ≠ 0 := (Nat.lt_of_lt_of_le (Nat.two_pow_pos k) low).ne'
  rw [bitLen, if_neg pos, (Nat.log2_eq_iff pos).2 ⟨low, high⟩]

/-! ## Rounding to the number's own unit -/

theorem roundAt_self (mode : Nat) (neg : Bool) (m : Nat) (e : Int) : roundAt mode neg m e e = (m, false) := by
  simp [roundAt]

/-- Where the unit of the magnitude is the number's own, rounding changes nothing and raises no flag. -/
theorem Fmt.round_of_unit {f : Fmt} (mode : Nat) (sat neg : Bool) {m mag : Nat} {e : Int} (pos : m ≠ 0)
    (unit : max (e + bitLen m - 1) (1 - f.bias) - f.fw = e)
    (hmag : mag = if e = 1 - f.bias - f.fw then m else (e + f.fw + f.bias).toNat * 2 ^ f.fw + m - 2 ^ f.fw) (fits : mag ≤ f.maxFin) :
    f.round mode sat neg m e = (f.sgn neg mag, 0) := by
  subst hmag
  simp [Fmt.round, pos, unit, roundAt_self, Nat.not_lt.2 fits]

/-! ## Finite patterns -/

/-- A format of IEEE 754: the top exponent is reserved, and the largest finite magnitude is next below infinity. -/
structure Fmt.Reserved (f : Fmt) : Prop where
  ieee : f.ieee = true
  ew : f.ew ≠ 4
  top : f.maxFin + 1 = f.infMag

/-- m × 2^e is the value of exponent field x and fraction r: subnormal, or with the hidden one. -/
def Fmt.Holds (f : Fmt) (x r m : Nat) (e : Int) : Prop :=
  (x = 0 ∧ m = r ∧ e = 1 - (f.bias : Int) - f.fw) ∨ (0 < x ∧ m = 2 ^ f.fw + r ∧ e = (x : Int) - f.bias - f.fw)

theorem Fmt.sgn_fields (f : Fmt) {bits : Nat} (h : bits < 2 ^ f.width) :
    f.sgn (bits / 2 ^ (f.ew + f.fw) % 2 == 1) (bits / 2 ^ f.fw % 2 ^ f.ew * 2 ^ f.fw + bits % 2 ^ f.fw) = bits := by
  have fields : bits % 2 ^ (f.ew + f.fw) = bits / 2 ^ f.fw % 2 ^ f.ew * 2 ^ f.fw + bits % 2 ^ f.fw := by
    rw [Nat.add_comm f.ew, Nat.pow_add, Nat.mod_mul, Nat.mul_comm (2 ^ f.fw), Nat.add_comm]
  have sign : bits / 2 ^ (f.ew + f.fw) < 2 := by
    have width : f.width = f.ew + f.fw + 1 := by simp only [Fmt.width]; omega
    rw [width, Nat.pow_succ'] at h
    exact (Nat.div_lt_iff_lt_mul (Nat.two_pow_pos _)).2 h
  have whole := Nat.div_add_mod bits (2 ^ (f.ew + f.fw))
  rw [← fields, Fmt.sgn, Nat.mod_eq_of_lt sign]
  obtain zero | one := Nat.le_one_iff_eq_zero_or_eq_one.1 (Nat.le_of_lt_succ sign)
  · simpa [zero] using whole
  · simpa [one] using whole

theorem Fmt.Reserved.decode_fin {f : Fmt} (hf : f.Reserved) {bits m : Nat} {neg : Bool} {e : Int} (lt : bits < 2 ^ f.width)
    (h : f.decode bits = .fin neg m e) :
    ∃ x r, bits = f.sgn neg (x * 2 ^ f.fw + r) ∧ x < 2 ^ f.ew - 1 ∧ r < 2 ^ f.fw ∧ f.Holds x r m e := by
  have below : bits / 2 ^ f.fw % 2 ^ f.ew < 2 ^ f.ew := Nat.mod_lt _ (Nat.two_pow_pos _)
  have parts := f.sgn_fields lt
  refine ⟨bits / 2 ^ f.fw % 2 ^ f.ew, bits % 2 ^ f.fw, ?_⟩
  have frac : bits % 2 ^ f.fw < 2 ^ f.fw := Nat.mod_lt _ (Nat.two_pow_pos _)
  simp only [Fmt.decode, hf.ieee, Bool.true_and, beq_iff_eq, hf.ew, Bool.and_eq_true, false_and, if_false] at h
  split at h
  · split at h <;> cases h
  rename_i top
  split at h
  case isTrue zero =>
    obtain ⟨rfl, rfl, rfl⟩ := FVal.fin.inj h
    exact ⟨parts.symm, by omega, frac, .inl ⟨zero, rfl, rfl⟩⟩
  case isFalse pos =>
    obtain ⟨rfl, rfl, rfl⟩ := FVal.fin.inj h
    exact ⟨parts.symm, by omega, frac, .inr ⟨Nat.pos_of_ne_zero pos, rfl, rfl⟩⟩

theorem Fmt.Reserved.fits {f : Fmt} (hf : f.Reserved) {x r : Nat} (hx : x < 2 ^ f.ew - 1) (hr : r < 2 ^ f.fw) :
    x * 2 ^ f.fw + r ≤ f.maxFin := by
  have room : (x + 1) * 2 ^ f.fw ≤ f.infMag := Nat.mul_le_mul_right _ hx
  have top := hf.top
  rw [Nat.succ_mul] at room
  omega

/-- Subnormal magnitudes and those with the hidden one are both multiples of their own unit. -/
theorem Fmt.Reserved.round_holds {f : Fmt} (hf : f.Reserved) (mode : Nat) (neg : Bool) {x r m : Nat} {e : Int} (hx : x < 2 ^ f.ew - 1)
    (hr : r < 2 ^ f.fw) (held : f.Holds x r m e) : f.round mode false neg m e = (f.sgn neg (x * 2 ^ f.fw + r), 0) := by
  have fits := hf.fits hx hr
  obtain ⟨rfl, rfl, rfl⟩ | ⟨pos, rfl, rfl⟩ := held
  · by_cases zero : m = 0
    · simp [zero, Fmt.round]
    · have len := bitLen_le hr
      exact Fmt.round_of_unit mode false neg zero (by omega) (by simp) fits
  · have len : bitLen (2 ^ f.fw + r) = f.fw + 1 := bitLen_eq (Nat.le_add_right ..) (by omega)
    refine Fmt.round_of_unit mode false neg (by omega) (by omega) ?_ fits
    obtain one | more : x = 1 ∨ 1 < x := by omega
    · simp [one]
    · rw [if_neg (by omega), show ((x : Int) - f.bias - f.fw + f.fw + f.bias).toNat = x by omega]
      omega

theorem f32_reserved : f32.Reserved := ⟨rfl, by decide, by decide⟩
theorem f16_reserved : f16.Reserved := ⟨rfl, by decide, by decide⟩
theorem bf16_reserved : bf16.Reserved := ⟨rfl, by decide, by decide⟩

/-- Settles O9: a finite pattern of a format that reserves its top exponent is read as fields, and rounding gives those fields back. -/
theorem roundingIsExactOnTheFormat : Obligations.RoundingIsExactOnTheFormat := by
  intro f hf mode bits neg m e lt value
  have reserved : f.Reserved := by
    simp only [List.mem_cons, List.not_mem_nil, or_false] at hf
    obtain rfl | rfl | rfl := hf
    · exact f32_reserved
    · exact f16_reserved
    · exact bf16_reserved
  obtain ⟨x, r, rfl, hx, hr, held⟩ := reserved.decode_fin lt value
  exact reserved.round_holds mode neg hx hr held

end Sys2Proof.Machine
end

section
/-! PROOF. The tile's step and the gang operation (R104 to R106, R244 to R248): the elements one operation writes, what it leaves of its
core and of memory, the requests of a store, and the four engines that begin together. -/

namespace Sys2Proof.Machine

open Sys2Proof

/-! ## Elements of a tile (R106) -/

theorem tileKey_elem (n t p : Nat) : tileKey n t (p / 16) + 4 * (p % 16) = tileKey n t 0 + 4 * p := by
  simp only [tileKey, winKey]
  omega

theorem memNat_congr {m m' : List (Nat × Byte)} {a n : Nat} (same : ∀ i < n, memGet m' (a + i) = memGet m (a + i)) :
    memNat m' a n = memNat m a n := by
  rw [← leNat_memBytes, ← leNat_memBytes, memBytes_eq, memBytes_eq]
  exact congrArg leNat (List.map_congr_left fun i hi => same i (List.mem_range.1 hi))

theorem State.acc_eq (s : State) (n t p : Nat) : s.acc n t p = memNat s.mem (tileKey n t 0 + 4 * p) 4 := by
  rw [State.acc, tileKey_elem]

theorem State.setAcc_out {s : State} (ok : MemOk s) (n t p v : Nat) : SameBytesBut s (s.setAcc n t p v) (tileKey n t 0 + 4 * p) 4 := by
  have out := sameBytesBut_memPut ok (s.setAcc_mem n t p v)
  rwa [leBytes_length, tileKey_elem] at out

theorem State.acc_setAcc_same {s : State} (ok : MemOk s) (n t p v : Nat) : (s.setAcc n t p v).acc n t p = v % 2 ^ 32 := by
  rw [State.acc, State.setAcc_mem, memNat_memPut_leBytes ok, show 256 ^ 4 = 2 ^ 32 by norm_num]

theorem State.acc_setAcc_ne {s : State} (ok : MemOk s) (n t v : Nat) {p i : Nat} (ne : i ≠ p) :
    (s.setAcc n t p v).acc n t i = s.acc n t i := by
  rw [State.acc_eq, State.acc_eq]
  exact memNat_congr fun j hj => State.setAcc_out ok n t p v _ (by omega)

/-! ## Writing a tile element by element (R248) -/

/-- The element p after a rule that gives, for each element that is on, its new value from its old one. -/
def accAfter (g : Nat → Option (Nat → Nat)) (p a : Nat) : Nat :=
  match g p with
  | some f => f a % 2 ^ 32
  | none => a

/-- One element follows the rule. -/
def State.elementStep (n t : Nat) (g : Nat → Option (Nat → Nat)) (s : State) (p : Nat) : State :=
  match g p with
  | some f => s.setAcc n t p (f (s.acc n t p))
  | none => s

/-- The first k elements of tile t of core n have gone by the rule, and nothing else of the core, the requests or memory has changed. -/
structure State.Written (s u : State) (n t : Nat) (g : Nat → Option (Nat → Nat)) (k : Nat) : Prop where
  core : u.core n = s.core n
  reqs : u.reqs = s.reqs
  ok : MemOk u
  acc : ∀ p, u.acc n t p = if p < k then accAfter g p (s.acc n t p) else s.acc n t p
  out : SameBytesBut s u (tileKey n t 0) (4 * k)

theorem State.Written.step {s u : State} {n t k : Nat} {g : Nat → Option (Nat → Nat)} (h : s.Written u n t g k) :
    s.Written (u.elementStep n t g k) n t g (k + 1) := by
  have at_k : u.acc n t k = s.acc n t k := by rw [h.acc, if_neg (Nat.lt_irrefl k)]
  unfold State.elementStep
  split
  case h_1 f on =>
    refine ⟨h.core, h.reqs, memWf_memPut _ _ h.ok, fun p => ?_, fun a ha => ?_⟩
    · obtain rfl | ne := eq_or_ne p k
      · rw [State.acc_setAcc_same h.ok, if_pos (Nat.lt_succ_self p), at_k, accAfter, on]
      · rw [State.acc_setAcc_ne h.ok _ _ _ ne, h.acc]
        simp only [show p < k + 1 ↔ p < k by omega]
    · rw [State.setAcc_out h.ok n t k _ a (by omega), h.out a (by omega)]
  case h_2 off =>
    refine ⟨h.core, h.reqs, h.ok, fun p => ?_, fun a ha => h.out a (by omega)⟩
    obtain rfl | ne := eq_or_ne p k
    · rw [at_k, if_pos (Nat.lt_succ_self p), accAfter, off]
    · rw [h.acc]
      simp only [show p < k + 1 ↔ p < k by omega]

theorem State.written_foldl {s : State} (ok : MemOk s) (n t : Nat) (g : Nat → Option (Nat → Nat)) (k : Nat) :
    s.Written ((List.range k).foldl (State.elementStep n t g) s) n t g k := by
  induction k with
  | zero => exact ⟨rfl, rfl, ok, fun p => by simp, fun a _ => rfl⟩
  | succ k ih => simpa [List.range_succ] using ih.step

/-- Any fold whose steps follow the rule writes the elements it runs over. -/
theorem State.written_of_step {s : State} (ok : MemOk s) {n t : Nat} {g : Nat → Option (Nat → Nat)} {f : State → Nat → State}
    (step : ∀ u p, f u p = State.elementStep n t g u p) (k : Nat) : s.Written ((List.range k).foldl f s) n t g k := by
  rw [funext₂ step]
  exact State.written_foldl ok n t g k

theorem State.Written.regenerate {s u : State} {n t k : Nat} {g : Nat → Option (Nat → Nat)} (h : s.Written u n t g k) (on : Nat → Bool) :
    s.Written (u.regenerate n t on) n t g k := ⟨h.core, h.reqs, h.ok, h.acc, h.out⟩

/-! ## The rules of ACCZ, ACCLD and the products -/

/-- ACCZ zeroes the elements that are on (R246). -/
def zeroRule (on : List Bool) (p : Nat) : Option (Nat → Nat) := if on.getD p false then some fun _ => 0 else none
/-- ACCLD replaces the elements that it read (R247). -/
def loadRule (v : List (Option Nat)) (p : Nat) : Option (Nat → Nat) := (v.getD p none).map fun x _ => x
/-- Mode 0 adds a product to each element that has one, modulo 2^32 or with one rounding (R104, R105). -/
def addRule (int : Bool) (l : List (Option Nat)) (p : Nat) : Option (Nat → Nat) :=
  (l.getD p none).map fun x a => if int then (a + x) % 2 ^ 32 else (f32.add 0 (f32.decode a) (f32.decode x)).1

theorem accAfter_zeroRule (on : List Bool) (p a : Nat) : accAfter (zeroRule on) p a = if on.getD p false then 0 else a := by
  unfold accAfter zeroRule
  cases on.getD p false <;> rfl

theorem accAfter_loadRule (v : List (Option Nat)) (p a : Nat) :
    accAfter (loadRule v) p a = (match v.getD p none with | some x => x % 2 ^ 32 | none => a) := by
  unfold accAfter loadRule
  cases v.getD p none <;> rfl

theorem accAfter_addRule (int : Bool) (l : List (Option Nat)) (p a : Nat) : accAfter (addRule int l) p a =
    (match l.getD p none with
      | some v => if int then (a + v) % 2 ^ 32 else (f32.add 0 (f32.decode a) (f32.decode v)).1 % 2 ^ 32
      | none => a) := by
  unfold accAfter addRule
  cases l.getD p none with
  | none => rfl
  | some v => cases int <;> simp

/-! ## Periods (R106) -/

theorem State.closePeriod_of_closed {s : State} {n t : Nat} (closed : ((s.core n).tile t).count = 0) : s.closePeriod n t = s := if_pos closed

theorem State.clearPeriod_core (s : State) (n t : Nat) :
    (s.clearPeriod n t).core n = (s.core n).setTile t { Tile.fresh with ty := ((s.core n).tile t).ty } := State.core_onCore_same ..

theorem State.clearPeriod_count (s : State) (n t : Nat) : (((s.clearPeriod n t).core n).tile t).count = 0 := by
  rw [State.clearPeriod_core, Core.tile, Core.setTile, tabGet_tabSet_same]
  rfl

/-! ## The step of one operation (R248) -/

section
variable (s : State) {n : Nat} {m : MatOp}

theorem State.tileStep_zero (ok : MemOk s) {on : List Bool} (op : m.op = .zero on) :
    (s.clearPeriod n m.tile).Written (s.tileStep n m) n m.tile (zeroRule on) 256 := by
  simp only [State.tileStep, op]
  refine (State.written_of_step (s := s.clearPeriod n m.tile) ok (fun u p => ?_) 256).regenerate _
  unfold State.elementStep zeroRule
  cases on.getD p false <;> rfl

theorem State.tileStep_load (ok : MemOk s) {v : List (Option Nat)} (op : m.op = .load v) :
    (s.clearPeriod n m.tile).Written (s.tileStep n m) n m.tile (loadRule v) 256 := by
  simp only [State.tileStep, op]
  refine (State.written_of_step (s := s.clearPeriod n m.tile) ok (fun u p => ?_) 256).regenerate _
  unfold State.elementStep loadRule
  cases v.getD p none <;> rfl

theorem State.tileStep_add (ok : MemOk s) {int : Bool} {l : List (Option Nat)} {x y : List Nat} (op : m.op = .mac 0 int l x y)
    (closed : ((s.core n).tile m.tile).count = 0) : s.Written (s.tileStep n m) n m.tile (addRule int l) 256 := by
  simp only [State.tileStep, op, State.closePeriod_of_closed closed, ite_self, if_true]
  refine State.written_of_step ok (fun u p => ?_) 256
  unfold State.elementStep addRule
  cases l.getD p none <;> rfl

end

/-! ## The requests of a store (R247) -/

/-- A request of core n stores the bytes of an element at a key of its own scratchpad. -/
def Req.StoresElem (r : Req) (n key : Nat) (b : List Byte) : Prop :=
  r.home = .core n ∧ r.addr = key ∧ r.cls = 0 ∧ ∃ whole, r.op = .elem b whole

/-- A fold that sends one request for every element that is on. -/
theorem foldl_sends {f : State → Nat → State} {els : List (Option Nat)} {P : Nat → Nat → Req → Prop} {s : State}
    (on : ∀ l p o, els.getD p none = some o → ∃ r, f { s with reqs := l } p = { s with reqs := l ++ [r] } ∧ P p o r)
    (off : ∀ l p, els.getD p none = none → f { s with reqs := l } p = { s with reqs := l }) (k : Nat) :
    ∃ rs, (List.range k).foldl f s = { s with reqs := s.reqs ++ rs } ∧ ∀ p < k, ∀ o, els.getD p none = some o → ∃ r ∈ rs, P p o r := by
  induction k with
  | zero => exact ⟨[], by simp, by simp⟩
  | succ k ih =>
    obtain ⟨rs, run, sent⟩ := ih
    simp only [List.range_succ, List.foldl_append, List.foldl_cons, List.foldl_nil, run]
    cases elem : els.getD k none with
    | none =>
      refine ⟨rs, off _ k elem, fun p hp o ho => sent p (Nat.lt_of_le_of_ne (Nat.le_of_lt_succ hp) fun e => ?_) o ho⟩
      rw [e, elem] at ho
      cases ho
    | some key =>
      obtain ⟨r, step, here⟩ := on (s.reqs ++ rs) k key elem
      refine ⟨rs ++ [r], by rw [step, List.append_assoc], fun p hp o ho => ?_⟩
      obtain rfl | lt := Nat.eq_or_lt_of_le (Nat.le_of_lt_succ hp)
      · obtain rfl := Option.some.inj (elem.symm.trans ho)
        exact ⟨r, by simp, here⟩
      · obtain ⟨q, mem, good⟩ := sent p lt o ho
        exact ⟨q, List.mem_append_left _ mem, good⟩

theorem State.tileStep_store (s : State) {n : Nat} {m : MatOp} {els : List (Option Nat)} {ty fmt rm : Nat} {sat : Bool}
    (op : m.op = .store els ty fmt rm sat) (closed : ((s.core n).tile m.tile).count = 0) :
    ∃ rs, s.tileStep n m = { s with reqs := s.reqs ++ rs } ∧ ∀ p < 256, ∀ o, els.getD p none = some o → ∃ r ∈ rs,
      r.StoresElem n o (leBytes (elemBytes fmt) (cvtElem ty fmt rm sat false (s.acc n m.tile p)).1) := by
  simp only [State.tileStep, op, State.closePeriod_of_closed closed]
  refine foldl_sends (fun l p o elem => ?_) (fun l p elem => ?_) 256
  · simp only [elem]
    exact ⟨_, rfl, rfl, rfl, rfl, _, rfl⟩
  · simp only [elem]

/-! ## TILE_WRITE (R248) -/

/-- The operations left in the engine of core c. -/
def State.withMat (s : State) (c : Nat) (l : List MatOp) : State := s.onCore c fun k => { k with mat := l }

theorem State.withMat_core (s : State) (c : Nat) (l : List MatOp) : (s.withMat c l).core c = { s.core c with mat := l } := State.core_onCore_same ..

theorem State.withMat_tile (s : State) (c t : Nat) (l : List MatOp) : ((s.withMat c l).core c).tile t = (s.core c).tile t := by
  rw [State.withMat_core]
  rfl

theorem State.withMat_clearPeriod_mat (s : State) (c t : Nat) (l : List MatOp) : (((s.withMat c l).clearPeriod c t).core c).mat = l := by
  rw [State.clearPeriod_core, State.withMat_core]
  rfl

theorem execTileWrite_acts {s : State} {c : Nat} {m : MatOp} {l : List MatOp} (oldest : (s.core c).mat = m :: l) (began : m.gang = none)
    (quiet : s.tileAmid c m.tile = false) : exec (.tileWrite c) s = .next ((s.withMat c l).tileStep c m) := by
  show execTileWrite c s = _
  simp [execTileWrite, oldest, began, quiet, State.withMat]

/-- The frame of R248: the rest of the engine's list, every request, and every byte outside the tile. -/
theorem State.Written.frame {s v t : State} {c tile : Nat} {g : Nat → Option (Nat → Nat)} {l : List MatOp} (h : v.Written t c tile g 256)
    (mat : (v.core c).mat = l) (reqs : v.reqs = s.reqs) (mem : v.mem = s.mem) :
    (t.core c).mat = l ∧ t.reqs = s.reqs ∧
      ∀ q, q < tileKey c tile 0 ∨ tileKey c tile 0 + 1024 ≤ q → memGet t.mem q = memGet s.mem q := by
  refine ⟨?_, h.reqs.trans reqs, fun q out => ?_⟩
  · rw [h.core, mat]
  · rw [h.out q out, mem]

/-! ## GANG_OPERATION (R244, R245) -/

/-- All four GMMA of number no stand un-begun on the cores of gang q, agree, and go with the lead's A. -/
structure State.GangAgrees (s : State) (q no : Nat) (x : Nat → MatOp) : Prop where
  numbers : ∀ e ∈ tabGet [] s.gangs q, e.no = no
  four : (tabGet [] s.gangs q).length = 4
  waits : ∀ i < 4, (s.core (4 * q + i)).gangOp no = some (x i)
  accord : ∀ i < 4, (x i).accord = (x 0).accord
  pairs : ∀ i < 4, (s.core (4 * q + i)).gangPair (some (x 0)) (x i) = true

/-- The wired barrier's entries are taken, and each of the four engines begins with the lead's A. -/
def State.gangBegun (s : State) (q : Nat) (x : Nat → MatOp) : State :=
  (List.range 4).foldl (fun u i => u.onCore (4 * q + i) fun c => c.gangBegin (some (x 0)) (x i)) { s with gangs := tabSet s.gangs q [] }

section
variable {s : State} {q no : Nat} {x : Nat → MatOp} (h : s.GangAgrees q no x)
include h

theorem State.GangAgrees.entries_eq : (tabGet [] s.gangs q).filter (·.no == no) = tabGet [] s.gangs q :=
  List.filter_eq_self.2 fun e he => beq_iff_eq.2 (h.numbers e he)

theorem State.GangAgrees.entries_rest : (tabGet [] s.gangs q).filter (·.no != no) = [] :=
  List.filter_eq_nil_iff.2 fun e he => by simp [h.numbers e he]

theorem State.GangAgrees.not_short : s.gangShort q no = false := by
  rw [State.gangShort, h.entries_eq, h.four]
  rfl

theorem State.GangAgrees.complete :
    ((tabGet [] s.gangs q).filter fun e => !s.gangShort q e.no).map (·.no) = [no, no, no, no] := by
  have all : (tabGet [] s.gangs q).filter (fun e => !s.gangShort q e.no) = tabGet [] s.gangs q :=
    List.filter_eq_self.2 fun e he => by rw [h.numbers e he, h.not_short]; rfl
  rw [all]
  show _ = List.replicate 4 no
  refine List.eq_replicate_iff.2 ⟨(List.length_map _).trans h.four, fun n hn => ?_⟩
  obtain ⟨e, he, rfl⟩ := List.mem_map.1 hn
  exact h.numbers e he

theorem State.GangAgrees.live : (List.range 4).filterMap (fun i => ((s.core (4 * q + i)).gangOp no).map fun m => (4 * q + i, m)) =
    (List.range 4).map fun i => (4 * q + i, x i) := by
  rw [← List.filterMap_eq_map]
  exact List.filterMap_congr fun i hi => by simp [h.waits i (List.mem_range.1 hi)]

theorem State.GangAgrees.all_agree :
    ((List.range 4).map fun i => (4 * q + i, x i)).tail.all (fun r => r.2.accord == (x 0).accord) = true := by
  refine List.all_eq_true.2 fun r hr => ?_
  obtain ⟨i, hi, rfl⟩ := List.mem_map.1 (List.mem_of_mem_tail hr)
  simp [h.accord i (List.mem_range.1 hi)]

theorem State.GangAgrees.none_poor : ((List.range 4).map fun i => (4 * q + i, x i)).filter
    (fun p => !(s.core p.1).gangPair (some (x 0)) p.2) = [] := by
  refine List.filter_eq_nil_iff.2 fun p hp => ?_
  obtain ⟨i, hi, rfl⟩ := List.mem_map.1 hp
  simp [h.pairs i (List.mem_range.1 hi)]

theorem execGangOperation_begins : exec (.gangOperation q) s = .next (s.gangBegun q x) := by
  show execGangOperation q s = _
  unfold execGangOperation
  extract_lets l
  split
  case h_1 none => simp [l, h.complete] at none
  case h_2 n t first =>
    obtain ⟨rfl, rfl⟩ : n = no ∧ t = [no, no, no] := by simpa [l, h.complete, eq_comm] using first
    extract_lets least es u live lead drop agree poor
    have least_eq : least = n := by simp [least]
    have u_eq : u = { s with gangs := tabSet s.gangs q [] } := by
      simp only [u, l, least_eq, h.entries_rest]
    have lead_eq : lead = some (x 0) := by
      simp only [lead, least_eq]
      exact h.waits 0 (by omega)
    have live_eq : live = (List.range 4).map fun i => (4 * q + i, x i) := by
      simp only [live, least_eq]
      exact h.live
    have agree_eq : agree = true := by
      simp only [agree, live_eq]
      exact h.all_agree
    have poor_eq : poor = [] := by
      simp only [poor, live_eq, lead_eq]
      exact h.none_poor
    rw [agree_eq, poor_eq, live_eq, lead_eq, List.foldl_map, u_eq]
    rfl

end

/-- A fold that changes core a + i by the i-th function. -/
theorem State.core_foldl_onCore (s : State) (a : Nat) (f : Nat → Core → Core) (k j : Nat) :
    ((List.range k).foldl (fun u i => u.onCore (a + i) (f i)) s).core (a + j) = if j < k then f j (s.core (a + j)) else s.core (a + j) := by
  induction k with
  | zero => simp
  | succ k ih =>
    simp only [List.range_succ, List.foldl_append, List.foldl_cons, List.foldl_nil]
    obtain rfl | ne := eq_or_ne j k
    · rw [State.core_onCore_same, ih, if_neg (Nat.lt_irrefl j), if_pos (Nat.lt_succ_self j)]
    · rw [State.core_onCore_ne _ _ (by omega), ih]
      simp only [show j < k + 1 ↔ j < k by omega]

theorem State.gangBegun_core (s : State) (q : Nat) (x : Nat → MatOp) {i : Nat} (hi : i < 4) :
    (s.gangBegun q x).core (4 * q + i) = (s.core (4 * q + i)).gangBegin (some (x 0)) (x i) := by
  rw [State.gangBegun, State.core_foldl_onCore, if_pos hi]
  rfl

theorem State.gangBegun_gangs (s : State) (q : Nat) (x : Nat → MatOp) : tabGet [] (s.gangBegun q x).gangs q = [] := tabGet_tabSet_same ..

/-- A GMMA that begins stands in its place in the engine's list, as a product of the lead's A and the own B. -/
theorem Core.gangBegin_mem {c : Core} {lead m : MatOp} (here : m ∈ c.mat) {k k₀ : Word} {md md₀ f f₀ o o₀ : Nat}
    {r r₀ : List (Option (List Nat))} {z z₀ : List Nat} (op : m.op = .gang k md f r z o) (op₀ : lead.op = .gang k₀ md₀ f₀ r₀ z₀ o₀) :
    ∃ y ∈ (c.gangBegin (some lead) m).mat, y.id = m.id ∧ y.gang = none ∧ y.tile = m.tile ∧
      y.op = macOf md f₀ r₀ z₀ k (c.slot o) z := by
  refine ⟨{ m with gang := none, op := macOf md f₀ r₀ z₀ k (c.slot o) z }, ?_, rfl, rfl, rfl, rfl⟩
  simp only [Core.gangBegin, op, op₀]
  exact List.mem_map.2 ⟨m, here, if_pos rfl⟩

/-- Settles O47: each of the four operations acts as its rule says, and the four engines of an agreeing gang begin together. -/
theorem tileWriteResult : Obligations.TileWriteResult := by
  refine ⟨fun s c m l ok oldest began quiet => ?tile, fun s q no x k md f r z o numbers four each => ?gang⟩
  case tile =>
    have acts := execTileWrite_acts oldest began quiet
    refine ⟨fun v op => ?zero, fun v op => ?load, fun int p x y op closed => ?add, fun els ty fmt rm sat op closed => ?store⟩
    case zero =>
      have w := (s.withMat c l).tileStep_zero (n := c) ok op
      refine ⟨_, acts, w.frame (s.withMat_clearPeriod_mat ..) rfl rfl, ?_, fun p hp => ?_⟩
      · rw [w.core, State.clearPeriod_count]
      · rw [w.acc, if_pos hp, accAfter_zeroRule]
        rfl
    case load =>
      have w := (s.withMat c l).tileStep_load (n := c) ok op
      refine ⟨_, acts, w.frame (s.withMat_clearPeriod_mat ..) rfl rfl, ?_, fun p hp => ?_⟩
      · rw [w.core, State.clearPeriod_count]
      · rw [w.acc, if_pos hp, accAfter_loadRule]
        rfl
    case add =>
      have w := (s.withMat c l).tileStep_add (n := c) ok op (by rw [State.withMat_tile, closed])
      refine ⟨_, acts, w.frame (by rw [State.withMat_core]) rfl rfl, fun i hi => ?_⟩
      rw [w.acc, if_pos hi, accAfter_addRule]
      rfl
    case store =>
      obtain ⟨rs, run, sent⟩ := (s.withMat c l).tileStep_store (n := c) op (by rw [State.withMat_tile, closed])
      rw [run] at acts
      exact ⟨_, rs, acts, rfl, fun a => rfl, congrArg Core.mat (s.withMat_core c l), sent⟩
  case gang =>
    have agrees : s.GangAgrees q no x :=
      { numbers, four
        waits := fun i hi => let ⟨waits, _⟩ := each i hi; waits
        accord := fun i hi => let ⟨_, _, accord, _⟩ := each i hi; accord
        pairs := fun i hi => let ⟨_, _, _, pairs⟩ := each i hi; pairs }
    refine ⟨_, execGangOperation_begins agrees, s.gangBegun_gangs q x, fun a => rfl, fun i hi => ?_⟩
    obtain ⟨waits, op, -, -⟩ := each i hi
    obtain ⟨-, op₀, -, -⟩ := each 0 (by omega)
    rw [s.gangBegun_core q x hi]
    exact Core.gangBegin_mem (List.mem_of_find?_eq_some waits) op op₀

end Sys2Proof.Machine
end

section
/-! PROOF. Encodings (R129 to R135, R147). Every instruction's law of Laws/PerInstr.lean together; the length that the first parcel of a
word gives, read off from the decoder, which refuses a word of another length; and the window of bytes a unit is decoded from. -/

namespace Sys2Proof.Laws.Coding

open Sys2Proof

/-! ## Every instruction -/

/-- The laws of the instructions in the order of the constructors: decoding undoes encoding. -/
theorem decodeEnc_encode (i : Instr) : Statement i :=
  Instr.casesOn (motive := Statement) i
    lb lh lw ld lbu lhu lwu sb sh sw sd add sub sll slt sltu xor srl sra or and andn orn min minu max maxu sh1add sh2add sh3add
    mul mulh mulhu div divu rem remu addi slti sltiu xori ori andi slli srli srai clz ctz cpop addw subw addiw slliw srliw sraiw
    lui auipc beq bne blt bge bltu bgeu jal jalr cAddi4spn cLw cLd cSw cSd cNop cAddi cAddiw cLi cAddi16sp cLui cSrli cSrai cAndi
    cSub cXor cOr cAnd cSubw cAddw cJ cBeqz cBnez cSlli cLwsp cLdsp cSwsp cSdsp cJr cJalr cMv cAdd cEbreak faddS fsubS fmulS
    fdivS fsqrtS fmaddS fsgnjS fsgnjnS fminS fmaxS fleS fltS feqS fcvtWS fcvtLS fcvtSW fcvtSL li32 lih addl andl fli gcmpEq
    gcmpNe gcmpLt gcmpGe gcmpLtu gcmpGeu gand gor gxor gandn gtox gfromx ecall ebreak wfi csrrw csrrs csrrc csrrwi csrrsi csrrci
    undefinedUnit tret fcreate fsync fbreak fkill lsend tself thalt bjoin bleave barw bara bwait ldc ldp stf sete fest mbsend
    mbrecv mbpoll qmap qunmap qctl qstat hset hret hmask wfe evsig fenceO fenceA fenceX fenceAll ldaq strl ldmig cinv pref aadd
    aand aor axor asmin asmax aumin aumax aswap acas afadd afaddb lrln scln cqpush cqpushn cqstat gpost gstat mbind mclass mrow
    mcnt amuServe pload psave pstat vadd vsub vmul vfma vfms vmin vmax vabs vneg viadd visub vimul vand vor vxor vshl vshrl vshra
    vimin vimax vcmpFeq vcmpFne vcmpFlt vcmpFle vcmpIeq vcmpIne vcmpIlt vcmpIle vsel kand kor kxor kandn kfromx ktox kpop kfirst
    vld vst vstb vlds vsts vgath vscat vbcx vmvx vmxv vcvt vpack vunpack vrsum vrmax vperm vslide vbcast vscan vscanL1 vscanc
    vexp2 vlog2 vrcp vrsq vsqrt vtanh sfuService sfuResultWrite repv tcfg mma gmma wld wlds accz accld accst gangOperation
    tileWrite memberStart inlineMemberTake familyFinish registerFill migrationInstall queueWordTransfer lightHandlerEntry
    mailboxDelivery eventSignalArrival localPortPass laneDeliver poolDeliver homePerform l1ViewServe engineRead copy
    copyAccumulate fill multicastRead multicastCatchUp stridedCopy packagePut packageGet completionFeFill completionMailbox
    completionHandlerTrigger completionRegisterFill gather scatter scatterAdd iceChunkBegin iceEventSignal grout bellowsLatch
    bellowsUpdate translationWalk teamCostart quiescenceWave stopArrival nop debug signal time qlist qorder yield pluginTime
    pluginTimeout cctlWrite flatchClear doorbell launchRecordCheck launchReady teamDispatch blockSteal preemptionRequest
    saveImageWrite teamDiscard teamResume launchCompletion svalWrite hfverNegotiate krel imgrWrite partCreate partDestroy
    partScrubComplete vbindWrite tinvPage tinvVf tinvComplete fresReplay fresFail registerWrite snapArm snapHostFire
    snapCounterTrigger snapPinTrigger powerControlTick patrolScrub boot getVersion getMeasurements keySlotInstall keySlotRevoke
    lintelPacketReceive hello remoteTransferRequest retransmitTimeout ackTimeout cheadWrite holdingScrubComplete revokeComplete
    pluginFault getCertificate challenge keyExchange

/-! ## The length a word gives (R129) -/

/-- The major opcodes of the 32-bit formats (R138). -/
def opcodes : List (BitVec 7) :=
  [0x03#7, 0x0B#7, 0x13#7, 0x17#7, 0x1B#7, 0x23#7, 0x2B#7, 0x33#7, 0x37#7, 0x3B#7, 0x43#7, 0x53#7, 0x5B#7, 0x63#7, 0x67#7, 0x6F#7,
    0x73#7, 0x7B#7]

/-- The decoder knows no other major opcode. -/
theorem opcode_of_decode32 {lvl : Nat} {v : BitVec 32} {i : Instr} (h : decode32 lvl v = .ok i) : v.extractLsb' 0 7 ∈ opcodes := by
  by_contra other
  simp only [opcodes, List.mem_cons, List.not_mem_nil, or_false, not_or] at other
  simp [decode32, other, undef] at h

/-- A 16-bit instruction lies in quadrant 0, 1 or 2, and is no guard prefix. -/
theorem quadrant_of_decode16 {v : BitVec 16} {i : Instr} (h : decode16 v = .ok i) :
    v.extractLsb' 0 2 ≠ 3#2 ∧ (v.extractLsb' 0 2 = 0#2 → v.extractLsb' 13 3 ≠ 4#3) := by
  refine ⟨fun long => ?_, fun zero guard => ?_⟩
  · simp [decode16, long, undef] at h
  · simp [decode16, decodeC0, zero, guard, undef] at h

/-- What a check lets through is the instruction it checks. -/
theorem eq_of_rsv_ok {broken : Bool} {k i : Instr} (h : rsv broken k = .ok i) : k = i := by
  cases broken with
  | false => exact Except.ok.inj h
  | true => cases h

/-- What a long word decodes to is one of the five long forms. -/
theorem encode_of_decode48 {lvl : Nat} {v : BitVec 48} {i : Instr} (h : decode48 lvl v = .ok i) :
    ∃ f d x, encode i = .w48 (encL f d x) := by
  simp only [decode48, undef] at h
  split at h
  · cases h
  iterate 5
    split at h
    · cases eq_of_rsv_ok h
      exact ⟨_, _, _, rfl⟩
  cases h

theorem encL_0_7 (f : BitVec 4) (d : XReg) (x : BitVec 32) : (encL f d x).extractLsb' 0 7 = 0x1F#7 := by
  simp [encL, catLo]

/-- The low two bits and the three above them are fields of the major opcode. -/
theorem parcelLength_eq {p : BitVec 16} {op : BitVec 7} (h : p.extractLsb' 0 7 = op) :
    parcelLength p = if op.extractLsb' 0 2 ≠ 3#2 then (2, true) else if op.extractLsb' 2 3 ≠ 7#3 then (4, true)
      else if op = 0x1F#7 then (6, true) else if op = 0x5F#7 then (6, false) else (8, false) := by
  subst h
  simp [parcelLength, sub_field]

theorem parcelLength_of_opcode {p : BitVec 16} (h : p.extractLsb' 0 7 ∈ opcodes) : parcelLength p = (4, true) := by
  have low : ∀ op ∈ opcodes, op.extractLsb' 0 2 = 3#2 ∧ op.extractLsb' 2 3 ≠ 7#3 := by decide
  obtain ⟨long, plain⟩ := low _ h
  rw [parcelLength_eq rfl, if_neg (not_not.2 long), if_pos plain]

/-- A guard prefix is a parcel of quadrant 0, so the first parcel of a longer word is none. -/
theorem isPrefix_of_long (lvl : Nat) {p : BitVec 16} (h : (parcelLength p).1 ≠ 2) : isPrefix lvl p = false := by
  have long : p.extractLsb' 0 2 = 3#2 := by
    by_contra short
    exact h (by simp [parcelLength, short])
  simp [isPrefix, long]

/-! ## An encoding at the low end of a window -/

/-- The window begins with the bytes of the instruction's encoding. -/
def Begins (w : BitVec 64) (i : Instr) : Prop :=
  ∀ j < (encodeBytes i).length, w.extractLsb' (8 * j) 8 = (encodeBytes i).getD j 0

/-- An encoding has at most six bytes. -/
theorem encodeBytes_length_le (i : Instr) : (encodeBytes i).length ≤ 6 := by
  unfold encodeBytes
  split <;> simp

/-- A window that begins with the bytes of a word has the word in its low field. -/
theorem Begins.field {w : BitVec 64} {i : Instr} (h : Begins w i) (k : Nat) {m : Nat} {v : BitVec m} (hm : m = 8 * k)
    (bytes : encodeBytes i = (List.range k).map fun j => v.extractLsb' (8 * j) 8) : w.extractLsb' 0 m = v := by
  apply BitVec.eq_of_getLsbD_eq
  intro b hb
  have inside : b / 8 < k := by omega
  have byte : w.extractLsb' (8 * (b / 8)) 8 = v.extractLsb' (8 * (b / 8)) 8 := by
    simpa [bytes, inside] using h (b / 8) (by simp [bytes, inside])
  have bit := congrArg (fun z : BitVec 8 => z.getLsbD (b % 8)) byte
  simpa [hb, Nat.mod_lt b (show 0 < 8 by decide), Nat.div_add_mod] using bit

/-- The first parcel of a window that begins with an encoding is no guard prefix, and gives the encoding's length: the decoder refuses
a word of any other shape. -/
theorem Begins.decodes {lvl : Nat} {w : BitVec 64} {i : Instr} (h : Begins w i) (back : decodeEnc lvl (encode i) = .ok i) :
    isPrefix lvl (w.extractLsb' 0 16) = false ∧ decodeInstr lvl w = ((encodeBytes i).length, .ok i) := by
  have low {n : Nat} (fits : 16 ≤ n) : (w.extractLsb' 0 16).extractLsb' 0 7 = (w.extractLsb' 0 n).extractLsb' 0 7 := by
    rw [sub_field _ _ _ _ _ (by decide), sub_field _ _ _ _ _ (by omega)]
  cases e : encode i with
  | none =>
    rw [e] at back
    cases back
  | w16 v =>
    rw [e] at back
    have word := h.field 2 (v := v) rfl (by rw [encodeBytes, e]; rfl)
    obtain ⟨short, bare⟩ := quadrant_of_decode16 back
    have len : parcelLength v = (2, true) := by simp [parcelLength, short]
    refine ⟨?_, ?_⟩
    · by_cases zero : v.extractLsb' 0 2 = 0#2
      · simp [isPrefix, word, bare zero]
      · simp [isPrefix, word, zero]
    · simp [decodeInstr, word, len, encodeBytes, e, show decode16 v = .ok i from back]
  | w32 v =>
    rw [e] at back
    have word := h.field 4 (v := v) rfl (by rw [encodeBytes, e]; rfl)
    have op : (w.extractLsb' 0 16).extractLsb' 0 7 ∈ opcodes := by
      rw [low (n := 32) (by decide), word]
      exact opcode_of_decode32 back
    have len := parcelLength_of_opcode op
    exact ⟨isPrefix_of_long lvl (by rw [len]; decide), by
      simp [decodeInstr, word, len, encodeBytes, e, show decode32 lvl v = .ok i from back]⟩
  | w48 v =>
    rw [e] at back
    have word := h.field 6 (v := v) rfl (by rw [encodeBytes, e]; rfl)
    obtain ⟨f, d, x, form⟩ := encode_of_decode48 back
    obtain rfl : v = encL f d x := Enc.w48.inj (e.symm.trans form)
    have op : (w.extractLsb' 0 16).extractLsb' 0 7 = 0x1F#7 := by rw [low (n := 48) (by decide), word, encL_0_7]
    have len : parcelLength (w.extractLsb' 0 16) = (6, true) := by
      rw [parcelLength_eq op]
      rfl
    exact ⟨isPrefix_of_long lvl (by rw [len]; decide), by
      simp [decodeInstr, word, len, encodeBytes, e, show decode48 lvl (encL f d x) = .ok i from back]⟩

/-! ## Units (R130, R134, R135) -/

/-- Bytes at an offset of the ten-byte window are bytes of the eight from there. -/
theorem begins_of_bytes {w : BitVec 80} {i : Instr} (o : Nat)
    (h : ∀ j < (encodeBytes i).length, w.extractLsb' (o + 8 * j) 8 = (encodeBytes i).getD j 0) : Begins (w.extractLsb' o 64) i := by
  intro j hj
  have := encodeBytes_length_le i
  rw [sub_field _ _ _ _ _ (by omega), h j hj]

/-- A window that begins with an encoding is a unit without a prefix. -/
theorem decodeUnit_of_begins {lvl : Nat} {w : BitVec 80} {i : Instr} (h : Begins (w.extractLsb' 0 64) i)
    (back : decodeEnc lvl (encode i) = .ok i) :
    decodeUnit lvl w = ⟨(encodeBytes i).length, 0, ⟨i.gField, false⟩, .ok i⟩ := by
  obtain ⟨bare, reads⟩ := h.decodes back
  rw [sub_field _ _ _ _ _ (by decide)] at bare
  simp [decodeUnit, bare, reads]

/-- A guard prefix: guard g, inverted by v (R134). -/
def guardPrefix (v : BitVec 1) (g : GReg) : BitVec 16 := 0b100#3 ++ v ++ 0#7 ++ g ++ 0#2

theorem guardPrefix_fields (v : BitVec 1) (g : GReg) :
    isPrefix 3 (guardPrefix v g) = true ∧ (guardPrefix v g).extractLsb' 2 3 = g ∧ (guardPrefix v g)[12] = (v == 1) ∧
      (guardPrefix v g).extractLsb' 5 7 = 0#7 := by
  revert v g
  decide

/-- A prefix whose fixed bits are 0 stands before an instruction that names no guard of its own (R135). -/
theorem prefixed_ok {p : BitVec 16} {i : Instr} (fixed : p.extractLsb' 5 7 = 0#7) (noGuard : i.gField = 0)
    (noVsel : ∀ k d a b, i ≠ .vsel k d a b) : prefixed p (.ok i) = .ok i := by
  unfold prefixed
  split
  · contradiction
  next k hk =>
    obtain rfl := Except.ok.inj hk
    split
    next k d a b => exact absurd rfl (noVsel k d a b)
    · simp [fixed, noGuard, rsv]

/-- An encoding behind a guard prefix is a unit with that guard. -/
theorem decodeUnit_of_guardPrefix {w : BitVec 80} {i : Instr} {v : BitVec 1} {g : GReg} (guard : w.extractLsb' 0 16 = guardPrefix v g)
    (h : Begins (w.extractLsb' 16 64) i) (back : decodeEnc 3 (encode i) = .ok i) (noGuard : i.gField = 0)
    (noVsel : ∀ k d a b, i ≠ .vsel k d a b) :
    decodeUnit 3 w = ⟨2 + (encodeBytes i).length, 2, ⟨g, v == 1⟩, .ok i⟩ := by
  obtain ⟨isGuard, reg, inv, fixed⟩ := guardPrefix_fields v g
  obtain ⟨bare, reads⟩ := h.decodes back
  rw [sub_field _ _ _ _ _ (by decide)] at bare
  simp [decodeUnit, guard, isGuard, reg, inv, bare, reads, prefixed_ok fixed noGuard noVsel]

/-- Settles O57: the law of each instruction, and the window of bytes that its encoding begins. -/
theorem decodingUndoesEncoding : Obligations.DecodingUndoesEncoding := by
  intro i wf encoded
  have back := decodeEnc_encode i wf encoded
  refine ⟨back, fun w bytes => ?_, fun w g v noGuard level noVsel guard bytes => ?_⟩
  · exact decodeUnit_of_begins (begins_of_bytes 0 (by simpa using bytes)) back
  · rw [level] at back
    exact decodeUnit_of_guardPrefix guard (begins_of_bytes 16 bytes) back noGuard noVsel

/-- Settles O56: the decoder evaluated on each word. -/
theorem wordsDecode : Obligations.WordsDecode :=
  ⟨rfl, rfl, rfl, rfl, rfl, rfl, rfl, rfl, rfl, rfl, rfl, rfl, rfl, rfl, rfl, rfl, rfl⟩

end Sys2Proof.Laws.Coding
end

section
/-! PROOF. The integer instructions (R139, R149 to R151, R153, R154, R157): each is one of the shapes of a unit, and its result is the
rule's, computed on integers and narrowed at the end. -/

namespace Sys2Proof.Machine

open Sys2Proof

/-! ## Results on integers (R150) -/

theorem add_eq_ofInt (x y : Word) : x + y = BitVec.ofInt 64 (x.toInt + y.toInt) := by
  rw [BitVec.ofInt_add, BitVec.ofInt_toInt, BitVec.ofInt_toInt]

theorem sub_eq_ofInt (x y : Word) : x - y = BitVec.ofInt 64 (x.toInt - y.toInt) := by
  rw [Int.sub_eq_add_neg, BitVec.ofInt_add, BitVec.ofInt_neg, BitVec.ofInt_toInt, BitVec.ofInt_toInt, BitVec.sub_eq_add_neg]

theorem mul_eq_ofInt (x y : Word) : x * y = BitVec.ofInt 64 (x.toInt * y.toInt) := by
  rw [BitVec.ofInt_mul, BitVec.ofInt_toInt, BitVec.ofInt_toInt]

theorem shiftLeft_eq_ofNat {w : Nat} (x : BitVec w) (n : Nat) : x <<< n = BitVec.ofNat w (x.toNat * 2 ^ n) :=
  BitVec.eq_of_toNat_eq (by simp [Nat.shiftLeft_eq])

theorem ushiftRight_eq_ofNat {w : Nat} (x : BitVec w) (n : Nat) : x >>> n = BitVec.ofNat w (x.toNat / 2 ^ n) := by
  rw [← Nat.shiftRight_eq_div_pow, ← BitVec.toNat_ushiftRight, BitVec.ofNat_toNat, BitVec.setWidth_eq]

theorem sshiftRight_eq_ofInt {w : Nat} (x : BitVec w) (n : Nat) : x.sshiftRight n = BitVec.ofInt w (x.toInt / 2 ^ n) := by
  rw [BitVec.sshiftRight, Int.shiftRight_eq_div_pow]
  rfl

/-- A register's shift amount is taken modulo 64. -/
theorem sh6_eq (v : Word) : sh6 v = v.toNat % 64 := by simp [sh6]

theorem flag_slt (x y : Word) : flag (x.slt y) = if x.toInt < y.toInt then 1 else 0 := by simp [flag, BitVec.slt]
theorem flag_ult (x y : Word) : flag (x.ult y) = if x.toNat < y.toNat then 1 else 0 := by simp [flag, BitVec.ult]

theorem min_eq_ofInt (x y : Word) : (if y.slt x then y else x) = BitVec.ofInt 64 (min x.toInt y.toInt) := by
  rw [min_comm, min_def_lt, apply_ite (BitVec.ofInt 64)]
  simp [BitVec.slt]
theorem max_eq_ofInt (x y : Word) : (if x.slt y then y else x) = BitVec.ofInt 64 (max x.toInt y.toInt) := by
  rw [max_def_lt, apply_ite (BitVec.ofInt 64)]
  simp [BitVec.slt]
theorem min_eq_ofNat (x y : Word) : (if y.ult x then y else x) = BitVec.ofNat 64 (min x.toNat y.toNat) := by
  rw [min_comm, min_def_lt, apply_ite (BitVec.ofNat 64)]
  simp [BitVec.ult]
theorem max_eq_ofNat (x y : Word) : (if x.ult y then y else x) = BitVec.ofNat 64 (max x.toNat y.toNat) := by
  rw [max_def_lt, apply_ite (BitVec.ofNat 64)]
  simp [BitVec.ult]

theorem shiftAdd_eq_ofNat (x y : Word) (n : Nat) : (x <<< n) + y = BitVec.ofNat 64 (x.toNat * 2 ^ n + y.toNat) := by
  rw [shiftLeft_eq_ofNat, BitVec.ofNat_add, BitVec.ofNat_toNat, BitVec.setWidth_eq]

/-- The high half of a product, of integers and of naturals. -/
theorem mulh_eq (x y : Word) :
    BitVec.ofInt 64 (x.toInt * y.toInt / 2 ^ 64) = (x.signExtend 128 * y.signExtend 128).extractLsb' 64 64 := by
  have product : x.signExtend 128 * y.signExtend 128 = BitVec.ofInt 128 (x.toInt * y.toInt) := (BitVec.ofInt_mul ..).symm
  apply BitVec.eq_of_toNat_eq
  simp only [product, BitVec.extractLsb'_toNat, BitVec.toNat_ofInt, Nat.shiftRight_eq_div_pow]
  generalize x.toInt * y.toInt = k
  omega
theorem mulhu_eq (x y : Word) :
    BitVec.ofNat 64 (x.toNat * y.toNat / 2 ^ 64) = (x.zeroExtend 128 * y.zeroExtend 128).extractLsb' 64 64 := by
  have product : x.zeroExtend 128 * y.zeroExtend 128 = BitVec.ofNat 128 (x.toNat * y.toNat) := by
    rw [BitVec.ofNat_mul, BitVec.ofNat_toNat, BitVec.ofNat_toNat]
  apply BitVec.eq_of_toNat_eq
  simp only [product, BitVec.extractLsb'_toNat, BitVec.toNat_ofNat, Nat.shiftRight_eq_div_pow]
  generalize x.toNat * y.toNat = k
  omega

/-! ## Low halves (R149) -/

theorem low32_ofInt (k : Int) : (BitVec.ofInt 64 k).extractLsb' 0 32 = BitVec.ofInt 32 k := by
  apply BitVec.eq_of_toNat_eq
  simp only [BitVec.extractLsb'_toNat, BitVec.toNat_ofInt, Nat.shiftRight_zero]
  omega
theorem low32_ofNat (k : Nat) : (BitVec.ofNat 64 k).extractLsb' 0 32 = BitVec.ofNat 32 k := low32_ofInt k
theorem low32_eq (x : Word) : x.extractLsb' 0 32 = BitVec.ofNat 32 x.toNat := by
  rw [← low32_ofNat, BitVec.ofNat_toNat, BitVec.setWidth_eq]

theorem sext32_add (x y : Word) : sext32 (x + y) = (BitVec.ofInt 32 (x.toInt + y.toInt)).signExtend 64 := by
  rw [sext32, add_eq_ofInt, low32_ofInt]
theorem sext32_sub (x y : Word) : sext32 (x - y) = (BitVec.ofInt 32 (x.toInt - y.toInt)).signExtend 64 := by
  rw [sext32, sub_eq_ofInt, low32_ofInt]
theorem sext32_shiftLeft (x : Word) (n : Nat) : sext32 (x <<< n) = (BitVec.ofNat 32 (x.toNat * 2 ^ n)).signExtend 64 := by
  rw [sext32, shiftLeft_eq_ofNat, low32_ofNat]
theorem low32_ushiftRight (x : Word) (n : Nat) : x.extractLsb' 0 32 >>> n = BitVec.ofNat 32 (x.toNat % 2 ^ 32 / 2 ^ n) := by
  rw [low32_eq, ushiftRight_eq_ofNat, BitVec.toNat_ofNat]
theorem low32_sshiftRight (x : Word) (n : Nat) :
    ((x.extractLsb' 0 32).sshiftRight n).signExtend 64 = BitVec.ofInt 64 ((BitVec.ofNat 32 x.toNat).toInt / 2 ^ n) := by
  rw [low32_eq, BitVec.signExtend, BitVec.toInt_sshiftRight, Int.shiftRight_eq_div_pow]
  rfl

/-! ## Divisions (R151) -/

theorem divS_eq (x y : Word) : divS x y = if y = 0 then BitVec.allOnes 64 else BitVec.ofInt 64 (x.toInt.tdiv y.toInt) := by
  have quotient : x.sdiv y = BitVec.ofInt 64 (x.toInt.tdiv y.toInt) :=
    BitVec.eq_of_toInt_eq (by rw [BitVec.toInt_sdiv, BitVec.toInt_ofInt])
  rw [divS, quotient]
theorem remS_eq (x y : Word) : remS x y = if y = 0 then x else BitVec.ofInt 64 (x.toInt.tmod y.toInt) := by
  rw [remS, ← BitVec.toInt_srem, BitVec.ofInt_toInt]
theorem divU_eq (x y : Word) : divU x y = if y = 0 then BitVec.allOnes 64 else BitVec.ofNat 64 (x.toNat / y.toNat) := by
  rw [divU, ← BitVec.toNat_udiv, BitVec.ofNat_toNat, BitVec.setWidth_eq]
theorem remU_eq (x y : Word) : remU x y = if y = 0 then x else BitVec.ofNat 64 (x.toNat % y.toNat) := by
  rw [remU, ← BitVec.toNat_umod, BitVec.ofNat_toNat, BitVec.setWidth_eq]

/-! ## Counts of bits -/

theorem leadZeros_low (v : Word) (n : Nat) : leadZeros v n = if v.toNat % 2 ^ n = 0 then n else n - 1 - Nat.log2 (v.toNat % 2 ^ n) := by
  induction n with
  | zero => simp [leadZeros]
  | succ n ih =>
    have split : v.toNat % 2 ^ (n + 1) = (v.getLsbD n).toNat * 2 ^ n + v.toNat % 2 ^ n := by
      rw [Nat.mod_pow_succ, BitVec.getLsbD, Nat.toNat_testBit]
      ring
    rw [leadZeros, ih, split]
    have lt : v.toNat % 2 ^ n < 2 ^ n := Nat.mod_lt _ (by positivity)
    generalize v.toNat % 2 ^ n = r at lt ⊢
    cases v.getLsbD n with
    | true =>
      have : Nat.log2 (2 ^ n + r) = n := (Nat.log2_eq_iff (by omega)).2 ⟨by omega, by omega⟩
      simp [this]
    | false =>
      by_cases z : r = 0
      · simp [z]
        omega
      · have : r.log2 < n := (Nat.log2_lt z).2 lt
        simp [z]
        omega
theorem leadZeros_eq (v : Word) : BitVec.ofNat 64 (leadZeros v 64) = if v = 0 then 64 else BitVec.ofNat 64 (63 - Nat.log2 v.toNat) := by
  have zero : v.toNat = 0 ↔ v = 0 := BitVec.toNat_eq (y := 0#64).symm
  simp only [leadZeros_low, Nat.mod_eq_of_lt v.isLt, zero]
  split <;> rfl

theorem trailZeros_eq (v : Word) {n : Nat} (h : n ≤ 64) :
    trailZeros v n = ((List.range' (64 - n) n).takeWhile fun j => !v.getLsbD j).length := by
  induction n with
  | zero => rfl
  | succ n ih =>
    have here : 64 - (n + 1) = 63 - n := by omega
    have next : 63 - n + 1 = 64 - n := by omega
    rw [trailZeros, ih (by omega), List.range'_succ, here, next, List.takeWhile_cons]
    cases v.getLsbD (63 - n)
    · simp [Nat.add_comm]
    · simp

theorem ones_eq (v : Word) (n : Nat) : ones v n = ((List.range n).filter fun j => v.getLsbD j).length := by
  induction n with
  | zero => rfl
  | succ n ih =>
    rw [ones, ih, List.range_succ, List.filter_append, List.length_append]
    cases h : v.getLsbD n
    · simp [h]
    · simp [h, Nat.add_comm]

/-! ## Immediates (R131) -/

theorem immI_toInt (i : BitVec 12) : (immI i).toInt = i.toInt := BitVec.toInt_signExtend_of_le (by decide)

/-- An immediate with m zeros below it. -/
theorem signExtend_scaled {w : Nat} (m : Nat) (i : BitVec w) (v : Nat) : (i ++ 0#m).signExtend v = BitVec.ofInt v (i.toInt * 2 ^ m) := by
  rw [BitVec.signExtend, BitVec.toInt_append_zero, Int.mul_comm]
theorem immU_eq (u : BitVec 20) : immU u = BitVec.ofInt 64 (u.toInt * 4096) := signExtend_scaled 12 u 64
theorem immB_eq (i : BitVec 12) : immB i = BitVec.ofInt 64 (i.toInt * 2) := signExtend_scaled 1 i 64
theorem immJ_eq (i : BitVec 20) : immJ i = BitVec.ofInt 64 (i.toInt * 2) := signExtend_scaled 1 i 64

/-! ## The integer shapes of a unit -/

/-- An instruction is a no-op where it is a HINT (R139), and else pops its sources, writes its result and goes on. -/
def State.Completes (s : State) (i : Instr) (l : List XReg) (d : XReg) (v : Word) : Prop :=
  (i.hint = true → exec i s = .next s.retire) ∧
    (i.hint = false → s.misuse l [d] = false → exec i s = .next (((s.pops l).wr d v).retire))

theorem completes_put {s : State} {i : Instr} {l : List XReg} {d : XReg} {v w : Word} (run : exec i s = s.put l d w)
    (plain : i.hint = false) (result : w = v) : s.Completes i l d v :=
  ⟨fun h => absurd (plain.symm.trans h) (by decide), fun _ ok => by rw [run, State.put_next _ _ _ _ ok, result]⟩

theorem completes_alu {s : State} {i : Instr} {l : List XReg} {d : XReg} {v w : Word} (run : exec i s = s.alu l d w)
    (hint : i.hint = (d == 0)) (result : w = v) : s.Completes i l d v := by
  refine ⟨fun h => ?_, fun h ok => ?_⟩
  · have zero : d = 0 := by simpa using hint.symm.trans h
    rw [run, State.alu, if_pos zero]
  · have named : d ≠ 0 := by simpa using hint.symm.trans h
    rw [run, State.alu, if_neg named, State.put_next _ _ _ _ ok, result]

/-- Settles O1: each form is of one of the two shapes, with the rule's result. -/
theorem registerFormsResult : Obligations.RegisterFormsResult := by
  intro s d a b x y
  have alu {i : Instr} {v w : Word} := completes_alu (s := s) (i := i) (l := [a, b]) (d := d) (v := v) (w := w)
  have put {i : Instr} {v w : Word} := completes_put (s := s) (i := i) (l := [a, b]) (d := d) (v := v) (w := w)
  have amount := sh6_eq y
  simp only [List.forall_mem_cons, List.not_mem_nil, false_imp_iff, implies_true, and_true]
  exact ⟨alu rfl rfl (add_eq_ofInt x y), alu rfl rfl (sub_eq_ofInt x y),
    alu rfl rfl (amount ▸ shiftLeft_eq_ofNat x (sh6 y)), alu rfl rfl (flag_slt x y), alu rfl rfl (flag_ult x y), alu rfl rfl rfl,
    alu rfl rfl (amount ▸ ushiftRight_eq_ofNat x (sh6 y)), alu rfl rfl (amount ▸ sshiftRight_eq_ofInt x (sh6 y)),
    alu rfl rfl rfl, alu rfl rfl rfl, put rfl rfl rfl, put rfl rfl rfl, put rfl rfl (min_eq_ofInt x y), put rfl rfl (min_eq_ofNat x y),
    put rfl rfl (max_eq_ofInt x y), put rfl rfl (max_eq_ofNat x y), put rfl rfl (shiftAdd_eq_ofNat x y 1),
    put rfl rfl (shiftAdd_eq_ofNat x y 2), put rfl rfl (shiftAdd_eq_ofNat x y 3), put rfl rfl (mul_eq_ofInt x y),
    put rfl rfl (mulh_eq x y), put rfl rfl (mulhu_eq x y), alu rfl rfl (sext32_add x y), alu rfl rfl (sext32_sub x y),
    put rfl rfl (divS_eq x y), put rfl rfl (divU_eq x y), put rfl rfl (remS_eq x y), put rfl rfl (remU_eq x y)⟩

/-- Settles O2: each form is of one of the two shapes, with the rule's result. -/
theorem immediateFormsResult : Obligations.ImmediateFormsResult := by
  intro s d a i n k x
  have alu {i : Instr} {v w : Word} := completes_alu (s := s) (i := i) (l := [a]) (d := d) (v := v) (w := w)
  have put {i : Instr} {v w : Word} := completes_put (s := s) (i := i) (l := [a]) (d := d) (v := v) (w := w)
  have value := immI_toInt i
  simp only [List.forall_mem_cons, List.not_mem_nil, false_imp_iff, implies_true, and_true]
  exact ⟨alu rfl rfl (value ▸ add_eq_ofInt x (immI i)), alu rfl rfl (value ▸ flag_slt x (immI i)), alu rfl rfl (flag_ult x (immI i)),
    alu rfl rfl rfl, alu rfl rfl rfl, alu rfl rfl rfl, alu rfl rfl (shiftLeft_eq_ofNat x n.toNat), alu rfl rfl (ushiftRight_eq_ofNat x n.toNat),
    alu rfl rfl (sshiftRight_eq_ofInt x n.toNat), put rfl rfl (leadZeros_eq x),
    put rfl rfl (by rw [trailZeros_eq x le_rfl, Nat.sub_self, ← List.range_eq_range']), put rfl rfl (by rw [ones_eq]),
    alu rfl rfl (value ▸ sext32_add x (immI i)), alu rfl rfl (sext32_shiftLeft x k.toNat),
    alu rfl rfl (congrArg (BitVec.signExtend 64) (low32_ushiftRight x k.toNat)), alu rfl rfl (low32_sshiftRight x k.toNat)⟩

/-- A long literal over the low half of a register. -/
theorem append_low32 (l : BitVec 32) (x : Word) : l ++ x.extractLsb' 0 32 = BitVec.ofNat 64 (l.toNat * 2 ^ 32 + x.toNat % 2 ^ 32) := by
  apply BitVec.eq_of_toNat_eq
  rw [BitVec.toNat_append, low32_eq, BitVec.toNat_ofNat, BitVec.toNat_ofNat, ← Nat.shiftLeft_add_eq_or_of_lt (Nat.mod_lt _ (by decide)),
    Nat.shiftLeft_eq, Nat.mod_eq_of_lt (b := 2 ^ 64)]
  omega

/-- Settles O3: each form is of one of the two shapes, with the rule's result. -/
theorem literalFormsResult : Obligations.LiteralFormsResult := by
  intro s d u l
  have value : (l.signExtend 64).toInt = l.toInt := BitVec.toInt_signExtend_of_le (by decide)
  simp only [List.forall_mem_cons, List.not_mem_nil, false_imp_iff, implies_true, and_true]
  exact ⟨completes_alu rfl rfl (immU_eq u), completes_alu rfl rfl (congrArg _ (immU_eq u)), completes_put rfl rfl rfl,
    completes_put rfl rfl (append_low32 l _), completes_put rfl rfl (value ▸ add_eq_ofInt (s.rd d) (l.signExtend 64)),
    completes_put rfl rfl rfl, completes_put rfl rfl rfl⟩

/-! ## Sources that map no queue -/

theorem State.pops_cons_plain (s : State) {r : XReg} (h : banked r = false) (l : List XReg) : s.pops (r :: l) = s.pops l := by
  have five : (r :: l).contains (5 : XReg) = l.contains 5 := by
    rw [List.contains_cons, beq_eq_false_iff_ne.2 (by rintro rfl; exact absurd h (by decide)), Bool.false_or]
  have six : (r :: l).contains (6 : XReg) = l.contains 6 := by
    rw [List.contains_cons, beq_eq_false_iff_ne.2 (by rintro rfl; exact absurd h (by decide)), Bool.false_or]
  rw [State.pops, State.pops, five, six]

theorem State.misuse_cons_plain (s : State) {r : XReg} (h : banked r = false) (l k : List XReg) : s.misuse (r :: l) k = s.misuse l k := by
  simp [State.misuse, Ctx.mapped_plain s.cur h]

theorem State.misuse_plain_dest (s : State) {d : XReg} (h : banked d = false) (l : List XReg) : s.misuse l [d] = s.misuse l [] := by
  simp [State.misuse, Ctx.mapped_plain s.cur h]

theorem State.rd_plain (s : State) {r : XReg} (h : banked r = false) : s.rd r = s.cur.reg r := by
  simp [State.rd, Ctx.mapped_plain s.cur h]

theorem State.Completes.drop_plain {s : State} {i : Instr} {r : XReg} {l : List XReg} {d : XReg} {v : Word}
    (h : s.Completes i (r :: l) d v) (plain : banked r = false) : s.Completes i l d v := by
  simpa only [State.Completes, s.misuse_cons_plain plain, s.pops_cons_plain plain] using h

/-- x8 to x15 are not x0. -/
theorem cReg_named (r : BitVec 3) : ((1#1 ++ r : XReg) == 0) = false := by revert r; decide

/-- x0 beside another source adds nothing; of x8 to x15 none is inbound. -/
theorem State.misuse_pair_zero (s : State) (r : XReg) (k : List XReg) : s.misuse [r, 0] k = s.misuse [r] k := by
  have zero : s.cur.mapped 0#4 = none := Ctx.mapped_plain s.cur (by rfl)
  simp [State.misuse, zero]
theorem State.pops_third (s : State) (c : BitVec 3) : s.pops [1#1 ++ c, 0] = s :=
  s.pops_plain (by revert c; decide) (by revert c; decide)

/-! ## Branches and jumps (R153, R154) -/

/-- A branch continues at its target where its condition holds, and else at the next unit. -/
theorem branch_continues {s : State} {i : Instr} {a b : XReg} {taken : Bool} {off v : Word} {P : Prop} (ok : s.misuse [a, b] [] = false)
    (run : exec i s = s.branch a b taken off) (cond : taken = true ↔ P) (offset : off = v) :
    (P → exec i s = .next ((s.pops [a, b]).retireTo (s.iss.ipc + v))) ∧ (¬P → exec i s = .next ((s.pops [a, b]).retireTo s.iss.npc)) := by
  rw [run, State.branch, State.jump_zero _ _ _ _ ok, offset]
  exact ⟨fun h => by rw [if_pos (cond.2 h)], fun h => by rw [if_neg fun t => h (cond.1 t)]⟩

/-- A comparison of a register of x8 to x15 with x0. -/
theorem branch_zero {s : State} {i : Instr} {c : BitVec 3} {taken : Bool} {off : Word} (ok : s.misuse [1#1 ++ c] [] = false)
    (run : exec i s = s.branch (1#1 ++ c) 0 taken off) : exec i s = .next (s.retireTo (if taken then s.iss.ipc + off else s.iss.npc)) := by
  rw [run, State.branch, State.jump_zero _ _ _ _ ((s.misuse_pair_zero _ _).trans ok), s.pops_third]

/-- Settles O4: each branch is a jump without a link. -/
theorem branchesResult : Obligations.BranchesResult := by
  intro s a b c i j x y
  refine ⟨fun ok => ?_, fun ok => ?_⟩
  · have branch {q : Instr} {t : Bool} {P : Prop} (run : exec q s = s.branch a b t (immB i)) (cond : t = true ↔ P) :=
      branch_continues ok run cond (immB_eq i)
    simp only [List.forall_mem_cons, List.not_mem_nil, false_imp_iff, implies_true, and_true]
    exact ⟨branch rfl beq_iff_eq, branch rfl bne_iff_ne, branch rfl BitVec.slt_iff_toInt_lt, branch rfl (by simp [BitVec.slt, x, y]),
      branch rfl (by simp [BitVec.ult, x, y]), branch rfl (by simp [BitVec.ult, x, y])⟩
  · have offset : immB (j.signExtend 12) = BitVec.ofInt 64 (j.toInt * 2) := by rw [immB_eq, BitVec.toInt_signExtend_of_le (by decide)]
    refine ⟨(branch_zero ok rfl).trans ?_, (branch_zero ok rfl).trans ?_⟩
    · rw [offset, State.rd_zero]
      simp [cReg]
    · rw [offset, State.rd_zero]
      simp [cReg]

/-- Bit 0 of a target is cleared. -/
theorem and_not_one (v : Word) : v &&& ~~~1#64 = BitVec.ofNat 64 (v.toNat / 2 * 2) := by
  have halves : v &&& ~~~1#64 = v >>> 1 <<< 1 := by
    ext i
    cases i with
    | zero => simp
    | succ i =>
      simp only [BitVec.getElem_and, BitVec.getElem_not, BitVec.getElem_one, BitVec.getElem_shiftLeft]
      simp [Nat.add_comm 1 i, BitVec.getLsbD_eq_getElem ‹i + 1 < 64›]
  rw [halves, shiftLeft_eq_ofNat, BitVec.toNat_ushiftRight]
  rfl

/-- Settles O5: each is a jump that is taken. -/
theorem jumpsResult : Obligations.JumpsResult := by
  intro s d a u i j x
  have register (t : Word) {d : XReg} (ok : s.misuse [a] [d] = false) : s.jump [a] d true (t &&& ~~~1#64) =
      .next (((s.pops [a]).wr d s.iss.npc).retireTo (BitVec.ofNat 64 (t.toNat / 2 * 2))) := by
    rw [State.jump_next _ _ _ _ _ ok, if_pos rfl, and_not_one]
  have zero : x + immI 0 = x := BitVec.add_zero x
  refine ⟨fun ok => ?_, register _, ?_, fun ok => ⟨?_, ?_⟩⟩
  · rw [← immJ_eq]
    exact State.jump_next _ _ _ _ _ ok
  · have offset : immJ (j.signExtend 20) = BitVec.ofInt 64 (j.toInt * 2) := by rw [immJ_eq, BitVec.toInt_signExtend_of_le (by decide)]
    exact (s.jump_zero [] true (s.iss.ipc + immJ (j.signExtend 20)) rfl).trans (by rw [offset]; rfl)
  · refine (State.jump_zero s [a] true ((x + immI 0) &&& ~~~1#64) ok).trans ?_
    rw [zero, and_not_one]
    rfl
  · refine (register (x + immI 0) (d := 1) (by rwa [s.misuse_plain_dest (by decide)])).trans ?_
    rw [zero]

/-! ## Compressed forms (R154) -/

theorem immI_cImm (i : BitVec 6) : immI (cImm i) = i.signExtend 64 :=
  congrArg (BitVec.ofInt 64) (BitVec.toInt_signExtend_of_le (by decide))

/-- The scaled immediate of C.ADDI4SPN is not negative. -/
theorem immI_scaled4 (j : BitVec 8) : immI (0#2 ++ j ++ 0#2) = BitVec.ofNat 64 (4 * j.toNat) := by
  have value : (0#2 ++ j ++ 0#2).toNat = 4 * j.toNat := by
    rw [BitVec.toNat_append, BitVec.toNat_append]
    simp [Nat.shiftLeft_eq, Nat.mul_comm]
  have := j.isLt
  exact (signExtend_small (by omega)).trans (by rw [value])

/-- A form whose zero immediate is a HINT. -/
theorem completes_unless {s : State} {i : Instr} {l : List XReg} {d : XReg} {v w : Word} {zero : Prop} [Decidable zero]
    (run : exec i s = if zero then .next s.retire else s.alu l d w) (hint : i.hint = (d == 0 || decide zero)) (result : w = v) :
    s.Completes i l d v := by
  by_cases h : zero
  · rw [if_pos h] at run
    exact ⟨fun _ => run, fun plain => absurd (hint.symm.trans plain) (by simp [h])⟩
  · rw [if_neg h] at run
    exact completes_alu run (by simp [hint, h]) result

/-- A form that is no HINT, and whose result x0 discards. -/
theorem completes_discard {s : State} {i : Instr} {l : List XReg} {d : XReg} {v w : Word} (run : exec i s = s.alu l d w)
    (plain : i.hint = false) (pops : d = 0 → s.pops l = s) (result : w = v) : s.Completes i l d v := by
  refine ⟨fun h => absurd (plain.symm.trans h) (by decide), fun _ ok => ?_⟩
  by_cases zero : d = 0
  · have discarded : (s.wr 0 v).retire = s.retire := by
      rw [State.wr_zero, State.retire, State.onCur_onCur]
      rfl
    rw [run, State.alu, if_pos zero, pops zero, zero, discarded]
  · rw [run, State.alu, if_neg zero, State.put_next _ _ _ _ ok, result]

/-- Settles O6: each form is its expansion, of one of the two shapes. -/
theorem compressedFormsResult : Obligations.CompressedFormsResult := by
  intro s d b e c i j x y p r u v
  have imm : (immI (cImm i)).toInt = i.toInt := by rw [immI_toInt, cImm, BitVec.toInt_signExtend_of_le (by decide)]
  have sp : s.cur.reg 2 = s.rd 2 := (s.rd_plain (by decide)).symm
  have third {q : Instr} {l : List XReg} {m w : Word} (run : exec q s = s.alu l p w) (plain : q.hint = false) (result : w = m) :
      s.Completes q l p m := completes_alu run (plain.trans (cReg_named e).symm) result
  have shifts : (i == 0) = (p == 0 || decide (i = 0)) := by
    rw [cReg_named, Bool.false_or]
    rfl
  simp only [List.forall_mem_cons, List.not_mem_nil, false_imp_iff, implies_true, and_true]
  refine ⟨?nop, ?addi, ?addiw, ?li, ?addi16sp, ?addi4spn, ?lui, ?slli, ?mv, ?add, ?srli, ?srai, ?andi, ?sub, ?xor, ?or, ?and, ?subw, ?addw⟩
  case nop => exact (completes_alu (l := [0]) (w := s.rd 0 + immI 0) rfl rfl (by rw [State.rd_zero]; rfl)).drop_plain (by decide)
  case addi => exact completes_unless rfl rfl (imm ▸ add_eq_ofInt x (immI (cImm i)))
  case addiw =>
    have pops (zero : d = 0) : s.pops [d] = s := by rw [zero]; rfl
    exact completes_discard rfl rfl pops (imm ▸ sext32_add x (immI (cImm i)))
  case li =>
    have sum : s.rd 0 + immI (cImm i) = i.signExtend 64 := by
      rw [State.rd_zero, immI_cImm]
      exact BitVec.zero_add _
    exact (completes_alu (l := [0]) rfl rfl sum).drop_plain (by decide)
  case addi16sp =>
    refine (completes_alu (l := [2]) (w := s.rd 2 + immI ((i ++ 0#4).signExtend 12)) rfl rfl ?_).drop_plain (by decide)
    rw [add_eq_ofInt, immI_toInt, BitVec.toInt_signExtend_of_le (by decide), BitVec.toInt_append_zero, sp]
    rfl
  case addi4spn =>
    refine (third (l := [2]) (w := s.rd 2 + immI (0#2 ++ j ++ 0#2)) rfl rfl ?_).drop_plain (by decide)
    rw [immI_scaled4, sp, BitVec.ofNat_add, BitVec.ofNat_toNat, BitVec.setWidth_eq]
  case lui => exact completes_alu rfl rfl (by rw [immU_eq, BitVec.toInt_signExtend_of_le (by decide)])
  case slli => exact completes_unless rfl rfl (shiftLeft_eq_ofNat x i.toNat)
  case mv => exact (completes_alu (l := [0, b]) rfl rfl (by rw [State.rd_zero]; exact BitVec.zero_add y)).drop_plain (by decide)
  case add => exact completes_alu rfl rfl (add_eq_ofInt x y)
  case srli => exact completes_unless rfl shifts (ushiftRight_eq_ofNat u i.toNat)
  case srai => exact completes_unless rfl shifts (sshiftRight_eq_ofInt u i.toNat)
  case andi => exact third rfl rfl (by rw [immI_cImm]; rfl)
  case sub => exact third rfl rfl (sub_eq_ofInt u v)
  case xor => exact third rfl rfl rfl
  case or => exact third rfl rfl rfl
  case and => exact third rfl rfl rfl
  case subw => exact third rfl rfl (sext32_sub u v)
  case addw => exact third rfl rfl (sext32_add u v)

end Sys2Proof.Machine
end

section
/-! PROOF. Guards (R158 to R161) and single precision in x registers (R155, R156): units that change their context alone, and results that are
rounded once. -/

namespace Sys2Proof.Machine

open Sys2Proof

/-! ## A unit that changes its context alone -/

/-- A change that keeps the registers, with their full and parity bits, and the unit's place. -/
structure Ctx.KeepsFile (f : Ctx → Ctx) (c : Ctx) : Prop where
  x : (f c).x = c.x
  fe : (f c).fe = c.fe
  bad : (f c).bad = c.bad
  frame : (f c).frame = c.frame
  instret : (f c).instret = c.instret

theorem State.alter_unit (s : State) {hide f : Ctx → Ctx} {l : List XReg} (ok : s.misuse l [] = false) (keeps : Ctx.KeepsFile f s.cur)
    (body : hide (f s.cur).body = hide s.cur.body) :
    ∃ t : State, s.alter l f = .next t ∧ t.cur = (f s.cur).retire s.iss.npc ∧ Retired s t ∧ UnitFrame hide s t [] := by
  have cur : ((s.pops l).onCur f).cur = f s.cur := by rw [State.cur_onCur, State.pops_cur]
  have iss : ((s.pops l).onCur f).iss = s.iss := State.pops_iss ..
  refine ⟨_, s.alter_next l f ok, by rw [State.retire_cur, cur, iss], ?_, ?_⟩
  · exact retired_retire iss (by rw [cur, keeps.frame]) (by rw [cur, keeps.instret])
  · refine (unitFrame_alter hide s l f [] body (fun r _ => ?_) fun r _ _ => ?_).trans iss (unitFrame_retire ..)
    · rw [Ctx.regAt, keeps.x, Ctx.regAt]
    · rw [keeps.fe, keeps.bad]
      exact ⟨rfl, rfl⟩

/-! ## Guards -/

theorem Ctx.guard_named (c : Ctx) {n : GReg} (h : n ≠ 0) : c.guard n = c.g.getLsbD n.toNat := if_neg h
theorem Ctx.setGuard_named (c : Ctx) {n : GReg} (h : n ≠ 0) (b : Bool) :
    (c.setGuard n b).g = if b then c.g ||| 1#8 <<< n.toNat else c.g &&& ~~~(1#8 <<< n.toNat) := by
  rw [Ctx.setGuard, if_neg h]

theorem Ctx.guard_congr {c e : Ctx} (h : e.g = c.g) (n : GReg) : e.guard n = c.guard n := by rw [Ctx.guard, h, Ctx.guard]

theorem Ctx.guard_setGuard_same (c : Ctx) (d : GReg) (b : Bool) : (c.setGuard d b).guard d = true ↔ d = 0 ∨ b = true := by
  by_cases h : d = 0
  · exact iff_of_true (if_pos h) (.inl h)
  · have lt : d.toNat < 8 := d.isLt
    rw [Ctx.guard_named _ h, Ctx.setGuard_named _ h, or_iff_right h]
    cases b <;> simp [lt]

theorem Ctx.guard_setGuard_ne (c : Ctx) {d n : GReg} (h : n ≠ d) (b : Bool) : (c.setGuard d b).guard n = c.guard n := by
  by_cases zd : d = 0
  · rw [Ctx.setGuard, if_pos zd]
  · by_cases zn : n = 0
    · rw [Ctx.guard, if_pos zn, Ctx.guard, if_pos zn]
    · have lt : n.toNat < 8 := n.isLt
      have ne : n.toNat ≠ d.toNat := fun e => h (BitVec.eq_of_toNat_eq e)
      have other : (1#8 <<< d.toNat).getLsbD n.toNat = false := by
        simp
        omega
      rw [Ctx.guard_named _ zn, Ctx.guard_named _ zn, Ctx.setGuard_named _ zd]
      cases b with
      | false => simp only [Bool.false_eq_true, if_false, BitVec.getLsbD_and, BitVec.getLsbD_not, other, lt, Bool.not_false, decide_true, Bool.and_true]
      | true => simp only [if_true, BitVec.getLsbD_or, other, Bool.or_false]

theorem Ctx.setGuard_keeps (c : Ctx) (d : GReg) (b : Bool) : Ctx.KeepsFile (·.setGuard d b) c := by
  constructor <;> (simp only [Ctx.setGuard]; split <;> rfl)

/-- A unit that writes a guard and leaves every other. -/
def State.SetsGuard (s : State) (d : GReg) (P : Prop) (o : Out) : Prop :=
  ∃ t : State, o = .next t ∧ (t.cur.guard d = true ↔ d = 0 ∨ P) ∧ (∀ n, n ≠ d → t.cur.guard n = s.cur.guard n) ∧ Retired s t ∧
    UnitFrame Ctx.noGuards s t []

theorem State.alter_setsGuard (s : State) {l : List XReg} {d : GReg} {b : Bool} {P : Prop} (ok : s.misuse l [] = false) (cond : b = true ↔ P) :
    s.SetsGuard d P (s.alter l (·.setGuard d b)) := by
  obtain ⟨t, run, cur, retired, frame⟩ := s.alter_unit (hide := Ctx.noGuards) (f := (·.setGuard d b)) ok (s.cur.setGuard_keeps d b) (by
    simp only [Ctx.setGuard]
    split <;> rfl)
  have guard (n : GReg) : t.cur.guard n = (s.cur.setGuard d b).guard n := by
    rw [cur]
    exact Ctx.guard_congr (Ctx.retire_g ..) n
  exact ⟨t, run, by rw [guard, Ctx.guard_setGuard_same, cond], fun n hn => by rw [guard, Ctx.guard_setGuard_ne _ hn], retired, frame⟩

/-- g7 to g0 as a word (R161). -/
theorem Ctx.guards_bit (c : Ctx) (j : Nat) : (c.guards.zeroExtend 64).getLsbD j = (decide (j < 8) && c.guard (BitVec.ofNat 3 j)) := by
  by_cases lt : j < 8
  · by_cases zero : j = 0
    · simp [zero, Ctx.guards, Ctx.guard]
    · have named : BitVec.ofNat 3 j ≠ 0 := by
        rw [ne_eq, BitVec.toNat_eq]
        simp
        omega
      rw [Ctx.guard_named _ named]
      simp [Ctx.guards, lt, zero, Nat.mod_eq_of_lt lt]
      omega
  · have beyond : c.guards.getLsbD j = false := BitVec.getLsbD_of_ge _ _ (Nat.not_lt.1 lt)
    simp [beyond, lt]

/-- Settles O7: comparisons and combinations write one guard; moves read or write them all. -/
theorem guardsResult : Obligations.GuardsResult := by
  intro s d e f r a b x y
  refine ⟨fun ok => ?_, ?_, fun ok => ⟨_, s.put_next [] r _ ok, s.cur.guards_bit⟩, fun ok => ?_⟩
  · have compare {t : Bool} {P : Prop} (cond : t = true ↔ P) := s.alter_setsGuard (d := d) ok cond
    simp only [List.forall_mem_cons, List.not_mem_nil, false_imp_iff, implies_true, and_true]
    exact ⟨compare beq_iff_eq, compare bne_iff_ne, compare BitVec.slt_iff_toInt_lt, compare (by simp [BitVec.slt, x, y]),
      compare (by simp [BitVec.ult, x, y]), compare (by simp [BitVec.ult, x, y])⟩
  · have combine {t : Bool} {P : Prop} (cond : t = true ↔ P) := s.alter_setsGuard (l := []) (d := d) rfl cond
    simp only [List.forall_mem_cons, List.not_mem_nil, false_imp_iff, implies_true, and_true]
    exact ⟨combine (by simp), combine (by simp), combine bne_iff_ne, combine (by simp)⟩
  · obtain ⟨t, run, cur, retired, frame⟩ := s.alter_unit (hide := Ctx.noGuards)
      (f := fun c => { c with g := x.extractLsb' 0 8 ||| 1#8 }) ok ⟨rfl, rfl, rfl, rfl, rfl⟩ rfl
    refine ⟨t, run, fun n hn => ?_, retired, frame⟩
    have lt : n.toNat < 8 := n.isLt
    have pos : n.toNat ≠ 0 := fun e => hn (BitVec.eq_of_toNat_eq e)
    rw [cur, Ctx.guard_congr (Ctx.retire_g ..), Ctx.guard_named _ hn]
    simp [lt, pos]

/-! ## Single precision (R155, R156) -/

theorem fbits_eq (v : Word) : fbits v = v.toNat % 2 ^ 32 := by simp [fbits]
theorem fval_eq (v : Word) : fval v = f32.decode (v.toNat % 2 ^ 32) := by rw [fval, fbits_eq]

/-- A word of a sign and a magnitude. -/
theorem fword_append (g : BitVec 1) (x : Word) : fword (fbits x % 2 ^ 31 + g.toNat * 2 ^ 31) = (g ++ x.extractLsb' 0 31).signExtend 64 := by
  have low : (x.extractLsb' 0 31).toNat = fbits x % 2 ^ 31 := by
    rw [fbits_eq, BitVec.extractLsb'_toNat, Nat.shiftRight_zero]
    omega
  have pattern : BitVec.ofNat 32 (fbits x % 2 ^ 31 + g.toNat * 2 ^ 31) = g ++ x.extractLsb' 0 31 := by
    have := g.isLt
    apply BitVec.eq_of_toNat_eq
    rw [BitVec.toNat_append, low, ← Nat.shiftLeft_add_eq_or_of_lt (Nat.mod_lt _ (by decide)), Nat.shiftLeft_eq, BitVec.toNat_ofNat]
    omega
  exact congrArg (BitVec.signExtend 64) pattern

theorem fbits_sign (y : Word) : fbits y / 2 ^ 31 = (y.extractLsb' 31 1).toNat := by
  rw [fbits_eq, BitVec.extractLsb'_toNat, Nat.shiftRight_eq_div_pow]
  omega
theorem not_sign (g : BitVec 1) : 1 - g.toNat = (~~~g).toNat := by revert g; decide

/-- The rounding mode of a unit that does not trap (R98). -/
theorem State.rounded_eq (s : State) {r : BitVec 3} (h : r = 7 → s.cur.fcsr.toNat < 128) (k : Nat → Out) :
    s.rounded r k = k (if r = 7 then s.cur.fcsr.toNat / 32 else r.toNat) := by
  have sound : (r == 7 && frmBroken s.cur) = false := by
    by_cases e : r = 7
    · have := h e
      rw [frmBroken, Ctx.frm, decide_eq_false (by omega), Bool.and_false]
    · rw [beq_eq_false_iff_ne.2 e, Bool.false_and]
  rw [State.rounded, sound, if_neg (by decide)]
  rfl

/-- A unit that writes a result and adds its flags to fcsr. -/
def State.Floats (s : State) (i : Instr) (l : List XReg) (d : XReg) (v : Word × Flags) : Prop :=
  s.misuse l [d] = false → ∃ t : State, exec i s = .next t ∧
    t = (((s.pops l).wr d v.1).onCur fun k => { k with fcsr := k.fcsr ||| v.2.zeroExtend 8 }).retire

theorem floats_putF {s : State} {i : Instr} {l : List XReg} {d : XReg} {v : Word} {f : Flags} {w : Word × Flags}
    (run : exec i s = s.putF l d v f) (result : (v, f) = w) : s.Floats i l d w := by
  subst result
  exact fun ok => ⟨_, run.trans (s.putF_next l d v f ok), rfl⟩

/-- A result without flags (R100). -/
theorem floats_put {s : State} {i : Instr} {l : List XReg} {d : XReg} {v w : Word} (run : exec i s = s.put l d v) (result : v = w) :
    s.Floats i l d (w, 0) := by
  subst result
  refine fun ok => ⟨_, run.trans (s.put_next l d v ok), ?_⟩
  simp [State.retire, State.onCur_onCur]

/-- An f32 result rounded by the unit's mode m. -/
theorem floats_rounded {s : State} {i : Instr} {l : List XReg} {d : XReg} {r : BitVec 3} {m : Nat} {g : Nat → Nat × Flags} {w : Nat × Flags}
    (mode : ∀ k, s.rounded r k = k m) (run : exec i s = s.rounded r fun n => s.putFp l d (g n)) (result : g m = w) :
    s.Floats i l d (fword w.1, w.2) :=
  floats_putF (run.trans (mode _)) (by rw [result])

/-- A NaN and an infinity become the integer that stands for them, invalid (R102). -/
theorem cvtFI_nan {w m x : Nat} {sig : Bool} {nanVal : Int} (h : f32.decode x = .nan sig) : cvtFI f32 w m nanVal x = (nanVal, flNV) := by
  simp only [cvtFI, h]
theorem cvtFI_inf {w m x : Nat} {n : Bool} {nanVal : Int} (h : f32.decode x = .inf n) :
    cvtFI f32 (w + 1) m nanVal x = (if n then -(2 ^ w) else 2 ^ w - 1, flNV) := by
  simp only [cvtFI, h, Nat.add_sub_cancel]

/-- A rounded value becomes an integer of w + 1 bits, saturating (R102). -/
theorem cvtFI_fin {w m x k : Nat} {n : Bool} {e nanVal : Int} (h : f32.decode x = .fin n k e) :
    let v := roundInt m n k e
    let r := cvtFI f32 (w + 1) m nanVal x
    (BitVec.ofInt 64 r.1, r.2) = if v.1 < -(2 ^ w) then (BitVec.ofInt 64 (-(2 ^ w)), flNV)
      else if 2 ^ w ≤ v.1 then (BitVec.ofInt 64 (2 ^ w - 1), flNV) else (BitVec.ofInt 64 v.1, if v.2 then flNX else 0) := by
  have pos : (0 : Int) < 2 ^ w := by positivity
  simp only [cvtFI, h, Nat.add_sub_cancel]
  generalize roundInt m n k e = v
  by_cases low : v.1 < -(2 ^ w)
  · rw [if_neg (by omega), if_pos low, if_pos low]
  · by_cases high : 2 ^ w ≤ v.1
    · rw [if_pos (by omega), if_neg low, if_pos high]
    · rw [if_neg (by omega), if_neg low, if_neg low, if_neg high]

theorem floats_integer {s : State} {i : Instr} {d a : XReg} {r : BitVec 3} {m w : Nat} {nanVal : Int} {q : Word × Flags}
    (mode : ∀ k, s.rounded r k = k m)
    (run : exec i s = s.rounded r fun n =>
      s.putF [a] d (BitVec.ofInt 64 (cvtFI f32 w n nanVal (fbits (s.rd a))).1) (cvtFI f32 w n nanVal (fbits (s.rd a))).2)
    (result : (BitVec.ofInt 64 (cvtFI f32 w m nanVal (fbits (s.rd a))).1, (cvtFI f32 w m nanVal (fbits (s.rd a))).2) = q) :
    s.Floats i [a] d q := floats_putF (run.trans (mode _)) result

/-- Settles O8: each form rounds once, or compares, and writes its result with its flags. -/
theorem floatFormsResult : Obligations.FloatFormsResult := by
  intro s d a b c r sound m f z
  change ∀ q : Instr × List XReg × Word × Flags, q ∈ _ → s.Floats q.1 q.2.1 d q.2.2
  have fv (q : XReg) : fval (s.rd q) = f q := fval_eq _
  have fb (q : XReg) : fbits (s.rd q) = (s.rd q).toNat % 2 ^ 32 := fbits_eq _
  have low : (s.rd a).extractLsb' 0 32 = BitVec.ofNat 32 (s.rd a).toNat := low32_eq _
  have mode (k : Nat → Out) : s.rounded r k = k m := s.rounded_eq sound k
  have round {i : Instr} {l : List XReg} {g : Nat → Nat × Flags} {w : Nat × Flags} (run : exec i s = s.rounded r fun n => s.putFp l d (g n))
      (result : g m = w) : s.Floats i l d (z w) := floats_rounded mode run result
  have choose {i : Instr} {l : List XReg} {v w : Nat × Flags} (run : exec i s = s.putFp l d v) (result : v = w) : s.Floats i l d (z w) :=
    floats_putF run (congrArg z result)
  clear_value z f m
  simp only [List.forall_mem_cons, List.not_mem_nil, false_imp_iff, implies_true, and_true]
  refine ⟨?add, ?sub, ?mul, ?div, ?sqrt, ?fma, ?fromWord, ?fromLong, ?sgnj, ?sgnjn, ?min, ?max, ?eq, ?lt, ?le, ?toWord, ?toLong⟩
  case add => exact round (g := fun n => f32.add n _ _) rfl (by rw [fv, fv])
  case sub => exact round (g := fun n => f32.add n _ _) rfl (by rw [fv, fv])
  case mul => exact round (g := fun n => f32.mul n _ _) rfl (by rw [fv, fv])
  case div => exact round (g := fun n => f32.div n _ _) rfl (by rw [fv, fv])
  case sqrt => exact round (g := fun n => f32.sqrt n _) rfl (by rw [fv])
  case fma => exact round (g := fun n => f32.fma n _ _ _) rfl (by rw [fv, fv, fv])
  case fromWord => exact round (g := fun n => cvtIF f32 n false _) rfl (by rw [low])
  case fromLong => exact round (g := fun n => cvtIF f32 n false _) rfl rfl
  case sgnj => exact floats_put rfl (by rw [fbits_sign, fword_append])
  case sgnjn => exact floats_put rfl (by rw [fbits_sign, not_sign, fword_append])
  case min => exact choose rfl (by rw [fb, fb])
  case max => exact choose rfl (by rw [fb, fb])
  case eq => exact floats_putF rfl (by rw [fv, fv]; rfl)
  case lt => exact floats_putF rfl (by rw [fv, fv]; rfl)
  case le =>
    refine floats_putF rfl ?_
    rw [fv, fv]
    cases (f a).isNan <;> cases (f b).isNan <;> cases (f b).lt (f a) <;> rfl
  case toWord =>
    refine floats_integer mode rfl ?_
    have operand : f32.decode (fbits (s.rd a)) = f a := fv a
    cases h : f a with
    | nan n => rw [cvtFI_nan (operand.trans h)]
    | inf n => rw [cvtFI_inf (operand.trans h)]
    | fin n k e => exact cvtFI_fin (operand.trans h)
  case toLong =>
    refine floats_integer mode rfl ?_
    have operand : f32.decode (fbits (s.rd a)) = f a := fv a
    cases h : f a with
    | nan n => rw [cvtFI_nan (operand.trans h)]
    | inf n => rw [cvtFI_inf (operand.trans h)]
    | fin n k e => exact cvtFI_fin (operand.trans h)

end Sys2Proof.Machine
end

section
/-! PROOF. Scalar loads and the causes of a scalar access (R77, R152, R154): what a load that is let through issues, and where an access traps or
waits for a walk. -/

namespace Sys2Proof.Machine

open Sys2Proof

/-! ## A load that is let through -/

/-- What a load does whose access is let through. -/
def State.Loads (s : State) (d : XReg) (va : Word) (n : Nat) (sx : Bool) (p : Phys) (o : Out) : Prop :=
  ∃ t : State, o = .next t ∧ Issued s t p va (s.pathOf p true va.toNat) (.load n sx (s.cur.dest d)) ∧ Retired s t ∧ SameBytes s t ∧
    SameRegs s t [] ∧ (d ≠ 0 → t.cur.pend.getLsbD (pendBit (s.cur.dest d)) = true) ∧
    t.cur.fe = (if d ≠ 0 ∧ s.cur.mapped d = none ∧ s.pathOf p true va.toNat = 1 then s.cur.fe &&& ~~~(1#48 <<< s.cur.tag d) else s.cur.fe)

theorem Ctx.dest_mapped (c : Ctx) {d : XReg} {m : Nat} (h : d ≠ 0) (mapped : c.mapped d = some m) : c.dest d = 48 + d.toNat := by
  simp only [Ctx.dest, mapped]
  rw [if_neg h]
  rfl

theorem Ctx.dest_zero (c : Ctx) : c.dest 0 = 0 := if_pos rfl

/-- A destination other than x0 has a bit of the scoreboard. -/
theorem Ctx.dest_pends (c : Ctx) {d : XReg} (h : d ≠ 0) : c.dest d ≠ 0 ∧ pendBit (c.dest d) < 48 := by
  have lt := c.tag_lt d
  have pos := c.tag_pos h
  have := d.isLt
  cases m : c.mapped d with
  | none =>
    rw [c.dest_unmapped h m, pendBit, if_neg (by omega)]
    exact ⟨pos.ne', lt⟩
  | some q =>
    rw [c.dest_mapped h m, pendBit, if_pos (by omega)]
    omega

theorem Ctx.await_pend (c : Ctx) {d : XReg} (h : d ≠ 0) (e : Bool) : (c.await (c.dest d) e).pend.getLsbD (pendBit (c.dest d)) = true := by
  obtain ⟨named, lt⟩ := c.dest_pends h
  have pend : (c.await (c.dest d) e).pend = c.pend ||| 1#48 <<< pendBit (c.dest d) := by
    rw [Ctx.await, if_neg named]
    dsimp only
    split <;> rfl
  simp [pend, lt]

/-- A register that a reply over Mortar fills is empty until then; a queue that takes the reply has no such mark (R28, R187). -/
theorem Ctx.await_fe (c : Ctx) (d : XReg) (e : Bool) :
    (c.await (c.dest d) e).fe = if d ≠ 0 ∧ c.mapped d = none ∧ e = true then c.fe &&& ~~~(1#48 <<< c.tag d) else c.fe := by
  by_cases h : d = 0
  · rw [h, Ctx.dest_zero, Ctx.await, if_pos rfl, if_neg (fun g => g.1 rfl)]
  · rw [Ctx.await, if_neg (c.dest_pends h).1]
    cases m : c.mapped d with
    | none =>
      have named : d ≠ 0#4 := h
      cases e <;> simp [c.dest_unmapped h m, c.tag_lt d, named, Ctx.markEmpty]
    | some q => simp [c.dest_mapped h m]

theorem State.scalarLoad_loads (s : State) {d a : XReg} {va : Word} {n g : Nat} {sx h : Bool} {p : Phys} (ok : s.misuse [a] [d] = false)
    (acc : s.access s.iss.core va n n false (if n = 8 then [0, 1, 2] else [0, 1]) true false = .ok p g h) (free : s.holdsBack p.key n = false) :
    s.Loads d va n sx p (s.scalarLoad d a va n sx) := by
  have keeps := s.cur.await_keeps (s.cur.dest d) (false || s.pathOf p true va.toNat == 1)
  refine ⟨_, s.loadAs_next ok acc free, issued_after_pops (l := [a]) (acq := 0) rfl rfl, ?_, fun x => ?_, sameRegs_retire fun r _ => ?_,
    fun named => ?_, ?_⟩
  · refine retired_retire ?_ ?_ ?_
    · rw [State.onCur_iss, State.issueReq_iss, State.pops_iss]
    · rw [State.cur_onCur, State.issueReq_cur, State.pops_cur, keeps.1]
    · rw [State.cur_onCur, State.issueReq_cur, State.pops_cur, keeps.2.1]
  · rw [State.retire, State.onCur_mem, State.onCur_mem, State.issueReq_mem, (s.pops_world [a]).mem]
  · rw [State.cur_onCur, State.issueReq_cur, State.pops_cur, Ctx.regAt, keeps.2.2.2, Ctx.regAt]
  · rw [State.retire_cur, Ctx.retire_pend, State.cur_onCur, State.issueReq_cur, State.pops_cur]
    exact s.cur.await_pend named _
  · rw [State.retire_cur, Ctx.retire_fe, State.cur_onCur, State.issueReq_cur, State.pops_cur, Ctx.await_fe]
    simp

/-- Settles O12: a compressed load is its expansion, with an offset that is not negative; every load is `scalarLoad`. -/
theorem loadsIssue : Obligations.LoadsIssue := by
  intro s d a e f i j k p g h va
  have o4 := congrArg (s.rd (1#1 ++ f) + ·) (immI_off4 (by decide) j)
  have o8 := congrArg (s.rd (1#1 ++ f) + ·) (immI_off8 (by decide) j)
  have p4 := congrArg (s.rd 2 + ·) (immI_off4 (by decide) k)
  have p8 := congrArg (s.rd 2 + ·) (immI_off8 (by decide) k)
  simp only [List.forall_mem_cons, List.not_mem_nil, false_imp_iff, implies_true, and_true]
  refine ⟨s.scalarLoad_loads, s.scalarLoad_loads, s.scalarLoad_loads, s.scalarLoad_loads, s.scalarLoad_loads, s.scalarLoad_loads,
    s.scalarLoad_loads, ?_, ?_, ?_, ?_⟩
  · rw [← o4]; exact s.scalarLoad_loads
  · rw [← o8]; exact s.scalarLoad_loads
  · rw [← p4]; exact s.scalarLoad_loads
  · rw [← p8]; exact s.scalarLoad_loads

/-! ## Causes in order (R152) -/

/-- The first check of an access that fails: what it comes to. -/
theorem State.access_misaligned (s : State) {me n k : Nat} {va : Word} {w : Bool} {l : List Nat} {gl so : Bool} (h : va.toNat % k ≠ 0) :
    s.access me va n k w l gl so = .trap 3 := if_pos h

section
variable {s : State} {me n k : Nat} {va : Word} {w : Bool} {l : List Nat} (aligned : va.toNat % k = 0)
include aligned

theorem State.access_nowhere (place : classify me va = .none) : s.access me va n k w l true false = .trap 4 := by
  rw [State.access, if_neg (not_not.2 aligned), place]

theorem State.access_stranger {c r o : Nat} (place : classify me va = .window c r o) (out : c ∉ (s.teamOf me).cores) :
    s.access me va n k w l true false = .trap 4 := by
  rw [State.access, if_neg (not_not.2 aligned), place]
  simp [out]

theorem State.access_missing {v : Nat} (place : classify me va = .global v) (found : s.translate (me / 16) (s.teamOf me).vf v = none) :
    s.access me va n k w l true false = .miss v := by
  rw [State.access, if_neg (not_not.2 aligned), place]
  simp [found]

theorem State.access_readonly {v : Nat} {p : Phys} (place : classify me va = .global v)
    (found : s.translate (me / 16) (s.teamOf me).vf v = some p) (store : w = true) (page : p.write = false) :
    s.access me va n k w l true false = .trap 6 := by
  rw [State.access, if_neg (not_not.2 aligned), place]
  simp [found, store, page]

theorem State.access_sealed {v : Nat} {p : Phys} (place : classify me va = .global v)
    (found : s.translate (me / 16) (s.teamOf me).vf v = some p) (may : w = true → p.write = true) (page : p.slot ≠ 0) :
    s.access me va n k w l true false = .trap 0x13 := by
  have permitted : (w && !p.write) = false := by
    cases w
    · rfl
    · simp [may rfl]
  rw [State.access, if_neg (not_not.2 aligned), place]
  simp [found, permitted, page]

end

/-- A unit whose access of n bytes ends it by the first cause that holds. -/
def State.Refuses (s : State) (va : Word) (n : Nat) (w : Bool) (o : Out) : Prop :=
  (va.toNat % n ≠ 0 → o = .next (s.trap 3 va)) ∧
  (va.toNat % n = 0 → classify s.iss.core va = .none → o = .next (s.trap 4 va)) ∧
  (∀ c r b, va.toNat % n = 0 → classify s.iss.core va = .window c r b → c ∉ (s.teamOf s.iss.core).cores → o = .next (s.trap 4 va)) ∧
  (∀ v, va.toNat % n = 0 → classify s.iss.core va = .global v → s.translate (s.iss.core / 16) (s.teamOf s.iss.core).vf v = none →
    o = .next (s.walkCur v w)) ∧
  (∀ v p, va.toNat % n = 0 → classify s.iss.core va = .global v → s.translate (s.iss.core / 16) (s.teamOf s.iss.core).vf v = some p →
    w = true → p.write = false → o = .next (s.trap 6 va)) ∧
  (∀ v p, va.toNat % n = 0 → classify s.iss.core va = .global v → s.translate (s.iss.core / 16) (s.teamOf s.iss.core).vf v = some p →
    (w = true → p.write = true) → p.slot ≠ 0 → o = .next (s.trap 0x13 va))

theorem State.withAccess_refuses (s : State) (va : Word) (n : Nat) (w : Bool) (l : List Nat) (k : Phys → Nat → Bool → State) :
    s.Refuses va n w (s.withAccess va n n w l true false k) := by
  have trap {c : Nat} (h : s.access s.iss.core va n n w l true false = .trap c) :
      s.withAccess va n n w l true false k = .next (s.trap c va) := by
    simp only [State.withAccess, h]
    rfl
  have walk {v : Nat} (h : s.access s.iss.core va n n w l true false = .miss v) :
      s.withAccess va n n w l true false k = .next (s.walkCur v w) := by
    simp only [State.withAccess, h]
  exact ⟨fun h => trap (s.access_misaligned h), fun al pl => trap (State.access_nowhere al pl),
    fun _ _ _ al pl out => trap (State.access_stranger al pl out), fun _ al pl found => walk (State.access_missing al pl found),
    fun _ _ al pl found st pg => trap (State.access_readonly al pl found st pg),
    fun _ _ al pl found may pg => trap (State.access_sealed al pl found may pg)⟩

theorem State.scalarLoad_refuses (s : State) {d a : XReg} {va : Word} {n : Nat} {sx : Bool} (ok : s.misuse [a] [d] = false) :
    s.Refuses va n false (s.scalarLoad d a va n sx) := by
  rw [State.scalarLoad, State.loadAs, ok, if_neg (by decide)]
  exact s.withAccess_refuses ..

theorem State.scalarStore_refuses (s : State) {b a : XReg} {va : Word} {n : Nat} (ok : s.misuse [a, b] [] = false) :
    s.Refuses va n true (s.scalarStore b a va n) := by
  rw [State.scalarStore, ok, if_neg (by decide)]
  exact s.withAccess_refuses ..

/-- Settles O14: each unit is a scalar load or store, whose access refuses it. -/
theorem accessCausesInOrder : Obligations.AccessCausesInOrder := by
  intro s d a i va
  change ∀ q : Instr × List XReg × List XReg × Nat × Bool, q ∈ _ → s.misuse q.2.1 q.2.2.1 = false →
    s.Refuses va q.2.2.2.1 q.2.2.2.2 (exec q.1 s)
  simp only [List.forall_mem_cons, List.not_mem_nil, false_imp_iff, implies_true, and_true]
  exact ⟨s.scalarLoad_refuses, s.scalarLoad_refuses, s.scalarLoad_refuses, s.scalarStore_refuses, s.scalarStore_refuses,
    s.scalarStore_refuses⟩

end Sys2Proof.Machine
end

section
/-! PROOF. Handler control (R166, R188 to R190, R314), breakpoints with the common trigger (R165, R376), and the state at reset. -/

namespace Sys2Proof.Machine

open Sys2Proof

/-! ## Handlers -/

/-- Settles O29: the returns name the thread's own registers again; HMASK and HSET change their context alone. -/
theorem handlerControlResult : Obligations.HandlerControlResult := by
  intro s a e v
  have other : (s.here.ctxs.any fun x => x.1 != s.iss.ctx && x.2.mben) = true ↔ ∃ x ∈ s.here.ctxs, x.1 ≠ s.iss.ctx ∧ x.2.mben = true := by
    simp
  refine ⟨fun em => ?_, fun out => ?_, fun out lh => ?_, fun out => ?_, ?_, fun ok free => ?_, fun ok one held => ?_, rfl⟩
  · exact ⟨s.onCur Ctx.leaveEmulation, if_pos em, by simp [Ctx.leaveEmulation], by simp [Ctx.leaveEmulation], by simp [Ctx.leaveEmulation],
      by simp [Ctx.leaveEmulation], by simp [Ctx.leaveEmulation], by simp [Ctx.leaveEmulation], fun _ => rfl⟩
  · exact if_neg (by simp [out])
  · exact ⟨s.onCur Ctx.leaveLight, if_neg (by simp [out, lh]), by simp [Ctx.leaveLight], by simp [Ctx.leaveLight], by simp [Ctx.leaveLight],
      by simp [Ctx.leaveLight], fun _ => rfl⟩
  · exact if_pos (by obtain h | h := out <;> simp [h])
  · obtain ⟨t, run, cur, retired, frame⟩ := s.alter_unit (l := []) (hide := fun c => { c with hm := false })
      (f := fun c => { c with hm := v == 1 }) rfl ⟨rfl, rfl, rfl, rfl, rfl⟩ rfl
    exact ⟨t, run, by rw [cur, Ctx.retire_hm], retired, frame⟩
  · obtain ⟨t, run, cur, retired, frame⟩ := s.alter_unit (hide := fun c => { c with hvec := 0, mben := false })
      (f := fun c => { c with hvec := s.rd a &&& ~~~1#64, mben := e == 1 }) ok ⟨rfl, rfl, rfl, rfl, rfl⟩ rfl
    have granted : (e == 1 && s.here.ctxs.any fun x => x.1 != s.iss.ctx && x.2.mben) = false := by
      obtain rfl | alone := free
      · rfl
      · rw [Bool.and_eq_false_iff, ← Bool.not_eq_true, ← Bool.not_eq_true, other]
        exact .inr fun ⟨x, mem, ne, held⟩ => (alone x mem).elim ne (by simp [held])
    exact ⟨t, (if_neg (by rw [ok, granted]; decide)).trans run, by rw [cur, Ctx.retire_hvec], by rw [cur, Ctx.retire_mben], retired, frame⟩
  · refine if_pos ?_
    rw [other.2 held, one]
    simp

/-! ## Breakpoints -/

theorem missedUp_counts {w : Word} (h : bitsOf w 31 24 < 255) : bitsOf (missedUp w) 31 24 = bitsOf w 31 24 + 1 := by
  rw [missedUp, if_neg h.ne]
  simp only [bitsOf] at h ⊢
  rw [BitVec.toNat_add]
  have := w.isLt
  simp
  omega

/-- A source that is not enabled, or has fired in this cycle, does nothing (R376). -/
theorem State.fire_idle {s : State} {i : Nat} (h : s.snapctl.getLsbD i = false ∨ s.due.getLsbD i = true) : s.fire i = s := by
  refine if_pos ?_
  obtain h | h := h <;> simp [h]

/-- One that is fires: it is noted, and counts as missed while the network is not armed. -/
theorem State.fire_noted {s : State} {i : Nat} (on : s.snapctl.getLsbD i = true) (first : s.due.getLsbD i = false) :
    s.fire i = { s with due := s.due ||| (1#4 <<< i), snapctl := if s.armed then s.snapctl else missedUp s.snapctl } :=
  if_neg (by simp [on, first])

theorem State.fire_frame (s : State) (i : Nat) : ∃ q w, s.fire i = { s with due := q, snapctl := w } := by
  unfold State.fire
  split
  · exact ⟨s.due, s.snapctl, rfl⟩
  · exact ⟨_, _, rfl⟩

theorem State.fire_due (s : State) {i : Nat} (h : i < 4) :
    (s.fire i).due.getLsbD i = true ↔ s.due.getLsbD i = true ∨ s.snapctl.getLsbD i = true := by
  by_cases idle : s.snapctl.getLsbD i = false ∨ s.due.getLsbD i = true
  · rw [State.fire_idle idle]
    obtain off | fired := idle
    · simp [off]
    · simp [fired]
  · obtain ⟨on, first⟩ : s.snapctl.getLsbD i = true ∧ s.due.getLsbD i = false := by simpa using idle
    rw [State.fire_noted on first]
    simp [on, h]

theorem State.fire_armed {s : State} (i : Nat) (h : s.armed = true) : (s.fire i).snapctl = s.snapctl := by
  by_cases idle : s.snapctl.getLsbD i = false ∨ s.due.getLsbD i = true
  · rw [State.fire_idle idle]
  · obtain ⟨on, first⟩ : s.snapctl.getLsbD i = true ∧ s.due.getLsbD i = false := by simpa using idle
    rw [State.fire_noted on first]
    exact if_pos h

/-- The src bits of the sources that have fired (R376). -/
theorem srcSet_foldl (q : BitVec 4) {i : Nat} (lt : i < 4) (l : List Nat) :
    ∀ w : Word, (i ∈ l ∧ q.getLsbD i = true) ∨ w.getLsbD (8 + i) = true →
      (l.foldl (fun w i => if q.getLsbD i then srcSet w i else w) w).getLsbD (8 + i) = true := by
  induction l with
  | nil => intro w h; simpa using h
  | cons j l ih =>
    intro w h
    refine ih _ ?_
    change _ ∨ (if q.getLsbD j then srcSet w j else w).getLsbD (8 + i) = true
    by_cases same : i = j
    · subst same
      right
      by_cases fired : q.getLsbD i = true
      · rw [if_pos fired, srcSet, BitVec.getLsbD_or]
        simp
        omega
      · rw [if_neg fired]
        exact h.resolve_left fun g => fired g.2
    · obtain ⟨mem, fired⟩ | set := h
      · exact .inl ⟨(List.mem_cons.1 mem).resolve_left same, fired⟩
      · right
        split
        · rw [srcSet, BitVec.getLsbD_or, set, Bool.true_or]
        · exact set

/-- A source that fires while the network is not armed counts as missed, up to the width of the count. -/
theorem State.fire_missed {s : State} {i : Nat} (off : s.armed = false) (on : s.snapctl.getLsbD i = true) (first : s.due.getLsbD i = false)
    (few : bitsOf s.snapctl 31 24 < 255) : bitsOf (s.fire i).snapctl 31 24 = bitsOf s.snapctl 31 24 + 1 := by
  have counted : (s.fire i).snapctl = missedUp s.snapctl := by
    rw [State.fire_noted on first]
    exact if_neg (by simp [off])
  rw [counted, missedUp_counts few]

theorem State.threadFault_trigger (s : State) (n x cause : Nat) (v upc : Word) :
    (s.threadFault n x cause v upc).armed = s.armed ∧ (s.threadFault n x cause v upc).due = s.due ∧
      (s.threadFault n x cause v upc).snapctl = s.snapctl ∧ (s.threadFault n x cause v upc).iss = s.iss :=
  ⟨rfl, rfl, rfl, rfl⟩

theorem State.snapEnd_latches {s : State} (armed : s.armed = true) (fired : s.due ≠ 0) :
    s.snapEnd = { s.latchAll with
      armed := false, due := 0, snapctl := (List.range 4).foldl (fun w i => if s.due.getLsbD i then srcSet w i else w) s.snapctl } := by
  simp only [State.snapEnd, if_neg fired, armed, Bool.not_true, Bool.false_eq_true, if_false]

theorem exec_breakpoint {i : Instr} (unit : i ∈ ([.ebreak, .cEbreak] : List Instr)) (s : State) :
    exec i s = .next ((s.threadFault s.iss.core s.iss.ctx 0x10 0 s.iss.upc).fire 0) := by
  obtain rfl | rfl : i = .ebreak ∨ i = .cEbreak := by simpa using unit
  · rfl
  · rfl

/-- Settles O31: the two encodings are one breakpoint, a team fault that then fires; the end of the cycle latches what has fired. -/
theorem breakpointResult : Obligations.BreakpointResult := by
  intro s
  refine ⟨fun i unit => ⟨_, exec_breakpoint unit s, ?_⟩, fun armed fired => ?_⟩
  · obtain ⟨memory, raised, context⟩ := s.threadFault_raises s.iss.core s.iss.ctx 0x10 0 s.iss.upc
    obtain ⟨armed, due, snapctl, iss⟩ := s.threadFault_trigger s.iss.core s.iss.ctx 0x10 0 s.iss.upc
    generalize s.threadFault s.iss.core s.iss.ctx 0x10 0 s.iss.upc = f at *
    have cur : (f.fire 0).cur = { s.cur with st := .ending } := by
      obtain ⟨q, w, frame⟩ := f.fire_frame 0
      rw [frame]
      change f.ctxAt f.iss.core f.iss.ctx = _
      rw [iss, context, State.cur]
    have rest : (f.fire 0).mem = f.mem ∧ (f.fire 0).raised = f.raised ∧ (f.fire 0).armed = f.armed := by
      obtain ⟨q, w, frame⟩ := f.fire_frame 0
      rw [frame]
      exact ⟨rfl, rfl, rfl⟩
    obtain ⟨sameMem, sameRaised, sameArmed⟩ := rest
    rw [← armed, ← due, ← snapctl]
    exact ⟨by rw [cur], by rw [cur], by rw [cur], fun a => by rw [sameMem, memory], sameRaised.trans raised, sameArmed, f.fire_due (by decide),
      State.fire_armed 0, State.fire_missed⟩
  · rw [State.snapEnd_latches armed fired]
    exact ⟨rfl, rfl, fun i lt on => srcSet_foldl s.due lt _ _ (.inl ⟨List.mem_range.2 lt, on⟩), rfl, _, rfl, rfl, rfl⟩

/-! ## Reset -/

/-- Settles O60: by what the tables of the state at reset, all empty, read as. -/
theorem resetState : Obligations.ResetState := by
  refine ⟨rfl, fun a h => if_neg (Nat.not_le.2 h), fun n x => ⟨rfl, rfl, rfl, rfl, rfl, rfl, rfl, rfl, rfl, rfl, rfl, rfl, rfl, ?_, rfl⟩,
    fun p k => ⟨?_, rfl⟩, rfl, rfl, rfl, rfl, rfl, rfl, rfl, rfl, rfl, rfl, rfl, rfl⟩
  · have guards : ∀ g : GReg, Ctx.empty.guard g = (g == 0) := by decide
    exact guards
  · simp [State.partState, State.reset, tabGet, bitsOf]

end Sys2Proof.Machine
end

section
/-! PROOF. CSR instructions (R167, R168): the registers that are fields of the context, a write of qcfg that maps nothing new, and the read-only
registers. -/

namespace Sys2Proof.Machine

open Sys2Proof

/-! ## Registers that are fields of the context -/

/-- Their numbers. -/
def plainCsrs : List Nat := [0x001, 0x002, 0x003, 0x800, 0x801, 0x802, 0x803, 0x804, 0x806, 0x807, 0x808]

/-- What each reads as, and the context after a write of it. -/
def Ctx.csrOf (c : Ctx) : Nat → Word
  | 0x001 => BitVec.ofNat 64 (c.fcsr.toNat % 32)
  | 0x002 => BitVec.ofNat 64 (c.fcsr.toNat / 32)
  | 0x003 => c.fcsr.zeroExtend 64
  | 0x800 => c.hvec
  | 0x801 => c.hepc
  | 0x802 => c.hcause
  | 0x803 => BitVec.ofNat 64 (c.trig.length * 16 + if c.hm then 1 else 0)
  | 0x804 => c.istk
  | 0x806 => c.emepc
  | 0x807 => c.emcause
  | 0x808 => c.emval
  | _ => 0
def Ctx.csrSet (n : Nat) (v : Word) (c : Ctx) : Ctx :=
  match n with
  | 0x001 => { c with fcsr := BitVec.ofNat 8 (c.fcsr.toNat / 32 * 32 + v.toNat % 32) }
  | 0x002 => { c with fcsr := BitVec.ofNat 8 (v.toNat % 8 * 32 + c.fcsr.toNat % 32) }
  | 0x003 => { c with fcsr := v.truncate 8 }
  | 0x800 => { c with hvec := v &&& ~~~1#64 }
  | 0x801 => { c with hepc := v &&& ~~~1#64 }
  | 0x802 => { c with hcause := v &&& 3 }
  | 0x803 => { c with hm := v.getLsbD 0 }
  | 0x804 => { c with istk := v &&& istkMask }
  | 0x806 => { c with emepc := v &&& ~~~1#64 }
  | 0x807 => { c with emcause := v &&& 0xFF }
  | 0x808 => { c with emval := v }
  | _ => c

/-- What the unit asks of such a register. -/
structure PlainCsr (c : BitVec 12) : Prop where
  allowed : ∀ writes, csrAllowed writes c = true
  waits : (c == 0x805) = false ∧ (c == 0x809) = false
  reads : ∀ s : State, s.csr c = s.cur.csrOf c.toNat
  writes : ∀ (s : State) (v : Word), s.csrWrite c v = some (s.onCur (Ctx.csrSet c.toNat v))

theorem plainCsr_of_mem {c : BitVec 12} (h : c.toNat ∈ plainCsrs) : PlainCsr c := by
  have cases : c = 0x001 ∨ c = 0x002 ∨ c = 0x003 ∨ c = 0x800 ∨ c = 0x801 ∨ c = 0x802 ∨ c = 0x803 ∨ c = 0x804 ∨ c = 0x806 ∨ c = 0x807 ∨
      c = 0x808 := by
    simpa [plainCsrs, BitVec.toNat_eq] using h
  rcases cases with rfl | rfl | rfl | rfl | rfl | rfl | rfl | rfl | rfl | rfl | rfl <;>
    exact ⟨by decide, by decide, fun _ => rfl, fun _ _ => rfl⟩

theorem PlainCsr.csrWaits {c : BitVec 12} (plain : PlainCsr c) (s : State) : s.csrWaits c = false := by
  rw [State.csrWaits, plain.waits.1, plain.waits.2]
  rfl

/-- None of them is among what a unit on registers may change. -/
theorem Ctx.csrOf_body (c : Ctx) (n : Nat) : c.body.csrOf n = c.csrOf n := by
  unfold Ctx.csrOf
  split <;> rfl

theorem Ctx.csrSet_body (c : Ctx) (n : Nat) (v : Word) : (c.csrSet n v).body = c.body.csrSet n v := by
  unfold Ctx.csrSet
  split <;> rfl

theorem Ctx.csrSet_file (n : Nat) (v : Word) (c : Ctx) :
    (c.csrSet n v).x = c.x ∧ (c.csrSet n v).frame = c.frame ∧ (c.csrSet n v).instret = c.instret := by
  unfold Ctx.csrSet
  split <;> exact ⟨rfl, rfl, rfl⟩

/-! ## A unit on one of them -/

/-- The context after a unit that reads the register, and writes it or not. -/
def Ctx.csrDone (c : Ctx) (n : Nat) (writes : Bool) (v : Word) : Ctx := if writes then c.csrSet n v else c

theorem State.csrOp_plain {s : State} {c : BitVec 12} (plain : PlainCsr c) {l : List XReg} {d : XReg} (ok : s.misuse l [d] = false)
    (writes : Bool) (new : Word → Word) :
    ∃ u : State, s.csrOp l d writes c new = .next u.retire ∧ u.iss = s.iss ∧ u.mem = s.mem ∧
      u.cur = ((s.pops l).wr d (s.csr c)).cur.csrDone c.toNat writes (new (s.csr c)) := by
  have iss : ((s.pops l).wr d (s.csr c)).iss = s.iss := by rw [State.wr_iss, State.pops_iss]
  have mem : ((s.pops l).wr d (s.csr c)).mem = s.mem := by simp
  cases writes with
  | true =>
    refine ⟨((s.pops l).wr d (s.csr c)).onCur (Ctx.csrSet c.toNat (new (s.csr c))), ?_, iss, mem, State.cur_onCur ..⟩
    simp [State.csrOp, plain.allowed, ok, plain.csrWaits, plain.writes]
  | false =>
    refine ⟨(s.pops l).wr d (s.csr c), ?_, iss, mem, rfl⟩
    simp [State.csrOp, plain.allowed, ok]

theorem Ctx.csrDone_file (n : Nat) (w : Bool) (v : Word) (c : Ctx) :
    (c.csrDone n w v).x = c.x ∧ (c.csrDone n w v).frame = c.frame ∧ (c.csrDone n w v).instret = c.instret := by
  cases w with
  | true => exact Ctx.csrSet_file n v c
  | false => exact ⟨rfl, rfl, rfl⟩

theorem Ctx.csrDone_body (c : Ctx) (n : Nat) (w : Bool) (v : Word) : (c.csrDone n w v).body = c.body.csrDone n w v := by
  cases w with
  | true => exact c.csrSet_body n v
  | false => rfl

/-- What the unit is to do: the old value goes to the destination, no other register changes, and the register holds what was written. -/
def State.CsrDone (s t : State) (d : XReg) (c : BitVec 12) (writes : Bool) (v : Word) : Prop :=
  Retired s t ∧ SameBytes s t ∧ (s.cur.mapped d = none → d ≠ 0 → t.cur.regAt (s.cur.tag d) = s.csr c) ∧
    (∀ r, r ≠ s.cur.tag d → t.cur.regAt r = s.cur.regAt r) ∧ t.cur.body = (s.cur.csrDone c.toNat writes v).body

theorem State.csrOp_done {s : State} {c : BitVec 12} (plain : PlainCsr c) {l : List XReg} {d : XReg} (ok : s.misuse l [d] = false)
    (writes : Bool) (new : Word → Word) :
    ∃ t : State, s.csrOp l d writes c new = .next t ∧ s.CsrDone t d c writes (new (s.csr c)) := by
  obtain ⟨u, run, iss, mem, cur⟩ := State.csrOp_plain plain ok writes new
  have popped : (s.pops l).cur = s.cur := s.pops_cur l
  obtain ⟨x, frame, instret⟩ := Ctx.csrDone_file c.toNat writes (new (s.csr c)) ((s.pops l).wr d (s.csr c)).cur
  obtain ⟨-, -, -, wrBody, same, -⟩ := unitFrame_wr id (s.pops l) d (s.csr c)
  obtain ⟨-, wrFrame, wrInstret, -⟩ := (s.pops l).wr_keeps d (s.csr c)
  have regs (r : Nat) : u.retire.cur.regAt r = ((s.pops l).wr d (s.csr c)).cur.regAt r := by
    rw [State.retire_cur, Ctx.retire_regAt, cur, Ctx.regAt, x, Ctx.regAt]
  refine ⟨_, run, retired_retire iss ?_ ?_, fun a => by rw [State.retire_mem, mem], fun free named => ?_, fun r other => ?_, ?_⟩
  · rw [cur, frame, wrFrame, popped]
  · rw [cur, instret, wrInstret, popped]
  · rw [regs, State.wr_unmapped _ _ (by rw [popped, free]), State.cur_onCur, popped, Ctx.regAt_setReg_same _ _ named]
  · rw [regs, same r (by simpa [popped] using other), popped]
  · rw [State.retire_cur, cur, Ctx.retire_body, Ctx.csrDone_body, Ctx.csrDone_body, ← popped]
    exact congrArg (Ctx.csrDone · c.toNat writes (new (s.csr c))) wrBody

/-! ## What each reads after a write -/

theorem frm_kept (f : BitVec 8) : f &&& 0xE0#8 = BitVec.ofNat 8 (f.toNat / 32 * 32) := by revert f; decide
theorem flags_kept (f : BitVec 8) : f &&& 0x1F#8 = BitVec.ofNat 8 (f.toNat % 32) := by revert f; decide
theorem frm_moved (f : BitVec 8) : f <<< 5 = BitVec.ofNat 8 (f.toNat % 8 * 32) := by revert f; decide
theorem frm_flags (f g : BitVec 8) : f &&& 0xE0#8 ||| g &&& 0x1F#8 = BitVec.ofNat 8 (f.toNat / 32 * 32 + g.toNat % 32) := by
  have apart : (f &&& 0xE0#8) &&& (g &&& 0x1F#8) = 0#8 := by
    rw [BitVec.and_comm g, ← BitVec.and_assoc, BitVec.and_assoc f, show (0xE0#8) &&& 0x1F#8 = 0#8 from rfl, BitVec.and_zero, BitVec.zero_and]
  rw [← BitVec.add_eq_or_of_and_eq_zero _ _ apart, frm_kept, flags_kept, ← BitVec.ofNat_add]

theorem frm_shifted (f g : BitVec 8) : f &&& 0x1F#8 ||| g <<< 5 = BitVec.ofNat 8 (g.toNat % 8 * 32 + f.toNat % 32) := by
  have apart : (f &&& 0x1F#8) &&& (g <<< 5) = 0#8 := by
    have low : 0x1F#8 &&& (g <<< 5) = 0#8 := by revert g; decide
    rw [BitVec.and_assoc, low, BitVec.and_zero]
  rw [← BitVec.add_eq_or_of_and_eq_zero _ _ apart, frm_moved, flags_kept, ← BitVec.ofNat_add, Nat.add_comm]

/-- The clauses of the statement on the register itself. -/
def State.CsrHolds (s t : State) (c : BitVec 12) (v : Word) : Prop :=
  (c.toNat = 0x001 → t.cur.fcsr = s.cur.fcsr &&& 0xE0 ||| (v.truncate 8 &&& 0x1F)) ∧
  (c.toNat = 0x002 → t.cur.fcsr = s.cur.fcsr &&& 0x1F ||| (v.truncate 8 <<< 5)) ∧
  (c.toNat = 0x003 → t.cur.fcsr = v.truncate 8) ∧
  (c.toNat ∈ [0x800, 0x801, 0x806] → t.csr c = v &&& ~~~1#64) ∧
  (c.toNat = 0x802 → t.csr c = v &&& 3) ∧
  (c.toNat = 0x803 → t.cur.hm = v.getLsbD 0 ∧ t.cur.trig = s.cur.trig) ∧
  (c.toNat = 0x804 → t.csr c = v &&& 0x3F801) ∧
  (c.toNat = 0x807 → t.csr c = v &&& 0xFF) ∧ (c.toNat = 0x808 → t.csr c = v)

theorem State.csrHolds_of_done {s t : State} {c : BitVec 12} (plain : PlainCsr c) {v : Word}
    (done : t.cur.body = (s.cur.csrSet c.toNat v).body) : s.CsrHolds t c v := by
  have reads : t.csr c = (s.cur.csrSet c.toNat v).csrOf c.toNat := by
    rw [plain.reads, ← Ctx.csrOf_body, done, Ctx.csrOf_body]
  have flags : t.cur.fcsr = (s.cur.csrSet c.toNat v).fcsr := (congrArg Ctx.fcsr done :)
  have masks : t.cur.hm = (s.cur.csrSet c.toNat v).hm := (congrArg Ctx.hm done :)
  have triggers : t.cur.trig = (s.cur.csrSet c.toNat v).trig := (congrArg Ctx.trig done :)
  refine ⟨fun n => ?_, fun n => ?_, fun n => ?_, fun n => ?_, fun n => ?_, fun n => ?_, fun n => ?_, fun n => ?_, fun n => ?_⟩
  · refine Eq.trans ?_ (frm_flags ..).symm
    rw [flags, n]
    simp [Ctx.csrSet]
  · refine Eq.trans ?_ (frm_shifted ..).symm
    rw [flags, n]
    simp [Ctx.csrSet]
  · rw [flags, n]; rfl
  · simp only [List.mem_cons, List.not_mem_nil, or_false] at n
    obtain n | n | n := n
    · rw [reads, n]; rfl
    · rw [reads, n]; rfl
    · rw [reads, n]; rfl
  · rw [reads, n]; rfl
  · rw [masks, triggers, n]
    exact ⟨rfl, rfl⟩
  · rw [reads, n]; rfl
  · rw [reads, n]; rfl
  · rw [reads, n]; rfl

/-! ## The six forms -/

theorem exec_csrrw (d a : XReg) (c : BitVec 12) (s : State) : exec (.csrrw d a c) s = s.csrOp [a] d true c fun _ => s.rd a := rfl
theorem exec_csrrs (d a : XReg) (c : BitVec 12) (s : State) : exec (.csrrs d a c) s = s.csrOp [a] d (a != 0) c fun t => t ||| s.rd a := rfl
theorem exec_csrrc (d a : XReg) (c : BitVec 12) (s : State) : exec (.csrrc d a c) s = s.csrOp [a] d (a != 0) c fun t => t &&& ~~~s.rd a := rfl
theorem exec_csrrwi (d : XReg) (u : BitVec 5) (c : BitVec 12) (s : State) :
    exec (.csrrwi d u c) s = s.csrOp [] d true c fun _ => u.zeroExtend 64 := rfl
theorem exec_csrrsi (d : XReg) (u : BitVec 5) (c : BitVec 12) (s : State) :
    exec (.csrrsi d u c) s = s.csrOp [] d (u != 0) c fun t => t ||| u.zeroExtend 64 := rfl
theorem exec_csrrci (d : XReg) (u : BitVec 5) (c : BitVec 12) (s : State) :
    exec (.csrrci d u c) s = s.csrOp [] d (u != 0) c fun t => t &&& ~~~(u.zeroExtend 64) := rfl

/-- One form on such a register, as the statement has it. -/
def State.CsrForm (s : State) (d : XReg) (c : BitVec 12) (i : Instr) (writes : Bool) (v : Word) : Prop :=
  ∃ t : State, exec i s = .next t ∧ Retired s t ∧ SameBytes s t ∧
    (s.cur.mapped d = none → d ≠ 0 → t.cur.regAt (s.cur.tag d) = s.csr c) ∧
    (∀ r, r ≠ s.cur.tag d → t.cur.regAt r = s.cur.regAt r) ∧ (writes = false → t.csr c = s.csr c) ∧ (writes = true → s.CsrHolds t c v)

theorem csrForm_of_csrOp {s : State} {c : BitVec 12} (plain : PlainCsr c) {l : List XReg} {d : XReg} {i : Instr} {writes : Bool}
    {new : Word → Word} {v : Word} (run : exec i s = s.csrOp l d writes c new) (value : v = new (s.csr c)) (ok : s.misuse l [d] = false) :
    s.CsrForm d c i writes v := by
  subst value
  obtain ⟨t, op, retired, bytes, dest, rest, csrs⟩ := State.csrOp_done plain ok writes new
  refine ⟨t, run.trans op, retired, bytes, dest, rest, fun kept => ?_, fun written => ?_⟩
  · subst kept
    rw [plain.reads, plain.reads, ← Ctx.csrOf_body, csrs]
    exact Ctx.csrOf_body ..
  · subst written
    exact State.csrHolds_of_done plain csrs

/-- A unit that misuses nothing with a source misuses nothing without it. -/
theorem State.misuse_drop {s : State} {a d : XReg} (ok : s.misuse [a] [d] = false) : s.misuse [] [d] = false := by
  unfold State.misuse at ok ⊢
  simp_all

/-! ## The read-only registers -/

theorem csrReadOnly_reads {c : BitVec 12} (h : c.toNat ∈ [0xC00, 0xC02, 0xCC0, 0xCC1, 0xCC2]) :
    csrAllowed false c = true ∧ csrAllowed true c = false := by
  have cases : c = 0xC00 ∨ c = 0xC02 ∨ c = 0xCC0 ∨ c = 0xCC1 ∨ c = 0xCC2 := by simpa [BitVec.toNat_eq] using h
  obtain rfl | rfl | rfl | rfl | rfl := cases <;> decide

theorem csrrs_zero {s : State} {c : BitVec 12} {d : XReg} (allowed : csrAllowed false c = true) (ok : s.misuse [] [d] = false) :
    exec (.csrrs d 0 c) s = .next (s.wr d (s.csr c)).retire := by
  have popped : s.pops [0] = s := rfl
  have used : s.misuse [0] [d] = false := (s.misuse_cons_plain rfl ..).trans ok
  rw [exec_csrrs, show ((0 : XReg) != 0) = false from rfl, State.csrOp, allowed, used, popped]
  rfl

theorem csrrw_readOnly {s : State} {c : BitVec 12} (d a : XReg) (refused : csrAllowed true c = false) :
    exec (.csrrw d a c) s = .next (s.trap 1 0) := by
  rw [exec_csrrw, State.csrOp, if_pos (by simp [refused])]
  rfl

/-! ## A write of qcfg (R168) -/

/-- The context with a queue unmapped, and with a queue of a changed field unmapped where it was mapped. -/
def Ctx.qunmapped (c : Ctx) (q : Nat) : Ctx :=
  { ((c.setRegAt (c.ownTag (5 + q)) 0).markFull (c.ownTag (5 + q))) with qcfg := setQField c.qcfg q 0 }
def Ctx.qdropped (c : Ctx) (q : Nat) : Ctx := if c.isMapped q then c.qunmapped q else c

/-- The fields a write of qcfg changes. -/
def movedFields (new old : BitVec 16) : List Nat := (List.range 4).filter fun q => qField new q != qField old q

theorem State.qsteps_drop (l : List Nat) : ∀ s : State, ∃ u : State,
    s.qsteps (fun s q => if s.cur.isMapped q then s.qunmap q else some s) l = some u ∧ u.iss = s.iss ∧ u.mem = s.mem ∧
      u.cur = l.foldl Ctx.qdropped s.cur := by
  induction l with
  | nil => exact fun s => ⟨s, rfl, rfl, rfl, rfl⟩
  | cons q l ih =>
    intro s
    by_cases mapped : s.cur.isMapped q = true
    · obtain ⟨u, run, iss, mem, cur⟩ := ih (s.onCur (·.qunmapped q))
      refine ⟨u, ?_, iss, mem, ?_⟩
      · rw [← run, State.qsteps, if_pos mapped, State.qunmap, if_pos mapped]
        rfl
      · rw [cur, State.cur_onCur, List.foldl_cons, Ctx.qdropped, if_pos mapped]
    · obtain ⟨u, run, iss, mem, cur⟩ := ih s
      refine ⟨u, ?_, iss, mem, ?_⟩
      · rw [← run, State.qsteps, if_neg mapped]
      · rw [cur, List.foldl_cons, Ctx.qdropped, if_neg mapped]

theorem State.qsteps_keep (s : State) {f : State → Nat → Option State} {l : List Nat} (h : ∀ q ∈ l, f s q = some s) :
    s.qsteps f l = some s := by
  induction l with
  | nil => rfl
  | cons q l ih =>
    rw [State.qsteps, h q List.mem_cons_self]
    exact ih fun p mem => h p (List.mem_cons_of_mem _ mem)

/-- A write that maps nothing new only unmaps. -/
theorem State.qcfgWrite_unmaps {s : State} {v : Word} {new : BitVec 16} (value : v.truncate 16 &&& 0xBBBB = new)
    (unmaps : ∀ q < 4, qField new q = qField s.cur.qcfg q ∨ qField new q < 8) :
    ∃ u : State, s.qcfgWrite v = some u ∧ u.iss = s.iss ∧ u.mem = s.mem ∧
      u.cur = { (movedFields new s.cur.qcfg).foldl Ctx.qdropped s.cur with qcfg := new } := by
  obtain ⟨u, run, iss, mem, cur⟩ := State.qsteps_drop (movedFields new s.cur.qcfg) s
  have nothing : u.qsteps (fun s q => if 8 ≤ qField new q then s.qmap q (qField new q % 4) else some s) (movedFields new s.cur.qcfg) = some u := by
    refine u.qsteps_keep fun q moved => if_neg ?_
    obtain ⟨lt, changed⟩ : q < 4 ∧ qField new q ≠ qField s.cur.qcfg q := by simpa [movedFields] using moved
    exact Nat.not_le.2 ((unmaps q lt).resolve_left changed)
  refine ⟨u.onCur fun c => { c with qcfg := new }, ?_, iss, mem, by rw [State.cur_onCur, cur]⟩
  unfold movedFields at run nothing
  simp only [State.qcfgWrite, value, run, nothing]

theorem qField_setQField_ne (v : BitVec 16) {p q : Nat} (hp : p < 4) (hq : q < 4) (ne : q ≠ p) : qField (setQField v p 0) q = qField v q := by
  have := v.isLt
  simp only [qField, setQField, BitVec.toNat_ofNat]
  interval_cases p <;> interval_cases q <;> simp at ne ⊢ <;> omega

/-- A register that is zero and full. -/
def Ctx.Cleared (c : Ctx) (t : Nat) : Prop := c.regAt t = 0 ∧ c.fe.getLsbD t = true

theorem Ctx.ownTag_lt (c : Ctx) {r : Nat} (h : r < 16) : c.ownTag r < 48 := by
  have b := bankOrders_first _ c.outer_mem
  unfold Ctx.ownTag
  split
  · omega
  · omega

theorem Ctx.qunmapped_cleared (c : Ctx) {q : Nat} (h : q < 4) : (c.qunmapped q).Cleared (c.ownTag (5 + q)) :=
  ⟨Ctx.regAt_setRegAt_same c (c.ownTag_lt (by omega)) 0, Ctx.markFull_full _ (c.ownTag_lt (by omega))⟩

theorem Ctx.Cleared.qdropped {c : Ctx} {t p : Nat} (h : c.Cleared t) (lt : p < 4) : (c.qdropped p).Cleared t := by
  unfold Ctx.qdropped
  split
  · by_cases same : t = c.ownTag (5 + p)
    · exact same ▸ c.qunmapped_cleared lt
    · exact ⟨(Ctx.regAt_setRegAt_ne c 0 same).trans h.1, (Ctx.markFull_fe_ne _ same).trans h.2⟩
  · exact h

theorem Ctx.qdropped_kept (c : Ctx) (p : Nat) :
    (c.qdropped p).frames = c.frames ∧ (c.qdropped p).frame = c.frame ∧ (c.qdropped p).instret = c.instret := by
  unfold Ctx.qdropped
  split <;> exact ⟨rfl, rfl, rfl⟩
theorem Ctx.qdropped_foldl_kept (l : List Nat) :
    ∀ c : Ctx, (l.foldl Ctx.qdropped c).frame = c.frame ∧ (l.foldl Ctx.qdropped c).instret = c.instret := by
  induction l with
  | nil => exact fun c => ⟨rfl, rfl⟩
  | cons p l ih =>
    intro c
    obtain ⟨-, frame, instret⟩ := c.qdropped_kept p
    exact ⟨(ih _).1.trans frame, (ih _).2.trans instret⟩

theorem Ctx.ownTag_congr {c e : Ctx} (h : e.frames = c.frames) (r : Nat) : e.ownTag r = c.ownTag r := by
  simp only [Ctx.ownTag, Ctx.outer, h]

/-- Unmapping one queue leaves another's mapping. -/
theorem Ctx.qdropped_isMapped {c : Ctx} {p q : Nat} (hp : p < 4) (hq : q < 4) (ne : q ≠ p) (h : c.isMapped q = true) :
    (c.qdropped p).isMapped q = true := by
  unfold Ctx.qdropped
  split
  · rw [← h, Ctx.isMapped, Ctx.isMapped]
    exact congrArg (fun f => decide (8 ≤ f)) (qField_setQField_ne c.qcfg hp hq ne)
  · exact h

/-- The register of a mapped queue that is among those unmapped is zero and full at the end. -/
theorem Ctx.qdropped_foldl_cleared {q : Nat} (lt : q < 4) (l : List Nat) :
    ∀ c : Ctx, (∀ p ∈ l, p < 4) → (q ∈ l ∧ c.isMapped q = true) ∨ c.Cleared (c.ownTag (5 + q)) →
      (l.foldl Ctx.qdropped c).Cleared (c.ownTag (5 + q)) := by
  induction l with
  | nil => exact fun c _ h => h.resolve_left fun g => List.not_mem_nil g.1
  | cons p l ih =>
    intro c small h
    obtain ⟨hp, small⟩ := List.forall_mem_cons.1 small
    have tag : (c.qdropped p).ownTag (5 + q) = c.ownTag (5 + q) := Ctx.ownTag_congr (c.qdropped_kept p).1 _
    rw [List.foldl_cons, ← tag]
    refine ih _ small ?_
    rw [tag]
    obtain ⟨mem, mapped⟩ | cleared := h
    · by_cases same : q = p
      · subst same
        rw [Ctx.qdropped, if_pos mapped]
        exact .inr (c.qunmapped_cleared lt)
      · exact .inl ⟨(List.mem_cons.1 mem).resolve_left same, Ctx.qdropped_isMapped hp lt same mapped⟩
    · exact .inr (cleared.qdropped hp)

theorem csrWaits_qcfg (s : State) : s.csrWaits 0x805 = [5, 6, 7, 8].any s.cur.queuePends := rfl

theorem csrrw_qcfg_waits {s : State} {a : XReg} (ok : s.misuse [a] [0] = false) (busy : ∃ r, 5 ≤ r ∧ r ≤ 8 ∧ s.cur.queuePends r = true) :
    exec (.csrrw 0 a 0x805) s = .next s := by
  obtain ⟨r, low, high, pends⟩ := busy
  have waits : s.csrWaits 0x805 = true := by
    rw [csrWaits_qcfg, List.any_eq_true]
    exact ⟨r, by interval_cases r <;> decide, pends⟩
  rw [exec_csrrw]
  simp only [State.csrOp, show csrAllowed true 0x805 = true from by decide, ok, waits]
  rfl

theorem csrrw_qcfg_unmaps {s : State} {a : XReg} (ok : s.misuse [a] [0] = false) (free : ∀ r, 5 ≤ r → r ≤ 8 → s.cur.queuePends r = false)
    {new : BitVec 16} (value : (s.rd a).truncate 16 &&& 0xBBBB = new)
    (unmaps : ∀ q < 4, qField new q = qField s.cur.qcfg q ∨ qField new q < 8) :
    ∃ u : State, exec (.csrrw 0 a 0x805) s = .next u.retire ∧ u.iss = s.iss ∧ u.mem = s.mem ∧
      u.cur = { (movedFields new s.cur.qcfg).foldl Ctx.qdropped s.cur with qcfg := new } := by
  have waits : s.csrWaits 0x805 = false := by
    rw [csrWaits_qcfg]
    simp [free]
  have same : ((s.pops [a]).wr 0 (s.csr 0x805)).cur = s.cur := by rw [State.wr_zero, State.cur_onCur, State.pops_cur]
  obtain ⟨u, run, -⟩ := State.qcfgWrite_unmaps value unmaps
  obtain ⟨w, again, iss, mem, cur⟩ := State.qcfgWrite_unmaps (s := (s.pops [a]).wr 0 (s.csr 0x805)) value (by rwa [same])
  refine ⟨w, ?_, iss.trans ((State.wr_iss ..).trans (State.pops_iss ..)), mem.trans (by simp), by rw [cur, same]⟩
  have first : s.csrWrite 0x805 (s.rd a) = some u := run
  have second : ((s.pops [a]).wr 0 (s.csr 0x805)).csrWrite 0x805 (s.rd a) = some w := again
  rw [exec_csrrw]
  simp only [State.csrOp, show csrAllowed true 0x805 = true from by decide, ok, waits, first, second]
  rfl

/-- The queue's register after the write. -/
theorem qcfg_register_cleared {c : Ctx} {new : BitVec 16} {q : Nat} (lt : q < 4) (mapped : c.isMapped q = true) (unmaps : qField new q < 8) :
    ((movedFields new c.qcfg).foldl Ctx.qdropped c).Cleared (c.ownTag (5 + q)) := by
  have was : 8 ≤ qField c.qcfg q := by simpa [Ctx.isMapped] using mapped
  refine Ctx.qdropped_foldl_cleared lt _ c (fun p mem => ?_) (.inl ⟨?_, mapped⟩)
  · exact List.mem_range.1 (List.mem_of_mem_filter mem)
  · refine List.mem_filter.2 ⟨List.mem_range.2 lt, ?_⟩
    simp
    omega

/-- Settles O26: the registers that are fields of the context, a write of qcfg that only unmaps, and the read-only registers. -/
theorem csrFormsResult : Obligations.CsrFormsResult := by
  intro s d a u c x old z
  have forms (mem : c.toNat ∈ plainCsrs) (ok : s.misuse [a] [d] = false) :
      ∀ q ∈ ([(.csrrw d a c, [a], true, x), (.csrrs d a c, [a], a != 0, old ||| x), (.csrrc d a c, [a], a != 0, old &&& ~~~x),
              (.csrrwi d u c, [], true, z), (.csrrsi d u c, [], u != 0, old ||| z), (.csrrci d u c, [], u != 0, old &&& ~~~z)]
            : List (Instr × List XReg × Bool × Word)), s.CsrForm d c q.1 q.2.2.1 q.2.2.2 := by
    have plain := plainCsr_of_mem mem
    have ok' : s.misuse [] [d] = false := State.misuse_drop ok
    simp only [List.forall_mem_cons]
    exact ⟨csrForm_of_csrOp plain (exec_csrrw ..) rfl ok, csrForm_of_csrOp plain (exec_csrrs ..) rfl ok,
      csrForm_of_csrOp plain (exec_csrrc ..) rfl ok, csrForm_of_csrOp plain (exec_csrrwi ..) rfl ok',
      csrForm_of_csrOp plain (exec_csrrsi ..) rfl ok', csrForm_of_csrOp plain (exec_csrrci ..) rfl ok', nofun⟩
  refine ⟨forms, ?_, fun readOnly ok => ?_⟩
  · refine fun ok => ⟨csrrw_qcfg_waits ok, fun free unmaps => ?_⟩
    obtain ⟨t, run, iss, mem, cur⟩ := csrrw_qcfg_unmaps ok free rfl unmaps
    obtain ⟨frame, instret⟩ := Ctx.qdropped_foldl_kept (movedFields (BitVec.truncate 16 x &&& 0xBBBB) s.cur.qcfg) s.cur
    refine ⟨_, run, ?_, retired_retire iss ?_ ?_, fun k => by rw [State.retire_mem, mem], fun q lt mapped low => ?_⟩
    · rw [State.retire_cur, Ctx.retire_qcfg, cur]
    · rw [cur, ← frame]
    · rw [cur, ← instret]
    · obtain ⟨zero, full⟩ := qcfg_register_cleared lt mapped low
      rw [State.retire_cur, Ctx.retire_regAt, Ctx.retire_fe, cur]
      exact ⟨zero, full⟩
  · obtain ⟨reads, refused⟩ := csrReadOnly_reads readOnly
    exact ⟨csrrs_zero reads ok, csrrw_readOnly d a refused⟩

end Sys2Proof.Machine
end

section
/-! PROOF. ECALL and the services that answer it (R164, R311, R318). -/

namespace Sys2Proof.Machine

open Sys2Proof

/-! ## An answer -/

/-- The context of an answered thread, as the statement has it: it goes on at the next unit with the answer in a0, and every other register
stands. -/
def Ctx.Answered (c e : Ctx) (v : Word) : Prop :=
  e.st = .run ∧ e.pc = c.wnpc ∧ e.reg 10 = v ∧ ∀ r, r ≠ 10 → e.regAt r = c.regAt r

/-- With no result held the context changes alone. -/
theorem State.answer_eq {s : State} {n x : Nat} (held : (s.ctxAt n x).sfuHeld = []) (v : Word) :
    s.answer n x v = (s.onCtx n x fun c => { c with sfuHeld := [] }).onCtx n x fun c => { (c.setReg 10 v) with st := .run, pc := c.wnpc } := by
  rw [State.answer, State.sfuFlush, held]
  rfl

theorem State.answer_answered {s : State} {n x : Nat} (held : (s.ctxAt n x).sfuHeld = []) (v : Word) :
    (s.ctxAt n x).Answered ((s.answer n x v).ctxAt n x) v := by
  rw [State.answer_eq held, State.ctxAt_onCtx_same, State.ctxAt_onCtx_same]
  generalize s.ctxAt n x = c
  refine ⟨rfl, rfl, ?_, fun r other => ?_⟩
  · exact Ctx.reg_setReg_same { c with sfuHeld := [] } 10 v (by decide)
  · exact Ctx.regAt_setReg_ne { c with sfuHeld := [] } 10 v other

theorem State.answer_frame {s : State} {n x : Nat} (held : (s.ctxAt n x).sfuHeld = []) (v : Word) :
    (s.answer n x v).mem = s.mem ∧ (s.answer n x v).vfs = s.vfs ∧ (s.answer n x v).signals = s.signals := by
  rw [State.answer_eq held]
  exact ⟨rfl, rfl, rfl⟩

/-- A service is given to the parked thread whose a0 names it. -/
theorem State.service_eq {s : State} {n x number : Nat} (up : s.up = true) (live : (s.ctxAt n x).uid ≠ 0) (parked : (s.ctxAt n x).st = .ecall)
    (names : ((s.ctxAt n x).reg 10).toNat = number) (k : Ctx → State) : s.service n x number k = .next (k (s.ctxAt n x)) := by
  rw [State.service, if_pos ⟨live, parked, names⟩, State.dyore, if_pos up]

/-! ## DEBUG (R318, R363) -/

/-- The bytes that DEBUG copies go to places of the ring one by one. -/
def State.ringPut (s : State) (place : Nat → Nat) (l : List (Byte × Nat)) : State := l.foldl (fun s q => s.hostPut (place q.2) [q.1]) s

theorem State.ringPut_mem {place : Nat → Nat} {b : List Byte} :
    ∀ {s : State} {k : Nat}, MemOk s → (∀ i j, k ≤ i → i < j → j < k + b.length → place i ≠ place j) →
      ∃ m, s.ringPut place (b.zipIdx k) = { s with mem := m } ∧
        (∀ a, (∀ j, k ≤ j → j < k + b.length → a ≠ hostBase + place j) → memGet m a = memGet s.mem a) ∧
        ∀ j < b.length, memGet m (hostBase + place (k + j)) = b.getD j 0 := by
  induction b with
  | nil => exact fun _ _ => ⟨_, rfl, fun _ _ => rfl, nofun⟩
  | cons v b ih =>
    intro s k wf apart
    have wf' : MemOk (s.hostPut (place k) [v]) := memWf_memPut _ _ wf
    obtain ⟨m, run, out, inside⟩ := ih (k := k + 1) wf' fun i j low lt high => apart i j (by omega) lt (by simp; omega)
    have put (a : Nat) (ne : a ≠ hostBase + place k) : memGet (s.hostPut (place k) [v]).mem a = memGet s.mem a :=
      memGet_memSet_ne v wf ne
    refine ⟨m, run, fun a far => ?_, fun j lt => ?_⟩
    · rw [out a fun j low high => far j (by omega) (by simp; omega), put a (far k (by omega) (by simp))]
    · cases j with
      | zero =>
        rw [Nat.add_zero, out _ fun j low high same => apart k j (by omega) (by omega) (by simp; omega) (by omega)]
        exact memGet_memSet_same _ v wf
      | succ j =>
        rw [Nat.add_succ, ← Nat.succ_add]
        exact inside j (by simpa using lt)

theorem Ctx.debugRead_setDebug {c : Ctx} {d : DescRead} (h : c.debugRead = some d) (w : List (Option (Word × Bool))) :
    (c.setDebug { d with words := w }).debugRead = some { d with words := w } := by
  have found : c.desc.find? (fun e => e.upc == c.pc && e.level == c.level) = some d := h
  have here : d.upc = c.pc ∧ d.level = c.level := by simpa using List.find?_some found
  have keeps : ((fun e : DescRead => e.upc == c.pc && e.level == c.level) ∘
      fun e : DescRead => if e.upc = c.pc ∧ e.level = c.level then { d with words := w } else e) =
      fun e : DescRead => e.upc == c.pc && e.level == c.level := by
    funext e
    by_cases own : e.upc = c.pc ∧ e.level = c.level
    · simp [own, here]
    · simp [own]
  change (c.desc.map _).find? (fun e : DescRead => e.upc == c.pc && e.level == c.level) = _
  rw [List.find?_map, keeps, found, Option.map_some, if_pos here]

theorem Ctx.debugRead_append {c : Ctx} (h : c.debugRead = none) (w : List (Option (Word × Bool))) :
    Ctx.debugRead { c with desc := c.desc ++ [{ upc := c.pc, level := c.level, words := w }] } = some { upc := c.pc, level := c.level, words := w } := by
  have none : c.desc.find? (fun d => d.upc == c.pc && d.level == c.level) = none := h
  change (c.desc ++ _).find? (fun d => d.upc == c.pc && d.level == c.level) = _
  simp [none]

/-- A range of at most 256 bytes below 2^49 whose reads may begin: the thread's requests are performed and every page has a translation. -/
structure State.DebugReady (s : State) (n : Nat) (c : Ctx) : Prop where
  short : (c.reg 12).toNat ≤ 256
  low : (c.reg 11).toNat < 2 ^ 49
  inside : (c.reg 11).toNat + (c.reg 12).toNat ≤ 2 ^ 49
  idle : s.pending c.uid 2 4 s.nextReq = false
  mapped : missing (s.gathered (n / 16) (s.teamOf n).vf [] (pageStarts [((c.reg 11).toNat, (c.reg 12).toNat, false)])) (s.teamOf n).vf
    (pageStarts [((c.reg 11).toNat, (c.reg 12).toNat, false)]) = none

/-- The dwords of the range of DEBUG, and the VF's translation of one. -/
def Ctx.debugWords (c : Ctx) : List Nat := wordsOver (c.reg 11).toNat (c.reg 12).toNat
def State.debugPage (s : State) (n w : Nat) : Option Phys := s.translate (n / 16) (s.teamOf n).vf w

section
variable {s : State} {n x : Nat} {c : Ctx}

theorem debugCopy_long (long : 256 < (c.reg 12).toNat) : s.debugCopy n x c = s.answer n x (BitVec.allOnes 64) := by
  rw [State.debugCopy, if_pos (.inl long)]

theorem debugCopy_pending (short : (c.reg 12).toNat ≤ 256) (low : (c.reg 11).toNat < 2 ^ 49) (inside : (c.reg 11).toNat + (c.reg 12).toNat ≤ 2 ^ 49)
    (pends : s.pending c.uid 2 4 s.nextReq = true) : s.debugCopy n x c = s := by
  rw [State.debugCopy, if_neg (by omega), if_pos pends]

variable (ready : s.DebugReady n c)
include ready

theorem debugCopy_sealed {w : Nat} (first : c.debugWords.find? (fun w => (s.debugPage n w).any (·.slot != 0)) = some w) :
    s.debugCopy n x c = s.threadFault n x 0x13 (BitVec.ofNat 64 w) c.pc := by
  obtain ⟨short, low, inside, idle, mapped⟩ := ready
  unfold Ctx.debugWords State.debugPage at first
  rw [State.debugCopy, if_neg (by omega), if_neg (by simp [idle])]
  simp only [mapped, first]

variable (plain : c.debugWords.find? (fun w => (s.debugPage n w).any (·.slot != 0)) = none)
include plain

theorem debugCopy_asks (unread : c.debugRead = none) :
    s.debugCopy n x c =
      s.onCtx n x fun c' => { c' with desc := c'.desc ++ [{ upc := c'.pc, level := c'.level, words := List.replicate c.debugWords.length none }] } := by
  obtain ⟨short, low, inside, idle, mapped⟩ := ready
  unfold Ctx.debugWords State.debugPage at plain
  rw [State.debugCopy, if_neg (by omega), if_neg (by simp [idle])]
  simp only [mapped, plain, unread]
  rfl

/-- The dwords of the range that are still to be read. -/
def Ctx.debugLeft (c : Ctx) (d : DescRead) : List Nat := (List.range c.debugWords.length).filter fun i => (d.words.getD i none).isNone

theorem debugCopy_reads {d : DescRead} (read : c.debugRead = some d) {i : Nat} (next : (c.debugLeft d)[s.anyOf (c.debugLeft d).length]? = some i)
    {p : Phys} (page : s.debugPage n (c.debugWords.getD i 0) = some p) :
    s.debugCopy n x c = State.debugWord { s with fresh := s.fresh + 1 } n x c d i (c.debugWords.getD i 0) p := by
  obtain ⟨short, low, inside, idle, mapped⟩ := ready
  unfold Ctx.debugLeft at next
  unfold Ctx.debugWords at next page plain
  unfold State.debugPage at plain page
  rw [State.debugCopy, if_neg (by omega), if_neg (by simp [idle])]
  simp only [mapped, plain, read, next, page]
  rfl

/-- What DEBUG has read of the range. -/
def Ctx.debugBytes (c : Ctx) (d : DescRead) : List Byte :=
  ((wordBytes ((List.range c.debugWords.length).map d.word)).drop ((c.reg 11).toNat % 8)).take (c.reg 12).toNat

theorem debugCopy_copies {d : DescRead} (read : c.debugRead = some d) (all : c.debugLeft d = []) :
    s.debugCopy n x c =
      if (s.vf (s.teamOf n).vf).dbg.room (c.reg 12).toNat then
        (((s.onCtx n x Ctx.dropDebug).ringPut (fun j => (s.vf (s.teamOf n).vf).dbg.place ((s.vf (s.teamOf n).vf).dbg.tail + j) 1)
          (c.debugBytes d).zipIdx).onVf (s.teamOf n).vf fun f =>
            { f with dbg := f.dbg.step (c.reg 12).toNat }).answer n x (BitVec.ofNat 64 (c.reg 12).toNat)
      else (s.onCtx n x Ctx.dropDebug).answer n x 0 := by
  obtain ⟨short, low, inside, idle, mapped⟩ := ready
  unfold Ctx.debugLeft at all
  unfold Ctx.debugWords at all plain
  unfold State.debugPage at plain
  rw [State.debugCopy, if_neg (by omega), if_neg (by simp [idle])]
  simp only [mapped, plain, read, all, List.getElem?_nil]
  have ring : (s.onCtx n x Ctx.dropDebug).vf (s.teamOf n).vf = s.vf (s.teamOf n).vf := rfl
  rw [ring]
  by_cases room : (s.vf (s.teamOf n).vf).dbg.room (c.reg 12).toNat = true
  · rw [if_pos room, if_neg (by rw [room]; decide)]
    rfl
  · rw [if_neg room, if_pos (by rw [Bool.eq_false_iff.2 room]; rfl)]

end

theorem State.homeBytes_plain {s : State} {h : Home} {key : Nat} (named : ∀ q j, h = .slice q j → s.named q key = true) (va k : Nat) :
    s.homeBytes h key 0 va k = memBytes s.mem key k := by
  cases h with
  | slice q j => simp [State.homeBytes, State.sliceBytes, named q j rfl]
  | core m => rfl
  | host => rfl

/-- The visit to a slice by which DEBUG reads a dword. -/
def State.debugVisit (s : State) (p : Phys) : State :=
  match p.home with
  | .slice q j => s.touch q j (p.key / 128) 0 0 0 (if p.stream then 1 else 0)
  | _ => s

theorem State.debugWord_eq (s : State) (n x : Nat) (c : Ctx) (d : DescRead) (i w : Nat) (p : Phys) :
    s.debugWord n x c d i w p =
      if (s.debugVisit p).poisoned p.key then (s.debugVisit p).threadFault n x 0x0F (BitVec.ofNat 64 w) c.pc
      else (s.debugVisit p).onCtx n x fun e =>
        e.setDebug { d with words := d.words.set i (some (BitVec.ofNat 64 (leNat ((s.debugVisit p).homeBytes p.home p.key 0 w 8)), false)) } := rfl

theorem State.debugVisit_unsealed {s : State} (unsealed : s.Unsealed) (p : Phys) : ∃ l k, s.debugVisit p = { s with l2 := l, clock := k } := by
  unfold State.debugVisit
  split
  · exact State.touch_unsealed unsealed ..
  · exact ⟨_, _, rfl⟩

/-- A dword of a home that keeps plain bytes is read from memory, and only lines of the caches turn. -/
theorem State.debugWord_plain {s : State} {p : Phys} (clean : s.poisoned p.key = false) (named : ∀ q j, p.home = .slice q j → s.named q p.key = true)
    (unsealed : s.Unsealed) (n x : Nat) (c : Ctx) (d : DescRead) (i w : Nat) :
    ∃ l k, s.debugWord n x c d i w p = ({ s with l2 := l, clock := k } : State).onCtx n x fun e =>
      e.setDebug { d with words := d.words.set i (some (BitVec.ofNat 64 (memNat s.mem p.key 8), false)) } := by
  obtain ⟨l, k, visit⟩ := State.debugVisit_unsealed unsealed p
  have clean' : (s.debugVisit p).poisoned p.key = false := by rw [visit]; exact clean
  have bytes : (s.debugVisit p).homeBytes p.home p.key 0 w 8 = memBytes s.mem p.key 8 := by
    rw [visit]
    exact State.homeBytes_plain (s := { s with l2 := l, clock := k }) named w 8
  refine ⟨l, k, ?_⟩
  rw [State.debugWord_eq, bytes, leNat_memBytes, clean', if_neg Bool.false_ne_true, visit]

/-! ## What the copy leaves in the ring -/

theorem OutRing.places_apart {r : OutRing} {len : Nat} (room : r.room len = true) {i j : Nat} (lt : i < j) (high : j < len) :
    r.place (r.tail + i) 1 ≠ r.place (r.tail + j) 1 := by
  obtain ⟨-, fits⟩ : cfgEn r.cfg = true ∧ r.used + len ≤ 2 ^ cfgLg r.cfg := by simpa [OutRing.room] using room
  simp only [OutRing.place, Nat.mul_one]
  generalize 2 ^ cfgLg r.cfg = m at fits ⊢
  intro same
  have sameMod : (r.tail + i) % m = (r.tail + j) % m := by omega
  have apart : j - i < m := by omega
  have zero : (j - i) % m = 0 := by
    rw [show j - i = (r.tail + j) - (r.tail + i) by omega]
    exact Nat.sub_mod_eq_zero_of_mod_eq sameMod.symm
  rw [Nat.mod_eq_of_lt apart] at zero
  omega

theorem wordBytes_length (l : List Word) : (wordBytes l).length = 8 * l.length := by
  induction l with
  | nil => rfl
  | cons v l ih =>
    rw [wordBytes, List.flatMap_cons, List.length_append, leBytes_length, List.length_cons, Nat.mul_succ, Nat.add_comm]
    exact congrArg (· + 8) ih

theorem Ctx.debugBytes_length (c : Ctx) (d : DescRead) : (c.debugBytes d).length = (c.reg 12).toNat := by
  have words : c.debugWords.length = if (c.reg 12).toNat = 0 then 0 else ((c.reg 11).toNat % 8 + (c.reg 12).toNat + 7) / 8 := by
    unfold Ctx.debugWords wordsOver
    split <;> simp
  rw [Ctx.debugBytes, List.length_take, List.length_drop, wordBytes_length, List.length_map, List.length_range, words]
  split <;> omega

theorem Ctx.debugBytes_get (c : Ctx) (d : DescRead) {j : Nat} (lt : j < (c.reg 12).toNat) :
    (c.debugBytes d).getD j 0 = (wordBytes ((List.range c.debugWords.length).map d.word)).getD ((c.reg 11).toNat % 8 + j) 0 := by
  rw [Ctx.debugBytes, List.getD_eq_getElem?_getD, List.getElem?_take_of_lt lt, List.getElem?_drop, List.getD_eq_getElem?_getD]

/-! ## The services -/

/-- ECALL parks the thread at its unit. -/
theorem exec_ecall (s : State) : exec .ecall s = .next (s.onCur fun c => { c with st := .ecall, pc := s.iss.upc, wnpc := s.iss.npc }) := rfl

/-- A thread that waits for a service with no result held. -/
structure State.Calls (s : State) (n x : Nat) : Prop where
  up : s.up = true
  live : (s.ctxAt n x).uid ≠ 0
  parked : (s.ctxAt n x).st = .ecall
  held : (s.ctxAt n x).sfuHeld = []

section
variable {s : State} {n x : Nat} (calls : s.Calls n x)
include calls

theorem exec_nop {v : Word} (number : ((s.ctxAt n x).reg 10).toNat = 0 ∧ v = 0 ∨ 3 < ((s.ctxAt n x).reg 10).toNat ∧ v = BitVec.allOnes 64) :
    exec (.nop n x) s = .next (s.answer n x v) := by
  change execNop n x s = _
  rw [execNop]
  obtain ⟨zero, rfl⟩ | ⟨unknown, rfl⟩ := number
  · rw [if_neg (by omega), State.service_eq calls.up calls.live calls.parked zero, if_neg (by omega)]
  · rw [if_pos unknown, State.service_eq calls.up calls.live calls.parked rfl, if_pos unknown]

theorem exec_debug (number : ((s.ctxAt n x).reg 10).toNat = 1) : exec (.debug n x) s = .next (s.debugCopy n x (s.ctxAt n x)) :=
  State.service_eq calls.up calls.live calls.parked number _

theorem exec_signal_refuses (number : ((s.ctxAt n x).reg 10).toNat = 2)
    (out : ((s.ctxAt n x).reg 11).toNat = 0 ∨ 4095 < ((s.ctxAt n x).reg 11).toNat) :
    exec (.signal n x) s = .next (s.answer n x (BitVec.allOnes 64)) := by
  change execSignal n x s = _
  rw [execSignal, State.service_eq calls.up calls.live calls.parked number]
  exact congrArg _ (if_pos out)

theorem exec_signal_adds (number : ((s.ctxAt n x).reg 10).toNat = 2) (low : 0 < ((s.ctxAt n x).reg 11).toNat)
    (high : ((s.ctxAt n x).reg 11).toNat ≤ 4095) :
    exec (.signal n x) s =
      .next ((s.signalAdd (s.teamOf n).vf ((s.ctxAt n x).reg 11).toNat ((s.ctxAt n x).reg 12)).answer n x 0) := by
  change execSignal n x s = _
  rw [execSignal, State.service_eq calls.up calls.live calls.parked number]
  exact congrArg _ (if_neg (by omega))

theorem exec_time (number : ((s.ctxAt n x).reg 10).toNat = 3) :
    exec (.time n x) s =
      .next (s.answer n x (BitVec.ofNat 64 ((s.time - (s.launch (s.teamOf n).launch).firstCo.getD s.time) / microsecond))) := by
  change execTime n x s = _
  rw [execTime, State.service_eq calls.up calls.live calls.parked number]

end

theorem State.signal_signalAdd (s : State) (v k : Nat) (a : Word) : ((s.signalAdd v k a).signal v k).1 = (s.signal v k).1 + a := by
  rw [State.signalAdd, State.setSignal, State.signal, tabGet_tabSet_same]

theorem State.answer_signal {s : State} {n x : Nat} (held : (s.ctxAt n x).sfuHeld = []) (w : Word) (v k : Nat) :
    (s.answer n x w).signal v k = s.signal v k := by
  obtain ⟨-, -, signals⟩ := State.answer_frame held w
  rw [State.signal, signals, State.signal]

/-- Some dword of the range is still to be read, and DEBUG reads one of those. -/
theorem State.debugLeft_next (s : State) {c : Ctx} {d : DescRead} (some' : ∃ i < c.debugWords.length, d.words.getD i none = none) :
    ∃ i, (c.debugLeft d)[s.anyOf (c.debugLeft d).length]? = some i ∧ i < c.debugWords.length ∧ d.words.getD i none = none := by
  obtain ⟨k, lt, unread⟩ := some'
  have mem : k ∈ c.debugLeft d := List.mem_filter.2 ⟨List.mem_range.2 lt, by simp only [unread, Option.isNone_none]⟩
  have inside : s.anyOf (c.debugLeft d).length < (c.debugLeft d).length := by
    have := List.length_pos_of_mem mem
    unfold State.anyOf
    split
    · exact this
    · exact Nat.mod_lt _ this
  obtain ⟨i, next⟩ : ∃ i, (c.debugLeft d)[s.anyOf (c.debugLeft d).length]? = some i := ⟨_, List.getElem?_eq_getElem inside⟩
  obtain ⟨range, left⟩ := List.mem_filter.1 (List.mem_of_getElem? next)
  exact ⟨i, next, List.mem_range.1 range, Option.isNone_iff_eq_none.1 left⟩

theorem Ctx.debugLeft_done {c : Ctx} {d : DescRead} (all : ∀ i < c.debugWords.length, d.words.getD i none ≠ none) : c.debugLeft d = [] := by
  refine List.filter_eq_nil_iff.2 fun i mem => ?_
  rw [Option.isNone_iff_eq_none]
  exact all i (List.mem_range.1 mem)

theorem Ctx.Answered.of_drop {c e : Ctx} {v : Word} (h : c.dropDebug.Answered e v) : c.Answered e v := h

/-- DEBUG with all dwords read and no room in the ring. -/
theorem debugCopy_noRoom {s : State} {n x : Nat} (held : (s.ctxAt n x).sfuHeld = []) :
    (s.ctxAt n x).Answered (((s.onCtx n x Ctx.dropDebug).answer n x 0).ctxAt n x) 0 ∧ SameBytes s ((s.onCtx n x Ctx.dropDebug).answer n x 0) := by
  have held' : ((s.onCtx n x Ctx.dropDebug).ctxAt n x).sfuHeld = [] := by rw [State.ctxAt_onCtx_same]; exact held
  have answered := State.answer_answered held' 0
  rw [State.ctxAt_onCtx_same] at answered
  obtain ⟨mem, -, -⟩ := State.answer_frame held' 0
  exact ⟨answered.of_drop, fun a => by rw [mem]; rfl⟩

/-- DEBUG with all dwords read and room for them: every byte goes to its place. -/
theorem debugCopy_room {s : State} {n x v : Nat} {len : Nat} {b : List Byte} (held : (s.ctxAt n x).sfuHeld = []) (wf : MemOk s)
    (room : (s.vf v).dbg.room len = true) (length : b.length = len) (a0 : Word) :
    let t := (((s.onCtx n x Ctx.dropDebug).ringPut (fun j => (s.vf v).dbg.place ((s.vf v).dbg.tail + j) 1) b.zipIdx).onVf v fun f =>
      { f with dbg := f.dbg.step len }).answer n x a0
    (s.ctxAt n x).Answered (t.ctxAt n x) a0 ∧ (t.vf v).dbg = (s.vf v).dbg.step len ∧
      ∀ j < len, memGet t.mem (hostBase + (s.vf v).dbg.place ((s.vf v).dbg.tail + j) 1) = b.getD j 0 := by
  have wf' : MemOk (s.onCtx n x Ctx.dropDebug) := wf
  obtain ⟨m, run, -, bytes⟩ := State.ringPut_mem (k := 0) (b := b) (place := fun j => (s.vf v).dbg.place ((s.vf v).dbg.tail + j) 1) wf'
    fun i j _ lt high => OutRing.places_apart room lt (by omega)
  intro t
  have put : t = (({ s.onCtx n x Ctx.dropDebug with mem := m } : State).onVf v fun f => { f with dbg := f.dbg.step len }).answer n x a0 :=
    congrArg (fun u : State => (u.onVf v fun f => { f with dbg := f.dbg.step len }).answer n x a0) run
  generalize filled : ({ s.onCtx n x Ctx.dropDebug with mem := m } : State).onVf v (fun f => { f with dbg := f.dbg.step len }) = u at put
  have ctx : u.ctxAt n x = (s.ctxAt n x).dropDebug := by
    rw [← filled]
    exact State.ctxAt_onCtx_same ..
  have ring : (u.vf v).dbg = (s.vf v).dbg.step len := by
    rw [← filled, State.vf, State.onVf, tabGet_tabSet_same]
    rfl
  have held' : (u.ctxAt n x).sfuHeld = [] := by rw [ctx]; exact held
  have answered := State.answer_answered held' a0
  obtain ⟨mem, vfs, -⟩ := State.answer_frame held' a0
  rw [ctx] at answered
  rw [put]
  refine ⟨answered.of_drop, ?_, fun j lt => ?_⟩
  · rw [← ring, State.vf, vfs, State.vf]
  · have here := bytes j (length ▸ lt)
    rw [Nat.zero_add] at here
    rw [mem, ← filled]
    exact here

/-- Settles O30: each service answers in a0; DEBUG asks for the dwords of its range, reads one at a turn, and copies them once all are read. -/
theorem ecallAndServices : Obligations.EcallAndServices := by
  intro s n x c answered
  refine ⟨?_, fun up live parked held => ?_⟩
  · refine ⟨_, exec_ecall s, ?_⟩
    rw [State.cur_onCur]
    exact ⟨rfl, rfl, rfl, rfl, rfl, fun _ => rfl⟩
  have calls : s.Calls n x := ⟨up, live, parked, held⟩
  have answer (v : Word) : answered (s.answer n x v) v := State.answer_answered held v
  refine ⟨fun zero => ⟨_, exec_nop calls (.inl ⟨zero, rfl⟩), answer _⟩,
    fun unknown => ⟨_, exec_nop calls (.inr ⟨unknown, rfl⟩), answer _⟩,
    fun one long => ⟨_, (exec_debug calls one).trans (congrArg _ (debugCopy_long long)), answer _⟩, fun one short inside low => ?_,
    fun two out => ⟨_, exec_signal_refuses calls two out, answer _⟩, fun two low high => ⟨_, exec_signal_adds calls two low high, ?_, ?_⟩,
    fun three => ⟨_, exec_time calls three, answer _⟩⟩
  · have copies {t : State} (h : s.debugCopy n x (s.ctxAt n x) = t) : exec (.debug n x) s = .next t := (exec_debug calls one).trans (congrArg _ h)
    intro v a len ws pages r
    refine ⟨fun pends => copies (debugCopy_pending short low inside pends), fun idle mapped => ?_⟩
    have ready : s.DebugReady n c := ⟨short, low, inside, idle, mapped⟩
    refine ⟨fun w first => copies (debugCopy_sealed ready first), fun found unsealed => ?_⟩
    have plain : c.debugWords.find? (fun w => (s.debugPage n w).any (·.slot != 0)) = none := by
      refine List.find?_eq_none.2 fun w mem => ?_
      obtain ⟨p, page, slot, -, -⟩ := found w mem
      rw [show s.debugPage n w = some p from page, Option.any_some, slot]
      decide
    refine ⟨fun unread => ?_, fun d read left => ?_, fun d read all => ⟨fun full => ?_, fun room wf => ?_⟩⟩
    · refine ⟨_, { upc := c.pc, level := c.level, words := List.replicate ws.length none },
        copies (debugCopy_asks ready plain unread), ?_, rfl, ?_, fun _ => rfl⟩
      · rw [State.ctxAt_onCtx_same]
        exact Ctx.debugRead_append unread _
      · rw [State.ctxAt_onCtx_same]
        exact parked
    · obtain ⟨i, next, lt, unread⟩ := s.debugLeft_next left
      obtain ⟨p, page, -, clean, named⟩ := found (ws.getD i 0) (List.getD_eq_getElem ws 0 lt ▸ List.getElem_mem lt)
      obtain ⟨l, k, word⟩ := State.debugWord_plain (s := { s with fresh := s.fresh + 1 }) clean named unsealed n x c d i (ws.getD i 0)
      refine ⟨_, i, p, copies ((debugCopy_reads ready plain read next page).trans word), lt, unread, page, fun _ => rfl, ?_, ?_⟩
      · rw [State.ctxAt_onCtx_same]
        exact parked
      · rw [State.ctxAt_onCtx_same]
        exact Ctx.debugRead_setDebug read _
    · exact ⟨_, copies ((debugCopy_copies ready plain read (Ctx.debugLeft_done all)).trans (if_neg (by rw [full]; decide))), debugCopy_noRoom held⟩
    · obtain ⟨done, ring, bytes⟩ := debugCopy_room (a0 := BitVec.ofNat 64 len) held wf room (c.debugBytes_length d)
      refine ⟨_, copies ((debugCopy_copies ready plain read (Ctx.debugLeft_done all)).trans (if_pos room)), ?_, ring, fun j lt => ?_⟩
      · rwa [show BitVec.ofNat 64 len = c.reg 12 from BitVec.ofNat_toNat ..] at done ⊢
      · exact (bytes j lt).trans (c.debugBytes_get d lt)
  · exact State.answer_answered (s := s.signalAdd ..) held 0
  · rw [State.answer_signal (s := s.signalAdd ..) held, State.signal_signalAdd]

end Sys2Proof.Machine
end

section
/-! PROOF. Queue misuse (R139, R187, R311): every shape of a unit checks its operands' queues before all else, so that a misuse traps whatever
the unit would do besides. -/

namespace Sys2Proof.Machine

open Sys2Proof

/-- A unit with sources l and destinations k traps where it misuses a queue, unless it is a HINT. -/
def State.TrapsMisuse (s : State) (i : Instr) (l k : List XReg) : Prop :=
  s.misuse l k = true → i.hint = false → exec i s = .next (s.trap 0x0E 0)

/-! ## The shapes of a unit -/

/-- A unit whose meaning begins with the check, as those of `put`, `putF`, `jump`, `alter` and of the accesses do. -/
theorem trapsMisuse_checked {s : State} {i : Instr} {l k : List XReg} {o : Out}
    (run : exec i s = if s.misuse l k then s.trapOut 0x0E 0 else o) : s.TrapsMisuse i l k :=
  fun bad _ => run.trans (if_pos bad)

/-- A unit that does nothing with destination x0, and names another one wherever it can misuse a queue. -/
theorem trapsMisuse_alu {s : State} {i : Instr} {l : List XReg} {d : XReg} {w : Word} (run : exec i s = s.alu l d w)
    (named : s.misuse l [d] = true → i.hint = false → d ≠ 0) : s.TrapsMisuse i l [d] :=
  fun bad plain => run.trans ((if_neg (named bad plain)).trans (State.put_misuse _ _ _ _ bad))

/-- A unit whose forms with destination x0 are HINTs. -/
theorem trapsMisuse_hinted {s : State} {i : Instr} {l : List XReg} {d : XReg} {w : Word} (run : exec i s = s.alu l d w)
    (hint : i.hint = (d == 0)) : s.TrapsMisuse i l [d] :=
  trapsMisuse_alu run fun _ plain => beq_eq_false_iff_ne.1 (hint.symm.trans plain)

/-- A unit whose forms with a zero immediate are HINTs as well. -/
theorem trapsMisuse_unless {s : State} {i : Instr} {l : List XReg} {d : XReg} {w : Word} {zero : Prop} [Decidable zero]
    (run : exec i s = if zero then .next s.retire else s.alu l d w) (hint : i.hint = (d == 0 || decide zero)) : s.TrapsMisuse i l [d] := by
  intro bad plain
  obtain ⟨named, some⟩ : (d == 0) = false ∧ decide zero = false := Bool.or_eq_false_iff.1 (hint.symm.trans plain)
  rw [if_neg (of_decide_eq_false some)] at run
  exact trapsMisuse_alu run (fun _ _ => beq_eq_false_iff_ne.1 named) bad plain

/-- A unit that rounds, in a mode that is none of frm's 4 to 7 (R98). -/
theorem trapsMisuse_rounded {s : State} {i : Instr} {l k : List XReg} {r : BitVec 3} {o : Out} (mode : r = 7 → s.cur.fcsr.toNat < 128)
    (run : exec i s = if r == 7 && frmBroken s.cur then s.trapOut 1 0 else if s.misuse l k then s.trapOut 0x0E 0 else o) :
    s.TrapsMisuse i l k := by
  have sound : ¬(r == 7 && frmBroken s.cur) = true := by
    intro broken
    obtain ⟨dynamic, broken⟩ := Bool.and_eq_true_iff.1 broken
    have high : 4 ≤ s.cur.fcsr.toNat / 32 := of_decide_eq_true broken
    have low := mode (beq_iff_eq.1 dynamic)
    omega
  exact trapsMisuse_checked (run.trans (if_neg sound))

/-! ## Operands that map no queue -/

theorem State.TrapsMisuse.congr {s : State} {i : Instr} {l k l' k' : List XReg} (h : s.TrapsMisuse i l k)
    (same : s.misuse l k = s.misuse l' k') : s.TrapsMisuse i l' k' :=
  fun bad => h (same.trans bad)

theorem State.TrapsMisuse.drop_plain {s : State} {i : Instr} {r : XReg} {l k : List XReg} (h : s.TrapsMisuse i (r :: l) k)
    (plain : banked r = false) : s.TrapsMisuse i l k :=
  h.congr (s.misuse_cons_plain plain ..)

theorem State.misuse_swap (s : State) (a b : XReg) (k : List XReg) : s.misuse [a, b] k = s.misuse [b, a] k := by
  simp only [State.misuse, List.any_cons, List.any_nil, Bool.or_false]
  rw [Bool.or_comm (x := (s.cur.mapped a).isSome && _)]

/-- x0 maps no queue, so that a unit on it alone misuses none. -/
theorem State.misuse_named {s : State} {d : XReg} (bad : s.misuse [d] [d] = true) : d ≠ 0 := by
  rintro rfl
  rw [s.misuse_cons_plain rfl, s.misuse_zero] at bad
  exact Bool.false_ne_true bad

/-- Settles O11: each unit is of one of the shapes, whatever result or access it goes on to. -/
theorem queueMisuseTraps : Obligations.QueueMisuseTraps := by
  intro s d a b c e f i n k u l j g r mode p v traps
  have alu {q : Instr} {m : List XReg} {w : Word} := trapsMisuse_hinted (s := s) (i := q) (l := m) (d := d) (w := w)
  have check {q : Instr} {m k : List XReg} {o : Out} := trapsMisuse_checked (s := s) (i := q) (l := m) (k := k) (o := o)
  have branch {q : Instr} {a b : XReg} {t : Bool} {o : Word} (run : exec q s = s.branch a b t o) : s.TrapsMisuse q [a, b] [] :=
    (check run).congr (s.misuse_zero _)
  have round {q : Instr} {m k : List XReg} {o : Out} := trapsMisuse_rounded (i := q) (l := m) (k := k) (o := o) mode
  have third {q : Instr} {m : List XReg} {w : Word} (run : exec q s = s.alu m p w) : s.TrapsMisuse q m [p] :=
    trapsMisuse_alu run fun _ _ => beq_eq_false_iff_ne.1 (cReg_named e)
  have shift : (n == 0) = (p == 0 || decide (n = 0)) := by
    rw [cReg_named, Bool.false_or]
    rfl
  simp only [List.forall_mem_cons, List.not_mem_nil, false_imp_iff, implies_true, and_true]
  refine ⟨?registers, ?immediates, ?transfers, ?compressed, ?guards, ?floats, ?accesses⟩
  case registers =>
    exact ⟨alu rfl rfl, alu rfl rfl, alu rfl rfl, alu rfl rfl, alu rfl rfl, alu rfl rfl, alu rfl rfl, alu rfl rfl, alu rfl rfl, alu rfl rfl,
      check rfl, check rfl, check rfl, check rfl, check rfl, check rfl, check rfl, check rfl, check rfl, check rfl, check rfl, check rfl,
      check rfl, check rfl, check rfl, check rfl, alu rfl rfl, alu rfl rfl⟩
  case immediates =>
    exact ⟨alu rfl rfl, alu rfl rfl, alu rfl rfl, alu rfl rfl, alu rfl rfl, alu rfl rfl, alu rfl rfl, alu rfl rfl, alu rfl rfl, check rfl,
      check rfl, check rfl, alu rfl rfl, alu rfl rfl, alu rfl rfl, alu rfl rfl, alu rfl rfl, alu rfl rfl, check rfl, check rfl, check rfl,
      check rfl, check rfl⟩
  case transfers =>
    have zero {a : XReg} : s.misuse [a] [0] = s.misuse [a] [] := s.misuse_zero _
    exact ⟨branch rfl, branch rfl, branch rfl, branch rfl, branch rfl, branch rfl, (branch rfl).congr (s.misuse_pair_zero _ _),
      (branch rfl).congr (s.misuse_pair_zero _ _), check rfl, check rfl, (check rfl).congr zero, check rfl⟩
  case compressed =>
    exact ⟨trapsMisuse_unless rfl rfl, trapsMisuse_alu rfl fun bad _ => State.misuse_named bad, (alu rfl rfl).drop_plain (r := 0) rfl,
      (third rfl).drop_plain (r := 2) rfl, alu rfl rfl, trapsMisuse_unless rfl rfl, (alu rfl rfl).drop_plain (r := 0) rfl, alu rfl rfl,
      trapsMisuse_unless rfl shift, trapsMisuse_unless rfl shift, third rfl, third rfl, third rfl, third rfl, third rfl, third rfl, third rfl⟩
  case guards => exact ⟨check rfl, check rfl, check rfl, check rfl, check rfl, check rfl, check rfl, check rfl⟩
  case floats =>
    exact ⟨round rfl, round rfl, round rfl, round rfl, round rfl,
      round rfl, round rfl, round rfl, check rfl, check rfl, check rfl, check rfl, check rfl,
      check rfl, check rfl, round rfl, round rfl⟩
  case accesses =>
    exact ⟨check rfl, check rfl, check rfl, check rfl, check rfl, check rfl, check rfl, check rfl, check rfl, check rfl, check rfl,
      check rfl, check rfl, check rfl, check rfl, check rfl, check rfl, check rfl, check rfl, check rfl,
      (check rfl).congr (s.misuse_swap _ _ _), (check rfl).congr (s.misuse_swap _ _ _), check rfl, check rfl, check rfl, check rfl⟩

end Sys2Proof.Machine
end

section
/-! PROOF. The control of neighbour queues (R186, R187): QMAP, QUNMAP, QCTL and QSTAT. -/

namespace Sys2Proof.Machine

open Sys2Proof

/-! ## Fields of qcfg -/

/-- A field that is replaced reads as written, and the others read as before. -/
theorem qField_setQField (v : BitVec 16) {p q f : Nat} (hp : p < 4) (hq : q < 4) (hf : f < 16) :
    qField (setQField v p f) q = if q = p then f else qField v q := by
  have := v.isLt
  simp only [qField, setQField, BitVec.toNat_ofNat]
  interval_cases p <;> interval_cases q <;> simp <;> omega

theorem Ctx.queueOf_mapped {c : Ctx} {q : Nat} (mapped : c.isMapped q = true) (outside : c.inLh = false) :
    c.queueOf q = some (qField c.qcfg q % 4) :=
  if_pos (by rw [outside, Bool.not_false, Bool.and_true]; exact mapped)

theorem Ctx.queueOf_unmapped {c : Ctx} {q : Nat} (unmapped : c.isMapped q = false) : c.queueOf q = none :=
  if_neg (by rw [show decide (8 ≤ c.qcfg.toNat / 16 ^ q % 16) = false from unmapped]; exact Bool.false_ne_true)

/-! ## Units that change their context and retire -/

theorem State.onCur_retires (s : State) {f : Ctx → Ctx} (frame : (f s.cur).frame = s.cur.frame) (count : (f s.cur).instret = s.cur.instret) :
    Retired s (s.onCur f).retire :=
  retired_retire rfl ((congrArg Ctx.frame (s.cur_onCur f)).trans frame) ((congrArg Ctx.instret (s.cur_onCur f)).trans count)

theorem unitFrame_onCur_retire {hide : Ctx → Ctx} {s : State} {f : Ctx → Ctx} {but : List Nat} (h : UnitFrame hide s (s.onCur f) but) :
    UnitFrame hide s (s.onCur f).retire but :=
  UnitFrame.trans (t := s.onCur f) rfl h (unitFrame_retire hide (s.onCur f) (s.onCur f).iss.npc but)

theorem Ctx.setRegAt_bad_ne (c : Ctx) {t u : Nat} (v : Word) (lt : u < 48) (ne : u ≠ t) :
    (c.setRegAt t v).bad.getLsbD u = c.bad.getLsbD u := by
  simp [Ctx.setRegAt, lt]
  omega

/-! ## QMAP (R186) -/

/-- The context with a queue mapped on a direction. -/
def Ctx.qmapped (c : Ctx) (q d : Nat) : Ctx := { c with qcfg := setQField c.qcfg q (8 + d) }

theorem State.qmap_maps {s : State} {q d p : Nat} (peer : peerOf s.iss.core d = some p) (team : p ∈ (s.teamOf s.iss.core).cores)
    (unmapped : s.cur.isMapped q = false) (free : s.here.queueTaken q d = false) (outside : s.cur.inLh = false) :
    s.qmap q d = some (s.onCur (·.qmapped q d)) := by
  have inside : (s.teamOf s.iss.core).cores.contains p = true := List.elem_eq_true_of_mem team
  simp only [State.qmap, peer, inside, unmapped, free, outside]
  rfl

theorem State.qmap_refuses {s : State} {q d : Nat}
    (h : (∀ n, peerOf s.iss.core d = some n → n ∉ (s.teamOf s.iss.core).cores) ∨ s.cur.isMapped q = true ∨ s.here.queueTaken q d = true ∨
      s.cur.inLh = true) : s.qmap q d = none := by
  unfold State.qmap
  split
  case h_1 => rfl
  case h_2 p peer =>
    refine if_pos ?_
    obtain out | mapped | taken | light := h
    · simp [out p peer]
    · simp [mapped]
    · simp [taken]
    · simp [light]

theorem unitFrame_qmapped (s : State) (q d : Nat) :
    UnitFrame (fun c => { c with qcfg := 0 }) s (s.onCur (·.qmapped q d)).retire [] :=
  unitFrame_onCur_retire (unitFrame_onCur _ s (·.qmapped q d) [] rfl (fun _ _ => rfl) fun _ _ _ => ⟨rfl, rfl⟩)

/-! ## QUNMAP (R186) -/

theorem State.qunmap_unmaps {s : State} {q : Nat} (mapped : s.cur.isMapped q = true) : s.qunmap q = some (s.onCur (·.qunmapped q)) :=
  if_pos mapped

theorem unitFrame_qunmapped (s : State) (q : Nat) :
    UnitFrame (fun c => { c with qcfg := 0 }) s (s.onCur (·.qunmapped q)).retire [s.cur.ownTag (5 + q)] := by
  have other {r : Nat} (h : r ∉ [s.cur.ownTag (5 + q)]) : r ≠ s.cur.ownTag (5 + q) := by simpa using h
  refine unitFrame_onCur_retire (unitFrame_onCur _ s (·.qunmapped q) _ rfl (fun r h => ?_) fun r lt h => ⟨?_, ?_⟩)
  · exact Ctx.regAt_setRegAt_ne _ _ (other h)
  · exact Ctx.markFull_fe_ne _ (other h)
  · exact Ctx.setRegAt_bad_ne _ 0 lt (other h)

/-! ## QCTL and QSTAT (R187) -/

theorem State.push_keeps (s : State) (d : Nat) (w : QWord) :
    (s.push d w).mem = s.mem ∧ (s.push d w).cur.frame = s.cur.frame ∧ (s.push d w).cur.instret = s.cur.instret := by
  unfold State.push
  split
  · rw [State.onHere_cur s _ rfl]
    exact ⟨rfl, rfl, rfl⟩
  · rw [State.cur_onCur]
    exact ⟨rfl, rfl, rfl⟩

theorem exec_qctl {s : State} {q : BitVec 2} {a : XReg} {m : Nat} (outbound : 2 ≤ q.toNat) (ok : s.misuse [a] [] = false)
    (mapped : s.cur.queueOf q.toNat = some m) :
    exec (.qctl q a) s = .next ((s.pops [a]).push m (true, s.rd a, 0)).retire := by
  show execQctl q a s = _
  rw [execQctl, if_neg (Nat.not_lt.2 outbound)]
  simp only [mapped, ok]
  rfl

theorem exec_qctl_unmapped {s : State} {q : BitVec 2} (a : XReg) (outbound : 2 ≤ q.toNat) (unmapped : s.cur.queueOf q.toNat = none) :
    exec (.qctl q a) s = .next (s.trap 0x0E 0) := by
  show execQctl q a s = _
  rw [execQctl, if_neg (Nat.not_lt.2 outbound)]
  simp only [unmapped]
  rfl

/-- A unit that pops its sources, pushes a word and retires: the word joins a queue with room, and a full queue holds it. -/
theorem State.push_retires (s : State) (l : List XReg) (m : Nat) (w : QWord) :
    let t := ((s.pops l).push m w).retire
    Retired s t ∧ SameBytes s t ∧ SameRegs s t [] ∧ ((s.here.outbound m).length < 8 → t.here.outbound m = s.here.outbound m ++ [w]) ∧
      (8 ≤ (s.here.outbound m).length → t.here.outbound m = s.here.outbound m ∧ t.cur.heldPush = s.cur.heldPush ++ [(m, w)]) := by
  intro t
  obtain ⟨mem, frame, count⟩ := (s.pops l).push_keeps m w
  rw [State.pops_cur] at frame count
  have queue : (s.pops l).here.outbound m = s.here.outbound m := by simp only [Core.outbound, State.here_pops_outq]
  refine ⟨retired_retire ((State.push_iss ..).trans (State.pops_iss ..)) frame count,
    fun _ => by rw [State.retire_mem, mem, (s.pops_world l).mem], sameRegs_retire fun r _ => by rw [State.push_regAt, State.pops_cur],
    fun room => ?_, fun full => ?_⟩
  · rw [← queue] at room
    simp only [t, State.push_room _ w room, ← queue]
    simp [State.retire, Core.outbound]
  · rw [← queue] at full
    simp only [t, State.push_full _ w full, ← queue]
    simp [State.retire, Core.outbound, State.pops_cur]

/-- QSTAT of a mapped queue. -/
theorem exec_qstat {s : State} {d : XReg} {q : BitVec 2} {m : Nat} (ok : s.misuse [] [d] = false) (mapped : s.cur.queueOf q.toNat = some m) :
    let w := if q.toNat < 2 then s.here.inbound m else s.here.outbound m
    exec (.qstat d q) s =
      .next ((s.wr d (BitVec.ofNat 64 (w.length + (if (w.head?.map (·.1)) = some true then 256 else 0) + 512))).retire) := by
  show execQstat d q s = _
  simp only [execQstat, State.put_next _ _ _ _ ok, mapped]
  generalize (if q.toNat < 2 then s.here.inbound m else s.here.outbound m) = w
  match w with
  | [] => rfl
  | (true, _) :: _ => rfl
  | (false, _) :: _ => rfl

theorem exec_qstat_unmapped {s : State} {d : XReg} {q : BitVec 2} (ok : s.misuse [] [d] = false) (unmapped : s.cur.queueOf q.toNat = none) :
    exec (.qstat d q) s = .next ((s.wr d 0).retire) := by
  show execQstat d q s = _
  simp only [execQstat, State.put_next _ _ _ _ ok, unmapped]
  rfl

/-- Settles O32: each unit's one answer, by whether its queue is mapped. -/
theorem queueControlResult : Obligations.QueueControlResult := by
  intro s q e d a p
  refine ⟨fun peer team unmapped free outside => ?map, fun refused => ?refuse, fun mapped => ?unmap, fun unmapped => ?unmapRefused,
    fun out ok m queue => ⟨_, exec_qctl out ok queue, s.push_retires [a] m _⟩, fun out none => exec_qctl_unmapped a out none,
    fun low => if_pos low, fun ok m queue => exec_qstat ok queue, fun ok none => exec_qstat_unmapped ok none, Ctx.queueOf_mapped,
    Ctx.queueOf_unmapped⟩
  case map =>
    have field (r : BitVec 2) : qField (s.cur.qmapped q.toNat e.toNat).qcfg r.toNat = if r.toNat = q.toNat then 8 + e.toNat else
        qField s.cur.qcfg r.toNat := qField_setQField _ q.isLt r.isLt (by omega)
    have qcfg : (s.onCur (·.qmapped q.toNat e.toNat)).retire.cur.qcfg = (s.cur.qmapped q.toNat e.toNat).qcfg := by
      rw [State.retire_cur, Ctx.retire_qcfg, State.cur_onCur]
    refine ⟨(s.onCur (·.qmapped q.toNat e.toNat)).retire, ?_, ?_, fun r ne => ?_, s.onCur_retires rfl rfl, unitFrame_qmapped ..⟩
    · show execQmap q e s = _
      rw [execQmap, State.qmap_maps peer team unmapped free outside]
    · rw [qcfg, field, if_pos rfl]
    · rw [qcfg, field, if_neg fun same => ne (BitVec.eq_of_toNat_eq same)]
  case refuse =>
    show execQmap q e s = _
    rw [execQmap, State.qmap_refuses refused]
    rfl
  case unmap =>
    obtain ⟨zero, full⟩ := s.cur.qunmapped_cleared q.isLt
    refine ⟨(s.onCur (·.qunmapped q.toNat)).retire, ?_, ?_, ?_, ?_, ?_, ?_, s.onCur_retires rfl rfl, unitFrame_qunmapped ..⟩
    · show execQunmap q s = _
      rw [execQunmap, State.qunmap_unmaps mapped]
    · rw [State.retire_cur, Ctx.retire_qcfg, State.cur_onCur]
      exact (qField_setQField _ q.isLt q.isLt (by decide)).trans (if_pos rfl)
    · rw [State.retire_cur, Ctx.retire_regAt, State.cur_onCur, zero]
    · rw [State.retire_cur, Ctx.retire_fe, State.cur_onCur, full]
    · simp [State.retire]
    · simp [State.retire]
  case unmapRefused =>
    show execQunmap q s = _
    rw [execQunmap, State.qunmap, if_neg (by rw [unmapped]; exact Bool.false_ne_true)]
    rfl

end Sys2Proof.Machine
end

section
/-! PROOF. Event lines (R185): EVSIG, WFE, and a signal that reaches its line. -/

namespace Sys2Proof.Machine

open Sys2Proof

/-! ## EVSIG -/

theorem exec_evsig {s : State} {a : XReg} (l : BitVec 4) (ok : s.misuse [a] [] = false)
    (team : targetCore (s.rd a) ∈ (s.teamOf s.iss.core).cores) :
    exec (.evsig a l) s = .next ((s.pops [a]).issueReq 1 (.core (targetCore (s.rd a))) (winKey (targetCore (s.rd a)) 5 l.toNat) 0 0 false 0
      (.event l.toNat)).retire := by
  have inside : (s.teamOf s.iss.core).cores.contains (targetCore (s.rd a)) = true := List.elem_eq_true_of_mem team
  show execEvsig a l s = _
  simp only [execEvsig, ok, inside]
  rfl

/-- The request of a unit that pops its sources, issues it and retires is the last one. -/
theorem State.issueReq_retire_reqs (s : State) (l : List XReg) (cls : Nat) (h : Home) (key : Nat) (va : Word) (slot : Nat) (str : Bool) (acq : Nat)
    (op : ReqOp) : ((s.pops l).issueReq cls h key va slot str acq op).retire.reqs =
      s.reqs ++ [(s.pops l).nextOf cls h key va slot str acq op] := by
  rw [State.retire_reqs, State.issueReq, State.addReq_reqs, (s.pops_world l).reqs]

/-! ## Lines -/

/-- The core as a signal that a line held is taken. -/
def Core.takeEvent (c : Core) (l : Nat) : Core := { c with events := c.events &&& ~~~ (1#16 <<< l) }

theorem Core.takeEvent_getLsbD (c : Core) (l k : Nat) :
    (c.takeEvent l).events.getLsbD k = (c.events.getLsbD k && decide (k ≠ l)) := by
  unfold Core.takeEvent
  by_cases low : k < 16
  · by_cases same : k = l
    · simp [same]
    · simp [low, same]
      omega
  · simp [BitVec.getLsbD_of_ge c.events k (Nat.not_lt.1 low)]

theorem raiseLine_getLsbD (v : BitVec 16) {l : Nat} (h : l < 16) : (v ||| 1#16 <<< l).getLsbD l = true := by
  simp [h]

/-! ## A signal that reaches its line -/

theorem Core.signal_held {c : Core} {l : Nat} (none : ∀ k ∈ c.ctxs, k.2.st ≠ .wfe l) :
    c.signal l = { c with events := c.events ||| (1#16 <<< l) } := by
  refine if_neg ?_
  rw [List.any_eq_true]
  rintro ⟨k, mem, waits⟩
  exact none k mem (beq_iff_eq.1 waits)

theorem Core.signal_wakes {c : Core} {l : Nat} (waiter : ∃ k ∈ c.ctxs, k.2.st = .wfe l) :
    c.signal l = { c with ctxs := c.ctxs.map fun x => (x.1, x.2.eventWake l) } := by
  obtain ⟨k, mem, waits⟩ := waiter
  exact if_pos (List.any_eq_true.2 ⟨k, mem, (beq_iff_eq (a := k.2.st)).2 waits⟩)

/-- Every context meets the signal, and those that do not wait for its line are left alone. -/
theorem Core.ctx_eventWake (c : Core) (l x : Nat) :
    ({ c with ctxs := c.ctxs.map fun x => (x.1, x.2.eventWake l) } : Core).ctx x = (c.ctx x).eventWake l :=
  tabGet_map Ctx.empty (·.eventWake l) rfl c.ctxs x

theorem Ctx.eventWake_waiting {c : Ctx} {l : Nat} (h : c.st = .wfe l) : c.eventWake l = { c.retire c.wnpc with st := .run } := if_pos h

theorem exec_eventSignalArrival {s : State} {n l : Nat} {r : List Nat} (queue : (s.core n).sigq = l :: r) :
    exec (.eventSignalArrival n) s = .next (s.onCore n fun k => { k with sigq := r }.signal l) := by
  show execEventSignalArrival n s = _
  simp only [execEventSignalArrival, queue]

/-- Settles O36: the request of EVSIG, the two outcomes of WFE, and the two of a signal that arrives. -/
theorem eventLinesResult : Obligations.EventLinesResult := by
  intro s a l n x r
  refine ⟨fun ok team => ?sends, fun held => ?takes, fun idle => ?waits, fun queue none => ?holds, fun queue waiter mine => ?wakes⟩
  case sends =>
    exact ⟨_, _, exec_evsig l ok team, s.issueReq_retire_reqs [a] .., rfl, rfl, s.issueReq_retires [a] ..⟩
  case takes =>
    have cur : (s.onHere (·.takeEvent l.toNat)).cur = s.cur := s.onHere_cur _ rfl
    have line (k : Nat) : (s.onHere (·.takeEvent l.toNat)).retire.here.events.getLsbD k =
        (s.here.events.getLsbD k && decide (k ≠ l.toNat)) := by
      rw [State.retire, State.here_onCur_events, State.here_onHere, Core.takeEvent_getLsbD]
    refine ⟨(s.onHere (·.takeEvent l.toNat)).retire, if_pos held, ?_, fun k ne => ?_, ?_, fun _ => rfl⟩
    · rw [line, decide_eq_false (not_not.2 rfl), Bool.and_false]
    · rw [line, decide_eq_true ne, Bool.and_true]
    · exact retired_retire rfl (by rw [cur]) (by rw [cur])
  case waits =>
    refine ⟨s.onCur fun c => { c with st := .wfe l.toNat, wnpc := s.iss.npc }, if_neg (by rw [idle]; exact Bool.false_ne_true), ?_, ?_,
      State.here_onCur_events .., fun _ => rfl⟩ <;> rw [State.cur_onCur]
  case holds =>
    refine ⟨_, exec_eventSignalArrival queue, ?_, ?_, fun _ => rfl⟩ <;>
      rw [State.core_onCore_same, Core.signal_held (c := { s.core n with sigq := r }) none]
    exact raiseLine_getLsbD _ l.isLt
  case wakes =>
    have wake := Core.signal_wakes (c := { s.core n with sigq := r }) waiter
    have woken : ((s.onCore n fun k => { k with sigq := r }.signal l.toNat).ctxAt n x) =
        { (s.ctxAt n x).retire (s.ctxAt n x).wnpc with st := .run } := by
      rw [State.ctxAt, State.core_onCore_same, wake, Core.ctx_eventWake]
      exact Ctx.eventWake_waiting mine
    refine ⟨_, exec_eventSignalArrival queue, ?_, ?_, ?_, ?_, fun _ => rfl⟩
    · rw [State.core_onCore_same, wake]
    · rw [State.core_onCore_same, wake]
    · rw [woken]
    · rw [woken]
      rfl

end Sys2Proof.Machine
end

section
/-! PROOF. TSELF (R179): the value of each selector. -/

namespace Sys2Proof.Machine

open Sys2Proof

/-! ## The values -/

/-- Bits 62 to 0 of an identity are the context's number, and bit 63 is its probe bit (R15). -/
theorem State.identity_bits (s : State) :
    s.identity.toNat % 2 ^ 63 = (s.iss.core * 16 + s.iss.ctx) % 2 ^ 63 ∧
      (s.iss.core < 8192 → s.iss.ctx < 16 → s.identity.getLsbD 63 = s.cur.probe) := by
  refine ⟨?_, fun core ctx => ?_⟩
  · rw [State.identity, BitVec.toNat_ofNat, ident]
    split <;> omega
  · rw [State.identity, BitVec.getLsbD_ofNat, ident, Nat.testBit_eq_decide_div_mod_eq]
    cases s.cur.probe <;> simp <;> omega

/-- The place of an element that a list has is an index of it. -/
theorem getElem?_placeOf {l : List Nat} {n : Nat} (h : n ∈ l) : l[placeOf l n]? = some n := by
  have lt : placeOf l n < l.length := List.findIdx_lt_length_of_exists ⟨n, h, beq_self_eq_true n⟩
  rw [List.getElem?_eq_getElem lt]
  exact congrArg some (beq_iff_eq.1 (List.findIdx_getElem (w := lt)))

/-- A member's number names a place of the family's list, and the core there (R33). -/
theorem Desc.coreOf_getElem? (e : Desc) (n m : Nat) (h : placeList n e.place e.cmask ≠ []) :
    (placeList n e.place e.cmask)[m / e.block % (placeList n e.place e.cmask).length]? = some (e.coreOf n m) := by
  have lt : m / e.block % (placeList n e.place e.cmask).length < (placeList n e.place e.cmask).length :=
    Nat.mod_lt _ (List.length_pos_of_ne_nil h)
  rw [Desc.coreOf, List.getD_eq_getElem _ _ lt]
  exact List.getElem?_eq_getElem lt

theorem Ctx.famh_none {c : Ctx} (h : c.fam = none) : c.famh = 0 := by simp only [Ctx.famh, h]
theorem Ctx.famh_some {c : Ctx} {f : FamRef} (h : c.fam = some f) :
    c.famh = BitVec.ofNat 64 (2 ^ 31 + f.core % 16 * 256 + f.ctx * 16 + f.entry) := by simp only [Ctx.famh, h]

theorem State.selfValue_place_none {s : State} (h : s.cur.fam = none) : s.selfValue 3 = 0 := by
  simp only [State.selfValue, h]
  rfl
theorem State.selfValue_place {s : State} {f : FamRef} (h : s.cur.fam = some f) :
    let e := (s.fam f).desc
    let p := placeList f.core e.place e.cmask
    s.selfValue 3 = BitVec.ofNat 64 (p.length * 2 ^ 32 + s.cur.member / e.block % p.length) := by
  simp only [State.selfValue, h]
  rfl

/-! ## The unit -/

theorem exec_tself {s : State} {d : XReg} {k : BitVec 5} (ok : s.misuse [] [d] = false) (low : k.toNat ≤ 6) :
    exec (.tself d k) s = .next ((s.wr d (s.selfValue k.toNat)).retire) :=
  (if_neg (Nat.not_lt.2 low)).trans (s.put_next [] d _ ok)

/-- Settles O37: the selector's value is written; above 6 there is none. -/
theorem tselfResult : Obligations.TselfResult := by
  intro s d k ok n t
  refine ⟨fun high => if_pos high, fun low => ⟨_, exec_tself ok low, ?identity, ?tid, ?famhNone, ?famh, ?placeNone, ?place, ?router, ?rank,
    ?block⟩⟩
  case identity =>
    rintro rfl
    exact s.identity_bits
  case tid =>
    rintro rfl
    rfl
  case famhNone =>
    rintro rfl none
    exact Ctx.famh_none none
  case famh =>
    rintro rfl f some
    exact Ctx.famh_some some
  case placeNone =>
    rintro rfl none
    exact State.selfValue_place_none none
  case place =>
    rintro rfl f some e l listed
    exact ⟨_, e.coreOf_getElem? f.core s.cur.member listed, State.selfValue_place some⟩
  case router =>
    rintro rfl
    rfl
  case rank =>
    rintro rfl mem
    exact ⟨_, getElem?_placeOf mem, rfl⟩
  case block =>
    rintro rfl
    rfl

end Sys2Proof.Machine
end

section
/-! PROOF. Full/empty instructions, atomics, acquires, releases and L1 lines at issue (R88, R194, R195, R199, R201 to R204): a unit that pops
its sources, sends at most one request and retires. -/

namespace Sys2Proof.Machine

open Sys2Proof

/-! ## A unit that retires, and one that sends a request beside that -/

/-- The context differs at most in what a unit that issues a request may change: what it waits for. -/
structure Ctx.Waits (c e : Ctx) : Prop where
  frame : e.frame = c.frame
  count : e.instret = c.instret
  file : e.x = c.x

/-- The unit has retired and left the context c, with every byte of memory and every register as they were. -/
structure State.Finishes (s t : State) (c : Ctx) : Prop where
  cur : t.cur = c.retire s.iss.npc
  retired : Retired s t
  bytes : SameBytes s t
  regs : SameRegs s t []

/-- It has sent one request beside that. -/
structure State.SendsOne (s t : State) (r : Req) (c : Ctx) : Prop extends State.Finishes s t c where
  reqs : t.reqs = s.reqs ++ [r]
  next : t.nextReq = s.nextReq + 1
  resv : t.resv = s.resv

/-- A unit under way that has sent one request, with its context and memory as they were. -/
structure State.Sent (s u : State) (r : Req) : Prop where
  iss : u.iss = s.iss
  mem : u.mem = s.mem
  cur : u.cur = s.cur
  reqs : u.reqs = s.reqs ++ [r]
  next : u.nextReq = s.nextReq + 1
  resv : u.resv = s.resv

theorem Ctx.Waits.refl (c : Ctx) : c.Waits c := ⟨rfl, rfl, rfl⟩

theorem Ctx.waits_await (c : Ctx) (t : Nat) (e : Bool) : c.Waits (c.await t e) := by
  obtain ⟨frame, count, -, file⟩ := c.await_keeps t e
  exact ⟨frame, count, file⟩

theorem State.finishes_retire {s u : State} {c : Ctx} (iss : u.iss = s.iss) (mem : u.mem = s.mem) (cur : u.cur = c) (waits : s.cur.Waits c) :
    s.Finishes u.retire c where
  cur := by rw [State.retire_cur, cur, iss]
  retired := retired_retire iss (by rw [cur, waits.frame]) (by rw [cur, waits.count])
  bytes := fun a => congrArg (memGet · a) mem
  regs := sameRegs_retire fun r _ => by rw [cur, Ctx.regAt, waits.file, Ctx.regAt]

@[simp] theorem State.addReq_resv (s : State) (r : Req) : (s.addReq r).resv = s.resv := by
  simp only [State.addReq]; split <;> rfl

theorem State.sent_addReq (s : State) (l : List XReg) (r : Req) : s.Sent ((s.pops l).addReq r) r where
  iss := by rw [State.addReq_iss, State.pops_iss]
  mem := by rw [State.addReq_mem, State.pops_mem]
  cur := by rw [State.addReq_cur, State.pops_cur]
  reqs := by rw [State.addReq_reqs, (s.pops_world l).reqs]
  next := by rw [State.addReq_nextReq, (s.pops_world l).nextReq]
  resv := (State.addReq_resv ..).trans (congrArg State.resv (s.pops_world l) :)

/-- Popping its sources changes nothing that a request carries. -/
theorem State.nextOf_pops (s : State) (l : List XReg) (cls : Nat) (h : Home) (key : Nat) (va : Word) (slot : Nat) (str : Bool) (acq : Nat)
    (op : ReqOp) : (s.pops l).nextOf cls h key va slot str acq op = s.nextOf cls h key va slot str acq op := by
  have world := s.pops_world l
  have cycle : (s.pops l).cycle = s.cycle := (congrArg State.cycle world :)
  obtain ⟨-, -, body, -⟩ := unitFrame_pops id s l []
  have team : (s.pops l).here.team = s.here.team := (congrArg Core.team body :)
  simp only [State.nextOf, s.pops_cur, s.pops_iss, world.nextReq, team, cycle]

theorem State.sent_issueReq (s : State) (l : List XReg) (cls : Nat) (h : Home) (key : Nat) (va : Word) (slot : Nat) (str : Bool) (acq : Nat)
    (op : ReqOp) : s.Sent ((s.pops l).issueReq cls h key va slot str acq op) (s.nextOf cls h key va slot str acq op) := by
  rw [State.issueReq, State.nextOf_pops]
  exact s.sent_addReq l _

section
variable {s u : State} {r : Req} (h : s.Sent u r)
include h

/-- A change of the core that keeps its contexts. -/
theorem State.Sent.onHere {f : Core → Core} (body : ∀ k, (f k).ctxs = k.ctxs) : s.Sent (u.onHere f) r where
  iss := h.iss
  mem := h.mem
  cur := (State.onHere_cur u f (body _)).trans h.cur
  reqs := h.reqs
  next := h.next
  resv := h.resv

/-- Where asked, the line of a key leaves the view. -/
theorem State.Sent.dropLine (drop : Bool) (key : Nat) : s.Sent (if drop then u.onHere (·.l1Drop key) else u) r := by
  cases drop
  · exact h
  · exact h.onHere fun _ => rfl

theorem State.Sent.retire {g : Ctx → Ctx} (waits : s.cur.Waits (g s.cur)) : s.SendsOne (u.onCur g).retire r (g s.cur) where
  toFinishes := State.finishes_retire h.iss h.mem (by rw [State.cur_onCur, h.cur]) waits
  reqs := h.reqs
  next := h.next
  resv := h.resv

/-- A unit whose context waits for nothing. -/
theorem State.Sent.retire_same : s.SendsOne u.retire r s.cur where
  toFinishes := State.finishes_retire h.iss h.mem h.cur (.refl _)
  reqs := h.reqs
  next := h.next
  resv := h.resv

end

section
variable {s t : State} {c : Ctx}

theorem State.Finishes.fe (h : s.Finishes t c) : t.cur.fe = c.fe := by rw [h.cur, Ctx.retire_fe]
theorem State.Finishes.pend (h : s.Finishes t c) : t.cur.pend = c.pend := by rw [h.cur, Ctx.retire_pend]
theorem State.Finishes.acq (h : s.Finishes t c) : t.cur.acq = c.acq := by rw [h.cur, Ctx.retire_acq]

/-- Whatever the scope and the marks of the request, the unit has issued it. -/
theorem State.SendsOne.issued {p : Phys} {va : Word} {cls slot acq scope : Nat} {str nf : Bool} {op : ReqOp}
    (h : s.SendsOne t { s.nextOf cls p.home p.key va slot str acq op with scope := scope, noFill := nf } c) : Issued s t p va cls op :=
  ⟨_, h.reqs, rfl, rfl, rfl, rfl, rfl, rfl, rfl, rfl, rfl, rfl, h.next⟩

end

/-- A register that the unit has named as destination, and that no queue takes the place of, is empty until its fill (R28). -/
theorem State.Finishes.dest_empty {s t : State} {c : Ctx} {d : XReg} (h : s.Finishes t c) (waits : c.fe = (s.cur.await (s.cur.dest d) true).fe)
    (named : d ≠ 0) (plain : s.cur.mapped d = none) : t.cur.fe.getLsbD (s.cur.tag d) = false := by
  rw [h.fe, waits, Ctx.dest_unmapped _ named plain]
  exact Ctx.await_empties _ (s.cur.tag_pos named) (s.cur.tag_lt d)

/-- An access that is let through, and that no request of the thread holds back, goes on. -/
theorem State.withAccess_ok {s : State} {va : Word} {n al g : Nat} {w gl so h : Bool} {l : List Nat} {p : Phys}
    (acc : s.access s.iss.core va n al w l gl so = .ok p g h) (free : s.holdsBack p.key n = false) (k : Phys → Nat → Bool → State) :
    s.withAccess va n al w l gl so k = .next (k p g h) := by
  simp only [State.withAccess, acc, free, Bool.false_eq_true, if_false]

/-! ## Full/empty instructions (R194, R195) -/

/-- The context of LDC, LDP and FEST waits for the fill, and counts an acquire where the unit is one. -/
def Ctx.asks (c : Ctx) (t : Nat) (acquire : Bool) : Ctx := { c.await t true with acq := c.acq + (if acquire then 1 else 0) }

theorem Ctx.waits_asks (c : Ctx) (t : Nat) (acquire : Bool) : c.Waits (c.asks t acquire) := by
  obtain ⟨frame, count, file⟩ := c.waits_await t true
  exact ⟨frame, count, file⟩

section
variable {s : State} {p : Phys} {va : Word}

theorem State.sent_feIssue (s : State) (l : List XReg) (p : Phys) (va : Word) (acq : Nat) (op : ReqOp) :
    s.Sent ((s.pops l).feIssue p va acq op) (s.nextOf (if p.home = .core s.iss.core then 0 else 1) p.home p.key va 0 false acq op) := by
  rw [State.feIssue, s.pops_iss]
  exact s.sent_issueReq l ..

variable {d a b : XReg} {g : Nat} {h : Bool}

/-- What a unit does that asks for a word and waits for the fill. -/
def State.AsksWord (s : State) (d : XReg) (p : Phys) (va : Word) (op : ReqOp) (acquire : Bool) (o : Out) : Prop :=
  ∃ t : State, o = .next t ∧ Issued s t p va (if p.home = .core s.iss.core then 0 else 1) op ∧ Retired s t ∧ SameBytes s t ∧ SameRegs s t [] ∧
    (d ≠ 0 → s.cur.mapped d = none → t.cur.fe.getLsbD (s.cur.tag d) = false) ∧ t.cur.acq = s.cur.acq + (if acquire then 1 else 0)

theorem State.feLoad_asks (ok : s.misuse [a] [d] = false)
    (acc : s.access s.iss.core (s.rd a) 8 8 false [0] false false = .ok p g h) (free : s.holdsBack p.key 8 = false) (acquire : Bool)
    (op : Nat → ReqOp) : s.AsksWord d p (s.rd a) (op (s.cur.dest d)) acquire (s.feLoad d a acquire op) := by
  rw [State.feLoad, if_neg (by simp [ok]), State.withAccess_ok acc free]
  have sends := (s.sent_feIssue [a] p (s.rd a) (if acquire then 1 + meetScope s.iss.core ((coreOf p.home).getD 0) else 0)
    (op (s.cur.dest d))).retire (g := (·.asks (s.cur.dest d) acquire)) (s.cur.waits_asks ..)
  exact ⟨_, rfl, sends.issued, sends.retired, sends.bytes, sends.regs, sends.dest_empty rfl, sends.acq⟩

/-- STF once no earlier request is left to wait for (R88). -/
theorem execStf_sends {n r o : Nat} (ok : s.misuse [a, b] [] = false)
    (acc : s.access s.iss.core (s.rd a) 8 8 true [0] false false = .ok p g h) (free : s.holdsBack p.key 8 = false)
    (place : classify s.iss.core (s.rd a) = .window n r o)
    (done : s.pending s.cur.uid 1 (meetScope s.iss.core n) s.nextReq = false) :
    exec (.stf a b) s = .next (((s.pops [a, b]).feIssue p (s.rd a) 0 (.stf (s.rd b))).retire) := by
  show execStf a b s = _
  rw [execStf, if_neg (by simp [ok])]
  simp only [place, acc]
  rw [State.afterAll_free done, State.withAccess_ok acc free]

theorem execSete_sends (ok : s.misuse [a] [] = false)
    (acc : s.access s.iss.core (s.rd a) 8 8 true [0] false false = .ok p g h) (free : s.holdsBack p.key 8 = false) :
    exec (.sete a) s = .next (((s.pops [a]).feIssue p (s.rd a) 0 .sete).retire) := by
  show execSete a s = _
  rw [execSete, if_neg (by simp [ok]), State.withAccess_ok acc free]

end

/-- Settles O15: each unit sends its one request; the three loads are `feLoad`, and STF waits for nothing any more. -/
theorem fullEmptyIssue : Obligations.FullEmptyIssue := by
  intro s d a b p g h n o va cls
  refine ⟨fun ok acc free => ?loads, fun ok acc free place done => ?stf, fun ok acc free => ?sete⟩
  case loads =>
    simp only [List.forall_mem_cons, List.not_mem_nil, false_imp_iff, implies_true, and_true]
    exact ⟨State.feLoad_asks ok acc free true .ldc, State.feLoad_asks ok acc free false .ldp, State.feLoad_asks ok acc free false .fest⟩
  case stf =>
    have sends := (s.sent_feIssue [a, b] p va 0 (.stf (s.rd b))).retire_same
    exact ⟨_, execStf_sends ok acc free place done, sends.issued, sends.retired, sends.bytes, sends.regs⟩
  case sete =>
    have sends := (s.sent_feIssue [a] p va 0 .sete).retire_same
    exact ⟨_, execSete_sends ok acc free, sends.issued, sends.retired, sends.bytes, sends.regs⟩

/-! ## Atomics (R203, R204) -/

/-- What an atomic does whose access is let through. -/
def State.AsksAtomic (s : State) (c : BitVec 2) (d : XReg) (p : Phys) (va : Word) (op : ReqOp) (o : Out) : Prop :=
  ∃ t : State, o = .next t ∧ Issued s t p va (if p.home = .core s.iss.core then 0 else 1) op ∧
    (∃ r, t.reqs.getLast? = some r ∧ r.scope = c.toNat + 1) ∧ Retired s t ∧ SameBytes s t ∧ SameRegs s t [] ∧
    (d ≠ 0 → s.cur.mapped d = none → t.cur.fe.getLsbD (s.cur.tag d) = false)

theorem State.atomic_asks (s : State) (p : Phys) (c : BitVec 2) (d a b : XReg) (g : Nat) (h : Bool) (op : Nat) (w : BitVec 1) :
    let n := if w = 1 then 8 else 4
    s.misuse (if op = 9 then [a, b, d] else [a, b]) [d] = false → s.access s.iss.core (s.rd a) n n true [0] true false = .ok p g h →
    s.holdsBack p.key n = false →
    s.AsksAtomic c d p (s.rd a) (.amo op n (s.cur.dest d) (s.rd b) (s.rd d)) (s.atomic op w c d a b) := by
  intro n ok acc free
  rw [State.atomic, if_neg (by simp [ok])]
  simp only [n, State.withAccess_ok acc free, State.nextOf_pops]
  have sends := ((s.sent_addReq (if op = 9 then [a, b, d] else [a, b])
    { s.nextOf (if p.home = .core s.iss.core then 0 else 1) p.home p.key (s.rd a) p.slot p.stream 0
      (.amo op n (s.cur.dest d) (s.rd b) (s.rd d)) with scope := c.toNat + 1 }).dropLine h p.key).retire
    (g := (·.await (s.cur.dest d) true)) (s.cur.waits_await ..)
  exact ⟨_, rfl, sends.issued, ⟨_, by rw [sends.reqs, List.getLast?_concat], rfl⟩, sends.retired, sends.bytes, sends.regs,
    sends.dest_empty rfl⟩

/-- Settles O16: every atomic is `State.atomic` at its operation and width. -/
theorem atomicsIssue : Obligations.AtomicsIssue := by
  intro s w c d a b p g h va
  have asks := s.atomic_asks p c d a b g h
  simp only [List.forall_mem_cons, List.not_mem_nil, false_imp_iff, implies_true, and_true]
  exact ⟨asks 0 w, asks 1 w, asks 2 w, asks 3 w, asks 4 w, asks 5 w, asks 6 w, asks 7 w, asks 8 w, asks 9 w, asks 10 0, asks 11 0⟩

/-! ## LDAQ and STRL (R199) -/

/-- The context of LDAQ is that of an acquire of the full/empty loads. -/
theorem execLdaq_sends {s : State} {p : Phys} {d a : XReg} {g : Nat} {h : Bool} (c : BitVec 5) (ok : s.misuse [a] [d] = false)
    (acc : s.access s.iss.core (s.rd a) 8 8 false [0, 1, 2] true false = .ok p g h) (free : s.holdsBack p.key 8 = false) :
    ∃ t : State, exec (.ldaq d a c) s = .next t ∧
      s.SendsOne t { s.nextOf (if p.home = .core s.iss.core then 0 else 1) p.home p.key (s.rd a) p.slot p.stream
        (1 + scopeOf s.here.level c) (.load 8 true (s.cur.dest d)) with noFill := true } (s.cur.asks (s.cur.dest d) true) := by
  show ∃ t : State, execLdaq d a c s = .next t ∧ _
  rw [execLdaq, if_neg (by simp [ok])]
  simp only [State.withAccess_ok acc free, State.nextOf_pops]
  exact ⟨_, rfl, (s.sent_addReq [a] _).retire (g := (·.asks (s.cur.dest d) true)) (s.cur.waits_asks ..)⟩

theorem execStrl_eq {s : State} {p : Phys} {a b : XReg} {g : Nat} {h : Bool} (c : BitVec 5)
    (acc : s.access s.iss.core (s.rd a) 8 8 true [0, 1, 2, 4] true false = .ok p g h) :
    exec (.strl a b c) s = s.afterAll 2 (scopeOf s.here.level c) (s.scalarStore b a (s.rd a) 8) := by
  show execStrl a b c s = _
  simp only [execStrl, acc]

/-! ## CINV (R201) -/

/-- A line stays in the view where the range of a CINV is neither empty nor past the end of global space, and does not meet it. -/
theorem covers_false_iff (a n line : Nat) :
    covers a n line = false ↔ n ≠ 0 ∧ a + n ≤ 2 ^ 49 ∧ ¬(a / 128 ≤ line ∧ line ≤ (a + n - 1) / 128) := by
  simp only [covers, Bool.or_eq_false_iff, beq_eq_false_iff_ne, decide_eq_false_iff_not, Nat.not_lt, Bool.and_eq_false_iff, and_assoc,
    not_and_or]

theorem State.pops_l1 (s : State) (l : List XReg) : (s.pops l).here.l1 = s.here.l1 := by
  obtain ⟨-, -, body, -⟩ := unitFrame_pops id s l []
  exact (congrArg Core.l1 body :)

/-- The view without the lines that a CINV names. -/
def Core.l1Keep (k : Core) (a n : Nat) : Core := { k with l1 := k.l1.filter fun e => !covers a n e.2.va }

theorem execCinv_keeps {s : State} {a b : XReg} (ok : s.misuse [a, b] [] = false) :
    ∃ rs, exec (.cinv a b) s =
      .next (State.retire { (s.pops [a, b]).onHere (·.l1Keep (s.rd a).toNat (s.rd b).toNat) with reqs := rs }) := by
  show ∃ rs, execCinv a b s = _
  rw [execCinv, if_neg (by simp [ok])]
  exact ⟨_, rfl⟩

theorem execCinv_drops {s : State} {a b : XReg} (ok : s.misuse [a, b] [] = false) :
    ∃ t : State, exec (.cinv a b) s = .next t ∧ s.Finishes t s.cur ∧ t.here.l1 = (s.here.l1Keep (s.rd a).toNat (s.rd b).toNat).l1 := by
  obtain ⟨rs, run⟩ := execCinv_keeps ok
  have cur : ((s.pops [a, b]).onHere (·.l1Keep (s.rd a).toNat (s.rd b).toNat)).cur = s.cur :=
    (State.onHere_cur _ (·.l1Keep (s.rd a).toNat (s.rd b).toNat) rfl).trans (s.pops_cur _)
  have here : ((s.pops [a, b]).onHere (·.l1Keep (s.rd a).toNat (s.rd b).toNat)).here.l1 =
      (s.here.l1Keep (s.rd a).toNat (s.rd b).toNat).l1 := by
    rw [State.here_onHere, Core.l1Keep, s.pops_l1, Core.l1Keep]
  refine ⟨_, run, State.finishes_retire (s.pops_iss _) (s.pops_mem _) cur (.refl _), ?_⟩
  rw [State.retire, State.here_onCur_l1]
  exact here

/-! ## PREF (R202) -/

/-- What PREF may send: nothing, or one uncounted prefetch of its line in its thread's ordered lane. -/
def State.Prefetches (s t : State) (va : Word) : Prop :=
  t.reqs = s.reqs ∨ ∃ r, t.reqs = s.reqs ++ [r] ∧ r.uid = s.cur.uid ∧ r.cls = 1 ∧ r.counted = false ∧ r.va = va ∧ ∃ v, r.op = .prefetch v

/-- A unit under way that has sent at most one prefetch. -/
structure State.Prefetched (s u : State) (va : Word) : Prop where
  iss : u.iss = s.iss
  mem : u.mem = s.mem
  cur : u.cur = s.cur
  fills : u.fills = s.fills
  sends : s.Prefetches u va

@[simp] theorem State.addReq_fills (s : State) (r : Req) : (s.addReq r).fills = s.fills := by
  simp only [State.addReq]; split <;> rfl

theorem State.Prefetched.sendPref {s u : State} {va : Word} (h : s.Prefetched u va) (none : u.reqs = s.reqs) (n x level : Nat) (upc : Word)
    (p : Phys) : s.Prefetched (u.sendPref n x s.cur.uid level va.toNat upc p) va := by
  unfold State.sendPref
  extract_lets team r
  split
  · exact h
  · exact ⟨by rw [State.addReq_iss, h.iss], by rw [State.addReq_mem, h.mem], by rw [State.addReq_cur, h.cur],
      by rw [State.addReq_fills, h.fills],
      .inr ⟨_, by rw [State.addReq_reqs, none], rfl, rfl, rfl, BitVec.ofNat_toNat .. |>.trans (BitVec.setWidth_eq _), _, rfl⟩⟩

theorem execPref_prefetches {s : State} {a : XReg} (l : BitVec 1) (ok : s.misuse [a] [] = false) :
    ∃ u : State, exec (.pref a l) s = .next u.retire ∧ s.Prefetched u (s.rd a &&& ~~~127#64) := by
  have world := s.pops_world [a]
  have none : (s.pops [a]).reqs = s.reqs := world.reqs
  have popped : s.Prefetched { s.pops [a] with fresh := s.fresh + 1 } (s.rd a &&& ~~~127#64) :=
    ⟨s.pops_iss _, s.pops_mem _, s.pops_cur _, (congrArg State.fills world :), .inl none⟩
  show ∃ u : State, execPref a l s = .next u.retire ∧ _
  rw [execPref, if_neg (by simp [ok])]
  dsimp only
  split
  · exact ⟨_, rfl, popped⟩
  · split
    · exact ⟨_, rfl, popped.sendPref none ..⟩
    · split
      · exact ⟨_, rfl, popped.iss, popped.mem, popped.cur, popped.fills, .inl none⟩
      · exact ⟨_, rfl, popped⟩
    · exact ⟨_, rfl, popped⟩

/-- Settles O18: LDAQ is an acquire that keeps its line out of the view, STRL a store behind a wait, CINV a filter of the view, and PREF
sends one prefetch at most. -/
theorem acquireReleaseAndLines : Obligations.AcquireReleaseAndLines := by
  intro s d a b c l p g h va k
  refine ⟨fun ok acc free => ?ldaq, fun ok acc free => ⟨fun busy => ?strl_waits, fun done => ?strl⟩, fun ok => ?cinv, fun ok => ?pref⟩
  case ldaq =>
    obtain ⟨t, run, sends⟩ := execLdaq_sends c ok acc free
    refine ⟨t, _, run, sends.reqs, sends.issued, rfl, rfl, sends.acq, fun named => ?_, sends.dest_empty rfl, sends.retired, sends.bytes,
      sends.regs⟩
    rw [sends.pend]
    exact s.cur.await_pend named true
  case strl_waits => exact (execStrl_eq c acc).trans (State.afterAll_busy busy _)
  case strl =>
    obtain ⟨t, run, issued, retired, bytes, regs, -⟩ := s.scalarStore_stores ok acc free
    exact ⟨t, ((execStrl_eq c acc).trans (State.afterAll_free done _)).trans run, issued, retired, bytes, regs⟩
  case cinv =>
    obtain ⟨t, run, ends, kept⟩ := execCinv_drops ok
    refine ⟨t, run, ends.retired, ends.bytes, ends.regs, fun e => ?_⟩
    have named : (s.rd b).toNat ≠ 0 ↔ s.rd b ≠ 0 := not_congr (BitVec.toNat_inj (y := 0#64))
    rw [kept, Core.l1Keep, List.mem_filter, Bool.not_eq_true', covers_false_iff, named]
  case pref =>
    obtain ⟨u, run, sent⟩ := execPref_prefetches l ok
    have ends := State.finishes_retire sent.iss sent.mem sent.cur (.refl _)
    exact ⟨_, run, ends.retired, ends.bytes, ends.regs, ends.fe, ends.pend, sent.fills, sent.sends⟩

end Sys2Proof.Machine
end

section
/-! PROOF. Full/empty words at their home (R66, R67, R195, R196): what a reply leaves, the loads that wait, and the service of them. -/

namespace Sys2Proof.Machine

open Sys2Proof

/-! ## Requests by number -/

theorem State.req_eq_none (s : State) (i : Nat) : s.req i = none ↔ ∀ q ∈ s.reqs, q.id ≠ i := by
  simp [State.req, List.find?_eq_none]

/-- A change that keeps a request's number is found under it. -/
theorem State.req_onReq (s : State) {i : Nat} {f : Req → Req} (keeps : ∀ q, q.id = i → (f q).id = i) : (s.onReq i f).req i = (s.req i).map f := by
  have named : ((fun q => q.id == i) ∘ fun q => if q.id = i then f q else q) = fun q : Req => q.id == i := by
    funext q
    by_cases e : q.id = i
    · simp [e, keeps q e]
    · simp [e]
  rw [State.req, State.onReq, List.find?_map, named]
  change (s.req i).map _ = _
  cases h : s.req i with
  | none => rfl
  | some q => simp [State.req_id h]

theorem State.mem_performed (s : State) (r q : Req) : q ∈ (s.performed r).reqs ↔ q ∈ s.reqs ∧ q.id ≠ r.id := by
  simp [State.performed, State.dropReq]

/-! ## The mark of a word (R66) -/

/-- The core that a scratchpad key names. -/
theorem winKey_core {n o : Nat} (core : n < 8192) (off : o < 2 ^ 18) :
    winKey n 0 o / 2 ^ 42 % 4 * 2048 + winKey n 0 o / 2 ^ 30 % 2048 = n := by
  simp only [winKey]
  omega

theorem State.isFull_congr {s t : State} (h : ∀ n, (t.core n).empties = (s.core n).empties) (key : Nat) : t.isFull key = s.isFull key := by
  simp only [State.isFull, h]

theorem State.isFull_onCore (s : State) (n : Nat) {f : Core → Core} (keeps : ∀ k, (f k).empties = k.empties) (key : Nat) :
    (s.onCore n f).isFull key = s.isFull key := by
  refine State.isFull_congr (fun m => ?_) key
  obtain rfl | other := eq_or_ne m n
  · rw [State.core_onCore_same, keeps]
  · rw [State.core_onCore_ne _ _ other]

theorem State.isFull_setFull (s : State) {n key : Nat} (core : key / 2 ^ 42 % 4 * 2048 + key / 2 ^ 30 % 2048 = n) (b : Bool) :
    (s.setFull n key b).isFull key = b := by
  rw [State.isFull, core, State.setFull, State.core_onCore_same]
  cases b <;> simp

/-! ## A reply that ends its request -/

/-- One value has gone to a register for a request, which has left the list; memory and the marks of the words stand. -/
structure State.Answers (s t : State) (r : Req) (d : Nat) (v : Word) (f : RegFill) : Prop where
  fills : t.fills = s.fills ++ [f]
  uid : f.uid = r.uid
  reg : f.reg = d
  val : f.val = v
  mem : t.mem = s.mem
  poison : t.poison = s.poison
  resv : t.resv = s.resv
  full : ∀ key, t.isFull key = s.isFull key
  reqs : ∀ q, q ∈ t.reqs ↔ q ∈ s.reqs ∧ q.id ≠ r.id

theorem State.Answers.gone {s t : State} {r : Req} {d : Nat} {v : Word} {f : RegFill} (h : s.Answers t r d v f) : t.req r.id = none :=
  (State.req_eq_none ..).2 fun q hq => ((h.reqs q).1 hq).2

theorem State.Answers.bytes {s t : State} {r : Req} {d : Nat} {v : Word} {f : RegFill} (h : s.Answers t r d v f) : SameBytes s t :=
  fun a => congrArg (memGet · a) h.mem

theorem State.reply_keeps (s : State) (r : Req) (d : Nat) (v : Word) (err : Nat) :
    (s.reply r d v err).reqs = s.reqs ∧ (s.reply r d v err).poison = s.poison ∧ (s.reply r d v err).resv = s.resv ∧
      ∀ key, (s.reply r d v err).isFull key = s.isFull key := by
  unfold State.reply
  extract_lets src u
  have kept : u.reqs = s.reqs ∧ u.poison = s.poison ∧ u.resv = s.resv ∧ ∀ key, u.isFull key = s.isFull key := by
    simp only [u]
    clear_value src
    cases src with
    | none => exact ⟨rfl, rfl, rfl, fun _ => rfl⟩
    | some n => exact ⟨rfl, rfl, rfl, s.isFull_onCore n fun _ => rfl⟩
  exact kept

theorem State.reply_answers (s : State) (r : Req) (d : Nat) (v : Word) (err : Nat) :
    ∃ f : RegFill, s.Answers ((s.reply r d v err).performed r) r d v f := by
  obtain ⟨f, fills, uid, reg, val, -⟩ := s.reply_sends r d v err
  obtain ⟨reqs, poison, resv, full⟩ := s.reply_keeps r d v err
  exact ⟨f, fills, uid, reg, val, s.reply_mem r d v err, poison, resv, full, fun q => by rw [State.mem_performed, reqs]⟩

/-! ## Loads that wait (R67, R195) -/

theorem State.mem_waiters (s : State) (key : Nat) (q : Req) : q ∈ s.waiters key ↔ q ∈ s.reqs ∧ q.st = 2 ∧ q.addr = key := by
  simp [State.waiters]

/-- A request that does not wait itself changes no list of waiting loads as it begins. -/
theorem State.waiters_onReq (s : State) {r : Req} (come : r.st ≠ 2) {key : Nat} (others : ∀ w ∈ s.waiters key, w.id ≠ r.id) :
    (s.onReq r.id fun _ => r).waiters key = s.waiters key := by
  have same : ∀ l : List Req, (∀ w ∈ l, w.st = 2 → w.addr = key → w.id ≠ r.id) →
      (l.map fun q => if q.id = r.id then r else q).filter (fun q => q.st == 2 && q.addr == key) =
        l.filter fun q => q.st == 2 && q.addr == key := by
    intro l
    induction l with
    | nil => exact fun _ => rfl
    | cons q l ih =>
      intro other
      have rest := ih fun w hw => other w (List.mem_cons_of_mem _ hw)
      rw [List.map_cons, List.filter_cons, List.filter_cons, rest]
      split
      · rename_i itself
        have idle : (q.st == 2 && q.addr == key) = false := by
          by_contra waits
          simp only [Bool.not_eq_false, Bool.and_eq_true, beq_iff_eq] at waits
          exact other q List.mem_cons_self waits.1 waits.2 itself
        simp [come, idle]
      · rfl
  rw [State.waiters, State.waiters, State.onReq]
  exact congrArg _ (same s.reqs fun w hw st addr => others w ((s.mem_waiters key w).2 ⟨hw, st, addr⟩))

/-- Waiting loads have been answered with one value, in order; memory and the marks of the words stand, and the other requests are left. -/
structure State.AnswersAll (s t : State) (ps : List Req) (v : Word) (fs : List RegFill) : Prop where
  fills : t.fills = s.fills ++ fs
  answers : List.Forall₂ (fun (p : Req) (f : RegFill) => f.uid = p.uid ∧ p.op = .ldp f.reg ∧ f.val = v) ps fs
  mem : t.mem = s.mem
  full : ∀ key, t.isFull key = s.isFull key
  reqs : ∀ q, q ∈ t.reqs ↔ q ∈ s.reqs ∧ ∀ p ∈ ps, q.id ≠ p.id

/-- The LDPs at the head of a list are answered, and the service goes on behind them. -/
theorem State.serve_ldps (n key : Nat) (rest : List Req) (ps : List Req) (reads : ∀ p ∈ ps, ∃ d, p.op = .ldp d) (s : State) :
    ∃ (t : State) (fs : List RegFill), s.serve n key (ps ++ rest) = t.serve n key rest ∧
      s.AnswersAll t ps (BitVec.ofNat 64 (memNat s.mem key 8)) fs := by
  induction ps generalizing s with
  | nil => exact ⟨s, [], rfl, (List.append_nil _).symm, .nil, rfl, fun _ => rfl, by simp⟩
  | cons p ps ih =>
    obtain ⟨d, op⟩ := reads p List.mem_cons_self
    obtain ⟨f, one⟩ := s.reply_answers p d (BitVec.ofNat 64 (memNat s.mem key 8)) (s.poisonErr p 8)
    obtain ⟨t, fs, run, all⟩ := ih (fun q hq => reads q (List.mem_cons_of_mem _ hq)) _
    rw [one.mem] at all
    refine ⟨t, f :: fs, ?_, ?_, .cons ⟨one.uid, by rw [op, one.reg], one.val⟩ all.answers, all.mem.trans one.mem,
      fun k => (all.full k).trans (one.full k), fun q => ?_⟩
    · rw [List.cons_append, State.serve, op]
      exact run
    · rw [all.fills, one.fills, List.append_assoc, List.singleton_append]
    · rw [all.reqs, one.reqs, List.forall_mem_cons, and_assoc]

/-- An LDC at the head takes the word and ends the service. -/
theorem State.serve_ldc (s : State) (n key : Nat) {q : Req} {d : Nat} (takes : q.op = .ldc d) (l : List Req) :
    ∃ f : RegFill, (s.setFull n key false).Answers (s.serve n key (q :: l)) q d (BitVec.ofNat 64 (memNat s.mem key 8)) f := by
  rw [State.serve, takes]
  exact State.reply_answers ..

/-- A load behind the LDC that ends a service shares its number with none of those served. -/
theorem ids_apart {ps l : List Req} {q w : Req} (ids : ((ps ++ q :: l).map (·.id)).Nodup) (hw : w ∈ l) :
    (∀ p ∈ ps, w.id ≠ p.id) ∧ w.id ≠ q.id := by
  rw [List.map_append, List.map_cons, List.nodup_append', List.nodup_cons] at ids
  obtain ⟨-, ⟨first, -⟩, apart⟩ := ids
  have id : w.id ∈ l.map (·.id) := List.mem_map_of_mem hw
  exact ⟨fun p hp e => apart (List.mem_map_of_mem hp) (e ▸ List.mem_cons_of_mem _ id), fun e => first (e ▸ id)⟩

/-- The requests that are left as an LDC has ended the service of an STF, and the STF is performed. -/
theorem State.AnswersAll.mem_behind {s u t : State} {ps : List Req} {v x : Word} {fs : List RegFill} {q : Req} {n key d : Nat} {b : Bool}
    {f : RegFill} (all : s.AnswersAll u ps v fs) (last : (u.setFull n key b).Answers t q d x f) (r w : Req) :
    w ∈ (t.performed r).reqs ↔ ((w ∈ s.reqs ∧ ∀ p ∈ ps, w.id ≠ p.id) ∧ w.id ≠ q.id) ∧ w.id ≠ r.id := by
  have kept : w ∈ (u.setFull n key b).reqs ↔ w ∈ u.reqs := .rfl
  rw [State.mem_performed, last.reqs, kept, all.reqs]

/-- The word as an STF leaves it, before its waiting loads are served. -/
def State.filled (s : State) (n key : Nat) (v : Word) (bad : Bool) : State :=
  ((s.putBytes key (leBytes 8 v.toNat)).setPoison key bad).setFull n key true

theorem State.setPoison_cases (s : State) (key : Nat) (b : Bool) : ∃ po, s.setPoison key b = { s with poison := po } := by
  cases b <;> exact ⟨_, rfl⟩

theorem State.filled_eq (s : State) (n key : Nat) (v : Word) (bad : Bool) :
    ∃ po pa, s.filled n key v bad = State.setFull { s with mem := memPut s.mem key (leBytes 8 v.toNat), poison := po, parity := pa } n key true := by
  obtain ⟨po, pa, put⟩ := s.putBytes_eq key (leBytes 8 v.toNat)
  obtain ⟨po', marked⟩ := State.setPoison_cases (s.putBytes key (leBytes 8 v.toNat)) key bad
  exact ⟨po', pa, by rw [State.filled, marked, put]⟩

section
variable {s : State} {n key : Nat} {v : Word} {bad : Bool}

theorem State.filled_mem : (s.filled n key v bad).mem = memPut s.mem key (leBytes 8 v.toNat) := by
  obtain ⟨po, pa, e⟩ := s.filled_eq n key v bad
  rw [e]
  rfl
theorem State.filled_reqs : (s.filled n key v bad).reqs = s.reqs := by
  obtain ⟨po, pa, e⟩ := s.filled_eq n key v bad
  rw [e]
  rfl
theorem State.filled_fills : (s.filled n key v bad).fills = s.fills := by
  obtain ⟨po, pa, e⟩ := s.filled_eq n key v bad
  rw [e]
  rfl

theorem State.filled_word (ok : MemOk s) : memNat (s.filled n key v bad).mem key 8 = v.toNat := by
  rw [State.filled_mem, memNat_memPut_leBytes ok]
  exact Nat.mod_eq_of_lt v.isLt

theorem State.filled_frame (ok : MemOk s) : SameBytesBut s (s.filled n key v bad) key 8 := by
  have frame := sameBytesBut_memPut ok (State.filled_mem (s := s) (n := n) (key := key) (v := v) (bad := bad))
  rwa [leBytes_length] at frame

end

theorem State.fillWord_eq (s : State) (n key : Nat) (v : Word) (bad : Bool) :
    s.fillWord n key v bad = (s.filled n key v bad).serve n key (s.waiters key) := by
  have same : (s.filled n key v bad).waiters key = s.waiters key := by
    rw [State.waiters, State.filled_reqs, State.waiters]
  rw [← same]
  rfl

/-! ## What FEST reports (R196) -/

/-- FEST's value: bit 0 full, bit 1 poisoned, bit 2 loads wait. -/
def festValue (alone bad full : Bool) : Word :=
  BitVec.ofNat 64 ((if alone then 0 else 4) + (if bad then 2 else 0) + (if full then 1 else 0))

theorem festValue_bits (alone bad full : Bool) :
    (festValue alone bad full).toNat < 8 ∧ (festValue alone bad full).getLsbD 0 = full ∧ (festValue alone bad full).getLsbD 1 = bad ∧
      (festValue alone bad full).getLsbD 2 = !alone := by
  revert alone bad full
  decide

/-! ## A request in its turn at a scratchpad word -/

/-- What a thread asks of one full/empty word. -/
inductive ReqOp.OnWord : ReqOp → Prop
  | ldc (d : Nat) : OnWord (.ldc d)
  | ldp (d : Nat) : OnWord (.ldp d)
  | stf (v : Word) : OnWord (.stf v)
  | sete : OnWord .sete
  | fest (d : Nat) : OnWord (.fest d)

theorem State.begin_onWord (s : State) {r : Req} {op : ReqOp} (e : r.op = op) (h : op.OnWord) : s.begin r = r := by
  cases h <;> simp [State.begin, e]

theorem State.meetsOwned_onWord (s : State) {r : Req} {op : ReqOp} (e : r.op = op) (h : op.OnWord) (j : Nat) :
    s.meetsOwned r j = s.ownedAny r.addr 8 := by
  cases h <;> simp [State.meetsOwned, State.spots, e]

/-- The request is in its turn at a word of core n's scratchpad, and is none of the loads that wait there. -/
structure State.AtWord (s : State) (r : Req) (n : Nat) : Prop extends State.Ready s r where
  home : r.home = .core n
  core : r.addr / 2 ^ 42 % 4 * 2048 + r.addr / 2 ^ 30 % 2048 = n
  others : ∀ w ∈ s.waiters r.addr, w.id ≠ r.id

section
variable {s : State} {r : Req} {n : Nat} (h : s.AtWord r n)
include h

theorem State.AtWord.waiters : (s.onReq r.id fun _ => r).waiters r.addr = s.waiters r.addr :=
  s.waiters_onReq (by obtain come | come := h.come <;> simp [come]) h.others

theorem State.AtWord.performs {op : ReqOp} (e : r.op = op) (word : op.OnWord) :
    exec (.homePerform (.core n) r.id 0) s = .next ((s.onReq r.id fun _ => r).performAt r 0) := by
  have free := h.free
  rw [State.meetsOwned_onWord _ e word] at free
  rw [← h.home]
  exact h.toReady.performs (s.begin_onWord e word) ((State.meetsOwned_onWord _ e word 0).trans free)

/-- LDC takes a full word that no load waits for, and leaves it empty. -/
theorem State.AtWord.ldc {d : Nat} (op : r.op = .ldc d) (full : s.isFull r.addr = true) (alone : s.waiters r.addr = []) :
    ∃ (t : State) (f : RegFill), exec (.homePerform (.core n) r.id 0) s = .next t ∧
      ((s.onReq r.id fun _ => r).setFull n r.addr false).Answers t r d (BitVec.ofNat 64 (memNat s.mem r.addr 8)) f := by
  have full' : (s.onReq r.id fun _ => r).isFull r.addr = true := full
  have run := h.performs op (.ldc d)
  simp only [State.performAt, op, full', h.waiters, alone, h.home, coreOf, Option.getD_some, State.onReq_mem, List.isEmpty_nil, Bool.and_self,
    if_true] at run
  obtain ⟨f, answers⟩ := State.reply_answers ((s.onReq r.id fun _ => r).setFull n r.addr false) r d (BitVec.ofNat 64 (memNat s.mem r.addr 8))
    (State.poisonErr ((s.onReq r.id fun _ => r).setFull n r.addr false) r 8)
  exact ⟨_, f, run, answers⟩

/-- LDP reads a full word that no load waits for. -/
theorem State.AtWord.ldp {d : Nat} (op : r.op = .ldp d) (full : s.isFull r.addr = true) (alone : s.waiters r.addr = []) :
    ∃ (t : State) (f : RegFill), exec (.homePerform (.core n) r.id 0) s = .next t ∧
      (s.onReq r.id fun _ => r).Answers t r d (BitVec.ofNat 64 (memNat s.mem r.addr 8)) f := by
  have full' : (s.onReq r.id fun _ => r).isFull r.addr = true := full
  have run := h.performs op (.ldp d)
  simp only [State.performAt, op, full', h.waiters, alone, State.onReq_mem, List.isEmpty_nil, Bool.and_self, if_true] at run
  obtain ⟨f, answers⟩ := State.reply_answers (s.onReq r.id fun _ => r) r d (BitVec.ofNat 64 (memNat s.mem r.addr 8))
    (State.poisonErr (s.onReq r.id fun _ => r) r 8)
  exact ⟨_, f, run, answers⟩

/-- On an empty word, and behind loads that wait, LDC and LDP wait. -/
theorem State.AtWord.waits {d : Nat} (op : r.op = .ldc d ∨ r.op = .ldp d) (late : s.isFull r.addr = false ∨ s.waiters r.addr ≠ [])
    (alive : r.noFill = false) :
    exec (.homePerform (.core n) r.id 0) s =
      .next ((s.onReq r.id fun _ => r).onReq r.id fun q => { q with st := 2 }) := by
  have blocked : ((s.onReq r.id fun _ => r).isFull r.addr && ((s.onReq r.id fun _ => r).waiters r.addr).isEmpty) = false := by
    rw [h.waiters, Bool.and_eq_false_iff, List.isEmpty_eq_false_iff]
    exact late
  obtain op | op := op
  · rw [h.performs op (.ldc d)]
    simp [State.performAt, op, blocked, alive]
  · rw [h.performs op (.ldp d)]
    simp [State.performAt, op, blocked, alive]

/-- STF fills the word and serves the loads that wait. -/
theorem State.AtWord.stf {v : Word} (op : r.op = .stf v) :
    exec (.homePerform (.core n) r.id 0) s =
      .next ((((s.onReq r.id fun _ => r).filled n r.addr v false).serve n r.addr (s.waiters r.addr)).performed r) := by
  rw [h.performs op (.stf v), ← h.waiters]
  simp only [State.performAt, op, h.home, coreOf, Option.getD_some, h.good, State.fillWord_eq]

theorem State.AtWord.sete (op : r.op = .sete) :
    exec (.homePerform (.core n) r.id 0) s = .next (((s.onReq r.id fun _ => r).setFull n r.addr false).performed r) := by
  rw [h.performs op .sete]
  simp only [State.performAt, op, h.home, coreOf, Option.getD_some]

theorem State.AtWord.fest {d : Nat} (op : r.op = .fest d) :
    ∃ (t : State) (f : RegFill), exec (.homePerform (.core n) r.id 0) s = .next t ∧
      (s.onReq r.id fun _ => r).Answers t r d (festValue (s.waiters r.addr).isEmpty (s.poisoned r.addr) (s.isFull r.addr)) f := by
  obtain ⟨f, answers⟩ := State.reply_answers (s.onReq r.id fun _ => r) r d
    (festValue (s.waiters r.addr).isEmpty (s.poisoned r.addr) (s.isFull r.addr)) 0
  refine ⟨_, f, ?_, answers⟩
  rw [h.performs op (.fest d), ← h.waiters]
  simp only [State.performAt, op]
  rfl

/-- The LDPs at the head of the list of waiting loads get the value of an STF. -/
theorem State.AtWord.stf_serves (ok : MemOk s) {v : Word} (op : r.op = .stf v) {ps rest : List Req} (list : s.waiters r.addr = ps ++ rest)
    (reads : ∀ p ∈ ps, ∃ d, p.op = .ldp d) :
    ∃ (u : State) (fs : List RegFill), exec (.homePerform (.core n) r.id 0) s = .next ((u.serve n r.addr rest).performed r) ∧
      ((s.onReq r.id fun _ => r).filled n r.addr v false).AnswersAll u ps v fs ∧ memNat u.mem r.addr 8 = v.toNat := by
  have ok' : MemOk (s.onReq r.id fun _ => r) := ok
  have word := State.filled_word (n := n) (key := r.addr) (v := v) (bad := false) ok'
  obtain ⟨u, fs, run, all⟩ := State.serve_ldps n r.addr rest ps reads ((s.onReq r.id fun _ => r).filled n r.addr v false)
  rw [word, BitVec.ofNat_toNat, BitVec.setWidth_eq] at all
  exact ⟨u, fs, by rw [h.stf op, list, run], all, by rw [all.mem, word]⟩

end

/-- What an STF leaves at its word beside the loads it has answered. -/
structure State.WordFilled (s t : State) (r : Req) (v : Word) (ps : List Req) : Prop where
  word : memNat t.mem r.addr 8 = v.toNat
  frame : SameBytesBut s t r.addr 8
  gone : t.req r.id = none
  served : ∀ p ∈ ps, t.req p.id = none

theorem State.wordFilled_of {s t : State} {r : Req} {v : Word} {ps : List Req} {n : Nat} (ok : MemOk s)
    (mem : t.mem = ((s.onReq r.id fun _ => r).filled n r.addr v false).mem) (gone : ∀ q ∈ t.reqs, q.id ≠ r.id ∧ ∀ p ∈ ps, q.id ≠ p.id) :
    s.WordFilled t r v ps where
  word := by
    have ok' : MemOk (s.onReq r.id fun _ => r) := ok
    rw [mem, State.filled_word ok']
  frame := fun a out => by
    have ok' : MemOk (s.onReq r.id fun _ => r) := ok
    rw [mem, State.filled_frame ok' a out]
    rfl
  gone := (t.req_eq_none r.id).2 fun q hq => (gone q hq).1
  served := fun p hp => (t.req_eq_none p.id).2 fun q hq => (gone q hq).2 p hp

/-- Settles O22: by the five operations on a word. -/
theorem fullEmptyAtHome : Obligations.FullEmptyAtHome := by
  intro s n i r ok here home come front turn good core at' aligned admitted free others
  obtain rfl := State.req_id here
  have word : s.AtWord r n := by
    refine ⟨⟨here, come, front, turn, good, admitted, free⟩, home, ?_, others⟩
    obtain ⟨o, off, addr⟩ := at'
    rw [addr]
    exact winKey_core core off
  refine ⟨fun d op full alone => ?ldc, fun d op late alive => ?waits, fun d op full alone => ?ldp,
    fun v ps rest op list ids reads => ⟨fun last => ?stf, fun q l d next takes => ?stf_ldc⟩, fun op => ?sete, fun d op => ?fest⟩
  case ldc =>
    obtain ⟨t, f, run, one⟩ := word.ldc op full alone
    exact ⟨t, f, run, one.fills, one.uid, one.reg, one.val, (one.full _).trans (State.isFull_setFull _ word.core _), one.bytes, one.gone⟩
  case waits =>
    refine ⟨_, word.waits op late alive, rfl, fun _ => rfl, rfl, _, ?_, rfl⟩
    refine (State.req_onReq (s.onReq r.id fun _ => r) (f := fun q => { q with st := 2 }) fun _ e => e).trans ?_
    rw [State.req_onReq s fun _ _ => rfl, here]
    rfl
  case ldp =>
    obtain ⟨t, f, run, one⟩ := word.ldp op full alone
    exact ⟨t, f, run, one.fills, one.uid, one.reg, one.val, (one.full _).trans full, one.bytes, one.gone⟩
  case stf =>
    obtain ⟨u, fs, run, all, -⟩ := word.stf_serves ok op list reads
    subst last
    have written : s.WordFilled ((u.serve n r.addr []).performed r) r v ps := State.wordFilled_of ok all.mem fun q hq => by
      obtain ⟨mem, other⟩ := (u.mem_performed r q).1 hq
      exact ⟨other, ((all.reqs q).1 mem).2⟩
    refine ⟨_, fs, run, ⟨written.word, written.frame, written.gone, written.served⟩, ?_, ?_, all.answers⟩
    · exact (all.full _).trans (State.isFull_setFull _ word.core _)
    · exact all.fills.trans (congrArg (· ++ fs) State.filled_fills)
  case stf_ldc =>
    obtain ⟨u, fs, run, all, value⟩ := word.stf_serves ok op list reads
    subst next
    obtain ⟨f, last⟩ := u.serve_ldc n r.addr takes l
    set t := u.serve n r.addr (q :: l)
    have left := all.mem_behind last r
    rw [State.filled_reqs] at left
    have written : s.WordFilled (t.performed r) r v ps := State.wordFilled_of ok (last.mem.trans all.mem) fun w hw => by
      obtain ⟨⟨⟨-, served⟩, -⟩, other⟩ := (left w).1 hw
      exact ⟨other, served⟩
    refine ⟨_, fs, f, run, ⟨written.word, written.frame, written.gone, written.served⟩, ?empty, ?fills, all.answers, last.uid, last.reg, ?val,
      (State.req_eq_none ..).2 fun w hw => ((left w).1 hw).1.2, fun w hw => (left w).2 ?waiting⟩
    case empty => exact (last.full _).trans (State.isFull_setFull _ word.core _)
    case fills => exact last.fills.trans (congrArg (· ++ [f]) (all.fills.trans (congrArg (· ++ fs) State.filled_fills)))
    case val => rw [last.val, value, BitVec.ofNat_toNat, BitVec.setWidth_eq]
    case waiting =>
      have waiter : w ∈ s.waiters r.addr := by
        rw [list]
        exact List.mem_append_right _ (List.mem_cons_of_mem _ hw)
      obtain ⟨mem, -⟩ := (s.mem_waiters r.addr w).1 waiter
      have other := others w waiter
      exact ⟨⟨⟨State.mem_onReq_of_ne mem other _, (ids_apart (list ▸ ids) hw).1⟩, (ids_apart (list ▸ ids) hw).2⟩, other⟩
  case sete =>
    exact ⟨_, word.sete op, State.isFull_setFull _ word.core _, fun _ => rfl, rfl⟩
  case fest =>
    obtain ⟨t, f, run, one⟩ := word.fest op
    obtain ⟨small, full, bad, waits⟩ := festValue_bits (s.waiters r.addr).isEmpty (s.poisoned r.addr) (s.isFull r.addr)
    refine ⟨t, f, run, one.fills, one.reg, ?_, ?_, ?_, ?_, one.bytes⟩ <;> rw [one.val]
    · exact small
    · exact full
    · exact bad
    · rw [waits]
      simp

end Sys2Proof.Machine
end

section
/-! PROOF. Line blocks (R205 to R208): the checks of a block and its request, and what the slice of its lines does with it. -/

namespace Sys2Proof.Machine

open Sys2Proof

/-! ## The checks of a block (R205) -/

/-- The lines' addresses as a block's header gives them. -/
def State.blockLines (s : State) (key : Nat) : List Nat := (List.range ((s.dword key 0).toNat % 8)).map fun k => (s.dword key (k + 1)).toNat

theorem bitsOf_low3 (w : Word) : bitsOf w 2 0 = w.toNat % 8 := by simp [bitsOf]

theorem State.blockLines_eq (s : State) (key : Nat) :
    ((List.range (bitsOf (s.dword key 0) 2 0)).map fun k => (s.dword key (k + 1)).toNat) = s.blockLines key := by
  rw [bitsOf_low3, State.blockLines]

/-- The places have one home, and none is in host memory. -/
theorem homesDiffer_false {p : Phys} {ps : List Phys} {h : Home} (same : ∀ q ∈ p :: ps, q.home = h) (device : h ≠ .host) :
    homesDiffer (p :: ps) = false := by
  simp only [homesDiffer, List.any_eq_false, Bool.or_eq_true, beq_iff_eq, bne_iff_ne, not_or, not_not]
  intro q hq
  rw [List.head?_cons, Option.map_some, same q hq, same p List.mem_cons_self]
  exact ⟨device, rfl⟩

/-- A block of the own scratchpad whose header is well formed, which shows the thread's own writes, and whose lines are translated to places
that it may reach now. -/
structure State.GoodBlock (s : State) (a : XReg) (commit : Bool) (key : Nat) (p : Phys) (ps : List Phys) : Prop where
  aligned : (s.rd a).toNat % 64 = 0
  place : ∃ o, classify s.iss.core (s.rd a) = .window s.iss.core 0 o ∧ o + 576 ≤ 2 ^ 18 ∧ key = winKey s.iss.core 0 o
  header : s.spadWaits key 64 = false
  good : s.blockBad key commit = false
  words : commit = true → s.spadWaits (key + 64) (128 * (s.blockLines key).length) = false
  found : (s.blockLines key).map (s.translate (s.iss.core / 16) (s.teamOf s.iss.core).vf) = (p :: ps).map some
  homes : homesDiffer (p :: ps) = false
  reach : ∀ q ∈ p :: ps, q.slot = 0 ∧ (commit = true → q.write = true) ∧ s.poolHolds s.cur.uid q.key 128 = false

/-- Such a block passes every check. -/
theorem State.GoodBlock.passes {s : State} {a : XReg} {commit : Bool} {key : Nat} {p : Phys} {ps : List Phys} (h : s.GoodBlock a commit key p ps)
    (k : Nat → List Nat → List Phys → State) : s.withBlock a commit k = .next (k key (s.blockLines key) (p :: ps)) := by
  obtain ⟨o, place, fits, rfl⟩ := h.place
  have found := h.found
  have inside : ¬(s.iss.core ≠ s.iss.core ∨ 2 ^ 18 < o + 576) := by omega
  have shown : (commit && s.spadWaits (winKey s.iss.core 0 o + 64) (128 * (s.blockLines (winKey s.iss.core 0 o)).length)) = false := by
    cases commit
    · rfl
    · exact h.words rfl
  have places : ((p :: ps).map some).filterMap id = p :: ps := by simp
  have member {q : Nat × Phys} (hq : q ∈ (s.blockLines (winKey s.iss.core 0 o)).zip (p :: ps)) := h.reach q.2 (List.of_mem_zip hq).2
  have here : ((s.blockLines (winKey s.iss.core 0 o)).zip ((p :: ps).map some)).filter (fun q => q.2.isNone) = [] := by
    rw [List.filter_eq_nil_iff]
    intro q hq
    obtain ⟨v, -, e⟩ := List.mem_map.1 (List.of_mem_zip hq).2
    simp [← e]
  have permitted : ((s.blockLines (winKey s.iss.core 0 o)).zip (p :: ps)).find? (fun q => commit && !q.2.write) = none := by
    rw [List.find?_eq_none]
    intro q hq
    have write := (member hq).2.1
    cases commit
    · simp
    · simp [write rfl]
  have unsealed : ((s.blockLines (winKey s.iss.core 0 o)).zip (p :: ps)).find? (fun q => q.2.slot != 0) = none := by
    rw [List.find?_eq_none]
    intro q hq
    simp [(member hq).1]
  have free : ((p :: ps).any fun q => s.poolHolds s.cur.uid q.key 128) = false := by
    rw [List.any_eq_false]
    intro q hq
    simp [(h.reach q hq).2.2]
  simp only [State.withBlock, if_neg (not_not.2 h.aligned), place, if_neg inside, h.header, h.good, State.blockLines_eq, found, shown,
    places, h.homes, here, permitted, unsealed, free, List.filter_nil, List.append_nil, Bool.false_eq_true, if_false]

/-! ## The request of a block (R206, R207) -/

theorem State.Sent.dropLines {s u : State} {r : Req} (h : s.Sent u r) (ps : List Phys) :
    s.Sent (ps.foldl (fun s q => s.onHere (·.l1Drop q.key)) u) r := by
  induction ps generalizing u with
  | nil => exact h
  | cons p ps ih => exact ih (h.onHere fun _ => rfl)

theorem State.multiLine_sends (s : State) (a d : XReg) (p : Phys) (ps : List Phys) (lines : List Nat) (op : ReqOp) :
    s.SendsOne (s.multiLine a d (p :: ps) lines op) (s.nextOf 1 p.home p.key (BitVec.ofNat 64 (lines.headD 0)) 0 p.stream 0 op)
      (s.cur.await (s.cur.dest d) true) :=
  ((s.sent_issueReq [a] ..).dropLines (p :: ps)).retire (s.cur.waits_await ..)

/-- The words that SCLN writes: those of the block whose mask bit is set, at their places. -/
def State.blockWrites (s : State) (key : Nat) (ps : List Phys) : List (Nat × Word × Bool) :=
  (List.range ps.length).flatMap fun k => (List.range 16).filterMap fun j =>
    if (s.dword key 5).getLsbD (16 * k + j) then
      some ((ps.map (·.key)).getD k 0 + 8 * j, s.dword (key + 64 + 128 * k + 8 * j) 0, s.poisoned (key + 64 + 128 * k + 8 * j))
    else none

theorem getD_map_key {β γ : Type} {f : β → γ} {d : γ} {l : List β} {k : Nat} {q : β} (found : l[k]? = some q) : (l.map f).getD k d = f q := by
  simp [List.getD_eq_getElem?_getD, found]

theorem State.mem_blockWrites (s : State) (key : Nat) (ps : List Phys) (w : Nat × Word × Bool) :
    w ∈ s.blockWrites key ps ↔ ∃ k j q, ps[k]? = some q ∧ j < 16 ∧ (s.dword key 5).getLsbD (16 * k + j) = true ∧
      w = (q.key + 8 * j, s.dword (key + 64 + 128 * k + 8 * j) 0, s.poisoned (key + 64 + 128 * k + 8 * j)) := by
  simp only [State.blockWrites, List.mem_flatMap, List.mem_filterMap, List.mem_range, Option.ite_none_right_eq_some, Option.some.injEq]
  constructor
  · rintro ⟨k, hk, j, hj, bit, rfl⟩
    have at' : ps[k]? = some ps[k] := List.getElem?_eq_getElem hk
    exact ⟨k, j, _, at', hj, bit, by rw [getD_map_key at']⟩
  · rintro ⟨k, j, q, at', hj, bit, rfl⟩
    exact ⟨k, (List.getElem?_eq_some_iff.1 at').1, j, hj, bit, by rw [getD_map_key at']⟩

/-- What issuing a block of lines does: one ordered request goes to the home of the first line. -/
structure State.SendsBlock (s t : State) (d : XReg) (p : Phys) (r : Req) : Prop where
  reqs : t.reqs = s.reqs ++ [r]
  home : r.home = p.home
  addr : r.addr = p.key
  cls : r.cls = 1
  retired : Retired s t
  bytes : SameBytes s t
  regs : SameRegs s t []
  empty : d ≠ 0 → s.cur.mapped d = none → t.cur.fe.getLsbD (s.cur.tag d) = false

theorem State.multiLine_sendsBlock (s : State) (a d : XReg) (p : Phys) (ps : List Phys) (lines : List Nat) (op : ReqOp) :
    ∃ r : Req, s.SendsBlock (s.multiLine a d (p :: ps) lines op) d p r ∧ r.op = op := by
  have sends := s.multiLine_sends a d p ps lines op
  exact ⟨_, ⟨sends.reqs, rfl, rfl, rfl, sends.retired, sends.bytes, sends.regs, sends.dest_empty rfl⟩, rfl⟩

section
variable {s : State} {a d : XReg} {key : Nat} {p : Phys} {ps : List Phys}

/-- Issuing LRLN ends the thread's earlier reservation (R208). -/
theorem State.GoodBlock.lrln (block : s.GoodBlock a false key p ps) (ok : s.misuse [a] [d] = false) :
    ∃ (t : State) (r : Req), exec (.lrln d a) s = .next t ∧ s.SendsBlock t d p r ∧
      r.op = .lrln (s.cur.dest d) key ((p :: ps).map (·.key)) (((p :: ps).filter (·.stream)).map (·.key)) ∧
      ∀ q ∈ t.resv, q.uid ≠ s.cur.uid := by
  have issues : exec (.lrln d a) s = .next (State.multiLine { s with resv := s.resv.filter (·.uid != s.cur.uid) } a d (p :: ps) (s.blockLines key)
      (.lrln (s.cur.dest d) key ((p :: ps).map (·.key)) (((p :: ps).filter (·.stream)).map (·.key)))) := by
    show execLrln d a s = _
    rw [execLrln, if_neg (by simp [ok]), block.passes]
  obtain ⟨r, sends, op⟩ := State.multiLine_sendsBlock { s with resv := s.resv.filter (·.uid != s.cur.uid) } a d p ps (s.blockLines key)
    (.lrln (s.cur.dest d) key ((p :: ps).map (·.key)) (((p :: ps).filter (·.stream)).map (·.key)))
  refine ⟨_, r, issues, ⟨sends.reqs, sends.home, sends.addr, sends.cls, sends.retired, sends.bytes, sends.regs, sends.empty⟩, op,
    fun q hq => ?_⟩
  rw [(State.multiLine_sends { s with resv := s.resv.filter (·.uid != s.cur.uid) } a d p ps ..).resv] at hq
  simpa using (List.mem_filter.1 hq).2

theorem State.GoodBlock.scln (block : s.GoodBlock a true key p ps) (ok : s.misuse [a] [d] = false) :
    ∃ (t : State) (r : Req), exec (.scln d a) s = .next t ∧ s.SendsBlock t d p r ∧
      r.op = .scln (s.cur.dest d) ((s.dword key 0).getLsbD 8) ((p :: ps).map (·.key)) (((p :: ps).filter (·.stream)).map (·.key))
        (s.blockWrites key (p :: ps)) := by
  have issues : exec (.scln d a) s = .next (s.multiLine a d (p :: ps) (s.blockLines key)
      (.scln (s.cur.dest d) ((s.dword key 0).getLsbD 8) ((p :: ps).map (·.key)) (((p :: ps).filter (·.stream)).map (·.key))
        (s.blockWrites key (p :: ps)))) := by
    show execScln d a s = _
    rw [execScln, if_neg (by simp [ok]), block.passes]
    rfl
  obtain ⟨r, sends⟩ := s.multiLine_sendsBlock a d p ps ..
  exact ⟨_, r, issues, sends⟩

end

/-! ## A slice with nothing to write back (R71, R357) -/

/-- No sealed line of a slice waits to be written back. -/
def State.Settled (s : State) : Prop := ∀ e ∈ s.l2, ∀ l ∈ e.2, l.slot ≠ 0 → l.dirty = false

theorem State.Unsealed.settled {s : State} (h : s.Unsealed) : s.Settled := fun e he l hl sealed => absurd (h e he l hl) sealed

/-- A state that differs in the lines its slices hold and in their clock alone, with nothing to write back. -/
def State.Turns (s t : State) : Prop := t.Settled ∧ ∃ l c, t = { s with l2 := l, clock := c }

theorem State.Settled.turns {s : State} (h : s.Settled) : s.Turns s := ⟨h, _, _, rfl⟩

theorem State.Turns.trans {s t u : State} (h : s.Turns t) (k : t.Turns u) : s.Turns u := by
  obtain ⟨-, l, c, rfl⟩ := h
  obtain ⟨settled, l', c', rfl⟩ := k
  exact ⟨settled, l', c', rfl⟩

section
variable {s : State} (h : s.Settled) (p i : Nat)
include h

theorem State.Settled.slice : ∀ l ∈ s.slice p i, l.slot ≠ 0 → l.dirty = false := fun l hl => by
  obtain none | kept := tabGet_default_or_mem [] s.l2 (sliceNo p i)
  · simp [State.slice, none] at hl
  · exact h _ kept l hl

theorem State.Settled.setSlice {ls : List SLine} (settled : ∀ l ∈ ls, l.slot ≠ 0 → l.dirty = false) : s.Turns (s.setSlice p i ls) := by
  refine ⟨fun e he l hl => ?_, _, _, rfl⟩
  obtain rfl | old := mem_tabSet he
  · exact settled l hl
  · exact h e old l hl

theorem State.Settled.writeBack {l : SLine} (hl : l ∈ s.slice p i) : s.writeBack p l = s := by
  rw [State.writeBack, if_neg]
  rintro ⟨sealed, dirty⟩
  simp [h.slice p i l hl sealed] at dirty

theorem State.Settled.dropOther (line slot : Nat) : s.Turns (s.dropOther p i line slot) := by
  unfold State.dropOther
  split
  · rename_i l found
    rw [h.writeBack p i (List.mem_of_find?_eq_some found)]
    exact h.setSlice p i fun m hm => h.slice p i m (List.mem_of_mem_filter hm)
  · exact h.turns

/-- A line that comes in is not dirty. -/
theorem State.Settled.addLine {ls : List SLine} (kept : ∀ l ∈ ls, l ∈ s.slice p i) (line slot vline prio : Nat) (keep : Bool) :
    s.Turns (s.setSlice p i (ls ++ [s.newLine p line slot vline prio keep])) := by
  refine h.setSlice p i fun l hl => ?_
  obtain old | new := List.mem_append.1 hl
  · exact h.slice p i l (kept l old)
  · rw [List.mem_singleton.1 new]
    exact fun _ => rfl

theorem State.Settled.allocate (line slot vline prio hint : Nat) : s.Turns (s.allocate p i line slot vline prio hint) := by
  simp only [State.allocate]
  split
  · exact h.addLine p i (fun _ hl => hl) ..
  · split
    · exact h.turns
    · rename_i v out
      have inSet : v ∈ setOf (s.slice p i) line := List.mem_of_mem_filter (victim_mem out)
      have inSlice : v ∈ s.slice p i := by
        unfold setOf at inSet
        split at inSet
        · exact inSet
        · exact List.mem_of_mem_filter inSet
      rw [h.writeBack p i inSlice]
      exact h.addLine p i (fun _ hl => List.mem_of_mem_filter hl) ..

/-- An access to a settled slice turns its lines and settles it. -/
theorem State.Settled.touch (line slot vline prio hint : Nat) : s.Turns (s.touch p i line slot vline prio hint) := by
  have ticked : s.Turns { s with clock := s.clock + 1 } := ⟨h, _, _, rfl⟩
  have dropped := ticked.trans (ticked.1.dropOther p i line slot)
  unfold State.touch
  dsimp only
  set u := State.dropOther { s with clock := s.clock + 1 } p i line slot
  split
  · rename_i l found
    refine dropped.trans (dropped.1.setSlice p i fun m hm => ?_)
    obtain ⟨k, hk, rfl⟩ := List.mem_map.1 hm
    split
    · exact dropped.1.slice p i l (List.mem_of_find?_eq_some found)
    · exact dropped.1.slice p i k hk
  · split
    · exact dropped
    · exact dropped.trans (dropped.1.allocate p i ..)

omit p i in
theorem State.Settled.visitAs (r : Req) (key : Nat) (stream : Bool) : s.Turns (s.visitAs r key stream) := by
  unfold State.visitAs
  split
  · exact h.touch ..
  · exact h.turns

end

section
variable {s t : State} (h : s.Turns t)
include h

theorem State.Turns.mem : t.mem = s.mem := by obtain ⟨-, l, c, rfl⟩ := h; rfl
theorem State.Turns.poison : t.poison = s.poison := by obtain ⟨-, l, c, rfl⟩ := h; rfl
theorem State.Turns.resv : t.resv = s.resv := by obtain ⟨-, l, c, rfl⟩ := h; rfl
theorem State.Turns.fills : t.fills = s.fills := by obtain ⟨-, l, c, rfl⟩ := h; rfl
theorem State.Turns.nextReq : t.nextReq = s.nextReq := by obtain ⟨-, l, c, rfl⟩ := h; rfl
theorem State.Turns.named (p key : Nat) : t.named p key = s.named p key := by obtain ⟨-, l, c, rfl⟩ := h; rfl
theorem State.Turns.holder (uid : Nat) : t.holder uid = s.holder uid := by obtain ⟨-, l, c, rfl⟩ := h; rfl

end

/-- The visit of every line of a block. -/
def State.visitLines (s : State) (r : Req) (ls streams : List Nat) : State := ls.foldl (fun s l => s.visitAs r l (streams.contains l)) s

theorem State.Settled.visitLines {s : State} (h : s.Settled) (r : Req) (ls streams : List Nat) : s.Turns (s.visitLines r ls streams) := by
  induction ls generalizing s with
  | nil => exact h.turns
  | cons l ls ih =>
    have first := h.visitAs r l (streams.contains l)
    exact first.trans (ih first.1)

/-! ## A block in its turn at its slice -/

/-- What a thread asks of a block of lines. -/
inductive ReqOp.OnLines : ReqOp → Prop
  | lrln (d block : Nat) (ls streams : List Nat) : OnLines (.lrln d block ls streams)
  | scln (d : Nat) (uncond : Bool) (ls streams : List Nat) (ws : List (Nat × Word × Bool)) : OnLines (.scln d uncond ls streams ws)

theorem State.begin_onLines (s : State) {r : Req} {op : ReqOp} (e : r.op = op) (h : op.OnLines) : s.begin r = r := by
  cases h <;> simp [State.begin, e]

theorem State.meetsOwned_onLines (s : State) {r : Req} {op : ReqOp} (e : r.op = op) (h : op.OnLines) (f : Req → Req) (j : Nat) :
    (s.onReq r.id f).meetsOwned r j = s.meetsOwned r j := by
  cases h <;> simp only [State.meetsOwned, State.spots, e] <;> rfl

/-- A block's step poisons what it writes itself. -/
theorem Req.written_onLines {r : Req} {op : ReqOp} (e : r.op = op) (h : op.OnLines) (j : Nat) : r.written j = [] := by
  cases h <;> simp [Req.written, e]

/-- The block is in its turn at slice i of partition p, which has nothing to write back. -/
structure State.AtSlice (s : State) (r : Req) (p i : Nat) : Prop where
  here : s.req r.id = some r
  come : r.st = 1 ∨ r.st = 3
  front : s.behind r = false
  turn : s.turnOf r = true
  admitted : s.refused r = false
  free : s.meetsOwned r 0 = false
  home : r.home = .slice p i
  settled : s.Settled

theorem State.AtSlice.performs {s : State} {r : Req} {p i : Nat} (h : s.AtSlice r p i) {op : ReqOp} (e : r.op = op) (lines : op.OnLines) :
    exec (.homePerform r.home r.id 0) s = .next ((s.onReq r.id fun _ => r).performAt r 0) := by
  have run := execHomePerform_performs (j := 0) h.here h.come h.front h.turn (s.begin_onLines e lines)
    ((s.meetsOwned_onLines e lines ..).trans h.free) h.admitted
  have untouched (u : State) : u.taint r 0 = u := by simp [State.taint, Req.written_onLines e lines]
  rwa [untouched] at run

/-! ## LRLN at its slice (R206) -/

/-- The words of the lines as they go into the block. -/
def State.blockWords (s : State) (r : Req) (p block : Nat) (ls : List Nat) : List (Nat × Word × Bool) :=
  (List.range ls.length).flatMap fun k => (List.range 16).map fun j =>
    let l := ls.getD k 0 + 8 * j
    (block + 64 + 128 * k + 8 * j, BitVec.ofNat 64 (leNat (s.cells p l 8)), s.poisoned l || r.rbad)

/-- Cells that the partition names are those of memory. -/
theorem State.cells_word {s : State} {p key : Nat} (named : s.named p key = true) : leNat (s.cells p key 8) = memNat s.mem key 8 := by
  rw [State.cells, if_pos named, leNat_memBytes]

theorem State.mem_blockWords {s : State} {p : Nat} {ls : List Nat} (named : ∀ l ∈ ls, ∀ j < 16, s.named p (l + 8 * j) = true) (r : Req)
    (block : Nat) (w : Nat × Word × Bool) :
    w ∈ s.blockWords r p block ls ↔ ∃ k j l, ls[k]? = some l ∧ j < 16 ∧
      w = (block + 64 + 128 * k + 8 * j, BitVec.ofNat 64 (memNat s.mem (l + 8 * j) 8), s.poisoned (l + 8 * j) || r.rbad) := by
  simp only [State.blockWords, List.mem_flatMap, List.mem_map, List.mem_range]
  constructor
  · rintro ⟨k, hk, j, hj, rfl⟩
    refine ⟨k, j, ls[k], List.getElem?_eq_getElem hk, hj, ?_⟩
    rw [List.getD_eq_getElem _ _ hk, State.cells_word (named _ (List.getElem_mem hk) j hj)]
  · rintro ⟨k, j, l, at', hj, rfl⟩
    refine ⟨k, (List.getElem?_eq_some_iff.1 at').1, j, hj, ?_⟩
    rw [List.getD_eq_getElem?_getD, at', Option.getD_some, State.cells_word (named l (List.mem_of_getElem? at') j hj)]

/-- A slice as it reserves the lines, for a thread that still stands on a core. -/
def State.reserved (s : State) (r : Req) (p i : Nat) (ls : List Nat) : State := if (s.holder r.uid).isSome then s.reserve p i r.uid ls else s

theorem State.reserved_eq (s : State) (r : Req) (p i : Nat) (ls : List Nat) : ∃ rv, s.reserved r p i ls = { s with resv := rv } ∧
    ((s.holder r.uid).isSome = true → ∃ v ∈ rv, v.uid = r.uid ∧ v.slice = (p, i) ∧ v.lines = ls) := by
  unfold State.reserved
  split
  · exact ⟨_, rfl, fun _ => ⟨_, List.mem_append_right _ List.mem_cons_self, rfl, rfl, rfl⟩⟩
  · rename_i gone
    exact ⟨_, rfl, fun h => absurd h gone⟩

/-- The lines on their way into the block. -/
def State.blockReq (s : State) (r : Req) (d block : Nat) (ls : List Nat) (ws : List (Nat × Word × Bool)) : Req :=
  { r with id := s.nextReq, cls := 3, counted := false, home := .core r.core, addr := block + 64, st := 1, came := s.cycle,
           arr := s.arrivalKey 0 r.core, begun := true, rtries := 0, rbad := false, op := .block d (BitVec.ofNat 64 ls.length) ws }

theorem State.performAt_lrln (s : State) {r : Req} {p i d block : Nat} {ls streams : List Nat} (home : r.home = .slice p i)
    (op : r.op = .lrln d block ls streams) :
    let u := s.visitLines r ls streams
    let v := u.reserved r p i ls
    s.performAt r 0 = (v.performed r).addReq (v.blockReq r d block ls (u.blockWords r p block ls)) := by
  simp only [State.performAt, op, home]
  rfl

theorem State.AtSlice.lrln {s : State} {r : Req} {p i : Nat} (h : s.AtSlice r p i) (later : r.id < s.nextReq) {d block : Nat}
    {ls streams : List Nat} (op : r.op = .lrln d block ls streams) (named : ∀ l ∈ ls, ∀ j < 16, s.named p (l + 8 * j) = true) :
    ∃ (t : State) (q : Req) (ws : List (Nat × Word × Bool)), exec (.homePerform r.home r.id 0) s = .next t ∧ q ∈ t.reqs ∧ q.uid = r.uid ∧
      q.home = .core r.core ∧ q.op = .block d (BitVec.ofNat 64 ls.length) ws ∧ SameBytes s t ∧ t.req r.id = none ∧
      (∀ w, w ∈ ws ↔ ∃ k j l, ls[k]? = some l ∧ j < 16 ∧
        w = (block + 64 + 128 * k + 8 * j, BitVec.ofNat 64 (memNat s.mem (l + 8 * j) 8), s.poisoned (l + 8 * j) || r.rbad)) ∧
      ((s.holder r.uid).isSome = true → ∃ v ∈ t.resv, v.uid = r.uid ∧ v.slice = (p, i) ∧ v.lines = ls) := by
  have settled : (s.onReq r.id fun _ => r).Settled := h.settled
  have turns := settled.visitLines r ls streams
  have run := h.performs op (.lrln ..)
  rw [State.performAt_lrln _ h.home op] at run
  set u := (s.onReq r.id fun _ => r).visitLines r ls streams
  obtain ⟨rv, reserved, stands⟩ := u.reserved_eq r p i ls
  rw [reserved, State.addReq_near _ rfl rfl] at run
  have named' : ∀ l ∈ ls, ∀ j < 16, u.named p (l + 8 * j) = true := fun l hl j hj => (turns.named p _).trans (named l hl j hj)
  refine ⟨_, _, _, run, List.mem_append_right _ List.mem_cons_self, rfl, rfl, rfl, fun a => congrArg (memGet · a) turns.mem, ?_, fun w => ?_,
    fun on => stands (by rw [turns.holder]; exact on)⟩
  · refine (State.req_eq_none ..).2 fun q hq => ?_
    obtain old | new := List.mem_append.1 hq
    · exact ((State.mem_performed ..).1 old).2
    · rw [List.mem_singleton.1 new]
      have id : u.nextReq = s.nextReq := turns.nextReq
      exact fun e => (later.trans_eq id.symm).ne' e
  · have poisoned (a : Nat) : u.poisoned a = s.poisoned a := by rw [State.poisoned, turns.poison]; rfl
    have mem : u.mem = s.mem := turns.mem
    simp only [State.mem_blockWords named', poisoned, mem]

/-! ## SCLN at its slice (R207, R208) -/

/-- One word of a commit, with its poison. -/
def State.writeWord (s : State) (p i : Nat) (bad : Bool) (w : Nat × Word × Bool) : State :=
  (s.sliceWrite p i w.1 0 0 (leBytes 8 w.2.1.toNat)).setPoison w.1 (w.2.2 || bad)

/-- A state that has taken aligned words with their poison, and nothing else of memory and poison differs. -/
structure State.TakesWords (s t : State) (ws : List (Nat × Word × Bool)) (bad : Bool) : Prop where
  canonical : MemOk t
  words : ∀ w ∈ ws, memNat t.mem w.1 8 = w.2.1.toNat ∧ t.poisoned w.1 = (w.2.2 || bad)
  frame : ∀ a, (∀ w ∈ ws, a < w.1 ∨ w.1 + 8 ≤ a) → memGet t.mem a = memGet s.mem a
  marks : ∀ a, (∀ w ∈ ws, a / 8 ≠ w.1 / 8) → t.poisoned a = s.poisoned a
  rest : ∃ m l po pa, t = { s with mem := m, l2 := l, poison := po, parity := pa }

theorem State.poisoned_setPoison_same (s : State) (key : Nat) (b : Bool) : (s.setPoison key b).poisoned key = b := by
  cases b <;> simp [State.setPoison, State.poisoned]

theorem State.poisoned_setPoison_ne (s : State) {key a : Nat} (b : Bool) (other : a / 8 ≠ key / 8) :
    (s.setPoison key b).poisoned a = s.poisoned a := by
  cases b <;> simp [State.setPoison, State.poisoned, other]

/-- A whole word written to an unsealed line, or to none, goes to memory and is no longer poisoned. -/
theorem State.sliceWrite_word {s : State} {p key : Nat} (named : s.named p key = true) (aligned : key % 8 = 0) (i va : Nat) {b : List Byte}
    (word : b.length = 8) :
    ∃ l pa, s.sliceWrite p i key 0 va b = State.setPoison { s with mem := memPut s.mem key b, l2 := l, parity := pa } key false := by
  simp only [State.sliceWrite, named, Bool.not_true, Bool.false_eq_true, if_false, if_true, State.putBytes, word, aligned, and_self]
  split
  · exact ⟨_, _, rfl⟩
  · exact ⟨_, _, rfl⟩

theorem State.writeWord_takes {s : State} {p : Nat} (ok : MemOk s) {w : Nat × Word × Bool} (aligned : w.1 % 8 = 0)
    (named : s.named p w.1 = true) (i : Nat) (bad : Bool) : s.TakesWords (s.writeWord p i bad w) [w] bad := by
  obtain ⟨l, pa, write⟩ := State.sliceWrite_word named aligned i 0 (leBytes_length 8 w.2.1.toNat)
  have mem : (s.writeWord p i bad w).mem = memPut s.mem w.1 (leBytes 8 w.2.1.toNat) := by
    rw [State.writeWord, State.setPoison_mem, write, State.setPoison_mem]
  refine ⟨?_, fun v hv => ?_, fun a out => ?_, fun a other => ?_, ?_⟩
  · rw [MemOk, mem]
    exact memWf_memPut _ _ ok
  · obtain rfl := List.mem_singleton.1 hv
    refine ⟨?_, State.poisoned_setPoison_same ..⟩
    rw [mem, memNat_memPut_leBytes ok]
    exact Nat.mod_eq_of_lt v.2.1.isLt
  · have frame := sameBytesBut_memPut ok mem
    rw [leBytes_length] at frame
    exact frame a (out w List.mem_cons_self)
  · have apart := other w List.mem_cons_self
    rw [State.writeWord, State.poisoned_setPoison_ne _ _ apart, write, State.poisoned_setPoison_ne _ _ apart]
    rfl
  · rw [State.writeWord, write]
    cases w.2.2 || bad <;> exact ⟨_, _, _, _, rfl⟩

/-- Two commits in a row, of words apart from each other. -/
theorem State.TakesWords.append {s t u : State} {v w : List (Nat × Word × Bool)} {bad : Bool} (h : s.TakesWords t v bad)
    (k : t.TakesWords u w bad) (apart : ∀ x ∈ v, ∀ y ∈ w, x.1 / 8 ≠ y.1 / 8) (aligned : ∀ x ∈ v ++ w, x.1 % 8 = 0) :
    s.TakesWords u (v ++ w) bad where
  canonical := k.canonical
  words := fun x hx => by
    obtain first | second := List.mem_append.1 hx
    · obtain ⟨value, mark⟩ := h.words x first
      refine ⟨(memNat_congr fun i hi => k.frame _ fun y hy => ?_).trans value, (k.marks _ (apart x first)).trans mark⟩
      have := apart x first y hy
      have := aligned x hx
      have := aligned y (List.mem_append_right _ hy)
      omega
    · exact k.words x second
  frame := fun a out =>
    (k.frame a fun y hy => out y (List.mem_append_right _ hy)).trans (h.frame a fun x hx => out x (List.mem_append_left _ hx))
  marks := fun a out =>
    (k.marks a fun y hy => out y (List.mem_append_right _ hy)).trans (h.marks a fun x hx => out x (List.mem_append_left _ hx))
  rest := by
    obtain ⟨m, l, po, pa, rfl⟩ := h.rest
    obtain ⟨m', l', po', pa', rfl⟩ := k.rest
    exact ⟨m', l', po', pa', rfl⟩

theorem State.writeWords_take {s : State} {p : Nat} (ok : MemOk s) {ws : List (Nat × Word × Bool)} (apart : (ws.map (·.1)).Nodup)
    (places : ∀ w ∈ ws, w.1 % 8 = 0 ∧ s.named p w.1 = true) (i : Nat) (bad : Bool) :
    s.TakesWords (ws.foldl (fun s w => s.writeWord p i bad w) s) ws bad := by
  induction ws generalizing s with
  | nil => exact ⟨ok, by simp, fun _ _ => rfl, fun _ _ => rfl, _, _, _, _, rfl⟩
  | cons w ws ih =>
    obtain ⟨aligned, named⟩ := places w List.mem_cons_self
    have one := State.writeWord_takes ok aligned named i bad
    rw [List.map_cons, List.nodup_cons] at apart
    have kept (key : Nat) : (s.writeWord p i bad w).named p key = s.named p key := by
      obtain ⟨m, l, po, pa, e⟩ := one.rest
      rw [e]
      rfl
    have more := ih one.canonical apart.2 fun v hv => by
      rw [kept]
      exact places v (List.mem_cons_of_mem _ hv)
    refine one.append more (fun x hx y hy => ?_) fun x hx => (places x hx).1
    obtain rfl := List.mem_singleton.1 hx
    have other : x.1 ≠ y.1 := fun e => apart.1 (e ▸ List.mem_map_of_mem hy)
    have := (places y (List.mem_cons_of_mem _ hy)).1
    omega

/-- The commit is unconditional, or its thread's reservation of these lines stands. -/
def State.mayCommit (s : State) (r : Req) (p i : Nat) (uncond : Bool) (ls : List Nat) : Bool :=
  uncond || s.resv.any fun v => v.uid == r.uid && v.slice == (p, i) && v.lines == ls

theorem State.mayCommit_iff (s : State) (r : Req) (p i : Nat) (uncond : Bool) (ls : List Nat) :
    s.mayCommit r p i uncond ls = true ↔ uncond = true ∨ ∃ v ∈ s.resv, v.uid = r.uid ∧ v.slice = (p, i) ∧ v.lines = ls := by
  simp only [State.mayCommit, Bool.or_eq_true, List.any_eq_true, Bool.and_eq_true, beq_iff_eq, and_assoc]

/-- The words of a commit are written, and end the reservations over their lines. -/
def State.commit (s : State) (r : Req) (p i : Nat) (ws : List (Nat × Word × Bool)) : State :=
  (ws.foldl (fun s w => s.writeWord p i r.bad w) s).breakResv p i (ws.map (·.1 / 128))

/-- A thread's reservation ends. -/
def State.endResv (s : State) (uid : Nat) : State := { s with resv := s.resv.filter (·.uid != uid) }

theorem State.performAt_scln (s : State) {r : Req} {p i d : Nat} {uncond : Bool} {ls streams : List Nat} {ws : List (Nat × Word × Bool)}
    (home : r.home = .slice p i) (op : r.op = .scln d uncond ls streams ws) :
    let u := s.visitLines r ls streams
    let ok := u.mayCommit r p i uncond ls
    s.performAt r 0 = (((if ok then u.commit r p i ws else u).endResv r.uid).reply r d (if ok then 0 else 1) 0).performed r := by
  simp only [State.performAt, op, home]
  rfl

theorem State.breakResv_ends (s : State) (p i : Nat) (lines : List Nat) :
    ∀ v ∈ (s.breakResv p i lines).resv, v.slice = (p, i) → ∀ l ∈ v.lines, l / 128 ∉ lines := by
  intro v hv slice l hl named
  have stays := (List.mem_filter.1 hv).2
  simp only [slice, beq_self_eq_true, Bool.true_and, Bool.not_eq_true', List.any_eq_false, List.contains_iff_mem] at stays
  exact stays l hl named

section
variable {s : State} {r : Req} {p i d : Nat} {uncond : Bool} {ls streams : List Nat} {ws : List (Nat × Word × Bool)} (h : s.AtSlice r p i)
  (op : r.op = .scln d uncond ls streams ws)
include h op

/-- The commit's slice answers its thread, whose reservation ends, from the state it has come to. -/
theorem State.AtSlice.scln :
    ∃ (u t : State) (f : RegFill), (s.onReq r.id fun _ => r).Turns u ∧ exec (.homePerform r.home r.id 0) s = .next t ∧
      ((if s.mayCommit r p i uncond ls then u.commit r p i ws else u).endResv r.uid).Answers t r d
        (if s.mayCommit r p i uncond ls then 0 else 1) f := by
  have settled : (s.onReq r.id fun _ => r).Settled := h.settled
  have turns := settled.visitLines r ls streams
  have run := h.performs op (.scln ..)
  have same : ((s.onReq r.id fun _ => r).visitLines r ls streams).mayCommit r p i uncond ls = s.mayCommit r p i uncond ls := by
    rw [State.mayCommit, turns.resv]
    rfl
  rw [State.performAt_scln _ h.home op, same] at run
  obtain ⟨f, answers⟩ := State.reply_answers _ r d (if s.mayCommit r p i uncond ls then 0 else 1) 0
  exact ⟨_, _, f, turns, run, answers⟩

/-- A commit that may be made writes its words at once and gives 0. -/
theorem State.AtSlice.scln_commits (ok : MemOk s) (may : s.mayCommit r p i uncond ls = true) (apart : (ws.map (·.1)).Nodup)
    (places : ∀ w ∈ ws, w.1 % 8 = 0 ∧ s.named p w.1 = true) :
    ∃ (u t : State) (f : RegFill), (s.onReq r.id fun _ => r).Turns u ∧ exec (.homePerform r.home r.id 0) s = .next t ∧
      ((u.commit r p i ws).endResv r.uid).Answers t r d 0 f ∧ u.TakesWords (ws.foldl (fun s w => s.writeWord p i r.bad w) u) ws r.bad := by
  obtain ⟨u, t, f, turns, run, answers⟩ := h.scln op
  rw [if_pos may, if_pos may] at answers
  have ok' : MemOk u := by
    rw [MemOk, turns.mem]
    exact ok
  refine ⟨u, t, f, turns, run, answers, State.writeWords_take ok' apart (fun w hw => ?_) i r.bad⟩
  rw [turns.named]
  exact places w hw

/-- A commit that may not be made gives 1 and writes nothing. -/
theorem State.AtSlice.scln_fails (may : s.mayCommit r p i uncond ls = false) :
    ∃ (u t : State) (f : RegFill), (s.onReq r.id fun _ => r).Turns u ∧ exec (.homePerform r.home r.id 0) s = .next t ∧
      (u.endResv r.uid).Answers t r d 1 f := by
  obtain ⟨u, t, f, turns, run, answers⟩ := h.scln op
  rw [may] at answers
  exact ⟨u, t, f, turns, run, answers⟩

end

theorem State.Answers.endsResv {s t : State} {r : Req} {d : Nat} {v : Word} {f : RegFill} (h : (s.endResv r.uid).Answers t r d v f) :
    ∀ v ∈ t.resv, v ∈ s.resv ∧ v.uid ≠ r.uid := by
  intro v hv
  rw [h.resv] at hv
  simpa [State.endResv] using hv

/-- Settles O20: a good block passes its checks and issues its request; at their slice the lines go into the block, or the commit is made
or not. -/
theorem lineBlocksIssue : Obligations.LineBlocksIssue := by
  refine ⟨?issue, ?home⟩
  case issue =>
    intro s d a o h p ps commit va key n ok aligned place fits header good words found each
    have block : s.GoodBlock a commit key p ps := by
      refine ⟨aligned, ⟨o, place, fits, rfl⟩, header, good, ?_, ?_, homesDiffer_false (fun q hq => (each q hq).1) (each p List.mem_cons_self).2.1,
        fun q hq => (each q hq).2.2⟩
      · simpa only [State.blockLines, List.length_map, List.length_range] using words
      · rw [State.blockLines, List.map_map]
        exact found
    have home : p.home = h := (each p List.mem_cons_self).1
    cases commit with
    | false =>
      obtain ⟨t, r, run, sends, op, ended⟩ := block.lrln ok
      exact ⟨t, r, run, sends.reqs, sends.home.trans home, sends.addr, sends.cls, sends.retired, sends.bytes, sends.regs, sends.empty,
        fun _ => ⟨op, ended⟩, fun no => absurd no Bool.false_ne_true⟩
    | true =>
      obtain ⟨t, r, run, sends, op⟩ := block.scln ok
      exact ⟨t, r, run, sends.reqs, sends.home.trans home, sends.addr, sends.cls, sends.retired, sends.bytes, sends.regs, sends.empty,
        fun no => absurd no.symm Bool.false_ne_true, fun _ => ⟨_, op, s.mem_blockWrites key (p :: ps)⟩⟩
  case home =>
    intro s r p i d ls streams memOk here later home come front turn admitted free unsealed
    have slice : s.AtSlice r p i := ⟨here, come, front, turn, admitted, free, home, State.Unsealed.settled unsealed⟩
    refine ⟨fun block op named => slice.lrln later op named, fun uncond ws op apart places => ?_⟩
    rw [← State.mayCommit_iff]
    cases may : s.mayCommit r p i uncond ls with
    | true =>
      obtain ⟨u, t, f, turns, run, one, takes⟩ := slice.scln_commits op memOk may apart places
      have mem : t.mem = (ws.foldl (fun s w => s.writeWord p i r.bad w) u).mem := one.mem
      have before : u.mem = s.mem := turns.mem
      have fills : u.fills = s.fills := turns.fills
      have stays : (u.commit r p i ws).fills = s.fills := by
        obtain ⟨m, l, po, pa, e⟩ := takes.rest
        rw [State.commit, e]
        exact fills
      refine ⟨t, f, run, one.fills.trans (congrArg (· ++ [f]) stays), one.uid, one.reg, one.gone, fun v hv => (one.endsResv v hv).2,
        fun _ => ⟨one.val, fun w hw => ?_, fun a out => ?_, fun v hv at' l hl w hw => ?_⟩, fun no => absurd rfl no⟩
      · obtain ⟨value, mark⟩ := takes.words w hw
        refine ⟨by rw [mem, value], ?_⟩
        rw [State.poisoned, one.poison]
        exact mark
      · rw [mem, takes.frame a out, before]
      · intro e
        exact State.breakResv_ends _ p i _ v (one.endsResv v hv).1 at' l hl (e ▸ List.mem_map_of_mem hw)
    | false =>
      obtain ⟨u, t, f, turns, run, one⟩ := slice.scln_fails op may
      have mem : t.mem = s.mem := one.mem.trans turns.mem
      have fills : u.fills = s.fills := turns.fills
      exact ⟨t, f, run, one.fills.trans (congrArg (· ++ [f]) fills), one.uid, one.reg, one.gone, fun v hv => (one.endsResv v hv).2,
        fun yes => absurd yes Bool.false_ne_true, fun _ => ⟨one.val, fun a => congrArg (memGet · a) mem⟩⟩

end Sys2Proof.Machine
end

section
/-! PROOF. Rows and their lanes (R212): fields of packed lanes, a row read after it or another one was written, and what a unit that
writes one row leaves alone. -/

namespace Sys2Proof.Machine

open Sys2Proof

/-! ## Lanes packed into a row -/

/-- The number that `packLanes` narrows to a row. -/
def packed (w : Nat) (l : List Nat) : Nat := l.foldr (fun v a => a * 2 ^ w + v % 2 ^ w) 0

theorem packLanes_eq (w : Nat) (l : List Nat) : packLanes w l = BitVec.ofNat 512 (packed w l) := rfl

theorem packed_cons (w v : Nat) (l : List Nat) : packed w (v :: l) = packed w l * 2 ^ w + v % 2 ^ w := rfl

theorem packed_lt (w : Nat) (l : List Nat) : packed w l < 2 ^ (l.length * w) := by
  induction l with
  | nil => simp [packed]
  | cons v l ih =>
    have low : v % 2 ^ w < 2 ^ w := Nat.mod_lt _ (Nat.two_pow_pos w)
    have room : (packed w l + 1) * 2 ^ w ≤ 2 ^ (l.length * w) * 2 ^ w := Nat.mul_le_mul_right _ ih
    rw [packed_cons, List.length_cons, Nat.succ_mul, Nat.pow_add]
    rw [Nat.succ_mul] at room
    omega

/-- Lane i of the packed number is the list's value there, narrowed; past the list it is 0. -/
theorem packed_lane (w : Nat) (l : List Nat) (i : Nat) : packed w l / 2 ^ (i * w) % 2 ^ w = l.getD i 0 % 2 ^ w := by
  induction l generalizing i with
  | nil => simp [packed]
  | cons v l ih =>
    have low : v % 2 ^ w < 2 ^ w := Nat.mod_lt _ (Nat.two_pow_pos w)
    rw [packed_cons]
    cases i with
    | zero => simp
    | succ i =>
      have rest : (packed w l * 2 ^ w + v % 2 ^ w) / 2 ^ w = packed w l := by
        rw [Nat.mul_comm, Nat.mul_add_div (Nat.two_pow_pos w), Nat.div_eq_of_lt low, Nat.add_zero]
      rw [show (i + 1) * w = w + i * w by ring, Nat.pow_add, ← Nat.div_div_eq_div_mul, rest, ih]
      rfl

theorem mod_two_pow_field (n : Nat) {k lo w : Nat} (fits : lo + w ≤ k) : n % 2 ^ k / 2 ^ lo % 2 ^ w = n / 2 ^ lo % 2 ^ w := by
  have split : 2 ^ k = 2 ^ lo * 2 ^ (k - lo) := by rw [← Nat.pow_add, Nat.add_sub_cancel' (by omega)]
  rw [split, Nat.mod_mul_right_div_self, Nat.mod_mod_of_dvd _ (Nat.pow_dvd_pow 2 (by omega))]

/-- A field of a number narrowed to a row is the number's own. -/
theorem rowField_ofNat (n : Nat) {lo w : Nat} (fits : lo + w ≤ 512) : rowField (BitVec.ofNat 512 n) lo w = n / 2 ^ lo % 2 ^ w := by
  rw [rowField, BitVec.toNat_ofNat, mod_two_pow_field n fits]

theorem rowField_packLanes (l : List Nat) {w i : Nat} (fits : i * w + w ≤ 512) :
    rowField (packLanes w l) (i * w) w = l.getD i 0 % 2 ^ w := by
  rw [packLanes_eq, rowField_ofNat _ fits, packed_lane]

theorem packLanes_high {w : Nat} {l : List Nat} {j : Nat} (high : l.length * w ≤ j) : (packLanes w l).getLsbD j = false := by
  have lt : packed w l < 2 ^ j := (packed_lt w l).trans_le (Nat.pow_le_pow_right (by decide) high)
  rw [packLanes_eq, BitVec.getLsbD_ofNat, Nat.testBit_lt_two_pow lt, Bool.and_false]

theorem rowField_lt (r : Row) (lo w : Nat) : rowField r lo w < 2 ^ w := Nat.mod_lt _ (Nat.two_pow_pos w)

@[simp] theorem rowField_mod (r : Row) (lo w : Nat) : rowField r lo w % 2 ^ w = rowField r lo w := Nat.mod_eq_of_lt (rowField_lt r lo w)

/-! ## Lane counts (R212) -/

theorem laneCount_mul_laneBits (ty : Nat) : laneCount ty * laneBits ty = 512 := by
  unfold laneCount laneBits
  split <;> rfl

theorem div_laneBits (ty : Nat) : 512 / laneBits ty = laneCount ty := by
  unfold laneCount laneBits
  split <;> rfl

theorem laneBits_pos (ty : Nat) : 0 < laneBits ty := by
  unfold laneBits
  split <;> decide

theorem laneCount_pos (ty : Nat) : 0 < laneCount ty := by
  unfold laneCount
  split <;> decide

/-- As many fields as a row has lanes, each no wider than a lane, lie in the row. -/
theorem lane_fits {ty w l : Nat} (width : w ≤ laneBits ty) (h : l < laneCount ty) : l * w + w ≤ 512 :=
  calc l * w + w = (l + 1) * w := (Nat.succ_mul l w).symm
    _ ≤ laneCount ty * laneBits ty := Nat.mul_le_mul h width
    _ = 512 := laneCount_mul_laneBits ty

theorem State.lane_lt (s : State) (p l : Nat) : s.lane p l < 2 ^ laneBits (s.ty p) := rowField_lt ..

theorem State.lanes_row (s : State) (p : Nat) : lanes (laneBits (s.ty p)) (s.row p) = (List.range (laneCount (s.ty p))).map (s.lane p) := by
  rw [lanes, div_laneBits]
  rfl

/-! ## Rows in memory -/

theorem tileKey_row (n p : Nat) : tileKey n (p / 16) (p % 16) = tileKey n 0 0 + 64 * p := by
  simp only [tileKey, winKey]
  omega

/-- Memory into which row p of core n was written. -/
def State.rowMem (s : State) (n p : Nat) (v : Row) : List (Nat × Byte) :=
  memPut s.mem (tileKey n (p / 16) (p % 16)) (leBytes 64 v.toNat)

theorem State.rowAt_same {s t : State} (ok : MemOk s) {n p : Nat} {v : Row} (mem : t.mem = s.rowMem n p v) : t.rowAt n p = v := by
  have size : 256 ^ 64 = 2 ^ 512 := (Nat.pow_mul 2 8 64).symm
  rw [State.rowAt, mem, State.rowMem, memNat_memPut_leBytes ok, size, Nat.mod_eq_of_lt v.isLt, BitVec.ofNat_toNat, BitVec.setWidth_eq]

theorem State.rowMem_out {s t : State} (ok : MemOk s) {n p : Nat} {v : Row} (mem : t.mem = s.rowMem n p v) :
    SameBytesBut s t (tileKey n (p / 16) (p % 16)) 64 := by
  have out := sameBytesBut_memPut ok mem
  rwa [leBytes_length] at out

/-- Bytes outside row p hold every other row of the core. -/
theorem State.rowAt_ne {s t : State} {n p q : Nat} (out : SameBytesBut s t (tileKey n (p / 16) (p % 16)) 64) (ne : q ≠ p) :
    t.rowAt n q = s.rowAt n q := by
  rw [tileKey_row] at out
  rw [State.rowAt, State.rowAt, tileKey_row, memNat_congr fun i hi => out _ (by omega)]

@[simp] theorem State.setRowAt_cur (s : State) (n p : Nat) (v : Row) : (s.setRowAt n p v).cur = s.cur := by
  simp only [State.cur, State.ctxAt, State.core, State.setRowAt_cores, State.setRowAt_iss]
@[simp] theorem State.setRowAt_here (s : State) (n p : Nat) (v : Row) : (s.setRowAt n p v).here = s.here := by
  simp only [State.here, State.core, State.setRowAt_cores, State.setRowAt_iss]

/-! ## A unit that writes one row -/

/-- The unit has written v to row p of its core, ORed its flags into fcsr, and retired. -/
structure State.PutsRow (s t : State) (p : Nat) (v : Row) (f : Flags) : Prop where
  iss : t.iss = s.iss
  row : t.row p = v
  ty : ∀ q, t.ty q = s.ty q
  fcsr : t.cur.fcsr = s.cur.fcsr ||| f.zeroExtend 8
  retired : Retired s t
  frame : RowFrame s t p

theorem State.ty_congr {s t : State} (tiles : t.here.tiles = s.here.tiles) (q : Nat) : t.ty q = s.ty q := by
  change ((t.here.tile (q / 16)).ty) = ((s.here.tile (q / 16)).ty)
  rw [Core.tile, tiles]
  rfl

theorem State.pops_tiles (s : State) (l : List XReg) : (s.pops l).here.tiles = s.here.tiles := by
  obtain h | ⟨q, h⟩ := s.pops_frame l <;> rw [h]
  rw [State.here_onHere]

/-- A state whose memory has the row, and whose context has the flags, retires. -/
theorem State.putsRow_retire {s u : State} (ok : MemOk s) {p : Nat} {v : Row} {f : Flags} (mem : u.mem = s.rowMem s.iss.core p v)
    (iss : u.iss = s.iss) (cur : u.cur = s.cur.orFlags f) (tiles : u.here.tiles = s.here.tiles) : s.PutsRow u.retire p v f where
  iss := iss
  row := by
    rw [State.row, State.retire_iss, iss]
    exact State.rowAt_same ok mem
  ty := State.ty_congr (by rw [State.retire, State.here_onCur_tiles, tiles])
  fcsr := by
    rw [State.retire_cur, Ctx.retire_fcsr, cur]
    rfl
  retired := retired_retire iss (by rw [cur, Ctx.orFlags_frame]) (by rw [cur, Ctx.orFlags_instret])
  frame := ⟨State.rowMem_out ok mem, sameRegs_retire fun r _ => by rw [cur]; rfl⟩

theorem Ctx.orFlags_zero (c : Ctx) : c.orFlags 0 = c := by simp [Ctx.orFlags]

theorem State.putRow_puts {s : State} (ok : MemOk s) (l : List XReg) (p : Nat) (v : Row) (f : Flags) :
    ∃ t : State, (s.pops l).putRow p v f = .next t ∧ s.PutsRow t p v f := by
  have iss := s.pops_iss l
  refine ⟨_, rfl, State.putsRow_retire (u := ((s.pops l).setRowAt (s.pops l).iss.core p v).orFlags f) ok ?_ ?_ ?_ ?_⟩
  · rw [State.orFlags_mem, State.setRowAt_mem, State.pops_mem, iss, State.rowMem]
  · rw [State.orFlags_iss, State.setRowAt_iss, iss]
  · rw [State.orFlags, State.cur_onCur, State.setRowAt_cur, s.pops_cur]
  · rw [State.orFlags, State.here_onCur_tiles, State.setRowAt_here, s.pops_tiles]

theorem State.PutsRow.lane {s t : State} {p : Nat} {v : Row} {f : Flags} (h : s.PutsRow t p v f) (l : Nat) :
    t.lane p l = rowField v (l * laneBits (s.ty p)) (laneBits (s.ty p)) := by
  rw [State.lane, h.row, h.ty]

theorem State.PutsRow.lane_packed {s t : State} {p : Nat} {r : List Nat} {f : Flags}
    (h : s.PutsRow t p (packLanes (laneBits (s.ty p)) r) f) {l : Nat} (lt : l < laneCount (s.ty p)) :
    t.lane p l = r.getD l 0 % 2 ^ laneBits (s.ty p) := by
  rw [h.lane, rowField_packLanes r (lane_fits le_rfl lt)]

/-! ## Flags of lanes (R215) -/

theorem foldl_or_bit {α : Type} (r : List α) (f : α → Flags) (g : Flags) (j : Nat) :
    (r.foldl (fun g x => g ||| f x) g).getLsbD j = (g.getLsbD j || r.any fun x => (f x).getLsbD j) := by
  induction r generalizing g with
  | nil => simp
  | cons x r ih => rw [List.foldl_cons, ih, BitVec.getLsbD_or, List.any_cons, Bool.or_assoc]

/-- The flags that the lanes raise together are added, each lane's among them. -/
theorem laneFlags_of_fold {α : Type} {s t : State} {n : Nat} {f : Nat → α × Flags}
    (h : t.cur.fcsr = s.cur.fcsr ||| (((List.range n).map f).foldl (fun (g : Flags) (x : α × Flags) => g ||| x.2) 0).zeroExtend 8) :
    LaneFlags s t n fun l => (f l).2 := fun j hj => by
  have bit := foldl_or_bit ((List.range n).map f) Prod.snd 0 j
  rw [List.any_map] at bit
  rw [h, BitVec.getLsbD_or, BitVec.getLsbD_setWidth, bit]
  simp [hj, Function.comp_def]

theorem laneFlags_none {s t : State} (h : t.cur.fcsr = s.cur.fcsr) (n : Nat) : LaneFlags s t n fun _ => 0 := fun j _ => by
  simp [h]

theorem State.PutsRow.fcsr_zero {s t : State} {p : Nat} {v : Row} (h : s.PutsRow t p v 0) : t.cur.fcsr = s.cur.fcsr := by
  simpa using h.fcsr

/-! ## Named rows -/

theorem State.withRow_phys {s : State} {f : VReg} {p : Nat} (h : s.cur.phys (s.vr f) = some p) (k : Nat → Out) : s.withRow f k = k p := by
  rw [State.withRow, h]

theorem getD_map_range {n l : Nat} (h : l < n) (f : Nat → Nat) : ((List.range n).map f).getD l 0 = f l := by
  simp [h]

end Sys2Proof.Machine
end

section
/-! PROOF. Vector arithmetic (R216, R217, R219): each unit writes to every lane of its row the value of that lane, with the lanes' flags. -/

namespace Sys2Proof.Machine

open Sys2Proof

/-! ## A unit that computes lane by lane -/

/-- The unit writes row p: lane l takes the low bits of v l, and the lanes' flags are added. -/
def State.SetsLanes (s : State) (p : Nat) (o : Out) (v : Nat → Nat) (fl : Nat → Flags) : Prop :=
  ∃ t : State, o = .next t ∧ (∀ l < laneCount (s.ty p), t.lane p l = v l % 2 ^ laneBits (s.ty p)) ∧
    LaneFlags s t (laneCount (s.ty p)) fl ∧ Retired s t ∧ RowFrame s t p

theorem State.SetsLanes.congr {s : State} {p : Nat} {o : Out} {v u : Nat → Nat} {fl : Nat → Flags} (h : s.SetsLanes p o v fl)
    (same : ∀ l, v l % 2 ^ laneBits (s.ty p) = u l % 2 ^ laneBits (s.ty p)) : s.SetsLanes p o u fl := by
  obtain ⟨t, run, lanes, rest⟩ := h
  exact ⟨t, run, fun l hl => (lanes l hl).trans (same l), rest⟩

/-- Lanes computed one by one, and their flags folded, are written to row p. -/
theorem State.putRow_setsLanes {s : State} (ok : MemOk s) (p : Nat) (f : Nat → Nat × Flags) :
    let r := (List.range (laneCount (s.ty p))).map f
    s.SetsLanes p (s.putRow p (packLanes (laneBits (s.ty p)) (r.map (·.1))) (r.foldl (fun g x => g ||| x.2) 0)) (fun l => (f l).1)
      fun l => (f l).2 := by
  intro r
  obtain ⟨t, run, puts⟩ := State.putRow_puts ok [] p (packLanes (laneBits (s.ty p)) (r.map (·.1))) (r.foldl (fun g x => g ||| x.2) 0)
  refine ⟨t, run, fun l hl => ?_, laneFlags_of_fold puts.fcsr, puts.retired, puts.frame⟩
  rw [puts.lane_packed hl, List.map_map, getD_map_range hl, Function.comp]

/-- A row whose lanes are given by a function of their fields, with no flags. -/
theorem State.putRow_setsFields {s : State} (ok : MemOk s) (p : Nat) (v : Row) :
    s.SetsLanes p (s.putRow p v 0) (fun l => rowField v (l * laneBits (s.ty p)) (laneBits (s.ty p))) fun _ => 0 := by
  obtain ⟨t, run, puts⟩ := State.putRow_puts ok [] p v 0
  exact ⟨t, run, fun l _ => by rw [puts.lane, rowField_mod], laneFlags_none puts.fcsr_zero _, puts.retired, puts.frame⟩

section
variable {s : State} {d a b : VReg} {pd pa pb : Nat} (ok : MemOk s) (hd : s.cur.phys (s.vr d) = some pd)
  (ha : s.cur.phys (s.vr a) = some pa) (hb : s.cur.phys (s.vr b) = some pb) (ta : s.ty pa = s.ty pd) (tb : s.ty pb = s.ty pd)
include ok hd ha hb ta tb

theorem State.lanewise3_sets (takes : Nat → Bool) (f : Nat → Nat → Nat → Nat → Nat × Flags) (taken : takes (s.ty pd) = true) :
    s.SetsLanes pd (s.lanewise3 d a b takes f) (fun l => (f (s.ty pd) (s.lane pd l) (s.lane pa l) (s.lane pb l)).1)
      fun l => (f (s.ty pd) (s.lane pd l) (s.lane pa l) (s.lane pb l)).2 := by
  have plain : ¬(s.ty pa ≠ s.ty pd ∨ s.ty pb ≠ s.ty pd ∨ (!takes (s.ty pd)) = true) := by simp [ta, tb, taken]
  simp only [State.lanewise3, State.withRow_phys hd, State.withRow_phys ha, State.withRow_phys hb]
  rw [if_neg plain]
  simp only [State.lane, ta, tb]
  exact State.putRow_setsLanes ok pd _

/-- A rounded operation of float lanes, under a mode that frm may hold (R98). -/
theorem State.vfloat_sets (float : s.ty pd ≠ 8) (mode : s.cur.fcsr.toNat / 32 < 4) {i : Instr}
    {f : Fmt → Nat → FVal → FVal → FVal → Nat × Flags} (run : exec i s = s.vfloat d a b f) {r : Nat → Nat × Flags}
    (value : ∀ l, f (fmtOf (s.ty pd)) (s.cur.fcsr.toNat / 32) ((fmtOf (s.ty pd)).decode (s.lane pd l)) ((fmtOf (s.ty pd)).decode (s.lane pa l))
      ((fmtOf (s.ty pd)).decode (s.lane pb l)) = r l) : s.SetsLanes pd (exec i s) (fun l => (r l).1) fun l => (r l).2 := by
  have good : frmBroken s.cur = false := decide_eq_false (Nat.not_le.2 mode)
  simp only [← value, run]
  rw [State.vfloat, State.byFrm, good, if_neg Bool.false_ne_true]
  exact State.lanewise3_sets ok hd ha hb ta tb _ _ (by simpa [floatTy] using float)

/-- An operation of float lanes that rounds nothing. -/
theorem State.unrounded_sets (float : s.ty pd ≠ 8) {i : Instr} {f : Nat → Nat → Nat → Nat → Nat × Flags}
    (run : exec i s = s.lanewise3 d a b floatTy f) {r : Nat → Nat × Flags}
    (value : ∀ l, f (s.ty pd) (s.lane pd l) (s.lane pa l) (s.lane pb l) = r l) :
    s.SetsLanes pd (exec i s) (fun l => (r l).1) fun l => (r l).2 := by
  simp only [← value, run]
  exact State.lanewise3_sets ok hd ha hb ta tb _ _ (by simpa [floatTy] using float)

/-- An operation of i32 lanes is one of 32-bit vectors and raises no flag (R217). -/
theorem State.vint_sets (int : s.ty pd = 8) {i : Instr} {f : BitVec 32 → BitVec 32 → BitVec 32} (run : exec i s = s.vint d a b f)
    {v : Nat → Nat} (value : ∀ l, (f (BitVec.ofNat 32 (s.lane pa l)) (BitVec.ofNat 32 (s.lane pb l))).toNat = v l % 2 ^ 32) :
    s.SetsLanes pd (exec i s) v fun _ => 0 :=
  run ▸ (State.lanewise3_sets ok hd ha hb ta tb (· == 8) _ (by simp [int])).congr fun l => by
    rw [value, show laneBits (s.ty pd) = 32 by rw [int]; rfl, Nat.mod_mod]

/-- A bitwise operation acts within each lane. -/
theorem State.vbits_sets {i : Instr} {f : Row → Row → Row} (run : exec i s = s.vbits d a b f) {g : Nat → Nat → Nat}
    (field : ∀ x y : Row, ∀ lo w, rowField (f x y) lo w = g (rowField x lo w) (rowField y lo w)) :
    s.SetsLanes pd (exec i s) (fun l => g (s.lane pa l) (s.lane pb l)) fun _ => 0 := by
  rw [run, State.vbits, State.withRow_phys hd, State.withRow_phys ha, State.withRow_phys hb]
  refine (State.putRow_setsFields ok pd _).congr fun l => ?_
  rw [field, State.lane, State.lane, ta, tb]

/-- VSEL takes each lane from one of two rows. -/
theorem State.vsel_sets (k : KReg) :
    s.SetsLanes pd (execVsel k d a b s) (fun l => if (s.cur.mask k).getLsbD l then s.lane pa l else s.lane pb l) fun _ => 0 := by
  have plain : ¬(s.ty pa ≠ s.ty pd ∨ s.ty pb ≠ s.ty pd) := by simp [ta, tb]
  simp only [execVsel, State.withRow_phys hd, State.withRow_phys ha, State.withRow_phys hb]
  rw [if_neg plain]
  obtain ⟨t, run, puts⟩ := State.putRow_puts ok [] pd (packLanes (laneBits (s.ty pd)) ((List.range (laneCount (s.ty pd))).map fun l =>
    rowField (s.row (if (s.cur.mask k).getLsbD l then pa else pb)) (l * laneBits (s.ty pd)) (laneBits (s.ty pd)))) 0
  refine ⟨t, run, fun l hl => ?_, laneFlags_none puts.fcsr_zero _, puts.retired, puts.frame⟩
  rw [puts.lane_packed hl, getD_map_range hl]
  simp only [State.lane, ta, tb]
  split <;> rfl

end

/-- While frm holds 4 to 7 an operation that rounds by it traps. -/
theorem State.vfloat_traps {s : State} (mode : 4 ≤ s.cur.fcsr.toNat / 32) {d a b : VReg} {i : Instr}
    {f : Fmt → Nat → FVal → FVal → FVal → Nat × Flags} (run : exec i s = s.vfloat d a b f) : exec i s = .next (s.trap 1 0) := by
  have bad : frmBroken s.cur = true := decide_eq_true mode
  rw [run, State.vfloat, State.byFrm, if_pos bad, State.trapOut]

section
variable (s : State) (g : GReg) (d a b : VReg)

theorem exec_vadd : exec (.vadd g d a b) s = s.vfloat d a b fun f m _ x y => f.add m x y := rfl
theorem exec_vsub : exec (.vsub g d a b) s = s.vfloat d a b fun f m _ x y => f.add m x y.negate := rfl
theorem exec_vmul : exec (.vmul g d a b) s = s.vfloat d a b fun f m _ x y => f.mul m x y := rfl
theorem exec_vfma : exec (.vfma g d a b) s = s.vfloat d a b fun f m z x y => f.fma m x y z := rfl
theorem exec_vfms : exec (.vfms g d a b) s = s.vfloat d a b fun f m z x y => f.fma m x y z.negate := rfl

end

/-! ## Fields of bitwise results -/

theorem rowField_and (x y : Row) (lo w : Nat) : rowField (x &&& y) lo w = rowField x lo w &&& rowField y lo w := by
  simp only [rowField, BitVec.toNat_and, Nat.and_div_two_pow, Nat.and_mod_two_pow]
theorem rowField_or (x y : Row) (lo w : Nat) : rowField (x ||| y) lo w = rowField x lo w ||| rowField y lo w := by
  simp only [rowField, BitVec.toNat_or, Nat.or_div_two_pow, Nat.or_mod_two_pow]
theorem rowField_xor (x y : Row) (lo w : Nat) : rowField (x ^^^ y) lo w = rowField x lo w ^^^ rowField y lo w := by
  simp only [rowField, BitVec.toNat_xor, Nat.xor_div_two_pow, Nat.xor_mod_two_pow]

/-! ## The sign bit of a lane (R100) -/

theorem mod_sign_bit {x w : Nat} (pos : 0 < w) (lt : x < 2 ^ w) :
    x % 2 ^ (w - 1) = if x < 2 ^ (w - 1) then x else x - 2 ^ (w - 1) := by
  have whole : 2 ^ w = 2 ^ (w - 1) + 2 ^ (w - 1) := by rw [← Nat.two_pow_succ, Nat.sub_add_cancel pos]
  split
  · exact Nat.mod_eq_of_lt ‹_›
  · rw [Nat.mod_eq_sub_mod (by omega), Nat.mod_eq_of_lt (by omega)]

theorem xor_sign_bit {x w : Nat} (pos : 0 < w) (lt : x < 2 ^ w) :
    x ^^^ 2 ^ (w - 1) = if x < 2 ^ (w - 1) then x + 2 ^ (w - 1) else x - 2 ^ (w - 1) := by
  have whole : 2 ^ w = 2 ^ (w - 1) * 2 := by rw [← Nat.pow_succ, Nat.succ_eq_add_one, Nat.sub_add_cancel pos]
  have half := Nat.two_pow_pos (w - 1)
  have low : (x ^^^ 2 ^ (w - 1)) % 2 ^ (w - 1) = x % 2 ^ (w - 1) := by
    rw [Nat.xor_mod_two_pow, Nat.mod_self, Nat.xor_zero]
  have high : (x ^^^ 2 ^ (w - 1)) / 2 ^ (w - 1) = x / 2 ^ (w - 1) ^^^ 1 := by
    rw [Nat.xor_div_two_pow, Nat.div_self half]
  have top : x / 2 ^ (w - 1) < 2 := by rwa [Nat.div_lt_iff_lt_mul half, Nat.mul_comm, ← whole]
  rw [← Nat.div_add_mod (x ^^^ 2 ^ (w - 1)) (2 ^ (w - 1)), low, high, mod_sign_bit pos lt]
  split
  · rw [Nat.div_eq_of_lt ‹_›, Nat.zero_xor, Nat.mul_one, Nat.add_comm]
  · rw [show x / 2 ^ (w - 1) = 1 from Nat.le_antisymm (by omega) ((Nat.one_le_div_iff half).2 (by omega)), Nat.xor_self, Nat.mul_zero, Nat.zero_add]

/-! ## Signed and shifted lanes -/

theorem sshiftRight_eq_div (x : BitVec 32) (n : Nat) : x.sshiftRight n = BitVec.ofInt 32 (x.toInt / 2 ^ n) := by
  rw [BitVec.sshiftRight, Int.shiftRight_eq_div_pow, Int.natCast_pow, Int.cast_ofNat_Int]

theorem toNat_ite_slt (u v a b : BitVec 32) :
    (if u.slt v then a else b).toNat = (if u.toInt < v.toInt then a.toNat else b.toNat) % 2 ^ 32 := by
  simp only [BitVec.slt_iff_toInt_lt]
  split <;> exact (Nat.mod_eq_of_lt (BitVec.isLt _)).symm

theorem lane_of_i32 {s : State} {p : Nat} (int : s.ty p = 8) (l : Nat) : s.lane p l < 2 ^ 32 := by
  have lt := s.lane_lt p l
  rwa [int] at lt

/-- Settles O42: the operation's value in each lane, then one row written and the unit retired. -/
theorem vectorArithmeticResult : Obligations.VectorArithmeticResult := by
  intro s g k d a b pd pa pb ok hd ha hb ta tb f m w n done x y z bx byv
  have lt (l : Nat) : x l < 2 ^ w := by
    have lt := s.lane_lt pa l
    rwa [ta] at lt
  simp only [List.forall_mem_cons, List.not_mem_nil, false_imp_iff, implies_true, and_true]
  refine ⟨fun type mode => ?_, fun _ mode => ?_, fun type => ?_, fun type => ?_, ?_⟩
  · have float {i : Instr} {f} {r} := State.vfloat_sets ok hd ha hb ta tb type mode (i := i) (f := f) (r := r)
    exact ⟨float (exec_vadd ..) fun _ => rfl, float (exec_vsub ..) fun _ => rfl, float (exec_vmul ..) fun _ => rfl,
      float (exec_vfma ..) fun _ => rfl, float (exec_vfms ..) fun _ => rfl⟩
  · have traps {i : Instr} {f} := State.vfloat_traps mode (d := d) (a := a) (b := b) (i := i) (f := f)
    exact ⟨traps (exec_vadd ..), traps (exec_vsub ..), traps (exec_vmul ..), traps (exec_vfma ..), traps (exec_vfms ..)⟩
  · have one {i : Instr} (f) (r) := State.unrounded_sets ok hd ha ha ta ta type (i := i) (f := f) (r := r)
    have two {i : Instr} (f) {r} := State.unrounded_sets ok hd ha hb ta tb type (i := i) (f := f) (r := r)
    refine ⟨two (fun ty _ x y => (fmtOf ty).minMax false x y) rfl fun _ => rfl, two (fun ty _ x y => (fmtOf ty).minMax true x y) rfl fun _ => rfl,
      one (fun ty _ x _ => (x % 2 ^ (laneBits ty - 1), 0)) (fun l => (if x l < 2 ^ (w - 1) then x l else x l - 2 ^ (w - 1), 0)) rfl fun l => ?_,
      one (fun ty _ x _ => (x ^^^ 2 ^ (laneBits ty - 1), 0))
        (fun l => (if x l < 2 ^ (w - 1) then x l + 2 ^ (w - 1) else x l - 2 ^ (w - 1), 0)) rfl fun l => ?_⟩
    · rw [mod_sign_bit (laneBits_pos _) (lt l)]
    · rw [xor_sign_bit (laneBits_pos _) (lt l)]
  · have int {i : Instr} (f) {v} := State.vint_sets ok hd ha hb ta tb type (i := i) (f := f) (v := v)
    have xs (l : Nat) : (bx l).toNat = x l := Nat.mod_eq_of_lt (lane_of_i32 (ta.trans type) l)
    have ys (l : Nat) : (byv l).toNat = y l := Nat.mod_eq_of_lt (lane_of_i32 (tb.trans type) l)
    refine ⟨int (· + ·) rfl fun l => ?add, int (· - ·) rfl fun l => ?sub, int (· * ·) rfl fun l => ?mul,
      int (fun x y => x <<< (y.toNat % 32)) rfl fun l => ?left, int (fun x y => x >>> (y.toNat % 32)) rfl fun l => ?right,
      int (fun x y => x.sshiftRight (y.toNat % 32)) rfl fun l => ?arithmetic, int (fun x y => if y.slt x then y else x) rfl fun l => ?min,
      int (fun x y => if x.slt y then y else x) rfl fun l => ?max⟩
    case add => exact (BitVec.toNat_add ..).trans (by rw [xs, ys])
    case sub =>
      have small : y l < 2 ^ 32 := lane_of_i32 (tb.trans type) l
      exact (BitVec.toNat_sub ..).trans (by rw [xs, ys, Nat.add_comm, ← Nat.add_sub_assoc small.le])
    case mul => exact (BitVec.toNat_mul ..).trans (by rw [xs, ys])
    case left => exact (BitVec.toNat_shiftLeft ..).trans (by rw [xs, ys, Nat.shiftLeft_eq])
    case right =>
      refine (BitVec.toNat_ushiftRight ..).trans ?_
      rw [xs, ys, Nat.shiftRight_eq_div_pow, Nat.mod_eq_of_lt ((Nat.div_le_self ..).trans_lt (lane_of_i32 (ta.trans type) l))]
    case arithmetic =>
      refine (congrArg BitVec.toNat (sshiftRight_eq_div ..)).trans ?_
      rw [ys, Nat.mod_eq_of_lt (BitVec.isLt _)]
    case min => exact (toNat_ite_slt ..).trans (by rw [xs, ys])
    case max => exact (toNat_ite_slt ..).trans (by rw [xs, ys])
  · have bits {i : Instr} (f) {g} := State.vbits_sets ok hd ha hb ta tb (i := i) (f := f) (g := g)
    exact ⟨bits (· &&& ·) rfl rowField_and, bits (· ||| ·) rfl rowField_or, bits (· ^^^ ·) rfl rowField_xor, State.vsel_sets ok hd ha hb ta tb k⟩

end Sys2Proof.Machine
end

section
/-! PROOF. Masks, replay frames and tile types (R214, R218, R219, R231): compares write one bit for each lane, mask units change the context
alone, REPV begins a frame, and TCFG changes one tile of its core. -/

namespace Sys2Proof.Machine

open Sys2Proof

/-! ## Mask registers (R213) -/

theorem Ctx.mask_named (c : Ctx) {n : KReg} (h : n ≠ 0) : c.mask n = c.k.toList.getD n.toNat 0 := if_neg h

theorem Ctx.mask_congr {c e : Ctx} (h : e.k = c.k) (n : KReg) : e.mask n = c.mask n := by rw [Ctx.mask, h, Ctx.mask]

theorem Ctx.setMask_named (c : Ctx) {n : KReg} (h : n ≠ 0) (v : Word) : (c.setMask n v).k = c.k.set! n.toNat v := by
  rw [Ctx.setMask, if_neg h]

theorem Ctx.mask_setMask_same (c : Ctx) {d : KReg} (h : d ≠ 0) (v : Word) : (c.setMask d v).mask d = v := by
  have lt : d.toNat < 8 := d.isLt
  rw [Ctx.mask_named _ h, Ctx.setMask_named _ h]
  simp [Vector.set!_eq_setIfInBounds, List.getD_eq_getElem?_getD, lt]

theorem Ctx.mask_setMask_ne (c : Ctx) {d n : KReg} (h : n ≠ d) (v : Word) : (c.setMask d v).mask n = c.mask n := by
  by_cases zd : d = 0
  · rw [Ctx.setMask, if_pos zd]
  · by_cases zn : n = 0
    · rw [Ctx.mask, if_pos zn, Ctx.mask, if_pos zn]
    · have ne : d.toNat ≠ n.toNat := fun e => h (BitVec.eq_of_toNat_eq e.symm)
      rw [Ctx.mask_named _ zn, Ctx.mask_named _ zn, Ctx.setMask_named _ zd]
      simp [Vector.set!_eq_setIfInBounds, List.getD_eq_getElem?_getD, ne]

theorem Ctx.setMask_keeps (c : Ctx) (d : KReg) (v : Word) : Ctx.KeepsFile (·.setMask d v) c := by
  constructor <;> (simp only [Ctx.setMask]; split <;> rfl)

theorem Ctx.setMask_body (c : Ctx) (d : KReg) (v : Word) : (c.setMask d v).body.noMasks = c.body.noMasks := by
  simp only [Ctx.setMask]
  split <;> rfl

/-! ## Units that write a mask (R219) -/

/-- A unit that writes one mask register and leaves the others and its registers alone. -/
theorem State.alter_setMask (s : State) {l : List XReg} (ok : s.misuse l [] = false) (d : KReg) (v : Word) :
    ∃ t : State, s.alter l (·.setMask d v) = .next t ∧ (d ≠ 0 → t.cur.mask d = v) ∧ (∀ k, k ≠ d → t.cur.mask k = s.cur.mask k) ∧
      Retired s t ∧ UnitFrame Ctx.noMasks s t [] := by
  obtain ⟨t, run, cur, retired, frame⟩ := s.alter_unit (hide := Ctx.noMasks) (f := (·.setMask d v)) ok (s.cur.setMask_keeps d v)
    (s.cur.setMask_body d v)
  have mask (n : KReg) : t.cur.mask n = (s.cur.setMask d v).mask n := Ctx.mask_congr (by rw [cur, Ctx.retire_k]) n
  exact ⟨t, run, fun h => by rw [mask, Ctx.mask_setMask_same _ h], fun k h => by rw [mask, Ctx.mask_setMask_ne _ h], retired, frame⟩

/-- A mask from two masks; k0 goes on reading all ones. -/
theorem State.klog_sets (s : State) {i : Instr} {d e c : KReg} (f : Word → Word → Word) (run : exec i s = s.klog d e c f) :
    ∃ t : State, exec i s = .next t ∧ t.cur.mask d = (if d = 0 then BitVec.allOnes 64 else f (s.cur.mask e) (s.cur.mask c)) ∧
      (∀ k, k ≠ d → t.cur.mask k = s.cur.mask k) ∧ Retired s t ∧ UnitFrame Ctx.noMasks s t [] := by
  obtain ⟨t, next, same, others, retired, frame⟩ := s.alter_setMask (l := []) rfl d (f (s.cur.mask e) (s.cur.mask c))
  have alter : s.klog d e c f = s.alter [] (·.setMask d (f (s.cur.mask e) (s.cur.mask c))) := rfl
  refine ⟨t, run.trans (alter.trans next), ?_, others, retired, frame⟩
  split
  · exact if_pos ‹_›
  · exact same ‹_›

/-! ## Compares (R218) -/

/-- Bit l of the number that a list of conditions folds to is the condition at place l. -/
theorem testBit_conditions {α : Type} (r : List (Bool × α)) (l : Nat) :
    (r.foldr (fun (x : Bool × α) n => n * 2 + if x.1 then 1 else 0) 0).testBit l = (r[l]?.map (·.1)).getD false := by
  induction r generalizing l with
  | nil => simp
  | cons x r ih =>
    rw [List.foldr_cons]
    cases l with
    | zero => cases h : x.1 <;> simp [h, Nat.testBit_zero]
    | succ l =>
      rw [Nat.testBit_succ, List.getElem?_cons_succ, ← ih l]
      congr 1
      split <;> omega

/-- The unit writes mask d: bit l is the condition of lane l, bits past the lanes are 0; the lanes' flags are added. -/
def State.SetsMask (s : State) (d : KReg) (o : Out) (n : Nat) (p : Nat → Prop) (fl : Nat → Flags) : Prop :=
  ∃ t : State, o = .next t ∧ (d ≠ 0 → ∀ l, (t.cur.mask d).getLsbD l = true ↔ l < n ∧ p l) ∧ (∀ q, q ≠ d → t.cur.mask q = s.cur.mask q) ∧
    LaneFlags s t n fl ∧ Retired s t ∧ UnitFrame (fun c => { c.noMasks with fcsr := 0 }) s t []

theorem State.SetsMask.congr {s : State} {d : KReg} {o : Out} {n : Nat} {p q : Nat → Prop} {fl : Nat → Flags} (h : s.SetsMask d o n p fl)
    (same : ∀ l, p l ↔ q l) : s.SetsMask d o n q fl := by
  rwa [show q = p from funext fun l => propext (same l).symm]

theorem State.setMask_orFlags (s : State) (d : KReg) (v : Word) (f : Flags) :
    let t := ((s.onCur (·.setMask d v)).orFlags f).retire
    (d ≠ 0 → t.cur.mask d = v) ∧ (∀ k, k ≠ d → t.cur.mask k = s.cur.mask k) ∧ t.cur.fcsr = s.cur.fcsr ||| f.zeroExtend 8 ∧ Retired s t ∧
      UnitFrame (fun c => { c.noMasks with fcsr := 0 }) s t [] := by
  intro t
  have keeps := s.cur.setMask_keeps d v
  have one : (s.onCur (·.setMask d v)).orFlags f = s.onCur fun c => (c.setMask d v).orFlags f := s.onCur_onCur ..
  have cur : t.cur = ((s.cur.setMask d v).orFlags f).retire s.iss.npc := by
    simp only [t, one, State.retire_cur, State.cur_onCur, State.onCur_iss]
  have mask (n : KReg) : t.cur.mask n = (s.cur.setMask d v).mask n := Ctx.mask_congr (by rw [cur, Ctx.retire_k, Ctx.orFlags_k]) n
  refine ⟨fun h => by rw [mask, Ctx.mask_setMask_same _ h], fun k h => by rw [mask, Ctx.mask_setMask_ne _ h], ?_, ?_, ?_⟩
  · rw [cur, Ctx.retire_fcsr, Ctx.orFlags]
    simp only [Ctx.setMask]
    split <;> rfl
  · simp only [t, one]
    exact s.onCur_retires keeps.frame keeps.instret
  · simp only [t, one]
    refine unitFrame_onCur_retire (unitFrame_onCur _ s _ [] ?_ (fun r _ => ?_) fun r _ _ => ?_)
    · simp only [Ctx.setMask]
      split <;> rfl
    · exact congrArg (·.toList.getD r 0) keeps.x
    · exact ⟨congrArg (·.getLsbD r) keeps.fe, congrArg (·.getLsbD r) keeps.bad⟩

section
variable {s : State} {d : KReg} {a b : VReg} {pa pb : Nat} (ha : s.cur.phys (s.vr a) = some pa) (hb : s.cur.phys (s.vr b) = some pb)
  (tb : s.ty pb = s.ty pa)
include ha hb tb

/-- A compare takes lane l's condition as bit l of its mask, and ORs the lanes' flags. -/
theorem State.vcmp_sets (takes : Nat → Bool) (f : Nat → Nat → Nat → Bool × Flags) (taken : takes (s.ty pa) = true) :
    let r := fun l => f (s.ty pa) (s.lane pa l) (s.lane pb l)
    s.SetsMask d (s.vcmp d a b takes f) (laneCount (s.ty pa)) (fun l => (r l).1 = true) fun l => (r l).2 := by
  intro r
  have plain : ¬(s.ty pb ≠ s.ty pa ∨ (!takes (s.ty pa)) = true) := by simp [tb, taken]
  have lanes : s.vcmp d a b takes f = .next ((s.onCur (·.setMask d (BitVec.ofNat 64 (((List.range (laneCount (s.ty pa))).map r).foldr
      (fun x n => n * 2 + if x.1 then 1 else 0) 0)))).orFlags
        (((List.range (laneCount (s.ty pa))).map r).foldl (fun g x => g ||| x.2) 0)).retire := by
    simp only [State.vcmp, State.withRow_phys ha, State.withRow_phys hb]
    rw [if_neg plain]
    simp only [r, State.lane, tb]
  obtain ⟨same, others, fcsr, retired, frame⟩ := s.setMask_orFlags d _ _
  refine ⟨_, lanes, fun named l => ?_, others, laneFlags_of_fold fcsr, retired, frame⟩
  have few : laneCount (s.ty pa) ≤ 64 := by
    unfold laneCount
    split <;> decide
  rw [same named, BitVec.getLsbD_ofNat, testBit_conditions]
  by_cases h : l < laneCount (s.ty pa)
  · simp [h, h.trans_le few]
  · simp [h]

/-- A compare of float lanes: NV for a signalling NaN, or in the ordered ones for any NaN. -/
theorem State.vcmpF_sets (float : s.ty pa ≠ 8) {i : Instr} {ordered : Bool} {f : FVal → FVal → Bool} (run : exec i s = s.vcmpF d a b ordered f)
    {p : Nat → Prop} (cond : ∀ l, f ((fmtOf (s.ty pa)).decode (s.lane pa l)) ((fmtOf (s.ty pa)).decode (s.lane pb l)) = true ↔ p l) :
    s.SetsMask d (exec i s) (laneCount (s.ty pa)) p fun l =>
      let u := (fmtOf (s.ty pa)).decode (s.lane pa l)
      let v := (fmtOf (s.ty pa)).decode (s.lane pb l)
      nvIf (if ordered then u.isNan || v.isNan else u.sig || v.sig) := by
  rw [run]
  exact (State.vcmp_sets ha hb tb floatTy _ (by simpa [floatTy] using float)).congr cond

/-- A compare of i32 lanes raises no flag. -/
theorem State.vcmpI_sets (int : s.ty pa = 8) {i : Instr} {f : BitVec 32 → BitVec 32 → Bool} (run : exec i s = s.vcmpI d a b f) {p : Nat → Prop}
    (cond : ∀ l, f (BitVec.ofNat 32 (s.lane pa l)) (BitVec.ofNat 32 (s.lane pb l)) = true ↔ p l) :
    s.SetsMask d (exec i s) (laneCount (s.ty pa)) p fun _ => 0 := by
  rw [run]
  exact (State.vcmp_sets ha hb tb (· == 8) _ (by simp [int])).congr cond

end

/-! ## The lowest set bit -/

theorem find_range' (p : Nat → Bool) (a n : Nat) :
    ((List.range' a n).find? p).getD (a + n) = a + ((List.range' a n).takeWhile fun j => !p j).length := by
  induction n generalizing a with
  | zero => simp
  | succ n ih =>
    rw [List.range'_succ]
    cases h : p a with
    | true => simp [h]
    | false =>
      have next := ih (a + 1)
      rw [show a + 1 + n = a + (n + 1) by omega] at next
      simp [h, next]
      omega

theorem firstSet_eq (v : Word) : firstSet v = ((List.range 64).takeWhile fun j => !v.getLsbD j).length := by
  have found := find_range' v.getLsbD 0 64
  rwa [Nat.zero_add, Nat.zero_add, ← List.range_eq_range'] at found

/-! ## Replay frames and tile types (R214, R231) -/

/-- REPV begins a frame at the next unit. -/
theorem execRepv_begins {s : State} {g : GReg} {l k z : BitVec 5} (leased : s.cur.lease ≠ []) (pos : l ≠ 0) (most : l.toNat ≤ 16)
    (level : s.here.level = 1 → l.toNat ≤ 8) (free : s.cur.frame = none) :
    ∃ t : State, exec (.repv g l k z) s = .next t ∧
      t.cur.frame = some { start := s.iss.npc, len := l.toNat, count := k.toNat + 1, stag := z.toNat, r := 0, pos := 0 } ∧
      t.cur.pc = s.iss.npc ∧ t.cur.instret = s.cur.instret + 1 ∧ UnitFrame id s t [] := by
  have good : ¬(l = 0 ∨ 16 < l.toNat ∨ (s.here.level = 1 ∧ 8 < l.toNat) ∨ s.cur.frame.isSome) := by
    simp only [pos, free, Option.isSome_none, Bool.false_eq_true, false_or, or_false, not_or, not_and, Nat.not_lt]
    exact ⟨most, level⟩
  have lease : ¬ s.cur.lease.isEmpty = true := by simpa using leased
  refine ⟨_, (if_neg good).trans (if_neg lease), by rw [State.cur_onCur], ?_, ?_, ?_⟩
  · rw [State.cur_onCur, State.retire_cur]
    exact Ctx.retire_pc _ _ free
  · rw [State.cur_onCur, State.retire_cur]
    rfl
  · exact UnitFrame.trans (t := s.retire) rfl (unitFrame_retire id s s.iss.npc [])
      (unitFrame_onCur id s.retire _ [] rfl (fun _ _ => rfl) fun _ _ _ => ⟨rfl, rfl⟩)

/-- TCFG gives one leased tile its type. -/
theorem execTcfg_sets {s : State} {g : GReg} {i : BitVec 1} {ty : BitVec 5} {n : Nat} (leased : s.cur.lease[i.toNat]? = some n) :
    ∃ t : State, exec (.tcfg g i ty) s = .next t ∧ (t.here.tile n).ty = ty.toNat ∧ (∀ m, m ≠ n → t.here.tile m = s.here.tile m) ∧
      Retired s t ∧ SameBytes s t ∧ SameRegs s t [] := by
  have run : exec (.tcfg g i ty) s = .next (s.onHere fun c => c.setTile n { c.tile n with ty := ty.toNat }).retire := by
    change execTcfg g i ty s = _
    rw [execTcfg, leased]
  have cur : (s.onHere fun c => c.setTile n { c.tile n with ty := ty.toNat }).cur = s.cur := State.onHere_cur _ _ rfl
  have tile (m : Nat) : (s.onHere fun c => c.setTile n { c.tile n with ty := ty.toNat }).retire.here.tile m =
      (s.here.setTile n { s.here.tile n with ty := ty.toNat }).tile m := by
    rw [Core.tile, State.retire, State.here_onCur_tiles, State.here_onHere]
    rfl
  refine ⟨_, run, ?_, fun m ne => ?_, ?_, fun _ => rfl, sameRegs_retire fun r _ => by rw [cur]⟩
  · rw [tile, Core.tile, Core.setTile, tabGet_tabSet_same]
  · rw [tile, Core.tile, Core.setTile, tabGet_tabSet_ne _ _ _ ne]
    rfl
  · exact retired_retire rfl (by rw [cur]) (by rw [cur])

theorem Ctx.lease_of_phys {c : Ctx} {n p : Nat} (h : c.phys n = some p) : c.lease ≠ [] := by
  intro none
  simp [Ctx.phys, none] at h

/-- Settles O43: compares, the units of masks alone, REPV and TCFG each by its own rule. -/
theorem vectorMasksResult : Obligations.VectorMasksResult := by
  intro s g d e c a b r pa pb ha hb tb f n u v x y num nan sig bits
  refine ⟨fun type => ?_, fun type => ?_, ?_, fun ok => ?_, fun ok => ?_, 
    fun l k z => ⟨fun pos most level free => ?_, fun bad => ?_⟩, fun i ty n => ?_⟩
  · have float {i : Instr} (o) (f) {p} := State.vcmpF_sets ha hb tb type (d := d) (i := i) (ordered := o) (f := f) (p := p)
    exact ⟨float false FVal.eq rfl fun _ => Iff.rfl, float false (fun x y => !x.eq y) rfl fun _ => by simp [u, v, f],
      float true (fun x y => !x.isNan && !y.isNan && x.lt y) rfl fun _ => by simp [num, u, v, f],
      float true (fun x y => !x.isNan && !y.isNan && !y.lt x) rfl fun _ => by simp [num, u, v, f]⟩
  · have int {i : Instr} (f) {p} := State.vcmpI_sets ha hb tb type (d := d) (i := i) (f := f) (p := p)
    exact ⟨int (· == ·) rfl fun _ => beq_iff_eq.trans BitVec.toInt_inj.symm,
      int (· != ·) rfl fun _ => bne_iff_ne.trans BitVec.toInt_inj.symm.not,
      int (·.slt ·) rfl fun _ => BitVec.slt_iff_toInt_lt, int (fun x y => !y.slt x) rfl fun _ => by simp [BitVec.slt_eq_decide, x, y]⟩
  · simp only [List.forall_mem_cons, List.not_mem_nil, false_imp_iff, implies_true, and_true]
    exact ⟨s.klog_sets (· &&& ·) rfl, s.klog_sets (· ||| ·) rfl, s.klog_sets (· ^^^ ·) rfl, s.klog_sets (fun x y => x &&& ~~~ y) rfl⟩
  · exact s.alter_setMask ok d (s.rd r)
  · have put := fun w => s.put_next [] r w ok
    exact ⟨put _, put _, (congrArg (s.put [] r <| BitVec.ofNat 64 ·) (firstSet_eq _)).trans (put _)⟩
  · exact execRepv_begins (Ctx.lease_of_phys ha) pos most level free
  · exact if_pos bad
  · exact execTcfg_sets

end Sys2Proof.Machine
end

section
/-! PROOF. Values of a format in order (R156), and what a result of single precision can be: the largest of some lanes is one of them that
lies below no other, and every rounded result is a 32-bit pattern. -/

namespace Sys2Proof.Machine

open Sys2Proof

/-! ## The order of values that are not NaN -/

/-- Where a value stands among the rationals with both infinities. -/
def FVal.place : FVal → WithBot (WithTop ℚ)
  | .nan _ => 0
  | .inf neg => if neg then ⊥ else ((⊤ : WithTop ℚ) : WithBot (WithTop ℚ))
  | .fin neg m e => (((FVal.int neg m : ℚ) * 2 ^ e : ℚ) : WithTop ℚ)

/-- A finite value scaled to an exponent at or below its own. -/
theorem FVal.int_scaled (neg : Bool) (m : Nat) {e g : Int} (h : g ≤ e) :
    ((FVal.int neg (m * 2 ^ (e - g).toNat) : Int) : ℚ) * 2 ^ g = (FVal.int neg m : ℚ) * 2 ^ e := by
  obtain ⟨k, rfl⟩ := Int.le.dest h
  have shift : (g + k - g).toNat = k := by omega
  rw [shift, zpow_add₀ two_ne_zero, zpow_natCast]
  cases neg <;> simp [FVal.int] <;> ring

theorem FVal.lt_fin_iff (x y : Bool) (m n : Nat) (e d : Int) :
    (FVal.fin x m e).lt (.fin y n d) = true ↔ (FVal.int x m : ℚ) * 2 ^ e < (FVal.int y n : ℚ) * 2 ^ d := by
  have pos : (0 : ℚ) < 2 ^ min e d := zpow_pos two_pos _
  rw [← FVal.int_scaled x m (min_le_left e d), ← FVal.int_scaled y n (min_le_right e d), mul_lt_mul_iff_left₀ pos, Int.cast_lt]
  simp [FVal.lt]

/-- Of values that are not NaN, `lt` is the order of their places. -/
theorem FVal.lt_iff_place {a b : FVal} (ha : a.isNan = false) (hb : b.isNan = false) : a.lt b = true ↔ a.place < b.place := by
  match a, b with
  | .nan _, _ => cases ha
  | .inf _, .nan _ | .fin .., .nan _ => cases hb
  | .inf x, .inf y => cases x <;> cases y <;> simp [FVal.lt, FVal.place]
  | .inf true, .fin .. => exact iff_of_true rfl (WithBot.bot_lt_coe _)
  | .inf false, .fin .. => exact iff_of_false Bool.false_ne_true (not_lt.2 (WithBot.coe_le_coe.2 le_top))
  | .fin .., .inf true => exact iff_of_false Bool.false_ne_true not_lt_bot
  | .fin .., .inf false => exact iff_of_true rfl (WithBot.coe_lt_coe.2 (WithTop.coe_lt_top _))
  | .fin x m e, .fin y n d => rw [FVal.lt_fin_iff, FVal.place, FVal.place, WithBot.coe_lt_coe, WithTop.coe_lt_coe]

/-- Of lanes that are not NaN the larger one is chosen; equal ones are told apart by their signs. -/
theorem Fmt.minMax_larger {f : Fmt} {x y : Nat} (hx : (f.decode x).isNan = false) (hy : (f.decode y).isNan = false) :
    ((f.minMax true x y).1 = x ∧ (f.decode y).place ≤ (f.decode x).place) ∨
      ((f.minMax true x y).1 = y ∧ (f.decode x).place ≤ (f.decode y).place) := by
  have lt := FVal.lt_iff_place hx hy
  have gt := FVal.lt_iff_place hy hx
  simp only [Fmt.minMax, hx, hy, Bool.and_false, Bool.false_eq_true, if_false]
  cases hlt : (f.decode x).lt (f.decode y) with
  | true => exact .inr ⟨by simp, (lt.1 hlt).le⟩
  | false =>
    have le : (f.decode y).place ≤ (f.decode x).place := not_lt.1 (lt.not.1 (by simp [hlt]))
    cases hgt : (f.decode y).lt (f.decode x) with
    | true => exact .inl ⟨by simp, le⟩
    | false =>
      have ge : (f.decode x).place ≤ (f.decode y).place := not_lt.1 (gt.not.1 (by simp [hgt]))
      split
      · exact .inl ⟨rfl, le⟩
      · exact .inr ⟨rfl, ge⟩

/-- A fold that keeps one of the two with the larger key ends with a member whose key is the largest. -/
theorem foldl_largest {α β : Type} [LinearOrder β] {key : α → β} {pick : α → α → α} {P : α → Prop}
    (picks : ∀ x y, P x → P y → (pick x y = x ∧ key y ≤ key x) ∨ (pick x y = y ∧ key x ≤ key y)) (l : List α) {a : α} (ha : P a)
    (hl : ∀ x ∈ l, P x) : l.foldl pick a ∈ a :: l ∧ ∀ x ∈ a :: l, key x ≤ key (l.foldl pick a) := by
  induction l generalizing a with
  | nil => simp
  | cons b l ih =>
    rw [List.forall_mem_cons] at hl
    rw [List.foldl_cons]
    obtain ⟨e, le⟩ | ⟨e, le⟩ := picks a b ha hl.1
    · rw [e]
      obtain ⟨mem, top⟩ := ih ha hl.2
      rw [List.forall_mem_cons] at top
      rw [List.mem_cons] at mem
      refine ⟨by rw [List.mem_cons, List.mem_cons]; tauto, ?_⟩
      rw [List.forall_mem_cons, List.forall_mem_cons]
      exact ⟨top.1, le.trans top.1, top.2⟩
    · rw [e]
      obtain ⟨mem, top⟩ := ih hl.1 hl.2
      rw [List.forall_mem_cons] at top
      refine ⟨List.mem_cons_of_mem _ mem, ?_⟩
      rw [List.forall_mem_cons, List.forall_mem_cons]
      exact ⟨le.trans top.1, top.1, top.2⟩

/-! ## Results of single precision are 32-bit patterns -/

theorem f32_sgn_lt (neg : Bool) {mag : Nat} (h : mag ≤ f32.infMag) : f32.sgn neg mag < 2 ^ 32 := by
  have top : f32.infMag = 0x7F800000 := rfl
  cases neg
  · simp only [Fmt.sgn, Bool.false_eq_true, if_false]
    omega
  · have sign : f32.sgn true mag = 2 ^ 31 + mag := rfl
    omega

theorem f32_nan_lt : f32.nan < 2 ^ 32 := by decide

theorem f32_overflow_lt (mode : Nat) (sat neg : Bool) : f32.overflow mode sat neg < 2 ^ 32 := by
  unfold Fmt.overflow
  extract_lets toMax
  split
  · exact f32_sgn_lt neg (by decide)
  · exact f32_sgn_lt neg le_rfl

theorem f32_round_lt (mode : Nat) (sat neg : Bool) (m : Nat) (e : Int) : (f32.round mode sat neg m e).1 < 2 ^ 32 := by
  unfold Fmt.round
  split
  · exact f32_sgn_lt neg (Nat.zero_le _)
  · extract_lets top emin q r sub mag u tiny
    split
    · exact f32_overflow_lt ..
    · exact f32_sgn_lt neg ((Nat.not_lt.1 ‹_›).trans (by decide))

theorem f32_sum_lt (mode : Nat) (x : Bool) (m : Nat) (e : Int) (y : Bool) (n : Nat) (d : Int) : (f32.sum mode x m e y n d).1 < 2 ^ 32 := by
  unfold Fmt.sum
  extract_lets k v
  split
  · exact f32_sgn_lt _ (Nat.zero_le _)
  · exact f32_round_lt ..

theorem f32_fma_lt (mode : Nat) (a b c : FVal) : (f32.fma mode a b c).1 < 2 ^ 32 := by
  have inf (neg : Bool) : f32.sgn neg f32.infMag < 2 ^ 32 := f32_sgn_lt neg le_rfl
  unfold Fmt.fma
  extract_lets sig bad pn
  split
  · exact f32_nan_lt
  split
  · exact f32_nan_lt
  split
  · exact f32_nan_lt
  split
  · exact f32_sum_lt ..
  · exact inf _
  · split
    · exact inf _
    · exact f32_nan_lt
  · exact inf _

theorem pairSpecial_lt (a h k b : FVal) : (pairSpecial a h k b).1 < 2 ^ 32 := by
  unfold pairSpecial
  extract_lets bad signs
  split
  · exact f32_nan_lt
  split
  · exact f32_nan_lt
  · exact f32_sgn_lt _ le_rfl

theorem pairStep_lt (a hi lo b : Nat) : (pairStep a hi lo b).1 < 2 ^ 32 ∧ (pairStep a hi lo b).2.1 < 2 ^ 32 := by
  unfold pairStep
  extract_lets x h k y v r
  split
  · split
    · split
      · exact ⟨by decide, by decide⟩
      · refine ⟨f32_round_lt .., ?_⟩
        dsimp only
        split
        · decide
        · exact f32_round_lt ..
    · exact ⟨f32_round_lt .., Nat.two_pow_pos 32⟩
  · exact ⟨pairSpecial_lt .., Nat.two_pow_pos 32⟩

end Sys2Proof.Machine
end

section
/-! PROOF. Moves, conversion, packing and permutes of rows (R223 to R225, R227): what each lane of the destination holds. -/

namespace Sys2Proof.Machine

open Sys2Proof

/-! ## A unit that moves lanes -/

/-- The unit writes v to the lanes of row p, and leaves fcsr, every other byte and every register alone. -/
def State.MovesLanes (s : State) (p : Nat) (o : Out) (v : Nat → Nat) : Prop :=
  ∃ t : State, o = .next t ∧ (∀ l < laneCount (s.ty p), t.lane p l = v l) ∧ t.cur.fcsr = s.cur.fcsr ∧ Retired s t ∧
    SameBytesBut s t (tileKey s.iss.core (p / 16) (p % 16)) 64 ∧ SameRegs s t []

theorem State.PutsRow.moves {s t : State} {p : Nat} {w : Row} (h : s.PutsRow t p w 0) {o : Out} (run : o = .next t) {v : Nat → Nat}
    (lanes : ∀ l < laneCount (s.ty p), rowField w (l * laneBits (s.ty p)) (laneBits (s.ty p)) = v l) : s.MovesLanes p o v :=
  ⟨t, run, fun l hl => (h.lane l).trans (lanes l hl), h.fcsr_zero, h.retired, h.frame.1, h.frame.2⟩

theorem State.putRow_moves {s : State} (ok : MemOk s) (k : List XReg) (p : Nat) {r : List Nat} {v : Nat → Nat}
    (lanes : ∀ l < laneCount (s.ty p), r.getD l 0 % 2 ^ laneBits (s.ty p) = v l) :
    s.MovesLanes p ((s.pops k).putRow p (packLanes (laneBits (s.ty p)) r) 0) v := by
  obtain ⟨t, run, puts⟩ := State.putRow_puts ok k p (packLanes (laneBits (s.ty p)) r) 0
  exact puts.moves run fun l hl => (rowField_packLanes r (lane_fits le_rfl hl)).trans (lanes l hl)

/-! ## One lane written (R223) -/

theorem rowField_testBit (r : Row) (lo w j : Nat) : (rowField r lo w).testBit j = (decide (j < w) && r.getLsbD (lo + j)) := by
  rw [rowField, Nat.testBit_mod_two_pow, Nat.testBit_div_two_pow, Nat.add_comm, BitVec.getLsbD]

theorem rowField_congr {a b : Row} {lo w : Nat} (h : ∀ j < w, a.getLsbD (lo + j) = b.getLsbD (lo + j)) : rowField a lo w = rowField b lo w := by
  refine Nat.eq_of_testBit_eq fun j => ?_
  rw [rowField_testBit, rowField_testBit]
  by_cases hj : j < w
  · rw [h j hj]
  · simp [hj]

/-- A field put into an empty row stands alone there. -/
theorem rowWith_zero_bit (lo w v : Nat) {k : Nat} (h : k < 512) :
    (rowWith 0 lo w v).getLsbD k = (decide (lo ≤ k) && (decide (k - lo < w) && v.testBit (k - lo))) := by
  have empty : rowWith 0 lo w v = BitVec.ofNat 512 (v % 2 ^ w * 2 ^ lo) := by simp [rowWith, rowField]
  rw [empty, BitVec.getLsbD_ofNat, Nat.testBit_mul_two_pow, Nat.testBit_mod_two_pow, decide_eq_true h, Bool.true_and]

/-- Lane i of a row replaced under its mask: the new value there, the old lane elsewhere. -/
theorem rowField_masked (r : Row) {w i l : Nat} (v : Nat) (fits : l * w + w ≤ 512) :
    rowField ((r &&& ~~~ rowWith 0 (i * w) w (2 ^ w - 1)) ||| (rowWith 0 (i * w) w v &&& rowWith 0 (i * w) w (2 ^ w - 1))) (l * w) w =
      if l = i then v % 2 ^ w else rowField r (l * w) w := by
  split
  · rename_i e
    subst e
    refine Nat.eq_of_testBit_eq fun j => ?_
    rw [rowField_testBit, Nat.testBit_mod_two_pow]
    by_cases hj : j < w
    · have inside : l * w + j < 512 := by omega
      simp only [BitVec.getLsbD_or, BitVec.getLsbD_and, BitVec.getLsbD_not, rowWith_zero_bit _ _ _ inside, Nat.testBit_two_pow_sub_one,
        Nat.add_sub_cancel_left]
      simp [hj]
    · simp [hj]
  · rename_i ne
    refine rowField_congr fun j hj => ?_
    have inside : l * w + j < 512 := by omega
    have apart : ¬(i * w ≤ l * w + j ∧ l * w + j - i * w < w) := by
      rintro ⟨low, high⟩
      obtain lt | gt := Nat.lt_or_gt_of_ne ne
      · have := Nat.mul_le_mul_right w (Nat.succ_le_of_lt lt)
        rw [Nat.succ_mul] at this
        omega
      · have := Nat.mul_le_mul_right w (Nat.succ_le_of_lt gt)
        rw [Nat.succ_mul] at this
        omega
    have off (u : Nat) : (rowWith 0 (i * w) w u).getLsbD (l * w + j) = false := by
      rw [rowWith_zero_bit _ _ _ inside]
      simp only [Bool.and_eq_false_iff, decide_eq_false_iff_not]
      tauto
    simp only [BitVec.getLsbD_or, BitVec.getLsbD_and, BitVec.getLsbD_not, off]
    simp [inside]

@[simp] theorem State.setLanes_iss (s : State) (n p : Nat) (v m : Row) : (s.setLanes n p v m).iss = s.iss := by simp only [State.setLanes]
@[simp] theorem State.setLanes_cores (s : State) (n p : Nat) (v m : Row) : (s.setLanes n p v m).cores = s.cores := by
  simp only [State.setLanes]
@[simp] theorem State.setLanes_cur (s : State) (n p : Nat) (v m : Row) : (s.setLanes n p v m).cur = s.cur := by
  simp only [State.cur, State.ctxAt, State.core, State.setLanes_cores, State.setLanes_iss]
@[simp] theorem State.setLanes_here (s : State) (n p : Nat) (v m : Row) : (s.setLanes n p v m).here = s.here := by
  simp only [State.here, State.core, State.setLanes_cores, State.setLanes_iss]

section
variable {s : State} {g : GReg} {d a b : VReg} {pd pa pb : Nat}

theorem execVbcx_moves (ok : MemOk s) (hd : s.cur.phys (s.vr d) = some pd) {r : XReg} (good : s.misuse [r] [] = false) :
    s.MovesLanes pd (exec (.vbcx g d r) s) fun _ => (s.rd r).toNat % 2 ^ laneBits (s.ty pd) := by
  change s.MovesLanes pd (execVbcx g d r s) _
  rw [execVbcx, State.withRow_phys hd, good, if_neg Bool.false_ne_true]
  exact State.putRow_moves ok [r] pd fun l hl => by simp [div_laneBits, hl]

theorem execVmvx_reads (ha : s.cur.phys (s.vr a) = some pa) {r : XReg} {i : BitVec 5} (good : s.misuse [] [r] = false)
    (inside : i.toNat < laneCount (s.ty pa)) :
    exec (.vmvx g r a i) s = .next ((s.wr r (BitVec.ofInt 64 (BitVec.ofNat (laneBits (s.ty pa)) (s.lane pa i.toNat)).toInt)).retire) := by
  change execVmvx g r a i s = _
  rw [execVmvx, State.withRow_phys ha, if_neg (Nat.not_le.2 inside)]
  exact s.put_next [] r _ good

theorem execVmvx_traps (ha : s.cur.phys (s.vr a) = some pa) {r : XReg} {i : BitVec 5} (outside : laneCount (s.ty pa) ≤ i.toNat) :
    exec (.vmvx g r a i) s = .next (s.trap 8 0) := by
  change execVmvx g r a i s = _
  rw [execVmvx, State.withRow_phys ha, if_pos outside, State.trapOut]

theorem execVmxv_moves (ok : MemOk s) (hd : s.cur.phys (s.vr d) = some pd) {r : XReg} {i : BitVec 5} (good : s.misuse [r] [] = false)
    (inside : i.toNat < laneCount (s.ty pd)) :
    s.MovesLanes pd (exec (.vmxv g d r i) s) fun l => if l = i.toNat then (s.rd r).toNat % 2 ^ laneBits (s.ty pd) else s.lane pd l := by
  change s.MovesLanes pd (execVmxv g d r i s) _
  rw [execVmxv, State.withRow_phys hd, if_neg (Nat.not_le.2 inside), good, if_neg Bool.false_ne_true]
  have puts (v m : Row) : s.PutsRow ((s.pops [r]).setLanes s.iss.core pd v m).retire pd ((s.row pd &&& ~~~ m) ||| (v &&& m)) 0 := by
    refine State.putsRow_retire ok ?_ ?_ ?_ ?_
    · rw [State.setLanes_mem, State.pops_mem, State.rowMem, State.rowAt, State.pops_mem]
      rfl
    · rw [State.setLanes_iss, s.pops_iss]
    · rw [State.setLanes_cur, s.pops_cur, Ctx.orFlags_zero]
    · rw [State.setLanes_here, s.pops_tiles]
  exact (puts _ _).moves rfl fun l hl => rowField_masked _ _ (lane_fits le_rfl hl)

/-! ## Packing and conversion (R224, R225) -/

theorem execVpack_puts (ok : MemOk s) (hd : s.cur.phys (s.vr d) = some pd) (ha : s.cur.phys (s.vr a) = some pa)
    (hb : s.cur.phys (s.vr b) = some pb) :
    ∃ t : State, exec (.vpack g d a b) s = .next t ∧ rowField (t.row pd) 0 256 = rowField (s.row pa) 0 256 ∧
      rowField (t.row pd) 256 256 = rowField (s.row pb) 0 256 ∧ Retired s t ∧ RowFrame s t pd := by
  obtain ⟨t, run, puts⟩ := State.putRow_puts ok [] pd (packLanes 256 [rowField (s.row pa) 0 256, rowField (s.row pb) 0 256]) 0
  refine ⟨t, ?_, ?_, ?_, puts.retired, puts.frame⟩
  · change execVpack g d a b s = _
    rw [execVpack, State.withRow_phys hd, State.withRow_phys ha, State.withRow_phys hb]
    exact run
  · have half := rowField_packLanes [rowField (s.row pa) 0 256, rowField (s.row pb) 0 256] (w := 256) (i := 0) (by decide)
    rw [Nat.zero_mul] at half
    rw [puts.row, half]
    exact rowField_mod ..
  · have half := rowField_packLanes [rowField (s.row pa) 0 256, rowField (s.row pb) 0 256] (w := 256) (i := 1) (by decide)
    rw [Nat.one_mul] at half
    rw [puts.row, half]
    exact rowField_mod ..

/-- Each lane is converted into its place, dense from byte 0, and the rest of the row is 0. -/
theorem execVcvt_puts (ok : MemOk s) (hd : s.cur.phys (s.vr d) = some pd) (ha : s.cur.phys (s.vr a) = some pa) (sat : BitVec 1) (c : BitVec 4)
    (mode : s.cur.fcsr.toNat < 128) (width : elemBytes c.toNat * 8 ≤ laneBits (s.ty pa)) :
    let quirk := s.here.level == 2 && s.here.compat.testBit 8 && s.ty pa == 1 && c == 4 && sat == 1
    let v := fun l => cvtElem (s.ty pa) c.toNat (s.cur.fcsr.toNat / 32) (sat == 1) quirk (s.lane pa l)
    let e := elemBytes c.toNat * 8
    let n := laneCount (s.ty pa)
    ∃ t : State, exec (.vcvt g d a sat c) s = .next t ∧ (∀ l < n, rowField (t.row pd) (l * e) e = (v l).1 % 2 ^ e) ∧
      (∀ j, n * e ≤ j → (t.row pd).getLsbD j = false) ∧ LaneFlags s t n (fun l => (v l).2) ∧ Retired s t ∧ RowFrame s t pd := by
  intro quirk v e n
  have good : frmBroken s.cur = false := decide_eq_false (by unfold Ctx.frm; omega)
  have code : (c == 4) = (c.toNat == 4) := (by decide : ∀ c : BitVec 4, (c == 4) = (c.toNat == 4)) c
  have run : exec (.vcvt g d a sat c) s = s.putRow pd (packLanes e (((List.range n).map v).map (·.1)))
      (((List.range n).map v).foldl (fun g x => g ||| x.2) 0) := by
    change execVcvt g d a sat c s = _
    rw [execVcvt, State.byFrm, good, if_neg Bool.false_ne_true, State.withRow_phys hd, State.withRow_phys ha]
    simp only [State.lanes_row, List.map_map]
    rw [if_neg (Nat.not_lt.2 width)]
    simp only [← code]
    rfl
  obtain ⟨t, next, puts⟩ := State.putRow_puts ok [] pd (packLanes e (((List.range n).map v).map (·.1)))
    (((List.range n).map v).foldl (fun g x => g ||| x.2) 0)
  refine ⟨t, run.trans next, fun l hl => ?_, fun j high => ?_, laneFlags_of_fold puts.fcsr, puts.retired, puts.frame⟩
  · rw [puts.row, rowField_packLanes _ (lane_fits width hl), List.map_map, getD_map_range hl, Function.comp]
  · rw [puts.row]
    exact packLanes_high (by simpa using high)

theorem execVunpack_sets (ok : MemOk s) (hd : s.cur.phys (s.vr d) = some pd) (ha : s.cur.phys (s.vr a) = some pa) (p : BitVec 2) (c : BitVec 3)
    (inside : (p.toNat + 1) * laneCount (s.ty pd) * elemBytes c.toNat ≤ 64) (kind : isFloat c.toNat ≠ (s.ty pd == 8))
    (width : 8 * elemBytes c.toNat ≤ laneBits (s.ty pd)) :
    let e := elemBytes c.toNat
    let v := fun l => cvtElem c.toNat (s.ty pd) 0 false false (rowField (s.row pa) ((p.toNat * laneCount (s.ty pd) + l) * e * 8) (e * 8))
    s.SetsLanes pd (exec (.vunpack g d a p c) s) (fun l => (v l).1) fun l => (v l).2 := by
  intro e v
  change s.SetsLanes pd (execVunpack g d a p c s) _ _
  rw [execVunpack, State.withRow_phys hd, State.withRow_phys ha]
  dsimp only
  rw [if_neg (not_or.2 ⟨Nat.not_lt.2 inside, not_or.2 ⟨kind, Nat.not_lt.2 width⟩⟩)]
  exact State.putRow_setsLanes ok pd v

/-! ## Permutes (R227) -/

/-- A rearrangement gives each lane the lane it names, or 0 for none. -/
theorem State.permute_moves (ok : MemOk s) (type : s.ty pd = s.ty pa) (f : Nat → Option Nat) :
    s.MovesLanes pd (s.permute pd pa f) fun l => ((f l).map (s.lane pa)).getD 0 := by
  have lanes : s.permute pd pa f = s.putRow pd (packLanes (laneBits (s.ty pd)) ((List.range (laneCount (s.ty pd))).map
      fun l => ((f l).map (s.lane pa)).getD 0)) 0 := by
    simp only [State.permute, type]
    rw [if_neg (by simp)]
    congr 2
    refine List.map_congr_left fun l _ => ?_
    cases f l <;> rfl
  rw [lanes]
  refine State.putRow_moves ok [] pd fun l hl => ?_
  rw [getD_map_range hl]
  cases f l with
  | none => exact Nat.zero_mod _
  | some k => exact Nat.mod_eq_of_lt (type ▸ s.lane_lt pa k)

theorem execVperm_moves (ok : MemOk s) (hd : s.cur.phys (s.vr d) = some pd) (ha : s.cur.phys (s.vr a) = some pa)
    (hb : s.cur.phys (s.vr b) = some pb) (type : s.ty pd = s.ty pa) :
    s.MovesLanes pd (exec (.vperm g d a b) s) fun l => s.lane pa (rowField (s.row pb) (8 * l) 8 % laneCount (s.ty pa)) := by
  change s.MovesLanes pd (execVperm g d a b s) _
  rw [execVperm, State.withRow_phys hd, State.withRow_phys ha, State.withRow_phys hb]
  exact State.permute_moves ok type _

theorem execVslide_moves (ok : MemOk s) (hd : s.cur.phys (s.vr d) = some pd) (ha : s.cur.phys (s.vr a) = some pa) (type : s.ty pd = s.ty pa)
    (i : BitVec 5) :
    s.MovesLanes pd (exec (.vslide g d a i) s) fun l =>
      if 0 ≤ (l : Int) + i.toInt ∧ (l : Int) + i.toInt < laneCount (s.ty pa) then s.lane pa ((l : Int) + i.toInt).toNat else 0 := by
  change s.MovesLanes pd (execVslide g d a i s) _
  rw [execVslide, State.withRow_phys hd, State.withRow_phys ha]
  convert State.permute_moves ok type _ using 2 with l
  dsimp only
  split <;> rfl

theorem execVbcast_moves (ok : MemOk s) (hd : s.cur.phys (s.vr d) = some pd) (ha : s.cur.phys (s.vr a) = some pa) (type : s.ty pd = s.ty pa)
    {i : BitVec 5} (inside : i.toNat < laneCount (s.ty pa)) :
    s.MovesLanes pd (exec (.vbcast g d a i) s) fun _ => s.lane pa i.toNat := by
  change s.MovesLanes pd (execVbcast g d a i s) _
  rw [execVbcast, State.withRow_phys hd, State.withRow_phys ha, if_neg (Nat.not_le.2 inside)]
  exact State.permute_moves ok type _

end

end Sys2Proof.Machine
end

section
/-! PROOF. Reductions and scans of rows (R226, R228), and with them all of the moves of rows: the tree of sums, the largest lane, and the
recurrences along a row. -/

namespace Sys2Proof.Machine

open Sys2Proof

/-! ## The tree of sums (R226) -/

/-- An addition of i32 lanes. -/
def wrapAdd (x y : Nat) : Nat × Flags := ((x + y) % 2 ^ 32, 0)

/-- What VRSUM makes of two lanes of a type (R226). -/
def State.addLanes (s : State) (ty x y : Nat) : Nat × Flags :=
  if ty = 8 then wrapAdd x y else (fmtOf ty).add s.cur.frm ((fmtOf ty).decode x) ((fmtOf ty).decode y)

theorem sumPairs_length (f : Nat → Nat → Nat × Flags) : ∀ (l : List Nat) {k : Nat}, l.length = 2 * k → (sumPairs f l).1.length = k
  | [], _, h => by simp at h; simp [sumPairs, h]
  | [_], _, h => by simp at h; omega
  | x :: y :: t, 0, h => by simp at h
  | x :: y :: t, k + 1, h => by
    have rest : t.length = 2 * k := by simpa [Nat.mul_succ] using h
    simp [sumPairs, sumPairs_length f t rest]

theorem sumPairs_wrapAdd : ∀ l : List Nat, (sumPairs wrapAdd l).1.sum % 2 ^ 32 = l.sum % 2 ^ 32 ∧ (sumPairs wrapAdd l).2 = 0
  | [] => ⟨rfl, rfl⟩
  | [_] => ⟨rfl, rfl⟩
  | x :: y :: t => by
    obtain ⟨sum, flags⟩ := sumPairs_wrapAdd t
    refine ⟨?_, by simp [sumPairs, wrapAdd, flags]⟩
    simp only [sumPairs, wrapAdd, List.sum_cons]
    omega

/-- k levels over 2^k lanes give their sum modulo 2^32, and no flag. -/
theorem sumTree_wrapAdd (k : Nat) {l : List Nat} (h : l.length = 2 ^ k) :
    (sumTree wrapAdd k l).1 % 2 ^ 32 = l.sum % 2 ^ 32 ∧ (sumTree wrapAdd k l).2 = 0 := by
  induction k generalizing l with
  | zero =>
    obtain ⟨x, rfl⟩ := List.length_eq_one_iff.1 h
    simp [sumTree]
  | succ k ih =>
    obtain ⟨sum, flags⟩ := sumPairs_wrapAdd l
    obtain ⟨total, none⟩ := ih (sumPairs_length wrapAdd l (by rw [h, Nat.pow_succ']))
    exact ⟨total.trans sum, by simp [sumTree, flags, none]⟩

/-! ## The largest lane (R226) -/

/-- The fold of R226 over n lanes ends with a lane whose key is the largest. -/
theorem exists_largest_lane {β : Type} [LinearOrder β] {key : Nat → β} {pick : Nat → Nat → Nat} {P : Nat → Prop}
    (picks : ∀ x y, P x → P y → (pick x y = x ∧ key y ≤ key x) ∨ (pick x y = y ∧ key x ≤ key y)) {n : Nat} (pos : 0 < n)
    {x : Nat → Nat} (good : ∀ l < n, P (x l)) :
    let r := (List.range n).map x
    ∃ j < n, r.tail.foldl pick (r.headD 0) = x j ∧ ∀ l < n, key (x l) ≤ key (x j) := by
  intro r
  have all : ∀ y ∈ r, P y := List.forall_mem_map.2 fun l hl => good l (List.mem_range.1 hl)
  have nonempty : r ≠ [] := by simp [r, pos.ne']
  obtain ⟨a, t, cons⟩ := List.exists_cons_of_ne_nil nonempty
  rw [cons, List.forall_mem_cons] at all
  obtain ⟨mem, top⟩ := foldl_largest picks t all.1 all.2
  rw [← cons] at mem top
  obtain ⟨j, hj, value⟩ := List.mem_map.1 mem
  refine ⟨j, List.mem_range.1 hj, by rw [cons, value]; rfl, fun l hl => ?_⟩
  rw [value]
  exact top _ (List.mem_map_of_mem (List.mem_range.2 hl))

theorem maxLane_numbers {f : Fmt} {l : List Nat} (skip : Bool) (nonempty : l ≠ []) (numbers : ∀ x ∈ l, (f.decode x).isNan = false) :
    maxLane f skip l = (l.tail.foldl (fun a x => (f.minMax true a x).1) (l.headD 0), 0) := by
  have good : l.filter (fun x => !(f.decode x).isNan) = l := List.filter_eq_self.2 fun x hx => by simp [numbers x hx]
  have quiet : (l.any fun x => (f.decode x).sig) = false := by
    rw [List.any_eq_false]
    intro x hx sig
    have number := numbers x hx
    cases h : f.decode x <;> simp [h, FVal.sig, FVal.isNan] at sig number
  have some : l.isEmpty = false := by simpa using nonempty
  simp [maxLane, good, quiet, some, nvIf]

/-- A reduction's value stands in lane 0, and every other lane is 0. -/
theorem State.lane0_moves {s : State} (ok : MemOk s) (p : Nat) {u v : Nat} (value : u % 2 ^ laneBits (s.ty p) = v) :
    s.MovesLanes p (s.putRow p (lane0 (laneBits (s.ty p)) u) 0) fun l => if l = 0 then v else 0 :=
  State.putRow_moves ok [] p fun l _ => by
    cases l with
    | zero => simpa using value
    | succ l => simp

section
variable {s : State} {g : GReg} {d a : VReg} {pd pa : Nat} (ok : MemOk s) (hd : s.cur.phys (s.vr d) = some pd)
  (ha : s.cur.phys (s.vr a) = some pa)

include hd ha

theorem execVrsum_eq (type : s.ty pd = s.ty pa) (mode : (floatTy (s.ty pa) && frmBroken s.cur) = false) :
    let r := sumTree (s.addLanes (s.ty pa)) (if laneCount (s.ty pa) = 32 then 5 else 4) ((List.range (laneCount (s.ty pa))).map (s.lane pa))
    exec (.vrsum g d a) s = s.putRow pd (lane0 (laneBits (s.ty pd)) r.1) r.2 := by
  have levels : (if laneBits (s.ty pa) = 16 then 5 else 4) = if laneCount (s.ty pa) = 32 then 5 else 4 := by
    unfold laneBits laneCount
    split <;> rfl
  change execVrsum g d a s = _
  rw [execVrsum, State.withRow_phys ha]
  dsimp only
  rw [mode, if_neg Bool.false_ne_true, State.withRow_phys hd, if_neg (not_not.2 type), s.lanes_row, levels, type]
  rfl

theorem execVrmax_eq (type : s.ty pd = s.ty pa) :
    let l := (List.range (laneCount (s.ty pa))).map (s.lane pa)
    let r := if s.ty pa = 8 then (l.tail.foldl (fun a x => if sInt 32 a < sInt 32 x then x else a) (l.headD 0), 0)
      else maxLane (fmtOf (s.ty pa)) (s.here.level == 1 && s.here.compat.testBit 1) l
    exec (.vrmax g d a) s = s.putRow pd (lane0 (laneBits (s.ty pd)) r.1) r.2 := by
  change execVrmax g d a s = _
  rw [execVrmax, State.withRow_phys hd, State.withRow_phys ha]
  dsimp only
  rw [if_neg (not_not.2 type), s.lanes_row, type]

include ok

theorem execVrsum_int (type : s.ty pd = s.ty pa) (int : s.ty pa = 8) :
    s.MovesLanes pd (exec (.vrsum g d a) s) fun l => if l = 0 then ((List.range 16).map (s.lane pa)).sum % 2 ^ 32 else 0 := by
  obtain ⟨sum, flags⟩ := sumTree_wrapAdd 4 (l := (List.range 16).map (s.lane pa)) (by simp)
  have add : s.addLanes 8 = wrapAdd := rfl
  have count : laneCount 8 = 16 := rfl
  rw [execVrsum_eq hd ha type (by rw [int]; rfl), int, add, count, if_neg (by decide), flags]
  exact State.lane0_moves ok pd (by rw [type, int]; exact sum)

theorem execVrsum_float (type : s.ty pd = s.ty pa) (float : s.ty pa ≠ 8) (mode : s.cur.fcsr.toNat < 128) :
    let f := fmtOf (s.ty pa)
    let n := laneCount (s.ty pa)
    ∃ t : State, exec (.vrsum g d a) s = .next t ∧
      t.lane pd 0 = (sumTree (fun p q => f.add (s.cur.fcsr.toNat / 32) (f.decode p) (f.decode q)) (if n = 32 then 5 else 4)
        ((List.range n).map (s.lane pa))).1 % 2 ^ laneBits (s.ty pa) ∧
      (∀ l, 0 < l → l < n → t.lane pd l = 0) ∧ Retired s t ∧ RowFrame s t pd := by
  intro f n
  have good : frmBroken s.cur = false := decide_eq_false (by unfold Ctx.frm; omega)
  have add : s.addLanes (s.ty pa) = fun p q => f.add (s.cur.fcsr.toNat / 32) (f.decode p) (f.decode q) := funext₂ fun _ _ => if_neg float
  rw [execVrsum_eq hd ha type (by rw [good, Bool.and_false]), add]
  obtain ⟨t, run, puts⟩ := State.putRow_puts ok [] pd (lane0 (laneBits (s.ty pd)) _) _
  refine ⟨t, run, ?_, fun l pos lt => ?_, puts.retired, puts.frame⟩
  · rw [puts.lane_packed (laneCount_pos _), type]
    rfl
  · rw [puts.lane_packed (type ▸ lt)]
    obtain ⟨k, rfl⟩ := Nat.exists_eq_add_of_lt pos
    simp

theorem execVrmax_int (type : s.ty pd = s.ty pa) (int : s.ty pa = 8) :
    ∃ j < 16, (∀ l < 16, (BitVec.ofNat 32 (s.lane pa l)).toInt ≤ (BitVec.ofNat 32 (s.lane pa j)).toInt) ∧
      s.MovesLanes pd (exec (.vrmax g d a) s) fun l => if l = 0 then s.lane pa j else 0 := by
  have picks (x y : Nat) (_ : True) (_ : True) : ((if sInt 32 x < sInt 32 y then y else x) = x ∧ sInt 32 y ≤ sInt 32 x) ∨
      ((if sInt 32 x < sInt 32 y then y else x) = y ∧ sInt 32 x ≤ sInt 32 y) := by
    split
    · exact .inr ⟨rfl, le_of_lt ‹_›⟩
    · exact .inl ⟨rfl, not_lt.1 ‹_›⟩
  obtain ⟨j, hj, value, top⟩ := exists_largest_lane picks (n := 16) (by decide) (x := s.lane pa) fun _ _ => trivial
  refine ⟨j, hj, top, ?_⟩
  have count : laneCount 8 = 16 := rfl
  rw [execVrmax_eq hd ha type, int, if_pos rfl, count, value]
  exact State.lane0_moves ok pd (Nat.mod_eq_of_lt (type ▸ s.lane_lt pa j))

theorem execVrmax_float (type : s.ty pd = s.ty pa) (float : s.ty pa ≠ 8)
    (numbers : ∀ l < laneCount (s.ty pa), ((fmtOf (s.ty pa)).decode (s.lane pa l)).isNan = false) :
    ∃ j < laneCount (s.ty pa), (∀ l < laneCount (s.ty pa),
        ((fmtOf (s.ty pa)).decode (s.lane pa j)).lt ((fmtOf (s.ty pa)).decode (s.lane pa l)) = false) ∧
      s.MovesLanes pd (exec (.vrmax g d a) s) fun l => if l = 0 then s.lane pa j else 0 := by
  have pos := laneCount_pos (s.ty pa)
  obtain ⟨j, hj, value, top⟩ := exists_largest_lane (key := fun x => ((fmtOf (s.ty pa)).decode x).place)
    (pick := fun x y => ((fmtOf (s.ty pa)).minMax true x y).1) (P := fun x => ((fmtOf (s.ty pa)).decode x).isNan = false)
    (fun _ _ => Fmt.minMax_larger) pos numbers
  refine ⟨j, hj, fun l hl => ?_, ?_⟩
  · rw [← Bool.not_eq_true, FVal.lt_iff_place (numbers j hj) (numbers l hl)]
    exact not_lt.2 (top l hl)
  · have lanes : ∀ x ∈ (List.range (laneCount (s.ty pa))).map (s.lane pa), ((fmtOf (s.ty pa)).decode x).isNan = false :=
      List.forall_mem_map.2 fun l hl => numbers l (List.mem_range.1 hl)
    rw [execVrmax_eq hd ha type, if_neg float, maxLane_numbers _ (by simp [pos.ne']) lanes, value]
    exact State.lane0_moves ok pd (Nat.mod_eq_of_lt (type ▸ s.lane_lt pa j))

end

/-! ## Scans (R109, R228) -/

/-- Each step of VSCAN takes the value of the step before it, or +0 under a mark. -/
theorem scanLanes_lane (m : Word) (k h : Nat) (r : List (Nat × Nat)) {i : Nat} (lt : i < r.length) :
    let u := (scanLanes m k h r).1
    u.getD i 0 = (f32.fma 0 (f32.decode r[i].1)
      (f32.decode (if m.getLsbD (k + i) then 0 else if i = 0 then h else u.getD (i - 1) 0)) (f32.decode r[i].2)).1 := by
  induction r generalizing k h i with
  | nil => simp at lt
  | cons q r ih =>
    cases i with
    | zero => rfl
    | succ i =>
      have next := ih (k + 1) (f32.fma 0 (f32.decode q.1) (f32.decode (if m.getLsbD k then 0 else h)) (f32.decode q.2)).1
        (i := i) (by simpa using lt)
      rw [show k + 1 + i = k + (i + 1) by omega] at next
      refine next.trans ?_
      cases i <;> rfl

/-- Each step of VSCANC takes the pair of the step before it, or +0 twice under a mark. -/
theorem scanPairs_lane (m : Word) (k hi lo : Nat) (r : List (Nat × Nat)) {i : Nat} (lt : i < r.length) :
    let u := (scanPairs m k hi lo r).1
    let p := pairStep r[i].1 (if m.getLsbD (k + i) then 0 else if i = 0 then hi else (u.getD (i - 1) (0, 0)).1)
      (if m.getLsbD (k + i) then 0 else if i = 0 then lo else (u.getD (i - 1) (0, 0)).2) r[i].2
    u.getD i (0, 0) = (p.1, p.2.1) := by
  induction r generalizing k hi lo i with
  | nil => simp at lt
  | cons q r ih =>
    cases i with
    | zero => rfl
    | succ i =>
      have next := ih (k + 1) (pairStep q.1 (if m.getLsbD k then 0 else hi) (if m.getLsbD k then 0 else lo) q.2).1
        (pairStep q.1 (if m.getLsbD k then 0 else hi) (if m.getLsbD k then 0 else lo) q.2).2.1 (i := i) (by simpa using lt)
      rw [show k + 1 + i = k + (i + 1) by omega] at next
      refine next.trans ?_
      cases i <;> rfl

theorem State.withNum_phys {s : State} {n p : Nat} (h : s.cur.phys n = some p) (k : Nat → Out) : s.withNum n k = k p := by
  rw [State.withNum, h]

theorem State.any_ne_f32 {s : State} {l : List Nat} (types : ∀ p ∈ l, s.ty p = 1) : (l.any fun p => s.ty p != 1) = false := by
  rw [List.any_eq_false]
  exact fun p hp => by simp [types p hp]

theorem State.lanes_f32 {s : State} {p : Nat} (type : s.ty p = 1) : lanes 32 (s.row p) = (List.range 16).map (s.lane p) := by
  have lanes := s.lanes_row p
  rw [type] at lanes
  exact lanes

theorem State.last_f32 {s : State} {p : Nat} (type : s.ty p = 1) : s.last p = s.lane p 15 := by
  rw [State.lane, type]
  rfl

theorem State.lane_packed_f32 {t : State} {p l : Nat} {r : List Nat} (type : t.ty p = 1) (row : t.row p = packLanes 32 r) (hl : l < 16) :
    t.lane p l = r.getD l 0 % 2 ^ 32 := by
  have width : laneBits 1 = 32 := rfl
  rw [State.lane, row, type, width, rowField_packLanes r (by omega)]

/-- A unit that writes two rows of its core and retires leaves the bytes outside both alone. -/
theorem State.putTwo_puts {s : State} (ok : MemOk s) {p q : Nat} (ne : p ≠ q) (v w : Row) (f : Flags) :
    ∃ t : State, (s.setRowAt s.iss.core p v).putRow q w f = .next t ∧ t.row p = v ∧ t.row q = w ∧ (∀ r, t.ty r = s.ty r) ∧ Retired s t ∧
      SameRegs s t [] ∧ ∀ a, (∀ r ∈ [p, q], a < tileKey s.iss.core (r / 16) (r % 16) ∨ tileKey s.iss.core (r / 16) (r % 16) + 64 ≤ a) →
        memGet t.mem a = memGet s.mem a := by
  let u := s.setRowAt s.iss.core p v
  have mem : u.mem = s.rowMem s.iss.core p v := State.setRowAt_mem ..
  have iss : u.iss = s.iss := State.setRowAt_iss ..
  have cur : u.cur = s.cur := State.setRowAt_cur ..
  have okU : MemOk u := State.setRowAt_memWf ok ..
  obtain ⟨t, run, puts⟩ := State.putRow_puts okU [] q w f
  refine ⟨t, run, ?_, puts.row, fun r => (puts.ty r).trans (State.ty_congr (congrArg Core.tiles (State.setRowAt_here ..)) r), ?_,
    fun x hx => (puts.frame.2 x hx).trans (by rw [cur]), fun a out => ?_⟩
  · rw [State.row, puts.iss, State.rowAt_ne puts.frame.1 ne, iss]
    exact State.rowAt_same ok mem
  · have retired := puts.retired
    rwa [Retired, iss, cur] at retired
  · simp only [List.forall_mem_cons] at out
    rw [← iss] at out
    rw [puts.frame.1 a out.2.1, State.rowMem_out ok mem a (iss ▸ out.1)]

/-- Rows next to each other in a lease are two rows. -/
theorem Ctx.phys_succ_ne {c : Ctx} {n p q : Nat} (hp : c.phys n = some p) (hq : c.phys (n + 1) = some q) : q ≠ p := by
  simp only [Ctx.phys, Option.map_eq_some_iff] at hp hq
  obtain ⟨t, -, rfl⟩ := hp
  obtain ⟨u, -, rfl⟩ := hq
  omega

section
variable {s : State} {d a : VReg} {k : KReg} {pd pa pe : Nat} (ok : MemOk s) (hd : s.cur.phys (s.vr d) = some pd)
  (ha : s.cur.phys (s.vr a) = some pa) (he : s.cur.phys (s.vr a + 1) = some pe)
include ok hd ha he

theorem State.scan_lanes {pr : Nat} (hr : s.cur.phys (s.vr d / 16 * 16 + (s.vr d + 15) % 16) = some pr)
    (types : ∀ p ∈ [pd, pa, pe, pr], s.ty p = 1) :
    ∃ t : State, s.scan d a k = .next t ∧ (∀ l < 16, t.lane pd l =
      (f32.fma 0 (f32.decode (s.lane pa l))
        (f32.decode (if (s.cur.mask k).getLsbD l then 0 else if l = 0 then s.lane pr 15 else t.lane pd (l - 1)))
        (f32.decode (s.lane pe l))).1) ∧ Retired s t ∧ RowFrame s t pd := by
  have single := State.any_ne_f32 types
  simp only [List.forall_mem_cons] at types
  obtain ⟨td, ta, te, tr, -⟩ := types
  let r := scanLanes (s.cur.mask k) 0 (s.lane pr 15) ((List.range 16).map fun l => (s.lane pa l, s.lane pe l))
  have width : laneBits (s.ty pd) = 32 := by rw [td]; rfl
  have count : laneCount (s.ty pd) = 16 := by rw [td]; rfl
  have run : s.scan d a k = s.putRow pd (packLanes (laneBits (s.ty pd)) r.1) r.2 := by
    simp only [State.scan, State.withNum_phys hd, State.withNum_phys ha, State.withNum_phys he, State.withNum_phys hr]
    rw [single, if_neg Bool.false_ne_true, State.lanes_f32 ta, State.lanes_f32 te, State.last_f32 tr, List.zip_map', width]
  obtain ⟨t, next, puts⟩ := State.putRow_puts ok [] pd (packLanes (laneBits (s.ty pd)) r.1) r.2
  have step {l : Nat} (hl : l < 16) := scanLanes_lane (s.cur.mask k) 0 (s.lane pr 15)
    ((List.range 16).map fun l => (s.lane pa l, s.lane pe l)) (i := l) (by simpa using hl)
  have value {l : Nat} (hl : l < 16) : t.lane pd l = r.1.getD l 0 := by
    rw [puts.lane_packed (count ▸ hl), width, Nat.mod_eq_of_lt]
    rw [step hl]
    exact f32_fma_lt ..
  refine ⟨t, run.trans next, fun l hl => ?_, puts.retired, puts.frame⟩
  rw [value hl, value (show l - 1 < 16 by omega)]
  exact (step hl).trans (by simp [r])

theorem execVscanc_lanes {g : GReg} {pq ph pl : Nat} (hq : s.cur.phys (s.vr d + 1) = some pq)
    (hh : s.cur.phys (s.vr d / 16 * 16 + (s.vr d + 14) % 16) = some ph) (hl : s.cur.phys (s.vr d / 16 * 16 + (s.vr d + 15) % 16) = some pl)
    (types : ∀ p ∈ [pd, pq, pa, pe, ph, pl], s.ty p = 1) :
    ∃ t : State, exec (.vscanc g d a k) s = .next t ∧ Retired s t ∧ SameRegs s t [] ∧ (∀ l < 16,
      let z := (s.cur.mask k).getLsbD l
      let hi := if z then 0 else if l = 0 then s.lane ph 15 else t.lane pd (l - 1)
      let lo := if z then 0 else if l = 0 then s.lane pl 15 else t.lane pq (l - 1)
      t.lane pd l = (pairStep (s.lane pa l) hi lo (s.lane pe l)).1 ∧ t.lane pq l = (pairStep (s.lane pa l) hi lo (s.lane pe l)).2.1) ∧
      ∀ q, (∀ p ∈ [pd, pq], q < tileKey s.iss.core (p / 16) (p % 16) ∨ tileKey s.iss.core (p / 16) (p % 16) + 64 ≤ q) →
        memGet t.mem q = memGet s.mem q := by
  have single := State.any_ne_f32 types
  simp only [List.forall_mem_cons] at types
  obtain ⟨td, tq, ta, te, th, tl, -⟩ := types
  let r := scanPairs (s.cur.mask k) 0 (s.lane ph 15) (s.lane pl 15) ((List.range 16).map fun l => (s.lane pa l, s.lane pe l))
  have run : exec (.vscanc g d a k) s = (s.setRowAt s.iss.core pd (packLanes 32 (r.1.map (·.1)))).putRow pq (packLanes 32 (r.1.map (·.2))) r.2 := by
    change execVscanc g d a k s = _
    simp only [execVscanc, State.withNum_phys hd, State.withNum_phys hq, State.withNum_phys ha, State.withNum_phys he, State.withNum_phys hh,
      State.withNum_phys hl]
    rw [single, if_neg Bool.false_ne_true, State.lanes_f32 ta, State.lanes_f32 te, State.last_f32 th, State.last_f32 tl, List.zip_map']
  obtain ⟨t, next, high, low, ty, retired, regs, frame⟩ := State.putTwo_puts ok (Ctx.phys_succ_ne hd hq).symm (packLanes 32 (r.1.map (·.1)))
    (packLanes 32 (r.1.map (·.2))) r.2
  have step {l : Nat} (hl : l < 16) := scanPairs_lane (s.cur.mask k) 0 (s.lane ph 15) (s.lane pl 15)
    ((List.range 16).map fun l => (s.lane pa l, s.lane pe l)) (i := l) (by simpa using hl)
  have value {l : Nat} (hl : l < 16) : t.lane pd l = (r.1.getD l (0, 0)).1 ∧ t.lane pq l = (r.1.getD l (0, 0)).2 := by
    obtain ⟨hi, lo⟩ : (r.1.getD l (0, 0)).1 < 2 ^ 32 ∧ (r.1.getD l (0, 0)).2 < 2 ^ 32 := by
      rw [step hl]
      exact pairStep_lt ..
    have first := State.lane_packed_f32 ((ty pd).trans td) high hl
    have second := State.lane_packed_f32 ((ty pq).trans tq) low hl
    rw [show 0 = ((0, 0) : Nat × Nat).1 from rfl, List.getD_map] at first
    rw [show 0 = ((0, 0) : Nat × Nat).2 from rfl, List.getD_map] at second
    exact ⟨first.trans (Nat.mod_eq_of_lt hi), second.trans (Nat.mod_eq_of_lt lo)⟩
  refine ⟨t, run.trans next, retired, regs, fun l hl => ?_, frame⟩
  obtain ⟨hi, lo⟩ := value hl
  obtain ⟨hi', lo'⟩ := value (show l - 1 < 16 by omega)
  rw [hi, lo, hi', lo', step hl]
  simp [r]

end

/-- Settles O44: each unit writes its row once, with the lanes of its own rule. -/
theorem vectorMovesResult : Obligations.VectorMovesResult := by
  intro s g k d a b r i pd pa pb ok hd ha hb ty n w f x done
  refine ⟨fun good => execVbcx_moves ok hd good, fun good inside => execVmvx_reads ha good inside, fun _ outside => execVmvx_traps ha outside,
    fun good inside => execVmxv_moves ok hd good inside, execVpack_puts ok hd ha hb, fun sat c mode width => execVcvt_puts ok hd ha sat c mode width,
    fun p c => execVunpack_sets ok hd ha p c, fun type => ⟨fun int => execVrsum_int ok hd ha type int,
      fun float mode => execVrsum_float ok hd ha type float mode, fun int => execVrmax_int ok hd ha type int,
      fun float numbers => execVrmax_float ok hd ha type float numbers, ?perm, ?slide, fun inside => ?bcast⟩,
    fun pe pr he hr types => ?scan, fun pe pq ph pl he hq hh hl types => execVscanc_lanes ok hd ha he hq hh hl types⟩
  case perm => exact execVperm_moves ok hd ha hb type
  case slide => exact execVslide_moves ok hd ha type i
  case bcast => exact execVbcast_moves ok hd ha type inside
  case scan =>
    have lanes := State.scan_lanes ok hd ha he (k := k) hr types
    simp only [List.forall_mem_cons, List.not_mem_nil, false_imp_iff, implies_true, and_true]
    exact ⟨lanes, lanes⟩

end Sys2Proof.Machine
end

section
/-! PROOF. The attention mask unit (R280, R286): the binding that an MBIND installs also reaches the requests that wait behind it, and so a
state in which serving one leaves another queue than the rest of the one it took it from. -/

namespace Sys2Proof.Machine

open Sys2Proof

/-! ## A new binding and the queue of the AMU (R280) -/

/-- A request as an MBIND of thread `base` leaves it: one of the same thread has the new binding. -/
def AmuReq.rebound (q : AmuReq) (base : Nat) (b : Binding) : AmuReq := if q.base = base then { q with bind := some b } else q

theorem State.rebind_amuq (s : State) (base : Nat) (b : Binding) (cl : Nat) :
    ((s.rebind base b).cluster cl).amuq = (s.cluster cl).amuq.map (·.rebound base b) :=
  congrArg Cluster.amuq
    (tabGet_map Cluster.reset (fun k => { k with amuq := k.amuq.map (·.rebound base b) }) rfl s.clusters cl)

@[simp] theorem State.fillReg_clusters (s : State) (uid reg acq : Nat) (v : Word) : (s.fillReg uid reg acq v).clusters = s.clusters := by
  unfold State.fillReg
  split <;> rfl

@[simp] theorem State.onAmuCtx_clusters (s : State) (r : AmuReq) (f : Ctx → Ctx) : (s.onAmuCtx r f).clusters = s.clusters := by
  unfold State.onAmuCtx State.onThread
  split
  · rfl
  · split <;> rfl

/-- The answer to an MBIND with a legal block leaves the rest of every queue as the new binding makes it. -/
theorem State.amuAnswer_mbind_amuq {s : State} {r : AmuReq} {b : Binding} {m : Nat} (mbind : r.op = 0) (legal : readBlock r.block = some (b, m))
    (cl : Nat) : ((s.amuAnswer r).cluster cl).amuq = (s.cluster cl).amuq.map (·.rebound r.base b) := by
  rw [← State.rebind_amuq, State.cluster, State.cluster]
  simp [State.amuAnswer, mbind, legal]

/-- The oldest request of a running team leaves the queue and is answered (R286). -/
theorem execAmuServe_live {s : State} {cl : Nat} {r : AmuReq} {l : List AmuReq} (queue : (s.cluster cl).amuq = r :: l)
    (live : (s.teamOf r.core).ending = false) :
    exec (.amuServe cl) s = .next ((s.onCluster cl fun k => { k with amuq := l }).amuAnswer r) := by
  have live' : ((s.onCluster cl fun k => { k with amuq := l }).teamOf r.core).ending = false := live
  show execAmuServe cl s = _
  simp [execAmuServe, queue, live']

theorem execAmuServe_mbind_amuq {s : State} {cl : Nat} {r : AmuReq} {l : List AmuReq} {b : Binding} {m : Nat} (queue : (s.cluster cl).amuq = r :: l)
    (live : (s.teamOf r.core).ending = false) (mbind : r.op = 0) (legal : readBlock r.block = some (b, m)) :
    ∃ t : State, exec (.amuServe cl) s = .next t ∧ (t.cluster cl).amuq = l.map (·.rebound r.base b) := by
  refine ⟨_, execAmuServe_live queue live, (State.amuAnswer_mbind_amuq mbind legal cl).trans ?_⟩
  simp [State.cluster, State.onCluster]

/-! ## An MCLASS behind the MBIND of its thread -/

/-- A mask block of two words, K ≤ Q and END, without documents (R278). -/
def causalBlock : List Byte := leBytes 8 2 ++ List.replicate 56 0 ++ leBytes 2 0x1000 ++ leBytes 2 0x7000 ++ List.replicate 316 0
/-- Thread 7 binds the block, into register 9. -/
def bindReq : AmuReq :=
  { uid := 7, who := [], base := 7, core := 0, op := 0, dst := 9, a := BitVec.ofNat 64 (winKey 0 0 0x400), b := 0, upc := 0,
    block := causalBlock, bind := none }
/-- It then classifies one tile, into register 10; it had no binding as it issued the MCLASS. -/
def classReq : AmuReq := { bindReq with op := 1, dst := 10, a := 0, b := 1, upc := 4, block := [] }
/-- Thread 7 stands in context 0 of core 0, and both requests wait at the AMU of cluster 0. -/
def classBehindBind : State :=
  { State.reset with
    cores := [(0, { Core.reset with ctxs := [(0, { Ctx.empty with uid := 7 })] })]
    clusters := [(0, { Cluster.reset with amuq := [bindReq, classReq] })] }

theorem readBlock_causalBlock : readBlock causalBlock = some ({ prog := [0x1000, 0x7000], docs := [] }, 1) := by decide +kernel

/-- Refutes O52: it says that an MBIND leaves the rest of the queue as it stood. Where the thread has an MCLASS waiting behind its MBIND, that
request has the new binding in the queue afterwards (R280), and had none before. -/
theorem not_clusterUnitsResult : ¬ Obligations.ClusterUnitsResult := by
  unfold Obligations.ClusterUnitsResult
  intro holds
  obtain ⟨-, -, serves, -⟩ := holds classBehindBind 0
  obtain ⟨binds, -⟩ := serves bindReq [classReq] 0 0 rfl rfl (by decide) (by decide)
  obtain ⟨t, run, unchanged, -⟩ := binds rfl _ _ readBlock_causalBlock
  obtain ⟨u, run', rebound⟩ := execAmuServe_mbind_amuq (s := classBehindBind) (cl := 0) rfl rfl rfl readBlock_causalBlock
  obtain rfl : u = t := Host.Outcome.next.inj (run'.symm.trans run)
  exact absurd (rebound.symm.trans unchanged) (by decide)

end Sys2Proof.Machine
end

section
/-! PROOF. Undefined units (R311 to R313, R315, R319, R320): what a handler finds as it is entered for traps 0x01 and 0x02, the team fault they
are where none is entered, and the record that the core latches of it at the end of the cycle. -/

namespace Sys2Proof.Machine

open Sys2Proof

/-! ## Entering the emulation handler (R313) -/

/-- In the emulation handler, entered within a light handler or not, x5 to x8 are those of the third bank. -/
theorem Ctx.bank_emulation {c : Ctx} (em : c.inEm = true) : c.bank = c.outer.2.2 := by
  cases lh : c.inLh <;> simp [Ctx.bank, swapBanks, em, lh]

theorem Ctx.tag_emulation {c : Ctx} (em : c.inEm = true) {r : XReg} (swapped : banked r = true) : c.tag r = c.outer.2.2 + r.toNat := by
  rw [Ctx.tag, if_pos swapped, Ctx.bank_emulation em]

/-- A context that stands in the emulation handler, its registers still to be written: a unit under way and a frame in progress are abandoned. -/
def Ctx.inEmulation (c : Ctx) (cause : Nat) (upc bits : Word) : Ctx :=
  { c.forget with emepc := upc, emcause := BitVec.ofNat 64 cause, emval := bits, inEm := true, frame := none }

/-- The registers as the handler finds them: x5 to x7 are written by their names in it. -/
theorem Ctx.enterEmulation_reg (c : Ctx) (cause : Nat) (upc bits vec : Word) (r : XReg) :
    (c.enterEmulation cause upc bits vec).reg r =
      ((((c.inEmulation cause upc bits).setReg 5 (BitVec.ofNat 64 cause)).setReg 6 bits).setReg 7 upc).reg r := rfl

theorem Ctx.enterEmulation_x (c : Ctx) (cause : Nat) (upc bits vec : Word) :
    (c.enterEmulation cause upc bits vec).x =
      ((((c.inEmulation cause upc bits).setReg 5 (BitVec.ofNat 64 cause)).setReg 6 bits).setReg 7 upc).x := rfl

theorem Ctx.enterEmulation_fields (c : Ctx) (cause : Nat) (upc bits vec : Word) :
    (c.enterEmulation cause upc bits vec).emepc = upc ∧ (c.enterEmulation cause upc bits vec).emcause = BitVec.ofNat 64 cause ∧
      (c.enterEmulation cause upc bits vec).emval = bits ∧ (c.enterEmulation cause upc bits vec).inEm = true ∧
      (c.enterEmulation cause upc bits vec).pc = vec ∧ (c.enterEmulation cause upc bits vec).frame = none ∧
      (c.enterEmulation cause upc bits vec).instret = c.instret ∧ (c.enterEmulation cause upc bits vec).frames = c.frames := by
  simp [Ctx.enterEmulation, Ctx.forget]

/-- Entry hands the handler the cause, the unit's bytes and its address in the three registers that name them. -/
theorem Ctx.enterEmulation_regs (c : Ctx) (cause : Nat) (upc bits vec : Word) :
    (c.enterEmulation cause upc bits vec).reg 5 = BitVec.ofNat 64 cause ∧ (c.enterEmulation cause upc bits vec).reg 6 = bits ∧
      (c.enterEmulation cause upc bits vec).reg 7 = upc := by
  refine ⟨?_, ?_, ?_⟩
  · rw [Ctx.enterEmulation_reg, Ctx.reg_setReg_ne _ _ (by decide), Ctx.reg_setReg_ne _ _ (by decide), Ctx.reg_setReg_same _ _ _ (by decide)]
  · rw [Ctx.enterEmulation_reg, Ctx.reg_setReg_ne _ _ (by decide), Ctx.reg_setReg_same _ _ _ (by decide)]
  · rw [Ctx.enterEmulation_reg, Ctx.reg_setReg_same _ _ _ (by decide)]

/-- No register but those three changes. -/
theorem Ctx.enterEmulation_regAt (c : Ctx) (cause : Nat) (upc bits vec : Word) {y : Nat}
    (other : y ∉ [c.outer.2.2 + 5, c.outer.2.2 + 6, c.outer.2.2 + 7]) : (c.enterEmulation cause upc bits vec).regAt y = c.regAt y := by
  have tag (e : Ctx) (frames : e.frames = c.frames) (em : e.inEm = true) {r : XReg} (swapped : banked r = true) :
      e.tag r = c.outer.2.2 + r.toNat := by
    rw [Ctx.tag_emulation em swapped, Ctx.outer_congr frames]
  simp only [List.mem_cons, List.not_mem_nil, or_false, not_or] at other
  obtain ⟨ne5, ne6, ne7⟩ := other
  rw [Ctx.regAt, Ctx.enterEmulation_x, ← Ctx.regAt, Ctx.regAt_setReg_ne, Ctx.regAt_setReg_ne, Ctx.regAt_setReg_ne]
  · rfl
  · rw [tag (c.inEmulation cause upc bits) rfl rfl rfl]; exact ne5
  · rw [tag _ (by simp; rfl) (by simp; rfl) rfl]; exact ne6
  · rw [tag _ (by simp; rfl) (by simp; rfl) rfl]; exact ne7

/-- x8 names the handler's own register, as it was. -/
theorem Ctx.enterEmulation_reg8 (c : Ctx) (cause : Nat) (upc bits vec : Word) :
    (c.enterEmulation cause upc bits vec).reg 8 = c.regAt (c.outer.2.2 + 8) := by
  obtain ⟨-, -, -, em, -, -, -, frames⟩ := c.enterEmulation_fields cause upc bits vec
  rw [Ctx.reg, if_neg (by decide), Ctx.tag_emulation em rfl, Ctx.outer_congr frames]
  exact c.enterEmulation_regAt cause upc bits vec (by simp)

/-! ## The unit's trap (R311, R313, R315) -/

/-- A change of the performing context alone leaves every other core and context. -/
theorem State.sameOthers_onCur (s : State) (f : Ctx → Ctx) : SameOthers s (s.onCur f) :=
  ⟨fun _ ne => State.core_onCore_ne s _ ne, fun _ ne => State.ctxAt_onCtx_ne s f (.inr ne)⟩

/-- Traps 0x01 and 0x02 enter the emulation handler where there is one and the thread does not stand in it. -/
theorem State.trap_enters {s : State} {cause : Nat} (v : Word) (undefined : cause = 1 ∨ cause = 2) (out : s.cur.inEm = false)
    (handler : s.here.emvec ≠ 0) : s.trap cause v = s.onCur fun c => c.enterEmulation cause s.iss.upc s.iss.bits s.here.emvec := by
  rw [State.trap, if_pos undefined, if_neg (Bool.eq_false_iff.1 out), if_neg handler]

/-- Without one, and inside it, they are team faults. -/
theorem State.trap_undefined_faults {s : State} {cause : Nat} (v : Word) (undefined : cause = 1 ∨ cause = 2)
    (closed : s.cur.inEm = true ∨ s.here.emvec = 0) :
    s.trap cause v = s.threadFault s.iss.core s.iss.ctx (if s.cur.inEm then 0x12 else cause) s.iss.bits s.iss.upc := by
  rw [State.trap, if_pos undefined]
  by_cases inside : s.cur.inEm = true
  · rw [if_pos inside, if_pos inside]
  · rw [if_neg inside, if_neg inside, if_pos (closed.resolve_left inside)]

/-- The state in which an undefined unit traps: its bytes are those that the fetch could not decode. -/
def State.undefinedBits (s : State) (bytes : Word) : State := { s with iss := { s.iss with bits := bytes } }

theorem exec_undefinedUnit (s : State) (cause : BitVec 8) (bytes : Word) :
    exec (.undefinedUnit cause bytes) s = .next ((s.undefinedBits bytes).trap cause.toNat bytes) := rfl

/-! ## The record of a team fault (R319, R320) -/

theorem recordOf_cause (who : List Nat) (eng : Bool) {cause : Nat} (off value index : Word) (cycle : Nat) (byte : cause < 256) :
    ((recordOf who eng cause off value index cycle).getD 0 0).toNat % 256 = cause := by
  simp only [recordOf, faultRecord, List.getD_cons_zero, BitVec.toNat_ofNat]
  omega

/-- What a core shows of a team fault: that it has stopped, that it is faulted, and its latched record. -/
def Core.faultView (c : Core) : Bool × Bool × FRecord := (c.stop, c.faulted, c.flatch)

theorem State.onCore_faultView {f : Core → Core} (keeps : ∀ c, (f c).faultView = c.faultView) (s : State) (m n : Nat) :
    ((s.onCore m f).core n).faultView = (s.core n).faultView := by
  obtain rfl | ne := eq_or_ne n m
  · rw [State.core_onCore_same, keeps]
  · rw [State.core_onCore_ne _ _ ne]

theorem foldl_faultView {α : Type} {f : State → α → State} {n : Nat} (keeps : ∀ s a, ((f s a).core n).faultView = (s.core n).faultView)
    (l : List α) (s : State) : ((l.foldl f s).core n).faultView = (s.core n).faultView := by
  induction l generalizing s with
  | nil => rfl
  | cons a l ih => exact (ih _).trans (keeps s a)

theorem State.recvIce_faultView (s : State) (cores : List Nat) (cl n : Nat) : ((s.recvIce cores cl).core n).faultView = (s.core n).faultView :=
  foldl_faultView (fun s (r : Command) => State.onCore_faultView (f := fun c => { c with recv := c.recv + 1 }) (fun _ => rfl) s r.core n) _ s

/-- What a team has queued leaves its cores; that they have faulted, and with which record, stands. -/
theorem State.discardAll_faultView (s : State) (cores : List Nat) (n : Nat) : ((s.discardAll cores).core n).faultView = (s.core n).faultView :=
  (foldl_faultView (f := fun s cl => (s.recvIce cores cl).onCluster cl fun k => k.discard cores)
    (fun s cl => s.recvIce_faultView cores cl n) _ _).trans
    (foldl_faultView (fun s c => State.onCore_faultView (f := Core.discard) (fun _ => rfl) s c n) _ s)

theorem State.faultTeam_faultView (s : State) (m n : Nat) : ((s.faultTeam m).core n).faultView = (s.core n).faultView := by
  unfold State.faultTeam
  split
  · rfl
  · exact State.discardAll_faultView _ _ n

/-- A core whose latch is empty stops and latches the record of its fault. -/
theorem State.whoFault_faultView {s : State} {n : Nat} (who : List Nat) (eng : Bool) (cause : Nat) (value upc : Word)
    (first : (s.core n).flatch = []) :
    ((s.whoFault n who eng cause value upc).core n).faultView =
      (true, true, recordOf who eng cause (upc - (s.core n).abase) value (s.teamOf n).block s.cycle) := by
  rw [State.whoFault, State.faultTeam_faultView, State.core_onCore_same, Core.latch, Core.faultView, if_pos first]

/-! ## The faults of a cycle at its end (R312) -/

/-- The one fault of a cycle is dropped where its thread stands nowhere. -/
theorem State.latchRaised_gone {s : State} {q : Raised} (one : s.raised = [q]) (stands : s.holder q.uid = none) (moves : s.moving q.uid = none) :
    s.latchRaised = { s with raised := [] } := by
  rw [State.latchRaised, one]
  refine if_neg ?_
  show ¬((s.holder q.uid).isSome || (s.moving q.uid).isSome) = true
  simp [stands, moves]

theorem State.latchRaised_held {s : State} {q : Raised} (one : s.raised = [q]) (stands : (s.holder q.uid).isSome = true) :
    s.latchRaised = { s with raised := [] }.whoFault q.core q.who false q.cause q.value q.upc := by
  rw [State.latchRaised, one]
  exact if_pos (Bool.or_eq_true_iff.2 (.inl stands))

/-- Settles O28: the handler is entered with the unit's cause, bytes and address in the registers of the third bank, which `outer` ends in
whatever handler stands outside; where none can be, the thread faults, and what a discard does to the team leaves the latched record. -/
theorem undefinedUnitsResult : Obligations.UndefinedUnitsResult := by
  intro s cause bytes undefined
  have emulated : cause.toNat = 1 ∨ cause.toNat = 2 := undefined.imp (congrArg BitVec.toNat) (congrArg BitVec.toNat)
  refine ⟨fun out handler => ?_, fun closed => ?_, fun q one => ⟨State.latchRaised_gone one, fun stands first byte => ?_⟩⟩
  · have widened : BitVec.ofNat 64 cause.toNat = cause.zeroExtend 64 := BitVec.ofNat_toNat ..
    obtain ⟨emepc, emcause, emval, inEm, pc, frame, instret, -⟩ := s.cur.enterEmulation_fields cause.toNat s.iss.upc bytes s.here.emvec
    obtain ⟨reg5, reg6, reg7⟩ := s.cur.enterEmulation_regs cause.toNat s.iss.upc bytes s.here.emvec
    refine ⟨_, (exec_undefinedUnit s cause bytes).trans (congrArg _ (State.trap_enters bytes emulated out handler)), ?_⟩
    rw [State.cur_onCur]
    exact ⟨emepc, emcause.trans widened, emval, inEm, pc, reg5.trans widened, reg6, reg7, s.cur.enterEmulation_reg8 .., frame, instret,
      fun _ other => s.cur.enterEmulation_regAt _ _ _ _ other, fun _ => rfl, (s.undefinedBits bytes).sameOthers_onCur _⟩
  · refine ⟨_, (exec_undefinedUnit s cause bytes).trans (congrArg _ (State.trap_undefined_faults bytes emulated closed)), ?_⟩
    obtain ⟨memory, raised, context⟩ := (s.undefinedBits bytes).threadFault_raises s.iss.core s.iss.ctx
      (if s.cur.inEm then 0x12 else cause.toNat) bytes s.iss.upc
    set t := (s.undefinedBits bytes).threadFault s.iss.core s.iss.ctx (if s.cur.inEm then 0x12 else cause.toNat) bytes s.iss.upc
    have cur : t.cur = { s.cur with st := .ending } := context
    show t.cur.st = .ending ∧ t.cur.x = s.cur.x ∧ t.cur.instret = s.cur.instret ∧ _
    rw [cur]
    exact ⟨rfl, rfl, rfl, fun a => congrArg (memGet · a) memory, raised⟩
  · have view := State.whoFault_faultView (s := { s with raised := [] }) q.who false q.cause q.value q.upc first
    rw [← State.latchRaised_held one stands] at view
    simp only [Core.faultView, Prod.mk.injEq] at view
    obtain ⟨stop, faulted, record⟩ := view
    refine ⟨stop, faulted, ?_⟩
    rw [record]
    exact ⟨recordOf_cause _ _ _ _ _ _ byte, rfl, rfl⟩

end Sys2Proof.Machine
end
